-- ==== Sys2Proof/Word.lean ====
section
/-! DEFINITION. The word types of the machine (R9, R10): a g register, a byte, a lane and a v register.
The helpers that a test could show wrong (bit fields, sign extension, byte order) stand in Decode.lean and under
Machine/. -/

namespace Sys2Proof

/-- A 64-bit g register, CSR or address. -/
abbrev Word := BitVec 64

/-- One byte of memory. -/
abbrev Byte := BitVec 8

/-- One 32-bit lane of a v register, or an m register. -/
abbrev Lane := BitVec 32

/-- A v register: 32 lanes, lane 0 first (R44). -/
abbrev VReg := Vector Lane 32

end Sys2Proof
end

