-- ==== Sys2Proof/Syntax.lean ====
section
/-! DEFINITION. The whole instruction table (R42 to R59) as one inductive: one constructor for each of the 283
encoded instructions, its fields in the order of the word (S first), and one for each of the 71 steps of the machine
that the table lists beside them; an event's operands choose which of several like steps it is. -/

namespace Sys2Proof

/-- The two engines of a cluster (R264). -/
inductive Engine where
  | matrix
  | copy
  deriving DecidableEq, Repr

/-- The units that carry a suspicion score (R405); the constructor order is the UNIT code order of R405. -/
inductive UnitKind where
  | core
  | tsc
  | matrix
  | copy
  | router
  | hurdle
  | llc
  | pc
  | port
  deriving DecidableEq, Repr

/-- What another package sends over the fabric: a message (R418); the sum of a round of a reduction group so far, with the
g[a] and g[b] images of the group there (R422, R423), how many rounds all its participants have contributed to, and the result
of a round whose root lies here (R423); an arrival, by its number among those of that package, on a barrier held here, with the
logical core and channel of a BAR.AF, or its configuration, and the state of a barrier held there, with the number of the last
arrival of this package that it counts (R421); that a copy whose destination is an object here is taken there, and the code that
it writes to an element of it (R419). -/
inductive OutsideKind where
  | message
  | roundSum (group round : Nat) (a b : Word)
  | roundsDone (group rounds : Nat)
  | roundResult (group round : Nat) (a b : Word)
  | arrive (id num : Nat) (req : Option (Nat × Nat))
  | barCfg (id n : Nat)
  | barState (id n arr : Nat) (phase : Bool) (mine : Nat)
  | copyTake (copy obj : Nat)
  | write (copy i0 i1 : Nat)
  deriving DecidableEq, Repr

/-- What an error in the state of a cluster's unit is (R162, R281, R405): a corrected one, met at an address of a context in
the TLB; a data check of the unit's firmware that failed; an uncorrectable one. -/
inductive UnitError where
  | corrected (ctx : Nat) (va : Word)
  | dataCheck
  | fatal
  deriving DecidableEq, Repr

/-- What an error of an LLC slice is (R392): a corrected one; one in the data of the line that holds an address; one in the
tags, the directory or the migration entries, with the addresses of the dirty units that it leaves damaged. -/
inductive LlcError where
  | corrected
  | data (pa : Nat)
  | lost (bad : List Nat)
  deriving DecidableEq, Repr

/-- A message handed in from outside the package: by the host (R409) or over the fabric (R418 to R423). -/
structure OutsideMsg where
  what : OutsideKind := .message
  dst : Nat
  ch : Nat
  wfmt : Nat
  ordered : Bool
  ts : Word
  payload : List Byte
  ctx : Nat
  src : Nat
  spkg : Nat
  seq : Nat
  fid : Word
  deriving DecidableEq, Repr

/-- The head that an engine takes: the position of its core in the cluster, and the object record that another package answers
with, none where it refuses (R187, R419). -/
structure TakenHead where
  pos : Nat
  far : Option Nat := none
  deriving DecidableEq, Repr

/-- How a command reads an element: the log positions of its bytes, or the bytes that another package answers with; refused
says that the host, or the other package, refuses (R188, R193, R419). -/
structure ReadView where
  backs : List Nat
  refused : Bool := false
  deriving DecidableEq, Repr

/-- A flit that arrives at a port, and whether its CRC holds (R416). -/
structure PortFlit where
  port : Nat
  ok : Bool
  deriving DecidableEq, Repr

/-- The end of a retrain: whether the port works, and what firmware writes to the route table (R417, R426). -/
structure Retrain where
  ok : Bool
  routes : List (Nat × Nat) := []
  deriving DecidableEq, Repr

/-- A CHALLENGE: the measurements whose digest it asks for, and its nonce (R413). -/
structure ChallengeRequest where
  kind : Nat
  nonce : BitVec 256
  deriving DecidableEq, Repr

/-- A GET_MEASUREMENTS: the index, whether it asks for a signature, and its nonce (R413). -/
structure MeasureRequest where
  index : Nat
  signed : Bool
  nonce : BitVec 256
  deriving DecidableEq, Repr

/-- One firmware image presented at boot (R412). -/
structure BootImage where
  svn : Nat
  data : List Byte
  signature : List Byte
  deriving DecidableEq, Repr

/-- One logical core of a context to be created: its number, scratchpad size, physical core and position there (R159,
R344), for a dual one its shadow and the alternate pair that the placement table names (R354, R356), what
the launch writes to its channels (R228: the channel and words 0 to 2), and its scratchpad image (R26). -/
structure LCoreSpec where
  n : Nat
  lsz : Nat
  pcore : Nat
  hidx : Nat
  dual : Option (Nat × Nat × Nat)
  table : List (Nat × Word × Word × Word)
  image : List Byte
  deriving DecidableEq, Repr

/-- One page of a context's second stage (R382): intermediate page number, physical page number (both of 64 KiB) and
attributes. -/
structure PageSpec where
  ia : Nat
  pa : Nat
  gran : Nat
  cache : Bool
  shared : Bool
  mig : Bool
  ro : Bool
  keyid : Nat
  deriving DecidableEq, Repr

/-- What placement firmware and the host fix when they create a context (R393): the descriptor, the bases, the
logical cores and the second-stage map. -/
structure CtxSpec where
  ctx : Nat
  cores : List LCoreSpec
  lawBase : Word
  objBase : Word
  trapSave : Word
  root : Word
  dlBase : Word
  fpol : Word
  fpn : Nat
  svBase : Word
  svSize : Nat
  inbox : Nat
  keyid : Nat
  hostOk : Bool
  pages : List PageSpec
  /-- R421: the other packages on which the context has logical cores -/
  pkgs : List Nat := []
  deriving DecidableEq, Repr

/-- R42: one instruction, or one step of the machine. -/
inductive Instr where
  /- group Opr, major 0x01 -/
  | add (s : Bool) (d a b : BitVec 5)
  | sub (s : Bool) (d a b : BitVec 5)
  | and (s : Bool) (d a b : BitVec 5)
  | or (s : Bool) (d a b : BitVec 5)
  | xor (s : Bool) (d a b : BitVec 5)
  | andn (s : Bool) (d a b : BitVec 5)
  | sll (s : Bool) (d a b : BitVec 5)
  | srl (s : Bool) (d a b : BitVec 5)
  | sra (s : Bool) (d a b : BitVec 5)
  | slt (s : Bool) (d a b : BitVec 5)
  | sltu (s : Bool) (d a b : BitVec 5)
  | min (s : Bool) (d a b : BitVec 5)
  | max (s : Bool) (d a b : BitVec 5)
  | minu (s : Bool) (d a b : BitVec 5)
  | maxu (s : Bool) (d a b : BitVec 5)
  | cmovz (s : Bool) (d a b : BitVec 5)
  | cmovn (s : Bool) (d a b : BitVec 5)
  | clz (s : Bool) (d a : BitVec 5)
  | ctz (s : Bool) (d a : BitVec 5)
  | popc (s : Bool) (d a : BitVec 5)
  | brev (s : Bool) (d a : BitVec 5)
  | bswap (s : Bool) (d a : BitVec 5)
  | ext (s : Bool) (d a b : BitVec 5)
  | ins (s : Bool) (d a b : BitVec 5)
  | addw (s : Bool) (d a b : BitVec 5)
  | subw (s : Bool) (d a b : BitVec 5)
  | sllw (s : Bool) (d a b : BitVec 5)
  | srlw (s : Bool) (d a b : BitVec 5)
  | sraw (s : Bool) (d a b : BitVec 5)
  /- group Addi, major 0x02 -/
  | addi (s : Bool) (d a : BitVec 5) (i : BitVec 15)
  /- group Andi, major 0x03 -/
  | andi (s : Bool) (d a : BitVec 5) (i : BitVec 15)
  /- group Ori, major 0x04 -/
  | ori (s : Bool) (d a : BitVec 5) (i : BitVec 15)
  /- group Xori, major 0x05 -/
  | xori (s : Bool) (d a : BitVec 5) (i : BitVec 15)
  /- group Slti, major 0x06 -/
  | slti (s : Bool) (d a : BitVec 5) (i : BitVec 15)
  /- group Sltiu, major 0x07 -/
  | sltiu (s : Bool) (d a : BitVec 5) (i : BitVec 15)
  /- group Shi, major 0x08 -/
  | slli (s : Bool) (d a : BitVec 5) (h : BitVec 6)
  | srli (s : Bool) (d a : BitVec 5) (h : BitVec 6)
  | srai (s : Bool) (d a : BitVec 5) (h : BitVec 6)
  | slliw (s : Bool) (d a h : BitVec 5)
  | srliw (s : Bool) (d a h : BitVec 5)
  | sraiw (s : Bool) (d a h : BitVec 5)
  /- group Lui, major 0x09 -/
  | lui (s : Bool) (d : BitVec 5) (i : BitVec 20)
  /- group Addpc, major 0x0A -/
  | addpc (s : Bool) (d : BitVec 5) (i : BitVec 20)
  /- group Muldiv, major 0x0B -/
  | mul (s : Bool) (d a b : BitVec 5)
  | mulh (s : Bool) (d a b : BitVec 5)
  | mulhu (s : Bool) (d a b : BitVec 5)
  | div (s : Bool) (d a b : BitVec 5)
  | divu (s : Bool) (d a b : BitVec 5)
  | rem (s : Bool) (d a b : BitVec 5)
  | remu (s : Bool) (d a b : BitVec 5)
  | mulw (s : Bool) (d a b : BitVec 5)
  | divw (s : Bool) (d a b : BitVec 5)
  | divuw (s : Bool) (d a b : BitVec 5)
  | remw (s : Bool) (d a b : BitVec 5)
  | remuw (s : Bool) (d a b : BitVec 5)
  /- group Beq, major 0x0C -/
  | beq (s : Bool) (a b : BitVec 5) (i : BitVec 15)
  /- group Bne, major 0x0D -/
  | bne (s : Bool) (a b : BitVec 5) (i : BitVec 15)
  /- group Blt, major 0x0E -/
  | blt (s : Bool) (a b : BitVec 5) (i : BitVec 15)
  /- group Bge, major 0x0F -/
  | bge (s : Bool) (a b : BitVec 5) (i : BitVec 15)
  /- group Bltu, major 0x10 -/
  | bltu (s : Bool) (a b : BitVec 5) (i : BitVec 15)
  /- group Bgeu, major 0x11 -/
  | bgeu (s : Bool) (a b : BitVec 5) (i : BitVec 15)
  /- group Jal, major 0x12 -/
  | jal (s : Bool) (i : BitVec 25)
  /- group J, major 0x13 -/
  | j (s : Bool) (i : BitVec 25)
  /- group Jalr, major 0x14 -/
  | jalr (s : Bool) (d a : BitVec 5) (i : BitVec 15)
  /- group Sys, major 0x15 -/
  | nop (s : Bool)
  | fin (s : Bool)
  | trap (s : Bool) (a b : BitVec 5)
  | brk (s : Bool)
  | fmtSet (s : Bool) (d a b : BitVec 5)
  | fmtRd (s : Bool) (d a : BitVec 5)
  | wgRd (s : Bool) (d a b : BitVec 5)
  | wgClr (s : Bool) (a b : BitVec 5)
  | wgSync (s : Bool) (a : BitVec 5)
  | tbRd (s : Bool) (d : BitVec 5)
  | tlbWr (s : Bool) (a b : BitVec 5)
  | tlbInv (s : Bool) (a b : BitVec 5)
  | tlbRd (s : Bool) (d a b : BitVec 5)
  | fltRply (s : Bool) (a b : BitVec 5)
  | rectSet (s : Bool) (a b : BitVec 5)
  | migGo (s : Bool) (a b : BitVec 5)
  | ctxStop (s : Bool) (a : BitVec 5)
  | ctxGo (s : Bool) (a b : BitVec 5)
  /- group Ld, major 0x16 -/
  | ldB (s : Bool) (d a : BitVec 5) (o : BitVec 12)
  | ldBu (s : Bool) (d a : BitVec 5) (o : BitVec 12)
  | ldH (s : Bool) (d a : BitVec 5) (o : BitVec 12)
  | ldHu (s : Bool) (d a : BitVec 5) (o : BitVec 12)
  | ldW (s : Bool) (d a : BitVec 5) (o : BitVec 12)
  | ldWu (s : Bool) (d a : BitVec 5) (o : BitVec 12)
  | ldD (s : Bool) (d a : BitVec 5) (o : BitVec 12)
  /- group St, major 0x17 -/
  | stB (s : Bool) (d a : BitVec 5) (o : BitVec 12)
  | stH (s : Bool) (d a : BitVec 5) (o : BitVec 12)
  | stW (s : Bool) (d a : BitVec 5) (o : BitVec 12)
  | stD (s : Bool) (d a : BitVec 5) (o : BitVec 12)
  /- group Vld, major 0x18 -/
  | vldW (s : Bool) (d a : BitVec 5) (q : BitVec 3) (o : BitVec 9)
  | vldBf (s : Bool) (d a : BitVec 5) (q : BitVec 3) (o : BitVec 9)
  | vldH (s : Bool) (d a : BitVec 5) (q : BitVec 3) (o : BitVec 9)
  | vldB (s : Bool) (d a : BitVec 5) (q : BitVec 3) (o : BitVec 9)
  | vldSb (s : Bool) (d a : BitVec 5) (q : BitVec 3) (o : BitVec 9)
  | vldBc (s : Bool) (d a : BitVec 5) (q : BitVec 3) (o : BitVec 9)
  /- group Vst, major 0x19 -/
  | vstW (s : Bool) (d a : BitVec 5) (q : BitVec 3) (o : BitVec 9)
  | vstBf (s : Bool) (d a : BitVec 5) (q : BitVec 3) (o : BitVec 9)
  | vstH (s : Bool) (d a : BitVec 5) (q : BitVec 3) (o : BitVec 9)
  | vstB (s : Bool) (d a : BitVec 5) (q : BitVec 3) (o : BitVec 9)
  /- group Vtl, major 0x1A -/
  | vldt (s : Bool) (d : BitVec 5) (t : BitVec 6) (g : BitVec 5) (q : BitVec 3)
  | vstt (s : Bool) (d : BitVec 5) (t : BitVec 6) (g : BitVec 5) (q : BitVec 3)
  /- group Vgs, major 0x1B -/
  | vgath (s : Bool) (d a b : BitVec 5) (q : BitVec 3)
  | vscat (s : Bool) (d a b : BitVec 5) (q : BitVec 3)
  | vlds (s : Bool) (d a b : BitVec 5) (q : BitVec 3)
  | vsts (s : Bool) (d a b : BitVec 5) (q : BitVec 3)
  | vscatFadd (s : Bool) (d a b : BitVec 5) (q : BitVec 3)
  /- group Amo, major 0x1C -/
  | amoAdd (s : Bool) (d a b : BitVec 5) (z : BitVec 1)
  | amoAnd (s : Bool) (d a b : BitVec 5) (z : BitVec 1)
  | amoOr (s : Bool) (d a b : BitVec 5) (z : BitVec 1)
  | amoXor (s : Bool) (d a b : BitVec 5) (z : BitVec 1)
  | amoMax (s : Bool) (d a b : BitVec 5) (z : BitVec 1)
  | amoMin (s : Bool) (d a b : BitVec 5) (z : BitVec 1)
  | amoMaxu (s : Bool) (d a b : BitVec 5) (z : BitVec 1)
  | amoMinu (s : Bool) (d a b : BitVec 5) (z : BitVec 1)
  | amoSwp (s : Bool) (d a b : BitVec 5) (z : BitVec 1)
  | amoCas (s : Bool) (d a b : BitVec 5) (z : BitVec 1)
  | amoFadd (s : Bool) (d a b : BitVec 5)
  | pamoAdd (s : Bool) (a b : BitVec 5) (z : BitVec 1)
  | pamoAnd (s : Bool) (a b : BitVec 5) (z : BitVec 1)
  | pamoOr (s : Bool) (a b : BitVec 5) (z : BitVec 1)
  | pamoXor (s : Bool) (a b : BitVec 5) (z : BitVec 1)
  | pamoMax (s : Bool) (a b : BitVec 5) (z : BitVec 1)
  | pamoMin (s : Bool) (a b : BitVec 5) (z : BitVec 1)
  | pamoMaxu (s : Bool) (a b : BitVec 5) (z : BitVec 1)
  | pamoMinu (s : Bool) (a b : BitVec 5) (z : BitVec 1)
  | pamoFadd (s : Bool) (a b : BitVec 5)
  /- group Msg, major 0x1D -/
  | send (s : Bool) (a b : BitVec 5)
  | sendt (s : Bool) (d a b : BitVec 5)
  | sendm (s : Bool) (d a b : BitVec 5)
  | sendr (s : Bool) (a b : BitVec 5)
  | mld (s : Bool) (d a b : BitVec 5)
  | mhdr (s : Bool) (d a b : BitVec 5)
  | ttWr (s : Bool) (a b : BitVec 5)
  | ttRd (s : Bool) (d a b : BitVec 5)
  | ttBlk (s : Bool) (a : BitVec 5)
  | ttUblk (s : Bool) (a : BitVec 5)
  /- group Chk, major 0x1E -/
  | commit (s : Bool)
  | fence (s : Bool) (b : BitVec 5)
  | abort (s : Bool) (a : BitVec 5)
  | dgRd (s : Bool) (d a : BitVec 5)
  | dgMode (s : Bool) (a : BitVec 5)
  | tileDef (s : Bool) (a : BitVec 5)
  | tileSt (s : Bool) (a b : BitVec 5)
  | tileRd (s : Bool) (d a b : BitVec 5)
  | tileSat (s : Bool) (d a : BitVec 5)
  | pf (s : Bool) (a b : BitVec 5)
  /- group Ring, major 0x1F -/
  | rwLd (s : Bool) (d : BitVec 4) (a : BitVec 5)
  | rwAdv (s : Bool) (d : BitVec 4) (a : BitVec 5)
  | rwSet (s : Bool) (d : BitVec 4) (a b : BitVec 5)
  | rwAdd (s : Bool) (d : BitVec 4) (a b : BitVec 5)
  | rwArm (s : Bool) (d : BitVec 4) (a : BitVec 5)
  | rwDisarm (s : Bool) (d : BitVec 4) (a : BitVec 5)
  | rwHdr (s : Bool) (d a : BitVec 5)
  | lawWr (s : Bool) (a b : BitVec 5)
  | lawRd (s : Bool) (d a b : BitVec 5)
  | clkAdv (s : Bool) (a b : BitVec 5)
  | clkRd (s : Bool) (d a : BitVec 5)
  /- group Varf, major 0x20 -/
  | vaddF (s : Bool) (d a b : BitVec 5) (q : BitVec 3)
  | vsubF (s : Bool) (d a b : BitVec 5) (q : BitVec 3)
  | vmulF (s : Bool) (d a b : BitVec 5) (q : BitVec 3)
  | vdivF (s : Bool) (d a b : BitVec 5) (q : BitVec 3)
  | vsqrtF (s : Bool) (d a : BitVec 5) (q : BitVec 3)
  | vmaxF (s : Bool) (d a b : BitVec 5) (q : BitVec 3)
  | vminF (s : Bool) (d a b : BitVec 5) (q : BitVec 3)
  | vabsF (s : Bool) (d a : BitVec 5) (q : BitVec 3)
  | vnegF (s : Bool) (d a : BitVec 5) (q : BitVec 3)
  | vfma (s : Bool) (d a b : BitVec 5) (q : BitVec 3)
  | vfms (s : Bool) (d a b : BitVec 5) (q : BitVec 3)
  | vfnma (s : Bool) (d a b : BitVec 5) (q : BitVec 3)
  | vcmpeqF (s : Bool) (d : BitVec 3) (a b : BitVec 5) (q : BitVec 3)
  | vcmpltF (s : Bool) (d : BitVec 3) (a b : BitVec 5) (q : BitVec 3)
  | vcmpleF (s : Bool) (d : BitVec 3) (a b : BitVec 5) (q : BitVec 3)
  | vcmpunF (s : Bool) (d : BitVec 3) (a b : BitVec 5) (q : BitVec 3)
  | vclass (s : Bool) (d a : BitVec 5) (q : BitVec 3)
  /- group Vari, major 0x21 -/
  | vaddI (s : Bool) (d a b : BitVec 5) (q : BitVec 3)
  | vsubI (s : Bool) (d a b : BitVec 5) (q : BitVec 3)
  | vmulI (s : Bool) (d a b : BitVec 5) (q : BitVec 3)
  | vand (s : Bool) (d a b : BitVec 5) (q : BitVec 3)
  | vor (s : Bool) (d a b : BitVec 5) (q : BitVec 3)
  | vxor (s : Bool) (d a b : BitVec 5) (q : BitVec 3)
  | vshl (s : Bool) (d a b : BitVec 5) (q : BitVec 3)
  | vshr (s : Bool) (d a b : BitVec 5) (q : BitVec 3)
  | vsra (s : Bool) (d a b : BitVec 5) (q : BitVec 3)
  | vminI (s : Bool) (d a b : BitVec 5) (q : BitVec 3)
  | vmaxI (s : Bool) (d a b : BitVec 5) (q : BitVec 3)
  | vcmpeqI (s : Bool) (d : BitVec 3) (a b : BitVec 5) (q : BitVec 3)
  | vcmpltI (s : Bool) (d : BitVec 3) (a b : BitVec 5) (q : BitVec 3)
  | vcmpltu (s : Bool) (d : BitVec 3) (a b : BitVec 5) (q : BitVec 3)
  | vsel (s : Bool) (d a b : BitVec 5) (q : BitVec 3)
  | vmov (s : Bool) (d a : BitVec 5) (q : BitVec 3)
  | vbcast (s : Bool) (d a : BitVec 5) (q : BitVec 3)
  | vext (s : Bool) (d a b : BitVec 5)
  | vins (s : Bool) (d a b : BitVec 5)
  | viota (s : Bool) (d : BitVec 5) (q : BitVec 3)
  /- group Vcvt, major 0x22 -/
  | vcvtFI (s : Bool) (d a : BitVec 5) (r q : BitVec 3)
  | vcvtIF (s : Bool) (d a : BitVec 5) (r q : BitVec 3)
  | vcvtFBf (s : Bool) (d a : BitVec 5) (q : BitVec 3)
  | vcvtBfF (s : Bool) (d a : BitVec 5) (r q : BitVec 3)
  | vcvtFH (s : Bool) (d a : BitVec 5) (q : BitVec 3)
  | vcvtHF (s : Bool) (d a : BitVec 5) (r q : BitVec 3)
  | vnarrow (s : Bool) (d a : BitVec 5) (r k q : BitVec 3)
  | vwiden (s : Bool) (d a : BitVec 5) (k q : BitVec 3)
  | vpack (s : Bool) (d a : BitVec 5) (r k q : BitVec 3)
  | vunpack (s : Bool) (d a : BitVec 5) (k q : BitVec 3)
  /- group Vred, major 0x23 -/
  | vrsumF (s : Bool) (d a : BitVec 5) (q : BitVec 3)
  | vrmaxF (s : Bool) (d a : BitVec 5) (q : BitVec 3)
  | vrminF (s : Bool) (d a : BitVec 5) (q : BitVec 3)
  | vrsumI (s : Bool) (d a : BitVec 5) (q : BitVec 3)
  | vrsumX (s : Bool) (d : BitVec 4) (a : BitVec 5) (q : BitVec 3)
  | vscanF (s : Bool) (d a : BitVec 5) (q : BitVec 3)
  | vscanI (s : Bool) (d a : BitVec 5) (q : BitVec 3)
  | vargmax (s : Bool) (d a : BitVec 5) (q : BitVec 3)
  | vargmin (s : Bool) (d a : BitVec 5) (q : BitVec 3)
  /- group Vprm, major 0x24 -/
  | vperm (s : Bool) (d a b : BitVec 5) (q : BitVec 3)
  | vrot (s : Bool) (d a b : BitVec 5) (q : BitVec 3)
  | vzip (s : Bool) (d a b : BitVec 5) (q : BitVec 3)
  | vunzip (s : Bool) (d a b : BitVec 5) (q : BitVec 3)
  | vcomp (s : Bool) (d a : BitVec 5) (q : BitVec 3)
  | vexpd (s : Bool) (d a : BitVec 5) (q : BitVec 3)
  /- group Vfn, major 0x25 -/
  | vfnExp2 (s : Bool) (d a : BitVec 5) (q : BitVec 3) (p : BitVec 2)
  | vfnLog2 (s : Bool) (d a : BitVec 5) (q : BitVec 3) (p : BitVec 2)
  | vfnExp (s : Bool) (d a : BitVec 5) (q : BitVec 3) (p : BitVec 2)
  | vfnLn (s : Bool) (d a : BitVec 5) (q : BitVec 3) (p : BitVec 2)
  | vfnRcp (s : Bool) (d a : BitVec 5) (q : BitVec 3) (p : BitVec 2)
  | vfnRsqrt (s : Bool) (d a : BitVec 5) (q : BitVec 3) (p : BitVec 2)
  | vfnSint (s : Bool) (d a : BitVec 5) (q : BitVec 3) (p : BitVec 2)
  | vfnCost (s : Bool) (d a : BitVec 5) (q : BitVec 3) (p : BitVec 2)
  | vfnTanh (s : Bool) (d a : BitVec 5) (q : BitVec 3) (p : BitVec 2)
  | vfnSigm (s : Bool) (d a : BitVec 5) (q : BitVec 3) (p : BitVec 2)
  | vfnErf (s : Bool) (d a : BitVec 5) (q : BitVec 3) (p : BitVec 2)
  | vfnGelu (s : Bool) (d a : BitVec 5) (q : BitVec 3) (p : BitVec 2)
  | vfnSilu (s : Bool) (d a : BitVec 5) (q : BitVec 3) (p : BitVec 2)
  /- group Vmsk, major 0x26 -/
  | mand (s : Bool) (d a b : BitVec 3)
  | mor (s : Bool) (d a b : BitVec 3)
  | mxor (s : Bool) (d a b : BitVec 3)
  | mnot (s : Bool) (d a : BitVec 3)
  | mpop (s : Bool) (d : BitVec 5) (a : BitVec 3)
  | mfirst (s : Bool) (d : BitVec 5) (a : BitVec 3)
  | mset (s : Bool) (d : BitVec 3) (a : BitVec 5)
  | mget (s : Bool) (d : BitVec 5) (a : BitVec 3)
  /- group Vq, major 0x27 -/
  | vquant (s : Bool) (d a b : BitVec 5) (q : BitVec 3)
  | vdq (s : Bool) (d a b : BitVec 5) (q : BitVec 3)
  | vlaw (s : Bool) (d a b : BitVec 5) (q : BitVec 3)
  | vtopk (s : Bool) (d a b : BitVec 5) (q : BitVec 3)
  | vsp24 (s : Bool) (d a b : BitVec 5) (q : BitVec 3)
  /- group Csr, major 0x28 -/
  | csrr (s : Bool) (d : BitVec 5) (n : BitVec 12)
  | csrw (s : Bool) (d a : BitVec 5) (n : BitVec 12)
  | csrs (s : Bool) (d a : BitVec 5) (n : BitVec 12)
  | csrc (s : Bool) (d a : BitVec 5) (n : BitVec 12)
  | frd (s : Bool) (d : BitVec 5) (n : BitVec 12)
  /- group Xeng, major 0x30 -/
  | mxWr (s : Bool) (a b : BitVec 5)
  | mxRd (s : Bool) (a d : BitVec 5)
  | mxLs (s : Bool) (a d : BitVec 5)
  | mxStr (s : Bool) (a d : BitVec 5)
  | mxDrn (s : Bool) (a d : BitVec 5)
  | mxZer (s : Bool) (a d : BitVec 5)
  | mxPoll (s : Bool) (a d : BitVec 5)
  | mxSlp (s : Bool) (a d : BitVec 5)
  | mxCan (s : Bool) (a : BitVec 5)
  | cpPush (s : Bool) (a b : BitVec 5)
  | cpTry (s : Bool) (a b d : BitVec 5)
  | cpPoll (s : Bool) (a d : BitVec 5)
  | cpCan (s : Bool) (a : BitVec 5)
  | hsWr (s : Bool) (a b : BitVec 5)
  | hsRd (s : Bool) (a d : BitVec 5)
  | hsEnt (s : Bool) (a b d : BitVec 5)
  | hsTry (s : Bool) (a b d : BitVec 5)
  | hsPass (s : Bool) (a b : BitVec 5)
  | hsDrop (s : Bool)
  | hsStat (s : Bool) (a b d : BitVec 5)
  | barCfg (s : Bool) (a b : BitVec 5)
  | barArr (s : Bool) (a : BitVec 5)
  | barWait (s : Bool) (a : BitVec 5)
  | barAw (s : Bool) (a : BitVec 5)
  | barAf (s : Bool) (a b : BitVec 5)
  | barRd (s : Bool) (a d : BitVec 5)
  | redCfg (s : Bool) (a b : BitVec 5)
  | redRd (s : Bool) (a d : BitVec 5)
  /- group Once, major 0x3E -/
  | once
  /- the events of the machine the table lists beside the encoded instructions -/
  /-- An entry whose FIFO reaches its rate creates a firing and reserves messages. (R170) -/
  | firingCreate (ctx lc ch : Nat)
  /-- A free slot takes the highest-priority ready work and opens its first chunk. (R171) -/
  | firingDispatch (core slot : Nat)
  /-- A firing waiting 65,536 cycles moves up one priority level. (R171) -/
  | firingAging (i : Nat)
  /-- At the end of a 100 us slice the outgoing logical cores are squashed and swapped. (R160) -/
  | timeSliceEnd (ctx lc : Nat)
  /-- A chunk closes at an instruction limit or full buffer or signature. (R181) -/
  | chunkClose (core slot : Nat)
  /-- A closed chunk's writes, held effects and releases apply in one step. (R184) -/
  | chunkCommit (core slot : Nat)
  /-- A chunk is discarded and restarted from its checkpoint. (R185) -/
  | chunkSquash (core slot : Nat)
  /-- A chunk squashed eight times in a row is granted exclusive commit. (R200) -/
  | exclusiveCommitGrant
  /-- After 65,536 cycles without a write an ABORT-parked chunk restarts. (R232) -/
  | abortWaitTimeout (core slot : Nat)
  /-- A released message enters its destination FIFO or inbox. (R186) -/
  | messageDeliver (i : Nat)
  /-- A reply on channel 62 restarts, skips or halts a suspended firing. (R80) -/
  | trapReply (i : Nat)
  /-- An engine takes the head command of a queue when its conditions hold. (R187, R419) -/
  | commandTake (cluster : Nat) (e : Engine) (head : TakenHead)
  /-- A taken command reads one element from memory. (R188, R193, R419) -/
  | readElement (cluster : Nat) (e : Engine) (job elem : Nat) (view : ReadView)
  /-- An engine write enters its cluster's pending set. (R188) -/
  | perform (cluster : Nat) (e : Engine) (job elem : Nat)
  /-- A pending write is written to M and entered in the commit log. (R188) -/
  | apply (i : Nat)
  /-- A completed command sets tiles, arrives on its barrier and posts its message. (R189) -/
  | postCompletion (cluster : Nat) (e : Engine) (job : Nat)
  /-- A posting from member 0 reaches a member, which lands the posted result. (R271) -/
  | oncePosting (core slot : Nat)
  /-- A mailbox reply retries, zeroes or aborts the waiting access. (R280) -/
  | faultReplyArrival (i : Nat)
  /-- Copies codes element by element. (R307) -/
  | copyOpCopy (cluster job e0 e1 : Nat)
  /-- Gathers source rows by an index object. (R307) -/
  | copyOpGather (cluster job e0 e1 : Nat)
  /-- Scatters rows by an index object in ascending order. (R307) -/
  | copyOpScatter (cluster job e0 e1 : Nat)
  /-- Fills the destination with a code. (R307) -/
  | copyOpFill (cluster job e0 e1 : Nat)
  /-- Converts elements into the destination format. (R307) -/
  | copyOpConvert (cluster job e0 e1 : Nat)
  /-- Advances every ring word of a region that is near a lap. (R246) -/
  | ringsweep (cluster job e0 e1 : Nat)
  /-- Migrates frames to new frames and granule through copy passes and switch. (R389) -/
  | regran (cluster job line : Nat)
  /-- Removes forwarding entries of source frames once no access uses them. (R391) -/
  | regranRelease (cluster job : Nat)
  /-- After 65,536 quiet cycles a collection window closes with a FOLLOW record. (R301) -/
  | nanWindowClose (cluster ctx wg : Nat)
  /-- The router writes a record's header, counts it and routes it. (R319) -/
  | hsEntryDelivery (i : Nat)
  /-- A waiting record is dispatched to a pool member with room. (R321) -/
  | hsDispatch (ctx lcl set stage : Nat)
  /-- The router applies a pass or drop verdict and routes the record on. (R326) -/
  | hsVerdictDelivery (i : Nat)
  /-- After a round's last contribution the result goes to the root. (R353) -/
  | reductionResult (ctx group : Nat)
  /-- Every 256 cycles the halt tree gathers keys and counts and may raise GVT. (R358) -/
  | gvtSweep (ctx : Nat)
  /-- A flush marker reaching the new core releases messages held after migration. (R345) -/
  | flushMarker (core router : Nat)
  /-- A finished move sends its completion message with a status. (R401) -/
  | migGoCompletion (i : Nat)
  /-- A finished stop writes the image and sends its completion message. (R398) -/
  | ctxStopCompletion (i : Nat)
  /-- A resume restores the context and sends its completion message. (R399) -/
  | ctxGoCompletion (i : Nat)
  /-- Inbox messages are delivered in order when the core is resident again. (R397) -/
  | inboxReplay (ctx lc : Nat)
  /-- A message refused by a full inbox is retried every 4,096 cycles, then discarded. (R397) -/
  | inboxRetry (i : Nat)
  /-- An uncorrectable error fences and resets a fault rectangle. (R363) -/
  | rectFence (u : UnitKind) (num : Nat)
  /-- A scratchpad ECC error is corrected or poisons the bytes. (R162) -/
  | scratchpadError (ctx lc off : Nat) (fatal : Bool)
  /-- A corrected or uncorrectable error in TLB, engine or barrier state. (R281) -/
  | clusterStateError (cluster : Nat) (u : UnitKind) (what : UnitError)
  /-- Management tests a unit whose score reached threshold and retires or restores it. (R406) -/
  | thresholdRecord (u : UnitKind) (num : Nat) (pass : Bool)
  /-- A read miss fills the whole granule units from DRAM. (R379) -/
  | llcFill (pa ctx gran keyid : Nat)
  /-- A dirty unit is written back, with read-modify-write if partial. (R379) -/
  | llcWriteback (pa : Nat)
  /-- Each scrub period every codeword is read and written back. (R385) -/
  | scrub (pa : Nat)
  /-- An uncorrectable tag or directory error takes the slice offline. (R392) -/
  | llcSliceOffline (slice : Nat) (what : LlcError)
  /-- Every 1 ms each cluster receives a new energy grant. (R408) -/
  | budgetPeriod
  /-- The host reads device memory through the second stage. (R409) -/
  | hostMemoryRead (ctx ia n : Nat)
  /-- The host writes device memory as an Apply step. (R409) -/
  | hostMemoryWrite (ctx ia : Nat) (data : List Byte)
  /-- The host injects a message for a context. (R409) -/
  | hostMessage (ctx : Nat) (m : OutsideMsg)
  /-- The host's response to a host-memory load lands or raises RIGHTS. (R193) -/
  | hostLoadResponse (core slot : Nat) (refused : Bool) (data : List (Nat × Byte))
  /-- A refused released host store is dropped with a RIGHTS record. (R193) -/
  | hostStoreRefusal (i : Nat)
  /-- A fabric flit arrives: one with a CRC failure is replayed. (R416, R426) -/
  | flitReplay (flit : PortFlit)
  /-- A port that fails 16 replays in a row retrains or goes down; firmware writes the route table. (R417, R426) -/
  | portRetrain (port : Nat) (retrained : Retrain)
  /-- A fabric message undeliverable after 10 ms is discarded with a NACK. (R426) -/
  | fabricMessageTimeout (i : Nat)
  /-- The receiving package acknowledges numbered messages and discards duplicates. (R417) -/
  | fabricAck (pkg num : Nat) (arrived : Option OutsideMsg)
  /-- Every 1,000,000 ticks links exchange time-base flits and packages slew. (R425) -/
  | timeBaseSync (offset : Int)
  /-- Boot code measures and checks each firmware image. (R412) -/
  | boot (images : List BootImage)
  /-- SPDM request for supported versions. (R413) -/
  | getVersion
  /-- SPDM request for capabilities. (R413) -/
  | getCapabilities
  /-- SPDM request negotiating algorithms. (R413) -/
  | negotiateAlgorithms
  /-- SPDM request for certificate digests. (R413) -/
  | getDigests
  /-- SPDM request for the certificate chain. (R413) -/
  | getCertificate (off len : Nat)
  /-- SPDM challenge request. (R413) -/
  | challenge (req : ChallengeRequest)
  /-- SPDM request for measurements. (R413) -/
  | getMeasurements (req : MeasureRequest)
  /-- A context is created: its format registers take the standard settings, and its step clocks, job IDs, send sequences and hurdle registers take their reset values. (R90) -/
  | contextCreation (c : CtxSpec)
  /-- The management controller or firmware rewrites a key slot through the management block, making frames written under the old key decrypt to meaningless data. (R381) -/
  | keySlotWrite (slot : Nat) (key1 key2 : BitVec 256)
  /-- Management invokes gang stop of a context's partition. (R359) -/
  | gangStopByManagement (ctx : Nat)
  /-- When every cluster has removed the entries of a TLB.INV with SCOPE 1, the chunk's held sends and commands are released as the acknowledgement. (R278) -/
  | tlbInvAcknowledgement (i : Nat)
  /-- When every watch table has applied a WG.CLR with ALL = 1, or every merge of a WG.SYNC has completed, the chunk's held sends and commands are released. (R127) -/
  | wgTablesApplied (i : Nat)
  /-- The host link accepts a released host store or host message as visible to the host, which lets a FENCE HOST chunk open and a REL HOST completion post. (R192) -/
  | hostStoreAcceptance (i : Nat)
  deriving DecidableEq, Repr

end Sys2Proof
end

