-- ==== Sys2Proof/WellFormed.lean ====
section
/-! DEFINITION. Which terms of `Instr` are instructions of the machine: the codes a field may hold (R53 to R57,
R131) and the ranges of the events' operands. The widths of the fields are in their types. -/

namespace Sys2Proof

/-- R131: the assigned CSR numbers. -/
def csrAssigned (n : BitVec 12) : Bool :=
  n.toNat ∈ [0x000, 0x001, 0x002, 0x003, 0x010, 0x011, 0x012, 0x013, 0x020, 0x021, 0x022, 0x023, 0x024, 0x025,
    0x026, 0x027, 0x800, 0x801, 0x802, 0x803]

/-- R57: rounding-mode codes 0 to 6 are assigned. -/
def rmAssigned (r : BitVec 3) : Bool := decide (r.toNat ≤ 6)

/-- R56: function precisions 0 to 2 are assigned. -/
def precAssigned (p : BitVec 2) : Bool := decide (p.toNat ≤ 2)

/-- R2: scope codes 0 to 5 are assigned; the b field of FENCE holds nothing else. -/
def scopeAssigned (b : BitVec 5) : Bool := decide (b.toNat ≤ 5)

/-- R159: a scratchpad size is a multiple of 64 KiB from 64 KiB to 2 MiB, and a logical core number is below 4,096; R26:
an image ends 16 KiB below the size. -/
def LCoreSpec.wf (c : LCoreSpec) : Bool :=
  decide (c.n < 4096) && decide (c.lsz % 65536 = 0) && decide (65536 ≤ c.lsz) && decide (c.lsz ≤ 2097152)
    && decide (c.pcore < 1152) && decide (c.hidx < 4)
    && c.table.all (fun e => decide (e.1 < 64)) && decide (c.image.length + 16384 ≤ c.lsz)

/-- R3, R393: a user context number is 1 to 255; context 0 is the privileged one. -/
def CtxSpec.wf (c : CtxSpec) : Bool :=
  decide (c.ctx < 256) && c.cores.all LCoreSpec.wf && decide (c.keyid < 1024)

/-- R168, R409: a message from outside has at most 64 payload bytes and a 6-bit channel; R423: the sum of a round has at
most 16 images of 48 bytes. -/
def OutsideMsg.wf (m : OutsideMsg) : Bool :=
  decide (m.dst < 4096) && decide (m.ch < 64) && decide (m.wfmt < 16)
    && decide (m.payload.length ≤ match m.what with
      | .roundSum _ _ _ _ => 768
      | _ => 64)
    && decide (m.ctx < 256) && decide (m.spkg < 64)

/-- An instruction whose codes are assigned, or an event whose operands name units that exist. -/
def Instr.wf : Instr → Bool
  | .fence _ b => scopeAssigned b
  | .csrr _ _ n | .csrw _ _ _ n | .csrs _ _ _ n | .csrc _ _ _ n => csrAssigned n
  | .frd _ _ n => decide (n.toNat ≤ 6)
  | .vcvtFI _ _ _ r _ | .vcvtIF _ _ _ r _ | .vcvtBfF _ _ _ r _ | .vcvtHF _ _ _ r _ => rmAssigned r
  | .vnarrow _ _ _ r _ _ | .vpack _ _ _ r _ _ => rmAssigned r
  | .vfnExp2 _ _ _ _ p | .vfnLog2 _ _ _ _ p | .vfnExp _ _ _ _ p | .vfnLn _ _ _ _ p | .vfnRcp _ _ _ _ p
  | .vfnRsqrt _ _ _ _ p | .vfnSint _ _ _ _ p | .vfnCost _ _ _ _ p | .vfnTanh _ _ _ _ p | .vfnSigm _ _ _ _ p
  | .vfnErf _ _ _ _ p | .vfnGelu _ _ _ _ p | .vfnSilu _ _ _ _ p => precAssigned p
  | .firingCreate c l h => decide (c < 256 ∧ l < 4096 ∧ h < 64)
  | .firingDispatch c k | .chunkClose c k | .chunkCommit c k | .chunkSquash c k | .abortWaitTimeout c k
  | .oncePosting c k | .hostLoadResponse c k _ _ => decide (c < 1152 ∧ k < 4)
  | .timeSliceEnd c l | .inboxReplay c l => decide (c < 256 ∧ l < 4096)
  | .commandTake c _ _ | .readElement c _ _ _ _ | .perform c _ _ _ | .postCompletion c _ _
  | .copyOpCopy c _ _ _ | .copyOpGather c _ _ _ | .copyOpScatter c _ _ _ | .copyOpFill c _ _ _
  | .copyOpConvert c _ _ _ | .ringsweep c _ _ _ | .regran c _ _ | .regranRelease c _
  | .nanWindowClose c _ _ | .clusterStateError c _ _ => decide (c < 128)
  | .scratchpadError c l o _ => decide (c < 256 ∧ l < 4096 ∧ o < 2097152)
  | .contextCreation c => c.wf
  | .hostMessage c m => decide (c < 256) && m.wf
  | .llcFill _ c g n => decide (c < 256 ∧ g < 4 ∧ n < 1024)
  | .keySlotWrite n _ _ => decide (n < 1024)
  | .reductionResult c g => decide (c < 256 ∧ g < 64)
  | .hsDispatch c l t g => decide (c < 256 ∧ l < 512 ∧ t < 4 ∧ g < 8)
  | _ => true

end Sys2Proof
end

