-- ==== Sys2Proof/Decode.lean ====
section
/-! DEFINITION. Instruction words (R39 to R60): the bit-field helpers of R41, the decoder, total on any word and
refusing by name, and the encoder written from the same tables. The order of the checks of R60 that depends on the
firing (PRIV) stands in Machine/Ops.lean; here every assigned word of either privilege decodes. Some definitions carry
the word noncomputable because Lean's code generator cannot build a constructor past the 245th with fields; the kernel
evaluates them all. -/

namespace Sys2Proof

/-- R41: BITS(x, hi, lo), the field of x from bit lo upward, as a number. -/
def bitsOf {w : Nat} (x : BitVec w) (hi lo : Nat) : Nat := (x.toNat >>> lo) % 2 ^ (hi + 1 - lo)

/-- R41: BITS of a number. -/
def natBits (x hi lo : Nat) : Nat := (x >>> lo) % 2 ^ (hi + 1 - lo)

/-- R41: ZEXT of the low n bits of a word. -/
def zextW (x : Word) (n : Nat) : Word := (x.setWidth n).setWidth 64

/-- R41: SEXT of the low n bits of a word. -/
def sextW (x : Word) (n : Nat) : Word := (x.setWidth n).signExtend 64

/-- R41: SEXT of a whole field. -/
def sext64 {n : Nat} (x : BitVec n) : Word := x.signExtend 64

/-- R10: the number of a little-endian list of bytes. -/
def leNat : List Byte → Nat
  | [] => 0
  | b :: bs => b.toNat + 256 * leNat bs

/-- R10: the n little-endian bytes of a number. -/
def leBytes : Nat → Nat → List Byte
  | 0, _ => []
  | n + 1, x => BitVec.ofNat 8 x :: leBytes n (x / 256)

/-- R60: why a word is no instruction. -/
inductive Reject where
  /-- a reserved major (check 1) -/
  | reservedMajor
  /-- an unassigned selector or code (check 1) -/
  | unassigned
  /-- a field the instruction does not use is not zero, or a register class bit is set (checks 2 and 3) -/
  | reservedField
  deriving DecidableEq, Repr

/-- Group Opr, major 0x01. -/
def decodeOpr (s : Bool) (x y : BitVec 5) (lo : BitVec 15) : Except Reject Instr :=
  match (lo.extractLsb' 0 10) with
  | 0#10 => .ok (.add s x y (lo.extractLsb' 10 5))
  | 1#10 => .ok (.sub s x y (lo.extractLsb' 10 5))
  | 2#10 => .ok (.and s x y (lo.extractLsb' 10 5))
  | 3#10 => .ok (.or s x y (lo.extractLsb' 10 5))
  | 4#10 => .ok (.xor s x y (lo.extractLsb' 10 5))
  | 5#10 => .ok (.andn s x y (lo.extractLsb' 10 5))
  | 6#10 => .ok (.sll s x y (lo.extractLsb' 10 5))
  | 7#10 => .ok (.srl s x y (lo.extractLsb' 10 5))
  | 8#10 => .ok (.sra s x y (lo.extractLsb' 10 5))
  | 9#10 => .ok (.slt s x y (lo.extractLsb' 10 5))
  | 10#10 => .ok (.sltu s x y (lo.extractLsb' 10 5))
  | 11#10 => .ok (.min s x y (lo.extractLsb' 10 5))
  | 12#10 => .ok (.max s x y (lo.extractLsb' 10 5))
  | 13#10 => .ok (.minu s x y (lo.extractLsb' 10 5))
  | 14#10 => .ok (.maxu s x y (lo.extractLsb' 10 5))
  | 15#10 => .ok (.cmovz s x y (lo.extractLsb' 10 5))
  | 16#10 => .ok (.cmovn s x y (lo.extractLsb' 10 5))
  | 17#10 => if (lo.extractLsb' 10 5) = 0#5 then .ok (.clz s x y) else .error .reservedField
  | 18#10 => if (lo.extractLsb' 10 5) = 0#5 then .ok (.ctz s x y) else .error .reservedField
  | 19#10 => if (lo.extractLsb' 10 5) = 0#5 then .ok (.popc s x y) else .error .reservedField
  | 20#10 => if (lo.extractLsb' 10 5) = 0#5 then .ok (.brev s x y) else .error .reservedField
  | 21#10 => if (lo.extractLsb' 10 5) = 0#5 then .ok (.bswap s x y) else .error .reservedField
  | 22#10 => .ok (.ext s x y (lo.extractLsb' 10 5))
  | 23#10 => .ok (.ins s x y (lo.extractLsb' 10 5))
  | 512#10 => .ok (.addw s x y (lo.extractLsb' 10 5))
  | 513#10 => .ok (.subw s x y (lo.extractLsb' 10 5))
  | 518#10 => .ok (.sllw s x y (lo.extractLsb' 10 5))
  | 519#10 => .ok (.srlw s x y (lo.extractLsb' 10 5))
  | 520#10 => .ok (.sraw s x y (lo.extractLsb' 10 5))
  | _ => .error .unassigned

/-- Group Addi, major 0x02. -/
def decodeAddi (s : Bool) (x y : BitVec 5) (lo : BitVec 15) : Except Reject Instr :=
  .ok (.addi s x y lo)

/-- Group Andi, major 0x03. -/
def decodeAndi (s : Bool) (x y : BitVec 5) (lo : BitVec 15) : Except Reject Instr :=
  .ok (.andi s x y lo)

/-- Group Ori, major 0x04. -/
def decodeOri (s : Bool) (x y : BitVec 5) (lo : BitVec 15) : Except Reject Instr :=
  .ok (.ori s x y lo)

/-- Group Xori, major 0x05. -/
def decodeXori (s : Bool) (x y : BitVec 5) (lo : BitVec 15) : Except Reject Instr :=
  .ok (.xori s x y lo)

/-- Group Slti, major 0x06. -/
def decodeSlti (s : Bool) (x y : BitVec 5) (lo : BitVec 15) : Except Reject Instr :=
  .ok (.slti s x y lo)

/-- Group Sltiu, major 0x07. -/
def decodeSltiu (s : Bool) (x y : BitVec 5) (lo : BitVec 15) : Except Reject Instr :=
  .ok (.sltiu s x y lo)

/-- Group Shi, major 0x08. -/
def decodeShi (s : Bool) (x y : BitVec 5) (lo : BitVec 15) : Except Reject Instr :=
  match (lo.extractLsb' 12 3) with
  | 0#3 => if (lo.extractLsb' 6 6) = 0#6 then .ok (.slli s x y (lo.extractLsb' 0 6)) else .error .reservedField
  | 1#3 => if (lo.extractLsb' 6 6) = 0#6 then .ok (.srli s x y (lo.extractLsb' 0 6)) else .error .reservedField
  | 2#3 => if (lo.extractLsb' 6 6) = 0#6 then .ok (.srai s x y (lo.extractLsb' 0 6)) else .error .reservedField
  | 3#3 => if (lo.extractLsb' 5 7) = 0#7 then .ok (.slliw s x y (lo.extractLsb' 0 5)) else .error .reservedField
  | 4#3 => if (lo.extractLsb' 5 7) = 0#7 then .ok (.srliw s x y (lo.extractLsb' 0 5)) else .error .reservedField
  | 5#3 => if (lo.extractLsb' 5 7) = 0#7 then .ok (.sraiw s x y (lo.extractLsb' 0 5)) else .error .reservedField
  | _ => .error .unassigned

/-- Group Lui, major 0x09. -/
def decodeLui (s : Bool) (x y : BitVec 5) (lo : BitVec 15) : Except Reject Instr :=
  .ok (.lui s x (y ++ lo))

/-- Group Addpc, major 0x0A. -/
def decodeAddpc (s : Bool) (x y : BitVec 5) (lo : BitVec 15) : Except Reject Instr :=
  .ok (.addpc s x (y ++ lo))

/-- Group Muldiv, major 0x0B. -/
def decodeMuldiv (s : Bool) (x y : BitVec 5) (lo : BitVec 15) : Except Reject Instr :=
  match (lo.extractLsb' 0 10) with
  | 0#10 => .ok (.mul s x y (lo.extractLsb' 10 5))
  | 1#10 => .ok (.mulh s x y (lo.extractLsb' 10 5))
  | 2#10 => .ok (.mulhu s x y (lo.extractLsb' 10 5))
  | 3#10 => .ok (.div s x y (lo.extractLsb' 10 5))
  | 4#10 => .ok (.divu s x y (lo.extractLsb' 10 5))
  | 5#10 => .ok (.rem s x y (lo.extractLsb' 10 5))
  | 6#10 => .ok (.remu s x y (lo.extractLsb' 10 5))
  | 512#10 => .ok (.mulw s x y (lo.extractLsb' 10 5))
  | 515#10 => .ok (.divw s x y (lo.extractLsb' 10 5))
  | 516#10 => .ok (.divuw s x y (lo.extractLsb' 10 5))
  | 517#10 => .ok (.remw s x y (lo.extractLsb' 10 5))
  | 518#10 => .ok (.remuw s x y (lo.extractLsb' 10 5))
  | _ => .error .unassigned

/-- Group Beq, major 0x0C. -/
def decodeBeq (s : Bool) (x y : BitVec 5) (lo : BitVec 15) : Except Reject Instr :=
  .ok (.beq s x y lo)

/-- Group Bne, major 0x0D. -/
def decodeBne (s : Bool) (x y : BitVec 5) (lo : BitVec 15) : Except Reject Instr :=
  .ok (.bne s x y lo)

/-- Group Blt, major 0x0E. -/
def decodeBlt (s : Bool) (x y : BitVec 5) (lo : BitVec 15) : Except Reject Instr :=
  .ok (.blt s x y lo)

/-- Group Bge, major 0x0F. -/
def decodeBge (s : Bool) (x y : BitVec 5) (lo : BitVec 15) : Except Reject Instr :=
  .ok (.bge s x y lo)

/-- Group Bltu, major 0x10. -/
def decodeBltu (s : Bool) (x y : BitVec 5) (lo : BitVec 15) : Except Reject Instr :=
  .ok (.bltu s x y lo)

/-- Group Bgeu, major 0x11. -/
def decodeBgeu (s : Bool) (x y : BitVec 5) (lo : BitVec 15) : Except Reject Instr :=
  .ok (.bgeu s x y lo)

/-- Group Jal, major 0x12. -/
def decodeJal (s : Bool) (x y : BitVec 5) (lo : BitVec 15) : Except Reject Instr :=
  .ok (.jal s (x ++ y ++ lo))

/-- Group J, major 0x13. -/
def decodeJ (s : Bool) (x y : BitVec 5) (lo : BitVec 15) : Except Reject Instr :=
  .ok (.j s (x ++ y ++ lo))

/-- Group Jalr, major 0x14. -/
def decodeJalr (s : Bool) (x y : BitVec 5) (lo : BitVec 15) : Except Reject Instr :=
  .ok (.jalr s x y lo)

/-- Group Sys, major 0x15. -/
def decodeSys (s : Bool) (x y : BitVec 5) (lo : BitVec 15) : Except Reject Instr :=
  match (lo.extractLsb' 0 10) with
  | 0#10 => if x = 0#5 ∧ y = 0#5 ∧ (lo.extractLsb' 10 5) = 0#5 then .ok (.nop s) else .error .reservedField
  | 1#10 => if x = 0#5 ∧ y = 0#5 ∧ (lo.extractLsb' 10 5) = 0#5 then .ok (.fin s) else .error .reservedField
  | 2#10 => if x = 0#5 then .ok (.trap s y (lo.extractLsb' 10 5)) else .error .reservedField
  | 3#10 => if x = 0#5 ∧ y = 0#5 ∧ (lo.extractLsb' 10 5) = 0#5 then .ok (.brk s) else .error .reservedField
  | 4#10 => .ok (.fmtSet s x y (lo.extractLsb' 10 5))
  | 5#10 => if (lo.extractLsb' 10 5) = 0#5 then .ok (.fmtRd s x y) else .error .reservedField
  | 6#10 => .ok (.wgRd s x y (lo.extractLsb' 10 5))
  | 7#10 => if x = 0#5 then .ok (.wgClr s y (lo.extractLsb' 10 5)) else .error .reservedField
  | 8#10 => if x = 0#5 ∧ (lo.extractLsb' 10 5) = 0#5 then .ok (.wgSync s y) else .error .reservedField
  | 9#10 => if y = 0#5 ∧ (lo.extractLsb' 10 5) = 0#5 then .ok (.tbRd s x) else .error .reservedField
  | 32#10 => if x = 0#5 then .ok (.tlbWr s y (lo.extractLsb' 10 5)) else .error .reservedField
  | 33#10 => if x = 0#5 then .ok (.tlbInv s y (lo.extractLsb' 10 5)) else .error .reservedField
  | 34#10 => .ok (.tlbRd s x y (lo.extractLsb' 10 5))
  | 35#10 => if x = 0#5 then .ok (.fltRply s y (lo.extractLsb' 10 5)) else .error .reservedField
  | 36#10 => if x = 0#5 then .ok (.rectSet s y (lo.extractLsb' 10 5)) else .error .reservedField
  | 37#10 => if x = 0#5 then .ok (.migGo s y (lo.extractLsb' 10 5)) else .error .reservedField
  | 38#10 => if x = 0#5 ∧ (lo.extractLsb' 10 5) = 0#5 then .ok (.ctxStop s y) else .error .reservedField
  | 39#10 => if x = 0#5 then .ok (.ctxGo s y (lo.extractLsb' 10 5)) else .error .reservedField
  | _ => .error .unassigned

/-- Group Ld, major 0x16. -/
def decodeLd (s : Bool) (x y : BitVec 5) (lo : BitVec 15) : Except Reject Instr :=
  match (lo.extractLsb' 12 3) with
  | 0#3 => .ok (.ldB s x y (lo.extractLsb' 0 12))
  | 1#3 => .ok (.ldBu s x y (lo.extractLsb' 0 12))
  | 2#3 => .ok (.ldH s x y (lo.extractLsb' 0 12))
  | 3#3 => .ok (.ldHu s x y (lo.extractLsb' 0 12))
  | 4#3 => .ok (.ldW s x y (lo.extractLsb' 0 12))
  | 5#3 => .ok (.ldWu s x y (lo.extractLsb' 0 12))
  | 6#3 => .ok (.ldD s x y (lo.extractLsb' 0 12))
  | _ => .error .unassigned

/-- Group St, major 0x17. -/
def decodeSt (s : Bool) (x y : BitVec 5) (lo : BitVec 15) : Except Reject Instr :=
  match (lo.extractLsb' 12 3) with
  | 0#3 => .ok (.stB s x y (lo.extractLsb' 0 12))
  | 1#3 => .ok (.stH s x y (lo.extractLsb' 0 12))
  | 2#3 => .ok (.stW s x y (lo.extractLsb' 0 12))
  | 3#3 => .ok (.stD s x y (lo.extractLsb' 0 12))
  | _ => .error .unassigned

/-- Group Vld, major 0x18. -/
def decodeVld (s : Bool) (x y : BitVec 5) (lo : BitVec 15) : Except Reject Instr :=
  match (lo.extractLsb' 12 3) with
  | 0#3 => .ok (.vldW s x y (lo.extractLsb' 9 3) (lo.extractLsb' 0 9))
  | 1#3 => .ok (.vldBf s x y (lo.extractLsb' 9 3) (lo.extractLsb' 0 9))
  | 2#3 => .ok (.vldH s x y (lo.extractLsb' 9 3) (lo.extractLsb' 0 9))
  | 3#3 => .ok (.vldB s x y (lo.extractLsb' 9 3) (lo.extractLsb' 0 9))
  | 4#3 => .ok (.vldSb s x y (lo.extractLsb' 9 3) (lo.extractLsb' 0 9))
  | 5#3 => .ok (.vldBc s x y (lo.extractLsb' 9 3) (lo.extractLsb' 0 9))
  | _ => .error .unassigned

/-- Group Vst, major 0x19. -/
def decodeVst (s : Bool) (x y : BitVec 5) (lo : BitVec 15) : Except Reject Instr :=
  match (lo.extractLsb' 12 3) with
  | 0#3 => .ok (.vstW s x y (lo.extractLsb' 9 3) (lo.extractLsb' 0 9))
  | 1#3 => .ok (.vstBf s x y (lo.extractLsb' 9 3) (lo.extractLsb' 0 9))
  | 2#3 => .ok (.vstH s x y (lo.extractLsb' 9 3) (lo.extractLsb' 0 9))
  | 3#3 => .ok (.vstB s x y (lo.extractLsb' 9 3) (lo.extractLsb' 0 9))
  | _ => .error .unassigned

/-- Group Vtl, major 0x1A. -/
def decodeVtl (s : Bool) (x y : BitVec 5) (lo : BitVec 15) : Except Reject Instr :=
  match (lo.extractLsb' 8 1) with
  | 0#1 => if (lo.extractLsb' 0 5) = 0#5 then .ok (.vldt s x (y ++ lo.extractLsb' 14 1) (lo.extractLsb' 9 5) (lo.extractLsb' 5 3)) else .error .reservedField
  | 1#1 => if (lo.extractLsb' 0 5) = 0#5 then .ok (.vstt s x (y ++ lo.extractLsb' 14 1) (lo.extractLsb' 9 5) (lo.extractLsb' 5 3)) else .error .reservedField

/-- Group Vgs, major 0x1B. -/
def decodeVgs (s : Bool) (x y : BitVec 5) (lo : BitVec 15) : Except Reject Instr :=
  match (lo.extractLsb' 0 7) with
  | 0#7 => .ok (.vgath s x y (lo.extractLsb' 10 5) (lo.extractLsb' 7 3))
  | 1#7 => .ok (.vscat s x y (lo.extractLsb' 10 5) (lo.extractLsb' 7 3))
  | 2#7 => .ok (.vlds s x y (lo.extractLsb' 10 5) (lo.extractLsb' 7 3))
  | 3#7 => .ok (.vsts s x y (lo.extractLsb' 10 5) (lo.extractLsb' 7 3))
  | 4#7 => .ok (.vscatFadd s x y (lo.extractLsb' 10 5) (lo.extractLsb' 7 3))
  | _ => .error .unassigned

/-- Group Amo, major 0x1C. -/
def decodeAmo (s : Bool) (x y : BitVec 5) (lo : BitVec 15) : Except Reject Instr :=
  match (lo.extractLsb' 0 9) with
  | 0#9 => .ok (.amoAdd s x y (lo.extractLsb' 10 5) (lo.extractLsb' 9 1))
  | 1#9 => .ok (.amoAnd s x y (lo.extractLsb' 10 5) (lo.extractLsb' 9 1))
  | 2#9 => .ok (.amoOr s x y (lo.extractLsb' 10 5) (lo.extractLsb' 9 1))
  | 3#9 => .ok (.amoXor s x y (lo.extractLsb' 10 5) (lo.extractLsb' 9 1))
  | 4#9 => .ok (.amoMax s x y (lo.extractLsb' 10 5) (lo.extractLsb' 9 1))
  | 5#9 => .ok (.amoMin s x y (lo.extractLsb' 10 5) (lo.extractLsb' 9 1))
  | 6#9 => .ok (.amoMaxu s x y (lo.extractLsb' 10 5) (lo.extractLsb' 9 1))
  | 7#9 => .ok (.amoMinu s x y (lo.extractLsb' 10 5) (lo.extractLsb' 9 1))
  | 8#9 => .ok (.amoSwp s x y (lo.extractLsb' 10 5) (lo.extractLsb' 9 1))
  | 9#9 => .ok (.amoCas s x y (lo.extractLsb' 10 5) (lo.extractLsb' 9 1))
  | 10#9 => if (lo.extractLsb' 9 1) = 0#1 then .ok (.amoFadd s x y (lo.extractLsb' 10 5)) else .error .reservedField
  | 256#9 => if x = 0#5 then .ok (.pamoAdd s y (lo.extractLsb' 10 5) (lo.extractLsb' 9 1)) else .error .reservedField
  | 257#9 => if x = 0#5 then .ok (.pamoAnd s y (lo.extractLsb' 10 5) (lo.extractLsb' 9 1)) else .error .reservedField
  | 258#9 => if x = 0#5 then .ok (.pamoOr s y (lo.extractLsb' 10 5) (lo.extractLsb' 9 1)) else .error .reservedField
  | 259#9 => if x = 0#5 then .ok (.pamoXor s y (lo.extractLsb' 10 5) (lo.extractLsb' 9 1)) else .error .reservedField
  | 260#9 => if x = 0#5 then .ok (.pamoMax s y (lo.extractLsb' 10 5) (lo.extractLsb' 9 1)) else .error .reservedField
  | 261#9 => if x = 0#5 then .ok (.pamoMin s y (lo.extractLsb' 10 5) (lo.extractLsb' 9 1)) else .error .reservedField
  | 262#9 => if x = 0#5 then .ok (.pamoMaxu s y (lo.extractLsb' 10 5) (lo.extractLsb' 9 1)) else .error .reservedField
  | 263#9 => if x = 0#5 then .ok (.pamoMinu s y (lo.extractLsb' 10 5) (lo.extractLsb' 9 1)) else .error .reservedField
  | 266#9 => if x = 0#5 ∧ (lo.extractLsb' 9 1) = 0#1 then .ok (.pamoFadd s y (lo.extractLsb' 10 5)) else .error .reservedField
  | _ => .error .unassigned

/-- Group Msg, major 0x1D. -/
def decodeMsg (s : Bool) (x y : BitVec 5) (lo : BitVec 15) : Except Reject Instr :=
  match (lo.extractLsb' 0 10) with
  | 0#10 => if x = 0#5 then .ok (.send s y (lo.extractLsb' 10 5)) else .error .reservedField
  | 1#10 => .ok (.sendt s x y (lo.extractLsb' 10 5))
  | 2#10 => .ok (.sendm s x y (lo.extractLsb' 10 5))
  | 3#10 => if x = 0#5 then .ok (.sendr s y (lo.extractLsb' 10 5)) else .error .reservedField
  | 4#10 => .ok (.mld s x y (lo.extractLsb' 10 5))
  | 5#10 => .ok (.mhdr s x y (lo.extractLsb' 10 5))
  | 6#10 => if x = 0#5 then .ok (.ttWr s y (lo.extractLsb' 10 5)) else .error .reservedField
  | 7#10 => .ok (.ttRd s x y (lo.extractLsb' 10 5))
  | 8#10 => if x = 0#5 ∧ (lo.extractLsb' 10 5) = 0#5 then .ok (.ttBlk s y) else .error .reservedField
  | 9#10 => if x = 0#5 ∧ (lo.extractLsb' 10 5) = 0#5 then .ok (.ttUblk s y) else .error .reservedField
  | _ => .error .unassigned

/-- Group Chk, major 0x1E. -/
def decodeChk (s : Bool) (x y : BitVec 5) (lo : BitVec 15) : Except Reject Instr :=
  match (lo.extractLsb' 0 10) with
  | 0#10 => if x = 0#5 ∧ y = 0#5 ∧ (lo.extractLsb' 10 5) = 0#5 then .ok (.commit s) else .error .reservedField
  | 1#10 => if lo.extractLsb' 10 5 ≤ 5#5 then if x = 0#5 ∧ y = 0#5 then .ok (.fence s (lo.extractLsb' 10 5)) else .error .reservedField else .error .unassigned
  | 2#10 => if x = 0#5 ∧ (lo.extractLsb' 10 5) = 0#5 then .ok (.abort s y) else .error .reservedField
  | 3#10 => if (lo.extractLsb' 10 5) = 0#5 then .ok (.dgRd s x y) else .error .reservedField
  | 4#10 => if x = 0#5 ∧ (lo.extractLsb' 10 5) = 0#5 then .ok (.dgMode s y) else .error .reservedField
  | 5#10 => if x = 0#5 ∧ (lo.extractLsb' 10 5) = 0#5 then .ok (.tileDef s y) else .error .reservedField
  | 6#10 => if x = 0#5 then .ok (.tileSt s y (lo.extractLsb' 10 5)) else .error .reservedField
  | 7#10 => .ok (.tileRd s x y (lo.extractLsb' 10 5))
  | 8#10 => if (lo.extractLsb' 10 5) = 0#5 then .ok (.tileSat s x y) else .error .reservedField
  | 9#10 => if x = 0#5 then .ok (.pf s y (lo.extractLsb' 10 5)) else .error .reservedField
  | _ => .error .unassigned

/-- Group Ring, major 0x1F. -/
def decodeRing (s : Bool) (x y : BitVec 5) (lo : BitVec 15) : Except Reject Instr :=
  match (lo.extractLsb' 0 10) with
  | 0#10 => if (x.extractLsb' 0 1) = 0#1 ∧ (lo.extractLsb' 10 5) = 0#5 then .ok (.rwLd s (x.extractLsb' 1 4) y) else .error .reservedField
  | 1#10 => if (x.extractLsb' 0 1) = 0#1 ∧ (lo.extractLsb' 10 5) = 0#5 then .ok (.rwAdv s (x.extractLsb' 1 4) y) else .error .reservedField
  | 2#10 => if (x.extractLsb' 0 1) = 0#1 then .ok (.rwSet s (x.extractLsb' 1 4) y (lo.extractLsb' 10 5)) else .error .reservedField
  | 3#10 => if (x.extractLsb' 0 1) = 0#1 then .ok (.rwAdd s (x.extractLsb' 1 4) y (lo.extractLsb' 10 5)) else .error .reservedField
  | 4#10 => if (x.extractLsb' 0 1) = 0#1 ∧ (lo.extractLsb' 10 5) = 0#5 then .ok (.rwArm s (x.extractLsb' 1 4) y) else .error .reservedField
  | 5#10 => if (x.extractLsb' 0 1) = 0#1 ∧ (lo.extractLsb' 10 5) = 0#5 then .ok (.rwDisarm s (x.extractLsb' 1 4) y) else .error .reservedField
  | 6#10 => if (lo.extractLsb' 10 5) = 0#5 then .ok (.rwHdr s x y) else .error .reservedField
  | 7#10 => if x = 0#5 then .ok (.lawWr s y (lo.extractLsb' 10 5)) else .error .reservedField
  | 8#10 => .ok (.lawRd s x y (lo.extractLsb' 10 5))
  | 9#10 => if x = 0#5 then .ok (.clkAdv s y (lo.extractLsb' 10 5)) else .error .reservedField
  | 10#10 => if (lo.extractLsb' 10 5) = 0#5 then .ok (.clkRd s x y) else .error .reservedField
  | _ => .error .unassigned

/-- Group Varf, major 0x20. -/
def decodeVarf (s : Bool) (x y : BitVec 5) (lo : BitVec 15) : Except Reject Instr :=
  match (lo.extractLsb' 0 7) with
  | 0#7 => .ok (.vaddF s x y (lo.extractLsb' 10 5) (lo.extractLsb' 7 3))
  | 1#7 => .ok (.vsubF s x y (lo.extractLsb' 10 5) (lo.extractLsb' 7 3))
  | 2#7 => .ok (.vmulF s x y (lo.extractLsb' 10 5) (lo.extractLsb' 7 3))
  | 3#7 => .ok (.vdivF s x y (lo.extractLsb' 10 5) (lo.extractLsb' 7 3))
  | 4#7 => if (lo.extractLsb' 10 5) = 0#5 then .ok (.vsqrtF s x y (lo.extractLsb' 7 3)) else .error .reservedField
  | 5#7 => .ok (.vmaxF s x y (lo.extractLsb' 10 5) (lo.extractLsb' 7 3))
  | 6#7 => .ok (.vminF s x y (lo.extractLsb' 10 5) (lo.extractLsb' 7 3))
  | 7#7 => if (lo.extractLsb' 10 5) = 0#5 then .ok (.vabsF s x y (lo.extractLsb' 7 3)) else .error .reservedField
  | 8#7 => if (lo.extractLsb' 10 5) = 0#5 then .ok (.vnegF s x y (lo.extractLsb' 7 3)) else .error .reservedField
  | 9#7 => .ok (.vfma s x y (lo.extractLsb' 10 5) (lo.extractLsb' 7 3))
  | 10#7 => .ok (.vfms s x y (lo.extractLsb' 10 5) (lo.extractLsb' 7 3))
  | 11#7 => .ok (.vfnma s x y (lo.extractLsb' 10 5) (lo.extractLsb' 7 3))
  | 12#7 => if (x.extractLsb' 3 2) = 0#2 then .ok (.vcmpeqF s (x.extractLsb' 0 3) y (lo.extractLsb' 10 5) (lo.extractLsb' 7 3)) else .error .reservedField
  | 13#7 => if (x.extractLsb' 3 2) = 0#2 then .ok (.vcmpltF s (x.extractLsb' 0 3) y (lo.extractLsb' 10 5) (lo.extractLsb' 7 3)) else .error .reservedField
  | 14#7 => if (x.extractLsb' 3 2) = 0#2 then .ok (.vcmpleF s (x.extractLsb' 0 3) y (lo.extractLsb' 10 5) (lo.extractLsb' 7 3)) else .error .reservedField
  | 15#7 => if (x.extractLsb' 3 2) = 0#2 then .ok (.vcmpunF s (x.extractLsb' 0 3) y (lo.extractLsb' 10 5) (lo.extractLsb' 7 3)) else .error .reservedField
  | 16#7 => if (lo.extractLsb' 10 5) = 0#5 then .ok (.vclass s x y (lo.extractLsb' 7 3)) else .error .reservedField
  | _ => .error .unassigned

/-- Group Vari, major 0x21. -/
def decodeVari (s : Bool) (x y : BitVec 5) (lo : BitVec 15) : Except Reject Instr :=
  match (lo.extractLsb' 0 7) with
  | 0#7 => .ok (.vaddI s x y (lo.extractLsb' 10 5) (lo.extractLsb' 7 3))
  | 1#7 => .ok (.vsubI s x y (lo.extractLsb' 10 5) (lo.extractLsb' 7 3))
  | 2#7 => .ok (.vmulI s x y (lo.extractLsb' 10 5) (lo.extractLsb' 7 3))
  | 3#7 => .ok (.vand s x y (lo.extractLsb' 10 5) (lo.extractLsb' 7 3))
  | 4#7 => .ok (.vor s x y (lo.extractLsb' 10 5) (lo.extractLsb' 7 3))
  | 5#7 => .ok (.vxor s x y (lo.extractLsb' 10 5) (lo.extractLsb' 7 3))
  | 6#7 => .ok (.vshl s x y (lo.extractLsb' 10 5) (lo.extractLsb' 7 3))
  | 7#7 => .ok (.vshr s x y (lo.extractLsb' 10 5) (lo.extractLsb' 7 3))
  | 8#7 => .ok (.vsra s x y (lo.extractLsb' 10 5) (lo.extractLsb' 7 3))
  | 9#7 => .ok (.vminI s x y (lo.extractLsb' 10 5) (lo.extractLsb' 7 3))
  | 10#7 => .ok (.vmaxI s x y (lo.extractLsb' 10 5) (lo.extractLsb' 7 3))
  | 11#7 => if (x.extractLsb' 3 2) = 0#2 then .ok (.vcmpeqI s (x.extractLsb' 0 3) y (lo.extractLsb' 10 5) (lo.extractLsb' 7 3)) else .error .reservedField
  | 12#7 => if (x.extractLsb' 3 2) = 0#2 then .ok (.vcmpltI s (x.extractLsb' 0 3) y (lo.extractLsb' 10 5) (lo.extractLsb' 7 3)) else .error .reservedField
  | 13#7 => if (x.extractLsb' 3 2) = 0#2 then .ok (.vcmpltu s (x.extractLsb' 0 3) y (lo.extractLsb' 10 5) (lo.extractLsb' 7 3)) else .error .reservedField
  | 14#7 => .ok (.vsel s x y (lo.extractLsb' 10 5) (lo.extractLsb' 7 3))
  | 15#7 => if (lo.extractLsb' 10 5) = 0#5 then .ok (.vmov s x y (lo.extractLsb' 7 3)) else .error .reservedField
  | 16#7 => if (lo.extractLsb' 10 5) = 0#5 then .ok (.vbcast s x y (lo.extractLsb' 7 3)) else .error .reservedField
  | 17#7 => if (lo.extractLsb' 7 3) = 0#3 then .ok (.vext s x y (lo.extractLsb' 10 5)) else .error .reservedField
  | 18#7 => if (lo.extractLsb' 7 3) = 0#3 then .ok (.vins s x y (lo.extractLsb' 10 5)) else .error .reservedField
  | 19#7 => if y = 0#5 ∧ (lo.extractLsb' 10 5) = 0#5 then .ok (.viota s x (lo.extractLsb' 7 3)) else .error .reservedField
  | _ => .error .unassigned

/-- Group Vcvt, major 0x22. -/
def decodeVcvt (s : Bool) (x y : BitVec 5) (lo : BitVec 15) : Except Reject Instr :=
  match (lo.extractLsb' 0 6) with
  | 0#6 => if lo.extractLsb' 12 3 ≤ 6#3 then if (lo.extractLsb' 9 3) = 0#3 then .ok (.vcvtFI s x y (lo.extractLsb' 12 3) (lo.extractLsb' 6 3)) else .error .reservedField else .error .unassigned
  | 1#6 => if lo.extractLsb' 12 3 ≤ 6#3 then if (lo.extractLsb' 9 3) = 0#3 then .ok (.vcvtIF s x y (lo.extractLsb' 12 3) (lo.extractLsb' 6 3)) else .error .reservedField else .error .unassigned
  | 2#6 => if (lo.extractLsb' 9 6) = 0#6 then .ok (.vcvtFBf s x y (lo.extractLsb' 6 3)) else .error .reservedField
  | 3#6 => if lo.extractLsb' 12 3 ≤ 6#3 then if (lo.extractLsb' 9 3) = 0#3 then .ok (.vcvtBfF s x y (lo.extractLsb' 12 3) (lo.extractLsb' 6 3)) else .error .reservedField else .error .unassigned
  | 4#6 => if (lo.extractLsb' 9 6) = 0#6 then .ok (.vcvtFH s x y (lo.extractLsb' 6 3)) else .error .reservedField
  | 5#6 => if lo.extractLsb' 12 3 ≤ 6#3 then if (lo.extractLsb' 9 3) = 0#3 then .ok (.vcvtHF s x y (lo.extractLsb' 12 3) (lo.extractLsb' 6 3)) else .error .reservedField else .error .unassigned
  | 6#6 => if lo.extractLsb' 12 3 ≤ 6#3 then .ok (.vnarrow s x y (lo.extractLsb' 12 3) (lo.extractLsb' 9 3) (lo.extractLsb' 6 3)) else .error .unassigned
  | 7#6 => if (lo.extractLsb' 12 3) = 0#3 then .ok (.vwiden s x y (lo.extractLsb' 9 3) (lo.extractLsb' 6 3)) else .error .reservedField
  | 8#6 => if lo.extractLsb' 12 3 ≤ 6#3 then .ok (.vpack s x y (lo.extractLsb' 12 3) (lo.extractLsb' 9 3) (lo.extractLsb' 6 3)) else .error .unassigned
  | 9#6 => if (lo.extractLsb' 12 3) = 0#3 then .ok (.vunpack s x y (lo.extractLsb' 9 3) (lo.extractLsb' 6 3)) else .error .reservedField
  | _ => .error .unassigned

/-- Group Vred, major 0x23. -/
def decodeVred (s : Bool) (x y : BitVec 5) (lo : BitVec 15) : Except Reject Instr :=
  match (lo.extractLsb' 0 7) with
  | 0#7 => if (lo.extractLsb' 10 5) = 0#5 then .ok (.vrsumF s x y (lo.extractLsb' 7 3)) else .error .reservedField
  | 1#7 => if (lo.extractLsb' 10 5) = 0#5 then .ok (.vrmaxF s x y (lo.extractLsb' 7 3)) else .error .reservedField
  | 2#7 => if (lo.extractLsb' 10 5) = 0#5 then .ok (.vrminF s x y (lo.extractLsb' 7 3)) else .error .reservedField
  | 3#7 => if (lo.extractLsb' 10 5) = 0#5 then .ok (.vrsumI s x y (lo.extractLsb' 7 3)) else .error .reservedField
  | 4#7 => if (x.extractLsb' 0 1) = 0#1 ∧ (lo.extractLsb' 10 5) = 0#5 then .ok (.vrsumX s (x.extractLsb' 1 4) y (lo.extractLsb' 7 3)) else .error .reservedField
  | 5#7 => if (lo.extractLsb' 10 5) = 0#5 then .ok (.vscanF s x y (lo.extractLsb' 7 3)) else .error .reservedField
  | 6#7 => if (lo.extractLsb' 10 5) = 0#5 then .ok (.vscanI s x y (lo.extractLsb' 7 3)) else .error .reservedField
  | 7#7 => if (lo.extractLsb' 10 5) = 0#5 then .ok (.vargmax s x y (lo.extractLsb' 7 3)) else .error .reservedField
  | 8#7 => if (lo.extractLsb' 10 5) = 0#5 then .ok (.vargmin s x y (lo.extractLsb' 7 3)) else .error .reservedField
  | _ => .error .unassigned

/-- Group Vprm, major 0x24. -/
def decodeVprm (s : Bool) (x y : BitVec 5) (lo : BitVec 15) : Except Reject Instr :=
  match (lo.extractLsb' 0 7) with
  | 0#7 => .ok (.vperm s x y (lo.extractLsb' 10 5) (lo.extractLsb' 7 3))
  | 1#7 => .ok (.vrot s x y (lo.extractLsb' 10 5) (lo.extractLsb' 7 3))
  | 2#7 => .ok (.vzip s x y (lo.extractLsb' 10 5) (lo.extractLsb' 7 3))
  | 3#7 => .ok (.vunzip s x y (lo.extractLsb' 10 5) (lo.extractLsb' 7 3))
  | 4#7 => if (lo.extractLsb' 10 5) = 0#5 then .ok (.vcomp s x y (lo.extractLsb' 7 3)) else .error .reservedField
  | 5#7 => if (lo.extractLsb' 10 5) = 0#5 then .ok (.vexpd s x y (lo.extractLsb' 7 3)) else .error .reservedField
  | _ => .error .unassigned

/-- Group Vfn, major 0x25. -/
def decodeVfn (s : Bool) (x y : BitVec 5) (lo : BitVec 15) : Except Reject Instr :=
  match (lo.extractLsb' 0 5) with
  | 0#5 => if lo.extractLsb' 5 2 ≤ 2#2 then if (lo.extractLsb' 10 5) = 0#5 then .ok (.vfnExp2 s x y (lo.extractLsb' 7 3) (lo.extractLsb' 5 2)) else .error .reservedField else .error .unassigned
  | 1#5 => if lo.extractLsb' 5 2 ≤ 2#2 then if (lo.extractLsb' 10 5) = 0#5 then .ok (.vfnLog2 s x y (lo.extractLsb' 7 3) (lo.extractLsb' 5 2)) else .error .reservedField else .error .unassigned
  | 2#5 => if lo.extractLsb' 5 2 ≤ 2#2 then if (lo.extractLsb' 10 5) = 0#5 then .ok (.vfnExp s x y (lo.extractLsb' 7 3) (lo.extractLsb' 5 2)) else .error .reservedField else .error .unassigned
  | 3#5 => if lo.extractLsb' 5 2 ≤ 2#2 then if (lo.extractLsb' 10 5) = 0#5 then .ok (.vfnLn s x y (lo.extractLsb' 7 3) (lo.extractLsb' 5 2)) else .error .reservedField else .error .unassigned
  | 4#5 => if lo.extractLsb' 5 2 ≤ 2#2 then if (lo.extractLsb' 10 5) = 0#5 then .ok (.vfnRcp s x y (lo.extractLsb' 7 3) (lo.extractLsb' 5 2)) else .error .reservedField else .error .unassigned
  | 5#5 => if lo.extractLsb' 5 2 ≤ 2#2 then if (lo.extractLsb' 10 5) = 0#5 then .ok (.vfnRsqrt s x y (lo.extractLsb' 7 3) (lo.extractLsb' 5 2)) else .error .reservedField else .error .unassigned
  | 6#5 => if lo.extractLsb' 5 2 ≤ 2#2 then if (lo.extractLsb' 10 5) = 0#5 then .ok (.vfnSint s x y (lo.extractLsb' 7 3) (lo.extractLsb' 5 2)) else .error .reservedField else .error .unassigned
  | 7#5 => if lo.extractLsb' 5 2 ≤ 2#2 then if (lo.extractLsb' 10 5) = 0#5 then .ok (.vfnCost s x y (lo.extractLsb' 7 3) (lo.extractLsb' 5 2)) else .error .reservedField else .error .unassigned
  | 8#5 => if lo.extractLsb' 5 2 ≤ 2#2 then if (lo.extractLsb' 10 5) = 0#5 then .ok (.vfnTanh s x y (lo.extractLsb' 7 3) (lo.extractLsb' 5 2)) else .error .reservedField else .error .unassigned
  | 9#5 => if lo.extractLsb' 5 2 ≤ 2#2 then if (lo.extractLsb' 10 5) = 0#5 then .ok (.vfnSigm s x y (lo.extractLsb' 7 3) (lo.extractLsb' 5 2)) else .error .reservedField else .error .unassigned
  | 10#5 => if lo.extractLsb' 5 2 ≤ 2#2 then if (lo.extractLsb' 10 5) = 0#5 then .ok (.vfnErf s x y (lo.extractLsb' 7 3) (lo.extractLsb' 5 2)) else .error .reservedField else .error .unassigned
  | 11#5 => if lo.extractLsb' 5 2 ≤ 2#2 then if (lo.extractLsb' 10 5) = 0#5 then .ok (.vfnGelu s x y (lo.extractLsb' 7 3) (lo.extractLsb' 5 2)) else .error .reservedField else .error .unassigned
  | 12#5 => if lo.extractLsb' 5 2 ≤ 2#2 then if (lo.extractLsb' 10 5) = 0#5 then .ok (.vfnSilu s x y (lo.extractLsb' 7 3) (lo.extractLsb' 5 2)) else .error .reservedField else .error .unassigned
  | _ => .error .unassigned

/-- Group Vmsk, major 0x26. -/
def decodeVmsk (s : Bool) (x y : BitVec 5) (lo : BitVec 15) : Except Reject Instr :=
  match (lo.extractLsb' 0 7) with
  | 0#7 => if (x.extractLsb' 3 2) = 0#2 ∧ (y.extractLsb' 3 2) = 0#2 ∧ (lo.extractLsb' 7 3) = 0#3 ∧ (lo.extractLsb' 13 2) = 0#2 then .ok (.mand s (x.extractLsb' 0 3) (y.extractLsb' 0 3) (lo.extractLsb' 10 3)) else .error .reservedField
  | 1#7 => if (x.extractLsb' 3 2) = 0#2 ∧ (y.extractLsb' 3 2) = 0#2 ∧ (lo.extractLsb' 7 3) = 0#3 ∧ (lo.extractLsb' 13 2) = 0#2 then .ok (.mor s (x.extractLsb' 0 3) (y.extractLsb' 0 3) (lo.extractLsb' 10 3)) else .error .reservedField
  | 2#7 => if (x.extractLsb' 3 2) = 0#2 ∧ (y.extractLsb' 3 2) = 0#2 ∧ (lo.extractLsb' 7 3) = 0#3 ∧ (lo.extractLsb' 13 2) = 0#2 then .ok (.mxor s (x.extractLsb' 0 3) (y.extractLsb' 0 3) (lo.extractLsb' 10 3)) else .error .reservedField
  | 3#7 => if (x.extractLsb' 3 2) = 0#2 ∧ (y.extractLsb' 3 2) = 0#2 ∧ (lo.extractLsb' 7 8) = 0#8 then .ok (.mnot s (x.extractLsb' 0 3) (y.extractLsb' 0 3)) else .error .reservedField
  | 4#7 => if (y.extractLsb' 3 2) = 0#2 ∧ (lo.extractLsb' 7 8) = 0#8 then .ok (.mpop s x (y.extractLsb' 0 3)) else .error .reservedField
  | 5#7 => if (y.extractLsb' 3 2) = 0#2 ∧ (lo.extractLsb' 7 8) = 0#8 then .ok (.mfirst s x (y.extractLsb' 0 3)) else .error .reservedField
  | 6#7 => if (x.extractLsb' 3 2) = 0#2 ∧ (lo.extractLsb' 7 8) = 0#8 then .ok (.mset s (x.extractLsb' 0 3) y) else .error .reservedField
  | 7#7 => if (y.extractLsb' 3 2) = 0#2 ∧ (lo.extractLsb' 7 8) = 0#8 then .ok (.mget s x (y.extractLsb' 0 3)) else .error .reservedField
  | _ => .error .unassigned

/-- Group Vq, major 0x27. -/
noncomputable def decodeVq (s : Bool) (x y : BitVec 5) (lo : BitVec 15) : Except Reject Instr :=
  match (lo.extractLsb' 0 7) with
  | 0#7 => .ok (.vquant s x y (lo.extractLsb' 10 5) (lo.extractLsb' 7 3))
  | 1#7 => .ok (.vdq s x y (lo.extractLsb' 10 5) (lo.extractLsb' 7 3))
  | 2#7 => .ok (.vlaw s x y (lo.extractLsb' 10 5) (lo.extractLsb' 7 3))
  | 3#7 => .ok (.vtopk s x y (lo.extractLsb' 10 5) (lo.extractLsb' 7 3))
  | 4#7 => .ok (.vsp24 s x y (lo.extractLsb' 10 5) (lo.extractLsb' 7 3))
  | _ => .error .unassigned

/-- Group Csr, major 0x28. -/
noncomputable def decodeCsr (s : Bool) (x y : BitVec 5) (lo : BitVec 15) : Except Reject Instr :=
  match (lo.extractLsb' 12 3) with
  | 0#3 => if csrAssigned (lo.extractLsb' 0 12) then if y = 0#5 then .ok (.csrr s x (lo.extractLsb' 0 12)) else .error .reservedField else .error .unassigned
  | 1#3 => if csrAssigned (lo.extractLsb' 0 12) then .ok (.csrw s x y (lo.extractLsb' 0 12)) else .error .unassigned
  | 2#3 => if csrAssigned (lo.extractLsb' 0 12) then .ok (.csrs s x y (lo.extractLsb' 0 12)) else .error .unassigned
  | 3#3 => if csrAssigned (lo.extractLsb' 0 12) then .ok (.csrc s x y (lo.extractLsb' 0 12)) else .error .unassigned
  | 4#3 => if lo.extractLsb' 0 12 ≤ 6#12 then if y = 0#5 then .ok (.frd s x (lo.extractLsb' 0 12)) else .error .reservedField else .error .unassigned
  | _ => .error .unassigned

/-- Group Xeng, major 0x30. -/
noncomputable def decodeXeng (s : Bool) (x y : BitVec 5) (lo : BitVec 15) : Except Reject Instr :=
  match (lo.extractLsb' 0 10) with
  | 0#10 => if (lo.extractLsb' 10 5) = 0#5 then .ok (.mxWr s x y) else .error .reservedField
  | 1#10 => if y = 0#5 then .ok (.mxRd s x (lo.extractLsb' 10 5)) else .error .reservedField
  | 2#10 => if y = 0#5 then .ok (.mxLs s x (lo.extractLsb' 10 5)) else .error .reservedField
  | 3#10 => if y = 0#5 then .ok (.mxStr s x (lo.extractLsb' 10 5)) else .error .reservedField
  | 4#10 => if y = 0#5 then .ok (.mxDrn s x (lo.extractLsb' 10 5)) else .error .reservedField
  | 5#10 => if y = 0#5 then .ok (.mxZer s x (lo.extractLsb' 10 5)) else .error .reservedField
  | 6#10 => if y = 0#5 then .ok (.mxPoll s x (lo.extractLsb' 10 5)) else .error .reservedField
  | 7#10 => if y = 0#5 then .ok (.mxSlp s x (lo.extractLsb' 10 5)) else .error .reservedField
  | 8#10 => if y = 0#5 ∧ (lo.extractLsb' 10 5) = 0#5 then .ok (.mxCan s x) else .error .reservedField
  | 64#10 => if (lo.extractLsb' 10 5) = 0#5 then .ok (.cpPush s x y) else .error .reservedField
  | 65#10 => .ok (.cpTry s x y (lo.extractLsb' 10 5))
  | 66#10 => if y = 0#5 then .ok (.cpPoll s x (lo.extractLsb' 10 5)) else .error .reservedField
  | 67#10 => if y = 0#5 ∧ (lo.extractLsb' 10 5) = 0#5 then .ok (.cpCan s x) else .error .reservedField
  | 128#10 => if (lo.extractLsb' 10 5) = 0#5 then .ok (.hsWr s x y) else .error .reservedField
  | 129#10 => if y = 0#5 then .ok (.hsRd s x (lo.extractLsb' 10 5)) else .error .reservedField
  | 130#10 => .ok (.hsEnt s x y (lo.extractLsb' 10 5))
  | 131#10 => .ok (.hsTry s x y (lo.extractLsb' 10 5))
  | 132#10 => if (lo.extractLsb' 10 5) = 0#5 then .ok (.hsPass s x y) else .error .reservedField
  | 133#10 => if x = 0#5 ∧ y = 0#5 ∧ (lo.extractLsb' 10 5) = 0#5 then .ok (.hsDrop s) else .error .reservedField
  | 134#10 => .ok (.hsStat s x y (lo.extractLsb' 10 5))
  | 192#10 => if (lo.extractLsb' 10 5) = 0#5 then .ok (.barCfg s x y) else .error .reservedField
  | 193#10 => if y = 0#5 ∧ (lo.extractLsb' 10 5) = 0#5 then .ok (.barArr s x) else .error .reservedField
  | 194#10 => if y = 0#5 ∧ (lo.extractLsb' 10 5) = 0#5 then .ok (.barWait s x) else .error .reservedField
  | 195#10 => if y = 0#5 ∧ (lo.extractLsb' 10 5) = 0#5 then .ok (.barAw s x) else .error .reservedField
  | 196#10 => if (lo.extractLsb' 10 5) = 0#5 then .ok (.barAf s x y) else .error .reservedField
  | 197#10 => if y = 0#5 then .ok (.barRd s x (lo.extractLsb' 10 5)) else .error .reservedField
  | 256#10 => if (lo.extractLsb' 10 5) = 0#5 then .ok (.redCfg s x y) else .error .reservedField
  | 257#10 => if y = 0#5 then .ok (.redRd s x (lo.extractLsb' 10 5)) else .error .reservedField
  | _ => .error .unassigned

/-- R46, R60: the instruction whose S bit, major and three parts are given, or the check of R60 that refuses it. -/
noncomputable def decodeParts (s : Bool) (maj : BitVec 6) (x y : BitVec 5) (lo : BitVec 15) : Except Reject Instr :=
  match maj with
  | 1#6 => decodeOpr s x y lo
  | 2#6 => decodeAddi s x y lo
  | 3#6 => decodeAndi s x y lo
  | 4#6 => decodeOri s x y lo
  | 5#6 => decodeXori s x y lo
  | 6#6 => decodeSlti s x y lo
  | 7#6 => decodeSltiu s x y lo
  | 8#6 => decodeShi s x y lo
  | 9#6 => decodeLui s x y lo
  | 10#6 => decodeAddpc s x y lo
  | 11#6 => decodeMuldiv s x y lo
  | 12#6 => decodeBeq s x y lo
  | 13#6 => decodeBne s x y lo
  | 14#6 => decodeBlt s x y lo
  | 15#6 => decodeBge s x y lo
  | 16#6 => decodeBltu s x y lo
  | 17#6 => decodeBgeu s x y lo
  | 18#6 => decodeJal s x y lo
  | 19#6 => decodeJ s x y lo
  | 20#6 => decodeJalr s x y lo
  | 21#6 => decodeSys s x y lo
  | 22#6 => decodeLd s x y lo
  | 23#6 => decodeSt s x y lo
  | 24#6 => decodeVld s x y lo
  | 25#6 => decodeVst s x y lo
  | 26#6 => decodeVtl s x y lo
  | 27#6 => decodeVgs s x y lo
  | 28#6 => decodeAmo s x y lo
  | 29#6 => decodeMsg s x y lo
  | 30#6 => decodeChk s x y lo
  | 31#6 => decodeRing s x y lo
  | 32#6 => decodeVarf s x y lo
  | 33#6 => decodeVari s x y lo
  | 34#6 => decodeVcvt s x y lo
  | 35#6 => decodeVred s x y lo
  | 36#6 => decodeVprm s x y lo
  | 37#6 => decodeVfn s x y lo
  | 38#6 => decodeVmsk s x y lo
  | 39#6 => decodeVq s x y lo
  | 40#6 => decodeCsr s x y lo
  | 48#6 => decodeXeng s x y lo
  | 62#6 => if s = false ∧ x = 0#5 ∧ y = 0#5 ∧ lo = 0#15 then .ok .once else .error .unassigned
  | _ => .error .reservedMajor

/-- R39, R42: the instruction of a word: S is bit 31, the major bits [30:25], the parts [24:20], [19:15] and [14:0]. -/
noncomputable def decode (w : BitVec 32) : Except Reject Instr :=
  decodeParts (w.getLsbD 31) (w.extractLsb' 25 6) (w.extractLsb' 20 5) (w.extractLsb' 15 5) (w.extractLsb' 0 15)

/-- R39, R42: a word from its S bit, major and three parts. -/
def packW (s : Bool) (maj : BitVec 6) (x y : BitVec 5) (lo : BitVec 15) : BitVec 32 :=
  BitVec.ofBool s ++ maj ++ x ++ y ++ lo

/-- R42: the low part of the R3 and X formats: a register and the function. -/
def loR3 (b : BitVec 5) (fn : BitVec 10) : BitVec 15 := b ++ fn
/-- R51: the low part of the AMO group: a register, the size bit and the operation. -/
def loAmo (b : BitVec 5) (z : BitVec 1) (fn : BitVec 9) : BitVec 15 := b ++ z ++ fn
/-- R42: the low part of the SHI format with a 6-bit shift. -/
def loSh6 (op : BitVec 3) (h : BitVec 6) : BitVec 15 := op ++ 0#6 ++ h
/-- R48: the low part of the SHI format with a 5-bit shift. -/
def loSh5 (op : BitVec 3) (h : BitVec 5) : BitVec 15 := op ++ 0#7 ++ h
/-- R42: the low part of the M and CSR formats: kind or op, then offset or number. -/
def loM (k : BitVec 3) (o : BitVec 12) : BitVec 15 := k ++ o
/-- R42: the low part of the VM format: mode, mask, offset. -/
def loVm (md q : BitVec 3) (o : BitVec 9) : BitVec 15 := md ++ q ++ o
/-- R42: the low part of the VT format: tile bit 0, g offset register, L/S, mask, zero. -/
def loVt (t : BitVec 1) (g : BitVec 5) (l : BitVec 1) (q : BitVec 3) : BitVec 15 := t ++ g ++ l ++ q ++ 0#5
/-- R42: the low part of the V format: vb, mask, function. -/
def loV (b : BitVec 5) (q : BitVec 3) (fn : BitVec 7) : BitVec 15 := b ++ q ++ fn
/-- R42: the low part of the VC format: rounding mode, format register, mask, function. -/
def loVc (r k q : BitVec 3) (fn : BitVec 6) : BitVec 15 := r ++ k ++ q ++ fn
/-- R56: the low part of the function group: zero, mask, precision, function. -/
def loVfn (q : BitVec 3) (p : BitVec 2) (fn : BitVec 5) : BitVec 15 := 0#5 ++ q ++ p ++ fn
/-- R44: a 5-bit field that names an m register. -/
def mReg (d : BitVec 3) : BitVec 5 := 0#2 ++ d
/-- R58: a 5-bit field that names an even-odd pair of g registers. -/
def pairReg (d : BitVec 4) : BitVec 5 := d ++ 0#1

/-- R42: the word of a well-formed instruction; `none` for an event, which has no word. -/
def encode? : Instr → Option (BitVec 32)
  | .add s d a b => some (packW s 1#6 d a (loR3 b 0#10))
  | .sub s d a b => some (packW s 1#6 d a (loR3 b 1#10))
  | .and s d a b => some (packW s 1#6 d a (loR3 b 2#10))
  | .or s d a b => some (packW s 1#6 d a (loR3 b 3#10))
  | .xor s d a b => some (packW s 1#6 d a (loR3 b 4#10))
  | .andn s d a b => some (packW s 1#6 d a (loR3 b 5#10))
  | .sll s d a b => some (packW s 1#6 d a (loR3 b 6#10))
  | .srl s d a b => some (packW s 1#6 d a (loR3 b 7#10))
  | .sra s d a b => some (packW s 1#6 d a (loR3 b 8#10))
  | .slt s d a b => some (packW s 1#6 d a (loR3 b 9#10))
  | .sltu s d a b => some (packW s 1#6 d a (loR3 b 10#10))
  | .min s d a b => some (packW s 1#6 d a (loR3 b 11#10))
  | .max s d a b => some (packW s 1#6 d a (loR3 b 12#10))
  | .minu s d a b => some (packW s 1#6 d a (loR3 b 13#10))
  | .maxu s d a b => some (packW s 1#6 d a (loR3 b 14#10))
  | .cmovz s d a b => some (packW s 1#6 d a (loR3 b 15#10))
  | .cmovn s d a b => some (packW s 1#6 d a (loR3 b 16#10))
  | .clz s d a => some (packW s 1#6 d a 17#15)
  | .ctz s d a => some (packW s 1#6 d a 18#15)
  | .popc s d a => some (packW s 1#6 d a 19#15)
  | .brev s d a => some (packW s 1#6 d a 20#15)
  | .bswap s d a => some (packW s 1#6 d a 21#15)
  | .ext s d a b => some (packW s 1#6 d a (loR3 b 22#10))
  | .ins s d a b => some (packW s 1#6 d a (loR3 b 23#10))
  | .addw s d a b => some (packW s 1#6 d a (loR3 b 512#10))
  | .subw s d a b => some (packW s 1#6 d a (loR3 b 513#10))
  | .sllw s d a b => some (packW s 1#6 d a (loR3 b 518#10))
  | .srlw s d a b => some (packW s 1#6 d a (loR3 b 519#10))
  | .sraw s d a b => some (packW s 1#6 d a (loR3 b 520#10))
  | .addi s d a i => some (packW s 2#6 d a i)
  | .andi s d a i => some (packW s 3#6 d a i)
  | .ori s d a i => some (packW s 4#6 d a i)
  | .xori s d a i => some (packW s 5#6 d a i)
  | .slti s d a i => some (packW s 6#6 d a i)
  | .sltiu s d a i => some (packW s 7#6 d a i)
  | .slli s d a h => some (packW s 8#6 d a (loSh6 0#3 h))
  | .srli s d a h => some (packW s 8#6 d a (loSh6 1#3 h))
  | .srai s d a h => some (packW s 8#6 d a (loSh6 2#3 h))
  | .slliw s d a h => some (packW s 8#6 d a (loSh5 3#3 h))
  | .srliw s d a h => some (packW s 8#6 d a (loSh5 4#3 h))
  | .sraiw s d a h => some (packW s 8#6 d a (loSh5 5#3 h))
  | .lui s d i => some (packW s 9#6 d (i.extractLsb' 15 5) (i.extractLsb' 0 15))
  | .addpc s d i => some (packW s 10#6 d (i.extractLsb' 15 5) (i.extractLsb' 0 15))
  | .mul s d a b => some (packW s 11#6 d a (loR3 b 0#10))
  | .mulh s d a b => some (packW s 11#6 d a (loR3 b 1#10))
  | .mulhu s d a b => some (packW s 11#6 d a (loR3 b 2#10))
  | .div s d a b => some (packW s 11#6 d a (loR3 b 3#10))
  | .divu s d a b => some (packW s 11#6 d a (loR3 b 4#10))
  | .rem s d a b => some (packW s 11#6 d a (loR3 b 5#10))
  | .remu s d a b => some (packW s 11#6 d a (loR3 b 6#10))
  | .mulw s d a b => some (packW s 11#6 d a (loR3 b 512#10))
  | .divw s d a b => some (packW s 11#6 d a (loR3 b 515#10))
  | .divuw s d a b => some (packW s 11#6 d a (loR3 b 516#10))
  | .remw s d a b => some (packW s 11#6 d a (loR3 b 517#10))
  | .remuw s d a b => some (packW s 11#6 d a (loR3 b 518#10))
  | .beq s a b i => some (packW s 12#6 a b i)
  | .bne s a b i => some (packW s 13#6 a b i)
  | .blt s a b i => some (packW s 14#6 a b i)
  | .bge s a b i => some (packW s 15#6 a b i)
  | .bltu s a b i => some (packW s 16#6 a b i)
  | .bgeu s a b i => some (packW s 17#6 a b i)
  | .jal s i => some (packW s 18#6 (i.extractLsb' 20 5) (i.extractLsb' 15 5) (i.extractLsb' 0 15))
  | .j s i => some (packW s 19#6 (i.extractLsb' 20 5) (i.extractLsb' 15 5) (i.extractLsb' 0 15))
  | .jalr s d a i => some (packW s 20#6 d a i)
  | .nop s => some (packW s 21#6 0#5 0#5 0#15)
  | .fin s => some (packW s 21#6 0#5 0#5 1#15)
  | .trap s a b => some (packW s 21#6 0#5 a (loR3 b 2#10))
  | .brk s => some (packW s 21#6 0#5 0#5 3#15)
  | .fmtSet s d a b => some (packW s 21#6 d a (loR3 b 4#10))
  | .fmtRd s d a => some (packW s 21#6 d a 5#15)
  | .wgRd s d a b => some (packW s 21#6 d a (loR3 b 6#10))
  | .wgClr s a b => some (packW s 21#6 0#5 a (loR3 b 7#10))
  | .wgSync s a => some (packW s 21#6 0#5 a 8#15)
  | .tbRd s d => some (packW s 21#6 d 0#5 9#15)
  | .tlbWr s a b => some (packW s 21#6 0#5 a (loR3 b 32#10))
  | .tlbInv s a b => some (packW s 21#6 0#5 a (loR3 b 33#10))
  | .tlbRd s d a b => some (packW s 21#6 d a (loR3 b 34#10))
  | .fltRply s a b => some (packW s 21#6 0#5 a (loR3 b 35#10))
  | .rectSet s a b => some (packW s 21#6 0#5 a (loR3 b 36#10))
  | .migGo s a b => some (packW s 21#6 0#5 a (loR3 b 37#10))
  | .ctxStop s a => some (packW s 21#6 0#5 a 38#15)
  | .ctxGo s a b => some (packW s 21#6 0#5 a (loR3 b 39#10))
  | .ldB s d a o => some (packW s 22#6 d a (loM 0#3 o))
  | .ldBu s d a o => some (packW s 22#6 d a (loM 1#3 o))
  | .ldH s d a o => some (packW s 22#6 d a (loM 2#3 o))
  | .ldHu s d a o => some (packW s 22#6 d a (loM 3#3 o))
  | .ldW s d a o => some (packW s 22#6 d a (loM 4#3 o))
  | .ldWu s d a o => some (packW s 22#6 d a (loM 5#3 o))
  | .ldD s d a o => some (packW s 22#6 d a (loM 6#3 o))
  | .stB s d a o => some (packW s 23#6 d a (loM 0#3 o))
  | .stH s d a o => some (packW s 23#6 d a (loM 1#3 o))
  | .stW s d a o => some (packW s 23#6 d a (loM 2#3 o))
  | .stD s d a o => some (packW s 23#6 d a (loM 3#3 o))
  | .vldW s d a q o => some (packW s 24#6 d a (loVm 0#3 q o))
  | .vldBf s d a q o => some (packW s 24#6 d a (loVm 1#3 q o))
  | .vldH s d a q o => some (packW s 24#6 d a (loVm 2#3 q o))
  | .vldB s d a q o => some (packW s 24#6 d a (loVm 3#3 q o))
  | .vldSb s d a q o => some (packW s 24#6 d a (loVm 4#3 q o))
  | .vldBc s d a q o => some (packW s 24#6 d a (loVm 5#3 q o))
  | .vstW s d a q o => some (packW s 25#6 d a (loVm 0#3 q o))
  | .vstBf s d a q o => some (packW s 25#6 d a (loVm 1#3 q o))
  | .vstH s d a q o => some (packW s 25#6 d a (loVm 2#3 q o))
  | .vstB s d a q o => some (packW s 25#6 d a (loVm 3#3 q o))
  | .vldt s d t g q => some (packW s 26#6 d (t.extractLsb' 1 5) (loVt (t.extractLsb' 0 1) g 0#1 q))
  | .vstt s d t g q => some (packW s 26#6 d (t.extractLsb' 1 5) (loVt (t.extractLsb' 0 1) g 1#1 q))
  | .vgath s d a b q => some (packW s 27#6 d a (loV b q 0#7))
  | .vscat s d a b q => some (packW s 27#6 d a (loV b q 1#7))
  | .vlds s d a b q => some (packW s 27#6 d a (loV b q 2#7))
  | .vsts s d a b q => some (packW s 27#6 d a (loV b q 3#7))
  | .vscatFadd s d a b q => some (packW s 27#6 d a (loV b q 4#7))
  | .amoAdd s d a b z => some (packW s 28#6 d a (loAmo b z 0#9))
  | .amoAnd s d a b z => some (packW s 28#6 d a (loAmo b z 1#9))
  | .amoOr s d a b z => some (packW s 28#6 d a (loAmo b z 2#9))
  | .amoXor s d a b z => some (packW s 28#6 d a (loAmo b z 3#9))
  | .amoMax s d a b z => some (packW s 28#6 d a (loAmo b z 4#9))
  | .amoMin s d a b z => some (packW s 28#6 d a (loAmo b z 5#9))
  | .amoMaxu s d a b z => some (packW s 28#6 d a (loAmo b z 6#9))
  | .amoMinu s d a b z => some (packW s 28#6 d a (loAmo b z 7#9))
  | .amoSwp s d a b z => some (packW s 28#6 d a (loAmo b z 8#9))
  | .amoCas s d a b z => some (packW s 28#6 d a (loAmo b z 9#9))
  | .amoFadd s d a b => some (packW s 28#6 d a (loAmo b 0#1 10#9))
  | .pamoAdd s a b z => some (packW s 28#6 0#5 a (loAmo b z 256#9))
  | .pamoAnd s a b z => some (packW s 28#6 0#5 a (loAmo b z 257#9))
  | .pamoOr s a b z => some (packW s 28#6 0#5 a (loAmo b z 258#9))
  | .pamoXor s a b z => some (packW s 28#6 0#5 a (loAmo b z 259#9))
  | .pamoMax s a b z => some (packW s 28#6 0#5 a (loAmo b z 260#9))
  | .pamoMin s a b z => some (packW s 28#6 0#5 a (loAmo b z 261#9))
  | .pamoMaxu s a b z => some (packW s 28#6 0#5 a (loAmo b z 262#9))
  | .pamoMinu s a b z => some (packW s 28#6 0#5 a (loAmo b z 263#9))
  | .pamoFadd s a b => some (packW s 28#6 0#5 a (loAmo b 0#1 266#9))
  | .send s a b => some (packW s 29#6 0#5 a (loR3 b 0#10))
  | .sendt s d a b => some (packW s 29#6 d a (loR3 b 1#10))
  | .sendm s d a b => some (packW s 29#6 d a (loR3 b 2#10))
  | .sendr s a b => some (packW s 29#6 0#5 a (loR3 b 3#10))
  | .mld s d a b => some (packW s 29#6 d a (loR3 b 4#10))
  | .mhdr s d a b => some (packW s 29#6 d a (loR3 b 5#10))
  | .ttWr s a b => some (packW s 29#6 0#5 a (loR3 b 6#10))
  | .ttRd s d a b => some (packW s 29#6 d a (loR3 b 7#10))
  | .ttBlk s a => some (packW s 29#6 0#5 a 8#15)
  | .ttUblk s a => some (packW s 29#6 0#5 a 9#15)
  | .commit s => some (packW s 30#6 0#5 0#5 0#15)
  | .fence s b => some (packW s 30#6 0#5 0#5 (loR3 b 1#10))
  | .abort s a => some (packW s 30#6 0#5 a 2#15)
  | .dgRd s d a => some (packW s 30#6 d a 3#15)
  | .dgMode s a => some (packW s 30#6 0#5 a 4#15)
  | .tileDef s a => some (packW s 30#6 0#5 a 5#15)
  | .tileSt s a b => some (packW s 30#6 0#5 a (loR3 b 6#10))
  | .tileRd s d a b => some (packW s 30#6 d a (loR3 b 7#10))
  | .tileSat s d a => some (packW s 30#6 d a 8#15)
  | .pf s a b => some (packW s 30#6 0#5 a (loR3 b 9#10))
  | .rwLd s d a => some (packW s 31#6 (pairReg d) a 0#15)
  | .rwAdv s d a => some (packW s 31#6 (pairReg d) a 1#15)
  | .rwSet s d a b => some (packW s 31#6 (pairReg d) a (loR3 b 2#10))
  | .rwAdd s d a b => some (packW s 31#6 (pairReg d) a (loR3 b 3#10))
  | .rwArm s d a => some (packW s 31#6 (pairReg d) a 4#15)
  | .rwDisarm s d a => some (packW s 31#6 (pairReg d) a 5#15)
  | .rwHdr s d a => some (packW s 31#6 d a 6#15)
  | .lawWr s a b => some (packW s 31#6 0#5 a (loR3 b 7#10))
  | .lawRd s d a b => some (packW s 31#6 d a (loR3 b 8#10))
  | .clkAdv s a b => some (packW s 31#6 0#5 a (loR3 b 9#10))
  | .clkRd s d a => some (packW s 31#6 d a 10#15)
  | .vaddF s d a b q => some (packW s 32#6 d a (loV b q 0#7))
  | .vsubF s d a b q => some (packW s 32#6 d a (loV b q 1#7))
  | .vmulF s d a b q => some (packW s 32#6 d a (loV b q 2#7))
  | .vdivF s d a b q => some (packW s 32#6 d a (loV b q 3#7))
  | .vsqrtF s d a q => some (packW s 32#6 d a (loV 0#5 q 4#7))
  | .vmaxF s d a b q => some (packW s 32#6 d a (loV b q 5#7))
  | .vminF s d a b q => some (packW s 32#6 d a (loV b q 6#7))
  | .vabsF s d a q => some (packW s 32#6 d a (loV 0#5 q 7#7))
  | .vnegF s d a q => some (packW s 32#6 d a (loV 0#5 q 8#7))
  | .vfma s d a b q => some (packW s 32#6 d a (loV b q 9#7))
  | .vfms s d a b q => some (packW s 32#6 d a (loV b q 10#7))
  | .vfnma s d a b q => some (packW s 32#6 d a (loV b q 11#7))
  | .vcmpeqF s d a b q => some (packW s 32#6 (mReg d) a (loV b q 12#7))
  | .vcmpltF s d a b q => some (packW s 32#6 (mReg d) a (loV b q 13#7))
  | .vcmpleF s d a b q => some (packW s 32#6 (mReg d) a (loV b q 14#7))
  | .vcmpunF s d a b q => some (packW s 32#6 (mReg d) a (loV b q 15#7))
  | .vclass s d a q => some (packW s 32#6 d a (loV 0#5 q 16#7))
  | .vaddI s d a b q => some (packW s 33#6 d a (loV b q 0#7))
  | .vsubI s d a b q => some (packW s 33#6 d a (loV b q 1#7))
  | .vmulI s d a b q => some (packW s 33#6 d a (loV b q 2#7))
  | .vand s d a b q => some (packW s 33#6 d a (loV b q 3#7))
  | .vor s d a b q => some (packW s 33#6 d a (loV b q 4#7))
  | .vxor s d a b q => some (packW s 33#6 d a (loV b q 5#7))
  | .vshl s d a b q => some (packW s 33#6 d a (loV b q 6#7))
  | .vshr s d a b q => some (packW s 33#6 d a (loV b q 7#7))
  | .vsra s d a b q => some (packW s 33#6 d a (loV b q 8#7))
  | .vminI s d a b q => some (packW s 33#6 d a (loV b q 9#7))
  | .vmaxI s d a b q => some (packW s 33#6 d a (loV b q 10#7))
  | .vcmpeqI s d a b q => some (packW s 33#6 (mReg d) a (loV b q 11#7))
  | .vcmpltI s d a b q => some (packW s 33#6 (mReg d) a (loV b q 12#7))
  | .vcmpltu s d a b q => some (packW s 33#6 (mReg d) a (loV b q 13#7))
  | .vsel s d a b q => some (packW s 33#6 d a (loV b q 14#7))
  | .vmov s d a q => some (packW s 33#6 d a (loV 0#5 q 15#7))
  | .vbcast s d a q => some (packW s 33#6 d a (loV 0#5 q 16#7))
  | .vext s d a b => some (packW s 33#6 d a (loV b 0#3 17#7))
  | .vins s d a b => some (packW s 33#6 d a (loV b 0#3 18#7))
  | .viota s d q => some (packW s 33#6 d 0#5 (loV 0#5 q 19#7))
  | .vcvtFI s d a r q => some (packW s 34#6 d a (loVc r 0#3 q 0#6))
  | .vcvtIF s d a r q => some (packW s 34#6 d a (loVc r 0#3 q 1#6))
  | .vcvtFBf s d a q => some (packW s 34#6 d a (loVc 0#3 0#3 q 2#6))
  | .vcvtBfF s d a r q => some (packW s 34#6 d a (loVc r 0#3 q 3#6))
  | .vcvtFH s d a q => some (packW s 34#6 d a (loVc 0#3 0#3 q 4#6))
  | .vcvtHF s d a r q => some (packW s 34#6 d a (loVc r 0#3 q 5#6))
  | .vnarrow s d a r k q => some (packW s 34#6 d a (loVc r k q 6#6))
  | .vwiden s d a k q => some (packW s 34#6 d a (loVc 0#3 k q 7#6))
  | .vpack s d a r k q => some (packW s 34#6 d a (loVc r k q 8#6))
  | .vunpack s d a k q => some (packW s 34#6 d a (loVc 0#3 k q 9#6))
  | .vrsumF s d a q => some (packW s 35#6 d a (loV 0#5 q 0#7))
  | .vrmaxF s d a q => some (packW s 35#6 d a (loV 0#5 q 1#7))
  | .vrminF s d a q => some (packW s 35#6 d a (loV 0#5 q 2#7))
  | .vrsumI s d a q => some (packW s 35#6 d a (loV 0#5 q 3#7))
  | .vrsumX s d a q => some (packW s 35#6 (pairReg d) a (loV 0#5 q 4#7))
  | .vscanF s d a q => some (packW s 35#6 d a (loV 0#5 q 5#7))
  | .vscanI s d a q => some (packW s 35#6 d a (loV 0#5 q 6#7))
  | .vargmax s d a q => some (packW s 35#6 d a (loV 0#5 q 7#7))
  | .vargmin s d a q => some (packW s 35#6 d a (loV 0#5 q 8#7))
  | .vperm s d a b q => some (packW s 36#6 d a (loV b q 0#7))
  | .vrot s d a b q => some (packW s 36#6 d a (loV b q 1#7))
  | .vzip s d a b q => some (packW s 36#6 d a (loV b q 2#7))
  | .vunzip s d a b q => some (packW s 36#6 d a (loV b q 3#7))
  | .vcomp s d a q => some (packW s 36#6 d a (loV 0#5 q 4#7))
  | .vexpd s d a q => some (packW s 36#6 d a (loV 0#5 q 5#7))
  | .vfnExp2 s d a q p => some (packW s 37#6 d a (loVfn q p 0#5))
  | .vfnLog2 s d a q p => some (packW s 37#6 d a (loVfn q p 1#5))
  | .vfnExp s d a q p => some (packW s 37#6 d a (loVfn q p 2#5))
  | .vfnLn s d a q p => some (packW s 37#6 d a (loVfn q p 3#5))
  | .vfnRcp s d a q p => some (packW s 37#6 d a (loVfn q p 4#5))
  | .vfnRsqrt s d a q p => some (packW s 37#6 d a (loVfn q p 5#5))
  | .vfnSint s d a q p => some (packW s 37#6 d a (loVfn q p 6#5))
  | .vfnCost s d a q p => some (packW s 37#6 d a (loVfn q p 7#5))
  | .vfnTanh s d a q p => some (packW s 37#6 d a (loVfn q p 8#5))
  | .vfnSigm s d a q p => some (packW s 37#6 d a (loVfn q p 9#5))
  | .vfnErf s d a q p => some (packW s 37#6 d a (loVfn q p 10#5))
  | .vfnGelu s d a q p => some (packW s 37#6 d a (loVfn q p 11#5))
  | .vfnSilu s d a q p => some (packW s 37#6 d a (loVfn q p 12#5))
  | .mand s d a b => some (packW s 38#6 (mReg d) (mReg a) (loV (mReg b) 0#3 0#7))
  | .mor s d a b => some (packW s 38#6 (mReg d) (mReg a) (loV (mReg b) 0#3 1#7))
  | .mxor s d a b => some (packW s 38#6 (mReg d) (mReg a) (loV (mReg b) 0#3 2#7))
  | .mnot s d a => some (packW s 38#6 (mReg d) (mReg a) 3#15)
  | .mpop s d a => some (packW s 38#6 d (mReg a) 4#15)
  | .mfirst s d a => some (packW s 38#6 d (mReg a) 5#15)
  | .mset s d a => some (packW s 38#6 (mReg d) a 6#15)
  | .mget s d a => some (packW s 38#6 d (mReg a) 7#15)
  | .vquant s d a b q => some (packW s 39#6 d a (loV b q 0#7))
  | .vdq s d a b q => some (packW s 39#6 d a (loV b q 1#7))
  | .vlaw s d a b q => some (packW s 39#6 d a (loV b q 2#7))
  | .vtopk s d a b q => some (packW s 39#6 d a (loV b q 3#7))
  | .vsp24 s d a b q => some (packW s 39#6 d a (loV b q 4#7))
  | .csrr s d n => some (packW s 40#6 d 0#5 (loM 0#3 n))
  | .csrw s d a n => some (packW s 40#6 d a (loM 1#3 n))
  | .csrs s d a n => some (packW s 40#6 d a (loM 2#3 n))
  | .csrc s d a n => some (packW s 40#6 d a (loM 3#3 n))
  | .frd s d n => some (packW s 40#6 d 0#5 (loM 4#3 n))
  | .mxWr s a b => some (packW s 48#6 a b 0#15)
  | .mxRd s a d => some (packW s 48#6 a 0#5 (loR3 d 1#10))
  | .mxLs s a d => some (packW s 48#6 a 0#5 (loR3 d 2#10))
  | .mxStr s a d => some (packW s 48#6 a 0#5 (loR3 d 3#10))
  | .mxDrn s a d => some (packW s 48#6 a 0#5 (loR3 d 4#10))
  | .mxZer s a d => some (packW s 48#6 a 0#5 (loR3 d 5#10))
  | .mxPoll s a d => some (packW s 48#6 a 0#5 (loR3 d 6#10))
  | .mxSlp s a d => some (packW s 48#6 a 0#5 (loR3 d 7#10))
  | .mxCan s a => some (packW s 48#6 a 0#5 8#15)
  | .cpPush s a b => some (packW s 48#6 a b 64#15)
  | .cpTry s a b d => some (packW s 48#6 a b (loR3 d 65#10))
  | .cpPoll s a d => some (packW s 48#6 a 0#5 (loR3 d 66#10))
  | .cpCan s a => some (packW s 48#6 a 0#5 67#15)
  | .hsWr s a b => some (packW s 48#6 a b 128#15)
  | .hsRd s a d => some (packW s 48#6 a 0#5 (loR3 d 129#10))
  | .hsEnt s a b d => some (packW s 48#6 a b (loR3 d 130#10))
  | .hsTry s a b d => some (packW s 48#6 a b (loR3 d 131#10))
  | .hsPass s a b => some (packW s 48#6 a b 132#15)
  | .hsDrop s => some (packW s 48#6 0#5 0#5 133#15)
  | .hsStat s a b d => some (packW s 48#6 a b (loR3 d 134#10))
  | .barCfg s a b => some (packW s 48#6 a b 192#15)
  | .barArr s a => some (packW s 48#6 a 0#5 193#15)
  | .barWait s a => some (packW s 48#6 a 0#5 194#15)
  | .barAw s a => some (packW s 48#6 a 0#5 195#15)
  | .barAf s a b => some (packW s 48#6 a b 196#15)
  | .barRd s a d => some (packW s 48#6 a 0#5 (loR3 d 197#10))
  | .redCfg s a b => some (packW s 48#6 a b 256#15)
  | .redRd s a d => some (packW s 48#6 a 0#5 (loR3 d 257#10))
  | .once => some (packW false 62#6 0#5 0#5 0#15)
  | _ => none

/-- R42: the word of an encoded instruction (zero for an event, which has no word). -/
def encode (i : Instr) : BitVec 32 := (encode? i).getD 0#32

/-- The instruction the decoder reads from a word numbered as the opcode table numbers it: one 32-bit word. -/
noncomputable def decodeTableWord (nbits w : Nat) : Option Instr :=
  match decode (BitVec.ofNat 32 (w % 2 ^ nbits)) with
  | .ok i => some i
  | .error _ => none

end Sys2Proof
end

