-- ==== Sys2Proof/Machine/Operands.lean ====
section
/-! DEFINITION. The operand forms (R41, R43): immediates, offsets, branch targets, and the integer operations of the
scalar groups (R107 to R115) as functions of words. -/

namespace Sys2Proof.Machine

/-- R43: the U immediate, SEXT(imm20 << 12, 32). -/
def immU (i : BitVec 20) : Word := (i ++ 0#12).signExtend 64

/-- R43: the target of a B or J displacement, PC + 4 × SEXT(disp). -/
def branchTarget {n : Nat} (pc : Word) (disp : BitVec n) : Word := pc + 4#64 * disp.signExtend 64

/-- R207: the address of an M offset, base + SEXT(offset, 12) × size. -/
def memAddr (base : Word) (o : BitVec 12) (size : Nat) : Word := base + sext64 o * BitVec.ofNat 64 size

/-- R209: the address of a VM offset, base + SEXT(offset, 9) × bytes. -/
def vmAddr (base : Word) (o : BitVec 9) (bytes : Nat) : Word := base + sext64 o * BitVec.ofNat 64 bytes

/-- R109: 1 where a condition holds, else 0. -/
def boolW (c : Bool) : Word := if c then 1#64 else 0#64

/-- R109: the shift count, BITS(g[b], 5, 0). -/
def shCount (b : Word) : Nat := (b.extractLsb' 0 6).toNat

/-- R111: the W shift count, BITS(g[b], 4, 0). -/
def shCountW (b : Word) : Nat := (b.extractLsb' 0 5).toNat

/-- R48: a 32-bit result sign-extended. -/
def resW (x : BitVec 32) : Word := x.signExtend 64

/-- Bits [31:0] of a word. -/
def low32 (x : Word) : BitVec 32 := x.setWidth 32

/-- R109: CLZ, the zero bits above the highest set bit. -/
def clzW (x : Word) : Word := BitVec.ofNat 64 (((List.range 64).takeWhile fun i => !x.getLsbD (63 - i)).length)

/-- R109: CTZ, the zero bits below the lowest set bit. -/
def ctzW (x : Word) : Word := BitVec.ofNat 64 (((List.range 64).takeWhile fun i => !x.getLsbD i).length)

/-- R109: POPC, the number of set bits. -/
def popcW {n : Nat} (x : BitVec n) : Word := BitVec.ofNat 64 (((List.range n).filter fun i => x.getLsbD i).length)

/-- R109: BREV, bit i moved to bit 63 - i. -/
def brevW (x : Word) : Word := x.reverse

/-- R109: BSWAP, byte i moved to byte 7 - i. -/
def bswapW (x : Word) : Word :=
  x.extractLsb' 0 8 ++ x.extractLsb' 8 8 ++ x.extractLsb' 16 8 ++ x.extractLsb' 24 8 ++ x.extractLsb' 32 8
    ++ x.extractLsb' 40 8 ++ x.extractLsb' 48 8 ++ x.extractLsb' 56 8

/-- R110: FIELD, the position. -/
def fieldPos (spec : Word) : Nat := (spec.extractLsb' 0 6).toNat

/-- R110: FIELD, the mask: len ones at pos, cut at bit 63. -/
def fieldMask (spec : Word) : Word :=
  BitVec.ofNat 64 (2 ^ ((spec.extractLsb' 8 6).toNat + 1) - 1) <<< fieldPos spec

/-- R110: EXT. -/
def extW (a spec : Word) : Word := (a &&& fieldMask spec) >>> fieldPos spec

/-- R110: INS. -/
def insW (d a spec : Word) : Word := (d &&& ~~~ fieldMask spec) ||| ((a <<< fieldPos spec) &&& fieldMask spec)

/-- R107, R115: signed division truncated towards zero; a zero divisor gives all ones; the most negative number
divided by -1 gives itself (the wrapped quotient). -/
def sdivW {n : Nat} (a b : BitVec n) : BitVec n := if b = 0 then BitVec.allOnes n else a.sdiv b

/-- R107, R115: unsigned division; a zero divisor gives all ones. -/
def udivW {n : Nat} (a b : BitVec n) : BitVec n := if b = 0 then BitVec.allOnes n else a / b

/-- R107, R115: the signed remainder, with the dividend's sign; a zero divisor gives the dividend. -/
def sremW {n : Nat} (a b : BitVec n) : BitVec n := if b = 0 then a else a.srem b

/-- R107, R115: the unsigned remainder; a zero divisor gives the dividend. -/
def uremW {n : Nat} (a b : BitVec n) : BitVec n := if b = 0 then a else a % b

/-- R115: the high half of the signed product. -/
def mulhW (a b : Word) : Word := ((a.signExtend 128 * b.signExtend 128) >>> 64).setWidth 64

/-- R115: the high half of the unsigned product. -/
def mulhuW (a b : Word) : Word := ((a.setWidth 128 * b.setWidth 128) >>> 64).setWidth 64

/-- R135, R210: whether a lane is active under a mask. -/
def laneOn (m : Lane) (l : Nat) : Bool := m.getLsbD l

/-- The lane of a v register at an index. -/
def laneAt (v : VReg) (l : Nat) : Lane := v.toList.getD l 0

/-- A v register from its lanes. -/
def vecOf (g : Nat → Lane) : VReg := Vector.ofFn fun (i : Fin 32) => g i.val

end Sys2Proof.Machine
end

