-- ==== Sys2Proof/Config.lean ====
section
/-! DEFINITION. What an implementation fixes, and the free values: values the spec leaves open, opaque to every
proof. -/

namespace Sys2Proof.Config

/-- R64, R131: the package's number in the pod, 0 to 63 (a property of the installation). -/
opaque ownPackage : Fin 64

/-- R369: the installed capacity of one HBM4 stack, in GiB: the largest that R3 names. -/
def stackGiB : Nat := 64

/-- R377, R381, log entry 7: the n-th byte of data that the spec does not determine (a decode beyond the code's
guarantee; data read under a wrong key). -/
opaque freeByte : Nat → Byte

/-- R181, log entry 9: whether a chunk's signatures, past the guaranteed 256 sectors, have reached the boundary; the
hash is not published. The argument counts free values. -/
opaque freeBool : Nat → Bool

/-- Log entry 7: a free 64-bit value. -/
opaque freeWord : Nat → Word

/-- R412, R413, log entry 17: SHA-256, as the number of its digest. -/
opaque hash256 : List Byte → BitVec 256

/-- R412, log entry 17: whether a signature of an image verifies under the vendor's key. -/
opaque signatureValid : List Byte → List Byte → Bool

/-- R413, log entry 17: the device's signature of a transcript. -/
opaque sign : List Byte → List Byte

/-- R413, log entry 17: CTExponent of the attestation responder. -/
opaque spdmExponent : BitVec 8

/-- R413, log entry 17: the responder's DataTransferSize. -/
opaque spdmTransfer : BitVec 32

/-- R413, log entry 17: the responder's MaxSPDMmsgSize. -/
opaque spdmMessage : BitVec 32

/-- R412, log entry 17: the certificate chain in the management flash. -/
opaque certChain : List Byte

/-- R412, R413, log entry 17: the boot code, which measurement 1 covers. -/
opaque bootCode : List Byte

/-- R377, log entry 16: the errors that the n-th beat read from DRAM meets, as the bits they turn. -/
opaque beatError : Nat → BitVec 36

/-- R395, log entry 30: the bytes of an image whose scratchpads take so many bytes together. -/
opaque imageBytes : Nat → Nat

/-- R395: the device's image format version. -/
opaque imageVersion : Word

/-- R408: the package power limit after reset, in microjoules per budget period (2,400 W for the JMZ-7M). -/
def plimReset : Nat := 2400000

/-- R408: the fixed power, in microjoules per budget period (900 W for the JMZ-7M). -/
def pfixReset : Nat := 900000

end Sys2Proof.Config
end

