-- ==== Sys2Proof/Machine/State.lean ====
section
/-! DEFINITION. The state of the package as plain data (R62 to R74, R130, R159 to R180, R393 and the chapters each
field names), the reasons a step can stop, and the state after reset. Tables are held sparse: an entry not listed has
its reset value. -/

namespace Sys2Proof.Machine

/-- R62, R71, R94, R131: the registers of a firing as instructions see them; the send count (R221) and the ONCE
ordinal (R271) are checkpointed with them. -/
structure Regs where
  pc : Word := 0
  g : Vector Word 32 := Vector.replicate 32 0
  v : Vector VReg 32 := Vector.replicate 32 (Vector.replicate 32 0)
  m : Vector Lane 8 := Vector.replicate 8 0
  flags : Word := 0
  frm : Word := 0
  srcnt : Word := 0
  srecnt : Word := 0
  ctxsel : Word := 0
  sends : Nat := 0
  onceOrd : Nat := 0
  onceArmed : Bool := false
  deriving DecidableEq, Repr

/-- R68: the values the registers take at the end of the open group: each register's last write in program order,
whichever class made it; and the flags of long-class results. -/
structure Landing where
  g : Vector Word 32 := Vector.replicate 32 0
  v : Vector VReg 32 := Vector.replicate 32 (Vector.replicate 32 0)
  m : Vector Lane 8 := Vector.replicate 8 0
  flags : Word := 0
  deriving DecidableEq, Repr

/-- R182: a place of M, or a word that takes part in conflicts like one; the members of a read set. -/
inductive Loc where
  /-- a byte of device memory or of a scratchpad, by its key -/
  | byte (key : Nat)
  /-- a context CSR (R130) -/
  | csr (ctx num : Nat)
  /-- a format register (R88) -/
  | fmt (ctx lc k : Nat)
  /-- words 0 to 2 of a task-table entry (R229) -/
  | tt (ctx lc ch : Nat)
  /-- the state word of a tile (R175) -/
  | tile (ctx lc t : Nat)
  /-- an engine register (R285) -/
  | eg (ctx lc n : Nat)
  /-- a hurdle-set register (R315) -/
  | hs (ctx lcl set reg : Nat)
  /-- a barrier's participant count (R269) -/
  | part (ctx owner id : Nat)
  /-- a reduction group's configuration (R350) -/
  | red (ctx group : Nat)
  /-- the digest mode (R233) -/
  | dgMode (ctx : Nat)
  /-- a step clock (R243) -/
  | clock (ctx n : Nat)
  /-- an invalidation epoch (R276) -/
  | epoch (cluster : Nat)
  /-- a per-core counter that gives numbers at issue (R283, R318) -/
  | counter (ctx lc n : Nat)
  /-- a context's descriptor (R393) -/
  | desc (ctx : Nat)
  /-- a fault-rectangle table entry (R407) -/
  | rect (cluster : Nat)
  deriving DecidableEq, Repr

/-- R371, R382: the attributes of an access to device memory: the context of its tag (0 for a SHARED page), GRAN and KEYID. -/
structure Attr where
  ctx : Nat := 0
  gran : Nat := 0
  keyid : Nat := 0
  deriving DecidableEq, Repr

/-- R372, R376: a burst: 8 beats, each of 32 data bits below 4 ECC lane bits. -/
abbrev Burst := Vector (BitVec 36) 8

/-- R215: the operations of the atomics. -/
inductive AmoOp where
  | add
  | and
  | or
  | xor
  | max
  | min
  | maxu
  | minu
  | swp
  | cas
  | fadd
  deriving DecidableEq, Repr

/-- R196: a key of the ordered domain. -/
structure Key where
  ts : Word
  host : Bool
  spkg : Nat
  src : Nat
  seq : Nat
  deriving DecidableEq, Repr

/-- R180, R186: whose outbox a message lies in: a logical core, an engine, a hurdle router, a barrier, the halt tree's
reductions, the host link, the fabric, or the trap logic of a core. -/
inductive Outbox where
  | core (ctx lc : Nat)
  | engine (cluster : Nat) (e : Engine)
  | hurdle (cluster : Nat)
  | barrier (ctx id : Nat)
  | red (ctx group : Nat)
  | alarms (ctx : Nat)
  | host
  | fabric (pkg : Nat)
  | traps (ctx lc : Nat)
  | device
  deriving DecidableEq, Repr

/-- What a message is, for the rules that treat hardware messages apart (R79, R81, R224, R225). -/
inductive MsgKind where
  /-- a send of a firing or of the host -/
  | send
  /-- a trap record (R77) with the physical core it was raised on; wait is its WAIT bit -/
  | trap (wait : Bool) (unit num : Nat)
  /-- an alarm (R254) -/
  | alarm
  /-- a copy completion (R308) -/
  | copyDone
  /-- another hardware message: wake-up, barrier, reduction result, hurdle dispatch or exit, firmware completion -/
  | device
  /-- a translation request to the TSC (R274) -/
  | tlbRequest
  /-- a mailbox reply (R280) -/
  | mailboxReply (mbox seq code : Nat)
  /-- a contribution to a reduction group (R350) -/
  | reduction (group round : Nat)
  /-- the result of a round of a reduction group (R352) -/
  | redResult (group round : Nat)
  /-- an entry on its way to the router of a logical cluster (R319) -/
  | hsEntry (lcl set rid : Nat)
  /-- a dispatch to a worker (R321) -/
  | hsDispatch (lcl set rid stage member : Nat)
  /-- a verdict on its way to the router: pass, an error verdict, the write-back mask, the slot's cycles (R326) -/
  | hsVerdict (lcl set rid stage : Nat) (pass err : Bool) (mask : Word) (cycles : Nat)
  /-- a record leaving, or dropped under DSEND (R327, R328) -/
  | hsExit (lcl set rid : Nat) (drop : Bool)
  /-- an arrival on a fabric barrier that another package holds, by its number, with the request of a BAR.AF (R421) -/
  | farArrive (id num : Nat) (req : Option (Nat × Nat))
  /-- a BAR.CFG of a fabric barrier that another package holds (R421) -/
  | farCfg (id part : Nat)
  /-- the state of a fabric barrier, from the package that holds it, with the number of the last arrival of the package it goes
  to that it counts (R421) -/
  | farBar (id part arr : Nat) (phase : Bool) (mine : Nat)
  /-- the bytes that a copy writes to an element of another package's object, with the uid of the copy (R419) -/
  | farWrite (job obj i0 i1 : Nat)
  /-- the request of a copy for an element of another package's object, with the uid of the copy (R419) -/
  | farRead (job elem : Nat)
  /-- how many rounds of a reduction group this package's participants have all contributed to (R423) -/
  | farDone (group rounds : Nat)
  deriving DecidableEq, Repr

/-- R168: a message: the header's fields, the payload as sent, and what the network carries outside the header: the send
sequence (R168), the sending firing's FID, FTS and channel (R179), the outbox, and the entry address of a copy
completion (R308). -/
structure Msg where
  ctx : Nat
  dst : Nat
  ch : Nat
  pkg : Nat
  src : Nat
  spkg : Nat
  host : Bool
  ord : Bool
  wfmt : Nat
  ts : Word
  seq : Nat
  payload : List Byte
  fid : Word
  fts : Word
  fch : Nat
  box : Outbox
  kind : MsgKind
  entry : Word
  tag : Nat
  tries : Nat
  /-- R346: the FRM of the sender at the issue of the send -/
  frm : Nat := 0
  /-- R221, R346: the sends the firing issued before this one -/
  draw : Nat := 0
  /-- R345: injected before its destination's latest move, so that it takes the old path -/
  old : Bool := false
  /-- R397: the cycle of the latest delivery attempt that a full inbox refused -/
  triedAt : Nat := 0
  /-- R81: the physical core that ran the sending firing -/
  ran : Nat := 0
  deriving DecidableEq, Repr

/-- R169: what a slot in use holds: a message not yet reserved, a reserved one, or a freed one behind one not yet
freed. -/
inductive QState where
  | queued
  | reserved
  | freed
  deriving DecidableEq, Repr

/-- R169: a slot in use: its state and the message that was delivered into it. -/
structure QSlot where
  st : QState
  msg : Msg
  deriving DecidableEq, Repr

/-- R165: a task-table entry: words 0 to 2; HEAD and SEQ; the slots in use, oldest first (COUNT is their number). gen
counts the moves of the FIFO (R228). -/
structure TTEntry where
  w0 : Word := 0
  w1 : Word := 0x40#64
  w2 : Word := 0
  head : Nat := 0
  seq : Nat := 0
  q : List QSlot := []
  gen : Nat := 0
  deriving DecidableEq, Repr

/-- R170, R226: where a reserved message lies: the channel, the FIFO's generation, the slot index and its scratchpad
offset. -/
structure MsgRef where
  ch : Nat
  gen : Nat
  idx : Nat
  off : Nat
  deriving DecidableEq, Repr

/-- R174: a tile entry: word 0, the two counts, and how many engine reads of it are under way (R175). -/
structure Tile where
  w0 : Word := 0
  sat : Nat := 0
  nan : Nat := 0
  readers : Nat := 0
  deriving DecidableEq, Repr

/-- R66, R175, R195, R202, R232, R271: why a slot is parked. -/
inductive Wait where
  | none
  /-- a translation request of this sequence number is outstanding (R273) -/
  | mailbox (seq : Nat)
  /-- the LLC must fill the unit of a key under the access's attributes (R379) -/
  | fill (key : Nat) (attr : Attr)
  /-- a host response to the access of this address (R193) -/
  | host (va : Word)
  /-- a tile must leave FILLING or DRAINING, or become READY (R175, R234) -/
  | tile (t : Nat)
  /-- a barrier phase must differ from the one recorded (R195) -/
  | barrier (id : Nat) (phase : Bool)
  /-- an engine job (R289) -/
  | job (id : Nat)
  /-- room in a queue or buffer (R266) -/
  | room
  /-- a ONCE posting (R271) -/
  | posting (n : Nat)
  /-- the members must take an older posting (R272) -/
  | takers (n : Nat)
  /-- ABORT mode 0: a write to the watched set, or the timeout (R232) -/
  | watch (set : List Loc) (since : Nat)
  /-- the further condition of a FENCE (R192) -/
  | fence (scope : Nat)
  deriving DecidableEq, Repr

/-- R64, R65, R170, R324: a firing (stage holds the logical cluster, set, stage and RID of a stage firing; since and
heldFor count the cycles its slot held it): what FRD reads, its priority and times (R171), its reserved messages, and what later
chapters keep with it. -/
structure Firing where
  ctx : Nat := 0
  lc : Nat := 0
  ch : Nat := 0
  seq : Nat := 0
  actor : Nat := 0
  gang : Nat := 0
  isGang : Bool := false
  home : Nat := 0
  fts : Word := 0
  started : Bool := false
  fsrc : Word := 0
  np : Nat := 1
  nj : Nat := 0
  cptid : Nat := 0
  entry : Word := 0
  prim : List MsgRef := []
  join : List MsgRef := []
  prio : Nat := 0
  readyAt : Nat := 0
  movedAt : Nat := 0
  ordered : Bool := false
  key : Key := ⟨0, false, 0, 0, 0⟩
  committed : Bool := false
  digest : Word := 0
  stage : Option (Nat × Nat × Nat × Nat) := none
  verdict : Bool := false
  since : Nat := 0
  heldFor : Nat := 0
  phases : List (Nat × Bool) := []
  /-- R421: its latest arrivals on barriers that other packages hold, by barrier and number, until those have counted them -/
  farArr : List (Nat × Nat) := []
  waits : List (Nat × Bool) := []
  dual : Bool := false
  alt : Bool := false
  serial : Bool := false
  alarm : Option (List Byte) := none
  resume : Option Regs := none
  postings : List (Nat × BitVec 32 × List (Nat × Nat × Nat)) := []
  commits : Nat := 0
  /-- R272: the ONCE postings a gang member has taken: one more than the highest ordinal -/
  taken : Nat := 0
  /-- R354, R356: which copy of a dual firing this is (0 the primary's), and its mismatches so far -/
  copy : Nat := 0
  mism : Nat := 0
  /-- R200: the consecutive squashes of a firing that has no slot -/
  squashes : Nat := 0
  /-- R192, R195: what a firing that has no slot waits for before its next chunk opens -/
  gate : Wait := .none
  deriving DecidableEq, Repr

/-- R254, R255: an alarm: its law's clock (0 the time base), its TS or due value, its target, payload and the arming
logical core. -/
structure Alarm where
  clk : Nat
  due : Word
  core : Nat
  ch : Nat
  payload : List Byte
  src : Nat
  fid : Word
  fts : Word
  fch : Nat
  /-- R81: the physical core that ran the arming firing -/
  ran : Nat := 0
  deriving DecidableEq, Repr

/-- R283, R287, R304: a matrix job or a copy request: who issued it and from where, its operands as copied at issue (the
job word or tag and flags, the bank, the parameter block, the object records as numbers, the format words), the sender's
FRM and SR count, and then what the engine keeps of it: state and error (R289), counts, the log position of its release,
the pending writes it must wait for (R190), the flips of its barrier at release, the elements read (element, code, scale
byte or 127), the elements performed, those a ZERO reply answered, its mailbox sequence number, and whether an MX.STR
reloads its weights (R291). -/
structure Job where
  engine : Engine
  ctx : Nat
  lc : Nat
  pcore : Nat
  id : Nat
  op : Nat
  word : Word
  bank : List Word := []
  block : List Byte := []
  recs : List (Nat × Nat) := []
  fmts : List (Nat × Word) := []
  fid : Word
  fts : Word
  fch : Nat
  pc : Word
  wg : Nat := 0
  frm : Nat
  draw : Nat
  uid : Nat := 0
  st : Nat := 0
  err : Nat := 0
  nanm : Bool := false
  oor : Nat := 0
  sat : Nat := 0
  bytes : Nat := 0
  rel : Nat := 0
  acq : List Nat := []
  wphase : Option Nat := none
  /-- R190: the bytes that the acquire set wrote, each with the log position just after its apply -/
  seen : List (Nat × Nat) := []
  clocks : List (Nat × Word) := []
  buf : List (Nat × Nat × Nat) := []
  done : List Nat := []
  zero : List Nat := []
  seq : Option Nat := none
  reload : Bool := false
  trap : Bool := false
  /-- R303, R309: cancelled while running -/
  cancel : Bool := false
  /-- R274: the element whose access waits on the mailbox, and whether it is a write -/
  pelem : Nat := 0
  pwrite : Bool := false
  /-- R291: the stationary weights an MX.STR streams against, and the uid of its weight set -/
  plane : Option Nat := none
  /-- R81: the physical core that ran the issuing firing -/
  ran : Nat := 0
  /-- R303: a drain that was cancelled while it was parked -/
  halted : Bool := false
  deriving DecidableEq, Repr

/-- R182, R184: an effect held in a chunk until its commit, in program order. -/
inductive Held where
  /-- a SEND or SENDT (R223); the sequence number of an ordered one is given at release -/
  | send (m : Msg)
  /-- a SENDM: the rectangle and the message to copy (R223) -/
  | sendm (rect : Word) (m : Msg)
  /-- a SENDR: the group and the payload (R223) -/
  | sendr (group : Nat) (payload : List Byte)
  /-- a store to host memory (R193) -/
  | hostStore (va : Word) (data : List Byte)
  /-- a posted atomic: its operation, size, key and operand (R217) -/
  | pamo (op : AmoOp) (size key : Nat) (va s : Word)
  /-- a context CSR write (R130) -/
  | csr (ctx num : Nat) (v : Word)
  /-- FMT.SET (R124) -/
  | fmt (k : Nat) (f g : Word)
  /-- WG.CLR: the group and the mask word (R126) -/
  | wgClr (wg : Nat) (mask : Word)
  /-- WG.SYNC: g[a], the group or all (R127) -/
  | wgSync (ga : Word)
  /-- TT.WR: the selector and the image, words 0 to 2 (R228) -/
  | ttWr (sel w0 w1 w2 : Word)
  /-- TT.BLK and TT.UBLK: the selector (R229) -/
  | ttBlk (sel : Word) (blk : Bool)
  /-- DG.MODE (R233) -/
  | dgMode (mode : Nat)
  /-- TILE.DEF (R234) -/
  | tileDef (desc : Word)
  /-- TILE.ST (R235) -/
  | tileSt (t st : Nat)
  /-- TILE.SAT: the counts returned (R237) -/
  | tileSat (t sat nan : Nat)
  /-- HS.PASS and HS.DROP: the verdict, the write-back mask and the bytes (R325) -/
  | hsVerdict (pass : Bool) (mask : Word) (bytes : List Byte)
  /-- HS.WR: the selector and the value (R315) -/
  | hsWr (sel v : Word)
  /-- HS.ENT and HS.TRY: the set, the RID and the payload (R318) -/
  | hsEnt (set rid : Nat) (payload : List Byte)
  /-- LAW.WR: the index and the image (R259) -/
  | lawWr (i : Nat) (img : List Byte)
  /-- CLK.ADV (R260) -/
  | clkAdv (k : Nat) (amount : Word)
  /-- an alarm (R254) -/
  | alarm (a : Alarm)
  /-- a dropped alarm adds 1 to ALMDROP (R256) -/
  | almDrop
  /-- MX.WR (R285) -/
  | egWr (n : Nat) (v : Word)
  /-- a matrix job or a copy request (R288, R304) -/
  | job (j : Job)
  /-- MX.CAN (R303) -/
  | mxCan (id : Nat)
  /-- CP.CAN (R309) -/
  | cpCan (tag : Nat)
  /-- BAR.CFG (R310) -/
  | barCfg (id part : Nat)
  /-- RED.CFG (R349) -/
  | redCfg (a b : Word)
  /-- a privileged command of the cluster or of placement: its number in the SYS group and its operands (R277, R278, R280;
  chapter 21) -/
  | sys (fn : Nat) (a b : Word)
  deriving DecidableEq, Repr

/-- R181: why a chunk closed. -/
inductive EndKind where
  | fin
  | commit
  | fence (scope : Nat)
  /-- an arrive form: the barrier, whether the slot then waits (BAR.AW), and the message request of BAR.AF (R195) -/
  | arrive (id : Nat) (wait : Bool) (notify : Option Word)
  /-- a hardware boundary (R69) -/
  | boundary
  /-- a dropped alarm: the firing ends as SKIP ends one (R256) -/
  | skip
  deriving DecidableEq, Repr

/-- R180: a chunk. winEv counts the window events of R164: (scratchpad offset of the code byte, saturations, NaNs);
tags holds the instruction word of each held effect (R435); checked and
checkFail say whether an alarm's check has been made, or its read was answered ABORT or ZERO (R256). -/
structure Chunk where
  wbuf : List Host.Cell := []
  rset : List Loc := []
  held : List Held := []
  tags : List Word := []
  hidden : Nat := 0
  winEv : List (Nat × Nat × Nat) := []
  ninstr : Nat := 0
  closed : Option EndKind := none
  doomed : Bool := false
  checked : Bool := false
  checkFail : Bool := false
  /-- R198: an instruction past the 512th was issued while the firing was speculative -/
  ranOver : Bool := false
  /-- R132: the law, object and trap bases under which the chunk opened, where a commit has changed one since -/
  bases : Option (Word × Word × Word) := none
  /-- R382: the attributes under which the chunk has stored to a frame -/
  attrs : List (Nat × Attr) := []
  deriving DecidableEq, Repr

/-- R180: a firing slot of a physical core. start and startChunk are the registers and the chunk at the start of the
open group (R69); ckpt the checkpoint. zeros holds the accesses that a ZERO reply answered, hosts those that
the host has answered (R202, R193), filled the sectors read for it (R379); word is the instruction word being issued
(R435). -/
structure Slot where
  core : Nat := 0
  k : Nat := 0
  active : Bool := false
  firing : Firing := {}
  reg : Regs := {}
  land : Landing := {}
  glen : Nat := 0
  start : Regs := {}
  startChunk : Chunk := {}
  chunk : Chunk := {}
  ckpt : Regs := {}
  squashes : Nat := 0
  wait : Wait := .none
  zeros : List Word := []
  hosts : List Word := []
  filled : List Nat := []
  word : Word := 0
  /-- R408: the lines of device memory that the instruction being issued has read -/
  lines : Nat := 0
  /-- R192, R195: the firing's next chunk is not open yet: it waits for the condition of a FENCE, or for a Flip -/
  opening : Bool := false
  deriving DecidableEq, Repr

/-- R273, R277: a combined translation: the two images of TLB.WR. -/
structure TlbEntry where
  a : Word
  b : Word
  deriving DecidableEq, Repr

/-- R345: a relay entry: the logical core that moved, its new place, and the routers whose flush marker has passed. -/
structure Relay where
  ctx : Nat
  lcore : Nat
  newp : Nat
  nidx : Nat
  passed : List Nat := []
  deriving DecidableEq, Repr

/-- A physical core: the slot that issued last (R70), CYCLE's start, the core TLB, relay entries (R345), and the values
recorded at a gang stop (R359). -/
structure CoreSt where
  id : Nat
  last : Nat := 0
  born : Nat := 0
  tlb : List TlbEntry := []
  relay : List Relay := []
  stopRec : Option (Nat × Nat × Nat) := none
  deriving DecidableEq, Repr

/-- R159, R165, R174, R90: a logical core: placement (R344), tables and counters. -/
structure LCore where
  n : Nat
  lsz : Nat := 65536
  pcore : Nat := 0
  hidx : Nat := 0
  valid : Bool := true
  out : Bool := false
  dual : Bool := false
  tt : List (Nat × TTEntry) := []
  tiles : List (Nat × Tile) := []
  fmt : List (Nat × Word × Word) := []
  eg : List (Nat × Word) := []
  sendSeq : Nat := 0
  nextJob : Nat := 0
  wset : Option Nat := none
  hsCount : List (Nat × Nat) := []
  trapBlocks : List Nat := []
  /-- R354, R356: the shadow's physical core and the alternate pair -/
  shadow : Nat := 0
  alt : Nat × Nat := (0, 0)
  /-- R401: a move is under way; R399: OUT was set by a CTX.STOP -/
  moving : Bool := false
  stopOut : Bool := false
  /-- R160: the cycle at which it was swapped out -/
  outAt : Nat := 0
  /-- R359: its messages sent and received -/
  sent : Nat := 0
  recv : Nat := 0
  deriving DecidableEq, Repr

/-- R73: a watch-group record: the flags with NANP, NANTRAP, SATCNT, and the first setter of each flag. -/
structure WatchRec where
  flags : Nat := 0
  nantrap : Bool := false
  sat : Nat := 0
  setters : List (Nat × Word × Word) := []
  deriving DecidableEq, Repr

/-- R382: one page of a context's second stage. -/
abbrev Stage2 := PageSpec

/-- R349, R350: a reduction group: its configuration, the rounds whose results were delivered and those whose results were
placed, the contributions not yet combined into a delivered result (round, participant, payload and the releasing firing's
FID), how many each participant has released, and DISC. -/
structure RedGroup where
  on : Bool := false
  cfgA : Word := 0x20000000#64
  cfgB : Word := 0
  rounds : Nat := 0
  placed : Nat := 0
  got : List (Nat × Nat × List Byte × Word) := []
  released : List (Nat × Nat) := []
  disc : Nat := 0
  /-- R423: sums that other packages have sent: the round, the package and its lanes -/
  sums : List (Nat × Nat × List Byte) := []
  /-- R423: how many rounds the slowest participant of another package has contributed to, as far as it is known here -/
  far : List (Nat × Nat) := []
  deriving DecidableEq, Repr

/-- R269, R310: a barrier: PART, ARR, PHASE and the message requests of BAR.AF, each the target logical core and channel,
in arrival order. -/
structure Barrier where
  part : Nat := 0
  arr : Nat := 0
  phase : Bool := false
  reqs : List (Nat × Nat) := []
  /-- R421: the requests of other packages: the package, the logical core and the channel -/
  farReqs : List (Nat × Nat × Nat) := []
  /-- R421: where another package holds it, how many arrivals of this one were sent there; where this one does, the number of the
  last arrival of each other package that it counts -/
  sent : Nat := 0
  counted : List (Nat × Nat) := []
  /-- R187: how often it has flipped -/
  flips : Nat := 0
  deriving DecidableEq, Repr

/-- R312, R317, R321, R329: what a record in the buffer is doing. -/
inductive HPhase where
  | waiting
  | dispatched (member : Nat)
  /-- complete or dropped under DSEND, its turn not yet come under ORDEXIT -/
  | ordered
  /-- its last message is under way -/
  | leaving
  deriving DecidableEq, Repr

/-- R317, R320: a record in the buffer: its set, RID, entering logical core and firing, payload, DONE bits, chosen stage,
the number of its latest decision, and whether it was dropped (and by an error). -/
structure HRec where
  set : Nat
  rid : Nat
  lc : Nat
  payload : List Byte
  done : Nat
  stage : Nat
  order : Nat
  phase : HPhase
  drp : Bool := false
  err : Bool := false
  /-- R280: the sequence number of the request on mailbox 34 that an access to the record waits for -/
  box : Option Nat := none
  deriving DecidableEq, Repr

/-- R323, R332: the counts of a set: live and frozen CIN, CPASS, CCYC of each stage, heats, entries of the heat, and the
totals; next holds, for each entering logical core, the entry count whose turn it is under ORDEXIT (R329), gone the
entry counts already out of that order. -/
structure HStats where
  live : List (Nat × Nat × Nat × Nat) := []
  frozen : List (Nat × Nat × Nat × Nat) := []
  heats : Nat := 0
  inHeat : Nat := 0
  entered : Nat := 0
  exited : Nat := 0
  dropped : Nat := 0
  errs : Nat := 0
  dcount : Word := 0
  next : List (Nat × Nat) := []
  gone : List (Nat × Nat) := []
  deriving DecidableEq, Repr

/-- R311, R312: the hurdle sets of a logical cluster: registers by 64 × set + number, records, counts of each set, and
the number of decisions made. -/
structure HRouter where
  regs : List (Nat × Word) := []
  recs : List HRec := []
  stats : List (Nat × HStats) := []
  decisions : Nat := 0
  deriving DecidableEq, Repr

/-- R291: a plane of the matrix engine: the context, logical core and uid of the MX.LS whose weight set it holds,
whether an MX.STR has made it stationary, and B's elements (element, code, scale byte). -/
structure Plane where
  ctx : Nat
  lc : Nat
  ls : Nat
  used : Bool := false
  data : List (Nat × Nat × Nat)
  deriving DecidableEq, Repr

/-- R293, R294, R300, R396: an accumulator tile: the elements that are not +0, its NaN mark, and the context and logical core
whose job wrote it last. -/
structure AccTile where
  vals : List (Nat × Lane) := []
  mark : Bool := false
  ctx : Nat := 0
  lc : Nat := 0
  deriving DecidableEq, Repr

/-- R396: the part of a saved image that lies outside the context's own record, for each physical cluster that held some of
it: a logical core that lay there, the planes, the accumulator tiles (index, whether it was the tile of its writer's own
position), and the watch records by group. -/
structure SavedUnits where
  lc : Nat
  stat : Option Plane := none
  shadow : Option Plane := none
  acc : List (Nat × Bool × AccTile) := []
  watch : List (Nat × WatchRec) := []
  deriving DecidableEq, Repr

/-- R393, R131: a context: descriptor, CSRs, logical cores, watch tables (none names the package table), and the rest
of what the context owns. -/
structure Ctx where
  id : Nat
  state : Nat := 0
  hostOk : Bool := false
  keyid : Nat := 0
  svBase : Nat := 0
  svSize : Nat := 0
  inboxCap : Nat := 0
  root : Nat := 0
  dlBase : Nat := 0
  fpol : Nat := 0
  fpn : Nat := 0
  specwin : Word := 0
  gvt : Word := 0
  trapch : Word := 0
  almdrop : Word := 0
  /-- R408: in units of 10 pJ; ENERGY shows whole µJ -/
  energy : Nat := 0
  lawbase : Word := 0
  objbase : Word := 0
  trapsv : Word := 0
  dgMode : Nat := 0
  digest : Word := 0
  stage2 : List Stage2 := []
  lcores : List LCore := []
  watch : List (Option Nat × Nat × WatchRec) := []
  inbox : List Msg := []
  /-- R395, R397: the ring of the inbox: its head, and for each slot from there on whether it still holds its message -/
  inHead : Nat := 0
  inRing : List Bool := []
  reds : List (Nat × RedGroup) := []
  steps : List (Nat × Word) := []
  alarmQ : List Alarm := []
  bars : List ((Nat × Nat) × Barrier) := []
  hurdles : List (Nat × HRouter) := []
  halted : Bool := false
  /-- R358: ordered messages sent and received, the totals of the previous sweep, and its cycle -/
  ordSent : Nat := 0
  ordRecv : Nat := 0
  prevTotals : Option (Nat × Nat) := none
  sweepAt : Nat := 0
  /-- R196, R409: the host link's count of ordered messages -/
  hostSeq : Nat := 0
  /-- R395, R396: the units of the saved image -/
  saved : List SavedUnits := []
  /-- R421: the other packages on which the context has logical cores -/
  pkgs : List Nat := []
  deriving DecidableEq, Repr

/-- R75, R394: a suspended firing: its block's number and address, and its SR counts, which stand outside the block (R94). -/
structure Susp where
  firing : Firing
  block : Nat
  srcnt : Word
  srecnt : Word
  sends : Nat
  onceOrd : Nat
  csa : Word
  deriving DecidableEq, Repr

/-- R184, R188: one entry of the commit log: the bytes it wrote, with their values before. -/
structure LogEntry where
  old : List Host.Cell
  deriving DecidableEq, Repr

/-- R188: a pending engine write: one byte, performed at a log position by a job of a cluster's engine; uid is its
own number. -/
structure Pend where
  cluster : Nat
  engine : Engine
  job : Nat
  key : Nat
  val : Byte
  pos : Nat
  uid : Nat
  attr : Attr := {}
  deriving DecidableEq, Repr

/-- R301: an open collection window: context, watch group, the cycle of its latest NaN, and the NaNs counted since. -/
structure NanWindow where
  ctx : Nat
  wg : Nat
  last : Nat
  count : Nat
  deriving DecidableEq, Repr

/-- A cluster: its TLB (R273), epoch (R276), and the request each mailbox holds (R274): mailbox, sequence number, VA,
context, access kind, logical core. seqs holds each mailbox's next number, 0 after reset (DESIGN CHOICE, log entry 116). stat, shadow and acc are the matrix engine's
planes and accumulator tiles, turn and cturn the arbitration pointers of the matrix engine and of the copy unit (R267), windows its collection windows (R301). -/
structure Cluster where
  id : Nat
  tlb : List TlbEntry := []
  epoch : Word := 0
  boxes : List (Nat × Nat × Word × Nat × Nat × Nat) := []
  seqs : List (Nat × Nat) := []
  stat : Option Plane := none
  shadow : Option Plane := none
  acc : List (Nat × AccTile) := []
  turn : Nat := 0
  cturn : Nat := 0
  windows : List NanWindow := []
  /-- R408: the grant in µJ, and what remains of it in units of 10 pJ -/
  grant : Nat := 0
  remainder : Nat := 0
  fenced : Bool := false
  deriving DecidableEq, Repr

/-- R414: an error record of the management controller; sec and ns are the IEEE 1588 time, tb the time base, payload
INFO0 to INFO2. -/
structure MgmtRec where
  kind : Nat
  sev : Nat
  ctx : Nat
  lcore : Nat
  unit : Nat
  num : Nat
  payload : List Byte
  sec : Word := 0
  ns : Word := 0
  tb : Word := 0
  deriving DecidableEq, Repr

/-- R271: a posting on its way to a gang member: context, member's logical core, channel, SEQ, ordinal, instruction word,
and the registers written (class 0 g, 1 v, 2 m; number; value). -/
structure Posting where
  ctx : Nat
  lc : Nat
  ch : Nat
  seq : Nat
  n : Nat
  word : BitVec 32
  res : List (Nat × Nat × Nat)
  deriving DecidableEq, Repr

/-- R173: a gang firing: its context, member 0's logical core, channel, SEQ, the members that have ended, and the
messages that member 0's FIFO holds for it. -/
structure Gang where
  ctx : Nat
  lc : Nat
  ch : Nat
  seq : Nat
  ended : List Nat := []
  prim : List MsgRef := []
  join : List MsgRef := []
  deriving DecidableEq, Repr

/-- R193: a released host store that the host link has not yet accepted or refused. -/
structure HostStore where
  ctx : Nat
  va : Word
  data : List Byte
  lc : Nat
  ch : Nat
  fid : Word
  fts : Word
  /-- the uid of the copy transfer that made it -/
  job : Option Nat := none
  /-- R81: the physical core that ran the storing firing -/
  ran : Nat := 0
  deriving DecidableEq, Repr

/-- R409: what the host link answers. -/
inductive HostAnswer where
  /-- the bytes read, and whether they are marked poisoned -/
  | data (bytes : List Byte) (poisoned : Bool)
  | refused
  deriving DecidableEq, Repr

/-- R126, R127, R278: held sends and commands whose release waits for an acknowledgement: what each still waits for, the
sender, and the effects in program order. -/
structure Release where
  ctx : Nat
  lc : Nat
  cluster : Nat
  slotCore : Nat
  wg : Bool
  inv : Bool
  firing : Firing
  held : List Held
  /-- R346: the format words committed at the commit -/
  fmts : List (Nat × Word) := []
  deriving DecidableEq, Repr

/-- R398 to R401: what a placement command in progress is. -/
inductive MoveKind where
  | stop
  | go
  | mig
  deriving DecidableEq, Repr

/-- R398 to R401: a placement command in progress: the issuing logical core, the two operands, whether it has
begun, and the status it will report. -/
structure Move where
  kind : MoveKind
  src : Nat
  a : Word
  b : Word
  fid : Word
  fts : Word
  fch : Nat
  begun : Bool := false
  status : Nat := 0
  /-- R81: the physical core that ran the issuing firing -/
  ran : Nat := 0
  deriving DecidableEq, Repr

/-- R371: a line of the LLC: its number (the physical address by 128), its tag, and a valid and a dirty bit for each of its
four sectors. Its data is what M holds, its poison bits are the poisoned units of the state (R383). -/
structure LlcLine where
  line : Nat
  attr : Attr
  valid : Nat := 0
  dirty : Nat := 0
  deriving DecidableEq, Repr

/-- R381: a key slot: the two keys of a pair. -/
structure KeySlot where
  key1 : BitVec 256 := 0
  key2 : BitVec 256 := 0
  deriving DecidableEq, Repr

/-- R389: a frame under migration, by frame numbers: its job's uid, granules and key, the marked lines, the lines still to
visit in the pass, the pass, how often each line was copied, the lines switched, the destination units written poisoned,
and whether it is done. -/
structure Migration where
  uid : Nat
  src : Nat
  dst : Nat
  ogran : Nat
  ngran : Nat
  keyid : Nat
  marked : List Nat
  todo : List Nat
  pass : Nat := 1
  copies : List (Nat × Nat) := []
  switched : List Nat := []
  poisoned : Nat := 0
  closed : Bool := false
  deriving DecidableEq, Repr

/-- R239: a ring word. -/
structure RingWord where
  a : Lane := 0
  b : Lane := 0
  t : Nat := 0
  law : Nat := 0
  arm : Bool := false
  miss : Bool := false
  back : Bool := false
  sat : Bool := false
  nanf : Bool := false
  rsv : Nat := 0
  deriving DecidableEq, Repr

/-- R395, R396: an image that was written: the context it is of, its bytes (as many as len of the free values from start on, log
entry 30), and what it holds: the context's record with its units, its firings, postings and engine commands, its
scratchpads and their poisoned words. -/
structure Image where
  start : Nat
  len : Nat
  ctx : Ctx
  ready : List Firing
  susp : List Susp
  gangs : List Gang
  onceQ : List Posting
  jobs : List Job
  scratch : List Host.Cell
  poison : List (Nat × Nat)
  deriving DecidableEq, Repr

/-- R416, R426: a fabric port: replays in a row, failed retrains, whether it is down. -/
structure Port where
  replays : Nat := 0
  fails : Nat := 0
  down : Bool := false
  deriving DecidableEq, Repr

/-- R413: the messages of an attestation session that its signatures cover: the version, capabilities and algorithms
exchanges, those of certificates, and those of measurements; stage counts the first three. -/
structure Session where
  stage : Nat := 0
  vca : List Byte := []
  certs : List Byte := []
  meas : List Byte := []
  deriving DecidableEq, Repr

/-- R417: a message sent to another package and not yet acknowledged; sentAt is the time base of its release. -/
structure FabMsg where
  num : Nat
  pkg : Nat
  msg : Msg
  sentAt : Nat
  deriving DecidableEq, Repr

/-- Log entry 1: which agent moves next. -/
inductive Turn where
  /-- a physical core issues one instruction of its current slot (R70) -/
  | core (p : Nat)
  /-- one of the machine's other steps (R183) -/
  | event (i : Instr)
  /-- time passes -/
  | elapse (cycles ticks : Nat)
  /-- management sets PLIM and PFIX, in µJ of a budget period (R408) -/
  | limits (plim pfix : Nat)
  /-- management enables or disables the records of corrected errors (R392) -/
  | records (on : Bool)
  /-- the body of a request of an attestation arrives (R413) -/
  | request (body : List Byte)
  deriving DecidableEq, Repr

/-- R360, R412: a step of the machine that cannot go on. -/
inductive Fault where
  /-- Raised by every step after a boot image failed its check: boot halts with the compute dies held in reset (R412).
  Safe: the package runs nothing. -/
  | bootHalted
  deriving DecidableEq, Repr

/-- Why a step has no meaning. -/
inductive Refusal where
  /-- Raised by exec for an instruction that has no meaning yet, by name. Safe. -/
  | notModelled (mnemonic : String)
  deriving DecidableEq, Repr

/-- The package. focus is the slot whose turn it is; others holds every other slot that is in use. mem is device memory
and the scratchpads by key, in canonical form; poison the poisoned units, each its first key and its size (R162, R383), and
covered the bytes of them that engine writes have covered since, each with the command that wrote it (R384); log is newest first; fresh counts the free values drawn. onceQ, gangs, hostQ, hostOut, relQ, moves: R271, R173, R193,
R409, R278, R398. llc (newest line first), offline, dram (the bursts that have been written, by place: R373), keys, migs:
R371, R392, R376, R381, R389; blamed: the increments that are on their way to their scores (R405);
bursts: how many bursts were moved (R408). images: R395, newest first. scores, thresholds, retired, law255:
R405, R406 (the default entry 255 until a LAW.WR replaces it); lawAhead: context 0's law table does not hold it yet, because nothing
maps its place; scoreAlarms: the alarms that increments of scores have armed and that are not yet released (R254); records:
whether management has enabled the records of corrected errors (R392). rects and fences: R407, R363, both by die and number (a
cluster not listed holds index 4i + j). plim, pfix (µJ of a budget period) and grantAt: R408. fabOut, fabNext, fabSeen (the number
expected next of each package), ports, routes: R416, R417, R426; farTakes: the records of objects here that copies of other packages
write to, by package and copy, as read when each was taken, none where its rights refused it (R419). syncAt, slew (in ppm), slewRem (the part of a tick, in millionths, that the slew has
gathered): R425. boot (0 not yet, 1 done, 2 halted), measures, answers, asked (the body of the request that arrived last), session: R412, R413. -/
structure State where
  focus : Slot := {}
  others : List Slot := []
  cores : List CoreSt := []
  ctxs : List Ctx := []
  clusters : List Cluster := []
  ready : List Firing := []
  susp : List Susp := []
  mem : List Host.Cell := []
  poison : List (Nat × Nat) := []
  covered : List (Nat × Nat) := []
  host : List Host.Cell := []
  log : List LogEntry := []
  pend : List Pend := []
  jobs : List Job := []
  nextUid : Nat := 0
  net : List Msg := []
  excl : Option (Nat × Nat) := none
  exclQ : List (Nat × Nat) := []
  cycle : Nat := 0
  ticks : Nat := 0
  mgmt : List MgmtRec := []
  agenda : List Turn := []
  fresh : Nat := 0
  onceQ : List Posting := []
  gangs : List Gang := []
  hostQ : List HostStore := []
  hostOut : List HostAnswer := []
  relQ : List Release := []
  moves : List Move := []
  images : List Image := []
  llc : List LlcLine := []
  offline : List Nat := []
  dram : List (Nat × Burst) := []
  blamed : List (UnitKind × Nat × Lane) := []
  bursts : Nat := 0
  keys : List (Nat × KeySlot) := []
  migs : List Migration := []
  scores : List (UnitKind × Nat × RingWord) := []
  scoreAlarms : List Alarm := []
  thresholds : List (UnitKind × Nat) := []
  retired : List (UnitKind × Nat) := []
  law255 : Nat := 0x501 + 5 * 2 ^ 32 + 0x42000000 * 2 ^ 192
  lawAhead : Bool := false
  records : Bool := false
  rects : List (Nat × Nat) := []
  fences : List (Nat × Nat) := []
  plim : Nat := Config.plimReset
  pfix : Nat := Config.pfixReset
  grantAt : Nat := 0
  fabOut : List FabMsg := []
  fabNext : List (Nat × Nat) := []
  fabSeen : List (Nat × Nat) := []
  ports : List (Nat × Port) := []
  routes : List (Nat × Nat) := []
  farTakes : List ((Nat × Nat) × Option Nat) := []
  syncAt : Nat := 0
  slew : Int := 0
  slewRem : Int := 0
  boot : Nat := 0
  measures : List (Nat × BitVec 256) := []
  answers : List (List Byte) := []
  asked : List Byte := []
  session : Session := {}
  deriving DecidableEq, Repr

/-- The package right after reset: no context, no firing, memory with nothing listed. -/
def State.reset : State := {}

end Sys2Proof.Machine
end

