-- ==== Sys2Proof/Machine/Mem.lean ====
section
/-! DEFINITION. Memory M (R180) as a sorted list of cells: reading and writing bytes and little-endian words, the write
buffer of a chunk, the keys of device memory and scratchpads, and the list operations that tables share. An address that
is not listed reads as zero (log entry 3). -/

namespace Sys2Proof.Machine

/-- The byte at a key; an unlisted key reads as zero (log entry 3, DESIGN CHOICE). -/
def cellRead : List Host.Cell → Nat → Byte
  | [], _ => 0#8
  | (a, v) :: t, k => if a = k then v else if k < a then 0#8 else cellRead t k

/-- Writes one byte, keeping the keys rising and no listed byte zero. -/
def cellWrite : List Host.Cell → Nat → Byte → List Host.Cell
  | [], k, v => if v = 0#8 then [] else [(k, v)]
  | (a, w) :: t, k, v =>
    if k < a then (if v = 0#8 then (a, w) :: t else (k, v) :: (a, w) :: t)
    else if k = a then (if v = 0#8 then t else (k, v) :: t)
    else (a, w) :: cellWrite t k v

/-- Whether every key of the list is above a bound, keys rise, and no byte is zero. -/
def Memory.wfFrom : Nat → List Host.Cell → Bool
  | _, [] => true
  | lo, (a, v) :: t => decide (lo ≤ a) && decide (v ≠ 0#8) && Memory.wfFrom (a + 1) t

/-- The canonical form of memory. -/
def Memory.wf (l : List Host.Cell) : Bool := Memory.wfFrom 0 l

/-- Writes a list of bytes at rising keys. -/
def cellWriteList : List Host.Cell → Nat → List Byte → List Host.Cell
  | m, _, [] => m
  | m, k, b :: bs => cellWriteList (cellWrite m k b) (k + 1) bs

/-- Writes a list of cells, first to last. -/
def cellWriteAll (m : List Host.Cell) (l : List Host.Cell) : List Host.Cell :=
  l.foldl (fun m c => cellWrite m c.1 c.2) m

/-- n bytes at rising keys. -/
def cellReadList (m : List Host.Cell) : Nat → Nat → List Byte
  | _, 0 => []
  | k, n + 1 => cellRead m k :: cellReadList m (k + 1) n

/-- R10: the little-endian number of n bytes of memory. -/
def cellNat (m : List Host.Cell) (k n : Nat) : Nat := leNat (cellReadList m k n)

/-- R208: a byte of a write buffer; none where the chunk has not written it. -/
def bufRead : List Host.Cell → Nat → Option Byte
  | [], _ => none
  | (a, v) :: t, k => if a = k then some v else if k < a then none else bufRead t k

/-- R208: the later store wins, byte by byte. -/
def bufWrite : List Host.Cell → Nat → Byte → List Host.Cell
  | [], k, v => [(k, v)]
  | (a, w) :: t, k, v =>
    if k < a then (k, v) :: (a, w) :: t else if k = a then (k, v) :: t else (a, w) :: bufWrite t k v

/-- R208: a store of several bytes. -/
def bufWriteList : List Host.Cell → Nat → List Byte → List Host.Cell
  | m, _, [] => m
  | m, k, b :: bs => bufWriteList (bufWrite m k b) (k + 1) bs

/-- R163, R180: the key of a scratchpad byte: above the 40-bit physical space (R369). -/
def scratchKey (ctx lc off : Nat) : Nat := 2 ^ 40 + (ctx * 4096 + lc) * 2 ^ 24 + off

/-- Whether a key is one of device memory. -/
def isDeviceKey (k : Nat) : Bool := decide (k < 2 ^ 40)

/-- The first value of a keyed list. -/
def lookupD {α : Type} (l : List (Nat × α)) (k : Nat) (d : α) : α :=
  match l with
  | [] => d
  | (a, v) :: t => if a = k then v else lookupD t k d

/-- Sets a value of a keyed list. -/
def setKey {α : Type} (l : List (Nat × α)) (k : Nat) (v : α) : List (Nat × α) :=
  match l with
  | [] => [(k, v)]
  | (a, w) :: t => if a = k then (k, v) :: t else (a, w) :: setKey t k v

/-- Removes a key. -/
def dropKey {α : Type} (l : List (Nat × α)) (k : Nat) : List (Nat × α) := l.filter fun p => p.1 ≠ k

/-- Replaces the first element that meets a condition, or adds the element at the end. -/
def upsert {α : Type} (p : α → Bool) (a : α) : List α → List α
  | [] => [a]
  | b :: t => if p b then a :: t else b :: upsert p a t

/-- Adds an element that is not yet there. -/
def addNew {α : Type} [DecidableEq α] (l : List α) (a : α) : List α := if a ∈ l then l else a :: l

/-- The value at an index, or a default. -/
def nth {α : Type} (l : List α) (i : Nat) (d : α) : α := l.getD i d

/-- Removes the element at an index. -/
def dropAt {α : Type} : List α → Nat → List α
  | [], _ => []
  | _ :: t, 0 => t
  | a :: t, n + 1 => a :: dropAt t n

/-- Replaces the element at an index. -/
def setAt {α : Type} : List α → Nat → α → List α
  | [], _, _ => []
  | _ :: t, 0, b => b :: t
  | a :: t, n + 1, b => a :: setAt t n b

end Sys2Proof.Machine
end

