-- ==== Sys2Proof/Machine/Codes.lean ====
section
/-! DEFINITION. How a unit of device memory is laid out and coded in DRAM (R373 to R378, R383): the address map, GF(2^8)
and the Reed-Solomon codes, the places of data and check symbols, and the decoder. -/

namespace Sys2Proof.Machine

/-! ### Granules and the address map (R373, R374, R378) -/

/-- R374: the unit of a granule, in bytes. -/
def granUnit (gran : Nat) : Nat :=
  match gran with
  | 0 => 32
  | 1 => 64
  | 2 => 128
  | _ => 512

/-- R374: the pseudo-channels of a unit. -/
def granWidth (gran : Nat) : Nat :=
  match gran with
  | 0 => 1
  | 1 => 2
  | 2 => 4
  | _ => 16

/-- R374: the base of the unit that holds an address. -/
def unitBase (gran pa : Nat) : Nat := pa / granUnit gran * granUnit gran

/-- R378: the stack of an address's unit. -/
def unitStack (gran pa : Nat) : Nat := (pa % 2 ^ 16 / granUnit gran + pa / 2 ^ 16) % 8

/-- R378, R414: the pseudo-channels that hold a unit, each as stack × 64 + its number; member 0 first. -/
def unitMembers (gran pa : Nat) : List Nat :=
  let u := pa % 2 ^ 16 / granUnit gran
  (List.range (granWidth gran)).map fun m => 64 * unitStack gran pa + granWidth gran * (u / 8 % (64 / granWidth gran)) + m

/-- R378: the member of its unit in which a byte lies. -/
def byteMember (gran pa : Nat) : Nat := pa % 2 ^ 16 % granUnit gran / 32

/-- R378: the pseudo-channel that holds a byte. -/
def bytePc (gran pa : Nat) : Nat := (unitMembers gran pa).getD (byteMember gran pa) 0

/-- R378: the burst of its frame, 0 to 3, that a unit uses in each of its pseudo-channels. -/
def unitBurst (gran pa : Nat) : Nat := pa % 2 ^ 16 / granUnit gran / (512 / granWidth gran)

/-- R373: the burst address of a unit: Bn = 4P + k. -/
def burstNumber (gran pa : Nat) : Nat := 4 * (pa / 2 ^ 16) + unitBurst gran pa

/-- R373: the row, bank and column of a burst address. -/
def burstPlace (bn : Nat) : Nat × Nat × Nat := (natBits bn 24 9, natBits bn 8 5 ^^^ natBits bn 12 9, natBits bn 4 0)

/-- R373: the bank group of a bank. -/
def bankGroup (bank : Nat) : Nat := bank >>> 2

/-- R373: where a burst lies: pseudo-channel (of the package), row, bank, column. -/
structure BurstAt where
  pc : Nat
  row : Nat
  bank : Nat
  col : Nat
  deriving DecidableEq, Repr

/-- R373: the place of a burst of a pseudo-channel. -/
def burstAt (pc bn : Nat) : BurstAt := ⟨pc, (burstPlace bn).1, (burstPlace bn).2.1, (burstPlace bn).2.2⟩

/-- R373: a place as one number. -/
def BurstAt.key (b : BurstAt) : Nat := ((b.pc * 2 ^ 16 + b.row) * 16 + b.bank) * 32 + b.col

/-- R373: the burst address of a place. -/
def placeBurst (key : Nat) : Nat :=
  let row := key / 512 % 2 ^ 16
  512 * row + 32 * (key / 32 % 16 ^^^ row % 16) + key % 32

/-- R373, R378: where the bursts of a unit lie, member 0 first. -/
def unitPlaces (gran pa : Nat) : List Nat := (unitMembers gran pa).map fun m => (burstAt m (burstNumber gran pa)).key

/-- R370: the LLC slice that is the home of a physical address whose frame has a granule. -/
def homeSlice (gran k : Nat) : Nat :=
  let P := k / 2 ^ 16
  let l := k % 2 ^ 16 / 128
  let s0 := (128 * l / granUnit gran + P) % 8
  64 * (s0 / 2) + (P + l / 4) % 64

/-! ### The field and the codes (R375) -/

/-- A product in GF(2^8) under a field polynomial: the bits of b, lowest first, each adding a doubled a. -/
def gfMul (poly a b : Nat) : Nat :=
  ((List.range 8).foldl (fun (r : Nat × Nat) i =>
    (if b.testBit i then r.1 ^^^ r.2 else r.1, let x := 2 * r.2; if 256 ≤ x then x ^^^ poly else x)) (0, a)).1

/-- A power in GF(2^8). -/
def gfPow (poly a : Nat) : Nat → Nat
  | 0 => 1
  | n + 1 => gfMul poly a (gfPow poly a n)

/-- The inverse in GF(2^8), a^254: squares of a multiplied up; 0 for 0. -/
def gfInv (poly a : Nat) : Nat :=
  ((List.range 7).foldl (fun (r : Nat × Nat) _ => let q := gfMul poly r.2 r.2; (gfMul poly r.1 q, q)) (1, a)).1

/-- R375: the product in the codes' field, with primitive polynomial 0x11D. -/
def rsMul (a b : Nat) : Nat := gfMul 0x11D a b

/-- R375: α^n. -/
def alpha (n : Nat) : Nat := gfPow 0x11D 2 n

/-- R375: G(x) for t2 check symbols, highest coefficient first. -/
def rsGen : Nat → List Nat
  | 0 => [1]
  | n + 1 =>
    let p := rsGen n
    List.zipWith (fun a b => a ^^^ b) (p ++ [0]) (0 :: p.map (rsMul (alpha n)))

/-- R375: one step of the division by G(x): a data symbol enters; g is G(x) below its leading coefficient. -/
def rsStep (g reg : List Nat) (d : Nat) : List Nat :=
  let q := d ^^^ reg.headD 0
  List.zipWith (fun a b => a ^^^ rsMul q b) (reg.tail ++ [0]) g

/-- R375: the t2 check symbols of data symbols: the remainder of M(x) x^t2 by G(x), highest coefficient first. -/
def rsCheck (t2 : Nat) (data : List Nat) : List Nat := data.foldl (rsStep (rsGen t2).tail) (List.replicate t2 0)

/-- R375: a word's value at α^j. -/
def syndrome (w : List Nat) (j : Nat) : Nat := w.foldl (fun a x => rsMul a (alpha j) ^^^ x) 0

/-- R375: the syndromes of a word; all zero for a codeword. -/
def syndromes (t2 : Nat) (w : List Nat) : List Nat := (List.range t2).map (syndrome w)

/-! ### The decoder (R377) -/

/-- A polynomial, lowest coefficient first, at x. -/
def polyAt (p : List Nat) (x : Nat) : Nat := p.foldr (fun c a => rsMul a x ^^^ c) 0

/-- The sum of two polynomials. -/
def polyAdd : List Nat → List Nat → List Nat
  | [], q => q
  | p, [] => p
  | a :: p, b :: q => (a ^^^ b) :: polyAdd p q

/-- The product of two polynomials. -/
def polyMul (p q : List Nat) : List Nat := p.foldr (fun c r => polyAdd (q.map (rsMul c)) (0 :: r)) []

/-- The locator of symbol i of a word of n symbols. -/
def locator (n i : Nat) : Nat := alpha (n - 1 - i)

/-- What the search for a locator polynomial holds: the polynomial, the correction term, and the degree. -/
structure Search where
  lam : List Nat
  cor : List Nat
  deg : Nat

/-- One step of the search (Berlekamp and Massey, with erasures known): syndrome r enters; e is the number of erasures. -/
def Search.step (syn : List Nat) (e : Nat) (q : Search) (r : Nat) : Search :=
  let d := ((List.range (q.deg + 1)).map fun i => if i ≤ r then rsMul (q.lam.getD i 0) (syn.getD (r - i) 0) else 0).foldl
    (fun a b => a ^^^ b) 0
  let up := 0 :: q.cor
  if d = 0 then { q with cor := up }
  else
    let lam := polyAdd q.lam (up.map (rsMul d))
    if 2 * q.deg ≤ r + e then ⟨lam, q.lam.map (rsMul (gfInv 0x11D d)), r + 1 + e - q.deg⟩
    else ⟨lam, up, q.deg⟩

/-- R377: decodes a word of data and check symbols with some symbols erased and at most most errors elsewhere: the
corrected word and the symbols that changed, or none where it yields no codeword. -/
def rsDecode (t2 most : Nat) (erased : List Nat) (w : List Nat) : Option (List Nat × List Nat) :=
  let n := w.length
  let syn := syndromes t2 w
  let e := erased.length
  let g := erased.foldl (fun p i => polyMul p [1, locator n i]) [1]
  let q := ((List.range (t2 - e)).map fun i => e + i).foldl (Search.step syn e) ⟨g, g, e⟩
  let at' := (List.range n).filter fun i => polyAt q.lam (gfInv 0x11D (locator n i)) = 0
  if syn.all fun x => x = 0 then some (w, [])
  else if at'.length ≠ q.deg ∨ e + most < q.deg then none
  else
    let om := (polyMul syn q.lam).take t2
    let der (y : Nat) : Nat := polyAt (q.lam.zipIdx.map fun c => if c.2 % 2 = 1 then c.1 else 0) y
    let fix (i : Nat) : Nat :=
      let x := locator n i
      let y := gfInv 0x11D x
      -- the derivative of lam at y is der y divided by y
      rsMul (rsMul x (polyAt om y)) (gfInv 0x11D (rsMul (der y) x))
    let v := w.zipIdx.map fun c => if c.2 ∈ at' then c.1 ^^^ fix c.2 else c.1
    if (syndromes t2 v).all fun x => x = 0 then some (v, at'.filter fun i => v.getD i 0 ≠ w.getD i 0) else none

/-! ### Beats, lanes and codewords (R372, R376) -/

/-- R376: data byte i of a burst. -/
def Burst.byte (b : Burst) (i : Nat) : Nat := natBits ((b.toList.getD (i / 4) 0).toNat) (8 * (i % 4) + 7) (8 * (i % 4))

/-- R376: check byte j of a burst: the ECC lanes of beats 2j and 2j + 1. -/
def Burst.check (b : Burst) (j : Nat) : Nat :=
  natBits ((b.toList.getD (2 * j) 0).toNat) 35 32 + 16 * natBits ((b.toList.getD (2 * j + 1) 0).toNat) 35 32

/-- R376: a burst of 32 data bytes and 4 check bytes. -/
def burstOf (data check : List Nat) : Burst :=
  Vector.ofFn fun (k : Fin 8) =>
    BitVec.ofNat 36 (leNat (((data.drop (4 * k.val)).take 4).map (BitVec.ofNat 8))
      + (if k.val % 2 = 0 then check.getD (k.val / 2) 0 % 16 else check.getD (k.val / 2) 0 / 16 % 16) * 2 ^ 32)

/-- R374: how many codewords a unit has. -/
def granWords (gran : Nat) : Nat := if gran < 3 then 1 else 4

/-- R374: the check symbols of a codeword. -/
def granChecks (gran : Nat) : Nat :=
  match gran with
  | 0 => 4
  | 1 => 8
  | _ => 16

/-- R376: the unit bytes that are the data symbols of codeword c. -/
def wordData (gran c : Nat) : List Nat :=
  if gran < 3 then List.range (granUnit gran)
  else ((List.range 16).map fun m => (List.range 8).map fun i => 32 * m + 8 * c + i).flatten

/-- R376: the check bytes of codeword c: member and check byte of its burst. -/
def wordCheck (gran c : Nat) : List (Nat × Nat) :=
  if gran < 3 then ((List.range (granWidth gran)).map fun m => (List.range 4).map fun j => (m, j)).flatten
  else (List.range 16).map fun m => (m, c)

/-- R376: the members that hold the symbols of codeword c, data symbols first. -/
def wordMembers (gran c : Nat) : List Nat := (wordData gran c).map (· / 32) ++ (wordCheck gran c).map fun p => p.1

/-- R375, R376, R383: the bursts of a unit's bytes, member 0 first; a poisoned one has its check symbols XORed with
0x5A. -/
def encodeUnit (gran : Nat) (bytes : List Nat) (poison : Bool) : List Burst :=
  let checks := (List.range (granWords gran)).map fun c =>
    (wordCheck gran c).zip ((rsCheck (granChecks gran) ((wordData gran c).map fun i => bytes.getD i 0)).map fun x =>
      if poison then x ^^^ 0x5A else x)
  let check (m j : Nat) : Nat := ((checks.flatten.find? fun p => p.1 = (m, j)).map fun p => p.2).getD 0
  (List.range (granWidth gran)).map fun m =>
    burstOf ((bytes.drop (32 * m)).take 32) ((List.range 4).map (check m))

/-- R376: the symbols of codeword c in the bursts of a unit. -/
def wordOf (gran c : Nat) (bursts : List Burst) : List Nat :=
  let b (m : Nat) : Burst := bursts.getD m (Vector.replicate 8 0)
  (wordData gran c).map (fun i => (b (i / 32)).byte (i % 32)) ++ (wordCheck gran c).map fun p => (b p.1).check p.2

/-- R377: the errors that a codeword of a granule is corrected for. -/
def granCorrects (gran : Nat) (lost : Bool) : Nat :=
  match gran with
  | 0 => 1
  | 1 => 4
  | 2 => 8
  | _ => if lost then 3 else 8

/-- R383: whether a codeword is exact once its check symbols have lost 0x5A, with some symbols erased. -/
def markedPoisoned (gran : Nat) (erased w : List Nat) : Bool :=
  let t2 := granChecks gran
  (rsDecode t2 0 erased (w.zipIdx.map fun p => if w.length - t2 ≤ p.2 then p.1 ^^^ 0x5A else p.1)).isSome

/-- R386: the symbols of a codeword that lie in lost members of its unit. -/
def erasedIn (gran c : Nat) (lost : List Nat) : List Nat :=
  let mem := wordMembers gran c
  (List.range mem.length).filter fun i => decide (mem.getD i 0 ∈ lost)

/-- R377, R383, R386: decodes one codeword of a unit with the members that are retired: its symbols and the members that
held a corrected one; none where it is uncorrectable or marked poisoned. -/
def decodeWord (gran c : Nat) (lost : List Nat) (bursts : List Burst) : Option (List Nat) × List Nat :=
  let w := wordOf gran c bursts
  let t2 := granChecks gran
  let mem := wordMembers gran c
  let erased := (List.range w.length).filter fun i => decide (mem.getD i 0 ∈ lost)
  if markedPoisoned gran erased w || (decide (gran ≠ 3) && decide (erased ≠ [])) then (none, [])
  else match rsDecode t2 (granCorrects gran (decide (lost ≠ []))) erased w with
    | none => (none, [])
    | some r => (some r.1, ((r.2.filter fun i => i ∉ erased).map fun i => mem.getD i 0).foldl addNew [])

/-- R377: what a read of a unit from DRAM gives: its bytes, none where a codeword is uncorrectable; and for each corrected
codeword the members that held a corrected symbol. -/
def decodeUnit (gran : Nat) (lost : List Nat) (bursts : List Burst) : Option (List Nat) × List Nat :=
  let r := (List.range (granWords gran)).map fun c => (c, decodeWord gran c lost bursts)
  let byte (i : Nat) : Nat :=
    let c := if gran < 3 then 0 else i / 8 % 4
    let k := if gran < 3 then i else 8 * (i / 32) + i % 8
    ((r.find? fun p => p.1 = c).bind fun p => p.2.1.map fun w => w.getD k 0).getD 0
  (if r.all fun p => p.2.1.isSome then some ((List.range (granUnit gran)).map byte) else none,
    (r.map fun p => p.2.2).flatten)

end Sys2Proof.Machine
end

