-- ==== Sys2Proof/Machine/Aes.lean ====
section
/-! DEFINITION. AES-256 and its XTS mode on a 32-byte sector (R380): the cipher that stands between the LLC and DRAM. Bytes
are numbers below 256; a block is 16 of them in order. -/

namespace Sys2Proof.Machine

/-- The product in AES's field. -/
def aesMul (a b : Nat) : Nat := gfMul 0x11B a b

/-- A byte turned left. -/
def rotByte (x n : Nat) : Nat := (x * 2 ^ n) % 256 + x / 2 ^ (8 - n)

/-- AES's S-box. -/
def aesSub (x : Nat) : Nat :=
  let b := gfInv 0x11B x
  b ^^^ rotByte b 1 ^^^ rotByte b 2 ^^^ rotByte b 3 ^^^ rotByte b 4 ^^^ 0x63

/-- The inverse of the S-box. -/
def aesUnsub (x : Nat) : Nat := gfInv 0x11B (rotByte x 1 ^^^ rotByte x 3 ^^^ rotByte x 6 ^^^ 0x05)

/-- The byte-wise sum of two blocks. -/
def xorBytes (a b : List Nat) : List Nat := List.zipWith (fun x y => x ^^^ y) a b

/-- The next word of the key schedule: i is its number, prev the word before, back the word eight before. -/
def aesNextWord (i : Nat) (prev back : List Nat) : List Nat :=
  let t :=
    if i % 8 = 0 then xorBytes ((prev.tail ++ prev.take 1).map aesSub) [gfPow 0x11B 2 (i / 8 - 1), 0, 0, 0]
    else if i % 8 = 4 then prev.map aesSub
    else prev
  xorBytes back t

/-- The 60 words of the key schedule of a 32-byte key. -/
def aesSchedule (key : List Nat) : List (List Nat) :=
  let first := (List.range 8).map fun i => (key.drop (4 * i)).take 4
  (List.range 52).foldl (fun l n => l ++ [aesNextWord (n + 8) (l.getD (n + 7) []) (l.getD n [])]) first

/-- The key of a round. -/
def roundKey (ks : List (List Nat)) (r : Nat) : List Nat := ((ks.drop (4 * r)).take 4).flatten

/-- Row r of every column turns by r places (left for dir = 1, right for dir = 3). -/
def shiftRows (dir : Nat) (b : List Nat) : List Nat :=
  (List.range 16).map fun i => b.getD (i % 4 + 4 * ((i / 4 + dir * (i % 4)) % 4)) 0

/-- Every column times the matrix whose first row is m. -/
def mixColumns (m : List Nat) (b : List Nat) : List Nat :=
  (List.range 16).map fun i =>
    ((List.range 4).map fun k => aesMul (m.getD ((k + 4 - i % 4) % 4) 0) (b.getD (i / 4 * 4 + k) 0)).foldl
      (fun x y => x ^^^ y) 0

/-- AES-256 of a block. -/
def aesEncrypt (ks : List (List Nat)) (b : List Nat) : List Nat :=
  let mid := (List.range 13).foldl (fun x r =>
    xorBytes (mixColumns [2, 3, 1, 1] (shiftRows 1 (x.map aesSub))) (roundKey ks (r + 1))) (xorBytes b (roundKey ks 0))
  xorBytes (shiftRows 1 (mid.map aesSub)) (roundKey ks 14)

/-- The inverse of AES-256. -/
def aesDecrypt (ks : List (List Nat)) (b : List Nat) : List Nat :=
  let open' (x : List Nat) : List Nat := (shiftRows 3 x).map aesUnsub
  let mid := (List.range 13).foldl (fun x r =>
    open' (mixColumns [14, 11, 13, 9] (xorBytes x (roundKey ks (13 - r))))) (open' (xorBytes b (roundKey ks 14)))
  xorBytes mid (roundKey ks 0)

/-- The tweak of the next block: times x in GF(2^128), lowest byte first. -/
def xtsNext (t : List Nat) : List Nat :=
  (List.range 16).map fun i =>
    (t.getD i 0 * 2 % 256 + (if i = 0 then 0 else t.getD (i - 1) 0 / 128))
      ^^^ (if i = 0 ∧ 128 ≤ t.getD 15 0 then 0x87 else 0)

/-- R380: a sector through XTS with a pair of keys: block is the cipher, or its inverse, under the first key. The tweak is
the sector's physical address. -/
def xtsSector (block : List Nat → List Nat) (key2 : List Nat) (pa : Nat) (b : List Nat) : List Nat :=
  let t0 := aesEncrypt (aesSchedule key2) ((leBytes 16 pa).map BitVec.toNat)
  let t1 := xtsNext t0
  xorBytes (block (xorBytes (b.take 16) t0)) t0 ++ xorBytes (block (xorBytes (b.drop 16) t1)) t1

/-- R380, R381: the bytes of a key: byte 0 is the lowest of the number (log entry 15). -/
def keyBytes (k : BitVec 256) : List Nat := (leBytes 32 k.toNat).map BitVec.toNat

/-- R380, R381: the ciphertext of a sector at an address under a key slot; slot 0 stores plaintext. -/
def KeySlot.encrypt (k : KeySlot) (slot pa : Nat) (b : List Nat) : List Nat :=
  if slot = 0 then b else xtsSector (aesEncrypt (aesSchedule (keyBytes k.key1))) (keyBytes k.key2) pa b

/-- R380, R381: the plaintext of a sector. -/
def KeySlot.decrypt (k : KeySlot) (slot pa : Nat) (b : List Nat) : List Nat :=
  if slot = 0 then b else xtsSector (aesDecrypt (aesSchedule (keyBytes k.key1))) (keyBytes k.key2) pa b

/-- R380: every sector of a unit at a base through a function of its address and bytes. -/
def eachSector (f : Nat → List Nat → List Nat) (base : Nat) (bytes : List Nat) : List Nat :=
  ((List.range (bytes.length / 32)).map fun i => f (base + 32 * i) ((bytes.drop (32 * i)).take 32)).flatten

end Sys2Proof.Machine
end

