-- ==== Sys2Proof/Machine/Flags.lean ====
section
/-! DEFINITION. The sticky flags (R71) as a FLAGS word, and the pair of flags and counts that a narrowing or a sum
leaves (R72, R93). -/

namespace Sys2Proof.Machine

/-- R71: OVF, a result overflowed its format. -/
def flagOvf : Word := 1#64
/-- R71: UNF, a result was tiny after rounding and inexact. -/
def flagUnf : Word := 2#64
/-- R71: INV, an invalid operation. -/
def flagInv : Word := 4#64
/-- R71: DZ, a division by zero. -/
def flagDz : Word := 8#64
/-- R71: SAT, a narrowing saturated. -/
def flagSat : Word := 16#64

/-- R71: the bits of FLAGS that exist; writes to the others are ignored. -/
def flagMask : Word := 31#64

/-- A flag word that is set where the condition holds. -/
def flagIf (c : Bool) (f : Word) : Word := if c then f else 0#64

/-- A value with the flags its computation raised and the number of its elements that saturated (R72). -/
structure Flagged (α : Type) where
  val : α
  flags : Word
  sat : Nat
  deriving DecidableEq, Repr

/-- A value that raised nothing. -/
def Flagged.pure {α : Type} (a : α) : Flagged α := ⟨a, 0#64, 0⟩

/-- A value with its flags and no saturation. -/
def Flagged.mk' {α : Type} (a : α) (f : Word) : Flagged α := ⟨a, f, 0⟩

/-- The flags of a list of results, together. -/
def flagsOf {α : Type} (l : List (Flagged α)) : Word := l.foldl (fun w r => w ||| r.flags) 0#64

/-- The saturation count of a list of results. -/
def satOf {α : Type} (l : List (Flagged α)) : Nat := l.foldl (fun n r => n + r.sat) 0

end Sys2Proof.Machine
end

