-- ==== Sys2Proof/Machine/Numbers.lean ====
section
/-! DEFINITION. Numbers (R83 to R101): exact values, the formats, decoding, ROUND with its modes and SR draws, block
scales, the FP32 operations and the XA320 accumulator. An exact value is a sign, a magnitude m × 2^e and a sticky
mark: with the mark the true magnitude lies strictly between m × 2^e and (m + 1) × 2^e, and m then has more bits than
any grid and SR draw can ask for. -/

namespace Sys2Proof.Machine

/-- R57, R92: the rounding modes; DYN is resolved before rounding. -/
inductive RMode where
  | rne
  | rtz
  | rup
  | rdn
  | rna
  | sr
  deriving DecidableEq, Repr

/-- R57, R132: the mode of a code, with DYN taken from FRM; FRM never holds 6 or 7. -/
def rmodeOf (code frm : Nat) : RMode :=
  match (if code = 6 then frm else code) with
  | 1 => .rtz
  | 2 => .rup
  | 3 => .rdn
  | 4 => .rna
  | 5 => .sr
  | _ => .rne

/-- An exact value (R92, R93): NaN, an infinity, or a signed magnitude. -/
inductive XR where
  | nan
  | inf (neg : Bool)
  | fin (neg : Bool) (m : Nat) (e : Int) (sticky : Bool)
  deriving DecidableEq, Repr

/-- A positive or negative zero. -/
def XR.zero (neg : Bool) : XR := .fin neg 0 0 false

/-- A signed integer times a power of two. -/
def XR.ofInt (n : Int) (e : Int) : XR := .fin (decide (n < 0)) n.natAbs e false

/-- The value with its sign changed. -/
def XR.negate : XR → XR
  | .nan => .nan
  | .inf n => .inf (!n)
  | .fin n m e s => .fin (!n) m e s

/-- The magnitude. -/
def XR.abs : XR → XR
  | .nan => .nan
  | .inf _ => .inf false
  | .fin _ m e s => .fin false m e s

/-- The value times 2^k (R95). -/
def XR.scale (k : Int) : XR → XR
  | .fin n m e s => .fin n m (e + k) s
  | x => x

/-- Whether a value is NaN. -/
def XR.isNan : XR → Bool
  | .nan => true
  | _ => false

/-- Whether a value is infinite. -/
def XR.isInf : XR → Bool
  | .inf _ => true
  | _ => false

/-- Whether a value is a zero. -/
def XR.isZero : XR → Bool
  | .fin _ 0 _ false => true
  | _ => false

/-- The sign of a value. -/
def XR.isNeg : XR → Bool
  | .nan => false
  | .inf n => n
  | .fin n _ _ _ => n

/-- R97: floor(log2(abs x)) of a finite non-zero value. -/
def XR.expo : XR → Option Int
  | .fin _ m e s => if m = 0 ∧ s = false then none else some (e + (Nat.log2 m : Int))
  | _ => none

/-- Two exact finite magnitudes on one exponent: (signed m1, signed m2, e). -/
def alignInts (n1 : Bool) (m1 : Nat) (e1 : Int) (n2 : Bool) (m2 : Nat) (e2 : Int) : Int × Int × Int :=
  let e := min e1 e2
  let a : Int := ((m1 <<< (e1 - e).toNat : Nat) : Int)
  let b : Int := ((m2 <<< (e2 - e).toNat : Nat) : Int)
  (if n1 then -a else a, if n2 then -b else b, e)

/-- The exact sum of two exact values, with the zero sign of R84 for a mode other than RDN; infinities of both signs
give NaN. -/
def XR.add : XR → XR → XR
  | .nan, _ => .nan
  | _, .nan => .nan
  | .inf a, .inf b => if a = b then .inf a else .nan
  | .inf a, _ => .inf a
  | _, .inf b => .inf b
  | .fin n1 m1 e1 s1, .fin n2 m2 e2 s2 =>
    if m1 = 0 ∧ m2 = 0 then .zero (n1 && n2)
    else if m1 = 0 then .fin n2 m2 e2 s2
    else if m2 = 0 then .fin n1 m1 e1 s1
    else
      let t := alignInts n1 m1 e1 n2 m2 e2
      let v := t.1 + t.2.1
      if v = 0 then .zero false else .ofInt v t.2.2

/-- The exact product; 0 × ∞ is NaN. -/
def XR.mul : XR → XR → XR
  | .nan, _ => .nan
  | _, .nan => .nan
  | .inf a, .inf b => .inf (a != b)
  | .inf a, .fin n m _ _ => if m = 0 then .nan else .inf (a != n)
  | .fin n m _ _, .inf b => if m = 0 then .nan else .inf (b != n)
  | .fin n1 m1 e1 _, .fin n2 m2 e2 _ =>
    if m1 = 0 ∨ m2 = 0 then .zero (n1 != n2) else .fin (n1 != n2) (m1 * m2) (e1 + e2) false

/-- The quotient, exact or with a sticky mark behind at least 96 bits; 0/0 and ∞/∞ are NaN, x/0 is ∞. -/
def XR.div : XR → XR → XR
  | .nan, _ => .nan
  | _, .nan => .nan
  | .inf _, .inf _ => .nan
  | .inf a, .fin n _ _ _ => .inf (a != n)
  | .fin n _ _ _, .inf b => .zero (b != n)
  | .fin n1 m1 e1 _, .fin n2 m2 e2 _ =>
    if m2 = 0 then (if m1 = 0 then .nan else .inf (n1 != n2))
    else if m1 = 0 then .zero (n1 != n2)
    else
      let k := 96 + Nat.log2 m2 + 1 - min (96 + Nat.log2 m2 + 1) (Nat.log2 m1)
      let a := m1 <<< k
      .fin (n1 != n2) (a / m2) (e1 - e2 - (k : Int)) (decide (a % m2 ≠ 0))

/-- One step of the binary integer square root. -/
def isqrtStep (n acc bit : Nat) : Nat := if (acc + bit) * (acc + bit) ≤ n then acc + bit else acc

/-- The integer square root of n, from the bit 2^k downward. -/
def isqrtFrom (n : Nat) : Nat → Nat → Nat
  | 0, acc => isqrtStep n acc 1
  | k + 1, acc => isqrtFrom n k (isqrtStep n acc (2 ^ (k + 1)))

/-- The integer square root. -/
def isqrt (n : Nat) : Nat := isqrtFrom n (Nat.log2 n / 2) 0

/-- The square root of a value, exact or sticky behind at least 96 bits; of a negative number, NaN. -/
def XR.sqrt : XR → XR
  | .nan => .nan
  | .inf n => if n then .nan else .inf false
  | .fin n m e _ =>
    if m = 0 then .zero n
    else if n then .nan
    else
      let k := 200 + (e % 2).toNat
      let a := m <<< k
      let r := isqrt a
      .fin false r ((e - (k : Int)) / 2) (decide (r * r ≠ a))

/-- Compares two finite exact magnitudes m1 × 2^e1 and m2 × 2^e2. -/
def cmpMag (m1 : Nat) (e1 : Int) (m2 : Nat) (e2 : Int) : Ordering :=
  let e := min e1 e2
  compare (m1 <<< (e1 - e).toNat) (m2 <<< (e2 - e).toNat)

/-- A numeric comparison of two values that are not NaN; zeros are equal. -/
def XR.cmp : XR → XR → Ordering
  | .inf a, .inf b => if a = b then .eq else if a then .lt else .gt
  | .inf a, _ => if a then .lt else .gt
  | _, .inf b => if b then .gt else .lt
  | .fin n1 m1 e1 _, .fin n2 m2 e2 _ =>
    if m1 = 0 ∧ m2 = 0 then .eq
    else if m1 = 0 then (if n2 then .gt else .lt)
    else if m2 = 0 then (if n1 then .lt else .gt)
    else if n1 && !n2 then .lt
    else if n2 && !n1 then .gt
    else if n1 then cmpMag m2 e2 m1 e1
    else cmpMag m1 e1 m2 e2
  | _, _ => .eq

/-- R94: MIX64. -/
def mix64 (z : Word) : Word :=
  let z1 := (z ^^^ (z >>> 30)) * 0xBF58476D1CE4E5B9#64
  let z2 := (z1 ^^^ (z1 >>> 27)) * 0x94D049BB133111EB#64
  z2 ^^^ (z2 >>> 31)

/-- R94: SRDRAW, the 24-bit draw. -/
def srDraw (fid c i : Word) : Nat := (mix64 (mix64 (mix64 fid ^^^ c) ^^^ i)).toNat >>> 40

/-- R92: how a magnitude stands on the grid 2^q: the multiple below it, whether it is on the grid, its order against
the midpoint, and floor(2^24 × its distance above the multiple). -/
structure OnGrid where
  lo : Nat
  exact : Bool
  half : Ordering
  frac24 : Nat
  deriving DecidableEq, Repr

/-- R92: a magnitude on the grid 2^q. A magnitude far below the grid is never shifted out bit by bit. -/
def onGrid (m : Nat) (e : Int) (sticky : Bool) (q : Int) : OnGrid :=
  if q ≤ e then
    { lo := m <<< (e - q).toNat, exact := !sticky, half := .lt, frac24 := 0 }
  else
    let k := (q - e).toNat
    if k > Nat.log2 m + 64 then
      { lo := 0, exact := decide (m = 0) && !sticky, half := .lt, frac24 := 0 }
    else
      let lo := m >>> k
      let r := m % 2 ^ k
      let h := 2 ^ (k - 1)
      { lo := lo
        exact := decide (r = 0) && !sticky
        half := if r < h then .lt else if r = h ∧ sticky = false then .eq else .gt
        frac24 := (r <<< 24) >>> k }

/-- R92: whether the farther neighbour is chosen. In a format with M = 0 a tie under RNE goes to the neighbour of larger magnitude
(DESIGN CHOICE, log entry 110). -/
def chooseHi (mode : RMode) (neg : Bool) (g : OnGrid) (draw : Nat) : Bool :=
  if g.exact then false
  else
    match mode with
    | .rne => match g.half with
      | .lt => false
      | .gt => true
      | .eq => decide (g.lo % 2 = 1)
    | .rna => match g.half with
      | .lt => false
      | _ => true
    | .rtz => false
    | .rup => !neg
    | .rdn => neg
    | .sr => decide (draw < g.frac24)

/-- R92: the magnitude as a multiple of the grid 2^q, whether hi was chosen, and whether it was exact. -/
def roundMag (mode : RMode) (neg : Bool) (m : Nat) (e : Int) (sticky : Bool) (q : Int) (draw : Nat) :
    Nat × Bool × Bool :=
  let g := onGrid m e sticky q
  let hi := chooseHi mode neg g draw
  (if hi then g.lo + 1 else g.lo, hi, g.exact)

/-- A format (R83, R85): width, sign, exponent and mantissa bits, bias, special code, subnormals, overflow policy; ieee
marks FP32, BF16 and FP16, whose overflow row in R93 is their own. -/
structure Fmt where
  width : Nat
  s : Bool
  e : Nat
  m : Nat
  bias : Int
  special : Nat
  subn : Bool
  ovp : Bool
  ieee : Bool
  deriving DecidableEq, Repr

/-- R83: FP32. -/
def fp32 : Fmt := ⟨32, true, 8, 23, 127, 0, true, false, true⟩
/-- R83: BF16. -/
def bf16 : Fmt := ⟨16, true, 8, 7, 127, 0, true, false, true⟩
/-- R83: FP16. -/
def fp16 : Fmt := ⟨16, true, 5, 10, 15, 0, true, false, true⟩
/-- R83: INT32, a scaled integer of 31 magnitude bits. -/
def int32 : Fmt := ⟨32, true, 0, 31, 0, 2, false, false, false⟩
/-- R83: INT8. -/
def int8 : Fmt := ⟨8, true, 0, 7, 0, 2, false, false, false⟩
/-- R83: UINT8. -/
def uint8 : Fmt := ⟨8, false, 0, 8, 0, 2, false, false, false⟩

/-- R85: the format a format word F describes. -/
def fmtOfWord (f : Word) : Fmt :=
  { width := bitsOf f 3 0
    s := f.getLsbD 4
    e := bitsOf f 7 5
    m := bitsOf f 10 8
    bias := (f.extractLsb' 11 8).toInt
    special := bitsOf f 20 19
    subn := f.getLsbD 21
    ovp := f.getLsbD 22
    ieee := false }

/-- R85: the BLOCK field of a format word. -/
def fmtBlock (f : Word) : Nat := bitsOf f 24 23
/-- R85: the RANGE field of a format word. -/
def fmtRange (f : Word) : Nat := bitsOf f 29 25
/-- R85: the RM field of a format word. -/
def fmtRm (f : Word) : Nat := bitsOf f 32 30

/-- R87: whether a pair of words is valid for a format register. -/
def validPair (f g : Word) : Bool :=
  let x := fmtOfWord f
  (decide (x.width = 4) || decide (x.width = 8)) && decide ((if x.s then 1 else 0) + x.e + x.m = x.width)
    && decide (x.special ≠ 3) && decide (fmtBlock f ≠ 3) && decide (fmtRm f ≠ 7)
    && (decide (x.e ≠ 0) || (decide (x.special = 2) && !x.subn))
    && (decide (x.special ≠ 0) || (decide (2 ≤ x.e) && decide (1 ≤ x.m)))
    && (decide (x.special ≠ 1) || decide (1 ≤ x.e))
    && decide (bitsOf f 63 33 = 0) && decide (bitsOf g 63 42 = 0)

/-- R89: emaxf. -/
def Fmt.emaxf (f : Fmt) : Nat := 2 ^ f.e - 1

/-- R89: emin. -/
def Fmt.emin (f : Fmt) : Int := if f.e = 0 then -f.bias else 1 - f.bias

/-- R89: the exponent and mantissa fields of the largest finite value of a floating format. -/
def Fmt.maxFields (f : Fmt) : Nat × Nat :=
  if f.special = 2 then (f.emaxf, 2 ^ f.m - 1)
  else if f.special = 1 ∧ 1 ≤ f.m then (f.emaxf, 2 ^ f.m - 2)
  else (f.emaxf - 1, 2 ^ f.m - 1)

/-- R89: MAXF as a magnitude and an exponent. -/
def Fmt.maxMag (f : Fmt) : Nat × Int :=
  if f.e = 0 then (2 ^ f.m - 1, -f.bias)
  else
    let t := f.maxFields
    if t.1 = 0 then (t.2, 1 - f.bias - (f.m : Int)) else (2 ^ f.m + t.2, (t.1 : Int) - f.bias - (f.m : Int))

/-- R89: emax, floor(log2 MAXF). -/
def Fmt.emax (f : Fmt) : Int := f.maxMag.2 + (Nat.log2 f.maxMag.1 : Int)

/-- R89, R93: whether a format has infinities. -/
def Fmt.hasInf (f : Fmt) : Bool := decide (f.e ≠ 0) && decide (f.special = 0)

/-- R83, R89: the NaN code, where the format has one. -/
def Fmt.nanCode (f : Fmt) : Option Nat :=
  if f.e = 0 then none
  else if f.special = 0 then some (f.emaxf * 2 ^ f.m + 2 ^ (f.m - 1))
  else if f.special = 1 then some (f.emaxf * 2 ^ f.m + (2 ^ f.m - 1))
  else none

/-- R89: DECODE_NARROW, and the decoding of FP32, BF16, FP16 and the integer formats: the exact value of a code. -/
def decodeFmt (f : Fmt) (code : Nat) : XR :=
  if f.e = 0 then
    let c := code % 2 ^ f.width
    if f.s ∧ 2 ^ (f.width - 1) ≤ c then .fin true (2 ^ f.width - c) (-f.bias) false
    else .fin false c (-f.bias) false
  else
    let m := code % 2 ^ f.m
    let e := (code >>> f.m) % 2 ^ f.e
    let neg := f.s && decide ((code >>> (f.e + f.m)) % 2 = 1)
    if f.special = 0 ∧ e = f.emaxf then (if m = 0 then .inf neg else .nan)
    else if f.special = 1 ∧ e = f.emaxf ∧ m = 2 ^ f.m - 1 then .nan
    else if e = 0 then (if f.subn then .fin neg m (1 - f.bias - (f.m : Int)) false else .zero neg)
    else .fin neg (2 ^ f.m + m) ((e : Int) - f.bias - (f.m : Int)) false

/-- R93: a rounded code, the flags it raised, and whether it is a saturation event or a NaN event. -/
structure Rounded where
  code : Nat
  flags : Word
  sat : Bool
  nanEv : Bool
  deriving DecidableEq, Repr

/-- The sign bit of a code. -/
def Fmt.signBit (f : Fmt) (neg : Bool) : Nat := if f.s ∧ neg = true then 2 ^ (f.e + f.m) else 0

/-- The code of an infinity of a format that has them. -/
def Fmt.infCode (f : Fmt) (neg : Bool) : Nat := f.signBit neg + f.emaxf * 2 ^ f.m

/-- The code of ±MAXF of a floating format. -/
def Fmt.maxCode (f : Fmt) (neg : Bool) : Nat := f.signBit neg + f.maxFields.1 * 2 ^ f.m + f.maxFields.2

/-- The code of the magnitude n × 2^q of a floating format, q being the grid of the value (R89 inverted). -/
def Fmt.codeOf (f : Fmt) (neg : Bool) (n : Nat) (q : Int) : Nat :=
  if n = 0 then f.signBit neg
  else
    let ex := q + (Nat.log2 n : Int)
    if ex < f.emin then f.signBit neg + (n <<< (q - (f.emin - (f.m : Int))).toNat) % 2 ^ f.m
    else
      let sig := if (Nat.log2 n : Int) ≥ (f.m : Int) then n >>> (Nat.log2 n - f.m) else n <<< (f.m - Nat.log2 n)
      f.signBit neg + (ex + f.bias).toNat * 2 ^ f.m + (sig - 2 ^ f.m)

/-- R93 step 1: a NaN. -/
def roundNan (f : Fmt) : Rounded :=
  match f.nanCode with
  | some c => ⟨c, 0#64, false, true⟩
  | none => ⟨0, flagInv, false, true⟩

/-- R93 step 5: the overflow row of a floating format; hi says that the farther neighbour was chosen. -/
def roundOverflow (f : Fmt) (mode : RMode) (neg hi : Bool) : Rounded :=
  if f.ieee then
    let toInf := match mode with
      | .rne => true
      | .rna => true
      | .rtz => false
      | .rup => !neg
      | .rdn => neg
      | .sr => hi
    ⟨if toInf then f.infCode neg else f.maxCode neg, flagOvf, false, false⟩
  else if f.ovp = false ∨ f.special = 2 then ⟨f.maxCode neg, flagSat, true, false⟩
  else if f.special = 0 then ⟨f.infCode neg, flagOvf, false, false⟩
  else ⟨(f.nanCode).getD 0, flagOvf, false, true⟩

/-- R93 for an integer format (E = 0): the grid is 2^(-BIAS), a zero is +0, the most negative value is -2^M. -/
def roundInt (f : Fmt) (mode : RMode) (neg : Bool) (m : Nat) (e : Int) (sticky : Bool) (draw : Nat) : Rounded :=
  let n := (roundMag mode neg m e sticky (-f.bias) draw).1
  if n = 0 then ⟨0, 0#64, false, false⟩
  else if neg ∧ f.s = false then ⟨0, flagSat, true, false⟩
  else if neg then
    if n ≤ 2 ^ f.m then ⟨2 ^ f.width - n, 0#64, false, false⟩ else ⟨2 ^ f.m, flagSat, true, false⟩
  else if n ≤ 2 ^ f.m - 1 then ⟨n, 0#64, false, false⟩
  else ⟨2 ^ f.m - 1, flagSat, true, false⟩

/-- R93 for a floating format: the grid, tininess after rounding, unsigned formats and overflow. -/
def roundFloat (f : Fmt) (mode : RMode) (neg : Bool) (m : Nat) (e : Int) (sticky : Bool) (draw : Nat) : Rounded :=
  let ex := e + (Nat.log2 m : Int)
  let qn := ex - (f.m : Int)
  let q := if ex < f.emin ∧ f.subn then f.emin - (f.m : Int) else qn
  let r := roundMag mode neg m e sticky q draw
  let u := roundMag mode neg m e sticky qn draw
  let tiny := decide (u.1 ≠ 0) && decide (qn + (Nat.log2 u.1 : Int) < f.emin)
  if tiny ∧ f.subn = false then ⟨f.signBit neg, flagUnf, false, false⟩
  else if neg ∧ f.s = false ∧ r.1 ≠ 0 then ⟨0, flagSat ||| flagIf tiny flagUnf, true, false⟩
  else if r.1 ≠ 0 ∧ cmpMag r.1 q f.maxMag.1 f.maxMag.2 = .gt then roundOverflow f mode neg r.2.1
  else ⟨f.codeOf neg r.1 q, flagIf (tiny && !r.2.2) flagUnf, false, false⟩

/-- R93: ROUND(mode, F, x, c, i), with the draw already taken. -/
def roundTo (f : Fmt) (mode : RMode) (draw : Nat) : XR → Rounded
  | .nan => roundNan f
  | .inf neg =>
    if f.hasInf then
      if neg ∧ f.s = false then ⟨0, flagSat, true, false⟩ else ⟨f.infCode neg, 0#64, false, false⟩
    else if f.e = 0 then
      if neg ∧ f.s = false then ⟨0, flagSat, true, false⟩
      else ⟨if neg then 2 ^ f.m else 2 ^ f.m - 1, flagSat, true, false⟩
    else if neg ∧ f.s = false then ⟨0, flagSat, true, false⟩
    else roundOverflow f mode neg true
  | .fin neg m e sticky =>
    if m = 0 ∧ sticky = false then ⟨if f.e = 0 then 0 else f.signBit neg, 0#64, false, false⟩
    else if f.e = 0 then roundInt f mode neg m e sticky draw
    else roundFloat f mode neg m e sticky draw

/-- R93: EXACT of an FP32 lane. -/
def exact32 (x : Lane) : XR := decodeFmt fp32 x.toNat

/-- R93: RNE32, with its flags. -/
def rne32 (x : XR) : Flagged Lane :=
  let r := roundTo fp32 .rne 0 x
  .mk' (BitVec.ofNat 32 r.code) r.flags

/-- R84: an exact result that is a zero of a sum: +0, or -0 under RDN, unless both addends are zeros of one sign. -/
def sumZero (mode : RMode) (a b : XR) (s : XR) : XR :=
  if s.isZero ∧ ¬ (a.isZero ∧ b.isZero ∧ a.isNeg = b.isNeg) then .zero (decide (mode = .rdn)) else s

/-- R84: the canonical NaN of FP32. -/
def nan32 : Lane := 0x7FC00000#32

/-- An FP32 operation rounded to nearest: the exact value, and whether an invalid operation made its NaN. -/
def fpRound (x : XR) (inv : Bool) : Flagged Lane :=
  let r := rne32 x
  .mk' r.val (r.flags ||| flagIf inv flagInv)

/-- R84, R93: FADD. -/
def fadd (a b : Lane) : Flagged Lane :=
  let x := exact32 a
  let y := exact32 b
  let s := sumZero .rne x y (x.add y)
  fpRound s (s.isNan && !x.isNan && !y.isNan)

/-- R84: a - b. -/
def fsub (a b : Lane) : Flagged Lane :=
  let x := exact32 a
  let y := (exact32 b).negate
  let s := sumZero .rne x y (x.add y)
  fpRound s (s.isNan && !x.isNan && !y.isNan)

/-- R84: a × b. -/
def fmul (a b : Lane) : Flagged Lane :=
  let x := exact32 a
  let y := exact32 b
  let p := x.mul y
  fpRound p (p.isNan && !x.isNan && !y.isNan)

/-- R84: a ÷ b; a finite non-zero value over zero raises DZ. -/
def fdiv (a b : Lane) : Flagged Lane :=
  let x := exact32 a
  let y := exact32 b
  let p := x.div y
  let r := fpRound p (p.isNan && !x.isNan && !y.isNan)
  .mk' r.val (r.flags ||| flagIf (y.isZero && !x.isZero && !x.isInf && !x.isNan) flagDz)

/-- R84: the square root. -/
def fsqrt (a : Lane) : Flagged Lane :=
  let x := exact32 a
  let p := x.sqrt
  fpRound p (p.isNan && !x.isNan)

/-- R84, R102: FMA(a, b, c) on exact operands, rounded once. -/
def fmaX (x y z : XR) : Flagged Lane :=
  let p := x.mul y
  let s := sumZero .rne p z (p.add z)
  fpRound s ((p.isNan && !x.isNan && !y.isNan) || (s.isNan && !p.isNan && !z.isNan))

/-- R102: FMA on lanes. -/
def fma (a b c : Lane) : Flagged Lane := fmaX (exact32 a) (exact32 b) (exact32 c)

/-- R95: the scale of an E8M0 byte; none is the NaN scale. -/
def e8m0 (b : Nat) : Option Int := if b = 255 then none else some ((b : Int) - 127)

/-- R95: a value under a block scale. -/
def XR.scaled (x : XR) (sc : Option Int) : XR :=
  match sc with
  | none => .nan
  | some k => x.scale k

/-- R98: XA320: the 320-bit value and the three flags. -/
structure Xa where
  v : BitVec 320
  nan : Bool
  pinf : Bool
  ninf : Bool
  deriving DecidableEq, Repr

/-- An empty accumulator. -/
def Xa.zero : Xa := ⟨0#320, false, false, false⟩

/-- R99: XA_ADD; a value with bits below 2^-149 is rounded on entry and raises UNF. -/
def Xa.add (acc : Xa) (x : XR) : Flagged Xa :=
  match x with
  | .nan => .pure { acc with nan := true }
  | .inf false => .pure { acc with pinf := true }
  | .inf true => .pure { acc with ninf := true }
  | .fin neg m e sticky =>
    let r := roundMag .rne neg m e sticky (-149) 0
    let n : Int := if neg then -(r.1 : Int) else (r.1 : Int)
    .mk' { acc with v := acc.v + BitVec.ofInt 320 n } (flagIf (!r.2.2) flagUnf)

/-- R99: XA_ROUND. -/
def Xa.round (acc : Xa) : Flagged Lane :=
  if acc.nan then .pure nan32
  else if acc.pinf ∧ acc.ninf then .mk' nan32 flagInv
  else if acc.pinf then .pure 0x7F800000#32
  else if acc.ninf then .pure 0xFF800000#32
  else rne32 (.ofInt acc.v.toInt (-149))

/-- R98: the 48-byte image of an accumulator. -/
def Xa.bytes (acc : Xa) : List Byte :=
  leBytes 40 acc.v.toNat
    ++ leBytes 8 ((if acc.nan then 1 else 0) + (if acc.pinf then 2 else 0) + (if acc.ninf then 4 else 0))

/-- R98: the accumulator of a 48-byte image; reserved bits are not part of it. -/
def Xa.ofBytes (l : List Byte) : Xa :=
  let f := leNat (l.drop 40)
  ⟨BitVec.ofNat 320 (leNat (l.take 40)), decide (f % 2 = 1), decide (f / 2 % 2 = 1), decide (f / 4 % 2 = 1)⟩

/-- R98, R99: the two accumulators of one sum, merged (the sum is the same for any grouping). -/
def Xa.merge (a b : Xa) : Xa := ⟨a.v + b.v, a.nan || b.nan, a.pinf || b.pinf, a.ninf || b.ninf⟩

/-- R100: one level of TREE_SUM over a list of nodes (an absent node adds nothing). -/
def treeLevel : List (Option (Flagged Lane)) → List (Option (Flagged Lane))
  | a :: b :: rest =>
    (match a, b with
      | a, none => a
      | none, b => b
      | some x, some y =>
        let r := fadd x.val y.val
        some (.mk' r.val (x.flags ||| y.flags ||| r.flags))) :: treeLevel rest
  | l => l

/-- R100: TREE_SUM of 32 lanes. -/
def treeSum (l : List (Option Lane)) : Flagged Lane :=
  let l0 := l.map (Option.map Flagged.pure)
  match treeLevel (treeLevel (treeLevel (treeLevel (treeLevel l0)))) with
  | some r :: _ => r
  | _ => .pure 0#32

/-- R97: the exponents of a block: its largest and smallest so far, and how many elements it holds. -/
structure BlockState where
  hi : Option Int
  lo : Option Int
  n : Nat
  deriving DecidableEq, Repr

/-- R97: whether an element starts a new variable block. -/
def blockBreaks (range : Nat) (b : BlockState) (x : XR) : Bool :=
  decide (b.n ≥ 64) ||
    match x.expo, b.hi, b.lo with
    | some k, some h, some l => decide (max h k - min l k > (range : Int))
    | _, _, _ => false

/-- R97: a block with one more element. -/
def blockAdd (b : BlockState) (x : XR) : BlockState :=
  match x.expo with
  | none => { b with n := b.n + 1 }
  | some k =>
    { hi := some (match b.hi with | some h => max h k | none => k)
      lo := some (match b.lo with | some l => min l k | none => k)
      n := b.n + 1 }

/-- R97: the scale byte of a block: its largest exponent minus emax, clamped; 127 for a block with no exponent. -/
def blockScale (f : Fmt) (hi : Option Int) : Nat :=
  match hi with
  | none => 127
  | some h => (max (-127) (min 127 (h - f.emax)) + 127).toNat

/-- R97: splits a list of values into variable blocks. -/
def varBlocks (range : Nat) : BlockState → List XR → List XR → List (List XR × BlockState)
  | b, cur, [] => if cur.isEmpty then [] else [(cur.reverse, b)]
  | b, cur, x :: xs =>
    if decide (b.n > 0) && blockBreaks range b x then
      (cur.reverse, b) :: varBlocks range (blockAdd ⟨none, none, 0⟩ x) [x] xs
    else varBlocks range (blockAdd b x) (x :: cur) xs

end Sys2Proof.Machine
end

