-- ==== Sys2Proof/Machine/Basic.lean ====
section
/-! DEFINITION. The operations over registers and tables on which the others stand: reading and writing registers by class
and landing a group (R66 to R69), contexts, logical cores and clusters, the ways an instruction stops, conflicts (R182,
R184), and error records (R414). -/

namespace Sys2Proof.Machine

/-! ### Registers and the landing rule -/

/-- R62, R68: what a register file lands as when nothing is outstanding. -/
def Regs.landing (r : Regs) : Landing := { g := r.g, v := r.v, m := r.m, flags := 0 }

/-- R44: a g register as an instruction reads it; g0 reads zero. -/
def Slot.gr (f : Slot) (r : BitVec 5) : Word := if r = 0 then 0 else f.reg.g[r.toNat]'(r.isLt)

/-- R44: a v register. -/
def Slot.vr (f : Slot) (r : BitVec 5) : VReg := f.reg.v[r.toNat]'(r.isLt)

/-- R44: an m register; m0 reads all ones. -/
def Slot.mr (f : Slot) (r : BitVec 3) : Lane := if r = 0 then BitVec.allOnes 32 else f.reg.m[r.toNat]'(r.isLt)

/-- R67, R68: a short-class result: visible to the next instruction, and the register's last write so far. -/
def Slot.writeG (f : Slot) (d : BitVec 5) (x : Word) : Slot :=
  if d = 0 then f
  else { f with
    reg := { f.reg with g := f.reg.g.set d.toNat x d.isLt }
    land := { f.land with g := f.land.g.set d.toNat x d.isLt } }

/-- R67, R68: a long-class result in a g register: it lands at the end of the group. -/
def Slot.landG (f : Slot) (d : BitVec 5) (x : Word) : Slot :=
  if d = 0 then f else { f with land := { f.land with g := f.land.g.set d.toNat x d.isLt } }

/-- R67, R68: a short-class result in a v register (a register move). -/
def Slot.writeV (f : Slot) (d : BitVec 5) (x : VReg) : Slot :=
  { f with
    reg := { f.reg with v := f.reg.v.set d.toNat x d.isLt }
    land := { f.land with v := f.land.v.set d.toNat x d.isLt } }

/-- R67, R68: a long-class result in a v register. -/
def Slot.landV (f : Slot) (d : BitVec 5) (x : VReg) : Slot :=
  { f with land := { f.land with v := f.land.v.set d.toNat x d.isLt } }

/-- R67, R68: a short-class result in an m register; m0 discards it. -/
def Slot.writeM (f : Slot) (d : BitVec 3) (x : Lane) : Slot :=
  if d = 0 then f
  else { f with
    reg := { f.reg with m := f.reg.m.set d.toNat x d.isLt }
    land := { f.land with m := f.land.m.set d.toNat x d.isLt } }

/-- R67, R68: a long-class result in an m register. -/
def Slot.landM (f : Slot) (d : BitVec 3) (x : Lane) : Slot :=
  if d = 0 then f else { f with land := { f.land with m := f.land.m.set d.toNat x d.isLt } }

/-- R71, R115: flags a short-class instruction raises: visible at once. -/
def Slot.raiseNow (f : Slot) (w : Word) : Slot := { f with reg := { f.reg with flags := f.reg.flags ||| w } }

/-- R67: flags a long-class instruction raises: they land with its result. -/
def Slot.raiseLate (f : Slot) (w : Word) : Slot := { f with land := { f.land with flags := f.land.flags ||| w } }

/-- R72: elements that saturated add to the open chunk's hidden count. -/
def Slot.addHidden (f : Slot) (n : Nat) : Slot := { f with chunk := { f.chunk with hidden := f.chunk.hidden + n } }

/-- R68: the end of a group: every outstanding result lands, and the next group starts from here. -/
def Slot.landGroup (f : Slot) : Slot :=
  let r : Regs := { f.reg with g := f.land.g, v := f.land.v, m := f.land.m, flags := f.reg.flags ||| f.land.flags }
  { f with reg := r, land := { f.land with flags := 0 }, glen := 0, start := r, startChunk := f.chunk }

/-- R66, R69: the instruction has issued and the next one is at pc; the group ends where the instruction is marked or
is its 64th. -/
def Slot.advanceTo (f : Slot) (mark : Bool) (pc : Word) : Slot :=
  let f1 : Slot := { f with
    reg := { f.reg with pc := pc, onceArmed := false }
    glen := f.glen + 1
    chunk := { f.chunk with ninstr := f.chunk.ninstr + 1 }
    wait := .none
    zeros := []
    hosts := []
    filled := [] }
  if mark || decide (64 ≤ f1.glen) then f1.landGroup else f1

/-- R66: the instruction has issued and control goes on in order. -/
def Slot.advance (f : Slot) (mark : Bool) : Slot := f.advanceTo mark (f.reg.pc + 4#64)

/-! ### Tables -/

/-- The context of a number; one that does not exist reads as all reset. -/
def State.ctxOf (s : State) (c : Nat) : Ctx := (s.ctxs.find? fun x => x.id = c).getD { id := c }

/-- Whether a context exists: the package has had its record since firmware first wrote a descriptor for it, in whatever STATE it
is now (DESIGN CHOICE, log entry 102). -/
def State.hasCtx (s : State) (c : Nat) : Bool := s.ctxs.any fun x => x.id = c

/-- Replaces a context. -/
def State.setCtx (s : State) (c : Ctx) : State := { s with ctxs := upsert (fun x => x.id = c.id) c s.ctxs }

/-- The logical core of a number; one that is not defined reads as all reset, with VALID = 0. -/
def Ctx.lcOf (c : Ctx) (n : Nat) : LCore := (c.lcores.find? fun x => x.n = n).getD { n := n, valid := false }

/-- R225, R344: whether a context defines a logical core. -/
def Ctx.defines (c : Ctx) (n : Nat) : Bool := (c.lcOf n).valid

/-- Replaces a logical core. -/
def Ctx.setLc (c : Ctx) (l : LCore) : Ctx := { c with lcores := upsert (fun x => x.n = l.n) l c.lcores }

/-- A logical core of a context of the state. -/
def State.lcOf (s : State) (c n : Nat) : LCore := (s.ctxOf c).lcOf n

/-- Replaces a logical core of a context. -/
def State.setLc (s : State) (c : Nat) (l : LCore) : State := s.setCtx ((s.ctxOf c).setLc l)

/-- A physical core. -/
def State.coreOf (s : State) (p : Nat) : CoreSt := (s.cores.find? fun x => x.id = p).getD { id := p }

/-- Replaces a physical core. -/
def State.setCore (s : State) (c : CoreSt) : State := { s with cores := upsert (fun x => x.id = c.id) c s.cores }

/-- R341: the cluster of a physical core: rows 2i and 2i + 1, columns 4j to 4j + 3, numbered 8i + j; core 1,024 + c is the
translation service core of cluster c (R264, log entry 10). -/
def clusterIdOf (p : Nat) : Nat := if p < 1024 then 8 * (p / 64) + (p % 32) / 4 else p - 1024

/-- R341: the position of a physical core in its cluster. -/
def clusterPos (p : Nat) : Nat := 4 * (p / 32 % 2) + p % 4

/-- R264, R341: the physical core at a position of a cluster. -/
def coreAt (cluster pos : Nat) : Nat := 32 * (2 * (cluster / 8) + pos / 4) + 4 * (cluster % 8) + pos % 4

/-- R341: the physical core ID of a cluster's cluster router (position 0). -/
def clusterRouter (c : Nat) : Nat := 64 * (c / 8) + 4 * (c % 8)

/-- R341: the router at which a core is attached to the mesh: a TSC at its cluster router. -/
def meshAt (p : Nat) : Nat := if p < 1024 then p else clusterRouter (p - 1024)

/-- R341: the die of a physical core. -/
def dieOf (p : Nat) : Nat := (meshAt p % 32) / 16 + 2 * (meshAt p / 512)

/-- A cluster. -/
def State.clusterOf (s : State) (c : Nat) : Cluster := (s.clusters.find? fun x => x.id = c).getD { id := c }

/-- Replaces a cluster. -/
def State.setCluster (s : State) (c : Cluster) : State :=
  { s with clusters := upsert (fun x => x.id = c.id) c s.clusters }

/-- Replaces the slot whose turn it is. -/
def State.withFocus (s : State) (f : Slot) : State := { s with focus := f }

/-- Every slot in use, the focus first. -/
def State.slots (s : State) : List Slot := s.focus :: s.others

/-- Changes every slot in use. -/
def State.mapSlots (s : State) (g : Slot → Slot) : State := { s with focus := g s.focus, others := s.others.map g }

/-- R165: the entry of a channel; an entry not listed has its reset value. -/
def LCore.ttOf (l : LCore) (ch : Nat) : TTEntry := lookupD l.tt ch {}

/-- Replaces an entry. -/
def LCore.setTt (l : LCore) (ch : Nat) (e : TTEntry) : LCore := { l with tt := setKey l.tt ch e }

/-- R165: the fields of an entry. -/
def TTEntry.entry (e : TTEntry) : Word := e.w0.extractLsb' 0 56 |>.setWidth 64
/-- R165: PRIO. -/
def TTEntry.prio (e : TTEntry) : Nat := bitsOf e.w1 1 0
/-- R165: BLK. -/
def TTEntry.blk (e : TTEntry) : Bool := e.w1.getLsbD 2
/-- R165: ORD. -/
def TTEntry.ord (e : TTEntry) : Bool := e.w1.getLsbD 3
/-- R165: GANG. -/
def TTEntry.gang (e : TTEntry) : Bool := e.w1.getLsbD 4
/-- R165: DUAL. -/
def TTEntry.dual (e : TTEntry) : Bool := e.w1.getLsbD 5
/-- R165: OFF. -/
def TTEntry.off (e : TTEntry) : Bool := e.w1.getLsbD 6
/-- R165: JOIN. -/
def TTEntry.join (e : TTEntry) : Bool := e.w1.getLsbD 7
/-- R165: RATE, the consumption rate minus 1. -/
def TTEntry.rate (e : TTEntry) : Nat := bitsOf e.w1 11 8
/-- R165: JCH. -/
def TTEntry.jch (e : TTEntry) : Nat := bitsOf e.w1 17 12
/-- R165: JRATE, the join rate minus 1. -/
def TTEntry.jrate (e : TTEntry) : Nat := bitsOf e.w1 21 18
/-- R165: PROD. -/
def TTEntry.prod (e : TTEntry) : Nat := bitsOf e.w1 26 22
/-- R165: WG. -/
def TTEntry.wg (e : TTEntry) : Nat := bitsOf e.w1 39 32
/-- R165: ID. -/
def TTEntry.actor (e : TTEntry) : Nat := bitsOf e.w1 55 40
/-- R165: FBASE. -/
def TTEntry.fbase (e : TTEntry) : Nat := bitsOf e.w2 13 0
/-- R165: FDEPTH. -/
def TTEntry.fdepth (e : TTEntry) : Nat := bitsOf e.w2 23 14
/-- R165: word 3, COUNT, HEAD and SEQ as hardware maintains them. -/
def TTEntry.w3 (e : TTEntry) : Word := BitVec.ofNat 64 (e.q.length + e.head * 2 ^ 10 + (e.seq % 2 ^ 32) * 2 ^ 32)

/-- R174: a tile entry. -/
def LCore.tileOf (l : LCore) (t : Nat) : Tile := lookupD l.tiles t {}
/-- Replaces a tile entry. -/
def LCore.setTile (l : LCore) (t : Nat) (e : Tile) : LCore := { l with tiles := setKey l.tiles t e }
/-- R174: BASE. -/
def Tile.base (t : Tile) : Nat := bitsOf t.w0 13 0
/-- R174: SIZE; 0 is undefined. -/
def Tile.size (t : Tile) : Nat := bitsOf t.w0 28 14
/-- R174: STATE: 0 EMPTY, 1 FILLING, 2 READY, 3 DRAINING. -/
def Tile.state (t : Tile) : Nat := bitsOf t.w0 30 29
/-- R174: FMT. -/
def Tile.fmt (t : Tile) : Nat := bitsOf t.w0 33 31
/-- R174: KEEP. -/
def Tile.keep (t : Tile) : Bool := t.w0.getLsbD 34
/-- R175: a tile in another state. -/
def Tile.withState (t : Tile) (st : Nat) : Tile :=
  { t with w0 := (t.w0 &&& ~~~ 0x60000000#64) ||| (BitVec.ofNat 64 (st % 4) <<< 29) }
/-- R174: word 1, the counts. -/
def Tile.w1 (t : Tile) : Word := BitVec.ofNat 64 (t.sat + t.nan * 2 ^ 32)

/-- R349: a reduction group of a context. -/
def Ctx.redOf (c : Ctx) (g : Nat) : RedGroup := lookupD c.reds g {}

/-- R90: the standard settings. -/
def fmtReset (k : Nat) : Word :=
  match k with
  | 1 => 0x3A207AB8#64
  | 2 => 0x04300954#64
  | 3 => 0x0C100718#64
  | 4 => 0x04100314#64
  | _ => 0x1C283B98#64

/-- R88: the committed pair of a format register. -/
def LCore.fmtOf (l : LCore) (k : Nat) : Word × Word := lookupD l.fmt k (fmtReset k, 0)

/-- R64, R65: the FID of a firing. -/
def Firing.fid (x : Firing) : Word :=
  BitVec.ofNat 64 (x.seq % 2 ^ 32 + (x.actor % 2 ^ 16) * 2 ^ 32 + (x.gang % 8) * 2 ^ 48 + (x.home % 4096) * 2 ^ 51)

/-- R132: a context as an open chunk sees its table bases: those under which the chunk opened. -/
def Chunk.sees (k : Chunk) (c : Ctx) : Ctx :=
  match k.bases with
  | none => c
  | some b => { c with lawbase := b.1, objbase := b.2.1, trapsv := b.2.2 }

/-- R132: the context of a slot's firing with the bases of its chunk. -/
def State.ctxFor (s : State) (f : Slot) : Ctx := f.chunk.sees (s.ctxOf f.firing.ctx)

/-- The context of the firing in the focus slot. -/
def State.myCtx (s : State) : Ctx := s.ctxFor s.focus

/-- The logical core of the firing in the focus slot. -/
def State.myLc (s : State) : LCore := s.myCtx.lcOf s.focus.firing.lc

/-- The task-table entry of the firing in the focus slot. -/
def State.myEntry (s : State) : TTEntry := s.myLc.ttOf s.focus.firing.ch

/-- A firing of context 0 is privileged. -/
def Slot.priv (f : Slot) : Bool := decide (f.firing.ctx = 0)

/-! ### Stops inside an instruction -/

/-- R78: the cause codes. -/
inductive Cause where
  | illop
  | priv
  | misalign
  | bounds
  | rights
  | page
  | poison
  | sendrate
  | ordlen
  | rwfmt
  | nondet
  | nantrap
  | noverdict
  | digest
  | dualfail
  | nack
  | trap
  | brk
  deriving DecidableEq, Repr

/-- R78: the code of a cause. -/
def Cause.code : Cause → Nat
  | .illop => 1
  | .priv => 2
  | .misalign => 3
  | .bounds => 4
  | .rights => 5
  | .page => 6
  | .poison => 7
  | .sendrate => 8
  | .ordlen => 9
  | .rwfmt => 10
  | .nondet => 11
  | .nantrap => 12
  | .noverdict => 13
  | .digest => 14
  | .dualfail => 15
  | .nack => 16
  | .trap => 17
  | .brk => 18

/-- Why an instruction did not complete at this turn: an exception, a wait, or a translation the core TLB lacks. -/
inductive Stop where
  /-- a firing exception with its INFO words (R75, R77) -/
  | exc (c : Cause) (i0 i1 i2 : Word)
  /-- the slot parks with these places in its read set, and the instruction issues again when the wait is over -/
  | park (w : Wait) (reads : List Loc)
  /-- a core TLB miss of an address; the kind of access as R274 codes it -/
  | miss (va : Word) (acc : Nat)
  deriving DecidableEq, Repr

/-- A computation of an instruction that may stop. -/
abbrev Try (α : Type) := Except Stop α

/-- An exception with INFO0 only. -/
def excAt {α : Type} (c : Cause) (i0 : Word) : Try α := .error (.exc c i0 0 0)

/-- An exception with INFO0 and INFO1. -/
def exc2 {α : Type} (c : Cause) (i0 i1 : Word) : Try α := .error (.exc c i0 i1 0)

/-- Raises an exception where a condition holds. -/
def refuseIf (c : Bool) (x : Cause) (i0 i1 : Word) : Try Unit := if c then .error (.exc x i0 i1 0) else .ok ()

/-! ### Conflicts -/

/-- R182: adds a place to the read set. -/
def Slot.addRead (f : Slot) (l : Loc) : Slot := { f with chunk := { f.chunk with rset := addNew f.chunk.rset l } }

/-- R182: adds n bytes from a key to the read set. -/
def Slot.addReadBytes (f : Slot) (k : Nat) : Nat → Slot
  | 0 => f
  | n + 1 => (f.addRead (.byte k)).addReadBytes (k + 1) n

/-- R88, R124: a format register as the chunk sees it: its own latest held value, else the committed one. -/
def State.fmtSeen (s : State) (f : Slot) (k : Nat) : Word × Word :=
  match f.chunk.held.reverse.findSome? fun h => match h with
    | .fmt j x y => if j = k then some (x, y) else none
    | _ => none with
  | some p => p
  | none => (s.lcOf f.firing.ctx f.firing.lc).fmtOf k

/-- R234: word 0 of the entry that a tile descriptor defines: READY, or zero for SIZE = 0. -/
def tileDefWord (desc : Word) : Word :=
  if bitsOf desc 28 14 = 0 then 0 else (desc &&& 0x79FFFFFFF#64) ||| 0x40000000#64

/-- R234: INDEX of a tile descriptor. -/
def tileDefIndex (desc : Word) : Nat := bitsOf desc 40 35

/-- R234, R235: a tile entry under a chunk's held tile writes, oldest first. -/
def tileUnder (t : Nat) (e : Tile) : List Held → Tile
  | [] => e
  | .tileDef desc :: l => tileUnder t (if tileDefIndex desc = t then { e with w0 := tileDefWord desc } else e) l
  | .tileSt j st :: l => tileUnder t (if j = t then e.withState st else e) l
  | _ :: l => tileUnder t e l

/-- R182: a tile entry as the chunk sees it. -/
def State.tileSeen (s : State) (f : Slot) (t : Nat) : Tile :=
  tileUnder t ((s.lcOf f.firing.ctx f.firing.lc).tileOf t) f.chunk.held

/-- R182: holds an effect until the commit. -/
def Slot.hold (f : Slot) (h : Held) : Slot := 
  { f with chunk := { f.chunk with held := f.chunk.held ++ [h], tags := f.chunk.tags ++ [f.word] } }

/-- Whether two lists of places meet. -/
def meets (a b : List Loc) : Bool := a.any fun x => decide (x ∈ b)

/-- R184, R188, R232: the places were written by a commit or an apply: the chunks of the chosen slots that have read one
can no longer commit, and a slot that watches one restarts its chunk. -/
def Slot.touched (w : List Loc) (which : Slot → Bool) (f : Slot) : Slot :=
  if f.active then
    let f1 := if which f && meets f.chunk.rset w then { f with chunk := { f.chunk with doomed := true } } else f
    match f1.wait with
    | .watch set _ => if meets set w then { f1 with wait := .none } else f1
    | _ => f1
  else f

/-- R184, R188: the effect of writes on the uncommitted chunks of the chosen slots. -/
def State.touch (s : State) (w : List Loc) (which : Slot → Bool) : State := s.mapSlots (Slot.touched w which)

/-! ### Error records -/

/-- R414: sends an error record, stamped with both times. -/
def State.report (s : State) (r : MgmtRec) : State :=
  { s with
    mgmt := s.mgmt ++ [{ r with sec := Config.freeWord s.fresh &&& 0xFFFFFFFFFFFF#64
                                ns := Config.freeWord (s.fresh + 1) &&& 0xFFFFFFFF#64, tb := BitVec.ofNat 64 s.ticks }]
    fresh := s.fresh + 2 }

end Sys2Proof.Machine
end

