-- ==== Sys2Proof/Machine/Dram.lean ====
section
/-! DEFINITION. Device memory below M (R369 to R386): what the LLC holds, reading and writing units of DRAM under a granule
and a key, fills and write-backs, and every write to M. M is what an access finds; where the LLC lacks a sector an access
finds what DRAM decodes to, so it is filled first. -/

namespace Sys2Proof.Machine

/-! ### Frames and attributes (R369, R382) -/

/-- R369: an absent frame holds no data. -/
def frameAbsent (k : Nat) : Bool := decide (Config.stackGiB * 2 ^ 33 ≤ k) && decide (k < 2 ^ 39)

/-- R369: whether a key is a byte of installed DRAM. -/
def inDram (k : Nat) : Bool := decide (k < Config.stackGiB * 2 ^ 33)

/-- R389: a write to a line of a frame under migration marks the line again. -/
def Migration.mark (m : Migration) (keys : List Nat) : Migration :=
  if m.closed then m
  else { m with marked := keys.foldl (fun l k => if k / 2 ^ 16 = m.src then addNew l (k % 2 ^ 16 / 128) else l) m.marked }

/-- R389: marks the lines that a write meets. -/
def State.markLines (s : State) (keys : List Nat) : State :=
  if s.migs = [] then s else { s with migs := s.migs.map fun m => m.mark keys }

/-- R382: the attributes that a page of a second stage gives an access. -/
def pageAttr (ctx : Nat) (p : Stage2) : Attr := ⟨if p.shared then 0 else ctx, p.gran % 4, p.keyid⟩

/-- R382: the attributes under which the second stage maps a frame. -/
def State.mappedAttr (s : State) (frame : Nat) : Option Attr :=
  s.ctxs.findSome? fun c => (c.stage2.find? fun p => p.pa = frame).map (pageAttr c.id)

/-- R382, R389: the attributes of an access that names no translation of its own: those of the frame's mapping; a
destination frame under migration has NGRAN and KEYID, with the tag of its source (log entry 86). -/
def State.frameAttr (s : State) (frame : Nat) : Attr :=
  match s.mappedAttr frame with
  | some a => a
  | none => match s.migs.find? fun m => decide (m.dst = frame) with
    | some m => ⟨((s.mappedAttr m.src).map fun a => a.ctx).getD 0, m.ngran, m.keyid⟩
    | none => {}

/-! ### Lines of the LLC (R371) -/

/-- R371: the line of a number, whatever its tag. -/
def State.lineAt (s : State) (line : Nat) : Option LlcLine := s.llc.find? fun l => l.line = line

/-- R371: the bit of a sector in its line's masks. -/
def sectorBit (k : Nat) : Nat := 2 ^ (k % 128 / 32)

/-- R371: whether a line holds the sector of a byte valid. -/
def LlcLine.has (l : LlcLine) (k : Nat) : Bool := decide (l.line = k / 128) && l.valid.testBit (k % 128 / 32)

/-- R371: a lookup hits where the address and the context of a line match and the sector is valid. -/
def State.hits (s : State) (ctx k : Nat) : Bool := s.llc.any fun l => l.has k && decide (l.attr.ctx = ctx)

/-- R392: whether the home of a byte is offline. -/
def State.homeOff (s : State) (a : Attr) (k : Nat) : Bool := decide (homeSlice a.gran k ∈ s.offline)

/-- R371, R379: the sectors of a unit, by their first bytes. -/
def unitSectors (gran base : Nat) : List Nat := (List.range (granUnit gran / 32)).map fun i => base + 32 * i

/-- R371, R379: whether the LLC holds the sector of a byte valid, under whatever tag. -/
def State.validAt (s : State) (k : Nat) : Bool := s.llc.any fun l => l.has k

/-- R371, R379: whether the LLC holds every sector of a unit valid. -/
def State.holdsUnit (s : State) (a : Attr) (base : Nat) : Bool := (unitSectors a.gran base).all s.validAt

/-- R383: whether a byte lies in a poisoned unit. -/
def inPoison (l : List (Nat × Nat)) (k : Nat) : Bool := l.any fun u => decide (u.1 ≤ k) && decide (k < u.1 + u.2)

/-- R383, R384: a unit is poisoned; what engine writes covered of it before counts no more. -/
def State.poisonUnit (s : State) (base size : Nat) : State :=
  { s with poison := addNew s.poison (base, size)
           covered := s.covered.filter fun c => decide (c.2 < base) || decide (base + size ≤ c.2) }

/-- R383, R384: what lies from a base on, to a size, is poisoned no more, where a condition holds. -/
def State.unpoison (s : State) (c : Bool) (base size : Nat) : State :=
  if c = false ∨ s.poison = [] then s
  else { s with poison := s.poison.filter fun u => decide (u.1 + u.2 ≤ base) || decide (base + size ≤ u.1) }

/-! ### Units in DRAM (R375 to R377, R380, R383, R386) -/

/-- R405: the increment of a corrected error. -/
def incOne : Lane := 0x3F800000#32

/-- R381: a key slot. -/
def State.keySlot (s : State) (n : Nat) : KeySlot := lookupD s.keys n {}

/-- R386: the members of a unit whose pseudo-channels are retired. -/
def State.lostMembers (s : State) (gran base : Nat) : List Nat :=
  ((unitMembers gran base).zipIdx.filter fun p => decide ((.pc, p.1) ∈ s.retired)).map fun p => p.2

/-- R386: whether a unit has lost a member without which its code cannot be decoded. -/
def State.unitLost (s : State) (gran base : Nat) : Bool := decide (gran ≠ 3) && decide (s.lostMembers gran base ≠ [])

/-- R377: a burst as it is read: every beat with the errors that the read meets (free, log entry 16). -/
def Burst.read (b : Burst) (n : Nat) : Burst :=
  Vector.ofFn fun (k : Fin 8) => (b[k.val]'(k.isLt)) ^^^ Config.beatError (n + k.val)

/-- R377, R392, R414: a corrected codeword adds 1 to the score of each pseudo-channel that held a corrected symbol; where
management has enabled them each sends a record too. -/
def State.blame (s : State) (pcs : List Nat) : State :=
  pcs.foldl (fun s p =>
    let s1 : State := { s with blamed := s.blamed ++ [(.pc, p, incOne)] }
    if s.records then
      s1.report { kind := 1, sev := 0, ctx := 0, lcore := 0, unit := 7, num := p, payload := [] }
    else s1) s

/-- R377, R380: reads a unit from DRAM under a granule and a key: its plaintext; none where it is uncorrectable. A unit of
which no burst was ever written has the bytes of M, and no errors (log entry 15). -/
def State.getUnit (s : State) (a : Attr) (base : Nat) : State × Option (List Byte) :=
  let places := unitPlaces a.gran base
  let s := { s with bursts := s.bursts + (places.length - (s.lostMembers a.gran base).length) }
  if places.all fun p => !(s.dram.any fun d => d.1 = p) then
    (s, if s.unitLost a.gran base || inPoison s.poison base then none else some (cellReadList s.mem base (granUnit a.gran)))
  else
    let bursts := places.zipIdx.map fun p => Burst.read (lookupD s.dram p.1 (Vector.replicate 8 0)) (s.fresh + 8 * p.2)
    let d := decodeUnit a.gran (s.lostMembers a.gran base) bursts
    let s1 : State := { s with fresh := s.fresh + 8 * places.length }
    (s1.blame (d.2.map fun m => (unitMembers a.gran base).getD m 0),
      d.1.map fun l => (eachSector ((s.keySlot a.keyid).decrypt a.keyid) base l).map (BitVec.ofNat 8))

/-- R375, R376, R380, R383, R386: writes a unit to DRAM under a granule and a key, poisoned or not; a retired
pseudo-channel is left out. -/
def State.putUnit (s : State) (a : Attr) (base : Nat) (bytes : List Byte) (poison : Bool) : State :=
  let cipher := eachSector ((s.keySlot a.keyid).encrypt a.keyid) base (bytes.map BitVec.toNat)
  let lost := s.lostMembers a.gran base
  let bursts := ((unitPlaces a.gran base).zip (encodeUnit a.gran cipher poison)).zipIdx.filter fun p => p.2 ∉ lost
  { s with dram := bursts.foldl (fun l p => setKey l p.1.1 p.1.2) s.dram, bursts := s.bursts + bursts.length }

/-- R383, R386: whether a codeword of a unit is stored with the poison mark, apart from the members whose pseudo-channels are
retired. -/
def State.storedPoison (s : State) (gran base : Nat) : Bool :=
  let places := unitPlaces gran base
  let lost := s.lostMembers gran base
  let bursts := places.map fun p => lookupD s.dram p (Vector.replicate 8 0)
  (places.zipIdx.all fun p => decide (p.2 ∈ lost) || s.dram.any fun d => d.1 = p.1) &&
    (List.range (granWords gran)).any fun c => markedPoisoned gran (erasedIn gran c lost) (wordOf gran c bursts)

/-- R392: a unit that a read finds uncorrectable is recorded, once. -/
def State.reportUnit (s : State) (a : Attr) (base : Nat) : State :=
  if inPoison s.poison base || s.storedPoison a.gran base then s
  else s.report { kind := 2, sev := 1, ctx := 0, lcore := 0, unit := 7, num := (unitMembers a.gran base).headD 0
                  payload := leBytes 8 base ++ leBytes 8 a.gran }

/-- R383, R392: a unit that a read found uncorrectable is recorded and poisoned. -/
def State.foundBad (s : State) (a : Attr) (base : Nat) : State :=
  if (base, granUnit a.gran) ∈ s.poison then s else (s.reportUnit a base).poisonUnit base (granUnit a.gran)

/-- R374: the granule of a unit's size. -/
def granOfSize (size : Nat) : Nat := if size = 32 then 0 else if size = 64 then 1 else if size = 128 then 2 else 3

/-- R383: whether the poison of a unit is still marked: in the tag of a line of the LLC that holds some of it, or in DRAM; a word
of a scratchpad keeps its own (R162). -/
def State.marksPoison (s : State) (u : Nat × Nat) : Bool :=
  !inDram u.1 || (unitSectors (granOfSize u.2) u.1).any s.validAt || s.storedPoison (granOfSize u.2) u.1

/-- R383: lines have left the LLC, and with them the poison that only their tags marked. -/
def State.dropTags (s : State) : State :=
  if s.poison = [] then s else { s with poison := s.poison.filter s.marksPoison }

/-! ### Write-backs and evictions (R371, R379) -/

/-- The sectors of a unit are no longer dirty. -/
def State.clean (s : State) (gran base : Nat) : State :=
  { s with llc := s.llc.map fun l =>
    { l with dirty := (unitSectors gran base).foldl (fun n k => if k / 128 = l.line ∧ n.testBit (k % 128 / 32) = true then
        n - sectorBit k else n) l.dirty } }

/-- R379: a unit's bytes as a write-back finds them: the valid sectors of the LLC over what DRAM holds. -/
def State.merged (s : State) (a : Attr) (base : Nat) (old : List Byte) : List Byte :=
  ((unitSectors a.gran base).zipIdx.map fun p =>
    if s.validAt p.1 then cellReadList s.mem p.1 32 else (old.drop (32 * p.2)).take 32).flatten

/-- R379, R383, R386: writes a unit back: as it is where the LLC holds it whole, else by a read-modify-write; an uncorrectable
read, or a lost member, leaves the unit in DRAM poisoned. -/
def State.writeBackUnit (s : State) (a : Attr) (base : Nat) : State :=
  let bad := inPoison s.poison base
  if s.holdsUnit a base || s.unitLost a.gran base then
    (s.putUnit a base (cellReadList s.mem base (granUnit a.gran)) (bad || s.unitLost a.gran base)).clean a.gran base
  else
    let r := s.getUnit a base
    match r.2 with
    | some old => (r.1.putUnit a base (r.1.merged a base old) bad).clean a.gran base
    | none => ((r.1.foundBad a base).putUnit a base (cellReadList s.mem base (granUnit a.gran)) true).clean a.gran base

/-- R374, R379: the units that lie in a line, or the one that the line lies in, by their first bytes. -/
def unitsOfLine (gran line : Nat) : List Nat :=
  (List.range (max 1 (128 / granUnit gran))).map fun i => unitBase gran (128 * line + granUnit gran * i)

/-- Whether a line of the LLC holds a sector of a unit dirty. -/
def State.unitDirty (s : State) (gran base : Nat) : Bool :=
  s.llc.any fun l => (unitSectors gran base).any fun k => decide (l.line = k / 128) && l.dirty.testBit (k % 128 / 32)

/-- R379: a line's dirty units are written back. -/
def State.flushLine (s : State) (l : LlcLine) : State :=
  (unitsOfLine l.attr.gran l.line).foldl (fun s b => if s.unitDirty l.attr.gran b then s.writeBackUnit l.attr b else s) s

/-- R371, R379: a line leaves the LLC, written back where it is dirty. -/
def State.evict (s : State) (l : LlcLine) : State :=
  let s1 := s.flushLine l
  ({ s1 with llc := s1.llc.filter fun x => x.line ≠ l.line } : State).dropTags

/-- R371: a line of the same address under another context's tag leaves before a miss is served. -/
def State.evictOther (s : State) (ctx line : Nat) : State :=
  match s.lineAt line with
  | some l => if l.attr.ctx = ctx then s else s.evict l
  | none => s

/-- R371: the lines that compete with a line for the 16 ways of its set, newest first; a slice has 2^15 sets and a line's
number modulo that picks its set (log entry 86). -/
def State.wayLines (s : State) (a : Attr) (line : Nat) : List LlcLine :=
  s.llc.filter fun l => decide (l.line % 2 ^ 15 = line % 2 ^ 15)
    && decide (homeSlice l.attr.gran (128 * l.line) = homeSlice a.gran (128 * line))

/-- R371: makes room for a line: where the 16 ways of its set are full the oldest line leaves. -/
def State.makeRoom (s : State) (a : Attr) (line : Nat) : State :=
  let w := s.wayLines a line
  if w.length < 16 then s
  else match w.getLast? with
    | some l => s.evict l
    | none => s

/-- R371: sectors of a line become valid, and dirty where they are written; a new line is tagged by its access. -/
def State.allocate (s : State) (a : Attr) (line valid dirty : Nat) : State :=
  match s.lineAt line with
  | some _ => { s with llc := s.llc.map fun l =>
      if l.line = line then { l with valid := l.valid ||| valid, dirty := l.dirty ||| dirty } else l }
  | none =>
    let s1 := s.makeRoom a line
    { s1 with llc := ⟨line, a, valid, dirty⟩ :: s1.llc }

/-! ### Fills (R371, R379) -/

/-- R371: the attributes that a fill uses: those that the line of the byte recorded, where the LLC has it. -/
def State.recorded (s : State) (a : Attr) (k : Nat) : Attr :=
  match s.lineAt (k / 128) with
  | some l => if l.attr.ctx = a.ctx then l.attr else a
  | none => a

/-- R379: the bytes of a unit that the LLC lacks take what DRAM decodes to. -/
def State.takeUnit (s : State) (a : Attr) (base : Nat) (l : List Byte) : State :=
  { s with mem := (unitSectors a.gran base).zipIdx.foldl (fun m p =>
      if s.validAt p.1 then m else cellWriteList m p.1 ((l.drop (32 * p.2)).take 32)) s.mem }

/-- R371, R379, R383: the read miss on a byte: lines of other contexts leave, the unit is read from DRAM, what the LLC lacks of it
takes the value read, and every sector of it becomes valid; where the LLC had none of it, it is poisoned as the read found it.
A slice that is offline holds nothing (R392). -/
def State.fill (s : State) (a0 : Attr) (k : Nat) : State :=
  if !inDram k then s
  else
    let a := s.recorded a0 k
    let base := unitBase a.gran k
    let lines := ((unitSectors a.gran base).map (· / 128)).foldl addNew []
    let s1 := lines.foldl (fun s n => s.evictOther a.ctx n) s
    let r := s1.getUnit a base
    let s2 := match r.2 with
      | some l => r.1.takeUnit a base l
      | none => r.1
    let s3 := if s.homeOff a k then s2
      else (unitSectors a.gran base).foldl (fun s q => s.allocate a (q / 128) (sectorBit q) 0) s2
    match r.2 with
    | some _ => s3.unpoison ((unitSectors a.gran base).all fun q => !s1.validAt q) base (granUnit a.gran)
    | none => s3.foundBad a base

/-- R371, R379: fills the sectors of bytes that an access reads and the LLC lacks. -/
def State.fillMissing (s : State) (attr : Nat → Attr) (keys : List Nat) : State :=
  keys.foldl (fun s k => if !inDram k || s.hits (attr k).ctx k then s else s.fill (attr k) k) s

/-! ### Energy (R408), in units of 10 pJ -/

/-- R408: charges a context and the grant of a cluster. -/
def State.charge (s : State) (ctx cluster n : Nat) : State :=
  if n = 0 then s
  else
  let c := s.ctxOf ctx
  let k := s.clusterOf cluster
  (s.setCtx { c with energy := c.energy + n }).setCluster { k with remainder := k.remainder - n }

/-- R408: the charge of an access to a line of the LLC. -/
def llcCharge : Nat := 100

/-- R408: the charge of a burst. -/
def burstCharge : Nat := 45

/-- R408: the bursts moved since an earlier state are charged to the access that moved them. -/
def State.chargeBursts (t s : State) (ctx cluster : Nat) : State :=
  t.charge ctx cluster (burstCharge * (t.bursts - s.bursts))

/-- R408: the lines of device memory that bytes lie in. -/
def linesOf (keys : List Nat) : Nat := ((keys.filter inDram).foldl (fun t k => addNew t (k / 128)) []).length

/-! ### Writes to M (R184, R188, R369, R379, R384) -/

/-- R379: a byte in a list of sectors with the masks of their bytes written. -/
def addMask (l : List (Nat × Nat)) (k : Nat) : List (Nat × Nat) :=
  match l with
  | [] => [(k / 32, 2 ^ (k % 32))]
  | x :: t =>
    if x.1 = k / 32 then (x.1, x.2 ||| 2 ^ (k % 32)) :: t
    else if t.any fun y => y.1 = k / 32 then x :: addMask t k
    else (k / 32, 2 ^ (k % 32)) :: l

/-- R379: the sectors of DRAM that a write meets, by their first bytes, and whether it covers them whole. -/
def writtenSectors (keys : List Nat) : List (Nat × Bool) :=
  ((keys.filter inDram).foldl addMask []).reverse.map fun x => (32 * x.1, decide (x.2 = 2 ^ 32 - 1))

/-- R379: before a write, lines of other contexts leave, and a unit of which it writes part of a sector that the LLC lacks is
filled. -/
def State.beforeWrite (s : State) (attr : Nat → Attr) (keys : List Nat) : State :=
  (writtenSectors keys).foldl (fun s q =>
    let a := attr q.1
    let s1 := s.evictOther a.ctx (q.1 / 128)
    if q.2 || s1.hits a.ctx q.1 then s1 else s1.fill a q.1) s

/-- R392: a write to a unit whose home is offline goes to DRAM at once. -/
def State.writeThrough (s : State) (a : Attr) (base : Nat) (keys : List Nat) : State :=
  let r := s.getUnit a base
  let now := cellReadList s.mem base (granUnit a.gran)
  let all := (List.range (granUnit a.gran)).all fun i => decide (base + i ∈ keys)
  match r.2 with
  | some old => r.1.putUnit a base ((List.range (granUnit a.gran)).map fun i =>
      if base + i ∈ keys then now.getD i 0 else old.getD i 0) (inPoison s.poison base)
  | none => if all then s.putUnit a base now (inPoison s.poison base) else (r.1.foundBad a base).putUnit a base now true

/-- R371, R379: after a write its sectors are valid and dirty. -/
def State.afterWrite (s : State) (attr : Nat → Attr) (keys : List Nat) : State :=
  (writtenSectors keys).foldl (fun s q =>
    let a := s.recorded (attr q.1) q.1
    if s.homeOff a q.1 then s.writeThrough a (unitBase a.gran q.1) keys
    else s.allocate a (q.1 / 128) (sectorBit q.1) (sectorBit q.1)) s

/-- R369, R379, R384: writes cells to M. A write that covers every byte of a poisoned unit ends its poison (R162), and one to
an absent frame is discarded. -/
def State.writeMem (s0 : State) (attr : Nat → Attr) (all : List Host.Cell) : State :=
  let cells := all.filter fun c => !frameAbsent c.1
  let keys := cells.map fun c => c.1
  let s := s0.beforeWrite attr keys
  ({ s with
      mem := cellWriteAll s.mem cells
      poison := s.poison.filter fun u => !((List.range u.2).all fun i => cells.any fun c => c.1 = u.1 + i) } : State).afterWrite
    attr keys

/-- R184, R188: writes cells to M as one entry of the commit log; lines of a frame under migration are marked (R389). -/
def State.logWrite (s0 : State) (attr : Nat → Attr) (all : List Host.Cell) : State :=
  let cells := all.filter fun c => !frameAbsent c.1
  let s := (s0.markLines (cells.map fun c => c.1)).writeMem attr all
  { s with log := { old := cells.map fun c => (c.1, cellRead s0.mem c.1) } :: s.log }

/-- The attributes of a write that the machine makes itself. -/
def State.ownAttr (s : State) (k : Nat) : Attr := s.frameAttr (k / 2 ^ 16)

/-- R371, R379, R408: a read of device memory that the machine makes itself: what the LLC lacks is filled, and the accesses and
bursts are charged. -/
def State.deviceRead (s : State) (ctx cluster : Nat) (keys : List Nat) : State :=
  ((s.fillMissing s.ownAttr keys).chargeBursts s ctx cluster).charge ctx cluster (llcCharge * linesOf keys)

/-- R188: one Apply step under the attributes of an access: writes bytes at a key, in the log, and dooms the chunks that read
them. -/
def State.applyWith (s : State) (attr : Nat → Attr) (k : Nat) (l : List Byte) : State :=
  let cells := (List.range l.length).map fun i => (k + i, l.getD i 0)
  (s.logWrite attr cells).touch (cells.map fun c => .byte c.1) fun _ => true

/-- R188: one Apply step by hardware. -/
def State.applyBytes (s : State) (k : Nat) (l : List Byte) : State := s.applyWith s.ownAttr k l

/-- R383, R384: a unit is written poisoned: where its home is offline, to DRAM at once; else its sectors stand poisoned in the LLC. -/
def State.poisonWrite (s : State) (a : Attr) (k : Nat) : State :=
  let base := unitBase a.gran k
  let n := granUnit a.gran
  ((s.poisonUnit base n).afterWrite (fun _ => a) ((List.range n).map (base + ·))).poisonUnit base n

end Sys2Proof.Machine
end

