-- ==== Sys2Proof/Machine/Tables.lean ====
section
/-! DEFINITION. The tables that device firmware keeps in memory M and the hardware's copies of them (R382, R393, R395, R405;
log entry 11): the context descriptors, the second stages and the suspicion scores. The hardware acts on its copies: what it
changes it writes to M, and what firmware writes to M it takes over. -/

namespace Sys2Proof.Machine

/-! ### Where the tables lie (log entry 11) -/

/-- R393: the key of a context's descriptor, at the foot of the firmware range (R369). -/
def descKey (n : Nat) : Nat := 2 ^ 39 + 128 * n

/-- R382: the key of the second-stage table of a context: a count, then 16-byte entries. -/
def stageKey (n : Nat) : Nat := 2 ^ 39 + 2 ^ 24 * (n + 1)

/-- R414: the UNIT code of a unit. -/
def unitCode : UnitKind → Nat
  | .core => 0
  | .tsc => 1
  | .matrix => 2
  | .copy => 3
  | .hurdle => 4
  | .router => 5
  | .llc => 6
  | .pc => 7
  | .port => 8

/-- The units that have a suspicion score, by their codes. -/
def unitKinds : List UnitKind := [.core, .tsc, .matrix, .copy, .hurdle, .router, .llc, .pc, .port]

/-- R405: the key of the ring word of a unit's score. -/
def scoreKey (u : UnitKind) (n : Nat) : Nat := 2 ^ 39 + 2 ^ 33 + 16 * (1024 * unitCode u + n)

/-! ### Descriptors (R393) -/

/-- R393: the 48 bytes of a descriptor that hold fields. -/
def Ctx.descBytes (c : Ctx) : List Byte :=
  leBytes 8 (c.state % 4 + (if c.hostOk then 4 else 0) + c.keyid % 1024 * 8)
    ++ leBytes 8 (c.svBase % 2 ^ 40 + c.svSize % 2 ^ 24 * 2 ^ 40) ++ leBytes 8 (c.inboxCap % 2 ^ 32)
    ++ leBytes 8 (c.root % 2 ^ 48) ++ leBytes 8 (c.dlBase % 2 ^ 56) ++ leBytes 8 (c.fpol % 2 ^ 48 + c.fpn % 2 ^ 16 * 2 ^ 48)

/-- R393: a context with the fields of a descriptor. -/
def Ctx.ofDesc (c : Ctx) (l : List Byte) : Ctx :=
  let w (i : Nat) : Nat := leNat ((l.drop (8 * i)).take 8)
  { c with
    state := natBits (w 0) 1 0
    hostOk := decide (natBits (w 0) 2 2 = 1)
    keyid := natBits (w 0) 12 3
    svBase := natBits (w 1) 39 16 * 2 ^ 16
    svSize := natBits (w 1) 63 40
    inboxCap := natBits (w 2) 31 0
    root := natBits (w 3) 47 11 * 2 ^ 11
    dlBase := natBits (w 4) 55 0
    fpol := natBits (w 5) 47 6 * 2 ^ 6
    fpn := natBits (w 5) 63 48 }

/-- Cells of bytes at rising keys. -/
def cellsAt (k : Nat) (l : List Byte) : List Host.Cell := l.zipIdx.map fun p => (k + p.2, p.1)

/-- R182, R393: the words of a descriptor, for the conflicts of other chunks. -/
def descLocs (n : Nat) : List Loc := .desc n :: (List.range 48).map fun i => .byte (descKey n + i)

/-- R393: a context whose descriptor the hardware has changed: M takes its image. -/
def State.putDesc (s : State) (c : Ctx) : State := (s.setCtx c).logWrite s.ownAttr (cellsAt (descKey c.id) c.descBytes)

/-- R184, R393: the same, for a change that is no part of a commit: chunks that read the descriptor are squashed. -/
def State.changeDesc (s : State) (c : Ctx) : State := (s.putDesc c).touch (descLocs c.id) fun _ => true

/-! ### The second stage (R382, R411) -/

/-- R382, log entry 11: the bytes of an entry of a second-stage table. -/
def Stage2.bytes (p : Stage2) : List Byte :=
  leBytes 8 (p.ia % 2 ^ 32 + p.pa % 2 ^ 24 * 2 ^ 32) ++ leBytes 8 (p.gran % 4 + (if p.cache then 4 else 0)
    + (if p.shared then 8 else 0) + (if p.mig then 16 else 0) + (if p.ro then 32 else 0) + p.keyid % 1024 * 64)

/-- R382, log entry 11: an entry of a second-stage table from its bytes. -/
def stage2OfBytes (l : List Byte) : Stage2 :=
  let a := leNat (l.take 8)
  let b := leNat ((l.drop 8).take 8)
  { ia := natBits a 31 0, pa := natBits a 55 32, gran := natBits b 1 0, cache := b.testBit 2, shared := b.testBit 3
    mig := b.testBit 4, ro := b.testBit 5, keyid := natBits b 15 6 }

/-- R382, log entry 11: the image of a second stage. -/
def Ctx.stageBytes (c : Ctx) : List Byte := leBytes 16 c.stage2.length ++ (c.stage2.map Stage2.bytes).flatten

/-- R382, log entry 11: the second stage that M holds for a context. -/
def stageOf (m : List Host.Cell) (n : Nat) : List Stage2 :=
  (List.range (cellNat m (stageKey n) 4 % 2 ^ 20)).map fun i => stage2OfBytes (cellReadList m (stageKey n + 16 * (i + 1)) 16)

/-- R411: firmware commits a second stage: M takes its image. -/
def State.putStage (s : State) (c : Ctx) : State :=
  let cells := cellsAt (stageKey c.id) c.stageBytes
  ((s.setCtx c).logWrite s.ownAttr cells).touch (cells.map fun x => .byte x.1) fun _ => true

/-! ### Scores (R239, R405) -/

/-- R239: the ring word of 16 bytes. -/
def RingWord.ofBytes (l : List Byte) : RingWord :=
  let n := leNat l
  { a := BitVec.ofNat 32 n, b := BitVec.ofNat 32 (n >>> 32), t := natBits n 111 64, law := natBits n 119 112
    arm := decide (natBits n 120 120 = 1), miss := decide (natBits n 121 121 = 1)
    back := decide (natBits n 122 122 = 1), sat := decide (natBits n 123 123 = 1)
    nanf := decide (natBits n 124 124 = 1), rsv := natBits n 127 125 }

/-- A bit of a word at a place. -/
def bitAt (c : Bool) (i : Nat) : Nat := if c then 2 ^ i else 0

/-- R239: the 16 bytes of a ring word. -/
def RingWord.bytes (w : RingWord) : List Byte :=
  leBytes 16 (w.a.toNat + w.b.toNat * 2 ^ 32 + (w.t % 2 ^ 48) * 2 ^ 64 + (w.law % 256) * 2 ^ 112 + bitAt w.arm 120
    + bitAt w.miss 121 + bitAt w.back 122 + bitAt w.sat 123 + bitAt w.nanf 124 + (w.rsv % 8) * 2 ^ 125)

/-- The units whose scores bytes of M hold. -/
def scoreUnits (keys : List Nat) : List (UnitKind × Nat) :=
  (keys.filterMap fun k =>
    let i := (k - scoreKey .core 0) / 16
    if k < scoreKey .core 0 then none else (unitKinds[i / 1024]?).map fun u => (u, i % 1024)).foldl addNew []

/-- Replaces a score. -/
def State.putScore (s : State) (u : UnitKind) (n : Nat) (x : RingWord) : State :=
  { s with scores := upsert (fun y => decide (y.1 = u) && decide (y.2.1 = n)) (u, n, x) s.scores }

/-! ### What firmware writes (R393, R405, R411) -/

/-- R393: whether some of n bytes from a key are among those written. -/
def keysMeet (keys : List Nat) (lo n : Nat) : Bool := keys.any fun k => decide (lo ≤ k) && decide (k < lo + n)

/-- R393, R411: a context as bytes that were written to M leave it. -/
def Ctx.refreshed (c : Ctx) (m : List Host.Cell) (keys : List Nat) : Ctx :=
  let c1 := if keysMeet keys (descKey c.id) 128 then c.ofDesc (cellReadList m (descKey c.id) 48) else c
  if keysMeet keys (stageKey c.id) (2 ^ 24) then { c1 with stage2 := stageOf m c.id } else c1

/-- R393: the contexts to whose descriptors bytes were written. -/
def descsMet (keys : List Nat) : List Nat := (List.range 256).filter fun n => keysMeet keys (descKey n) 128

/-- R393, R411: a context of which the hardware had no record yet: both its tables are taken over. -/
def State.meetCtx (s : State) (n : Nat) : State :=
  if s.ctxs.any fun c => c.id = n then s
  else { s with ctxs := s.ctxs ++ [{ id := n, stage2 := stageOf s.mem n : Ctx }.ofDesc (cellReadList s.mem (descKey n) 48)] }

/-- R393: the read-only fields of a descriptor, and its bytes 48 to 127, stay 0 in M. -/
def State.keepZeros (s : State) (n : Nat) : State :=
  let l := ((s.ctxs.find? fun c => c.id = n).getD { id := n }).descBytes ++ List.replicate 80 0
  if cellReadList s.mem (descKey n) 128 = l then s else s.logWrite s.ownAttr (cellsAt (descKey n) l)

/-- R393, R405, R411: the hardware takes over what a write to M changed in the tables of firmware. -/
def State.refresh (s : State) (keys : List Nat) : State :=
  if keys.all fun k => decide (k < 2 ^ 39) || !isDeviceKey k then s
  else
    let met := descsMet keys
    let s1 := met.foldl State.meetCtx { s with ctxs := s.ctxs.map fun c => c.refreshed s.mem keys }
    (scoreUnits keys).foldl (fun s u => s.putScore u.1 u.2 (RingWord.ofBytes (cellReadList s.mem (scoreKey u.1 u.2) 16)))
      (met.foldl State.keepZeros s1)

end Sys2Proof.Machine
end

