-- ==== Sys2Proof/Machine/Ops.lean ====
section
/-! DEFINITION. The named operations over memory that every meaning is built from: squash (R185), translations (R273 to
R277), access checks (R203), the chunk's view of memory (R182, R188), messages and records, exclusive commit (R196 to R200),
and taking an exception (R75 to R81) with the return from it (R80). -/

namespace Sys2Proof.Machine

/-! ### Squash and the next chunk -/

/-- R192, R195: what a slot waits for before its next chunk opens; none where the chunk is open. -/
def Slot.gate (f : Slot) : Wait := if f.opening then f.wait else .none

/-- R185, R232: everything the chunk held is gone, the checkpoint is restored, and the slot executes again from the chunk's
first instruction; a chunk that is not open yet goes on waiting for what opens it. -/
def Slot.restore (f : Slot) : Slot :=
  { f with
    chunk := {}
    reg := f.ckpt
    land := f.ckpt.landing
    glen := 0
    start := f.ckpt
    startChunk := {}
    wait := f.gate
    zeros := []
    hosts := []
    filled := [] }

/-- R185, R200: a squash, one more of those in a row. -/
def Slot.squash (f : Slot) : Slot := { f.restore with squashes := f.squashes + 1 }

/-- R274: the mailbox number of a slot. -/
def Slot.mbox (f : Slot) : Nat := 4 * clusterPos f.core + f.k

/-- R274: a squash cancels the slot's translation request; a TSC has no mailbox. -/
def State.cancelBox (s : State) (f : Slot) : State :=
  let c := s.clusterOf (clusterIdOf f.core)
  if f.core < 1024 ∧ c.boxes.any (fun b => b.1 = f.mbox) = true then
    s.setCluster { c with boxes := c.boxes.filter fun b => b.1 ≠ f.mbox }
  else s

/-- R181, R231: the next chunk of a slot opens, with the registers at that point as its checkpoint. -/
def Slot.openChunk (f : Slot) : Slot :=
  { f with chunk := {}, ckpt := f.reg, start := f.reg, startChunk := {}, glen := 0, squashes := 0, opening := false
           land := f.reg.landing, wait := .none, zeros := [], hosts := [], filled := [] }

/-- R122: the slot is freed. -/
def Slot.free (f : Slot) : Slot := { core := f.core, k := f.k }

/-! ### Translation -/

/-- R277: CTX of an entry. -/
def TlbEntry.ctx (e : TlbEntry) : Nat := bitsOf e.a 7 0
/-- R277: SZ of an entry: 1 is a 2 MiB page. -/
def TlbEntry.big (e : TlbEntry) : Bool := e.a.getLsbD 8
/-- R277: whether an entry covers a virtual address. -/
def TlbEntry.covers (e : TlbEntry) (va : Word) : Bool :=
  if e.big then decide (bitsOf e.a 46 21 = bitsOf va 46 21) else decide (bitsOf e.a 46 16 = bitsOf va 46 16)
/-- R277: the physical address an entry gives. -/
def TlbEntry.pa (e : TlbEntry) (va : Word) : Nat :=
  if e.big then bitsOf e.b 39 21 * 2 ^ 21 + bitsOf va 20 0 else bitsOf e.b 39 16 * 2 ^ 16 + bitsOf va 15 0
/-- R277: R. -/
def TlbEntry.r (e : TlbEntry) : Bool := e.b.getLsbD 0
/-- R277: W. -/
def TlbEntry.w (e : TlbEntry) : Bool := e.b.getLsbD 1
/-- R277: X. -/
def TlbEntry.x (e : TlbEntry) : Bool := e.b.getLsbD 2
/-- R277: GRAN. -/
def TlbEntry.gran (e : TlbEntry) : Nat := bitsOf e.b 6 5
/-- R277: SHARED. -/
def TlbEntry.shared (e : TlbEntry) : Bool := e.b.getLsbD 8
/-- R277: RO. -/
def TlbEntry.ro (e : TlbEntry) : Bool := e.b.getLsbD 10
/-- R277: KEYID. -/
def TlbEntry.keyid (e : TlbEntry) : Nat := bitsOf e.b 49 40

/-- The first entry of a TLB that translates an address of a context. -/
def tlbFind (t : List TlbEntry) (ctx : Nat) (va : Word) : Option TlbEntry :=
  t.find? fun e => e.ctx = ctx && e.covers va

/-- R273: whether two entries of one context overlap. -/
def TlbEntry.overlaps (e f : TlbEntry) : Bool :=
  decide (e.ctx = f.ctx) &&
    (if e.big || f.big then decide (bitsOf e.a 46 21 = bitsOf f.a 46 21) else decide (bitsOf e.a 46 16 = bitsOf f.a 46 16))

/-- R273, R277: installs an entry in a TLB of a capacity: it replaces every overlapping entry; a full TLB drops its
oldest entry (log entry 20). -/
def tlbInsert (cap : Nat) (t : List TlbEntry) (e : TlbEntry) : List TlbEntry :=
  (e :: t.filter fun x => !(x.overlaps e)).take cap

/-! ### Access checks (R163, R203, R427) -/

/-- R427: the regions of the virtual address space; bits [63:56] are checked first. -/
inductive Region where
  | device
  | host (off : Nat)
  | remote (n off : Nat)
  | own (w off : Nat)
  | nowhere
  deriving DecidableEq, Repr

/-- R427: the region of an address. -/
def regionOf (a : Word) : Region :=
  let x := a.toNat
  if x < 0x800000000000 then .device
  else if x < 0x80000000000000 then .nowhere
  else if x < 0xC0000000000000 then .host (x - 0x80000000000000)
  else if x < 0xFFFE0000000000 then .nowhere
  else if x < 0xFFFF0000000000 then .remote (natBits x 39 24) (natBits x 23 0)
  else if x < 0x100000000000000 then .own (natBits x 39 24) (natBits x 23 0)
  else .nowhere

/-- The kinds of access: a load, a store, a fetching atomic or ring operation, a posted atomic. -/
inductive AccOp where
  | load
  | store
  | amo
  | post
  deriving DecidableEq, Repr

/-- Where a checked access goes: bytes of M by key under the attributes of the access (R382; none matter in a scratchpad),
host memory, or an element of an alias window. -/
inductive Place where
  | cells (key : Nat) (attr : Attr)
  | hostMem (off : Nat)
  | window (w off : Nat)
  /-- the barrier debug mirror, at an offset in it (R270) -/
  | live (off : Nat)
  /-- a ZERO reply answered it (R280) -/
  | zero
  deriving DecidableEq, Repr

/-- R265: the owner in whose file a barrier of a logical core's number lies: its logical cluster for barriers 0 to 31;
the trees hold the others (R357), under 0. -/
def barOwner (lc id : Nat) : Nat := if id < 32 then lc / 8 else 0

/-- R269: a barrier. -/
def Ctx.barOf (c : Ctx) (owner id : Nat) : Barrier :=
  match c.bars.find? fun b => b.1 = (owner, id) with
  | some b => b.2
  | none => {}

/-- Replaces a barrier. -/
def Ctx.setBar (c : Ctx) (owner id : Nat) (b : Barrier) : Ctx :=
  { c with bars := upsert (fun x => x.1 = (owner, id)) ((owner, id), b) c.bars }

/-- R269: the state word of a barrier. -/
def Barrier.word (b : Barrier) : Word :=
  BitVec.ofNat 64 (b.part % 2 ^ 16 + (b.arr % 2 ^ 16) * 2 ^ 16 + (if b.phase then 2 ^ 32 else 0))

/-- R270: a byte of the barrier debug mirror; an undefined logical cluster reads as zero. -/
def Ctx.mirrorByte (c : Ctx) (off : Nat) : Byte :=
  let w := if off < 0x20000 then
      (if (List.range 8).any fun k => c.defines (8 * (off / 256) + k) then
        (c.barOf (off / 256) (off % 256 / 8)).word else 0)
    else (c.barOf 0 (32 + (off - 0x20000) / 8)).word
  BitVec.ofNat 8 (w.toNat >>> (8 * (off % 8)))

/-- R270: bytes of the barrier debug mirror. -/
def Ctx.mirrorBytes (c : Ctx) (off n : Nat) : List Byte := (List.range n).map fun i => c.mirrorByte (off + i)

/-- R176, R205: whether an address lies in the object table or the barrier mirror of a context. -/
def Ctx.inTables (c : Ctx) (a : Word) : Bool :=
  decide (c.objbase.toNat ≤ a.toNat) && decide (a.toNat < c.objbase.toNat + 0x420140)

/-- R389: the byte that an access to a physical address reaches: the destination's where the line was switched. -/
def State.home (s : State) (k : Nat) : Nat :=
  match s.migs.find? fun m => decide (m.src = k / 2 ^ 16) && decide (k % 2 ^ 16 / 128 ∈ m.switched) with
  | some m => m.dst * 2 ^ 16 + k % 2 ^ 16
  | none => k

/-- R277, R371, R382: the attributes of an access through an entry: the tag is the context, or 0 for a SHARED page. -/
def TlbEntry.attr (e : TlbEntry) : Attr := ⟨if e.shared then 0 else e.ctx, e.gran, e.keyid⟩

/-- R382, R389: the attributes of an access through an entry to an address: an access that a migration forwards has those of
its destination. -/
def State.attrOf (s : State) (e : TlbEntry) (va : Word) : Attr :=
  match s.migs.find? fun m => decide (m.src = e.pa va / 2 ^ 16) && decide (e.pa va % 2 ^ 16 / 128 ∈ m.switched) with
  | some m => ⟨e.attr.ctx, m.ngran, m.keyid⟩
  | none => e.attr

/-- R382, R389: the bytes of M that an access through an entry reaches. -/
def State.placeOf (s : State) (e : TlbEntry) (va : Word) : Place := .cells (s.home (e.pa va)) (s.attrOf e va)

/-- R203, R205: the device-memory part of ACCESS: the translation, then the rights, those of the object table and of the mirror
among them (DESIGN CHOICE, log entry 96). -/
def State.deviceAccess (s : State) (f : Slot) (a : Word) (op : AccOp) : Try Place :=
  let c := s.ctxFor f
  if a ∈ f.zeros then .ok .zero
  else
    match tlbFind (s.coreOf f.core).tlb f.firing.ctx a with
    | none => .error (.miss a (if op = .load then 0 else 1))
    | some e =>
      if op = .load then
        if !e.r then excAt .rights a
        else if c.inTables a = true ∧ c.objbase.toNat + 0x400000 ≤ a.toNat then
          .ok (.live (a.toNat - c.objbase.toNat - 0x400000))
        else .ok (s.placeOf e a)
      else if e.w && !e.ro && !c.inTables a then .ok (s.placeOf e a) else excAt .rights a

/-- R88, R163: the scratchpad part of ACCESS; the order is RIGHTS for the window, then BOUNDS (log entry 23). A window is
bounded by its format as the chunk sees it. -/
def State.scratchAccess (s : State) (f : Slot) (a : Word) (win : Bool) (r : Region) : Try Place :=
  match r with
  | .remote n off =>
    let l := s.lcOf f.firing.ctx n
    if n < 4096 ∧ l.valid ∧ off < l.lsz then .ok (.cells (scratchKey f.firing.ctx n off) {}) else excAt .bounds a
  | .own w off =>
    let l := s.lcOf f.firing.ctx f.firing.lc
    if w = 0 then
      if off < l.lsz then .ok (.cells (scratchKey f.firing.ctx f.firing.lc off) {}) else excAt .bounds a
    else if w ≤ 8 then
      if !win then excAt .rights a
      else
        let F := fmtOfWord (s.fmtSeen f (w - 1)).1
        if off < (if F.width = 4 then 8 else 4) * l.lsz then .ok (.window w off) else excAt .bounds a
    else excAt .rights a
  | _ => excAt .rights a

/-- R313: a register of a hurdle set at its reset value. -/
def hsReset (reg : Nat) : Word :=
  if reg = 0 then 0x10000100#64 else if 4 ≤ reg ∧ reg < 36 ∧ reg % 4 = 0 then 0x10000#64 else 0

/-- R311: the hurdle router of a logical cluster. -/
def Ctx.hurdle (c : Ctx) (lcl : Nat) : HRouter := lookupD c.hurdles lcl {}

/-- R313: a committed register of a hurdle set. -/
def HRouter.reg (h : HRouter) (set reg : Nat) : Word := lookupD h.regs (64 * set + reg) (hsReset reg)

/-- R324: the class of a stage firing's stage; none for another firing. -/
def State.stageClass (s : State) (x : Firing) : Option Nat :=
  x.stage.map fun t => bitsOf (((s.ctxOf x.ctx).hurdle t.1).reg t.2.1 (4 + 4 * t.2.2.1)) 9 8

/-- R324: whether the class of a stage firing refuses an access outside its own scratchpad. -/
def classRefuses (cls : Option Nat) (op : AccOp) : Bool :=
  match cls with
  | some 0 => decide (op ≠ .load)
  | some 1 => decide (op = .store) || decide (op = .amo)
  | _ => false

/-- R163: whether a region is the own scratchpad. -/
def Region.isOwn : Region → Bool
  | .own _ _ => true
  | _ => false

/-- R203: ACCESS. win says that the instruction may go through W1 to W8 (R163). -/
def State.access (s : State) (f : Slot) (a : Word) (size : Nat) (op : AccOp) (win : Bool) : Try Place :=
  let cls := s.stageClass f.firing
  if classRefuses cls op && !(regionOf a).isOwn then
    .error (.exc .rights a (BitVec.ofNat 64 (cls.getD 0 + 1)) 0)
  else
  match regionOf a with
  | .nowhere => excAt .rights a
  | .device => if a.toNat % size ≠ 0 then excAt .misalign a else s.deviceAccess f a op
  | .host off =>
    if a.toNat % size ≠ 0 then excAt .misalign a
    else if op = .amo ∨ op = .post then excAt .rights a
    else if op = .store ∨ a ∈ f.hosts then .ok (.hostMem off)
    else .error (.park (.host a) [])
  | .remote n off => if a.toNat % size ≠ 0 then excAt .misalign a else s.scratchAccess f a win (.remote n off)
  | .own w off => if a.toNat % size ≠ 0 then excAt .misalign a else s.scratchAccess f a win (.own w off)

/-! ### The first stage, walked by the device (R275, R382) -/

/-- R382: a page of the second stage of a context that holds an intermediate address. -/
def Ctx.stage2Of (c : Ctx) (ia : Nat) : Option Stage2 := c.stage2.find? fun p => p.ia = ia / 2 ^ 16

/-- R382: the physical address of an intermediate address. -/
def Ctx.paOf (c : Ctx) (ia : Nat) : Option Nat := (c.stage2Of ia).map fun p => p.pa * 2 ^ 16 + ia % 2 ^ 16

/-- R275: an 8-byte entry of a first-stage table at an intermediate address. -/
def State.tableEntry (s : State) (c : Ctx) (ia : Nat) : Option Nat := (c.paOf ia).map fun pa => cellNat s.mem (s.home pa) 8

/-- R275: whether an entry is well formed for its level (0 to 3). -/
def entryOk (level w : Nat) : Bool :=
  decide (w % 2 = 1) && decide (natBits w 6 5 ≠ 3) && decide (natBits w 11 7 = 0) &&
    (match level with
      | 0 => decide (natBits w 1 1 = 0)
      | 1 => decide (natBits w 1 1 = 0)
      | 2 => true
      | _ => decide (natBits w 1 1 = 1))

/-- R275: the index of a virtual address at a level. -/
def walkIndex (level va : Nat) : Nat :=
  match level with
  | 0 => natBits va 46 39
  | 1 => natBits va 38 30
  | 2 => natBits va 29 21
  | _ => natBits va 20 16

/-- R275: the walk from a level down; the result is the leaf entry and whether it maps 2 MiB. -/
def State.walkFrom (s : State) (c : Ctx) (va : Nat) : Nat → Nat → Nat → Option (Nat × Bool)
  | 0, _, _ => none
  | n + 1, level, table =>
    match s.tableEntry c (table + 8 * walkIndex level va) with
    | none => none
    | some w =>
      if !entryOk level w then none
      else if natBits w 1 1 = 1 then some (w, decide (level = 2))
      else s.walkFrom c va n (level + 1) (natBits w 47 12 * 2 ^ 12)

/-- R275: the alignment of a leaf's address: bits below the page are zero. -/
def leafAligned (w : Nat) (big : Bool) : Bool := decide ((natBits w 47 12 * 2 ^ 12) % (if big then 2 ^ 21 else 2 ^ 16) = 0)

/-- R275, R277, R382: the combined translation of a virtual address of a context, as the two images of TLB.WR; none is a
fault of the context. A 2 MiB leaf is installed as entries of 64 KiB (DESIGN CHOICE, log entry 115). -/
def State.walk (s : State) (ctx : Nat) (va : Word) : Option TlbEntry :=
  let c := s.ctxOf ctx
  let v := bitsOf va 46 0
  match (if bitsOf va 63 47 = 0 then s.walkFrom c v 4 0 c.root else none) with
  | none => none
  | some (w, big) =>
    if !leafAligned w big then none
    else
      match c.stage2Of (natBits w 47 12 * 2 ^ 12 + (if big then natBits v 20 16 * 2 ^ 16 else 0)) with
      | none => none
      | some p =>
        let attrs := natBits w 4 2 + natBits w 6 5 * 2 ^ 3 + (p.gran % 4) * 2 ^ 5 + (if p.cache then 2 ^ 7 else 0)
          + (if p.shared then 2 ^ 8 else 0) + (if p.mig then 2 ^ 9 else 0) + (if p.ro then 2 ^ 10 else 0)
        some { a := BitVec.ofNat 64 (ctx % 256 + (v / 2 ^ 16) * 2 ^ 16)
               b := BitVec.ofNat 64 (attrs + (p.pa % 2 ^ 24) * 2 ^ 16 + (p.keyid % 1024) * 2 ^ 40) }

/-! ### The chunk's view of memory (R182, R188) -/

/-- R188: the log position, newest being the length of the log, just after the last commit or apply to a byte. -/
def lastWritePos (log : List LogEntry) (k : Nat) : Nat :=
  match log with
  | [] => 0
  | e :: t => if e.old.any (fun c => c.1 = k) then t.length + 1 else lastWritePos t k

/-- R188: a byte as a core of a cluster reads it: the newest pending write of the cluster where it is later than every
commit and apply to the byte, else M. -/
def State.committedByte (s : State) (cluster k : Nat) : Byte :=
  match s.pend.find? fun p => p.cluster = cluster && p.key = k with
  | some p => if lastWritePos s.log k ≤ p.pos then p.val else cellRead s.mem k
  | none => cellRead s.mem k

/-- R241: the address of a law entry of a context. -/
def Ctx.lawAddr (c : Ctx) (i : Nat) : Word := c.lawbase + BitVec.ofNat 64 (32 * i)

/-- R184, R259: the byte that a held LAW.WR gives a place of M: the image replaces the entry at the commit, after the
write buffer's bytes. -/
def State.heldLawByte (s : State) (f : Slot) (k : Nat) : Option Byte :=
  f.chunk.held.reverse.findSome? fun h => match h with
    | .lawWr i img => (s.walk f.firing.ctx ((s.ctxFor f).lawAddr i)).bind fun e =>
        let b := s.home (e.pa ((s.ctxFor f).lawAddr i))
        if b ≤ k ∧ k < b + 32 then some (img.getD (k - b) 0) else none
    | _ => none

/-- R182, R208, R259: a byte that the chunk itself has written or holds. -/
def State.ownByte (s : State) (f : Slot) (k : Nat) : Option Byte := (s.heldLawByte f k).orElse fun _ => bufRead f.chunk.wbuf k

/-- R182: a byte as the chunk of a slot sees it. -/
def State.seenByte (s : State) (f : Slot) (k : Nat) : Byte :=
  match s.ownByte f k with
  | some b => b
  | none => s.committedByte (clusterIdOf f.core) k

/-- R182: n bytes as the chunk sees them. -/
def State.seenBytes (s : State) (f : Slot) : Nat → Nat → List Byte
  | _, 0 => []
  | k, n + 1 => s.seenByte f k :: s.seenBytes f (k + 1) n

/-- R162, R369, R383: whether a byte the chunk has not written is poisoned. -/
def State.poisoned (s : State) (f : Slot) (k : Nat) : Bool :=
  (s.ownByte f k).isNone && (inPoison s.poison k || frameAbsent k)

/-- R203: whether any of n bytes is poisoned. -/
def State.anyPoison (s : State) (f : Slot) (k n : Nat) : Bool := (List.range n).any fun i => s.poisoned f (k + i)

/-- R371, R379: the first of n bytes that a read must fill first: its sector is one of DRAM that the LLC lacks, the chunk
has not written the byte, and it was not read for this instruction already. -/
def State.lacks (s : State) (f : Slot) (at' : Attr) (k n : Nat) : Option Nat :=
  ((List.range n).map (k + ·)).find? fun i =>
    inDram i && (s.ownByte f i).isNone && !s.hits at'.ctx i && decide (i / 32 ∉ f.filled)

/-- R182, R408: n bytes are read: they enter the read set, and the lines of device memory they lie in count. -/
def Slot.readBytes (f : Slot) (k n : Nat) : Slot :=
  { f.addReadBytes k n with lines := f.lines + if inDram k then (k + n - 1) / 128 - k / 128 + 1 else 0 }

/-- R182, R203, R379: a load of n bytes of M by key: poison is raised at the address, what the LLC lacks is filled, and the
bytes enter the read set. -/
def State.readKey (s : State) (f : Slot) (a : Word) (k : Nat) (at' : Attr) (n : Nat) : Try (Slot × List Byte) :=
  if s.anyPoison f k n then excAt .poison a
  else match s.lacks f at' k n with
    | some i => .error (.park (.fill i at') [])
    | none => .ok (f.readBytes k n, s.seenBytes f k n)

/-- R382: a chunk notes the attributes under which it writes to a frame of DRAM. -/
def Slot.noteAttr (f : Slot) (k : Nat) (at' : Attr) : Slot :=
  if inDram k then { f with chunk := { f.chunk with attrs := setKey f.chunk.attrs (k / 2 ^ 16) at' } } else f

/-- R382: the attributes of a chunk's write to a byte: those of its latest access to the frame. -/
def State.chunkAttr (s : State) (f : Slot) (k : Nat) : Attr := lookupD f.chunk.attrs (k / 2 ^ 16) (s.ownAttr k)

/-- R182, R382: a store of bytes to M by key, in the write buffer. -/
def Slot.store (f : Slot) (k : Nat) (at' : Attr) (l : List Byte) : Slot :=
  let g := f.noteAttr k at'
  { g with chunk := { g.chunk with wbuf := bufWriteList f.chunk.wbuf k l } }

/-- R206: a load of n bytes at an address, not through a window. -/
def State.loadBytes (s : State) (f : Slot) (a : Word) (n size : Nat) (op : AccOp) : Try (Slot × List Byte) := do
  match ← s.access f a size op false with
  | .cells k at' => s.readKey f a k at' n
  | .hostMem off => .ok (f, cellReadList s.host (f.firing.ctx * 2 ^ 55 + off) n)
  | .live off => .ok (f, (s.ctxOf f.firing.ctx).mirrorBytes off n)
  | _ => .ok (f, List.replicate n 0)

/-- R206, R208: a store of bytes at an address, not through a window. -/
def State.storeBytes (s : State) (f : Slot) (a : Word) (l : List Byte) (size : Nat) (op : AccOp) : Try Slot := do
  match ← s.access f a size op false with
  | .cells k at' => .ok (f.store k at' l)
  | .hostMem _ => .ok (f.hold (.hostStore a l))
  | _ => .ok f

/-! ### Messages and records -/

/-- R168: header bytes 0 to 7 of a message. -/
def Msg.hdr (m : Msg) : Word :=
  BitVec.ofNat 64 (m.dst % 4096 + (m.ch % 64) * 2 ^ 12 + (m.payload.length % 128) * 2 ^ 18
    + (if m.ord then 2 ^ 25 else 0) + (m.wfmt % 16) * 2 ^ 26 + (m.ctx % 256) * 2 ^ 30
    + (if m.host then 2 ^ 56 else (m.src % 4096) * 2 ^ 38 + (m.spkg % 64) * 2 ^ 50))

/-- A message the device builds for a context, with no sending firing. -/
def deviceMsg (ctx dst ch : Nat) (payload : List Byte) (box : Outbox) (kind : MsgKind) : Msg :=
  { ctx := ctx, dst := dst, ch := ch, pkg := Config.ownPackage.val, src := dst, spkg := Config.ownPackage.val
    host := false, ord := false, wfmt := 0, ts := 0, seq := 0, payload := payload, fid := 0, fts := 0, fch := 0
    box := box, kind := kind, entry := 0, tag := 0, tries := 0 }

/-- Places a message at the end of the released messages. -/
def State.post (s : State) (m : Msg) : State := { s with net := s.net ++ [m] }

/-- R77: the payload of a trap record. -/
def trapRecord (fid pc : Word) (c : Cause) (ch : Nat) (wait : Bool) (lc : Nat) (csa fts i0 i1 i2 : Word) : List Byte :=
  leBytes 8 fid.toNat ++ leBytes 8 pc.toNat
    ++ leBytes 8 (c.code + (ch % 64) * 2 ^ 8 + (if wait then 2 ^ 15 else 0) + (lc % 4096) * 2 ^ 16)
    ++ leBytes 8 csa.toNat ++ leBytes 8 fts.toNat ++ leBytes 8 i0.toNat ++ leBytes 8 i1.toNat ++ leBytes 8 i2.toNat

/-- R81, R132: whether the committed TRAPCH names no actor. -/
def Ctx.trapNamesNone (c : Ctx) : Bool :=
  let l := c.lcOf (bitsOf c.trapch 11 0)
  let e := l.ttOf (bitsOf c.trapch 17 12)
  !c.trapch.getLsbD 31 || !l.valid || e.off || e.ord

/-- R359: what a core records at a gang stop: its CYCLE and its messages of the context sent and received. -/
def Ctx.stopRecord (c : Ctx) (p cycle born : Nat) : Nat × Nat × Nat :=
  let l := c.lcores.filter fun l => l.valid && decide (l.pcore = p)
  (cycle - born, l.foldl (fun n x => n + x.sent) 0, l.foldl (fun n x => n + x.recv) 0)

/-- R359: a core records its counts where it hosts the context. -/
def CoreSt.recordStop (x : CoreSt) (c : Ctx) (cycle : Nat) : CoreSt :=
  if c.lcores.any fun l => l.valid && decide (l.pcore = x.id) then
    { x with stopRec := some (c.stopRecord x.id cycle x.born) }
  else x

/-- R359: gang stop: every slot of the partition halts at its next issue boundary, and engines and routers stop; STATE
becomes HALTED, and each halted core records its counts. -/
def State.gangStop (s : State) (ctx : Nat) : State :=
  let c := s.ctxOf ctx
  let hosts := (c.lcores.filter fun l => l.valid).map fun l => l.pcore
  let s1 := hosts.foldl (fun s p => s.setCore ((s.coreOf p).recordStop c s.cycle)) s
  s1.changeDesc { s1.ctxOf ctx with halted := true, state := 3 }

/-- R81, R414: a record that cannot reach the trap actor goes to the management controller; with WAIT = 1 the
partition stops. -/
def State.recordToMgmt (s : State) (ctx lc : Nat) (wait : Bool) (unit num : Nat) (payload : List Byte) : State :=
  let s1 := if wait then s.gangStop ctx else s
  s1.report { kind := 7, sev := 1, ctx := ctx, lcore := lc, unit := unit, num := num, payload := payload.take 24 }

/-- R75, R81: sends a record through an outbox to the trap actor that TRAPCH names now, or to management. -/
def State.sendRecordFrom (s : State) (box : Outbox) (ctx lc : Nat) (wait toMgmt : Bool) (unit num : Nat)
    (payload : List Byte) : State :=
  let c := s.ctxOf ctx
  if toMgmt || c.trapNamesNone then s.recordToMgmt ctx lc wait unit num payload
  else
    s.post { deviceMsg ctx (bitsOf c.trapch 11 0) (bitsOf c.trapch 17 12) payload box (.trap wait unit num) with src := lc }

/-- R75, R81, R186: sends a record of a logical core, through an outbox of its own (DESIGN CHOICE, log entry 111). -/
def State.sendRecord (s : State) (ctx lc : Nat) (wait toMgmt : Bool) (unit num : Nat) (payload : List Byte) : State :=
  s.sendRecordFrom (.traps ctx lc) ctx lc wait toMgmt unit num payload

/-- R179, R225: a NACK record for a refused message, to the sender context's trap actor; that of a message from another
package is sent there (log entry 13). -/
def State.sendNack (s : State) (m : Msg) (info1 : Nat) (unit num : Nat) : State :=
  match m.kind with
  | .trap wait u n => s.recordToMgmt m.ctx m.src wait u n m.payload
  | _ =>
    if !m.host && decide (m.spkg ≠ Config.ownPackage.val) then s
    else s.sendRecord m.ctx (if m.host then 0 else m.src) false false unit num
      (trapRecord m.fid 0 .nack m.fch false (if m.host then 0 else m.src) 0 m.fts m.hdr (BitVec.ofNat 64 info1) 0)

/-! ### Slots, keys and exclusive commit (R65, R196 to R198, R200) -/

/-- Whether a slot in use is slot k of a core. -/
def Slot.at (f : Slot) (core k : Nat) : Bool := f.active && decide (f.core = core) && decide (f.k = k)

/-- The slot k of a core, where it is in use. -/
def State.slotAt (s : State) (core k : Nat) : Option Slot := s.slots.find? fun f => f.at core k

/-- R65: whether two firings are one (a gang member's logical core is its own; a shadow's copy is the same firing). -/
def Firing.same (x y : Firing) : Bool :=
  decide (x.ctx = y.ctx) && decide (x.lc = y.lc) && decide (x.ch = y.ch) && decide (x.seq = y.seq)

/-- R196: the order of keys. -/
def Key.lt (a b : Key) : Bool :=
  if a.ts ≠ b.ts then decide (a.ts.toNat < b.ts.toNat)
  else if a.host ≠ b.host then !a.host
  else if a.spkg ≠ b.spkg then decide (a.spkg < b.spkg)
  else if a.src ≠ b.src then decide (a.src < b.src)
  else decide (a.seq < b.seq)

/-- R196: the key of an ordered message. -/
def Msg.key (m : Msg) : Key := ⟨m.ts, m.host, m.spkg, m.src, m.seq⟩

/-- R197: the outstanding keys of a context. -/
def State.keys' (s : State) (ctx : Nat) : List Key :=
  let c := s.ctxOf ctx
  let own (x : Firing) : Option Key := if x.ctx = ctx ∧ x.ordered = true ∧ x.copy = 0 then some x.key else none
  let msg (m : Msg) : Option Key := if m.ctx = ctx ∧ m.ord = true then some m.key else none
  (s.slots.filterMap fun f => if f.active then own f.firing else none) ++ s.ready.filterMap own
    ++ (s.susp.filterMap fun x => own x.firing) ++ s.net.filterMap msg ++ c.inbox.filterMap msg
    ++ (c.lcores.map fun l => (l.tt.map fun e =>
        if e.2.ord then e.2.q.filterMap fun q => if q.st = .queued then msg q.msg else none else []).flatten).flatten

/-- The smaller of two keys. -/
def Key.min (a b : Key) : Key := if b.lt a then b else a

/-- R197: MINKEY; none where nothing is outstanding. -/
def State.minKey (s : State) (ctx : Nat) : Option Key :=
  match s.keys' ctx with
  | [] => none
  | k :: l => some (l.foldl Key.min k)

/-- R198: whether a firing's key is MINKEY. -/
def State.atMin (s : State) (x : Firing) : Bool := decide (s.minKey x.ctx = some x.key)

/-- R200: the slot that holds exclusive commit; an ordered chunk holds it only while its key equals MINKEY. -/
def State.exclHolder (s : State) : Option Slot :=
  match s.excl with
  | none => none
  | some p => match s.slotAt p.1 p.2 with
    | none => none
    | some f => if f.firing.ordered && !s.atMin f.firing then none else some f

/-- R354: the other copy of a dual firing. -/
def State.partner (s : State) (f : Slot) : Option Slot :=
  if f.firing.dual then s.slots.find? fun g => g.active && g.firing.same f.firing && decide (g.firing.copy ≠ f.firing.copy)
  else none

/-- R200, R354: what a chunk has read, with what the chunk of its other copy has. -/
def State.readsWith (s : State) (f : Slot) : List Loc :=
  f.chunk.rset ++ ((s.partner f).map fun g => g.chunk.rset).getD []

/-- R200: whether a write to these words must wait for a chunk that holds exclusive commit: one of another slot than the
writer's, whose firing is not the writer's other copy (R354). -/
def State.exclMeets (s : State) (own : Option (Nat × Nat)) (locs : List Loc) : Bool :=
  match s.exclHolder with
  | none => false
  | some f =>
    let mine : Bool := match own with
      | none => false
      | some p => f.at p.1 p.2 || (match s.slotAt p.1 p.2 with
        | none => false
        | some g => g.firing.dual && g.firing.same f.firing)
    !mine && locs.any fun l => decide (l ∈ s.readsWith f)

/-- R200, R201: whether a step leaves the chunk that holds exclusive commit, and that of its other copy, as able to commit as
they were: a write to what they have read waits. -/
def State.spares (s t : State) : Bool :=
  match s.exclHolder with
  | none => true
  | some f => (f :: (s.partner f).toList).all fun g =>
      g.chunk.doomed || (match t.slotAt g.core g.k with
        | none => true
        | some h => !h.chunk.doomed)

/-- R200: the same of a write to these bytes of M. -/
def State.exclBlocks (s : State) (own : Option (Nat × Nat)) (keys : List Nat) : Bool :=
  s.exclMeets own (keys.map Loc.byte)

/-! ### Taking an exception (R75 to R81, R394) and the return from it (R80) -/

/-- R76: the chunk-start state block of a register state: 4,480 bytes. -/
def blockBytes (r : Regs) : List Byte :=
  leBytes 8 0 ++ leBytes 8 r.pc.toNat ++ leBytes 8 r.flags.toNat ++ leBytes 8 r.frm.toNat
    ++ (r.g.toList.map fun x => leBytes 8 x.toNat).flatten
    ++ (r.m.toList.map fun x => leBytes 4 x.toNat).flatten
    ++ (r.v.toList.map fun x => (x.toList.map fun y => leBytes 4 y.toNat).flatten).flatten
    ++ leBytes 64 0

/-- R394: the lowest free trap block of a logical core. -/
def LCore.freeBlock (l : LCore) : Option Nat := (List.range 8).find? fun i => i ∉ l.trapBlocks

/-- R394: the virtual address of a trap block. -/
def Ctx.blockVa (c : Ctx) (n i : Nat) : Word := c.trapsv + BitVec.ofNat 64 (4608 * (8 * n + i))

/-- The bytes of M that n bytes at a virtual address of a context lie in, by the committed tables, page by page where
they cross one; none where a page faults or does not grant the access. -/
def State.spanKeys (s : State) (ctx : Nat) (va : Word) (n : Nat) (grants : TlbEntry → Bool) : Option (List Nat) :=
  let part (a : Word) (k : Nat) : Option (List Nat) :=
    match s.walk ctx a with
    | some e => if grants e then some ((List.range k).map fun i => s.home (e.pa a + i)) else none
    | none => none
  let n0 := min n (2 ^ 16 - va.toNat % 2 ^ 16)
  match part va n0, (if n0 = n then some [] else part (va + BitVec.ofNat 64 n0) (n - n0)) with
  | some c0, some c1 => some (c0 ++ c1)
  | _, _ => none

/-- R379, R408: the hardware reads n bytes at a virtual address of a context: what the LLC lacks of them is filled, and the accesses
are charged to the context and a cluster. -/
def State.readSpan (s : State) (cluster ctx : Nat) (va : Word) (n : Nat) : State :=
  match s.spanKeys ctx va n fun _ => true with
  | some ks => s.deviceRead ctx cluster ks
  | none => s

/-- R275, R379: a walk reads the entries of the first stage from a level down: what the LLC lacks of them is filled. -/
def State.readWalk (s : State) (cluster : Nat) (c : Ctx) (va : Nat) : Nat → Nat → Nat → State
  | 0, _, _ => s
  | n + 1, level, table =>
    match c.paOf (table + 8 * walkIndex level va) with
    | none => s
    | some pa =>
      let t := s.deviceRead 0 cluster ((List.range 8).map (s.home pa + ·))
      let w := cellNat t.mem (t.home pa) 8
      if entryOk level w && decide (natBits w 1 1 = 0) then t.readWalk cluster c va n (level + 1) (natBits w 47 12 * 2 ^ 12)
      else t

/-- R275, R379, R408: the reads of a walk for a virtual address of a context, which the translation service makes for context 0
(log entry 60). -/
def State.readTables (s : State) (cluster ctx : Nat) (va : Word) : State :=
  if bitsOf va 63 47 = 0 then s.readWalk cluster (s.ctxOf ctx) (bitsOf va 46 0) 4 0 (s.ctxOf ctx).root else s

/-- R394: the bytes of M that a block of n bytes covers; none where a page faults or lacks W. -/
def State.blockKeys (s : State) (ctx : Nat) (va : Word) (n : Nat) : Option (List Nat) :=
  s.spanKeys ctx va n fun e => e.w && !e.ro

/-- R394, R408: writes a block as one Apply step, charged to its context and a cluster; none where a page faults or lacks W. -/
def State.writeBlock (s : State) (cluster ctx : Nat) (va : Word) (l : List Byte) : Option State :=
  (s.blockKeys ctx va l.length).map fun keys =>
    (((s.logWrite s.ownAttr (keys.zip l)).touch (keys.map Loc.byte) fun _ => true).chargeBursts s ctx cluster).charge ctx cluster
      (llcCharge * linesOf keys)

/-- R75, R81, R173: whether a firing is one of the trap actor's own, a member of its gang among them. -/
def Ctx.isTrapActor (c : Ctx) (x : Firing) : Bool :=
  c.trapch.getLsbD 31 && decide (x.ch = bitsOf c.trapch 17 12) &&
    (decide (x.lc = bitsOf c.trapch 11 0) || x.isGang && decide (x.lc / 8 = bitsOf c.trapch 11 0 / 8))

/-- R200, R354: what a firing exception ends beside the slot: its grant of exclusive commit, and the slot of the other copy
of a dual firing. -/
def State.endSlots (s : State) (f : Slot) : State :=
  let x := f.firing
  let other (g : Slot) : Bool := x.dual && g.active && decide (g.firing.ctx = x.ctx) && decide (g.firing.lc = x.lc)
    && decide (g.firing.ch = x.ch) && decide (g.firing.seq = x.seq)
  let gone := (f.core, f.k) :: (s.others.filter other).map fun g => (g.core, g.k)
  let s1 := (s.others.filter other).foldl State.cancelBox s
  { s1 with
    others := s1.others.filter fun g => !other g
    excl := (match s1.excl with
      | some p => if p ∈ gone then none else some p
      | none => none)
    exclQ := s1.exclQ.filter fun p => p ∉ gone }

/-- R200, R394: whether the block of an exception of the focus firing would be written over bytes that a chunk with
exclusive commit has read: that Apply step, and with it the exception, waits. -/
def State.exceptionWaits (s : State) : Bool :=
  let f := s.focus
  let ctx := s.ctxFor f
  match (ctx.lcOf f.firing.lc).freeBlock with
  | none => false
  | some b => match s.blockKeys f.firing.ctx (ctx.blockVa f.firing.lc b) 4480 with
    | none => false
    | some keys => s.exclBlocks (some (f.core, f.k)) keys

/-- R75 to R77, R81, R394: the focus firing raises an exception at an address: its chunk is squashed, its chunk-start
state is written to the lowest free block of its logical core, it is suspended, the slot is freed, and a record goes to
the trap actor. Without a block, or where the block's write faults, the record goes to management and the partition
stops. While the block's write must wait (R200) nothing changes, and the exception is raised again. -/
def State.takeException (s : State) (c : Cause) (pc i0 i1 i2 : Word) : State :=
  if s.exceptionWaits then s else
  let f := s.focus
  let x := f.firing
  let f1 := f.squash
  let s1 := ((s.endSlots f).cancelBox f).withFocus f1
  let ctx := f.chunk.sees (s1.ctxOf x.ctx)
  let l := ctx.lcOf x.lc
  let susp : Nat → Word → Susp := fun b csa =>
    { csa := csa, firing := { x with copy := 0, serial := false, heldFor := x.heldFor + (s.cycle - x.since), squashes := f1.squashes }
      block := b, srcnt := f1.reg.srcnt, srecnt := f1.reg.srecnt, sends := f1.reg.sends
      onceOrd := f1.reg.onceOrd }
  let record : Word → List Byte := fun csa => trapRecord x.fid pc c x.ch true x.lc csa x.fts i0 i1 i2
  let own := ctx.isTrapActor x
  let done : Option (State × Nat × Word) :=
    match l.freeBlock with
    | none => none
    | some b =>
      match s1.writeBlock (clusterIdOf f.core) x.ctx (ctx.blockVa x.lc b) (blockBytes f1.reg) with
      | none => none
      | some s2 => some (s2.setLc x.ctx { s2.lcOf x.ctx x.lc with trapBlocks := b :: l.trapBlocks }, b, ctx.blockVa x.lc b)
  match done with
  | some (s2, b, csa) =>
    let s3 : State := { s2.withFocus s2.focus.free with susp := s2.susp ++ [susp b csa] }
    s3.sendRecord x.ctx x.lc true own 0 f.core (record csa)
  | none =>
    let s3 : State := { s1.withFocus f1.free with susp := s1.susp ++ [susp 8 0] }
    s3.sendRecord x.ctx x.lc true true 0 f.core (record 0)

/-- R273, R275: whether a miss of a TSC core ends in a fault: neither its cluster's TLB nor the tables map the address. -/
def State.faultsAtOnce (s : State) (va : Word) : Bool :=
  let f := s.focus
  decide (1024 ≤ f.core) && (tlbFind (s.clusterOf (clusterIdOf f.core)).tlb f.firing.ctx va).isNone
    && (s.walk f.firing.ctx va).isNone

/-- R273, R274: a core TLB miss: a cluster hit fills the core TLB in hardware; otherwise a request goes to the TSC and the
slot waits on its mailbox. A TSC has no mailbox of its own: its miss is walked at once (log entry 10). -/
def State.tlbMiss (s : State) (va : Word) (acc : Nat) : State :=
  let f := s.focus
  let cl := s.clusterOf (clusterIdOf f.core)
  match tlbFind cl.tlb f.firing.ctx va with
  | some e =>
    let c := s.coreOf f.core
    s.setCore { c with tlb := tlbInsert 64 c.tlb e }
  | none =>
    if 1024 ≤ f.core then
      (let t := s.readTables (clusterIdOf f.core) f.firing.ctx va
       match t.walk f.firing.ctx va with
        | some e => t.setCore { t.coreOf f.core with tlb := tlbInsert 64 (t.coreOf f.core).tlb e }
        | none => t.takeException .page f.reg.pc va 0 0)
    else
    let seq := lookupD cl.seqs f.mbox 0
    let s1 := s.setCluster { cl with
      boxes := cl.boxes ++ [(f.mbox, seq, va, f.firing.ctx, acc, f.firing.lc)]
      seqs := setKey cl.seqs f.mbox ((seq + 1) % 256) }
    let payload := leBytes 8 (bitsOf va 55 0)
      ++ leBytes 8 (f.firing.ctx % 256 + f.mbox * 2 ^ 8 + seq * 2 ^ 16 + acc * 2 ^ 24) ++ leBytes 8 (f.firing.lc % 4096)
    (s1.withFocus { f with wait := .mailbox seq }).post
      (deviceMsg 0 (clusterIdOf f.core) 0 payload (.core f.firing.ctx f.firing.lc) .tlbRequest)

/-- An instruction's result: the slot it leaves, or a stop. -/
def State.finish (s : State) (r : Try Slot) : Host.Outcome State Fault Refusal :=
  match r with
  | .ok f => .next (s.withFocus f)
  | .error (.exc c i0 i1 i2) => .next (s.takeException c s.focus.reg.pc i0 i1 i2)
  | .error (.park w reads) => .next (s.withFocus { reads.foldl Slot.addRead s.focus with wait := w })
  | .error (.miss va acc) => .next (s.tlbMiss va acc)

/-- R76: a word of a block's bytes. -/
def blockWord (l : List Byte) (off n : Nat) : Nat := leNat ((l.drop off).take n)

/-- R76, R132: the registers a RESTART takes from a block: FRM 6 and 7 give RNE, reserved FLAGS bits, the g0 and m0
entries and the reserved bytes are ignored; the counts come from the suspended state, and CTXSEL is 0 (DESIGN CHOICE,
log entry 93). -/
def regsOfBlock (l : List Byte) (x : Susp) : Regs :=
  { pc := BitVec.ofNat 64 (blockWord l 8 8)
    flags := BitVec.ofNat 64 (blockWord l 16 8) &&& flagMask
    frm := (let r := blockWord l 24 8 % 8; if r = 6 ∨ r = 7 then 0 else BitVec.ofNat 64 r)
    g := Vector.ofFn fun (i : Fin 32) => if i.val = 0 then 0 else BitVec.ofNat 64 (blockWord l (32 + 8 * i.val) 8)
    m := Vector.ofFn fun (i : Fin 8) => if i.val = 0 then 0 else BitVec.ofNat 32 (blockWord l (288 + 4 * i.val) 4)
    v := Vector.ofFn fun (i : Fin 32) =>
      Vector.ofFn fun (j : Fin 32) => BitVec.ofNat 32 (blockWord l (320 + 128 * i.val + 4 * j.val) 4)
    srcnt := x.srcnt
    srecnt := x.srecnt
    sends := x.sends
    onceOrd := x.onceOrd }

/-- R80, R171: RESTART: the firing is new ready work on its logical core, at its entry's PRIO, from the block's registers. -/
def State.restartFiring (s : State) (x : Susp) (l : List Byte) (fromReady : Nat) : State :=
  { s with
    susp := s.susp.filter fun y => y ≠ x
    ready := s.ready ++ [{ x.firing with
      resume := some (regsOfBlock l x), readyAt := fromReady, movedAt := fromReady
      prio := ((s.lcOf x.firing.ctx x.firing.lc).ttOf x.firing.ch).prio }] }

end Sys2Proof.Machine
end

