-- ==== Sys2Proof/Machine/Scalar.lean ====
section
/-! DEFINITION. The scalar register, immediate, shift, multiply, divide, branch and jump instructions (R109 to R117). All
are short-class. -/

namespace Sys2Proof.Machine

/-- The outcome type of every meaning. -/
abbrev Out := Host.Outcome State Fault Refusal

/-- R109: an instruction whose one effect is a short-class result in g[d]. -/
def shortResult (mark : Bool) (d : BitVec 5) (x : Word) (st : State) : Out :=
  .next (st.withFocus ((st.focus.writeG d x).advance mark))

/-- R115: a division: its result, and DZ at once where the divisor is zero. -/
def divResult (mark : Bool) (d : BitVec 5) (x : Word) (zero : Bool) (st : State) : Out :=
  .next (st.withFocus (((st.focus.raiseNow (flagIf zero flagDz)).writeG d x).advance mark))

/-- R116: a conditional branch. -/
def branchIf (mark taken : Bool) (disp : BitVec 15) (st : State) : Out :=
  .next (st.withFocus (st.focus.advanceTo mark
    (if taken then branchTarget st.focus.reg.pc disp else st.focus.reg.pc + 4#64)))

/-- R109: ADD. -/
def execAdd (s : Bool) (d a b : BitVec 5) (st : State) : Out :=
  shortResult s d (st.focus.gr a + st.focus.gr b) st

/-- R109: SUB. -/
def execSub (s : Bool) (d a b : BitVec 5) (st : State) : Out :=
  shortResult s d (st.focus.gr a - st.focus.gr b) st

/-- R109: AND. -/
def execAnd (s : Bool) (d a b : BitVec 5) (st : State) : Out :=
  shortResult s d (st.focus.gr a &&& st.focus.gr b) st

/-- R109: OR. -/
def execOr (s : Bool) (d a b : BitVec 5) (st : State) : Out :=
  shortResult s d (st.focus.gr a ||| st.focus.gr b) st

/-- R109: XOR. -/
def execXor (s : Bool) (d a b : BitVec 5) (st : State) : Out :=
  shortResult s d (st.focus.gr a ^^^ st.focus.gr b) st

/-- R109: ANDN. -/
def execAndn (s : Bool) (d a b : BitVec 5) (st : State) : Out :=
  shortResult s d (st.focus.gr a &&& ~~~ (st.focus.gr b)) st

/-- R109: SLL. -/
def execSll (s : Bool) (d a b : BitVec 5) (st : State) : Out :=
  shortResult s d (st.focus.gr a <<< shCount (st.focus.gr b)) st

/-- R109: SRL. -/
def execSrl (s : Bool) (d a b : BitVec 5) (st : State) : Out :=
  shortResult s d (st.focus.gr a >>> shCount (st.focus.gr b)) st

/-- R109: SRA. -/
def execSra (s : Bool) (d a b : BitVec 5) (st : State) : Out :=
  shortResult s d ((st.focus.gr a).sshiftRight (shCount (st.focus.gr b))) st

/-- R109: SLT. -/
def execSlt (s : Bool) (d a b : BitVec 5) (st : State) : Out :=
  shortResult s d (boolW ((st.focus.gr a).slt (st.focus.gr b))) st

/-- R109: SLTU. -/
def execSltu (s : Bool) (d a b : BitVec 5) (st : State) : Out :=
  shortResult s d (boolW ((st.focus.gr a).ult (st.focus.gr b))) st

/-- R109: MIN. -/
def execMin (s : Bool) (d a b : BitVec 5) (st : State) : Out :=
  shortResult s d (if (st.focus.gr a).slt (st.focus.gr b) then st.focus.gr a else st.focus.gr b) st

/-- R109: MAX. -/
def execMax (s : Bool) (d a b : BitVec 5) (st : State) : Out :=
  shortResult s d (if (st.focus.gr a).slt (st.focus.gr b) then st.focus.gr b else st.focus.gr a) st

/-- R109: MINU. -/
def execMinu (s : Bool) (d a b : BitVec 5) (st : State) : Out :=
  shortResult s d (if (st.focus.gr a).ult (st.focus.gr b) then st.focus.gr a else st.focus.gr b) st

/-- R109: MAXU. -/
def execMaxu (s : Bool) (d a b : BitVec 5) (st : State) : Out :=
  shortResult s d (if (st.focus.gr a).ult (st.focus.gr b) then st.focus.gr b else st.focus.gr a) st

/-- R109, R110: CMOVZ; a false condition writes back the value read. -/
def execCmovz (s : Bool) (d a b : BitVec 5) (st : State) : Out :=
  shortResult s d (if st.focus.gr b = 0 then st.focus.gr a else st.focus.gr d) st

/-- R109, R110: CMOVN; a false condition writes back the value read. -/
def execCmovn (s : Bool) (d a b : BitVec 5) (st : State) : Out :=
  shortResult s d (if st.focus.gr b = 0 then st.focus.gr d else st.focus.gr a) st

/-- R109: CLZ. -/
def execClz (s : Bool) (d a : BitVec 5) (st : State) : Out :=
  shortResult s d (clzW (st.focus.gr a)) st

/-- R109: CTZ. -/
def execCtz (s : Bool) (d a : BitVec 5) (st : State) : Out :=
  shortResult s d (ctzW (st.focus.gr a)) st

/-- R109: POPC. -/
def execPopc (s : Bool) (d a : BitVec 5) (st : State) : Out :=
  shortResult s d (popcW (st.focus.gr a)) st

/-- R109: BREV. -/
def execBrev (s : Bool) (d a : BitVec 5) (st : State) : Out :=
  shortResult s d (brevW (st.focus.gr a)) st

/-- R109: BSWAP. -/
def execBswap (s : Bool) (d a : BitVec 5) (st : State) : Out :=
  shortResult s d (bswapW (st.focus.gr a)) st

/-- R110: EXT. -/
def execExt (s : Bool) (d a b : BitVec 5) (st : State) : Out :=
  shortResult s d (extW (st.focus.gr a) (st.focus.gr b)) st

/-- R110: INS. -/
def execIns (s : Bool) (d a b : BitVec 5) (st : State) : Out :=
  shortResult s d (insW (st.focus.gr d) (st.focus.gr a) (st.focus.gr b)) st

/-- R111: ADDW. -/
def execAddw (s : Bool) (d a b : BitVec 5) (st : State) : Out :=
  shortResult s d (resW (low32 (st.focus.gr a) + low32 (st.focus.gr b))) st

/-- R111: SUBW. -/
def execSubw (s : Bool) (d a b : BitVec 5) (st : State) : Out :=
  shortResult s d (resW (low32 (st.focus.gr a) - low32 (st.focus.gr b))) st

/-- R111: SLLW. -/
def execSllw (s : Bool) (d a b : BitVec 5) (st : State) : Out :=
  shortResult s d (resW (low32 (st.focus.gr a) <<< shCountW (st.focus.gr b))) st

/-- R111: SRLW. -/
def execSrlw (s : Bool) (d a b : BitVec 5) (st : State) : Out :=
  shortResult s d (resW (low32 (st.focus.gr a) >>> shCountW (st.focus.gr b))) st

/-- R111: SRAW. -/
def execSraw (s : Bool) (d a b : BitVec 5) (st : State) : Out :=
  shortResult s d (resW ((low32 (st.focus.gr a)).sshiftRight (shCountW (st.focus.gr b)))) st

/-- R112: ADDI. -/
def execAddi (s : Bool) (d a : BitVec 5) (i : BitVec 15) (st : State) : Out :=
  shortResult s d (st.focus.gr a + sext64 i) st

/-- R112: ANDI. -/
def execAndi (s : Bool) (d a : BitVec 5) (i : BitVec 15) (st : State) : Out :=
  shortResult s d (st.focus.gr a &&& sext64 i) st

/-- R112: ORI. -/
def execOri (s : Bool) (d a : BitVec 5) (i : BitVec 15) (st : State) : Out :=
  shortResult s d (st.focus.gr a ||| sext64 i) st

/-- R112: XORI. -/
def execXori (s : Bool) (d a : BitVec 5) (i : BitVec 15) (st : State) : Out :=
  shortResult s d (st.focus.gr a ^^^ sext64 i) st

/-- R112: SLTI. -/
def execSlti (s : Bool) (d a : BitVec 5) (i : BitVec 15) (st : State) : Out :=
  shortResult s d (boolW ((st.focus.gr a).slt (sext64 i))) st

/-- R112: SLTIU. -/
def execSltiu (s : Bool) (d a : BitVec 5) (i : BitVec 15) (st : State) : Out :=
  shortResult s d (boolW ((st.focus.gr a).ult (sext64 i))) st

/-- R113: SLLI. -/
def execSlli (s : Bool) (d a : BitVec 5) (h : BitVec 6) (st : State) : Out :=
  shortResult s d (st.focus.gr a <<< h.toNat) st

/-- R113: SRLI. -/
def execSrli (s : Bool) (d a : BitVec 5) (h : BitVec 6) (st : State) : Out :=
  shortResult s d (st.focus.gr a >>> h.toNat) st

/-- R113: SRAI. -/
def execSrai (s : Bool) (d a : BitVec 5) (h : BitVec 6) (st : State) : Out :=
  shortResult s d ((st.focus.gr a).sshiftRight h.toNat) st

/-- R113: SLLIW. -/
def execSlliw (s : Bool) (d a h : BitVec 5) (st : State) : Out :=
  shortResult s d (resW (low32 (st.focus.gr a) <<< h.toNat)) st

/-- R113: SRLIW. -/
def execSrliw (s : Bool) (d a h : BitVec 5) (st : State) : Out :=
  shortResult s d (resW (low32 (st.focus.gr a) >>> h.toNat)) st

/-- R113: SRAIW. -/
def execSraiw (s : Bool) (d a h : BitVec 5) (st : State) : Out :=
  shortResult s d (resW ((low32 (st.focus.gr a)).sshiftRight h.toNat)) st

/-- R46, R114: LUI. -/
def execLui (s : Bool) (d : BitVec 5) (i : BitVec 20) (st : State) : Out :=
  shortResult s d (immU i) st

/-- R46, R114: ADDPC: the address of the word itself plus the immediate. -/
def execAddpc (s : Bool) (d : BitVec 5) (i : BitVec 20) (st : State) : Out :=
  shortResult s d (st.focus.reg.pc + immU i) st

/-- R115: MUL. -/
def execMul (s : Bool) (d a b : BitVec 5) (st : State) : Out :=
  shortResult s d (st.focus.gr a * st.focus.gr b) st

/-- R115: MULH. -/
def execMulh (s : Bool) (d a b : BitVec 5) (st : State) : Out :=
  shortResult s d (mulhW (st.focus.gr a) (st.focus.gr b)) st

/-- R115: MULHU. -/
def execMulhu (s : Bool) (d a b : BitVec 5) (st : State) : Out :=
  shortResult s d (mulhuW (st.focus.gr a) (st.focus.gr b)) st

/-- R107, R115: DIV. -/
def execDiv (s : Bool) (d a b : BitVec 5) (st : State) : Out :=
  divResult s d (sdivW (st.focus.gr a) (st.focus.gr b)) (decide (st.focus.gr b = 0)) st

/-- R107, R115: DIVU. -/
def execDivu (s : Bool) (d a b : BitVec 5) (st : State) : Out :=
  divResult s d (udivW (st.focus.gr a) (st.focus.gr b)) (decide (st.focus.gr b = 0)) st

/-- R107, R115: REM. -/
def execRem (s : Bool) (d a b : BitVec 5) (st : State) : Out :=
  divResult s d (sremW (st.focus.gr a) (st.focus.gr b)) (decide (st.focus.gr b = 0)) st

/-- R107, R115: REMU. -/
def execRemu (s : Bool) (d a b : BitVec 5) (st : State) : Out :=
  divResult s d (uremW (st.focus.gr a) (st.focus.gr b)) (decide (st.focus.gr b = 0)) st

/-- R115: MULW. -/
def execMulw (s : Bool) (d a b : BitVec 5) (st : State) : Out :=
  shortResult s d (resW (low32 (st.focus.gr a) * low32 (st.focus.gr b))) st

/-- R107, R115: DIVW. -/
def execDivw (s : Bool) (d a b : BitVec 5) (st : State) : Out :=
  divResult s d (resW (sdivW (low32 (st.focus.gr a)) (low32 (st.focus.gr b)))) (decide (low32 (st.focus.gr b) = 0)) st

/-- R107, R115: DIVUW. -/
def execDivuw (s : Bool) (d a b : BitVec 5) (st : State) : Out :=
  divResult s d (resW (udivW (low32 (st.focus.gr a)) (low32 (st.focus.gr b)))) (decide (low32 (st.focus.gr b) = 0)) st

/-- R107, R115: REMW. -/
def execRemw (s : Bool) (d a b : BitVec 5) (st : State) : Out :=
  divResult s d (resW (sremW (low32 (st.focus.gr a)) (low32 (st.focus.gr b)))) (decide (low32 (st.focus.gr b) = 0)) st

/-- R107, R115: REMUW. -/
def execRemuw (s : Bool) (d a b : BitVec 5) (st : State) : Out :=
  divResult s d (resW (uremW (low32 (st.focus.gr a)) (low32 (st.focus.gr b)))) (decide (low32 (st.focus.gr b) = 0)) st

/-- R116: BEQ. -/
def execBeq (s : Bool) (a b : BitVec 5) (i : BitVec 15) (st : State) : Out :=
  branchIf s (decide (st.focus.gr a = st.focus.gr b)) i st

/-- R116: BNE. -/
def execBne (s : Bool) (a b : BitVec 5) (i : BitVec 15) (st : State) : Out :=
  branchIf s (decide (st.focus.gr a ≠ st.focus.gr b)) i st

/-- R116: BLT. -/
def execBlt (s : Bool) (a b : BitVec 5) (i : BitVec 15) (st : State) : Out :=
  branchIf s ((st.focus.gr a).slt (st.focus.gr b)) i st

/-- R116: BGE. -/
def execBge (s : Bool) (a b : BitVec 5) (i : BitVec 15) (st : State) : Out :=
  branchIf s (!(st.focus.gr a).slt (st.focus.gr b)) i st

/-- R116: BLTU. -/
def execBltu (s : Bool) (a b : BitVec 5) (i : BitVec 15) (st : State) : Out :=
  branchIf s ((st.focus.gr a).ult (st.focus.gr b)) i st

/-- R116: BGEU. -/
def execBgeu (s : Bool) (a b : BitVec 5) (i : BitVec 15) (st : State) : Out :=
  branchIf s (!(st.focus.gr a).ult (st.focus.gr b)) i st

/-- R117: JAL: g31 takes the next address. -/
def execJal (s : Bool) (i : BitVec 25) (st : State) : Out :=
  .next (st.withFocus ((st.focus.writeG 31 (st.focus.reg.pc + 4#64)).advanceTo s (branchTarget st.focus.reg.pc i)))

/-- R117: J. -/
def execJ (s : Bool) (i : BitVec 25) (st : State) : Out :=
  .next (st.withFocus (st.focus.advanceTo s (branchTarget st.focus.reg.pc i)))

/-- R117: the target of a JALR. -/
def jalrTarget (f : Slot) (a : BitVec 5) (i : BitVec 15) : Word := f.gr a + sext64 i

/-- R117: JALR: a misaligned target raises MISALIGN before g[d] is written. -/
def execJalr (s : Bool) (d a : BitVec 5) (i : BitVec 15) (st : State) : Out :=
  let t := jalrTarget st.focus a i
  st.finish (if t.extractLsb' 0 2 ≠ 0 then excAt .misalign t
    else .ok ((st.focus.writeG d (st.focus.reg.pc + 4#64)).advanceTo s t))

end Sys2Proof.Machine
end

