-- ==== Sys2Proof/Machine/System.lean ====
section
/-! DEFINITION. The user SYS instructions (R120 to R128), CSRs and firing registers (R129 to R134, R64). -/

namespace Sys2Proof.Machine

/-- R121: NOP. -/
def execNop (s : Bool) (st : State) : Out := .next (st.withFocus (st.focus.advance s))

/-- R69, R181: an instruction that is treated as marked and closes the chunk; the next chunk starts after it. -/
def Slot.closeAfter (f : Slot) (k : EndKind) : Slot :=
  let f1 := f.advance true
  { f1 with chunk := { f1.chunk with closed := some k } }

/-- R325: whether a stage firing has given its verdict, in this chunk or an earlier one. -/
def Slot.verdictGiven (f : Slot) : Bool :=
  f.firing.verdict || f.chunk.held.any fun h => match h with
    | .hsVerdict _ _ _ => true
    | _ => false

/-- R122: FIN; a stage firing without a verdict raises NOVERDICT. -/
def execFin (_s : Bool) (st : State) : Out :=
  st.finish (if st.focus.firing.stage.isSome && !st.focus.verdictGiven then .error (.exc .noverdict 0 0 0)
    else .ok (st.focus.closeAfter .fin))

/-- R123: TRAP raises cause 17 with the two operands. -/
def execTrap (_s : Bool) (a b : BitVec 5) (st : State) : Out :=
  st.finish (.error (.exc .trap (st.focus.gr a) (st.focus.gr b) 0))

/-- R123: BRK raises cause 18. -/
def execBrk (_s : Bool) (st : State) : Out := st.finish (.error (.exc .brk 0 0 0))

/-- R124: the number of a format register in an operand. -/
def fmtNum (x : Word) : Nat := bitsOf x 2 0

/-- R87, R124: FMT.SET, held until commit; an invalid pair raises ILLOP. -/
def execFmtSet (s : Bool) (d a b : BitVec 5) (st : State) : Out :=
  let f := st.focus
  st.finish (if validPair (f.gr a) (f.gr b) then
      .ok (((f.addRead (.fmt f.firing.ctx f.firing.lc (fmtNum (f.gr d)))).hold
        (.fmt (fmtNum (f.gr d)) (f.gr a) (f.gr b))).advance s)
    else exc2 .illop (f.gr a) (f.gr b))

/-- R124: FMT.RD, short-class: the chunk's own latest value, else the committed one. -/
def execFmtRd (s : Bool) (d a : BitVec 5) (st : State) : Out :=
  let f := st.focus
  let p := st.fmtSeen f (fmtNum (f.gr a))
  .next (st.withFocus (((f.addRead (.fmt f.firing.ctx f.firing.lc (fmtNum (f.gr a)))).writeG d
    (if (f.gr a).getLsbD 3 then p.2 else p.1)).advance s))

/-- R73: a watch-group record of a table: none is the package table. -/
def Ctx.watchOf (c : Ctx) (table : Option Nat) (wg : Nat) : WatchRec :=
  match c.watch.find? fun r => decide (r.1 = table) && decide (r.2.1 = wg) with
  | some r => r.2.2
  | none => {}

/-- R73: the 8-byte word w of a record. -/
def WatchRec.word (r : WatchRec) (w : Nat) : Word :=
  if w = 0 then BitVec.ofNat 64 (r.flags % 64 + (if r.nantrap then 2 ^ 16 else 0) + r.sat * 2 ^ 32)
  else if w < 2 ∨ 14 ≤ w then 0
  else
    match r.setters.find? fun t => t.1 = (w - 2) / 2 with
    | some t => if w % 2 = 0 then t.2.1 else t.2.2
    | none => 0

/-- R125: WG.RD, long-class; it takes no part in conflicts. -/
def execWgRd (s : Bool) (d a b : BitVec 5) (st : State) : Out :=
  let f := st.focus
  let table := if (f.gr b).getLsbD 4 then none else some (clusterIdOf f.core)
  let r := st.myCtx.watchOf table (bitsOf (f.gr a) 7 0)
  .next (st.withFocus ((f.landG d (r.word (bitsOf (f.gr b) 3 0))).advance s))

/-- R126: WG.CLR, held. -/
def execWgClr (s : Bool) (a b : BitVec 5) (st : State) : Out :=
  let f := st.focus
  .next (st.withFocus ((f.hold (.wgClr (bitsOf (f.gr a) 7 0) (f.gr b))).advance s))

/-- R127: WG.SYNC, held. -/
def execWgSync (s : Bool) (a : BitVec 5) (st : State) : Out :=
  let f := st.focus
  .next (st.withFocus ((f.hold (.wgSync (f.gr a))).advance s))

/-- R6: the time base. -/
def State.timeBase (s : State) : Word := BitVec.ofNat 64 s.ticks

/-- R128: TB.RD, short-class. -/
def execTbRd (s : Bool) (d : BitVec 5) (st : State) : Out := shortResult s d st.timeBase st

/-- R130: a context CSR as the chunk sees it: its own held write, else the committed value. -/
def Slot.heldCsr (f : Slot) (ctx num : Nat) (committed : Word) : Word :=
  match f.chunk.held.reverse.findSome? fun h => match h with
    | .csr c n v => if c = ctx ∧ n = num then some v else none
    | _ => none with
  | some v => v
  | none => committed

/-- R131: the committed value of a context CSR; the number 0x803 stands for the trap area of the context itself. -/
def Ctx.csr (c : Ctx) (num : Nat) : Word :=
  match num with
  | 0x020 => c.specwin
  | 0x022 => c.trapch
  | 0x023 => c.almdrop
  | 0x026 => c.lawbase
  | 0x027 => c.objbase
  | 0x803 => c.trapsv
  | _ => 0

/-- R131, R132: which context CSR a number names for this firing: its own, or that of the context in CTXSEL. -/
def Slot.csrTarget (f : Slot) (num : Nat) : Option (Nat × Nat) :=
  match num with
  | 0x020 => some (f.firing.ctx, 0x020)
  | 0x022 => some (f.firing.ctx, 0x022)
  | 0x023 => some (f.firing.ctx, 0x023)
  | 0x026 => some (f.firing.ctx, 0x026)
  | 0x027 => some (f.firing.ctx, 0x027)
  | 0x801 => some (bitsOf f.reg.ctxsel 7 0, 0x026)
  | 0x802 => some (bitsOf f.reg.ctxsel 7 0, 0x027)
  | 0x803 => some (bitsOf f.reg.ctxsel 7 0, 0x803)
  | _ => none

/-- R131: the value of a CSR that is not a context CSR. -/
def State.csrPlain (s : State) (f : Slot) (num : Nat) : Word :=
  match num with
  | 0x000 => f.reg.flags
  | 0x001 => f.reg.frm
  | 0x002 => f.reg.srcnt
  | 0x003 => f.reg.srecnt
  | 0x010 => BitVec.ofNat 64 (s.cycle - (s.coreOf f.core).born)
  | 0x011 => BitVec.ofNat 64 f.firing.lc
  | 0x012 => BitVec.ofNat 64 Config.ownPackage.val
  | 0x013 => BitVec.ofNat 64 f.firing.ctx
  | 0x021 => (s.ctxOf f.firing.ctx).gvt
  | 0x024 => BitVec.ofNat 64 ((s.ctxOf f.firing.ctx).energy / 100000)
  | 0x025 =>
    let c := s.clusterOf (clusterIdOf f.core)
    BitVec.ofNat 64 (c.grant % 2 ^ 32 + (c.remainder / 100000 % 2 ^ 32) * 2 ^ 32)
  | 0x800 => f.reg.ctxsel
  | _ => 0

/-- R130: the value of a CSR, and the slot with a context CSR in its read set. -/
def State.csrRead (s : State) (f : Slot) (num : Nat) : Slot × Word :=
  match f.csrTarget num with
  | some (c, n) =>
    (f.addRead (.csr c n), if s.hasCtx c || decide (c = f.firing.ctx) then f.heldCsr c n ((s.ctxOf c).csr n) else 0)
  | none => (f, s.csrPlain f num)

/-- R131: whether a CSR is read-only. -/
def csrReadOnly (num : Nat) : Bool :=
  num ∈ [0x002, 0x003, 0x010, 0x011, 0x012, 0x013, 0x021, 0x024, 0x025, 0x026, 0x027]

/-- R131, R132: the value a context CSR keeps of a word written to it. -/
def csrMasked (num : Nat) (v : Word) : Word :=
  match num with
  | 0x022 => v &&& 0x8003FFFF#64
  | 0x026 => v &&& ~~~ 0x1FFF#64
  | 0x027 => v &&& ~~~ 0x3FFFFF#64
  | 0x803 => v &&& ~~~ 0xFFF#64
  | _ => v

/-- R132: the value FRM takes of a write: 6 and 7 leave RNE. -/
def frmMasked (v : Word) : Word := if bitsOf v 2 0 ≥ 6 then 0 else v &&& 7#64

/-- R130, R132: a CSR write: firing CSRs at once, context CSRs held. -/
def State.csrWrite (s : State) (f : Slot) (num : Nat) (v : Word) : Slot :=
  match num with
  | 0x000 => { f with reg := { f.reg with flags := v &&& flagMask } }
  | 0x001 => { f with reg := { f.reg with frm := frmMasked v } }
  | 0x800 => { f with reg := { f.reg with ctxsel := v &&& 0xFF#64 } }
  | _ =>
    match f.csrTarget num with
    | some (c, n) => if s.hasCtx c || decide (c = f.firing.ctx) then f.hold (.csr c n (csrMasked n v)) else f
    | none => f

/-- R60, R129: a CSR instruction: PRIV for a privileged number in a user firing, ILLOP for a write to a read-only CSR;
the old value goes to g[d], and the new one is written where there is one. -/
def State.csrOp (s : State) (mark : Bool) (d : BitVec 5) (num : Nat) (newVal : Option (Word → Word)) : Out :=
  let f := s.focus
  s.finish (
    if decide (0x800 ≤ num) && !f.priv then .error (.exc .priv 0 0 0)
    else if newVal.isSome && csrReadOnly num then .error (.exc .illop 0 0 0)
    else
      let r := s.csrRead f num
      let f1 := match newVal with
        | some g => s.csrWrite r.1 num (g r.2)
        | none => r.1
      .ok ((f1.writeG d r.2).advance mark))

/-- R129: CSRR. -/
def execCsrr (s : Bool) (d : BitVec 5) (n : BitVec 12) (st : State) : Out := st.csrOp s d n.toNat none

/-- R129: CSRW. -/
def execCsrw (s : Bool) (d a : BitVec 5) (n : BitVec 12) (st : State) : Out :=
  st.csrOp s d n.toNat (some fun _ => st.focus.gr a)

/-- R129: CSRS; with a = 0 it is a read. -/
def execCsrs (s : Bool) (d a : BitVec 5) (n : BitVec 12) (st : State) : Out :=
  st.csrOp s d n.toNat (if a = 0 then none else some fun old => old ||| st.focus.gr a)

/-- R129: CSRC; with a = 0 it is a read. -/
def execCsrc (s : Bool) (d a : BitVec 5) (n : BitVec 12) (st : State) : Out :=
  st.csrOp s d n.toNat (if a = 0 then none else some fun old => old &&& ~~~ st.focus.gr a)

/-- R49, R64: a firing register. -/
def Firing.reg (x : Firing) (n : Nat) : Word :=
  match n with
  | 0 => x.fid
  | 1 => x.fts
  | 2 => BitVec.ofNat 64 x.ch
  | 3 => x.fsrc
  | 4 => BitVec.ofNat 64 x.gang
  | 5 => BitVec.ofNat 64 (x.np + x.nj * 2 ^ 8)
  | _ => BitVec.ofNat 64 x.cptid

/-- R64, R129: FRD. -/
def execFrd (s : Bool) (d : BitVec 5) (n : BitVec 12) (st : State) : Out := shortResult s d (st.focus.firing.reg n.toNat) st

end Sys2Proof.Machine
end

