-- ==== Sys2Proof/Machine/Message.lean ====
section
/-! DEFINITION. The MSG group: sends, reading consumed messages, and the task-table instructions (R219 to R229), with the
checks of a task-table entry (R166). -/

namespace Sys2Proof.Machine

/-! ### Reading a range (R221, R228) -/

/-- R206: reads n bytes in elements of a size, each under its own check; the last may be cut short. fuel is the number
of elements. -/
def State.loadRange (st : State) (size : Nat) : Nat → Slot → Word → Nat → Try (Slot × List Byte)
  | 0, f, _, _ => .ok (f, [])
  | fuel + 1, f, a, n =>
    if n = 0 then .ok (f, [])
    else do
      let k := min size n
      let r ← (match st.access f a size .load false with
        | .error e => .error e
        | .ok (.cells key at') => st.readKey f a key at' k
        | .ok (.hostMem off) => .ok (f, cellReadList st.host (f.firing.ctx * 2 ^ 55 + off) k)
        | .ok (.live off) => .ok (f, st.myCtx.mirrorBytes off k)
        | .ok _ => .ok (f, List.replicate k 0))
      let t ← st.loadRange size fuel r.1 (a + BitVec.ofNat 64 size) (n - k)
      .ok (t.1, r.2 ++ t.2)

/-- R221: the payload of a send: element size 4, or 1 below 4 bytes. -/
def State.payload (st : State) (f : Slot) (a : Word) (len : Nat) : Try (Slot × List Byte) :=
  st.loadRange (if len < 4 then 1 else 4) 20 f a len

/-! ### Sends (R220 to R223, R225) -/

/-- R220: the fields of a send descriptor. -/
def descDst (w : Word) : Nat := bitsOf w 11 0
/-- R220: CH. -/
def descCh (w : Word) : Nat := bitsOf w 17 12
/-- R220: LEN. -/
def descLen (w : Word) : Nat := bitsOf w 24 18
/-- R220: WFMT. -/
def descWfmt (w : Word) : Nat := bitsOf w 29 26
/-- R220: whether a descriptor names the own package. -/
def descLocal (w : Word) : Bool := !w.getLsbD 38 || decide (bitsOf w 37 32 = Config.ownPackage.val)

/-- R220: the destination package: its own where FAB = 0. -/
def descPkg (w : Word) : Nat := if w.getLsbD 38 then bitsOf w 37 32 else Config.ownPackage.val

/-- R220: whether a descriptor is refused by a form with this fn. -/
def descBad (fn : Nat) (w : Word) : Bool :=
  decide (64 < descLen w) || (decide (3 ≤ descWfmt w) && decide (descWfmt w ≤ 7))
    || (decide (descWfmt w ≠ 0) && decide (descLen w % 4 ≠ 0)) || decide (descCh w = 63)
    || (decide (fn ≠ 0) && w.getLsbD 38)

/-- R220: a WFMT that names a format register enters it in the read set. -/
def Slot.readWfmt (f : Slot) (w : Word) : Slot :=
  if 8 ≤ descWfmt w then f.addRead (.fmt f.firing.ctx f.firing.lc (descWfmt w - 8)) else f

/-- R221: the production-rate check; INFO0 is PROD, INFO1 the fn. -/
def State.sendRate (st : State) (f : Slot) (fn : Nat) : Try Unit :=
  refuseIf (decide (st.myEntry.prod ≤ f.reg.sends)) .sendrate (BitVec.ofNat 64 st.myEntry.prod) (BitVec.ofNat 64 fn)

/-- R221: the firing has issued one more send. -/
def Slot.countSend (f : Slot) : Slot := { f with reg := { f.reg with sends := f.reg.sends + 1 } }

/-- R168, R221: the message of a descriptor and its payload, as held. -/
def Slot.message (f : Slot) (w : Word) (payload : List Byte) (ts : Option Word) : Msg :=
  { ctx := f.firing.ctx, dst := descDst w, ch := descCh w, pkg := descPkg w, src := f.firing.lc
    spkg := Config.ownPackage.val, host := false, ord := ts.isSome, wfmt := descWfmt w, ts := ts.getD 0, seq := 0
    payload := payload, fid := f.firing.fid, fts := f.firing.fts, fch := f.firing.ch
    box := .core f.firing.ctx f.firing.lc, kind := .send, entry := 0, tag := 0, tries := 0
    frm := f.reg.frm.toNat, draw := f.reg.sends, ran := f.core }

/-- R221: the common part of SEND, SENDT and SENDM: descriptor, destination, rate, payload. -/
def State.sendParts (st : State) (fn : Nat) (w addr : Word) : Try (Slot × List Byte) := do
  let f := st.focus
  refuseIf (descBad fn w) .illop w (BitVec.ofNat 64 fn)
  refuseIf (decide (fn ≠ 2) && descLocal w && !st.myCtx.defines (descDst w)) .bounds w 0
  st.sendRate f fn
  st.payload (f.readWfmt w) addr (descLen w)

/-- R223: SEND. -/
def execSend (s : Bool) (a b : BitVec 5) (st : State) : Out :=
  let f := st.focus
  let w := f.gr a
  st.finish (do
    let r ← st.sendParts 0 w (f.gr b)
    .ok ((r.1.hold (.send (f.message w r.2 none))).countSend.advance s))

/-- R223: SENDT. -/
def execSendt (s : Bool) (d a b : BitVec 5) (st : State) : Out :=
  let f := st.focus
  let w := f.gr a
  st.finish (do
    let r ← st.sendParts 1 w (f.gr b)
    .ok ((r.1.hold (.send (f.message w r.2 (some (f.gr d))))).countSend.advance s))

/-- R223: whether a rectangle has its first column above its last, or its first row above its last. -/
def rectBad (r : Word) : Bool := decide (bitsOf r 17 12 < bitsOf r 5 0) || decide (bitsOf r 23 18 < bitsOf r 11 6)

/-- R223: whether a logical core lies in a rectangle. -/
def inRect (r : Word) (n : Nat) : Bool :=
  decide (bitsOf r 5 0 ≤ n % 64) && decide (n % 64 ≤ bitsOf r 17 12)
    && decide (bitsOf r 11 6 ≤ n / 64) && decide (n / 64 ≤ bitsOf r 23 18)

/-- R223: SENDM. Its rectangle is checked after the descriptor and before the rate (DESIGN CHOICE, log entry 95). -/
def execSendm (s : Bool) (d a b : BitVec 5) (st : State) : Out :=
  let f := st.focus
  let w := f.gr a
  st.finish (do
    refuseIf (descBad 2 w) .illop w 2#64
    refuseIf (rectBad (f.gr d)) .illop (f.gr d) 0
    let r ← st.sendParts 2 w (f.gr b)
    .ok ((r.1.hold (.sendm (f.gr d) (f.message w r.2 none))).countSend.advance s))

/-- R223, R349: SENDR: the group's configuration enters the read set. The group is checked before the rate (DESIGN CHOICE, log
entry 95). -/
def execSendr (s : Bool) (a b : BitVec 5) (st : State) : Out :=
  let f := st.focus
  let grp := bitsOf (f.gr a) 5 0
  let r := st.myCtx.redOf grp
  st.finish (do
    refuseIf (!r.on || !inRect r.cfgB f.firing.lc) .illop (f.gr a) 0
    st.sendRate f 3
    let p ← st.payload (f.addRead (.red f.firing.ctx grp)) (f.gr b) (4 * (bitsOf r.cfgA 10 7 + 1))
    .ok ((p.1.hold (.sendr grp p.2)).countSend.advance s))

/-! ### Reading consumed messages (R226) -/

/-- R173: the logical core in whose FIFO a firing's messages lie. -/
def Firing.msgHome (x : Firing) : Nat := if x.isGang then 8 * (x.lc / 8) else x.lc

/-- R226: the message that a selector names. -/
def Firing.msgRef (x : Firing) (sel : Word) : Option MsgRef :=
  (if sel.getLsbD 5 then x.join else x.prim)[bitsOf sel 4 0]?

/-- R163: the address of a byte of a logical core's scratchpad. -/
def remoteAddr (n off : Nat) : Word := BitVec.ofNat 64 (0xFFFE0000000000 + n * 2 ^ 24 + off)

/-- R226: reads bytes of a message's slot as a scratchpad load. -/
def State.slotBytes (st : State) (f : Slot) (m : MsgRef) (off n : Nat) : Try (Slot × List Byte) :=
  st.readKey f (remoteAddr f.firing.msgHome (m.off + off)) (scratchKey f.firing.ctx f.firing.msgHome (m.off + off)) {} n

/-- R226: MLD. -/
def execMld (s : Bool) (d a b : BitVec 5) (st : State) : Out :=
  let f := st.focus
  st.finish (match f.firing.msgRef (f.gr a) with
    | none => excAt .bounds (f.gr a)
    | some m => do
      refuseIf (decide ((f.gr b).toNat % 8 ≠ 0)) .misalign (f.gr b) 0
      refuseIf (decide (64 ≤ (f.gr b).toNat)) .bounds (f.gr b) 0
      let r ← st.slotBytes f m (16 + (f.gr b).toNat) 8
      .ok ((r.1.landG d (BitVec.ofNat 64 (leNat r.2))).advance s))

/-- R226: MHDR: the header's words 0 and 1, the send sequence, and zero. -/
def execMhdr (s : Bool) (d a b : BitVec 5) (st : State) : Out :=
  let f := st.focus
  st.finish (match f.firing.msgRef (f.gr a) with
    | none => excAt .bounds (f.gr a)
    | some m => do
      let r ← (match bitsOf (f.gr b) 1 0 with
        | 0 => st.slotBytes f m 0 8
        | 1 => st.slotBytes f m 8 8
        | 2 => st.slotBytes f m 80 4
        | _ => .ok (f, []))
      .ok ((r.1.landG d (BitVec.ofNat 64 (leNat r.2))).advance s))

/-! ### Task-table instructions (R165, R166, R227 to R229) -/

/-- R227: the logical core of an entry selector. -/
def selLc (w : Word) : Nat := bitsOf w 11 0
/-- R227: the channel of an entry selector. -/
def selCh (w : Word) : Nat := bitsOf w 17 12

/-- R229: word 1 with BLK changed. -/
def withBlk (w1 : Word) (blk : Bool) : Word := if blk then w1 ||| 4#64 else w1 &&& ~~~ 4#64

/-- R228, R229: words 0 to 2 of an entry under the chunk's held table writes, oldest first. -/
def ttUnder (lc ch : Nat) (e : TTEntry) : List Held → TTEntry
  | [] => e
  | .ttWr sel w0 w1 w2 :: t =>
    ttUnder lc ch (if selLc sel = lc ∧ selCh sel = ch then { e with w0 := w0, w1 := w1, w2 := w2 } else e) t
  | .ttBlk sel blk :: t =>
    ttUnder lc ch (if selLc sel = lc ∧ selCh sel = ch then { e with w1 := withBlk e.w1 blk } else e) t
  | _ :: t => ttUnder lc ch e t

/-- R228: an entry as the chunk sees it. -/
def State.ttSeen (st : State) (f : Slot) (lc ch : Nat) : TTEntry :=
  ttUnder lc ch ((st.lcOf f.firing.ctx lc).ttOf ch) f.chunk.held

/-- R166: the FIFO's bounds, in slots of 128 bytes. -/
def fifosMeet (a b : TTEntry) : Bool :=
  decide (a.fbase < b.fbase + b.fdepth) && decide (b.fbase < a.fbase + a.fdepth)

/-- R166: the number of the first condition that an entry with OFF = 0 breaks; none where it meets all. other gives the
logical core's other entries. -/
def entryBreaks (lsz ch : Nat) (e : TTEntry) (other : Nat → TTEntry) : Option Nat :=
  let others := (List.range 64).filter fun i => i ≠ ch
  if bitsOf e.w0 63 56 ≠ 0 ∨ bitsOf e.w0 1 0 ≠ 0 ∨ bitsOf e.w1 31 27 ≠ 0 ∨ bitsOf e.w1 63 56 ≠ 0 ∨ bitsOf e.w2 63 24 ≠ 0 then
    some 1
  else if e.gang && e.dual then some 2
  else if e.ord && (decide (e.rate ≠ 0) || e.join || e.gang) then some 3
  else if e.fdepth < e.rate + 1 ∨ lsz < (e.fbase + e.fdepth) * 128 + 16384 then some 4
  else if others.any (fun i => !(other i).off && fifosMeet e (other i)) then some 5
  else if e.join && (decide (e.jch = ch) || (other e.jch).off || (other e.jch).join
      || others.any (fun i => !(other i).off && (other i).join && decide ((other i).jch = e.jch))
      || decide ((other e.jch).fdepth < e.jrate + 1)) then some 6
  else if ch = 62 then some 7
  else if ch = 63 ∧ (e.rate ≠ 0 ∨ e.join = true ∨ e.ord = true ∨ e.gang = true ∨ e.dual = true) then some 8
  else none

/-- R166: an image with the reserved bits left out, as the entry keeps it. -/
def ttMasked (w0 w1 w2 : Word) : Word × Word × Word :=
  (w0 &&& 0x00FFFFFFFFFFFFFF#64, w1 &&& 0x00FFFFFF07FFFFFF#64, w2 &&& 0xFFFFFF#64)

/-- R182, R228: the other entries of a logical core enter the read set. -/
def Slot.readEntries (f : Slot) (lc ch : Nat) : Slot :=
  ((List.range 64).filter fun i => i ≠ ch).foldl (fun f i => f.addRead (.tt f.firing.ctx lc i)) f

/-- R166, R228: TT.WR, held. -/
def execTtWr (s : Bool) (a b : BitVec 5) (st : State) : Out :=
  let f := st.focus
  let sel := f.gr a
  st.finish (do
    refuseIf (!st.myCtx.defines (selLc sel)) .bounds sel 0
    let r ← st.loadRange 8 3 f (f.gr b) 24
    let word (i : Nat) : Word := BitVec.ofNat 64 (leNat ((r.2.drop (8 * i)).take 8))
    let e : TTEntry := { w0 := word 0, w1 := word 1, w2 := word 2 }
    let f1 := r.1.readEntries (selLc sel) (selCh sel)
    let bad := if e.off then none
      else entryBreaks (st.lcOf f.firing.ctx (selLc sel)).lsz (selCh sel) e (st.ttSeen f (selLc sel))
    match bad with
    | some n => exc2 .illop (BitVec.ofNat 64 (selCh sel)) (BitVec.ofNat 64 n)
    | none =>
      let k := ttMasked (word 0) (word 1) (word 2)
      .ok ((f1.hold (.ttWr sel k.1 k.2.1 k.2.2)).advance s))

/-- R229: TT.RD: words 0 to 2 enter the read set; word 3 is live. -/
def execTtRd (s : Bool) (d a b : BitVec 5) (st : State) : Out :=
  let f := st.focus
  let sel := f.gr a
  let e := st.ttSeen f (selLc sel) (selCh sel)
  let f1 := f.addRead (.tt f.firing.ctx (selLc sel) (selCh sel))
  st.finish (if !st.myCtx.defines (selLc sel) then excAt .bounds sel
    else match bitsOf (f.gr b) 1 0 with
      | 0 => .ok ((f1.landG d e.w0).advance s)
      | 1 => .ok ((f1.landG d e.w1).advance s)
      | 2 => .ok ((f1.landG d e.w2).advance s)
      | _ => .ok ((f.landG d e.w3).advance s))

/-- R229: a held change of BLK. -/
def holdBlk (mark blk : Bool) (sel : Word) (st : State) : Out :=
  st.finish (if !st.myCtx.defines (selLc sel) then excAt .bounds sel
    else .ok ((st.focus.hold (.ttBlk sel blk)).advance mark))

/-- R229: TT.BLK. -/
def execTtBlk (s : Bool) (a : BitVec 5) (st : State) : Out := holdBlk s true (st.focus.gr a) st

/-- R229: TT.UBLK. -/
def execTtUblk (s : Bool) (a : BitVec 5) (st : State) : Out := holdBlk s false (st.focus.gr a) st

end Sys2Proof.Machine
end

