-- ==== Sys2Proof/Machine/Window.lean ====
section
/-! DEFINITION. The alias windows W1 to W8 (R91, R163, R164): the scale of an element, a window load and a window store
with their flags and events, and the SR count of window stores (R94). -/

namespace Sys2Proof.Machine

/-- R92, R94: the mode an instruction resolves to, with DYN from FRM. -/
def Slot.modeOf (f : Slot) (code : Nat) : RMode := rmodeOf code f.reg.frm.toNat

/-- R94: the draw of the vector instructions: c is the SR count, i the value's index. -/
def Slot.draw (f : Slot) (i : Nat) : Nat := srDraw f.firing.fid f.reg.srcnt (BitVec.ofNat 64 i)

/-- R94: the SR count after an instruction whose mode was SR. -/
def Slot.countSr (f : Slot) (mode : RMode) : Slot :=
  if mode = .sr then { f with reg := { f.reg with srcnt := f.reg.srcnt + 1 } } else f

/-- R164: counts an event of a code byte, at its scratchpad offset, and a saturation in the hidden count. -/
def Slot.event (f : Slot) (off sat nan : Nat) : Slot :=
  if sat = 0 ∧ nan = 0 then f
  else { f with chunk := { f.chunk with hidden := f.chunk.hidden + sat, winEv := f.chunk.winEv ++ [(off, sat, nan)] } }

/-- R96: the byte range of the bitmap that BLKIDX reads for an element: first byte and count. -/
def bitmapSpan (i : Nat) : Nat × Nat := (32 * (i >>> 8), (i >>> 3) - 32 * (i >>> 8) + 1)

/-- R96: BLKIDX of an element from its bitmap bytes and its superblock word. -/
def blkIdx (i : Nat) (bits : List Byte) (sb : Nat) : Int :=
  let n := i % 256 + 1
  (sb : Int) + (((List.range n).filter fun j => (bits.getD (j / 8) 0).getLsbD (j % 8)).length : Int) - 1

/-- R164: reads bytes of the own scratchpad for a window access at address a; an offset at or beyond L raises BOUNDS. -/
def State.ownBytes (s : State) (f : Slot) (a : Word) (off n : Nat) : Try (Slot × List Byte) :=
  if off + n ≤ (s.lcOf f.firing.ctx f.firing.lc).lsz then
    s.readKey f a (scratchKey f.firing.ctx f.firing.lc off) {} n
  else excAt .bounds a

/-- R91, R95, R96: the scale of element i under a format pair: the outer value is whether BLKIDX was defined, the inner
the scale's exponent, none for a NaN scale. -/
def State.windowScale (s : State) (f : Slot) (a F G : Word) (i : Nat) : Try (Slot × Bool × Option Int) :=
  match fmtBlock F with
  | 0 => .ok (f, true, some 0)
  | 1 => do
    let r ← s.ownBytes f a (bitsOf G 13 0 * 128 + (i >>> 5)) 1
    .ok (r.1, true, e8m0 (leNat r.2))
  | _ => do
    let sp := bitmapSpan i
    let r1 ← s.ownBytes f a (bitsOf G 27 14 * 128 + sp.1) sp.2
    let r2 ← s.ownBytes r1.1 a (bitsOf G 41 28 * 128 + 4 * (i >>> 8)) 4
    let k := blkIdx i r1.2 (leNat r2.2)
    if k < 0 then .ok (r2.1, false, none)
    else do
      let r3 ← s.ownBytes r2.1 a (bitsOf G 13 0 * 128 + k.toNat) 1
      .ok (r3.1, true, e8m0 (leNat r3.2))

/-- R91: the byte offset and the nibble of element i. -/
def elemByte (width i : Nat) : Nat := if width = 4 then i >>> 1 else i

/-- R91: the code of element i in its byte. -/
def elemCode (width i : Nat) (b : Byte) : Nat :=
  if width = 4 then (if i % 2 = 0 then b.toNat % 16 else b.toNat / 16) else b.toNat

/-- R91: the byte with the code of element i replaced. -/
def putCode (width i : Nat) (b : Byte) (code : Nat) : Byte :=
  if width = 4 then
    (if i % 2 = 0 then BitVec.ofNat 8 (b.toNat / 16 * 16 + code % 16) else BitVec.ofNat 8 (b.toNat % 16 + (code % 16) * 16))
  else BitVec.ofNat 8 code

/-- R91, R164: a window load: the decoded, scaled FP32 value; its flags land with the result. -/
def State.windowLoad (s : State) (f : Slot) (a : Word) (w off : Nat) : Try (Slot × Lane) := do
  let i := off / 4
  let p := s.fmtSeen f (w - 1)
  let F := fmtOfWord p.1
  let f0 := f.addRead (.fmt f.firing.ctx f.firing.lc (w - 1))
  let bo := elemByte F.width i
  let r ← s.ownBytes f0 a bo 1
  let sc ← s.windowScale r.1 a p.1 p.2 i
  let x := decodeFmt F (elemCode F.width i (r.2.getD 0 0))
  let y := x.scaled sc.2.2
  let v := rne32 y
  let f1 := (sc.1.raiseLate (v.flags ||| flagIf (!sc.2.1) flagInv)).event bo 0 (if y.isNan then 1 else 0)
  .ok (f1, v.val)

/-- R91, R164, R94: a window store of an FP32 value, by lane: narrowed with the window's own mode; a 4-bit store changes
only its own nibble, whose byte it therefore reads. -/
def State.windowStore (s : State) (f : Slot) (a : Word) (w off lane : Nat) (v : Lane) : Try Slot := do
  let i := off / 4
  let p := s.fmtSeen f (w - 1)
  let F := fmtOfWord p.1
  let f0 := f.addRead (.fmt f.firing.ctx f.firing.lc (w - 1))
  let bo := elemByte F.width i
  let key := scratchKey f.firing.ctx f.firing.lc bo
  let sc ← s.windowScale f0 a p.1 p.2 i
  let old ← (if F.width = 4 then s.ownBytes sc.1 a bo 1
    else if bo < (s.lcOf f.firing.ctx f.firing.lc).lsz then .ok (sc.1, []) else excAt .bounds a)
  let y := match sc.2.2 with
    | none => XR.nan
    | some k => (exact32 v).scale (-k)
  let mode := f.modeOf (fmtRm p.1)
  let r := roundTo F mode (f.draw lane) y
  let f1 := old.1
  let f2 : Slot := { f1 with chunk := { f1.chunk with
    wbuf := bufWrite f1.chunk.wbuf key (putCode F.width i (old.2.getD 0 0) r.code) } }
  .ok ((f2.raiseNow (r.flags ||| flagIf (!sc.2.1) flagInv)).event bo (if r.sat then 1 else 0)
    (if r.nanEv || !sc.2.1 then 1 else 0))

/-- R94: the window an address lies in, with 0 for none. -/
def windowOf (a : Word) : Nat :=
  match regionOf a with
  | .own w _ => if 1 ≤ w ∧ w ≤ 8 then w else 0
  | _ => 0

/-- R94: the mode that a window's format register resolves to for this firing. -/
def State.windowMode (s : State) (f : Slot) (w : Nat) : RMode := f.modeOf (fmtRm (s.fmtSeen f (w - 1)).1)

/-- R94: whether a window store counts as issued with SR: decided by the window of the lane-0 address, which enters the
read set; where that address is in no window, by the active lanes. -/
def State.countWindowSr (s : State) (f : Slot) (a0 : Word) (active : List Word) : Slot :=
  let w := windowOf a0
  if w = 0 then
    let any := active.any fun a => decide (windowOf a ≠ 0) && decide (s.windowMode f (windowOf a) = .sr)
    f.countSr (if any then .sr else .rne)
  else (f.addRead (.fmt f.firing.ctx f.firing.lc (w - 1))).countSr (s.windowMode f w)

end Sys2Proof.Machine
end

