-- ==== Sys2Proof/Machine/Cluster.lean ====
section
/-! DEFINITION. The XENG group but its hurdle unit: matrix jobs, copy requests, barriers and reduction groups as
instructions (R282 to R310, R349, R350), and the translation instructions (R277 to R280). -/

namespace Sys2Proof.Machine

/-! ### Engine registers (R285, R286) -/

/-- R286: the reset values. -/
def egReset (n : Nat) : Word :=
  match n with
  | 0 => 0xC6#64
  | 1 => 0x808080#64
  | 6 => 8#64
  | 7 => 0x3F800000#64
  | 9 => 0x7F800000FF800000#64
  | _ => 0#64

/-- R285: the committed value of an engine register. -/
def LCore.egOf (l : LCore) (n : Nat) : Word := lookupD l.eg n (egReset n)

/-- R285: an engine register as the chunk sees it. -/
def State.egSeen (st : State) (f : Slot) (n : Nat) : Word :=
  match f.chunk.held.reverse.findSome? fun h => match h with
    | .egWr j v => if j = n then some v else none
    | _ => none with
  | some v => v
  | none => (st.lcOf f.firing.ctx f.firing.lc).egOf n

/-- R284: a scope code that is reserved. -/
def scopeBad (n : Nat) : Bool := decide (6 ≤ n)

/-- R284 to R286: whether MX.WR refuses a value for a register. -/
def egBad (n : Nat) (v : Word) : Bool :=
  match n with
  | 0 => decide (bitsOf v 63 15 ≠ 0) || decide (bitsOf v 11 10 ≠ 0) || decide (2 ≤ bitsOf v 13 12)
  | 1 => decide (bitsOf v 63 25 ≠ 0)
  | 2 | 4 => decide (bitsOf v 15 7 ≠ 0) || decide (bitsOf v 63 32 ≠ 0)
  | 3 | 5 | 11 => false
  | 6 => decide (bitsOf v 63 5 ≠ 0) || decide (9 ≤ bitsOf v 3 0)
  | 7 => decide (bitsOf v 63 43 ≠ 0) || decide (5 ≤ bitsOf v 34 32) || decide (bitsOf v 42 40 = 7)
  | 8 => decide (bitsOf v 15 1 ≠ 0)
  | 9 =>
    let lo := exact32 (BitVec.ofNat 32 (bitsOf v 31 0))
    let hi := exact32 (BitVec.ofNat 32 (bitsOf v 63 32))
    lo.isNan || hi.isNan || decide (hi.cmp lo = .lt)
  | 10 => v.getLsbD 7 || decide (bitsOf v 31 20 ≠ 0) || decide (bitsOf v 63 48 ≠ 0)
  | 12 => v.getLsbD 7 || decide (bitsOf v 63 20 ≠ 0) || decide (62 ≤ bitsOf v 5 0)
  | 13 => decide (bitsOf v 63 8 ≠ 0) || scopeBad (bitsOf v 3 1) || scopeBad (bitsOf v 7 5)
  | _ => true

/-- R285: MX.WR, held. -/
def execMxWr (s : Bool) (a b : BitVec 5) (st : State) : Out :=
  let f := st.focus
  let n := bitsOf (f.gr a) 4 0
  st.finish (if egBad n (f.gr b) then exc2 .illop (BitVec.ofNat 64 n) (f.gr b)
    else .ok ((f.hold (.egWr n (f.gr b))).advance s))

/-- R285: MX.RD, short-class; EG14 to EG31 read zero. -/
def execMxRd (s : Bool) (a d : BitVec 5) (st : State) : Out :=
  let f := st.focus
  let n := bitsOf (f.gr a) 4 0
  if 14 ≤ n then shortResult s d 0 st
  else shortResult s d (st.egSeen f n) (st.withFocus (f.addRead (.eg f.firing.ctx f.firing.lc n)))

/-! ### Objects (R176, R177) -/

/-- R176: the fields of an object record, as a number. -/
def objBase (r : Nat) : Nat := natBits r 55 0
/-- R176: FMT. -/
def objFmt (r : Nat) : Nat := natBits r 68 64
/-- R176: the extent of a dimension; dimensions beyond NDIM are taken as 1. -/
def objDim (r k : Nat) : Nat := if natBits r 70 69 < k then 1 else natBits r (159 + 32 * k) (128 + 32 * k)
/-- R176: a signed stride in bytes. -/
def objStr (r k : Nat) : Int := (BitVec.ofNat 48 (natBits r (303 + 48 * k) (256 + 48 * k))).toInt
/-- R176: SCALE. -/
def objScale (r : Nat) : Nat := natBits r 503 448

/-- R176: a format code that exists. -/
def fmtCodeOk (c : Nat) : Bool := decide (c ≤ 9) || (decide (16 ≤ c) && decide (c ≤ 23))

/-- R177: whether a record is well formed: no reserved format code or bits. -/
def objOk (r : Nat) : Bool :=
  decide (natBits r 63 56 = 0) && decide (natBits r 127 75 = 0) && decide (natBits r 511 504 = 0) && fmtCodeOk (objFmt r)

/-- R176: the rights of a record: R, W, MX, CP are bits 7 to 10 of word 1. -/
def objRight (r bit : Nat) : Bool := decide (natBits r (64 + bit) (64 + bit) = 1)

/-- R176, R288: reads an object record; its bytes enter the read set. -/
def State.loadObj (st : State) (f : Slot) (i : Nat) : Try (Slot × Nat) := do
  let r ← st.loadBytes f (st.myCtx.objbase + BitVec.ofNat 64 (64 * i)) 64 64 .load
  .ok (r.1, leNat r.2)

/-- R288: the object formats that A and B may have. -/
def abFmtOk (c : Nat) : Bool := c ∈ [1, 2, 4, 5, 6, 7, 8, 9] || (decide (16 ≤ c) && decide (c ≤ 23))

/-- R88: a format code that names FMTk enters it in the read set. -/
def Slot.readFmtCode (f : Slot) (c : Nat) : Slot :=
  if 16 ≤ c ∧ c ≤ 23 then f.addRead (.fmt f.firing.ctx f.firing.lc (c - 16)) else f

/-! ### Matrix jobs (R287, R288) -/

/-- R283: the next job ID as the chunk sees it. -/
def State.nextJobId (st : State) (f : Slot) : Nat :=
  let n := (f.chunk.held.filter fun h => match h with
    | .job j => decide (j.engine = .matrix)
    | _ => false).length
  ((st.lcOf f.firing.ctx f.firing.lc).nextJob + n) % 2 ^ 16

/-- R283: the read-set member of the next-ID counter. -/
def Slot.jobCounter (f : Slot) : Loc := .counter f.firing.ctx f.firing.lc 0

/-- R287: whether a job word is refused. -/
def jobWordBad (w : Word) : Bool := decide (71 < bitsOf w 6 0) || decide (71 < bitsOf w 14 8) || decide (bitsOf w 63 16 ≠ 0)

/-- R288, check 5: an object of a job: its rights and its format. -/
def State.jobObj (st : State) (f : Slot) (i eg right : Nat) (fmtOk : Nat → Bool) : Try (Slot × (Nat × Nat)) := do
  let r ← st.loadObj f i
  refuseIf (!objOk r.2 || !objRight r.2 right || !objRight r.2 9 || !fmtOk (objFmt r.2)) .rights (BitVec.ofNat 64 i)
    (BitVec.ofNat 64 eg)
  .ok (r.1.readFmtCode (objFmt r.2), (i, r.2))

/-- R285: the engine registers that a job uses: 2 MX.LS, 3 MX.STR, 4 MX.DRN, 5 MX.ZER. -/
def jobRegs (op : Nat) : List Nat :=
  match op with
  | 2 => [0, 1, 4, 5, 13]
  | 3 => [0, 1, 2, 3, 6, 13]
  | 4 => [0, 1, 6, 7, 8, 9, 10, 11, 12, 13]
  | _ => [6, 13]

/-- R288, checks 2 and 3: the formats and the shape. -/
def jobFmtCheck (op : Nat) (eg : Nat → Word) : Try Unit := do
  let a := bitsOf (eg 0) 4 0
  let b := bitsOf (eg 0) 9 5
  refuseIf (op < 4 && !(abFmtOk a && abFmtOk b)) .illop 0 (eg 0)
  refuseIf (op = 4 && !fmtCodeOk (bitsOf (eg 7) 39 35)) .illop 7 (eg 7)
  let m := bitsOf (eg 1) 7 0
  let n := bitsOf (eg 1) 15 8
  let k := bitsOf (eg 1) 24 16
  let kMax := if bitsOf (eg 0) 13 12 = 1 then 256 else 128
  refuseIf (op < 5 && !(decide (1 ≤ m) && decide (m ≤ 128) && decide (1 ≤ n) && decide (n ≤ 128) && decide (1 ≤ k)
    && decide (k ≤ kMax))) .illop 1 (eg 1)

/-- R288, checks 4 to 6: the operands of a job; the records read. -/
def State.jobOperands (st : State) (f : Slot) (op : Nat) (eg : Nat → Word) : Try (Slot × List (Nat × Nat)) := do
  let src (n c : Nat) : Try (Slot × List (Nat × Nat)) :=
    if (eg n).getLsbD 0 then do
      let r ← st.jobObj f (bitsOf (eg n) 31 16) n 7 (fun x => decide (x = c))
      .ok (r.1, [r.2])
    else if (st.tileSeen f (bitsOf (eg n) 6 1)).size = 0 then excAt .bounds (BitVec.ofNat 64 (bitsOf (eg n) 6 1))
    else .ok (f.addRead (.tile f.firing.ctx f.firing.lc (bitsOf (eg n) 6 1)), [])
  match op with
  | 2 => src 4 (bitsOf (eg 0) 9 5)
  | 3 => src 2 (bitsOf (eg 0) 4 0)
  | 4 => do
    let r1 ← (if (eg 8).getLsbD 0 then do
        let r ← st.jobObj f (bitsOf (eg 8) 31 16) 8 7 (fun x => abFmtOk x || decide (x = 0))
        .ok (r.1, [r.2])
      else .ok (f, []))
    if (eg 10).getLsbD 0 then do
      let r ← st.jobObj r1.1 (bitsOf (eg 10) 47 32) 10 8 (fun x => decide (x = bitsOf (eg 7) 39 35))
      .ok (r.1, r1.2 ++ [r.2])
    else if !st.myCtx.defines (bitsOf (eg 10) 19 8) then excAt .bounds (eg 10)
    else .ok r1
  | _ => .ok (f, [])

/-- R64, R283: what every engine command carries of its issuer. -/
def Slot.jobBase (f : Slot) (e : Engine) (id op : Nat) (w : Word) : Job :=
  { engine := e, ctx := f.firing.ctx, lc := f.firing.lc, pcore := f.core, id := id, op := op, word := w
    fid := f.firing.fid, fts := f.firing.fts, fch := f.firing.ch, pc := f.reg.pc, frm := f.reg.frm.toNat
    draw := f.reg.srecnt.toNat }

/-- R94: the engine SR count of the firing after a command whose mode is SR. -/
def Slot.countEngineSr (f : Slot) (sr : Bool) : Slot :=
  if sr then { f with reg := { f.reg with srecnt := f.reg.srecnt + 1 } } else f

/-- R283, R285, R288: a job command: the checks, the copy of the bank, the job ID. -/
def State.matrixJob (st : State) (mark : Bool) (op : Nat) (d a : BitVec 5) : Out :=
  let f := st.focus
  let w := f.gr a
  let eg := st.egSeen f
  st.finish (do
    refuseIf (jobWordBad w) .illop w 0
    let f0 := (jobRegs op).foldl (fun f n => f.addRead (.eg f.firing.ctx f.firing.lc n)) f
    jobFmtCheck op eg
    let f1 := if op = 4 then f0.readFmtCode (bitsOf (eg 7) 39 35)
      else if op < 4 then (f0.readFmtCode (bitsOf (eg 0) 4 0)).readFmtCode (bitsOf (eg 0) 9 5) else f0
    let r ← st.jobOperands f1 op eg
    let id := st.nextJobId f
    let j : Job := { f.jobBase .matrix id op w with bank := (List.range 14).map eg, recs := r.2 }
    let sr := decide (op = 4) && decide (f.modeOf (bitsOf (eg 7) 42 40) = .sr)
    .ok (((((r.1.addRead f.jobCounter).hold (.job j)).countEngineSr sr).landG d (BitVec.ofNat 64 id)).advance mark))

/-- R291: MX.LS. -/
def execMxLs (s : Bool) (a d : BitVec 5) (st : State) : Out := st.matrixJob s 2 d a
/-- R293: MX.STR. -/
def execMxStr (s : Bool) (a d : BitVec 5) (st : State) : Out := st.matrixJob s 3 d a
/-- R297: MX.DRN. -/
def execMxDrn (s : Bool) (a d : BitVec 5) (st : State) : Out := st.matrixJob s 4 d a
/-- R294: MX.ZER. -/
def execMxZer (s : Bool) (a d : BitVec 5) (st : State) : Out := st.matrixJob s 5 d a

/-! ### Polling, sleeping, cancelling (R289, R302, R303, R309) -/

/-- R289: the state word of a job. -/
def Job.word' (j : Job) (count : Nat) : Word :=
  BitVec.ofNat 64 (j.st % 8 + (j.err % 2 ^ 8) * 2 ^ 8 + (if j.nanm then 2 ^ 16 else 0) + (min count (2 ^ 32 - 1)) * 2 ^ 32)

/-- R289, R309: the 64 most recently released commands of a logical core, newest first. -/
def State.recentJobs (st : State) (e : Engine) (ctx lc : Nat) : List Job :=
  (st.jobs.reverse.filter fun j => decide (j.engine = e) && decide (j.ctx = ctx) && decide (j.lc = lc)).take 64

/-- R289, R309: the most recent of them with a number; an older command is GONE, though the engine may still run it. -/
def State.findJob (st : State) (e : Engine) (ctx lc id : Nat) : Option Job :=
  (st.recentJobs e ctx lc).find? fun j => decide (j.id = id)

/-- R289: whether a job is held in the slot's open chunk. -/
def Slot.holdsJob (f : Slot) (id : Nat) : Bool :=
  f.chunk.held.any fun h => match h with
    | .job j => decide (j.engine = .matrix) && decide (j.id = id)
    | _ => false

/-- R289, R302: the state word of a job ID as the issuing chunk reads it. -/
def State.jobState (st : State) (f : Slot) (id : Nat) : Word :=
  if f.holdsJob id then 0
  else match st.findJob .matrix f.firing.ctx f.firing.lc id with
    | some j => j.word' j.oor
    | none => 7#64

/-- R302: MX.POLL, live. -/
def execMxPoll (s : Bool) (a d : BitVec 5) (st : State) : Out :=
  let f := st.focus
  .next (st.withFocus ((f.landG d (st.jobState f (bitsOf (f.gr a) 15 0))).advance s))

/-- R302: MX.SLP: parks until the state is 4 to 7. -/
def execMxSlp (s : Bool) (a d : BitVec 5) (st : State) : Out :=
  let f := st.focus
  let id := bitsOf (f.gr a) 15 0
  let w := st.jobState f id
  st.finish (if f.holdsJob id then excAt .illop (f.gr a)
    else if bitsOf w 2 0 < 4 then .error (.park (.job id) [])
    else .ok ((f.landG d w).advance s))

/-- R303: MX.CAN, held. -/
def execMxCan (s : Bool) (a : BitVec 5) (st : State) : Out :=
  let f := st.focus
  .next (st.withFocus ((f.hold (.mxCan (bitsOf (f.gr a) 15 0))).advance s))

/-! ### Copy requests (R304 to R307, R309) -/

/-- R305: a bit field of a word of a parameter block. -/
def blockBits (l : List Byte) (w hi lo : Nat) : Nat := natBits (leNat ((l.drop (8 * w)).take 8)) hi lo

/-- R305: the operation codes that use the source. -/
def cpReadsSrc (op : Nat) : Bool := op ∈ [0, 1, 2, 4]

/-- R369, R388: whether n frames from a physical address are installed. -/
def framesOk (pa n : Nat) : Bool := decide (pa / 2 ^ 16 + n ≤ Config.stackGiB * 2 ^ 17)

/-- R388: the byte offset of the first word of a REGRAN block that its rules refuse. -/
def regranIllegal (l : List Byte) : Option Nat :=
  let src := blockBits l 3 63 0
  let dst := blockBits l 5 63 0
  let n := blockBits l 6 31 0
  let frameBad (a : Nat) : Bool := decide (a % 2 ^ 16 ≠ 0) || decide (2 ^ 39 ≤ a) || !framesOk a n
  let release := decide (blockBits l 7 4 4 = 1)
  if blockBits l 0 5 4 ≠ 0 ∨ blockBits l 0 29 22 ≠ 0 ∨ scopeBad (blockBits l 0 9 7) = true
      ∨ scopeBad (blockBits l 0 13 11) = true ∨ blockBits l 0 31 31 ≠ 0 ∨ blockBits l 0 63 44 ≠ 0
      ∨ 71 < blockBits l 0 20 14 then some 0
  else if blockBits l 1 63 56 ≠ 0 ∨ blockBits l 1 1 0 ≠ 0 then some 8
  else if blockBits l 2 63 0 ≠ 0 then some 16
  else if frameBad src then some 24
  else if blockBits l 4 63 0 ≠ 0 then some 32
  else if !release && (frameBad dst || (decide (src < dst + n * 2 ^ 16) && decide (dst < src + n * 2 ^ 16))) then some 40
  else if n = 0 ∨ 4096 < n ∨ blockBits l 6 63 32 ≠ 1 then some 48
  else if blockBits l 7 63 15 ≠ 0 then some 56
  else none

/-- R305, R306: the byte offset of a reserved or illegal word of a block; none where it raises no ILLOP. The reserved bits
of SRC and SORG are checked for the operations that read no source too. -/
def cpIllegal (l : List Byte) : Option Nat :=
  let op := blockBits l 0 3 0
  let sk := blockBits l 0 4 4
  let dk := blockBits l 0 5 5
  let endBad (w k : Nat) : Bool := if k = 1 then decide (blockBits l w 63 18 ≠ 0) else decide (blockBits l w 63 16 ≠ 0)
  let orgBad (w k : Nat) : Bool := decide (k = 1) && (decide (blockBits l w 31 0 % 128 ≠ 0) || decide (blockBits l w 63 32 ≠ 0))
  let auxBad := match op with
    | 0 | 4 => decide (blockBits l 7 63 8 ≠ 0) || decide (blockBits l 7 7 6 = 3)
      || (decide (blockBits l 7 6 6 = 1) && decide (sk = 1)) || (decide (blockBits l 7 7 7 = 1) && decide (dk = 1))
    | 1 | 2 => decide (blockBits l 7 31 16 ≠ 0)
    | 3 => decide (blockBits l 7 63 32 ≠ 0)
    | _ => decide (blockBits l 7 63 0 ≠ 0)
  if op = 6 then regranIllegal l
  else if 6 < op ∨ blockBits l 0 29 27 = 7 ∨ scopeBad (blockBits l 0 9 7) = true ∨ scopeBad (blockBits l 0 13 11) = true
      ∨ blockBits l 0 31 31 ≠ 0 ∨ blockBits l 0 63 44 ≠ 0 ∨ 71 < blockBits l 0 20 14
      ∨ (op = 4 ∧ fmtCodeOk (blockBits l 0 26 22) = false) then some 0
  else if blockBits l 1 63 56 ≠ 0 ∨ blockBits l 1 1 0 ≠ 0 then some 8
  else if endBad 2 sk then some 16
  else if orgBad 3 sk then some 24
  else if endBad 4 dk then some 32
  else if orgBad 5 dk then some 40
  else if blockBits l 6 31 0 = 0 ∨ blockBits l 6 63 32 = 0 then some 48
  else if auxBad then some 56
  else none

/-- R83, R90, R176: the format of a format code; FMTk comes from the words given. -/
def fmtOfCode (fmts : Nat → Word) (c : Nat) : Fmt :=
  match c with
  | 0 => fp32
  | 1 => bf16
  | 2 => fp16
  | 3 => int32
  | 4 => int8
  | 5 => uint8
  | 6 => fmtOfWord (fmtReset 0)
  | 7 => fmtOfWord (fmtReset 1)
  | 8 => fmtOfWord (fmtReset 2)
  | 9 => fmtOfWord (fmtReset 4)
  | _ => fmtOfWord (fmts (c - 16))

/-- R306, R307: the span of bytes of a destination extent of an object: its lowest address and the one past its last
byte. -/
def extentSpan (r width i0 i1 e0 e1 : Nat) : Int × Int :=
  let at' (a b : Nat) : Int := (objBase r : Int) + (if width = 4 then ((a / 2 : Nat) : Int) else (a : Int) * objStr r 0)
    + (b : Int) * objStr r 1
  let c := [at' i0 i1, at' (i0 + e0 - 1) i1, at' i0 (i1 + e1 - 1), at' (i0 + e0 - 1) (i1 + e1 - 1)]
  (c.foldl min (at' i0 i1), c.foldl max (at' i0 i1) + (((width + 7) / 8 : Nat) : Int))

/-- R306: whether a destination extent meets the object table or the barrier mirror of a context. -/
def Ctx.spanInTables (c : Ctx) (p : Int × Int) : Bool :=
  decide (p.1 < (c.objbase.toNat : Int) + 0x420140) && decide ((c.objbase.toNat : Int) < p.2)

/-- R306: the object of an endpoint: CP and the right, with its read-set entries. -/
def State.cpObj (st : State) (f : Slot) (i right w : Nat) (blk : Word) : Try (Slot × List (Nat × Nat)) := do
  let r ← st.loadObj f i
  refuseIf (!objOk r.2 || !objRight r.2 10 || !objRight r.2 right) .rights blk (BitVec.ofNat 64 (8 * w))
  .ok (r.1.readFmtCode (objFmt r.2), [(i, r.2)])

/-- R306: a tile endpoint: a logical core the context defines and a defined tile. -/
def State.cpTileOk (st : State) (f : Slot) (l : List Byte) (w : Nat) : Bool :=
  let n := blockBits l w 11 0
  let t := blockBits l w 17 12
  let e := if n = f.firing.lc then st.tileSeen f t else (st.lcOf f.firing.ctx n).tileOf t
  st.myCtx.defines n && decide (e.size ≠ 0)

/-- R182, R282, R306: the check of a tile endpoint; the entry read enters the read set. -/
def State.cpTile (st : State) (f : Slot) (l : List Byte) (w : Nat) (tile : Bool) (blk : Word) : Try Slot :=
  if !tile then .ok f
  else if !st.cpTileOk f l w then exc2 .bounds blk (BitVec.ofNat 64 (8 * w))
  else .ok (f.addRead (.tile f.firing.ctx (blockBits l w 11 0) (blockBits l w 17 12)))

/-- R306: the checks of a block after ILLOP and PRIV: the records read. -/
def State.cpOperands (st : State) (f : Slot) (l : List Byte) (blk : Word) : Try (Slot × List (Nat × Nat)) := do
  let op := blockBits l 0 3 0
  let sk := blockBits l 0 4 4
  let dk := blockBits l 0 5 5
  if op = 6 then .ok (f, [])
  else do
    let farSrc := (decide (op = 0) || decide (op = 4)) && decide (blockBits l 7 6 6 = 1)
    let farDst := (decide (op = 0) || decide (op = 4)) && decide (blockBits l 7 7 7 = 1)
    let s ← (if (cpReadsSrc op || decide (op = 3 ∧ dk = 1)) && decide (sk = 0) && !farSrc then st.cpObj f (blockBits l 2 15 0) 7 2 blk else .ok (f, []))
    let d ← (if dk = 0 ∧ farDst = false then st.cpObj s.1 (blockBits l 4 15 0) 8 4 blk else .ok (s.1, []))
    let sf := s.2.head?.map fun p => objFmt p.2
    let df := d.2.head?.map fun p => objFmt p.2
    let fm : Nat → Word := fun k => (st.fmtSeen f k).1
    refuseIf (decide (op = 0) && sf.isSome && df.isSome && decide (sf ≠ df)) .illop blk 0
    refuseIf (decide (op = 4) && df.isSome && decide (df ≠ some (blockBits l 0 26 22))) .illop blk 0
    refuseIf (decide (op = 5) && d.2.any fun p => decide (objStr p.2 0 % 16 ≠ 0)) .illop blk 32#64
    let meets : Bool := d.2.any fun p =>
      let width := if op = 5 then 128 else (fmtOfCode fm (objFmt p.2)).width
      st.myCtx.spanInTables (extentSpan p.2 width (blockBits l 5 31 0) (blockBits l 5 63 32) (blockBits l 6 31 0)
        (blockBits l 6 63 32))
    refuseIf meets .rights blk 32#64
    let width := match df.or sf with
      | some c => (fmtOfCode fm c).width
      | none => 8
    refuseIf (decide (op = 3) && decide (2 ^ width ≤ blockBits l 7 31 0)) .rights blk 56#64
    let x ← (if op = 1 ∨ op = 2 then do
        let r ← st.cpObj d.1 (blockBits l 7 15 0) 7 7 blk
        refuseIf (r.2.any fun p => decide (objFmt p.2 ≠ 3)) .rights blk 56#64
        .ok r
      else .ok (d.1, []))
    let t ← st.cpTile x.1 l 2 (cpReadsSrc op && decide (sk = 1)) blk
    let u ← st.cpTile t l 4 (decide (dk = 1)) blk
    .ok (u, s.2 ++ d.2 ++ x.2)

/-- R264, R266: how many released requests of a physical core wait in its copy FIFO. -/
def State.cpQueued (st : State) (p : Nat) : Nat :=
  (st.jobs.filter fun j => decide (j.engine = .copy) && decide (j.pcore = p) && decide (j.st = 1)).length

/-- R60, R304 to R306: the block of a copy request, read and checked; and whether its mode is SR. A REGRAN of a user firing raises
PRIV before any other fault of the block. -/
def State.copyRequest (st : State) (f : Slot) (a tf : Word) : Try (Slot × Job × Bool) := do
  let tfBad : Bool := decide (bitsOf tf 63 17 ≠ 0)
  let r ← (match st.loadBytes f a 64 64 .load with
    | .ok r => .ok r
    | .error e => if tfBad then excAt .illop a else .error e)
  let op := blockBits r.2 0 3 0
  refuseIf (decide (op = 6) && !f.priv) .priv a 0
  refuseIf tfBad .illop a 0
  match cpIllegal r.2 with
  | some n => exc2 .illop a (BitVec.ofNat 64 n)
  | none =>
    let o ← st.cpOperands r.1 r.2 a
    let j : Job := { f.jobBase .copy (bitsOf tf 15 0) op tf with block := r.2, recs := o.2 }
    let sr := decide (op = 4) && decide (f.modeOf (blockBits r.2 0 29 27) = .sr)
    let f1 := if op = 4 then o.1.readFmtCode (blockBits r.2 0 26 22) else o.1
    .ok (f1, j, sr)

/-- R304: a checked copy request, held. -/
def Slot.holdCopy (r : Slot × Job × Bool) : Slot := (r.1.hold (.job r.2.1)).countEngineSr r.2.2

/-- R304: CP.PUSH: parks while the FIFO is full. -/
def execCpPush (s : Bool) (a b : BitVec 5) (st : State) : Out :=
  let f := st.focus
  st.finish (do
    let r ← st.copyRequest f (f.gr a) (f.gr b)
    if 8 ≤ st.cpQueued f.core then .error (.park .room []) else .ok ((Slot.holdCopy r).advance s))

/-- R304: CP.TRY: 1 and nothing held where the FIFO is full; what it read stays in the read set. -/
def execCpTry (s : Bool) (a b d : BitVec 5) (st : State) : Out :=
  let f := st.focus
  st.finish (do
    let r ← st.copyRequest f (f.gr a) (f.gr b)
    if 8 ≤ st.cpQueued f.core then .ok ((r.1.landG d 1#64).advance s)
    else .ok (((Slot.holdCopy r).landG d 0#64).advance s))

/-- R309: CP.POLL, live; its count is BYTES. -/
def execCpPoll (s : Bool) (a d : BitVec 5) (st : State) : Out :=
  let f := st.focus
  let w := match st.findJob .copy f.firing.ctx f.firing.lc (bitsOf (f.gr a) 15 0) with
    | some j => j.word' j.bytes
    | none => 7#64
  .next (st.withFocus ((f.landG d w).advance s))

/-- R309: CP.CAN, held. -/
def execCpCan (s : Bool) (a : BitVec 5) (st : State) : Out :=
  let f := st.focus
  .next (st.withFocus ((f.hold (.cpCan (bitsOf (f.gr a) 15 0))).advance s))

/-! ### Barriers (R195, R269, R310) -/

/-- R310: the barrier of an operand. -/
def barNum (w : Word) : Nat := bitsOf w 6 0

/-- R269: PART as the chunk sees it. -/
def State.partSeen (st : State) (f : Slot) (id : Nat) : Nat :=
  match f.chunk.held.reverse.findSome? fun h => match h with
    | .barCfg j n => if j = id then some n else none
    | _ => none with
  | some n => n
  | none => (st.myCtx.barOf (barOwner f.firing.lc id) id).part

/-- R269: the read-set member of a barrier's count. -/
def Slot.partLoc (f : Slot) (id : Nat) : Loc := .part f.firing.ctx (barOwner f.firing.lc id) id

/-- R269, R310: the checks of an arrive or a wait: the number and PART, which enters the read set. -/
def State.barCheck (st : State) (f : Slot) (w : Word) : Try Slot := do
  refuseIf (decide (71 < barNum w)) .illop w 0
  refuseIf (decide (st.partSeen f (barNum w) = 0)) .illop (BitVec.ofNat 64 (barNum w)) 0
  .ok (f.addRead (f.partLoc (barNum w)))

/-- R310: BAR.CFG, held. -/
def execBarCfg (s : Bool) (a b : BitVec 5) (st : State) : Out :=
  let f := st.focus
  st.finish (if 71 < barNum (f.gr a) then excAt .illop (f.gr a)
    else .ok ((f.hold (.barCfg (barNum (f.gr a)) (bitsOf (f.gr b) 15 0))).advance s))

/-- R195, R310: an arrive form closes the chunk. -/
def arriveForm (w : Word) (wait : Bool) (notify : Option Word) (st : State) : Out :=
  st.finish (do
    let f ← st.barCheck st.focus w
    .ok (f.closeAfter (.arrive (barNum w) wait notify)))

/-- R310: BAR.ARR. -/
def execBarArr (_s : Bool) (a : BitVec 5) (st : State) : Out := arriveForm (st.focus.gr a) false none st
/-- R310: BAR.AW. -/
def execBarAw (_s : Bool) (a : BitVec 5) (st : State) : Out := arriveForm (st.focus.gr a) true none st

/-- R310: BAR.AF: channels 62 and 63 raise ILLOP, before PART is checked (DESIGN CHOICE, log entry 117). -/
def execBarAf (_s : Bool) (a b : BitVec 5) (st : State) : Out :=
  let w := st.focus.gr b
  if 71 < barNum (st.focus.gr a) ∨ bitsOf w 5 0 < 62 then arriveForm (st.focus.gr a) false (some w) st
  else st.finish (excAt .illop w)

/-- R195, R310: the phase that a wait compares with: of the firing's last arrival on the barrier, else of the first issue
of the wait in the chunk. -/
def Firing.phaseOf (x : Firing) (id : Nat) : Option Bool :=
  match x.phases.find? fun p => p.1 = id with
  | some p => some p.2
  | none => (x.waits.find? fun p => p.1 = id).map fun p => p.2

/-- R421: whether the package that holds a barrier has not yet said in which phase it counted the firing's last arrival. -/
def Firing.awaitsCount (x : Firing) (id : Nat) : Bool := x.farArr.any fun p => p.1 = id

/-- R195, R310, R421: BAR.WAIT. -/
def execBarWait (s : Bool) (a : BitVec 5) (st : State) : Out :=
  let w := st.focus.gr a
  let id := barNum w
  match st.barCheck st.focus w with
  | .error e => st.finish (.error e)
  | .ok f =>
    let now := (st.myCtx.barOf (barOwner f.firing.lc id) id).phase
    let rec0 := (f.firing.phaseOf id).getD now
    let f1 : Slot := { f with firing := { f.firing with waits :=
      if (f.firing.phaseOf id).isSome then f.firing.waits else (id, now) :: f.firing.waits } }
    if now = rec0 ∨ f.firing.awaitsCount id = true then .next (st.withFocus { f1 with wait := .barrier id rec0 })
    else .next (st.withFocus (f1.advance s))

/-- R310: BAR.RD, live. -/
def execBarRd (s : Bool) (a d : BitVec 5) (st : State) : Out :=
  let f := st.focus
  let id := barNum (f.gr a)
  st.finish (if 71 < id then excAt .illop (f.gr a)
    else .ok ((f.landG d (st.myCtx.barOf (barOwner f.firing.lc id) id).word).advance s))

/-! ### Reduction groups (R349, R350) -/

/-- R349: RED.CFG, held. -/
def execRedCfg (s : Bool) (a b : BitVec 5) (st : State) : Out :=
  let f := st.focus
  let x := f.gr a
  let y := f.gr b
  let off := x.getLsbD 29
  st.finish (do
    refuseIf (decide (bitsOf x 63 30 ≠ 0) || (!off && (decide (bitsOf y 63 45 ≠ 0) || decide (62 ≤ bitsOf x 16 11)
      || (y.getLsbD 44 && decide (63 < bitsOf y 37 32 + bitsOf y 43 38))
      || (!y.getLsbD 44 && decide (bitsOf y 43 32 ≠ 0)) || rectBad y))) .illop x y
    let rootHere := !y.getLsbD 44 || decide (bitsOf y 37 32 = Config.ownPackage.val)
    refuseIf (!off && ((rootHere && !st.myCtx.defines (bitsOf x 28 17))
      || !(st.myCtx.lcores.any fun l => l.valid && inRect y l.n))) .bounds x 0
    .ok ((f.hold (.redCfg x y)).advance s))

/-- R350: the words of a group that RED.RD returns. -/
def RedGroup.word (r : RedGroup) (w : Nat) : Word :=
  match w with
  | 0 => r.cfgA
  | 1 => r.cfgB
  | 2 => BitVec.ofNat 64 (r.rounds % 2 ^ 32
      + ((r.got.filter fun c => c.1 = r.rounds).length % 2 ^ 16) * 2 ^ 32 + (min r.disc (2 ^ 16 - 1)) * 2 ^ 48)
  | _ => 0

/-- R350: RED.RD: the configuration enters the read set, the counts are live. -/
def execRedRd (s : Bool) (a d : BitVec 5) (st : State) : Out :=
  let f := st.focus
  let g := bitsOf (f.gr a) 5 0
  let w := bitsOf (f.gr a) 7 6
  let f1 := if w < 2 then f.addRead (.red f.firing.ctx g) else f
  .next (st.withFocus ((f1.landG d ((st.myCtx.redOf g).word w)).advance s))

/-! ### Translation instructions (R277 to R280) -/

/-- R60: a privileged instruction in a user firing raises PRIV. -/
def privileged (st : State) (t : Try Slot) : Out := st.finish (if st.focus.priv then t else .error (.exc .priv 0 0 0))

/-- R277: whether the images of TLB.WR are refused. -/
def tlbWrBad (x y : Word) : Bool :=
  decide (bitsOf x 15 9 ≠ 0) || decide (bitsOf x 63 47 ≠ 0) || decide (bitsOf y 4 3 = 3) || decide (bitsOf y 15 11 ≠ 0)
    || decide (bitsOf y 63 50 ≠ 0) || (x.getLsbD 8 && (decide (bitsOf x 20 16 ≠ 0) || decide (bitsOf y 20 16 ≠ 0)))

/-- R276, R277: TLB.WR, held; the epoch enters the read set. -/
def execTlbWr (s : Bool) (a b : BitVec 5) (st : State) : Out :=
  let f := st.focus
  privileged st (if tlbWrBad (f.gr a) (f.gr b) then exc2 .illop (f.gr a) (f.gr b)
    else .ok (((f.addRead (.epoch (clusterIdOf f.core))).hold (.sys 32 (f.gr a) (f.gr b))).advance s))

/-- R278: TLB.INV, held. -/
def execTlbInv (s : Bool) (a b : BitVec 5) (st : State) : Out :=
  let f := st.focus
  privileged st (if bitsOf (f.gr a) 63 11 ≠ 0 then excAt .illop (f.gr a)
    else .ok ((f.hold (.sys 33 (f.gr a) (f.gr b))).advance s))

/-- R279: TLB.RD, long-class. -/
def execTlbRd (s : Bool) (d a b : BitVec 5) (st : State) : Out :=
  let f := st.focus
  let c := st.clusterOf (clusterIdOf f.core)
  let hit := tlbFind c.tlb (bitsOf (f.gr a) 63 56) (f.gr a &&& 0x7FFFFFFFFFFF#64)
  privileged st (
    if (f.gr b).getLsbD 1 then .ok (((f.addRead (.epoch c.id)).landG d c.epoch).advance s)
    else match hit with
      | none => .ok ((f.landG d 0).advance s)
      | some e => .ok ((f.landG d (if (f.gr b).getLsbD 0 then e.b else e.a ||| 0x8000000000000000#64)).advance s))

/-- R280: FLT.RPLY, held. -/
def execFltRply (s : Bool) (a b : BitVec 5) (st : State) : Out :=
  let f := st.focus
  privileged st (if bitsOf (f.gr b) 1 0 = 3 ∨ 34 < bitsOf (f.gr a) 5 0 then exc2 .illop (f.gr a) (f.gr b)
    else .ok ((f.hold (.sys 35 (f.gr a) (f.gr b))).advance s))

end Sys2Proof.Machine
end

