-- ==== Sys2Proof/Machine/Control.lean ====
section
/-! DEFINITION. The CHK group (R230 to R238) but ABORT, which stands with the end of a firing: COMMIT, FENCE, digests,
tile instructions and prefetch. -/

namespace Sys2Proof.Machine

/-- R231: COMMIT. -/
def execCommit (_s : Bool) (st : State) : Out := .next (st.withFocus (st.focus.closeAfter .commit))

/-- R192, R231: FENCE. -/
def execFence (_s : Bool) (b : BitVec 5) (st : State) : Out :=
  .next (st.withFocus (st.focus.closeAfter (.fence b.toNat)))

/-- R233: DG.RD, live. -/
def execDgRd (s : Bool) (d a : BitVec 5) (st : State) : Out :=
  let f := st.focus
  .next (st.withFocus ((f.landG d (if (f.gr a).getLsbD 0 then st.myCtx.digest else f.firing.digest)).advance s))

/-- R233: DG.MODE, held. -/
def execDgMode (s : Bool) (a : BitVec 5) (st : State) : Out :=
  let f := st.focus
  st.finish (if bitsOf (f.gr a) 1 0 = 3 then excAt .illop (f.gr a)
    else .ok ((f.hold (.dgMode (bitsOf (f.gr a) 1 0))).advance s))

/-- R175: the read-set member of a tile of the firing's logical core. -/
def Slot.tileLoc (f : Slot) (t : Nat) : Loc := .tile f.firing.ctx f.firing.lc t

/-- R175, R234: a tile that is FILLING or DRAINING parks the slot. -/
def State.tileSettled (st : State) (f : Slot) (t : Nat) : Try Unit :=
  if (st.tileSeen f t).state % 2 = 1 then .error (.park (.tile t) [f.tileLoc t]) else .ok ()

/-- R234: TILE.DEF, held. -/
def execTileDef (s : Bool) (a : BitVec 5) (st : State) : Out :=
  let f := st.focus
  let w := f.gr a
  let t := tileDefIndex w
  st.finish (do
    refuseIf (decide (bitsOf w 30 29 ≠ 0) || decide (bitsOf w 63 41 ≠ 0) || decide (16384 < bitsOf w 28 14)) .illop w 0
    refuseIf (decide (st.myLc.lsz < (bitsOf w 13 0 + bitsOf w 28 14) * 128)) .bounds w 0
    st.tileSettled f t
    .ok (((f.addRead (f.tileLoc t)).hold (.tileDef w)).advance s))

/-- R235: TILE.ST, held. -/
def execTileSt (s : Bool) (a b : BitVec 5) (st : State) : Out :=
  let f := st.focus
  let t := bitsOf (f.gr a) 5 0
  st.finish (do
    refuseIf (decide (bitsOf (f.gr b) 0 0 = 1)) .illop (f.gr b) 0
    refuseIf (decide ((st.tileSeen f t).size = 0)) .bounds (f.gr a) 0
    st.tileSettled f t
    .ok (((f.addRead (f.tileLoc t)).hold (.tileSt t (bitsOf (f.gr b) 1 0))).advance s))

/-- R236: TILE.RD: word 0 enters the read set, word 1 is live; an undefined tile reads as zeros. -/
def execTileRd (s : Bool) (d a b : BitVec 5) (st : State) : Out :=
  let f := st.focus
  let t := bitsOf (f.gr a) 5 0
  let e := st.tileSeen f t
  if (f.gr b).getLsbD 0 then
    .next (st.withFocus ((f.landG d (if e.size = 0 then 0 else e.w1)).advance s))
  else .next (st.withFocus (((f.addRead (f.tileLoc t)).landG d (if e.size = 0 then 0 else e.w0)).advance s))

/-- R237: TILE.SAT: returns the counts and holds their reduction. -/
def execTileSat (s : Bool) (d a : BitVec 5) (st : State) : Out :=
  let f := st.focus
  let t := bitsOf (f.gr a) 5 0
  let e := st.tileSeen f t
  st.finish (if e.size = 0 then excAt .bounds (f.gr a)
    else .ok (((f.hold (.tileSat t e.sat e.nan)).landG d e.w1).advance s))

/-- R238, R379, R408: a fill of the line of an address that the core TLB translates; it does nothing for another. The L1 and the L2
are no part of the state (log entry 8), so every level fills the line of the LLC. -/
def State.prefetch (st : State) (a : Word) : State :=
  let f := st.focus
  match regionOf a, tlbFind (st.coreOf f.core).tlb f.firing.ctx a with
  | .device, some e =>
    let line := st.home (e.pa a) / 128 * 128
    ((st.fillMissing (fun _ => st.attrOf e a) ((List.range 4).map fun i => line + 32 * i)).chargeBursts st f.firing.ctx
      (clusterIdOf f.core)).charge f.firing.ctx (clusterIdOf f.core) llcCharge
  | _, _ => st

/-- R238: PF. -/
def execPf (s : Bool) (a _b : BitVec 5) (st : State) : Out :=
  .next ((st.prefetch (st.focus.gr a)).withFocus (st.focus.advance s))

end Sys2Proof.Machine
end

