-- ==== Sys2Proof/Machine/Hurdle.lean ====
section
/-! DEFINITION. The hurdle unit of the XENG group (R313 to R318, R325, R332, R335) and the class check of a stage
firing's instructions (R324). -/

namespace Sys2Proof.Machine

/-- R313: SET of a selector. -/
def hsSet (w : Word) : Nat := bitsOf w 1 0
/-- R313: REG of a selector. -/
def hsRegNum (w : Word) : Nat := bitsOf w 7 2
/-- R313: a register number that exists. -/
def hsRegOk (r : Nat) : Bool := decide (r ≠ 3) && decide (r < 36)

/-- R311: the hurdle sets a firing reaches: those of its logical cluster. -/
def Slot.lcl (f : Slot) : Nat := f.firing.lc / 8

/-- R315: the read-set member of a hurdle-set register. -/
def Slot.hsLoc (f : Slot) (set reg : Nat) : Loc := .hs f.firing.ctx f.lcl set reg

/-- R315: a register of a hurdle set as the chunk sees it. -/
def State.hsSeen (st : State) (f : Slot) (set reg : Nat) : Word :=
  match f.chunk.held.reverse.findSome? fun h => match h with
    | .hsWr sel v => if hsSet sel = set ∧ hsRegNum sel = reg then some v else none
    | _ => none with
  | some v => v
  | none => ((st.ctxOf f.firing.ctx).hurdle f.lcl).reg set reg

/-- R314: whether a value is refused for a register. -/
def hsValueBad (reg : Nat) (v : Word) : Bool :=
  if reg = 0 then decide (bitsOf v 15 12 ≠ 0) || decide (bitsOf v 63 33 ≠ 0) || decide (bitsOf v 32 16 < 256)
    || decide (65536 < bitsOf v 32 16)
  else if reg = 1 then decide (62 ≤ bitsOf v 17 12) || decide (bitsOf v 63 18 ≠ 0)
  else if reg = 2 then false
  else match reg % 4 with
    | 0 => decide (bitsOf v 9 8 = 3) || decide (62 ≤ bitsOf v 15 10) || decide (bitsOf v 19 16 = 0)
      || decide (bitsOf v 63 20 ≠ 0)
    | 1 | 2 => decide (bitsOf v 63 56 ≠ 0)
    | _ => decide (bitsOf v 63 48 ≠ 0)

/-- R332: how many records of a set lie in the buffer. -/
def HRouter.occupancy (h : HRouter) (set : Nat) : Nat := (h.recs.filter fun r => r.set = set).length

/-- R312: the buffer's free slots. -/
def HRouter.free (h : HRouter) : Nat := 2048 - h.recs.length

/-- R314: the fields NST, ORDEXIT, DSEND, TEST and HEATLEN of CTL, which a live set keeps. -/
def ctlFixed : Word := 0x1FFFF00EE#64

/-- R315: whether a live set refuses a write: old is CTL as the chunk sees it. An enabling of a set that still holds records is
refused by check 5 of R316. -/
def liveRefuses (old v : Word) (reg occ : Nat) : Bool :=
  let live := old.getLsbD 0 || decide (occ ≠ 0)
  live && (if reg = 0 then decide ((old ^^^ v) &&& ctlFixed ≠ 0)
    else decide (reg = 1) || (decide (4 ≤ reg) && decide (reg % 4 ≠ 3)))

/-- R316, check 3: a worker's entry. -/
def workerOk (e : TTEntry) (qd : Nat) : Bool :=
  !e.off && !e.ord && !e.gang && !e.join && decide (e.rate = 0) && decide (qd ≤ e.fdepth)

/-- R316: the first check that an enabling breaks, with its stage; the read-set members of every word read. -/
def State.enableCheck (st : State) (f : Slot) (set : Nat) (ctl : Word) : Option (Nat × Nat) × List Loc :=
  let n := bitsOf ctl 3 1 + 1
  let stages := List.range n
  let reg := st.hsSeen f set
  let members (s : Nat) : List Nat := (List.range 8).filter fun k => (reg (4 + 4 * s)).getLsbD k
  let entry (s k : Nat) : TTEntry := st.ttSeen f (8 * f.lcl + k) (bitsOf (reg (4 + 4 * s)) 15 10)
  let c1 := stages.find? fun s => bitsOf (reg (4 + 4 * s)) 7 0 = 0
  let c2 := stages.find? fun s => stages.any fun t => decide (s ≠ t) &&
    decide (reg (6 + 4 * s) &&& (reg (5 + 4 * t) ||| reg (6 + 4 * t)) ≠ 0)
  let c3 := stages.find? fun s => (members s).any fun k => !workerOk (entry s k) (bitsOf (reg (4 + 4 * s)) 19 16)
  let ex := reg 1
  let exit := st.ttSeen f (bitsOf ex 11 0) (bitsOf ex 17 12)
  let c4 := !st.myCtx.defines (bitsOf ex 11 0) || exit.off || exit.ord
  let c5 := decide (((st.ctxOf f.firing.ctx).hurdle f.lcl).occupancy set ≠ 0)
  let reads := (stages.map fun s => [f.hsLoc set (4 + 4 * s), f.hsLoc set (5 + 4 * s), f.hsLoc set (6 + 4 * s)]
    ++ (members s).map fun k => Loc.tt f.firing.ctx (8 * f.lcl + k) (bitsOf (reg (4 + 4 * s)) 15 10)).flatten
    ++ [f.hsLoc set 1, .tt f.firing.ctx (bitsOf ex 11 0) (bitsOf ex 17 12)]
  (match c1, c2, c3 with
    | some s, _, _ => some (1, s)
    | none, some s, _ => some (2, s)
    | none, none, some s => some (3, s)
    | none, none, none => if c4 then some (4, 0) else if c5 then some (5, 0) else none, reads)

/-- R77, R315, R316: HS.WR, held. R315 names INFO words for a reserved or invalid value alone. -/
def execHsWr (s : Bool) (a b : BitVec 5) (st : State) : Out :=
  let f := st.focus
  let sel := f.gr a
  let v := f.gr b
  let set := hsSet sel
  let reg := hsRegNum sel
  let old := st.hsSeen f set 0
  let occ := ((st.ctxOf f.firing.ctx).hurdle f.lcl).occupancy set
  st.finish (do
    refuseIf (!hsRegOk reg || hsValueBad reg v) .illop sel v
    let f1 := f.addRead (f.hsLoc set 0)
    refuseIf (liveRefuses old v reg occ) .illop 0 0
    let ec := if reg = 0 ∧ v.getLsbD 0 = true ∧ old.getLsbD 0 = false then st.enableCheck f set v else (none, [])
    match ec.1 with
    | some (n, stage) => .error (.exc .illop (BitVec.ofNat 64 set) (BitVec.ofNat 64 n) (BitVec.ofNat 64 stage))
    | none => .ok (((ec.2.foldl Slot.addRead f1).hold (.hsWr sel v)).advance s))

/-- R315, R332: HS.RD, short-class. -/
def execHsRd (s : Bool) (a d : BitVec 5) (st : State) : Out :=
  let f := st.focus
  let set := hsSet (f.gr a)
  let reg := hsRegNum (f.gr a)
  if hsRegOk reg then shortResult s d (st.hsSeen f set reg) (st.withFocus (f.addRead (f.hsLoc set reg)))
  else shortResult s d 0 st

/-- R318: the logical core's entry count for a set, as the chunk sees it. -/
def State.hsCountSeen (st : State) (f : Slot) (set : Nat) : Nat :=
  lookupD st.myLc.hsCount set 0 + (f.chunk.held.filter fun h => match h with
    | .hsEnt j _ _ => decide (j = set)
    | _ => false).length

/-- R318: the RID of an entry. -/
def ridOf (lc n : Nat) : Nat := (lc % 8) * 2 ^ 29 + n % 2 ^ 29

/-- R318: HS.ENT and HS.TRY: what each does with a full buffer is full. -/
def State.hsEnter (st : State) (mark : Bool) (a b d : BitVec 5) (full : Slot → Try Slot) : Out :=
  let f := st.focus
  let set := hsSet (f.gr a)
  st.finish (do
    refuseIf (!(st.hsSeen f set 0).getLsbD 0) .illop (f.gr a) 0
    refuseIf (decide ((f.gr b).toNat % 8 ≠ 0)) .misalign (f.gr b) 0
    let r ← st.loadRange 8 8 (f.addRead (f.hsLoc set 0)) (f.gr b + 8#64) 56
    if ((st.ctxOf f.firing.ctx).hurdle f.lcl).free = 0 then full r.1
    else
      let rid := ridOf f.firing.lc (st.hsCountSeen f set)
      .ok ((((r.1.addRead (.counter f.firing.ctx f.firing.lc (1 + set))).hold (.hsEnt set rid r.2)).landG d
        (BitVec.ofNat 64 rid)).advance mark))

/-- R318: HS.ENT parks while the buffer is full. -/
def execHsEnt (s : Bool) (a b d : BitVec 5) (st : State) : Out :=
  st.hsEnter s a b d fun f => .error (.park .room f.chunk.rset)

/-- R318: HS.TRY answers all ones while the buffer is full. -/
def execHsTry (s : Bool) (a b d : BitVec 5) (st : State) : Out :=
  st.hsEnter s a b d fun f => .ok ((f.landG d (BitVec.allOnes 64)).advance s)

/-- R325: the checks of a verdict: a stage firing without a verdict; the stage's logical cluster, set and number. -/
def State.verdictStage (st : State) : Try (Nat × Nat × Nat) :=
  match st.focus.firing.stage with
  | none => excAt .illop 0
  | some t => if st.focus.verdictGiven then excAt .illop 1#64 else .ok (t.1, t.2.1, t.2.2.1)

/-- R325: bytes 8 to 63 of a v register. -/
def verdictBytes (v : VReg) : List Byte := ((leBytes 128 (v.toList.foldr (fun x n => x.toNat + 2 ^ 32 * n) 0)).drop 8).take 56

/-- R325: HS.PASS, held. -/
def execHsPass (s : Bool) (a b : BitVec 5) (st : State) : Out :=
  let f := st.focus
  let mask := f.gr b &&& 0xFFFFFFFFFFFFFF#64
  st.finish (do
    let t ← st.verdictStage
    refuseIf (decide (mask &&& ~~~ (((st.ctxOf f.firing.ctx).hurdle t.1).reg t.2.1 (6 + 4 * t.2.2)) ≠ 0)) .illop
      (f.gr b) 0
    .ok ((f.hold (.hsVerdict true mask (verdictBytes (f.vr ((f.gr a).extractLsb' 0 5))))).advance s))

/-- R325: HS.DROP, held. -/
def execHsDrop (s : Bool) (st : State) : Out :=
  st.finish (do
    let _ ← st.verdictStage
    .ok ((st.focus.hold (.hsVerdict false 0 [])).advance s))

/-- R323: the counts of a stage. -/
def stageCount (l : List (Nat × Nat × Nat × Nat)) (s : Nat) : Nat × Nat × Nat := lookupD l s (0, 0, 0)

/-- R323: the statistics of a set. -/
def HRouter.stat (h : HRouter) (set : Nat) : HStats := lookupD h.stats set {}

/-- R320: D, the records waiting for or dispatched to a stage. -/
def HRouter.depth (h : HRouter) (set s : Nat) : Nat :=
  (h.recs.filter fun r => decide (r.set = set) && decide (r.stage = s) && (match r.phase with
    | .waiting => true
    | .dispatched _ => true
    | _ => false)).length

/-- R332: a count that holds at 2^64 - 1. -/
def heldCount (n : Nat) : Word := BitVec.ofNat 64 (min n (2 ^ 64 - 1))

/-- R332: the words of HS.STAT. -/
def HRouter.statWord (h : HRouter) (set s w : Nat) : Word :=
  let x := h.stat set
  match w with
  | 0 => heldCount (stageCount x.live s).1
  | 1 => heldCount (stageCount x.live s).2.1
  | 2 => heldCount (stageCount x.live s).2.2
  | 3 => heldCount (stageCount x.frozen s).1
  | 4 => heldCount (stageCount x.frozen s).2.1
  | 5 => heldCount (stageCount x.frozen s).2.2
  | 6 => heldCount (h.depth set s)
  | 8 => heldCount x.heats
  | 9 => heldCount x.entered
  | 10 => heldCount x.exited
  | 11 => heldCount x.dropped
  | 12 => heldCount x.errs
  | 13 => heldCount (h.occupancy set)
  | 14 => heldCount h.free
  | 15 => x.dcount
  | _ => 0

/-- R332: HS.STAT, live. -/
def execHsStat (s : Bool) (a b d : BitVec 5) (st : State) : Out :=
  let f := st.focus
  let w := ((st.ctxOf f.firing.ctx).hurdle f.lcl).statWord (hsSet (f.gr a)) (bitsOf (f.gr a) 4 2) (bitsOf (f.gr b) 3 0)
  .next (st.withFocus ((f.landG d w).advance s))

/-- R324: whether an instruction is one that a PURE or COUNT stage firing may not issue. -/
def stageForbidden : Instr → Bool
  | .send .. | .sendt .. | .sendm .. | .sendr .. => true
  | .mxWr .. | .mxLs .. | .mxStr .. | .mxDrn .. | .mxZer .. | .mxSlp .. | .mxCan .. => true
  | .cpPush .. | .cpTry .. | .cpCan .. => true
  | .hsWr .. | .hsEnt .. | .hsTry .. => true
  | .barCfg .. | .barArr .. | .barWait .. | .barAw .. | .barAf .. => true
  | .redCfg .. | .redRd .. => true
  | .ttWr .. | .ttBlk .. | .ttUblk .. | .lawWr .. | .clkAdv .. | .fmtSet .. | .wgClr .. | .wgSync .. => true
  | .tileDef .. | .tileSt .. | .tileSat .. | .dgMode .. => true
  | .csrw _ _ _ n => decide (0x10 ≤ n.toNat) && decide (n.toNat ≠ 0x800)
  | .csrs _ _ a n => decide (a ≠ 0) && decide (0x10 ≤ n.toNat) && decide (n.toNat ≠ 0x800)
  | .csrc _ _ a n => decide (a ≠ 0) && decide (0x10 ≤ n.toNat) && decide (n.toNat ≠ 0x800)
  | _ => false

end Sys2Proof.Machine
end

