-- ==== Sys2Proof/Machine/Memory.lean ====
section
/-! DEFINITION. Loads, stores, vector loads and stores, tile accesses, gathers, scatters and atomics (R203 to R217). -/

namespace Sys2Proof.Machine

/-- R206, R207: one element read: the bytes it returns; through a window, the FP32 value. -/
def State.loadElem (st : State) (f : Slot) (a : Word) (size : Nat) (win : Bool) : Try (Slot × List Byte) := do
  match ← st.access f a size .load win with
  | .cells k at' => st.readKey f a k at' size
  | .hostMem off => .ok (f, cellReadList st.host (f.firing.ctx * 2 ^ 55 + off) size)
  | .window w off =>
    let r ← st.windowLoad f a w off
    .ok (r.1, leBytes 4 r.2.toNat)
  | .live off => .ok (f, st.myCtx.mirrorBytes off size)
  | .zero => .ok (f, List.replicate size 0)

/-- R206, R207: one element written; through a window, lane's FP32 value narrowed. -/
def State.storeElem (st : State) (f : Slot) (a : Word) (l : List Byte) (win : Bool) (lane : Nat) : Try Slot := do
  match ← st.access f a l.length .store win with
  | .cells k at' => .ok (f.store k at' l)
  | .hostMem _ => .ok (f.hold (.hostStore a l))
  | .window w off => st.windowStore f a w off lane (BitVec.ofNat 32 (leNat l))
  | _ => .ok f

/-- R207: the value a load gives: the bytes sign- or zero-extended. -/
def loadValue (l : List Byte) (size : Nat) (signed : Bool) : Word :=
  if signed then sextW (BitVec.ofNat 64 (leNat l)) (8 * size) else BitVec.ofNat 64 (leNat l)

/-- R207: a scalar load; W forms may go through a window (R163). -/
def scalarLoad (mark : Bool) (d a : BitVec 5) (o : BitVec 12) (size : Nat) (signed : Bool) (st : State) : Out :=
  st.finish (do
    let r ← st.loadElem st.focus (memAddr (st.focus.gr a) o size) size (decide (size = 4))
    .ok ((r.1.landG d (loadValue r.2 size signed)).advance mark))

/-- R207: LD.B. -/
def execLdB (s : Bool) (d a : BitVec 5) (o : BitVec 12) (st : State) : Out := scalarLoad s d a o 1 true st
/-- R207: LD.BU. -/
def execLdBu (s : Bool) (d a : BitVec 5) (o : BitVec 12) (st : State) : Out := scalarLoad s d a o 1 false st
/-- R207: LD.H. -/
def execLdH (s : Bool) (d a : BitVec 5) (o : BitVec 12) (st : State) : Out := scalarLoad s d a o 2 true st
/-- R207: LD.HU. -/
def execLdHu (s : Bool) (d a : BitVec 5) (o : BitVec 12) (st : State) : Out := scalarLoad s d a o 2 false st
/-- R207: LD.W. -/
def execLdW (s : Bool) (d a : BitVec 5) (o : BitVec 12) (st : State) : Out := scalarLoad s d a o 4 true st
/-- R207: LD.WU. -/
def execLdWu (s : Bool) (d a : BitVec 5) (o : BitVec 12) (st : State) : Out := scalarLoad s d a o 4 false st
/-- R207: LD.D. -/
def execLdD (s : Bool) (d a : BitVec 5) (o : BitVec 12) (st : State) : Out := scalarLoad s d a o 8 false st

/-- R207, R208: a scalar store of the low bytes of g[d]. -/
def scalarStore (mark : Bool) (d a : BitVec 5) (o : BitVec 12) (size : Nat) (st : State) : Out :=
  let f := st.focus
  let addr := memAddr (f.gr a) o size
  st.finish (do
    let f1 ← st.storeElem f addr (leBytes size (f.gr d).toNat) (decide (size = 4)) 0
    .ok ((if size = 4 then st.countWindowSr f1 addr [addr] else f1).advance mark))

/-- R207: ST.B. -/
def execStB (s : Bool) (d a : BitVec 5) (o : BitVec 12) (st : State) : Out := scalarStore s d a o 1 st
/-- R207: ST.H. -/
def execStH (s : Bool) (d a : BitVec 5) (o : BitVec 12) (st : State) : Out := scalarStore s d a o 2 st
/-- R207: ST.W. -/
def execStW (s : Bool) (d a : BitVec 5) (o : BitVec 12) (st : State) : Out := scalarStore s d a o 4 st
/-- R207: ST.D. -/
def execStD (s : Bool) (d a : BitVec 5) (o : BitVec 12) (st : State) : Out := scalarStore s d a o 8 st

/-- R210: reads the elements of the active lanes in ascending order; the result lists one value a lane, none where the
lane is inactive. -/
def State.loadLanes (st : State) (m : Lane) (addr : Nat → Word) (size : Nat) (win : Bool) :
    List Nat → Slot → Try (Slot × List (Option (List Byte)))
  | [], f => .ok (f, [])
  | l :: ls, f =>
    if laneOn m l then do
      let r ← st.loadElem f (addr l) size win
      let t ← st.loadLanes m addr size win ls r.1
      .ok (t.1, some r.2 :: t.2)
    else do
      let t ← st.loadLanes m addr size win ls f
      .ok (t.1, none :: t.2)

/-- R210: writes the elements of the active lanes in ascending order. -/
def State.storeLanes (st : State) (m : Lane) (addr : Nat → Word) (val : Nat → List Byte) (win : Bool) :
    List Nat → Slot → Try Slot
  | [], f => .ok f
  | l :: ls, f =>
    if laneOn m l then do
      let f1 ← st.storeElem f (addr l) (val l) win l
      st.storeLanes m addr val win ls f1
    else st.storeLanes m addr val win ls f

/-- R209: the lanes of a load's destination: loaded where active, else what the register holds. -/
def mergeLanes (old : VReg) (l : List (Option (List Byte))) (conv : Nat → Lane) : VReg :=
  vecOf fun i => match l.getD i none with
    | some b => conv (leNat b)
    | none => laneAt old i

/-- R209, R213: a vector load. -/
def vectorLoad (mark : Bool) (d : BitVec 5) (q : BitVec 3) (addr : Nat → Word) (size : Nat) (win : Bool)
    (conv : Nat → Lane) (st : State) : Out :=
  let f := st.focus
  st.finish (do
    let r ← st.loadLanes (f.mr q) addr size win (List.range 32) f
    .ok ((r.1.landV d (mergeLanes (f.vr d) r.2 conv)).advance mark))

/-- R209: VLD.W. -/
def execVldW (s : Bool) (d a : BitVec 5) (q : BitVec 3) (o : BitVec 9) (st : State) : Out :=
  vectorLoad s d q (fun l => vmAddr (st.focus.gr a) o 128 + BitVec.ofNat 64 (4 * l)) 4 true (BitVec.ofNat 32) st

/-- R209: VLD.BF. -/
def execVldBf (s : Bool) (d a : BitVec 5) (q : BitVec 3) (o : BitVec 9) (st : State) : Out :=
  vectorLoad s d q (fun l => vmAddr (st.focus.gr a) o 64 + BitVec.ofNat 64 (2 * l)) 2 false
    (fun c => BitVec.ofNat 32 (c * 65536)) st

/-- R209: an FP16 code widened exactly to FP32. -/
def widenHalf (c : Nat) : Lane := (rne32 (decodeFmt fp16 c)).val

/-- R209: VLD.H. -/
def execVldH (s : Bool) (d a : BitVec 5) (q : BitVec 3) (o : BitVec 9) (st : State) : Out :=
  vectorLoad s d q (fun l => vmAddr (st.focus.gr a) o 64 + BitVec.ofNat 64 (2 * l)) 2 false widenHalf st

/-- R209: VLD.B. -/
def execVldB (s : Bool) (d a : BitVec 5) (q : BitVec 3) (o : BitVec 9) (st : State) : Out :=
  vectorLoad s d q (fun l => vmAddr (st.focus.gr a) o 32 + BitVec.ofNat 64 l) 1 false (BitVec.ofNat 32) st

/-- R209: VLD.SB. -/
def execVldSb (s : Bool) (d a : BitVec 5) (q : BitVec 3) (o : BitVec 9) (st : State) : Out :=
  vectorLoad s d q (fun l => vmAddr (st.focus.gr a) o 32 + BitVec.ofNat 64 l) 1 false
    (fun c => (BitVec.ofNat 8 c).signExtend 32) st

/-- R209: VLD.BC: the same 4 bytes in every active lane, read once if any is active. -/
def execVldBc (s : Bool) (d a : BitVec 5) (q : BitVec 3) (o : BitVec 9) (st : State) : Out :=
  let f := st.focus
  st.finish (
    if f.mr q = 0 then .ok ((f.landV d (f.vr d)).advance s)
    else do
      let r ← st.loadElem f (vmAddr (f.gr a) o 4) 4 false
      let x := BitVec.ofNat 32 (leNat r.2)
      .ok ((r.1.landV d (vecOf fun l => if laneOn (f.mr q) l then x else laneAt (f.vr d) l)).advance s))

/-- R209: VST.W; through windows each lane is an ST.W. -/
def execVstW (s : Bool) (d a : BitVec 5) (q : BitVec 3) (o : BitVec 9) (st : State) : Out :=
  let f := st.focus
  let addr := fun l => vmAddr (f.gr a) o 128 + BitVec.ofNat 64 (4 * l)
  st.finish (do
    let f1 ← st.storeLanes (f.mr q) addr (fun l => leBytes 4 (laneAt (f.vr d) l).toNat) true (List.range 32) f
    .ok ((st.countWindowSr f1 (addr 0) (((List.range 32).filter (laneOn (f.mr q))).map addr)).advance s))

/-- R211: the lanes of a narrowing store, rounded with the mode in FRM at issue. -/
def narrowLane (F : Fmt) (f : Slot) (d : BitVec 5) (l : Nat) : Rounded :=
  roundTo F (f.modeOf 6) (f.draw l) (exact32 (laneAt (f.vr d) l))

/-- R209, R211: VST.BF and VST.H: 16-bit codes with the flags and saturation events of R93 over the active lanes; the
SR count advances once. -/
def narrowStore (F : Fmt) (mark : Bool) (d a : BitVec 5) (q : BitVec 3) (o : BitVec 9) (st : State) : Out :=
  let f := st.focus
  let on := (List.range 32).filter (laneOn (f.mr q))
  let fl := on.foldl (fun w l => w ||| (narrowLane F f d l).flags) 0
  st.finish (do
    let f1 ← st.storeLanes (f.mr q) (fun l => vmAddr (f.gr a) o 64 + BitVec.ofNat 64 (2 * l))
      (fun l => leBytes 2 (narrowLane F f d l).code) false (List.range 32) f
    .ok (((f1.raiseNow fl).countSr (f.modeOf 6)).advance mark))

/-- R209: VST.BF. -/
def execVstBf (s : Bool) (d a : BitVec 5) (q : BitVec 3) (o : BitVec 9) (st : State) : Out :=
  narrowStore bf16 s d a q o st

/-- R209: VST.H. -/
def execVstH (s : Bool) (d a : BitVec 5) (q : BitVec 3) (o : BitVec 9) (st : State) : Out :=
  narrowStore fp16 s d a q o st

/-- R209: VST.B: bits [7:0] of each active lane, with no rounding. -/
def execVstB (s : Bool) (d a : BitVec 5) (q : BitVec 3) (o : BitVec 9) (st : State) : Out :=
  let f := st.focus
  st.finish (do
    let f1 ← st.storeLanes (f.mr q) (fun l => vmAddr (f.gr a) o 32 + BitVec.ofNat 64 l)
      (fun l => leBytes 1 (laneAt (f.vr d) l).toNat) false (List.range 32) f
    .ok (f1.advance s))

/-- R212: the checks of VLDT and VSTT, in order: an undefined tile, the offset, then the state; the key of the access.
read says that the access reads the tile. -/
def State.tileAccess (st : State) (f : Slot) (t : BitVec 6) (off : Word) (read : Bool) : Try (Slot × Nat) :=
  let x := st.tileSeen f t.toNat
  let loc := Loc.tile f.firing.ctx f.firing.lc t.toNat
  if x.size = 0 then excAt .bounds (BitVec.ofNat 64 t.toNat)
  else if off.toNat % 128 ≠ 0 ∨ x.size * 128 ≤ off.toNat then excAt .bounds off
  else if decide (x.state = 2) || (read && decide (x.state = 3)) then
    .ok (f.addRead loc, scratchKey f.firing.ctx f.firing.lc (x.base * 128 + off.toNat))
  else .error (.park (.tile t.toNat) [loc])

/-- R212: the address of a tile access as a W0 address, for POISON's INFO0. -/
def ownAddr (off : Nat) : Word := BitVec.ofNat 64 (0xFFFF0000000000 + off)

/-- R212: the lanes of a tile read. -/
def State.tileLanes (st : State) (f : Slot) (m : Lane) (k : Nat) : List Nat → Try (Slot × List (Option (List Byte)))
  | [] => .ok (f, [])
  | l :: ls =>
    if laneOn m l then do
      let r ← st.readKey f (ownAddr (k % 2 ^ 24 + 4 * l)) (k + 4 * l) {} 4
      let t ← st.tileLanes r.1 m k ls
      .ok (t.1, some r.2 :: t.2)
    else do
      let t ← st.tileLanes f m k ls
      .ok (t.1, none :: t.2)

/-- R212: VLDT. -/
def execVldt (s : Bool) (d : BitVec 5) (t : BitVec 6) (g : BitVec 5) (q : BitVec 3) (st : State) : Out :=
  let f := st.focus
  st.finish (do
    let p ← st.tileAccess f t (f.gr g) true
    let r ← st.tileLanes p.1 (f.mr q) p.2 (List.range 32)
    .ok ((r.1.landV d (mergeLanes (f.vr d) r.2 (BitVec.ofNat 32))).advance s))

/-- R212: VSTT. -/
def execVstt (s : Bool) (d : BitVec 5) (t : BitVec 6) (g : BitVec 5) (q : BitVec 3) (st : State) : Out :=
  let f := st.focus
  st.finish (do
    let p ← st.tileAccess f t (f.gr g) false
    let buf := ((List.range 32).filter (laneOn (f.mr q))).foldl
      (fun b l => bufWriteList b (p.2 + 4 * l) (leBytes 4 (laneAt (f.vr d) l).toNat)) p.1.chunk.wbuf
    .ok (({ p.1 with chunk := { p.1.chunk with wbuf := buf } } : Slot).advance s))

/-- R213: the address of a lane under indices, modulo 2^64. -/
def indexAddr (base : Word) (idx : VReg) (l : Nat) : Word := base + 4#64 * (laneAt idx l).signExtend 64

/-- R213: the address of a lane under a signed byte stride. -/
def strideAddr (base stride : Word) (l : Nat) : Word := base + BitVec.ofNat 64 l * stride

/-- R213: VGATH. -/
def execVgath (s : Bool) (d a b : BitVec 5) (q : BitVec 3) (st : State) : Out :=
  vectorLoad s d q (indexAddr (st.focus.gr b) (st.focus.vr a)) 4 true (BitVec.ofNat 32) st

/-- R213: VLDS. -/
def execVlds (s : Bool) (d a b : BitVec 5) (q : BitVec 3) (st : State) : Out :=
  vectorLoad s d q (strideAddr (st.focus.gr b) (st.focus.gr a)) 4 true (BitVec.ofNat 32) st

/-- R213, R214: a scatter: lanes in ascending order, so that the highest active lane's value stays. -/
def scatter (mark : Bool) (d : BitVec 5) (q : BitVec 3) (addr : Nat → Word) (st : State) : Out :=
  let f := st.focus
  st.finish (do
    let f1 ← st.storeLanes (f.mr q) addr (fun l => leBytes 4 (laneAt (f.vr d) l).toNat) true (List.range 32) f
    .ok ((st.countWindowSr f1 (addr 0) (((List.range 32).filter (laneOn (f.mr q))).map addr)).advance mark))

/-- R213: VSCAT. -/
def execVscat (s : Bool) (d a b : BitVec 5) (q : BitVec 3) (st : State) : Out :=
  scatter s d q (indexAddr (st.focus.gr b) (st.focus.vr a)) st

/-- R213: VSTS. -/
def execVsts (s : Bool) (d a b : BitVec 5) (q : BitVec 3) (st : State) : Out :=
  scatter s d q (strideAddr (st.focus.gr b) (st.focus.gr a)) st

/-- R206, R215: reads an atomic's word as the chunk sees it; the place is where the new value goes. -/
def State.amoRead (st : State) (f : Slot) (a : Word) (size : Nat) : Try (Slot × Place × Nat) := do
  let p ← st.access f a size .amo false
  match p with
  | .cells k at' =>
    let r ← st.readKey f a k at' size
    .ok (r.1, p, leNat r.2)
  | _ => .ok (f, p, 0)

/-- R216: places an atomic's new value in the write buffer. -/
def Slot.amoWrite (f : Slot) (p : Place) (size v : Nat) : Slot :=
  match p with
  | .cells k at' => f.store k at' (leBytes size v)
  | _ => f

/-- R213, R214: VSCAT.FADD, lane by lane, each sum reading the bytes as the chunk sees them. -/
def State.scatAdd (st : State) (m : Lane) (addr : Nat → Word) (val : Nat → Lane) : List Nat → Slot → Try Slot
  | [], f => .ok f
  | l :: ls, f =>
    if laneOn m l then do
      let r ← st.amoRead f (addr l) 4
      let v := fadd (BitVec.ofNat 32 r.2.2) (val l)
      st.scatAdd m addr val ls ((r.1.amoWrite r.2.1 4 v.val.toNat).raiseLate v.flags)
    else st.scatAdd m addr val ls f

/-- R213, R214: VSCAT.FADD; long-class for FLAGS. -/
def execVscatFadd (s : Bool) (d a b : BitVec 5) (q : BitVec 3) (st : State) : Out :=
  let f := st.focus
  st.finish (do
    let f1 ← st.scatAdd (f.mr q) (indexAddr (f.gr b) (f.vr a)) (laneAt (f.vr d)) (List.range 32) f
    .ok (f1.advance s))

/-- R215: the new value of an atomic at n bits, and the flags of FADD; c is the compare value of CAS. -/
def amoVal (op : AmoOp) {n : Nat} (old s c : BitVec n) : BitVec n × Word :=
  match op with
  | .add => (old + s, 0)
  | .and => (old &&& s, 0)
  | .or => (old ||| s, 0)
  | .xor => (old ^^^ s, 0)
  | .max => (if old.slt s then s else old, 0)
  | .min => (if s.slt old then s else old, 0)
  | .maxu => (if old.ult s then s else old, 0)
  | .minu => (if s.ult old then s else old, 0)
  | .swp => (s, 0)
  | .cas => (if old = c then s else old, 0)
  | .fadd =>
    let r := fadd (old.setWidth 32) (s.setWidth 32)
    (r.val.setWidth n, r.flags)

/-- R215: an atomic's new value at 4 or 8 bytes. -/
def amoNew (op : AmoOp) (size old : Nat) (s c : Word) : Nat × Word :=
  if size = 8 then
    let r := amoVal op (BitVec.ofNat 64 old) s c
    (r.1.toNat, r.2)
  else
    let r := amoVal op (BitVec.ofNat 32 old) (low32 s) (low32 c)
    (r.1.toNat, r.2)

/-- R51: the access size of SIZE. -/
def amoSize (z : BitVec 1) : Nat := if z = 0 then 4 else 8

/-- R216: a fetching atomic: old is read into g[d] at the marker, and the new value enters the write buffer. -/
def fetchAmo (op : AmoOp) (mark : Bool) (d a b : BitVec 5) (size : Nat) (st : State) : Out :=
  let f := st.focus
  st.finish (do
    let r ← st.amoRead f (f.gr a) size
    let v := amoNew op size r.2.2 (f.gr b) (f.gr d)
    .ok ((((r.1.amoWrite r.2.1 size v.1).raiseLate v.2).landG d
      (loadValue (leBytes size r.2.2) size true)).advance mark))

/-- R217: a posted atomic: checked and held; it enters no read set and writes no register. -/
def postAmo (op : AmoOp) (mark : Bool) (a b : BitVec 5) (size : Nat) (st : State) : Out :=
  let f := st.focus
  st.finish (do
    match ← st.access f (f.gr a) size .post false with
    | .cells k at' => .ok (((f.noteAttr k at').hold (.pamo op size k (f.gr a) (f.gr b))).advance mark)
    | _ => .ok (f.advance mark))

/-- R215: AMO.ADD. -/
def execAmoAdd (s : Bool) (d a b : BitVec 5) (z : BitVec 1) (st : State) : Out := fetchAmo .add s d a b (amoSize z) st
/-- R215: AMO.AND. -/
def execAmoAnd (s : Bool) (d a b : BitVec 5) (z : BitVec 1) (st : State) : Out := fetchAmo .and s d a b (amoSize z) st
/-- R215: AMO.OR. -/
def execAmoOr (s : Bool) (d a b : BitVec 5) (z : BitVec 1) (st : State) : Out := fetchAmo .or s d a b (amoSize z) st
/-- R215: AMO.XOR. -/
def execAmoXor (s : Bool) (d a b : BitVec 5) (z : BitVec 1) (st : State) : Out := fetchAmo .xor s d a b (amoSize z) st
/-- R215: AMO.MAX. -/
def execAmoMax (s : Bool) (d a b : BitVec 5) (z : BitVec 1) (st : State) : Out := fetchAmo .max s d a b (amoSize z) st
/-- R215: AMO.MIN. -/
def execAmoMin (s : Bool) (d a b : BitVec 5) (z : BitVec 1) (st : State) : Out := fetchAmo .min s d a b (amoSize z) st
/-- R215: AMO.MAXU. -/
def execAmoMaxu (s : Bool) (d a b : BitVec 5) (z : BitVec 1) (st : State) : Out := fetchAmo .maxu s d a b (amoSize z) st
/-- R215: AMO.MINU. -/
def execAmoMinu (s : Bool) (d a b : BitVec 5) (z : BitVec 1) (st : State) : Out := fetchAmo .minu s d a b (amoSize z) st
/-- R215: AMO.SWP. -/
def execAmoSwp (s : Bool) (d a b : BitVec 5) (z : BitVec 1) (st : State) : Out := fetchAmo .swp s d a b (amoSize z) st
/-- R215: AMO.CAS; the compare value is g[d] read at issue. -/
def execAmoCas (s : Bool) (d a b : BitVec 5) (z : BitVec 1) (st : State) : Out := fetchAmo .cas s d a b (amoSize z) st
/-- R215: AMO.FADD, W only. -/
def execAmoFadd (s : Bool) (d a b : BitVec 5) (st : State) : Out := fetchAmo .fadd s d a b 4 st
/-- R217: PAMO.ADD. -/
def execPamoAdd (s : Bool) (a b : BitVec 5) (z : BitVec 1) (st : State) : Out := postAmo .add s a b (amoSize z) st
/-- R217: PAMO.AND. -/
def execPamoAnd (s : Bool) (a b : BitVec 5) (z : BitVec 1) (st : State) : Out := postAmo .and s a b (amoSize z) st
/-- R217: PAMO.OR. -/
def execPamoOr (s : Bool) (a b : BitVec 5) (z : BitVec 1) (st : State) : Out := postAmo .or s a b (amoSize z) st
/-- R217: PAMO.XOR. -/
def execPamoXor (s : Bool) (a b : BitVec 5) (z : BitVec 1) (st : State) : Out := postAmo .xor s a b (amoSize z) st
/-- R217: PAMO.MAX. -/
def execPamoMax (s : Bool) (a b : BitVec 5) (z : BitVec 1) (st : State) : Out := postAmo .max s a b (amoSize z) st
/-- R217: PAMO.MIN. -/
def execPamoMin (s : Bool) (a b : BitVec 5) (z : BitVec 1) (st : State) : Out := postAmo .min s a b (amoSize z) st
/-- R217: PAMO.MAXU. -/
def execPamoMaxu (s : Bool) (a b : BitVec 5) (z : BitVec 1) (st : State) : Out := postAmo .maxu s a b (amoSize z) st
/-- R217: PAMO.MINU. -/
def execPamoMinu (s : Bool) (a b : BitVec 5) (z : BitVec 1) (st : State) : Out := postAmo .minu s a b (amoSize z) st
/-- R217: PAMO.FADD, W only. -/
def execPamoFadd (s : Bool) (a b : BitVec 5) (st : State) : Out := postAmo .fadd s a b 4 st

end Sys2Proof.Machine
end

