-- ==== Sys2Proof/Machine/Real.lean ====
section
/-! DEFINITION. The exact real functions of R102 as enclosures: an interval [lo, hi] of integers stands for a real
number in [lo × 2^-p, hi × 2^-p]. A result is rounded when both ends round alike; until then the precision doubles. So a
rounded result is the rounding of the exact value (R92), and no last bit is chosen. -/

namespace Sys2Proof.Machine

/-- An enclosure at a precision p. -/
structure Iv where
  lo : Int
  hi : Int
  deriving DecidableEq, Repr

/-- n divided by 2^p, rounded up. -/
def ceilShift (n : Int) (p : Nat) : Int := -((-n) >>> p)

/-- n divided by d > 0, rounded up. -/
def ceilDiv' (n d : Int) : Int := -((-n) / d)

/-- The enclosure of an integer over a positive integer. -/
def Iv.ratio (p : Nat) (a : Int) (b : Nat) : Iv := ⟨(a * 2 ^ p) / (b : Int), ceilDiv' (a * 2 ^ p) b⟩

/-- The enclosure of a signed magnitude m × 2^e. -/
def Iv.dyadic (p : Nat) (neg : Bool) (m : Nat) (e : Int) : Iv :=
  let n : Int := if neg then -(m : Int) else (m : Int)
  let k := e + (p : Int)
  if 0 ≤ k then ⟨n * 2 ^ k.toNat, n * 2 ^ k.toNat⟩
  else ⟨n >>> (-k).toNat, ceilShift n (-k).toNat⟩

/-- Sum of enclosures. -/
def Iv.add (a b : Iv) : Iv := ⟨a.lo + b.lo, a.hi + b.hi⟩
/-- Negated enclosure. -/
def Iv.neg (a : Iv) : Iv := ⟨-a.hi, -a.lo⟩
/-- Difference of enclosures. -/
def Iv.sub (a b : Iv) : Iv := a.add b.neg

/-- Product of enclosures. -/
def Iv.mul (p : Nat) (a b : Iv) : Iv :=
  let w := a.lo * b.lo
  let x := a.lo * b.hi
  let y := a.hi * b.lo
  let z := a.hi * b.hi
  ⟨(min (min w x) (min y z)) >>> p, ceilShift (max (max w x) (max y z)) p⟩

/-- An enclosure times an integer. -/
def Iv.mulInt (a : Iv) (n : Int) : Iv := if 0 ≤ n then ⟨a.lo * n, a.hi * n⟩ else ⟨a.hi * n, a.lo * n⟩

/-- An enclosure divided by a positive integer. -/
def Iv.divNat (a : Iv) (n : Nat) : Iv := ⟨a.lo / (n : Int), ceilDiv' a.hi n⟩

/-- An enclosure times 2^k. -/
def Iv.scale (a : Iv) (k : Int) : Iv :=
  if 0 ≤ k then ⟨a.lo * 2 ^ k.toNat, a.hi * 2 ^ k.toNat⟩ else ⟨a.lo >>> (-k).toNat, ceilShift a.hi (-k).toNat⟩

/-- Quotient by an enclosure of a positive number. -/
def Iv.div (p : Nat) (a b : Iv) : Iv :=
  let q := fun (n d : Int) => (n * 2 ^ p) / d
  let r := fun (n d : Int) => ceilDiv' (n * 2 ^ p) d
  if b.lo ≤ 0 then ⟨-(2 ^ (2 * p)), 2 ^ (2 * p)⟩
  else ⟨min (q a.lo b.lo) (q a.lo b.hi), max (r a.hi b.lo) (r a.hi b.hi)⟩

/-- The number 1. -/
def Iv.one (p : Nat) : Iv := ⟨2 ^ p, 2 ^ p⟩

/-- Widens an enclosure by a number of units at both ends (the tail of a series). -/
def Iv.widen (a : Iv) (n : Int) : Iv := ⟨a.lo - n, a.hi + n⟩

/-- The square root of an enclosure of a non-negative number. -/
def Iv.sqrt (p : Nat) (a : Iv) : Iv :=
  ⟨(isqrt (a.lo.toNat * 2 ^ p) : Int), (isqrt (a.hi.toNat * 2 ^ p) : Int) + 1⟩

/-- The terms t, t·u, t·u², … over the odd numbers, with alternating sign when asked: atan and atanh series. -/
def oddSeries (p : Nat) (u : Iv) (alt : Bool) : Nat → Nat → Iv → Iv → Iv
  | 0, _, _, acc => acc.widen 2
  | n + 1, k, t, acc =>
    let term := t.divNat (2 * k + 1)
    let acc' := if alt ∧ k % 2 = 1 then acc.sub term else acc.add term
    oddSeries p u alt n (k + 1) (t.mul p u) acc'

/-- atanh of a number of magnitude at most 1/3. -/
def Iv.atanh (p : Nat) (t : Iv) : Iv := oddSeries p (t.mul p t) false (p / 3 + 4) 0 t ⟨0, 0⟩

/-- atan of 1/n for n ≥ 5. -/
def Iv.atanInv (p n : Nat) : Iv :=
  let t := Iv.ratio p 1 n
  oddSeries p (t.mul p t) true (p / 4 + 4) 0 t ⟨0, 0⟩

/-- π by Machin's formula. -/
def Iv.pi (p : Nat) : Iv := ((Iv.atanInv p 5).mulInt 16).sub ((Iv.atanInv p 239).mulInt 4)

/-- ln 2 = 2 atanh(1/3). -/
def Iv.ln2 (p : Nat) : Iv := (Iv.atanh p (Iv.ratio p 1 3)).mulInt 2

/-- The exponential series on a number of magnitude at most 1/2. -/
def expSeries (p : Nat) (r : Iv) : Nat → Nat → Iv → Iv → Iv
  | 0, _, _, acc => acc.widen 2
  | n + 1, k, t, acc => expSeries p r n (k + 1) ((t.mul p r).divNat (k + 1)) (acc.add t)

/-- e^x of an enclosure, x of moderate size: x = k ln 2 + r. The result's precision is p. -/
def Iv.exp (p : Nat) (x : Iv) : Iv :=
  let k := ((x.lo * 94548) / 65536 + 2 ^ (p - 1)) / 2 ^ p
  let r := x.sub ((Iv.ln2 p).mulInt k)
  (expSeries p r (p / 2 + 24) 0 (Iv.one p) ⟨0, 0⟩).scale k

/-- e^x of a dyadic x with 2^-p absolute and 2^-p relative care: the working precision covers the range reduction. -/
def Iv.expDyadic (p : Nat) (neg : Bool) (m : Nat) (e : Int) : Iv :=
  let q := p + 40
  let r := Iv.exp q (Iv.dyadic q neg m e)
  r.scale (-40)

/-- ln of m × 2^e for a positive m: the mantissa is brought near 1. -/
def Iv.ln (p m : Nat) (e : Int) : Iv :=
  let b : Nat := Nat.log2 m
  let up := decide (2 * m ≥ 3 * 2 ^ b)
  let den : Nat := if up then 2 ^ (b + 1) else 2 ^ b
  let ex : Int := e + (b : Int) + (if up then 1 else 0)
  let t := Iv.ratio p ((m : Int) - (den : Int)) (m + den)
  ((Iv.atanh p t).mulInt 2).add ((Iv.ln2 p).mulInt ex)

/-- log2 of m × 2^e. -/
def Iv.log2 (p m : Nat) (e : Int) : Iv :=
  let b : Nat := Nat.log2 m
  let up := decide (2 * m ≥ 3 * 2 ^ b)
  let den : Nat := if up then 2 ^ (b + 1) else 2 ^ b
  let ex : Int := e + (b : Int) + (if up then 1 else 0)
  let t := Iv.ratio p ((m : Int) - (den : Int)) (m + den)
  (((Iv.atanh p t).mulInt 2).div p (Iv.ln2 p)).add ((Iv.one p).mulInt ex)

/-- The sine (odd = true) or cosine series of a number of magnitude at most 1. -/
def trigSeries (p : Nat) (x2 : Iv) (base : Nat) : Nat → Nat → Iv → Iv → Iv
  | 0, _, _, acc => acc.widen 2
  | n + 1, k, t, acc =>
    let acc' := if k % 2 = 1 then acc.sub t else acc.add t
    trigSeries p x2 base n (k + 1) ((t.mul p x2).divNat ((2 * k + base + 1) * (2 * k + base + 2))) acc'

/-- sin(2π × f) for a dyadic f of magnitude at most 1/8. -/
def Iv.sinTurn (p : Nat) (neg : Bool) (m : Nat) (e : Int) : Iv :=
  let x := (Iv.dyadic p neg m e).mul p ((Iv.pi p).mulInt 2)
  trigSeries p (x.mul p x) 1 (p / 4 + 8) 0 x ⟨0, 0⟩

/-- cos(2π × f) for a dyadic f of magnitude at most 1/8. -/
def Iv.cosTurn (p : Nat) (neg : Bool) (m : Nat) (e : Int) : Iv :=
  let x := (Iv.dyadic p neg m e).mul p ((Iv.pi p).mulInt 2)
  trigSeries p (x.mul p x) 0 (p / 4 + 8) 0 (Iv.one p) ⟨0, 0⟩

/-- The all-positive series of erf: the sum of 2^k y^(2k+1) / (2k+1)!!. -/
def erfSeries (p : Nat) (y2 : Iv) : Nat → Nat → Iv → Iv → Iv
  | 0, _, _, acc => acc.widen 2
  | n + 1, k, t, acc => erfSeries p y2 n (k + 1) ((((t.mul p y2).mulInt 2)).divNat (2 * k + 3)) (acc.add t)

/-- erf(y) of an enclosure of a y from 0 to 32: (2/√π) e^(-y²) times the positive series. -/
def Iv.erf (p : Nat) (y : Nat → Iv) (ySq : Nat) : Iv :=
  let q := p + 2 * ySq + 64
  let yy := y q
  let y2 := yy.mul q yy
  let s := erfSeries q y2 (q + 4 * ySq + 16) 0 yy ⟨0, 0⟩
  let c := ((Iv.one q).mulInt 2).div q (Iv.sqrt q (Iv.pi q))
  (((Iv.exp q y2.neg).mul q s).mul q c).scale (-(2 * (ySq : Int) + 64))

/-- Rounds to nearest a value known to lie strictly inside an enclosure, where both ends round alike. -/
def roundIv (f : Fmt) (p : Nat) (v : Iv) : Option Rounded :=
  let both := fun (neg : Bool) (a b : Int) =>
    let lo := a.toNat
    if Nat.log2 lo ≥ 40 ∨ p ≥ 1024 then
      let r1 := roundTo f .rne 0 (.fin neg lo (-(p : Int)) true)
      let r2 := roundTo f .rne 0 (.fin neg (b.toNat - 1) (-(p : Int)) true)
      if r1 = r2 then some r1 else none
    else none
  if 0 ≤ v.lo ∧ 0 < v.hi then both false v.lo v.hi
  else if v.hi ≤ 0 ∧ v.lo < 0 then both true (-v.hi) (-v.lo)
  else none

/-- Doubles the precision until the enclosure rounds; the last precision is far beyond what a 32-bit input needs. -/
def refine (f : Fmt) (g : Nat → Iv) : Nat → Nat → Rounded
  | 0, p => roundTo f .rne 0 (.fin (decide ((g p).hi ≤ 0)) ((g p).lo.natAbs) (-(p : Int)) true)
  | n + 1, p => match roundIv f p (g p) with
    | some r => r
    | none => refine f g n (2 * p)

/-- The correctly rounded value of a real function given by its enclosures. -/
def roundReal (f : Fmt) (g : Nat → Iv) : Rounded := refine f g 7 128

/-- The RNE32 of a real constant given by its enclosures: a table entry of R103 to R106. -/
def table32 (g : Nat → Iv) : Lane := BitVec.ofNat 32 (roundReal fp32 g).code

end Sys2Proof.Machine
end

