-- ==== Sys2Proof/Machine/Func.lean ====
section
/-! DEFINITION. The functions of R102 to R106: the special-case table, the FP32 procedures bit for bit, and the
correctly rounded BF16 and FP16 results. Each function maps an FP32 value to a code of the result format with the flags
of R102. -/

namespace Sys2Proof.Machine

/-- R56: the functions, in the order of their codes. -/
inductive Fn where
  | exp2
  | log2
  | exp
  | ln
  | rcp
  | rsqrt
  | sint
  | cost
  | tanh
  | sigm
  | erf
  | gelu
  | silu
  deriving DecidableEq, Repr

/-- RNE32 of a value, without flags: an intermediate step of a procedure raises nothing (R102). -/
def r32 (x : XR) : XR := exact32 (rne32 x).val

/-- R102: FMA inside a procedure. -/
def pfma (a b c : XR) : XR := exact32 (fmaX a b c).val

/-- An FP32 constant as an exact value. -/
def k32 (c : Nat) : XR := decodeFmt fp32 c

/-- R102: RNI, a value rounded to an integer by RNE. -/
def rni : XR → Int
  | .fin neg m e s =>
    let n : Int := ((roundMag .rne neg m e s 0 0).1 : Int)
    if neg then -n else n
  | _ => 0

/-- The exact value of an integer. -/
def xInt (n : Int) : XR := .ofInt n 0

/-- The exact value 1. -/
def xOne : XR := .fin false 1 0 false

/-- R103: the table entry RNE32(2^(j/64)). -/
def tabT (j : Nat) : XR :=
  if j = 0 then xOne
  else exact32 (table32 fun p => (Iv.exp (p + 40) (((Iv.ln2 (p + 40)).mulInt j).divNat 64)).scale (-40))

/-- R103: EXPV2, the exact value before the final rounding, for x within (-151, 128). -/
def expv2 (x : XR) : XR :=
  let k := rni (x.scale 6)
  let r := x.add ((xInt k).scale (-6)).negate
  let n := k >>> 6
  let j := (k % 64).toNat
  let q := pfma (pfma (k32 0x3D635847) r (k32 0x3E75FDF0)) r (k32 0x3F317218)
  let q := r32 (q.mul r)
  let t := tabT j
  (t.add (t.mul q)).scale n

/-- R103: EXPV; the two ends are +∞ and 0. -/
def expv (x : XR) : XR :=
  if x.cmp (xInt 89) ≠ .lt then .inf false
  else if x.cmp (xInt (-104)) ≠ .gt then .zero false
  else
    let k := rni (r32 (x.mul (k32 0x42B8AA3B)))
    let kn := xInt (-k)
    let r := pfma kn (k32 0x3C317200) x
    let r := pfma kn (k32 0x32BFBE8E) r
    let n := k >>> 6
    let j := (k % 64).toNat
    let q := pfma (pfma (k32 0x3E2AAAAB) r (k32 0x3F000000)) r (k32 0x3F800000)
    let q := r32 (q.mul r)
    let t := tabT j
    (t.add (t.mul q)).scale n

/-- R104: the reduction: the exponent and the mantissa in [0.75, 1.5). -/
def logReduce (m : Nat) (e : Int) : Int × XR :=
  let b : Int := (Nat.log2 m : Int)
  if 2 * m ≥ 3 * 2 ^ Nat.log2 m then (e + b + 1, .fin false m (-b - 1) false) else (e + b, .fin false m (-b) false)

/-- R104: Rc[j] = RNE32(64/j). -/
def tabRc (j : Nat) : XR := r32 ((xInt 64).div (xInt j))

/-- R104: L2[j] = RNE32(-log2(Rc[j])). -/
def tabL2 (j : Nat) : XR :=
  if j = 64 then .zero false
  else match tabRc j with
    | .fin _ m e _ => exact32 (table32 fun p => (Iv.log2 p m e).neg)
    | x => x

/-- R104: LE[j] = RNE32(-ln(Rc[j])). -/
def tabLe (j : Nat) : XR :=
  if j = 64 then .zero false
  else match tabRc j with
    | .fin _ m e _ => exact32 (table32 fun p => (Iv.ln p m e).neg)
    | x => x

/-- R104: LOG2 of a positive finite value m × 2^e, before the last rounding. -/
def log2v (m : Nat) (e : Int) : XR :=
  let r := logReduce m e
  let j := (rni (r.2.scale 6)).toNat
  let u := pfma r.2 (tabRc j) (xInt (-1))
  let q := pfma (pfma (pfma (k32 0xBEB8AA3B) u (k32 0x3EF6384F)) u (k32 0xBF38AA3B)) u (k32 0x3FB8AA3B)
  ((xInt r.1).add (tabL2 j)).add (u.mul q)

/-- R104: LN of a positive finite value, before the last rounding. -/
def lnv (m : Nat) (e : Int) : XR :=
  let r := logReduce m e
  let j := (rni (r.2.scale 6)).toNat
  let u := pfma r.2 (tabRc j) (xInt (-1))
  let q := pfma (pfma (pfma (k32 0xBE800000) u (k32 0x3EAAAAAB)) u (k32 0xBF000000)) u (k32 0x3F800000)
  let ex := xInt r.1
  (((ex.mul (k32 0x3F317200)).add (ex.mul (k32 0x35BFBE8E))).add (tabLe j)).add (u.mul q)

/-- R105: SN[j] = RNE32(sin(2πj/256)). -/
def tabSn (j : Int) : XR :=
  if j = 0 then .zero false
  else exact32 (table32 fun p => Iv.sinTurn p (decide (j < 0)) j.natAbs (-8))

/-- R105: CS[j] = RNE32(cos(2πj/256)). -/
def tabCs (j : Int) : XR :=
  if j = 0 then xOne else exact32 (table32 fun p => Iv.cosTurn p (decide (j < 0)) j.natAbs (-8))

/-- R105: the quadrant and the exact values SV and CV. -/
def trigv (x : XR) : Nat × XR × XR :=
  let k := rni (x.scale 2)
  let f := x.add ((xInt k).scale (-2)).negate
  let j := rni (f.scale 8)
  let s := f.add ((xInt j).scale (-8)).negate
  let a := r32 (s.mul (k32 0x40C90FDB))
  let a2 := r32 (a.mul a)
  let sp := r32 (a.mul (pfma a2 (k32 0xBE2AAAAB) xOne))
  let cm := (a2.scale (-1)).negate
  let sn := tabSn j
  let cs := tabCs j
  ((k % 4).toNat, (sn.add (sn.mul cm)).add (cs.mul sp), (cs.add (cs.mul cm)).add (sn.mul sp).negate)

/-- R105: SINT or COST by quadrant. -/
def trigPick (sine : Bool) (x : XR) : XR :=
  let t := trigv x
  match (t.1, sine) with
  | (0, true) => t.2.1
  | (0, false) => t.2.2
  | (1, true) => t.2.2
  | (1, false) => t.2.1.negate
  | (2, true) => t.2.1.negate
  | (2, false) => t.2.2.negate
  | (_, true) => t.2.2.negate
  | (_, false) => t.2.1

/-- R106: EF[j] = RNE32(erf(j/64)). -/
def tabEf (j : Nat) : XR :=
  if j = 0 then .zero false
  else exact32 (table32 fun p => Iv.erf p (fun q => Iv.dyadic q false j (-6)) (j * j / 4096 + 1))

/-- R106: D[j] = RNE32((2/√π) e^(-(j/64)²)). -/
def tabD (j : Nat) : XR :=
  exact32 (table32 fun p =>
    let q := p + 64
    ((((Iv.one q).mulInt 2).div q (Iv.sqrt q (Iv.pi q))).mul q
      (Iv.exp q (Iv.dyadic q true (j * j) (-12)))).scale (-64))

/-- R106: C3[j] = RNE32((2 (j/64)² - 1)/3). -/
def tabC3 (j : Nat) : XR := r32 ((XR.ofInt (2 * (j : Int) * j - 4096) (-12)).div (xInt 3))

/-- R106: ERV of a non-negative value. -/
def erv (y : XR) : XR :=
  if y.cmp (xInt 4) ≠ .lt then xOne
  else
    let j := (rni (y.scale 6)).toNat
    let x0 := XR.ofInt (j : Int) (-6)
    let h := y.add x0.negate
    let p := pfma (pfma (tabC3 j) h x0.negate) h xOne
    (tabEf j).add (((tabD j).mul h).mul p)

/-- R106: SIGV's numerator and denominator, both exact. -/
def sigv (x : XR) : XR × XR :=
  if x.isNeg then
    let e := expv x
    (e, xOne.add e)
  else (xOne, xOne.add (expv x.negate))

/-- A quotient of exact values (sticky where it is inexact). -/
def xDiv (n d : XR) : XR := n.div d

/-- The sign of a value given to a zero or positive result. -/
def withSign (neg : Bool) (x : XR) : XR := if neg then x.negate else x

/-- R103 to R106: the FP32 procedures outside the special-case table, before the last rounding. -/
def procedure (fn : Fn) (x : XR) : XR :=
  match x with
  | .fin neg m e _ =>
    match fn with
    | .exp2 => expv2 x
    | .log2 => log2v m e
    | .exp => expv x
    | .ln => lnv m e
    | .rcp => xOne.div x
    | .rsqrt => (xOne.div x).sqrt
    | .sint => trigPick true x
    | .cost => trigPick false x
    | .tanh =>
      let e1 := (expv ((x.abs.scale 1).negate)).add (xInt (-1))
      withSign neg (xDiv e1.negate ((xInt 2).add e1))
    | .sigm => let s := sigv x; xDiv s.1 s.2
    | .erf => withSign neg (erv x.abs)
    | .gelu =>
      let z := r32 (x.mul (k32 0x3F3504F3))
      let t := withSign z.isNeg (erv z.abs)
      (x.mul (xOne.add t)).scale (-1)
    | .silu => let s := sigv x; xDiv (x.mul s.1) s.2
  | y => y

/-- 1/√x for the correctly rounded FP32 result: the square root of the quotient, with more bits than any midpoint. -/
def rsqrtX (m : Nat) (e : Int) : XR :=
  let k : Int := 400 + e % 2
  let h := (e + (k - 400)) / 2
  let a := (2 ^ k.toNat) / m
  let r := isqrt a
  .fin false r (-h - 200) (decide (r * r * m ≠ 2 ^ k.toNat))

/-- A value too small for any format, with the sticky mark. -/
def xTiny (neg : Bool) : XR := .fin neg (2 ^ 64) (-600) true

/-- A magnitude just below 1. -/
def xBelowOne (neg : Bool) : XR := .fin neg (2 ^ 200 - 1) (-200) true

/-- R102: the exact function value rounded into BF16 or FP16, outside the special-case table. -/
def realFn (f : Fmt) (fn : Fn) (neg : Bool) (m : Nat) (e : Int) : Rounded :=
  let x : XR := .fin neg m e false
  let big := fun (b : Int) => decide (x.abs.cmp (xInt b) ≠ .lt)
  let rnd := fun (y : XR) => roundTo f .rne 0 y
  let sgn := fun (n : Bool) (r : Nat → Iv) => fun p => if n then (r p).neg else r p
  match fn with
  | .exp2 =>
    if big 1024 then rnd (if neg then xTiny false else .inf false)
    else
      let k := rni x
      let r := x.add (xInt k).negate
      match r with
      | .fin rn rm re _ =>
        if rm = 0 then rnd (xOne.scale k)
        else roundReal f fun p =>
          let q := p + 200
          ((Iv.exp q ((Iv.dyadic q rn rm re).mul q (Iv.ln2 q))).scale k).scale (-200)
      | _ => rnd x
  | .exp =>
    if big 1024 then rnd (if neg then xTiny false else .inf false)
    else roundReal f fun p => (Iv.exp (p + 300) (Iv.dyadic (p + 300) neg m e)).scale (-300)
  | .log2 =>
    let b := Nat.log2 m
    if m = 2 ^ b then rnd (xInt (e + (b : Int))) else roundReal f fun p => Iv.log2 (p + 20) m e |>.scale (-20)
  | .ln => if x.cmp xOne = .eq then rnd (.zero false) else roundReal f fun p => (Iv.ln (p + 20) m e).scale (-20)
  | .rcp => rnd (xOne.div x)
  | .rsqrt => rnd (rsqrtX m e)
  | .sint | .cost =>
    let k := rni (x.scale 2)
    let r := x.add ((xInt k).scale (-2)).negate
    let quad := ((k + (if fn = .cost then 1 else 0)) % 4).toNat
    match r with
    | .fin rn rm re _ =>
      if rm = 0 then
        rnd (match quad with | 1 => xOne | 3 => xInt (-1) | _ => .zero false)
      else roundReal f (sgn (decide (quad ≥ 2))
        (if quad % 2 = 0 then fun p => Iv.sinTurn p rn rm re else fun p => Iv.cosTurn p rn rm re))
    | _ => rnd x
  | .tanh =>
    if big 200 then rnd (xBelowOne neg)
    else roundReal f (sgn neg fun p =>
      let q := p + 600
      let t := Iv.exp q (Iv.dyadic q true m (e + 1))
      (((Iv.one q).sub t).div q ((Iv.one q).add t)).scale (-600))
  | .sigm =>
    if big 400 then rnd (if neg then xTiny false else xBelowOne false)
    else roundReal f fun p =>
      let q := p + 700
      let t := Iv.exp q (Iv.dyadic q true m e)
      let d := (Iv.one q).add t
      ((if neg then t.div q d else (Iv.one q).div q d)).scale (-700)
  | .erf =>
    if big 4 then rnd (withSign neg xOne)
    else roundReal f (sgn neg fun p => Iv.erf p (fun q => Iv.dyadic q false m e) 16)
  | .gelu =>
    if big 24 then (if neg then rnd (xTiny true) else roundTo f .rne 0 (.fin false (m * 2 ^ 300 - 1) (e - 300) true))
    else roundReal f fun p =>
      let q := p + 64
      let t := Iv.erf q (fun w => (Iv.dyadic w false m e).mul w ((Iv.sqrt w ((Iv.one w).mulInt 2)).scale (-1))) 300
      let u := if neg then (Iv.one q).sub t else (Iv.one q).add t
      (((Iv.dyadic q neg m e).mul q u).scale (-1)).scale (-64)
  | .silu =>
    if big 400 then (if neg then rnd (xTiny true) else roundTo f .rne 0 (.fin false (m * 2 ^ 300 - 1) (e - 300) true))
    else roundReal f fun p =>
      let q := p + 700
      let t := Iv.exp q (Iv.dyadic q true m e)
      let d := (Iv.one q).add t
      (((if neg then t.div q d else (Iv.one q).div q d)).mul q (Iv.dyadic q neg m e)).scale (-700)

/-- R102: a special input's result with its flags; none where the function's own rule applies. -/
def special (fn : Fn) (x : XR) : Option (XR × Word) :=
  let inf := XR.inf false
  match fn, x with
  | _, .nan => some (.nan, 0#64)
  | .exp2, .inf n | .exp, .inf n => some (if n then .zero false else inf, 0#64)
  | .log2, .inf n | .ln, .inf n => some (if n then .nan else inf, flagIf n flagInv)
  | .rcp, .inf n => some (.zero n, 0#64)
  | .rsqrt, .inf n => some (if n then .nan else .zero false, flagIf n flagInv)
  | .sint, .inf _ | .cost, .inf _ => some (.nan, flagInv)
  | .tanh, .inf n | .erf, .inf n => some (withSign n xOne, 0#64)
  | .sigm, .inf n => some (if n then .zero false else xOne, 0#64)
  | .gelu, .inf n | .silu, .inf n => some (if n then .zero true else inf, 0#64)
  | fn, .fin neg 0 _ _ =>
    match fn with
    | .exp2 | .exp | .cost => some (xOne, 0#64)
    | .log2 | .ln => some (.inf true, flagDz)
    | .rcp | .rsqrt => some (.inf neg, flagDz)
    | .sint | .tanh | .erf | .gelu | .silu => some (.zero neg, 0#64)
    | .sigm => some (.fin false 1 (-1) false, 0#64)
  | .exp2, x =>
    if x.cmp (xInt 128) ≠ .lt then some (inf, flagOvf)
    else if x.cmp (xInt (-151)) ≠ .gt then some (.zero false, flagUnf) else none
  | .exp, x =>
    if x.cmp (xInt 89) ≠ .lt then some (inf, flagOvf)
    else if x.cmp (xInt (-104)) ≠ .gt then some (.zero false, flagUnf) else none
  | .log2, .fin true _ _ _ | .ln, .fin true _ _ _ | .rsqrt, .fin true _ _ _ => some (.nan, flagInv)
  | .erf, x => if x.abs.cmp (xInt 4) ≠ .lt then some (withSign x.isNeg xOne, 0#64) else none
  | _, _ => none

/-- R102, R104: SINT and COST give +0 for a zero result, except SINT(-0), which the table gives; LOG2 and LN of 1 give
+0. -/
def zeroCode (fn : Fn) (f : Fmt) (code : Nat) : Nat :=
  match fn with
  | .sint | .cost | .log2 | .ln => if code = f.signBit true then 0 else code
  | _ => code

/-- R102: a function of an FP32 value in a result format: FP32 by procedure, BF16 and FP16 correctly rounded. -/
def evalFn (f : Fmt) (fn : Fn) (x : XR) : Flagged Nat :=
  match special fn x with
  | some (y, fl) =>
    let r := roundTo f .rne 0 y
    .mk' r.code (r.flags ||| fl)
  | none =>
    match x with
    | .fin neg m e _ =>
      let r :=
        if f.width = 32 then
          roundTo f .rne 0 (match fn with
            | .rsqrt => rsqrtX m e
            | _ => procedure fn x)
        else realFn f fn neg m e
      .mk' (zeroCode fn f r.code) r.flags
    | y => .mk' (roundTo f .rne 0 y).code 0#64

end Sys2Proof.Machine
end

