-- ==== Sys2Proof/Machine/Vector.lean ====
section
/-! DEFINITION. The vector instructions that compute in registers (R135 to R158, but VLAW, which stands with the laws):
arithmetic, lane moves, conversions, reductions, permutations, functions, masks, quantisation and sparsity. -/

namespace Sys2Proof.Machine

/-! ### Shared shapes (R135 to R139) -/

/-- R135: whether a lane is active under the mask field. -/
def Slot.on (f : Slot) (q : BitVec 3) (l : Nat) : Bool := laneOn (f.mr q) l

/-- R135: the active lanes, ascending. -/
def Slot.activeLanes (f : Slot) (q : BitVec 3) : List Nat := (List.range 32).filter (f.on q)

/-- R135: the lane results merged over the destination, inactive lanes keeping its value. -/
def Slot.merged (f : Slot) (d : BitVec 5) (q : BitVec 3) (g : Nat → Lane) : VReg :=
  vecOf fun l => if f.on q l then g l else laneAt (f.vr d) l

/-- R138, R139: a long-class vector result, with the flags and saturation events of its active lanes. -/
def Slot.laneResults (f : Slot) (d : BitVec 5) (q : BitVec 3) (g : Nat → Flagged Lane) : Slot :=
  let on := f.activeLanes q
  ((f.landV d (f.merged d q fun l => (g l).val)).raiseLate (flagsOf (on.map g))).addHidden (satOf (on.map g))

/-- R138: an instruction that is a long-class lane-wise operation. -/
def lanewise (mark : Bool) (d : BitVec 5) (q : BitVec 3) (g : Nat → Flagged Lane) (st : State) : Out :=
  .next (st.withFocus ((st.focus.laneResults d q g).advance mark))

/-- R138: a lane-wise operation that raises nothing. -/
def lanePure (mark : Bool) (d : BitVec 5) (q : BitVec 3) (g : Nat → Lane) (st : State) : Out :=
  .next (st.withFocus ((st.focus.landV d (st.focus.merged d q g)).advance mark))

/-- R12 of the lanes: bit l of a lane word from a condition. -/
def maskOf (c : Nat → Bool) : Lane := BitVec.ofNat 32 (((List.range 32).map fun l => if c l then 2 ^ l else 0).sum)

/-- R135: a compare that writes a mask, long-class; inactive bits keep the destination's value. -/
def laneCompare (mark : Bool) (d : BitVec 3) (q : BitVec 3) (c : Nat → Bool) (st : State) : Out :=
  let f := st.focus
  .next (st.withFocus ((f.landM d (maskOf fun l => if f.on q l then c l else (f.mr d).getLsbD l)).advance mark))

/-- Lane l of a v register of the focus. -/
def State.lane (st : State) (r : BitVec 5) (l : Nat) : Lane := laneAt (st.focus.vr r) l

/-! ### VARF (R141 to R143) -/

/-- R141: the order of FP32 values in VMAX.F, VMIN.F and R151: −0 counts as less than +0. -/
def cmpZeroed (x y : XR) : Ordering :=
  if x.isZero && y.isZero then (if x.isNeg = y.isNeg then .eq else if x.isNeg then .lt else .gt) else x.cmp y

/-- R141: the larger of two FP32 values. -/
def maxF (a b : Lane) : Lane :=
  let x := exact32 a
  let y := exact32 b
  if x.isNan || y.isNan then nan32 else if cmpZeroed x y = .lt then b else a

/-- R141: the smaller of two FP32 values. -/
def minF (a b : Lane) : Lane :=
  let x := exact32 a
  let y := exact32 b
  if x.isNan || y.isNan then nan32 else if cmpZeroed x y = .gt then b else a

/-- R141: VABS.F of a lane. -/
def absF (a : Lane) : Lane := if (exact32 a).isNan then nan32 else a &&& 0x7FFFFFFF#32

/-- R141: VNEG.F of a lane. -/
def negF (a : Lane) : Lane := if (exact32 a).isNan then nan32 else a ^^^ 0x80000000#32

/-- R141: a × b + c in one rounding, the product and the addend negated where the form says so. -/
def fusedF (negProd negAdd : Bool) (a b c : Lane) : Flagged Lane :=
  let x := if negProd then (exact32 a).negate else exact32 a
  let z := if negAdd then (exact32 c).negate else exact32 c
  fmaX x (exact32 b) z

/-- R141, R142: a quiet compare. -/
def cmpF (ok : Ordering → Bool) (a b : Lane) : Bool :=
  let x := exact32 a
  let y := exact32 b
  !x.isNan && !y.isNan && ok (x.cmp y)

/-- R143: the class word of a lane. -/
def classF (a : Lane) : Lane :=
  let ex := a.extractLsb' 23 8
  let ma := a.extractLsb' 0 23
  let neg := a.getLsbD 31
  if ex = 255#8 then (if ma ≠ 0 then 0x100#32 else if neg then 0x01#32 else 0x80#32)
  else if ex = 0#8 then
    (if ma = 0 then (if neg then 0x08#32 else 0x10#32) else if neg then 0x04#32 else 0x20#32)
  else if neg then 0x02#32 else 0x40#32

/-- R141: VADD.F. -/
def execVaddF (s : Bool) (d a b : BitVec 5) (q : BitVec 3) (st : State) : Out :=
  lanewise s d q (fun l => fadd (st.lane a l) (st.lane b l)) st

/-- R141: VSUB.F. -/
def execVsubF (s : Bool) (d a b : BitVec 5) (q : BitVec 3) (st : State) : Out :=
  lanewise s d q (fun l => fsub (st.lane a l) (st.lane b l)) st

/-- R141: VMUL.F. -/
def execVmulF (s : Bool) (d a b : BitVec 5) (q : BitVec 3) (st : State) : Out :=
  lanewise s d q (fun l => fmul (st.lane a l) (st.lane b l)) st

/-- R141, R142: VDIV.F. -/
def execVdivF (s : Bool) (d a b : BitVec 5) (q : BitVec 3) (st : State) : Out :=
  lanewise s d q (fun l => fdiv (st.lane a l) (st.lane b l)) st

/-- R141: VSQRT.F. -/
def execVsqrtF (s : Bool) (d a : BitVec 5) (q : BitVec 3) (st : State) : Out :=
  lanewise s d q (fun l => fsqrt (st.lane a l)) st

/-- R141: VMAX.F. -/
def execVmaxF (s : Bool) (d a b : BitVec 5) (q : BitVec 3) (st : State) : Out :=
  lanePure s d q (fun l => maxF (st.lane a l) (st.lane b l)) st

/-- R141: VMIN.F. -/
def execVminF (s : Bool) (d a b : BitVec 5) (q : BitVec 3) (st : State) : Out :=
  lanePure s d q (fun l => minF (st.lane a l) (st.lane b l)) st

/-- R141: VABS.F. -/
def execVabsF (s : Bool) (d a : BitVec 5) (q : BitVec 3) (st : State) : Out :=
  lanePure s d q (fun l => absF (st.lane a l)) st

/-- R141: VNEG.F. -/
def execVnegF (s : Bool) (d a : BitVec 5) (q : BitVec 3) (st : State) : Out :=
  lanePure s d q (fun l => negF (st.lane a l)) st

/-- R141: VFMA. -/
def execVfma (s : Bool) (d a b : BitVec 5) (q : BitVec 3) (st : State) : Out :=
  lanewise s d q (fun l => fusedF false false (st.lane a l) (st.lane b l) (st.lane d l)) st

/-- R141: VFMS. -/
def execVfms (s : Bool) (d a b : BitVec 5) (q : BitVec 3) (st : State) : Out :=
  lanewise s d q (fun l => fusedF false true (st.lane a l) (st.lane b l) (st.lane d l)) st

/-- R141: VFNMA. -/
def execVfnma (s : Bool) (d a b : BitVec 5) (q : BitVec 3) (st : State) : Out :=
  lanewise s d q (fun l => fusedF true false (st.lane a l) (st.lane b l) (st.lane d l)) st

/-- R141: VCMPEQ.F. -/
def execVcmpeqF (s : Bool) (d : BitVec 3) (a b : BitVec 5) (q : BitVec 3) (st : State) : Out :=
  laneCompare s d q (fun l => cmpF (fun o => decide (o = .eq)) (st.lane a l) (st.lane b l)) st

/-- R141: VCMPLT.F. -/
def execVcmpltF (s : Bool) (d : BitVec 3) (a b : BitVec 5) (q : BitVec 3) (st : State) : Out :=
  laneCompare s d q (fun l => cmpF (fun o => decide (o = .lt)) (st.lane a l) (st.lane b l)) st

/-- R141: VCMPLE.F. -/
def execVcmpleF (s : Bool) (d : BitVec 3) (a b : BitVec 5) (q : BitVec 3) (st : State) : Out :=
  laneCompare s d q (fun l => cmpF (fun o => decide (o ≠ .gt)) (st.lane a l) (st.lane b l)) st

/-- R141: VCMPUN.F. -/
def execVcmpunF (s : Bool) (d : BitVec 3) (a b : BitVec 5) (q : BitVec 3) (st : State) : Out :=
  laneCompare s d q (fun l => (exact32 (st.lane a l)).isNan || (exact32 (st.lane b l)).isNan) st

/-- R143: VCLASS. -/
def execVclass (s : Bool) (d a : BitVec 5) (q : BitVec 3) (st : State) : Out :=
  lanePure s d q (fun l => classF (st.lane a l)) st

/-! ### VARI (R144) -/

/-- R144: VADD.I. -/
def execVaddI (s : Bool) (d a b : BitVec 5) (q : BitVec 3) (st : State) : Out :=
  lanePure s d q (fun l => st.lane a l + st.lane b l) st

/-- R144: VSUB.I. -/
def execVsubI (s : Bool) (d a b : BitVec 5) (q : BitVec 3) (st : State) : Out :=
  lanePure s d q (fun l => st.lane a l - st.lane b l) st

/-- R144: VMUL.I. -/
def execVmulI (s : Bool) (d a b : BitVec 5) (q : BitVec 3) (st : State) : Out :=
  lanePure s d q (fun l => st.lane a l * st.lane b l) st

/-- R144: VAND. -/
def execVand (s : Bool) (d a b : BitVec 5) (q : BitVec 3) (st : State) : Out :=
  lanePure s d q (fun l => st.lane a l &&& st.lane b l) st

/-- R144: VOR. -/
def execVor (s : Bool) (d a b : BitVec 5) (q : BitVec 3) (st : State) : Out :=
  lanePure s d q (fun l => st.lane a l ||| st.lane b l) st

/-- R144: VXOR. -/
def execVxor (s : Bool) (d a b : BitVec 5) (q : BitVec 3) (st : State) : Out :=
  lanePure s d q (fun l => st.lane a l ^^^ st.lane b l) st

/-- R144: a lane's shift count, BITS(b, 4, 0). -/
def laneShift (b : Lane) : Nat := (b.extractLsb' 0 5).toNat

/-- R144: VSHL. -/
def execVshl (s : Bool) (d a b : BitVec 5) (q : BitVec 3) (st : State) : Out :=
  lanePure s d q (fun l => st.lane a l <<< laneShift (st.lane b l)) st

/-- R144: VSHR. -/
def execVshr (s : Bool) (d a b : BitVec 5) (q : BitVec 3) (st : State) : Out :=
  lanePure s d q (fun l => st.lane a l >>> laneShift (st.lane b l)) st

/-- R144: VSRA. -/
def execVsra (s : Bool) (d a b : BitVec 5) (q : BitVec 3) (st : State) : Out :=
  lanePure s d q (fun l => (st.lane a l).sshiftRight (laneShift (st.lane b l))) st

/-- R144: VMIN.I. -/
def execVminI (s : Bool) (d a b : BitVec 5) (q : BitVec 3) (st : State) : Out :=
  lanePure s d q (fun l => if (st.lane b l).slt (st.lane a l) then st.lane b l else st.lane a l) st

/-- R144: VMAX.I. -/
def execVmaxI (s : Bool) (d a b : BitVec 5) (q : BitVec 3) (st : State) : Out :=
  lanePure s d q (fun l => if (st.lane a l).slt (st.lane b l) then st.lane b l else st.lane a l) st

/-- R144: VCMPEQ.I. -/
def execVcmpeqI (s : Bool) (d : BitVec 3) (a b : BitVec 5) (q : BitVec 3) (st : State) : Out :=
  laneCompare s d q (fun l => decide (st.lane a l = st.lane b l)) st

/-- R144: VCMPLT.I. -/
def execVcmpltI (s : Bool) (d : BitVec 3) (a b : BitVec 5) (q : BitVec 3) (st : State) : Out :=
  laneCompare s d q (fun l => (st.lane a l).slt (st.lane b l)) st

/-- R144: VCMPLTU. -/
def execVcmpltu (s : Bool) (d : BitVec 3) (a b : BitVec 5) (q : BitVec 3) (st : State) : Out :=
  laneCompare s d q (fun l => (st.lane a l).ult (st.lane b l)) st

/-- R137, R144: VSEL: every lane is written. -/
def execVsel (s : Bool) (d a b : BitVec 5) (q : BitVec 3) (st : State) : Out :=
  .next (st.withFocus ((st.focus.landV d (vecOf fun l =>
    if st.focus.on q l then st.lane a l else st.lane b l)).advance s))

/-- R144: VMOV, short-class. -/
def execVmov (s : Bool) (d a : BitVec 5) (q : BitVec 3) (st : State) : Out :=
  .next (st.withFocus ((st.focus.writeV d (st.focus.merged d q (st.lane a))).advance s))

/-- R144: VBCAST, short-class. -/
def execVbcast (s : Bool) (d a : BitVec 5) (q : BitVec 3) (st : State) : Out :=
  .next (st.withFocus ((st.focus.writeV d (st.focus.merged d q fun _ => low32 (st.focus.gr a))).advance s))

/-- R144: the lane that VEXT and VINS name, BITS(g[b], 4, 0). -/
def laneIndex (x : Word) : Nat := bitsOf x 4 0

/-- R144: VEXT, short-class. -/
def execVext (s : Bool) (d a b : BitVec 5) (st : State) : Out :=
  shortResult s d ((st.lane a (laneIndex (st.focus.gr b))).setWidth 64) st

/-- R144: VINS, short-class. -/
def execVins (s : Bool) (d a b : BitVec 5) (st : State) : Out :=
  let f := st.focus
  .next (st.withFocus ((f.writeV d (vecOf fun l =>
    if l = laneIndex (f.gr b) then low32 (f.gr a) else st.lane d l)).advance s))

/-- R144: the number of active lanes below a lane. -/
def Slot.rank (f : Slot) (q : BitVec 3) (l : Nat) : Nat := ((f.activeLanes q).filter fun j => j < l).length

/-- R144: VIOTA. -/
def execViota (s : Bool) (d : BitVec 5) (q : BitVec 3) (st : State) : Out :=
  lanePure s d q (fun l => BitVec.ofNat 32 (st.focus.rank q l)) st

/-! ### VPRM (R145) -/

/-- R145: VPERM. -/
def execVperm (s : Bool) (d a b : BitVec 5) (q : BitVec 3) (st : State) : Out :=
  lanePure s d q (fun l => st.lane a (laneShift (st.lane b l))) st

/-- R145: VROT. -/
def execVrot (s : Bool) (d a b : BitVec 5) (q : BitVec 3) (st : State) : Out :=
  lanePure s d q (fun l => st.lane a ((l + laneShift (st.lane b 0)) % 32)) st

/-- R145: VZIP. -/
def execVzip (s : Bool) (d a b : BitVec 5) (q : BitVec 3) (st : State) : Out :=
  lanePure s d q (fun l => if l % 2 = 0 then st.lane a (l / 2) else st.lane b (l / 2)) st

/-- R145: VUNZIP. -/
def execVunzip (s : Bool) (d a b : BitVec 5) (q : BitVec 3) (st : State) : Out :=
  lanePure s d q (fun l => if l < 16 then st.lane a (2 * l) else st.lane b (2 * (l - 16))) st

/-- R137, R145: VCOMP: every lane is written. -/
def execVcomp (s : Bool) (d a : BitVec 5) (q : BitVec 3) (st : State) : Out :=
  let l := (st.focus.activeLanes q).map (st.lane a)
  .next (st.withFocus ((st.focus.landV d (vecOf fun i => l.getD i 0)).advance s))

/-- R137, R145: VEXPD: every lane is written. -/
def execVexpd (s : Bool) (d a : BitVec 5) (q : BitVec 3) (st : State) : Out :=
  let f := st.focus
  .next (st.withFocus ((f.landV d (vecOf fun l => if f.on q l then st.lane a (f.rank q l) else 0)).advance s))

/-! ### VCVT (R146 to R148) -/

/-- R93: a rounded code as a lane with its flags and saturation event. -/
def Rounded.lane (r : Rounded) : Flagged Lane := ⟨BitVec.ofNat 32 r.code, r.flags, if r.sat then 1 else 0⟩

/-- R146: a conversion that rounds, with the draws of R94 and the SR count. -/
def convert (mark : Bool) (d : BitVec 5) (r q : BitVec 3) (F : Fmt) (x : Nat → XR) (st : State) : Out :=
  let f := st.focus
  let mode := f.modeOf r.toNat
  .next (st.withFocus (((f.laneResults d q fun l => (roundTo F mode (f.draw l) (x l)).lane).countSr mode).advance mark))

/-- R146: a code widened to FP32. -/
def widen (F : Fmt) (code : Nat) : Flagged Lane := rne32 (decodeFmt F code)

/-- R146: VCVT.F.I. -/
def execVcvtFI (s : Bool) (d a : BitVec 5) (r q : BitVec 3) (st : State) : Out :=
  convert s d r q fp32 (fun l => .ofInt (st.lane a l).toInt 0) st

/-- R146: VCVT.I.F. -/
def execVcvtIF (s : Bool) (d a : BitVec 5) (r q : BitVec 3) (st : State) : Out :=
  convert s d r q int32 (fun l => exact32 (st.lane a l)) st

/-- R146: VCVT.F.BF. -/
def execVcvtFBf (s : Bool) (d a : BitVec 5) (q : BitVec 3) (st : State) : Out :=
  lanewise s d q (fun l => widen bf16 ((st.lane a l).toNat % 2 ^ 16)) st

/-- R146: VCVT.BF.F. -/
def execVcvtBfF (s : Bool) (d a : BitVec 5) (r q : BitVec 3) (st : State) : Out :=
  convert s d r q bf16 (fun l => exact32 (st.lane a l)) st

/-- R146: VCVT.F.H. -/
def execVcvtFH (s : Bool) (d a : BitVec 5) (q : BitVec 3) (st : State) : Out :=
  lanewise s d q (fun l => widen fp16 ((st.lane a l).toNat % 2 ^ 16)) st

/-- R146: VCVT.H.F. -/
def execVcvtHF (s : Bool) (d a : BitVec 5) (r q : BitVec 3) (st : State) : Out :=
  convert s d r q fp16 (fun l => exact32 (st.lane a l)) st

/-- R147: a format register as an instruction reads it, with FMTk in the read set. -/
def State.readFmt (st : State) (k : Nat) : Slot × Word :=
  let f := st.focus
  (f.addRead (.fmt f.firing.ctx f.firing.lc k), (st.fmtSeen f k).1)

/-- R146, R147: VNARROW. -/
def execVnarrow (s : Bool) (d a : BitVec 5) (r k q : BitVec 3) (st : State) : Out :=
  let t := st.readFmt k.toNat
  convert s d r q (fmtOfWord t.2) (fun l => exact32 (st.lane a l)) (st.withFocus t.1)

/-- R146, R147: VWIDEN. -/
def execVwiden (s : Bool) (d a : BitVec 5) (k q : BitVec 3) (st : State) : Out :=
  let t := st.readFmt k.toNat
  let F := fmtOfWord t.2
  lanewise s d q (fun l => widen F ((st.lane a l).toNat % 2 ^ F.width)) (st.withFocus t.1)

/-- R44: a v register as the number of its 1,024 bits, lane 0 lowest. -/
def vregNat (v : VReg) : Nat := v.toList.foldr (fun x n => x.toNat + 2 ^ 32 * n) 0

/-- R44: the v register of a number. -/
def vregOfNat (n : Nat) : VReg := vecOf fun l => BitVec.ofNat 32 (n >>> (32 * l))

/-- R91, R148: code l of a packed area. -/
def packedCode (v : VReg) (width l : Nat) : Nat := (vregNat v >>> (width * l)) % 2 ^ width

/-- R148: the sum of codes at their packed positions. -/
def packedSum (width : Nat) (codes : List (Nat × Nat)) : Nat :=
  (codes.map fun p => (p.2 % 2 ^ width) <<< (width * p.1)).sum

/-- R148: VPACK. -/
def execVpack (s : Bool) (d a : BitVec 5) (r k q : BitVec 3) (st : State) : Out :=
  let t := st.readFmt k.toNat
  let F := fmtOfWord t.2
  let f := t.1
  let mode := f.modeOf r.toNat
  let g : Nat → Rounded := fun l => roundTo F mode (f.draw l) (exact32 (st.lane a l))
  let on := f.activeLanes q
  let old := f.vr d
  let codes := (List.range 32).map fun l => (l, if f.on q l then (g l).code else packedCode old F.width l)
  let n := (vregNat old >>> (32 * F.width)) <<< (32 * F.width)
  let fl := on.map fun l => (g l).lane
  .next (st.withFocus (((((f.landV d (vregOfNat (packedSum F.width codes + n))).raiseLate (flagsOf fl)).addHidden
    (satOf fl)).countSr mode).advance s))

/-- R148: VUNPACK. -/
def execVunpack (s : Bool) (d a : BitVec 5) (k q : BitVec 3) (st : State) : Out :=
  let t := st.readFmt k.toNat
  let F := fmtOfWord t.2
  lanewise s d q (fun l => widen F (packedCode (st.focus.vr a) F.width l)) (st.withFocus t.1)

/-! ### VRED (R149 to R151) -/

/-- R149: a long-class result in a g register. -/
def longResult (mark : Bool) (d : BitVec 5) (x : Word) (flags : Word) (st : State) : Out :=
  .next (st.withFocus (((st.focus.landG d x).raiseLate flags).advance mark))

/-- The active lanes of a register. -/
def State.activeVals (st : State) (a : BitVec 5) (q : BitVec 3) : List Lane := (st.focus.activeLanes q).map (st.lane a)

/-- R100, R149: VRSUM.F. -/
def execVrsumF (s : Bool) (d a : BitVec 5) (q : BitVec 3) (st : State) : Out :=
  let r := treeSum ((List.range 32).map fun l => if st.focus.on q l then some (st.lane a l) else none)
  longResult s d (r.val.setWidth 64) r.flags st

/-- R149: the fold of VRMAX.F or VRMIN.F. -/
def extremeF (op : Lane → Lane → Lane) (l : List Lane) (empty : Lane) : Lane :=
  match l with
  | [] => empty
  | x :: t => t.foldl op (op x x)

/-- R149: VRMAX.F. -/
def execVrmaxF (s : Bool) (d a : BitVec 5) (q : BitVec 3) (st : State) : Out :=
  longResult s d ((extremeF maxF (st.activeVals a q) 0xFF800000#32).setWidth 64) 0 st

/-- R149: VRMIN.F. -/
def execVrminF (s : Bool) (d a : BitVec 5) (q : BitVec 3) (st : State) : Out :=
  longResult s d ((extremeF minF (st.activeVals a q) 0x7F800000#32).setWidth 64) 0 st

/-- R149: VRSUM.I. -/
def execVrsumI (s : Bool) (d a : BitVec 5) (q : BitVec 3) (st : State) : Out :=
  longResult s d (BitVec.ofInt 64 ((st.activeVals a q).map fun x => x.toInt).sum) 0 st

/-- R150: the accumulator image in lanes 0 to 11 of a register. -/
def xaOfReg (v : VReg) : Xa := Xa.ofBytes (leBytes 48 (vregNat v))

/-- R150: VRSUM.X: the pair is written whole. -/
def execVrsumX (s : Bool) (d : BitVec 4) (a : BitVec 5) (q : BitVec 3) (st : State) : Out :=
  let f := st.focus
  let acc := (st.activeVals a q).foldl (fun acc x => (acc.add (exact32 x)).val) (xaOfReg (f.vr (pairReg d)))
  let r := acc.round
  .next (st.withFocus ((((f.landV (pairReg d) (vregOfNat (leNat acc.bytes))).landV (pairReg d + 1)
    (vecOf fun l => if l = 0 then r.val else 0)).raiseLate r.flags).advance s))

/-- R100: the left fold over the active lanes: each active lane's running result; the first passes unchanged. -/
def scanLanes (op : Lane → Lane → Flagged Lane) (x : Nat → Lane) : Option Lane → List Nat → List (Nat × Flagged Lane)
  | _, [] => []
  | none, l :: t => (l, .pure (x l)) :: scanLanes op x (some (x l)) t
  | some p, l :: t => (l, op p (x l)) :: scanLanes op x (some (op p (x l)).val) t

/-- R100, R149: a scan. -/
def scan (mark : Bool) (d a : BitVec 5) (q : BitVec 3) (op : Lane → Lane → Flagged Lane) (st : State) : Out :=
  let r := scanLanes op (st.lane a) none (st.focus.activeLanes q)
  lanewise mark d q (fun l => lookupD r l (.pure 0)) st

/-- R149: VSCAN.F. -/
def execVscanF (s : Bool) (d a : BitVec 5) (q : BitVec 3) (st : State) : Out := scan s d a q fadd st

/-- R149: VSCAN.I. -/
def execVscanI (s : Bool) (d a : BitVec 5) (q : BitVec 3) (st : State) : Out :=
  scan s d a q (fun x y => .pure (x + y)) st

/-- R151: the lowest lane holding the extreme value; a NaN lane comes first; all ones where no lane is active. -/
def argExtreme (better : Ordering) (x : Nat → Lane) (on : List Nat) : Word :=
  match on.find? fun l => (exact32 (x l)).isNan with
  | some l => BitVec.ofNat 64 l
  | none =>
    match on with
    | [] => BitVec.allOnes 64
    | l :: t => BitVec.ofNat 64 (t.foldl (fun b j => if cmpZeroed (exact32 (x j)) (exact32 (x b)) = better then j else b) l)

/-- R151: VARGMAX. -/
def execVargmax (s : Bool) (d a : BitVec 5) (q : BitVec 3) (st : State) : Out :=
  longResult s d (argExtreme .gt (st.lane a) (st.focus.activeLanes q)) 0 st

/-- R151: VARGMIN. -/
def execVargmin (s : Bool) (d a : BitVec 5) (q : BitVec 3) (st : State) : Out :=
  longResult s d (argExtreme .lt (st.lane a) (st.focus.activeLanes q)) 0 st

/-! ### VFN (R152) -/

/-- R152: the lane result of a function in a precision; BF16 and FP16 results are held as FP32 values. -/
def vfnLane (fn : Fn) (p : BitVec 2) (x : Lane) : Flagged Lane :=
  let F := if p = 1#2 then bf16 else if p = 2#2 then fp16 else fp32
  let r := evalFn F fn (exact32 x)
  .mk' (if F.width = 32 then BitVec.ofNat 32 r.val else (widen F r.val).val) r.flags

/-- R152: a function of every active lane. -/
def vfn (fn : Fn) (mark : Bool) (d a : BitVec 5) (q : BitVec 3) (p : BitVec 2) (st : State) : Out :=
  lanewise mark d q (fun l => vfnLane fn p (st.lane a l)) st

/-- R103, R152: VFN.EXP2. -/
def execVfnExp2 (s : Bool) (d a : BitVec 5) (q : BitVec 3) (p : BitVec 2) (st : State) : Out := vfn .exp2 s d a q p st
/-- R104, R152: VFN.LOG2. -/
def execVfnLog2 (s : Bool) (d a : BitVec 5) (q : BitVec 3) (p : BitVec 2) (st : State) : Out := vfn .log2 s d a q p st
/-- R103, R152: VFN.EXP. -/
def execVfnExp (s : Bool) (d a : BitVec 5) (q : BitVec 3) (p : BitVec 2) (st : State) : Out := vfn .exp s d a q p st
/-- R104, R152: VFN.LN. -/
def execVfnLn (s : Bool) (d a : BitVec 5) (q : BitVec 3) (p : BitVec 2) (st : State) : Out := vfn .ln s d a q p st
/-- R104, R152: VFN.RCP. -/
def execVfnRcp (s : Bool) (d a : BitVec 5) (q : BitVec 3) (p : BitVec 2) (st : State) : Out := vfn .rcp s d a q p st
/-- R104, R152: VFN.RSQRT. -/
def execVfnRsqrt (s : Bool) (d a : BitVec 5) (q : BitVec 3) (p : BitVec 2) (st : State) : Out := vfn .rsqrt s d a q p st
/-- R105, R152: VFN.SINT. -/
def execVfnSint (s : Bool) (d a : BitVec 5) (q : BitVec 3) (p : BitVec 2) (st : State) : Out := vfn .sint s d a q p st
/-- R105, R152: VFN.COST. -/
def execVfnCost (s : Bool) (d a : BitVec 5) (q : BitVec 3) (p : BitVec 2) (st : State) : Out := vfn .cost s d a q p st
/-- R106, R152: VFN.TANH. -/
def execVfnTanh (s : Bool) (d a : BitVec 5) (q : BitVec 3) (p : BitVec 2) (st : State) : Out := vfn .tanh s d a q p st
/-- R106, R152: VFN.SIGM. -/
def execVfnSigm (s : Bool) (d a : BitVec 5) (q : BitVec 3) (p : BitVec 2) (st : State) : Out := vfn .sigm s d a q p st
/-- R106, R152: VFN.ERF. -/
def execVfnErf (s : Bool) (d a : BitVec 5) (q : BitVec 3) (p : BitVec 2) (st : State) : Out := vfn .erf s d a q p st
/-- R106, R152: VFN.GELU. -/
def execVfnGelu (s : Bool) (d a : BitVec 5) (q : BitVec 3) (p : BitVec 2) (st : State) : Out := vfn .gelu s d a q p st
/-- R106, R152: VFN.SILU. -/
def execVfnSilu (s : Bool) (d a : BitVec 5) (q : BitVec 3) (p : BitVec 2) (st : State) : Out := vfn .silu s d a q p st

/-! ### VMSK (R153) -/

/-- R153: a short-class result in an m register. -/
def maskResult (mark : Bool) (d : BitVec 3) (x : Lane) (st : State) : Out :=
  .next (st.withFocus ((st.focus.writeM d x).advance mark))

/-- R153: MAND. -/
def execMand (s : Bool) (d a b : BitVec 3) (st : State) : Out :=
  maskResult s d (st.focus.mr a &&& st.focus.mr b) st
/-- R153: MOR. -/
def execMor (s : Bool) (d a b : BitVec 3) (st : State) : Out :=
  maskResult s d (st.focus.mr a ||| st.focus.mr b) st
/-- R153: MXOR. -/
def execMxor (s : Bool) (d a b : BitVec 3) (st : State) : Out :=
  maskResult s d (st.focus.mr a ^^^ st.focus.mr b) st
/-- R153: MNOT. -/
def execMnot (s : Bool) (d a : BitVec 3) (st : State) : Out := maskResult s d (~~~ st.focus.mr a) st
/-- R153: MPOP. -/
def execMpop (s : Bool) (d : BitVec 5) (a : BitVec 3) (st : State) : Out := shortResult s d (popcW (st.focus.mr a)) st
/-- R153: MFIRST. -/
def execMfirst (s : Bool) (d : BitVec 5) (a : BitVec 3) (st : State) : Out :=
  shortResult s d (BitVec.ofNat 64 (((List.range 32).takeWhile fun i => !(st.focus.mr a).getLsbD i).length)) st
/-- R153: MSET. -/
def execMset (s : Bool) (d : BitVec 3) (a : BitVec 5) (st : State) : Out := maskResult s d (low32 (st.focus.gr a)) st
/-- R153: MGET. -/
def execMget (s : Bool) (d : BitVec 5) (a : BitVec 3) (st : State) : Out :=
  shortResult s d ((st.focus.mr a).setWidth 64) st

/-! ### VQ (R154 to R156, R158) -/

/-- R154: the blocks of a row of 32 values under a format word: each value's scale byte, and whether it starts a block. -/
def quantBlocks (F : Word) (x : List XR) : List (List XR × Nat) :=
  match fmtBlock F with
  | 0 => [(x, 127)]
  | 1 => [(x, blockScale (fmtOfWord F) (x.foldl blockAdd ⟨none, none, 0⟩).hi)]
  | _ => (varBlocks (fmtRange F) ⟨none, none, 0⟩ [] x).map fun b => (b.1, blockScale (fmtOfWord F) b.2.hi)

/-- R154: each element with its block's scale byte and the block-start mark. -/
def spreadBlocks (l : List (List XR × Nat)) : List (XR × Nat × Bool) :=
  (l.map fun b => (List.range b.1.length).map fun i => (b.1.getD i (.zero false), b.2, decide (i = 0))).flatten

/-- R155: the image of VQUANT. -/
def quantImage (width : Nat) (codes : List Nat) (starts : List Bool) (scales : List Nat) : List Byte :=
  leBytes 32 (packedSum width ((List.range 32).map fun l => (l, codes.getD l 0)))
    ++ leBytes 4 (maskOf fun l => starts.getD l false).toNat
    ++ leBytes 4 scales.length ++ ((List.range 32).map fun j => leBytes 1 (scales.getD j 0)).flatten ++ leBytes 56 0

/-- R154: VQUANT. -/
def execVquant (s : Bool) (d a b : BitVec 5) (q : BitVec 3) (st : State) : Out :=
  let c := st.focus.gr b
  let t := st.readFmt (bitsOf c 2 0)
  let f := t.1
  let F := fmtOfWord t.2
  let mode := f.modeOf (if bitsOf c 5 3 = 7 then fmtRm t.2 else bitsOf c 5 3)
  let x := (List.range 32).map fun l => if f.on q l then exact32 (st.lane a l) else .zero false
  let bl := quantBlocks t.2 x
  let el := spreadBlocks bl
  let r := (List.range 32).map fun l =>
    let e := el.getD l (.zero false, 127, false)
    (roundTo F mode (f.draw l) (e.1.scale (127 - (e.2.1 : Int)))).lane
  let img := quantImage F.width (r.map fun y => y.val.toNat) (el.map fun e => e.2.2) (bl.map fun p => p.2)
  .next (st.withFocus (((((f.landV d (vregOfNat (leNat img))).raiseLate (flagsOf r)).addHidden (satOf r)).countSr
    mode).advance s))

/-- R156: a lane of VDQ from an image. -/
def vdqLane (F : Fmt) (img : List Byte) (l : Nat) : Flagged Lane :=
  let n := ((List.range (l + 1)).filter fun j => (img.getD (32 + j / 8) 0).getLsbD (j % 8)).length
  let code := (leNat (img.take 32) >>> (F.width * l)) % 2 ^ F.width
  let sc := if n = 0 then none else e8m0 (img.getD (39 + n) 0).toNat
  let r := rne32 ((decodeFmt F code).scaled sc)
  .mk' r.val (r.flags ||| flagIf (decide (n = 0)) flagInv)

/-- R156: VDQ. -/
def execVdq (s : Bool) (d a b : BitVec 5) (q : BitVec 3) (st : State) : Out :=
  let t := st.readFmt (bitsOf (st.focus.gr b) 2 0)
  lanewise s d q (vdqLane (fmtOfWord t.2) (leBytes 128 (vregNat (st.focus.vr a)))) (st.withFocus t.1)

/-- R158: the rank of a lane's magnitude: every NaN alike, above every number. -/
def magRank (x : Lane) : Nat := min (x.toNat % 2 ^ 31) 0x7F800001

/-- R158: the lanes of a list that are kept: those beaten by fewer than k others; on equal rank the lower lane wins. -/
def keepTop (k : Nat) (score : Nat → Nat) (l : List Nat) : List Nat :=
  l.filter fun i => decide ((l.filter fun j => decide (score i < score j) ||
    (decide (score i = score j) && decide (j < i))).length < k)

/-- R158: VTOPK. -/
def execVtopk (s : Bool) (d a b : BitVec 5) (q : BitVec 3) (st : State) : Out :=
  let kept := keepTop (min (bitsOf (st.focus.gr b) 5 0) 32) (fun l => magRank (st.lane a l)) (st.focus.activeLanes q)
  lanePure s d q (fun l => if l ∈ kept then st.lane a l else 0) st

/-- R158: VSP24. -/
def execVsp24 (s : Bool) (d a b : BitVec 5) (q : BitVec 3) (st : State) : Out :=
  let kept (l : Nat) : Bool := decide (l ∈ keepTop 2 (fun j => magRank (st.lane b j))
    ((st.focus.activeLanes q).filter fun j => j / 4 = l / 4))
  lanePure s d q (fun l => if kept l then st.lane a l else 0) st

end Sys2Proof.Machine
end

