-- ==== Sys2Proof/Machine/Ring.lean ====
section
/-! DEFINITION. Ring words and time laws (R239 to R261) and VLAW (R157): the law table, LAW_EVAL bit for bit, crossings
and alarms, the RING instructions and the check of an alarm. -/

namespace Sys2Proof.Machine

/-! ### The law entry (R241) -/

/-- R241: a law entry. -/
structure Law where
  kind : Nat
  clk : Nat
  shift : Nat
  tdir : Nat
  q : Nat
  w : Nat
  r : Lane
  lo : Lane
  hi : Lane
  th : Lane
  tcore : Nat
  tch : Nat
  deriving DecidableEq, Repr

/-- R241: the law entry of 32 bytes. -/
def Law.ofBytes (l : List Byte) : Law :=
  let n := leNat l
  { kind := natBits n 3 0, clk := natBits n 5 4, shift := natBits n 10 6, tdir := natBits n 12 11
    q := natBits n 63 32, w := natBits n 95 64, r := BitVec.ofNat 32 (n >>> 96), lo := BitVec.ofNat 32 (n >>> 128)
    hi := BitVec.ofNat 32 (n >>> 160), th := BitVec.ofNat 32 (n >>> 192), tcore := natBits n 235 224
    tch := natBits n 241 236 }

/-- R242: the number of the first condition that a LAW.WR image breaks. -/
def lawBreaks (i : Nat) (l : List Byte) : Option Nat :=
  let n := leNat l
  let e := Law.ofBytes l
  if i = 0 then some 1
  else if natBits n 31 13 ≠ 0 ∨ natBits n 255 242 ≠ 0 ∨ 3 < e.kind ∨ e.tdir = 3 then some 2
  else if (exact32 e.r).isNan ∨ (exact32 e.lo).isNan ∨ (exact32 e.hi).isNan ∨ (exact32 e.th).isNan then some 3
  else if (exact32 e.lo).cmp (exact32 e.hi) = .gt then some 4
  else if 61 < e.tch then some 5
  else none

/-! ### Evaluation (R247 to R249) -/

/-- R248: one bit of the search for TL[j]: r is kept where 2r - 1 is not above 2 × the real value. -/
def tlStep (bound r bit : Nat) : Nat := if (2 * (r + bit) - 1) ^ 256 ≤ bound then r + bit else r

/-- R248: TL[j] = RNI(2^31 × 2^(-j/256)): the largest r with (r - 1/2)^256 ≤ 2^(31 × 256 - j). -/
def tabTl (j : Nat) : Nat :=
  if j = 0 then 2 ^ 31
  else if 256 ≤ j then 2 ^ 30
  else ((List.range 32).reverse.map fun i => 2 ^ i).foldl (tlStep (2 ^ (32 * 256 - j))) 0

/-- R248: LEAKF. -/
def leakf (f : Nat) : Nat :=
  let j := f >>> 16
  let g := f % 2 ^ 16
  let d := 0xB17217F8 * g - ((0x3D7F * g * g) >>> 8)
  max (tabTl j - ((tabTl j * d) >>> 56)) (tabTl (j + 1))

/-- R249: an entry of SC or SS for j in 1 to 255: RNI(2^30 × the cosine or sine of j/1024 of a turn), the larger half of
the quarter turn by symmetry. -/
def tabTurn (cosine : Bool) (j : Nat) : Int :=
  if j = 0 then (if cosine then 2 ^ 30 else 0)
  else
    let k := if j ≤ 128 then j else 256 - j
    let c := if j ≤ 128 then cosine else !cosine
    ((roundReal int32 fun p => (if c then Iv.cosTurn p false k (-10) else Iv.sinTurn p false k (-10)).scale 30).code : Int)

/-- R249: ROT. -/
def rot (p : Nat) : Int × Int :=
  let q := p >>> 30
  let r := p % 2 ^ 30
  let j := r >>> 22
  let h := r % 2 ^ 22
  let P : Int := ((h * 0x1921FB544 : Nat) : Int)
  let CM := -((P * P) >>> 63)
  let SP := P - (P * P * P) / (3 * 2 ^ 125)
  let sc := tabTurn true j
  let ss := tabTurn false j
  let c1 := sc + ((sc * CM - ss * SP) >>> 62)
  let s1 := ss + ((ss * CM + sc * SP) >>> 62)
  match q with
  | 0 => (c1, s1)
  | 1 => (-s1, c1)
  | 2 => (-c1, -s1)
  | _ => (s1, -c1)

/-- R247, R252: what LAW_EVAL gives: the two values, the indications, and the flags of its access. -/
structure LawOut where
  a : Lane
  b : Lane
  sat : Bool
  nan : Bool
  flags : Word
  deriving DecidableEq, Repr

/-- R247: an exact zero result is +0. -/
def plusZero (x : XR) : XR := if x.isZero then .zero false else x

/-- R247: RNE32 of an output; a NaN that the inputs did not bring raises INV (R252). -/
def lawRound (x : XR) (nanIn : Bool) : Flagged Lane :=
  let r := rne32 (plusZero x)
  .mk' r.val (r.flags ||| flagIf (x.isNan && !nanIn) flagInv)

/-- R247: a value times k = LEAKF(f) × 2^-31 × 2^-n. An n above 2,000 acts as 2,000: the product is then below every
format's range and its sign is all that is left. -/
def leakScale (q d : Nat) (x : XR) : XR :=
  let y := d * q
  let n := min (y >>> 24) 2000
  (x.mul (.fin false (leakf (y % 2 ^ 24)) 0 false)).scale (-31 - (n : Int))

/-- R157, R247: LAW_EVAL. With Δ = 0 it returns its inputs as they are, a lane of VLAW that holds a NaN among them (DEDUCED, log
entry 103). -/
def lawEval (e : Law) (a b : Lane) (d : Nat) : LawOut :=
  let x := exact32 a
  let y := exact32 b
  if d = 0 then ⟨a, b, false, false, 0⟩
  else match e.kind with
    | 1 =>
      let r := exact32 e.r
      let v := lawRound (r.add (leakScale e.q d (x.add r.negate))) (x.isNan || r.isNan)
      ⟨v.val, b, false, (exact32 v.val).isNan, v.flags⟩
    | 2 =>
      let v := lawRound (x.add (y.mul (xInt d))) (x.isNan || y.isNan)
      let s := exact32 v.val
      let isNan := s.isNan
      let a1 := if isNan then v.val
        else if s.cmp (exact32 e.lo) = .lt then e.lo
        else if s.cmp (exact32 e.hi) = .gt then e.hi else v.val
      let sat := decide (a1 ≠ v.val)
      ⟨a1, b, sat, isNan, v.flags ||| flagIf sat flagSat⟩
    | 3 =>
      let t := rot ((d * e.w) % 2 ^ 32)
      let nanIn := x.isNan || y.isNan
      let c := xInt t.1
      let s := xInt t.2
      let u := lawRound (leakScale e.q d (((x.mul c).add (y.mul s).negate).scale (-30))) nanIn
      let w := lawRound (leakScale e.q d (((x.mul s).add (y.mul c)).scale (-30))) nanIn
      let na := (exact32 u.val).isNan || (exact32 w.val).isNan
      if nanIn then ⟨nan32, nan32, false, true, 0⟩ else ⟨u.val, w.val, false, na, u.flags ||| w.flags⟩
    | _ => ⟨a, b, false, false, 0⟩

/-- R253: the smallest d of (lo, hi] at which a test holds, the test holding at hi and staying true once true. -/
def bisect (p : Nat → Bool) : Nat → Nat → Nat → Nat
  | 0, _, hi => hi
  | n + 1, lo, hi =>
    if hi ≤ lo + 1 then hi
    else
      let m := (lo + hi) / 2
      if p m then bisect p n lo m else bisect p n m hi

/-- R253: CROSS: V is monotone in d (R253), so the smallest d is found by bisection. The reserved TDIR = 3, which only a privileged
write leaves in an entry, crosses as EITHER (DESIGN CHOICE, log entry 114). -/
def cross (e : Law) (a b : Lane) (d : Nat) : Nat :=
  let th := exact32 e.th
  let v0 := exact32 a
  let V (k : Nat) : XR := exact32 (lawEval e a b k).a
  let above (k : Nat) : Bool := !(V k).isNan && decide ((V k).cmp th ≠ .lt)
  let below (k : Nat) : Bool := !(V k).isNan && decide ((V k).cmp th ≠ .gt)
  let search (p : Nat → Bool) : Nat := if p d then bisect p 48 0 d else 0
  if (e.kind ≠ 1 ∧ e.kind ≠ 2) ∨ d = 0 ∨ v0.isNan then 0
  else if e.tdir ≠ 1 ∧ v0.cmp th = .lt then search above
  else if e.tdir ≠ 0 ∧ v0.cmp th = .gt then search below
  else 0

/-! ### Clocks and law entries as a chunk sees them (R241, R243, R244, R259) -/

/-- R243: a committed step clock. -/
def Ctx.stepOf (c : Ctx) (k : Nat) : Word := lookupD c.steps k 0

/-- R244, R260: a step clock with the chunk's own held advances. -/
def State.stepSeen (st : State) (f : Slot) (k : Nat) : Word :=
  f.chunk.held.foldl (fun c h => match h with
    | .clkAdv j n => if j = k then c + n else c
    | _ => c) ((st.ctxOf f.firing.ctx).stepOf k)

/-- R259: the chunk's own held image of a law entry. -/
def Slot.heldLaw (f : Slot) (i : Nat) : Option (List Byte) :=
  f.chunk.held.reverse.findSome? fun h => match h with
    | .lawWr j img => if j = i then some img else none
    | _ => none

/-- R241, R250, R259: the 32 bytes of a law entry as the chunk sees them: a load that enters the read set; entry 0 reads
as zeros. -/
def State.loadLaw (st : State) (f : Slot) (i : Nat) : Try (Slot × List Byte) := do
  let r ← st.loadBytes f (st.myCtx.lawAddr i) 32 32 .load
  .ok (r.1, if i = 0 then List.replicate 32 0 else (f.heldLaw i).getD r.2)

/-- R244, R245: the clock of an access: N, now, the raw Δ of a word's T. -/
structure Clock where
  N : Nat
  now : Nat
  raw : Nat
  deriving DecidableEq, Repr

/-- R244: the clock computed from a value c. -/
def clockOf (c : Word) (shift t : Nat) : Clock :=
  let n := c.toNat >>> shift
  { N := n, now := n % 2 ^ 48, raw := (n % 2 ^ 48 + 2 ^ 48 - t % 2 ^ 48) % 2 ^ 48 }

/-- R245: whether an access is behind T. -/
def Clock.back (c : Clock) : Bool := decide (2 ^ 47 ≤ c.raw)

/-- R245: Δ. -/
def Clock.delta (c : Clock) : Nat := if c.back then 0 else c.raw

/-- R244: the clock of an access to a word of T = t under a law, with what it adds to the read set; NONDET for a
time-base law in an unordered firing under RECORD or VERIFY. -/
def State.accessClock (st : State) (f : Slot) (a : Word) (e : Law) (t : Nat) : Try (Slot × Clock) :=
  if e.clk = 0 then
    if f.firing.ordered then .ok (f, clockOf f.firing.fts e.shift t)
    else
      let m := st.myCtx.dgMode
      if m = 1 ∨ m = 2 then excAt .nondet a
      else .ok (f.addRead (.dgMode f.firing.ctx), clockOf f.firing.fts e.shift t)
  else .ok (f.addRead (.clock f.firing.ctx e.clk), clockOf (st.stepSeen f e.clk) e.shift t)

/-! ### The word operations (R250 to R255) -/

/-- R251: the write-backs. -/
inductive RingOp where
  | ld
  | adv
  | set (x : Word)
  | add (x : Word)
  | arm
  | disarm
  deriving DecidableEq, Repr

/-- R250 to R254: what an access to a word gives: the word to hold, the values returned, the crossing offset Δc of an
alarm (0 for none), the status and the flags. -/
structure RingResult where
  word : RingWord
  a : Lane
  b : Lane
  alarm : Nat
  status : Word
  flags : Word
  sat : Nat
  deriving DecidableEq, Repr

/-- R252: RWST. -/
def rwst (xd law : Nat) (bk xc al sa na : Bool) : Word :=
  BitVec.ofNat 64 (xd % 2 ^ 48 + (law % 256) * 2 ^ 48 + bitAt bk 56 + bitAt xc 57 + bitAt al 58 + bitAt sa 59 + bitAt na 60)

/-- R251: the word that an operation holds, before the arming rule, with the flags and the NaN of RW.ADD's sums. -/
def ringHeld (op : RingOp) (w : RingWord) (v : LawOut) (c : Clock) (xd : Nat) : RingWord × Word × Bool :=
  let t := if c.back then w.t else c.now
  let base : RingWord := { w with
    a := v.a, b := v.b, t := t, miss := w.miss || decide (xd ≠ 0), back := w.back || c.back, sat := w.sat || v.sat
    nanf := w.nanf || v.nan }
  match op with
  | .ld => (w, 0, false)
  | .adv => (base, 0, false)
  | .set x => ({ w with a := low32 x, b := (x >>> 32).setWidth 32, t := t, miss := false, sat := false, nanf := false
                        back := c.back }, 0, false)
  | .add x =>
    let p := fadd v.a (low32 x)
    let q := fadd v.b ((x >>> 32).setWidth 32)
    let made (r : Lane) (y z : Lane) : Bool := (exact32 r).isNan && !(exact32 y).isNan && !(exact32 z).isNan
    let na := made p.val v.a (low32 x) || made q.val v.b ((x >>> 32).setWidth 32)
    ({ base with a := p.val, b := q.val, nanf := base.nanf || na }, p.flags ||| q.flags, na)
  | .arm => ({ base with arm := true }, 0, false)
  | .disarm => ({ base with arm := false }, 0, false)

/-- R250 to R254: RING_ACCESS and the operation, on a word and its law. -/
def ringAccess (op : RingOp) (w : RingWord) (e : Law) (c : Clock) : RingResult :=
  let v := lawEval e w.a w.b c.delta
  let xd := cross e w.a w.b c.delta
  let h := ringHeld op w v c xd
  let writes := decide (op ≠ .ld)
  let arms := writes && h.1.arm
  let dc := if arms then cross e h.1.a h.1.b (2 ^ 47 - 1) else 0
  let word := if arms ∧ dc = 0 then { h.1 with arm := false } else h.1
  let x := if arms then dc else xd
  { word := word, a := v.a, b := v.b, alarm := dc
    status := rwst x w.law c.back (decide (xd ≠ 0)) (decide (dc ≠ 0)) v.sat (v.nan || h.2.2)
    flags := v.flags ||| h.2.1, sat := if v.sat then 1 else 0 }

/-- R255: uh, the distance from now to the held T, and the sum N + uh + Δc. -/
def alarmTick (c : Clock) (t dc : Nat) : Int :=
  let d : Nat := (t + 2 ^ 48 - c.now) % 2 ^ 48
  (c.N : Int) + (if d < 2 ^ 47 then (d : Int) else (d : Int) - 2 ^ 48) + dc

/-- R254: the address an alarm's payload carries: for a scratchpad word, in the remote region of its owner. -/
def alarmAddr (f : Slot) (a : Word) : Word :=
  match regionOf a with
  | .own _ off => remoteAddr f.firing.lc off
  | _ => a

/-- R254, R255: the alarm of a word that is held armed: addr is what its payload names, then the sender. -/
def alarmFor (addr src ran : Nat) (fid fts : Word) (fch : Nat) (e : Law) (c : Clock) (r : RingResult) : Alarm :=
  { clk := e.clk
    due := BitVec.ofInt 64 (alarmTick c r.word.t r.alarm) <<< e.shift
    core := e.tcore, ch := e.tch
    payload := leBytes 8 addr ++ leBytes 8 (r.word.t + r.word.law * 2 ^ 48) ++ leBytes 8 r.alarm
      ++ leBytes 4 r.word.a.toNat ++ leBytes 4 r.word.b.toNat
    src := src, fid := fid, fts := fts, fch := fch, ran := ran }

/-- R254, R255: the alarm of an armed word of a chunk. -/
def alarmOf (f : Slot) (a : Word) (e : Law) (c : Clock) (r : RingResult) : Alarm :=
  alarmFor (alarmAddr f a).toNat f.firing.lc f.core f.firing.fid f.firing.fts f.firing.ch e c r

/-- R203, R250: the access check of a ring operation; a host address raises RIGHTS. -/
def State.ringPlace (st : State) (f : Slot) (a : Word) (read : Bool) : Try Place :=
  match regionOf a with
  | .host _ =>
    if !read then st.access f a 16 .amo false
    else if a.toNat % 16 ≠ 0 then excAt .misalign a else excAt .rights a
  | _ => st.access f a 16 (if read then .load else .amo) false

/-- R250: the 16 bytes of a word as the chunk sees them; after a ZERO reply, zeros. -/
def State.ringRead (st : State) (f : Slot) (a : Word) (p : Place) : Try (Slot × List Byte) :=
  match p with
  | .cells k at' => st.readKey f a k at' 16
  | .live off => .ok (f, st.myCtx.mirrorBytes off 16)
  | _ => .ok (f, List.replicate 16 0)

/-- R250: the write-back held in the chunk. -/
def Slot.ringWrite (f : Slot) (p : Place) (l : List Byte) : Slot :=
  match p with
  | .cells k at' => f.store k at' l
  | _ => f

/-- R250: the common part of RING_ACCESS: the place, the word, its law and its clock. -/
def State.ringOpen (st : State) (f : Slot) (a : Word) (read : Bool) : Try (Slot × Place × RingWord × Law × Clock) := do
  let p ← st.ringPlace f a read
  let r ← st.ringRead f a p
  let w := RingWord.ofBytes r.2
  refuseIf (decide (w.rsv ≠ 0)) .rwfmt a 0
  let l ← st.loadLaw r.1 w.law
  let e := Law.ofBytes l.2
  refuseIf (decide (3 < e.kind)) .rwfmt (st.myCtx.lawAddr w.law) 0
  let c ← st.accessClock l.1 a e w.t
  .ok (c.1, p, w, e, c.2)

/-- R257: a pair result; d = 0 discards both and leaves g1 unchanged. -/
def Slot.landPair (f : Slot) (d : BitVec 4) (x y : Word) : Slot :=
  if d = 0 then f else (f.landG (pairReg d) x).landG (pairReg d + 1) y

/-- R250 to R257: a word operation. -/
def ringOp (mark : Bool) (op : RingOp) (d : BitVec 4) (a : BitVec 5) (st : State) : Out :=
  let addr := st.focus.gr a
  st.finish (do
    let o ← st.ringOpen st.focus addr (decide (op = .ld))
    let c := o.2.2.2.2
    let r := ringAccess op o.2.2.1 o.2.2.2.1 c
    let f1 := if op = .ld then o.1 else o.1.ringWrite o.2.1 r.word.bytes
    let f2 := if r.alarm = 0 then f1 else f1.hold (.alarm (alarmOf f1 addr o.2.2.2.1 c r))
    .ok ((((f2.landPair d (r.b ++ r.a) r.status).raiseLate r.flags).addHidden r.sat).advance mark))

/-- R251: RW.LD. -/
def execRwLd (s : Bool) (d : BitVec 4) (a : BitVec 5) (st : State) : Out := ringOp s .ld d a st
/-- R251: RW.ADV. -/
def execRwAdv (s : Bool) (d : BitVec 4) (a : BitVec 5) (st : State) : Out := ringOp s .adv d a st
/-- R251: RW.SET. -/
def execRwSet (s : Bool) (d : BitVec 4) (a b : BitVec 5) (st : State) : Out := ringOp s (.set (st.focus.gr b)) d a st
/-- R251: RW.ADD. -/
def execRwAdd (s : Bool) (d : BitVec 4) (a b : BitVec 5) (st : State) : Out := ringOp s (.add (st.focus.gr b)) d a st
/-- R251, R254: RW.ARM. -/
def execRwArm (s : Bool) (d : BitVec 4) (a : BitVec 5) (st : State) : Out := ringOp s .arm d a st
/-- R251: RW.DISARM. -/
def execRwDisarm (s : Bool) (d : BitVec 4) (a : BitVec 5) (st : State) : Out := ringOp s .disarm d a st

/-- R258: RW.HDR. -/
def execRwHdr (s : Bool) (d a : BitVec 5) (st : State) : Out :=
  st.finish (do
    let o ← st.ringOpen st.focus (st.focus.gr a) false
    let w := o.2.2.1
    let c := o.2.2.2.2
    let w1 : RingWord := { w with t := if c.back then w.t else c.now, back := w.back || c.back, arm := false }
    .ok (((o.1.ringWrite o.2.1 w1.bytes).landG d
      (BitVec.ofNat 64 (c.delta + w.law * 2 ^ 48 + bitAt c.back 56))).advance s))

/-- R242, R259: LAW.WR, held. -/
def execLawWr (s : Bool) (a b : BitVec 5) (st : State) : Out :=
  let f := st.focus
  let i := bitsOf (f.gr a) 7 0
  st.finish (do
    let r ← st.loadRange 8 4 f (f.gr b) 32
    match lawBreaks i r.2 with
    | some n => exc2 .illop (BitVec.ofNat 64 i) (BitVec.ofNat 64 n)
    | none => .ok ((r.1.hold (.lawWr i r.2)).advance s))

/-- R259: LAW.RD. -/
def execLawRd (s : Bool) (d a b : BitVec 5) (st : State) : Out :=
  let f := st.focus
  st.finish (do
    let r ← st.loadLaw f (bitsOf (f.gr a) 7 0)
    .ok ((r.1.landG d (BitVec.ofNat 64 (leNat ((r.2.drop (8 * bitsOf (f.gr b) 1 0)).take 8)))).advance s))

/-- R260: CLK.ADV, held. -/
def execClkAdv (s : Bool) (a b : BitVec 5) (st : State) : Out :=
  let f := st.focus
  let k := bitsOf (f.gr a) 1 0
  st.finish (if k = 0 then excAt .illop (f.gr a)
    else .ok (((f.addRead (.clock f.firing.ctx k)).hold (.clkAdv k (f.gr b))).advance s))

/-- R260: CLK.RD, short-class. -/
def execClkRd (s : Bool) (d a : BitVec 5) (st : State) : Out :=
  let f := st.focus
  let k := bitsOf (f.gr a) 1 0
  if k = 0 then shortResult s d f.firing.fts st
  else shortResult s d (st.stepSeen f k) (st.withFocus (f.addRead (.clock f.firing.ctx k)))

/-- R157: Δ of VLAW. -/
def vlawDelta (x : Word) : Nat := if bitsOf x 47 0 < 2 ^ 47 then bitsOf x 47 0 else 0

/-- R157: the lanes VLAW writes: what each active lane or pair of lanes takes. -/
def vlawLane (e : Law) (v : VReg) (on : Nat → Bool) (d l : Nat) : Option LawOut :=
  if e.kind = 1 then (if on l then some (lawEval e (laneAt v l) 0 d) else none)
  else if e.kind = 2 ∨ e.kind = 3 then
    (if on (l - l % 2) then some (lawEval e (laneAt v (l - l % 2)) (laneAt v (l - l % 2 + 1)) d) else none)
  else none

/-- R157: VLAW, long-class. -/
def execVlaw (s : Bool) (d a b : BitVec 5) (q : BitVec 3) (st : State) : Out :=
  let f := st.focus
  let i := bitsOf (f.gr a) 7 0
  st.finish (do
    let r ← st.loadLaw f i
    let e := Law.ofBytes r.2
    refuseIf (decide (3 < e.kind)) .rwfmt (st.myCtx.lawAddr i) 0
    let out := vlawLane e (f.vr d) (f.on q) (vlawDelta (f.gr b))
    let v := vecOf fun l => match out l with
      | none => laneAt (f.vr d) l
      | some x => if l % 2 = 0 ∨ e.kind = 1 then x.a else x.b
    let ran := (List.range 32).filterMap fun l => if e.kind = 1 ∨ l % 2 = 0 then out l else none
    let fl := ran.foldl (fun w x => w ||| x.flags) 0
    .ok ((((r.1.landV d v).raiseLate fl).addHidden (ran.filter fun x => x.sat).length).advance s))

/-! ### The check of an alarm (R256) -/

/-- R256: an alarm is dropped: the chunk holds ALMDROP + 1 and closes; the firing then ends as SKIP ends one. -/
def Slot.dropAlarm (f : Slot) : Slot :=
  let f1 : Slot := { f with word := 0 }
  let f2 := f1.hold .almDrop
  { f2 with chunk := { f2.chunk with checked := true, closed := some .skip } }

/-- R256: the check of an alarm's word and law on a payload. -/
def alarmHolds (w : RingWord) (e : Law) (p : List Byte) : Bool :=
  decide (w.rsv = 0) && w.arm && decide (w.t = leNat ((p.drop 8).take 8) % 2 ^ 48)
    && decide (w.a.toNat = leNat ((p.drop 24).take 4)) && decide (w.b.toNat = leNat ((p.drop 28).take 4))
    && decide (e.kind ≤ 3)

/-- R256: the word advanced over Δc from the armed values. The check's LAW_EVAL raises no flag and no saturation event in the
firing (DESIGN CHOICE, log entry 113). -/
def alarmWord (w : RingWord) (e : Law) (dc : Nat) : RingWord :=
  let v := lawEval e w.a w.b dc
  { w with a := v.a, b := v.b, t := (w.t + dc) % 2 ^ 48, arm := false, sat := w.sat || v.sat, nanf := w.nanf || v.nan }

/-- R254: the address in an alarm's payload. -/
def alarmVa (p : List Byte) : Word := BitVec.ofNat 64 (leNat (p.take 8))

/-- R256: the slot with the alarm's word in its read set, where the address names one. -/
def State.alarmSeen (st : State) (p : List Byte) : Slot :=
  match st.ringPlace st.focus (alarmVa p) true with
  | .ok (.cells k _) => st.focus.readBytes k 16
  | _ => st.focus

/-- R182, R256: a slot with a law entry in its read set, where its address names bytes of M. -/
def State.lawSeen (st : State) (f : Slot) (i : Nat) : Slot :=
  match st.access f (st.myCtx.lawAddr i) 32 .load false with
  | .ok (.cells k _) => f.readBytes k 32
  | _ => f

/-- R256: the check in the open chunk: the slot with the word held, or a stop of one of its two reads. -/
def State.alarmTry (st : State) (p : List Byte) : Try Slot := do
  let a := alarmVa p
  let pl ← st.ringPlace st.focus a true
  let r ← st.ringRead st.focus a pl
  let w := RingWord.ofBytes r.2
  match st.loadLaw r.1 w.law with
  | .error (.exc _ _ _ _) => .ok (st.lawSeen r.1 w.law).dropAlarm
  | .error e => .error e
  | .ok l =>
    let e := Law.ofBytes l.2
    if decide (pl ≠ .zero) && decide (st.myCtx.lawAddr w.law ∉ st.focus.zeros) && alarmHolds w e p then
      .ok (let f := l.1.ringWrite pl (alarmWord w e (leNat ((p.drop 16).take 8))).bytes
           { f with chunk := { f.chunk with checked := true } })
    else .ok l.1.dropAlarm

/-- R256: the check: a read that fails drops the alarm; a miss waits for the TSC. -/
def State.alarmCheck (st : State) (p : List Byte) : State :=
  if st.focus.chunk.checkFail then st.withFocus (st.alarmSeen p).dropAlarm
  else
    match st.alarmTry p with
    | .ok f => st.withFocus f
    | .error (.miss va acc) =>
      if st.faultsAtOnce va then st.withFocus (st.alarmSeen p).dropAlarm
      else st.tlbMiss va acc
    | .error (.park w reads) => st.withFocus { reads.foldl Slot.addRead st.focus with wait := w }
    | .error (.exc _ _ _ _) => st.withFocus (st.alarmSeen p).dropAlarm

end Sys2Proof.Machine
end

