-- ==== Sys2Proof/Machine/Finish.lean ====
section
/-! DEFINITION. What the steps of the machine share: suspicion scores (R405), the energy account (R408), freeing a
firing's messages (R169, R170, R173), the end of a firing (R80, R122, R232, R402), and watch-group updates (R72 to R74). -/

namespace Sys2Proof.Machine

/-! ### Scores (R405) -/

/-- R405: a unit's score: a ring word under entry 255 of context 0's law table. -/
def State.scoreOf (s : State) (u : UnitKind) (n : Nat) : RingWord :=
  match s.scores.find? fun x => decide (x.1 = u) && decide (x.2.1 = n) with
  | some x => x.2.2
  | none => { law := 255 }

/-- R405: replaces a score: its ring word in M changes as an Apply step. -/
def State.setScore (s : State) (u : UnitKind) (n : Nat) (x : RingWord) : State :=
  (s.putScore u n x).applyBytes (scoreKey u n) x.bytes

/-- R405: entry 255 of context 0's law table. -/
def State.scoreLaw (s : State) : Law := Law.ofBytes (leBytes 32 s.law255)

/-- R244, R405: the clock of an access of the hardware to a score: the time base, or a step clock of context 0. -/
def State.scoreClock (s : State) (x : RingWord) : Clock :=
  let e := s.scoreLaw
  clockOf (if e.clk = 0 then BitVec.ofNat 64 s.ticks else (s.ctxOf 0).stepOf e.clk) e.shift x.t

/-- R405: what an operation of the hardware on a score gives. -/
def State.scoreOp (s : State) (op : RingOp) (x : RingWord) : RingResult := ringAccess op x s.scoreLaw (s.scoreClock x)

/-- R254, R405: a score takes the word that an operation holds; an alarm that it arms names the score by its place in M and is
released before the next turn (log entry 107). -/
def State.holdScore (s : State) (u : UnitKind) (n : Nat) (x : RingWord) (r : RingResult) : State :=
  let s1 := s.setScore u n r.word
  if r.alarm = 0 then s1
  else { s1 with scoreAlarms := s1.scoreAlarms ++ [alarmFor (scoreKey u n) 0 0 0 0 0 s.scoreLaw (s.scoreClock x) r] }

/-- R405: adds to a unit's score as an RW.ADD at the score's home; a score that reaches TH from below sends a threshold
record. -/
def State.suspect (s : State) (u : UnitKind) (n : Nat) (inc : Lane) : State :=
  let x := s.scoreOf u n
  let r := s.scoreOp (.add (inc.setWidth 64)) x
  let s1 := s.holdScore u n x r
  if (exact32 r.a).cmp (exact32 s.scoreLaw.th) = .lt ∧ (exact32 r.word.a).cmp (exact32 s.scoreLaw.th) ≠ .lt then
    { s1 with thresholds := s1.thresholds ++ [(u, n)] }.report
      { kind := 3, sev := 0, ctx := 0, lcore := 0, unit := unitCode u, num := n, payload := [] }
  else s1

/-- R405: a checksum mismatch. -/
def incFour : Lane := 0x40800000#32
/-- R405: an attributed digest mismatch. -/
def incEight : Lane := 0x41000000#32
/-- R405: a dual mismatch. -/
def incSixteen : Lane := 0x41800000#32

/-! ### Hops (R408) -/

/-- R341, R342: the hops of a message by dimension order. -/
def hops (p0 q0 : Nat) : Nat :=
  let p := meshAt p0
  let q := meshAt q0
  (p % 32 - q % 32) + (q % 32 - p % 32) + (p / 32 - q / 32) + (q / 32 - p / 32)

/-! ### Freeing messages (R169, R170, R173) -/

/-- R169: passes every freed slot at the head. -/
def passFreed (depth : Nat) : Nat → List QSlot → Nat × List QSlot
  | head, [] => (head, [])
  | head, x :: l => if x.st = .freed then passFreed depth (if head + 1 = depth then 0 else head + 1) l else (head, x :: l)

/-- R169: marks a reserved message's slot free; the FIFO passes what is free at its head. A message of a FIFO that has
moved (R228) is no longer in the entry's ring. -/
def TTEntry.freeRef (e : TTEntry) (m : MsgRef) : TTEntry :=
  if e.gen ≠ m.gen then e
  else
    let p := if e.head ≤ m.idx then m.idx - e.head else m.idx + e.fdepth - e.head
    let q := match e.q[p]? with
      | some x => setAt e.q p { x with st := .freed }
      | none => e.q
    let r := passFreed e.fdepth e.head q
    { e with head := r.1, q := r.2 }

/-- R170: frees the messages of a firing in the FIFOs of a logical core. -/
def LCore.freeRefs (l : LCore) (ms : List MsgRef) : LCore :=
  ms.foldl (fun l m => l.setTt m.ch ((l.ttOf m.ch).freeRef m)) l

/-- R173: the gang record of a gang member's firing. -/
def State.gangOf (s : State) (x : Firing) : Gang :=
  match s.gangs.find? fun g => decide (g.ctx = x.ctx) && decide (g.lc = x.msgHome) && decide (g.ch = x.ch)
      && decide (g.seq = x.seq) with
  | some g => g
  | none => { ctx := x.ctx, lc := x.msgHome, ch := x.ch, seq := x.seq, prim := x.prim, join := x.join }

/-- Whether two gang records are of one firing. -/
def Gang.same (g h : Gang) : Bool :=
  decide (g.ctx = h.ctx) && decide (g.lc = h.lc) && decide (g.ch = h.ch) && decide (g.seq = h.seq)

/-- R170, R173: frees a firing's reserved messages; those of a gang firing when its eight members have ended. -/
def State.freeMessages (s : State) (x : Firing) : State :=
  if x.isGang then
    let g := s.gangOf x
    let g1 : Gang := { g with ended := addNew g.ended x.gang }
    if 8 ≤ g1.ended.length then
      { s.setLc x.ctx ((s.lcOf x.ctx x.msgHome).freeRefs (x.prim ++ x.join)) with
        gangs := s.gangs.filter fun h => !(g.same h) }
    else { s with gangs := upsert g.same g1 s.gangs }
  else s.setLc x.ctx ((s.lcOf x.ctx x.lc).freeRefs (x.prim ++ x.join))

/-! ### The end of a firing -/

/-- R402: the context digest takes the digest of a firing that ends. -/
def State.foldDigest (s : State) (x : Firing) : State :=
  let c := s.ctxOf x.ctx
  s.setCtx { c with digest := c.digest + mix64 (mix64 x.fid ^^^ x.digest) }

/-- R326: a verdict on its way to the router of a stage firing's set. -/
def verdictMsg (x : Firing) (t : Nat × Nat × Nat × Nat) (pass err : Bool) (mask : Word) (bytes : List Byte) (cycles : Nat) :
    Msg :=
  { deviceMsg x.ctx (8 * t.1) 0 bytes (.core x.ctx x.lc) (.hsVerdict t.1 t.2.1 t.2.2.2 t.2.2.1 pass err mask cycles) with
    src := x.lc, fid := x.fid, fts := x.fts, fch := x.ch }

/-- R80, R122, R232, R326, R402: a firing ends: its digest is folded, its messages are freed, and a stage firing without a
verdict sends an error verdict. A shadow's copy has no effect of its own (R202). -/
def State.endFiring (s : State) (x : Firing) : State :=
  if x.copy ≠ 0 then s
  else
    let s1 := (s.foldDigest x).freeMessages x
    match x.stage with
    | some t => if x.verdict then s1 else s1.post (verdictMsg x t false true 0 [] 0)
    | none => s1

/-! ### Watch groups (R72 to R74) -/

/-- R73: replaces a record of a watch table; none is the package table. -/
def Ctx.setWatch (c : Ctx) (table : Option Nat) (wg : Nat) (r : WatchRec) : Ctx :=
  { c with watch := upsert (fun x => decide (x.1 = table) && decide (x.2.1 = wg)) (table, wg, r) c.watch }

/-- R74: sets flags of a record; a flag that was clear takes its first setter. -/
def WatchRec.orFlags (r : WatchRec) (bits : Nat) (fid ts : Word) : WatchRec :=
  let new := (List.range 6).filter fun f => bits.testBit f && !r.flags.testBit f
  { r with flags := r.flags ||| (bits % 64), setters := r.setters ++ new.map fun f => (f, fid, ts) }

/-- R72: adds to SATCNT, which holds at 2^32 - 1. -/
def WatchRec.addSat (r : WatchRec) (n : Nat) : WatchRec := { r with sat := min (r.sat + n) (2 ^ 32 - 1) }

/-- R126: what WG.CLR does to a record. -/
def WatchRec.clear (r : WatchRec) (mask : Word) : WatchRec :=
  let fl := bitsOf mask 5 0
  { flags := r.flags &&& (63 - fl), sat := if mask.getLsbD 6 then 0 else r.sat
    nantrap := if mask.getLsbD 17 then mask.getLsbD 16 else r.nantrap
    setters := r.setters.filter fun t => !fl.testBit t.1 }

/-- R74, R127: one flag of a merge: the first setter of the smaller (SETTS, SETFID). -/
def mergeSetter (a b : Word × Word) : Word × Word :=
  if a.2.toNat < b.2.toNat ∨ (a.2 = b.2 ∧ a.1.toNat < b.1.toNat) then a else b

/-- R127: merges a cluster's record into the package's. -/
def WatchRec.merge (pkg cl : WatchRec) : WatchRec :=
  let setter (r : WatchRec) (f : Nat) : Word × Word := ((r.setters.find? fun t => t.1 = f).map fun t => t.2).getD (0, 0)
  let fl := (List.range 6).filter fun f => pkg.flags.testBit f || cl.flags.testBit f
  let pick (f : Nat) : Word × Word :=
    if !cl.flags.testBit f then setter pkg f
    else if !pkg.flags.testBit f then setter cl f
    else mergeSetter (setter cl f) (setter pkg f)
  { pkg with flags := pkg.flags ||| cl.flags, sat := min (pkg.sat + cl.sat) (2 ^ 32 - 1)
             setters := fl.map fun f => (f, pick f) }

/-- R72, R74: flags and saturations of an event of a context on a cluster's table. -/
def State.watchEvent (s : State) (ctx cluster wg : Nat) (bits sat : Nat) (fid : Word) : State :=
  let c := s.ctxOf ctx
  if bits = 0 ∧ sat = 0 then s
  else s.setCtx (c.setWatch (some cluster) wg (((c.watchOf (some cluster) wg).orFlags bits fid s.timeBase).addSat sat))

/-- R164, R298: adds events to a tile's counts, which hold at their maxima. -/
def Tile.addEvents (t : Tile) (sat nan : Nat) : Tile :=
  { t with sat := min (t.sat + sat) (2 ^ 32 - 1), nan := min (t.nan + nan) (2 ^ 16 - 1) }

/-- R164: the events of a chunk's window accesses count in every defined tile that holds the code byte. -/
def LCore.windowEvents (l : LCore) (ev : List (Nat × Nat × Nat)) : LCore :=
  { l with tiles := l.tiles.map fun p =>
    (p.1, ev.foldl (fun t e =>
      if t.size ≠ 0 ∧ t.base * 128 ≤ e.1 ∧ e.1 < (t.base + t.size) * 128 then t.addEvents e.2.1 e.2.2 else t) p.2) }

end Sys2Proof.Machine
end

