-- ==== Sys2Proof/Machine/Jobs.lean ====
section
/-! DEFINITION. Released engine commands (R187 to R191, R289 to R300, R307 to R309): where an element lies, what it
reads, hardware messages (R225), barrier arrivals (R195, R269), and Post completion. -/

namespace Sys2Proof.Machine

/-! ### Jobs in the state -/

/-- The job of a number. -/
def State.jobOf (s : State) (uid : Nat) : Option Job := s.jobs.find? fun j => j.uid = uid

/-- Replaces a job. -/
def State.setJob (s : State) (j : Job) : State := { s with jobs := upsert (fun x => x.uid = j.uid) j s.jobs }

/-- R285: a word of the bank copy. -/
def Job.eg (j : Job) (n : Nat) : Word := j.bank.getD n 0
/-- R286: M. -/
def Job.m (j : Job) : Nat := bitsOf (j.eg 1) 7 0
/-- R286: N. -/
def Job.n (j : Job) : Nat := bitsOf (j.eg 1) 15 8
/-- R286: K. -/
def Job.k (j : Job) : Nat := bitsOf (j.eg 1) 24 16
/-- R286: the accumulator tile: 8 names the tile at the issuing core's cluster position. -/
def Job.atile (j : Job) : Nat := if bitsOf (j.eg 6) 3 0 = 8 then clusterPos j.pcore else bitsOf (j.eg 6) 3 0
/-- The cluster of a job's engine. -/
def Job.cluster (j : Job) : Nat := clusterIdOf j.pcore
/-- R176: the record of an object as copied at issue. -/
def Job.objRec (j : Job) (i : Nat) : Nat := lookupD j.recs i 0
/-- R177: the format of a code; FMTk as committed at the release. -/
def Job.fmtOf (j : Job) (c : Nat) : Fmt := fmtOfCode (fun k => lookupD j.fmts k 0) c
/-- R305: a field of a copy request's block. -/
def Job.bits (j : Job) (w hi lo : Nat) : Nat := blockBits j.block w hi lo
/-- R305: E0. -/
def Job.e0 (j : Job) : Nat := j.bits 6 31 0
/-- R305: E1. -/
def Job.e1 (j : Job) : Nat := j.bits 6 63 32
/-- R285, R305: the acquire scope, none where the command has no ACQ. -/
def Job.acquire (j : Job) : Option Nat :=
  match j.engine with
  | .matrix => if (j.eg 13).getLsbD 0 then some (bitsOf (j.eg 13) 3 1) else none
  | .copy => if j.bits 0 6 6 = 1 then some (j.bits 0 9 7) else none
/-- R285, R305: the release scope, none where the command has no REL. -/
def Job.release (j : Job) : Option Nat :=
  match j.engine with
  | .matrix => if (j.eg 13).getLsbD 4 then some (bitsOf (j.eg 13) 7 5) else none
  | .copy => if j.bits 0 10 10 = 1 then some (j.bits 0 13 11) else none
/-- R287, R305: the barrier to arrive on at completion. -/
def Job.arriveOn (j : Job) : Option Nat :=
  match j.engine with
  | .matrix => if j.word.getLsbD 15 then some (bitsOf j.word 14 8) else none
  | .copy => if j.bits 0 21 21 = 1 then some (j.bits 0 20 14) else none
/-- R419: whether a copy names an object of another package. -/
def Job.remote (j : Job) : Bool :=
  decide (j.engine = .copy) && (decide (j.op = 0) || decide (j.op = 4)) && decide (j.bits 7 7 6 ≠ 0)
    && decide (j.bits 7 5 0 ≠ Config.ownPackage.val)

/-- R419: whether a copy names an object of its own package by RSRC or RDST: like one of another package, its record is read
at the take. -/
def Job.selfNamed (j : Job) : Bool :=
  decide (j.engine = .copy) && (decide (j.op = 0) || decide (j.op = 4)) && decide (j.bits 7 7 6 ≠ 0)
    && decide (j.bits 7 5 0 = Config.ownPackage.val)

/-! ### Elements (R177, R290, R307) -/

/-- Where an element lies: bytes at an address or at a key of a tile, with the nibble of a 4-bit code; or outside the
bounds. -/
inductive Elem where
  | va (a : Word) (hi : Bool)
  | key (k : Nat) (hi : Bool)
  | outside
  deriving DecidableEq, Repr

/-- R177: an element of an object. -/
def objElem (r : Nat) (width i0 i1 : Nat) : Elem :=
  if objDim r 0 ≤ i0 ∨ objDim r 1 ≤ i1 ∨ objDim r 2 = 0 ∨ objDim r 3 = 0 then .outside
  else
    let row : Int := (objBase r : Int) + (i1 : Int) * objStr r 1
    if width = 4 then .va (BitVec.ofInt 64 (row + ((i0 / 2 : Nat) : Int))) (decide (i0 % 2 = 1))
    else .va (BitVec.ofInt 64 (row + (i0 : Int) * objStr r 0)) false

/-- R177: the address of the scale byte of an element; none where the object has no scales or a wide format. Every format of at
most 8 bits is a narrow one, INT8 and UINT8 among them (DEDUCED, log entry 104). -/
def objScaleAt (r : Nat) (width i0 i1 : Nat) : Option Word :=
  if objScale r = 0 ∨ 8 < width then none
  else some (BitVec.ofNat 64 (objScale r + (i0 >>> 5) + (objDim r 0 + 31) / 32 * i1))

/-- R290, R307: an element of a row of a tile, at a byte offset of the tile. -/
def tileElem (ctx lc : Nat) (t : Tile) (width off i : Nat) : Elem :=
  let b := off + i * width / 8
  if t.size * 128 < b + (width + 7) / 8 then .outside
  else .key (scratchKey ctx lc (t.base * 128 + b)) (decide (width = 4) && decide (i % 2 = 1))

/-- R290: the row pitch of a matrix tile. -/
def matrixPitch (width : Nat) : Nat := 128 * width / 8

/-- An operand of an element step: where the code lies, its format, and the address of its scale byte. -/
structure Operand where
  loc : Elem
  fmt : Fmt
  scale : Option Word
  deriving DecidableEq, Repr

/-- R290: an A or B element: EG n names the source, EG (n + 1) its origins. -/
def State.matrixOperand (s : State) (j : Job) (n code row k : Nat) : Operand :=
  let F := j.fmtOf code
  let w := j.eg n
  let o := j.eg (n + 1)
  if w.getLsbD 0 then
    let r := j.objRec (bitsOf w 31 16)
    let i0 := bitsOf o 31 0 + k
    let i1 := bitsOf o 63 32 + row
    { loc := objElem r F.width i0 i1, fmt := F, scale := objScaleAt r F.width i0 i1 }
  else
    let t := (s.lcOf j.ctx j.lc).tileOf (bitsOf w 6 1)
    { loc := tileElem j.ctx j.lc t F.width (row * matrixPitch F.width) k, fmt := F, scale := none }

/-- R290: a bias element. -/
def Job.biasOperand (j : Job) (n : Nat) : Operand :=
  let r := j.objRec (bitsOf (j.eg 8) 31 16)
  let F := j.fmtOf (objFmt r)
  let i0 := bitsOf (j.eg 8) 63 32 + n
  { loc := objElem r F.width i0 0, fmt := F, scale := objScaleAt r F.width i0 0 }

/-- R290, R299: an element of a drain's target. -/
def State.drainTarget (s : State) (j : Job) (m n : Nat) : Operand :=
  let F := j.fmtOf (bitsOf (j.eg 7) 39 35)
  let w := j.eg 10
  if w.getLsbD 0 then
    let r := j.objRec (bitsOf w 47 32)
    { loc := objElem r F.width (bitsOf (j.eg 11) 31 0 + n) (bitsOf (j.eg 11) 63 32 + m), fmt := F, scale := none }
  else
    let lc := bitsOf w 19 8
    let t := (s.lcOf j.ctx lc).tileOf (bitsOf w 6 1)
    { loc := tileElem j.ctx lc t F.width (m * matrixPitch F.width) n, fmt := F, scale := none }

/-- R419: whether an end of a copy is an object of another package: bit 6 of AUX for the source, 7 for the destination. -/
def Job.remoteEnd (j : Job) (b : Nat) : Bool := j.remote && decide (j.bits 7 b b = 1)

/-- R419: the index under which a command keeps the record of an object of another package. -/
def farIndex (i : Nat) : Nat := 2 ^ 16 + i

/-- R176, R419: the record of the object at an end of a copy: word w of its block names it, bit b of AUX says that it is
another package's. -/
def Job.endRec (j : Job) (w b : Nat) : Nat :=
  j.objRec (if j.remoteEnd b then farIndex (j.bits w 15 0) else j.bits w 15 0)

/-- R307: the format of the source of a copy request. -/
def Job.srcFmt (j : Job) : Fmt :=
  if j.bits 0 4 4 = 0 then j.fmtOf (objFmt (j.endRec 2 6))
  else if j.op = 4 then fp32
  else if j.bits 0 5 5 = 0 then j.fmtOf (objFmt (j.endRec 4 7)) else uint8

/-- R307: the format of the destination; for a FILL of a tile with SK = 0 it is that of the object that the source fields name,
though nothing of it is read (DEDUCED, log entry 105). -/
def Job.dstFmt (j : Job) : Fmt :=
  if j.op = 4 then j.fmtOf (j.bits 0 26 22)
  else if j.bits 0 5 5 = 0 then j.fmtOf (objFmt (j.endRec 4 7))
  else if j.bits 0 4 4 = 0 then j.fmtOf (objFmt (j.endRec 2 6)) else uint8

/-- R307: an element of an endpoint: w is the word that names it, w + 1 its origins. A row index below zero lies outside
(log entry 33). The scale of an element takes part in CONVERT alone. -/
def State.copyOperand (s : State) (j : Job) (tile : Bool) (w : Nat) (F : Fmt) (i0 : Nat) (i1 : Int) : Operand :=
  if tile then
    let lc := j.bits w 11 0
    let t := (s.lcOf j.ctx lc).tileOf (j.bits w 17 12)
    let off : Int := (j.bits (w + 1) 31 0 : Int) + i1 * ((((j.e0 * F.width + 1023) / 1024) * 128 : Nat) : Int)
    { loc := if off < 0 then .outside else tileElem j.ctx lc t F.width off.toNat i0, fmt := F, scale := none }
  else
    let r := j.endRec w (if w = 2 then 6 else 7)
    let o0 := j.bits (w + 1) 31 0 + i0
    let o1 : Int := (j.bits (w + 1) 63 32 : Int) + i1
    if o1 < 0 then { loc := .outside, fmt := F, scale := none }
    else { loc := objElem r F.width o0 o1.toNat, fmt := F, scale := if j.op = 4 then objScaleAt r F.width o0 o1.toNat else none }

/-- R307: element e1 of the index object. -/
def Job.indexOperand (j : Job) (e1 : Nat) : Operand :=
  { loc := objElem (j.objRec (j.bits 7 15 0)) 32 (j.bits 7 63 32 + e1) 0, fmt := int32, scale := none }

/-! ### Translation and bytes of an engine (R188, R203, R280) -/

/-- Where a byte of an engine access goes. -/
inductive EngLoc where
  | key (k : Nat) (attr : Attr)
  | host (off : Nat)
  | live (off : Nat)
  | miss (va : Word)
  | bad
  deriving DecidableEq, Repr

/-- R273, R289: the place of a byte of an engine access to device memory under a translation; a page without the needed right
is bad. -/
def State.devicePlace (s : State) (j : Job) (a : Word) (write : Bool) (e : TlbEntry) : EngLoc :=
  let c := s.ctxOf j.ctx
  if write then (if e.w && !e.ro && !c.inTables a then .key (s.home (e.pa a)) (s.attrOf e a) else .bad)
  else if !e.r then .bad
  else if c.inTables a = true ∧ c.objbase.toNat + 0x400000 ≤ a.toNat then .live (a.toNat - c.objbase.toNat - 0x400000)
  else .key (s.home (e.pa a)) (s.attrOf e a)

/-- R273, R289: the place of a byte of an engine access; a page or region without the needed right is bad. -/
def State.engineLoc (s : State) (j : Job) (a : Word) (write : Bool) : EngLoc :=
  let c := s.ctxOf j.ctx
  match regionOf a with
  | .device =>
    (match tlbFind (s.clusterOf j.cluster).tlb j.ctx a with
      | none => .miss a
      | some e => s.devicePlace j a write e)
  | .host off => .host off
  | .remote n off => if n < 4096 ∧ (c.lcOf n).valid = true ∧ off < (c.lcOf n).lsz then .key (scratchKey j.ctx n off) {} else .bad
  | .own w off => if w = 0 ∧ off < (c.lcOf j.lc).lsz then .key (scratchKey j.ctx j.lc off) {} else .bad
  | .nowhere => .bad

/-- R188: a byte of M as it stood n log entries ago. -/
def byteBack (log : List LogEntry) (k : Nat) : Nat → Byte → Byte
  | 0, b => b
  | n + 1, b =>
    match log with
    | [] => b
    | e :: t => byteBack t k n (match e.old.find? fun c => c.1 = k with
      | some c => c.2
      | none => b)

/-- R188, R190: how many log entries back a command may see a byte: as far as its release, but not past a write of its
acquire set to the byte. -/
def State.viewOf (s : State) (j : Job) (k : Nat) : Nat := s.log.length - max j.rel (lookupD j.seen k 0)

/-- R188: a byte as a read element step may return it: the newest pending write of the engine's own cluster where it is
later than every commit and apply, else M as it stood back log entries ago, within the command's view. A byte that the
command itself has written returns its own value, or with back > 0 the old one: what it returns, back - 1 entries ago, without
the command's own writes. -/
def State.engineByte (s : State) (j : Job) (k back : Nat) : Byte :=
  let newest (l : List Pend) : Option Pend :=
    l.find? fun p => decide (p.cluster = j.cluster) && decide (p.key = k) && decide (lastWritePos s.log k ≤ p.pos)
  let old (n : Nat) : Byte := byteBack s.log k (min n (s.viewOf j k)) (cellRead s.mem k)
  match newest s.pend with
  | none => old back
  | some p =>
    if p.job ≠ j.uid ∨ back = 0 then p.val
    else ((newest (s.pend.filter fun q => decide (q.job ≠ j.uid))).map fun q => q.val).getD (old (back - 1))

/-- The address of a byte of an engine access that the cluster TLB does not translate. -/
def EngLoc.missed : EngLoc → Option Word
  | .miss va => some va
  | _ => none

/-- A byte of M that an engine access reaches. -/
def EngLoc.cell : EngLoc → Option (Nat × Attr)
  | .key k a => some (k, a)
  | _ => none

/-- A byte of host memory that an engine access reaches. -/
def EngLoc.hostOff : EngLoc → Option Nat
  | .host off => some off
  | _ => none

/-- What reading bytes gives. -/
inductive EngRead where
  | bytes (l : List Byte)
  | miss (va : Word)
  | err (n : Nat)
  deriving DecidableEq, Repr

/-- R188, R289, R384: reads one byte. -/
def State.engineRead1 (s : State) (j : Job) (back : Nat) (x : EngLoc) : EngRead :=
  match x with
  | .key k _ => if inPoison s.poison k || frameAbsent k then .err 7 else .bytes [s.engineByte j k back]
  | .host off => .bytes (cellReadList s.host (j.ctx * 2 ^ 55 + off) 1)
  | .live off => .bytes ((s.ctxOf j.ctx).mirrorBytes off 1)
  | .miss va => .miss va
  | .bad => .err 8

/-- R188: reads bytes in order, each at a log position of its own; the first that fails decides. -/
def State.engineReadAll (s : State) (j : Job) (backs : List Nat) : List EngLoc → EngRead
  | [] => .bytes []
  | x :: l =>
    match s.engineRead1 j (backs.headD 0) x with
    | .bytes b =>
      (match s.engineReadAll j backs.tail l with
        | .bytes t => .bytes (b ++ t)
        | r => r)
    | r => r

/-- How many bytes hold a code of a width. -/
def codeBytes (width : Nat) : Nat := (width + 7) / 8

/-- The bytes of an element. -/
def State.elemLocs (s : State) (j : Job) (e : Elem) (n : Nat) (write : Bool) : List EngLoc :=
  match e with
  | .va a _ => (List.range n).map fun i => s.engineLoc j (a + BitVec.ofNat 64 i) write
  | .key k _ => (List.range n).map fun i => .key (k + i) {}
  | .outside => []

/-- Whether an element is the high nibble of its byte. -/
def Elem.hi : Elem → Bool
  | .va _ h => h
  | .key _ h => h
  | .outside => false

/-- R177: where the code and the scale byte of an operand are read. -/
def State.operandLocs (s : State) (j : Job) (o : Operand) : List EngLoc :=
  s.elemLocs j o.loc (codeBytes o.fmt.width) false ++ (match o.scale with
    | none => []
    | some a => [s.engineLoc j a false])

/-- R177, R290: reads an operand: its code and scale byte (127 where there is no scale). -/
def State.readOperand (s : State) (j : Job) (backs : List Nat) (o : Operand) : EngRead :=
  match s.engineReadAll j backs (s.operandLocs j o) with
  | .bytes l => .bytes (if o.scale.isNone then l ++ [127#8] else l)
  | r => r

/-- R371, R379, R408: fills what the LLC lacks of the bytes that an element step reads. -/
def State.fillLocs (s : State) (j : Job) (l : List EngLoc) : State :=
  (l.foldl (fun s x => match x with
    | .key k a => s.fillMissing (fun _ => a) [k]
    | _ => s) s).chargeBursts s j.ctx j.cluster

/-- R91: the code of an element from its bytes. -/
def codeFrom (F : Fmt) (e : Elem) (l : List Byte) : Nat :=
  let n := leNat (l.take (codeBytes F.width))
  if F.width = 4 then (if e.hi then n / 16 else n % 16) else n

/-- R177: the exact value of a code under a scale byte. -/
def scaledCode (F : Fmt) (code sc : Nat) : XR := (decodeFmt F code).scaled (e8m0 sc)

/-! ### What a job reads (R188, R290, R297, R307) -/

/-- R291: the MX.LS whose weight set an MX.STR streams against. -/
def State.lsOf (s : State) (j : Job) : Option Job := j.plane.bind s.jobOf

/-- R307: an index that a read of the INT32 index object gave. -/
def Job.indexAt (j : Job) (e1 : Nat) : Option Int :=
  (j.buf.find? fun b => b.1 = j.e0 * j.e1 + e1).map fun b => (BitVec.ofNat 32 b.2.1).toInt

/-- R291, R293: the operand of an element that MX.STR reads: A's (m, k) as m × K + k, then on a reload B's (n, k). -/
def State.strRead (s : State) (j : Job) (i : Nat) : Option Operand :=
  match s.lsOf j with
  | none => none
  | some l =>
    let na := j.m * l.k
    if i < na then some (s.matrixOperand j 2 (bitsOf (j.eg 0) 4 0) (i / l.k) (i % l.k))
    else if j.reload = true ∧ i < na + l.n * l.k then
      some (s.matrixOperand l 4 (bitsOf (l.eg 0) 9 5) ((i - na) / l.k) ((i - na) % l.k))
    else none

/-- R307: the operand of an element that a copy reads: (e0, e1) as e1 × E0 + e0, then the index elements. -/
def State.copyRead (s : State) (j : Job) (i : Nat) : Option Operand :=
  let n := j.e0 * j.e1
  let tile := decide (j.bits 0 4 4 = 1)
  if i < n then
    let e0 := i % j.e0
    let e1 := i / j.e0
    match j.op with
    | 0 | 2 | 4 => some (s.copyOperand j tile 2 j.srcFmt e0 e1)
    | 1 => (j.indexAt e1).map fun r => s.copyOperand j tile 2 j.srcFmt e0 r
    | _ => none
  else if (j.op = 1 ∨ j.op = 2) ∧ i < n + j.e1 then some (j.indexOperand (i - n))
  else none

/-- The operand of a numbered element that a job reads; none where it reads no such element, or not yet. -/
def State.readsOf (s : State) (j : Job) (i : Nat) : Option Operand :=
  match j.engine with
  | .copy => s.copyRead j i
  | .matrix =>
    match j.op with
    | 2 => if i < j.n * j.k then some (s.matrixOperand j 4 (bitsOf (j.eg 0) 9 5) (i / j.k) (i % j.k)) else none
    | 3 => s.strRead j i
    | 4 => if (j.eg 8).getLsbD 0 = true ∧ i < j.n then some (j.biasOperand i) else none
    | _ => none

/-- How many elements a job reads. -/
def State.readCount (s : State) (j : Job) : Nat :=
  match j.engine with
  | .copy =>
    (match j.op with
      | 0 | 4 => j.e0 * j.e1
      | 1 | 2 => j.e0 * j.e1 + j.e1
      | _ => 0)
  | .matrix =>
    match j.op with
    | 2 => j.n * j.k
    | 3 => (match s.lsOf j with
      | none => 0
      | some l => j.m * l.k + (if j.reload then l.n * l.k else 0))
    | 4 => if (j.eg 8).getLsbD 0 then j.n else 0
    | _ => 0

/-- R307: whether the destination of a CONVERT is quantised in blocks, its scale bytes written. -/
def Job.quantises (j : Job) : Bool :=
  decide (j.engine = .copy) && decide (j.op = 4) && decide (j.bits 0 5 5 = 0) && decide (j.dstFmt.width ≤ 8)
    && decide (objScale (j.endRec 4 7) ≠ 0)

/-- R307: the blocks of a row. -/
def Job.rowBlocks (j : Job) : Nat := (j.e0 + 31) / 32

/-- How many elements a job performs; the scale bytes of a quantising CONVERT come after the elements. -/
def Job.writeCount (j : Job) : Nat :=
  match j.engine with
  | .copy =>
    (match j.op with
      | 6 => 0
      | _ => j.e0 * j.e1 + (if j.quantises then j.rowBlocks * j.e1 else 0))
  | .matrix => if j.op = 4 then j.m * j.n else 0

/-- R188: a read element as kept: code and scale byte; none where it has not been read. -/
def Job.got (j : Job) (i : Nat) : Option (Nat × Nat) := (j.buf.find? fun b => b.1 = i).map fun b => b.2

/-! ### What a job writes (R297, R307) -/

/-- What an element step writes: the target, its code, whether it saturated and whether it made a NaN event. -/
structure Write where
  dst : Operand
  code : Nat
  sat : Bool := false
  nan : Bool := false
  deriving DecidableEq, Repr

/-- R94, R297, R307: the draw of an engine rounding: c = 2^32 + e. -/
def Job.drawOf (j : Job) (i : Nat) : Nat := srDraw j.fid (BitVec.ofNat 64 (2 ^ 32 + j.draw)) (BitVec.ofNat 64 i)

/-- R297: RELU. -/
def reluX (y : XR) : XR := if y.isNan then .nan else if y.cmp (.zero false) = .gt then y else .zero false

/-- R297: CLAMP. -/
def clampX (y lo hi : XR) : XR :=
  if y.isNan then .nan
  else
    let a := if y.cmp lo = .lt then lo else y
    if a.cmp hi = .gt then hi else a

/-- R297: GELU and SILU by the result's format: the FP32 procedure for a 32-bit format, the correctly rounded value for
BF16 and FP16, else the correctly rounded FP16 value. -/
def activate (fn : Fn) (F : Fmt) (y : XR) : XR :=
  let G := if F.width = 32 then fp32 else if F = bf16 then bf16 else fp16
  decodeFmt G (evalFn G fn y).val

/-- R297: the value of a drained element after scale, bias and activation. -/
def Job.epilogue (j : Job) (F : Fmt) (t bias : XR) : XR :=
  let y := exact32 (fmaX (exact32 (BitVec.ofNat 32 (bitsOf (j.eg 7) 31 0))) t bias).val
  match bitsOf (j.eg 7) 34 32 with
  | 0 => y
  | 1 => reluX y
  | 2 => activate .gelu F y
  | 3 => activate .silu F y
  | _ => clampX y (exact32 (BitVec.ofNat 32 (bitsOf (j.eg 9) 31 0))) (exact32 (BitVec.ofNat 32 (bitsOf (j.eg 9) 63 32)))

/-- R293, R300: an element of an accumulator tile. -/
def AccTile.get (t : AccTile) (m n : Nat) : Lane := lookupD t.vals (m * 128 + n) 0

/-- R264: an accumulator tile of a cluster. -/
def Cluster.accOf (c : Cluster) (t : Nat) : AccTile := lookupD c.acc t {}

/-- R297: what a drain writes for element m × N + n; none while its bias is unread. -/
def State.drainWrite (s : State) (j : Job) (i : Nat) : Option Write :=
  let m := i / j.n
  let n := i % j.n
  let o := s.drainTarget j m n
  let bias : Option XR := if (j.eg 8).getLsbD 0 then
      (j.got n).map fun c => scaledCode (j.biasOperand n).fmt c.1 c.2
    else some (.zero false)
  bias.map fun b =>
    let y := j.epilogue o.fmt (exact32 (((s.clusterOf j.cluster).accOf j.atile).get m n)) b
    let r := roundTo o.fmt (rmodeOf (bitsOf (j.eg 7) 42 40) j.frm) (j.drawOf i) y
    { dst := o, code := r.code, sat := r.sat, nan := r.nanEv }

/-- R97, R307: the scale byte of a block of a quantising CONVERT from its elements. -/
def Job.scaleOfBlock (j : Job) (b e1 : Nat) : Option Nat :=
  let l := (List.range (min 32 (j.e0 - 32 * b))).map fun i => j.got (e1 * j.e0 + 32 * b + i)
  if l.all Option.isSome then
    let ex := (l.filterMap fun o => o.bind fun c => (scaledCode j.srcFmt c.1 c.2).expo)
    some (blockScale j.dstFmt (ex.foldl (fun a e => some (match a with
      | none => e
      | some x => max x e)) none))
  else none

/-- R307: the destination operand of an element of a copy; SCATTER takes its row from the index. -/
def State.copyTarget (s : State) (j : Job) (e0 e1 : Nat) : Option Operand :=
  let tile := decide (j.bits 0 5 5 = 1)
  if j.op = 2 then (j.indexAt e1).map fun r => s.copyOperand j tile 4 j.dstFmt e0 r
  else some (s.copyOperand j tile 4 j.dstFmt e0 e1)

/-- R307: what a copy writes for its element i; none while it waits for a read. -/
def State.copyWrite (s : State) (j : Job) (i : Nat) : Option Write :=
  let e0 := i % j.e0
  let e1 := i / j.e0
  match j.op, s.copyTarget j e0 e1 with
  | 3, some o => some { dst := o, code := j.bits 7 31 0 % 2 ^ o.fmt.width }
  | 4, some o =>
    (match j.got i, (if j.quantises then j.scaleOfBlock (e0 / 32) e1 else some 127) with
      | some c, some sc =>
        let x := scaledCode j.srcFmt c.1 c.2
        let r := roundTo o.fmt (rmodeOf (j.bits 0 29 27) j.frm) (j.drawOf i) (x.scale (127 - (sc : Int)))
        some { dst := o, code := r.code, sat := r.sat, nan := r.nanEv }
      | _, _ => none)
  | 5, _ => none
  | _, some o => (j.got i).map fun c => { dst := o, code := c.1 }
  | _, none => none

/-- R307: the write of a scale byte of a quantising CONVERT: nowhere for a block that starts outside the bounds. -/
def Job.scaleWrite (j : Job) (i : Nat) : Option Write :=
  let b := i % j.rowBlocks
  let e1 := i / j.rowBlocks
  let r := j.endRec 4 7
  (j.scaleOfBlock b e1).map fun sc =>
    let i0 := j.bits 5 31 0 + 32 * b
    let i1 := j.bits 5 63 32 + e1
    { dst := { loc := (match objElem r j.dstFmt.width i0 i1, objScaleAt r j.dstFmt.width i0 i1 with
                 | .va _ _, some a => .va a false
                 | _, _ => .outside)
               fmt := uint8, scale := none }
      code := sc }

/-- What a numbered element step of a job writes. -/
def State.writeOf (s : State) (j : Job) (i : Nat) : Option Write :=
  match j.engine with
  | .matrix => if j.op = 4 ∧ i < j.m * j.n then s.drainWrite j i else none
  | .copy =>
    if i < j.e0 * j.e1 then s.copyWrite j i
    else if j.quantises = true ∧ i < j.writeCount then j.scaleWrite (i - j.e0 * j.e1)
    else none

/-! ### Hardware messages, barriers, tiles -/

/-- R81: the unit on which a record about a message is raised at its delivery: the core that ran the firing it names, else the
router that refused it; one whose destination is not defined is refused at the router that the destination's remap entry last
named (DESIGN CHOICE, log entry 101). -/
def State.refuser (s : State) (m : Msg) : Nat × Nat :=
  if m.fid ≠ 0 then (0, m.ran) else (5, (s.lcOf m.ctx m.dst).pcore)

/-- R81: the unit that built a message without a firing: an engine, a hurdle router, else a router. -/
def State.builder (s : State) (m : Msg) : Nat × Nat :=
  if m.fid ≠ 0 then s.refuser m
  else match m.box with
    | .engine k .matrix => (2, clusterRouter k)
    | .engine k .copy => (3, clusterRouter k)
    | .hurdle k => (4, clusterRouter k)
    | _ => s.refuser m

/-- R179: a NACK record for a message refused at its delivery. -/
def State.nack (s : State) (m : Msg) (info1 : Nat) : State :=
  let u := s.refuser m
  s.sendNack m info1 u.1 u.2

/-- R225: a NACK record for a message discarded at its release: its destination is not defined. -/
def State.nackBuilt (s : State) (m : Msg) : State :=
  let u := s.builder m
  s.sendNack m 6 u.1 u.2

/-- R225: releases a hardware message: one whose destination the context does not define is discarded. -/
def State.postHw (s : State) (m : Msg) : State :=
  if (s.ctxOf m.ctx).defines m.dst then s.post m else s.nackBuilt m

/-- R417: a message to another package takes the next number for it. -/
def State.postFabric (s : State) (m : Msg) : State :=
  let n := lookupD s.fabNext m.pkg 0
  { s with fabOut := s.fabOut ++ [{ num := n, pkg := m.pkg, msg := m, sentAt := s.ticks }]
           fabNext := setKey s.fabNext m.pkg (n + 1) }

/-- R310: the message of a BAR.AF request at a Flip. -/
def flipMsg (ctx id : Nat) (phase : Bool) (r : Nat × Nat) : Msg :=
  deviceMsg ctx r.1 r.2 (leBytes 8 (id + (if phase then 128 else 0))) (.barrier ctx id) .device

/-- R421: the lowest-numbered package on which a context has logical cores. -/
def Ctx.lowPkg (c : Ctx) : Nat := c.pkgs.foldl min Config.ownPackage.val

/-- R421: whether a barrier is held in another package: barriers 64 to 71 are held in the lowest-numbered one. -/
def Ctx.farBarrier (c : Ctx) (id : Nat) : Bool :=
  decide (64 ≤ id) && decide (id < 72) && decide (c.lowPkg ≠ Config.ownPackage.val)

/-- R421: a message about a barrier to another package. -/
def barMsg (ctx id pkg : Nat) (kind : MsgKind) : Msg := { deviceMsg ctx 0 0 [] (.barrier ctx id) kind with pkg := pkg }

/-- R421: a fabric barrier's state goes to the other packages of its context. -/
def State.tellBarrier (s : State) (ctx id : Nat) : State :=
  if id < 64 then s
  else
    let b := (s.ctxOf ctx).barOf 0 id
    (s.ctxOf ctx).pkgs.foldl (fun s p =>
      s.postFabric (barMsg ctx id p (.farBar id b.part b.arr b.phase (lookupD b.counted p 0)))) s

/-- R195, R269, R421: an arrival on a barrier held here; the one that completes the phase flips the barrier and sends the
registered messages. -/
def State.arriveHere (s : State) (ctx owner id : Nat) (req : List (Nat × Nat)) (far : List (Nat × Nat × Nat)) : State :=
  let c := s.ctxOf ctx
  let b := c.barOf owner id
  if b.arr + 1 = b.part then
    let s1 := s.setCtx (c.setBar owner id { b with arr := 0, phase := !b.phase, reqs := [], farReqs := []
                                                   flips := b.flips + 1 })
    let s2 := (b.reqs ++ req).foldl (fun s r => s.postHw (flipMsg ctx id (!b.phase) r)) s1
    let s3 := (b.farReqs ++ far).foldl (fun s r => s.postFabric { flipMsg ctx id (!b.phase) r.2 with pkg := r.1 }) s2
    s3.tellBarrier ctx id
  else (s.setCtx (c.setBar owner id { b with arr := b.arr + 1, reqs := b.reqs ++ req, farReqs := b.farReqs ++ far })).tellBarrier
    ctx id

/-- R195, R269, R421: an arrival: on a barrier held in another package it travels there. -/
def State.arrive (s : State) (ctx owner id : Nat) (req : List (Nat × Nat)) : State :=
  let c := s.ctxOf ctx
  if c.farBarrier id then
    let b := c.barOf 0 id
    (s.setCtx (c.setBar 0 id { b with sent := b.sent + 1 })).postFabric (barMsg ctx id c.lowPkg (.farArrive id (b.sent + 1) req.head?))
  else s.arriveHere ctx owner id req []

/-- R310, R421: a BAR.CFG of a barrier held here. -/
def State.configBarrier (s : State) (ctx owner id n : Nat) : State :=
  let c := s.ctxOf ctx
  let b := c.barOf owner id
  (s.setCtx (c.setBar owner id { b with part := n, arr := 0, reqs := [], farReqs := [] })).tellBarrier ctx id

/-- R175: changes a tile entry, squashing the chunks that named the tile. -/
def State.changeTile (s : State) (ctx lc t : Nat) (g : Tile → Tile) : State :=
  let l := s.lcOf ctx lc
  let e := l.tileOf t
  if e.size = 0 then s
  else (s.setLc ctx (l.setTile t (g e))).touch [.tile ctx lc t] fun _ => true

/-- R175, R201: whether a tile entry that a step would change is in the read set of a chunk with exclusive commit: the step
waits. -/
def State.tilesHeld (s : State) (ctx : Nat) (l : List (Nat × Nat)) : Bool :=
  s.exclMeets none (l.map fun t => .tile ctx t.1 t.2)

/-- R175: an engine read of a tile ends: the last reader leaves it EMPTY, or READY with KEEP. -/
def Tile.readerDone (t : Tile) : Tile :=
  let n := t.readers - 1
  if n = 0 then { t.withState (if t.keep then 2 else 0) with readers := 0 } else { t with readers := n }

/-- R175: an engine read of a tile starts. -/
def Tile.readerStart (t : Tile) : Tile := { t.withState 3 with readers := t.readers + 1 }

/-- R175: the tiles that a command reads and the one it writes, by logical core and index. -/
def Job.tiles (j : Job) : List (Nat × Nat) × Option (Nat × Nat) :=
  match j.engine with
  | .matrix =>
    let src (n : Nat) : List (Nat × Nat) := if (j.eg n).getLsbD 0 then [] else [(j.lc, bitsOf (j.eg n) 6 1)]
    (match j.op with
      | 2 => (src 4, none)
      | 3 => (src 2, none)
      | 4 => ([], if (j.eg 10).getLsbD 0 then none else some (bitsOf (j.eg 10) 19 8, bitsOf (j.eg 10) 6 1))
      | _ => ([], none))
  | .copy =>
    (if cpReadsSrc j.op = true ∧ j.bits 0 4 4 = 1 then [(j.bits 2 11 0, j.bits 2 17 12)] else [],
      if j.op ≠ 6 ∧ j.bits 0 5 5 = 1 then some (j.bits 4 11 0, j.bits 4 17 12) else none)

/-- R175, R201: whether a step that changes the tiles of a command must wait. -/
def State.jobTilesHeld (s : State) (j : Job) : Bool := s.tilesHeld j.ctx (j.tiles.1 ++ j.tiles.2.toList)

/-! ### Post completion (R189) -/

/-- R289: the final state of a job. -/
def Job.finalState (j : Job) : Nat := if j.cancel then 6 else if j.err ≠ 0 ∧ j.err ≠ 5 then 5 else 4

/-- R308: BYTES. -/
def Job.byteCount (j : Job) : Nat :=
  if j.finalState = 4 then j.e0 * j.e1 * (if j.op = 5 then 128 else j.dstFmt.width) / 8
  else (j.done.filter fun i => i < j.e0 * j.e1).length * (if j.op = 5 then 128 else j.dstFmt.width) / 8

/-- R64, R299, R308: a message of an engine with the sender fields of the issuing logical core. -/
def Job.message (j : Job) (dst ch : Nat) (payload : List Byte) (kind : MsgKind) : Msg :=
  { deviceMsg j.ctx dst ch payload (.engine j.cluster j.engine) kind with
    src := j.lc, fid := j.fid, fts := j.fts, fch := j.fch, ran := j.ran }

/-- R299, R308: the completion message of a job, if any. -/
def Job.completion (j : Job) : Option Msg :=
  match j.engine with
  | .matrix =>
    let w := j.eg 12
    if j.op = 4 ∧ w.getLsbD 6 = true then
      some (j.message (if (j.eg 10).getLsbD 0 then bitsOf w 19 8 else bitsOf (j.eg 10) 19 8) (bitsOf w 5 0)
        (leBytes 8 (j.id + j.finalState * 2 ^ 16 + j.err * 2 ^ 24 + j.lc * 2 ^ 32)
          ++ leBytes 8 (min j.oor (2 ^ 32 - 1) + (min j.sat (2 ^ 32 - 1)) * 2 ^ 32)) .device)
    else none
  | .copy =>
    if j.word.getLsbD 16 then none
    else
      let dst := if j.bits 0 30 30 = 1 then j.bits 0 43 32 else j.lc
      some { j.message dst 63 (leBytes 8 (j.bits 1 55 0)
          ++ leBytes 8 (j.id + j.finalState * 2 ^ 16 + j.err * 2 ^ 24 + j.lc * 2 ^ 32)
          ++ leBytes 8 j.bytes ++ leBytes 8 (min j.oor (2 ^ 32 - 1) + (min j.sat (2 ^ 32 - 1)) * 2 ^ 32)) .copyDone with
        entry := BitVec.ofNat 64 (j.bits 1 55 0), tag := j.id }

/-- R419: the requests of a copy to another package are over with it. -/
def State.dropAsks (s : State) (uid : Nat) : State :=
  { s with fabOut := s.fabOut.filter fun x => match x.msg.kind with
    | .farRead u _ => decide (u ≠ uid)
    | _ => true }

/-- R189: the Post completion step of a job whose element steps are over: tile states, barrier arrival, saturations,
message. -/
def State.complete (s : State) (j0 : Job) : State :=
  let owner (id : Nat) : Nat := barOwner j0.lc id
  let unconfigured : Bool := match j0.arriveOn with
    | some id => decide (((s.ctxOf j0.ctx).barOf (owner id) id).part = 0)
    | none => false
  let j1 : Job := { j0 with err := if unconfigured = true ∧ j0.err = 0 then 5 else j0.err, bytes := if j0.engine = .copy ∧ j0.op ≠ 6 then j0.byteCount else j0.bytes }
  let j2 : Job := { j1 with st := j1.finalState }
  let s1 := (s.setJob j2).dropAsks j2.uid
  let taken := decide (j0.st ≠ 1)
  let s2 := if taken then j2.tiles.1.foldl (fun s t => s.changeTile j2.ctx t.1 t.2 Tile.readerDone) s1 else s1
  let s3 := match (if taken then j2.tiles.2 else none) with
    | some t => s2.changeTile j2.ctx t.1 t.2 fun e => e.withState 2
    | none => s2
  let s4 := s3.watchEvent j2.ctx j2.cluster j2.wg (if j2.sat ≠ 0 ∧ j2.op ≠ 5 ∧ j2.op ≠ 6 then 16 else 0)
    (if j2.op = 5 ∨ j2.op = 6 then 0 else j2.sat) j2.fid
  let s5 := match j2.arriveOn with
    | some id => if unconfigured then s4 else s4.arrive j2.ctx (owner id) id []
    | none => s4
  match j2.completion with
  | some m => s5.postHw m
  | none => s5

/-- R274, R303: cancels the mailbox request of a job. -/
def State.cancelJobBox (s : State) (j : Job) : State :=
  let c := s.clusterOf j.cluster
  let b := match j.engine with
    | .matrix => 32
    | .copy => 33
  if j.st = 3 then s.setCluster { c with boxes := c.boxes.filter fun x => x.1 ≠ b } else s

/-- R303: the rows of a drain that have begun. -/
def Job.begun (j : Job) (elem : Nat) : Bool := j.done.any fun i => decide (i / j.n = elem / j.n)

/-- R303: whether a cancelled drain has performed the rows that it began. -/
def Job.rowsWhole (j : Job) : Bool :=
  (List.range (j.m * j.n)).all fun i => !j.begun i || decide (i ∈ j.done)

/-- R303: MX.CAN at its commit. A running drain stops at the end of the rows that it has begun; a parked one stops as it
stands. -/
def State.cancelMatrix (s : State) (ctx lc id : Nat) : State :=
  match s.findJob .matrix ctx lc id with
  | none => s
  | some j =>
    if j.st = 1 then s.complete { j with cancel := true }
    else if (j.st = 2 ∨ j.st = 3) ∧ j.op = 4 then (s.cancelJobBox j).setJob { j with cancel := true, st := 2, halted := decide (j.st = 3) }
    else s

/-- R309: CP.CAN at its commit: every request of the logical core with the tag. -/
def State.cancelCopies (s : State) (ctx lc tag : Nat) : State :=
  (s.jobs.filter fun j => decide (j.engine = .copy) && decide (j.ctx = ctx) && decide (j.lc = lc) && decide (j.id = tag)
    && decide (j.st < 4)).foldl (fun s j =>
      if j.st = 1 then s.complete { j with cancel := true }
      else (s.cancelJobBox j).setJob { j with cancel := true, st := 2 }) s

end Sys2Proof.Machine
end

