-- ==== Sys2Proof/Machine/Router.lean ====
section
/-! DEFINITION. The hurdle router (R319 to R334): routing, dispatch, verdicts, exits, drops and heats, and what a refused
message means to a record. -/

namespace Sys2Proof.Machine

/-! ### Records -/

/-- R359, R398: whether a context's slots, engines and routers run. -/
def Ctx.runs (c : Ctx) : Bool := !c.halted && decide (c.state ≠ 2)

/-- R317: the header of a record, with a stage in STG. -/
def HRec.header (r : HRec) (stg : Nat) : Nat :=
  r.rid + (r.done % 256) * 2 ^ 32 + (r.set % 4) * 2 ^ 40 + (stg % 8) * 2 ^ 42 + (if r.drp then 2 ^ 45 else 0)
    + (if r.err then 2 ^ 46 else 0)

/-- R317: the image of a record. -/
def HRec.image (r : HRec) (stg : Nat) : List Byte := leBytes 8 (r.header stg) ++ r.payload

/-- R318: the entry count in a RID. -/
def HRec.count (r : HRec) : Nat := r.rid % 2 ^ 29

/-- R312: a record of a set. -/
def HRouter.recOf (h : HRouter) (set rid : Nat) : Option HRec :=
  h.recs.find? fun r => decide (r.set = set) && decide (r.rid = rid)

/-- Replaces a record. -/
def HRouter.setRec (h : HRouter) (r : HRec) : HRouter :=
  { h with recs := upsert (fun x => decide (x.set = r.set) && decide (x.rid = r.rid)) r h.recs }

/-- Frees the slot of a record. -/
def HRouter.dropRec (h : HRouter) (set rid : Nat) : HRouter :=
  { h with recs := h.recs.filter fun r => !(decide (r.set = set) && decide (r.rid = rid)) }

/-- Replaces the statistics of a set. -/
def HRouter.setStat (h : HRouter) (set : Nat) (x : HStats) : HRouter := { h with stats := setKey h.stats set x }

/-- Replaces a hurdle router. -/
def State.setHurdle (s : State) (ctx lcl : Nat) (h : HRouter) : State :=
  let c := s.ctxOf ctx
  s.setCtx { c with hurdles := setKey c.hurdles lcl h }

/-- The hurdle router of a logical cluster. -/
def State.hurdleOf (s : State) (ctx lcl : Nat) : HRouter := (s.ctxOf ctx).hurdle lcl

/-! ### The fields of a set (R314) -/

/-- R314: a bit of CTL. -/
def HRouter.ctl (h : HRouter) (set bit : Nat) : Bool := (h.reg set 0).getLsbD bit
/-- R314: NST. -/
def HRouter.nst (h : HRouter) (set : Nat) : Nat := bitsOf (h.reg set 0) 3 1
/-- R314: STG(s). -/
def HRouter.stg (h : HRouter) (set s : Nat) : Word := h.reg set (4 + 4 * s)
/-- R314: the members of a stage's pool. -/
def HRouter.pool (h : HRouter) (set s : Nat) : List Nat := (List.range 8).filter fun k => (h.stg set s).getLsbD k
/-- R314: QD. -/
def HRouter.qd (h : HRouter) (set s : Nat) : Nat := bitsOf (h.stg set s) 19 16

/-! ### Routing (R320, R322) -/

/-- R320: the candidate stages of a record. -/
def HRouter.candidates (h : HRouter) (r : HRec) : List Nat :=
  let todo := (List.range (h.nst r.set + 1)).filter fun s => !r.done.testBit s
  let early := todo.filter fun s => bitsOf (h.stg r.set s) 9 8 ≠ 2
  if early = [] then todo.take 1 else early

/-- R320: the score of a stage as a fraction. -/
def HRouter.score (h : HRouter) (set s : Nat) : Nat × Nat :=
  let f := stageCount (h.stat set).frozen s
  let prior := h.reg set (7 + 4 * s)
  let c : Nat × Nat := if f.1 = 0 then (bitsOf prior 31 0, 1) else (f.2.2, f.1)
  let p : Nat × Nat := if f.1 = 0 then (bitsOf prior 47 32, 2 ^ 16) else (f.2.1, f.1)
  let cap := (h.pool set s).length * h.qd set s
  let d := if h.ctl set 4 then 0 else h.depth set s
  (c.1 * 256 * p.2 * (cap + d), c.2 * (256 * (p.2 - p.1) + p.2) * cap)

/-- R320: the candidate of the lowest score, the lower index on a tie. -/
def HRouter.lowest (h : HRouter) (set : Nat) : List Nat → Nat
  | [] => 0
  | s :: l => l.foldl (fun a t =>
      let x := h.score set a
      let y := h.score set t
      if y.1 * x.2 < x.1 * y.2 then t else a) s

/-- R322: the draw of the lottery. -/
def HRouter.lottery (h : HRouter) (r : HRec) : Word :=
  if h.ctl r.set 4 then mix64 (h.reg r.set 2 ^^^ BitVec.ofNat 64 (r.rid * 256 + r.done % 256))
  else mix64 (h.reg r.set 2 + (h.stat r.set).dcount)

/-- R320, R322: the stage of a decision. -/
def HRouter.choose (h : HRouter) (r : HRec) : Nat :=
  let l := h.candidates r
  let z := h.lottery r
  if 2 ≤ l.length ∧ bitsOf z 35 32 < bitsOf (h.reg r.set 0) 11 8 then l.getD (bitsOf z 63 36 % l.length) 0
  else h.lowest r.set l

/-- R320, R322: a routing decision: the record waits for its stage; a draw of a set without DET advances DCOUNT. -/
def HRouter.route (h : HRouter) (r : HRec) : HRouter :=
  let st := h.stat r.set
  let draws := decide (2 ≤ (h.candidates r).length) && !h.ctl r.set 4
  let h1 := h.setRec { r with stage := h.choose r, order := h.decisions, phase := .waiting }
  { (if draws then h1.setStat r.set { st with dcount := st.dcount + 1 } else h1) with decisions := h.decisions + 1 }

/-! ### Leaving (R327 to R329) -/

/-- R327, R328: the exit message of a record. -/
def exitMsg (ctx lcl cluster : Nat) (exit : Word) (r : HRec) (stg : Nat) : Msg :=
  { deviceMsg ctx (bitsOf exit 11 0) (bitsOf exit 17 12) (r.image stg) (.hurdle cluster) (.hsExit lcl r.set r.rid r.drp) with
    src := r.lc }

/-- R225, R327, R328: a record whose last message is lost: its slot is freed and the loss counted. -/
def State.hsLost (s : State) (ctx lcl set rid : Nat) : State :=
  let h := s.hurdleOf ctx lcl
  let x := h.stat set
  s.setHurdle ctx lcl ((h.dropRec set rid).setStat set { x with errs := x.errs + 1 })

/-- R225, R328: sends a record's last message; one for an undefined logical core is lost. -/
def State.sendExit (s : State) (ctx lcl : Nat) (r : HRec) (stg : Nat) : State :=
  let h := s.hurdleOf ctx lcl
  let m := exitMsg ctx lcl (clusterIdOf (s.lcOf ctx (8 * lcl)).pcore) (h.reg r.set 1) r stg
  let s1 := s.setHurdle ctx lcl (h.setRec { r with phase := .leaving })
  if (s.ctxOf ctx).defines m.dst then s1.post m else (s1.nackBuilt m).hsLost ctx lcl r.set r.rid

/-- R329: how many places of a set's orders may be ready to pass. -/
def HRouter.places (h : HRouter) (set : Nat) : Nat := (h.stat set).gone.length + h.recs.length + 1

/-- R329: the next records of a logical core in the order of ORDEXIT: passes places that are gone and sends records that
are complete. fuel bounds how many. -/
def State.flushOrder (s : State) (ctx lcl set lc : Nat) : Nat → State
  | 0 => s
  | n + 1 =>
    let h := s.hurdleOf ctx lcl
    let x := h.stat set
    let k := lookupD x.next lc 0
    let x1 : HStats := { x with next := setKey x.next lc ((k + 1) % 2 ^ 29) }
    if (lc, k) ∈ x.gone then
      (s.setHurdle ctx lcl (h.setStat set { x1 with gone := x.gone.erase (lc, k) })).flushOrder ctx lcl set lc n
    else
      match h.recs.find? fun r => decide (r.set = set) && decide (r.lc = lc) && decide (r.count = k)
          && decide (r.phase = .ordered) with
      | some r => ((s.setHurdle ctx lcl (h.setStat set x1)).sendExit ctx lcl r 0).flushOrder ctx lcl set lc n
      | none => s

/-- R328, R329: a record with every DONE bit set leaves, in its turn under ORDEXIT. -/
def State.hsLeave (s : State) (ctx lcl : Nat) (r : HRec) : State :=
  let h := s.hurdleOf ctx lcl
  if h.ctl r.set 5 then
    (s.setHurdle ctx lcl (h.setRec { r with phase := .ordered })).flushOrder ctx lcl r.set r.lc (h.places r.set)
  else s.sendExit ctx lcl r 0

/-- R326, R327, R329: drops a record at a stage. -/
def State.hsDrop (s : State) (ctx lcl set rid stg : Nat) (err : Bool) : State :=
  let h := s.hurdleOf ctx lcl
  match h.recOf set rid with
  | none => s
  | some r =>
    let x := h.stat set
    let x1 : HStats := { x with dropped := x.dropped + 1, errs := if err then x.errs + 1 else x.errs
                                gone := if h.ctl set 5 then (r.lc, r.count) :: x.gone else x.gone }
    let s1 := s.setHurdle ctx lcl (h.setStat set x1)
    let s2 := if h.ctl set 6 then s1.sendExit ctx lcl { r with drp := true, err := err } stg
      else s1.setHurdle ctx lcl ((s1.hurdleOf ctx lcl).dropRec set rid)
    if h.ctl set 5 then s2.flushOrder ctx lcl set r.lc ((s2.hurdleOf ctx lcl).places set) else s2

/-- R321, R328: what a refused message means to the record it carries. -/
def State.hsRefused (s : State) (m : Msg) : State :=
  match m.kind with
  | .hsDispatch lcl set rid stage _ => s.hsDrop m.ctx lcl set rid stage true
  | .hsExit lcl set rid _ => s.hsLost m.ctx lcl set rid
  | _ => s

/-- R179: a refused message: its NACK record, and what the refusal means to a record. -/
def State.refuse (s : State) (m : Msg) (info1 : Nat) : State := (s.nack m info1).hsRefused m

/-- R327, R328: a record's last message is delivered: its slot is freed. -/
def State.hsDelivered (s : State) (m : Msg) : State :=
  match m.kind with
  | .hsExit lcl set rid drop =>
    let h := s.hurdleOf m.ctx lcl
    let x := h.stat set
    s.setHurdle m.ctx lcl ((h.dropRec set rid).setStat set (if drop then x else { x with exited := x.exited + 1 }))
  | _ => s

/-! ### Entries, dispatches and verdicts (R319, R321, R323, R326) -/

/-- R323: the end of a heat. -/
def HStats.endHeat (x : HStats) : HStats :=
  { x with frozen := x.live.foldl (fun f p => if p.2.1 = 0 then f else setKey f p.1 p.2) x.frozen
           live := [], heats := x.heats + 1, inHeat := 0 }

/-- R323: the records of a heat. -/
def HRouter.heatLen (h : HRouter) (set : Nat) : Nat :=
  if h.ctl set 7 then bitsOf (h.reg set 0) 32 16 / 64 else bitsOf (h.reg set 0) 32 16

/-- R323: counts an entry in its heat, which may end with it. -/
def HRouter.countHeat (h : HRouter) (set : Nat) : HRouter :=
  let x := h.stat set
  let x1 : HStats := { x with inHeat := x.inHeat + 1 }
  h.setStat set (if h.heatLen set ≤ x1.inHeat then x1.endHeat else x1)

/-- R319: an entry delivered to the router. -/
def State.hsEnter' (s : State) (ctx lcl set rid lc : Nat) (payload : List Byte) : State :=
  let h := s.hurdleOf ctx lcl
  let x := h.stat set
  let r : HRec := { set := set, rid := rid, lc := lc, payload := payload, done := 256 - 2 ^ (h.nst set + 1), stage := 0
                    order := 0, phase := .waiting }
  let h1 := h.setStat set { x with entered := x.entered + 1 }
  s.setHurdle ctx lcl ((h1.route r).countHeat set)

/-- R186: whether an earlier message of the same outbox to the same destination and of the same kind is undelivered. -/
def State.behind (s : State) (i : Nat) (m : Msg) (like : Msg → Bool) : Bool :=
  (s.net.take i).any fun x => decide (x.box = m.box) && decide (x.ctx = m.ctx) && decide (x.dst = m.dst)
    && decide (x.ch = m.ch) && like x

/-- R319, R333, R334: the delivery of an entry; it waits while the buffer is full or the context does not run. -/
def execHsEntryDelivery (i : Nat) (st : State) : Out :=
  .next (match st.net[i]? with
    | none => st
    | some m =>
      match m.kind with
      | .hsEntry lcl set rid =>
        let entry (x : Msg) : Bool := match x.kind with
          | .hsEntry _ _ _ => true
          | _ => false
        if !(st.ctxOf m.ctx).runs || decide ((st.hurdleOf m.ctx lcl).free = 0) || st.behind i m entry then st
        else ({ st with net := dropAt st.net i } : State).hsEnter' m.ctx lcl set rid m.src m.payload
      | _ => st)

/-- R321: how many dispatches of a stage a member has outstanding. -/
def HRouter.outstanding (h : HRouter) (set s k : Nat) : Nat :=
  (h.recs.filter fun r => decide (r.set = set) && decide (r.stage = s) && decide (r.phase = .dispatched k)).length

/-- R321: the pool member that takes the next record of a stage. -/
def HRouter.member (h : HRouter) (set s : Nat) : Option Nat :=
  match (h.pool set s).filter fun k => h.outstanding set s k < h.qd set s with
  | [] => none
  | k :: l => some (l.foldl (fun a b => if h.outstanding set s b < h.outstanding set s a then b else a) k)

/-- R321: the record that waits longest for a stage, by the order of the decisions. -/
def HRouter.firstWaiting (h : HRouter) (set s : Nat) : Option HRec :=
  match h.recs.filter fun r => decide (r.set = set) && decide (r.stage = s) && decide (r.phase = .waiting)
      && r.box.isNone with
  | [] => none
  | r :: l => some (l.foldl (fun a b => if b.order < a.order then b else a) r)

/-- R321: the payload a dispatch shows: bytes outside RMASK are zero. -/
def shownBytes (mask : Word) (l : List Byte) : List Byte :=
  (List.range l.length).map fun i => if mask.getLsbD i then l.getD i 0 else 0

/-- R225, R321: dispatches a record to a member. -/
def State.hsSend (s : State) (ctx lcl set stage : Nat) (r : HRec) (k : Nat) : State :=
  let h := s.hurdleOf ctx lcl
  let image := leBytes 8 (r.header stage) ++ shownBytes (h.reg set (5 + 4 * stage)) r.payload
  let m : Msg := { deviceMsg ctx (8 * lcl + k) (bitsOf (h.stg set stage) 15 10) image
      (.hurdle (clusterIdOf (s.lcOf ctx (8 * lcl)).pcore)) (.hsDispatch lcl set r.rid stage k) with src := r.lc }
  let s1 := s.setHurdle ctx lcl (h.setRec { r with phase := .dispatched k })
  if (s.ctxOf ctx).defines m.dst then s1.post m else (s1.nackBuilt m).hsRefused m

/-- R321: a waiting record is dispatched to a pool member with room. -/
def execHsDispatch (ctx lcl set stage : Nat) (st : State) : Out :=
  let h := st.hurdleOf ctx lcl
  .next (if !(st.ctxOf ctx).runs then st
    else match h.firstWaiting set stage, h.member set stage with
      | some r, some k => st.hsSend ctx lcl set stage r k
      | _, _ => st)

/-- R326: counts a verdict in the live statistics. -/
def HStats.countVerdict (x : HStats) (s : Nat) (pass : Bool) (cycles : Nat) : HStats :=
  let c := stageCount x.live s
  { x with live := setKey x.live s (c.1 + 1, (if pass then c.2.1 + 1 else c.2.1), c.2.2 + cycles) }

/-- R326: the payload after a pass: the bytes of the mask come from the verdict. -/
def mergeBytes (mask : Word) (old new : List Byte) : List Byte :=
  (List.range old.length).map fun i => if mask.getLsbD i then new.getD i 0 else old.getD i 0

/-- R321, R326: whether a record is at a worker. -/
def HRec.atWorker (r : HRec) : Bool :=
  match r.phase with
  | .dispatched _ => true
  | _ => false

/-- R326: a verdict delivered to the router; one of a record that has been dropped meanwhile means nothing. -/
def State.hsJudge (s : State) (ctx lcl set rid stage : Nat) (pass err : Bool) (mask : Word) (bytes : List Byte)
    (cycles : Nat) : State :=
  let h := s.hurdleOf ctx lcl
  match (h.recOf set rid).filter HRec.atWorker with
  | none => s
  | some r =>
    if err then s.hsDrop ctx lcl set rid stage true
    else
      let h1 := h.setStat set ((h.stat set).countVerdict stage pass cycles)
      if !pass then (s.setHurdle ctx lcl h1).hsDrop ctx lcl set rid stage false
      else
        let r1 : HRec := { r with done := r.done ||| 2 ^ stage, payload := mergeBytes mask r.payload bytes }
        if r1.done % 256 = 255 then (s.setHurdle ctx lcl (h1.setRec r1)).hsLeave ctx lcl r1
        else s.setHurdle ctx lcl (h1.route r1)

/-- R326, R333: the delivery of a verdict; it waits while the context does not run. -/
def execHsVerdictDelivery (i : Nat) (st : State) : Out :=
  .next (match st.net[i]? with
    | none => st
    | some m =>
      match m.kind with
      | .hsVerdict lcl set rid stage pass err mask cycles =>
        if !(st.ctxOf m.ctx).runs then st
        else ({ st with net := dropAt st.net i } : State).hsJudge m.ctx lcl set rid stage pass err mask m.payload cycles
      | _ => st)

end Sys2Proof.Machine
end

