-- ==== Sys2Proof/Machine/Chunks.lean ====
section
/-! DEFINITION. Slots and chunks as the machine's steps find them: choosing a slot, MINKEY (R196 to R198), squash,
pre-emption and exclusive commit (R160, R185, R200), and the effect hash (R355, R435). -/

namespace Sys2Proof.Machine

/-! ### Slots -/

/-- Makes a slot in use the focus. -/
def State.refocus (s : State) (core k : Nat) : State :=
  if s.focus.at core k then s
  else
    match s.others.find? fun f => f.at core k with
    | none => s
    | some g => { s with
        focus := g
        others := (if s.focus.active then [s.focus] else []) ++ s.others.filter fun f => !f.at core k }

/-- Replaces a slot in use. -/
def State.setSlot (s : State) (g : Slot) : State := s.mapSlots fun f => if f.at g.core g.k then g else f

/-- R198: a speculative firing. -/
def State.speculative (s : State) (x : Firing) : Bool := x.ordered && !x.committed && !s.atMin x

/-! ### Squash, pre-emption, exclusive commit -/

/-- R200, R354: the slot of a chunk and that of its other copy: a grant of exclusive commit to one is one to both. -/
def State.copies (s : State) (f : Slot) : List (Nat × Nat) :=
  (f.core, f.k) :: (s.partner f).toList.map fun g => (g.core, g.k)

/-- R200: whether a chunk, or that of its other copy, waits for exclusive commit. -/
def State.awaitsExcl (s : State) (f : Slot) : Bool := (s.copies f).any fun p => decide (p ∈ s.exclQ)

/-- R200: whether a chunk, or that of its other copy, holds exclusive commit. -/
def State.holdsExcl (s : State) (f : Slot) : Bool := (s.copies f).any fun p => decide (s.excl = some p)

/-- R200: a slot whose chunk was squashed eight times in a row queues for exclusive commit. -/
def State.queueExcl (s : State) (f : Slot) : State :=
  if 8 ≤ f.squashes ∧ s.awaitsExcl f = false ∧ s.holdsExcl f = false then
    { s with exclQ := s.exclQ ++ [(f.core, f.k)] }
  else s

/-- R200: a slot leaves the grant and its queue. -/
def State.leaveExcl (s : State) (core k : Nat) : State :=
  { s with excl := if s.excl = some (core, k) then none else s.excl, exclQ := s.exclQ.filter fun p => p ≠ (core, k) }

/-- R185: squashes the chunk of one slot. -/
def State.squashSlot (s : State) (f : Slot) : State :=
  let g := f.squash
  ((s.cancelBox f).setSlot g).queueExcl g

/-- R185, R354: squashes a chunk, and that of the other copy of a dual firing. -/
def State.squashChunk (s : State) (f : Slot) : State :=
  let s1 := s.squashSlot f
  match s.partner f with
  | some g => s1.squashSlot g
  | none => s1

/-- R185, R192, R195, R200, R400: a dispatched firing that leaves its slot: its chunk is squashed, it resumes from its
checkpoint, and what its next chunk waits for stays. It is ready again from this cycle on (DESIGN CHOICE, log
entry 85). -/
def Slot.parkFiring (f : Slot) (cycle : Nat) : Firing :=
  { f.firing with resume := some f.ckpt, readyAt := cycle, movedAt := cycle
                  heldFor := f.firing.heldFor + (cycle - f.firing.since), squashes := f.squashes + 1, gate := f.gate }

/-- R160, R398: pre-emption of the chosen slots: their chunks are squashed, the slots are freed, and the firings are ready
to resume. -/
def State.preempt (s : State) (which : Slot → Bool) : State :=
  let gone := s.slots.filter fun f => f.active && which f
  let s1 := gone.foldl (fun s f => (s.cancelBox f).leaveExcl f.core f.k) s
  { s1 with
    focus := if s.focus.active && which s.focus then s.focus.free else s.focus
    others := s.others.filter fun f => !which f
    ready := s.ready ++ (gone.filter fun f => f.firing.copy = 0).map fun f => f.parkFiring s.cycle }

/-- R122, R356: frees a slot and drops it from those in use. -/
def State.freeSlot (s : State) (f : Slot) : State :=
  let s1 := s.leaveExcl f.core f.k
  { s1 with focus := if s1.focus.at f.core f.k then s1.focus.free else s1.focus
            others := s1.others.filter fun g => !g.at f.core f.k }

/-! ### The effect hash (R355, R435) -/

/-- R435: a byte string as 8-byte words, padded with zero bytes. -/
def wordsOfBytes (l : List Byte) : List Word :=
  (List.range ((l.length + 7) / 8)).map fun i => BitVec.ofNat 64 (leNat ((l.drop (8 * i)).take 8))

/-- R355: the address of a written byte: a scratchpad byte by its remote address, a device byte by its physical address
(log entry 19). -/
def hashAddr (k : Nat) : Nat :=
  if isDeviceKey k then k else 0xFFFE0000000000 + ((k - 2 ^ 40) / 2 ^ 24 % 4096) * 2 ^ 24 + k % 2 ^ 24

/-- R355: the aligned words of a write buffer: address, value and written-byte mask. -/
def bufWords : List Host.Cell → Option (Nat × Nat × Nat) → List (Nat × Nat × Nat)
  | [], none => []
  | [], some w => [w]
  | (k, b) :: t, cur =>
    let a := k - k % 8
    let v := b.toNat * 2 ^ (8 * (k % 8))
    let m := 2 ^ (k % 8)
    match cur with
    | none => bufWords t (some (a, v, m))
    | some w => if w.1 = a then bufWords t (some (a, w.2.1 + v, w.2.2 + m)) else w :: bufWords t (some (a, v, m))

/-- R79: the form of a reply to a trap record: LEN 9 to 64, zero past byte 8. -/
def replyForm (l : List Byte) : Bool := decide (9 ≤ l.length) && (l.drop 9).all fun b => b = 0

/-- R435: the words of a message's image. -/
def Msg.image (m : Msg) : List Word :=
  if m.ch = 62 ∧ m.ord = false ∧ m.pkg = Config.ownPackage.val ∧ replyForm m.payload = true then
    wordsOfBytes ((m.payload ++ List.replicate 7 0).take 16)
  else m.hdr :: m.ts :: wordsOfBytes m.payload

/-- R435: the words of a held effect after its tag. tag gives the number of a context CSR write. -/
def Held.image (tag : Word) : Held → List Word
  | .send m => m.image
  | .sendm r m => m.image ++ [r]
  | .sendr g p => BitVec.ofNat 64 g :: wordsOfBytes p
  | .hostStore va l => va :: BitVec.ofNat 64 l.length :: wordsOfBytes l
  | .pamo _ size _ va s => [va, BitVec.ofNat 64 (s.toNat % 2 ^ (8 * size))]
  | .csr _ _ v => [tag &&& 0xFFF#64, v]
  | .fmt k f g => [BitVec.ofNat 64 k, f, g]
  | .wgClr wg mask => [BitVec.ofNat 64 wg, mask]
  | .wgSync a => [a]
  | .ttWr sel w0 w1 w2 => [sel, w0, w1, w2]
  | .ttBlk sel _ => [sel]
  | .dgMode m => [BitVec.ofNat 64 m]
  | .tileDef d => [d]
  | .tileSt t st => [BitVec.ofNat 64 t, BitVec.ofNat 64 st]
  | .tileSat t a b => [BitVec.ofNat 64 t, BitVec.ofNat 64 (a + b * 2 ^ 32)]
  | .hsVerdict true m l => m :: wordsOfBytes l
  | .hsVerdict false _ _ => []
  | .hsWr sel v => [sel, v]
  | .hsEnt set rid l => BitVec.ofNat 64 set :: BitVec.ofNat 64 rid :: wordsOfBytes l
  | .lawWr i l => BitVec.ofNat 64 i :: wordsOfBytes l
  | .clkAdv k x => [BitVec.ofNat 64 k, x]
  | .alarm a => BitVec.ofNat 64 (a.core + a.ch * 2 ^ 12) :: wordsOfBytes a.payload ++ (if a.clk = 0 then [a.due] else [])
  | .almDrop => []
  | .egWr n v => [BitVec.ofNat 64 n, v]
  | .job j => match j.engine with
    | .matrix => j.word :: BitVec.ofNat 64 j.id :: j.bank
    | .copy => wordsOfBytes j.block ++ [j.word]
  | .mxCan id => [BitVec.ofNat 64 id]
  | .cpCan tag => [BitVec.ofNat 64 tag]
  | .barCfg id n => [BitVec.ofNat 64 id, BitVec.ofNat 64 n]
  | .redCfg a b => [a, b]
  | .sys _ a b => [a, b]

/-- R435: a held effect's image; the drop of an alarm is imaged as the write of ALMDROP, with tag 0 (log entry 19). -/
def State.heldImage (s : State) (f : Slot) (tag : Word) (h : Held) : List Word :=
  match h with
  | .alarm _ => (tag ||| 0x100000000#64) :: h.image tag
  | .almDrop => [tag, 0x023#64, f.heldCsr f.firing.ctx 0x023 (s.ctxOf f.firing.ctx).almdrop + 1#64]
  | _ => tag :: h.image tag

/-- R435: a BAR.AF request, the last effect of its chunk. -/
def Slot.arriveImage (f : Slot) : List Word :=
  match f.chunk.closed with
  | some (.arrive _ _ (some w)) => [f.word, w]
  | _ => []

/-- R355: one word of the hash. -/
def hashStep (h w : Word) : Word := mix64 (h ^^^ w)

/-- R355: EFFECT_HASH. -/
def State.effectHash (s : State) (f : Slot) : Word :=
  let buf := ((bufWords f.chunk.wbuf none).map fun w =>
    [BitVec.ofNat 64 (hashAddr w.1), BitVec.ofNat 64 w.2.1, BitVec.ofNat 64 w.2.2]).flatten
  let held := ((f.chunk.held.zip f.chunk.tags).map fun p => s.heldImage f p.2 p.1).flatten
  (buf ++ held ++ f.arriveImage ++ [f.reg.flags, BitVec.ofNat 64 f.chunk.hidden]).foldl hashStep 0

end Sys2Proof.Machine
end

