-- ==== Sys2Proof/Machine/Release.lean ====
section
/-! DEFINITION. Releasing held effects (R184): wire conversion (R346, R347), sends (R223, R225, R418), contributions
(R351), host stores, hurdle entries and verdicts, engine commands (R283, R304), cancellations, alarms (R255), and
mailbox replies (R280). -/

namespace Sys2Proof.Machine

/-! ### Conversion at the network interface (R346, R347) -/

/-- R346: the wire format of a code: format, rounding mode and whether its draw counts; none for the stored form. -/
def wireFmt (wfmt frm : Nat) (fmts : Nat → Word) : Option (Fmt × RMode) :=
  if wfmt = 1 then some (bf16, .rne)
  else if wfmt = 2 then some (fp16, .rne)
  else if 8 ≤ wfmt then some (fmtOfWord (fmts (wfmt - 8)), rmodeOf (fmtRm (fmts (wfmt - 8))) frm)
  else none

/-- R346: one FP32 word through a wire format: the widened word and whether it saturated. -/
def wireWord (F : Fmt) (mode : RMode) (draw : Nat) (x : Lane) : Lane × Bool :=
  let r := roundTo F mode draw (exact32 x)
  ((rne32 (decodeFmt F r.code)).val, r.sat)

/-- R346: the payload as it reaches the receiver, and the words that saturated. -/
def wireConvert (fmts : Nat → Word) (m : Msg) : List Byte × Nat :=
  match wireFmt m.wfmt m.frm fmts with
  | none => (m.payload, 0)
  | some (F, mode) =>
    let r := (List.range (m.payload.length / 4)).map fun i =>
      wireWord F mode (srDraw m.fid (BitVec.ofNat 64 (2 ^ 33 + m.draw)) (BitVec.ofNat 64 i))
        (BitVec.ofNat 32 (leNat ((m.payload.drop (4 * i)).take 4)))
    ((r.map fun x => leBytes 4 x.1.toNat).flatten, (r.filter fun x => x.2).length)

/-- R346: the bytes of a payload on the wire. -/
def wireBytes (fmts : Nat → Word) (m : Msg) : Nat :=
  match wireFmt m.wfmt 0 fmts with
  | none => m.payload.length
  | some (F, _) => (m.payload.length / 4 * F.width + 7) / 8

/-! ### Sends -/

/-- R408: charges the flits of a message to its context and the sender's cluster. -/
def State.chargeFlits (s : State) (m : Msg) (p wire : Nat) : State :=
  s.charge m.ctx (clusterIdOf p) (5 * ((16 + wire + 63) / 64) * hops p (s.lcOf m.ctx m.dst).pcore)

/-- R359: counts a message that a logical core sent. -/
def State.countSent (s : State) (ctx lc : Nat) : State :=
  let l := s.lcOf ctx lc
  s.setLc ctx { l with sent := l.sent + 1 }

/-- R358: counts an ordered message as received. -/
def State.countOrdRecv (s : State) (m : Msg) : State :=
  if m.ord then
    let c := s.ctxOf m.ctx
    s.setCtx { c with ordRecv := c.ordRecv + 1 }
  else s

/-- R196, R358: an ordered message takes its sender's next sequence number. -/
def State.takeSeq (s : State) (m : Msg) : State × Msg :=
  if m.ord then
    let c := s.ctxOf m.ctx
    let l := c.lcOf m.src
    (s.setCtx ({ c with ordSent := c.ordSent + 1 }.setLc { l with sendSeq := (l.sendSeq + 1) % 2 ^ 32 }),
      { m with seq := l.sendSeq })
  else (s, m)

/-- R225, R358: a message discarded at its release for an undefined destination. -/
def State.discardUndefined (s : State) (m : Msg) : State := (s.countOrdRecv m).nackBuilt m

/-- R184, R223, R225, R346, R347: releases one message: the conversion, the sequence number, and its way out. -/
def State.releaseMsg (s : State) (r : Release) (m : Msg) : State :=
  let fm : Nat → Word := fun k => lookupD r.fmts k 0
  let w := wireConvert fm m
  let wg := ((s.lcOf r.ctx r.lc).ttOf r.firing.ch).wg
  let s1 := if w.2 = 0 then s else s.watchEvent r.ctx r.cluster wg 16 w.2 r.firing.fid
  let q := (s1.countSent m.ctx m.src).takeSeq { m with payload := w.1, ran := r.slotCore }
  if m.pkg ≠ Config.ownPackage.val then q.1.postFabric q.2
  else if (q.1.ctxOf m.ctx).defines m.dst then (q.1.chargeFlits q.2 r.slotCore (wireBytes fm m)).post q.2
  else q.1.discardUndefined q.2

/-- R223: the logical cores a SENDM reaches at its release, in ascending order. -/
def Ctx.rectCores (c : Ctx) (rect : Word) : List Nat := (List.range 4096).filter fun n => inRect rect n && c.defines n

/-- R342: the links of the path from a core to another, each by its lower end and whether it lies along a row: first along
the row to the destination's column, then along that column. -/
def pathLinks (p0 q0 : Nat) : List (Nat × Bool) :=
  let p := meshAt p0
  let q := meshAt q0
  let r := p / 32
  let a := min (p % 32) (q % 32)
  let b := min r (q / 32)
  ((List.range (max (p % 32) (q % 32) - a)).map fun i => (32 * r + a + i, true))
    ++ (List.range (max r (q / 32) - b)).map fun i => (32 * (b + i) + q % 32, false)

/-- R348: the links of the tree that a multicast takes, each once. -/
def treeLinks (p : Nat) (l : List Nat) : List (Nat × Bool) :=
  (l.map (pathLinks p)).flatten.foldl addNew []

/-- R348, R408: charges the flits of a multicast: each link of its tree carries the message once. -/
def State.chargeTree (s : State) (m : Msg) (p wire : Nat) (l : List Nat) : State :=
  s.charge m.ctx (clusterIdOf p) (5 * ((16 + wire + 63) / 64)
    * (treeLinks p (l.map fun n => (s.lcOf m.ctx n).pcore)).length)

/-- R223, R348: a SENDM's copies; the conversion happens once. -/
def State.releaseMulti (s : State) (r : Release) (rect : Word) (m : Msg) : State :=
  let fm : Nat → Word := fun k => lookupD r.fmts k 0
  let w := wireConvert fm m
  let wg := ((s.lcOf r.ctx r.lc).ttOf r.firing.ch).wg
  let s1 := if w.2 = 0 then s else s.watchEvent r.ctx r.cluster wg 16 w.2 r.firing.fid
  let l := (s1.ctxOf m.ctx).rectCores rect
  l.foldl (fun s n => (s.countSent m.ctx m.src).post { m with payload := w.1, dst := n, ran := r.slotCore })
    (s1.chargeTree m r.slotCore (wireBytes fm m) l)

/-- R350, R351: the next round of a participant. -/
def RedGroup.roundOf (g : RedGroup) (p : Nat) : Nat := lookupD g.released p 0

/-- R351: a released SENDR is the sender's contribution to its next round. -/
def State.releaseRed (s : State) (r : Release) (group : Nat) (payload : List Byte) : State :=
  let c := s.ctxOf r.ctx
  let g := c.redOf group
  let k := g.roundOf r.lc
  let m : Msg := { deviceMsg r.ctx r.lc 0 payload (.core r.ctx r.lc) (.reduction group k) with
    fid := r.firing.fid, fts := r.firing.fts, fch := r.firing.ch, src := r.lc, ran := r.slotCore }
  (s.setCtx { c with reds := setKey c.reds group { g with released := setKey g.released r.lc (k + 1) } }).post m

/-! ### Engine commands -/

/-- R289, R309: the 64 most recently released commands of a logical core are kept, with those still needed as weight
sets. -/
def State.pruneJobs (s : State) (e : Engine) (ctx lc : Nat) : State :=
  let mine (j : Job) : Bool := decide (j.engine = e) && decide (j.ctx = ctx) && decide (j.lc = lc)
  let n := (s.jobs.filter mine).length
  if n ≤ 64 then s
  else
    let wset := (s.lcOf ctx lc).wset
    let held (u : Nat) : Bool := decide (wset = some u) || s.jobs.any fun j => decide (j.st < 4) && decide (j.plane = some u)
    let old := ((s.jobs.filter mine).take (n - 64)).map fun j => j.uid
    { s with jobs := s.jobs.filter fun j => !(mine j && decide (j.uid ∈ old) && decide (4 ≤ j.st) && !held j.uid) }

/-- R190, R420: the pending writes that a command must find applied before it is taken; those that arrived over the fabric
(log entry 13) under FABRIC alone. -/
def State.acquireSet (s : State) (j : Job) : List Nat :=
  match j.acquire with
  | none => []
  | some sc =>
    if sc < 2 then []
    else (s.pend.filter fun p => if 128 ≤ p.cluster then decide (sc = 4)
      else decide (3 ≤ sc) || decide (dieOf (clusterRouter p.cluster) = dieOf j.pcore)).map fun p => p.uid

/-- R187: the flips so far of the barrier a command waits for. -/
def State.waitFlips (s : State) (j : Job) : Option Nat :=
  if j.engine = .matrix ∧ j.word.getLsbD 7 = true then
    some ((s.ctxOf j.ctx).barOf (barOwner j.lc (bitsOf j.word 6 0)) (bitsOf j.word 6 0)).flips
  else none

/-- R246: the clocks that a RINGSWEEP uses, as captured at its release: the firing's FTS and the committed step clocks. -/
def Ctx.sweepClocks (c : Ctx) (fts : Word) : List (Nat × Word) :=
  [(0, fts), (1, lookupD c.steps 1 0), (2, lookupD c.steps 2 0), (3, lookupD c.steps 3 0)]

/-- R88: the eight committed format words of a logical core. -/
def LCore.fmtWords (l : LCore) : List (Nat × Word) := (List.range 8).map fun k => (k, (l.fmtOf k).1)

/-- R176: an object record as it stands in M; the value read at issue where its page no longer translates. -/
def State.recordNow (s : State) (c : Ctx) (r : Nat × Nat) : Nat × Nat :=
  match s.spanKeys c.id (c.objbase + BitVec.ofNat 64 (64 * r.1)) 64 TlbEntry.r with
  | some ks => (r.1, leNat (ks.map (cellRead s.mem)))
  | none => r

/-- R176, R379: the object records that a command names are read. -/
def State.readRecords (s : State) (j : Job) : State :=
  j.recs.foldl (fun s r => s.readSpan j.cluster j.ctx ((s.ctxOf j.ctx).objbase + BitVec.ofNat 64 (64 * r.1)) 64) s

/-- R88, R176, R184, R283, R291, R304: an engine command joins its queue, with the object records and the committed format
words of this moment. -/
def State.releaseJob (s0 : State) (r : Release) (j : Job) : State :=
  let s := s0.readRecords j
  let c := s.ctxOf j.ctx
  let l := c.lcOf j.lc
  let j1 : Job := { j with
    uid := s.nextUid, st := 1, rel := s.log.length, acq := s.acquireSet j, wphase := s.waitFlips j, fmts := l.fmtWords
    recs := j.recs.map (s.recordNow c)
    ran := r.slotCore, wg := (l.ttOf r.firing.ch).wg, clocks := c.sweepClocks j.fts, plane := l.wset }
  let s1 : State := { s with jobs := s.jobs ++ [j1], nextUid := s.nextUid + 1 }
  let s2 := if j.engine = .matrix ∧ j.op = 2 then s1.setLc j.ctx { l with wset := some s.nextUid } else s1
  s2.pruneJobs j.engine j.ctx j.lc

/-! ### Alarms (R255) -/

/-- R254, R255: the message of an alarm. Those of step clocks leave by an outbox of their context (DESIGN CHOICE, log entry
112). -/
def alarmMsg (ctx : Nat) (a : Alarm) : Msg :=
  { deviceMsg ctx a.core a.ch a.payload (if a.clk = 0 then .core ctx a.src else .alarms ctx) .alarm with
    src := a.src, ord := decide (a.clk = 0), ts := if a.clk = 0 then a.due else 0, fid := a.fid, fts := a.fts, fch := a.fch, ran := a.ran }

/-- R225, R255: releases an alarm's message. -/
def State.releaseAlarm (s : State) (m : Msg) : State :=
  let q := s.takeSeq m
  if (q.1.ctxOf m.ctx).defines m.dst then q.1.post q.2 else q.1.discardUndefined q.2

/-- R255: the order in which due alarms go out: ascending due value, then queue order. -/
def insertDue (a : Alarm) : List Alarm → List Alarm
  | [] => [a]
  | b :: t => if a.due.toNat < b.due.toNat then a :: b :: t else b :: insertDue a t

/-! ### Releasing one effect -/

/-- R280: a mailbox reply leaves for its cluster's mailbox. -/
def replyMsg (cluster : Nat) (a b : Word) : Msg :=
  deviceMsg 0 cluster 0 [] (.core 0 cluster) (.mailboxReply (bitsOf a 5 0) (bitsOf a 15 8) (bitsOf b 1 0))

/-- R184: the release of one held effect; effects that the commit itself applies release nothing. -/
def State.releaseHeld (s : State) (r : Release) (h : Held) : State :=
  match h with
  | .send m => if m.kind = .alarm then s.releaseAlarm m else s.releaseMsg r m
  | .sendm rect m => s.releaseMulti r rect m
  | .sendr g p => s.releaseRed r g p
  | .hostStore va l => { s with hostQ := s.hostQ ++ [
      { ctx := r.ctx, va := va, data := l, lc := r.lc, ch := r.firing.ch, fid := r.firing.fid, fts := r.firing.fts
        ran := r.slotCore }] }
  | .hsEnt set rid l => s.post { deviceMsg r.ctx (8 * (r.lc / 8)) 0 l (.core r.ctx r.lc) (.hsEntry (r.lc / 8) set rid) with
      src := r.lc, fid := r.firing.fid, fts := r.firing.fts, fch := r.firing.ch, ran := r.slotCore }
  | .hsVerdict pass mask l =>
    (match r.firing.stage with
      | some t => s.post (verdictMsg r.firing t pass false mask l (r.firing.heldFor + (s.cycle - r.firing.since)))
      | none => s)
  | .job j => s.releaseJob r j
  | .mxCan id => s.cancelMatrix r.ctx r.lc id
  | .cpCan tag => s.cancelCopies r.ctx r.lc tag
  | .alarm a => if a.clk = 0 then s.releaseAlarm (alarmMsg r.ctx a) else s
  | .sys 35 a b => s.post (replyMsg r.cluster a b)
  | _ => s

/-- R184: releases effects in program order. -/
def State.releaseAll (s : State) (r : Release) : State := r.held.foldl (fun s h => s.releaseHeld r h) s

/-- R126, R127, R278: whether a chunk's releases must wait, and for which acknowledgement: watch tables, then
invalidations. -/
def releaseWaits (l : List Held) : Bool × Bool :=
  (l.any fun h => match h with
      | .wgClr _ mask => mask.getLsbD 18
      | .wgSync _ => true
      | _ => false,
    l.any fun h => match h with
      | .sys 33 a _ => a.getLsbD 10
      | _ => false)

/-- R184: releases a chunk's effects, or queues them behind the acknowledgement they wait for. Later releases of the same
logical core queue behind. -/
def State.release (s : State) (r : Release) : State :=
  if r.wg || r.inv || s.relQ.any fun x => decide (x.ctx = r.ctx) && decide (x.lc = r.lc) then
    { s with relQ := s.relQ ++ [r] }
  else s.releaseAll r

/-- R126, R127, R278: the releases that no longer wait, from the head of each logical core's queue. fuel is the number of
queued releases. -/
def State.drainReleases (s : State) : Nat → State
  | 0 => s
  | n + 1 =>
    let ready (x : Release) : Bool := !x.wg && !x.inv &&
      ((s.relQ.takeWhile fun y => decide (y ≠ x)).all fun y => !(decide (y.ctx = x.ctx) && decide (y.lc = x.lc)))
    match s.relQ.find? ready with
    | none => s
    | some x => ({ s with relQ := s.relQ.erase x }.releaseAll x).drainReleases n

end Sys2Proof.Machine
end

