-- ==== Sys2Proof/Machine/Place.lean ====
section
/-! DEFINITION. Placement as the machine keeps it: fault rectangles (R362, R407), what a physical core hosts (R159), how a
stop or a move of logical cores begins (R398, R401), and the removal of translations (R278). -/

namespace Sys2Proof.Machine

/-! ### Fault rectangles -/

/-- R407: the rectangle index of a cluster; at reset the cluster in row i and column j of its die holds 4i + j. -/
def State.rectOf (s : State) (cluster : Nat) : Nat := lookupD s.rects cluster (4 * (cluster / 8 % 8) + cluster % 4)

/-- R341: the die of a cluster. -/
def clusterDie (c : Nat) : Nat := dieOf (clusterRouter c)

/-- R363: whether a cluster lies in a fenced rectangle. -/
def State.fencedCluster (s : State) (c : Nat) : Bool := decide ((clusterDie c, s.rectOf c) ∈ s.fences)

/-- R363: whether a physical core lies in a fenced rectangle. -/
def State.fencedCore (s : State) (p : Nat) : Bool := s.fencedCluster (clusterIdOf p)

/-- R407: the clusters of a die, by row and column. -/
def dieCluster (die row col : Nat) : Nat := 8 * (8 * (die / 2) + row) + 4 * (die % 2) + col

/-- R407: the clusters a RECT.SET names. -/
def rectClusters (a b : Word) : List Nat :=
  ((List.range 8).map fun r => (List.range 4).map fun c => (r, c)).flatten.filterMap fun p =>
    if bitsOf b 2 0 ≤ p.1 ∧ p.1 ≤ bitsOf b 5 3 ∧ bitsOf b 7 6 ≤ p.2 ∧ p.2 ≤ bitsOf b 9 8 then
      some (dieCluster (bitsOf a 1 0) p.1 p.2)
    else none

/-- R407: a RECT.SET applied to a rectangle table. -/
def rectApply (t : List (Nat × Nat)) (a b : Word) : List (Nat × Nat) :=
  (rectClusters a b).foldl (fun t c => setKey t c (bitsOf a 6 2)) t

/-- R407: whether some rectangle losing or gaining clusters is fenced. -/
def State.rectMeetsFence (s : State) (rectOf : Nat → Nat) (a b : Word) : Bool :=
  (rectClusters a b).any fun c => decide (rectOf c ≠ bitsOf a 6 2) &&
    (decide ((clusterDie c, rectOf c) ∈ s.fences) || decide ((clusterDie c, bitsOf a 6 2) ∈ s.fences))

/-! ### Hosting -/

/-- R344, R354: whether a logical core lies on a physical core: it, or its shadow. -/
def LCore.liesOn (l : LCore) (p : Nat) : Bool := decide (l.pcore = p) || l.dual && decide (l.shadow = p)

/-- R159, R354, R398: the logical cores a physical core hosts, those whose shadow it is among them, with their contexts; those of
a stop whose image is not written stay on their units. -/
def State.hosted (s : State) (p : Nat) : List (Nat × LCore) :=
  (s.ctxs.map fun c => (c.lcores.filter fun l => l.valid && (!l.out || l.stopOut) && l.liesOn p).map fun l => (c.id, l)).flatten

/-- R401: the context, logical core, target, hosting index, OUT and completion channel of a MIG.GO. -/
def migCtx (a : Word) : Nat := bitsOf a 7 0
/-- R401: LCORE. -/
def migLc (a : Word) : Nat := bitsOf a 19 8

/-- R401: whether a move is under way that will take its logical core to a new place. -/
def Move.comes (m : Move) : Bool := decide (m.kind = .mig) && m.begun && decide (m.status = 0) && !m.b.getLsbD 12

/-- R401: the logical cores that moves under way bring to a physical core. -/
def State.arriving (s : State) (p : Nat) : List (Nat × LCore) :=
  (s.moves.filter fun m => m.comes && decide (bitsOf m.b 9 0 = p)).map fun m =>
    (migCtx m.a, s.lcOf (migCtx m.a) (migLc m.a))

/-- R406: whether a physical core is retired, or lies in a cluster of which a unit that its logical cores use is. -/
def State.retiredCore (s : State) (p : Nat) : Bool :=
  let unit (u : UnitKind) : Bool := s.retired.any fun x => decide (x.1 = u) && decide (clusterIdOf x.2 = clusterIdOf p)
  decide ((.core, p) ∈ s.retired) || decide ((.router, p) ∈ s.retired) || unit .matrix || unit .copy || unit .hurdle
    || (decide (1024 ≤ p) && unit .tsc)

/-- R159, R401, R406: whether a physical core can host one more logical core of a size, another than the one named: those
that moves under way bring count, and a retired core hosts none. -/
def State.hasRoom (s : State) (p ctx lc lsz : Nat) : Bool :=
  let other (x : Nat × LCore) : Bool := !(decide (x.1 = ctx) && decide (x.2.n = lc))
  let h := (s.hosted p).filter other ++ (s.arriving p).filter other
  decide (h.length < 4) && decide (h.foldl (fun n x => n + x.2.lsz) lsz ≤ 2 ^ 21) && !s.retiredCore p

/-! ### Shadows and alternate pairs (R354, R356) -/

/-- R363, R406: whether a compute core is in service. -/
def State.inService (s : State) (p : Nat) : Bool := decide (p < 1024) && !s.fencedCore p && !s.retiredCore p

/-- R354, R362: whether a core may be the shadow of a logical core whose primary lies at another: it is in service and has
room, in another cluster and fault rectangle, two hops away or more. -/
def State.shadowOk (s : State) (ctx : Nat) (l : LCore) (primary shadow : Nat) : Bool :=
  let k := clusterIdOf primary
  let q := clusterIdOf shadow
  s.inService shadow && decide (q ≠ k) && decide (2 ≤ hops primary shadow)
    && decide ((clusterDie q, s.rectOf q) ≠ (clusterDie k, s.rectOf k)) && s.hasRoom shadow ctx l.n l.lsz

/-- R356: whether two cores may be the alternate pair of a logical core. -/
def State.altOk (s : State) (a : Nat × Nat) : Bool := decide (a.1 ≠ a.2) && s.inService a.1 && s.inService a.2

/-- R354, R363: the new shadow of a logical core, which firmware's placement table names: any of the cores that may be it
(log entry 7). -/
def State.newShadow (s : State) (ctx : Nat) (l : LCore) : Option Nat :=
  let all := (List.range 1024).filter (s.shadowOk ctx l l.pcore)
  all[(Config.freeWord s.fresh).toNat % max 1 all.length]?

/-- R356: the new alternate pair of a logical core, which firmware's placement table names (log entry 7). -/
def State.newPair (s : State) : Nat × Nat :=
  let all := (List.range 1024).filter s.inService
  let i := (Config.freeWord (s.fresh + 1)).toNat
  (all.getD (i % max 1 all.length) 0, all.getD ((i + 1) % max 1 all.length) 0)

/-- R354: a firing runs on two copies only while its logical core is dual. -/
def State.matchDual (s : State) (ctx lc : Nat) : State :=
  let fix (x : Firing) : Firing :=
    if x.ctx = ctx ∧ x.lc = lc then { x with dual := x.dual && (s.lcOf ctx lc).dual } else x
  { s with ready := s.ready.map fix, susp := s.susp.map fun x => { x with firing := fix x.firing } }

/-- R354, R356, R362: firmware names another shadow, or another alternate pair, for a dual logical core whose own may not be it
any more; the open chunks of its dual firings are lost. Without a core that may be the shadow the logical core is dual no
more (log entry 33). -/
def State.keepShadow (s : State) (ctx n : Nat) : State :=
  let l := s.lcOf ctx n
  let kept := s.shadowOk ctx l l.pcore l.shadow
  if !l.valid || l.out || !l.dual || kept && s.altOk l.alt then s
  else
    let s1 := s.preempt fun f => f.firing.dual && decide (f.firing.ctx = ctx) && decide (f.firing.lc = n)
    let q := if kept then some l.shadow else s.newShadow ctx l
    let a := if s.altOk l.alt then l.alt else s.newPair
    { s1.setLc ctx { l with shadow := q.getD l.pcore, dual := q.isSome, alt := a } with fresh := s.fresh + 2 }.matchDual ctx n

/-- R354, R356, R362: firmware renames the shadows and the alternate pairs that placement no longer allows. -/
def State.keepShadows (s : State) : State :=
  (s.ctxs.map fun c => c.lcores.map fun l => (c.id, l.n)).flatten.foldl (fun s p => s.keepShadow p.1 p.2) s

/-! ### Translations -/

/-- R278: whether an invalidation removes an entry; an address above those that entries cover removes none. -/
def tlbInvHits (a b : Word) (e : TlbEntry) : Bool :=
  match bitsOf a 9 8 with
  | 0 => decide (e.ctx = bitsOf a 7 0) && decide (bitsOf b 63 47 = 0) && e.covers b
  | 1 => decide (e.ctx = bitsOf a 7 0)
  | 2 => decide (bitsOf b 63 40 = 0) &&
    (if e.big then decide (bitsOf e.b 39 21 = bitsOf b 39 21) else decide (bitsOf e.b 39 16 = bitsOf b 39 16))
  | _ => true

/-- R278: the entries of a cluster TLB go, and its epoch rises. -/
def Cluster.invalidate (c : Cluster) (a b : Word) : Cluster :=
  { c with tlb := c.tlb.filter fun e => !tlbInvHits a b e, epoch := c.epoch + 1 }

/-- R278: the chosen clusters remove the entries from their TLB and their cores' TLBs and raise their epochs. -/
def State.tlbInvalidate (s : State) (which : Nat → Bool) (a b : Word) : State :=
  let named := (List.range 128).filter which
  let s1 := named.foldl (fun s n => s.setCluster ((s.clusterOf n).invalidate a b)) s
  let s2 : State := { s1 with
    cores := s1.cores.map fun c =>
      if which (clusterIdOf c.id) then { c with tlb := c.tlb.filter fun e => !tlbInvHits a b e } else c }
  s2.touch (named.map Loc.epoch) fun _ => true

/-! ### Beginning a stop or a move (R398, R401) -/

/-- R398, steps 1 and 2: every remap entry takes OUT = 1, and every uncommitted chunk of the context is squashed and its
slot freed. A context that a gang stop had halted is stopped from now on: its messages go to the inbox. -/
def State.beginStop (s : State) (ctx : Nat) : State :=
  let c := s.ctxOf ctx
  (s.setCtx { c with
    halted := false
    lcores := c.lcores.map fun l =>
      if l.valid && !l.out then { l with out := true, stopOut := true, outAt := s.cycle } else l }).preempt
    fun f => decide (f.firing.ctx = ctx)

/-- R401, R406: the status of a move as it stands now; a retired core has no room. -/
def State.migStatus (s : State) (a b : Word) : Nat :=
  let l := s.lcOf (migCtx a) (migLc a)
  if b.getLsbD 12 then (if l.out then 3 else 0)
  else if l.out = false ∧ l.pcore = bitsOf b 9 0 ∧ l.hidx = bitsOf b 11 10 then 3
  else if !s.hasRoom (bitsOf b 9 0) (migCtx a) (migLc a) l.lsz then 1
  else if s.fencedCore (bitsOf b 9 0) then 2
  else 0

/-- R345: how many relay entries the moves under way will take at a router. -/
def State.relaysDue (s : State) (p : Nat) : Nat :=
  (s.moves.filter fun m => m.comes && (let l := s.lcOf (migCtx m.a) (migLc m.a); !l.out && decide (l.pcore = p))).length

/-- R345, R401: whether a move may start: no other move of the logical core is under way, and its old router has a free
relay entry where one is needed, beside those that moves under way will take. -/
def State.migMayStart (s : State) (a b : Word) : Bool :=
  let l := s.lcOf (migCtx a) (migLc a)
  !l.moving && (b.getLsbD 12 || l.out || decide ((s.coreOf l.pcore).relay.length + s.relaysDue l.pcore < 8))

/-- R401, step 1: a move begins; one with another status than DONE leaves the logical core where it is. -/
def State.beginMig (s : State) (m : Move) : State × Move :=
  let st := s.migStatus m.a m.b
  if st ≠ 0 then (s, { m with begun := true, status := st })
  else
    let l := s.lcOf (migCtx m.a) (migLc m.a)
    ((s.setLc (migCtx m.a) { l with moving := true }).preempt fun f =>
        decide (f.firing.ctx = migCtx m.a) && decide (f.firing.lc = migLc m.a),
      { m with begun := true })

/-- R398: a stop waits for the migrations of the context's logical cores, those that still wait to start among them. -/
def State.migUnderWay (s : State) (ctx : Nat) : Bool :=
  s.moves.any fun m => decide (m.kind = .mig) && decide (m.status = 0) && decide (migCtx m.a = ctx)

/-- R398 to R401: begins one placement command where it can. -/
def State.startMove (s : State) (m : Move) : State × Move :=
  if m.begun then (s, m)
  else match m.kind with
    | .go => (s, { m with begun := true })
    | .stop => if s.migUnderWay (bitsOf m.a 7 0) then (s, m) else (s.beginStop (bitsOf m.a 7 0), { m with begun := true })
    | .mig => if s.migMayStart m.a m.b then s.beginMig m else (s, m)

/-- R398 to R401: begins every placement command that can begin, in order; done holds those already looked at. -/
def State.startFrom (s : State) (done : List Move) : List Move → State
  | [] => { s with moves := done }
  | m :: t =>
    let r := ({ s with moves := done ++ m :: t }).startMove m
    r.1.startFrom (done ++ [r.2]) t

/-- R398 to R401: begins every placement command that can begin. -/
def State.startMoves (s : State) : State := s.startFrom [] s.moves

/-! ### The privileged instructions of placement (R407, R398, R399, R401, R415) -/

/-- R407: the rectangle table as the chunk sees it. -/
def State.rectsSeen (s : State) (f : Slot) : List (Nat × Nat) :=
  f.chunk.held.foldl (fun t h => match h with
    | .sys 36 a b => rectApply t a b
    | _ => t) s.rects

/-- R407: whether the clusters of a die that hold an index form a rectangle. -/
def rectWhole (rectOf : Nat → Nat) (die i : Nat) : Bool :=
  let cells := ((List.range 8).map fun r => (List.range 4).map fun c => (r, c)).flatten.filter fun p =>
    rectOf (dieCluster die p.1 p.2) = i
  let rows := cells.map fun p => p.1
  let cols := cells.map fun p => p.2
  match rows, cols with
  | r0 :: _, c0 :: _ =>
    let h := rows.foldl max r0 + 1 - rows.foldl min r0
    let w := cols.foldl max c0 + 1 - cols.foldl min c0
    decide (cells.length = h * w)
  | _, _ => true

/-- R407: RECT.SET, held; the table enters the read set. -/
def execRectSet (s : Bool) (a b : BitVec 5) (st : State) : Out :=
  let f := st.focus
  let x := f.gr a
  let y := f.gr b
  let seen := st.rectsSeen f
  let old (c : Nat) : Nat := ({ st with rects := seen } : State).rectOf c
  let new (c : Nat) : Nat := ({ st with rects := rectApply seen x y } : State).rectOf c
  let die := bitsOf x 1 0
  privileged st (
    if decide (bitsOf x 63 7 ≠ 0) || decide (bitsOf y 63 10 ≠ 0) || decide (bitsOf y 5 3 < bitsOf y 2 0)
        || decide (bitsOf y 9 8 < bitsOf y 7 6) || !((List.range 32).all fun i => rectWhole new die i)
        || st.rectMeetsFence old x y then exc2 .illop x y
    else .ok ((((((List.range 8).map fun r => (List.range 4).map fun c => dieCluster die r c).flatten.foldl
      (fun f c => f.addRead (.rect c)) f).hold (.sys 36 x y)).advance s)))

/-- R393: STATE of a context's descriptor as the chunk sees it: its own store to the word and its own held stop count. -/
def State.stateSeen (st : State) (f : Slot) (ctx : Nat) : Nat :=
  f.chunk.held.foldl (fun n h => match h with
    | .sys 38 a _ => if bitsOf a 7 0 = ctx then 2 else n
    | _ => n) (match bufRead f.chunk.wbuf (descKey ctx) with
    | some b => b.toNat % 4
    | none => (st.ctxOf ctx).state)

/-- R182, R393: a context's descriptor enters the read set. -/
def Slot.readDesc (f : Slot) (ctx : Nat) : Slot := (f.addRead (.desc ctx)).addReadBytes (descKey ctx) 1

/-- R401: MIG.GO, held. -/
def execMigGo (s : Bool) (a b : BitVec 5) (st : State) : Out :=
  let f := st.focus
  let x := f.gr a
  let y := f.gr b
  privileged st (
    if decide (bitsOf x 63 20 ≠ 0) || decide (bitsOf y 17 13 ≠ 0) || decide (bitsOf y 63 24 ≠ 0)
        || decide (62 ≤ bitsOf y 23 18) || decide (st.stateSeen f (migCtx x) ≠ 1)
        || !(st.ctxOf (migCtx x)).defines (migLc x) then exc2 .illop x y
    else .ok (((f.readDesc (migCtx x)).hold (.sys 37 x y)).advance s))

/-- R398: CTX.STOP, held; the descriptor enters the read set. -/
def execCtxStop (s : Bool) (a : BitVec 5) (st : State) : Out :=
  let f := st.focus
  let x := f.gr a
  let n := st.stateSeen f (bitsOf x 7 0)
  privileged st (
    if decide (bitsOf x 63 14 ≠ 0) || decide (62 ≤ bitsOf x 13 8) || decide (bitsOf x 7 0 = 0)
        || decide (n ≠ 1 ∧ n ≠ 3) then excAt .illop x
    else .ok (((f.readDesc (bitsOf x 7 0)).hold (.sys 38 x 0)).advance s))

/-- R399: CTX.GO, held; the descriptor enters the read set. -/
def execCtxGo (s : Bool) (a b : BitVec 5) (st : State) : Out :=
  let f := st.focus
  let x := f.gr a
  let y := f.gr b
  let n := st.stateSeen f (bitsOf x 7 0)
  privileged st (
    if decide (bitsOf x 63 14 ≠ 0) || decide (bitsOf y 12 0 ≠ 0) || decide (n = 3 ∧ y ≠ 0) || decide (n = 2 ∧ y = 0)
        || decide (n = 0 ∨ n = 1) then exc2 .illop x y
    else .ok (((f.readDesc (bitsOf x 7 0)).hold (.sys 39 x y)).advance s))

end Sys2Proof.Machine
end

