-- ==== Sys2Proof/Machine/Commit.lean ====
section
/-! DEFINITION. The Commit step (R184): its conditions, the writes to M, the held table writes, the watch group, the
releases, and what the slot does next (R122, R192, R195, R231), with dual compare (R354 to R356) and the digest log
(R402 to R404). -/

namespace Sys2Proof.Machine

/-! ### Writes to M -/

/-- R217: the bytes a posted atomic writes on a memory, and its flags. -/
def pamoWrite (m : List Host.Cell) (op : AmoOp) (size key : Nat) (x : Word) : List Host.Cell × Word :=
  let r := amoNew op size (cellNat m key size) x 0
  ((List.range size).map fun i => (key + i, BitVec.ofNat 8 (r.1 >>> (8 * i))), r.2)

/-- R184, R217: the bytes of the held posted atomics, in program order, and the flags of posted FADDs. -/
def pamoCells (m : List Host.Cell) : List Held → List Host.Cell × Word
  | [] => ([], 0)
  | .pamo op size key _ x :: t =>
    let r := pamoWrite m op size key x
    let u := pamoCells (cellWriteAll m r.1) t
    (r.1 ++ u.1, r.2 ||| u.2)
  | _ :: t => pamoCells m t

/-- The keys of n bytes at a virtual address of a context, by the committed tables; none where the walk fails. -/
def State.vaKeys (s : State) (ctx : Nat) (va : Word) (n : Nat) : Option (List Nat) :=
  (s.walk ctx va).map fun e => (List.range n).map fun i => s.home (e.pa va + i)

/-- R259: the bytes of a held law entry. -/
def State.lawCells (s : State) (c : Ctx) (i : Nat) (l : List Byte) : List Host.Cell :=
  match s.vaKeys c.id (c.lawAddr i) 32 with
  | some ks => ks.zip l
  | none => []

/-- R184, R259: the bytes of the held law entries. -/
def State.heldLawCells (s : State) (c : Ctx) (l : List Held) : List Host.Cell :=
  (l.map fun h => match h with
    | .lawWr i img => s.lawCells c i img
    | _ => []).flatten

/-! ### Held table writes -/

/-- R132: a chunk that is open, or not yet committed, keeps the bases that a commit is about to change. -/
def Chunk.keepBases (k : Chunk) (c : Ctx) : Chunk :=
  if k.bases.isNone then { k with bases := some (c.lawbase, c.objbase, c.trapsv) } else k

/-- R132, R192, R195: the chunks of a context that are open keep its bases where a table base is written: CSRs 0x026, 0x027 and 0x803. -/
def State.keepBases (s : State) (ctx num : Nat) : State :=
  if num = 0x026 ∨ num = 0x027 ∨ num = 0x803 then
    s.mapSlots fun f => if f.active && !f.opening && decide (f.firing.ctx = ctx) then
        { f with chunk := f.chunk.keepBases (s.ctxOf ctx), startChunk := f.startChunk.keepBases (s.ctxOf ctx) }
      else f
  else s

/-- R130, R132: a committed context CSR takes a value. -/
def Ctx.setCsr (c : Ctx) (num : Nat) (v : Word) : Ctx :=
  match num with
  | 0x020 => { c with specwin := v }
  | 0x022 => { c with trapch := v }
  | 0x023 => { c with almdrop := v }
  | 0x026 => { c with lawbase := v }
  | 0x027 => { c with objbase := v }
  | 0x803 => { c with trapsv := v }
  | _ => c

/-- R131, R256: ALMDROP + 1, holding at its maximum. -/
def Ctx.countDrop (c : Ctx) : Ctx := { c with almdrop := if c.almdrop = BitVec.allOnes 64 then c.almdrop else c.almdrop + 1 }

/-- R166, R228: a table entry under a write of words 0 to 2, and the messages it discards. -/
def TTEntry.rewrite (e : TTEntry) (w0 w1 w2 : Word) : TTEntry × List Msg :=
  let e1 : TTEntry := { e with w0 := w0, w1 := w1, w2 := w2 }
  let moved := decide (e1.fbase ≠ e.fbase) || decide (e1.fdepth ≠ e.fdepth)
  let out := (e.q.filter fun x => x.st = .queued).map fun x => x.msg
  if moved then ({ e1 with q := [], head := 0, gen := e.gen + 1 }, out)
  else if e1.off then
    let p := passFreed e.fdepth e.head (e.q.filter fun x => x.st ≠ .queued)
    ({ e1 with head := p.1, q := p.2 }, out)
  else (e1, [])

/-- R228: TT.WR at its commit; each discarded message is refused with INFO1 = 1. -/
def State.writeEntry (s : State) (ctx : Nat) (sel w0 w1 w2 : Word) : State :=
  let l := s.lcOf ctx (selLc sel)
  let r := (l.ttOf (selCh sel)).rewrite w0 w1 w2
  r.2.foldl (fun s m => s.refuse m 1) (s.setLc ctx (l.setTt (selCh sel) r.1))

/-- R315, R316: a hurdle register at its commit; the commit that enables a set clears its statistics and counters. -/
def State.writeHs (s : State) (ctx lcl : Nat) (sel v : Word) : State :=
  let c := s.ctxOf ctx
  let h := c.hurdle lcl
  let set := hsSet sel
  let enables := decide (hsRegNum sel = 0) && v.getLsbD 0 && !(h.reg set 0).getLsbD 0
  let h1 : HRouter := { h with regs := setKey h.regs (64 * set + hsRegNum sel) v }
  let h2 := if enables then { h1 with stats := setKey h1.stats set {} } else h1
  let c1 : Ctx := { c with hurdles := setKey c.hurdles lcl h2 }
  if enables then
    s.setCtx { c1 with lcores := c1.lcores.map fun l =>
      if l.n / 8 = lcl then { l with hsCount := setKey l.hsCount set 0 } else l }
  else s.setCtx c1

/-- R349: RED.CFG at its commit: contributions under the old configuration that no delivered result combines are discarded
and counted. -/
def State.writeRed (s : State) (ctx : Nat) (a b : Word) : State :=
  let c := s.ctxOf ctx
  let group := bitsOf a 5 0
  let g := c.redOf group
  let mine (m : Msg) : Bool := decide (m.ctx = ctx) && (match m.kind with
    | .reduction n _ => decide (n = group)
    | _ => false)
  let result (m : Msg) : Bool := decide (m.ctx = ctx) && (match m.kind with
    | .redResult n _ => decide (n = group)
    | _ => false)
  let lost := g.got.length + (s.net.filter mine).length
  let off := a.getLsbD 29
  let g1 : RedGroup := { on := !off, cfgA := if off then 0x20000000#64 else a, cfgB := if off then 0 else b
                         disc := min (g.disc + lost) (2 ^ 16 - 1) }
  { s.setCtx { c with reds := setKey c.reds group g1 } with net := s.net.filter fun m => !mine m && !result m }

/-- R405: the bytes of entry 255 of context 0's law table; none where nothing maps them. -/
def State.scoreLawKeys (s : State) : Option (List Nat) := s.spanKeys 0 ((s.ctxOf 0).lawAddr 255) 32 fun _ => true

/-- R405: the entry of the scores is what bytes of M hold. -/
def State.takeLaw (s : State) (keys : List Nat) : State :=
  { s with law255 := leNat (keys.map (cellRead s.mem)), lawAhead := false }

/-- R405: entry 255 of context 0's law table as a write to M leaves it. -/
def State.refreshLaw (s : State) (keys : List Nat) : State :=
  match s.scoreLawKeys with
  | some ks => if ks.any fun k => k ∈ keys then s.takeLaw ks else s
  | none => s

/-- R405: the default entry of the scores is written as soon as context 0's law table maps its place; an entry that firmware has
put there first stays (log entry 109). -/
def State.placeLaw (s : State) : State :=
  if !s.lawAhead then s
  else match s.scoreLawKeys with
    | none => s
    | some ks =>
      if ks.any fun k => cellRead s.mem k ≠ 0 then s.takeLaw ks
      else { s.logWrite s.ownAttr (ks.zip (leBytes 32 s.law255)) with lawAhead := false }

/-- R132, R405: the law table of context 0 has moved: the entry of the scores is the one that the new table holds. -/
def State.moveLaw (s : State) : State :=
  if s.lawAhead then s
  else match s.scoreLawKeys with
    | some ks => s.takeLaw ks
    | none => s

/-- R393, R405, R411: what a write to M changed in the tables that hardware has copies of. -/
def State.refreshAll (s : State) (keys : List Nat) : State := (s.refresh keys).refreshLaw keys

/-- R184: one held write of a table, a register or a counter of the context. -/
def State.applyHeld (s : State) (f : Slot) (h : Held) : State :=
  let ctx := f.firing.ctx
  let lc := f.firing.lc
  let c := s.ctxOf ctx
  let l := c.lcOf lc
  match h with
  | .csr cc num v =>
    let t := (s.keepBases cc num).setCtx ((s.ctxOf cc).setCsr num v)
    if cc = 0 ∧ num = 0x026 then t.moveLaw else t
  | .fmt k x y => s.setLc ctx { l with fmt := setKey l.fmt k (x, y) }
  | .ttWr sel w0 w1 w2 => s.writeEntry ctx sel w0 w1 w2
  | .ttBlk sel blk =>
    let m := c.lcOf (selLc sel)
    let e := m.ttOf (selCh sel)
    s.setLc ctx (m.setTt (selCh sel) { e with w1 := withBlk e.w1 blk })
  | .dgMode m => s.setCtx { c with dgMode := m }
  | .tileDef d => s.setLc ctx (l.setTile (tileDefIndex d) { w0 := tileDefWord d })
  | .tileSt t st => s.setLc ctx (l.setTile t ((l.tileOf t).withState st))
  | .tileSat t sat nan =>
    let e := l.tileOf t
    s.setLc ctx (l.setTile t { e with sat := e.sat - sat, nan := e.nan - nan })
  | .hsWr sel v => s.writeHs ctx f.lcl sel v
  | .hsEnt set _ _ => s.setLc ctx { l with hsCount := setKey l.hsCount set (lookupD l.hsCount set 0 + 1) }
  | .almDrop => s.setCtx c.countDrop
  | .egWr n v => s.setLc ctx { l with eg := setKey l.eg n v }
  | .job j => if j.engine = .matrix then s.setLc ctx { l with nextJob := (l.nextJob + 1) % 2 ^ 16 } else s
  | .barCfg id n =>
    if c.farBarrier id then
      (s.setCtx (c.setBar 0 id { c.barOf 0 id with part := n })).postFabric (barMsg ctx id c.lowPkg (.farCfg id n))
    else s.configBarrier ctx (barOwner lc id) id n
  | .redCfg a b => s.writeRed ctx a b
  | .wgClr wg mask => s.setCtx (c.setWatch (some (clusterIdOf f.core)) wg
      ((c.watchOf (some (clusterIdOf f.core)) wg).clear mask))
  | .sys 32 a b =>
    let k := s.clusterOf (clusterIdOf f.core)
    s.setCluster { k with tlb := tlbInsert 1024 k.tlb ⟨a, b⟩ }
  | .sys 33 a b => s.tlbInvalidate (fun c => decide (c = clusterIdOf f.core)) a b
  | .sys 36 a b => { s with rects := rectApply s.rects a b }
  | .sys 37 a b => { s with moves := s.moves ++ [⟨.mig, lc, a, b, f.firing.fid, f.firing.fts, f.firing.ch, false, 0, f.core⟩] }
  | .sys 38 a b => { s.putDesc { s.ctxOf (bitsOf a 7 0) with state := 2 } with
      moves := s.moves ++ [⟨.stop, lc, a, b, f.firing.fid, f.firing.fts, f.firing.ch, false, 0, f.core⟩] }
  | .sys 39 a b => { s with moves := s.moves ++ [⟨.go, lc, a, b, f.firing.fid, f.firing.fts, f.firing.ch, false, 0, f.core⟩] }
  | _ => s

/-- R182, R184: the words that a held write changes, for the conflicts of other chunks. -/
def State.heldLocs (_s : State) (f : Slot) (h : Held) : List Loc :=
  let ctx := f.firing.ctx
  let lc := f.firing.lc
  match h with
  | .csr c n _ => [.csr c n]
  | .fmt k _ _ => [.fmt ctx lc k]
  | .ttWr sel _ _ _ => [.tt ctx (selLc sel) (selCh sel)]
  | .ttBlk sel _ => [.tt ctx (selLc sel) (selCh sel)]
  | .dgMode _ => [.dgMode ctx]
  | .tileDef d => [.tile ctx lc (tileDefIndex d)]
  | .tileSt t _ => [.tile ctx lc t]
  | .hsWr sel _ => .hs ctx f.lcl (hsSet sel) (hsRegNum sel) ::
      (if hsRegNum sel = 0 then (List.range 8).map fun k => .counter ctx (8 * f.lcl + k) (1 + hsSet sel) else [])
  | .hsEnt set _ _ => [.counter ctx lc (1 + set)]
  | .clkAdv k _ => [.clock ctx k]
  | .almDrop => [.csr ctx 0x023]
  | .egWr n _ => [.eg ctx lc n]
  | .job j => if j.engine = .matrix then [.counter ctx lc 0] else []
  | .barCfg id _ => [f.partLoc id]
  | .redCfg a _ => [.red ctx (bitsOf a 5 0)]
  | .sys 33 _ _ => [.epoch (clusterIdOf f.core)]
  | .sys 36 a b => (rectClusters a b).map fun c => .rect c
  | .sys 38 a _ => descLocs (bitsOf a 7 0)
  | _ => []

/-! ### Step alarms (R255) -/

/-- R255: queues an alarm of a step clock; a full queue drops it. -/
def State.queueAlarm (s : State) (ctx : Nat) (a : Alarm) : State :=
  let c := s.ctxOf ctx
  if 4096 ≤ c.alarmQ.length then (s.setCtx c.countDrop).touch [.csr ctx 0x023] fun _ => true
  else s.setCtx { c with alarmQ := c.alarmQ ++ [a] }

/-- R254, R255: an alarm that hardware arms, beside a chunk: released at once on the time base, queued on a step clock. -/
def State.sendAlarm (s : State) (ctx : Nat) (a : Alarm) : State :=
  if a.clk = 0 then s.releaseAlarm (alarmMsg ctx a) else s.queueAlarm ctx a

/-- R255: whether a due value lies in (c0, c0 + n] of a clock. -/
def dueIn (c0 n due : Word) : Bool := decide (due ≠ c0) && decide ((due - c0).toNat ≤ n.toNat)

/-- R255, R260: an advance of a step clock and the alarms it releases. -/
def State.advanceClock (s : State) (ctx k : Nat) (n : Word) : State × List Alarm :=
  let c := s.ctxOf ctx
  let c0 := c.stepOf k
  let due (a : Alarm) : Bool := decide (a.clk = k) && dueIn c0 n a.due
  (s.setCtx { c with steps := setKey c.steps k (c0 + n), alarmQ := c.alarmQ.filter fun a => !due a },
    (c.alarmQ.filter due).foldl (fun l a => insertDue a l) [])

/-- R255: a commit queues its own step alarms in program order, then applies its advances; the alarms that go out. -/
def State.stepAlarms (s : State) (ctx : Nat) (l : List Held) : State × List Alarm :=
  let s1 := l.foldl (fun s h => match h with
    | .alarm a => if a.clk = 0 then s else s.queueAlarm ctx a
    | _ => s) s
  l.foldl (fun r h => match h with
    | .clkAdv k n =>
      let q := r.1.advanceClock ctx k n
      (q.1, r.2 ++ q.2)
    | _ => r) (s1, [])

/-! ### The digest log (R402 to R404) -/

/-- R404: whether a chunk ended its firing. -/
def Slot.ends (f : Slot) : Bool := decide (f.chunk.closed = some .fin) || decide (f.chunk.closed = some .skip)

/-- R403: the log index of a firing. -/
def Firing.logIndex (x : Firing) : Nat := if x.isGang then 8 * (x.seq % 2 ^ 32) + x.gang else x.seq % 2 ^ 32

/-- R403: the key of a firing's log entry; none where it is not logged, with a mark where a read failed. -/
def State.digestEntry (s : State) (x : Firing) : Option Nat × Bool :=
  let c := s.ctxOf x.ctx
  let readable (ks : List Nat) : Bool := ks.all fun k => !(inPoison s.poison k || frameAbsent k)
  if c.dlBase = 0 then (none, false)
  else match s.spanKeys x.ctx (BitVec.ofNat 64 (c.dlBase + 16 * x.actor)) 16 TlbEntry.r with
    | none => (none, true)
    | some ks =>
      let header := ks.map (cellRead s.mem)
      let base := leNat (header.take 8) % 2 ^ 56
      let count := leNat ((header.drop 8).take 4)
      if !readable ks then (none, true)
      else if base = 0 ∨ count ≤ x.logIndex then (none, false)
      else match s.spanKeys x.ctx (BitVec.ofNat 64 (base + 8 * x.logIndex)) 8 TlbEntry.r with
        | none => (none, true)
        | some es => if readable es then (es.head?, false) else (none, true)

/-- R402: the firing digest after a commit. -/
def nextDigest (fd hash : Word) : Word := mix64 (fd ^^^ hash)

/-- R379, R403: an end commit under RECORD or VERIFY reads the header of its actor's log and its entry. -/
def State.readDigest (s : State) (f : Slot) : State :=
  let x := f.firing
  let c := s.ctxOf x.ctx
  if f.ends = false ∨ c.dgMode = 0 ∨ c.dlBase = 0 then s
  else
    let t := s.readSpan (clusterIdOf f.core) x.ctx (BitVec.ofNat 64 (c.dlBase + 16 * x.actor)) 16
    match (t.digestEntry x).1 with
    | some k => t.deviceRead x.ctx (clusterIdOf f.core) ((List.range 8).map (k + ·))
    | none => t

/-- R404: the recorded and computed digests of an end commit in VERIFY mode, where they differ. -/
def State.digestFails (s : State) (f : Slot) : Option (Word × Word) :=
  if f.ends = true ∧ (s.ctxOf f.firing.ctx).dgMode = 2 then
    match (s.digestEntry f.firing).1 with
    | none => none
    | some k =>
      let old : Word := BitVec.ofNat 64 (cellNat s.mem k 8)
      let new := nextDigest f.firing.digest (s.effectHash f)
      if old = new then none else some (old, new)
  else none

/-- R404: the bytes that an end commit records. -/
def State.recordCells (s : State) (f : Slot) (fd : Word) : List Host.Cell :=
  if f.ends = true ∧ (s.ctxOf f.firing.ctx).dgMode = 1 then
    match (s.digestEntry f.firing).1 with
    | none => []
    | some k => (List.range 8).map fun i => (k + i, BitVec.ofNat 8 (fd.toNat >>> (8 * i)))
  else []

/-- R403: a log read that failed sends a management record. -/
def State.reportLogFault (s : State) (f : Slot) : State :=
  if f.ends = true ∧ (s.ctxOf f.firing.ctx).dgMode ≠ 0 ∧ (s.digestEntry f.firing).2 = true then
    s.report { kind := 2, sev := 1, ctx := f.firing.ctx, lcore := f.firing.lc, unit := 0, num := f.core, payload := [] }
  else s

/-! ### The conditions of a commit -/

/-- R266: how many commands of an engine held effects have. -/
def heldJobs (e : Engine) (l : List Held) : Nat :=
  (l.filter fun h => match h with
    | .job j => decide (j.engine = e)
    | _ => false).length

/-- R266: whether a held effect is a command that joins a queue of a physical core. -/
def Held.queuesOn (p : Nat) : Held → Bool
  | .job j => decide (j.pcore = p)
  | _ => false

/-- R266: how many commands of an engine a physical core has that are not yet taken, with those whose release waits (R184). -/
def State.queued (s : State) (e : Engine) (p : Nat) : Nat :=
  (s.jobs.filter fun j => decide (j.engine = e) && decide (j.pcore = p) && decide (j.st = 1)).length
    + (s.relQ.map fun r => heldJobs e (r.held.filter (Held.queuesOn p))).sum

/-- R266: whether no core has more commands than an engine's queue holds for it. -/
def State.queuesFit (s : State) (p : Nat) : Bool := decide (s.queued .matrix p ≤ 8) && decide (s.queued .copy p ≤ 8)

/-- R266: how many commands of an engine a chunk holds. -/
def Slot.holds (f : Slot) (e : Engine) : Nat := heldJobs e f.chunk.held

/-- R318: how many hurdle entries a chunk holds. -/
def Slot.holdsEntries (f : Slot) : Nat :=
  (f.chunk.held.filter fun h => match h with
    | .hsEnt _ _ _ => true
    | _ => false).length

/-- R266, R318: whether every queue has room for what a chunk holds. -/
def State.queuesAdmit (s : State) (f : Slot) : Bool :=
  (decide (f.holds .matrix = 0) || decide (s.queued .matrix f.core + f.holds .matrix ≤ 8))
    && (decide (f.holds .copy = 0) || decide (s.queued .copy f.core + f.holds .copy ≤ 8))
    && (decide (f.holdsEntries = 0) || decide (f.holdsEntries ≤ ((s.ctxOf f.firing.ctx).hurdle f.lcl).free))

/-- R407: a RECT.SET waits for a fence that arose after its issue. -/
def State.rectsAdmit (s : State) (f : Slot) : Bool :=
  f.chunk.held.all fun h => match h with
    | .sys 36 a b => !s.rectMeetsFence s.rectOf a b
    | _ => true

/-- R217, R379: the bytes that the posted atomics of a chunk read at its commit. -/
def Slot.postedKeys (f : Slot) : List Nat := (f.chunk.held.map fun h => match h with
  | .pamo _ size key _ _ => (List.range size).map fun i => key + i
  | _ => []).flatten

/-- The bytes of M that a chunk writes. -/
def Slot.writtenKeys (f : Slot) : List Nat := (f.chunk.wbuf.map fun c => c.1) ++ f.postedKeys

/-! ### The Commit step -/

/-- R184: the order of releases: sends, stores and commands in program order, then alarms, then the step alarms that came
due. -/
def releaseOrder (ctx : Nat) (held : List Held) (due : List Alarm) : List Held :=
  let isAlarm (h : Held) : Bool := match h with
    | .alarm _ => true
    | _ => false
  held.filter (fun h => !isAlarm h) ++ held.filter isAlarm ++ due.map fun a => .send (alarmMsg ctx a)

/-- R184: the firing after a commit. -/
def Firing.afterCommit (x : Firing) (hash : Word) : Firing :=
  { x with digest := nextDigest x.digest hash, committed := true, commits := x.commits + 1, waits := [], alarm := none
           serial := false, verdict := x.verdict, squashes := 0 }

/-- R325: whether a chunk held the verdict. -/
def Slot.heldVerdict (f : Slot) : Bool := f.chunk.held.any fun h => match h with
  | .hsVerdict _ _ _ => true
  | _ => false

/-- R195, R421: the phase a firing records at its arrival; far is the number of an arrival that travels to another package, where
its phase is not yet known. -/
def Firing.recordPhase (x : Firing) (id : Nat) (phase : Bool) (far : Option Nat) : Firing :=
  { x with phases := (id, phase) :: x.phases.filter fun p => p.1 ≠ id
           farArr := (far.toList.map fun n => (id, n)) ++ x.farArr.filter fun p => p.1 ≠ id }

/-- R192, R195, R231: a slot whose chunk has committed and whose firing goes on; its next chunk may have to wait before it
opens. -/
def Slot.reopen (f : Slot) (x : Firing) (phase : Bool) (far : Option Nat) : Slot :=
  let g := { f with firing := x }.openChunk
  match f.chunk.closed with
  | some (.fence sc) => if sc < 4 then g else { g with wait := .fence sc, opening := true }
  | some (.arrive id wait _) =>
    let h : Slot := { g with firing := x.recordPhase id phase far }
    if wait then { h with wait := .barrier id phase, opening := true } else h
  | _ => g

/-- R122, R256: what a slot does after its commit: it is freed, or its next chunk opens. -/
def State.nextChunk (s : State) (f : Slot) (x : Firing) (phase : Bool) (far : Option Nat) : State :=
  let s1 := s.leaveExcl f.core f.k
  if f.ends then (s1.endFiring x).freeSlot f else s1.setSlot (f.reopen x phase far)

/-- R195, R310: the arrival of a chunk's arrive form. -/
def State.arriveOf (s : State) (f : Slot) : State :=
  match f.chunk.closed with
  | some (.arrive id _ notify) =>
    s.arrive f.firing.ctx (barOwner f.firing.lc id) id (match notify with
      | some w => [(if w.getLsbD 18 then bitsOf w 17 6 else f.firing.lc, bitsOf w 5 0)]
      | none => [])
  | _ => s

/-- R195: the phase of the barrier on which a chunk arrives, before the arrival. -/
def State.phaseAt (s : State) (f : Slot) : Bool :=
  match f.chunk.closed with
  | some (.arrive id _ _) => ((s.ctxOf f.firing.ctx).barOf (barOwner f.firing.lc id) id).phase
  | _ => false

/-- R421: the number of the arrival of a chunk on a barrier that another package holds. -/
def State.farArrival (s : State) (f : Slot) : Option Nat :=
  let c := s.ctxOf f.firing.ctx
  match f.chunk.closed with
  | some (.arrive id _ _) => if c.farBarrier id then some ((c.barOf 0 id).sent + 1) else none
  | _ => none

/-- R184: everything a commit writes to M, in order, and the flags of its posted FADDs. -/
def State.commitCells (s : State) (f : Slot) (fd : Word) : List Host.Cell × Word :=
  let p := pamoCells (cellWriteAll s.mem f.chunk.wbuf) f.chunk.held
  (f.chunk.wbuf ++ p.1 ++ s.heldLawCells (s.ctxFor f) f.chunk.held ++ s.recordCells f fd, p.2)

/-- R255: the count of dropped alarms, where a chunk's step alarms overflow the queue of its context. -/
def State.dropLocs (s : State) (f : Slot) : List Loc :=
  let n := (f.chunk.held.filter fun h => match h with
    | .alarm a => decide (a.clk ≠ 0)
    | _ => false).length
  if n ≠ 0 ∧ 4096 < (s.ctxOf f.firing.ctx).alarmQ.length + n then [.csr f.firing.ctx 0x023] else []

/-- R182, R184: every word that the commit of a chunk writes. -/
def State.commitLocs (s : State) (f : Slot) : List Loc :=
  ((s.commitCells f f.firing.digest).1.map fun c => Loc.byte c.1) ++ (f.chunk.held.map (s.heldLocs f)).flatten
    ++ s.dropLocs f

/-- R184, R200, R266: whether the closed chunk of the focus may commit, apart from the dual and digest checks. -/
def State.mayCommit (s : State) : Bool :=
  let f := s.focus
  f.active && f.chunk.closed.isSome && !f.chunk.doomed && (s.ctxOf f.firing.ctx).runs
    && (!f.firing.ordered || s.atMin f.firing) && s.queuesAdmit f && s.rectsAdmit f
    && !s.exclMeets (some (f.core, f.k)) (s.commitLocs f)

/-- R184: COMMIT_EFFECT on the closed chunk of the focus. The watch group is that of the entry after the chunk's own table
writes (R72). -/
def State.commitEffect (s : State) : State :=
  let f := s.focus
  let hash := s.effectHash f
  let x0 := f.firing.afterCommit hash
  let x : Firing := { x0 with verdict := x0.verdict || f.heldVerdict }
  let s0 := (s.reportLogFault f).fillMissing (s.chunkAttr f) f.postedKeys
  let cells := s0.commitCells f x.digest
  let cl := clusterIdOf f.core
  let locs := (cells.1.map fun c => Loc.byte c.1) ++ (f.chunk.held.map (s.heldLocs f)).flatten
  let others (g : Slot) : Bool := !g.at f.core f.k && !(g.active && g.firing.dual && g.firing.same f.firing)
  let s1 := (((s0.logWrite (s.chunkAttr f) cells.1).refreshAll (cells.1.map fun c => c.1)).chargeBursts s x.ctx cl).charge
    x.ctx cl (llcCharge * linesOf (cells.1.map fun c => c.1))
  let s2 := f.chunk.held.foldl (fun s h => s.applyHeld f h) s1
  let wg := ((s2.lcOf x.ctx x.lc).ttOf x.ch).wg
  let q := s2.stepAlarms x.ctx f.chunk.held
  let s3 := q.1.touch locs others
  let s4 := s3.watchEvent x.ctx cl wg (f.reg.flags ||| cells.2).toNat f.chunk.hidden x.fid
  let s5 := if f.chunk.winEv = [] then s4 else s4.setLc x.ctx ((s4.lcOf x.ctx x.lc).windowEvents f.chunk.winEv)
  let w := releaseWaits f.chunk.held
  let s6 := s5.release { ctx := x.ctx, lc := x.lc, cluster := cl, slotCore := f.core, wg := w.1, inv := w.2, firing := x
                         held := releaseOrder x.ctx f.chunk.held q.2, fmts := (s5.lcOf x.ctx x.lc).fmtWords }
  let phase := s6.phaseAt f
  let far := s6.farArrival f
  let s7 := s6.arriveOf f
  let s8 := match s.partner f with
    | some g => s7.nextChunk g { x with copy := g.firing.copy } phase far
    | none => s7
  let s9 := s8.nextChunk f x phase far
  let s10 := if f.firing.serial then s9.suspect .core f.core incEight else s9
  s10.startMoves

/-! ### Dual mismatch (R356) and digest mismatch (R404) -/

/-- R356: unequal hashes: both chunks are squashed, both cores' scores rise, the firing goes on from its checkpoint on
the alternate pair, and from the second mismatch on a DUALFAIL record is sent. -/
def State.dualMismatch (s : State) (f g : Slot) (h1 h2 : Word) : State :=
  let x := f.firing
  let y : Firing := { f.parkFiring s.cycle with mism := x.mism + 1, alt := true }
  let s1 := (((s.cancelBox f).cancelBox g).freeSlot f).freeSlot g
  let s2 := (s1.suspect .core f.core incSixteen).suspect .core g.core incSixteen
  let s3 : State := { s2 with ready := s2.ready ++ [y] }
  if x.mism = 0 then s3
  else s3.sendRecord x.ctx x.lc false false 0 f.core (trapRecord x.fid 0 .dualfail x.ch false x.lc 0 x.fts h1 h2 0)

/-- R404: a digest mismatch: the first is squashed and executed again serialised, the second raises DIGEST. -/
def State.digestMismatch (s : State) (f : Slot) (old new : Word) : State :=
  if f.firing.serial then s.takeException .digest (f.reg.pc - 4#64) old new 0
  else (s.squashChunk f).setSlot { f.squash with firing := { f.firing with serial := true } }

/-- R184, R202: the Commit step on the focus: the dual and digest checks, then COMMIT_EFFECT. -/
def State.commitFocus (s0 : State) : State :=
  if !s0.mayCommit then s0
  else
    let f := s0.focus
    let s := s0.readDigest f
    let verify : State := match s.digestFails f with
      | some d => s.digestMismatch f d.1 d.2
      | none => s.commitEffect
    if !f.firing.dual then verify
    else match s.partner f with
      | none => s
      | some g =>
        if g.chunk.closed.isNone || g.chunk.doomed then s
        else
          let h1 := s.effectHash f
          let h2 := s.effectHash g
          if h1 = h2 then verify else s.dualMismatch f g h1 h2

/-- R354: the Commit step of a shadow's chunk is that of its primary. -/
def State.commitPrimary (s : State) : State :=
  if s.focus.firing.copy = 0 then s.commitFocus
  else match s.partner s.focus with
    | none => s
    | some g => (s.refocus g.core g.k).commitFocus

/-- R184, R362: the Commit step; where it changes the fault rectangles, no dual logical core keeps both its copies in one. -/
def execChunkCommit (core slot : Nat) (st : State) : Out :=
  let t := if (st.slotAt core slot).isNone then st else (st.refocus core slot).commitPrimary
  .next (if t.rects = st.rects then t else t.keepShadows)

/-- R185: the Squash step. A chunk that holds exclusive commit is squashed only where it can no longer commit (R200), and
one that waits for it is not squashed again before it holds it (R201). -/
def execChunkSquash (core slot : Nat) (st : State) : Out :=
  match st.slotAt core slot with
  | none => .next st
  | some f =>
    if (st.holdsExcl f = true ∨ st.awaitsExcl f = true) ∧ f.chunk.doomed = false then .next st
    else .next (st.squashChunk f)

/-- R200: whether exclusive commit may be granted to a slot: an ordered chunk only while its key is MINKEY. -/
def State.grantable (s : State) (p : Nat × Nat) : Bool :=
  match s.slotAt p.1 p.2 with
  | none => false
  | some f => !f.firing.ordered || s.atMin f.firing

/-- R200: an ordered chunk whose key is no longer MINKEY does not hold the grant: it queues again. -/
def State.lapse (s : State) : State :=
  match s.excl, s.exclHolder with
  | some p, none => { s with excl := none, exclQ := s.exclQ ++ [p] }
  | _, _ => s

/-- R200: grants exclusive commit, in queue order, to the first chunk that it may be granted to. -/
def execExclusiveCommitGrant (st : State) : Out :=
  let s := st.lapse
  .next (match s.excl, s.exclQ.find? s.grantable with
    | none, some p => { s with excl := some p, exclQ := s.exclQ.erase p }
    | _, _ => s)

end Sys2Proof.Machine
end

