-- ==== Sys2Proof/Machine/Issue.lean ====
section
/-! DEFINITION. How firings come to run: creation (R170, R173), dispatch (R62, R171), fetch (R40), the checks around the
issue of a word (R60, R69, R181, R324), ONCE (R271, R272), ABORT (R232), and the steps of a slot that are not a commit. -/

namespace Sys2Proof.Machine

/-! ### Creating firings (R170, R173) -/

/-- R170: whether a FIFO slot holds a message that no firing has reserved. -/
def QSlot.free (x : QSlot) : Bool := decide (x.st = .queued)

/-- R170: the messages of a FIFO that no firing has reserved. -/
def TTEntry.waiting (e : TTEntry) : Nat := (e.q.filter QSlot.free).length

/-- R170: reserves the oldest n unreserved messages. -/
def reserveOldest : Nat → List QSlot → List QSlot
  | 0, l => l
  | _ + 1, [] => []
  | n + 1, x :: t => if x.free then { x with st := .reserved } :: reserveOldest n t else x :: reserveOldest (n + 1) t

/-- R169, R170: where the oldest n unreserved messages of a FIFO lie. -/
def TTEntry.refs (e : TTEntry) (ch n : Nat) : List MsgRef :=
  (((List.range e.q.length).filter fun i => ((e.q[i]?).map QSlot.free).getD false).take n).map fun p =>
    let idx := (e.head + p) % e.fdepth
    { ch := ch, gen := e.gen, idx := idx, off := (e.fbase + idx) * 128 }

/-- R167: whether another entry of a logical core names a channel as its join channel. -/
def LCore.joined (l : LCore) (ch : Nat) : Bool :=
  (List.range 64).any fun i => !(l.ttOf i).off && (l.ttOf i).join && decide ((l.ttOf i).jch = ch)

/-- R173: whether the entries of a gang actor are complete. -/
def Ctx.gangComplete (c : Ctx) (lc ch : Nat) : Bool :=
  decide (lc % 8 = 0) && (List.range 8).all fun k =>
    let m := c.lcOf (lc + k)
    m.valid && !(m.ttOf ch).off && (m.ttOf ch).gang

/-- R170, R173: whether an entry creates a firing. -/
def Ctx.mayCreate (c : Ctx) (lc ch : Nat) : Bool :=
  let l := c.lcOf lc
  let e := l.ttOf ch
  c.runs && l.valid && !l.out && !l.moving && !e.off && !e.blk && decide (ch < 64) && decide (ch ≠ 62) && !l.joined ch
    && decide (e.rate + 1 ≤ e.waiting) && (!e.join || decide (e.jrate + 1 ≤ (l.ttOf e.jch).waiting))
    && (!e.gang || c.gangComplete lc ch)

/-- R64: FSRC of a firing from its first message. -/
def Msg.fsrc (m : Msg) : Word :=
  if m.host then 0x8000000000000000#64 else BitVec.ofNat 64 (m.src % 4096 + (m.spkg % 64) * 2 ^ 12)

/-- R324: the stage of a firing that a hurdle dispatch creates: logical cluster, set, stage and RID. -/
def Msg.stage (m : Msg) : Option (Nat × Nat × Nat × Nat) :=
  match m.kind with
  | .hsDispatch lcl set rid stage _ => some (lcl, set, stage, rid)
  | _ => none

/-- R256: the payload of an alarm. -/
def Msg.alarmPayload (m : Msg) : Option (List Byte) := if m.kind = .alarm then some m.payload else none

/-- R64, R65, R170, R173: the firing of member k that an entry creates from its first message. Of several messages R256's check is
made of the first primary one alone (DESIGN CHOICE, log entry 113). -/
def Ctx.newFiring (c : Ctx) (lc ch k now : Nat) (m : Msg) (prim join : List MsgRef) : Firing :=
  let l := c.lcOf lc
  let e := l.ttOf ch
  let own := (c.lcOf (lc + k)).ttOf ch
  { ctx := c.id, lc := lc + k, ch := ch, seq := e.seq, actor := e.actor, gang := k, isGang := e.gang, home := lc
    fts := if e.ord then m.ts else 0, fsrc := m.fsrc, np := e.rate + 1, nj := if e.join then e.jrate + 1 else 0
    cptid := if ch = 63 then m.tag % 2 ^ 16 else 0, entry := m.entry, prim := prim, join := join, prio := own.prio
    readyAt := now, movedAt := now, ordered := e.ord, key := m.key, stage := m.stage, alarm := m.alarmPayload
    dual := e.dual && l.dual }

/-- R170, R173: creates the firing, or the eight of a gang. -/
def State.createFiring (s : State) (ctx lc ch : Nat) : State :=
  let c := s.ctxOf ctx
  let l := c.lcOf lc
  let e := l.ttOf ch
  let j := l.ttOf e.jch
  let prim := e.refs ch (e.rate + 1)
  let join := if e.join then j.refs e.jch (e.jrate + 1) else []
  match e.q.find? QSlot.free with
  | none => s
  | some x =>
    let l1 := l.setTt ch { e with q := reserveOldest (e.rate + 1) e.q, seq := (e.seq + 1) % 2 ^ 32 }
    let l2 := if e.join then l1.setTt e.jch { j with q := reserveOldest (e.jrate + 1) j.q } else l1
    let fs := (List.range (if e.gang then 8 else 1)).map fun k => c.newFiring lc ch k s.cycle x.msg prim join
    { s.setCtx (c.setLc l2) with
      ready := s.ready ++ fs
      gangs := if e.gang then s.gangs ++ [{ ctx := ctx, lc := lc, ch := ch, seq := e.seq, prim := prim, join := join }]
        else s.gangs }

/-- R170: the Create step. -/
def execFiringCreate (ctx lc ch : Nat) (st : State) : Out :=
  .next (if (st.ctxOf ctx).mayCreate lc ch then st.createFiring ctx lc ch else st)

/-! ### Dispatch (R62, R171) -/

/-- R354, R356: the physical cores of the two copies of a dual firing; the first is that of any other firing. -/
def Firing.places (x : Firing) (l : LCore) : Nat × Nat := if x.alt then l.alt else (l.pcore, l.shadow)

/-- R171, R198: ready work: an unordered firing, or an ordered one inside the window. -/
def Ctx.inWindow (c : Ctx) (x : Firing) : Bool := !x.ordered || decide (x.fts.toNat ≤ c.gvt.toNat + c.specwin.toNat)

/-- R159, R171: whether a created firing is ready work of a physical core. -/
def State.readyOn (s : State) (core : Nat) (x : Firing) : Bool :=
  let c := s.ctxOf x.ctx
  let l := c.lcOf x.lc
  c.runs && l.valid && !l.out && !l.moving && decide ((x.places l).1 = core) && c.inWindow x

/-- R171: the order in which a free slot takes ready work. -/
def Firing.before (x y : Firing) : Bool :=
  if x.prio ≠ y.prio then decide (x.prio < y.prio)
  else if x.ordered ≠ y.ordered then x.ordered
  else if x.ordered then x.key.lt y.key
  else decide (x.readyAt < y.readyAt)

/-- R171: the firing that a free slot of a core takes. -/
def State.bestReady (s : State) (core : Nat) : Option Firing :=
  match s.ready.filter (s.readyOn core) with
  | [] => none
  | x :: l => some (l.foldl (fun a y => if y.before a then y else a) x)

/-- R62: the payload of the first message in v0, read from its FIFO slot. -/
def State.payloadReg (s : State) (x : Firing) : VReg :=
  match x.prim with
  | [] => Vector.replicate 32 0
  | r :: _ => vecOf fun i =>
    if i < 16 then BitVec.ofNat 32 (cellNat s.mem (scratchKey x.ctx x.msgHome (r.off + 16 + 4 * i)) 4) else 0

/-- R62: the state of a slot at dispatch. -/
def State.dispatchRegs (s : State) (x : Firing) (k : Nat) : Regs :=
  match x.resume with
  | some r => r
  | none =>
    let l := s.lcOf x.ctx x.lc
    let g0 : Vector Word 32 := Vector.replicate 32 0
    { pc := if x.ch = 63 then x.entry else (l.ttOf x.ch).entry
      g := ((g0.set 1 (BitVec.ofNat 64 x.np)).set 2 (BitVec.ofNat 64 x.ch)).set 30
        (BitVec.ofNat 64 (0xFFFF0000000000 + l.lsz - 4096 * k))
      v := (Vector.replicate 32 (Vector.replicate 32 0)).set 0 (s.payloadReg x) }

/-- R62, R181: a slot with the first chunk of a dispatched firing open. -/
def Slot.opened (core k : Nat) (x : Firing) (r : Regs) : Slot :=
  { core := core, k := k, active := true, firing := x, reg := r, land := r.landing, start := r, ckpt := r
    squashes := x.squashes }

/-- A slot that falls in use. -/
def State.addSlot (s : State) (f : Slot) : State :=
  if s.focus.active then { s with others := s.others ++ [f] } else s.withFocus f

/-- R404: whether a core runs a serialised firing. -/
def State.serialOn (s : State) (core : Nat) : Bool :=
  s.slots.any fun f => f.active && decide (f.core = core) && f.firing.serial

/-- R171: whether slot k of a core may take work. -/
def State.slotFree (s : State) (core k : Nat) : Bool :=
  decide (k < 4) && (s.slotAt core k).isNone && !s.fencedCore core && !s.serialOn core

/-- R65: a firing at its dispatch; FTS is fixed at the first. -/
def Firing.dispatched (x : Firing) (now : Word) (cycle copy : Nat) : Firing :=
  { x with fts := if x.started || x.ordered then x.fts else now, started := true, since := cycle, copy := copy, resume := none, gate := .none }

/-- R62, R171, R354: dispatches a firing to slot k; a dual firing to slot k of its shadow as well. A firing that waited
before its next chunk goes on waiting (R192, R195), and one squashed eight times queues (R200). -/
def State.dispatch (s : State) (core k : Nat) (x : Firing) : State :=
  let r := s.dispatchRegs x k
  let y (n : Nat) : Firing := x.dispatched s.timeBase s.cycle n
  let open' (s : State) (core n : Nat) : State :=
    let f := { Slot.opened core k (y n) r with wait := x.gate, opening := decide (x.gate ≠ .none) }
    (s.addSlot f).queueExcl f
  let s1 := open' { s with ready := s.ready.erase x } core 0
  if x.dual then open' s1 (x.places (s.lcOf x.ctx x.lc)).2 1 else s1

/-- R171: the Dispatch step. -/
def execFiringDispatch (core slot : Nat) (st : State) : Out :=
  .next (match st.bestReady core with
    | none => st
    | some x =>
      let shadow := (x.places (st.lcOf x.ctx x.lc)).2
      if st.slotFree core slot && (!x.dual || st.slotFree shadow slot) then st.dispatch core slot x else st)

/-- R160, R171: a firing that has waited 65,536 cycles at its level moves up one; the time its logical core is swapped out
does not count (State.swappedIn). -/
def execFiringAging (i : Nat) (st : State) : Out :=
  .next (match st.ready[i]? with
    | none => st
    | some x =>
      let l := st.lcOf x.ctx x.lc
      if x.prio ≠ 0 ∧ x.movedAt + 65536 ≤ st.cycle ∧ l.valid = true ∧ l.out = false then
        { st with ready := setAt st.ready i { x with prio := x.prio - 1, movedAt := st.cycle } }
      else st)

/-! ### Waits (R66, R192, R195, R271) -/

/-- R192: whether a firing's releases to other packages have been delivered, or its host stores accepted. -/
def State.fenceOver (s : State) (x : Firing) (scope : Nat) : Bool :=
  !(s.relQ.any fun r => r.firing.same x) && (if scope = 4 then
      !(s.fabOut.any fun m => decide (m.msg.ctx = x.ctx) && decide (m.msg.fid = x.fid) && decide (m.msg.kind = .send))
    else !(s.hostQ.any fun h => decide (h.ctx = x.ctx) && decide (h.fid = x.fid) && decide (h.job = none)))

/-- Whether a parked slot may issue again. A wait whose condition the instruction itself tests is tested by issuing it
again. -/
def State.waitOver (s : State) (f : Slot) : Bool :=
  match f.wait with
  | .none => true
  | .mailbox seq => !((s.clusterOf (clusterIdOf f.core)).boxes.any fun b => decide (b.1 = f.mbox) && decide (b.2.1 = seq))
  | .fill _ _ => true
  | .host va => decide (va ∈ f.hosts)
  | .tile _ => true
  | .barrier id ph => !f.firing.awaitsCount id && decide (((s.ctxOf f.firing.ctx).barOf (barOwner f.firing.lc id) id).phase ≠ ph)
  | .job _ => true
  | .room => true
  | .posting n => f.firing.postings.any fun p => p.1 = n
  | .takers _ => true
  | .watch _ _ => false
  | .fence scope => s.fenceOver f.firing scope

/-- R66, R70, R359, R398, R404: whether a slot may take the issue cycle. One that waits for exclusive commit does not run:
its chunk is not squashed again before it holds the grant (R201). -/
def State.mayIssue (s : State) (f : Slot) : Bool :=
  let c := s.ctxOf f.firing.ctx
  let l := c.lcOf f.firing.lc
  f.active && f.chunk.closed.isNone && c.runs && !l.out && !l.moving && s.waitOver f
    && (!s.serialOn f.core || f.firing.serial) && !s.awaitsExcl f

/-- R70: the slot that takes the next issue cycle of a core: the one in the middle of a group, else the next in round-robin
order. -/
def State.pickSlot (s : State) (core : Nat) : Option Nat :=
  let ok (k : Nat) : Bool := ((s.slotAt core k).map s.mayIssue).getD false
  let last := (s.coreOf core).last
  let inGroup := ((s.slotAt core last).map fun f => decide (f.glen ≠ 0) && decide (f.wait = .none)).getD false
  if inGroup && ok last then some last else ([1, 2, 3, 4].map fun i => (last + i) % 4).find? ok

/-! ### Fetch (R40) -/

/-- R40, R76: the word at the pc: committed memory of a device page with X. A running firing fetches a changed word as the new
one (DESIGN CHOICE, log entry 91). -/
def State.fetch (s : State) (f : Slot) : Try (BitVec 32) :=
  let pc := f.reg.pc
  if pc.toNat % 4 ≠ 0 then excAt .misalign pc
  else
    match regionOf pc with
    | .device =>
      if pc ∈ f.zeros then .ok 0
      else
        match tlbFind (s.coreOf f.core).tlb f.firing.ctx pc with
        | none => .error (.miss pc 2)
        | some e =>
          let k := s.home (e.pa pc)
          if !e.x then excAt .rights pc
          else if (List.range 4).any fun i => inPoison s.poison (k + i) || frameAbsent (k + i) then excAt .poison pc
          else .ok (BitVec.ofNat 32 (cellNat s.mem k 4))
    | _ => excAt .rights pc

/-- R40, R379, R408: the bytes of the word at the pc are filled where the LLC lacks them; a fetch that finds no translation or no
X fills nothing. One that fills is an access to the LLC (log entry 60). -/
def State.fetchFill (s : State) (f : Slot) : State :=
  match regionOf f.reg.pc, tlbFind (s.coreOf f.core).tlb f.firing.ctx f.reg.pc with
  | .device, some e =>
    let a := s.attrOf e f.reg.pc
    let keys := (List.range 4).map fun i => s.home (e.pa f.reg.pc) + i
    if e.x && keys.any (fun k => inDram k && !s.hits a.ctx k) then
      ((s.fillMissing (fun _ => a) keys).chargeBursts s f.firing.ctx (clusterIdOf f.core)).charge f.firing.ctx
        (clusterIdOf f.core) llcCharge
    else s
  | _, _ => s

/-! ### The limits of a chunk (R69, R181, R304, R318) -/

/-- R181: the entries of the commit buffer that a held effect uses (log entry 9). -/
def Held.entries : Held → Nat
  | .send m => 1 + (m.payload.length + 31) / 32
  | .sendm _ m => 1 + (m.payload.length + 31) / 32
  | .sendr _ p => 1 + (p.length + 31) / 32
  | .hsEnt _ _ _ => 3
  | .hostStore _ l => (l.length + 31) / 32
  | .pamo _ _ _ _ _ => 1
  | _ => 0

/-- R181: the distinct 32-byte sectors of a list of keys. -/
def sectors (l : List Nat) : List Nat := l.foldl (fun t k => addNew t (k / 32)) []

/-- R181: the device-memory and scratchpad bytes of a read set. -/
def readKeys (l : List Loc) : List Nat := l.filterMap fun x => match x with
  | .byte k => some k
  | _ => none

/-- R181: the entries of the commit buffer that a chunk uses: one for each sector it writes, and those of its held
effects. -/
def Slot.entries (f : Slot) : Nat :=
  (sectors (f.chunk.wbuf.map fun c => c.1)).length + (f.chunk.held.map Held.entries).sum

/-- R181: whether a signature has passed the guaranteed room, where the hash decides (log entry 9). -/
def Slot.pastRoom (f : Slot) : Bool :=
  decide (256 < (sectors (readKeys f.chunk.rset)).length) || decide (256 < (sectors f.writtenKeys).length)

/-- R181, R304, R318: whether a chunk is over a limit other than the instruction limit; free is the hash's answer. -/
def Slot.over (f : Slot) (free : Bool) : Bool :=
  decide (256 < f.entries) || decide (8 < f.holds .copy) || decide (32 < f.holdsEntries) || (f.pastRoom && free)

/-- R69: the device ends a chunk at the last group boundary; what the open group did is discarded. -/
def Slot.closeBoundary (f : Slot) : Slot :=
  { f with reg := f.start, land := f.start.landing, glen := 0, wait := .none
           chunk := { f.startChunk with closed := some .boundary } }

/-- R181, R198: whether the instruction limit closes the chunk before its next instruction. A group that ran past the
limit while its firing was speculative goes on to its end. -/
def State.limitCloses (s : State) (f : Slot) : Bool :=
  decide (512 ≤ f.chunk.ninstr) && !s.speculative f.firing
    && (decide (f.glen = 0) || (decide (f.startChunk.ninstr < 512) && !f.chunk.ranOver))

/-- R198, R435: a slot that takes a word to issue: one past the limit runs there by R198. -/
def Slot.takes (f : Slot) (w : BitVec 32) : Slot :=
  { f with word := BitVec.ofNat 64 w.toNat, lines := 0
           chunk := if f.chunk.ninstr < 512 then f.chunk else { f.chunk with ranOver := true } }

/-- R181: the Close step of a chunk at the instruction limit. -/
def execChunkClose (core slot : Nat) (st : State) : Out :=
  .next (match st.slotAt core slot with
    | none => st
    | some f => if f.chunk.closed.isNone && decide (f.glen = 0) && st.limitCloses f then st.setSlot f.closeBoundary else st)

/-! ### ONCE (R119, R218, R271, R272) -/

/-- R271: ONCE counts as an instruction; it arms the check of the next word, and in a gang takes an ordinal. -/
def execOnce (st : State) : Out :=
  let f := st.focus
  .next (st.withFocus { f with
    reg := { f.reg with pc := f.reg.pc + 4#64, onceArmed := true
                        onceOrd := if f.firing.isGang then f.reg.onceOrd + 1 else f.reg.onceOrd }
    glen := f.glen + 1
    chunk := { f.chunk with ninstr := f.chunk.ninstr + 1 }
    wait := .none, zeros := [], hosts := [], filled := [] })

/-- R119, R218: the instructions that ONCE may not govern in a gang. -/
def onceForbidden : Instr → Bool
  | .beq .. | .bne .. | .blt .. | .bge .. | .bltu .. | .bgeu .. | .jal .. | .j .. | .jalr .. => true
  | .fin .. | .trap .. | .brk .. | .csrw .. | .csrs .. | .csrc .. | .wgClr .. | .wgSync .. => true
  | .commit .. | .fence .. | .abort .. | .barArr .. | .barAw .. | .barAf .. | .barWait .. => true
  | _ => false

/-- R42, R271: the bits of a word that hold its selector and destination beside the major. -/
def onceMask (w : BitVec 32) : BitVec 32 :=
  let d := 0x01F00000#32
  let fn := 0x3FF#32
  match bitsOf w 30 25 with
  | 0x15 => if bitsOf w 9 0 = 4 then fn else d ||| fn
  | 0x1D => if bitsOf w 9 0 = 1 ∨ bitsOf w 9 0 = 2 then fn else d ||| fn
  | 0x01 | 0x0B | 0x1C | 0x1E | 0x1F => d ||| fn
  | 0x08 | 0x16 | 0x18 | 0x28 => d ||| 0x7000#32
  | 0x17 | 0x19 => 0x7000#32
  | 0x1A => if w.getLsbD 8 then 0x100#32 else d ||| 0x100#32
  | 0x1B => if bitsOf w 6 0 = 0 ∨ bitsOf w 6 0 = 2 then d ||| 0x7F#32 else 0x7F#32
  | 0x20 | 0x21 | 0x23 | 0x24 | 0x25 | 0x26 | 0x27 => d ||| 0x7F#32
  | 0x22 => d ||| 0x3F#32
  | 0x30 => 0x7FFF#32
  | _ => d

/-- R271: whether a member's governed word has the major, selector and destination of the posted word. -/
def onceSame (w p : BitVec 32) : Bool :=
  decide (bitsOf w 30 25 = bitsOf p 30 25) && decide (w &&& onceMask w = p &&& onceMask w)

/-- R271: the landing values turned into others, so that a run shows which registers an instruction writes. -/
def Landing.flip (l : Landing) : Landing :=
  { l with g := l.g.map fun x => ~~~ x, v := l.v.map fun r => r.map fun x => ~~~ x, m := l.m.map fun x => ~~~ x }

/-- R271: the registers that landed alike from two different landings, that is, those that were written. -/
def writtenRegs (a b : Landing) : List (Nat × Nat × Nat) :=
  let g := (a.g.toList.zip b.g.toList).zipIdx.filterMap fun p => if p.1.1 = p.1.2 then some (0, p.2, p.1.1.toNat) else none
  let v := (a.v.toList.zip b.v.toList).zipIdx.filterMap fun p => if p.1.1 = p.1.2 then some (1, p.2, vregNat p.1.1) else none
  let m := (a.m.toList.zip b.m.toList).zipIdx.filterMap fun p => if p.1.1 = p.1.2 then some (2, p.2, p.1.1.toNat) else none
  g ++ v ++ m

/-- R271: a posted register lands in a member. -/
def Slot.landPosted (f : Slot) (r : Nat × Nat × Nat) : Slot :=
  match r.1 with
  | 0 => f.landG (BitVec.ofNat 5 r.2.1) (BitVec.ofNat 64 r.2.2)
  | 1 => f.landV (BitVec.ofNat 5 r.2.1) (vregOfNat r.2.2)
  | _ => f.landM (BitVec.ofNat 3 r.2.1) (BitVec.ofNat 32 r.2.2)

/-- R272: the members of a gang firing as they stand. -/
def State.members (s : State) (x : Firing) : List Firing :=
  let mine (y : Firing) : Bool := y.isGang && decide (y.ctx = x.ctx) && decide (y.msgHome = x.msgHome)
    && decide (y.ch = x.ch) && decide (y.seq = x.seq)
  ((s.slots.filter fun f => f.active).map fun f => f.firing).filter mine ++ s.ready.filter mine
    ++ (s.susp.map fun y => y.firing).filter mine

/-- R272: whether every member that has not ended has taken posting n − 8. -/
def State.mayPost (s : State) (x : Firing) (n : Nat) : Bool :=
  decide (n < 8) || ([1, 2, 3, 4, 5, 6, 7] : List Nat).all fun g =>
    decide (g ∈ (s.gangOf x).ended) || (s.members x).any fun y => decide (y.gang = g) && decide (n ≤ y.taken + 7)

/-- Whether a step at a slot issued its instruction: the slot holds the same firing with one more instruction issued. -/
def Slot.issued (f g : Slot) : Bool :=
  g.active && decide (g.core = f.core) && decide (g.k = f.k) && decide (g.chunk.ninstr = f.chunk.ninstr + 1)

/-- R271: member 0 executes the governed instruction and posts what it wrote. -/
def State.postOnce (s : State) (run : Instr → State → Out) (w : BitVec 32) (i : Instr) (n : Nat) : Out :=
  let f := s.focus
  let x := f.firing
  if !s.mayPost x n then .next (s.withFocus { f with wait := .takers n })
  else
    match run i s, run i (s.withFocus { f with land := f.land.flip }) with
    | .next t, .next u =>
      if f.issued t.focus then
        let res := writtenRegs t.focus.land u.focus.land
        let live := ([1, 2, 3, 4, 5, 6, 7] : List Nat).filter fun g => g ∉ (s.gangOf x).ended
        .next { t with onceQ := t.onceQ ++ live.map fun g =>
          { ctx := x.ctx, lc := x.msgHome + g, ch := x.ch, seq := x.seq, n := n, word := w, res := res } }
      else .next t
    | r, _ => r

/-- R271: another member passes the governed instruction with the posting it holds. -/
def State.takeOnce (s : State) (w : BitVec 32) (n : Nat) : Out :=
  let f := s.focus
  match f.firing.postings.find? fun p => p.1 = n with
  | none => .next (s.withFocus { f with wait := .posting n })
  | some p =>
    if onceSame w p.2.1 then
      let f1 : Slot := { f with firing := { f.firing with taken := max f.firing.taken (n + 1) } }
      .next (s.withFocus ((p.2.2.foldl Slot.landPosted f1).advance (w.getLsbD 31)))
    else s.finish (.error (.exc .illop 0 0 0))

/-- R271: the governed instruction of a ONCE word in a gang. -/
def State.governed (s : State) (run : Instr → State → Out) (w : BitVec 32) (i : Instr) : Out :=
  let f := s.focus
  if !(f.reg.onceArmed && f.firing.isGang) then run i s
  else if onceForbidden i then s.finish (.error (.exc .illop 0 0 0))
  else if f.firing.gang = 0 then s.postOnce run w i (f.reg.onceOrd - 1)
  else s.takeOnce w (f.reg.onceOrd - 1)

/-- R271: a posting addressed to a firing. -/
def Posting.to (p : Posting) (x : Firing) : Bool :=
  decide (p.ctx = x.ctx) && decide (p.lc = x.lc) && decide (p.ch = x.ch) && decide (p.seq = x.seq)

/-- R271, R272: the first posting addressed to a slot's firing reaches it; a newer one of the same ordinal replaces the
older. -/
def execOncePosting (core slot : Nat) (st : State) : Out :=
  .next (match st.slotAt core slot with
    | none => st
    | some f =>
      match st.onceQ.find? fun p => p.to f.firing with
      | none => st
      | some p =>
        let x : Firing := { f.firing with postings := (p.n, p.word, p.res) :: f.firing.postings.filter fun q => q.1 ≠ p.n }
        { st with onceQ := st.onceQ.erase p }.setSlot { f with firing := x })

/-! ### ABORT (R232) -/

/-- R232, R354: the chunk of the other copy of a dual firing is restored with that of the copy that aborts; one that has aborted
already goes on waiting. -/
def State.abortOther (s : State) (f : Slot) : State :=
  match s.partner f with
  | none => s
  | some g => match g.wait with
    | .watch _ _ => s
    | _ => (s.cancelBox g).setSlot g.restore

/-- R232, R354: the slots of a firing that ends are freed, those of both copies of a dual one. -/
def State.freeBoth (s : State) (f : Slot) : State :=
  match s.partner f with
  | none => s.freeSlot f
  | some g => ((s.cancelBox g).freeSlot g).freeSlot f

/-- R200, R232: ABORT: mode 0 waits on the discarded read set and counts as no squash, mode 1 ends the firing. -/
def execAbort (_s : Bool) (a : BitVec 5) (st : State) : Out :=
  let f := st.focus
  if (f.gr a).getLsbD 0 then .next ((st.endFiring { f.firing with copy := 0 }).freeBoth f)
  else
    let g := f.restore
    .next ((st.abortOther f).withFocus (if f.chunk.doomed then g else { g with wait := .watch f.chunk.rset st.cycle }))

/-- R232: a chunk that ABORT parked restarts after 65,536 cycles. -/
def execAbortWaitTimeout (core slot : Nat) (st : State) : Out :=
  .next (match st.slotAt core slot with
    | none => st
    | some f => match f.wait with
      | .watch _ since => if since + 65536 ≤ st.cycle then st.setSlot { f with wait := .none } else st
      | _ => st)

/-! ### Issue (R60, R66) -/

/-- R324: a PURE or COUNT stage firing may not issue an instruction; INFO1 is the class plus 1. -/
def State.stageRefuses (s : State) (f : Slot) (i : Instr) : Option Nat :=
  match s.stageClass f.firing with
  | some c => if c < 2 ∧ stageForbidden i = true then some c else none
  | none => none

/-- R69, R181: the result of a word, or the boundary that comes before its group. -/
def State.withinLimits (s : State) (r : Out) : Out :=
  let f := s.focus
  match r with
  | .next t =>
    if f.issued t.focus && t.focus.pastRoom then
      let u : State := { t with fresh := t.fresh + 1 }
      if t.focus.over (Config.freeBool t.fresh) then
        (if f.startChunk.ninstr = 0 then .next ({ s with fresh := t.fresh + 1 }.takeException .ordlen f.reg.pc 0 0 0)
        else .next ({ s with fresh := t.fresh + 1 }.withFocus f.closeBoundary))
      else .next u
    else if f.issued t.focus && t.focus.over false then
      (if f.startChunk.ninstr = 0 then .next (s.takeException .ordlen f.reg.pc 0 0 0)
      else .next (s.withFocus f.closeBoundary))
    else .next t
  | r => r

/-- R408: the charge of an instruction in units of 10 pJ, by its major: a vector instruction takes 0.15 nJ, another
0.03 nJ. -/
def instrCharge (w : BitVec 32) : Nat :=
  let m := bitsOf w 30 25
  if (0x18 ≤ m ∧ m ≤ 0x1B) ∨ (0x20 ≤ m ∧ m ≤ 0x27) then 15 else 3

/-- R232: whether an instruction is ABORT. -/
def isAbort : Instr → Bool
  | .abort .. => true
  | _ => false

/-- R408: an issued instruction, an ABORT and one that raises an exception too, is charged to its context and the cluster of its
core, with the lines of device memory that it read; one that waits is charged when it completes. -/
def State.spend (s : State) (w : BitVec 32) (abort : Bool) (r : Out) : Out :=
  match r with
  | .next t => .next (if s.focus.issued t.focus || abort || decide (s.susp.length < t.susp.length) then
      t.charge s.focus.firing.ctx (clusterIdOf s.focus.core) (instrCharge w + llcCharge * t.focus.lines) else t)
  | r => r

/-- R60, R129: whether an instruction is privileged: SYS fn 32 to 39 and the privileged CSR numbers. -/
def needsPriv : Instr → Bool
  | .tlbWr .. | .tlbInv .. | .tlbRd .. | .fltRply .. | .rectSet .. | .migGo .. | .ctxStop .. | .ctxGo .. => true
  | .csrr _ _ n | .csrw _ _ _ n | .csrs _ _ _ n | .csrc _ _ _ n => decide (0x800 ≤ n.toNat)
  | _ => false

/-- R60: issues a fetched word of the focus slot. -/
def State.issueDecoded (s : State) (run : Instr → State → Out) (w : BitVec 32) (i : Option Instr) : Out :=
  let f := s.focus
  match i with
  | none => s.spend w false (s.finish (.error (.exc .illop 0 0 0)))
  | some i =>
    if f.reg.onceArmed && decide (bitsOf w 30 25 = 0x3E) then s.spend w false (s.finish (.error (.exc .illop 0 0 0)))
    else if needsPriv i && !f.priv then s.spend w false (s.finish (.error (.exc .priv 0 0 0)))
    else match s.stageRefuses f i with
      | some c => s.spend w false (s.finish (.error (.exc .rights 0 (BitVec.ofNat 64 (c + 1)) 0)))
      | none => s.spend w (isAbort i && !(f.reg.onceArmed && f.firing.isGang)) (s.withinLimits (s.governed run w i))

/-- R40, R66, R435: the focus slot fetches and issues its next word. -/
def State.issueWord (s : State) (run : Instr → State → Out) (dec : BitVec 32 → Option Instr) : Out :=
  let f := s.focus
  if s.limitCloses f then .next (s.withFocus f.closeBoundary)
  else
    let t := s.fetchFill f
    match t.fetch f with
    | .error e => t.finish (.error e)
    | .ok w => (t.withFocus (f.takes w)).issueDecoded run w (dec w)

/-- R256: makes the check of an alarm firing's first chunk. -/
def State.makeCheck (s : State) (p : List Byte) : State :=
  let t := s.alarmCheck p
  if t.focus.chunk.checked then
    t.withFocus { t.focus with startChunk := { t.focus.chunk with closed := none }, zeros := [], wait := .none, hosts := [], filled := [] }
  else t

/-- R371, R379, R408: the fill that a parked slot waits for; the sector then counts as read for its instruction. -/
def State.fillFor (s : State) (f : Slot) : State :=
  match f.wait with
  | .fill k a => ((s.fill a k).chargeBursts s f.firing.ctx (clusterIdOf f.core)).setSlot
      { f with wait := .none, filled := addNew f.filled (k / 32) }
  | _ => s

/-- R192, R195: the next chunk of the focus slot opens, once its wait is over. -/
def State.openFocus (s : State) : State :=
  if s.focus.opening then s.withFocus { s.focus with opening := false, wait := .none } else s

/-- R66: one issue cycle of the focus slot: a chunk that can no longer commit is squashed; a slot that waits for a fill takes
it. -/
def State.issueSlot (s : State) (run : Instr → State → Out) (dec : BitVec 32 → Option Instr) : Out :=
  let f := s.focus
  if f.chunk.doomed then .next (s.squashChunk f)
  else match f.wait with
    | .fill _ _ => .next (s.fillFor f)
    | _ => match f.firing.alarm with
      | some p => if f.chunk.checked then s.issueWord run dec else .next (s.makeCheck p)
      | none => s.issueWord run dec

/-- R371, R379: the fill of a read miss under the attributes of its access, for an instruction that waits for it. -/
def execLlcFill (pa ctx gran keyid : Nat) (st : State) : Out :=
  .next (match st.slots.find? fun f => f.active && decide (f.wait = .fill pa ⟨ctx, gran, keyid⟩) with
    | none => st
    | some f => st.fillFor f)

/-- R66, R70: one issue cycle of a core. -/
def State.issueCore (s : State) (core : Nat) (run : Instr → State → Out) (dec : BitVec 32 → Option Instr) : Out :=
  match s.pickSlot core with
  | none => .next s
  | some k =>
    let s1 := s.setCore { s.coreOf core with last := k }
    (s1.refocus core k).openFocus.issueSlot run dec

end Sys2Proof.Machine
end

