-- ==== Sys2Proof/Machine/Deliver.lean ====
section
/-! DEFINITION. The Deliver step (R169, R186, R224, R225), the inbox (R397), trap replies (R79, R80), contributions (R352),
the translation service core (R273 to R276, R410) and mailbox replies (R280). -/

namespace Sys2Proof.Machine

/-! ### Messages that enter a FIFO -/

/-- Whether a message is one that a FIFO or an inbox takes. -/
def Msg.toFifo (m : Msg) : Bool :=
  match m.kind with
  | .send => true
  | .trap _ _ _ => true
  | .alarm => true
  | .copyDone => true
  | .device => true
  | .hsDispatch _ _ _ _ _ => true
  | .hsExit _ _ _ _ => true
  | .redResult _ _ => true
  | _ => false

/-- R79: whether a message to channel 62 is a reply. -/
def Msg.isReply (m : Msg) : Bool :=
  decide (m.ch = 62) && decide (m.kind = .send) && !m.ord && !m.host && decide (m.spkg = Config.ownPackage.val)
    && replyForm m.payload

/-- R169: the 128 bytes of a FIFO slot that holds a message. -/
def Msg.slotBytes (m : Msg) : List Byte :=
  leBytes 8 m.hdr.toNat ++ leBytes 8 m.ts.toNat ++ m.payload ++ List.replicate (64 - m.payload.length) 0
    ++ leBytes 4 (if m.ord then m.seq else 0) ++ List.replicate 44 0

/-- R345: the router at which a message was injected. -/
def State.injector (s : State) (m : Msg) : Nat :=
  match m.box with
  | .core ctx lc => (s.lcOf ctx lc).pcore
  | .traps ctx lc => (s.lcOf ctx lc).pcore
  | .engine cl _ => clusterRouter cl
  | .hurdle cl => clusterRouter cl
  | _ => 0

/-- R345: whether the relay lets a message through: one injected before the move takes the old path; a later one waits for
the flush marker of its router. -/
def State.relayClear (s : State) (m : Msg) : Bool :=
  m.old || s.cores.all fun c => c.relay.all fun r =>
    !(decide (r.ctx = m.ctx) && decide (r.lcore = m.dst)) || decide (s.injector m ∈ r.passed)

/-- What a message meets at its channel. -/
inductive Fate where
  | write
  | refuse (info1 : Nat)
  | reply
  | wait
  deriving DecidableEq, Repr

/-- R79, R179, R224: what a message meets at its channel. -/
def State.fate (s : State) (m : Msg) : Fate :=
  let l := s.lcOf m.ctx m.dst
  let e := l.ttOf m.ch
  if m.ch = 62 then (if m.isReply then .reply else .refuse 1)
  else if e.off then .refuse 1
  else if m.ch = 63 ∧ m.kind ≠ .copyDone then .refuse 4
  else if m.ord ≠ e.ord then .refuse 4
  else if e.fdepth ≤ e.q.length then .wait
  else .write

/-- R169: the keys of the slot that a message would take. -/
def State.slotKey (s : State) (m : Msg) : Nat :=
  let e := (s.lcOf m.ctx m.dst).ttOf m.ch
  scratchKey m.ctx m.dst ((e.fbase + (e.head + e.q.length) % e.fdepth) * 128)

/-- R169: writes a message into its FIFO. -/
def State.enqueue (s : State) (m : Msg) : State :=
  let k := s.slotKey m
  let l := s.lcOf m.ctx m.dst
  let e := l.ttOf m.ch
  let l1 : LCore := { l.setTt m.ch { e with q := e.q ++ [⟨.queued, m⟩] } with recv := l.recv + 1 }
  (s.setLc m.ctx l1).applyBytes k m.slotBytes

/-- R179, R224, R358: a refusal at delivery; those of R224 and R225 count as received, once. -/
def State.refuseHere (s : State) (m : Msg) (info1 : Nat) (fresh : Bool) : State :=
  (if fresh && decide (info1 = 4 ∨ info1 = 6) then s.countOrdRecv m else s).refuse m info1

/-! ### Trap replies (R79, R80) -/

/-- R79: the suspended firing that a reply names. -/
def State.suspOf (s : State) (ctx lc : Nat) (csa : Word) : Option Susp :=
  s.susp.find? fun x => decide (x.firing.ctx = ctx) && decide (x.firing.lc = lc) && decide (x.block < 8)
    && decide (x.csa = csa)

/-- R394: the block of a suspended firing is freed. -/
def State.freeBlock (s : State) (x : Susp) : State :=
  let l := s.lcOf x.firing.ctx x.firing.lc
  s.setLc x.firing.ctx { l with trapBlocks := l.trapBlocks.filter fun b => b ≠ x.block }

/-- R76, R80: the bytes of a block as they stand; none where the page cannot be read. -/
def State.readBlock (s : State) (ctx : Nat) (va : Word) : Option (List Byte) :=
  (s.spanKeys ctx va 4480 TlbEntry.r).map fun l => l.map (cellRead s.mem)

/-- R80: the effect of a reply. -/
def State.applyReply (s : State) (m : Msg) : State :=
  let csa : Word := BitVec.ofNat 64 (leNat (m.payload.take 8))
  match s.suspOf m.ctx m.dst csa with
  | none => s
  | some x =>
    match leNat ((m.payload.drop 8).take 1) with
    | 1 =>
      let t := s.readSpan (clusterIdOf (s.lcOf m.ctx m.dst).pcore) m.ctx csa 4480
      (match t.readBlock m.ctx csa with
      | some l => (t.freeBlock x).restartFiring x l t.cycle
      | none => t)
    | 2 => (({ s with susp := s.susp.filter fun y => y ≠ x } : State).freeBlock x).endFiring x.firing
    | 3 => s.gangStop m.ctx
    | _ => s

/-! ### The Deliver step -/

/-- R169, R186, R200, R358: a message meets its channel; none where it must wait. fresh says that it comes from an outbox
and has not been counted as received. -/
def State.deliverAt (s : State) (m : Msg) (fresh : Bool) : Option State :=
  match s.fate m with
  | .wait => none
  | .refuse n => some (s.refuseHere m n fresh)
  | .reply => some (s.applyReply m)
  | .write =>
    let t := s.enqueue m
    if t.exclBlocks none ((List.range 128).map fun i => s.slotKey m + i) then none
    else some ((if fresh then t.countOrdRecv m else t).hsDelivered m)

/-- R397: whether messages for a logical core lie in the inbox. -/
def Ctx.inboxHolds (c : Ctx) (lc : Nat) : Bool := c.inbox.any fun m => m.dst = lc

/-- R395: the tail of an inbox. -/
def Ctx.inTail (c : Ctx) : Nat := (c.inHead + c.inRing.length) % max 1 c.inboxCap

/-- R395, R380: hardware writes bytes of a save area, under the key of the descriptor. -/
def State.writeSave (s : State) (c : Ctx) (off : Nat) (l : List Byte) : State :=
  s.applyWith (fun k => { s.ownAttr k with keyid := c.keyid }) (c.svBase + off) l

/-- R395: the inbox head and tail in the header of a save area. -/
def State.writeEnds (s : State) (ctx : Nat) : State :=
  let c := s.ctxOf ctx
  s.writeSave c 16 (leBytes 8 c.inHead ++ leBytes 8 c.inTail)

/-- R397: appends a message at the inbox tail; none where the inbox is full. -/
def State.toInbox (s : State) (m : Msg) : Option State :=
  let c := s.ctxOf m.ctx
  if c.inRing.length < c.inboxCap then
    some ((((s.setCtx { c with inbox := c.inbox ++ [m], inRing := c.inRing ++ [true] }).writeSave c
      (0x1000 + 128 * c.inTail) m.slotBytes).writeEnds m.ctx).countOrdRecv m)
  else none

/-- R397: the inbox ring with the slot of its n-th message marked empty. -/
def emptySlot : List Bool → Nat → List Bool
  | [], _ => []
  | false :: l, n => false :: emptySlot l n
  | true :: l, 0 => false :: l
  | true :: l, n + 1 => true :: emptySlot l n

/-- R397: the head of an inbox passes the slots that are empty. -/
def Ctx.passEmpty (c : Ctx) (ring : List Bool) : Ctx :=
  let rest := ring.dropWhile fun x => !x
  { c with inRing := rest, inHead := (c.inHead + (ring.length - rest.length)) % max 1 c.inboxCap }

/-- R397: a message is taken out of the inbox: its slot is marked empty, and the head passes what is empty. -/
def Ctx.takeInbox (c : Ctx) (m : Msg) : Ctx :=
  let n := (c.inbox.takeWhile fun x => x ≠ m).length
  { c with inbox := c.inbox.erase m }.passEmpty (emptySlot c.inRing n)

/-- R350, R352: the delivery, or the discard, of a round's result: the round is delivered, and its contributions are no
longer held. -/
def State.redDelivered (s : State) (m : Msg) : State :=
  match m.kind with
  | .redResult group n =>
    let c := s.ctxOf m.ctx
    let g := c.redOf group
    s.setCtx { c with reds := setKey c.reds group { g with rounds := max g.rounds (n + 1), got := g.got.filter fun x => x.1 ≠ n } }
  | _ => s

/-- R169, R186, R225, R345, R363, R397: where a released message goes; none where it must wait. -/
def State.deliverPlain (s : State) (m : Msg) : Option State :=
  let c := s.ctxOf m.ctx
  let l := c.lcOf m.dst
  if c.halted then none
  else if !c.defines m.dst then some (s.refuseHere m 6 true)
  else if l.out then s.toInbox m
  else if s.fencedCore l.pcore then some (s.refuseHere m 2 true)
  else if l.moving || !s.relayClear m || c.inboxHolds m.dst then none
  else s.deliverAt m true

/-- R186, R352: delivers a released message; none where it must wait. -/
def State.deliverMsg (s : State) (m : Msg) : Option State := (s.deliverPlain m).map fun t => t.redDelivered m

/-- R186: a Deliver step of message i by a rule for it; a message behind an earlier one, or that must wait, stays. -/
def State.deliverBy (s : State) (i : Nat) (like : Msg → Bool) (rule : State → Msg → Option State) : State :=
  match s.net[i]? with
  | none => s
  | some m =>
    if !like m || s.behind i m like then s
    else (rule { s with net := dropAt s.net i } m).getD s

/-- R80: a reply restarts, ends or halts a suspended firing. -/
def execTrapReply (i : Nat) (st : State) : Out :=
  .next (match st.net[i]? with
    | none => st
    | some m => if m.isReply then st.deliverBy i Msg.toFifo State.deliverMsg else st)

/-- R397: the oldest inbox message of a logical core that is resident again is delivered. -/
def execInboxReplay (ctx lc : Nat) (st : State) : Out :=
  let c := st.ctxOf ctx
  let l := c.lcOf lc
  .next (if c.halted || l.out || l.moving || !l.valid then st
    else match c.inbox.find? fun m => m.dst = lc with
      | none => st
      | some m => (((st.setCtx (c.takeInbox m)).writeEnds ctx).deliverAt m false).getD st)

/-- R179, R397: a message that a full inbox refused is tried again every 4,096 cycles, and discarded after 64 failures. -/
def execInboxRetry (i : Nat) (st : State) : Out :=
  .next (match st.net[i]? with
    | none => st
    | some m =>
      let c := st.ctxOf m.ctx
      if !m.toFifo || c.halted || !(c.lcOf m.dst).out || !c.defines m.dst || st.behind i m Msg.toFifo
          || (decide (m.tries ≠ 0) && decide (st.cycle < m.triedAt + 4096)) then st
      else match ({ st with net := dropAt st.net i } : State).toInbox m with
        | some t => t.redDelivered m
        | none =>
          if 64 ≤ m.tries + 1 then (({ st with net := dropAt st.net i } : State).refuse m 3).redDelivered m
          else { st with net := setAt st.net i { m with tries := m.tries + 1, triedAt := st.cycle } })

/-! ### Reduction groups (R351 to R353, R422, R423) -/

/-- R349: the participants of a group on this package, in ascending order. -/
def Ctx.participants (c : Ctx) (g : RedGroup) : List Nat := c.rectCores g.cfgB

/-- R352: the contributions of a participant that have been delivered. -/
def RedGroup.delivered (g : RedGroup) (p : Nat) : Nat := g.rounds + (g.got.filter fun x => x.2.1 = p).length

/-- R422: whether other packages take part. -/
def RedGroup.spans (g : RedGroup) : Bool := g.cfgB.getLsbD 44 && decide (bitsOf g.cfgB 43 38 ≠ 0)

/-- R422: the packages of a group that spans packages, other than this one. -/
def RedGroup.others (g : RedGroup) : List Nat :=
  if g.spans then ((List.range (bitsOf g.cfgB 43 38 + 1)).map fun i => bitsOf g.cfgB 37 32 + i).filter fun p =>
    p ≠ Config.ownPackage.val
  else []

/-- R352: the contributions of the slowest participant of this package. -/
def Ctx.slowestHere (c : Ctx) (g : RedGroup) : Nat :=
  match c.participants g with
  | [] => 0
  | p :: l => l.foldl (fun n q => min n (g.delivered q)) (g.delivered p)

/-- R352, R423: the contributions of the slowest participant, those of other packages as far as they are known here. -/
def Ctx.slowest (c : Ctx) (g : RedGroup) : Nat :=
  g.others.foldl (fun n p => min n (lookupD g.far p 0)) (c.slowestHere g)

/-- R423: the other packages of a group learn how far this package's participants have come. -/
def State.tellRounds (s : State) (ctx group n : Nat) : State :=
  let c := s.ctxOf ctx
  let g := c.redOf group
  if c.slowestHere g = n then s
  else g.others.foldl (fun s p => s.postFabric
    { deviceMsg ctx 0 0 [] (.red ctx group) (.farDone group (c.slowestHere g)) with pkg := p }) s

/-- R351, R352, R423: the delivery of a contribution; one more than 4 rounds ahead waits. -/
def State.contribute (s : State) (m : Msg) : Option State :=
  match m.kind with
  | .reduction group k =>
    let c := s.ctxOf m.ctx
    let g := c.redOf group
    if c.halted || decide (c.slowest g + 4 < k + 1) then none
    else some ((s.setCtx { c with
      reds := setKey c.reds group { g with got := g.got ++ [(k, m.src, m.payload, m.fid)] } }).tellRounds m.ctx group
      (c.slowestHere g))
  | _ => none

/-- R351: a lane of a payload. -/
def payloadLane (l : List Byte) (i : Nat) : Lane := BitVec.ofNat 32 (leNat ((l.drop (4 * i)).take 4))

/-- R351: the ORDERED fold of one lane. -/
def foldOrdered : List Lane → Flagged Lane
  | [] => ⟨0, 0, 0⟩
  | x :: l => l.foldl (fun r y => let q := fadd r.val y; ⟨q.val, r.flags ||| q.flags, 0⟩) ⟨x, 0, 0⟩

/-- R351: the exact accumulator of one lane. -/
def foldExact (l : List Lane) : Flagged Xa :=
  l.foldl (fun r y => let q := r.val.add (exact32 y); ⟨q.val, r.flags ||| q.flags, 0⟩) ⟨Xa.zero, 0, 0⟩

/-- R349: EXACT mode. -/
def RedGroup.exact (g : RedGroup) : Bool := g.cfgA.getLsbD 6
/-- R349: LANES + 1. -/
def RedGroup.lanes (g : RedGroup) : Nat := bitsOf g.cfgA 10 7 + 1
/-- R422: FIRST. -/
def RedGroup.first (g : RedGroup) : Nat := bitsOf g.cfgB 37 32
/-- R422: the last package of a group. -/
def RedGroup.last (g : RedGroup) : Nat := g.first + bitsOf g.cfgB 43 38

/-- R352: the message of a round's result; its root lies on the first package of a group that spans packages. -/
def RedGroup.result (g : RedGroup) (ctx group round : Nat) (payload : List Byte) : Msg :=
  let root := bitsOf g.cfgA 28 17
  { deviceMsg ctx root (bitsOf g.cfgA 16 11) payload (.red ctx group) (.redResult group round) with src := root }

/-- R225, R352: the result of a round leaves for its root; one for an undefined logical core is discarded. -/
def State.postResult (s : State) (ctx group : Nat) (g : RedGroup) (round : Nat) (payload : List Byte) : State :=
  let m := g.result ctx group round payload
  if (s.ctxOf ctx).defines m.dst then s.post m else (s.nackBuilt m).redDelivered m

/-- R352: the result of a round on its way to the root, with its flags in the watch group. -/
def State.placeResult (s : State) (ctx group : Nat) (g : RedGroup) (payload : List Byte) (flags fid : Word) : State :=
  let root := bitsOf g.cfgA 28 17
  let s1 := s.watchEvent ctx (clusterIdOf (s.lcOf ctx root).pcore) (bitsOf g.cfgB 31 24) flags.toNat 0 fid
  s1.postResult ctx group g g.placed payload

/-- R423: what a package sends on of a round; the flags of its own operations stay here, in the table of its last
participant's cluster (log entry 13). -/
def State.placeFar (s : State) (ctx : Nat) (g : RedGroup) (pkg lc : Nat) (m : Msg) (flags fid : Word) : State :=
  (s.watchEvent ctx (clusterIdOf (s.lcOf ctx lc).pcore) (bitsOf g.cfgB 31 24) flags.toNat 0 fid).postFabric { m with pkg := pkg }

/-- R423: the sum of a round as another package has sent it. -/
def RedGroup.sumOf (g : RedGroup) (pkg : Nat) : Option (List Byte) :=
  (g.sums.find? fun x => decide (x.1 = g.placed) && decide (x.2.1 = pkg)).map fun x => x.2.2

/-- R423: the sums that a round needs of other packages: ORDERED that of the package before, EXACT at the first package
those of all others. -/
def RedGroup.needs (g : RedGroup) (own : Nat) : List Nat :=
  if !g.spans then []
  else if g.exact then (if own = g.first then (List.range (bitsOf g.cfgB 43 38)).map fun i => g.first + 1 + i else [])
  else if own = g.first then [] else [own - 1]

/-- R350, R423: a round that this package passes on counts as delivered here (log entry 13). -/
def RedGroup.passOn (g : RedGroup) : RedGroup :=
  { g with rounds := g.placed + 1, got := g.got.filter fun x => x.1 ≠ g.placed }

/-- R351 to R353, R423: the step of the oldest round that is not placed, once every participant's contribution and the sums that other packages
send are held: its result, or for a group that spans packages what this package sends on. A round that misses a package
stays (R426). -/
def execReductionResult (ctx group : Nat) (st : State) : Out :=
  let c := st.ctxOf ctx
  let g := c.redOf group
  let own := Config.ownPackage.val
  let parts := c.participants g
  let mine := parts.filterMap fun p => g.got.find? fun x => decide (x.1 = g.placed) && decide (x.2.1 = p)
  let sums := (g.needs own).filterMap g.sumOf
  if !g.on || c.halted || decide (parts = []) || decide (mine.length ≠ parts.length)
      || decide (sums.length ≠ (g.needs own).length) then .next st
  else
    let lane (i : Nat) : List Lane := mine.map fun x => payloadLane x.2.2.1 i
    let ord := (List.range g.lanes).map fun i =>
      foldOrdered ((if g.exact then [] else sums.map fun l => payloadLane l i) ++ lane i)
    let exa := (List.range g.lanes).map fun i =>
      let x := foldExact (lane i)
      (⟨sums.foldl (fun a l => a.merge (Xa.ofBytes ((l.drop (48 * i)).take 48))) x.val, x.flags, 0⟩ : Flagged Xa)
    let fin := exa.map fun x => let q := x.val.round; (⟨q.val, x.flags ||| q.flags, 0⟩ : Flagged Lane)
    let res := if g.exact then fin else ord
    let bytes := (res.map fun x => leBytes 4 x.val.toNat).flatten
    let flags := res.foldl (fun w x => w ||| x.flags) 0
    let adds := exa.foldl (fun w x => w ||| x.flags) 0
    let fid := (mine.getLast?.map fun x => x.2.2.2).getD 0
    let lc := parts.getLast?.getD 0
    let here := !g.spans || (g.exact && decide (own = g.first))
    let g0 : RedGroup := if here then g else g.passOn
    let g1 : RedGroup := { g0 with placed := g.placed + 1, sums := g.sums.filter fun x => x.1 ≠ g.placed }
    let s1 := st.setCtx { c with reds := setKey c.reds group g1 }
    let sum (l : List Byte) : Msg := deviceMsg ctx 0 0 l (.red ctx group) (.reduction group g.placed)
    .next (if here then s1.placeResult ctx group g bytes flags fid
      else if g.exact then s1.placeFar ctx g g.first lc (sum (exa.map fun x => x.val.bytes).flatten) adds fid
      else if own < g.last then s1.placeFar ctx g (own + 1) lc (sum bytes) flags fid
      else s1.placeFar ctx g g.first lc (g.result ctx group g.placed bytes) flags fid)

/-! ### The translation service core (R274 to R276, R410) -/

/-- R275: what a walk of the first stage meets: a leaf and whether it maps 2 MiB, an entry with V = 0 at a level and an
intermediate address, or an entry that is not well formed. -/
inductive Walked where
  | leaf (w : Nat) (big : Bool)
  | hole (level ia : Nat)
  | bad
  deriving DecidableEq, Repr

/-- R275: the walk from a level down. -/
def State.walkWhy (s : State) (c : Ctx) (va : Nat) : Nat → Nat → Nat → Walked
  | 0, _, _ => .bad
  | n + 1, level, table =>
    let ia := table + 8 * walkIndex level va
    match s.tableEntry c ia with
    | none => .bad
    | some w =>
      if w % 2 = 0 then .hole level ia
      else if !entryOk level w then .bad
      else if natBits w 1 1 = 1 then (if leafAligned w (decide (level = 2)) then .leaf w (decide (level = 2)) else .bad)
      else s.walkWhy c va n (level + 1) (natBits w 47 12 * 2 ^ 12)

/-- R410: an entry of the fault-policy table; none where it cannot be read. -/
def State.policyEntry (s : State) (c : Ctx) (i : Nat) : Option (Nat × Nat) :=
  match s.tableEntry c (c.fpol + 16 * i), s.tableEntry c (c.fpol + 16 * i + 8) with
  | some a, some b => some (a, b)
  | _, _ => none

/-- R410: the first policy entry that covers an address. -/
def State.policyOf (s : State) (c : Ctx) (va : Nat) : Option Nat :=
  (List.range c.fpn).findSome? fun i => match s.policyEntry c i with
    | some (a, b) => if a / 2 ^ 16 ≤ va / 2 ^ 16 ∧ va / 2 ^ 16 ≤ natBits b 55 16 then some b else none
    | none => none

/-- R414: the record that firmware sends for a malformed table or policy entry. -/
def State.reportWalk (s : State) (ctx lc cluster : Nat) : State :=
  s.report { kind := 2, sev := 1, ctx := ctx, lcore := lc, unit := 1, num := clusterRouter cluster, payload := [] }

/-- R373, log entry 10: a frame that firmware zeroes: its bytes read zero, and no unit of it holds anything else. -/
def State.zeroFrame (s : State) (frame : Nat) : State :=
  { s with
    mem := s.mem.filter fun x => x.1 / 2 ^ 16 ≠ frame
    llc := s.llc.filter fun l => 128 * l.line / 2 ^ 16 ≠ frame
    dram := s.dram.filter fun d => placeBurst d.1 / 4 ≠ frame
    poison := s.poison.filter fun u => u.1 / 2 ^ 16 ≠ frame }

/-- R395, R428: whether a frame lies in the save area of a context. -/
def Ctx.saveHolds (c : Ctx) (frame : Nat) : Bool :=
  decide (c.svBase / 2 ^ 16 ≤ frame) && decide (frame < c.svBase / 2 ^ 16 + c.svSize)

/-- R369, R382, R389, R428: whether a frame of installed memory is free: no second stage maps it, no migration moves it, and it
lies in no save area. -/
def State.frameFree (s : State) (frame : Nat) : Bool :=
  inDram (frame * 2 ^ 16) && (s.ctxs.all fun c => !c.saveHolds frame && c.stage2.all fun p => decide (p.pa % 2 ^ 24 ≠ frame))
    && s.migs.all fun m => decide (m.src ≠ frame) && decide (m.dst ≠ frame)

/-- R410, R428: the lowest free frame: frame 0, or the one after a frame in use; none where there is no such. -/
def State.newFrame (s : State) : Option Nat :=
  let after := (s.ctxs.map fun c => (c.svBase / 2 ^ 16 + c.svSize) :: c.stage2.map fun p => p.pa % 2 ^ 24 + 1).flatten
    ++ (s.migs.map fun m => [m.src + 1, m.dst + 1]).flatten
  match (0 :: after).filter s.frameFree with
  | [] => none
  | n :: l => some (l.foldl min n)

/-- R410: a zeroed frame mapped into the second stage of a context; the new intermediate page. Firmware takes the lowest
intermediate page above those in use and the lowest free frame (log entry 10). -/
def State.mapFrame (s : State) (ctx attrs : Nat) : Option (State × Nat) := s.newFrame.map fun pa =>
  let c := s.ctxOf ctx
  let ia := c.stage2.foldl (fun n p => max n (p.ia + 1)) 0
  let p : PageSpec := { ia := ia, pa := pa, gran := natBits attrs 3 2, cache := decide (natBits attrs 4 4 = 1)
                        shared := decide (natBits attrs 5 5 = 1), mig := false, ro := false, keyid := natBits attrs 15 6 }
  ((s.putStage { c with stage2 := c.stage2 ++ [p] }).zeroFrame pa, ia)

/-- R275, R410: firmware writes a table entry at an intermediate address. -/
def State.writeTable (s : State) (ctx ia w : Nat) : State :=
  match (s.ctxOf ctx).paOf ia with
  | some k => s.applyBytes (s.home k) (leBytes 8 w)
  | none => s

/-- R410: DEMAND: maps a zeroed frame at an address, with the tables that are missing on the way, as far as frames are free. fuel
is the number of levels left. -/
def State.demand (s : State) (ctx attrs : Nat) (va : Nat) : Nat → Nat → Nat → State
  | 0, _, _ => s
  | n + 1, level, ia =>
    match s.mapFrame ctx attrs with
    | none => s
    | some r =>
    let w := 1 + r.2 * 2 ^ 16 + (if level = 3 then 2 + 4 + 8 else 0)
    let s1 := r.1.writeTable ctx ia w
    if level = 3 then s1
    else s1.demand ctx attrs va n (level + 1) (r.2 * 2 ^ 16 + 8 * walkIndex (level + 1) va)

/-- R273, R277: installs a combined translation in a cluster's TLB; none where the walk gives none. -/
def State.install (s : State) (cluster ctx : Nat) (va : Word) : Option State :=
  (s.walk ctx va).map fun e =>
    let k := s.clusterOf cluster
    s.setCluster { k with tlb := tlbInsert 1024 k.tlb e }

/-- R280: the reply of the TSC to a mailbox. -/
def State.tscReply (s : State) (cluster mbox seq code : Nat) : State :=
  s.post (deviceMsg 0 cluster 0 [] .device (.mailboxReply mbox seq code))

/-- R275, R410: the TSC's answer to a translation request (log entry 10): 0 RETRY, 1 ZERO, 2 ABORT. -/
def State.answerWalk (s0 : State) (cluster ctx lc : Nat) (va : Word) : State × Nat :=
  let s := s0.readTables cluster ctx va
  let c := s.ctxOf ctx
  let v := bitsOf va 46 0
  match s.walkWhy c v 4 0 c.root with
  | .leaf _ _ => (match s.install cluster ctx va with
    | some t => (t, 0)
    | none => (s, 2))
  | .bad => (s.reportWalk ctx lc cluster, 2)
  | .hole level ia =>
    match s.policyOf c v with
    | none => (s, 2)
    | some b =>
      if natBits b 1 0 = 3 ∨ natBits b 63 56 ≠ 0 then (s.reportWalk ctx lc cluster, 2)
      else if natBits b 1 0 = 2 then
        (let t := s.demand ctx b v 4 level ia
         match t.install cluster ctx va with
         | some u => (u, 0)
         | none => (t, 2))
      else (s, if natBits b 1 0 = 1 then 1 else 2)

/-- R274: the TSC takes a translation request. -/
def State.serveWalk (s : State) (m : Msg) : State :=
  let va : Word := BitVec.ofNat 64 (leNat (m.payload.take 8))
  let w := leNat ((m.payload.drop 8).take 8)
  let r := s.answerWalk m.dst (natBits w 7 0) (leNat ((m.payload.drop 16).take 8)) va
  r.1.tscReply m.dst (natBits w 13 8) (natBits w 23 16) r.2

/-- R264, R341: the number of the TSC of a cluster among the cores (log entry 10). -/
def tscCore (cluster : Nat) : Nat := 1024 + cluster

/-- R341, R406: how many clusters apart two clusters of the mesh lie, along its rows and columns of clusters. -/
def clusterSteps (a b : Nat) : Nat := (a / 8 - b / 8) + (b / 8 - a / 8) + (a % 8 - b % 8) + (b % 8 - a % 8)

/-- R406: the clusters by their distance from one, in ascending number where two are equally far. -/
def clustersNear (cluster : Nat) : List Nat :=
  ((List.range 23).map fun d => (List.range 128).filter fun k => clusterSteps k cluster = d).flatten

/-- R406: the TSC that takes a cluster's requests: its own, or where that is retired that of the nearest cluster whose TSC is
in service. -/
def State.tscOf (s : State) (cluster : Nat) : Nat :=
  let serves (k : Nat) : Bool := s.retired.all fun u => decide (u.1 ≠ .tsc) || decide (clusterIdOf u.2 ≠ k)
  if serves cluster then cluster else ((clustersNear cluster).find? serves).getD cluster

/-- R273, R274: the logical core of context 0 that runs on a TSC and takes its requests on channel 0; none where the shipped
firmware of the model does. -/
def State.tscHost (s : State) (cluster : Nat) : Option Nat :=
  ((s.ctxOf 0).lcores.find? fun l => l.valid && decide (l.pcore = tscCore cluster) && !(l.ttOf 0).off).map fun l => l.n

/-- R186, R274, R281, R433: the Deliver step of a translation request: into channel 0 of the TSC; none where it must wait. At a
TSC in a fenced rectangle it is answered ABORT. -/
def State.deliverWalk (s : State) (m : Msg) : Option State :=
  if s.fencedCluster (s.tscOf m.dst) then
    (let w := leNat ((m.payload.drop 8).take 8)
     some (s.tscReply m.dst (natBits w 13 8) (natBits w 23 16) 2))
  else match s.tscHost (s.tscOf m.dst) with
    | some n => s.deliverMsg { m with dst := n, kind := .device }
    | none => some (s.serveWalk m)

/-- Whether a message is a translation request. -/
def Msg.isWalk (m : Msg) : Bool := decide (m.kind = .tlbRequest)

/-- Whether a message is a contribution. -/
def Msg.isRed (m : Msg) : Bool :=
  match m.kind with
  | .reduction _ _ => true
  | _ => false

/-- R186: whether two messages are contributions of one participant to one group. -/
def Msg.sameRed (x m : Msg) : Bool :=
  match x.kind, m.kind with
  | .reduction g _, .reduction h _ => decide (g = h) && decide (x.ctx = m.ctx) && decide (x.src = m.src)
  | _, _ => false

/-- R186: the Deliver step of a message: into its FIFO or inbox, to a reduction group, or to the TSC. Replies, entries and
verdicts have steps of their own. -/
def execMessageDeliver (i : Nat) (st : State) : Out :=
  .next (match st.net[i]? with
    | none => st
    | some m =>
      if m.isWalk then st.deliverBy i Msg.isWalk State.deliverWalk
      else if m.isRed then
        (if ((st.net.take i).any fun x => x.sameRed m) then st
        else (({ st with net := dropAt st.net i } : State).contribute m).getD st)
      else if m.isReply && !(st.lcOf m.ctx m.dst).out then st
      else st.deliverBy i Msg.toFifo State.deliverMsg)

/-! ### Mailbox replies (R280) -/

/-- R280: a reply at the mailbox of a core slot; an access of an alarm's check that is aborted drops the alarm (R256). -/
def State.replySlot (s : State) (core k : Nat) (va : Word) (code : Nat) : State :=
  match s.slotAt core k with
  | none => s
  | some f =>
    let checking := f.firing.alarm.isSome && !f.chunk.checked
    if code = 0 then s.setSlot { f with wait := .none }
    else if code = 1 then s.setSlot { f with wait := .none, zeros := va :: f.zeros }
    else if checking then s.setSlot { f with wait := .none, chunk := { f.chunk with checkFail := true } }
    else
      let t := s.refocus core k
      t.takeException .page t.focus.reg.pc va 0 0

/-- R299: the element writes that a ZERO reply suppresses: those of the row that fault; for a copy, and a read, the one
element. -/
def State.zeroedBy (s : State) (j : Job) : List Nat :=
  if !j.pwrite then [j.pelem]
  else if j.engine = .copy then [2 ^ 32 + j.pelem]
  else
    let m := j.pelem / j.n
    ((List.range j.n).filter fun n =>
      let o := s.drainTarget j m n
      (s.elemLocs j o.loc (codeBytes o.fmt.width) true).any fun x => match x with
        | .miss _ => true
        | _ => false).map fun n => 2 ^ 32 + (m * j.n + n)

/-- R280, R289, R299, R309: a reply at the mailbox of an engine: the job goes on, reads zero at the element or writes nothing
where its row faults, or ends with ERROR ABORT. -/
def State.replyEngine (s : State) (cluster : Nat) (e : Engine) (seq code : Nat) : State :=
  match s.jobs.find? fun j => decide (j.engine = e) && decide (j.cluster = cluster) && decide (j.st = 3)
      && decide (j.seq = some seq) with
  | none => s
  | some j =>
    let j1 : Job := { j with st := 2, seq := none }
    if code = 0 then s.setJob j1
    else if code = 1 then s.setJob { j1 with zero := s.zeroedBy j ++ j.zero }
    else s.setJob { j1 with err := 1 }

/-- R280, R334: a reply for an access of a hurdle router to a record: the access is made again, or its write is suppressed, or
the record is dropped with ERR. No access of the router needs a translation, so the model posts no such request. -/
def State.replyRouter (s : State) (cluster seq code : Nat) : State :=
  let all := (s.ctxs.map fun c => (c.hurdles.map fun h =>
    (if clusterIdOf (c.lcOf (8 * h.1)).pcore = cluster then h.2.recs.map fun r => (c.id, h.1, r) else [])).flatten).flatten
  match all.find? fun p => decide (p.2.2.box = some seq) with
  | none => s
  | some p =>
    let s1 := s.setHurdle p.1 p.2.1 ((s.hurdleOf p.1 p.2.1).setRec { p.2.2 with box := none })
    if code = 2 then s1.hsDrop p.1 p.2.1 p.2.2.set p.2.2.rid p.2.2.stage true else s1

/-- R280: a reply for the request that a mailbox holds; any other is discarded. -/
def State.applyMailbox (s : State) (cluster mbox seq code : Nat) : State :=
  let c := s.clusterOf cluster
  match c.boxes.find? fun b => decide (b.1 = mbox) && decide (b.2.1 = seq) with
  | none => s
  | some b =>
    let s1 := s.setCluster { c with boxes := c.boxes.filter fun x => x.1 ≠ mbox }
    if mbox < 32 then s1.replySlot (coreAt cluster (mbox / 4)) (mbox % 4) b.2.2.1 code
    else if mbox = 32 then s1.replyEngine cluster .matrix seq code
    else if mbox = 33 then s1.replyEngine cluster .copy seq code
    else s1.replyRouter cluster seq code

/-- R200, R394: whether a reply would raise PAGE at a slot whose exception must wait. -/
def State.replyWaits (s : State) (cluster mbox code : Nat) : Bool :=
  decide (code = 2) && decide (mbox < 32) && (match s.slotAt (coreAt cluster (mbox / 4)) (mbox % 4) with
    | none => false
    | some f => !(f.firing.alarm.isSome && !f.chunk.checked) && (s.refocus f.core f.k).exceptionWaits)

/-- R280: a mailbox reply arrives. -/
def execFaultReplyArrival (i : Nat) (st : State) : Out :=
  .next (match st.net[i]? with
    | none => st
    | some m =>
      match m.kind with
      | .mailboxReply mbox seq code =>
        if st.replyWaits m.dst mbox code then st
        else ({ st with net := dropAt st.net i } : State).applyMailbox m.dst mbox seq code
      | _ => st)

end Sys2Proof.Machine
end

