-- ==== Sys2Proof/Machine/Engines.lean ====
section
/-! DEFINITION. The engines' steps: Take (R187, R267, R291, R295), Read element, Perform, Apply (R188), the results of a
matrix job (R292 to R294, R300, R301), and Post completion (R189, R191). -/

namespace Sys2Proof.Machine

/-! ### Taking a command (R187, R267, R295) -/

/-- R266: the oldest queued command of a core. -/
def State.headJob (s : State) (e : Engine) (core : Nat) : Option Job :=
  s.jobs.find? fun j => decide (j.engine = e) && decide (j.pcore = core) && decide (j.st = 1)

/-- R175: whether a tile admits a reader; an undefined tile holds nothing to wait for. -/
def Tile.admitsRead (t : Tile) : Bool := decide (t.size = 0) || decide (2 ≤ t.state)
/-- R175: whether a tile admits a writer. -/
def Tile.admitsWrite (t : Tile) : Bool := decide (t.size = 0) || decide (t.state % 2 = 0)

/-- R175, R187: whether the tiles a command names admit it. -/
def State.tilesAdmit (s : State) (j : Job) : Bool :=
  (j.tiles.1.all fun t => ((s.lcOf j.ctx t.1).tileOf t.2).admitsRead)
    && (match j.tiles.2 with
      | some t => ((s.lcOf j.ctx t.1).tileOf t.2).admitsWrite
      | none => true)

/-- Whether a command is in flight. -/
def Job.running (j : Job) : Bool := decide (j.st = 2) || decide (j.st = 3)

/-- R295: the running matrix jobs of a cluster. -/
def State.matrixRunning (s : State) (cluster : Nat) : List Job :=
  s.jobs.filter fun j => decide (j.engine = .matrix) && decide (j.cluster = cluster) && j.running

/-- R295: whether the accumulator and the job counts of the engine admit a job. -/
def State.matrixAdmits (s : State) (j : Job) : Bool :=
  let l := s.matrixRunning j.cluster
  match j.op with
  | 2 => l.all fun x => x.op ≠ 2
  | 3 => (l.all fun x => x.op ≠ 3) && (l.all fun x => x.op < 3 || decide (x.atile ≠ j.atile))
  | _ => decide ((l.filter fun x => 4 ≤ x.op).length < 2) && (l.all fun x => x.op < 3 || decide (x.atile ≠ j.atile))

/-- R291: an MX.STR waits for the MX.LS it streams against to end. -/
def State.weightsReady (s : State) (j : Job) : Bool :=
  decide (j.engine ≠ .matrix) || decide (j.op ≠ 3) || (match s.lsOf j with
    | some l => decide (4 ≤ l.st)
    | none => true)

/-- R187: whether a queued command may be taken. -/
def State.mayTake (s : State) (j : Job) : Bool :=
  let c := s.ctxOf j.ctx
  c.runs && !(c.lcOf j.lc).moving && !s.fencedCluster j.cluster
    && (s.pend.all fun p => p.uid ∉ j.acq)
    && (match j.wphase with
      | some n => decide (n < (c.barOf (barOwner j.lc (bitsOf j.word 6 0)) (bitsOf j.word 6 0)).flips)
      | none => true)
    && s.tilesAdmit j && !s.jobTilesHeld j && s.weightsReady j && (decide (j.engine = .copy) || s.matrixAdmits j)

/-- R267: the arbitration pointer of an engine. -/
def Cluster.turnOf (c : Cluster) : Engine → Nat
  | .matrix => c.turn
  | .copy => c.cturn

/-- R267: after taking a command of core k an engine next considers core k + 1 mod 8. -/
def Cluster.turnPast (c : Cluster) (e : Engine) (k : Nat) : Cluster :=
  match e with
  | .matrix => { c with turn := (k + 1) % 8 }
  | .copy => { c with cturn := (k + 1) % 8 }

/-- R267: the position of the cluster whose head command an engine takes next: a core whose head command waits is passed
over. -/
def State.nextTurn (s : State) (cluster : Nat) (e : Engine) : Option Nat :=
  ((List.range 8).map fun i => ((s.clusterOf cluster).turnOf e + i) % 8).find? fun k =>
    ((s.headJob e (coreAt cluster k)).map s.mayTake).getD false

/-- R291: the planes as an MX.STR finds them: whether it reloads, and the cluster with its weights stationary. -/
def Cluster.swapFor (k : Cluster) (u : Nat) : Bool × Cluster :=
  if k.stat.any fun p => p.ls = u then (false, k)
  else if k.shadow.any fun p => p.ls = u then
    (false, { k with stat := k.shadow.map fun p => { p with used := true }, shadow := k.stat })
  else (true, k)

/-- R292: whether an MX.LS, and the jobs that reload its weights, are in 2:4 mode. -/
def Job.sparse (j : Job) : Bool := decide (bitsOf (j.eg 0) 13 12 = 1)

/-- R426: a fabric port. -/
def State.portOf (s : State) (n : Nat) : Port := lookupD s.ports n {}

/-- R426: whether no fabric port is up. -/
def State.linksDown (s : State) : Bool := (List.range 16).all fun n => (s.portOf n).down

/-- R419: which word of a block names the object that RSRC or RDST marks. -/
def Job.farWord (j : Job) : Nat := if j.bits 7 6 6 = 1 then 2 else 4

/-- R419: the record of the object that RSRC or RDST marks, kept under an index, where it grants CP and the right of its end;
without them the transfer ends with ERROR RIGHTS. -/
def Job.takeRecord (j : Job) (i r : Nat) : Job :=
  if objOk r && objRight r 10 && objRight r (if j.bits 7 6 6 = 1 then 7 else 8) then { j with recs := (i, r) :: j.recs }
  else { j with err := 8 }

/-- R419: the record that another package answers with, whose rights are checked there: without them, or where the package
refuses, the transfer ends with ERROR RIGHTS. -/
def Job.withFar (j : Job) (far : Option Nat) : Job :=
  match far with
  | none => { j with err := 8 }
  | some r => j.takeRecord (farIndex (j.bits j.farWord 15 0)) r

/-- R417, R426: whether the route to a package leads over a port that is up. -/
def State.reaches (s : State) (pkg : Nat) : Bool := !(s.portOf (lookupD s.routes pkg 0)).down

/-- R291, R299, R419, R426: what the take finds out: a copy whose package no link reaches, or whose remote object refuses it; no
weights, a reload, an undefined target, the trap of R300. -/
def State.takeChecks (s : State) (j : Job) (far : Option Nat) : State × Job :=
  if j.engine = .copy then
    (s, if j.selfNamed then j.takeRecord (j.bits j.farWord 15 0) (s.recordNow (s.ctxOf j.ctx) (j.bits j.farWord 15 0, 0)).2
        else if !j.remote then j
        else if s.reaches (j.bits 7 5 0) then j.withFar far else { j with err := 9 })
  else
    let trap := (j.eg 0).getLsbD 14 || ((s.ctxOf j.ctx).watchOf (some j.cluster) j.wg).nantrap
    let j1 : Job := { j with trap := trap }
    if j.op = 3 then
      (match s.lsOf j with
        | some l =>
          if l.st = 4 then
            let r := (s.clusterOf j.cluster).swapFor l.uid
            (s.setCluster r.2, { j1 with reload := r.1 })
          else (s, { j1 with err := 2 })
        | none => (s, { j1 with err := 2 }))
    else if j.op = 4 then
      (match j.tiles.2 with
        | some t => (s, if ((s.lcOf j.ctx t.1).tileOf t.2).size = 0 then { j1 with err := 4 } else j1)
        | none => (s, j1))
    else (s, j1)

/-- R187: takes a command: tile states change. -/
def State.takeJob (s : State) (j : Job) (far : Option Nat) : State :=
  let r := s.takeChecks { j with st := 2 } far
  let s1 := r.1.setJob r.2
  let s2 := j.tiles.1.foldl (fun s t => s.changeTile j.ctx t.1 t.2 Tile.readerStart) s1
  match j.tiles.2 with
  | some t => s2.changeTile j.ctx t.1 t.2 fun e => e.withState 1
  | none => s2

/-- R187, R267: the Take step of a position of a cluster. -/
def execCommandTake (cluster : Nat) (e : Engine) (head : TakenHead) (st : State) : Out :=
  .next (match st.headJob e (coreAt cluster head.pos) with
    | none => st
    | some j =>
      if st.nextTurn cluster e = some head.pos then
        let t := st.takeJob j head.far
        t.setCluster ((t.clusterOf cluster).turnPast e head.pos)
      else st)

/-! ### Element steps (R188) -/

/-- R274: the mailbox of an engine. -/
def engineBox : Engine → Nat
  | .matrix => 32
  | .copy => 33

/-- A running command of an engine of a cluster; a cancelled drain runs on to the end of the rows it has begun (R303). -/
def State.runningJob (s : State) (cluster : Nat) (e : Engine) (uid : Nat) : Option Job :=
  (s.jobOf uid).bind fun j =>
    if j.engine = e ∧ j.cluster = cluster ∧ j.st = 2 ∧ j.err = 0 ∧ (j.cancel = false ∨ e = .matrix) then some j else none

/-- R274, R289: an engine's access that the cluster TLB lacks: a request on its mailbox, one at a time, and the command
parks. -/
def State.engineMiss (s : State) (j : Job) (va : Word) (elem : Nat) (write : Bool) : State :=
  let c := s.clusterOf j.cluster
  let b := engineBox j.engine
  if c.boxes.any fun x => x.1 = b then s
  else
    let seq := lookupD c.seqs b 0
    let acc := if write then 3 else 0
    let payload := leBytes 8 (bitsOf va 55 0) ++ leBytes 8 (j.ctx % 256 + b * 2 ^ 8 + seq * 2 ^ 16 + acc * 2 ^ 24)
      ++ leBytes 8 (j.lc % 4096)
    let s1 := s.setCluster { c with
      boxes := c.boxes ++ [(b, seq, va, j.ctx, acc, j.lc)]
      seqs := setKey c.seqs b ((seq + 1) % 256) }
    (s1.setJob { j with st := 3, seq := some seq, pelem := elem, pwrite := write }).post
      (deviceMsg 0 j.cluster 0 payload (.engine j.cluster j.engine) .tlbRequest)

/-- R188: an element as read. -/
def Job.keep (j : Job) (elem code sc : Nat) : Job := { j with buf := (elem, code, sc) :: j.buf }

/-- R290, R307: an element that reads as zero and counts as out of bounds. -/
def Job.keepZero (j : Job) (elem : Nat) : Job := { j.keep elem 0 127 with oor := j.oor + 1 }

/-- R384: a byte of an engine access that the cluster TLB does not translate, by the tables. -/
def State.resolved (s : State) (j : Job) (write : Bool) : EngLoc → EngLoc
  | .miss va => (match s.walk j.ctx va with
    | some e => s.devicePlace j va write e
    | none => .bad)
  | x => x

/-- R384: the place of a destination byte of a copy is written poisoned: its unit in DRAM, or its eight bytes in a
scratchpad (R162). -/
def State.poisonLoc (s : State) (j : Job) (x : EngLoc) : State :=
  match s.resolved j true x with
  | .key k a => if isDeviceKey k then s.poisonWrite a k else s.poisonUnit (k / 8 * 8) 8
  | _ => s

/-- R384: whether an element of a copy would take poisoned bytes. -/
def State.takesPoison (s : State) (j : Job) (elem : Nat) : Bool :=
  decide (elem ∉ j.done) && (match s.readsOf j elem with
    | none => false
    | some o => (s.operandLocs j o).any fun x => match s.resolved j false x with
      | .key k _ => inPoison s.poison k || frameAbsent k
      | _ => false)

/-- R384: the destination of an element of a copy is written poisoned. -/
def State.poisonElem (s : State) (j : Job) (elem : Nat) : State :=
  match s.copyTarget j (elem % j.e0) (elem / j.e0) with
  | none => s
  | some o => (s.elemLocs j o.loc (codeBytes o.fmt.width) true).foldl (fun s x => s.poisonLoc j x) s

/-- R384: every destination unit of a copy that would have taken poisoned bytes is written poisoned. -/
def State.poisonTargets (s : State) (j : Job) : State :=
  if j.engine ≠ .copy then s
  else ((List.range (j.e0 * j.e1)).filter (s.takesPoison j)).foldl (fun s i => s.poisonElem j i) s

/-- R289: the error of a command. -/
def State.failJob (s : State) (j : Job) (n : Nat) : State := s.setJob { j with err := n }

/-- R419: whether an element's read lies in another package. -/
def Job.readsRemote (j : Job) (elem : Nat) : Bool := j.remote && decide (j.bits 7 6 6 = 1) && decide (elem < j.e0 * j.e1)

/-- R193: whether an element's read goes to host memory. -/
def State.readsHost (s : State) (j : Job) (o : Operand) : Bool := (s.operandLocs j o).any fun x => match x with
  | .host _ => true
  | _ => false

/-- R419: an element as another package answers: its bytes, and its scale byte where the object has scales. -/
def Job.keepFar (j : Job) (elem : Nat) (o : Operand) (bytes : List Nat) : Job :=
  let n := codeBytes o.fmt.width
  j.keep elem (codeFrom o.fmt o.loc ((List.range n).map fun i => BitVec.ofNat 8 (bytes.getD i 0)))
    (if o.scale.isSome then bytes.getD n 127 % 256 else 127)

/-- R419: whether a copy has asked another package for an element. -/
def State.askedFar (s : State) (j : Job) (elem : Nat) : Bool := s.fabOut.any fun x => decide (x.msg.kind = .farRead j.uid elem)

/-- R417, R419, R426: the read of an element of another package's object: the request leaves, and its answer, which the route must
carry, acknowledges it. -/
def State.farStep (s : State) (j : Job) (elem : Nat) (o : Operand) (backs : List Nat) (refused : Bool) : State :=
  if !s.askedFar j elem then s.postFabric { j.message 0 0 [] (.farRead j.uid elem) with pkg := j.bits 7 5 0 }
  else if !(s.reaches (j.bits 7 5 0)) then s
  else
    let t : State := { s with fabOut := s.fabOut.filter fun x => x.msg.kind ≠ .farRead j.uid elem }
    if refused then t.failJob j 8 else t.setJob (j.keepFar elem o backs)

/-- R177, R188, R193, R290, R419: reads element elem of a job, each byte at a log position of its own; the bytes of another
package's object are those that it answers with. refused says that the host, or that package, refuses the read. -/
def State.readStep (s0 : State) (j : Job) (elem : Nat) (backs : List Nat) (refused : Bool) : State :=
  match s0.readsOf j elem with
  | none => s0
  | some o =>
    if (j.got elem).isSome then s0
    else if o.loc = .outside ∨ elem ∈ j.zero then s0.setJob (j.keepZero elem)
    else if j.readsRemote elem then s0.farStep j elem o backs refused
    else if refused && s0.readsHost j o then s0.failJob j 8
    else
      let s := s0.fillLocs j (s0.operandLocs j o)
      match s.readOperand j backs o with
      | .bytes l => s.setJob (j.keep elem (codeFrom o.fmt o.loc l) ((l.getLast?.getD 127).toNat))
      | .miss va => s.engineMiss j va elem false
      | .err n => (if n = 7 then s.poisonTargets j else s).failJob j n

/-- R188: the Read element step: byte i of the element as M stood backs[i] log entries ago, within the command's view; its
scale byte comes last. -/
def execReadElement (cluster : Nat) (e : Engine) (job elem : Nat) (view : ReadView) (st : State) : Out :=
  .next (match st.runningJob cluster e job with
    | none => st
    | some j => st.readStep j elem view.backs view.refused)

/-- R188, R307: whether the rows that a command orders before an element are performed. -/
def Job.rowsBefore (j : Job) (elem : Nat) : Bool :=
  decide (j.engine ≠ .copy) || decide (j.op ≠ 2) || (List.range (elem / j.e0 * j.e0)).all fun i => decide (i ∈ j.done)

/-- R91, R188: the bytes that a code writes: a 4-bit code changes its own nibble of the byte as the cluster sees it. -/
def State.codeBytesOf (s : State) (j : Job) (w : Write) (k : Nat) : List Byte :=
  if w.dst.fmt.width = 4 then
    let old := (s.committedByte j.cluster k).toNat
    [BitVec.ofNat 8 (if w.dst.loc.hi then old % 16 + 16 * (w.code % 16) else old / 16 * 16 + w.code % 16)]
  else leBytes (codeBytes w.dst.fmt.width) w.code

/-- R188: writes one byte into the pending set, squashing the chunks of the cluster that read it. -/
def State.perform1 (s : State) (j : Job) (a : Attr) (k : Nat) (b : Byte) : State :=
  let p : Pend := { cluster := j.cluster, engine := j.engine, job := j.uid, key := k, val := b, pos := s.log.length
                    uid := s.nextUid, attr := a }
  ({ s with pend := p :: s.pend, nextUid := s.nextUid + 1 } : State).touch [.byte k] fun f =>
    decide (clusterIdOf f.core = j.cluster)

/-- R298: counts the events of an element with a tile target in the tile. -/
def State.countTile (s : State) (j : Job) (sat nan : Bool) : State :=
  match j.tiles.2 with
  | none => s
  | some t =>
    if sat || nan then
      let l := s.lcOf j.ctx t.1
      s.setLc j.ctx (l.setTile t.2 ((l.tileOf t.2).addEvents sat.toNat nan.toNat))
    else s

/-- R188: an element is performed, with its events. -/
def State.markDone (s : State) (j : Job) (elem : Nat) (w : Write) : State :=
  (s.countTile j w.sat w.nan).setJob { j with done := elem :: j.done, sat := if w.sat then j.sat + 1 else j.sat }

/-- R193: a write of an engine to host memory, released to the host link. -/
def State.engineHostStore (s : State) (j : Job) (a : Word) (l : List Byte) : State :=
  { s with hostQ := s.hostQ ++ [{ ctx := j.ctx, va := a, data := l, lc := j.lc, ch := j.fch, fid := j.fid, fts := j.fts
                                  job := some j.uid, ran := j.ran }] }

/-- R419: the element of another package's object that a step of a copy writes: i0 and i1; the scale byte of a block is
named by its first element and 2^32. -/
def Job.farElem (j : Job) (elem : Nat) : Nat × Nat :=
  let n := j.e0 * j.e1
  if elem < n then (j.bits 5 31 0 + elem % j.e0, j.bits 5 63 32 + elem / j.e0)
  else (2 ^ 32 + j.bits 5 31 0 + 32 * ((elem - n) % j.rowBlocks), j.bits 5 63 32 + (elem - n) / j.rowBlocks)

/-- R419: a write to another package's object travels there, where it is performed and applied. -/
def State.sendWrite (s : State) (j : Job) (elem : Nat) (w : Write) : State :=
  let p := j.farElem elem
  s.postFabric { j.message 0 0 (leBytes (codeBytes w.dst.fmt.width) w.code) (.farWrite j.uid (j.bits 4 15 0) p.1 p.2) with
    pkg := j.bits 7 5 0 }

/-- R188, R193, R200, R280, R290, R299, R419: performs element elem of a job, once every byte of it has a place. -/
def State.performStep (s : State) (j : Job) (elem : Nat) : State :=
  match s.writeOf j elem with
  | none => s
  | some w =>
    let n := codeBytes w.dst.fmt.width
    if elem ∈ j.done ∨ j.rowsBefore elem = false ∨ (j.cancel = true ∧ (j.halted = true ∨ j.begun elem = false)) then s
    else if w.dst.loc = .outside ∨ 2 ^ 32 + elem ∈ j.zero then
      s.markDone { j with oor := if j.engine = .copy ∧ j.e0 * j.e1 ≤ elem then j.oor else j.oor + 1 } elem w
    else if j.remoteEnd 7 then (s.sendWrite j elem w).markDone j elem w
    else
      let locs := s.elemLocs j w.dst.loc n true
      match locs.findSome? EngLoc.missed, locs.mapM EngLoc.cell, locs.mapM EngLoc.hostOff with
      | some va, _, _ => s.engineMiss j va elem true
      | none, some ks, _ =>
        if s.exclBlocks none (ks.map fun k => k.1) then s
        else
          let s1 := if w.dst.fmt.width = 4 then s.fillLocs j locs else s
          let l := ks.zip (s1.codeBytesOf j w ((ks.map fun k => k.1).headD 0))
          (l.foldl (fun s x => s.perform1 j x.1.2 x.1.1 x.2) s1).markDone j elem w
      | none, none, some offs =>
        (s.engineHostStore j (BitVec.ofNat 64 (0x80000000000000 + offs.headD 0))
          (if w.dst.fmt.width = 4 then s.codeBytesOf j w (2 ^ 80) else leBytes n w.code)).markDone j elem w
      | none, none, none => s.failJob j 8

/-- R188: the Perform step. -/
def execPerform (cluster : Nat) (e : Engine) (job elem : Nat) (st : State) : Out :=
  .next (match st.runningJob cluster e job with
    | none => st
    | some j => st.performStep j elem)

/-- R190: the commands whose acquire set holds a pending write see it from its apply on. -/
def State.sawApply (s : State) (p : Pend) : State :=
  { s with jobs := s.jobs.map fun j =>
      if p.uid ∈ j.acq then { j with seen := setKey j.seen p.key s.log.length } else j }

/-- R384: an engine's write covers a byte: a poisoned unit of which one command has covered every byte is poisoned no more
(log entry 108). -/
def State.cover (s : State) (p : Pend) : State :=
  match s.poison.find? fun u => decide (u.1 ≤ p.key) && decide (p.key < u.1 + u.2) with
  | none => s
  | some u =>
    let l := addNew s.covered (p.job, p.key)
    if (List.range u.2).all fun i => decide ((p.job, u.1 + i) ∈ l) then
      { s.unpoison true u.1 u.2 with covered := l.filter fun c => decide (c.2 < u.1) || decide (u.1 + u.2 ≤ c.2) }
    else { s with covered := l }

/-- R188: the Apply step: a pending write of a command goes to M once the command's earlier writes to the byte have. -/
def execApply (i : Nat) (st : State) : Out :=
  .next (match st.pend[i]? with
    | none => st
    | some p =>
      if ((st.pend.drop (i + 1)).any fun q => decide (q.job = p.job) && decide (q.key = p.key))
          || st.exclBlocks none [p.key] then st
      else ((({ st with pend := dropAt st.pend i } : State).applyWith (fun _ => p.attr) p.key [p.val]).refreshAll
        [p.key]).sawApply p |>.cover p)

/-! ### The results of matrix jobs (R291 to R294, R300) -/

/-- R292: whether some group of four weights of a column has more than two that are not zero. -/
def State.sparseFails (s : State) (j : Job) : Bool :=
  j.sparse && (List.range j.n).any fun n => (List.range ((j.k + 3) / 4)).any fun g =>
    decide (2 < ((List.range (min 4 (j.k - 4 * g))).filter fun i =>
      match j.got (n * j.k + 4 * g + i), s.readsOf j (n * j.k + 4 * g + i) with
      | some c, some o => !(scaledCode o.fmt c.1 c.2).isZero
      | _, _ => false).length)

/-- R291, R292: an MX.LS marks the shadow plane with its weight set. -/
def State.endLs (s : State) (j : Job) : State × Job :=
  let k := s.clusterOf j.cluster
  if s.sparseFails j then (s.setCluster { k with shadow := none }, { j with err := 3 })
  else (s.setCluster { k with shadow := some { ctx := j.ctx, lc := j.lc, ls := j.uid, data := j.buf } }, j)

/-- R101: the exact sum of a chunk's products; an exact zero enters as +0. A padding element
times an infinity or a NaN gives NaN (DEDUCED, log entry 92). -/
def chunkSum (l : List (XR × XR)) : XR :=
  let x := l.foldl (fun t p => t.add (p.1.mul p.2)) (.zero false)
  if x.isZero then .zero false else x

/-- R100, R293: one rounding of the accumulation. -/
def accAdd (acc : Lane) (x : XR) : Lane := (rne32 (sumZero .rne (exact32 acc) x ((exact32 acc).add x))).val

/-- R293: one element of an MX.STR: a row of A and a column of B in chunks of 128. -/
def streamElem (acc : Lane) (l : List (XR × XR)) : Lane :=
  ((List.range ((l.length + 127) / 128)).map fun j => (l.drop (128 * j)).take 128).foldl
    (fun acc c => accAdd acc (chunkSum c)) acc

/-- R290, R293: the values that a job read for A, and those of a plane for B. -/
def Job.strValue (j : Job) (l : Job) (p : Plane) (m n k : Nat) : XR × XR :=
  let fa := j.fmtOf (bitsOf (j.eg 0) 4 0)
  let fb := l.fmtOf (bitsOf (l.eg 0) 9 5)
  let a := (j.got (m * l.k + k)).getD (0, 127)
  let b := ((p.data.find? fun x => x.1 = n * l.k + k).map fun x => x.2).getD (0, 127)
  (scaledCode fa a.1 a.2, scaledCode fb b.1 b.2)

/-- R291: the weights that a reload has read, as a plane. -/
def Job.reloaded (j : Job) (l : Job) : Plane :=
  { ctx := j.ctx, lc := j.lc, ls := l.uid, used := true
    data := j.buf.filterMap fun b => if j.m * l.k ≤ b.1 then some (b.1 - j.m * l.k, b.2.1, b.2.2) else none }

/-- R300: a produced NaN: its element and whether no NaN operand caused it. -/
structure NanOut where
  elem : Nat
  invalid : Bool
  deriving DecidableEq, Repr

/-- R293, R300: the accumulator after an MX.STR, and the NaNs it produced in ascending element order. -/
def Job.stream (j l : Job) (p : Plane) (t : AccTile) : AccTile × List NanOut :=
  let add := (j.eg 6).getLsbD 4
  let one (m n : Nat) : Lane × Option NanOut :=
    let xs := (List.range l.k).map fun k => j.strValue l p m n k
    let old := if add then t.get m n else 0
    let r := streamElem old xs
    (r, if (exact32 r).isNan && !(exact32 (t.get m n)).isNan then
          some ⟨m * 128 + n, !(xs.any fun x => x.1.isNan || x.2.isNan)⟩ else none)
  let all := ((List.range j.m).map fun m => (List.range l.n).map fun n => (m, n)).flatten.map fun q => (q, one q.1 q.2)
  let vals := all.foldl (fun v x => setKey v (x.1.1 * 128 + x.1.2) x.2.1) t.vals
  let nans := all.filterMap fun x => x.2.2
  ({ vals := vals.filter fun v => v.2 ≠ 0, mark := (add && t.mark) || !nans.isEmpty }, nans)

/-- R64, R81, R300, R301: a NANTRAP record of an engine, through the engine's outbox; one that names a firing is raised on
that firing's core, a FOLLOW record on the engine. -/
def State.nanRecord (s : State) (cluster ctx lc ch core : Nat) (fid pc fts i0 i1 i2 : Word) : State :=
  s.sendRecordFrom (.engine cluster .matrix) ctx lc false false (if fid = 0 then 2 else 0)
    (if fid = 0 then clusterRouter cluster else core) (trapRecord fid pc .nantrap ch false lc 0 fts i0 i1 i2)

/-- R301: closes a collection window; a count that is not zero is sent. -/
def State.closeWindow (s : State) (cluster : Nat) (w : NanWindow) : State :=
  let k := s.clusterOf cluster
  let s1 := s.setCluster { k with windows := k.windows.erase w }
  if w.count = 0 then s1
  else s1.nanRecord cluster w.ctx 0 0 0 0 0 0 (BitVec.ofNat 64 (2 ^ 25)) 0 (BitVec.ofNat 64 w.count)

/-- R301: the open collection window of a watch group. -/
def Cluster.windowOf (k : Cluster) (ctx wg : Nat) : Option NanWindow :=
  k.windows.find? fun w => decide (w.ctx = ctx) && decide (w.wg = wg)

/-- R301: closes the window of a watch group where 65,536 cycles have passed without a NaN. -/
def State.closeIdle (s : State) (cluster ctx wg : Nat) : State :=
  match (s.clusterOf cluster).windowOf ctx wg with
  | none => s
  | some w => if s.cycle < w.last + 65536 then s else s.closeWindow cluster w

/-- R300, R301: a job that produced NaNs sends its record, or counts in the open window of its watch group. -/
def State.trapNans (s0 : State) (j : Job) (l : List NanOut) : State :=
  match l with
  | [] => s0
  | x :: _ =>
    let s := s0.closeIdle j.cluster j.ctx j.wg
    let k := s.clusterOf j.cluster
    let s1 := s.watchEvent j.ctx j.cluster j.wg 32 0 j.fid
    if k.windows.any fun w => decide (w.ctx = j.ctx) && decide (w.wg = j.wg) then
      s1.setCluster { k with windows := k.windows.map fun w =>
        if w.ctx = j.ctx ∧ w.wg = j.wg then { w with last := s.cycle, count := w.count + 1 } else w }
    else if j.trap then
      (s1.setCluster { k with windows := k.windows ++ [⟨j.ctx, j.wg, s.cycle, 0⟩] }).nanRecord j.cluster j.ctx j.lc j.fch
        j.ran j.fid j.pc j.fts
        (BitVec.ofNat 64 (j.id + j.atile * 2 ^ 16 + (if x.invalid then 2 ^ 24 else 0)))
        (BitVec.ofNat 64 x.elem) (BitVec.ofNat 64 l.length)
    else s1

/-- R293: the end of an MX.STR: the reloaded weights become stationary, and the accumulator takes the sums. -/
def State.endStr (s : State) (j : Job) : State × Job :=
  match s.lsOf j with
  | none => (s, { j with err := 2 })
  | some l =>
    let bad := j.reload && l.sparse && s.sparseFails { l with buf := (j.reloaded l).data }
    let k := s.clusterOf j.cluster
    let p : Plane := if j.reload then j.reloaded l
      else (match k.stat with
        | some p => if p.ls = l.uid then p else ⟨j.ctx, j.lc, l.uid, true, l.buf⟩
        | none => ⟨j.ctx, j.lc, l.uid, true, l.buf⟩)
    if bad then (s, { j with err := 3 })
    else
      let k1 : Cluster := if j.reload then { k with stat := some p, shadow := k.stat } else k
      let r := j.stream l p (k1.accOf j.atile)
      let s1 := s.setCluster { k1 with acc := setKey k1.acc j.atile { r.1 with ctx := j.ctx, lc := j.lc } }
      (s1.trapNans j r.2, { j with nanm := !r.2.isEmpty })

/-- R294: MX.ZER. -/
def State.endZer (s : State) (j : Job) : State :=
  let k := s.clusterOf j.cluster
  s.setCluster { k with acc := dropKey k.acc j.atile }

/-- R293, R294, R291: what a matrix job leaves at its completion. -/
def State.matrixResult (s : State) (j : Job) : State × Job :=
  if j.engine = .copy ∨ j.err ≠ 0 ∨ j.cancel = true then (s, j)
  else match j.op with
    | 2 => s.endLs j
    | 3 => s.endStr j
    | 5 => (s.endZer j, j)
    | _ => (s, j)

/-- R408: the 128-byte rows of a number of elements of a width. -/
def rowsOf (n width : Nat) : Nat := (n * width / 8 + 127) / 128

/-- R408: the lines that n bytes at an address of device memory lie in. -/
def vaLines (a : Word) (n : Nat) : List Nat :=
  match regionOf a with
  | .device => [a.toNat / 128, (a.toNat + n - 1) / 128]
  | _ => []

/-- R408: the lines of device memory that an operand lies in, with its scale byte. -/
def Operand.lines (o : Operand) : List Nat :=
  (match o.loc with
    | .va a _ => vaLines a (codeBytes o.fmt.width)
    | _ => []) ++ (o.scale.toList.map fun a => vaLines a 1).flatten

/-- R408: the accesses to lines of the LLC that a job or transfer has made: the lines that it read, and those that it wrote; a
frame migration reads and writes each line it moves. -/
def State.jobLines (s : State) (j : Job) : Nat :=
  let count (l : List (Option Operand)) : Nat := ((l.map fun o => (o.map Operand.lines).getD []).flatten.foldl addNew []).length
  if j.engine = .copy ∧ j.op = 6 then 2 * ((j.bytes + 127) / 128)
  else if j.engine = .copy ∧ j.op = 5 then
    2 * count (j.done.map fun i => some (s.copyOperand j (decide (j.bits 0 5 5 = 1)) 4
      { uint8 with width := 128 } (i % j.e0) ((i / j.e0 : Nat) : Int)))
  else
    count (j.buf.map fun b => if j.readsRemote b.1 then none else s.readsOf j b.1)
      + (if j.remoteEnd 7 then 0 else count (j.done.map fun i => (s.writeOf j i).map fun w => w.dst))

/-- R408: the charge of a job or transfer, in units of 10 pJ. -/
def State.jobCharge (s : State) (j : Job) : Nat :=
  let w (x : Job) (n hi lo : Nat) : Nat := (x.fmtOf (bitsOf (x.eg n) hi lo)).width
  llcCharge * s.jobLines j + match j.engine with
  | .copy => 60 * (((if j.op = 6 then j.bytes else j.byteCount) + 127) / 128)
  | .matrix =>
    match j.op with
    | 3 =>
      let a := w j 0 4 0
      let b := ((s.lsOf j).map fun l => w l 0 9 5).getD 8
      if max a b = 16 then 200000 else if max a b = 8 then 50000 else 25000
    | 2 => 400 * rowsOf (j.n * j.k) (w j 0 9 5)
    | 4 => 400 * rowsOf (j.m * j.n) (w j 7 39 35)
    | _ => 0

/-! ### Post completion (R189, R191) -/

/-- R419: whether a message is a write of a copy to another package. -/
def Msg.writesFor (m : Msg) (uid : Nat) : Bool :=
  match m.kind with
  | .farWrite u _ _ _ => decide (u = uid)
  | _ => false

/-- R191, R193, R420: whether a command's release flag lets its completion be posted. A write to host memory is performed when the
host link has accepted or refused it (log entry 89), one to another package when that package acknowledges it (log entry
13). -/
def State.releaseMet (s : State) (j : Job) : Bool :=
  (s.hostQ.all fun h => h.job ≠ some j.uid) && (s.fabOut.all fun x => !x.msg.writesFor j.uid) && match j.release with
  | none => true
  | some sc => decide (sc < 2) || s.pend.all fun p => p.job ≠ j.uid

/-- R189: whether every element step of a command is done. -/
def State.stepsDone (s : State) (j : Job) : Bool :=
  decide (j.err ≠ 0) || (j.cancel && (decide (j.engine = .copy) || j.halted || j.rowsWhole))
    || (!j.cancel && ((List.range (s.readCount j)).all fun i => (j.got i).isSome) && ((List.range j.writeCount).all fun i => i ∈ j.done))

/-- R390, R391: whether a REGRAN has migrated, or released, all its frames. -/
def Job.migrated (j : Job) : Bool :=
  decide (j.engine ≠ .copy) || decide (j.op ≠ 6) || decide (j.err ≠ 0) || j.cancel
    || decide ((if j.bits 7 4 4 = 1 then 1 else j.e0) ≤ j.done.length)

/-- R391: a mapping of the source frame of a migration, as firmware rewrites it. -/
def Migration.remap (m : Migration) (p : Stage2) : Stage2 :=
  if p.pa = m.src then { p with pa := m.dst, gran := m.ngran, mig := false } else p

/-- R391: after a REGRAN's completion firmware maps its destination frames in the second stage, with NGRAN and MIG = 0
(log entry 75). -/
def State.mapMigrated (s : State) (uid : Nat) : State :=
  let l := s.migs.filter fun m => m.closed && decide (m.uid = uid)
  s.ctxs.foldl (fun (s : State) (c : Ctx) =>
    let t : List Stage2 := c.stage2.map fun p => l.foldl (fun p m => m.remap p) p
    if t = c.stage2 then s else s.putStage { s.ctxOf c.id with stage2 := t }) s

/-- R175, R189, R191: the Post completion step. A RINGSWEEP and a REGRAN are complete when every word or frame is done. -/
def execPostCompletion (cluster : Nat) (e : Engine) (job : Nat) (st : State) : Out :=
  .next (match st.jobOf job with
    | none => st
    | some j =>
      if j.engine = e ∧ j.cluster = cluster ∧ j.st = 2 ∧ st.stepsDone j = true ∧ st.releaseMet j = true ∧ j.migrated = true
          ∧ st.jobTilesHeld j = false then
        let r := st.matrixResult j
        ((r.1.charge j.ctx cluster (st.jobCharge j)).mapMigrated job).complete r.2
      else st)

/-- R301: a collection window closes after 65,536 cycles without a NaN; a count that is not zero is sent. -/
def execNanWindowClose (cluster ctx wg : Nat) (st : State) : Out := .next (st.closeIdle cluster ctx wg)

end Sys2Proof.Machine
end

