-- ==== Sys2Proof/Machine/Copies.lean ====
section
/-! DEFINITION. The copy operations as steps of their own (R307), RINGSWEEP (R246), and frame migration (R388 to R391). -/

namespace Sys2Proof.Machine

/-! ### COPY, GATHER, SCATTER, FILL and CONVERT (R307) -/

/-- R307: the running copy of an operation code to which element (e0, e1) belongs. -/
def State.copyJob (s : State) (cluster uid op e0 e1 : Nat) : Option Job :=
  (s.runningJob cluster .copy uid).bind fun j => if j.op = op ∧ e0 < j.e0 ∧ e1 < j.e1 then some j else none

/-- R307: the next step of an element of a copy: its index, its source, its destination, and the scale byte of its block
where it starts a block of a quantising CONVERT. -/
def State.copyElement (s : State) (cluster uid op e0 e1 : Nat) : State :=
  match s.copyJob cluster uid op e0 e1 with
  | none => s
  | some j =>
    let n := j.e0 * j.e1
    let i := e1 * j.e0 + e0
    if (op = 1 ∨ op = 2) ∧ (j.got (n + e1)).isNone then s.readStep j (n + e1) [] false
    else if op ≠ 3 ∧ (j.got i).isNone then s.readStep j i [] false
    else if i ∉ j.done then s.performStep j i
    else if j.quantises = true ∧ e0 % 32 = 0 then s.performStep j (n + e1 * j.rowBlocks + e0 / 32)
    else s

/-- R307: COPY. -/
def execCopyOpCopy (cluster job e0 e1 : Nat) (st : State) : Out := .next (st.copyElement cluster job 0 e0 e1)
/-- R307: GATHER. -/
def execCopyOpGather (cluster job e0 e1 : Nat) (st : State) : Out := .next (st.copyElement cluster job 1 e0 e1)
/-- R307: SCATTER. -/
def execCopyOpScatter (cluster job e0 e1 : Nat) (st : State) : Out := .next (st.copyElement cluster job 2 e0 e1)
/-- R307: FILL. -/
def execCopyOpFill (cluster job e0 e1 : Nat) (st : State) : Out := .next (st.copyElement cluster job 3 e0 e1)
/-- R307: CONVERT. -/
def execCopyOpConvert (cluster job e0 e1 : Nat) (st : State) : Out := .next (st.copyElement cluster job 4 e0 e1)

/-! ### RINGSWEEP (R246) -/

/-- R246: a word of the region is done: advanced, skipped, or neither. -/
def Job.swept (j : Job) (elem adv skip : Nat) : Job :=
  { j with done := elem :: j.done, oor := j.oor + adv, sat := j.sat + skip }

/-- R241, R246: the law entry of a word as it stands in M, or the error it ends the transfer with. -/
def State.sweepLaw (s : State) (j : Job) (law : Nat) : Except Nat Law :=
  if law = 0 then .ok (Law.ofBytes (List.replicate 32 0))
  else match s.vaKeys j.ctx ((s.ctxOf j.ctx).lawAddr law) 32 with
    | none => .error 8
    | some ks =>
      if ks.any fun k => inPoison s.poison k || frameAbsent k then .error 7
      else .ok (Law.ofBytes (ks.map fun k => cellRead s.mem k))

/-- R241, R379: the law entry of a word is read. -/
def State.readLaw (s : State) (j : Job) (law : Nat) : State :=
  if law = 0 then s else s.readSpan j.cluster j.ctx ((s.ctxOf j.ctx).lawAddr law) 32

/-- R246: the step on one word, in one Apply step at its home. A word with a reserved KIND is skipped like one with
reserved bits. -/
def State.sweepWord (s0 : State) (j : Job) (elem key : Nat) (a : Attr) (addr : Word) : State :=
  let w := RingWord.ofBytes (cellReadList s0.mem key 16)
  let s := if w.rsv = 0 then s0.readLaw j w.law else s0
  if w.rsv ≠ 0 then s.setJob (j.swept elem 0 1)
  else match s.sweepLaw j w.law with
    | .error n => s.failJob j n
    | .ok e =>
      if 3 < e.kind then s.setJob (j.swept elem 0 1)
      else
        let c := clockOf (lookupD j.clocks e.clk 0) e.shift w.t
        if c.raw < 2 ^ 46 ∨ 2 ^ 47 ≤ c.raw then s.setJob (j.swept elem 0 0)
        else
          let r := ringAccess .adv w e c
          let s1 := (s.applyWith (fun _ => a) key r.word.bytes).setJob (j.swept elem 1 0)
          if r.alarm = 0 then s1
          else s1.sendAlarm j.ctx (alarmFor addr.toNat j.lc j.ran j.fid j.fts j.fch e c r)

/-- R163, R254: the address that names a word of an object in an alarm: a scratchpad word of the issuing core by its
remote address. -/
def Job.wordAddr (j : Job) (a : Word) : Word :=
  match regionOf a with
  | .own _ off => remoteAddr j.lc off
  | _ => a

/-- R246: visits element (e0, e1) of the region: a ring word where it lies in bounds at a multiple of 16. -/
def State.sweepElement (s : State) (j : Job) (elem : Nat) (o : Operand) : State :=
  match o.loc with
  | .va a _ =>
    if a.toNat % 16 ≠ 0 ∨ elem ∈ j.zero ∨ 2 ^ 32 + elem ∈ j.zero then s.setJob (j.swept elem 0 0)
    else match s.engineLoc j a true with
      | .key k at' =>
        let t := s.fillLocs j ((List.range 16).map fun i => .key (k + i) at')
        if (List.range 16).any fun i => inPoison t.poison (k + i) || frameAbsent (k + i) then t.failJob j 7
        else if t.exclBlocks none ((List.range 16).map fun i => k + i) then s
        else t.sweepWord j elem k at' (j.wordAddr a)
      | .miss va => s.engineMiss j va elem true
      | _ => s.failJob j 8
  | .key k _ =>
    if k % 16 ≠ 0 then s.setJob (j.swept elem 0 0)
    else if (List.range 16).any fun i => inPoison s.poison (k + i) then s.failJob j 7
    else if s.exclBlocks none ((List.range 16).map fun i => k + i) then s
    else s.sweepWord j elem k {} (remoteAddr ((k - 2 ^ 40) / 2 ^ 24 % 4096) (k % 2 ^ 24))
  | .outside => s.setJob (j.swept elem 0 0)

/-- R246: the format by which RINGSWEEP walks its region: 16-byte elements. -/
def ringFmt : Fmt := { uint8 with width := 128 }

/-- R246: the step of RINGSWEEP on element (e0, e1) of its destination. -/
def execRingsweep (cluster job e0 e1 : Nat) (st : State) : Out :=
  .next (match st.copyJob cluster job 5 e0 e1 with
    | none => st
    | some j =>
      let i := e1 * j.e0 + e0
      if i ∈ j.done then st
      else st.sweepElement j i (st.copyOperand j (decide (j.bits 0 5 5 = 1)) 4 ringFmt e0 e1))

/-! ### Frame migration (R388 to R391) -/

/-- R388: the first source frame of a REGRAN. -/
def Job.srcFrame (j : Job) : Nat := j.bits 3 63 16
/-- R388: the first destination frame. -/
def Job.dstFrame (j : Job) : Nat := j.bits 5 63 16
/-- R388: RELEASE. -/
def Job.releases (j : Job) : Bool := decide (j.bits 7 4 4 = 1)

/-- R389: the frame that a REGRAN is migrating. -/
def State.openFrame (s : State) (uid : Nat) : Option Migration := s.migs.find? fun m => decide (m.uid = uid) && !m.closed

/-- Replaces the migration of a source frame. -/
def State.setMig (s : State) (m : Migration) : State := { s with migs := s.migs.map fun x => if x.src = m.src then m else x }

/-- R389, step 1: opens the next frame of a REGRAN where one of the 16 entries is free and the frame is in none. -/
def State.openNext (s : State) (j : Job) : State :=
  let n := j.done.length
  let f := j.srcFrame + n
  if j.e0 ≤ n ∨ 16 ≤ s.migs.length ∨ (s.migs.any fun m => decide (m.src = f)) = true then s
  else { s with migs := s.migs ++ [{ uid := j.uid, src := f, dst := j.dstFrame + n, ogran := j.bits 7 3 2
                                     ngran := j.bits 7 1 0, keyid := j.bits 7 14 5, marked := List.range 512
                                     todo := List.range 512 }] }

/-- R389: the attributes under which a migration reads a line of its source: those that the line of the LLC recorded, else
the tag of the frame's mapping with OGRAN and KEYID. -/
def State.srcAttr (s : State) (m : Migration) (line : Nat) : Attr :=
  match s.lineAt (m.src * 2 ^ 9 + line) with
  | some l => l.attr
  | none => ⟨(s.frameAttr m.src).ctx, m.ogran, m.keyid⟩

/-- R389: the attributes of a migration's writes: the source's tag, NGRAN and KEYID. -/
def State.dstAttr (s : State) (m : Migration) : Attr := ⟨(s.frameAttr m.src).ctx, m.ngran, m.keyid⟩

/-- R383: a poisoned unit without the units of a size that were written afresh: what is left of it, in units of that size. -/
def poisonLess (g : Nat) (units : List Nat) (p : Nat × Nat) : List (Nat × Nat) :=
  if units.any fun u => decide (u < p.1 + p.2) && decide (p.1 < u + g) then
    ((List.range (p.2 / g)).map fun i => (p.1 + g * i, g)).filter fun q => q.1 ∉ units
  else [p]

/-- R384, R390: the poison of the destination units that hold a line: a unit is poisoned where one of its source bytes
is; where its home is offline it is stored so at once (R392). -/
def State.carryPoison (s : State) (m : Migration) (line : Nat) : State :=
  let g := granUnit m.ngran
  let first := m.dst * 2 ^ 16 + 128 * line / g * g
  let bad (u : Nat) : Bool := (List.range g).any fun i => inPoison s.poison (m.src * 2 ^ 16 + (u + i) % 2 ^ 16)
  let units := (List.range (max 1 (128 / g))).map fun i => first + g * i
  let s1 : State := { s with poison := (units.filter bad).map (fun u => (u, g)) ++ (s.poison.map (poisonLess g units)).flatten }
  if s.homeOff (s.dstAttr m) first then
    (units.filter bad).foldl (fun s u => s.putUnit (s.dstAttr m) u (cellReadList s.mem u g) true) s1
  else s1

/-- R389: copies one line through its home to the destination frame; the write adds nothing to the commit log (R390). -/
def State.copyLine (s : State) (m : Migration) (line : Nat) : State × Migration :=
  let a := m.src * 2 ^ 16 + 128 * line
  let b := m.dst * 2 ^ 16 + 128 * line
  let s1 := s.fillMissing (fun _ => s.srcAttr m line) ((List.range 4).map fun i => a + 32 * i)
  let s2 := s1.writeMem (fun _ => s.dstAttr m) ((List.range 128).map fun i => (b + i, cellRead s1.mem (a + i)))
  (s2.carryPoison m line,
    { m with marked := m.marked.filter fun l => l ≠ line, copies := setKey m.copies line (lookupD m.copies line 0 + 1) })

/-- R389, R390: how forwarding renames the bytes of a line: a chunk, a pending write or a log entry that names the source
line names the destination line from then on. -/
def moveKey (m : Migration) (line k : Nat) : Nat :=
  if k / 2 ^ 16 = m.src ∧ k % 2 ^ 16 / 128 = line then m.dst * 2 ^ 16 + k % 2 ^ 16 else k

/-- R389: renames a member of a read set. -/
def Loc.move (g : Nat → Nat) : Loc → Loc
  | .byte k => .byte (g k)
  | l => l

/-- R389: renames the bytes that a held effect names. -/
def Held.move (g : Nat → Nat) : Held → Held
  | .pamo op size key va x => .pamo op size (g key) va x
  | h => h

/-- R389: renames the bytes of a chunk; its buffer stays in ascending order. -/
def Chunk.move (g : Nat → Nat) (c : Chunk) : Chunk :=
  { c with wbuf := c.wbuf.foldl (fun b x => bufWrite b (g x.1) x.2) [], rset := c.rset.map (Loc.move g)
           held := c.held.map (Held.move g) }

/-- R389: renames the bytes that a slot names. -/
def Slot.move (g : Nat → Nat) (f : Slot) : Slot :=
  { f with chunk := f.chunk.move g, startChunk := f.startChunk.move g
           filled := f.filled.map fun q => g (32 * q) / 32
           wait := match f.wait with
             | .watch l c => .watch (l.map (Loc.move g)) c
             | .fill k a => .fill (g k) a
             | w => w }

/-- R389: installs the forwarding of a line. -/
def State.forward (s : State) (m : Migration) (line : Nat) : State :=
  let g := moveKey m line
  { s.mapSlots (Slot.move g) with
    log := s.log.map fun e => { e with old := e.old.map fun c => (g c.1, c.2) }
    pend := s.pend.map fun p => { p with key := g p.key, attr := if g p.key = p.key then p.attr else s.dstAttr m } }

/-- R389: the end of a pass: the next pass, or the switch (pass 5) after the fourth or where at most 16 lines are marked. -/
def Migration.endPass (m : Migration) : Migration :=
  if m.todo ≠ [] then m
  else if 4 ≤ m.pass ∨ m.marked.length ≤ 16 then { m with pass := 5 }
  else { m with pass := m.pass + 1, todo := m.marked }

/-- R389, step 4, and R390: a frame whose lines have all switched is done, and counts in the job. -/
def State.closeFrame (s : State) (j : Job) (m : Migration) : State :=
  if m.switched.length < 512 then s.setMig m
  else
    let bad := (s.poison.filter fun p => p.1 / 2 ^ 16 = m.dst).length
    (s.setMig { m with closed := true, poisoned := bad }).setJob { j with
      done := j.done.length :: j.done, bytes := j.bytes + 65536
      oor := j.oor + (m.copies.filter fun c => 2 ≤ c.2).length, sat := j.sat + bad }

/-- R389: the step of a line in the frame under migration: copied in a pass, or switched. -/
def State.migrateLine (s : State) (j : Job) (m : Migration) (line : Nat) : State :=
  if m.pass < 5 then
    if line ∉ m.todo then s
    else
      let m1 : Migration := { m with todo := m.todo.filter fun l => l ≠ line }
      if line ∈ m.marked then
        let r := s.copyLine m1 line
        (r.1.chargeBursts s j.ctx j.cluster).setMig r.2.endPass
      else s.setMig m1.endPass
  else if 512 ≤ line ∨ line ∈ m.switched then s
  else
    let r := if line ∈ m.marked then s.copyLine m line else (s, m)
    ((r.1.chargeBursts s j.ctx j.cluster).forward r.2 line).closeFrame j { r.2 with switched := line :: r.2.switched }

/-- R389: a step of a REGRAN: opens its next frame, or copies or switches a line of the open one. -/
def execRegran (cluster job line : Nat) (st : State) : Out :=
  .next (match st.runningJob cluster .copy job with
    | none => st
    | some j =>
      if j.op ≠ 6 ∨ j.releases = true then st
      else match st.openFrame j.uid with
        | none => st.openNext j
        | some m => st.migrateLine j m line)

/-- R391: a REGRAN with RELEASE = 1 frees the migration entries of its source frames. An access uses forwarding within one
step, so none is in flight. -/
def execRegranRelease (cluster job : Nat) (st : State) : Out :=
  .next (match st.runningJob cluster .copy job with
    | none => st
    | some j =>
      if j.op ≠ 6 ∨ j.releases = false ∨ j.done ≠ [] then st
      else
        ({ st with migs := st.migs.filter fun m => !(m.closed && decide (j.srcFrame ≤ m.src)
            && decide (m.src < j.srcFrame + j.e0)) } : State).setJob { j with done := [0] })

end Sys2Proof.Machine
end

