-- ==== Sys2Proof/Machine/Llc.lean ====
section
/-! DEFINITION. The steps of the LLC and of DRAM that no access makes (R379, R381, R385, R392): write-backs, scrub, a write of
a key slot, and the errors of a slice. -/

namespace Sys2Proof.Machine

/-- Log entry 7: n bytes become free values; chunks that have read them can no longer commit. -/
def State.scramble (s : State) (k n : Nat) : State :=
  ({ s with mem := cellWriteAll s.mem ((List.range n).map fun i => (k + i, Config.freeByte (s.fresh + i)))
            fresh := s.fresh + n } : State).touch ((List.range n).map fun i => .byte (k + i)) fun _ => true

/-- R379: the write-back of the dirty unit that holds an address. -/
def execLlcWriteback (pa : Nat) (st : State) : Out :=
  .next (match st.lineAt (pa / 128) with
    | none => st
    | some l =>
      let base := unitBase l.attr.gran pa
      if st.unitDirty l.attr.gran base then st.writeBackUnit l.attr base else st)

/-! ### Scrub (R385) -/

/-- R371, R385: whether a line holds a sector of the unit of an address, under its own granule, in a mask. -/
def LlcLine.meets (l : LlcLine) (mask pa : Nat) : Bool :=
  (unitSectors l.attr.gran (unitBase l.attr.gran pa)).any fun k => decide (l.line = k / 128) && mask.testBit (k % 128 / 32)

/-- R385: the attributes under which a unit is scrubbed: those that a line of the LLC recorded which holds some of it, a dirty
sector first; else those its frame is mapped with. -/
def State.scrubAttr (s : State) (pa : Nat) : Attr :=
  match s.llc.find? (fun l => l.meets l.dirty pa), s.llc.find? (fun l => l.meets l.valid pa) with
  | some l, _ => l.attr
  | none, some l => l.attr
  | none, none => s.frameAttr (pa / 2 ^ 16)

/-- R385: the codewords of a unit of which the LLC holds nothing dirty: written back corrected, or poisoned. M stays as it
is. -/
def State.scrubDram (s : State) (a : Attr) (base : Nat) : State :=
  let stored := (unitPlaces a.gran base).any fun p => s.dram.any fun d => d.1 = p
  let r := s.getUnit a base
  match r.2 with
  | some l => if stored then r.1.putUnit a base l false else r.1
  | none => (r.1.reportUnit a base).putUnit a base (cellReadList s.mem base (granUnit a.gran)) true

/-- R385: the scrub of a unit: one whole in the LLC is written from there, one partly dirty there by a read-modify-write,
another from DRAM. The DRAM read of the first serves the scores. -/
def execScrub (pa : Nat) (st : State) : Out :=
  .next (if !inDram pa then st
    else
      let a := st.scrubAttr pa
      let base := unitBase a.gran pa
      if st.holdsUnit a base then (st.getUnit a base).1.writeBackUnit a base
      else if st.unitDirty a.gran base then st.writeBackUnit a base
      else st.scrubDram a base)

/-! ### Keys and slices (R381, R392) -/

/-- R381: a write of a key slot by management. Slot 0 is fixed. -/
def execKeySlotWrite (slot : Nat) (key1 key2 : BitVec 256) (st : State) : Out :=
  .next (if slot = 0 ∨ 1024 ≤ slot then st
    else { st with keys := setKey st.keys slot { key1 := key1, key2 := key2 } })

/-- R392: whether a line has its home in a slice. -/
def LlcLine.homedIn (l : LlcLine) (slice : Nat) : Bool := decide (homeSlice l.attr.gran (128 * l.line) = slice)

/-- R392: a line of a slice that goes offline: its dirty units are written back, and poisoned where they are not intact. -/
def State.drainLine (s : State) (bad : List Nat) (l : LlcLine) : State :=
  (unitsOfLine l.attr.gran l.line).foldl (fun s b =>
    if !s.unitDirty l.attr.gran b then s
    else if bad.any fun k => unitBase l.attr.gran k = b then
      ((s.poisonUnit b (granUnit l.attr.gran)).putUnit l.attr b (cellReadList s.mem b (granUnit l.attr.gran)) true).clean
        l.attr.gran b
    else s.writeBackUnit l.attr b) s

/-- R392, R405: a slice goes offline: its intact dirty units are written back, those that hold one of the bad addresses
poisoned, and it holds no line until reset. -/
def State.sliceOffline (s : State) (slice : Nat) (bad : List Nat) : State :=
  let s1 := (s.llc.filter fun l => l.homedIn slice).foldl (State.drainLine · bad) s
  ({ s1 with llc := s1.llc.filter fun l => !l.homedIn slice, offline := addNew s1.offline slice } : State).dropTags

/-- R392: a slice that goes offline sends its record. -/
def State.reportOffline (s : State) (slice : Nat) : State :=
  s.report { kind := 2, sev := 1, ctx := 0, lcore := 0, unit := 6, num := slice, payload := [] }

/-- R383, R392: an uncorrectable error in the data of a sector that the LLC holds poisons its unit. -/
def State.sectorBad (s : State) (pa : Nat) : State :=
  match s.llc.find? fun l => l.has pa with
  | some l => (s.poisonWrite l.attr pa).touch ((List.range (granUnit l.attr.gran)).map fun i =>
      .byte (unitBase l.attr.gran pa + i)) fun _ => false
  | none => s

/-- R392: an error of a slice: a corrected one, one in the data of a line, or one in its tags, directory or migration
entries. -/
def execLlcSliceOffline (slice : Nat) (what : LlcError) (st : State) : Out :=
  .next (if 256 ≤ slice ∨ slice ∈ st.offline then st
    else match what with
      | .corrected => st.suspect .llc slice incOne
      | .data pa => st.sectorBad pa
      | .lost bad =>
        ((st.sliceOffline slice bad).suspect .llc slice st.scoreLaw.th).reportOffline slice)

end Sys2Proof.Machine
end

