-- ==== Sys2Proof/Machine/Contexts.lean ====
section
/-! DEFINITION. Contexts and placement as steps: creation (R90, R243, R393), stopping, resuming and moving (R344, R345,
R395 to R401), time slices (R160), GVT sweeps (R358), gang stop (R359), and fault rectangles (R281, R334, R363). -/

namespace Sys2Proof.Machine

/-! ### Creating a context (R90, R243, R393) -/

/-- R166, R228: a launch image written to a channel; one that breaks a condition of R166 leaves the entry as it was. -/
def LCore.launchEntry (l : LCore) (e : Nat × Word × Word × Word) : LCore :=
  let x : TTEntry := { w0 := e.2.1, w1 := e.2.2.1, w2 := e.2.2.2 }
  let k := ttMasked x.w0 x.w1 x.w2
  if 64 ≤ e.1 ∨ (x.off = false ∧ (entryBreaks l.lsz e.1 x l.ttOf).isSome = true) then l
  else l.setTt e.1 { w0 := k.1, w1 := k.2.1, w2 := k.2.2 }

/-- R90, R228: a logical core at the creation of its context, with the task table of the launch (log entry 5). -/
def createdLc (c : LCoreSpec) : LCore :=
  c.table.foldl LCore.launchEntry
    { n := c.n, lsz := c.lsz, pcore := c.pcore, hidx := c.hidx % 4, dual := c.dual.isSome
      shadow := (c.dual.map fun d => d.1).getD 0, alt := (c.dual.map fun d => d.2).getD (0, 0) }

/-- R26: the launch loads the scratchpad images. -/
def State.loadImages (s : State) (ctx : Nat) (l : List LCoreSpec) : State :=
  l.foldl (fun s c => if c.image = [] then s else s.applyBytes (scratchKey ctx c.n 0) c.image) s

/-- R90, R131, R243, R313, R393: a context at its creation: what its descriptor and its CSRs hold of what firmware writes. -/
def createdCtx (c : CtxSpec) : Ctx :=
  let x : Ctx := { id := c.ctx, state := 1, hostOk := c.hostOk, keyid := c.keyid, svBase := c.svBase.toNat, svSize := c.svSize
                   inboxCap := c.inbox, root := c.root.toNat, dlBase := c.dlBase.toNat, fpol := c.fpol.toNat, fpn := c.fpn
                   lawbase := csrMasked 0x026 c.lawBase, objbase := csrMasked 0x027 c.objBase
                   trapsv := csrMasked 0x803 c.trapSave, stage2 := c.pages, lcores := c.cores.map createdLc
                   pkgs := c.pkgs }
  x.ofDesc x.descBytes

/-- R159: whether a size is one that a logical core may declare. -/
def lszOk (n : Nat) : Bool := decide (n % 2 ^ 16 = 0) && decide (2 ^ 16 ≤ n) && decide (n ≤ 2 ^ 21)

/-- R26, R159, R264, R354, R356, R362, R363: whether placement may put these logical cores on the package; those of context 0 may lie on a
TSC (log entry 10). A scratchpad image that the loader refuses refuses the whole creation (DESIGN CHOICE, log entry
87). -/
def State.canHost (s : State) (ctx : Nat) : List LCoreSpec → Bool
  | [] => true
  | c :: t =>
    decide (c.n < 4096) && lszOk c.lsz && (decide (c.pcore < 1024) || decide (ctx = 0 ∧ c.pcore < 1152))
      && !s.fencedCore c.pcore && (match c.dual with
        | some d => s.shadowOk ctx (createdLc c) c.pcore d.1 && s.altOk d.2
        | none => true)
      && decide (c.image.length + 16384 ≤ c.lsz) && s.hasRoom c.pcore ctx c.n c.lsz && (t.all fun d => d.n ≠ c.n)
      && (s.setCtx ((s.ctxOf ctx).setLc (createdLc c))).canHost ctx t

/-- R428: the fixed tables of a context, each its base and extent. -/
def Ctx.fixedTables (c : Ctx) : List (Nat × Nat) :=
  [(c.lawbase.toNat, 2 ^ 13), (c.objbase.toNat, 2 ^ 22 + 0x20140),
    (c.trapsv.toNat, 36864 * c.lcores.foldl (fun n l => max n (l.n + 1)) 0)]
    ++ if c.dlBase = 0 then [] else [(c.dlBase, 2 ^ 20)]

/-- R428: whether no two of a list of ranges overlap. -/
def rangesApart : List (Nat × Nat) → Bool
  | [] => true
  | x :: l => (l.all fun y => decide (x.1 + x.2 ≤ y.1) || decide (y.1 + y.2 ≤ x.1)) && rangesApart l

/-- R398: whether a stop of a context is under way, so that its state is still on its units. -/
def State.stopping (s : State) (ctx : Nat) : Bool := s.moves.any fun m => decide (m.kind = .stop) && decide (bitsOf m.a 7 0 = ctx)

/-- R3, R393, R398: how many user contexts are resident, those that a stop or a gang stop left HALTED on their units and those
whose stop is under way among them. -/
def State.residents (s : State) : Nat :=
  (s.ctxs.filter fun c => decide (c.id ≠ 0) && (decide (c.state = 1 ∨ c.state = 3) || s.stopping c.id)).length

/-- R405: the default entry of the suspicion scores enters context 0's law table. -/
def State.writeScoreLaw (s : State) : State := { s with lawAhead := true }.placeLaw

/-- R369, R428: whether a new context keeps the tables of firmware and the save areas outside every user context's address
space: its own pages, where it is one, meet none, and its save area meets no page of one. -/
def State.spaceOk (s : State) (x : Ctx) : Bool :=
  let live := s.ctxs.filter fun c => decide (c.id ≠ x.id) && decide (c.state ≠ 0)
  (x :: live).all fun c => decide (c.id = 0) || c.stage2.all fun p =>
    (decide (c.id ≠ x.id) || decide (p.pa % 2 ^ 24 < 2 ^ 23) && live.all fun d => !d.saveHolds (p.pa % 2 ^ 24))
      && !x.saveHolds (p.pa % 2 ^ 24)

/-- R393, R411: firmware creates a context: its descriptor and its second stage are written, its scratchpads loaded. -/
def State.create (s : State) (c : CtxSpec) : State :=
  let x := createdCtx c
  let s1 := ((s.changeDesc x).putStage x).loadImages c.ctx c.cores
  if c.ctx = 0 then s1.writeScoreLaw else s1

/-- R3, R393, R428: a context is created where its descriptor is FREE, its logical cores have room and its tables lie apart. -/
def execContextCreation (c : CtxSpec) (st : State) : Out :=
  .next (if decide (256 ≤ c.ctx) || decide ((st.ctxOf c.ctx).state ≠ 0) || decide (c.ctx ≠ 0 ∧ 64 ≤ st.residents)
      || !rangesApart (createdCtx c).fixedTables || !st.spaceOk (createdCtx c)
      || !({ st with ctxs := st.ctxs.filter fun x => x.id ≠ c.ctx } : State).canHost c.ctx c.cores then st
    else st.create c)

/-! ### What stops and moves share -/

/-- Whether an engine command of a context, of one logical core where it is named, is in flight. -/
def State.busy (s : State) (ctx : Nat) (lc : Option Nat) : Bool :=
  s.jobs.any fun j => decide (j.ctx = ctx) && j.running && (match lc with
    | some n => decide (j.lc = n)
    | none => true)

/-- R398 to R401: the completion message of a placement command. -/
def Move.completion (m : Move) (ch : Nat) (payload : List Byte) : Msg :=
  { deviceMsg 0 m.src ch payload .device .device with fid := m.fid, fts := m.fts, fch := m.fch, ran := m.ran }

/-- R398, R399: the payload of a stop or a resume. -/
def Move.ctxPayload (m : Move) (bad : Bool) : List Byte := leBytes 8 (bitsOf m.a 7 0 + if bad then 2 ^ 8 else 0)

/-- R398 to R401: a placement command is over. -/
def State.endMove (s : State) (i : Nat) (m : Msg) : State :=
  (({ s with moves := dropAt s.moves i } : State).postHw m).startMoves

/-- R363: whether a fenced rectangle still holds a logical core that firmware has placed there, or a retired router
(R406). -/
def State.fenceHolds (s : State) (r : Nat × Nat) : Bool :=
  let inside (p : Nat) : Bool := decide ((clusterDie (clusterIdOf p), s.rectOf (clusterIdOf p)) = r)
  (s.ctxs.any fun c => c.lcores.any fun l => l.valid && !l.out && inside l.pcore)
    || s.retired.any fun u => decide (u.1 = .router) && inside u.2

/-- R363: a rewrite of the remap tables ends the fences it clears. -/
def State.endFences (s : State) : State := { s with fences := s.fences.filter s.fenceHolds }

/-! ### Stopping (R395, R396, R398) -/

/-- R395: how far the image lies behind the base of a save area. -/
def Ctx.imageAt (c : Ctx) : Nat := (0x1000 + 128 * c.inboxCap + 65535) / 65536 * 65536

/-- R396: a plane that a context holds. -/
def ownPlane (ctx : Nat) (p : Option Plane) : Option Plane := p.filter fun x => x.ctx = ctx

/-- R396: whether a physical cluster holds planes or tiles of a context. -/
def Cluster.keeps (k : Cluster) (ctx : Nat) : Bool :=
  (ownPlane ctx k.stat).isSome || (ownPlane ctx k.shadow).isSome || k.acc.any fun t => t.2.ctx = ctx

/-- R396: the physical clusters that hold planes, tiles or watch records of a context. -/
def State.unitClusters (s : State) (c : Ctx) : List Nat :=
  (((s.clusters.filter fun k => k.keeps c.id).map fun k => k.id) ++ c.watch.filterMap fun w => w.1).foldl addNew []

/-- R396: the logical core by which a physical cluster is named in an image: the lowest that lies there, else the lowest of
the context (log entry 30). -/
def Ctx.lowestIn (c : Ctx) (cluster : Nat) : Nat :=
  let all := c.lcores.filter fun l => l.valid
  let here := all.filter fun l => clusterIdOf l.pcore = cluster
  (if here = [] then all else here).foldl (fun n l => min n l.n) 4095

/-- R396: what a physical cluster holds of a context, by logical identifiers. -/
def State.unitsOf (s : State) (c : Ctx) (cluster : Nat) : SavedUnits :=
  let k := s.clusterOf cluster
  { lc := c.lowestIn cluster, stat := ownPlane c.id k.stat, shadow := ownPlane c.id k.shadow
    acc := (k.acc.filter fun t => t.2.ctx = c.id).map fun t => (t.1, decide (t.1 = clusterPos (c.lcOf t.2.lc).pcore), t.2)
    watch := (c.watch.filter fun w => w.1 = some cluster).map fun w => w.2 }

/-- R396: a physical cluster without the planes and tiles of a context. -/
def Cluster.without (k : Cluster) (ctx : Nat) : Cluster :=
  { k with stat := k.stat.filter fun p => p.ctx ≠ ctx, shadow := k.shadow.filter fun p => p.ctx ≠ ctx
           acc := k.acc.filter fun t => t.2.ctx ≠ ctx }

/-- R395: the bytes of a context's image. -/
def Ctx.imageLength (c : Ctx) : Nat := Config.imageBytes (c.lcores.foldl (fun n l => n + l.lsz) 0)

/-- R163, R396: whether a key is of a scratchpad of a context. -/
def inScratch (ctx k : Nat) : Bool := decide (scratchKey ctx 0 0 ≤ k) && decide (k < scratchKey (ctx + 1) 0 0)

/-- R396: what an image of a context holds, with its bytes. -/
def State.imageOf (s : State) (ctx start len : Nat) : Image :=
  { start := start, len := len, ctx := s.ctxOf ctx
    ready := s.ready.filter fun x => x.ctx = ctx, susp := s.susp.filter fun x => x.firing.ctx = ctx
    gangs := s.gangs.filter fun g => g.ctx = ctx, onceQ := s.onceQ.filter fun p => p.ctx = ctx
    jobs := s.jobs.filter fun j => j.ctx = ctx, scratch := s.mem.filter fun c => inScratch ctx c.1
    poison := s.poison.filter fun u => inScratch ctx u.1 }

/-- R395: the bytes of an image: its layout is the device's own, so they are free (log entry 30). -/
def Image.bytes (x : Image) : List Byte := (List.range x.len).map fun i => Config.freeByte (x.start + i)

/-- R395, R396: the version, the length and the bytes of an image are written. -/
def State.writeSaved (s : State) (c : Ctx) : State :=
  let n := c.imageLength
  let s1 := s.writeSave c 0 (leBytes 8 Config.imageVersion.toNat ++ leBytes 8 n)
  let x := s1.imageOf c.id s1.fresh n
  { s1.writeSave c c.imageAt x.bytes with fresh := s1.fresh + n, images := x :: s1.images }

/-- R395, R396: the bytes of a save area that a context needs (log entry 30). -/
def Ctx.saveNeed (c : Ctx) : Nat := c.imageAt + c.imageLength

/-- R398, step 4: the image is written, and the context's lines and translations leave the caches. -/
def State.writeImage (s : State) (ctx : Nat) : State :=
  let c := s.ctxOf ctx
  let s1 := s.setCtx { c with saved := (s.unitClusters c).map (s.unitsOf c), watch := c.watch.filter fun w => w.1.isNone
                              lcores := c.lcores.map fun l => { l with stopOut := false } }
  let s2 : State := { s1 with clusters := s1.clusters.map fun k => k.without ctx }
  let s3 := (s2.llc.filter fun l => decide (l.attr.ctx = ctx)).foldl State.evict s2
  (s3.tlbInvalidate (fun _ => true) (BitVec.ofNat 64 (ctx + 2 ^ 8)) 0).writeSaved c

/-- R398: a stop whose engine work has run out ends: the image is written, or the context is HALTED where it does not
fit. -/
def execCtxStopCompletion (i : Nat) (st : State) : Out :=
  .next (match st.moves[i]? with
    | none => st
    | some m =>
      let ctx := bitsOf m.a 7 0
      let c := st.ctxOf ctx
      if m.kind ≠ .stop ∨ m.begun = false ∨ st.busy ctx none = true then st
      else
        let fits := decide (c.saveNeed ≤ c.svSize * 2 ^ 16)
        let s1 := if fits then st.writeImage ctx
          else st.changeDesc { c with state := 3, halted := true }
        s1.endMove i (m.completion (bitsOf m.a 13 8) (m.ctxPayload !fits)))

/-! ### Resuming (R344, R395, R399) -/

/-- R344: a remap entry of a placement table in a logical core; the shadow of a dual one is named anew (R354). -/
def LCore.placed (l : LCore) (e : Nat) : LCore :=
  { l with pcore := natBits e 9 0, hidx := natBits e 11 10, valid := decide (natBits e 12 12 = 1)
           out := decide (natBits e 13 13 = 1), dual := decide (natBits e 14 14 = 1), shadow := natBits e 9 0, stopOut := false }

/-- R344, R399: every remap entry of a context is written from the placement table at a physical address. -/
def State.placeFrom (s : State) (c : Ctx) (pa : Nat) : Ctx :=
  (List.range 4096).foldl (fun c n =>
    let e := cellNat s.mem (s.home (pa + 2 * n)) 2
    if natBits e 12 12 = 1 ∨ c.defines n = true then c.setLc ({ c.lcOf n with n := n }.placed e) else c) c

/-- R396, R399: a plane of an image returns to the cluster of its logical core. -/
def State.restorePlane (s : State) (c : Ctx) (p : Plane) (shadow : Bool) : State :=
  let k := s.clusterOf (clusterIdOf (c.lcOf p.lc).pcore)
  s.setCluster (if shadow then { k with shadow := some p } else { k with stat := some p })

/-- R265, R396, R399: an accumulator tile of an image returns to the cluster of the logical core that wrote it last: to the tile
of its new position, where it was the tile of its old one. -/
def State.restoreTile (s : State) (c : Ctx) (t : Nat × Bool × AccTile) : State :=
  let p := (c.lcOf t.2.2.lc).pcore
  let k := s.clusterOf (clusterIdOf p)
  s.setCluster { k with acc := setKey k.acc (if t.2.1 then clusterPos p else t.1) t.2.2 }

/-- R396, R399: the records of a cluster's watch table go on in the cluster of its logical core. -/
def Ctx.restoreWatch (c : Ctx) (u : SavedUnits) : Ctx :=
  let k := clusterIdOf (c.lcOf u.lc).pcore
  u.watch.foldl (fun c w =>
    let r := (c.watchOf (some k) w.1).merge w.2
    c.setWatch (some k) w.1 { r with nantrap := r.nantrap || w.2.nantrap }) c

/-- R396, R399: the planes, tiles and watch records of an image return to the units on which its logical cores now lie. -/
def State.restoreUnits (s : State) (ctx : Nat) (u : SavedUnits) : State :=
  let c := (s.ctxOf ctx).restoreWatch u
  let s1 := u.stat.toList.foldl (fun s p => s.restorePlane c p false) (s.setCtx c)
  u.acc.foldl (fun s t => s.restoreTile c t) (u.shadow.toList.foldl (fun s p => s.restorePlane c p true) s1)

/-- R399: a command of a context, by the core on which its logical core now lies. -/
def Job.placed (j : Job) (c : Ctx) : Job := if j.ctx = c.id then { j with pcore := (c.lcOf j.lc).pcore } else j

/-- R399: a held command, by the core on which its logical core now lies. -/
def Held.placed (c : Ctx) : Held → Held
  | .job j => .job (j.placed c)
  | h => h

/-- R266, R399: queued engine commands of a context, and those whose release waits, re-enter the queues of the cores their logical
cores now lie on. -/
def State.requeue (s : State) (ctx : Nat) : State :=
  let c := s.ctxOf ctx
  { s with jobs := s.jobs.map fun j => if j.st = 1 then j.placed c else j
           relQ := s.relQ.map fun r => if r.ctx = ctx then { r with held := r.held.map (Held.placed c) } else r }

/-- R160, R171: the time that a firing's logical core was swapped out does not count. -/
def Firing.paused (x : Firing) (outAt now : Nat) : Firing := { x with movedAt := x.movedAt + (now - max outAt x.movedAt) }

/-- R160, R171: a logical core returns: its ready firings have not waited meanwhile. -/
def State.swappedIn (s : State) (ctx : Nat) (l : LCore) : State :=
  { s with ready := s.ready.map fun x => if x.ctx = ctx ∧ x.lc = l.n then x.paused l.outAt s.cycle else x }

/-- R160, R399: the logical cores that the new remap entries bring back. -/
def State.backIn (s : State) (c new : Ctx) : State :=
  (c.lcores.filter fun l => l.out && !(new.lcOf l.n).out).foldl (fun s l => s.swappedIn c.id l) s

/-- R399: a halted context goes on. -/
def Ctx.unhalt (c : Ctx) : Ctx :=
  { c with halted := false, state := 1
           lcores := c.lcores.map fun l => if l.stopOut then { l with out := false, stopOut := false } else l }

/-- R3, R159, R266, R399: whether the package can take a stopped context on the cores that a placement table names: where it
cannot, the resume waits (DESIGN CHOICE, log entry 88). -/
def State.canResume (s : State) (c : Ctx) : Bool :=
  let t := s.setCtx { c with state := 1 }
  let u := c.lcores.foldl (fun s l => s.keepShadow c.id l.n) t
  decide (s.residents < 64) && (c.lcores.all fun l => !l.valid || l.out || t.hasRoom l.pcore c.id l.n l.lsz)
    && (c.lcores.all fun l => (u.lcOf c.id l.n).dual == l.dual)
    && c.lcores.all fun l => (t.requeue c.id).queuesFit l.pcore

/-- R399: a stopped context is restored on the cores a placement table names. -/
def State.resume (s : State) (c1 : Ctx) : State :=
  let c := s.ctxOf c1.id
  let s1 := (s.backIn c c1).changeDesc { c1 with state := 1, halted := false, saved := [] }
  let s2 := c.saved.foldl (fun s u => s.restoreUnits c1.id u) s1
  let s3 := c1.lcores.foldl (fun s l => (s.keepShadow c1.id l.n).matchDual c1.id l.n) s2
  (s3.requeue c1.id).endFences

/-- R395: whether a save area holds an image. -/
def State.holdsImage (s : State) (c : Ctx) (x : Image) : Bool :=
  decide (cellReadList s.mem (c.svBase + c.imageAt) x.len = x.bytes)

/-- R395, R396: a context takes what an image holds; its descriptor, its second stage, its inbox and the counts of its messages are
no part of one. -/
def State.rollBack (s : State) (x : Image) : State :=
  let n := x.ctx.id
  let c := s.ctxOf n
  let gone := (s.mem.filter fun k => inScratch n k.1).map fun k => (k.1, (0 : Byte))
  let s1 := (s.setCtx { x.ctx with
      state := c.state, hostOk := c.hostOk, keyid := c.keyid, svBase := c.svBase, svSize := c.svSize, inboxCap := c.inboxCap
      root := c.root, dlBase := c.dlBase, fpol := c.fpol, fpn := c.fpn, stage2 := c.stage2, inbox := c.inbox
      inHead := c.inHead, inRing := c.inRing, halted := c.halted, ordSent := c.ordSent, ordRecv := c.ordRecv
      prevTotals := c.prevTotals, sweepAt := c.sweepAt, hostSeq := c.hostSeq, pkgs := c.pkgs }).logWrite s.ownAttr
    (gone ++ x.scratch)
  { s1 with
    ready := (s1.ready.filter fun y => y.ctx ≠ n) ++ x.ready, susp := (s1.susp.filter fun y => y.firing.ctx ≠ n) ++ x.susp
    gangs := (s1.gangs.filter fun y => y.ctx ≠ n) ++ x.gangs, onceQ := (s1.onceQ.filter fun y => y.ctx ≠ n) ++ x.onceQ
    jobs := (s1.jobs.filter fun y => y.ctx ≠ n) ++ x.jobs
    poison := (s1.poison.filter fun u => !inScratch n u.1) ++ x.poison }

/-- R395, R399: a resume finds the image that lies in the save area: the one written last, or an earlier one that firmware has
copied back whole. Bytes that are no image of the context were edited, which firmware must not do: the one written last is
restored then (log entry 30). -/
def State.fromImage (s : State) (c : Ctx) : State :=
  match s.images.filter fun x => x.ctx.id = c.id with
  | [] => s
  | x :: l =>
    if s.holdsImage c x then s
    else match l.find? (s.holdsImage c) with
      | some y => s.rollBack y
      | none => s

/-- R399: a resume: an image of another version stays STOPPED. -/
def execCtxGoCompletion (i : Nat) (st : State) : Out :=
  .next (match st.moves[i]? with
    | none => st
    | some m =>
      let c := st.ctxOf (bitsOf m.a 7 0)
      let done (s : State) (bad : Bool) : State := s.endMove i (m.completion (bitsOf m.a 13 8) (m.ctxPayload bad))
      if m.kind ≠ .go ∨ m.begun = false then st
      else if c.state ≠ 2 then done ((st.backIn c c.unhalt).changeDesc c.unhalt) false
      else if cellNat st.mem c.svBase 8 ≠ Config.imageVersion.toNat then done st true
      else
        let u := st.fromImage c
        let c1 := u.placeFrom (u.ctxOf c.id) m.b.toNat
        if u.canResume c1 then done (u.resume c1) false else st)

/-! ### Moving a logical core (R345, R401) -/

/-- R345: messages that were injected for a logical core before its move take the old path. -/
def State.agePath (s : State) (ctx lc : Nat) : State :=
  { s with net := s.net.map fun m => if m.ctx = ctx ∧ m.dst = lc ∧ m.toFifo = true then { m with old := true } else m }

/-- R345, R401, steps 3 and 4: a logical core takes its new place. -/
def State.relocate (s : State) (ctx lc pcore hidx : Nat) : State :=
  let l := s.lcOf ctx lc
  let s0 := if l.out then s.swappedIn ctx l else s
  let s1 := s0.setLc ctx { l with pcore := pcore, hidx := hidx, out := false, stopOut := false, moving := false }
  let s2 := if l.out then s1
    else
      let k := s1.coreOf l.pcore
      (s1.setCore { k with relay := k.relay ++ [{ ctx := ctx, lcore := lc, newp := pcore, nidx := hidx }] }).agePath ctx lc
  ((s2.keepShadow ctx lc).requeue ctx).endFences

/-- R401: the status with which a move ends: its target may have filled up, or been fenced, meanwhile. -/
def State.migResult (s : State) (m : Move) : Nat :=
  if m.status ≠ 0 ∨ m.b.getLsbD 12 = true then m.status else s.migStatus m.a m.b

/-- R266, R401: whether the queues of the core to which a move goes have room for the logical core's queued commands: until they
have, the move waits (log entry 88). -/
def State.moveFits (s : State) (m : Move) : Bool :=
  m.b.getLsbD 12 || decide (s.migResult m ≠ 0)
    || (s.relocate (migCtx m.a) (migLc m.a) (bitsOf m.b 9 0) (bitsOf m.b 11 10)).queuesFit (bitsOf m.b 9 0)

/-- R401: a move ends once the engine work of its logical core has: the core lies in its new place, or in the save area,
and the completion message goes out; with another status than DONE it stays where it was. -/
def execMigGoCompletion (i : Nat) (st : State) : Out :=
  .next (match st.moves[i]? with
    | none => st
    | some m =>
      let ctx := migCtx m.a
      let lc := migLc m.a
      if m.kind ≠ .mig ∨ m.begun = false ∨ (m.status = 0 ∧ (st.busy ctx (some lc) = true ∨ st.moveFits m = false)) then st
      else
        let l := st.lcOf ctx lc
        let r := st.migResult m
        let s1 := if m.status ≠ 0 then st
          else if r ≠ 0 then st.setLc ctx { l with moving := false }
          else if m.b.getLsbD 12 then (st.setLc ctx { l with out := true, moving := false, outAt := st.cycle }).endFences
          else st.relocate ctx lc (bitsOf m.b 9 0) (bitsOf m.b 11 10)
        s1.endMove i (m.completion (bitsOf m.b 23 18) (leBytes 8 m.a.toNat ++ leBytes 8 r)))

/-- R345: the flush marker of a router passes the relay of a core once no message that the router injected before the move
is left; the entry is freed when the markers of all 1,024 routers have. -/
def Relay.marked (s : State) (r : Relay) (router : Nat) : Relay :=
  if router ∈ r.passed ∨ (s.net.any fun m => m.old && decide (m.ctx = r.ctx) && decide (m.dst = r.lcore)
      && decide (s.injector m = router)) = true then r
  else { r with passed := router :: r.passed }

/-- R345: a flush marker arrives. -/
def execFlushMarker (core router : Nat) (st : State) : Out :=
  .next (if 1024 ≤ router then st
    else
      let k := st.coreOf core
      let l := (k.relay.map fun r => r.marked st router).filter fun r => r.passed.length < 1024
      if l = k.relay then st else (st.setCore { k with relay := l }).startMoves)

/-! ### Time slices (R160) -/

/-- R160: the end of a slice: a resident logical core without engine work in flight is squashed and swapped out; a swapped
out one returns where its core has room. -/
def execTimeSliceEnd (ctx lc : Nat) (st : State) : Out :=
  let c := st.ctxOf ctx
  let l := c.lcOf lc
  .next (if !c.runs || !l.valid || l.moving || l.stopOut then st
    else if l.out then
      (if st.hasRoom l.pcore ctx lc l.lsz && !st.fencedCore l.pcore then
        ((st.swappedIn ctx l).setLc ctx { l with out := false }).keepShadow ctx lc else st)
    else if st.busy ctx (some lc) then st
    else (st.setLc ctx { l with out := true, outAt := st.cycle }).preempt fun f => decide (f.firing.ctx = ctx) && decide (f.firing.lc = lc))

/-! ### GVT (R358) and gang stop (R359) -/

/-- R197, R358: GVT after a balanced sweep: a larger timestamp of MINKEY replaces it; with no key outstanding it stays (DESIGN
CHOICE, log entry 94). -/
def State.sweptGvt (s : State) (c : Ctx) : Word :=
  match s.minKey c.id with
  | some k => if c.gvt.toNat < k.ts.toNat then k.ts else c.gvt
  | none => c.gvt

/-- R358: a sweep, every 256 cycles. -/
def execGvtSweep (ctx : Nat) (st : State) : Out :=
  let c := st.ctxOf ctx
  .next (if !st.hasCtx ctx || decide (st.cycle < c.sweepAt + 256) then st
    else
      let balanced := decide (c.ordSent = c.ordRecv) && decide (c.prevTotals = some (c.ordSent, c.ordRecv))
      st.setCtx { c with
        gvt := if balanced then st.sweptGvt c else c.gvt
        prevTotals := some (c.ordSent, c.ordRecv)
        sweepAt := st.cycle })

/-- R359: management stops a resident context's partition. -/
def execGangStopByManagement (ctx : Nat) (st : State) : Out :=
  .next (if st.hasCtx ctx && decide ((st.ctxOf ctx).state = 1) then st.gangStop ctx else st)

/-! ### Fault rectangles (R281, R334, R363) -/

/-- R363: the increment of an uncorrectable error. -/
def State.incFatal (s : State) : Lane := s.scoreLaw.th

/-- R329, R334: a hurdle router that has lost its records: they are counted nowhere, and their places in the orders of ORDEXIT
are free (log entry 33). -/
def HRouter.lose (h : HRouter) : HRouter :=
  { h with
    recs := []
    stats := h.stats.map fun p => (p.1, if h.ctl p.1 5 then
        { p.2 with gone := ((h.recs.filter fun r => r.set = p.1).map fun r => (r.lc, r.count)) ++ p.2.gone }
      else p.2) }

/-- R334: the records of the hurdle sets of a logical cluster are lost with the router that held them. -/
def State.loseRecords (s : State) (ctx lcl : Nat) : State :=
  let c := s.ctxOf ctx
  if c.hurdles.any fun h => h.1 = lcl then s.setHurdle ctx lcl (s.hurdleOf ctx lcl).lose else s

/-- R354, R363: a dual logical core of which one copy lies in a rectangle: the other copy is the primary from now on, and a new
shadow is named. Its barriers stay (log entry 33). -/
def State.saveDual (s : State) (inside : Nat → Bool) (ctx : Nat) (l : LCore) : State :=
  if inside l.pcore then
    let s1 := if l.n % 8 = 0 then s.loseRecords ctx (l.n / 8) else s
    ((s1.setLc ctx { s1.lcOf ctx l.n with pcore := l.shadow }).keepShadow ctx l.n).requeue ctx
  else s.keepShadow ctx l.n

/-- R363: a logical core that is lost: its firings, its tables and its scratchpad are gone, with the barriers and hurdle
sets of the logical cluster it heads; its context is gang-stopped and the loss is recorded. -/
def State.loseCore (s : State) (u : UnitKind) (num ctx : Nat) (l : LCore) : State :=
  let mine (x : Firing) : Bool := decide (x.ctx = ctx) && decide (x.lc = l.n)
  let s1 := (s.slots.filter fun f => f.active && mine f.firing).foldl (fun s f => s.freeSlot f) s
  let s2 : State := { s1 with ready := s1.ready.filter fun x => !mine x, susp := s1.susp.filter fun x => !mine x.firing
                              gangs := s1.gangs.filter fun g => !(decide (g.ctx = ctx) && decide (g.lc = l.n)) }
  let c := s2.ctxOf ctx
  let c1 := c.setLc { n := l.n, lsz := l.lsz, pcore := l.pcore, hidx := l.hidx }
  let c2 : Ctx := if l.n % 8 = 0 then
      { c1 with hurdles := dropKey c1.hurdles (l.n / 8)
                bars := c1.bars.filter fun b => !(decide (b.1.1 = l.n / 8) && decide (b.1.2 < 32)) }
    else c1
  (((s2.setCtx c2).scramble (scratchKey ctx l.n 0) l.lsz).gangStop ctx).report
    { kind := 6, sev := 2, ctx := ctx, lcore := l.n, unit := unitCode u, num := num, payload := [] }

/-- R363: the engine work of a rectangle completes with ERROR HWERR. -/
def State.failEngines (s : State) (which : Nat → Bool) : State :=
  (s.jobs.filter fun j => which j.cluster && decide (1 ≤ j.st) && decide (j.st < 4)).foldl
    (fun s j => s.complete { j with err := 6 }) s

/-- R281, R363: the requests that wait on the mailboxes of a cluster are answered ABORT; those of engines end with their work. -/
def State.abortBoxes (s : State) (cluster : Nat) : State :=
  (s.clusterOf cluster).boxes.foldl (fun s b =>
    if 32 ≤ b.1 ∨ s.replyWaits cluster b.1 2 = true then s else s.applyMailbox cluster b.1 b.2.1 2) s

/-- R345, R363: whether a message in flight is addressed into a rectangle: to a logical core whose primary lies there, or by the
old path of one that has moved, over a router there. -/
def State.boundInto (s : State) (inside : Nat → Bool) (m : Msg) : Bool :=
  let l := s.lcOf m.ctx m.dst
  m.toFifo && (((s.ctxOf m.ctx).defines m.dst && !l.out && inside l.pcore)
    || (m.old && s.cores.any fun c => inside c.id && c.relay.any fun r => decide (r.ctx = m.ctx) && decide (r.lcore = m.dst)))

/-- R363: the messages in flight that are addressed into a rectangle are refused at its boundary. -/
def State.turnBack (s : State) (inside : Nat → Bool) : State :=
  (s.net.filter (s.boundInto inside)).foldl (fun s m => (s.refuseHere m 2 true).redDelivered m)
    { s with net := s.net.filter fun m => !s.boundInto inside m }

/-- R131, R363: a core right after its reset. -/
def State.resetCore (s : State) (p : Nat) : State :=
  s.setCore { id := p, born := s.cycle, stopRec := (s.coreOf p).stopRec }

/-- R131, R363: the clusters of a rectangle, their cores and TSCs are reset. -/
def State.resetClusters (s : State) (which : Nat → Bool) : State :=
  let ids := (List.range 128).filter which
  let s1 : State := { s with
    clusters := s.clusters.map fun k => if which k.id then
      { k with tlb := [], boxes := [], stat := none, shadow := none, acc := [], windows := [] } else k }
  ids.foldl (fun s k => (tscCore k :: (List.range 8).map (coreAt k)).foldl State.resetCore s) s1

/-- R363: the firings of a rectangle's cores leave their slots, and the other copies of dual ones with them: their open chunks are
lost. -/
def State.clearSlots (s : State) (inside : Nat → Bool) : State :=
  s.preempt fun f => inside f.core || ((s.partner f).map fun g => inside g.core).getD false

/-- R363: fences the rectangle that holds a cluster and resets it. -/
def State.fence (s : State) (u : UnitKind) (num cluster : Nat) : State :=
  let r := (clusterDie cluster, s.rectOf cluster)
  let inside (k : Nat) : Bool := decide ((clusterDie k, s.rectOf k) = r)
  let at' (p : Nat) : Bool := inside (clusterIdOf p)
  let placed := (s.ctxs.map fun c => (c.lcores.filter fun l => l.valid && !l.out).map fun l => (c.id, l)).flatten
  let duals := placed.filter fun p => p.2.dual && (at' p.2.pcore || at' p.2.shadow)
  let lost := placed.filter fun p => !p.2.dual && at' p.2.pcore
  let s0 := ({ s with fences := addNew s.fences r } : State).turnBack at'
  let s1 := ((List.range 128).filter inside).foldl State.abortBoxes s0
  let s2 := ((s1.failEngines inside).clearSlots at').resetClusters inside
  let s3 := duals.foldl (fun s p => s.saveDual at' p.1 p.2) s2
  let s4 := lost.foldl (fun s p => s.loseCore u num p.1 p.2) s3
  let s5 := if lost = [] then s4.report { kind := 6, sev := 1, ctx := 0, lcore := 0, unit := unitCode u, num := num, payload := [] }
    else s4
  s5.keepShadows.suspect u num s.incFatal

/-- R363: an uncorrectable error in the state of a core, a translation core, a router or an engine, by its unit number;
the other units of R405 are fenced by nothing. -/
def execRectFence (u : UnitKind) (num : Nat) (st : State) : Out :=
  .next (if 1024 ≤ num ∨ u = .llc ∨ u = .pc ∨ u = .port then st else st.fence u num (clusterIdOf num))

/-- R326, R334: the record of a hurdle router's buffer that an uncorrectable error meets is dropped with ERR, and a POISON record
that names it goes to the trap actor. -/
def State.loseRecord (s : State) (cluster : Nat) : State :=
  let all := (s.ctxs.map fun c => (c.hurdles.map fun h =>
    (if clusterIdOf (c.lcOf (8 * h.1)).pcore = cluster then h.2.recs.map fun r => (c.id, h.1, r) else [])).flatten).flatten
  match all[(Config.freeWord s.fresh).toNat % (max 1 all.length)]? with
  | none => { s with fresh := s.fresh + 1 }
  | some p => (({ s with fresh := s.fresh + 1 } : State).hsDrop p.1 p.2.1 p.2.2.set p.2.2.rid p.2.2.stage true).sendRecordFrom
      (.hurdle cluster) p.1 p.2.2.lc false false 4 (clusterRouter cluster)
      (trapRecord 0 0 .poison 0 false p.2.2.lc 0 0 (BitVec.ofNat 64 p.2.2.rid) 0 0)

/-- R281: the entry of a cluster's TLB that held a corrected error is removed and refilled. -/
def State.refillTlb (s : State) (cluster ctx : Nat) (va : Word) : State :=
  let k := s.clusterOf cluster
  let hit (e : TlbEntry) : Bool := decide (e.ctx = ctx) && e.covers va
  if k.tlb.any hit then
    let s1 := s.setCluster { k with tlb := k.tlb.filter fun e => !hit e }
    let s2 := s1.readTables cluster ctx va
    (s2.install cluster ctx va).getD s2
  else s

/-- R281, R334, R405: an error in TLB, engine, barrier or hurdle-router state of a cluster: a corrected one adds 1 to the
unit's score, and its TLB entry is refilled; a data check of firmware that fails adds 4; an uncorrectable one fences the
rectangle, but in a hurdle router it may lie in one record (which of the two is free, log entry 7). -/
def execClusterStateError (cluster : Nat) (u : UnitKind) (what : UnitError) (st : State) : Out :=
  let num := clusterRouter cluster
  .next (if 128 ≤ cluster ∨ u = .llc ∨ u = .pc ∨ u = .port then st
    else match what with
      | .corrected ctx va => (st.suspect u num incOne).refillTlb cluster ctx va
      | .dataCheck => st.suspect u num incFour
      | .fatal =>
        if u = .hurdle then
          (if Config.freeBool st.fresh then ({ st with fresh := st.fresh + 1 } : State).loseRecord cluster
           else ({ st with fresh := st.fresh + 1 } : State).fence u num cluster)
        else st.fence u num cluster)

end Sys2Proof.Machine
end

