-- ==== Sys2Proof/Machine/Attest.lean ====
section
/-! DEFINITION. Boot and attestation (R412, R413). The rules name SPDM 1.2 and the requests; the bytes of requests and
responses are those of DMTF DSP0274 1.2 (log entry 17). -/

namespace Sys2Proof.Machine

/-! ### Boot (R412) -/

/-- R412: a measurement register extended by an image. -/
def extendBy (old : BitVec 256) (data : List Byte) : BitVec 256 :=
  Config.hash256 (leBytes 32 old.toNat ++ leBytes 32 (Config.hash256 data).toNat)

/-- R412: measures and checks the images in order; index 2 is the first. A failure halts boot. -/
def State.bootImages (s : State) : List (Nat × BootImage) → State
  | [] => { s with boot := 1 }
  | (n, x) :: t =>
    let s1 : State := { s with measures := setKey s.measures n (extendBy (lookupD s.measures n 0) x.data) }
    if Config.signatureValid x.data x.signature then s1.bootImages t
    else { s1 with boot := 2 }.report { kind := 8, sev := 3, ctx := 0, lcore := 0, unit := 0, num := 0, payload := [] }

/-- R412: boot, once. -/
def execBoot (images : List BootImage) (st : State) : Out :=
  .next (if st.boot ≠ 0 then st
    else ({ st with measures := setKey st.measures 1 (extendBy 0 Config.bootCode) } : State).bootImages
      (images.zipIdx.map fun p => (p.2 + 2, p.1)))

/-! ### Messages (R413) -/

/-- R413: an SPDM message: version, code, two parameters and a body. -/
def spdmMsg (version code p1 p2 : Nat) (body : List Byte) : List Byte :=
  [BitVec.ofNat 8 version, BitVec.ofNat 8 code, BitVec.ofNat 8 p1, BitVec.ofNat 8 p2] ++ body

/-- R413: an answer on the management bus. -/
def State.answer (s : State) (l : List Byte) : State := { s with answers := s.answers ++ [l] }

/-- R413: an ERROR response: 1 for an invalid request, 4 for an unexpected one. -/
def State.spdmError (s : State) (code : Nat) : State := s.answer (spdmMsg 0x12 0x7F code 0 [])

/-- R413: a request of a booted device that is answered once so many exchanges of the connection have gone before. -/
def State.spdmAt (s : State) (stage : Nat) (f : State → State) : Out :=
  .next (if s.boot ≠ 1 then s else if s.session.stage = stage then f s else s.spdmError 4)

/-- R413: a free nonce. -/
def State.nonce (s : State) : List Byte := ((List.range 4).map fun i => leBytes 8 (Config.freeWord (s.fresh + i)).toNat).flatten

/-- R413: what a signature is made of: the prefix of SPDM 1.2, its context and the digest of the messages. -/
def spdmSigned (context : String) (transcript : List Byte) : List Byte :=
  let bytes (t : String) : List Byte := t.toList.map fun c => BitVec.ofNat 8 c.toNat
  let c := bytes context
  Config.sign ((List.replicate 4 (bytes "dmtf-spdm-v1.2.*")).flatten ++ List.replicate (36 - c.length) 0 ++ c
    ++ leBytes 32 (Config.hash256 transcript).toNat)

/-! ### The connection (R413) -/

/-- R413: GET_VERSION: SPDM 1.2 alone; it begins a connection afresh. -/
def execGetVersion (st : State) : Out :=
  let r := spdmMsg 0x10 0x04 0 0 (leBytes 2 0x0100 ++ leBytes 2 0x1200)
  .next (if st.boot ≠ 1 then st
    else ({ st with session := { stage := 1, vca := spdmMsg 0x10 0x84 0 0 [] ++ r } } : State).answer r)

/-- R413: the next exchange of a connection. -/
def State.connect (s : State) (req resp : List Byte) : State :=
  ({ s with session := { s.session with stage := s.session.stage + 1, vca := s.session.vca ++ req ++ resp } } : State).answer resp

/-- R413: GET_CAPABILITIES, with the body that has arrived: certificates, challenge and signed measurements; no secured sessions. -/
def execGetCapabilities (st : State) : Out :=
  st.spdmAt 1 fun s =>
    let req := s.asked
    if req.length ≠ 16 then s.spdmError 1
    else s.connect (spdmMsg 0x12 0xE1 0 0 req) (spdmMsg 0x12 0x61 0 0 ([0, Config.spdmExponent, 0, 0] ++ leBytes 4 0x16
      ++ leBytes 4 Config.spdmTransfer.toNat ++ leBytes 4 Config.spdmMessage.toNat))

/-- R413: NEGOTIATE_ALGORITHMS: of what the body that has arrived offers, ECDSA P-256 with SHA-256, and measurements as DMTF lays them
out. -/
def execNegotiateAlgorithms (st : State) : Out :=
  st.spdmAt 2 fun s =>
    let req := s.asked
    let spec := (leNat ((req.drop 2).take 1)) % 2
    let asym := leNat ((req.drop 4).take 4) / 16 % 2 * 16
    let hash := leNat ((req.drop 8).take 4) % 2
    if req.length < 28 then s.spdmError 1
    else s.connect (spdmMsg 0x12 0xE3 0 0 req) (spdmMsg 0x12 0x63 0 0 (leBytes 2 36 ++ leBytes 1 spec ++ [0]
      ++ leBytes 4 (2 * spec) ++ leBytes 4 asym ++ leBytes 4 hash ++ List.replicate 16 0))

/-- R413: an exchange that a later CHALLENGE covers. -/
def State.certified (s : State) (req resp : List Byte) : State :=
  ({ s with session := { s.session with certs := s.session.certs ++ req ++ resp, meas := [] } } : State).answer resp

/-- R413: the digest of the certificate chain. -/
def chainDigest : List Byte := leBytes 32 (Config.hash256 Config.certChain).toNat

/-- R413: GET_DIGESTS. -/
def execGetDigests (st : State) : Out :=
  st.spdmAt 3 fun s => s.certified (spdmMsg 0x12 0x81 0 0 []) (spdmMsg 0x12 0x01 0 1 chainDigest)

/-- R412, R413: GET_CERTIFICATE: a part of the chain, with its length and what remains. -/
def execGetCertificate (off len : Nat) (st : State) : Out :=
  st.spdmAt 3 fun s =>
    let part := (Config.certChain.drop off).take len
    if Config.certChain.length ≤ off then s.spdmError 1
    else s.certified (spdmMsg 0x12 0x82 0 0 (leBytes 2 off ++ leBytes 2 len)) (spdmMsg 0x12 0x02 0 0
      (leBytes 2 part.length ++ leBytes 2 (Config.certChain.length - off - part.length) ++ part))

/-! ### Measurements (R413) -/

/-- R413: a measurement by its index. -/
def State.measurement (s : State) (i : Nat) : BitVec 256 :=
  match i with
  | 6 => Config.hash256 (s.ctxs.map fun c => leBytes 1 c.id ++ c.stageBytes).flatten
  | 7 => Config.hash256 (((List.range 1024).filter fun n => s.keys.any fun k => k.1 = n).map (leBytes 2)).flatten
  | _ => lookupD s.measures i 0

/-- R413: the measurements that the device has. -/
def measurementIndices : List Nat := [1, 2, 3, 4, 5, 6, 7]

/-- R413: the kind of a measurement: fixed code, changeable firmware, or its configuration. -/
def measurementType (i : Nat) : Nat := if i = 1 then 0 else if i < 6 then 1 else 3

/-- R413: the block of a measurement. -/
def State.measureBlock (s : State) (i : Nat) : List Byte :=
  leBytes 1 i ++ [1] ++ leBytes 2 35 ++ leBytes 1 (measurementType i) ++ leBytes 2 32 ++ leBytes 32 (s.measurement i).toNat

/-- R413: the measurements that a request names: one index, 255 for all, or 0 for their number alone. -/
def measuredBy (index : Nat) : List Nat := measurementIndices.filter fun i => decide (index = 255) || decide (i = index)

/-- R413: the digest of measurements that a CHALLENGE asks for: none, those of code, or all. -/
def State.measureSummary (s : State) (kind : Nat) : List Byte :=
  if kind = 0 then []
  else leBytes 32 (Config.hash256 ((measurementIndices.filter fun i => decide (kind = 255) || decide (i < 6)).map
    s.measureBlock).flatten).toNat

/-- R413: CHALLENGE: the digest of the chain, a nonce, the digest of the measurements, and a signature over the connection, the
certificates and this exchange. -/
def execChallenge (req : ChallengeRequest) (st : State) : Out :=
  st.spdmAt 3 fun s =>
    let kind := req.kind
    if kind ≠ 0 ∧ kind ≠ 1 ∧ kind ≠ 255 then s.spdmError 1
    else
      let asked := spdmMsg 0x12 0x83 0 kind (leBytes 32 req.nonce.toNat)
      let resp := spdmMsg 0x12 0x03 0 1 (chainDigest ++ s.nonce ++ s.measureSummary kind ++ leBytes 2 0)
      let t := s.session.vca ++ s.session.certs ++ asked ++ resp
      ({ s with session := { s.session with certs := [], meas := [] }, fresh := s.fresh + 4 } : State).answer
        (resp ++ spdmSigned "responder-challenge_auth signing" t)

/-- R413: GET_MEASUREMENTS: the blocks, a nonce and, where it is asked for, a signature over the connection and the exchanges of
measurements since the last one. -/
def execGetMeasurements (req : MeasureRequest) (st : State) : Out :=
  st.spdmAt 3 fun s =>
    let index := req.index
    let signed := req.signed
    let l := measuredBy index
    let blocks := (l.map s.measureBlock).flatten
    if l = [] ∧ index ≠ 0 then s.spdmError 1
    else
      let asked := spdmMsg 0x12 0xE0 (if signed then 1 else 0) index (if signed then leBytes 32 req.nonce.toNat ++ [0] else [])
      let resp := spdmMsg 0x12 0x60 (if index = 0 then 7 else 0) 0
        (leBytes 1 l.length ++ leBytes 3 blocks.length ++ blocks ++ s.nonce ++ leBytes 2 0)
      let t := s.session.meas ++ asked ++ resp
      ({ s with session := { s.session with meas := if signed then [] else t }, fresh := s.fresh + 4 } : State).answer
        (if signed then resp ++ spdmSigned "responder-measurements signing" (s.session.vca ++ t) else resp)

end Sys2Proof.Machine
end

