-- ==== Sys2Proof/Machine/Fabric.lean ====
section
/-! DEFINITION. The fabric (R416 to R426): ports and routes, messages of other packages and their acknowledgement, remote
copies, fabric barriers and reductions, the time base of the pod, and link failures. -/

namespace Sys2Proof.Machine

/-! ### Ports and routes (R416, R417, R426) -/

/-- Replaces a port. -/
def State.setPort (s : State) (n : Nat) (p : Port) : State := { s with ports := setKey s.ports n p }

/-- R417: the port that carries the messages for a package. -/
def State.portTo (s : State) (pkg : Nat) : Nat := lookupD s.routes pkg 0

/-- R426: whether a port carries traffic: it is up and has not failed 16 replays in a row. -/
def Port.carries (p : Port) : Bool := !p.down && decide (p.replays < 16)

/-- R405, R416, R426: a flit arrives: one with a CRC failure is replayed, and a good one ends a row of replays. -/
def execFlitReplay (flit : PortFlit) (st : State) : Out :=
  let n := flit.port
  let p := st.portOf n
  .next (if 16 ≤ n ∨ p.carries = false then st
    else if flit.ok then (if p.replays = 0 then st else st.setPort n { p with replays := 0 })
    else (st.setPort n { p with replays := p.replays + 1 }).suspect .port n incFour)

/-- R417: firmware writes entries of the route table. -/
def State.writeRoutes (s : State) (l : List (Nat × Nat)) : State :=
  { s with routes := (l.filter fun r => decide (r.1 < 64) && decide (r.2 < 16)).foldl (fun t r => setKey t r.1 r.2) s.routes }

/-- R426: firmware routes every package that used a port over the lowest port that is up; with none, remote copies end with
ERROR FABRIC. -/
def State.reroute (s : State) (port : Nat) : State :=
  match (List.range 16).find? fun n => !(s.portOf n).down with
  | none => { s with jobs := s.jobs.map fun j => if j.running && j.remote && decide (j.err = 0) then { j with err := 9 } else j }
  | some q => s.writeRoutes (((List.range 64).filter fun k => s.portTo k = port).map fun k => (k, q))

/-- R426: a port goes down, with the management record of a link. -/
def State.portDown (s : State) (port : Nat) : State :=
  ((s.setPort port { s.portOf port with down := true }).reroute port).report
    { kind := 2, sev := 1, ctx := 0, lcore := 0, unit := 8, num := port, payload := [] }

/-- R426: a port that failed 16 replays in a row retrains; after the third failure it is down. -/
def State.retrain (s : State) (port : Nat) (ok : Bool) : State :=
  let p := s.portOf port
  if 16 ≤ port ∨ p.down = true ∨ p.replays < 16 then s
  else if ok then s.setPort port {}
  else if p.fails + 1 < 3 then s.setPort port { p with fails := p.fails + 1 }
  else (s.setPort port { p with fails := p.fails + 1 }).portDown port

/-- R417, R426: a port retrains, and firmware writes what it likes to the route table. -/
def execPortRetrain (port : Nat) (retrained : Retrain) (st : State) : Out :=
  .next ((st.retrain port retrained.ok).writeRoutes retrained.routes)

/-- R179, R426: a message that stays undeliverable: a send is discarded with a NACK, a read or a write of a copy, which was then
not performed, ends the copy with ERROR FABRIC. -/
def State.undeliverable (s : State) (m : Msg) : State :=
  match m.kind with
  | .farWrite uid _ i0 i1 => (match s.jobOf uid with
    | some j =>
      let j1 : Job := { j with done := j.done.filter fun i => j.farElem i ≠ (i0, i1) }
      if j.running then s.failJob j1 (if j.err = 0 then 9 else j.err) else s
    | none => s)
  | .farRead uid _ => (match s.jobOf uid with
    | some j => if j.running && decide (j.err = 0) then s.failJob j 9 else s
    | none => s)
  | .farArrive _ _ _ => s
  | .farCfg _ _ => s
  | .farBar _ _ _ _ _ => s
  | .farDone _ _ => s
  | .reduction _ _ => s
  | _ => s.refuse m 5

/-- R426: a message undeliverable for 10 ms is discarded. -/
def execFabricMessageTimeout (i : Nat) (st : State) : Out :=
  .next (match st.fabOut[i]? with
    | none => st
    | some x =>
      if st.ticks < x.sentAt + 10000000 then st
      else ({ st with fabOut := dropAt st.fabOut i } : State).undeliverable x.msg)

/-! ### What arrives (R418 to R423) -/

/-- R418: a message of another package's logical core, never timestamped; its payload was converted where it was sent. -/
def fabricMsg (pkg : Nat) (m : OutsideMsg) : Msg :=
  { deviceMsg m.ctx (m.dst % 4096) (m.ch % 64) (m.payload.take 64) (.fabric pkg) .send with
    src := m.src % 4096, spkg := pkg, wfmt := m.wfmt, fid := m.fid }

/-- R422: whether a group spans packages and is configured as another package has it. -/
def RedGroup.agrees (g : RedGroup) (a b : Word) : Bool :=
  g.on && g.spans && decide (g.cfgA = a) && decide (bitsOf g.cfgB 44 32 = bitsOf b 44 32)

/-- R422: a contribution of a round under a different configuration is discarded. -/
def State.discardSum (s : State) (ctx pkg group : Nat) : State :=
  let c := s.ctxOf ctx
  let g := c.redOf group
  (s.setCtx { c with reds := setKey c.reds group { g with disc := min (g.disc + 1) (2 ^ 16 - 1) } }).report
    { kind := 2, sev := 1, ctx := ctx, lcore := 0, unit := 8, num := s.portTo pkg, payload := [] }

/-- R422, R423: the sum of a round arrives; under a different configuration it is discarded, counted in DISC, and a
management record is sent. -/
def State.takeSum (s : State) (ctx pkg group round : Nat) (a b : Word) (l : List Byte) : State :=
  let c := s.ctxOf ctx
  let g := c.redOf group
  if g.agrees a b then s.setCtx { c with reds := setKey c.reds group { g with sums := g.sums ++ [(round, pkg, l)] } }
  else s.discardSum ctx pkg group

/-- R352, R423: the result of a round arrives at the package of its root, where it is a message of that package. -/
def State.takeResult (s : State) (ctx pkg group round : Nat) (a b : Word) (l : List Byte) : State :=
  let g := (s.ctxOf ctx).redOf group
  if g.agrees a b then s.postResult ctx group g round l else s.discardSum ctx pkg group

/-- R423: how many rounds the participants of another package have contributed to. -/
def State.takeRounds (s : State) (ctx pkg group n : Nat) : State :=
  let c := s.ctxOf ctx
  let g := c.redOf group
  s.setCtx { c with reds := setKey c.reds group { g with far := setKey g.far pkg (max n (lookupD g.far pkg 0)) } }

/-- R421: whether a fabric barrier is held in this package. -/
def Ctx.holdsBarrier (c : Ctx) (id : Nat) : Bool := decide (64 ≤ id) && decide (id < 72) && !c.farBarrier id

/-- R195, R421: another package's arrival on a barrier held here, with the request of a BAR.AF. -/
def State.takeArrival (s : State) (ctx pkg id num : Nat) (req : Option (Nat × Nat)) : State :=
  let c := s.ctxOf ctx
  let b := c.barOf 0 id
  if c.holdsBarrier id && decide (b.part ≠ 0) then
    (s.setCtx (c.setBar 0 id { b with counted := setKey b.counted pkg num })).arriveHere ctx 0 id []
      (req.toList.map fun r => (pkg, r.1, r.2))
  else s

/-- R310, R421: another package's BAR.CFG of a barrier held here. -/
def State.takeConfig (s : State) (ctx id n : Nat) : State :=
  if (s.ctxOf ctx).holdsBarrier id then (s.configBarrier ctx 0 id (n % 2 ^ 16)).touch [.part ctx 0 id] fun _ => true else s

/-- R195, R421: the package that holds a barrier has counted a firing's arrival in a phase. -/
def Firing.counted (x : Firing) (ctx id num : Nat) (phase : Bool) : Firing :=
  if x.ctx = ctx ∧ (id, num) ∈ x.farArr then x.recordPhase id phase none else x

/-- R195, R421: a wait for a Flip compares with the phase in which the firing's arrival was counted. -/
def Wait.counted (w : Wait) (id : Nat) (phase : Bool) : Wait :=
  match w with
  | .barrier n p => .barrier n (if n = id then phase else p)
  | w => w

/-- R195, R421: the firings of a context learn in which phase an arrival of theirs was counted. -/
def State.countArrival (s : State) (ctx id num : Nat) (phase : Bool) : State :=
  let mine (x : Firing) : Bool := decide (x.ctx = ctx) && decide ((id, num) ∈ x.farArr)
  let fix (x : Firing) : Firing := { x.counted ctx id num phase with gate := if mine x then x.gate.counted id phase else x.gate }
  { s.mapSlots (fun f => { f with firing := fix f.firing, wait := if mine f.firing then f.wait.counted id phase else f.wait }) with
    ready := s.ready.map fix, susp := s.susp.map fun x => { x with firing := fix x.firing } }

/-- R269, R421: the state of a barrier that another package holds: its waiters here go on after a Flip. The last arrival of this
package that it counts was made in the phase before the Flip, where it completed it. -/
def State.takeBarrier (s : State) (ctx pkg id n arr : Nat) (phase : Bool) (mine : Nat) : State :=
  let c := s.ctxOf ctx
  let b := c.barOf 0 id
  if c.farBarrier id && decide (c.lowPkg = pkg) then
    ((s.setCtx (c.setBar 0 id { b with
      part := n, arr := arr, phase := phase, flips := if phase = b.phase then b.flips else b.flips + 1 })).touch
      (if n = b.part then [] else [.part ctx 0 id]) fun _ => true).countArrival ctx id mine (if arr = 0 then !phase else phase)
  else s

/-! ### Writes of another package's copies (R419) -/

/-- R176, R419: the record of an object here as a copy of another package finds it at its take, where it grants W and CP. -/
def State.farRecord (s : State) (ctx obj : Nat) : Option Nat :=
  ((s.spanKeys ctx ((s.ctxOf ctx).objbase + BitVec.ofNat 64 (64 * obj)) 64 TlbEntry.r).map fun ks =>
    leNat (ks.map (cellRead s.mem))).filter fun r => objOk r && objRight r 8 && objRight r 10

/-- R419: a copy of another package that writes to an object here is taken there. -/
def State.takeFar (s : State) (ctx pkg copy obj : Nat) : State :=
  let t := match s.spanKeys ctx ((s.ctxOf ctx).objbase + BitVec.ofNat 64 (64 * obj)) 64 TlbEntry.r with
    | some ks => s.fillMissing s.ownAttr ks
    | none => s
  { t with farTakes := upsert (fun x => decide (x.1 = (pkg, copy))) ((pkg, copy), t.farRecord ctx obj) t.farTakes }

/-- R176, R177, R419: the place of a write of a copy to an element of its object here, with the object's format; i0 from 2^32 on
names the scale byte of an element. None where the copy's take was refused, which the other package learns. -/
def State.farPlace (s : State) (ctx src pkg copy i0 i1 : Nat) : Option (Elem × Fmt) :=
  match (s.farTakes.find? fun x => x.1 = (pkg, copy)).bind fun x => x.2 with
  | none => none
  | some r =>
    let F := fmtOfCode (fun k => ((s.lcOf ctx src).fmtOf k).1) (objFmt r)
    let e0 := i0 % 2 ^ 32
    if i0 < 2 ^ 32 then some (objElem r F.width e0 i1, F)
    else match objElem r F.width e0 i1, objScaleAt r F.width e0 i1 with
      | .va _ _, some a => some (.va a false, uint8)
      | _, _ => none

/-- The keys of n bytes that a write of another package reaches at an address of a context, with the attributes of its page. -/
def State.farKeys (s : State) (ctx : Nat) (a : Word) (n : Nat) : Option (List Nat × Attr) :=
  let c := s.ctxOf ctx
  match regionOf a with
  | .device =>
    if c.inTables a then none
    else (s.spanKeys ctx a n fun e => e.w && !e.ro).map fun ks =>
      (ks, ((s.walk ctx a).map fun e => s.attrOf e a).getD {})
  | .remote m off =>
    if (c.lcOf m).valid = true ∧ off + n ≤ (c.lcOf m).lsz then
      some ((List.range n).map fun i => scratchKey ctx m (off + i), {})
    else none
  | _ => none

/-- R188, R419: the bytes of a write of another package are performed: they join the pending set under that package and its copy. -/
def State.farPerform (s : State) (pkg copy : Nat) (a : Attr) (l : List (Nat × Byte)) : State :=
  l.foldl (fun s c => { s with
    pend := { cluster := 128 + pkg, engine := .copy, job := 2 ^ 64 + 64 * copy + pkg, key := c.1, val := c.2, pos := s.log.length
              uid := s.nextUid, attr := a } :: s.pend
    nextUid := s.nextUid + 1 }) s

/-- R188, R200, R419: a write of another package's copy; none where it must wait for a chunk that holds exclusive commit. A write
that its object or page refuses has no effect here (log entry 13). -/
def State.takeWrite (s : State) (pkg : Nat) (m : OutsideMsg) (copy i0 i1 : Nat) : Option State :=
  match s.farPlace m.ctx m.src pkg copy i0 i1 with
  | some (.va a hi, F) =>
    let n := codeBytes F.width
    (match s.farKeys m.ctx a n with
      | none => some s
      | some (ks, at') =>
        if s.exclBlocks none ks then none
        else
          let new := (m.payload.headD 0).toNat % 16
          let t := if F.width = 4 then s.fillMissing (fun _ => at') ks else s
          let old := (t.committedByte (128 + pkg) (ks.headD 0)).toNat
          let bytes : List Byte := if F.width = 4 then [BitVec.ofNat 8 (if hi then old % 16 + 16 * new else old / 16 * 16 + new)]
            else m.payload
          some (t.farPerform pkg copy at' (ks.zip bytes)))
  | _ => some s

/-! ### Accepting and acknowledging (R417) -/

/-- R225, R393: whether a context is resident: one that a gang stop has halted is still on its units (DEDUCED, log entry 106). -/
def State.resident (s : State) (ctx : Nat) : Bool :=
  s.hasCtx ctx && decide ((s.ctxOf ctx).state = 1 ∨ (s.ctxOf ctx).state = 3)

/-- R225, R417 to R423: what an accepted message of another package does; none where it must wait. A message for a context
that is not resident, or for an undefined logical core, is refused in its own package. -/
def State.fabricTake (s : State) (pkg : Nat) (m : OutsideMsg) : Option State :=
  match m.what with
  | .message => some (if s.resident m.ctx && (s.ctxOf m.ctx).defines (m.dst % 4096) then s.post (fabricMsg pkg m) else s)
  | .roundSum group round a b => some (s.takeSum m.ctx pkg (group % 64) round a b m.payload)
  | .roundsDone group n => some (s.takeRounds m.ctx pkg (group % 64) n)
  | .roundResult group round a b => some (s.takeResult m.ctx pkg (group % 64) round a b m.payload)
  | .arrive id num req => some (s.takeArrival m.ctx pkg id num req)
  | .barCfg id n => some (s.takeConfig m.ctx id n)
  | .barState id n arr phase mine => some (s.takeBarrier m.ctx pkg id n arr phase mine)
  | .copyTake copy obj => some (s.takeFar m.ctx pkg copy obj)
  | .write copy i0 i1 => s.takeWrite pkg m copy i0 i1

/-- R417: a numbered message arrives from another package. It is accepted in send order: a number accepted before is discarded,
and one that comes too early is sent again (log entry 13). -/
def State.fabricArrive (s : State) (pkg num : Nat) (m : OutsideMsg) : State :=
  if pkg = Config.ownPackage.val ∨ num ≠ lookupD s.fabSeen pkg 0 ∨ s.linksDown = true then s
  else (({ s with fabSeen := setKey s.fabSeen pkg (num + 1) } : State).fabricTake pkg m).getD s

/-- R419: whether a message is a request for an element, which its answer acknowledges. -/
def Msg.asks (m : Msg) : Bool :=
  match m.kind with
  | .farRead _ _ => true
  | _ => false

/-- R417: another package acknowledges a message, which the route to it has carried, or a message of its arrives. -/
def execFabricAck (pkg num : Nat) (arrived : Option OutsideMsg) (st : State) : Out :=
  .next (match arrived with
    | none =>
      if (st.portOf (st.portTo pkg)).carries then
        { st with fabOut := st.fabOut.filter fun x => !(decide (x.pkg = pkg) && decide (x.num = num) && !x.msg.asks) }
      else st
    | some m => st.fabricArrive pkg num m)

/-! ### The time base of the pod (R425) -/

/-- R425: the rate at which a package slews towards the source, in ppm. -/
def slewOf (offset : Int) : Int := max (-100) (min 100 offset)

/-- R425: time-base flits show the source's lead over this package, every 1,000,000 ticks. -/
def execTimeBaseSync (offset : Int) (st : State) : Out :=
  .next (if st.ticks < st.syncAt + 1000000 then st
    else
      let s1 : State := { st with syncAt := st.ticks, slew := slewOf offset }
      if 1000 < offset.natAbs then
        s1.report { kind := 1, sev := 0, ctx := 0, lcore := 0, unit := 8, num := 0, payload := [] }
      else s1)

end Sys2Proof.Machine
end

