-- ==== Sys2Proof/Machine/Package.lean ====
section
/-! DEFINITION. The package's own steps: the host link (R193, R409), acknowledgements (R126, R127, R278), errors and retirement
(R162, R386, R405, R406) and energy (R408). -/

namespace Sys2Proof.Machine

/-! ### The host link (R193, R409) -/

/-- R382, R409: the keys of n bytes at an intermediate address of a context, with the page that maps each. -/
def State.hostKeys (s : State) (c : Ctx) (ia n : Nat) : Option (List (Nat × Stage2)) :=
  (List.range n).foldr (fun i r => match r, c.stage2Of (ia + i) with
    | some l, some p => some ((s.home (p.pa * 2 ^ 16 + (ia + i) % 2 ^ 16), p) :: l)
    | _, _ => none) (some [])

/-- R382, R389, R409: the attributes of a host access: those of the pages that it meets; a byte that a migration forwards has the
granule and the key of its destination. -/
def State.hostAttr (s : State) (ctx : Nat) (l : List (Nat × Stage2)) (k : Nat) : Attr :=
  match l.find? fun p => p.1 = k with
  | none => {}
  | some p =>
    let a := pageAttr ctx p.2
    if k / 2 ^ 16 = p.2.pa then a
    else match s.migs.find? fun m => decide (m.src = p.2.pa) && decide (m.dst = k / 2 ^ 16) with
      | some m => ⟨a.ctx, m.ngran, m.keyid⟩
      | none => a

/-- R409: an answer of the host link. -/
def State.answerHost (s : State) (a : HostAnswer) : State := { s with hostOut := s.hostOut ++ [a] }

/-- R409: a host read of device memory. -/
def execHostMemoryRead (ctx ia n : Nat) (st : State) : Out :=
  let c := st.ctxOf ctx
  .next (match c.hostOk, st.hostKeys c ia n with
    | true, some l =>
      let t := st.fillMissing (st.hostAttr ctx l) (l.map fun p => p.1)
      t.answerHost (.data (l.map fun p => cellRead t.mem p.1)
        (l.any fun p => inPoison t.poison p.1 || frameAbsent p.1))
    | _, _ => st.answerHost .refused)

/-- R409: a host write of device memory, one Apply step; it waits while a chunk that holds exclusive commit has read a
byte of it (R200). -/
def execHostMemoryWrite (ctx ia : Nat) (data : List Byte) (st : State) : Out :=
  let c := st.ctxOf ctx
  .next (match c.hostOk, st.hostKeys c ia data.length with
    | true, some l =>
      if l.all fun p => !p.2.ro then
        (let keys := l.map fun p => p.1
         if st.exclBlocks none keys then st
         else ((st.logWrite (st.hostAttr ctx l) (keys.zip data)).refreshAll keys).touch (keys.map Loc.byte) fun _ => true)
      else st.answerHost .refused
    | _, _ => st.answerHost .refused)

/-- R168, R409: a message of the host for a context, its payload converted as a sending interface converts it. -/
def hostMsg (ctx seq : Nat) (m : OutsideMsg) : Msg :=
  let x : Msg := { deviceMsg ctx (m.dst % 4096) (m.ch % 64) m.payload .host .send with
    src := 0, spkg := 0, host := true, ord := m.ordered, wfmt := m.wfmt, ts := if m.ordered then m.ts else 0
    seq := if m.ordered then seq else 0 }
  { x with payload := (wireConvert (fun _ => 0) x).1 }

/-- R409: whether the link accepts a message: the stored form and the two fixed conversions of whole words. -/
def hostMsgOk (m : OutsideMsg) : Bool :=
  decide (m.wfmt ≤ 2) && decide (m.payload.length ≤ 64) && (decide (m.wfmt = 0) || decide (m.payload.length % 4 = 0))

/-- R196, R358, R409: a host message joins the released messages. -/
def execHostMessage (ctx : Nat) (m : OutsideMsg) (st : State) : Out :=
  let c := st.ctxOf ctx
  .next (if !c.hostOk || !hostMsgOk m then st.answerHost .refused
    else
      let s1 := if m.ordered then st.setCtx { c with hostSeq := (c.hostSeq + 1) % 2 ^ 32, ordSent := c.ordSent + 1 } else st
      s1.post (hostMsg ctx c.hostSeq m))

/-- R193: what host memory holds of a context, by offset, as the host's response shows it. -/
def State.hostShows (s : State) (ctx : Nat) (data : List (Nat × Byte)) : State :=
  { s with host := cellWriteAll s.host (data.map fun c => (ctx * 2 ^ 55 + c.1 % 2 ^ 54, c.2)) }

/-- R193, R256: the host's response to the load that a slot waits for: the load issues again and lands with what host memory
then holds, data being what the host has changed, or raises RIGHTS; the refused read of an alarm's check drops the
alarm. -/
def execHostLoadResponse (core slot : Nat) (refused : Bool) (data : List (Nat × Byte)) (st : State) : Out :=
  .next (match st.slotAt core slot with
    | none => st
    | some f =>
      match f.wait with
      | .host va =>
        if !refused then (st.hostShows f.firing.ctx data).setSlot { f with hosts := addNew f.hosts va }
        else if f.firing.alarm.isSome && !f.chunk.checked then
          st.setSlot { f with wait := .none, chunk := { f.chunk with checkFail := true } }
        else
          let t := st.refocus core slot
          t.takeException .rights t.focus.reg.pc va 0 0
      | _ => st)

/-- R193: a released host store that the host refuses: a copy ends ERROR RIGHTS, a firing's store sends a record. -/
def State.refuseStore (s : State) (h : HostStore) : State :=
  match h.job with
  | some u => (match s.jobOf u with
    | some j => if j.running && decide (j.err = 0) then s.failJob j 8 else s
    | none => s)
  | none => s.sendRecord h.ctx h.lc false false 0 h.ran
      (trapRecord h.fid 0 .rights h.ch false h.lc 0 h.fts h.va 1 0)

/-- R409: whether a host store is the oldest of its context. -/
def State.hostTurn (s : State) (i : Nat) : Option HostStore :=
  (s.hostQ[i]?).bind fun h => if (s.hostQ.take i).any fun x => x.ctx = h.ctx then none else some h

/-- R193: the host refuses the oldest host store of a context. -/
def execHostStoreRefusal (i : Nat) (st : State) : Out :=
  .next (match st.hostTurn i with
    | none => st
    | some h => ({ st with hostQ := dropAt st.hostQ i } : State).refuseStore h)

/-- R192, R193, R409: the host link accepts the oldest host store of a context. -/
def execHostStoreAcceptance (i : Nat) (st : State) : Out :=
  .next (match st.hostTurn i with
    | none => st
    | some h => { st with
        hostQ := dropAt st.hostQ i
        host := cellWriteList st.host (h.ctx * 2 ^ 55 + (h.va.toNat - 0x80000000000000)) h.data })

/-! ### Acknowledgements (R126, R127, R278) -/

/-- R278: the other clusters apply the held invalidations of every scope. -/
def State.invElsewhere (s : State) (r : Release) : State :=
  r.held.foldl (fun s h => match h with
    | .sys 33 a b => if a.getLsbD 10 then s.tlbInvalidate (fun c => decide (c ≠ r.cluster)) a b else s
    | _ => s) s

/-- R278: every cluster has removed the entries: the acknowledgement of a queued release. -/
def execTlbInvAcknowledgement (i : Nat) (st : State) : Out :=
  .next (match st.relQ[i]? with
    | none => st
    | some r =>
      if !r.inv then st
      else
        let s1 := st.invElsewhere r
        ({ s1 with relQ := setAt s1.relQ i { r with inv := false } } : State).drainReleases s1.relQ.length)

/-- R126: every other table of a context, the package table among them, applies a clear of every table. -/
def Ctx.clearElsewhere (c : Ctx) (cluster wg : Nat) (mask : Word) : Ctx :=
  (none :: ((List.range 128).filter fun k => k ≠ cluster).map some).foldl
    (fun c t => c.setWatch t wg ((c.watchOf t wg).clear mask)) c

/-- R127: merges one group of every cluster table into the package table; a cluster's SATCNT becomes zero. -/
def Ctx.mergeGroup (c : Ctx) (wg : Nat) : Ctx :=
  let cl := c.watch.filter fun x => x.1.isSome && decide (x.2.1 = wg)
  let pkg := cl.foldl (fun r x => WatchRec.merge r x.2.2) (c.watchOf none wg)
  let c1 : Ctx := { c with watch := c.watch.map fun x =>
    if x.1.isSome = true ∧ x.2.1 = wg then (x.1, x.2.1, { x.2.2 with sat := 0 }) else x }
  if cl = [] then c else c1.setWatch none wg pkg

/-- R127: the groups that a WG.SYNC names. -/
def syncGroups (a : Word) : List Nat := if a.getLsbD 8 then List.range 256 else [bitsOf a 7 0]

/-- R126, R127: the watch effects of a queued release beyond the issuing cluster's table: its clears of every table, then its
merges. -/
def State.watchElsewhere (s : State) (r : Release) : State :=
  let s1 := r.held.foldl (fun s h => match h with
    | .wgClr wg mask => if mask.getLsbD 18 then s.setCtx ((s.ctxOf r.ctx).clearElsewhere r.cluster wg mask) else s
    | _ => s) s
  r.held.foldl (fun s h => match h with
    | .wgSync a => s.setCtx ((syncGroups a).foldl Ctx.mergeGroup (s.ctxOf r.ctx))
    | _ => s) s1

/-- R126, R127: every table has applied the clears and merges of a queued release. -/
def execWgTablesApplied (i : Nat) (st : State) : Out :=
  .next (match st.relQ[i]? with
    | none => st
    | some r =>
      if !r.wg then st
      else
        let s1 := st.watchElsewhere r
        ({ s1 with relQ := setAt s1.relQ i { r with wg := false } } : State).drainReleases s1.relQ.length)

/-! ### Errors, tests and retirement (R162, R386, R387, R405, R406) -/

/-- R162, R405: a scratchpad error: a corrected one adds 1 to the core's score, an uncorrectable one poisons 8 bytes. -/
def execScratchpadError (ctx lc off : Nat) (fatal : Bool) (st : State) : Out :=
  let l := st.lcOf ctx lc
  .next (if !l.valid || l.out || decide (l.lsz ≤ off) then st
    else if fatal then st.poisonUnit (scratchKey ctx lc (off / 8 * 8)) 8
    else st.suspect .core l.pcore incOne)

/-- R387: the pseudo-channel of the same group of a stack that is already retired. -/
def State.retiredPartner (s : State) (pc : Nat) : Option Nat :=
  (s.retired.find? fun u => decide (u.1 = .pc) && decide (u.2 / 16 = pc / 16)).map fun u => u.2

/-- R363, R406: the fault rectangle of a retired router stays fenced. -/
def State.fenceRouter (s : State) (p : Nat) : State :=
  { s with fences := addNew s.fences (clusterDie (clusterIdOf p), s.rectOf (clusterIdOf p)) }

/-- R354, R386, R406: what the retirement of a unit brings. -/
def State.retire (s : State) (u : UnitKind) (num : Nat) : State :=
  let s1 : State := { s with retired := addNew s.retired (u, num) }
  let s2 := match u with
    | .llc => if num ∈ s1.offline then s1 else (s1.sliceOffline num []).reportOffline num
    | .router => s1.fenceRouter num
    | .port => if (s1.portOf num).down then s1 else s1.portDown num
    | _ => s1
  s2.keepShadows.report { kind := 5, sev := 1, ctx := 0, lcore := 0, unit := unitCode u, num := num, payload := [] }

/-- R406: a test that the unit passes: its score becomes half its advanced value. -/
def State.passTest (s : State) (u : UnitKind) (num : Nat) : State :=
  let x := s.scoreOf u num
  let half (r : RingResult) : Word := r.b ++ (rne32 ((exact32 r.a).scale (-1))).val
  (s.holdScore u num x (s.scoreOp (.set (half (s.scoreOp .ld x))) x)).report
    { kind := 4, sev := 0, ctx := 0, lcore := 0, unit := unitCode u, num := num, payload := [] }

/-- R387, R406: a test that the unit fails: it is retired, but a second pseudo-channel of a group stays in service. -/
def State.failTest (s : State) (u : UnitKind) (num : Nat) : State :=
  match (if u = .pc then s.retiredPartner num else none) with
  | some p => s.report { kind := 9, sev := 3, ctx := 0, lcore := 0, unit := 7, num := num, payload := leBytes 8 (p % 64) }
  | none => s.retire u num

/-- R406: the physical cores whose logical cores management moves away before it tests a unit: a core or TSC, the cores of an
engine's cluster, those of a router's fault rectangle. -/
def State.coresOn (s : State) (u : UnitKind) (num : Nat) : List Nat :=
  let all (k : Nat) : List Nat := (List.range 8).map (coreAt k)
  match u with
  | .core => [num]
  | .tsc => [tscCore (clusterIdOf num)]
  | .matrix => all (clusterIdOf num)
  | .copy => all (clusterIdOf num)
  | .hurdle => all (clusterIdOf num)
  | .router =>
    let k := clusterIdOf num
    (((List.range 128).filter fun c => decide (clusterDie c = clusterDie k) && decide (s.rectOf c = s.rectOf k)).map all).flatten
  | _ => []

/-- R406: management tests a unit whose threshold record is pending, once no logical core lies on it. -/
def execThresholdRecord (u : UnitKind) (num : Nat) (pass : Bool) (st : State) : Out :=
  .next (if (u, num) ∉ st.thresholds ∨ ((st.coresOn u num).any fun p => st.hosted p ≠ []) = true then st
    else
      let s1 : State := { st with thresholds := st.thresholds.filter fun x => x ≠ (u, num) }
      if pass then s1.passTest u num else s1.failTest u num)

/-! ### Energy (R408) -/

/-- R408: the grant of a cluster, in µJ. -/
def State.grantOf (s : State) : Nat := (s.plim - s.pfix) / 128

/-- R408: a budget period begins: each cluster receives its grant. -/
def execBudgetPeriod (st : State) : Out :=
  .next (if st.ticks < st.grantAt + 1000000 then st
    else (List.range 128).foldl (fun s n =>
        s.setCluster { s.clusterOf n with grant := st.grantOf, remainder := 100000 * st.grantOf })
      { st with grantAt := st.ticks })

end Sys2Proof.Machine
end

