-- ==== Sys2Proof/Machine/Dispatch.lean ====
section
/-! DEFINITION. One arm per instruction: each calls its own meaning. -/

namespace Sys2Proof.Machine

def exec (i : Instr) (st : State) : Host.Outcome State Fault Refusal :=
  match i with
  | .add s d a b => Sys2Proof.Machine.execAdd s d a b st
  | .sub s d a b => Sys2Proof.Machine.execSub s d a b st
  | .and s d a b => Sys2Proof.Machine.execAnd s d a b st
  | .or s d a b => Sys2Proof.Machine.execOr s d a b st
  | .xor s d a b => Sys2Proof.Machine.execXor s d a b st
  | .andn s d a b => Sys2Proof.Machine.execAndn s d a b st
  | .sll s d a b => Sys2Proof.Machine.execSll s d a b st
  | .srl s d a b => Sys2Proof.Machine.execSrl s d a b st
  | .sra s d a b => Sys2Proof.Machine.execSra s d a b st
  | .slt s d a b => Sys2Proof.Machine.execSlt s d a b st
  | .sltu s d a b => Sys2Proof.Machine.execSltu s d a b st
  | .min s d a b => Sys2Proof.Machine.execMin s d a b st
  | .max s d a b => Sys2Proof.Machine.execMax s d a b st
  | .minu s d a b => Sys2Proof.Machine.execMinu s d a b st
  | .maxu s d a b => Sys2Proof.Machine.execMaxu s d a b st
  | .cmovz s d a b => Sys2Proof.Machine.execCmovz s d a b st
  | .cmovn s d a b => Sys2Proof.Machine.execCmovn s d a b st
  | .clz s d a => Sys2Proof.Machine.execClz s d a st
  | .ctz s d a => Sys2Proof.Machine.execCtz s d a st
  | .popc s d a => Sys2Proof.Machine.execPopc s d a st
  | .brev s d a => Sys2Proof.Machine.execBrev s d a st
  | .bswap s d a => Sys2Proof.Machine.execBswap s d a st
  | .ext s d a b => Sys2Proof.Machine.execExt s d a b st
  | .ins s d a b => Sys2Proof.Machine.execIns s d a b st
  | .addw s d a b => Sys2Proof.Machine.execAddw s d a b st
  | .subw s d a b => Sys2Proof.Machine.execSubw s d a b st
  | .sllw s d a b => Sys2Proof.Machine.execSllw s d a b st
  | .srlw s d a b => Sys2Proof.Machine.execSrlw s d a b st
  | .sraw s d a b => Sys2Proof.Machine.execSraw s d a b st
  | .addi s d a n0 => Sys2Proof.Machine.execAddi s d a n0 st
  | .andi s d a n0 => Sys2Proof.Machine.execAndi s d a n0 st
  | .ori s d a n0 => Sys2Proof.Machine.execOri s d a n0 st
  | .xori s d a n0 => Sys2Proof.Machine.execXori s d a n0 st
  | .slti s d a n0 => Sys2Proof.Machine.execSlti s d a n0 st
  | .sltiu s d a n0 => Sys2Proof.Machine.execSltiu s d a n0 st
  | .slli s d a h => Sys2Proof.Machine.execSlli s d a h st
  | .srli s d a h => Sys2Proof.Machine.execSrli s d a h st
  | .srai s d a h => Sys2Proof.Machine.execSrai s d a h st
  | .slliw s d a h => Sys2Proof.Machine.execSlliw s d a h st
  | .srliw s d a h => Sys2Proof.Machine.execSrliw s d a h st
  | .sraiw s d a h => Sys2Proof.Machine.execSraiw s d a h st
  | .lui s d n0 => Sys2Proof.Machine.execLui s d n0 st
  | .addpc s d n0 => Sys2Proof.Machine.execAddpc s d n0 st
  | .mul s d a b => Sys2Proof.Machine.execMul s d a b st
  | .mulh s d a b => Sys2Proof.Machine.execMulh s d a b st
  | .mulhu s d a b => Sys2Proof.Machine.execMulhu s d a b st
  | .div s d a b => Sys2Proof.Machine.execDiv s d a b st
  | .divu s d a b => Sys2Proof.Machine.execDivu s d a b st
  | .rem s d a b => Sys2Proof.Machine.execRem s d a b st
  | .remu s d a b => Sys2Proof.Machine.execRemu s d a b st
  | .mulw s d a b => Sys2Proof.Machine.execMulw s d a b st
  | .divw s d a b => Sys2Proof.Machine.execDivw s d a b st
  | .divuw s d a b => Sys2Proof.Machine.execDivuw s d a b st
  | .remw s d a b => Sys2Proof.Machine.execRemw s d a b st
  | .remuw s d a b => Sys2Proof.Machine.execRemuw s d a b st
  | .beq s a b n0 => Sys2Proof.Machine.execBeq s a b n0 st
  | .bne s a b n0 => Sys2Proof.Machine.execBne s a b n0 st
  | .blt s a b n0 => Sys2Proof.Machine.execBlt s a b n0 st
  | .bge s a b n0 => Sys2Proof.Machine.execBge s a b n0 st
  | .bltu s a b n0 => Sys2Proof.Machine.execBltu s a b n0 st
  | .bgeu s a b n0 => Sys2Proof.Machine.execBgeu s a b n0 st
  | .jal s n0 => Sys2Proof.Machine.execJal s n0 st
  | .j s n0 => Sys2Proof.Machine.execJ s n0 st
  | .jalr s d a n0 => Sys2Proof.Machine.execJalr s d a n0 st
  | .nop s => Sys2Proof.Machine.execNop s st
  | .fin s => Sys2Proof.Machine.execFin s st
  | .trap s a b => Sys2Proof.Machine.execTrap s a b st
  | .brk s => Sys2Proof.Machine.execBrk s st
  | .fmtSet s d a b => Sys2Proof.Machine.execFmtSet s d a b st
  | .fmtRd s d a => Sys2Proof.Machine.execFmtRd s d a st
  | .wgRd s d a b => Sys2Proof.Machine.execWgRd s d a b st
  | .wgClr s a b => Sys2Proof.Machine.execWgClr s a b st
  | .wgSync s a => Sys2Proof.Machine.execWgSync s a st
  | .tbRd s d => Sys2Proof.Machine.execTbRd s d st
  | .tlbWr s a b => Sys2Proof.Machine.execTlbWr s a b st
  | .tlbInv s a b => Sys2Proof.Machine.execTlbInv s a b st
  | .tlbRd s d a b => Sys2Proof.Machine.execTlbRd s d a b st
  | .fltRply s a b => Sys2Proof.Machine.execFltRply s a b st
  | .rectSet s a b => Sys2Proof.Machine.execRectSet s a b st
  | .migGo s a b => Sys2Proof.Machine.execMigGo s a b st
  | .ctxStop s a => Sys2Proof.Machine.execCtxStop s a st
  | .ctxGo s a b => Sys2Proof.Machine.execCtxGo s a b st
  | .ldB s d a o => Sys2Proof.Machine.execLdB s d a o st
  | .ldBu s d a o => Sys2Proof.Machine.execLdBu s d a o st
  | .ldH s d a o => Sys2Proof.Machine.execLdH s d a o st
  | .ldHu s d a o => Sys2Proof.Machine.execLdHu s d a o st
  | .ldW s d a o => Sys2Proof.Machine.execLdW s d a o st
  | .ldWu s d a o => Sys2Proof.Machine.execLdWu s d a o st
  | .ldD s d a o => Sys2Proof.Machine.execLdD s d a o st
  | .stB s d a o => Sys2Proof.Machine.execStB s d a o st
  | .stH s d a o => Sys2Proof.Machine.execStH s d a o st
  | .stW s d a o => Sys2Proof.Machine.execStW s d a o st
  | .stD s d a o => Sys2Proof.Machine.execStD s d a o st
  | .vldW s d a q o => Sys2Proof.Machine.execVldW s d a q o st
  | .vldBf s d a q o => Sys2Proof.Machine.execVldBf s d a q o st
  | .vldH s d a q o => Sys2Proof.Machine.execVldH s d a q o st
  | .vldB s d a q o => Sys2Proof.Machine.execVldB s d a q o st
  | .vldSb s d a q o => Sys2Proof.Machine.execVldSb s d a q o st
  | .vldBc s d a q o => Sys2Proof.Machine.execVldBc s d a q o st
  | .vstW s d a q o => Sys2Proof.Machine.execVstW s d a q o st
  | .vstBf s d a q o => Sys2Proof.Machine.execVstBf s d a q o st
  | .vstH s d a q o => Sys2Proof.Machine.execVstH s d a q o st
  | .vstB s d a q o => Sys2Proof.Machine.execVstB s d a q o st
  | .vldt s d t g q => Sys2Proof.Machine.execVldt s d t g q st
  | .vstt s d t g q => Sys2Proof.Machine.execVstt s d t g q st
  | .vgath s d a b q => Sys2Proof.Machine.execVgath s d a b q st
  | .vscat s d a b q => Sys2Proof.Machine.execVscat s d a b q st
  | .vlds s d a b q => Sys2Proof.Machine.execVlds s d a b q st
  | .vsts s d a b q => Sys2Proof.Machine.execVsts s d a b q st
  | .vscatFadd s d a b q => Sys2Proof.Machine.execVscatFadd s d a b q st
  | .amoAdd s d a b z => Sys2Proof.Machine.execAmoAdd s d a b z st
  | .amoAnd s d a b z => Sys2Proof.Machine.execAmoAnd s d a b z st
  | .amoOr s d a b z => Sys2Proof.Machine.execAmoOr s d a b z st
  | .amoXor s d a b z => Sys2Proof.Machine.execAmoXor s d a b z st
  | .amoMax s d a b z => Sys2Proof.Machine.execAmoMax s d a b z st
  | .amoMin s d a b z => Sys2Proof.Machine.execAmoMin s d a b z st
  | .amoMaxu s d a b z => Sys2Proof.Machine.execAmoMaxu s d a b z st
  | .amoMinu s d a b z => Sys2Proof.Machine.execAmoMinu s d a b z st
  | .amoSwp s d a b z => Sys2Proof.Machine.execAmoSwp s d a b z st
  | .amoCas s d a b z => Sys2Proof.Machine.execAmoCas s d a b z st
  | .amoFadd s d a b => Sys2Proof.Machine.execAmoFadd s d a b st
  | .pamoAdd s a b z => Sys2Proof.Machine.execPamoAdd s a b z st
  | .pamoAnd s a b z => Sys2Proof.Machine.execPamoAnd s a b z st
  | .pamoOr s a b z => Sys2Proof.Machine.execPamoOr s a b z st
  | .pamoXor s a b z => Sys2Proof.Machine.execPamoXor s a b z st
  | .pamoMax s a b z => Sys2Proof.Machine.execPamoMax s a b z st
  | .pamoMin s a b z => Sys2Proof.Machine.execPamoMin s a b z st
  | .pamoMaxu s a b z => Sys2Proof.Machine.execPamoMaxu s a b z st
  | .pamoMinu s a b z => Sys2Proof.Machine.execPamoMinu s a b z st
  | .pamoFadd s a b => Sys2Proof.Machine.execPamoFadd s a b st
  | .send s a b => Sys2Proof.Machine.execSend s a b st
  | .sendt s d a b => Sys2Proof.Machine.execSendt s d a b st
  | .sendm s d a b => Sys2Proof.Machine.execSendm s d a b st
  | .sendr s a b => Sys2Proof.Machine.execSendr s a b st
  | .mld s d a b => Sys2Proof.Machine.execMld s d a b st
  | .mhdr s d a b => Sys2Proof.Machine.execMhdr s d a b st
  | .ttWr s a b => Sys2Proof.Machine.execTtWr s a b st
  | .ttRd s d a b => Sys2Proof.Machine.execTtRd s d a b st
  | .ttBlk s a => Sys2Proof.Machine.execTtBlk s a st
  | .ttUblk s a => Sys2Proof.Machine.execTtUblk s a st
  | .commit s => Sys2Proof.Machine.execCommit s st
  | .fence s b => Sys2Proof.Machine.execFence s b st
  | .abort s a => Sys2Proof.Machine.execAbort s a st
  | .dgRd s d a => Sys2Proof.Machine.execDgRd s d a st
  | .dgMode s a => Sys2Proof.Machine.execDgMode s a st
  | .tileDef s a => Sys2Proof.Machine.execTileDef s a st
  | .tileSt s a b => Sys2Proof.Machine.execTileSt s a b st
  | .tileRd s d a b => Sys2Proof.Machine.execTileRd s d a b st
  | .tileSat s d a => Sys2Proof.Machine.execTileSat s d a st
  | .pf s a b => Sys2Proof.Machine.execPf s a b st
  | .rwLd s d a => Sys2Proof.Machine.execRwLd s d a st
  | .rwAdv s d a => Sys2Proof.Machine.execRwAdv s d a st
  | .rwSet s d a b => Sys2Proof.Machine.execRwSet s d a b st
  | .rwAdd s d a b => Sys2Proof.Machine.execRwAdd s d a b st
  | .rwArm s d a => Sys2Proof.Machine.execRwArm s d a st
  | .rwDisarm s d a => Sys2Proof.Machine.execRwDisarm s d a st
  | .rwHdr s d a => Sys2Proof.Machine.execRwHdr s d a st
  | .lawWr s a b => Sys2Proof.Machine.execLawWr s a b st
  | .lawRd s d a b => Sys2Proof.Machine.execLawRd s d a b st
  | .clkAdv s a b => Sys2Proof.Machine.execClkAdv s a b st
  | .clkRd s d a => Sys2Proof.Machine.execClkRd s d a st
  | .vaddF s d a b q => Sys2Proof.Machine.execVaddF s d a b q st
  | .vsubF s d a b q => Sys2Proof.Machine.execVsubF s d a b q st
  | .vmulF s d a b q => Sys2Proof.Machine.execVmulF s d a b q st
  | .vdivF s d a b q => Sys2Proof.Machine.execVdivF s d a b q st
  | .vsqrtF s d a q => Sys2Proof.Machine.execVsqrtF s d a q st
  | .vmaxF s d a b q => Sys2Proof.Machine.execVmaxF s d a b q st
  | .vminF s d a b q => Sys2Proof.Machine.execVminF s d a b q st
  | .vabsF s d a q => Sys2Proof.Machine.execVabsF s d a q st
  | .vnegF s d a q => Sys2Proof.Machine.execVnegF s d a q st
  | .vfma s d a b q => Sys2Proof.Machine.execVfma s d a b q st
  | .vfms s d a b q => Sys2Proof.Machine.execVfms s d a b q st
  | .vfnma s d a b q => Sys2Proof.Machine.execVfnma s d a b q st
  | .vcmpeqF s d a b q => Sys2Proof.Machine.execVcmpeqF s d a b q st
  | .vcmpltF s d a b q => Sys2Proof.Machine.execVcmpltF s d a b q st
  | .vcmpleF s d a b q => Sys2Proof.Machine.execVcmpleF s d a b q st
  | .vcmpunF s d a b q => Sys2Proof.Machine.execVcmpunF s d a b q st
  | .vclass s d a q => Sys2Proof.Machine.execVclass s d a q st
  | .vaddI s d a b q => Sys2Proof.Machine.execVaddI s d a b q st
  | .vsubI s d a b q => Sys2Proof.Machine.execVsubI s d a b q st
  | .vmulI s d a b q => Sys2Proof.Machine.execVmulI s d a b q st
  | .vand s d a b q => Sys2Proof.Machine.execVand s d a b q st
  | .vor s d a b q => Sys2Proof.Machine.execVor s d a b q st
  | .vxor s d a b q => Sys2Proof.Machine.execVxor s d a b q st
  | .vshl s d a b q => Sys2Proof.Machine.execVshl s d a b q st
  | .vshr s d a b q => Sys2Proof.Machine.execVshr s d a b q st
  | .vsra s d a b q => Sys2Proof.Machine.execVsra s d a b q st
  | .vminI s d a b q => Sys2Proof.Machine.execVminI s d a b q st
  | .vmaxI s d a b q => Sys2Proof.Machine.execVmaxI s d a b q st
  | .vcmpeqI s d a b q => Sys2Proof.Machine.execVcmpeqI s d a b q st
  | .vcmpltI s d a b q => Sys2Proof.Machine.execVcmpltI s d a b q st
  | .vcmpltu s d a b q => Sys2Proof.Machine.execVcmpltu s d a b q st
  | .vsel s d a b q => Sys2Proof.Machine.execVsel s d a b q st
  | .vmov s d a q => Sys2Proof.Machine.execVmov s d a q st
  | .vbcast s d a q => Sys2Proof.Machine.execVbcast s d a q st
  | .vext s d a b => Sys2Proof.Machine.execVext s d a b st
  | .vins s d a b => Sys2Proof.Machine.execVins s d a b st
  | .viota s d q => Sys2Proof.Machine.execViota s d q st
  | .vcvtFI s d a r q => Sys2Proof.Machine.execVcvtFI s d a r q st
  | .vcvtIF s d a r q => Sys2Proof.Machine.execVcvtIF s d a r q st
  | .vcvtFBf s d a q => Sys2Proof.Machine.execVcvtFBf s d a q st
  | .vcvtBfF s d a r q => Sys2Proof.Machine.execVcvtBfF s d a r q st
  | .vcvtFH s d a q => Sys2Proof.Machine.execVcvtFH s d a q st
  | .vcvtHF s d a r q => Sys2Proof.Machine.execVcvtHF s d a r q st
  | .vnarrow s d a r k q => Sys2Proof.Machine.execVnarrow s d a r k q st
  | .vwiden s d a k q => Sys2Proof.Machine.execVwiden s d a k q st
  | .vpack s d a r k q => Sys2Proof.Machine.execVpack s d a r k q st
  | .vunpack s d a k q => Sys2Proof.Machine.execVunpack s d a k q st
  | .vrsumF s d a q => Sys2Proof.Machine.execVrsumF s d a q st
  | .vrmaxF s d a q => Sys2Proof.Machine.execVrmaxF s d a q st
  | .vrminF s d a q => Sys2Proof.Machine.execVrminF s d a q st
  | .vrsumI s d a q => Sys2Proof.Machine.execVrsumI s d a q st
  | .vrsumX s d a q => Sys2Proof.Machine.execVrsumX s d a q st
  | .vscanF s d a q => Sys2Proof.Machine.execVscanF s d a q st
  | .vscanI s d a q => Sys2Proof.Machine.execVscanI s d a q st
  | .vargmax s d a q => Sys2Proof.Machine.execVargmax s d a q st
  | .vargmin s d a q => Sys2Proof.Machine.execVargmin s d a q st
  | .vperm s d a b q => Sys2Proof.Machine.execVperm s d a b q st
  | .vrot s d a b q => Sys2Proof.Machine.execVrot s d a b q st
  | .vzip s d a b q => Sys2Proof.Machine.execVzip s d a b q st
  | .vunzip s d a b q => Sys2Proof.Machine.execVunzip s d a b q st
  | .vcomp s d a q => Sys2Proof.Machine.execVcomp s d a q st
  | .vexpd s d a q => Sys2Proof.Machine.execVexpd s d a q st
  | .vfnExp2 s d a q p => Sys2Proof.Machine.execVfnExp2 s d a q p st
  | .vfnLog2 s d a q p => Sys2Proof.Machine.execVfnLog2 s d a q p st
  | .vfnExp s d a q p => Sys2Proof.Machine.execVfnExp s d a q p st
  | .vfnLn s d a q p => Sys2Proof.Machine.execVfnLn s d a q p st
  | .vfnRcp s d a q p => Sys2Proof.Machine.execVfnRcp s d a q p st
  | .vfnRsqrt s d a q p => Sys2Proof.Machine.execVfnRsqrt s d a q p st
  | .vfnSint s d a q p => Sys2Proof.Machine.execVfnSint s d a q p st
  | .vfnCost s d a q p => Sys2Proof.Machine.execVfnCost s d a q p st
  | .vfnTanh s d a q p => Sys2Proof.Machine.execVfnTanh s d a q p st
  | .vfnSigm s d a q p => Sys2Proof.Machine.execVfnSigm s d a q p st
  | .vfnErf s d a q p => Sys2Proof.Machine.execVfnErf s d a q p st
  | .vfnGelu s d a q p => Sys2Proof.Machine.execVfnGelu s d a q p st
  | .vfnSilu s d a q p => Sys2Proof.Machine.execVfnSilu s d a q p st
  | .mand s d a b => Sys2Proof.Machine.execMand s d a b st
  | .mor s d a b => Sys2Proof.Machine.execMor s d a b st
  | .mxor s d a b => Sys2Proof.Machine.execMxor s d a b st
  | .mnot s d a => Sys2Proof.Machine.execMnot s d a st
  | .mpop s d a => Sys2Proof.Machine.execMpop s d a st
  | .mfirst s d a => Sys2Proof.Machine.execMfirst s d a st
  | .mset s d a => Sys2Proof.Machine.execMset s d a st
  | .mget s d a => Sys2Proof.Machine.execMget s d a st
  | .vquant s d a b q => Sys2Proof.Machine.execVquant s d a b q st
  | .vdq s d a b q => Sys2Proof.Machine.execVdq s d a b q st
  | .vlaw s d a b q => Sys2Proof.Machine.execVlaw s d a b q st
  | .vtopk s d a b q => Sys2Proof.Machine.execVtopk s d a b q st
  | .vsp24 s d a b q => Sys2Proof.Machine.execVsp24 s d a b q st
  | .csrr s d n => Sys2Proof.Machine.execCsrr s d n st
  | .csrw s d a n => Sys2Proof.Machine.execCsrw s d a n st
  | .csrs s d a n => Sys2Proof.Machine.execCsrs s d a n st
  | .csrc s d a n => Sys2Proof.Machine.execCsrc s d a n st
  | .frd s d n => Sys2Proof.Machine.execFrd s d n st
  | .mxWr s a b => Sys2Proof.Machine.execMxWr s a b st
  | .mxRd s a d => Sys2Proof.Machine.execMxRd s a d st
  | .mxLs s a d => Sys2Proof.Machine.execMxLs s a d st
  | .mxStr s a d => Sys2Proof.Machine.execMxStr s a d st
  | .mxDrn s a d => Sys2Proof.Machine.execMxDrn s a d st
  | .mxZer s a d => Sys2Proof.Machine.execMxZer s a d st
  | .mxPoll s a d => Sys2Proof.Machine.execMxPoll s a d st
  | .mxSlp s a d => Sys2Proof.Machine.execMxSlp s a d st
  | .mxCan s a => Sys2Proof.Machine.execMxCan s a st
  | .cpPush s a b => Sys2Proof.Machine.execCpPush s a b st
  | .cpTry s a b d => Sys2Proof.Machine.execCpTry s a b d st
  | .cpPoll s a d => Sys2Proof.Machine.execCpPoll s a d st
  | .cpCan s a => Sys2Proof.Machine.execCpCan s a st
  | .hsWr s a b => Sys2Proof.Machine.execHsWr s a b st
  | .hsRd s a d => Sys2Proof.Machine.execHsRd s a d st
  | .hsEnt s a b d => Sys2Proof.Machine.execHsEnt s a b d st
  | .hsTry s a b d => Sys2Proof.Machine.execHsTry s a b d st
  | .hsPass s a b => Sys2Proof.Machine.execHsPass s a b st
  | .hsDrop s => Sys2Proof.Machine.execHsDrop s st
  | .hsStat s a b d => Sys2Proof.Machine.execHsStat s a b d st
  | .barCfg s a b => Sys2Proof.Machine.execBarCfg s a b st
  | .barArr s a => Sys2Proof.Machine.execBarArr s a st
  | .barWait s a => Sys2Proof.Machine.execBarWait s a st
  | .barAw s a => Sys2Proof.Machine.execBarAw s a st
  | .barAf s a b => Sys2Proof.Machine.execBarAf s a b st
  | .barRd s a d => Sys2Proof.Machine.execBarRd s a d st
  | .redCfg s a b => Sys2Proof.Machine.execRedCfg s a b st
  | .redRd s a d => Sys2Proof.Machine.execRedRd s a d st
  | .once => Sys2Proof.Machine.execOnce st
  | .firingCreate ctx lc ch => Sys2Proof.Machine.execFiringCreate ctx lc ch st
  | .firingDispatch core slot => Sys2Proof.Machine.execFiringDispatch core slot st
  | .firingAging n0 => Sys2Proof.Machine.execFiringAging n0 st
  | .timeSliceEnd ctx lc => Sys2Proof.Machine.execTimeSliceEnd ctx lc st
  | .chunkClose core slot => Sys2Proof.Machine.execChunkClose core slot st
  | .chunkCommit core slot => Sys2Proof.Machine.execChunkCommit core slot st
  | .chunkSquash core slot => Sys2Proof.Machine.execChunkSquash core slot st
  | .exclusiveCommitGrant => Sys2Proof.Machine.execExclusiveCommitGrant st
  | .abortWaitTimeout core slot => Sys2Proof.Machine.execAbortWaitTimeout core slot st
  | .messageDeliver n0 => Sys2Proof.Machine.execMessageDeliver n0 st
  | .trapReply n0 => Sys2Proof.Machine.execTrapReply n0 st
  | .commandTake cluster e head => Sys2Proof.Machine.execCommandTake cluster e head st
  | .readElement cluster e job elem view => Sys2Proof.Machine.execReadElement cluster e job elem view st
  | .perform cluster e job elem => Sys2Proof.Machine.execPerform cluster e job elem st
  | .apply n0 => Sys2Proof.Machine.execApply n0 st
  | .postCompletion cluster e job => Sys2Proof.Machine.execPostCompletion cluster e job st
  | .oncePosting core slot => Sys2Proof.Machine.execOncePosting core slot st
  | .faultReplyArrival n0 => Sys2Proof.Machine.execFaultReplyArrival n0 st
  | .copyOpCopy cluster job e0 e1 => Sys2Proof.Machine.execCopyOpCopy cluster job e0 e1 st
  | .copyOpGather cluster job e0 e1 => Sys2Proof.Machine.execCopyOpGather cluster job e0 e1 st
  | .copyOpScatter cluster job e0 e1 => Sys2Proof.Machine.execCopyOpScatter cluster job e0 e1 st
  | .copyOpFill cluster job e0 e1 => Sys2Proof.Machine.execCopyOpFill cluster job e0 e1 st
  | .copyOpConvert cluster job e0 e1 => Sys2Proof.Machine.execCopyOpConvert cluster job e0 e1 st
  | .ringsweep cluster job e0 e1 => Sys2Proof.Machine.execRingsweep cluster job e0 e1 st
  | .regran cluster job line => Sys2Proof.Machine.execRegran cluster job line st
  | .regranRelease cluster job => Sys2Proof.Machine.execRegranRelease cluster job st
  | .nanWindowClose cluster ctx wg => Sys2Proof.Machine.execNanWindowClose cluster ctx wg st
  | .hsEntryDelivery n0 => Sys2Proof.Machine.execHsEntryDelivery n0 st
  | .hsDispatch ctx lcl set stage => Sys2Proof.Machine.execHsDispatch ctx lcl set stage st
  | .hsVerdictDelivery n0 => Sys2Proof.Machine.execHsVerdictDelivery n0 st
  | .reductionResult ctx group => Sys2Proof.Machine.execReductionResult ctx group st
  | .gvtSweep ctx => Sys2Proof.Machine.execGvtSweep ctx st
  | .flushMarker core router => Sys2Proof.Machine.execFlushMarker core router st
  | .migGoCompletion n0 => Sys2Proof.Machine.execMigGoCompletion n0 st
  | .ctxStopCompletion n0 => Sys2Proof.Machine.execCtxStopCompletion n0 st
  | .ctxGoCompletion n0 => Sys2Proof.Machine.execCtxGoCompletion n0 st
  | .inboxReplay ctx lc => Sys2Proof.Machine.execInboxReplay ctx lc st
  | .inboxRetry n0 => Sys2Proof.Machine.execInboxRetry n0 st
  | .rectFence u num => Sys2Proof.Machine.execRectFence u num st
  | .scratchpadError ctx lc off fatal => Sys2Proof.Machine.execScratchpadError ctx lc off fatal st
  | .clusterStateError cluster u what => Sys2Proof.Machine.execClusterStateError cluster u what st
  | .thresholdRecord u num pass => Sys2Proof.Machine.execThresholdRecord u num pass st
  | .llcFill pa ctx gran keyid => Sys2Proof.Machine.execLlcFill pa ctx gran keyid st
  | .llcWriteback pa => Sys2Proof.Machine.execLlcWriteback pa st
  | .scrub pa => Sys2Proof.Machine.execScrub pa st
  | .llcSliceOffline slice what => Sys2Proof.Machine.execLlcSliceOffline slice what st
  | .budgetPeriod => Sys2Proof.Machine.execBudgetPeriod st
  | .hostMemoryRead ctx ia n => Sys2Proof.Machine.execHostMemoryRead ctx ia n st
  | .hostMemoryWrite ctx ia data => Sys2Proof.Machine.execHostMemoryWrite ctx ia data st
  | .hostMessage ctx m => Sys2Proof.Machine.execHostMessage ctx m st
  | .hostLoadResponse core slot refused data => Sys2Proof.Machine.execHostLoadResponse core slot refused data st
  | .hostStoreRefusal n0 => Sys2Proof.Machine.execHostStoreRefusal n0 st
  | .flitReplay flit => Sys2Proof.Machine.execFlitReplay flit st
  | .portRetrain port retrained => Sys2Proof.Machine.execPortRetrain port retrained st
  | .fabricMessageTimeout n0 => Sys2Proof.Machine.execFabricMessageTimeout n0 st
  | .fabricAck pkg num arrived => Sys2Proof.Machine.execFabricAck pkg num arrived st
  | .timeBaseSync offset => Sys2Proof.Machine.execTimeBaseSync offset st
  | .boot images => Sys2Proof.Machine.execBoot images st
  | .getVersion => Sys2Proof.Machine.execGetVersion st
  | .getCapabilities => Sys2Proof.Machine.execGetCapabilities st
  | .negotiateAlgorithms => Sys2Proof.Machine.execNegotiateAlgorithms st
  | .getDigests => Sys2Proof.Machine.execGetDigests st
  | .getCertificate off len => Sys2Proof.Machine.execGetCertificate off len st
  | .challenge req => Sys2Proof.Machine.execChallenge req st
  | .getMeasurements req => Sys2Proof.Machine.execGetMeasurements req st
  | .contextCreation c => Sys2Proof.Machine.execContextCreation c st
  | .keySlotWrite slot key1 key2 => Sys2Proof.Machine.execKeySlotWrite slot key1 key2 st
  | .gangStopByManagement ctx => Sys2Proof.Machine.execGangStopByManagement ctx st
  | .tlbInvAcknowledgement n0 => Sys2Proof.Machine.execTlbInvAcknowledgement n0 st
  | .wgTablesApplied n0 => Sys2Proof.Machine.execWgTablesApplied n0 st
  | .hostStoreAcceptance n0 => Sys2Proof.Machine.execHostStoreAcceptance n0 st

end Sys2Proof.Machine
end

