-- ==== Sys2Proof/Machine/Turn.lean ====
section
/-! DEFINITION. Which agent moves next (R183; log entries 1 and 2), the passage of time (R5, R6, R425; log entry 6), and the
state in which a given word is the next to be fetched. -/

namespace Sys2Proof.Machine

/-- Log entry 1: the instructions that are steps of the machine and have no word. -/
def isEvent (i : Instr) : Bool := (encode? i).isNone

/-- R5, R6, R425: cycles and ticks pass; the tick rate is off by the slew, a part in a million for each ppm, and the part
of a tick that is left over is kept. -/
def State.pass (s : State) (cycles ticks : Nat) : State :=
  let x := s.slewRem + (ticks : Int) * s.slew
  { s with cycle := s.cycle + cycles, ticks := s.ticks + ((ticks : Int) + x / 1000000).toNat, slewRem := x % 1000000 }

/-- R5, log entry 6: one turn takes one cycle, half a tick at 2 GHz. -/
def State.passTurn (s : State) : State := s.pass 1 (s.cycle % 2)

/-- R46, R60: the instruction of a word; none where R60 refuses it. -/
noncomputable def decodeWord? (w : BitVec 32) : Option Instr :=
  match decode w with
  | .ok i => some i
  | .error _ => none

/-- R405: the increments of corrected errors that reads of DRAM met reach their scores, the default entry of the scores its table,
and the alarms that scores have armed are released. -/
def State.settle (s : State) : State :=
  let t := s.blamed.foldl (fun s b => s.suspect b.1 b.2.1 b.2.2) { s.placeLaw with blamed := [] }
  t.scoreAlarms.foldl (fun s a => s.sendAlarm 0 a) { t with scoreAlarms := [] }

/-- Log entry 2: the turn that is taken when the agenda names none: exclusive commit is granted where a slot waits for it; else
the focus slot commits a closed chunk, or its core issues; with no slot in use one cycle passes, and half a tick as in every
turn (DESIGN CHOICE, log entries 6 and 97). -/
noncomputable def State.autoTurn (s : State) : Turn :=
  let f := s.focus
  if s.lapse.excl = none ∧ (s.lapse.exclQ.any s.grantable) = true then .event .exclusiveCommitGrant
  else if !f.active then .elapse 1 (s.cycle % 2)
  else if f.chunk.closed.isSome then (if f.chunk.doomed then .event (.chunkSquash f.core f.k) else .event (.chunkCommit f.core f.k))
  else .core f.core

/-- Log entry 1: takes the next turn off the agenda. -/
noncomputable def State.nextTurnOf (s : State) : Turn × State :=
  match s.agenda with
  | [] => (s.autoTurn, s)
  | t :: l => (t, { s with agenda := l })

/-- R200, R201: the state after a step: one that would write what the chunk with exclusive commit has read waits, and only its
time passes (log entry 70). -/
def State.orWait (s : State) (r : Out) : Out :=
  match r with
  | .next t => .next (if s.spares t then t else s)
  | r => r

/-- R66, R183: one turn. A turn that names an encoded instruction as an event does nothing (log entry 21). -/
noncomputable def State.turn (s : State) (run : Instr → State → Out) (dec : BitVec 32 → Option Instr) : Out :=
  let r := s.settle.nextTurnOf
  match r.1 with
  | .core p => r.2.passTurn.orWait (r.2.passTurn.issueCore p run dec)
  | .event i => if isEvent i then r.2.passTurn.orWait (run i r.2.passTurn) else .next r.2.passTurn
  | .elapse c t => .next (r.2.pass c t)
  | .limits p q => .next { r.2.passTurn with plim := p, pfix := q }
  | .records b => .next { r.2.passTurn with records := b }
  | .request l => .next { r.2.passTurn with asked := l }

/-- R412: whether boot has halted. -/
def State.bootFailed (s : State) : Bool := decide (s.boot = 2)

/-! ### Placing a word at the next fetch (log entry 5) -/

/-- Log entry 5: the virtual page of the placed word, mapped onto frame 0 with R, W and X in a TLB of context 0. -/
def fetchEntry : TlbEntry := { a := 0, b := 7 }

/-- Log entry 5: logical core 0 of context 0, on physical core 0. -/
def fetchCtx (c : Ctx) : Ctx := { c with state := 1, halted := false }.setLc { c.lcOf 0 with valid := true, pcore := 0, out := false, moving := false }

/-- Log entry 5: a state whose next turn issues a word: slot 0 of physical core 0 runs a firing of context 0 at address 0,
its chunk open; the LLC holds the word's line. The rest of the state is kept. -/
def State.placeWord (s : State) (w : BitVec 32) : State :=
  let s1 := s.setCtx (fetchCtx (s.ctxOf 0))
  let s2 := s1.setCore { s1.coreOf 0 with tlb := fetchEntry :: (s1.coreOf 0).tlb, last := 3 }
  let f : Slot := { s.focus with core := 0, k := 0, active := true, firing := {}, reg := {}, land := {}, glen := 0
                                 start := {}, startChunk := {}, chunk := {}, ckpt := {}, wait := .none, opening := false, zeros := []
                                 hosts := [], filled := [] }
  { s2 with
    focus := f
    others := s.others.filter fun g => decide (g.core ≠ 0)
    mem := cellWriteList s.mem 0 (leBytes 4 w.toNat)
    poison := s.poison.filter fun u => !(decide (u.1 < 4))
    llc := ⟨0, {}, 15, 15⟩ :: s.llc.filter fun l => l.line ≠ 0
    exclQ := s.exclQ.filter fun p => p ≠ (0, 0)
    migs := s.migs.filter fun m => m.src ≠ 0
    agenda := [.core 0] }

end Sys2Proof.Machine
end

