-- ==== Sys2Proof/Machine/Step.lean ====
section
/-! DEFINITION. One step of the package: the next turn (log entries 1 and 2). -/

namespace Sys2Proof.Machine

/-- R183: one step; after a failed boot every step stops (R412). -/
noncomputable def step (s : State) : Host.Outcome State Fault Refusal :=
  if s.bootFailed then .fault .bootHalted else s.turn exec decodeWord?

/-- Log entry 5: the state with a word of the opcode table where step fetches next. Every instruction is one word. -/
def State.withFetchWord (s : State) (nbits w : Nat) : State := s.placeWord (BitVec.ofNat 32 (w % 2 ^ nbits))

end Sys2Proof.Machine
end

