-- ==== Sys2Proof/Safety.lean ====
section
/-! DEFINITION. What the statements take as safe: a run that meets no stop, and the invariant of memory's form. -/

namespace Sys2Proof.Machine

/-- A step goes on. -/
def goesOn (s : State) : Prop := ∃ t, step s = .next t

/-- A run of n steps meets no fault and no refusal. -/
def safeFor (n : Nat) (s : State) : Prop := ∃ t, Host.Core.run Sys2Proof.core n s = .next t

/-- R180: device memory with the scratchpads, and host memory, keep their canonical form. -/
def State.MemOk (s : State) : Prop := Memory.wf s.mem = true ∧ Memory.wf s.host = true

end Sys2Proof.Machine
end

