-- ==== Sys2Proof/Certificates/Slice0/Obligations.lean ====
section
/-! DEFINITION. The statements for the provers: what the numbered rules say the instructions and the machine do. The
predicates that several statements share stand beside them. -/

namespace Sys2Proof.Machine

/-! ### What an instruction does to its slot -/

/-- exec answers the next state in which only the slot whose turn it is has changed, to f. -/
def Does (i : Instr) (s : State) (f : Slot) : Prop := exec i s = .next (s.withFocus f)

/-- R66, R67: exec answers the next state in which g[d] has the short-class result x and the slot has gone on in order. -/
def GivesG (i : Instr) (mark : Bool) (d : BitVec 5) (s : State) (x : Word) : Prop :=
  Does i s ((s.focus.writeG d x).advance mark)

/-- A 32-bit result, of any integer, sign-extended to a word (SEXT(n, 32)). -/
def wordOf32 (n : Int) : Word := BitVec.ofInt 64 (Int.bmod n (2 ^ 32))

/-- SEXT(x, 32) as an integer. -/
def int32Of (x : Word) : Int := Int.bmod x.toNat (2 ^ 32)

/-- ZEXT(x, 32) as a number. -/
def nat32Of (x : Word) : Nat := x.toNat % 2 ^ 32

/-! ### The scalar instructions (R107 to R117) -/

/-- R107, R115: a division: with a zero divisor DZ is raised at once. -/
def GivesQuotient (i : Instr) (mark : Bool) (d : BitVec 5) (s : State) (zero : Prop) [Decidable zero] (x : Word) : Prop :=
  Does i s (((s.focus.raiseNow (if zero then flagDz else 0)).writeG d x).advance mark)

/-- R43, R116: the target of a branch or jump: PC + 4 × the signed displacement. -/
def targetOf {n : Nat} (pc : Word) (disp : BitVec n) : Word := BitVec.ofInt 64 (pc.toInt + 4 * disp.toInt)

/-- R116: a branch: only the pc and the group move. -/
def Branches (i : Instr) (mark : Bool) (s : State) (taken : Prop) [Decidable taken] (disp : BitVec 15) : Prop :=
  Does i s (s.focus.advanceTo mark (if taken then targetOf s.focus.reg.pc disp else s.focus.reg.pc + 4))

/-! ### Registers, groups and frames (R44, R62 to R71) -/

/-- The g register that a scalar instruction of R109 to R117, a CSR or FRD read or a scalar move writes. -/
def scalarDest : Instr → Option (BitVec 5)
  | .add _ d _ _ | .sub _ d _ _ | .and _ d _ _ | .or _ d _ _ | .xor _ d _ _ | .andn _ d _ _ | .sll _ d _ _
  | .srl _ d _ _ | .sra _ d _ _ | .slt _ d _ _ | .sltu _ d _ _ | .min _ d _ _ | .max _ d _ _ | .minu _ d _ _
  | .maxu _ d _ _ | .cmovz _ d _ _ | .cmovn _ d _ _ | .clz _ d _ | .ctz _ d _ | .popc _ d _ | .brev _ d _
  | .bswap _ d _ | .ext _ d _ _ | .ins _ d _ _ | .addw _ d _ _ | .subw _ d _ _ | .sllw _ d _ _ | .srlw _ d _ _
  | .sraw _ d _ _ | .addi _ d _ _ | .andi _ d _ _ | .ori _ d _ _ | .xori _ d _ _ | .slti _ d _ _ | .sltiu _ d _ _
  | .slli _ d _ _ | .srli _ d _ _ | .srai _ d _ _ | .slliw _ d _ _ | .srliw _ d _ _ | .sraiw _ d _ _ | .lui _ d _
  | .addpc _ d _ | .mul _ d _ _ | .mulh _ d _ _ | .mulhu _ d _ _ | .div _ d _ _ | .divu _ d _ _ | .rem _ d _ _
  | .remu _ d _ _ | .mulw _ d _ _ | .divw _ d _ _ | .divuw _ d _ _ | .remw _ d _ _ | .remuw _ d _ _
  | .mpop _ d _ | .mfirst _ d _ | .mget _ d _ | .vext _ d _ _ | .tbRd _ d | .frd _ d _ => some d
  | .beq _ _ _ _ | .bne _ _ _ _ | .blt _ _ _ _ | .bge _ _ _ _ | .bltu _ _ _ _ | .bgeu _ _ _ _ | .j _ _ | .nop _
  | .pf _ _ _ => some 0
  | .jal _ _ => some 31
  | _ => none

/-- R107, R115: whether an instruction may raise DZ. -/
def raisesDz : Instr → Bool
  | .div .. | .divu .. | .rem .. | .remu .. | .divw .. | .divuw .. | .remw .. | .remuw .. => true
  | _ => false

/-- Two slots differ at most in the g registers named, in the group's place, and in the flags allowed. -/
def Slot.SameBut (f t : Slot) (d : BitVec 5) (flags : Word) : Prop :=
  t.core = f.core ∧ t.k = f.k ∧ t.firing = f.firing ∧ t.active = f.active ∧ t.ckpt = f.ckpt ∧ t.squashes = f.squashes
    ∧ t.chunk = { f.chunk with ninstr := f.chunk.ninstr + 1 }
    ∧ t.reg.frm = f.reg.frm ∧ t.reg.srcnt = f.reg.srcnt ∧ t.reg.srecnt = f.reg.srecnt ∧ t.reg.ctxsel = f.reg.ctxsel
    ∧ t.reg.sends = f.reg.sends ∧ t.reg.onceOrd = f.reg.onceOrd
    ∧ t.land.v = f.land.v ∧ t.land.m = f.land.m
    ∧ (∀ r, r ≠ d → t.land.g[r.toNat]'r.isLt = f.land.g[r.toNat]'r.isLt)
    ∧ (t.glen ≠ 0 → t.reg.v = f.reg.v ∧ t.reg.m = f.reg.m ∧ (∀ r, r ≠ d → t.gr r = f.gr r)
      ∧ t.land.flags = f.land.flags ∧ (t.reg.flags &&& ~~~ flags) = (f.reg.flags &&& ~~~ flags))
    ∧ (t.glen = 0 → t.reg.v = f.land.v ∧ t.reg.m = f.land.m
      ∧ (∀ r, r ≠ d → t.gr r = if r = 0 then 0 else f.land.g[r.toNat]'r.isLt)
      ∧ (t.reg.flags &&& ~~~ flags) = ((f.reg.flags ||| f.land.flags) &&& ~~~ flags))

/-! ### Masks (R153) -/

/-- R153: exec answers the next state in which m[d] has the short-class result x. -/
def GivesM (i : Instr) (mark : Bool) (d : BitVec 3) (s : State) (x : Lane) : Prop :=
  Does i s ((s.focus.writeM d x).advance mark)

/-! ### Vector registers (R135 to R158) -/

/-- R135: lane l is active where bit l of the mask register is 1. -/
def activeLane (s : State) (q : BitVec 3) (l : Nat) : Bool := (s.focus.mr q).getLsbD l

/-- R135, R139, R68: exec answers the next state in which the long-class vector result of a lane-wise instruction lands: an
active lane takes g's value, an inactive lane keeps what the destination held; FLAGS takes the OR of the active lanes'
flags, the hidden count their saturations. -/
def LandsLanes (i : Instr) (mark : Bool) (d : BitVec 5) (q : BitVec 3) (s : State) (g : Nat → Flagged Lane) : Prop :=
  ∃ v : VReg,
    Does i s ((((s.focus.landV d v).raiseLate
        (((List.range 32).filter (activeLane s q)).foldl (fun w l => w ||| (g l).flags) 0)).addHidden
      (((List.range 32).filter (activeLane s q)).foldl (fun n l => n + (g l).sat) 0)).advance mark)
    ∧ ∀ l (h : l < 32), v[l] = if activeLane s q l then (g l).val else (s.focus.vr d)[l]

/-- R135, R138: the same where no lane raises anything. -/
def LandsPure (i : Instr) (mark : Bool) (d : BitVec 5) (q : BitVec 3) (s : State) (g : Nat → Lane) : Prop :=
  ∃ v : VReg, Does i s ((s.focus.landV d v).advance mark)
    ∧ ∀ l (h : l < 32), v[l] = if activeLane s q l then g l else (s.focus.vr d)[l]

/-- R137: a long-class result that writes every lane, whatever the mask. -/
def LandsWhole (i : Instr) (mark : Bool) (d : BitVec 5) (s : State) (g : Nat → Lane) : Prop :=
  ∃ v : VReg, Does i s ((s.focus.landV d v).advance mark) ∧ ∀ l (h : l < 32), v[l] = g l

/-- R135, R138: a short-class vector register move. -/
def MovesLanes (i : Instr) (mark : Bool) (d : BitVec 5) (s : State) (g : Nat → Lane) : Prop :=
  ∃ v : VReg, Does i s ((s.focus.writeV d v).advance mark) ∧ ∀ l (h : l < 32), v[l] = g l

/-- R135, R138: a compare: a long-class mask, its inactive bits kept. -/
def LandsMask (i : Instr) (mark : Bool) (d q : BitVec 3) (s : State) (c : Nat → Prop) : Prop :=
  ∃ v : Lane, Does i s ((s.focus.landM d v).advance mark)
    ∧ ∀ l < 32, (v.getLsbD l = true) ↔ if activeLane s q l then c l else (s.focus.mr d).getLsbD l = true

/-- R149: a long-class result in a g register, with the flags it raises. -/
def LandsG (i : Instr) (mark : Bool) (d : BitVec 5) (s : State) (x flags : Word) : Prop :=
  Does i s (((s.focus.landG d x).raiseLate flags).advance mark)

/-- R92, R93: the exact value of a finite XR as a rational number; none for NaN and the infinities. -/
def XR.rat : XR → Option Rat
  | .fin neg m e _ => some ((if neg then -1 else 1) * (m : Rat) * (2 : Rat) ^ e)
  | _ => none

/-- R141: comparison of two lanes as FP32 values that are not NaN. -/
def lanesOrder (x y : Lane) (c : Ordering → Prop) : Prop :=
  (exact32 x).isNan = false ∧ (exact32 y).isNan = false ∧ c ((exact32 x).cmp (exact32 y))

/-- R93, R141: the place of an FP32 code that is no NaN in the order of the values, −0 just below +0. -/
def laneOrder (x : Lane) : Int := if x.toNat < 2 ^ 31 then x.toNat else 2 ^ 31 - 1 - (x.toNat : Int)

/-- R84: the code of an FP32 NaN. -/
def nanCode (x : Lane) : Prop := 0x7F800000 < x.toNat % 2 ^ 31

/-- R84, R141, R151: the place of an FP32 code that is no NaN in the order of values, −0 just below +0: a positive code is its
own place, the code of the magnitude n with the sign set lies at −1 − n. -/
def codeRank (x : Lane) : Int := if x.toNat < 2 ^ 31 then x.toNat else 2 ^ 31 - 1 - (x.toNat : Int)

/-- R99: a finite FP32 code in units of 2^−149. -/
def codeUnits (x : Lane) : Int :=
  let e : Nat := x.toNat / 2 ^ 23 % 256
  let m : Nat := x.toNat % 2 ^ 23
  let n : Nat := if e = 0 then m else (2 ^ 23 + m) * 2 ^ (e - 1)
  if x.toNat < 2 ^ 31 then n else -n

/-- R100: node l of TREE_SUM after n levels: the sum of its two nodes of the level before, the one that is there, or none;
its flags are those of the additions in it. -/
def treeNode (x : Nat → Option Lane) : Nat → Nat → Option (Flagged Lane)
  | 0, l => (x l).map fun v => ⟨v, 0, 0⟩
  | n + 1, l => match treeNode x n l, treeNode x n (l + 2 ^ n) with
    | a, none => a
    | none, b => b
    | some a, some b => some ⟨(fadd a.val b.val).val, a.flags ||| b.flags ||| (fadd a.val b.val).flags,
        a.sat + b.sat + (fadd a.val b.val).sat⟩

/-- R100: the running result of a left fold after the lanes below l: the first active lane passes through unchanged, each
later one is added to the result of the nearest active lane below it. -/
def foldBelow (add : Lane → Lane → Flagged Lane) (x : Nat → Option Lane) : Nat → Option (Flagged Lane)
  | 0 => none
  | l + 1 => match x l, foldBelow add x l with
    | none, r => r
    | some v, none => some ⟨v, 0, 0⟩
    | some v, some r => some (add r.val v)

/-- R149: the extreme of the active lanes: above every other in the order given. -/
def IsExtreme (s : State) (a : BitVec 5) (q : BitVec 3) (empty : Lane) (better : Int → Int → Prop) (x : Lane) : Prop :=
  ((∀ l < 32, activeLane s q l = false) → x = empty)
  ∧ ((∃ l < 32, activeLane s q l = true ∧ nanCode (s.lane a l)) → x = 0x7FC00000#32)
  ∧ ((∃ l < 32, activeLane s q l = true) → (∀ l < 32, activeLane s q l = true → ¬nanCode (s.lane a l)) →
    (∃ l < 32, activeLane s q l = true ∧ s.lane a l = x)
    ∧ ∀ l < 32, activeLane s q l = true → better (codeRank x) (codeRank (s.lane a l)))

/-- R151: the lane of the extreme: all ones where no lane is active; the lowest NaN lane where there is one; else the
lowest lane that holds the extreme value. -/
def IsExtremeLane (s : State) (a : BitVec 5) (q : BitVec 3) (better : Int → Int → Prop) (x : Word) : Prop :=
  let on := fun l => l < 32 ∧ activeLane s q l = true
  let best := fun l => ∀ j, on j → better (codeRank (s.lane a l)) (codeRank (s.lane a j))
  ((∀ l, ¬on l) → x = BitVec.allOnes 64)
  ∧ (∀ l, on l → nanCode (s.lane a l) → (∀ j, on j → nanCode (s.lane a j) → l ≤ j) → x = BitVec.ofNat 64 l)
  ∧ (∀ l, on l → (∀ j, on j → ¬nanCode (s.lane a j)) → best l → (∀ j, on j → best j → l ≤ j) → x = BitVec.ofNat 64 l)

/-- R102: the special inputs +∞, −∞, +0 and −0, as FP32 lanes. -/
def specialInputs : List Lane := [0x7F800000#32, 0xFF800000#32, 0#32, 0x80000000#32]

/-- R102's special-case table: what each function gives for the special inputs, with its flags (INV 4, DZ 8: R91). -/
def functionTable : Fn → List (Flagged Lane)
  | .exp2 | .exp => [⟨0x7F800000#32, 0, 0⟩, ⟨0, 0, 0⟩, ⟨0x3F800000#32, 0, 0⟩, ⟨0x3F800000#32, 0, 0⟩]
  | .log2 | .ln => [⟨0x7F800000#32, 0, 0⟩, ⟨0x7FC00000#32, 4, 0⟩, ⟨0xFF800000#32, 8, 0⟩, ⟨0xFF800000#32, 8, 0⟩]
  | .rcp => [⟨0, 0, 0⟩, ⟨0x80000000#32, 0, 0⟩, ⟨0x7F800000#32, 8, 0⟩, ⟨0xFF800000#32, 8, 0⟩]
  | .rsqrt => [⟨0, 0, 0⟩, ⟨0x7FC00000#32, 4, 0⟩, ⟨0x7F800000#32, 8, 0⟩, ⟨0xFF800000#32, 8, 0⟩]
  | .sint => [⟨0x7FC00000#32, 4, 0⟩, ⟨0x7FC00000#32, 4, 0⟩, ⟨0, 0, 0⟩, ⟨0x80000000#32, 0, 0⟩]
  | .cost => [⟨0x7FC00000#32, 4, 0⟩, ⟨0x7FC00000#32, 4, 0⟩, ⟨0x3F800000#32, 0, 0⟩, ⟨0x3F800000#32, 0, 0⟩]
  | .tanh | .erf => [⟨0x3F800000#32, 0, 0⟩, ⟨0xBF800000#32, 0, 0⟩, ⟨0, 0, 0⟩, ⟨0x80000000#32, 0, 0⟩]
  | .sigm => [⟨0x3F800000#32, 0, 0⟩, ⟨0, 0, 0⟩, ⟨0x3F000000#32, 0, 0⟩, ⟨0x3F000000#32, 0, 0⟩]
  | .gelu | .silu => [⟨0x7F800000#32, 0, 0⟩, ⟨0x80000000#32, 0, 0⟩, ⟨0, 0, 0⟩, ⟨0x80000000#32, 0, 0⟩]

/-- R103 to R106 and R102 at the ordinary input 0.3 (the FP32 number 0x3E99999A): the FP32 procedure's value, the exact value
rounded to BF16, and the exact value rounded to FP16, each worked out by hand from those rules. -/
def functionAt : Fn → List Lane
  | .exp2 => [0x3F9D9624#32, 0x3F9E0000#32, 0x3F9DA000#32]
  | .log2 => [0xBFDE54E3#32, 0xBFDE0000#32, 0xBFDE6000#32]
  | .exp => [0x3FACC82D#32, 0x3FAD0000#32, 0x3FACC000#32]
  | .ln => [0xBF9A1BC8#32, 0xBF9A0000#32, 0xBF9A2000#32]
  | .rcp => [0x40555555#32, 0x40550000#32, 0x40556000#32]
  | .rsqrt => [0x3FE9B1E8#32, 0x3FEA0000#32, 0x3FE9C000#32]
  | .sint => [0x3F737870#32, 0x3F730000#32, 0x3F738000#32]
  | .cost => [0xBE9E377C#32, 0xBE9E0000#32, 0xBE9E4000#32]
  | .tanh => [0x3E9526EE#32, 0x3E950000#32, 0x3E952000#32]
  | .sigm => [0x3F130EAA#32, 0x3F130000#32, 0x3F130000#32]
  | .erf => [0x3EA841C5#32, 0x3EA80000#32, 0x3EA84000#32]
  | .gelu => [0x3E3DD289#32, 0x3E3E0000#32, 0x3E3DE000#32]
  | .silu => [0x3E307800#32, 0x3E300000#32, 0x3E308000#32]

/-- R152: an exact value rounded once by RNE into FP32, BF16 or FP16, and held as its exact FP32 value, with the rounding's
flags. -/
def inPrecision (p : BitVec 2) (y : XR) : Flagged Lane :=
  let F := if p = 1 then bf16 else if p = 2 then fp16 else fp32
  let r := roundTo F .rne 0 y
  ⟨(rne32 (decodeFmt F r.code)).val, r.flags, 0⟩

/-- What R102 to R106 and R152 say of a lane result g, for every function, in each of the three precisions: a NaN gives the
canonical NaN, the special inputs R102's table and its further rows; a .BF result is a BF16 value and a .H result an FP16
value; RCP is the correctly rounded quotient; at the inputs with a dyadic exact value that R102 names (EXP2 at integers, LOG2
and RSQRT at powers of two, SINT and COST at quarter turns, those within four turns) the result is that value rounded, a zero
result being +0; at 0.3 the three precisions give the three values of the three rows of R152. -/
def FunctionLanes (g : Fn → BitVec 2 → Lane → Flagged Lane) : Prop :=
  ∀ (p : BitVec 2), p ≠ 3 →
    (∀ (fn : Fn) (x : Lane),
      (0x7F800000 < x.toNat % 2 ^ 31 → g fn p x = ⟨0x7FC00000#32, 0, 0⟩)
      ∧ (p = 1 → (g fn p x).val.toNat % 2 ^ 16 = 0)
      ∧ (p = 2 → ∃ c < 2 ^ 16, (g fn p x).val = (rne32 (decodeFmt fp16 c)).val)
      ∧ (g fn p x).sat = 0)
    ∧ (∀ fn : Fn, specialInputs.map (g fn p) = functionTable fn
      ∧ some (g fn p 0x3E99999A#32).val = (functionAt fn)[p.toNat]?)
    ∧ (∀ x : Lane,
      let n := x.toNat
      (0x43000000 ≤ n ∧ n < 0x7F800000 → g .exp2 p x = ⟨0x7F800000#32, flagOvf, 0⟩)
      ∧ (0xC3170000 ≤ n ∧ n < 0xFF800000 → g .exp2 p x = ⟨0, flagUnf, 0⟩)
      ∧ (0x42B20000 ≤ n ∧ n < 0x7F800000 → g .exp p x = ⟨0x7F800000#32, flagOvf, 0⟩)
      ∧ (0xC2D00000 ≤ n ∧ n < 0xFF800000 → g .exp p x = ⟨0, flagUnf, 0⟩)
      ∧ (0x80000000 < n ∧ n < 0xFF800000 →
          g .log2 p x = ⟨0x7FC00000#32, flagInv, 0⟩ ∧ g .ln p x = ⟨0x7FC00000#32, flagInv, 0⟩
          ∧ g .rsqrt p x = ⟨0x7FC00000#32, flagInv, 0⟩)
      ∧ (0x40800000 ≤ n % 2 ^ 31 ∧ n % 2 ^ 31 < 0x7F800000 →
          g .erf p x = ⟨if n < 2 ^ 31 then 0x3F800000#32 else 0xBF800000#32, 0, 0⟩)
      ∧ (0 < n % 2 ^ 31 ∧ n % 2 ^ 31 < 0x7F800000 →
          g .rcp p x = inPrecision p ((XR.ofInt 1 0).div (exact32 x))))
    ∧ (∀ n : Int, -151 < n → n < 128 → g .exp2 p (rne32 (.ofInt n 0)).val = inPrecision p (.ofInt 1 n))
    ∧ (∀ n : Int, -150 < n → n < 128 → g .log2 p (rne32 (.ofInt 1 n)).val = inPrecision p (.ofInt n 0))
    ∧ (∀ n : Int, -75 < n → n < 64 → g .rsqrt p (rne32 (.ofInt 1 (2 * n))).val = inPrecision p (.ofInt 1 (-n)))
    ∧ (∀ k : Int, -17 < k → k < 17 →
      g .sint p (rne32 (.ofInt k (-2))).val = inPrecision p (.ofInt ([0, 1, 0, -1].getD (k % 4).toNat 0) 0)
      ∧ g .cost p (rne32 (.ofInt k (-2))).val = inPrecision p (.ofInt ([1, 0, -1, 0].getD (k % 4).toNat 0) 0))

/-! ### Memory and the check of an access (R163, R180, R182, R203 to R208, R427) -/

/-- R427: an address that lies in no region. -/
def noRegion (x : Nat) : Prop :=
  (2 ^ 47 ≤ x ∧ x < 0x80000000000000) ∨ (0xC0000000000000 ≤ x ∧ x < 0xFFFE0000000000) ∨ 2 ^ 56 ≤ x

/-- R10: the value of a little-endian load of n bytes, sign- or zero-extended. -/
def loadedInt (l : List Byte) (n : Nat) (signed : Bool) : Int :=
  if signed then Int.bmod (leNat l) (2 ^ (8 * n)) else leNat l

/-- R206, R207: a scalar load at base + offset × size: from M by key it lands the bytes the chunk sees, which enter the
read set, unless one is poisoned (POISON); where the LLC lacks one of them the slot waits for the fill (R379), and lands
nothing yet; from the host, the bytes that the host answered; through a window, a W form
alone, the converted value; from the barrier mirror, the live words (R270); after a ZERO reply, zero (R280); a refused access takes its exception, waits or misses, and lands nothing. -/
def Loads (i : Instr) (k : Bool) (d a : BitVec 5) (o : BitVec 12) (n : Nat) (signed : Bool) (s : State) : Prop :=
  let f := s.focus
  let at' := BitVec.ofInt 64 ((f.gr a).toInt + o.toInt * n)
  let place := s.access f at' n .load (decide (n = 4))
  (∀ key m, place = .ok (.cells key m) → s.anyPoison f key n = false → s.lacks f m key n = none →
    Does i s (((f.readBytes key n).landG d (BitVec.ofInt 64 (loadedInt (s.seenBytes f key n) n signed))).advance k))
  ∧ (∀ key m, place = .ok (.cells key m) → s.anyPoison f key n = true →
    exec i s = .next (s.takeException .poison f.reg.pc at' 0 0))
  ∧ (∀ key m b, place = .ok (.cells key m) → s.anyPoison f key n = false → s.lacks f m key n = some b →
    exec i s = .next (s.withFocus { f with wait := .fill b m }))
  ∧ (∀ off, place = .ok (.hostMem off) →
    Does i s ((f.landG d (BitVec.ofInt 64 (loadedInt (cellReadList s.host (f.firing.ctx * 2 ^ 55 + off) n) n signed))).advance k))
  ∧ (∀ w off g x, place = .ok (.window w off) → s.windowLoad f at' w off = .ok (g, x) →
    Does i s ((g.landG d (BitVec.ofInt 64 (loadedInt (leBytes 4 x.toNat) n signed))).advance k))
  ∧ (∀ off, place = .ok (.live off) →
    Does i s ((f.landG d (BitVec.ofInt 64 (loadedInt (s.myCtx.mirrorBytes off n) n signed))).advance k))
  ∧ (place = .ok .zero → Does i s ((f.landG d 0).advance k))
  ∧ (∀ e, place = .error e → exec i s = s.finish (.error e))

/-- R206, R208, R382: what a store of l at a key leaves in the chunk: its bytes, and for device memory the attributes of its
frame. -/
def Slot.stores (f : Slot) (key : Nat) (m : Attr) (l : List Byte) : Slot :=
  { f with chunk := { f.chunk with
    wbuf := bufWriteList f.chunk.wbuf key l
    attrs := if inDram key then setKey f.chunk.attrs (key / 2 ^ 16) m else f.chunk.attrs } }

/-- R207, R208: a scalar store of the low n bytes of g[d] at base + offset × size: into the chunk's write buffer, or a
held host store; after a ZERO reply the store is dropped (R280); a refused access takes its exception, waits or misses,
and stores nothing. -/
def Stores (i : Instr) (k : Bool) (d a : BitVec 5) (o : BitVec 12) (n : Nat) (s : State) : Prop :=
  let f := s.focus
  let at' := BitVec.ofInt 64 ((f.gr a).toInt + o.toInt * n)
  let l := leBytes n (f.gr d).toNat
  let place := s.access f at' n .store (decide (n = 4))
  let counted := fun (g : Slot) => if n = 4 then s.countWindowSr g at' [at'] else g
  (∀ key m, place = .ok (.cells key m) → Does i s ((counted (f.stores key m l)).advance k))
  ∧ (∀ off, place = .ok (.hostMem off) → Does i s ((counted (f.hold (.hostStore at' l))).advance k))
  ∧ (∀ w off g, place = .ok (.window w off) → s.windowStore f at' w off 0 (BitVec.ofNat 32 (f.gr d).toNat) = .ok g →
    Does i s ((counted g).advance k))
  ∧ (place = .ok .zero → Does i s ((counted f).advance k))
  ∧ (∀ e, place = .error e → exec i s = s.finish (.error e))

/-- R207: what a scalar store names: its source, base, offset and size. -/
def storeForm : Instr → Option (BitVec 5 × BitVec 5 × BitVec 12 × Nat)
  | .stB _ d a o => some (d, a, o, 1)
  | .stH _ d a o => some (d, a, o, 2)
  | .stW _ d a o => some (d, a, o, 4)
  | .stD _ d a o => some (d, a, o, 8)
  | _ => none

/-- R209, R210, R213: a vector load of elements of size bytes at addr l of each active lane l, in ascending order: each
active lane takes what its element gives, an inactive one keeps the destination's lane; the first element that is refused
decides the exception, the wait or the miss, and nothing lands. -/
def VectorLoads (i : Instr) (k : Bool) (d : BitVec 5) (q : BitVec 3) (addr : Nat → Word) (size : Nat) (win : Bool)
    (conv : Nat → Lane) (s : State) : Prop :=
  (∀ g l, s.loadLanes (s.focus.mr q) addr size win (List.range 32) s.focus = .ok (g, l) →
    ∃ v : VReg, Does i s ((g.landV d v).advance k)
      ∧ ∀ j (h : j < 32), v[j] = match l.getD j none with
        | some b => conv (leNat b)
        | none => (s.focus.vr d)[j])
  ∧ (∀ e, s.loadLanes (s.focus.mr q) addr size win (List.range 32) s.focus = .error e → exec i s = s.finish (.error e))

/-- R208 to R214: a vector store of lane values at addr l of each active lane l, in ascending order, so that the highest
active lane's value stays where two meet; the first element that is refused decides the exception, the wait or the miss,
and nothing is stored. after is what the form does to the slot when its elements are stored. -/
def VectorStores (i : Instr) (k : Bool) (q : BitVec 3) (addr : Nat → Word) (val : Nat → List Byte) (win : Bool)
    (after : Slot → Slot) (s : State) : Prop :=
  (∀ g, s.storeLanes (s.focus.mr q) addr val win (List.range 32) s.focus = .ok g → Does i s ((after g).advance k))
  ∧ (∀ e, s.storeLanes (s.focus.mr q) addr val win (List.range 32) s.focus = .error e → exec i s = s.finish (.error e))

/-- R215, R216: a fetching atomic of n bytes on M by key: old, sign-extended, lands in g[d], and the new value is stored in
the chunk; its bytes enter the read set; where the LLC lacks one of them the slot waits for the fill (R379). After a ZERO reply it reads zero and stores nothing (R280). -/
def Fetches (i : Instr) (k : Bool) (d a : BitVec 5) (n : Nat) (s : State) (new : Nat → Nat) (flags : Nat → Word) : Prop :=
  let f := s.focus
  (∀ key m, s.access f (f.gr a) n .amo false = .ok (.cells key m) → s.anyPoison f key n = false →
    s.lacks f m key n = none →
    let old := leNat (s.seenBytes f key n)
    Does i s (((((f.readBytes key n).stores key m (leBytes n (new old))).raiseLate (flags old)).landG d
      (BitVec.ofInt 64 (Int.bmod old (2 ^ (8 * n))))).advance k))
  ∧ (∀ key m, s.access f (f.gr a) n .amo false = .ok (.cells key m) → s.anyPoison f key n = true →
    exec i s = .next (s.takeException .poison f.reg.pc (f.gr a) 0 0))
  ∧ (∀ key m x, s.access f (f.gr a) n .amo false = .ok (.cells key m) → s.anyPoison f key n = false →
    s.lacks f m key n = some x → exec i s = .next (s.withFocus { f with wait := .fill x m }))
  ∧ (s.access f (f.gr a) n .amo false = .ok .zero → Does i s (((f.raiseLate (flags 0)).landG d 0).advance k))
  ∧ (∀ e, s.access f (f.gr a) n .amo false = .error e → exec i s = s.finish (.error e))

/-- R217: a posted atomic is checked and held: it writes no register, enters no read set, and M is read at the commit. -/
def Posts (i : Instr) (k : Bool) (a b : BitVec 5) (n : Nat) (op : AmoOp) (s : State) : Prop :=
  let f := s.focus
  (∀ key m, s.access f (f.gr a) n .post false = .ok (.cells key m) →
    Does i s (((f.noteAttr key m).hold (.pamo op n key (f.gr a) (f.gr b))).advance k))
  ∧ (s.access f (f.gr a) n .post false = .ok .zero → Does i s (f.advance k))
  ∧ (∀ e, s.access f (f.gr a) n .post false = .error e → exec i s = s.finish (.error e))

/-! ### System instructions (R120 to R128, R230 to R238) -/

/-- R69, R181: an instruction that ends its group and closes its chunk: the pc moves on, every result of the group lands,
and the slot keeps what the chunk holds. -/
def Closes (i : Instr) (kind : EndKind) (s : State) : Prop :=
  let f := s.focus
  ∃ t : Slot, Does i s t ∧ t.chunk = { f.chunk with ninstr := f.chunk.ninstr + 1, closed := some kind }
    ∧ t.reg.pc = f.reg.pc + 4 ∧ t.glen = 0 ∧ t.reg.g = f.land.g ∧ t.reg.v = f.land.v ∧ t.reg.m = f.land.m
    ∧ t.reg.flags = f.reg.flags ||| f.land.flags ∧ t.reg.frm = f.reg.frm ∧ t.reg.ctxsel = f.reg.ctxsel
    ∧ t.reg.srcnt = f.reg.srcnt ∧ t.reg.sends = f.reg.sends ∧ t.firing = f.firing ∧ t.ckpt = f.ckpt
    ∧ t.active = f.active ∧ t.core = f.core ∧ t.k = f.k

/-- exec answers the next state in which the focus firing has raised an exception at its pc. -/
def Raises (i : Instr) (s : State) (c : Cause) (i0 i1 : Word) : Prop :=
  exec i s = .next (s.takeException c s.focus.reg.pc i0 i1 0)

/-- R325: whether a stage firing has given its verdict. -/
def gaveVerdict (f : Slot) : Prop :=
  f.firing.verdict = true ∨ ∃ pass mask bytes, Held.hsVerdict pass mask bytes ∈ f.chunk.held

/-- R238: what a PF of an address leaves beside its slot: M outside the blocks of the address's line, every slot, host memory and
the messages are as before; the state is as it was where the core TLB has no translation or the address is none of device
memory; and the LLC holds the line, where it lacked it and its home is no offline slice. That every level fills the LLC's line is
the model's choice (log entry 8). -/
def Prefetches (s u : State) (x : Word) : Prop :=
  let f := s.focus
  let found := tlbFind (s.coreOf f.core).tlb f.firing.ctx x
  u.focus = f ∧ u.others = s.others ∧ u.host = s.host ∧ u.net = s.net
  ∧ (2 ^ 47 ≤ x.toNat ∨ found = none → u = s)
  ∧ (∀ e, x.toNat < 2 ^ 47 → found = some e →
    let line := s.home (e.pa x) / 128 * 128
    let a := s.attrOf e x
    (Memory.wf s.mem = true → ∀ j, j / 512 ≠ line / 512 → cellRead u.mem j = cellRead s.mem j)
    ∧ ((∀ i, i < 4 → s.hits a.ctx (line + 32 * i) = true) → u.mem = s.mem)
    ∧ (inDram line = true → s.lineAt (line / 128) = none → (∀ i, i < 4 → s.homeOff a (line + 32 * i) = false) →
      ∀ i, i < 4 → u.hits a.ctx (line + 32 * i) = true))

/-! ### CSRs (R129 to R132, R64) -/

/-- R131: the firing, core and live CSRs and the values they read as. -/
def plainCsrs (s : State) : List (BitVec 12 × Word) :=
  let f := s.focus
  let c := s.ctxOf f.firing.ctx
  let cl := s.clusterOf (clusterIdOf f.core)
  [(0x000, f.reg.flags), (0x001, f.reg.frm), (0x002, f.reg.srcnt), (0x003, f.reg.srecnt),
   (0x010, BitVec.ofNat 64 (s.cycle - (s.coreOf f.core).born)), (0x011, BitVec.ofNat 64 f.firing.lc),
   (0x012, BitVec.ofNat 64 Config.ownPackage.val), (0x013, BitVec.ofNat 64 f.firing.ctx), (0x021, c.gvt),
   (0x024, BitVec.ofNat 64 (c.energy / 100000)),
   (0x025, BitVec.ofNat 64 (cl.grant % 2 ^ 32 + (cl.remainder / 100000 % 2 ^ 32) * 2 ^ 32)), (0x800, f.reg.ctxsel)]

/-- R131: the context CSRs: the number, the context whose CSR it names, that CSR and its committed value; those of the context in CTXSEL read zero where it does not exist. -/
def contextCsrs (s : State) : List (BitVec 12 × Nat × Nat × Word) :=
  let f := s.focus
  let c := s.ctxOf f.firing.ctx
  let sel := f.reg.ctxsel.toNat % 256
  let x := s.ctxOf sel
  [(0x020, f.firing.ctx, 0x020, c.specwin), (0x022, f.firing.ctx, 0x022, c.trapch), (0x023, f.firing.ctx, 0x023, c.almdrop),
   (0x026, f.firing.ctx, 0x026, c.lawbase), (0x027, f.firing.ctx, 0x027, c.objbase), (0x801, sel, 0x026, x.lawbase),
   (0x802, sel, 0x027, x.objbase), (0x803, sel, 0x803, x.trapsv)]

/-! ### Reset, the step and the encoding (R39, R40, R46, R60, R66, R70, R180) -/

/-- R66, R70, R192, R195: the state in which a core's issue cycle finds the slot it picked: a cycle has passed, the core remembers
the slot, the slot is the focus, and a chunk that waited before it opened is open. -/
def issuing (s : State) (p k : Nat) : State := ((s.setCore { s.coreOf p with last := k }).refocus p k).openFocus

/-- R408, log entry 60: what a turn that began as v leaves where its instruction leaves t: an instruction that issued, that raised
an exception or that was ABORT is charged 0.15 nJ if a vector instruction and 0.03 nJ otherwise, and 1.0 nJ for each line of device
memory that it read. -/
def paidFor (v t : State) (w : BitVec 32) (abort : Bool) : State :=
  let major := w.toNat / 2 ^ 25 % 64
  let vector := (0x18 ≤ major ∧ major ≤ 0x1B) ∨ (0x20 ≤ major ∧ major ≤ 0x27)
  if v.focus.issued t.focus = true ∨ abort = true ∨ v.susp.length < t.susp.length then
    t.charge v.focus.firing.ctx (clusterIdOf v.focus.core) ((if vector then 15 else 3) + 100 * t.focus.lines)
  else t

/-! ### Messages and task tables (R168, R219 to R229) -/

/-- R220: the fields of a send descriptor: destination, channel, length, wire format, and the package. -/
structure Desc where
  dst : Nat
  ch : Nat
  len : Nat
  fmt : Nat
  pkg : Nat

/-- R220: a descriptor's fields by place. -/
def descOf (w : Word) : Desc :=
  let n := w.toNat
  { dst := n % 2 ^ 12, ch := n / 2 ^ 12 % 2 ^ 6, len := n / 2 ^ 18 % 2 ^ 7, fmt := n / 2 ^ 26 % 2 ^ 4
    pkg := if n / 2 ^ 38 % 2 = 1 then n / 2 ^ 32 % 2 ^ 6 else Config.ownPackage.val }

/-- R220: what a descriptor may not hold, in the form with this fn. -/
def Desc.refused (x : Desc) (w : Word) (fn : Nat) : Prop :=
  64 < x.len ∨ (3 ≤ x.fmt ∧ x.fmt ≤ 7) ∨ (x.fmt ≠ 0 ∧ x.len % 4 ≠ 0) ∨ x.ch = 63 ∨ (fn ≠ 0 ∧ w.toNat / 2 ^ 38 % 2 = 1)

/-- R168, R221: a message as a send of the focus firing holds it. -/
def sentAs (s : State) (w : Word) (l : List Byte) (ts : Option Word) (m : Msg) : Prop :=
  let f := s.focus
  let x := descOf w
  m.ctx = f.firing.ctx ∧ m.dst = x.dst ∧ m.ch = x.ch ∧ m.pkg = x.pkg ∧ m.wfmt = x.fmt ∧ m.src = f.firing.lc
    ∧ m.spkg = Config.ownPackage.val ∧ m.host = false ∧ m.ord = ts.isSome ∧ m.ts = ts.getD 0 ∧ m.payload = l
    ∧ m.fid = f.firing.fid ∧ m.fts = f.firing.fts ∧ m.fch = f.firing.ch

/-- R221: the firing has issued one more send. -/
def oneMoreSend (f : Slot) : Slot := { f with reg := { f.reg with sends := f.reg.sends + 1 } }

/-- R220 to R223: the common form of a send with descriptor w: first its own checks (early), then ILLOP for the descriptor
or pre for the form's other operand, BOUNDS for an undefined logical core of the own package (bounded), SENDRATE with PROD
and the fn; then the payload, LEN bytes at g[b], is read, and the send is held (held) and counted. -/
def SendForm (i : Instr) (k : Bool) (fn : Nat) (w addr : Word) (pre : Prop) (preAt : Word) (bounded : Bool)
    (held : List Byte → Held → Prop) (s : State) : Prop :=
  let f := s.focus
  let x := descOf w
  let undef := bounded = true ∧ x.pkg = Config.ownPackage.val ∧ s.myCtx.defines x.dst = false
  let full := s.myEntry.prod ≤ f.reg.sends
  (x.refused w fn → Raises i s .illop w (BitVec.ofNat 64 fn))
  ∧ (¬ x.refused w fn → pre → Raises i s .illop preAt 0)
  ∧ (¬ x.refused w fn → ¬ pre → undef → Raises i s .bounds w 0)
  ∧ (¬ x.refused w fn → ¬ pre → ¬ undef → full → Raises i s .sendrate (BitVec.ofNat 64 s.myEntry.prod) (BitVec.ofNat 64 fn))
  ∧ (¬ x.refused w fn → ¬ pre → ¬ undef → ¬ full →
      let f0 := if 8 ≤ x.fmt then f.addRead (.fmt f.firing.ctx f.firing.lc (x.fmt - 8)) else f
      (∀ g l, s.payload f0 addr x.len = .ok (g, l) →
        ∃ h, held l h ∧ Does i s ((oneMoreSend (g.hold h)).advance k))
      ∧ (∀ e, s.payload f0 addr x.len = .error e → exec i s = s.finish (.error e)))

/-! ### Ring words, laws and clocks (R157, R239 to R261) -/

/-- R239: a ring word's 16 bytes read back. -/
def RingWord.small (w : RingWord) : Prop := w.t < 2 ^ 48 ∧ w.law < 256 ∧ w.rsv < 8

/-- R250 to R257: a word operation: where the word's place, its law and its clock are had, the pair of registers lands the
two values and the status, the word is held in the chunk unless the operation reads, and an armed word holds its alarm;
where they are not, the access stops as its check says, with no effect. -/
def RingDoes (i : Instr) (k : Bool) (op : RingOp) (d : BitVec 4) (a : BitVec 5) (s : State) : Prop :=
  let f := s.focus
  let addr := f.gr a
  let opened := s.ringOpen f addr (decide (op = .ld))
  (∀ g p w e c, opened = .ok (g, p, w, e, c) →
    let r := ringAccess op w e c
    let g1 := if op = .ld then g else g.ringWrite p r.word.bytes
    let g2 := if r.alarm = 0 then g1 else g1.hold (.alarm (alarmOf f addr e c r))
    Does i s ((((g2.landPair d (BitVec.ofNat 64 (r.a.toNat + 2 ^ 32 * r.b.toNat)) r.status).raiseLate r.flags).addHidden
      r.sat).advance k))
  ∧ (∀ er, opened = .error er → exec i s = s.finish (.error er))

/-! ### Engine commands (R264, R266, R283 to R289, R302 to R309) -/

/-- R67, R68: exec answers the next state in which g[d] lands the long-class result x and the slot has gone on. -/
def GivesLate (i : Instr) (mark : Bool) (d : BitVec 5) (s : State) (x : Word) : Prop :=
  Does i s ((s.focus.landG d x).advance mark)

/-- R285, R288: the slot of a job command once the registers and the formats it uses have entered its read set. -/
def jobReads (s : State) (op : Nat) : Slot :=
  let f := s.focus
  let eg := s.egSeen f
  let f0 := (jobRegs op).foldl (fun g n => g.addRead (.eg f.firing.ctx f.firing.lc n)) f
  if op = 4 then f0.readFmtCode ((eg 7).toNat / 2 ^ 35 % 32)
  else if op < 4 then (f0.readFmtCode ((eg 0).toNat % 32)).readFmtCode ((eg 0).toNat / 32 % 32) else f0

/-- R283, R285, R287, R288: a job command: a bad job word raises ILLOP; where formats, shape and operands pass their
checks the job, with a copy of the register bank and of the object records, is held and its number lands; else the
command stops as its check says. -/
def JobForm (i : Instr) (k : Bool) (op : Nat) (d a : BitVec 5) (s : State) : Prop :=
  let f := s.focus
  let w := f.gr a
  let eg := s.egSeen f
  let bad := 71 < w.toNat % 128 ∨ 71 < w.toNat / 2 ^ 8 % 128 ∨ w.toNat / 2 ^ 16 ≠ 0
  let id := (s.myLc.nextJob + (f.chunk.held.filter fun h => match h with
    | .job j => decide (j.engine = .matrix)
    | _ => false).length) % 2 ^ 16
  (bad → Raises i s .illop w 0)
  ∧ (¬ bad → ∀ e, jobFmtCheck op eg = .error e → exec i s = s.finish (.error e))
  ∧ (¬ bad → jobFmtCheck op eg = .ok () → ∀ e, s.jobOperands (jobReads s op) op eg = .error e → exec i s = s.finish (.error e))
  ∧ (¬ bad → jobFmtCheck op eg = .ok () → ∀ g recs, s.jobOperands (jobReads s op) op eg = .ok (g, recs) →
      ∃ (j : Job) (h : Slot), Does i s ((h.landG d (BitVec.ofNat 64 id)).advance k)
        ∧ h.chunk.held = g.chunk.held ++ [.job j] ∧ h.chunk.wbuf = g.chunk.wbuf ∧ h.land = g.land ∧ h.reg.g = g.reg.g
        ∧ j.engine = .matrix ∧ j.op = op ∧ j.id = id ∧ j.word = w ∧ j.ctx = f.firing.ctx ∧ j.lc = f.firing.lc
        ∧ j.fid = f.firing.fid ∧ j.bank = (List.range 14).map eg ∧ j.recs = recs)

/-! ### Barriers and reduction groups (R195, R269, R310, R349, R350) -/

/-- R69, R181, R195: an arrive form: the slot, with what it has added to its read set, ends its group and closes its chunk. -/
def ClosesFrom (i : Instr) (f : Slot) (kind : EndKind) (s : State) : Prop :=
  ∃ t : Slot, Does i s t ∧ t.chunk = { f.chunk with ninstr := f.chunk.ninstr + 1, closed := some kind }
    ∧ t.reg.pc = f.reg.pc + 4 ∧ t.glen = 0 ∧ t.reg.g = f.land.g ∧ t.reg.v = f.land.v ∧ t.reg.m = f.land.m
    ∧ t.firing = f.firing ∧ t.ckpt = f.ckpt

/-! ### The machine's own steps: firings, slots and chunks -/

/-- exec answers some next state with these properties. -/
def Leads (i : Instr) (s : State) (p : State → Prop) : Prop := ∃ t, exec i s = .next t ∧ p t

/-! ### The machine's own steps: messages -/

/-- R186, R345, R397: nothing keeps a released message back: its context is not halted, its logical core is defined,
resident, in no move and in no fenced rectangle, no relay and no inbox message stands before it, and no earlier message of
its outbox to its channel is undelivered. -/
def State.mayDeliver (s : State) (i : Nat) (m : Msg) : Prop :=
  let c := s.ctxOf m.ctx
  let l := c.lcOf m.dst
  c.halted = false ∧ c.defines m.dst = true ∧ l.out = false ∧ s.fencedCore l.pcore = false ∧ l.moving = false
    ∧ s.relayClear m = true ∧ c.inboxHolds m.dst = false ∧ s.behind i m Msg.toFifo = false

/-- R200, R354: no chunk that holds exclusive commit, nor its other copy, has read one of n bytes of M. -/
def State.freeToWrite (s : State) (key n : Nat) : Prop :=
  ∀ p f, s.excl = some p → s.slotAt p.1 p.2 = some f → ∀ j, j < n → Loc.byte (key + j) ∉ s.readsWith f

/-- R81, R179: a NACK record about a message, for its sender's trap actor. -/
def nackOf (m : Msg) (info1 : Nat) (r : Msg) : Prop :=
  r.ctx = m.ctx ∧ r.payload = trapRecord m.fid 0 .nack m.fch false m.src 0 m.fts m.hdr (BitVec.ofNat 64 info1) 0

/-- R169: the bytes of a FIFO slot: header, timestamp, payload padded with zeros, and the send sequence. -/
def slotHolds (m : Msg) (b : Nat → Byte) : Prop :=
  (∀ j, j < 8 → b j = (leBytes 8 m.hdr.toNat).getD j 0) ∧ (∀ j, j < 8 → b (8 + j) = (leBytes 8 m.ts.toNat).getD j 0)
    ∧ (∀ j, j < 64 → b (16 + j) = m.payload.getD j 0)
    ∧ (∀ j, j < 4 → b (80 + j) = (leBytes 4 (if m.ord then m.seq else 0)).getD j 0) ∧ ∀ j, 84 ≤ j → j < 128 → b j = 0

/-! ### The machine's own steps: engines and copies -/

/-- R371, R379: the LLC holds what n bytes from a key have in DRAM, so that a read of them fills nothing. -/
def State.holdsKeys (s : State) (ctx key n : Nat) : Prop := ∀ i, i < n → inDram (key + i) = true → s.hits ctx (key + i) = true

/-- R188, R193, R289, R290, R379: an element read of a running job: the LLC fills what it lacks, and nothing where it holds the
bytes; the bytes that its place gives become the element's code; an element outside the object, or answered ZERO, reads
as zero and counts; a read that the host refuses ends the command with ERROR RIGHTS. -/
def ReadsElement (i : Instr) (j : Job) (elem : Nat) (backs : List Nat) (refused : Bool) (s : State) : Prop :=
  ∀ o, s.readsOf j elem = some o → j.got elem = none → j.readsRemote elem = false →
    let u := s.fillLocs j (s.operandLocs j o)
    (o.loc = .outside ∨ elem ∈ j.zero → Leads i s fun t => t.mem = s.mem ∧ ∃ j', t.jobOf j.uid = some j'
      ∧ j'.got elem = some (0, 127) ∧ j'.oor = j.oor + 1)
    ∧ (¬ (o.loc = .outside ∨ elem ∈ j.zero) → refused = true → s.readsHost j o = true → Leads i s fun t =>
        t.mem = s.mem ∧ ∃ j', t.jobOf j.uid = some j' ∧ j'.err = 8)
    ∧ (¬ (o.loc = .outside ∨ elem ∈ j.zero) → (refused = true → s.readsHost j o = false) → ∀ l,
        u.readOperand j backs o = .bytes l → Leads i s fun t => t.mem = u.mem
        ∧ ((∀ k a, EngLoc.key k a ∈ s.operandLocs j o → s.holdsKeys a.ctx k 1) → u.mem = s.mem)
        ∧ ∃ j', t.jobOf j.uid = some j'
        ∧ j'.got elem = some (codeFrom o.fmt o.loc l, (l.getLast?.getD 127).toNat) ∧ j'.oor = j.oor)

/-- R188: an element write of a running job that meets M: M itself is as before, but for what the LLC fills where a 4-bit code
needs its byte; the job's cluster sees the bytes at once, and no other cluster does. -/
def PerformsElement (i : Instr) (j : Job) (elem : Nat) (s : State) : Prop :=
  ∀ w k m, s.writeOf j elem = some w → elem ∉ j.done → j.rowsBefore elem = true → j.remoteEnd 7 = false →
    (j.cancel = true → j.halted = false ∧ j.begun elem = true) → w.dst.loc ≠ .outside → 2 ^ 32 + elem ∉ j.zero →
    let keys := (List.range (codeBytes w.dst.fmt.width)).map fun n => k + n
    s.elemLocs j w.dst.loc (codeBytes w.dst.fmt.width) true = (keys.map fun n => .key n m) → 0 < w.dst.fmt.width →
    s.exclBlocks none keys = false →
      let u := if w.dst.fmt.width = 4 then s.fillLocs j [.key k m] else s
      let l := u.codeBytesOf j w k
      Leads i s fun t => t.mem = u.mem ∧ t.host = s.host ∧ (s.holdsKeys m.ctx k 1 → u.mem = s.mem)
        ∧ (∀ a, t.committedByte j.cluster a = if k ≤ a ∧ a < k + l.length then l.getD (a - k) 0 else u.committedByte j.cluster a)
        ∧ (∀ c a, c ≠ j.cluster → t.committedByte c a = u.committedByte c a)
        ∧ ∃ j', t.jobOf j.uid = some j' ∧ elem ∈ j'.done

/-- R241, R246, R255: the step of a sweep on an aligned word in bounds; the LLC fills what it lacks of the word's law entry, which
is read as it stands then. -/
def Sweeps (i : Instr) (j : Job) (elem k : Nat) (s : State) : Prop :=
  let w := RingWord.ofBytes (cellReadList s.mem k 16)
  let u := s.readLaw j w.law
  (w.rsv ≠ 0 → Leads i s fun t => t.mem = s.mem ∧ ∃ j', t.jobOf j.uid = some j' ∧ elem ∈ j'.done ∧ j'.sat = j.sat + 1)
  ∧ (∀ n, w.rsv = 0 → u.sweepLaw j w.law = .error n → Leads i s fun t => t.mem = u.mem ∧ ∃ j', t.jobOf j.uid = some j' ∧ j'.err = n)
  ∧ (∀ e, w.rsv = 0 → u.sweepLaw j w.law = .ok e → 3 < e.kind → Leads i s fun t => t.mem = u.mem
      ∧ ∃ j', t.jobOf j.uid = some j' ∧ elem ∈ j'.done ∧ j'.sat = j.sat + 1)
  ∧ (∀ e, w.rsv = 0 → u.sweepLaw j w.law = .ok e → e.kind ≤ 3 →
      let c := clockOf (lookupD j.clocks e.clk 0) e.shift w.t
      let r := ringAccess .adv w e c
      (c.raw < 2 ^ 46 ∨ 2 ^ 47 ≤ c.raw → Leads i s fun t => t.mem = u.mem ∧ ∃ j', t.jobOf j.uid = some j' ∧ elem ∈ j'.done)
      ∧ (2 ^ 46 ≤ c.raw → c.raw < 2 ^ 47 → r.alarm = 0 → Leads i s fun t =>
          (∀ n, n < 16 → cellRead t.mem (k + n) = r.word.bytes.getD n 0)
          ∧ (∀ a, a / 512 ≠ k / 512 ∨ inDram k = false → a < k ∨ k + 16 ≤ a → cellRead t.mem a = cellRead u.mem a)
          ∧ ∃ j', t.jobOf j.uid = some j' ∧ elem ∈ j'.done ∧ j'.oor = j.oor + 1))

/-! ### The machine's own steps: hurdles, placement and rectangles -/

/-- R401: a completion message of a placement command lies in the network: for the issuing logical core of context 0, with
this channel and payload. -/
def Completes (m : Move) (ch : Nat) (payload : List Byte) (t : State) : Prop :=
  ∃ r ∈ t.net, r.ctx = 0 ∧ r.dst = m.src ∧ r.ch = ch ∧ r.payload = payload

/-! ### The machine's own steps: memory, the host, energy -/

/-- R371: no line of a unit stands in the LLC under another context's tag. -/
def State.ownLines (s : State) (a : Attr) (base : Nat) : Prop :=
  ∀ q ∈ unitSectors a.gran base, ∀ x, s.lineAt (q / 128) = some x → x.attr.ctx = a.ctx

/-- R375, R376, R380, R383: DRAM of t holds bytes as a unit under the keys of s, each burst in its place, in every member that is
not retired. -/
def StoredUnit (s t : State) (a : Attr) (base : Nat) (bytes : List Byte) (poison : Bool) : Prop :=
  let cipher := eachSector ((s.keySlot a.keyid).encrypt a.keyid) base (bytes.map BitVec.toNat)
  ∀ i p b, i ∉ s.lostMembers a.gran base → (unitPlaces a.gran base)[i]? = some p →
    (encodeUnit a.gran cipher poison)[i]? = some b → lookupD t.dram p (Vector.replicate 8 0) = b

/-- R251, R405: an increment reaches a unit's score as an RW.ADD of context 0 under entry 255, with a threshold record where it
reaches TH from below. -/
def Suspected (s t : State) (u : UnitKind) (n : Nat) (inc : Lane) : Prop :=
  let x := s.scoreOf u n
  let r := ringAccess (.add (inc.setWidth 64)) x s.scoreLaw (s.scoreClock x)
  t.scoreOf u n = r.word
  ∧ ((exact32 r.a).cmp (exact32 s.scoreLaw.th) = .lt → (exact32 r.word.a).cmp (exact32 s.scoreLaw.th) ≠ .lt →
    (u, n) ∈ t.thresholds ∧ ∃ x ∈ t.mgmt, x.kind = 3 ∧ x.sev = 0 ∧ x.unit = unitCode u ∧ x.num = n)

/-! ### The machine's own steps: the fabric, boot and attestation -/

/-- R405, R416, R417, R425, R426: ports, routes and time. A flit that fails its CRC is replayed, counted and adds 4 to the port's score, a good one ends
the row; after 16 in a row the port carries nothing until it retrains, and the third failed retrain takes it down, with a
record and new routes, or ERROR FABRIC for remote copies where no port is left; firmware writes route entries; a message
not acknowledged for 10 ms goes back as a NACK, or ends its copy, and a write that was not delivered was not performed; a request
for an element of a copy is acknowledged by its answer; the time base slews by at most 100 ppm and an offset
of more than 1,000 ticks is recorded. The slew as it follows from the lead is the model's choice (log entry 76), and so are the
KIND and UNIT of the two records (log entry 66), and port 0 for a package without a route and the lowest port that is up as the
new one (log entry 78). -/
def FabricStepsHold : Prop :=
  ∀ (port pkg num i k q : Nat) (ok : Bool) (routes : List (Nat × Nat)) (lead : Int) (s : State),
    let p := s.portOf port
    (port < 16 → p.carries = true →
      (Leads (.flitReplay ⟨port, false⟩) s fun t => t.portOf port = { p with replays := p.replays + 1 }
        ∧ Suspected s t .port port incFour)
      ∧ Leads (.flitReplay ⟨port, true⟩) s fun t => t.portOf port = { p with replays := 0 } ∧ t.scores = s.scores)
    ∧ ((16 ≤ port ∨ p.carries = false) → exec (.flitReplay ⟨port, ok⟩) s = .next s)
    ∧ (port < 16 → p.down = false → 16 ≤ p.replays → Leads (.portRetrain port ⟨ok, routes⟩) s fun t =>
        (ok = true → t.portOf port = {} ∧ t.mgmt = s.mgmt)
        ∧ (ok = false → p.fails + 1 < 3 → t.portOf port = { p with fails := p.fails + 1 } ∧ t.mgmt = s.mgmt)
        ∧ (ok = false → 3 ≤ p.fails + 1 → (t.portOf port).down = true ∧ (∃ x ∈ t.mgmt, x.kind = 2 ∧ x.unit = 8 ∧ x.num = port)
          ∧ (q < 16 → q ≠ port → (s.portOf q).down = false → routes = [] → k < 64 → s.portTo k = port →
            (t.portOf (t.portTo k)).down = false)
          ∧ ((∀ n, n < 16 → n ≠ port → (s.portOf n).down = true) → ∀ j ∈ s.jobs, j.running = true → j.remote = true → j.err = 0 →
            { j with err := 9 } ∈ t.jobs)))
    ∧ (p.replays < 16 → exec (.portRetrain port ⟨ok, []⟩) s = .next s
        ∧ (k < 64 → q < 16 → Leads (.portRetrain port ⟨ok, [(k, q)]⟩) s fun t => t.portTo k = q
          ∧ (∀ k', k' ≠ k → t.portTo k' = s.portTo k') ∧ t = { s with routes := t.routes }))
    ∧ (∀ x, s.fabOut[i]? = some x → (s.ticks < x.sentAt + 10000000 → exec (.fabricMessageTimeout i) s = .next s)
        ∧ (x.sentAt + 10000000 ≤ s.ticks → x.msg.kind = .send → x.msg.host = false → x.msg.spkg = Config.ownPackage.val →
          (s.ctxOf x.msg.ctx).trapNamesNone = false → Leads (.fabricMessageTimeout i) s fun t =>
          t.fabOut = dropAt s.fabOut i ∧ ∃ r, t.net = s.net ++ [r] ∧ nackOf x.msg 5 r)
        ∧ (∀ uid o a b j, x.sentAt + 10000000 ≤ s.ticks → x.msg.kind = .farWrite uid o a b → s.jobOf uid = some j →
          j.running = true → j.err = 0 → Leads (.fabricMessageTimeout i) s fun t =>
          t.fabOut = dropAt s.fabOut i ∧ ∃ j', t.jobOf uid = some j' ∧ j'.err = 9
            ∧ ∀ e, e ∈ j'.done ↔ e ∈ j.done ∧ j.farElem e ≠ (a, b))
        ∧ (∀ uid e j, x.sentAt + 10000000 ≤ s.ticks → x.msg.kind = .farRead uid e → s.jobOf uid = some j →
          j.running = true → j.err = 0 → Leads (.fabricMessageTimeout i) s fun t =>
          t.fabOut = dropAt s.fabOut i ∧ t.jobOf uid = some { j with err := 9 }))
    ∧ ((s.portOf (s.portTo pkg)).carries = true → exec (.fabricAck pkg num none) s
        = .next { s with fabOut := s.fabOut.filter fun x => !(decide (x.pkg = pkg) && decide (x.num = num) && !x.msg.asks) })
    ∧ ((s.portOf (s.portTo pkg)).carries = false → exec (.fabricAck pkg num none) s = .next s)
    ∧ (s.syncAt + 1000000 ≤ s.ticks → Leads (.timeBaseSync lead) s fun t => t.syncAt = s.ticks ∧ t.ticks = s.ticks
        ∧ -100 ≤ t.slew ∧ t.slew ≤ 100 ∧ (-100 ≤ lead → lead ≤ 100 → t.slew = lead)
        ∧ (lead.natAbs ≤ 1000 → t.mgmt = s.mgmt) ∧ (1000 < lead.natAbs → ∃ x ∈ t.mgmt, x.kind = 1 ∧ x.unit = 8))
    ∧ (s.ticks < s.syncAt + 1000000 → exec (.timeBaseSync lead) s = .next s)

/-- R186, R310, R350, R417 to R419, R421, R422: what arrives from another package. A numbered message is accepted once and in
its turn: a send to a context that is resident here joins the released messages under its sender's package, untimestamped, with
its payload as it was sent; an arrival on a barrier held here counts, and the last one flips it for every package, which learns
the state word; a configuration and a state are taken; the sum of a round under another configuration is counted in DISC and
recorded; and a copy's write, to the object as its take found it, is performed, its bytes pending until they are applied. That
arrivals are taken in number order, and what they carry, is the model's choice (log entry 13), and that a HALTED context is resident
(log entry 106). -/
def FabricArrivalsHold : Prop :=
  ∀ (pkg num : Nat) (o : OutsideMsg) (s : State),
    let c := s.ctxOf o.ctx
    let accepts := pkg ≠ Config.ownPackage.val ∧ num = lookupD s.fabSeen pkg 0 ∧ s.linksDown = false
    (¬ accepts → exec (.fabricAck pkg num (some o)) s = .next s)
    ∧ (accepts → o.what = .message → s.resident o.ctx = true → c.defines (o.dst % 4096) = true → Leads (.fabricAck pkg num (some o)) s fun t =>
        lookupD t.fabSeen pkg 0 = num + 1 ∧ ∃ m, t.net = s.net ++ [m] ∧ m.ctx = o.ctx ∧ m.dst = o.dst % 4096 ∧ m.ch = o.ch % 64
          ∧ m.spkg = pkg ∧ m.src = o.src % 4096 ∧ m.ord = false ∧ m.ts = 0 ∧ m.wfmt = o.wfmt ∧ m.payload = o.payload.take 64)
    ∧ (accepts → o.what = .message → s.resident o.ctx = false → Leads (.fabricAck pkg num (some o)) s fun t =>
        t = { s with fabSeen := t.fabSeen } ∧ lookupD t.fabSeen pkg 0 = num + 1)
    ∧ (∀ id k req, accepts → o.what = .arrive id k req → s.hasCtx o.ctx = true → 64 ≤ id → id < 72 → c.farBarrier id = false →
        (c.barOf 0 id).part ≠ 0 → Leads (.fabricAck pkg num (some o)) s fun t =>
        let b := c.barOf 0 id
        let b' := (t.ctxOf o.ctx).barOf 0 id
        lookupD t.fabSeen pkg 0 = num + 1 ∧ b'.part = b.part ∧ lookupD b'.counted pkg 0 = k
        ∧ (b.arr + 1 ≠ b.part → b'.arr = b.arr + 1 ∧ b'.phase = b.phase)
        ∧ (b.arr + 1 = b.part → b'.arr = 0 ∧ b'.phase = !b.phase
          ∧ ∀ p ∈ c.pkgs, ∃ x ∈ t.fabOut, x.pkg = p ∧ x.msg.ctx = o.ctx ∧ x.msg.kind = .farBar id b.part 0 (!b.phase) (lookupD b'.counted p 0)))
    ∧ (∀ id n, accepts → o.what = .barCfg id n → s.hasCtx o.ctx = true → 64 ≤ id → id < 72 → c.farBarrier id = false →
        Leads (.fabricAck pkg num (some o)) s fun t => let b' := (t.ctxOf o.ctx).barOf 0 id
          b'.part = n % 2 ^ 16 ∧ b'.arr = 0 ∧ b'.reqs = [] ∧ b'.phase = (c.barOf 0 id).phase)
    ∧ (∀ id n arr phase mine, accepts → o.what = .barState id n arr phase mine → s.hasCtx o.ctx = true → c.farBarrier id = true → c.lowPkg = pkg →
        Leads (.fabricAck pkg num (some o)) s fun t => let b' := (t.ctxOf o.ctx).barOf 0 id
          b'.part = n ∧ b'.arr = arr ∧ b'.phase = phase)
    ∧ (∀ group round a b, accepts → o.what = .roundSum group round a b → s.hasCtx o.ctx = true →
        Leads (.fabricAck pkg num (some o)) s fun t =>
          let g := c.redOf (group % 64)
          let g' := (t.ctxOf o.ctx).redOf (group % 64)
          (g.on = true → g.spans = true → g.cfgA = a → bitsOf g.cfgB 44 32 = bitsOf b 44 32 →
            g'.sums = g.sums ++ [(round, pkg, o.payload)] ∧ g'.disc = g.disc ∧ t.mgmt = s.mgmt)
          ∧ (g.cfgA ≠ a ∨ bitsOf g.cfgB 44 32 ≠ bitsOf b 44 32 → g'.sums = g.sums ∧ g'.disc = min (g.disc + 1) (2 ^ 16 - 1)
            ∧ ∃ x ∈ t.mgmt, x.kind = 2 ∧ x.ctx = o.ctx))
    ∧ (∀ copy i0 i1 va hi F ks at', accepts → o.what = .write copy i0 i1 → s.farPlace o.ctx o.src pkg copy i0 i1 = some (.va va hi, F) →
        s.farKeys o.ctx va (codeBytes F.width) = some (ks, at') → s.exclBlocks none ks = false → F.width ≠ 4 →
        Leads (.fabricAck pkg num (some o)) s fun t => t.mem = s.mem ∧ lookupD t.fabSeen pkg 0 = num + 1
          ∧ t.pend.length = s.pend.length + min ks.length o.payload.length
          ∧ ∀ (j k : Nat) (b : Byte), ks[j]? = some k → o.payload[j]? = some b → ∃ x ∈ t.pend, x.key = k ∧ x.val = b ∧ x.attr = at')

/-- R413: a request of a connection: nothing before boot; ERROR 4 out of its turn and ERROR 1 where it is not
valid; else its answer, the session, and the free values that its nonce draws. -/
def Exchanges (i : Instr) (stage : Nat) (valid : Bool) (answer : List Byte) (q : Session) (drawn : Nat) (s : State) : Prop :=
  let error := fun (n : Nat) => exec i s = .next { s with answers := s.answers ++ [[0x12#8, 0x7F#8, BitVec.ofNat 8 n, 0x00#8]] }
  (s.boot ≠ 1 → exec i s = .next s)
  ∧ (s.boot = 1 → s.session.stage ≠ stage → error 4)
  ∧ (s.boot = 1 → s.session.stage = stage → valid = false → error 1)
  ∧ (s.boot = 1 → s.session.stage = stage → valid = true →
    exec i s = .next { s with answers := s.answers ++ [answer], session := q, fresh := s.fresh + drawn })

/-- R412, R413: boot and attestation. Boot runs once, measures every image, and halts at the first that fails its check; GET_VERSION begins a
connection, capabilities and algorithms follow in this order; then digests, certificates, a challenge and measurements are
answered, signed over the messages that SPDM 1.2 names; the body of a request arrives in a turn of its own (the layouts are PRESUMED, log entries 17 and 100). -/
def BootAndAttestationHold : Prop :=
  ∀ (off len index kind : Nat) (signed : Bool) (images : List BootImage) (nonce : BitVec 256) (body : List Byte) (rest : List Turn) (s : State),
    let req := s.asked
    let image := fun (x : BootImage) => Config.signatureValid x.data x.signature
    let q := s.session
    let digest := leBytes 32 (Config.hash256 Config.certChain).toNat
    let part := (Config.certChain.drop off).take len
    let block := fun (i : Nat) => leBytes 1 i ++ [0x01#8] ++ leBytes 2 35 ++ leBytes 1 (if i = 1 then 0 else if i < 6 then 1 else 3)
      ++ leBytes 2 32 ++ leBytes 32 (s.measurement i).toNat
    let version := [0x10#8, 0x04#8, 0x00#8, 0x00#8, 0x00#8, 0x01#8, 0x00#8, 0x12#8]
    let capabilities := [0x12#8, 0x61#8, 0x00#8, 0x00#8] ++ ([0x00#8, Config.spdmExponent, 0x00#8, 0x00#8] ++ leBytes 4 0x16
      ++ leBytes 4 Config.spdmTransfer.toNat ++ leBytes 4 Config.spdmMessage.toNat)
    let dmtf := (leNat ((req.drop 2).take 1)) % 2
    let algorithms := [0x12#8, 0x63#8, 0x00#8, 0x00#8] ++ (leBytes 2 36 ++ leBytes 1 dmtf ++ [0x00#8] ++ leBytes 4 (2 * dmtf)
      ++ leBytes 4 (leNat ((req.drop 4).take 4) / 16 % 2 * 16) ++ leBytes 4 (leNat ((req.drop 8).take 4) % 2) ++ List.replicate 16 0)
    let digests := [0x12#8, 0x01#8, 0x00#8, 0x01#8] ++ digest
    let certificate := [0x12#8, 0x02#8, 0x00#8, 0x00#8] ++ (leBytes 2 part.length
      ++ leBytes 2 (Config.certChain.length - off - part.length) ++ part)
    let summary := if kind = 0 then [] else leBytes 32 (Config.hash256
      (([1, 2, 3, 4, 5, 6, 7].filter fun i => decide (kind = 255) || decide (i < 6)).map block).flatten).toNat
    let challenge := [0x12#8, 0x83#8, 0x00#8, BitVec.ofNat 8 kind] ++ leBytes 32 nonce.toNat
    let auth := [0x12#8, 0x03#8, 0x00#8, 0x01#8] ++ (digest ++ s.nonce ++ summary ++ leBytes 2 0)
    let named := [1, 2, 3, 4, 5, 6, 7].filter fun i => decide (index = 255) || decide (i = index)
    let blocks := (named.map block).flatten
    let ask := [0x12#8, 0xE0#8, BitVec.ofNat 8 (if signed then 1 else 0), BitVec.ofNat 8 index]
      ++ (if signed then leBytes 32 nonce.toNat ++ [0x00#8] else [])
    let measurements := [0x12#8, 0x60#8, BitVec.ofNat 8 (if index = 0 then 7 else 0), 0x00#8]
      ++ (leBytes 1 named.length ++ leBytes 3 blocks.length ++ blocks ++ s.nonce ++ leBytes 2 0)
    let run := q.meas ++ ask ++ measurements
    (s.boot = 0 → Leads (.boot images) s fun t => t.mem = s.mem
        ∧ ((∀ x ∈ images, image x = true) → t.boot = 1 ∧ t.mgmt = s.mgmt)
        ∧ ((∃ x ∈ images, image x = false) → t.boot = 2 ∧ ∃ r ∈ t.mgmt, r.kind = 8 ∧ r.sev = 3)
        ∧ lookupD t.measures 1 0 = extendBy 0 Config.bootCode
        ∧ (∀ x, images = [x] → lookupD t.measures 2 0 = extendBy (lookupD s.measures 2 0) x.data))
    ∧ (s.boot ≠ 0 → exec (.boot images) s = .next s)
    ∧ (s.boot ≠ 1 → exec .getVersion s = .next s)
    ∧ (s.boot = 1 → exec .getVersion s = .next { s with
        answers := s.answers ++ [version], session := { stage := 1, vca := [0x10#8, 0x84#8, 0x00#8, 0x00#8] ++ version } })
    ∧ Exchanges .getCapabilities 1 (decide (req.length = 16)) capabilities
        { q with stage := 2, vca := q.vca ++ ([0x12#8, 0xE1#8, 0x00#8, 0x00#8] ++ req) ++ capabilities } 0 s
    ∧ Exchanges .negotiateAlgorithms 2 (decide (28 ≤ req.length)) algorithms
        { q with stage := 3, vca := q.vca ++ ([0x12#8, 0xE3#8, 0x00#8, 0x00#8] ++ req) ++ algorithms } 0 s
    ∧ Exchanges .getDigests 3 true digests
        { q with certs := q.certs ++ [0x12#8, 0x81#8, 0x00#8, 0x00#8] ++ digests, meas := [] } 0 s
    ∧ Exchanges (.getCertificate off len) 3 (decide (off < Config.certChain.length)) certificate
        { q with certs := q.certs ++ ([0x12#8, 0x82#8, 0x00#8, 0x00#8] ++ (leBytes 2 off ++ leBytes 2 len)) ++ certificate, meas := [] } 0 s
    ∧ Exchanges (.challenge ⟨kind, nonce⟩) 3 (decide (kind = 0) || decide (kind = 1) || decide (kind = 255))
        (auth ++ spdmSigned "responder-challenge_auth signing" (q.vca ++ q.certs ++ challenge ++ auth))
        { q with certs := [], meas := [] } 4 s
    ∧ Exchanges (.getMeasurements ⟨index, signed, nonce⟩) 3 (decide (index ≤ 7) || decide (index = 255))
        (if signed then measurements ++ spdmSigned "responder-measurements signing" (q.vca ++ run) else measurements)
        { q with meas := if signed then [] else run } 4 s
    ∧ (s.boot ≠ 2 → s.agenda = .request body :: rest → ∃ t, step s = .next t ∧ t.asked = body ∧ t.agenda = rest ∧ t.session = q)

end Sys2Proof.Machine

open Sys2Proof Sys2Proof.Machine

/-! ### The scalar instructions (R107 to R117) -/

/-- R109, R110: the OPR instructions at full width, in integer arithmetic, for every operand, g0 as a source or a destination
included: each writes g[d], at once, and nothing else; the fields of EXT and INS lie at pos = BITS(g[b], 5, 0) with
len = BITS(g[b], 13, 8) + 1, cut at bit 63. -/
def Obligations.ScalarRegisterResults : Prop :=
  ∀ (k : Bool) (d a b : BitVec 5) (s : State),
    let x := s.focus.gr a
    let y := s.focus.gr b
    let n := y.toNat % 64
    let pos := y.toNat % 64
    let len := y.toNat / 256 % 64 + 1
    GivesG (.add k d a b) k d s (BitVec.ofNat 64 (x.toNat + y.toNat))
    ∧ GivesG (.sub k d a b) k d s (BitVec.ofInt 64 ((x.toNat : Int) - y.toNat))
    ∧ GivesG (.and k d a b) k d s (BitVec.ofNat 64 (x.toNat &&& y.toNat))
    ∧ GivesG (.or k d a b) k d s (BitVec.ofNat 64 (x.toNat ||| y.toNat))
    ∧ GivesG (.xor k d a b) k d s (BitVec.ofNat 64 (x.toNat ^^^ y.toNat))
    ∧ GivesG (.andn k d a b) k d s (BitVec.ofNat 64 (x.toNat &&& (2 ^ 64 - 1 - y.toNat)))
    ∧ GivesG (.sll k d a b) k d s (BitVec.ofNat 64 (x.toNat * 2 ^ n))
    ∧ GivesG (.srl k d a b) k d s (BitVec.ofNat 64 (x.toNat / 2 ^ n))
    ∧ GivesG (.sra k d a b) k d s (BitVec.ofInt 64 (x.toInt / 2 ^ n))
    ∧ GivesG (.slt k d a b) k d s (if x.toInt < y.toInt then 1 else 0)
    ∧ GivesG (.sltu k d a b) k d s (if x.toNat < y.toNat then 1 else 0)
    ∧ GivesG (.min k d a b) k d s (BitVec.ofInt 64 (min x.toInt y.toInt))
    ∧ GivesG (.max k d a b) k d s (BitVec.ofInt 64 (max x.toInt y.toInt))
    ∧ GivesG (.minu k d a b) k d s (BitVec.ofNat 64 (min x.toNat y.toNat))
    ∧ GivesG (.maxu k d a b) k d s (BitVec.ofNat 64 (max x.toNat y.toNat))
    ∧ GivesG (.cmovz k d a b) k d s (if y = 0 then x else s.focus.gr d)
    ∧ GivesG (.cmovn k d a b) k d s (if y = 0 then s.focus.gr d else x)
    ∧ (∃ n ≤ 64, GivesG (.clz k d a) k d s (BitVec.ofNat 64 n) ∧ (∀ i < n, x.getLsbD (63 - i) = false)
      ∧ (n < 64 → x.getLsbD (63 - n) = true))
    ∧ (∃ n ≤ 64, GivesG (.ctz k d a) k d s (BitVec.ofNat 64 n) ∧ (∀ i < n, x.getLsbD i = false)
      ∧ (n < 64 → x.getLsbD n = true))
    ∧ GivesG (.popc k d a) k d s (BitVec.ofNat 64 ((Finset.range 64).filter fun i => x.getLsbD i).card)
    ∧ (∃ v : Word, GivesG (.brev k d a) k d s v ∧ ∀ i < 64, v.getLsbD i = x.getLsbD (63 - i))
    ∧ (∃ v : Word, GivesG (.bswap k d a) k d s v ∧ ∀ i < 64, v.getLsbD i = x.getLsbD (8 * (7 - i / 8) + i % 8))
    ∧ GivesG (.ext k d a b) k d s (BitVec.ofNat 64 (x.toNat / 2 ^ pos % 2 ^ len))
    ∧ (∃ v : Word, GivesG (.ins k d a b) k d s v ∧ ∀ i < 64, v.getLsbD i =
        if pos ≤ i ∧ i < pos + len then x.getLsbD (i - pos) else (s.focus.gr d).getLsbD i)

/-- R111 to R114: the W forms act on bits [31:0] and sign-extend the 32-bit result; the immediate forms, the immediate as
a signed number, and the shifts by an immediate count. -/
def Obligations.WordAndImmediateResults : Prop :=
  ∀ (k : Bool) (d a b : BitVec 5) (i : BitVec 15) (u : BitVec 20) (h : BitVec 6) (w : BitVec 5) (s : State),
    let x := s.focus.gr a
    let y := s.focus.gr b
    let n := y.toNat % 32
    GivesG (.addw k d a b) k d s (wordOf32 (x.toNat + y.toNat))
    ∧ GivesG (.subw k d a b) k d s (wordOf32 ((x.toNat : Int) - y.toNat))
    ∧ GivesG (.sllw k d a b) k d s (wordOf32 (nat32Of x * 2 ^ n))
    ∧ GivesG (.srlw k d a b) k d s (wordOf32 (nat32Of x / 2 ^ n : Nat))
    ∧ GivesG (.sraw k d a b) k d s (wordOf32 (int32Of x / 2 ^ n))
    ∧ GivesG (.addi k d a i) k d s (BitVec.ofInt 64 (x.toInt + i.toInt))
    ∧ GivesG (.andi k d a i) k d s (x &&& BitVec.ofInt 64 i.toInt)
    ∧ GivesG (.ori k d a i) k d s (x ||| BitVec.ofInt 64 i.toInt)
    ∧ GivesG (.xori k d a i) k d s (x ^^^ BitVec.ofInt 64 i.toInt)
    ∧ GivesG (.slti k d a i) k d s (if x.toInt < i.toInt then 1 else 0)
    ∧ GivesG (.sltiu k d a i) k d s (if (x.toNat : Int) < i.toInt % 2 ^ 64 then 1 else 0)
    ∧ GivesG (.slli k d a h) k d s (BitVec.ofNat 64 (x.toNat * 2 ^ h.toNat))
    ∧ GivesG (.srli k d a h) k d s (BitVec.ofNat 64 (x.toNat / 2 ^ h.toNat))
    ∧ GivesG (.srai k d a h) k d s (BitVec.ofInt 64 (x.toInt / 2 ^ h.toNat))
    ∧ GivesG (.slliw k d a w) k d s (wordOf32 (nat32Of x * 2 ^ w.toNat))
    ∧ GivesG (.srliw k d a w) k d s (wordOf32 (nat32Of x / 2 ^ w.toNat : Nat))
    ∧ GivesG (.sraiw k d a w) k d s (wordOf32 (int32Of x / 2 ^ w.toNat))
    ∧ GivesG (.lui k d u) k d s (BitVec.ofInt 64 (u.toInt * 2 ^ 12))
    ∧ GivesG (.addpc k d u) k d s (BitVec.ofInt 64 (s.focus.reg.pc.toInt + u.toInt * 2 ^ 12))

/-- R107, R115: products and quotients in integer arithmetic; Int.tdiv and Int.tmod truncate towards zero. A zero divisor
gives all ones as the quotient and the dividend as the remainder, and raises DZ. -/
def Obligations.MultiplyDivideResults : Prop :=
  ∀ (k : Bool) (d a b : BitVec 5) (s : State),
    let x := s.focus.gr a
    let y := s.focus.gr b
    let z := nat32Of y = 0
    GivesG (.mul k d a b) k d s (BitVec.ofNat 64 (x.toNat * y.toNat))
    ∧ GivesG (.mulh k d a b) k d s (BitVec.ofInt 64 (x.toInt * y.toInt / 2 ^ 64))
    ∧ GivesG (.mulhu k d a b) k d s (BitVec.ofNat 64 (x.toNat * y.toNat / 2 ^ 64))
    ∧ GivesQuotient (.div k d a b) k d s (y = 0) (BitVec.ofInt 64 (if y = 0 then -1 else x.toInt.tdiv y.toInt))
    ∧ GivesQuotient (.divu k d a b) k d s (y = 0) (BitVec.ofInt 64 (if y = 0 then -1 else (x.toNat / y.toNat : Nat)))
    ∧ GivesQuotient (.rem k d a b) k d s (y = 0) (BitVec.ofInt 64 (if y = 0 then x.toInt else x.toInt.tmod y.toInt))
    ∧ GivesQuotient (.remu k d a b) k d s (y = 0) (BitVec.ofNat 64 (if y = 0 then x.toNat else x.toNat % y.toNat))
    ∧ GivesG (.mulw k d a b) k d s (wordOf32 (int32Of x * int32Of y))
    ∧ GivesQuotient (.divw k d a b) k d s z (wordOf32 (if z then -1 else (int32Of x).tdiv (int32Of y)))
    ∧ GivesQuotient (.divuw k d a b) k d s z (wordOf32 (if z then -1 else (nat32Of x / nat32Of y : Nat)))
    ∧ GivesQuotient (.remw k d a b) k d s z (wordOf32 (if z then int32Of x else (int32Of x).tmod (int32Of y)))
    ∧ GivesQuotient (.remuw k d a b) k d s z (wordOf32 (if z then nat32Of x else (nat32Of x % nat32Of y : Nat)))

/-- R116, R117: the branches; JAL and J; JALR with an aligned target, whose g[d] is written after g[a] is read; and JALR
with a misaligned target, which takes MISALIGN with the target as INFO0 and writes no register. -/
def Obligations.BranchesAndJumps : Prop :=
  ∀ (k : Bool) (d a b : BitVec 5) (i : BitVec 15) (j : BitVec 25) (s : State),
    let x := s.focus.gr a
    let y := s.focus.gr b
    let t := BitVec.ofInt 64 (x.toInt + i.toInt)
    Branches (.beq k a b i) k s (x = y) i
    ∧ Branches (.bne k a b i) k s (x ≠ y) i
    ∧ Branches (.blt k a b i) k s (x.toInt < y.toInt) i
    ∧ Branches (.bge k a b i) k s (y.toInt ≤ x.toInt) i
    ∧ Branches (.bltu k a b i) k s (x.toNat < y.toNat) i
    ∧ Branches (.bgeu k a b i) k s (y.toNat ≤ x.toNat) i
    ∧ Does (.jal k j) s ((s.focus.writeG 31 (s.focus.reg.pc + 4)).advanceTo k (targetOf s.focus.reg.pc j))
    ∧ Does (.j k j) s (s.focus.advanceTo k (targetOf s.focus.reg.pc j))
    ∧ (t.toNat % 4 = 0 → Does (.jalr k d a i) s ((s.focus.writeG d (s.focus.reg.pc + 4)).advanceTo k t))
    ∧ (t.toNat % 4 ≠ 0 → exec (.jalr k d a i) s = .next (s.takeException .misalign s.focus.reg.pc t 0 0))

/-! ### Registers, groups and frames (R44, R62 to R71) -/

/-- R66, R68, R69: the end of an instruction. The pc is where control goes. Where the instruction is unmarked and not the
64th of its group, every register reads as before and nothing lands. Where it is marked or the 64th, the group ends:
every register takes the group's last write of it, the flags of the group's long-class results are added, and the next
group starts empty. -/
def Obligations.GroupLanding : Prop :=
  ∀ (f : Slot) (mark : Bool) (pc : Word),
    let t := f.advanceTo mark pc
    t.reg.pc = pc
    ∧ (mark = false ∧ f.glen + 1 < 64 → t.glen = f.glen + 1 ∧ t.land = f.land ∧ t.reg.g = f.reg.g ∧ t.reg.v = f.reg.v
      ∧ t.reg.m = f.reg.m ∧ t.reg.flags = f.reg.flags)
    ∧ (mark = true ∨ 64 ≤ f.glen + 1 → t.glen = 0 ∧ t.reg.g = f.land.g ∧ t.reg.v = f.land.v ∧ t.reg.m = f.land.m
      ∧ t.reg.flags = f.reg.flags ||| f.land.flags ∧ t.land.flags = 0)
    ∧ t.chunk.wbuf = f.chunk.wbuf ∧ t.chunk.held = f.chunk.held ∧ t.chunk.rset = f.chunk.rset ∧ t.firing = f.firing
    ∧ t.reg.frm = f.reg.frm ∧ t.reg.srcnt = f.reg.srcnt ∧ t.reg.ctxsel = f.reg.ctxsel ∧ t.ckpt = f.ckpt

/-- R44, R67, R68: what a short-class write of a g, v or m register leaves: the register reads the value at once, every
other register reads as before, and a write of g0 or m0 is discarded; a long-class result is not seen within its group,
and at the group's end, by its mark or its 64th instruction, the last write of each register stays, whichever class made
it and the write before it. -/
def Obligations.RegisterWrites : Prop :=
  (∀ (f : Slot) (d r : BitVec 5) (e q : BitVec 3) (x : Word) (v : VReg) (y : Lane),
      (f.writeG d x).gr r = (if r = 0 then 0 else if r = d then x else f.gr r)
      ∧ (f.writeV d v).vr r = (if r = d then v else f.vr r)
      ∧ (f.writeM e y).mr q = (if q = 0 then BitVec.allOnes 32 else if q = e then y else f.mr q)
      ∧ f.writeG 0 x = f ∧ f.landG 0 x = f ∧ f.writeM 0 y = f ∧ f.landM 0 y = f
      ∧ (f.landG d x).gr r = f.gr r ∧ (f.landV d v).vr r = f.vr r ∧ (f.landM e y).mr q = f.mr q)
  ∧ (∀ (f : Slot) (d : BitVec 5) (e : BitVec 3) (x x' : Word) (v v' : VReg) (y y' : Lane) (mark : Bool) (pc : Word),
      mark = true ∨ 64 ≤ f.glen + 1 →
      let r := fun (t : Slot) => (t.advanceTo mark pc).gr d
      let u := fun (t : Slot) => (t.advanceTo mark pc).vr d
      let z := fun (t : Slot) => (t.advanceTo mark pc).mr e
      (d ≠ 0 → r ((f.landG d x).writeG d x') = x' ∧ r ((f.writeG d x).landG d x') = x' ∧ r ((f.landG d x).landG d x') = x'
        ∧ r ((f.writeG d x).writeG d x') = x' ∧ ((f.writeG d x).landG d x').gr d = x)
      ∧ (d = 0 → r ((f.landG d x).writeG d x') = 0 ∧ r ((f.writeG d x).landG d x') = 0)
      ∧ u ((f.landV d v).writeV d v') = v' ∧ u ((f.writeV d v).landV d v') = v' ∧ u ((f.landV d v).landV d v') = v'
      ∧ u ((f.writeV d v).writeV d v') = v' ∧ ((f.writeV d v).landV d v').vr d = v
      ∧ (e ≠ 0 → z ((f.landM e y).writeM e y') = y' ∧ z ((f.writeM e y).landM e y') = y' ∧ z ((f.landM e y).landM e y') = y'
        ∧ z ((f.writeM e y).writeM e y') = y' ∧ ((f.writeM e y).landM e y').mr e = y)
      ∧ (e = 0 → z ((f.landM e y).writeM e y') = BitVec.allOnes 32 ∧ z ((f.writeM e y).landM e y') = BitVec.allOnes 32))

/-- Frame of the scalar instructions (R109 to R117, R121, R128, R153, R238, FRD): a next state differs in the slot alone,
so every byte of M and of host memory, every table, CSR and other slot is as before; in the slot, at most the g register
written (g31 for JAL), the pc and the group differ, and of the flags DZ alone, in a division. Where the group ends, the
other registers take what the group's earlier instructions left to land. -/
def Obligations.ScalarFrame : Prop :=
  ∀ (i : Instr) (d : BitVec 5) (s t : State), scalarDest i = some d → exec i s = .next t →
    t = s.withFocus t.focus ∧ s.focus.SameBut t.focus d (if raisesDz i then flagDz else 0)

/-! ### Masks (R153) -/

/-- R153: the mask instructions, bit by bit. -/
def Obligations.MaskResults : Prop :=
  ∀ (k : Bool) (d a b : BitVec 3) (g h : BitVec 5) (s : State),
    let x := s.focus.mr a
    let y := s.focus.mr b
    GivesM (.mand k d a b) k d s (BitVec.ofNat 32 (x.toNat &&& y.toNat))
    ∧ GivesM (.mor k d a b) k d s (BitVec.ofNat 32 (x.toNat ||| y.toNat))
    ∧ GivesM (.mxor k d a b) k d s (BitVec.ofNat 32 (x.toNat ^^^ y.toNat))
    ∧ GivesM (.mnot k d a) k d s (BitVec.ofNat 32 (2 ^ 32 - 1 - x.toNat))
    ∧ GivesG (.mpop k g a) k g s (BitVec.ofNat 64 ((Finset.range 32).filter fun i => x.getLsbD i).card)
    ∧ (∃ n ≤ 32, GivesG (.mfirst k g a) k g s (BitVec.ofNat 64 n) ∧ (∀ i < n, x.getLsbD i = false)
      ∧ (n < 32 → x.getLsbD n = true))
    ∧ GivesM (.mset k d h) k d s (BitVec.ofNat 32 (s.focus.gr h).toNat)
    ∧ GivesG (.mget k g a) k g s (BitVec.ofNat 64 x.toNat)

/-! ### Vector registers (R135 to R158) -/

/-- R84, R93: sums and products of exact values are exact: the value that is rounded is the rational sum or product, and
scaling by 2^k multiplies by 2^k. -/
def Obligations.ExactSumsAndProducts : Prop :=
  ∀ (n1 n2 : Bool) (m1 m2 : Nat) (e1 e2 k : Int),
    let x := XR.fin n1 m1 e1 false
    let y := XR.fin n2 m2 e2 false
    (∃ p q, x.rat = some p ∧ y.rat = some q ∧ (x.add y).rat = some (p + q) ∧ (x.mul y).rat = some (p * q)
      ∧ (x.scale k).rat = some (p * (2 : Rat) ^ k) ∧ x.negate.rat = some (-p))

/-- R84, R93, R141: an FP32 value that is not NaN rounds to itself, with no flag: rounding loses nothing that the format
holds, −0, subnormals and infinities included. -/
def Obligations.RoundingKeepsCodes : Prop :=
  ∀ x : Lane, (exact32 x).isNan = false → rne32 (exact32 x) = ⟨x, 0, 0⟩

/-- R141 to R143: the VARF group; VMAX.F and VMIN.F give the larger and the smaller operand, −0
below +0, and the canonical NaN where either is NaN; and VCLASS sets exactly the bit of the class of the value: NaN, an
infinity, or by the exponent and mantissa fields a normal, subnormal or zero, with its sign. -/
def Obligations.VectorFloatResults : Prop :=
  (∀ (k : Bool) (d a b : BitVec 5) (e q : BitVec 3) (s : State),
      let A := fun l => s.lane a l
      let B := fun l => s.lane b l
      let D := fun l => s.lane d l
      LandsLanes (.vaddF k d a b q) k d q s (fun l => fadd (A l) (B l))
      ∧ LandsLanes (.vsubF k d a b q) k d q s (fun l => fsub (A l) (B l))
      ∧ LandsLanes (.vmulF k d a b q) k d q s (fun l => fmul (A l) (B l))
      ∧ LandsLanes (.vdivF k d a b q) k d q s (fun l => fdiv (A l) (B l))
      ∧ LandsLanes (.vsqrtF k d a q) k d q s (fun l => fsqrt (A l))
      ∧ LandsPure (.vmaxF k d a b q) k d q s (fun l => maxF (A l) (B l))
      ∧ LandsPure (.vminF k d a b q) k d q s (fun l => minF (A l) (B l))
      ∧ LandsPure (.vabsF k d a q) k d q s
          (fun l => if (exact32 (A l)).isNan then nan32 else BitVec.ofNat 32 ((A l).toNat % 2 ^ 31))
      ∧ LandsPure (.vnegF k d a q) k d q s
          (fun l => if (exact32 (A l)).isNan then nan32 else BitVec.ofNat 32 ((A l).toNat + 2 ^ 31))
      ∧ LandsLanes (.vfma k d a b q) k d q s (fun l => fmaX (exact32 (A l)) (exact32 (B l)) (exact32 (D l)))
      ∧ LandsLanes (.vfms k d a b q) k d q s (fun l => fmaX (exact32 (A l)) (exact32 (B l)) (exact32 (D l)).negate)
      ∧ LandsLanes (.vfnma k d a b q) k d q s (fun l => fmaX (exact32 (A l)).negate (exact32 (B l)) (exact32 (D l)))
      ∧ LandsMask (.vcmpeqF k e a b q) k e q s (fun l => lanesOrder (A l) (B l) (· = .eq))
      ∧ LandsMask (.vcmpltF k e a b q) k e q s (fun l => lanesOrder (A l) (B l) (· = .lt))
      ∧ LandsMask (.vcmpleF k e a b q) k e q s (fun l => lanesOrder (A l) (B l) (· ≠ .gt))
      ∧ LandsMask (.vcmpunF k e a b q) k e q s
          (fun l => (exact32 (A l)).isNan = true ∨ (exact32 (B l)).isNan = true)
      ∧ LandsPure (.vclass k d a q) k d q s (fun l => classF (A l)))
  ∧ (∀ a b : Lane,
      if 0x7F800000 < a.toNat % 2 ^ 31 ∨ 0x7F800000 < b.toNat % 2 ^ 31 then
        maxF a b = 0x7FC00000#32 ∧ minF a b = 0x7FC00000#32
      else maxF a b = (if laneOrder a < laneOrder b then b else a) ∧ minF a b = if laneOrder a < laneOrder b then a else b)
  ∧ (∀ x : Lane,
      let ex := x.toNat / 2 ^ 23 % 256
      let ma := x.toNat % 2 ^ 23
      let neg := 2 ^ 31 ≤ x.toNat
      classF x = BitVec.ofNat 32 (2 ^ (
        if ex = 255 then (if ma ≠ 0 then 8 else if neg then 0 else 7)
        else if ex ≠ 0 then (if neg then 1 else 6)
        else if ma ≠ 0 then (if neg then 2 else 5)
        else if neg then 3 else 4)))

/-- R144: the VARI group: INT32 lanes, in integer arithmetic. -/
def Obligations.VectorIntegerResults : Prop :=
  ∀ (k : Bool) (d a b : BitVec 5) (e q : BitVec 3) (s : State),
    let A := fun l => s.lane a l
    let B := fun l => s.lane b l
    let n := fun l => (B l).toNat % 32
    LandsPure (.vaddI k d a b q) k d q s (fun l => BitVec.ofNat 32 ((A l).toNat + (B l).toNat))
    ∧ LandsPure (.vsubI k d a b q) k d q s (fun l => BitVec.ofInt 32 ((A l).toNat - (B l).toNat : Int))
    ∧ LandsPure (.vmulI k d a b q) k d q s (fun l => BitVec.ofNat 32 ((A l).toNat * (B l).toNat))
    ∧ LandsPure (.vand k d a b q) k d q s (fun l => BitVec.ofNat 32 ((A l).toNat &&& (B l).toNat))
    ∧ LandsPure (.vor k d a b q) k d q s (fun l => BitVec.ofNat 32 ((A l).toNat ||| (B l).toNat))
    ∧ LandsPure (.vxor k d a b q) k d q s (fun l => BitVec.ofNat 32 ((A l).toNat ^^^ (B l).toNat))
    ∧ LandsPure (.vshl k d a b q) k d q s (fun l => BitVec.ofNat 32 ((A l).toNat * 2 ^ n l))
    ∧ LandsPure (.vshr k d a b q) k d q s (fun l => BitVec.ofNat 32 ((A l).toNat / 2 ^ n l))
    ∧ LandsPure (.vsra k d a b q) k d q s (fun l => BitVec.ofInt 32 ((A l).toInt / 2 ^ n l))
    ∧ LandsPure (.vminI k d a b q) k d q s (fun l => BitVec.ofInt 32 (min (A l).toInt (B l).toInt))
    ∧ LandsPure (.vmaxI k d a b q) k d q s (fun l => BitVec.ofInt 32 (max (A l).toInt (B l).toInt))
    ∧ LandsMask (.vcmpeqI k e a b q) k e q s (fun l => (A l).toNat = (B l).toNat)
    ∧ LandsMask (.vcmpltI k e a b q) k e q s (fun l => (A l).toInt < (B l).toInt)
    ∧ LandsMask (.vcmpltu k e a b q) k e q s (fun l => (A l).toNat < (B l).toNat)
    ∧ LandsWhole (.vsel k d a b q) k d s (fun l => if activeLane s q l then A l else B l)
    ∧ MovesLanes (.vmov k d a q) k d s (fun l => if activeLane s q l then A l else s.lane d l)
    ∧ MovesLanes (.vbcast k d a q) k d s
        (fun l => if activeLane s q l then BitVec.ofNat 32 (s.focus.gr a).toNat else s.lane d l)
    ∧ GivesG (.vext k d a b) k d s (BitVec.ofNat 64 (s.lane a ((s.focus.gr b).toNat % 32)).toNat)
    ∧ MovesLanes (.vins k d a b) k d s
        (fun l => if l = (s.focus.gr b).toNat % 32 then BitVec.ofNat 32 (s.focus.gr a).toNat else s.lane d l)
    ∧ LandsPure (.viota k d q) k d q s (fun l => BitVec.ofNat 32 ((Finset.range l).filter fun j => activeLane s q j).card)

/-- R145: the VPRM group. For VCOMP, the lane of va that fills lane j is the active lane with exactly j active lanes
below it; lanes from the number of active lanes on are +0. -/
def Obligations.VectorPermutations : Prop :=
  ∀ (k : Bool) (d a b : BitVec 5) (q : BitVec 3) (s : State),
    let A := fun l => s.lane a l
    let B := fun l => s.lane b l
    let rank := fun l => ((Finset.range l).filter fun j => activeLane s q j).card
    LandsPure (.vperm k d a b q) k d q s (fun l => A ((B l).toNat % 32))
    ∧ LandsPure (.vrot k d a b q) k d q s (fun l => A ((l + (B 0).toNat % 32) % 32))
    ∧ LandsPure (.vzip k d a b q) k d q s (fun l => if l % 2 = 0 then A (l / 2) else B (l / 2))
    ∧ LandsPure (.vunzip k d a b q) k d q s (fun l => if l < 16 then A (2 * l) else B (2 * (l - 16)))
    ∧ (∃ v : VReg, Does (.vcomp k d a q) s ((s.focus.landV d v).advance k)
      ∧ (∀ l (h : l < 32), activeLane s q l = true → ∀ (h' : rank l < 32), v[rank l] = A l)
      ∧ (∀ j (h : j < 32), rank 32 ≤ j → v[j] = 0))
    ∧ LandsWhole (.vexpd k d a q) k d s (fun l => if activeLane s q l then A (rank l) else 0)

/-- R146 to R148: the conversions. A form with a rounding mode rounds with it (DYN: FRM's), draws with the firing's FID
and SR count, and advances that count once where the mode is SR; a form that names FMTk has it in the read set. VPACK
writes the codes of its active lanes at their packed places and keeps every other bit. -/
def Obligations.VectorConversions : Prop :=
  ∀ (k : Bool) (d a : BitVec 5) (r c q : BitVec 3) (s : State),
    let f := s.focus
    let A := fun l => s.lane a l
    let F := fmtOfWord (s.fmtSeen f c.toNat).1
    let reads := fun (t : Slot) => t.addRead (.fmt f.firing.ctx f.firing.lc c.toNat)
    let mode := rmodeOf r.toNat f.reg.frm.toNat
    let on := (List.range 32).filter (activeLane s q)
    let rounds := fun (i : Instr) (t : Slot) (G : Fmt) (x : Nat → XR) =>
      let g := fun l => roundTo G mode (srDraw f.firing.fid f.reg.srcnt (BitVec.ofNat 64 l)) (x l)
      ∃ v : VReg, Does i s (((((t.landV d v).raiseLate (on.foldl (fun w l => w ||| (g l).flags) 0)).addHidden
          (on.filter fun l => (g l).sat).length).countSr mode).advance k)
        ∧ ∀ l (h : l < 32), v[l] = if activeLane s q l then BitVec.ofNat 32 (g l).code else (f.vr d)[l]
    let widens := fun (i : Instr) (t : Slot) (G : Fmt) (code : Nat → Nat) =>
      let g := fun l => rne32 (decodeFmt G (code l))
      ∃ v : VReg, Does i s ((((t.landV d v).raiseLate (on.foldl (fun w l => w ||| (g l).flags) 0)).addHidden
          (on.foldl (fun n l => n + (g l).sat) 0)).advance k)
        ∧ ∀ l (h : l < 32), v[l] = if activeLane s q l then (g l).val else (f.vr d)[l]
    rounds (.vcvtFI k d a r q) f fp32 (fun l => .ofInt (A l).toInt 0)
    ∧ rounds (.vcvtIF k d a r q) f int32 (fun l => exact32 (A l))
    ∧ rounds (.vcvtBfF k d a r q) f bf16 (fun l => exact32 (A l))
    ∧ rounds (.vcvtHF k d a r q) f fp16 (fun l => exact32 (A l))
    ∧ rounds (.vnarrow k d a r c q) (reads f) F (fun l => exact32 (A l))
    ∧ widens (.vcvtFBf k d a q) f bf16 (fun l => (A l).toNat % 2 ^ 16)
    ∧ widens (.vcvtFH k d a q) f fp16 (fun l => (A l).toNat % 2 ^ 16)
    ∧ widens (.vwiden k d a c q) (reads f) F (fun l => (A l).toNat % 2 ^ F.width)
    ∧ widens (.vunpack k d a c q) (reads f) F (fun l => vregNat (f.vr a) / 2 ^ (F.width * l) % 2 ^ F.width)
    ∧ (let g := fun l => roundTo F mode (srDraw f.firing.fid f.reg.srcnt (BitVec.ofNat 64 l)) (exact32 (A l))
       ∃ v : VReg, Does (.vpack k d a r c q) s
          (((((reads f).landV d v).raiseLate (on.foldl (fun w l => w ||| (g l).flags) 0)).addHidden
            (on.filter fun l => (g l).sat).length).countSr mode |>.advance k)
         ∧ (∀ l < 32, vregNat v / 2 ^ (F.width * l) % 2 ^ F.width =
            if activeLane s q l then (g l).code % 2 ^ F.width else vregNat (f.vr d) / 2 ^ (F.width * l) % 2 ^ F.width)
         ∧ vregNat v / 2 ^ (32 * F.width) = vregNat (f.vr d) / 2 ^ (32 * F.width))

/-- R98 to R100, R149 to R151: the reductions over the active lanes. VRSUM.F is the pairwise tree over all 32 lanes, VSCAN.F
and VSCAN.I the left fold; VRMAX.F and VRMIN.F give the extreme value, VARGMAX and VARGMIN its lane; VRSUM.I's sum is exact.
VRSUM.X adds the lanes, in units of 2^−149 and modulo 2^320, to the accumulator in the first register of the pair, sets its
flags for NaN and the infinities, writes the pair whole, and leaves the sum, rounded once, in the second register. -/
def Obligations.VectorReductions : Prop :=
  ∀ (k : Bool) (d a : BitVec 5) (p : BitVec 4) (q : BitVec 3) (s : State),
    let A := fun l => s.lane a l
    let on := (Finset.range 32).filter fun l => activeLane s q l
    let X := fun l => if activeLane s q l then some (A l) else none
    let tree := (treeNode X 5 0).getD ⟨0, 0, 0⟩
    let acc := vregNat (s.focus.vr (pairReg p))
    let sum := ((acc % 2 ^ 320 : Nat) + (on.filter fun l => (A l).toNat % 2 ^ 31 < 0x7F800000).sum fun l => codeUnits (A l)) % 2 ^ 320
    let nan := acc.testBit 320 = true ∨ ∃ l ∈ on, nanCode (A l)
    let pinf := acc.testBit 321 = true ∨ ∃ l ∈ on, A l = 0x7F800000#32
    let ninf := acc.testBit 322 = true ∨ ∃ l ∈ on, A l = 0xFF800000#32
    LandsG (.vrsumF k d a q) k d s (BitVec.ofNat 64 tree.val.toNat) tree.flags
    ∧ (∃ x, LandsG (.vrmaxF k d a q) k d s (BitVec.ofNat 64 x.toNat) 0 ∧ IsExtreme s a q 0xFF800000#32 (· ≥ ·) x)
    ∧ (∃ x, LandsG (.vrminF k d a q) k d s (BitVec.ofNat 64 x.toNat) 0 ∧ IsExtreme s a q 0x7F800000#32 (· ≤ ·) x)
    ∧ LandsG (.vrsumI k d a q) k d s (BitVec.ofInt 64 (on.sum fun l => (A l).toInt)) 0
    ∧ (∃ (v w : VReg) (r : Flagged Lane), Does (.vrsumX k p a q) s
          ((((s.focus.landV (pairReg p) v).landV (pairReg p + 1) w).raiseLate r.flags).advance k)
        ∧ vregNat v % 2 ^ 320 = sum.toNat ∧ vregNat v < 2 ^ 323
        ∧ ((vregNat v).testBit 320 = true ↔ nan) ∧ ((vregNat v).testBit 321 = true ↔ pinf)
        ∧ ((vregNat v).testBit 322 = true ↔ ninf)
        ∧ (∀ l (h : l < 32), w[l] = if l = 0 then r.val else 0)
        ∧ (nan → r.val = 0x7FC00000#32 ∧ r.flags = 0)
        ∧ (¬nan → pinf → ninf → r.val = 0x7FC00000#32 ∧ r.flags = flagInv)
        ∧ (¬nan → pinf → ¬ninf → r.val = 0x7F800000#32 ∧ r.flags = 0)
        ∧ (¬nan → ¬pinf → ninf → r.val = 0xFF800000#32 ∧ r.flags = 0)
        ∧ (¬nan → ¬pinf → ¬ninf → r = rne32 (.ofInt (Int.bmod sum (2 ^ 320)) (-149))))
    ∧ LandsLanes (.vscanF k d a q) k d q s (fun l => (foldBelow fadd X (l + 1)).getD ⟨0, 0, 0⟩)
    ∧ LandsPure (.vscanI k d a q) k d q s
        (fun l => BitVec.ofNat 32 (((Finset.range (l + 1)).filter fun j => activeLane s q j).sum fun j => (A j).toNat))
    ∧ (∃ x, LandsG (.vargmax k d a q) k d s x 0 ∧ IsExtremeLane s a q (· ≥ ·) x)
    ∧ (∃ x, LandsG (.vargmin k d a q) k d s x 0 ∧ IsExtremeLane s a q (· ≤ ·) x)

/-- R102 to R106, R152: VFN: exec of each of the thirteen forms answers the next state in which every active lane takes the
function's value of its lane of va in the precision that the form names, with its flags; and those lane values are what R102
and R152 give (FunctionLanes). -/
def Obligations.VectorFunctions : Prop :=
  (∀ (k : Bool) (d a : BitVec 5) (q : BitVec 3) (p : BitVec 2) (s : State),
      let gives := fun (i : Instr) (fn : Fn) => LandsLanes i k d q s (fun l => vfnLane fn p (s.lane a l))
      gives (.vfnExp2 k d a q p) .exp2 ∧ gives (.vfnLog2 k d a q p) .log2 ∧ gives (.vfnExp k d a q p) .exp
      ∧ gives (.vfnLn k d a q p) .ln ∧ gives (.vfnRcp k d a q p) .rcp ∧ gives (.vfnRsqrt k d a q p) .rsqrt
      ∧ gives (.vfnSint k d a q p) .sint ∧ gives (.vfnCost k d a q p) .cost ∧ gives (.vfnTanh k d a q p) .tanh
      ∧ gives (.vfnSigm k d a q p) .sigm ∧ gives (.vfnErf k d a q p) .erf ∧ gives (.vfnGelu k d a q p) .gelu
      ∧ gives (.vfnSilu k d a q p) .silu)
  ∧ FunctionLanes vfnLane

/-- R154, R155, R156, R158: quantisation, dequantisation and sparsity. VTOPK keeps the lanes beaten in magnitude by fewer than
min(BITS(g[b], 5, 0), 32) others, VSP24 those beaten by fewer than two others of their group of four by vb's magnitudes;
a tie goes to the lower lane, and the other active lanes become +0. -/
def Obligations.QuantisationAndSparsity : Prop :=
  ∀ (k : Bool) (d a b : BitVec 5) (q : BitVec 3) (s : State),
    let f := s.focus
    let c := (f.gr b).toNat
    let p := s.fmtSeen f (c % 8)
    let F := fmtOfWord p.1
    let reads := f.addRead (.fmt f.firing.ctx f.firing.lc (c % 8))
    let mode := f.modeOf (if c / 8 % 8 = 7 then fmtRm p.1 else c / 8 % 8)
    let blocks := quantBlocks p.1 ((List.range 32).map fun l =>
      if activeLane s q l then exact32 (s.lane a l) else .zero false)
    let el := spreadBlocks blocks
    let r := (List.range 32).map fun l =>
      (roundTo F mode (f.draw l) ((el.getD l (.zero false, 127, false)).1.scale
        (127 - ((el.getD l (.zero false, 127, false)).2.1 : Int)))).lane
    let beats := fun (v : BitVec 5) (j i : Nat) => magRank (s.lane v i) < magRank (s.lane v j)
      ∨ (magRank (s.lane v i) = magRank (s.lane v j) ∧ j < i)
    (∃ v : VReg, Does (.vquant k d a b q) s
        (((((reads.landV d v).raiseLate (flagsOf r)).addHidden (satOf r)).countSr mode).advance k)
      ∧ leBytes 128 (vregNat v) = quantImage F.width (r.map fun y => y.val.toNat) (el.map fun e => e.2.2)
        (blocks.map fun p => p.2))
    ∧ (∃ v : VReg, Does (.vdq k d a b q) s ((((reads.landV d v).raiseLate
          (((List.range 32).filter (activeLane s q)).foldl
            (fun w l => w ||| (vdqLane F (leBytes 128 (vregNat (f.vr a))) l).flags) 0)).addHidden
          (((List.range 32).filter (activeLane s q)).foldl
            (fun n l => n + (vdqLane F (leBytes 128 (vregNat (f.vr a))) l).sat) 0)).advance k)
      ∧ ∀ l (h : l < 32), v[l] = if activeLane s q l then (vdqLane F (leBytes 128 (vregNat (f.vr a))) l).val
        else (f.vr d)[l])
    ∧ LandsPure (.vtopk k d a b q) k d q s (fun l =>
        if ((Finset.range 32).filter fun j => activeLane s q j = true ∧ beats a j l).card < min (c % 64) 32 then
          s.lane a l else 0)
    ∧ LandsPure (.vsp24 k d a b q) k d q s (fun l =>
        if ((Finset.range 32).filter fun j => activeLane s q j = true ∧ j / 4 = l / 4 ∧ beats b j l).card < 2 then
          s.lane a l else 0)

/-! ### Memory and the check of an access (R163, R180, R182, R203 to R208, R427) -/

/-- R180, R182, R208: in canonical memory a read after a write gives the byte written and every other byte reads as before,
and equal contents are equal lists; a chunk reads its own stores, the later first, and every other byte as before; a law
entry that it has written with LAW.WR reads as the held image (R259). -/
def Obligations.MemoryReadAfterWrite : Prop :=
  (∀ (m m' : List Host.Cell) (k j : Nat) (v : Byte), Memory.wf m = true → Memory.wf m' = true →
      Memory.wf (cellWrite m k v) = true
      ∧ cellRead (cellWrite m k v) j = (if j = k then v else cellRead m j)
      ∧ ((∀ i, cellRead m i = cellRead m' i) → m = m'))
  ∧ (∀ (s : State) (f : Slot) (k j : Nat) (l : List Byte),
      let g : Slot := { f with chunk := { f.chunk with wbuf := bufWriteList f.chunk.wbuf k l } }
      (s.heldLawByte f j = none → s.seenByte g j = if k ≤ j ∧ j < k + l.length then l.getD (j - k) 0 else s.seenByte f j)
      ∧ (∀ b, s.heldLawByte f j = some b → s.seenByte g j = b))

/-- R163, R203, R205, R324, R427: the check of an access that a stage class does not refuse: in no region
RIGHTS, before alignment; then MISALIGN; then by region. Device memory: a translation the core TLB lacks is a miss; a load
needs R, a store or an atomic W without RO, and an address outside the object table and the barrier mirror (their place
after the translation is the model's choice, log entry 96); a load of the mirror finds the live words, any other access the
bytes that the entry maps, under its attributes. The own scratchpad is bounded by L; its windows 1 to 8 need an instruction
that may use one and hold 4L bytes, or 8L under a 4-bit format, and higher ones raise RIGHTS, which comes before BOUNDS (the
model's choice, log entry 23); a remote scratchpad must be one that the context defines. Host memory takes no atomic, and a
load waits until the host has answered for its address. A PURE stage firing may store nowhere and a COUNT one only post,
outside its own scratchpad: RIGHTS with the address, and the class plus 1 as INFO1; that refusal comes before R203's checks
(the model's choice, log entry 49). -/
def Obligations.AccessChecks : Prop :=
  (∀ (s : State) (f : Slot) (a : Word) (size : Nat) (op : AccOp) (win : Bool),
      let x := a.toNat
      let w := x / 2 ^ 24 % 2 ^ 16
      let off := x % 2 ^ 24
      let c := s.ctxFor f
      let own := s.lcOf f.firing.ctx f.firing.lc
      let got := s.access f a size op win
      classRefuses (s.stageClass f.firing) op = false ∨ (0xFFFF0000000000 ≤ x ∧ x < 2 ^ 56) →
        (noRegion x → got = excAt .rights a)
        ∧ (¬ noRegion x → x % size ≠ 0 → got = excAt .misalign a)
        ∧ (x < 2 ^ 47 → x % size = 0 →
            (a ∈ f.zeros → got = .ok .zero)
            ∧ (a ∉ f.zeros → tlbFind (s.coreOf f.core).tlb f.firing.ctx a = none →
                got = .error (.miss a (if op = .load then 0 else 1)))
            ∧ (∀ e, a ∉ f.zeros → tlbFind (s.coreOf f.core).tlb f.firing.ctx a = some e →
                (op = .load → got =
                  if e.r = false then excAt .rights a
                  else if c.objbase.toNat + 0x400000 ≤ x ∧ x < c.objbase.toNat + 0x420140 then
                    .ok (.live (x - c.objbase.toNat - 0x400000))
                  else .ok (.cells (s.home (e.pa a)) (s.attrOf e a)))
                ∧ (op ≠ .load → got =
                  if e.w = true ∧ e.ro = false ∧ ¬(c.objbase.toNat ≤ x ∧ x < c.objbase.toNat + 0x420140) then
                    .ok (.cells (s.home (e.pa a)) (s.attrOf e a))
                  else excAt .rights a)
                ∧ (s.migs = [] → s.home (e.pa a) = e.pa a
                  ∧ s.attrOf e a = ⟨if e.shared then 0 else f.firing.ctx, e.gran, e.keyid⟩)))
        ∧ (0xFFFF0000000000 ≤ x → x < 2 ^ 56 → x % size = 0 →
            (w = 0 → got = if off < own.lsz then .ok (.cells (scratchKey f.firing.ctx f.firing.lc off) {}) else excAt .bounds a)
            ∧ (w ≠ 0 → win = false ∨ 8 < w → got = excAt .rights a)
            ∧ (w ≠ 0 → win = true → w ≤ 8 →
                got = if off < (if (fmtOfWord (s.fmtSeen f (w - 1)).1).width = 4 then 8 else 4) * own.lsz then
                  .ok (.window w off) else excAt .bounds a))
        ∧ (0xFFFE0000000000 ≤ x → x < 0xFFFF0000000000 → x % size = 0 →
            got = if w < 4096 ∧ (s.lcOf f.firing.ctx w).valid = true ∧ off < (s.lcOf f.firing.ctx w).lsz then
              .ok (.cells (scratchKey f.firing.ctx w off) {}) else excAt .bounds a)
        ∧ (0x80000000000000 ≤ x → x < 0xC0000000000000 → x % size = 0 →
            (op = .amo ∨ op = .post → got = excAt .rights a)
            ∧ (op = .store ∨ (op = .load ∧ a ∈ f.hosts) → got = .ok (.hostMem (x - 0x80000000000000)))
            ∧ (op = .load → a ∉ f.hosts → got = .error (.park (.host a) []))))
  ∧ (∀ (s : State) (f : Slot) (a : Word) (size : Nat) (op : AccOp) (win : Bool) (n : Nat),
      s.stageClass f.firing = some n → (n = 0 ∧ op ≠ .load) ∨ (n = 1 ∧ (op = .store ∨ op = .amo)) →
      ¬ (0xFFFF0000000000 ≤ a.toNat ∧ a.toNat < 2 ^ 56) →
        s.access f a size op win = .error (.exc .rights a (BitVec.ofNat 64 (n + 1)) 0))

/-- R207: the seven scalar loads. -/
def Obligations.ScalarLoads : Prop :=
  ∀ (k : Bool) (d a : BitVec 5) (o : BitVec 12) (s : State),
    Loads (.ldB k d a o) k d a o 1 true s ∧ Loads (.ldBu k d a o) k d a o 1 false s
    ∧ Loads (.ldH k d a o) k d a o 2 true s ∧ Loads (.ldHu k d a o) k d a o 2 false s
    ∧ Loads (.ldW k d a o) k d a o 4 true s ∧ Loads (.ldWu k d a o) k d a o 4 false s
    ∧ Loads (.ldD k d a o) k d a o 8 false s

/-- R207, R208: the four scalar stores. -/
def Obligations.ScalarStores : Prop :=
  ∀ (k : Bool) (d a : BitVec 5) (o : BitVec 12) (s : State),
    Stores (.stB k d a o) k d a o 1 s ∧ Stores (.stH k d a o) k d a o 2 s
    ∧ Stores (.stW k d a o) k d a o 4 s ∧ Stores (.stD k d a o) k d a o 8 s

/-- Frame of the scalar stores that reach M by key (R206 to R208): in a next state every byte outside the bytes stored is
seen as before, the stored bytes are seen as written (those of a law entry that the chunk holds a LAW.WR of, as that image:
R259), M and host memory themselves are unchanged (the store is held in the
chunk), and no register but the pc, the SR count of a window store and what the group's end lands has changed. -/
def Obligations.ScalarStoreFrame : Prop :=
  ∀ (i : Instr) (d a : BitVec 5) (o : BitVec 12) (n key : Nat) (m : Attr) (s t : State),
    storeForm i = some (d, a, o, n) →
    s.access s.focus (memAddr (s.focus.gr a) o n) n .store (decide (n = 4)) = .ok (.cells key m) →
    exec i s = .next t →
      t = s.withFocus t.focus
      ∧ (∀ j, s.heldLawByte s.focus j = none → t.seenByte t.focus j =
          if key ≤ j ∧ j < key + n then (leBytes n (s.focus.gr d).toNat).getD (j - key) 0 else s.seenByte s.focus j)
      ∧ (∀ j, s.heldLawByte s.focus j ≠ none → t.seenByte t.focus j = s.seenByte s.focus j)
      ∧ t.focus.chunk.held = s.focus.chunk.held
      ∧ t.focus.land.g = s.focus.land.g ∧ t.focus.land.v = s.focus.land.v ∧ t.focus.land.m = s.focus.land.m
      ∧ (t.focus.glen ≠ 0 → t.focus.reg.g = s.focus.reg.g ∧ t.focus.reg.v = s.focus.reg.v
        ∧ t.focus.reg.m = s.focus.reg.m ∧ t.focus.reg.flags = s.focus.reg.flags)

/-- R206, R209, R210, R212, R213: the vector loads. VLD.BF and VLD.H widen 16-bit codes exactly, VLD.B zero-extends and
VLD.SB sign-extends a byte; VLD.BC reads one word, and only where some lane is active; VLDT reads a tile. Where every active
lane's element lies in M, aligned, mapped, not poisoned and not to be filled first, the lanes are the bytes that the chunk sees. -/
def Obligations.VectorLoadForms : Prop :=
  (∀ (k : Bool) (d a b : BitVec 5) (q : BitVec 3) (o : BitVec 9) (t : BitVec 6) (s : State),
      let f := s.focus
      let row := fun (w n : Nat) (l : Nat) => vmAddr (f.gr a) o w + BitVec.ofNat 64 (n * l)
      VectorLoads (.vldW k d a q o) k d q (row 128 4) 4 true (BitVec.ofNat 32) s
      ∧ VectorLoads (.vldBf k d a q o) k d q (row 64 2) 2 false (fun c => BitVec.ofNat 32 (c * 2 ^ 16)) s
      ∧ VectorLoads (.vldH k d a q o) k d q (row 64 2) 2 false (fun c => (rne32 (decodeFmt fp16 c)).val) s
      ∧ VectorLoads (.vldB k d a q o) k d q (row 32 1) 1 false (BitVec.ofNat 32) s
      ∧ VectorLoads (.vldSb k d a q o) k d q (row 32 1) 1 false (fun c => BitVec.ofInt 32 (Int.bmod c 256)) s
      ∧ VectorLoads (.vgath k d a b q) k d q
          (fun l => BitVec.ofInt 64 ((f.gr b).toInt + 4 * (s.lane a l).toInt)) 4 true (BitVec.ofNat 32) s
      ∧ VectorLoads (.vlds k d a b q) k d q
          (fun l => BitVec.ofInt 64 ((f.gr b).toInt + l * (f.gr a).toInt)) 4 true (BitVec.ofNat 32) s
      ∧ (f.mr q = 0 → Does (.vldBc k d a q o) s ((f.landV d (f.vr d)).advance k))
      ∧ (f.mr q ≠ 0 → (∀ g l, s.loadElem f (vmAddr (f.gr a) o 4) 4 false = .ok (g, l) →
          ∃ v : VReg, Does (.vldBc k d a q o) s ((g.landV d v).advance k)
            ∧ ∀ j (h : j < 32), v[j] = if activeLane s q j then BitVec.ofNat 32 (leNat l) else (f.vr d)[j])
        ∧ (∀ e, s.loadElem f (vmAddr (f.gr a) o 4) 4 false = .error e → exec (.vldBc k d a q o) s = s.finish (.error e)))
      ∧ (∀ g key h l, s.tileAccess f t (f.gr b) true = .ok (g, key) →
          s.tileLanes g (f.mr q) key (List.range 32) = .ok (h, l) →
          ∃ v : VReg, Does (.vldt k d t b q) s ((h.landV d v).advance k)
            ∧ ∀ j (hj : j < 32), v[j] = match l.getD j none with
              | some b => BitVec.ofNat 32 (leNat b)
              | none => (f.vr d)[j])
      ∧ (∀ e, s.tileAccess f t (f.gr b) true = .error e → exec (.vldt k d t b q) s = s.finish (.error e)))
  ∧ (∀ (s : State) (m : Lane) (addr : Nat → Word) (key : Nat → Nat) (at' : Nat → Attr) (size : Nat) (win : Bool),
      (∀ (f : Slot) (l : Nat), l < 32 → m.getLsbD l = true → f.firing = s.focus.firing → f.core = s.focus.core →
        f.zeros = s.focus.zeros → f.hosts = s.focus.hosts → f.chunk.bases = s.focus.chunk.bases →
          s.access f (addr l) size .load win = .ok (.cells (key l) (at' l))) →
      (∀ l, l < 32 → m.getLsbD l = true → s.anyPoison s.focus (key l) size = false ∧ s.lacks s.focus (at' l) (key l) size = none) →
      ∃ g, s.loadLanes m addr size win (List.range 32) s.focus =
          .ok (g, (List.range 32).map fun l => if m.getLsbD l then some (s.seenBytes s.focus (key l) size) else none)
        ∧ g.reg = s.focus.reg ∧ g.land = s.focus.land ∧ g.chunk.wbuf = s.focus.chunk.wbuf
        ∧ g.chunk.held = s.focus.chunk.held)

/-- R208, R209, R211 to R214: the vector stores. VST.BF and VST.H round with FRM's mode, raise the flags of their active
lanes, at issue (the model's choice, log entry 34), and advance the SR count once; VSCAT.FADD adds lane by lane to what the chunk sees. -/
def Obligations.VectorStoreForms : Prop :=
  ∀ (k : Bool) (d a b : BitVec 5) (q : BitVec 3) (o : BitVec 9) (t : BitVec 6) (s : State),
    let f := s.focus
    let row := fun (w n : Nat) (l : Nat) => vmAddr (f.gr a) o w + BitVec.ofNat 64 (n * l)
    let on := (List.range 32).filter (activeLane s q)
    let word := fun l => leBytes 4 (s.lane d l).toNat
    let counts := fun (addr : Nat → Word) (g : Slot) => s.countWindowSr g (addr 0) (on.map addr)
    let scat := fun l => BitVec.ofInt 64 ((f.gr b).toInt + 4 * (s.lane a l).toInt)
    let strided := fun (l : Nat) => BitVec.ofInt 64 ((f.gr b).toInt + l * (f.gr a).toInt)
    let code := fun (F : Fmt) (l : Nat) =>
      roundTo F (rmodeOf 6 f.reg.frm.toNat) (srDraw f.firing.fid f.reg.srcnt (BitVec.ofNat 64 l)) (exact32 (s.lane d l))
    let narrow := fun (i : Instr) (F : Fmt) =>
      VectorStores i k q (row 64 2) (fun l => leBytes 2 (code F l).code) false
        (fun g => (g.raiseNow (on.foldl (fun w l => w ||| (code F l).flags) 0)).countSr (f.modeOf 6)) s
    VectorStores (.vstW k d a q o) k q (row 128 4) word true (counts (row 128 4)) s
    ∧ narrow (.vstBf k d a q o) bf16 ∧ narrow (.vstH k d a q o) fp16
    ∧ VectorStores (.vstB k d a q o) k q (row 32 1) (fun l => [(s.lane d l).setWidth 8]) false (fun g => g) s
    ∧ VectorStores (.vscat k d a b q) k q scat word true (counts scat) s
    ∧ VectorStores (.vsts k d a b q) k q strided word true (counts strided) s
    ∧ (∀ g, s.scatAdd (f.mr q) scat (s.lane d) (List.range 32) f = .ok g → Does (.vscatFadd k d a b q) s (g.advance k))
    ∧ (∀ e, s.scatAdd (f.mr q) scat (s.lane d) (List.range 32) f = .error e →
        exec (.vscatFadd k d a b q) s = s.finish (.error e))
    ∧ (∀ g key, s.tileAccess f t (f.gr b) false = .ok (g, key) →
        Does (.vstt k d t b q) s (({ g with chunk := { g.chunk with
          wbuf := on.foldl (fun m l => bufWriteList m (key + 4 * l) (word l)) g.chunk.wbuf } } : Slot).advance k))
    ∧ (∀ e, s.tileAccess f t (f.gr b) false = .error e → exec (.vstt k d t b q) s = s.finish (.error e))

/-- R215, R216: the fetching atomics at 4 and 8 bytes, in integer arithmetic; AMO.FADD is an FP32 sum. -/
def Obligations.FetchingAtomics : Prop :=
  ∀ (k : Bool) (d a b : BitVec 5) (z : BitVec 1) (s : State),
    let n := if z = 0 then 4 else 8
    let x := (s.focus.gr b).toNat % 2 ^ (8 * n)
    let c := (s.focus.gr d).toNat % 2 ^ (8 * n)
    let sg := fun (y : Nat) => Int.bmod y (2 ^ (8 * n))
    let plain := fun (i : Instr) (new : Nat → Nat) => Fetches i k d a n s new (fun _ => 0)
    let sum := fun (y : Nat) => fadd (BitVec.ofNat 32 y) (BitVec.ofNat 32 (s.focus.gr b).toNat)
    plain (.amoAdd k d a b z) (fun y => (y + x) % 2 ^ (8 * n))
    ∧ plain (.amoAnd k d a b z) (fun y => y &&& x)
    ∧ plain (.amoOr k d a b z) (fun y => y ||| x)
    ∧ plain (.amoXor k d a b z) (fun y => y ^^^ x)
    ∧ plain (.amoMax k d a b z) (fun y => if sg y < sg x then x else y)
    ∧ plain (.amoMin k d a b z) (fun y => if sg x < sg y then x else y)
    ∧ plain (.amoMaxu k d a b z) (fun y => max y x)
    ∧ plain (.amoMinu k d a b z) (fun y => min y x)
    ∧ plain (.amoSwp k d a b z) (fun _ => x)
    ∧ plain (.amoCas k d a b z) (fun y => if y = c then x else y)
    ∧ Fetches (.amoFadd k d a b) k d a 4 s (fun y => (sum y).val.toNat) (fun y => (sum y).flags)

/-- R217: the posted atomics. -/
def Obligations.PostedAtomics : Prop :=
  ∀ (k : Bool) (a b : BitVec 5) (z : BitVec 1) (s : State),
    let n := if z = 0 then 4 else 8
    Posts (.pamoAdd k a b z) k a b n .add s ∧ Posts (.pamoAnd k a b z) k a b n .and s
    ∧ Posts (.pamoOr k a b z) k a b n .or s ∧ Posts (.pamoXor k a b z) k a b n .xor s
    ∧ Posts (.pamoMax k a b z) k a b n .max s ∧ Posts (.pamoMin k a b z) k a b n .min s
    ∧ Posts (.pamoMaxu k a b z) k a b n .maxu s ∧ Posts (.pamoMinu k a b z) k a b n .minu s
    ∧ Posts (.pamoFadd k a b) k a b 4 .fadd s

/-! ### System instructions (R120 to R128, R230 to R238) -/

/-- R121 to R123, R128, R192, R231, R238: NOP goes on in order and changes nothing else; PF goes on in order and fills a line of
the LLC; TB.RD reads the time base; COMMIT, FENCE and FIN close the chunk, and FIN in a stage firing without a verdict raises NOVERDICT; TRAP and BRK take
causes 17 and 18. -/
def Obligations.SystemInstructions : Prop :=
  ∀ (k : Bool) (d a b : BitVec 5) (s : State),
    let f := s.focus
    Does (.nop k) s (f.advance k)
    ∧ (∃ u : State, exec (.pf k a b) s = .next (u.withFocus (f.advance k)) ∧ Prefetches s u (f.gr a))
    ∧ GivesG (.tbRd k d) k d s (BitVec.ofNat 64 s.ticks)
    ∧ Closes (.commit k) .commit s
    ∧ Closes (.fence k b) (.fence b.toNat) s
    ∧ (f.firing.stage = none ∨ gaveVerdict f → Closes (.fin k) .fin s)
    ∧ (f.firing.stage ≠ none → ¬ gaveVerdict f → Raises (.fin k) s .noverdict 0 0)
    ∧ Raises (.trap k a b) s .trap (f.gr a) (f.gr b)
    ∧ Raises (.brk k) s .brk 0 0
    ∧ Cause.code .trap = 17 ∧ Cause.code .brk = 18

/-- R87, R124 to R127: FMT.SET holds a valid pair for the commit and raises ILLOP for another; FMT.RD gives the chunk's
own latest held value, else the committed one, at once. WG.RD gives a word of the cluster's or the package's record, at
the end of the group, and joins no read set. WG.CLR and WG.SYNC are held. -/
def Obligations.FormatAndWatchInstructions : Prop :=
  ∀ (k : Bool) (d a b : BitVec 5) (s : State),
    let f := s.focus
    let set := (f.gr d).toNat % 8
    let rd := (f.gr a).toNat % 8
    let pair := s.fmtSeen f rd
    let table := if (f.gr b).getLsbD 4 then none else some (clusterIdOf f.core)
    (validPair (f.gr a) (f.gr b) = true → Does (.fmtSet k d a b) s
      (((f.addRead (.fmt f.firing.ctx f.firing.lc set)).hold (.fmt set (f.gr a) (f.gr b))).advance k))
    ∧ (validPair (f.gr a) (f.gr b) = false → Raises (.fmtSet k d a b) s .illop (f.gr a) (f.gr b))
    ∧ Does (.fmtRd k d a) s (((f.addRead (.fmt f.firing.ctx f.firing.lc rd)).writeG d
        (if (f.gr a).getLsbD 3 then pair.2 else pair.1)).advance k)
    ∧ ((∀ x y, Held.fmt rd x y ∉ f.chunk.held) → pair = (s.lcOf f.firing.ctx f.firing.lc).fmtOf rd)
    ∧ (∀ x y, s.fmtSeen (f.hold (.fmt rd x y)) rd = (x, y))
    ∧ Does (.wgRd k d a b) s ((f.landG d
        ((s.myCtx.watchOf table ((f.gr a).toNat % 256)).word ((f.gr b).toNat % 16))).advance k)
    ∧ Does (.wgClr k a b) s ((f.hold (.wgClr ((f.gr a).toNat % 256) (f.gr b))).advance k)
    ∧ Does (.wgSync k a) s ((f.hold (.wgSync (f.gr a))).advance k)

/-- R175, R233 to R237: DG.RD is live and DG.MODE is held, 3 refused; the tile instructions: TILE.DEF and TILE.ST check
their operand (the BOUNDS INFO0 of TILE.ST and TILE.SAT is g[a], the model's choice, log entry 48), then wait while the
tile is FILLING or DRAINING, then are held; TILE.RD gives word 0 or the live counts,
zeros for an undefined tile; TILE.SAT gives the counts and holds their reduction. -/
def Obligations.DigestAndTileInstructions : Prop :=
  ∀ (k : Bool) (d a b : BitVec 5) (s : State),
    let f := s.focus
    let x := f.gr a
    let y := f.gr b
    let t := x.toNat % 64
    let e := s.tileSeen f t
    let loc := fun n => Loc.tile f.firing.ctx f.firing.lc n
    let base := x.toNat % 2 ^ 14
    let size := x.toNat / 2 ^ 14 % 2 ^ 15
    let idx := x.toNat / 2 ^ 35 % 2 ^ 6
    let defBad := x.toNat / 2 ^ 29 % 4 ≠ 0 ∨ x.toNat / 2 ^ 41 ≠ 0 ∨ 16384 < size
    let outside := s.myLc.lsz < (base + size) * 128
    let busy := fun n => (s.tileSeen f n).state = 1 ∨ (s.tileSeen f n).state = 3
    Does (.dgRd k d a) s ((f.landG d (if x.getLsbD 0 then s.myCtx.digest else f.firing.digest)).advance k)
    ∧ (x.toNat % 4 ≠ 3 → Does (.dgMode k a) s ((f.hold (.dgMode (x.toNat % 4))).advance k))
    ∧ (x.toNat % 4 = 3 → Raises (.dgMode k a) s .illop x 0)
    ∧ (defBad → Raises (.tileDef k a) s .illop x 0)
    ∧ (¬ defBad → outside → Raises (.tileDef k a) s .bounds x 0)
    ∧ (¬ defBad → ¬ outside → busy idx → Does (.tileDef k a) s { f.addRead (loc idx) with wait := .tile idx })
    ∧ (¬ defBad → ¬ outside → ¬ busy idx → Does (.tileDef k a) s (((f.addRead (loc idx)).hold (.tileDef x)).advance k))
    ∧ (y.toNat % 2 = 1 → Raises (.tileSt k a b) s .illop y 0)
    ∧ (y.toNat % 2 = 0 → e.size = 0 → Raises (.tileSt k a b) s .bounds x 0)
    ∧ (y.toNat % 2 = 0 → e.size ≠ 0 → busy t → Does (.tileSt k a b) s { f.addRead (loc t) with wait := .tile t })
    ∧ (y.toNat % 2 = 0 → e.size ≠ 0 → ¬ busy t →
        Does (.tileSt k a b) s (((f.addRead (loc t)).hold (.tileSt t (y.toNat % 4))).advance k))
    ∧ (y.toNat % 2 = 0 → Does (.tileRd k d a b) s (((f.addRead (loc t)).landG d (if e.size = 0 then 0 else e.w0)).advance k))
    ∧ (y.toNat % 2 = 1 → Does (.tileRd k d a b) s ((f.landG d (if e.size = 0 then 0 else e.w1)).advance k))
    ∧ (e.size = 0 → Raises (.tileSat k d a) s .bounds x 0)
    ∧ (e.size ≠ 0 → Does (.tileSat k d a) s (((f.hold (.tileSat t e.sat e.nan)).landG d e.w1).advance k))

/-! ### CSRs (R129 to R132, R64) -/

/-- R60, R129 to R131: CSRR, and CSRS and CSRC with a = 0, give the value of every CSR and write nothing: a firing, core or
live CSR as it stands; a context CSR enters the read set and gives the chunk's own latest held write, else the committed
value; and FRD gives the firing registers. -/
def Obligations.CsrReads : Prop :=
  ∀ (k : Bool) (d : BitVec 5) (n : BitVec 12) (s : State),
    let f := s.focus
    let reads := fun (g : Slot) (x : Word) => Does (.csrr k d n) s ((g.writeG d x).advance k)
      ∧ Does (.csrs k d 0 n) s ((g.writeG d x).advance k) ∧ Does (.csrc k d 0 n) s ((g.writeG d x).advance k)
    (∀ x, (n, x) ∈ plainCsrs s → n.toNat < 0x800 ∨ f.firing.ctx = 0 → reads f x)
    ∧ (∀ c m x, (n, c, m, x) ∈ contextCsrs s → n.toNat < 0x800 ∨ f.firing.ctx = 0 →
        (c = f.firing.ctx ∨ s.hasCtx c = true → reads (f.addRead (.csr c m)) (f.heldCsr c m x))
        ∧ (c ≠ f.firing.ctx → s.hasCtx c = false → reads (f.addRead (.csr c m)) 0)
        ∧ ((∀ v, Held.csr c m v ∉ f.chunk.held) → f.heldCsr c m x = x)
        ∧ (∀ v, (f.hold (.csr c m v)).heldCsr c m x = v))
    ∧ (∀ j x, (j, x) ∈ [(0, f.firing.fid), (1, f.firing.fts), (2, BitVec.ofNat 64 f.firing.ch), (3, f.firing.fsrc),
          (4, BitVec.ofNat 64 f.firing.gang), (5, BitVec.ofNat 64 (f.firing.np + 256 * f.firing.nj)),
          (6, BitVec.ofNat 64 f.firing.cptid)] → n.toNat = j → GivesG (.frd k d n) k d s x)

/-- R129 to R132: what CSRW, and CSRS and CSRC with a ≠ 0, do: g[d] takes the old value; FLAGS keeps bits [4:0], FRM
takes 0 for codes 6 and 7, CTXSEL keeps bits [7:0], at once; a context CSR takes the new value, its reserved bits zero,
held to the commit, and where the context does not exist nothing; a read-only CSR raises ILLOP, and a privileged number
in a user firing raises PRIV in every form. The commit of a table base leaves every open chunk, and every one that is
not committed, with the bases it opened under; one that waits before it opens has the new (R192, R195). -/
def Obligations.CsrWrites : Prop :=
  ∀ (k : Bool) (d a : BitVec 5) (n : BitVec 12) (s : State),
    let f := s.focus
    let x := f.gr a
    let old := (s.csrRead f n.toNat).2
    let after := fun (v : Word) (i : Instr) =>
      ∃ g : Slot, Does i s ((g.writeG d old).advance k) ∧
        (n = 0x000 → g = { f with reg := { f.reg with flags := v &&& 31 } })
        ∧ (n = 0x001 → g = { f with reg := { f.reg with frm := if 6 ≤ v.toNat % 8 then 0 else v &&& 7 } })
        ∧ (n = 0x800 → g = { f with reg := { f.reg with ctxsel := v &&& 255 } })
        ∧ (∀ c m y z, (n, c, m, y) ∈ contextCsrs s → (m, z) ∈ [(0x020, v), (0x022, v &&& 0x8003FFFF), (0x023, v),
              (0x026, v &&& ~~~ 0x1FFF), (0x027, v &&& ~~~ 0x3FFFFF), (0x803, v &&& ~~~ 0xFFF)] →
            g = if c = f.firing.ctx ∨ s.hasCtx c = true then (f.addRead (.csr c m)).hold (.csr c m z)
              else f.addRead (.csr c m))
    let readOnly := n ∈ [0x002, 0x003, 0x010, 0x011, 0x012, 0x013, 0x021, 0x024, 0x025, 0x026, 0x027]
    (n.toNat < 0x800 ∨ f.firing.ctx = 0 → ¬ readOnly →
      after x (.csrw k d a n)
      ∧ (a ≠ 0 → after (old ||| x) (.csrs k d a n))
      ∧ (a ≠ 0 → after (old &&& ~~~ x) (.csrc k d a n)))
    ∧ (readOnly → Raises (.csrw k d a n) s .illop 0 0
      ∧ (a ≠ 0 → Raises (.csrs k d a n) s .illop 0 0) ∧ (a ≠ 0 → Raises (.csrc k d a n) s .illop 0 0))
    ∧ (0x800 ≤ n.toNat → f.firing.ctx ≠ 0 → Raises (.csrr k d n) s .priv 0 0 ∧ Raises (.csrw k d a n) s .priv 0 0
      ∧ Raises (.csrs k d a n) s .priv 0 0 ∧ Raises (.csrc k d a n) s .priv 0 0)
    ∧ (∀ (ctx num : Nat) (v : Word) (h : Slot), h ∈ s.slots → h.active = true →
        let t := s.applyHeld f (.csr ctx num v)
        let bases := fun (c : Ctx) => (c.lawbase, c.objbase, c.trapsv)
        (∃ g ∈ t.slots, g.core = h.core ∧ g.k = h.k ∧ bases (t.ctxFor g)
          = if h.opening = true ∧ h.chunk.bases = none then bases (t.ctxOf h.firing.ctx) else bases (s.ctxFor h))
        ∧ (num = 0x026 → (t.ctxOf ctx).lawbase = v) ∧ (num = 0x027 → (t.ctxOf ctx).objbase = v)
        ∧ (num = 0x803 → (t.ctxOf ctx).trapsv = v))

/-! ### Exceptions (R60, R75 to R81, R394) -/

/-- R71, R76, R77, R80, R132: the fields of a trap record's 64 bytes; the chunk-start state block: 4,480 bytes with each
register at its place, and what a RESTART takes of the block as it was written: every register but g0 and m0, the flags
and the rounding mode as a CSR write would. -/
def Obligations.TrapRecordAndBlock : Prop :=
  (∀ (fid pc csa fts i0 i1 i2 : Word) (c : Cause) (ch lc : Nat) (wait : Bool), ch < 64 → lc < 4096 →
      let l := trapRecord fid pc c ch wait lc csa fts i0 i1 i2
      let word := fun i => leNat ((l.drop (8 * i)).take 8)
      l.length = 64 ∧ word 0 = fid.toNat ∧ word 1 = pc.toNat ∧ word 2 % 256 = c.code ∧ word 2 / 2 ^ 8 % 64 = ch
      ∧ word 2 / 2 ^ 14 % 2 = 0 ∧ word 2 / 2 ^ 15 % 2 = (if wait then 1 else 0) ∧ word 2 / 2 ^ 16 % 2 ^ 12 = lc
      ∧ word 2 / 2 ^ 28 = 0 ∧ word 3 = csa.toNat ∧ word 4 = fts.toNat ∧ word 5 = i0.toNat ∧ word 6 = i1.toNat
      ∧ word 7 = i2.toNat)
  ∧ (∀ (r : Regs) (x : Susp),
      let l := blockBytes r
      let t := regsOfBlock l x
      l.length = 4480
      ∧ leNat ((l.drop 8).take 8) = r.pc.toNat ∧ leNat ((l.drop 16).take 8) = r.flags.toNat
      ∧ leNat ((l.drop 24).take 8) = r.frm.toNat
      ∧ (∀ i (h : i < 32), leNat ((l.drop (32 + 8 * i)).take 8) = (r.g[i]).toNat)
      ∧ (∀ i (h : i < 8), leNat ((l.drop (288 + 4 * i)).take 4) = (r.m[i]).toNat)
      ∧ (∀ i j (h : i < 32) (h' : j < 32), leNat ((l.drop (320 + 128 * i + 4 * j)).take 4) = (r.v[i][j]).toNat)
      ∧ t.pc = r.pc ∧ t.flags = r.flags &&& 31 ∧ t.v = r.v
      ∧ t.frm = (if r.frm.toNat % 8 = 6 ∨ r.frm.toNat % 8 = 7 then 0 else r.frm &&& 7)
      ∧ (∀ i (h : i < 32), i ≠ 0 → t.g[i] = r.g[i]) ∧ (∀ i (h : i < 8), i ≠ 0 → t.m[i] = r.m[i]))

/-- R75 to R77, R81, R394: taking an exception where the logical core has a free block, the block's page is mapped with W,
the context's trap actor can take the record and the firing is no other copy's and not the trap actor's own: the slot is
freed; the firing is suspended with the lowest free block, which the checkpoint's registers fill; every other byte of M
and all of host memory are as before; the record, with WAIT = 1, goes to the trap actor. And one that finds all eight
blocks in use: the firing is suspended, the partition is halted, with STATE = 3 in its descriptor, whose 48 bytes are all
that changes in M, and the record goes to the management controller in an error record of KIND 7 with SEV 1, UNIT 0 and the
core's number. While the block's bytes lie in the read set of another chunk that holds exclusive commit, the exception waits
(R200). Where the descriptor lies in M is log entry 11 (DESIGN CHOICE). -/
def Obligations.ExceptionEntry : Prop :=
  (∀ (s : State) (c : Cause) (pc i0 i1 i2 : Word) (b : Nat) (e : TlbEntry),
      let f := s.focus
      let x := f.firing
      let ctx := s.ctxFor f
      let l := ctx.lcOf x.lc
      let va := ctx.trapsv + BitVec.ofNat 64 (4608 * (8 * x.lc + b))
      let pa := e.pa va
      let bytes := blockBytes f.ckpt
      b < 8 → b ∉ l.trapBlocks → (∀ j, j < b → j ∈ l.trapBlocks) →
      s.walk x.ctx va = some e → e.w = true → e.ro = false → va.toNat % 2 ^ 16 + 4480 ≤ 2 ^ 16 →
      va.toNat % 32 = 0 → s.exceptionWaits = false →
      (∀ i, i < 4480 → frameAbsent (pa + i) = false) → s.migs = [] → Memory.wf s.mem = true →
      x.dual = false → ctx.isTrapActor x = false → ctx.trapNamesNone = false →
        let t := s.takeException c pc i0 i1 i2
        t.focus = { core := f.core, k := f.k }
        ∧ (∃ u : Susp, t.susp = s.susp ++ [u] ∧ u.block = b ∧ u.csa = va ∧ u.firing.fid = x.fid ∧ u.firing.key = x.key
          ∧ u.firing.prim = x.prim ∧ u.firing.join = x.join ∧ u.srcnt = f.ckpt.srcnt ∧ u.srecnt = f.ckpt.srecnt)
        ∧ (t.lcOf x.ctx x.lc).trapBlocks = b :: l.trapBlocks
        ∧ (∀ j, cellRead t.mem j = if pa ≤ j ∧ j < pa + 4480 then bytes.getD (j - pa) 0 else cellRead s.mem j)
        ∧ t.host = s.host
        ∧ (∃ m : Msg, t.net = s.net ++ [m] ∧ m.ctx = x.ctx ∧ m.dst = ctx.trapch.toNat % 4096
          ∧ m.ch = ctx.trapch.toNat / 4096 % 64
          ∧ m.payload = trapRecord x.fid pc c x.ch true x.lc va x.fts i0 i1 i2))
  ∧ (∀ (s : State) (c : Cause) (pc i0 i1 i2 : Word),
      let f := s.focus
      let x := f.firing
      (∀ j, j < 8 → j ∈ ((s.ctxOf x.ctx).lcOf x.lc).trapBlocks) →
        let t := s.takeException c pc i0 i1 i2
        t.focus = { core := f.core, k := f.k } ∧ t.host = s.host ∧ t.net = s.net
        ∧ (Memory.wf s.mem = true → x.ctx < 256 → ∀ j, j < descKey x.ctx ∨ descKey x.ctx + 48 ≤ j →
          cellRead t.mem j = cellRead s.mem j)
        ∧ (∃ u : Susp, t.susp = s.susp ++ [u] ∧ u.firing.fid = x.fid)
        ∧ (t.ctxOf x.ctx).halted = true ∧ (t.ctxOf x.ctx).state = 3
        ∧ (∃ r : MgmtRec, t.mgmt = s.mgmt ++ [r] ∧ r.kind = 7 ∧ r.sev = 1 ∧ r.ctx = x.ctx ∧ r.lcore = x.lc ∧ r.unit = 0
          ∧ r.num = f.core))
  ∧ (∀ (s : State) (c : Cause) (pc i0 i1 i2 : Word), s.exceptionWaits = true → s.takeException c pc i0 i1 i2 = s)

/-! ### Reset, the step and the encoding (R39, R40, R46, R60, R66, R70, R180) -/

/-- R71, R90, R131, R165, R180, R393: what reset leaves: no context, no firing in a slot, ready or suspended, no message, no
commit yet, no error record, memory with nothing listed and in canonical form; the registers of a slot clear; and the
reset values of the tables: the standard formats, a task-table entry with OFF = 1, an undefined tile and a barrier that
nothing has arrived at. -/
def Obligations.ResetLeaves : Prop :=
  (State.reset.ctxs = [] ∧ State.reset.focus.active = false ∧ State.reset.others = [] ∧ State.reset.ready = []
    ∧ State.reset.susp = [] ∧ State.reset.net = [] ∧ State.reset.log = [] ∧ State.reset.mem = [] ∧ State.reset.host = []
    ∧ State.reset.mgmt = [] ∧ State.reset.jobs = [] ∧ State.reset.cycle = 0
    ∧ (({} : Regs).flags = 0 ∧ ({} : Regs).frm = 0 ∧ ({} : Regs).srcnt = 0 ∧ ({} : Regs).srecnt = 0 ∧ ({} : Regs).ctxsel = 0)
    ∧ (({ n := 0 } : LCore).fmtOf 0 = (0x1C283B98, 0) ∧ ({ n := 0 } : LCore).fmtOf 1 = (0x3A207AB8, 0)
      ∧ ({ n := 0 } : LCore).fmtOf 2 = (0x04300954, 0) ∧ ({ n := 0 } : LCore).fmtOf 3 = (0x0C100718, 0)
      ∧ ({ n := 0 } : LCore).fmtOf 4 = (0x04100314, 0))
    ∧ (({ n := 0 } : LCore).ttOf 5).off = true ∧ (({ n := 0 } : LCore).tileOf 5).size = 0
    ∧ (({ id := 1 } : Ctx).specwin = 0 ∧ ({ id := 1 } : Ctx).trapch = 0 ∧ ({ id := 1 } : Ctx).almdrop = 0
      ∧ ({ id := 1 } : Ctx).gvt = 0 ∧ ({ id := 1 } : Ctx).energy = 0)
    ∧ (({ id := 1 } : Ctx).barOf 0 3).word = 0)
  ∧ (State.reset.MemOk)

/-- R180: every step keeps the canonical form of memory: addresses strictly rising and no listed byte equal to what an
unlisted one reads as, so that equal memories are equal data. -/
def Obligations.StepKeepsMemoryCanonical : Prop :=
  ∀ s t : State, s.MemOk → step s = .next t → t.MemOk

/-- R412: a step stops only after a failed boot, and then every step does. -/
def Obligations.StepStopsOnlyAfterFailedBoot : Prop :=
  ∀ s : State, (s.boot = 2 → step s = .fault .bootHalted) ∧ (s.boot ≠ 2 → ∃ t, step s = .next t)

/-- R40, R60, R66, R69, R271, R272: a core's turn whose slot is open, waits for no fill, has no check of an alarm to make, is not
at the instruction limit and fetches a word: an undecodable word raises ILLOP, so does a second ONCE, a privileged word in a user
firing raises PRIV, and what the stage class refuses RIGHTS; one that decodes runs exec of the instruction at the state with the
word noted, where its chunk passes no limit. Under ONCE a gang member takes the posting of its ordinal, or waits for it, or raises
ILLOP where its word is another one; member 0 runs exec of the instruction and posts to the members that have not ended what it
wrote, once they have taken the posting eight before it; an instruction that ONCE may not govern raises ILLOP. What is charged
rests on log entry 60 (DEDUCED). A turn that would end the hopes of the chunk with exclusive commit waits instead (R200, R201, log
entry 70), and before the turn is taken the increments of corrected errors that reads of DRAM met reach their scores (R405). -/
def Obligations.StepRunsDecoded : Prop :=
  ∀ (s s0 : State) (p k : Nat) (w : BitVec 32),
    let u := issuing s0.passTurn p k
    let u' := u.fetchFill u.focus
    let v := u'.withFocus (u.focus.takes w)
    let f := v.focus
    let n := f.reg.onceOrd - 1
    let second := f.reg.onceArmed = true ∧ w.toNat / 2 ^ 25 % 64 = 0x3E
    let ends := fun (t : State) (abort : Bool) =>
      let x := paidFor v t w abort
      step s = .next (if s0.passTurn.spares x = true then x else s0.passTurn)
    let raises := fun (c : Cause) (i1 : Word) => ends (v.takeException c f.reg.pc 0 i1 0) false
    let inLimits := fun (t : State) => f.issued t.focus = true → t.focus.pastRoom = false ∧ t.focus.over false = false
    s.boot ≠ 2 → s.settle.nextTurnOf = (.core p, s0) → s0.passTurn.pickSlot p = some k →
    u.focus.chunk.doomed = false → (∀ b m, u.focus.wait ≠ .fill b m) →
    (u.focus.firing.alarm = none ∨ u.focus.chunk.checked = true) →
    u.limitCloses u.focus = false → u'.fetch u.focus = .ok w →
      ((∀ i, decode w ≠ .ok i) → raises .illop 0)
      ∧ (∀ i, decode w = .ok i → second → raises .illop 0)
      ∧ (∀ i, decode w = .ok i → ¬ second → needsPriv i = true → f.firing.ctx ≠ 0 → raises .priv 0)
      ∧ (∀ i, decode w = .ok i → ¬ second → needsPriv i = false ∨ f.firing.ctx = 0 →
        (∀ c, v.stageRefuses f i = some c → raises .rights (BitVec.ofNat 64 (c + 1)))
        ∧ (v.stageRefuses f i = none →
          (f.reg.onceArmed = false ∨ f.firing.isGang = false → ∀ t, exec i v = .next t → inLimits t → ends t (isAbort i))
          ∧ (f.reg.onceArmed = true → f.firing.isGang = true →
            (onceForbidden i = true → raises .illop 0)
            ∧ (onceForbidden i = false → f.firing.gang ≠ 0 →
              ((∀ q ∈ f.firing.postings, q.1 ≠ n) → ends (v.withFocus { f with wait := .posting n }) false)
              ∧ (∀ q, (f.firing.postings.find? fun q => q.1 = n) = some q →
                (onceSame w q.2.1 = false → raises .illop 0)
                ∧ (onceSame w q.2.1 = true →
                  let g := (q.2.2.foldl Slot.landPosted { f with firing := { f.firing with taken := max f.firing.taken (n + 1) } }).advance
                    (w.getLsbD 31)
                  inLimits (v.withFocus g) → ends (v.withFocus g) false)))
            ∧ (onceForbidden i = false → f.firing.gang = 0 →
              (v.mayPost f.firing n = false → ends (v.withFocus { f with wait := .takers n }) false)
              ∧ (v.mayPost f.firing n = true → ∀ t t', exec i v = .next t →
                exec i (v.withFocus { f with land := f.land.flip }) = .next t' → inLimits t →
                let live := (List.range 8).filter fun g => g ≠ 0 ∧ g ∉ (v.gangOf f.firing).ended
                (f.issued t.focus = true → ends { t with onceQ := t.onceQ ++ live.map fun g =>
                    ⟨f.firing.ctx, f.firing.msgHome + g, f.firing.ch, f.firing.seq, n, w, writtenRegs t.focus.land t'.focus.land⟩ } false)
                ∧ (f.issued t.focus = false → ends t false))))))

/-- R40, R76: a word is fetched from device memory alone, 4 bytes of committed memory, little-endian, under a translation with
X; another region or a page without X raises RIGHTS at the address, poison POISON; a misaligned pc, as a RESTART of an edited
block may leave it (R76), raises MISALIGN whatever its region is (DEDUCED, log entry 71); a page that a ZERO reply answered reads
zeros; and a failed fetch takes its exception with the pc as the record's PC. -/
def Obligations.FetchRules : Prop :=
  ∀ (s : State) (f : Slot),
    let pc := f.reg.pc
    let tlb := tlbFind (s.coreOf f.core).tlb f.firing.ctx pc
    (pc.toNat % 4 ≠ 0 → s.fetch f = .error (.exc .misalign pc 0 0))
    ∧ (pc.toNat % 4 = 0 → 2 ^ 47 ≤ pc.toNat → s.fetch f = .error (.exc .rights pc 0 0))
    ∧ (pc.toNat % 4 = 0 → pc.toNat < 2 ^ 47 → pc ∈ f.zeros → s.fetch f = .ok 0)
    ∧ (∀ c i0 i1 i2, s.focus = f → s.fetch f = .error (.exc c i0 i1 i2) →
        s.finish (.error (.exc c i0 i1 i2)) = .next (s.takeException c pc i0 i1 i2))
    ∧ (pc.toNat % 4 = 0 → pc.toNat < 2 ^ 47 → pc ∉ f.zeros →
        (tlb = none → s.fetch f = .error (.miss pc 2))
        ∧ (∀ e, tlb = some e → e.x = false → s.fetch f = .error (.exc .rights pc 0 0))
        ∧ (∀ e, tlb = some e → e.x = true →
            let key := s.home (e.pa pc)
            ((∃ i, i < 4 ∧ (inPoison s.poison (key + i) = true ∨ frameAbsent (key + i) = true)) →
              s.fetch f = .error (.exc .poison pc 0 0))
            ∧ ((∀ i, i < 4 → inPoison s.poison (key + i) = false ∧ frameAbsent (key + i) = false) →
              s.fetch f = .ok (BitVec.ofNat 32 (leNat (cellReadList s.mem key 4))))))

/-- R39, R42, R46: words written out from the encoding tables decode to their instructions: `ADD g3, g1, g2`,
`ADDI g5, g4, -1`, `LD.W g1, [g2 + 4]`, a marked `VADD.F v1, v2, v3`, `FIN`,
`SEND g4, g5` and `MX.LS g4, g1`; and a word of a reserved major is refused. -/
def Obligations.WordsDecode : Prop :=
  decode 0x02308800#32 = .ok (.add false 3 1 2)
  ∧ decode 0x04527FFF#32 = .ok (.addi false 5 4 (-1))
  ∧ decode 0x2C114001#32 = .ok (.ldW false 1 2 1)
  ∧ decode 0xC0110C00#32 = .ok (.vaddF true 1 2 3 0)
  ∧ decode 0x2A000001#32 = .ok (.fin false)
  ∧ decode 0x3A021400#32 = .ok (.send false 4 5)
  ∧ decode 0x60101002#32 = .ok (.mxLs false 1 4)
  ∧ (∃ e, decode 0x7E000000#32 = .error e)

/-- R39 to R57: decode reads back every operand of every well-formed encoded instruction. -/
def Obligations.DecodeReadsEncodedBack : Prop :=
  ∀ (i : Instr) (w : BitVec 32), i.wf = true → encode? i = some w → decode w = .ok i

/-- R60: a word that decodes is the one encoding of a well-formed instruction: no two words mean the same, and no word
with a reserved field set decodes. -/
def Obligations.DecodedWordIsCanonical : Prop :=
  ∀ (i : Instr) (w : BitVec 32), decode w = .ok i → encode? i = some w ∧ i.wf = true

/-! ### Messages and task tables (R168, R219 to R229) -/

/-- R168, R173, R219 to R223, R226, R349: the four sends; MLD and MHDR read a message that the firing reserved, as
scratchpad loads of its FIFO slot; and the payload of a send whose elements all lie in M, with nothing to fill first, is the
bytes the chunk sees. That SENDM checks its rectangle, and SENDR its group, before the production rate is the model's choice
(log entry 95). -/
def Obligations.SendsAndMessageReads : Prop :=
  ∀ (k : Bool) (d a b : BitVec 5) (s : State),
    let f := s.focus
    let w := f.gr a
    let r := f.gr d
    let rectBad := r.toNat / 2 ^ 12 % 64 < r.toNat % 64 ∨ r.toNat / 2 ^ 18 % 64 < r.toNat / 2 ^ 6 % 64
    let grp := w.toNat % 64
    let red := s.myCtx.redOf grp
    let closed := red.on = false ∨ inRect red.cfgB f.firing.lc = false
    let slot := fun (m : MsgRef) (off n : Nat) => s.readKey f
      (BitVec.ofNat 64 (0xFFFE0000000000 + f.firing.msgHome * 2 ^ 24 + (m.off + off)))
      (scratchKey f.firing.ctx f.firing.msgHome (m.off + off)) {} n
    let ref := (if w.toNat / 32 % 2 = 1 then f.firing.join else f.firing.prim)[w.toNat % 32]?
    let o := (f.gr b).toNat
    SendForm (.send k a b) k 0 w (f.gr b) False 0 true (fun l h => ∃ m, h = .send m ∧ sentAs s w l none m) s
    ∧ SendForm (.sendt k d a b) k 1 w (f.gr b) False 0 true (fun l h => ∃ m, h = .send m ∧ sentAs s w l (some r) m) s
    ∧ SendForm (.sendm k d a b) k 2 w (f.gr b) rectBad r false
        (fun l h => ∃ m, h = .sendm r m ∧ sentAs s w l none m) s
    ∧ (closed → Raises (.sendr k a b) s .illop w 0)
    ∧ (¬ closed → s.myEntry.prod ≤ f.reg.sends →
        Raises (.sendr k a b) s .sendrate (BitVec.ofNat 64 s.myEntry.prod) 3)
    ∧ (¬ closed → f.reg.sends < s.myEntry.prod → ∀ g l,
        s.payload (f.addRead (.red f.firing.ctx grp)) (f.gr b) (4 * (red.cfgA.toNat / 2 ^ 7 % 16 + 1)) = .ok (g, l) →
        Does (.sendr k a b) s ((oneMoreSend (g.hold (.sendr grp l))).advance k))
    ∧ (ref = none → Raises (.mld k d a b) s .bounds w 0 ∧ Raises (.mhdr k d a b) s .bounds w 0)
    ∧ (∀ m, ref = some m → o % 8 ≠ 0 → Raises (.mld k d a b) s .misalign (f.gr b) 0)
    ∧ (∀ m, ref = some m → o % 8 = 0 → 64 ≤ o → Raises (.mld k d a b) s .bounds (f.gr b) 0)
    ∧ (∀ m g l, ref = some m → o % 8 = 0 → o < 64 → slot m (16 + o) 8 = .ok (g, l) →
        Does (.mld k d a b) s ((g.landG d (BitVec.ofNat 64 (leNat l))).advance k))
    ∧ (∀ m g l, ref = some m → o % 4 < 3 → slot m (if o % 4 = 2 then 80 else 8 * (o % 4)) (if o % 4 = 2 then 4 else 8) = .ok (g, l) →
        Does (.mhdr k d a b) s ((g.landG d (BitVec.ofNat 64 (leNat l))).advance k))
    ∧ (∀ m, ref = some m → o % 4 = 3 → Does (.mhdr k d a b) s ((f.landG d 0).advance k))
    ∧ (∀ (h : Slot) (va : Word) (key n : Nat) (m : Attr), 4 ≤ n → n ≤ 64 →
        (∀ (g : Slot) i, 4 * i < n → g.firing = h.firing → g.core = h.core → g.zeros = h.zeros → g.hosts = h.hosts →
          g.chunk.bases = h.chunk.bases →
          s.access g (va + BitVec.ofNat 64 (4 * i)) 4 .load false = .ok (.cells (key + 4 * i) m)) →
        (∀ i, i < n → s.poisoned h (key + i) = false ∧ s.lacks h m (key + i) 1 = none) →
        ∃ g, s.payload h va n = .ok (g, s.seenBytes h key n))

/-- R227 to R229: the task-table instructions: an undefined logical core raises BOUNDS in all four; TT.WR reads a 24-byte
image and holds it with its reserved bits zero, unless the entry breaks one of R166's conditions, which raises ILLOP with
the channel and the condition's number; TT.RD gives words 0 to 2 as the chunk sees them, conflict-checked, and the live
word 3; TT.BLK and TT.UBLK are held. -/
def Obligations.TaskTableInstructions : Prop :=
  ∀ (k : Bool) (d a b : BitVec 5) (s : State),
    let f := s.focus
    let sel := f.gr a
    let lc := sel.toNat % 2 ^ 12
    let ch := sel.toNat / 2 ^ 12 % 64
    let e := s.ttSeen f lc ch
    let j := (f.gr b).toNat % 4
    let defined := s.myCtx.defines lc = true
    (¬ defined → Raises (.ttWr k a b) s .bounds sel 0 ∧ Raises (.ttRd k d a b) s .bounds sel 0
      ∧ Raises (.ttBlk k a) s .bounds sel 0 ∧ Raises (.ttUblk k a) s .bounds sel 0)
    ∧ (defined → Does (.ttBlk k a) s ((f.hold (.ttBlk sel true)).advance k)
      ∧ Does (.ttUblk k a) s ((f.hold (.ttBlk sel false)).advance k))
    ∧ (defined → j < 3 → Does (.ttRd k d a b) s (((f.addRead (.tt f.firing.ctx lc ch)).landG d
        (if j = 0 then e.w0 else if j = 1 then e.w1 else e.w2)).advance k))
    ∧ (defined → j = 3 → Does (.ttRd k d a b) s ((f.landG d
        (BitVec.ofNat 64 (e.q.length + e.head * 2 ^ 10 + (e.seq % 2 ^ 32) * 2 ^ 32))).advance k))
    ∧ (∀ g l, defined → s.loadRange 8 3 f (f.gr b) 24 = .ok (g, l) →
        let word := fun i => BitVec.ofNat 64 (leNat ((l.drop (8 * i)).take 8))
        let image : TTEntry := { w0 := word 0, w1 := word 1, w2 := word 2 }
        let broken := if (word 1).getLsbD 6 then none
          else entryBreaks (s.lcOf f.firing.ctx lc).lsz ch image (s.ttSeen f lc)
        (broken = none → ∃ g' : Slot, Does (.ttWr k a b) s ((g'.hold (.ttWr sel (word 0 &&& 0x00FFFFFFFFFFFFFF)
            (word 1 &&& 0x00FFFFFF07FFFFFF) (word 2 &&& 0xFFFFFF))).advance k)
          ∧ g'.reg = g.reg ∧ g'.land = g.land ∧ g'.chunk.wbuf = g.chunk.wbuf ∧ g'.chunk.held = g.chunk.held
          ∧ (∀ i, i < 64 → i ≠ ch → Loc.tt f.firing.ctx lc i ∈ g'.chunk.rset))
        ∧ (∀ n, broken = some n → Raises (.ttWr k a b) s .illop (BitVec.ofNat 64 ch) (BitVec.ofNat 64 n)))
    ∧ (∀ er, defined → s.loadRange 8 3 f (f.gr b) 24 = .error er → exec (.ttWr k a b) s = s.finish (.error er))

/-! ### Ring words, laws and clocks (R157, R239 to R261) -/

/-- R239, R244, R245, R247, R251, R252: the arithmetic of a ring access on any word and law: the 16 bytes read back;
Δ is the distance from T to now modulo 2^48, and 0 with BACK where that is 2^47 or more; a law evaluated over Δ = 0, and
KIND 0 over any Δ, gives the two values unchanged and no indication; RW.LD holds the word unchanged and arms nothing;
another operation holds T at now, or keeps it where the access is behind. -/
def Obligations.RingWordArithmetic : Prop :=
  ∀ (w : RingWord) (e : Law) (c : Word) (op : RingOp),
    let n := c.toNat / 2 ^ e.shift
    let x := clockOf c e.shift w.t
    (w.small → RingWord.ofBytes w.bytes = w ∧ w.bytes.length = 16)
    ∧ (w.t < 2 ^ 48 → x.now = n % 2 ^ 48 ∧ x.raw < 2 ^ 48 ∧ (w.t + x.raw) % 2 ^ 48 = x.now
      ∧ x.back = decide (2 ^ 47 ≤ x.raw) ∧ x.delta = if 2 ^ 47 ≤ x.raw then 0 else x.raw)
    ∧ lawEval e w.a w.b 0 = ⟨w.a, w.b, false, false, 0⟩
    ∧ (e.kind = 0 → ∀ d, lawEval e w.a w.b d = ⟨w.a, w.b, false, false, 0⟩)
    ∧ (op = .ld → (ringAccess op w e x).word = w ∧ (ringAccess op w e x).alarm = 0)
    ∧ (op ≠ .ld → (ringAccess op w e x).word.t = if x.back then w.t else x.now)
    ∧ (op ≠ .ld → (ringAccess op w e x).word.law = w.law)
    ∧ (op = .disarm → (ringAccess op w e x).word.arm = false ∧ (ringAccess op w e x).alarm = 0)
    ∧ ((ringAccess op w e x).alarm ≠ 0 → (ringAccess op w e x).word.arm = true)

/-- R242, R243, R250 to R260: the RW instructions; RW.HDR; LAW.WR, held, which refuses an image that breaks one of R242's
conditions with its number; LAW.RD; CLK.ADV, which refuses clock 0 and is held; and CLK.RD, which gives FTS for clock 0
and a step clock with the chunk's own advances. -/
def Obligations.RingInstructions : Prop :=
  ∀ (k : Bool) (p : BitVec 4) (d a b : BitVec 5) (s : State),
    let f := s.focus
    let i := (f.gr a).toNat % 256
    let n := (f.gr a).toNat % 4
    RingDoes (.rwLd k p a) k .ld p a s ∧ RingDoes (.rwAdv k p a) k .adv p a s
    ∧ RingDoes (.rwSet k p a b) k (.set (f.gr b)) p a s ∧ RingDoes (.rwAdd k p a b) k (.add (f.gr b)) p a s
    ∧ RingDoes (.rwArm k p a) k .arm p a s ∧ RingDoes (.rwDisarm k p a) k .disarm p a s
    ∧ (∀ g q w e c, s.ringOpen f (f.gr a) false = .ok (g, q, w, e, c) →
        Does (.rwHdr k d a) s (((g.ringWrite q
          ({ w with t := if c.back then w.t else c.now, back := w.back || c.back, arm := false } : RingWord).bytes).landG d
          (BitVec.ofNat 64 (c.delta + w.law * 2 ^ 48 + if c.back then 2 ^ 56 else 0))).advance k))
    ∧ (∀ er, s.ringOpen f (f.gr a) false = .error er → exec (.rwHdr k d a) s = s.finish (.error er))
    ∧ (∀ g l, s.loadRange 8 4 f (f.gr b) 32 = .ok (g, l) →
        (lawBreaks i l = none → Does (.lawWr k a b) s ((g.hold (.lawWr i l)).advance k))
        ∧ (∀ j, lawBreaks i l = some j → Raises (.lawWr k a b) s .illop (BitVec.ofNat 64 i) (BitVec.ofNat 64 j)))
    ∧ (∀ g l, s.loadLaw f i = .ok (g, l) → Does (.lawRd k d a b) s ((g.landG d
        (BitVec.ofNat 64 (leNat ((l.drop (8 * ((f.gr b).toNat % 4))).take 8)))).advance k))
    ∧ (n = 0 → Raises (.clkAdv k a b) s .illop (f.gr a) 0)
    ∧ (n ≠ 0 → Does (.clkAdv k a b) s (((f.addRead (.clock f.firing.ctx n)).hold (.clkAdv n (f.gr b))).advance k))
    ∧ (n = 0 → GivesG (.clkRd k d a) k d s f.firing.fts)
    ∧ (n ≠ 0 → Does (.clkRd k d a) s (((f.addRead (.clock f.firing.ctx n)).writeG d (s.stepSeen f n)).advance k))
    ∧ ((∀ v, Held.clkAdv n v ∉ f.chunk.held) → s.stepSeen f n = s.myCtx.stepOf n)

/-- R157: VLAW: each active lane under KIND 1, or each pair of lanes whose even lane is active under KIND 2 and 3, is
evaluated over the Δ in g[b]; every other lane is kept. -/
def Obligations.VectorLawResults : Prop :=
  ∀ (k : Bool) (d a b : BitVec 5) (q : BitVec 3) (s : State),
    let f := s.focus
    let i := (f.gr a).toNat % 256
    let raw := (f.gr b).toNat % 2 ^ 48
    let dt := if raw < 2 ^ 47 then raw else 0
    (∀ g l, s.loadLaw f i = .ok (g, l) → let e := Law.ofBytes l
      (3 < e.kind → Raises (.vlaw k d a b q) s .rwfmt (s.myCtx.lawAddr i) 0)
      ∧ (e.kind ≤ 3 → ∃ (v : VReg) (fl : Word) (sat : Nat),
          Does (.vlaw k d a b q) s ((((g.landV d v).raiseLate fl).addHidden sat).advance k)
          ∧ (e.kind = 0 → v = f.vr d)
          ∧ ∀ j (h : j < 32), e.kind ≠ 0 → v[j] =
              if e.kind = 1 then (if activeLane s q j then (lawEval e (s.lane d j) 0 dt).a else s.lane d j)
              else if activeLane s q (j - j % 2) then
                (let r := lawEval e (s.lane d (j - j % 2)) (s.lane d (j - j % 2 + 1)) dt
                 if j % 2 = 0 then r.a else r.b)
              else s.lane d j))
    ∧ (∀ er, s.loadLaw f i = .error er → exec (.vlaw k d a b q) s = s.finish (.error er))

/-! ### Engine commands (R264, R266, R283 to R289, R302 to R309) -/

/-- R283 to R289, R302, R303: the matrix unit: MX.WR holds a legal value and refuses another, a write to EG14 to EG31 among
them, whose INFO words, the number and the value, are log entry 47 (DEDUCED: R285 does not give them); MX.RD gives the register
as the chunk sees it, at once, and zero from EG14; the four job commands; the shape a job may have; MX.POLL gives the
live state word, 0 for a job the chunk still holds and 7 for a number no released job has; MX.SLP waits until the state is 4 to 7;
MX.CAN is held. -/
def Obligations.MatrixUnitCommands : Prop :=
  ∀ (k : Bool) (d a b : BitVec 5) (s : State),
    let f := s.focus
    let n := (f.gr a).toNat % 32
    let id := (f.gr a).toNat % 2 ^ 16
    let held := ∃ j, Held.job j ∈ f.chunk.held ∧ j.engine = .matrix ∧ j.id = id
    let job := s.findJob .matrix f.firing.ctx f.firing.lc id
    let state := match job with
      | some j => BitVec.ofNat 64 (j.st % 8 + (j.err % 2 ^ 8) * 2 ^ 8 + (if j.nanm then 2 ^ 16 else 0)
          + (min j.oor (2 ^ 32 - 1)) * 2 ^ 32)
      | none => 7#64
    let eg := s.egSeen f
    let shape := (eg 1).toNat
    let okShape := 1 ≤ shape % 256 ∧ shape % 256 ≤ 128 ∧ 1 ≤ shape / 2 ^ 8 % 256 ∧ shape / 2 ^ 8 % 256 ≤ 128
      ∧ 1 ≤ shape / 2 ^ 16 % 512 ∧ shape / 2 ^ 16 % 512 ≤ if (eg 0).toNat / 2 ^ 12 % 4 = 1 then 256 else 128
    (egBad n (f.gr b) = true → Raises (.mxWr k a b) s .illop (BitVec.ofNat 64 n) (f.gr b))
    ∧ (egBad n (f.gr b) = false → Does (.mxWr k a b) s ((f.hold (.egWr n (f.gr b))).advance k))
    ∧ (n < 14 → Does (.mxRd k a d) s (((f.addRead (.eg f.firing.ctx f.firing.lc n)).writeG d (eg n)).advance k))
    ∧ (14 ≤ n → GivesG (.mxRd k a d) k d s 0)
    ∧ (∀ v, s.egSeen (f.hold (.egWr n v)) n = v)
    ∧ JobForm (.mxLs k a d) k 2 d a s ∧ JobForm (.mxStr k a d) k 3 d a s
    ∧ JobForm (.mxDrn k a d) k 4 d a s ∧ JobForm (.mxZer k a d) k 5 d a s
    ∧ (¬ okShape → ∀ op, op = 2 ∨ op = 3 → abFmtOk ((eg 0).toNat % 32) = true → abFmtOk ((eg 0).toNat / 32 % 32) = true →
        jobFmtCheck op eg = .error (.exc .illop 1 (eg 1) 0))
    ∧ (held → GivesLate (.mxPoll k a d) k d s 0 ∧ Raises (.mxSlp k a d) s .illop (f.gr a) 0)
    ∧ (¬ held → GivesLate (.mxPoll k a d) k d s state)
    ∧ (¬ held → state.toNat % 8 < 4 → Does (.mxSlp k a d) s { f with wait := .job id })
    ∧ (¬ held → 4 ≤ state.toNat % 8 → GivesLate (.mxSlp k a d) k d s state)
    ∧ Does (.mxCan k a) s ((f.hold (.mxCan id)).advance k)

/-- R264, R266, R304 to R306, R309: the copy unit: a request whose 64-byte block passes its checks is held with the block
and the object records, and counts as an SR command where it converts in that mode; while eight released requests of the core
wait, CP.PUSH waits and CP.TRY answers 1 and holds nothing, what it has read staying in the read set, else CP.TRY answers 0; REGRAN in a user firing raises PRIV before any other fault
of the request (R60), and a tag word with reserved bits ILLOP; CP.POLL is
live, and CP.CAN is held. -/
def Obligations.CopyUnitCommands : Prop :=
  ∀ (k : Bool) (d a b : BitVec 5) (s : State),
    let f := s.focus
    let tf := f.gr b
    let req := s.copyRequest f (f.gr a) tf
    let waiting := (s.jobs.filter fun j => decide (j.engine = .copy) && decide (j.pcore = f.core) && decide (j.st = 1)).length
    let id := (f.gr a).toNat % 2 ^ 16
    let both := fun c i1 => Raises (.cpPush k a b) s c (f.gr a) i1 ∧ Raises (.cpTry k a b d) s c (f.gr a) i1
    (∀ e, tf.toNat / 2 ^ 17 ≠ 0 → s.loadBytes f (f.gr a) 64 64 .load = .error e → both .illop 0)
    ∧ (∀ g l, s.loadBytes f (f.gr a) 64 64 .load = .ok (g, l) →
        let regran := leNat (l.take 8) % 16 = 6
        (regran → f.firing.ctx ≠ 0 → both .priv 0)
        ∧ (¬ regran ∨ f.firing.ctx = 0 → tf.toNat / 2 ^ 17 ≠ 0 → both .illop 0)
        ∧ (∀ n, ¬ regran ∨ f.firing.ctx = 0 → tf.toNat / 2 ^ 17 = 0 → cpIllegal l = some n → both .illop (BitVec.ofNat 64 n)))
    ∧ (∀ g j sr, req = .ok (g, j, sr) → waiting < 8 →
        let h := g.hold (.job j)
        let put : Slot := if sr then { h with reg := { h.reg with srecnt := h.reg.srecnt + 1 } } else h
        Does (.cpPush k a b) s (put.advance k) ∧ Does (.cpTry k a b d) s ((put.landG d 0).advance k)
        ∧ g.chunk.held = f.chunk.held ∧ g.reg = f.reg ∧ g.land = f.land ∧ g.chunk.wbuf = f.chunk.wbuf
        ∧ j.engine = .copy ∧ j.id = tf.toNat % 2 ^ 16 ∧ j.ctx = f.firing.ctx ∧ j.lc = f.firing.lc ∧ j.fid = f.firing.fid
        ∧ (sr = true → leNat (j.block.take 8) % 16 = 4))
    ∧ (∀ g j sr, req = .ok (g, j, sr) → 8 ≤ waiting →
        Does (.cpPush k a b) s { f with wait := .room } ∧ Does (.cpTry k a b d) s ((g.landG d 1).advance k))
    ∧ (∀ e, req = .error e → exec (.cpPush k a b) s = s.finish (.error e) ∧ exec (.cpTry k a b d) s = s.finish (.error e))
    ∧ GivesLate (.cpPoll k a d) k d s (match s.findJob .copy f.firing.ctx f.firing.lc id with
        | some j => BitVec.ofNat 64 (j.st % 8 + (j.err % 2 ^ 8) * 2 ^ 8 + (if j.nanm then 2 ^ 16 else 0)
            + (min j.bytes (2 ^ 32 - 1)) * 2 ^ 32)
        | none => 7)
    ∧ Does (.cpCan k a) s ((f.hold (.cpCan id)).advance k)

/-! ### Barriers and reduction groups (R195, R269, R310, R349, R350) -/

/-- R195, R269, R310, R349, R350: the barrier instructions: a barrier above 71, and an arrival or a wait on one whose
count is zero, raise ILLOP; the arrive forms close the chunk; BAR.WAIT passes where the phase differs from that of the
firing's last arrival, else of its first issue, and waits where it does not, or where the package that holds the barrier has not
yet counted that arrival (R421); the order of BAR.AF's checks, its channel before PART, is the model's choice (log entry 117); BAR.CFG is held; BAR.RD is live. RED.CFG is held where
its images are legal and its logical cores are defined; RED.RD gives the configuration, conflict-checked, or the live counts. -/
def Obligations.BarrierAndReductionInstructions : Prop :=
  ∀ (k : Bool) (d a b : BitVec 5) (s : State),
    let f := s.focus
    let x := f.gr a
    let y := f.gr b
    let id := x.toNat % 128
    let bar := s.myCtx.barOf (if id < 32 then f.firing.lc / 8 else 0) id
    let part := s.partSeen f id
    let g := f.addRead (.part f.firing.ctx (if id < 32 then f.firing.lc / 8 else 0) id)
    let recorded := f.firing.phaseOf id
    let uncounted := ∃ n, (id, n) ∈ f.firing.farArr
    let grp := s.myCtx.redOf (x.toNat % 64)
    let w := x.toNat / 64 % 4
    let off := x.toNat / 2 ^ 29 % 2 = 1
    let cross := y.toNat / 2 ^ 44 % 2 = 1
    let redBad := x.toNat / 2 ^ 30 ≠ 0 ∨ (¬ off ∧ (y.toNat / 2 ^ 45 ≠ 0 ∨ 62 ≤ x.toNat / 2 ^ 11 % 64
      ∨ (cross ∧ 63 < y.toNat / 2 ^ 32 % 64 + y.toNat / 2 ^ 38 % 64) ∨ (¬ cross ∧ y.toNat / 2 ^ 32 % 2 ^ 12 ≠ 0)
      ∨ rectBad y = true))
    let rootHere := ¬ cross ∨ y.toNat / 2 ^ 32 % 64 = Config.ownPackage.val
    let redUndef := ¬ off ∧ ((rootHere ∧ s.myCtx.defines (x.toNat / 2 ^ 17 % 2 ^ 12) = false)
      ∨ ∀ l ∈ s.myCtx.lcores, l.valid = true → inRect y l.n = false)
    (71 < id → Raises (.barCfg k a b) s .illop x 0 ∧ Raises (.barArr k a) s .illop x 0 ∧ Raises (.barAw k a) s .illop x 0
      ∧ Raises (.barAf k a b) s .illop x 0 ∧ Raises (.barWait k a) s .illop x 0 ∧ Raises (.barRd k a d) s .illop x 0)
    ∧ (id ≤ 71 → Does (.barCfg k a b) s ((f.hold (.barCfg id (y.toNat % 2 ^ 16))).advance k)
      ∧ GivesLate (.barRd k a d) k d s
        (BitVec.ofNat 64 (bar.part % 2 ^ 16 + (bar.arr % 2 ^ 16) * 2 ^ 16 + (if bar.phase then 2 ^ 32 else 0))))
    ∧ (id ≤ 71 → part = 0 → Raises (.barArr k a) s .illop (BitVec.ofNat 64 id) 0
      ∧ Raises (.barAw k a) s .illop (BitVec.ofNat 64 id) 0 ∧ Raises (.barWait k a) s .illop (BitVec.ofNat 64 id) 0
      ∧ (y.toNat % 64 < 62 → Raises (.barAf k a b) s .illop (BitVec.ofNat 64 id) 0))
    ∧ (id ≤ 71 → 62 ≤ y.toNat % 64 → Raises (.barAf k a b) s .illop y 0)
    ∧ (id ≤ 71 → part ≠ 0 → ClosesFrom (.barArr k a) g (.arrive id false none) s
      ∧ ClosesFrom (.barAw k a) g (.arrive id true none) s
      ∧ (y.toNat % 64 < 62 → ClosesFrom (.barAf k a b) g (.arrive id false (some y)) s))
    ∧ (id ≤ 71 → part ≠ 0 → ∀ ph, recorded = some ph →
        (ph ≠ bar.phase → ¬ uncounted → Does (.barWait k a) s (g.advance k))
        ∧ (ph = bar.phase ∨ uncounted → Does (.barWait k a) s { g with wait := .barrier id ph }))
    ∧ (id ≤ 71 → part ≠ 0 → recorded = none → Does (.barWait k a) s
        { g with firing := { f.firing with waits := (id, bar.phase) :: f.firing.waits }, wait := .barrier id bar.phase })
    ∧ (redBad → Raises (.redCfg k a b) s .illop x y)
    ∧ (¬ redBad → redUndef → Raises (.redCfg k a b) s .bounds x 0)
    ∧ (¬ redBad → ¬ redUndef → Does (.redCfg k a b) s ((f.hold (.redCfg x y)).advance k))
    ∧ (w < 2 → Does (.redRd k a d) s (((f.addRead (.red f.firing.ctx (x.toNat % 64))).landG d
        (if w = 0 then grp.cfgA else grp.cfgB)).advance k))
    ∧ (w = 2 → GivesLate (.redRd k a d) k d s (BitVec.ofNat 64 (grp.rounds % 2 ^ 32
        + ((grp.got.filter fun c => c.1 = grp.rounds).length % 2 ^ 16) * 2 ^ 32 + (min grp.disc (2 ^ 16 - 1)) * 2 ^ 48)))
    ∧ (w = 3 → GivesLate (.redRd k a d) k d s 0)

/-! ### The hurdle unit (R311 to R318, R325, R332) -/

/-- R311 to R318, R325, R332: the hurdle unit on the sets of the firing's logical cluster: HS.WR holds a legal value that
a live set does not refuse (its CTL keeps NST, ORDEXIT, DSEND, TEST and HEATLEN, its EXIT and stage registers but BASEs stay), and enables a set only where the checks of R316 pass, with the check's number and stage as
INFO1 and INFO2; HS.RD gives a register as the chunk sees it; an entry needs an enabled set and an aligned address, takes
56 bytes from 8 behind it, and answers the record's number, while a full buffer makes HS.ENT wait and HS.TRY answer all
ones; a verdict needs a stage firing without one, and HS.PASS a mask inside the stage's write-back mask; HS.STAT is live. -/
def Obligations.HurdleInstructions : Prop :=
  ∀ (k : Bool) (d a b : BitVec 5) (s : State),
    let f := s.focus
    let x := f.gr a
    let y := f.gr b
    let set := x.toNat % 4
    let reg := x.toNat / 4 % 64
    let router := s.myCtx.hurdle (f.firing.lc / 8)
    let loc := fun r => Loc.hs f.firing.ctx (f.firing.lc / 8) set r
    let old := s.hsSeen f set 0
    let legal := reg ≠ 3 ∧ reg < 36 ∧ hsValueBad reg y = false
    let refused := (old.toNat % 2 = 1 ∨ router.recs.any (fun z => decide (z.set = set)) = true)
      ∧ (if reg = 0 then (old ^^^ y) &&& 0x1FFFF00EE ≠ 0 else reg = 1 ∨ (4 ≤ reg ∧ reg % 4 ≠ 3))
    let enables := reg = 0 ∧ y.toNat % 2 = 1 ∧ old.toNat % 2 = 0
    let chk := s.enableCheck f set y
    let gave := gaveVerdict f
    let mask := y &&& 0xFFFFFFFFFFFFFF
    (¬ legal → Raises (.hsWr k a b) s .illop x y)
    ∧ (legal → refused → Raises (.hsWr k a b) s .illop 0 0)
    ∧ (legal → ¬ refused → ¬ enables → Does (.hsWr k a b) s (((f.addRead (loc 0)).hold (.hsWr x y)).advance k))
    ∧ (legal → ¬ refused → enables → chk.1 = none →
        Does (.hsWr k a b) s (((chk.2.foldl Slot.addRead (f.addRead (loc 0))).hold (.hsWr x y)).advance k))
    ∧ (legal → ¬ refused → enables → ∀ n st, chk.1 = some (n, st) → exec (.hsWr k a b) s =
        .next (s.takeException .illop f.reg.pc (BitVec.ofNat 64 set) (BitVec.ofNat 64 n) (BitVec.ofNat 64 st)))
    ∧ (reg ≠ 3 → reg < 36 → Does (.hsRd k a d) s (((f.addRead (loc reg)).writeG d (s.hsSeen f set reg)).advance k))
    ∧ (reg = 3 ∨ 36 ≤ reg → GivesG (.hsRd k a d) k d s 0)
    ∧ (old.toNat % 2 = 0 → Raises (.hsEnt k a b d) s .illop x 0 ∧ Raises (.hsTry k a b d) s .illop x 0)
    ∧ (old.toNat % 2 = 1 → y.toNat % 8 ≠ 0 → Raises (.hsEnt k a b d) s .misalign y 0 ∧ Raises (.hsTry k a b d) s .misalign y 0)
    ∧ (old.toNat % 2 = 1 → y.toNat % 8 = 0 → ∀ g l, s.loadRange 8 8 (f.addRead (loc 0)) (y + 8) 56 = .ok (g, l) →
        let count := lookupD s.myLc.hsCount set 0 + (f.chunk.held.filter fun h => match h with
          | .hsEnt j _ _ => decide (j = set)
          | _ => false).length
        let rid := (f.firing.lc % 8) * 2 ^ 29 + count % 2 ^ 29
        let ent := ((((g.addRead (.counter f.firing.ctx f.firing.lc (1 + set))).hold (.hsEnt set rid l)).landG d
          (BitVec.ofNat 64 rid)).advance k)
        (router.recs.length < 2048 → Does (.hsEnt k a b d) s ent ∧ Does (.hsTry k a b d) s ent)
        ∧ (2048 ≤ router.recs.length → Does (.hsTry k a b d) s ((g.landG d (BitVec.allOnes 64)).advance k)
          ∧ ∃ t : Slot, Does (.hsEnt k a b d) s t ∧ t.wait = .room ∧ t.reg = f.reg ∧ t.chunk.held = f.chunk.held))
    ∧ (f.firing.stage = none → Raises (.hsPass k a b) s .illop 0 0 ∧ Raises (.hsDrop k) s .illop 0 0)
    ∧ (f.firing.stage ≠ none → gave → Raises (.hsPass k a b) s .illop 1 0 ∧ Raises (.hsDrop k) s .illop 1 0)
    ∧ (∀ t, f.firing.stage = some t → ¬ gave →
        let wr := (s.myCtx.hurdle t.1).reg t.2.1 (6 + 4 * t.2.2.1)
        Does (.hsDrop k) s ((f.hold (.hsVerdict false 0 [])).advance k)
        ∧ (mask &&& ~~~ wr ≠ 0 → Raises (.hsPass k a b) s .illop y 0)
        ∧ (mask &&& ~~~ wr = 0 → ∃ l, Does (.hsPass k a b) s ((f.hold (.hsVerdict true mask l)).advance k)
          ∧ l.length = 56 ∧ ∀ j, j < 56 → l.getD j 0 = (s.lane (x.extractLsb' 0 5) (2 + j / 4)).extractLsb' (8 * (j % 4)) 8))
    ∧ GivesLate (.hsStat k a b d) k d s (router.statWord set (x.toNat / 4 % 8) (y.toNat % 16))

/-! ### Privileged instructions (R60, R276 to R280, R398 to R401, R407) -/

/-- R60, R276 to R280, R398 to R401, R407: in a user firing a privileged instruction raises PRIV whatever its operands
hold; in a firing of context 0 it is held to the commit, or raises ILLOP where its operands are refused; TLB.RD reads the
cluster's entry that covers an address, or the epoch. The byte of M that a placement command reads of a descriptor lies where log
entry 11 (DESIGN CHOICE) puts the descriptor. -/
def Obligations.PrivilegedInstructions : Prop :=
  ∀ (k : Bool) (d a b : BitVec 5) (s : State),
    let f := s.focus
    let x := f.gr a
    let y := f.gr b
    let cl := s.clusterOf (clusterIdOf f.core)
    let state := s.stateSeen f (x.toNat % 256)
    let desc := (f.addRead (.desc (x.toNat % 256))).addRead (.byte (descKey (x.toNat % 256)))
    let tlbBad := x.toNat / 2 ^ 9 % 128 ≠ 0 ∨ x.toNat / 2 ^ 47 ≠ 0 ∨ y.toNat / 8 % 4 = 3 ∨ y.toNat / 2 ^ 11 % 32 ≠ 0
      ∨ y.toNat / 2 ^ 50 ≠ 0 ∨ (x.toNat / 2 ^ 8 % 2 = 1 ∧ (x.toNat / 2 ^ 16 % 32 ≠ 0 ∨ y.toNat / 2 ^ 16 % 32 ≠ 0))
    let hit := tlbFind cl.tlb (x.toNat / 2 ^ 56) (BitVec.ofNat 64 (x.toNat % 2 ^ 47))
    let rplyBad := y.toNat % 4 = 3 ∨ 34 < x.toNat % 64
    let migBad := x.toNat / 2 ^ 20 ≠ 0 ∨ y.toNat / 2 ^ 13 % 32 ≠ 0 ∨ y.toNat / 2 ^ 24 ≠ 0 ∨ 62 ≤ y.toNat / 2 ^ 18 % 64
      ∨ state ≠ 1 ∨ (s.ctxOf (x.toNat % 256)).defines (x.toNat / 2 ^ 8 % 2 ^ 12) = false
    let stopBad := x.toNat / 2 ^ 14 ≠ 0 ∨ 62 ≤ x.toNat / 2 ^ 8 % 64 ∨ x.toNat % 256 = 0 ∨ (state ≠ 1 ∧ state ≠ 3)
    let goBad := x.toNat / 2 ^ 14 ≠ 0 ∨ y.toNat % 2 ^ 13 ≠ 0 ∨ (state = 3 ∧ y ≠ 0) ∨ (state = 2 ∧ y = 0) ∨ state = 0 ∨ state = 1
    let rectBad := x.toNat / 2 ^ 7 ≠ 0 ∨ y.toNat / 2 ^ 10 ≠ 0 ∨ y.toNat / 8 % 8 < y.toNat % 8
      ∨ y.toNat / 2 ^ 8 % 4 < y.toNat / 2 ^ 6 % 4
    (f.firing.ctx ≠ 0 →
      Raises (.tlbWr k a b) s .priv 0 0 ∧ Raises (.tlbInv k a b) s .priv 0 0 ∧ Raises (.tlbRd k d a b) s .priv 0 0
      ∧ Raises (.fltRply k a b) s .priv 0 0 ∧ Raises (.rectSet k a b) s .priv 0 0 ∧ Raises (.migGo k a b) s .priv 0 0
      ∧ Raises (.ctxStop k a) s .priv 0 0 ∧ Raises (.ctxGo k a b) s .priv 0 0)
    ∧ (f.firing.ctx = 0 →
      (tlbBad → Raises (.tlbWr k a b) s .illop x y)
      ∧ (¬ tlbBad → Does (.tlbWr k a b) s (((f.addRead (.epoch (clusterIdOf f.core))).hold (.sys 32 x y)).advance k))
      ∧ (x.toNat / 2 ^ 11 ≠ 0 → Raises (.tlbInv k a b) s .illop x 0)
      ∧ (x.toNat / 2 ^ 11 = 0 → Does (.tlbInv k a b) s ((f.hold (.sys 33 x y)).advance k))
      ∧ (y.toNat / 2 % 2 = 1 → Does (.tlbRd k d a b) s (((f.addRead (.epoch cl.id)).landG d cl.epoch).advance k))
      ∧ (y.toNat / 2 % 2 = 0 → hit = none → GivesLate (.tlbRd k d a b) k d s 0)
      ∧ (∀ e, y.toNat / 2 % 2 = 0 → hit = some e →
          GivesLate (.tlbRd k d a b) k d s (if y.toNat % 2 = 1 then e.b else e.a ||| 0x8000000000000000))
      ∧ (rplyBad → Raises (.fltRply k a b) s .illop x y)
      ∧ (¬ rplyBad → Does (.fltRply k a b) s ((f.hold (.sys 35 x y)).advance k))
      ∧ (migBad → Raises (.migGo k a b) s .illop x y)
      ∧ (¬ migBad → Does (.migGo k a b) s ((desc.hold (.sys 37 x y)).advance k))
      ∧ (stopBad → Raises (.ctxStop k a) s .illop x 0)
      ∧ (¬ stopBad → Does (.ctxStop k a) s ((desc.hold (.sys 38 x 0)).advance k))
      ∧ (goBad → Raises (.ctxGo k a b) s .illop x y)
      ∧ (¬ goBad → Does (.ctxGo k a b) s ((desc.hold (.sys 39 x y)).advance k))
      ∧ (rectBad → Raises (.rectSet k a b) s .illop x y)
      ∧ (¬ rectBad → (∀ i, i < 32 → rectWhole ({ s with rects := rectApply (s.rectsSeen f) x y } : State).rectOf
            (x.toNat % 4) i = true) →
          s.rectMeetsFence ({ s with rects := s.rectsSeen f } : State).rectOf x y = false →
          ∃ g : Slot, Does (.rectSet k a b) s ((g.hold (.sys 36 x y)).advance k) ∧ g.reg = f.reg ∧ g.land = f.land
            ∧ g.chunk.wbuf = f.chunk.wbuf ∧ g.chunk.held = f.chunk.held))

/-! ### The machine's own steps: firings, slots and chunks -/

/-- R62, R65, R69, R119, R160, R170, R171, R181, R185, R200, R232, R271: ONCE and ABORT, and the steps that create,
dispatch, age, swap out, close, squash and wake: a created firing reserves its messages and takes the entry's SEQ; a
dispatched one holds the slot with the registers of R62, the payload of its first message in v0, or those it resumes from; a firing that has waited 65,536
cycles moves up one level; a swapped-out logical core runs in no slot; a chunk at its limit closes at its last group boundary; a
squashed one starts again from its checkpoint, one that exclusive commit protects is not squashed while it can commit; the
first queued chunk that exclusive commit may be granted to takes it, and an ordered one loses it with MINKEY; a chunk that ABORT parked
restarts after 65,536 cycles; and a posting reaches its member. That a queued chunk is not squashed while it can commit, and that a
lapsed grant queues again at the end, rest on log entry 70 (DEDUCED). -/
def Obligations.FiringAndChunkSteps : Prop :=
  ∀ (core k ctx lc ch n : Nat) (mark : Bool) (a : BitVec 5) (s : State),
    let f := s.focus
    let c := s.ctxOf ctx
    let l := c.lcOf lc
    let e := l.ttOf ch
    Does .once s { f with
      reg := { f.reg with pc := f.reg.pc + 4, onceArmed := true
                          onceOrd := if f.firing.isGang then f.reg.onceOrd + 1 else f.reg.onceOrd }
      glen := f.glen + 1, chunk := { f.chunk with ninstr := f.chunk.ninstr + 1 }, wait := .none, zeros := [], hosts := [], filled := [] }
    ∧ ((f.gr a).toNat % 2 = 1 → f.active = true → f.firing.copy = 0 → Leads (.abort mark a) s fun t =>
        t.focus = { core := f.core, k := f.k } ∧ t.mem = s.mem ∧ t.host = s.host
        ∧ (t.ctxOf f.firing.ctx).digest = (s.ctxOf f.firing.ctx).digest + mix64 (mix64 f.firing.fid ^^^ f.firing.digest))
    ∧ ((f.gr a).toNat % 2 = 0 → f.firing.dual = false → Leads (.abort mark a) s fun t => t = s.withFocus t.focus ∧ t.focus.chunk = {}
        ∧ t.focus.reg = f.ckpt ∧ t.focus.firing = f.firing ∧ t.focus.squashes = f.squashes
        ∧ t.focus.wait = if f.chunk.doomed then f.gate else .watch f.chunk.rset s.cycle)
    ∧ (c.mayCreate lc ch = true → e.join = false → Leads (.firingCreate ctx lc ch) s fun t =>
        t.ready.length = s.ready.length + (if e.gang then 8 else 1)
        ∧ (∀ x, x ∈ t.ready → x ∉ s.ready → x.ctx = ctx ∧ x.ch = ch ∧ x.seq = e.seq ∧ x.home = lc ∧ x.np = e.rate + 1
          ∧ x.prim = e.refs ch (e.rate + 1))
        ∧ ((t.lcOf ctx lc).ttOf ch).seq = (e.seq + 1) % 2 ^ 32
        ∧ ((t.lcOf ctx lc).ttOf ch).waiting = e.waiting - (e.rate + 1) ∧ t.mem = s.mem)
    ∧ (∀ x, s.bestReady core = some x → s.slotFree core k = true → x.dual = false → Leads (.firingDispatch core k) s fun t =>
        t.ready = s.ready.erase x ∧ t.mem = s.mem ∧ ∃ g, t.slotAt core k = some g ∧ g.chunk = {} ∧ g.ckpt = g.reg
        ∧ g.firing.ctx = x.ctx ∧ g.firing.lc = x.lc ∧ g.firing.fid = x.fid
        ∧ g.wait = x.gate
        ∧ g.firing.fts = (if x.started = true ∨ x.ordered = true then x.fts else BitVec.ofNat 64 s.ticks)
        ∧ (∀ r, x.resume = some r → g.reg = r)
        ∧ (x.resume = none →
          g.reg.pc = (if x.ch = 63 then x.entry else ((s.lcOf x.ctx x.lc).ttOf x.ch).entry)
          ∧ g.gr 1 = BitVec.ofNat 64 x.np ∧ g.gr 2 = BitVec.ofNat 64 x.ch
          ∧ g.gr 30 = BitVec.ofNat 64 (0xFFFF0000000000 + (s.lcOf x.ctx x.lc).lsz - 4096 * k)
          ∧ (∀ r, r ≠ 1 → r ≠ 2 → r ≠ 30 → g.gr r = 0) ∧ (∀ r, r ≠ 0 → g.vr r = Vector.replicate 32 0)
          ∧ (∀ r, r ≠ 0 → g.mr r = 0)
          ∧ (∀ m j (h : j < 32), x.prim.head? = some m → (g.vr 0)[j] = if j < 16 then BitVec.ofNat 32 (leNat (cellReadList s.mem
              (scratchKey x.ctx (if x.isGang then 8 * (x.lc / 8) else x.lc) (m.off + 16 + 4 * j)) 4)) else 0)
          ∧ g.reg.flags = 0 ∧ g.reg.frm = 0 ∧ g.reg.srcnt = 0 ∧ g.reg.ctxsel = 0))
    ∧ (∀ x, s.ready[n]? = some x → x.prio ≠ 0 → x.movedAt + 65536 ≤ s.cycle → (s.lcOf x.ctx x.lc).valid = true →
        (s.lcOf x.ctx x.lc).out = false → Leads (.firingAging n) s fun t =>
        t = { s with ready := t.ready } ∧ t.ready.length = s.ready.length
        ∧ t.ready[n]? = some { x with prio := x.prio - 1, movedAt := s.cycle }
        ∧ ∀ j, j ≠ n → t.ready[j]? = s.ready[j]?)
    ∧ (c.runs = true → l.valid = true → l.moving = false → l.stopOut = false → l.out = false → s.busy ctx (some lc) = false →
        Leads (.timeSliceEnd ctx lc) s fun t => (t.lcOf ctx lc).out = true ∧ t.mem = s.mem
          ∧ ∀ g ∈ t.slots, g.active = true → ¬ (g.firing.ctx = ctx ∧ g.firing.lc = lc))
    ∧ (∀ g, s.slotAt core k = some g → g.chunk.closed = none → g.glen = 0 → s.limitCloses g = true →
        Leads (.chunkClose core k) s fun t => ∃ h, t.slotAt core k = some h ∧ h.chunk.closed = some .boundary
          ∧ h.reg = g.start ∧ h.firing = g.firing ∧ h.chunk.wbuf = g.startChunk.wbuf)
    ∧ (∀ g, s.slotAt core k = some g → g.firing.dual = false →
        (s.excl = some (core, k) ∨ (core, k) ∈ s.exclQ → g.chunk.doomed = true) →
        Leads (.chunkSquash core k) s fun t => t.mem = s.mem ∧ t.net = s.net ∧ ∃ h, t.slotAt core k = some h
          ∧ h.chunk = {} ∧ h.reg = g.ckpt ∧ h.firing = g.firing ∧ h.squashes = g.squashes + 1
          ∧ h.wait = if g.opening = true then g.wait else .none)
    ∧ (∀ g, s.slotAt core k = some g → s.excl = some (core, k) ∨ (core, k) ∈ s.exclQ → g.chunk.doomed = false →
        exec (.chunkSquash core k) s = .next s)
    ∧ (∀ (p : Nat × Nat) (pre post : List (Nat × Nat)) (g : Slot), s.excl = none → s.exclQ = pre ++ p :: post →
        (∀ q ∈ pre, ∀ h, s.slotAt q.1 q.2 = some h → h.firing.ordered = true ∧ s.atMin h.firing = false) →
        s.slotAt p.1 p.2 = some g → (g.firing.ordered = true → s.atMin g.firing = true) →
        exec .exclusiveCommitGrant s = .next { s with excl := some p, exclQ := pre ++ post })
    ∧ (∀ g, s.excl = some (core, k) → s.slotAt core k = some g → g.firing.ordered = true → s.atMin g.firing = false →
        Leads .exclusiveCommitGrant s fun t => t.excl ≠ some (core, k) ∧ (core, k) ∈ t.exclQ ∧ t.mem = s.mem)
    ∧ (∀ g set since, s.slotAt core k = some g → g.wait = .watch set since → since + 65536 ≤ s.cycle →
        Leads (.abortWaitTimeout core k) s fun t => t.slotAt core k = some { g with wait := .none } ∧ t.mem = s.mem)
    ∧ (∀ g p, s.slotAt core k = some g → (s.onceQ.find? fun p => p.to g.firing) = some p →
        Leads (.oncePosting core k) s fun t => t.onceQ = s.onceQ.erase p ∧ ∃ h, t.slotAt core k = some h ∧ h.reg = g.reg
          ∧ h.chunk = g.chunk ∧ (p.n, p.word, p.res) ∈ h.firing.postings)

/-- R180, R182, R184, R185, R188, R379: a chunk that holds stores alone, none to the tables of firmware (log entry 11), and may commit, of a firing that is not dual, serialised
or under VERIFY or RECORD: M takes its bytes, at once and whole; every byte of a block of 512 in which it writes none, and host memory, stay, and
where it writes every sector of DRAM whole every other byte stays, as no fill (R379) comes before it; another slot
whose read set meets them can no longer commit; the firing goes on with a new chunk from the registers it had, or, at
FIN, the slot is freed. -/
def Obligations.CommitOfStores : Prop :=
  ∀ (s : State) (kind : EndKind),
    let f := s.focus
    let x := f.firing
    let w := f.chunk.wbuf
    s.mayCommit = true → s.slotAt f.core f.k = some f → f.chunk.closed = some kind → kind = .commit ∨ kind = .boundary ∨ kind = .fin →
    f.chunk.held = [] → x.dual = false → x.copy = 0 → x.serial = false → x.stage = none → (s.ctxOf x.ctx).dgMode = 0 →
    s.moves = [] → Memory.wf s.mem = true → (w.map fun c => c.1).Pairwise (· < ·) → (∀ c ∈ w, frameAbsent c.1 = false) →
    (∀ c ∈ w, c.1 < 2 ^ 39 ∨ isDeviceKey c.1 = false) →
      Leads (.chunkCommit f.core f.k) s fun t =>
        (∀ j b, bufRead w j = some b → cellRead t.mem j = b)
        ∧ (∀ j, (∀ c ∈ w, j / 512 ≠ c.1 / 512) → cellRead t.mem j = cellRead s.mem j)
        ∧ ((∀ q ∈ writtenSectors (w.map fun c => c.1), q.2 = true) →
            ∀ j, cellRead t.mem j = (bufRead w j).getD (cellRead s.mem j))
        ∧ t.host = s.host
        ∧ t.log.length = s.log.length + 1
        ∧ (∀ h ∈ s.others, h.active = true → (h.core ≠ f.core ∨ h.k ≠ f.k) → h.firing.dual = false →
            (∃ c ∈ w, Loc.byte c.1 ∈ h.chunk.rset) →
            ∃ h' ∈ t.others, h'.core = h.core ∧ h'.k = h.k ∧ h'.chunk.doomed = true)
        ∧ (kind ≠ .fin → ∃ g, t.slotAt f.core f.k = some g ∧ g.chunk = {} ∧ g.reg = f.reg ∧ g.ckpt = f.reg
          ∧ g.squashes = 0 ∧ g.firing.fid = x.fid ∧ g.firing.committed = true
          ∧ g.firing.digest = mix64 (x.digest ^^^ s.effectHash f))
        ∧ (kind = .fin → t.focus = { core := f.core, k := f.k })

/-! ### The machine's own steps: messages -/

/-- R79, R80, R168, R169, R179, R186, R197, R224, R280, R345, R351, R350, R352, R358, R395, R397, R409: the steps of messages: a message that nothing
keeps back and whose FIFO has room is written into its slot, byte for byte, and queued; one whose FIFO is full stays; a
reply restarts the suspended firing it names, from the block as M holds it and at its entry's PRIO, or ends or halts it; inbox messages are delivered, retried and, after 64 failures,
refused; a mailbox reply wakes its slot, makes its access read zero or raises PAGE; the host's messages join the others;
a complete round of a reduction is folded and sent to its root, and counts as delivered when its result is; a sweep never lowers GVT; and flush markers free relay entries. -/
def Obligations.MessageSteps : Prop :=
  ∀ (i core router ctx lc grp : Nat) (o : OutsideMsg) (s : State),
    let c := s.ctxOf ctx
    let l := c.lcOf lc
    (∀ m, s.net[i]? = some m →
      let e := (s.lcOf m.ctx m.dst).ttOf m.ch
      let key := s.slotKey m
      let queued := fun (t : State) => ((t.lcOf m.ctx m.dst).ttOf m.ch).q = e.q ++ [⟨.queued, m⟩]
        ∧ slotHolds m (fun j => cellRead t.mem (key + j))
        ∧ ∀ j, j < key ∨ key + 128 ≤ j → cellRead t.mem j = cellRead s.mem j
      let free := s.freeToWrite key 128
      let csa := BitVec.ofNat 64 (leNat (m.payload.take 8))
      let u := s.readSpan (clusterIdOf (s.lcOf m.ctx m.dst).pcore) m.ctx csa 4480
      let rest := dropAt s.net i
      (m.kind = .send → m.isReply = false → s.mayDeliver i m → s.fate m = .write → free → m.payload.length ≤ 64 →
        Memory.wf s.mem = true → Leads (.messageDeliver i) s fun t => t.net = rest ∧ t.host = s.host ∧ queued t)
      ∧ (m.kind = .send → m.isReply = false → s.mayDeliver i m → s.fate m = .wait → exec (.messageDeliver i) s = .next s)
      ∧ (m.isReply = true → s.mayDeliver i m → ∀ x, s.suspOf m.ctx m.dst csa = some x →
          (∀ b, leNat ((m.payload.drop 8).take 1) = 1 → u.readBlock m.ctx csa = some b → Leads (.trapReply i) s fun t =>
            t.net = rest ∧ t.mem = u.mem ∧ x ∉ t.susp ∧ ∃ y, t.ready = s.ready ++ [y] ∧ y.fid = x.firing.fid
            ∧ y.resume = some (regsOfBlock b x) ∧ y.prio = ((s.lcOf x.firing.ctx x.firing.lc).ttOf x.firing.ch).prio)
          ∧ (leNat ((m.payload.drop 8).take 1) = 2 → Leads (.trapReply i) s fun t =>
            x ∉ t.susp ∧ t.ready = s.ready ∧ t.mem = s.mem)
          ∧ (leNat ((m.payload.drop 8).take 1) = 3 → Leads (.trapReply i) s fun t =>
            (t.ctxOf m.ctx).halted = true ∧ t.susp = s.susp))
      ∧ (m.kind = .send → (s.ctxOf m.ctx).halted = false → (s.lcOf m.ctx m.dst).out = true →
          (s.ctxOf m.ctx).defines m.dst = true → s.behind i m Msg.toFifo = false →
          (m.tries = 0 ∨ m.triedAt + 4096 ≤ s.cycle) →
          ((s.ctxOf m.ctx).inRing.length < (s.ctxOf m.ctx).inboxCap → Leads (.inboxRetry i) s fun t =>
            t.net = rest ∧ (t.ctxOf m.ctx).inbox = (s.ctxOf m.ctx).inbox ++ [m]
            ∧ (t.ctxOf m.ctx).inRing = (s.ctxOf m.ctx).inRing ++ [true]
            ∧ (let slot := (s.ctxOf m.ctx).svBase + 0x1000 + 128 * (s.ctxOf m.ctx).inTail
               Memory.wf s.mem = true → m.payload.length ≤ 64 → (∀ j, j < 128 → frameAbsent (slot + j) = false) →
                slotHolds m fun j => cellRead t.mem (slot + j)))
          ∧ ((s.ctxOf m.ctx).inboxCap ≤ (s.ctxOf m.ctx).inRing.length → m.tries + 1 < 64 →
            exec (.inboxRetry i) s = .next { s with net := setAt s.net i { m with tries := m.tries + 1, triedAt := s.cycle } })
          ∧ ((s.ctxOf m.ctx).inboxCap ≤ (s.ctxOf m.ctx).inRing.length → 64 ≤ m.tries + 1 → m.host = false →
            m.spkg = Config.ownPackage.val → (s.ctxOf m.ctx).trapNamesNone = false → Leads (.inboxRetry i) s fun t =>
            ∃ r, t.net = rest ++ [r] ∧ nackOf m 3 r))
      ∧ (∀ mbox seq code b g, m.kind = .mailboxReply mbox seq code → mbox < 32 →
          ((s.clusterOf m.dst).boxes.find? fun b => decide (b.1 = mbox) && decide (b.2.1 = seq)) = some b →
          s.slotAt (coreAt m.dst (mbox / 4)) (mbox % 4) = some g →
          (code = 0 → Leads (.faultReplyArrival i) s fun t => t.net = rest
            ∧ t.slotAt (coreAt m.dst (mbox / 4)) (mbox % 4) = some { g with wait := .none })
          ∧ (code = 1 → Leads (.faultReplyArrival i) s fun t => t.net = rest
            ∧ t.slotAt (coreAt m.dst (mbox / 4)) (mbox % 4) = some { g with wait := .none, zeros := b.2.2.1 :: g.zeros })
          ∧ (code = 2 → g.firing.alarm = none → (s.refocus g.core g.k).exceptionWaits = true →
            exec (.faultReplyArrival i) s = .next s)
          ∧ (2 ≤ code → g.firing.alarm = none → (s.refocus g.core g.k).exceptionWaits = false → ∃ u : State, u.focus = g ∧ u.mem = s.mem ∧ u.net = rest
            ∧ exec (.faultReplyArrival i) s = .next (u.takeException .page g.reg.pc b.2.2.1 0 0)))
      ∧ (∀ gr n, m.kind = .redResult gr n → m.ch ≠ 62 → s.mayDeliver i m → s.fate m = .write → free → Leads (.messageDeliver i) s fun t =>
          t.net = rest ∧ ((t.ctxOf m.ctx).redOf gr).rounds = max ((s.ctxOf m.ctx).redOf gr).rounds (n + 1)
          ∧ ((t.lcOf m.ctx m.dst).ttOf m.ch).q = e.q ++ [⟨.queued, m⟩]))
    ∧ (∀ m, c.halted = false → l.out = false → l.moving = false → l.valid = true →
        (c.inbox.find? fun m => m.dst = lc) = some m → m.ctx = ctx → m.kind = .send → s.fate m = .write →
        s.freeToWrite (s.slotKey m) 128 →
        Leads (.inboxReplay ctx lc) s fun t => (t.ctxOf ctx).inbox = c.inbox.erase m
          ∧ (c.inbox = [m] → c.inRing = [true] → 0 < c.inboxCap → (t.ctxOf ctx).inRing = []
            ∧ (t.ctxOf ctx).inHead = (c.inHead + 1) % c.inboxCap)
          ∧ ((t.lcOf m.ctx m.dst).ttOf m.ch).q = ((s.lcOf m.ctx m.dst).ttOf m.ch).q ++ [⟨.queued, m⟩])
    ∧ (c.hostOk = true → o.wfmt = 0 → o.payload.length ≤ 64 → o.ordered = false → Leads (.hostMessage ctx o) s fun t =>
        ∃ m, t.net = s.net ++ [m] ∧ m.ctx = ctx ∧ m.dst = o.dst % 4096 ∧ m.ch = o.ch % 64 ∧ m.payload = o.payload
          ∧ m.host = true ∧ m.ord = false)
    ∧ (c.hostOk = false ∨ 2 < o.wfmt ∨ 64 < o.payload.length →
        exec (.hostMessage ctx o) s = .next { s with hostOut := s.hostOut ++ [.refused] })
    ∧ (let g := c.redOf grp
       let parts := (List.range 4096).filter fun n => inRect g.cfgB n && c.defines n
       let got := parts.filterMap fun p => g.got.find? fun x => decide (x.1 = g.placed) && decide (x.2.1 = p)
       let root := g.cfgA.toNat / 2 ^ 17 % 2 ^ 12
       g.on = true → c.halted = false → parts ≠ [] → got.length = parts.length → g.spans = false → c.defines root = true →
       Leads (.reductionResult ctx grp) s fun t => ((t.ctxOf ctx).redOf grp).placed = g.placed + 1
        ∧ ((t.ctxOf ctx).redOf grp).rounds = g.rounds
        ∧ ∃ m, t.net = s.net ++ [m] ∧ m.ctx = ctx ∧ m.dst = root ∧ m.ch = g.cfgA.toNat / 2 ^ 11 % 64
          ∧ m.payload.length = 4 * g.lanes
          ∧ (g.exact = false → ∀ j, j < g.lanes →
              payloadLane m.payload j = (foldOrdered (got.map fun x => payloadLane x.2.2.1 j)).val))
    ∧ (s.hasCtx ctx = true → c.sweepAt + 256 ≤ s.cycle → Leads (.gvtSweep ctx) s fun t =>
        (t.ctxOf ctx).sweepAt = s.cycle ∧ c.gvt.toNat ≤ (t.ctxOf ctx).gvt.toNat
        ∧ (c.ordSent ≠ c.ordRecv → (t.ctxOf ctx).gvt = c.gvt)
        ∧ (∀ k, c.ordSent = c.ordRecv → c.prevTotals = some (c.ordSent, c.ordRecv) → s.minKey ctx = some k →
          c.gvt.toNat < k.ts.toNat → (t.ctxOf ctx).gvt = k.ts))
    ∧ (∀ r, router < 1024 → (s.coreOf core).relay = [r] → router ∉ r.passed → s.moves = [] →
        (∀ m ∈ s.net, m.old = true → m.ctx = r.ctx → m.dst = r.lcore → s.injector m ≠ router) →
        Leads (.flushMarker core router) s fun t => (t.coreOf core).relay =
          if r.passed.length + 1 < 1024 then [{ r with passed := router :: r.passed }] else [])

/-! ### The machine's own steps: engines and copies -/

/-- R187 to R191, R246, R267, R289, R290, R299, R301, R307, R388 to R391: the steps of engines and copies: Take starts a
command of the core whose turn it is and moves the engine's turn on, one whose remote object grants no CP ending with ERROR RIGHTS and one
whose package no link reaches with ERROR FABRIC (R419, R426); Read element and Perform; Apply puts a pending byte that is none of firmware's tables (log entry 11) into M and changes no
other; Post completion leaves the command DONE, in error or cancelled; a quiet collection window closes with its count;
the five copy operations read, then write an element; a sweep advances the words whose Δ is 2^46 or more; a REGRAN copies
a marked line and switches it, after which accesses reach the destination; RELEASE frees the entries. -/
def Obligations.EngineAndCopySteps : Prop :=
  ∀ (cluster k job elem e0 e1 i ctx wg line : Nat) (backs : List Nat) (refused : Bool) (far : Option Nat) (eng : Engine)
    (s : State),
    (∀ j, s.headJob .copy (coreAt cluster k) = some j → s.nextTurn cluster .copy = some k →
        Leads (.commandTake cluster .copy ⟨k, far⟩) s fun t => (t.clusterOf cluster).cturn = (k + 1) % 8
        ∧ ∃ j', t.jobOf j.uid = some j' ∧ j'.st = 2 ∧ (j.remote = false → j.selfNamed = false → j'.err = j.err)
        ∧ (j.remote = true → s.reaches (j.bits 7 5 0) = false → j'.err = 9)
        ∧ (j.remote = true → s.reaches (j.bits 7 5 0) = true → far = none → j'.err = 8)
        ∧ (j.selfNamed = true →
          let r := (s.recordNow (s.ctxOf j.ctx) (j.bits j.farWord 15 0, 0)).2
          objOk r = false ∨ objRight r 10 = false ∨ objRight r (if j.bits 7 6 6 = 1 then 7 else 8) = false → j'.err = 8))
    ∧ (∀ j, s.headJob .matrix (coreAt cluster k) = some j → s.nextTurn cluster .matrix = some k →
        Leads (.commandTake cluster .matrix ⟨k, far⟩) s fun t =>
        (t.clusterOf cluster).turn = (k + 1) % 8 ∧ ∃ j', t.jobOf j.uid = some j' ∧ j'.st = 2)
    ∧ (∀ n, s.nextTurn cluster eng = some n → ∃ j, s.headJob eng (coreAt cluster n) = some j ∧ s.mayTake j = true)
    ∧ (∀ j, s.runningJob cluster eng job = some j →
        ReadsElement (.readElement cluster eng job elem ⟨backs, refused⟩) j elem backs refused s
        ∧ PerformsElement (.perform cluster eng job elem) j elem s)
    ∧ (∀ p, s.pend[i]? = some p → (∀ q ∈ s.pend.drop (i + 1), q.job = p.job → q.key ≠ p.key) →
        s.exclBlocks none [p.key] = false → p.key < 2 ^ 39 ∨ isDeviceKey p.key = false → frameAbsent p.key = false → Memory.wf s.mem = true → Leads (.apply i) s fun t =>
        t.pend = dropAt s.pend i ∧ t.host = s.host ∧ t.log.length = s.log.length + 1
        ∧ cellRead t.mem p.key = p.val
        ∧ ∀ a, a / 512 ≠ p.key / 512 ∨ inDram p.key = false → a ≠ p.key → cellRead t.mem a = cellRead s.mem a)
    ∧ (∀ j, s.jobOf job = some j → j.engine = eng → j.cluster = cluster → j.st = 2 → s.stepsDone j = true →
        s.releaseMet j = true → j.migrated = true → s.jobTilesHeld j = false → Leads (.postCompletion cluster eng job) s fun t =>
        ((∀ m ∈ s.migs, m.uid = job → m.closed = false) → t.mem = s.mem)
        ∧ ∃ j', t.jobOf job = some j' ∧ (j'.st = 4 ∨ j'.st = 5 ∨ j'.st = 6) ∧ (j.cancel = true → j'.st = 6)
        ∧ (j.cancel = false → j.err ≠ 0 → j.err ≠ 5 → j'.st = 5 ∧ j'.err = j.err))
    ∧ (∀ w, ((s.clusterOf cluster).windows.find? fun w => decide (w.ctx = ctx) && decide (w.wg = wg)) = some w →
        (s.cycle < w.last + 65536 → exec (.nanWindowClose cluster ctx wg) s = .next s)
        ∧ (w.last + 65536 ≤ s.cycle → Leads (.nanWindowClose cluster ctx wg) s fun t =>
          (t.clusterOf cluster).windows = (s.clusterOf cluster).windows.erase w
          ∧ (w.count = 0 → t.net = s.net)
          ∧ (w.count ≠ 0 → (s.ctxOf ctx).trapNamesNone = false → ∃ m, t.net = s.net ++ [m]
            ∧ m.payload = trapRecord 0 0 .nantrap 0 false 0 0 0 (BitVec.ofNat 64 (2 ^ 25)) 0 (BitVec.ofNat 64 w.count))))
    ∧ (∀ op ins, (op, ins) ∈ [(0, Instr.copyOpCopy cluster job e0 e1), (1, .copyOpGather cluster job e0 e1),
          (2, .copyOpScatter cluster job e0 e1), (3, .copyOpFill cluster job e0 e1), (4, .copyOpConvert cluster job e0 e1)] →
        ∀ j, s.copyJob cluster job op e0 e1 = some j →
          let n := e1 * j.e0 + e0
          let indexed := (op = 1 ∨ op = 2) ∧ j.got (j.e0 * j.e1 + e1) = none
          (indexed → ReadsElement ins j (j.e0 * j.e1 + e1) [] false s)
          ∧ (¬ indexed → op ≠ 3 → j.got n = none → ReadsElement ins j n [] false s)
          ∧ (¬ indexed → (op = 3 ∨ j.got n ≠ none) → PerformsElement ins j n s)
          ∧ (¬ indexed → j.got n ≠ none → n ∈ j.done → j.quantises = true → e0 % 32 = 0 →
              PerformsElement ins j (j.e0 * j.e1 + (e1 * j.rowBlocks + e0 / 32)) s))
    ∧ (∀ j a, s.copyJob cluster job 5 e0 e1 = some j → e1 * j.e0 + e0 ∉ j.done →
        let loc := (s.copyOperand j (decide (j.bits 0 5 5 = 1)) 4 ringFmt e0 e1).loc
        (∃ hi, loc = .key a hi ∧ a % 16 = 0)
          ∨ (∃ va hi, loc = .va va hi ∧ va.toNat % 16 = 0 ∧ e1 * j.e0 + e0 ∉ j.zero ∧ 2 ^ 32 + (e1 * j.e0 + e0) ∉ j.zero
            ∧ ∃ m, s.engineLoc j va true = .key a m ∧ s.holdsKeys m.ctx a 16) →
        (∀ n, n < 16 → inPoison s.poison (a + n) = false ∧ frameAbsent (a + n) = false) →
        s.exclBlocks none ((List.range 16).map fun n => a + n) = false → Memory.wf s.mem = true →
          Sweeps (.ringsweep cluster job e0 e1) j (e1 * j.e0 + e0) a s)
    ∧ (∀ j, s.runningJob cluster .copy job = some j → j.op = 6 → j.releases = false →
        (s.openFrame j.uid = none → j.done.length < j.e0 → s.migs.length < 16 →
          (∀ m ∈ s.migs, m.src ≠ j.srcFrame + j.done.length) → Leads (.regran cluster job line) s fun t => t.mem = s.mem
          ∧ ∃ m, t.migs = s.migs ++ [m] ∧ m.src = j.srcFrame + j.done.length ∧ m.dst = j.dstFrame + j.done.length
            ∧ m.marked = List.range 512 ∧ m.pass = 1)
        ∧ (∀ m, s.openFrame j.uid = some m →
          (m.pass < 5 → line < 512 → line ∈ m.todo → line ∈ m.marked → Memory.wf s.mem = true → frameAbsent (m.dst * 2 ^ 16) = false →
            s.holdsKeys (s.srcAttr m line).ctx (m.src * 2 ^ 16 + 128 * line) 128 →
            Leads (.regran cluster job line) s fun t => ∀ a, cellRead t.mem a =
              if m.dst * 2 ^ 16 + 128 * line ≤ a ∧ a < m.dst * 2 ^ 16 + 128 * line + 128 then
                cellRead s.mem (m.src * 2 ^ 16 + 128 * line + (a - (m.dst * 2 ^ 16 + 128 * line))) else cellRead s.mem a)
          ∧ (5 ≤ m.pass → line < 512 → line ∉ m.switched → Leads (.regran cluster job line) s fun t =>
            ∀ a, a / 2 ^ 16 = m.src → a % 2 ^ 16 / 128 = line → t.home a = m.dst * 2 ^ 16 + a % 2 ^ 16)))
    ∧ (∀ j, s.runningJob cluster .copy job = some j → j.op = 6 → j.releases = true → j.done = [] →
        Leads (.regranRelease cluster job) s fun t => t.mem = s.mem ∧ (∃ j', t.jobOf j.uid = some j' ∧ j'.done = [0])
          ∧ ∀ m, m ∈ t.migs ↔ m ∈ s.migs ∧ ¬ (m.closed = true ∧ j.srcFrame ≤ m.src ∧ m.src < j.srcFrame + j.e0))

/-! ### The machine's own steps: hurdles, placement and rectangles -/

/-- R319 to R329, R344, R345, R398, R399, R401: the steps of hurdle routers and of placement. An entry takes a slot with its
RID, payload and the DONE bits of absent stages, a dispatch goes to a pool member with the record's image, and a verdict
moves the record on, out or away; a stop saves the context's units, or leaves it HALTED where the image does not fit; a
resume returns a halted context, or restores a stopped one from the image that its save area holds (log entry 30) on the cores of its
placement table unless the image has another version, once the package has room for it; a move places its logical core once the
queues there have room for its commands (both log entry 88), or leaves it where it was; each ends with its completion message. -/
def Obligations.HurdleAndPlacementSteps : Prop :=
  ∀ (ctx lcl set stage : Nat) (s : State),
    (∀ m rest, s.net = m :: rest → (s.ctxOf m.ctx).runs = true →
      (∀ l st rid, m.kind = .hsEntry l st rid → (s.hurdleOf m.ctx l).free ≠ 0 → Leads (.hsEntryDelivery 0) s fun t =>
        let h := s.hurdleOf m.ctx l
        t.net = rest ∧ ((t.hurdleOf m.ctx l).stat st).entered = (h.stat st).entered + 1
        ∧ ∃ r, (t.hurdleOf m.ctx l).recOf st rid = some r ∧ r.lc = m.src ∧ r.payload = m.payload ∧ r.phase = .waiting
          ∧ r.done = 256 - 2 ^ (h.nst st + 1) ∧ r.stage ≤ h.nst st)
      ∧ (∀ l st rid g pass err mask cycles r, m.kind = .hsVerdict l st rid g pass err mask cycles →
          let h := s.hurdleOf m.ctx l
          let r1 : HRec := { r with done := r.done ||| 2 ^ g, payload := mergeBytes mask r.payload m.payload }
          h.recOf st rid = some r →
          (r.atWorker = false → exec (.hsVerdictDelivery 0) s = .next { s with net := rest })
          ∧ (r.atWorker = true →
          (pass = true → err = false → r1.done % 256 ≠ 255 → Leads (.hsVerdictDelivery 0) s fun t =>
            t.net = rest ∧ ∃ r', (t.hurdleOf m.ctx l).recOf st rid = some r' ∧ r'.done = r1.done
            ∧ r'.payload = r1.payload ∧ r'.phase = .waiting)
          ∧ (pass = true → err = false → r1.done % 256 = 255 → h.ctl st 5 = false →
            (s.ctxOf m.ctx).defines (bitsOf (h.reg st 1) 11 0) = true → Leads (.hsVerdictDelivery 0) s fun t =>
            ∃ x, t.net = rest ++ [x] ∧ x.dst = bitsOf (h.reg st 1) 11 0 ∧ x.ch = bitsOf (h.reg st 1) 17 12
            ∧ x.payload = r1.image 0)
          ∧ (pass = false ∨ err = true → h.ctl st 5 = false → h.ctl st 6 = false → Leads (.hsVerdictDelivery 0) s fun t =>
            t.net = rest ∧ (t.hurdleOf m.ctx l).recOf st rid = none
            ∧ ((t.hurdleOf m.ctx l).stat st).dropped = (h.stat st).dropped + 1
            ∧ ((t.hurdleOf m.ctx l).stat st).errs = (h.stat st).errs + if err then 1 else 0))))
    ∧ (let h := s.hurdleOf ctx lcl
       ∀ r k, (s.ctxOf ctx).runs = true → h.firstWaiting set stage = some r → h.member set stage = some k →
        (s.ctxOf ctx).defines (8 * lcl + k) = true → Leads (.hsDispatch ctx lcl set stage) s fun t =>
        (t.hurdleOf ctx lcl).recOf set r.rid = some { r with phase := .dispatched k }
        ∧ ∃ m, t.net = s.net ++ [m] ∧ m.ctx = ctx ∧ m.dst = 8 * lcl + k ∧ m.ch = bitsOf (h.stg set stage) 15 10
          ∧ m.payload = leBytes 8 (r.header stage) ++ shownBytes (h.reg set (5 + 4 * stage)) r.payload)
    ∧ (∀ m, s.moves = [m] → m.begun = true → (s.ctxOf 0).defines m.src = true →
        let k := bitsOf m.a 7 0
        let c := s.ctxOf k
        let fits := decide (c.saveNeed ≤ c.svSize * 2 ^ 16)
        let stale := decide (c.state = 2) && decide (cellNat s.mem c.svBase 8 ≠ Config.imageVersion.toNat)
        let u := s.fromImage c
        let r := s.migResult m
        let payload := fun (bad : Bool) => leBytes 8 (k + if bad then 256 else 0)
        (m.kind = .stop → s.busy k none = false → Leads (.ctxStopCompletion 0) s fun t =>
          t.moves = [] ∧ Completes m (bitsOf m.a 13 8) (payload !fits) t
          ∧ (fits = true → (t.ctxOf k).state = c.state ∧ (t.ctxOf k).saved = (s.unitClusters c).map (s.unitsOf c)
            ∧ (Memory.wf s.mem = true → (∀ i, i < 16 → frameAbsent (c.svBase + i) = false) → cellNat t.mem c.svBase 8 = Config.imageVersion.toNat
              ∧ cellNat t.mem (c.svBase + 8) 8 = c.imageLength % 2 ^ 64)
            ∧ ∀ n, n < 128 → ∀ e ∈ (t.clusterOf n).tlb, e.ctx ≠ k)
          ∧ (fits = false → (t.ctxOf k).state = 3 ∧ (t.ctxOf k).halted = true))
        ∧ (m.kind = .stop → s.busy k none = true → exec (.ctxStopCompletion 0) s = .next s)
        ∧ (m.kind = .go → c.state ≠ 2 → Leads (.ctxGoCompletion 0) s fun t =>
          t.moves = [] ∧ (t.ctxOf k).state = 1 ∧ (t.ctxOf k).halted = false ∧ Completes m (bitsOf m.a 13 8) (payload false) t)
        ∧ (m.kind = .go → stale = true → Leads (.ctxGoCompletion 0) s fun t =>
          t.moves = [] ∧ (t.ctxOf k).state = 2 ∧ Completes m (bitsOf m.a 13 8) (payload true) t)
        ∧ (m.kind = .go → c.state = 2 → stale = false → u.canResume (u.placeFrom (u.ctxOf k) m.b.toNat) = true →
          Leads (.ctxGoCompletion 0) s fun t =>
          t.moves = [] ∧ (t.ctxOf k).state = 1 ∧ (t.ctxOf k).halted = false ∧ ∀ n, n < 4096 →
            let e := cellNat u.mem (u.home (m.b.toNat + 2 * n)) 2
            e.testBit 12 = true → (t.lcOf k n).pcore = natBits e 9 0 ∧ (t.lcOf k n).valid = true)
        ∧ (m.kind = .go → c.state = 2 → stale = false → u.canResume (u.placeFrom (u.ctxOf k) m.b.toNat) = false →
          exec (.ctxGoCompletion 0) s = .next s)
        ∧ (m.kind = .mig → m.status = 0 → s.moveFits m = false → exec (.migGoCompletion 0) s = .next s)
        ∧ (m.kind = .mig → m.status ≠ 0 ∨ (s.busy (migCtx m.a) (some (migLc m.a)) = false ∧ s.moveFits m = true) →
          Leads (.migGoCompletion 0) s fun t =>
          let l0 := s.lcOf (migCtx m.a) (migLc m.a)
          let l := t.lcOf (migCtx m.a) (migLc m.a)
          t.moves = [] ∧ Completes m (bitsOf m.b 23 18) (leBytes 8 m.a.toNat ++ leBytes 8 r) t
          ∧ (m.status ≠ 0 → r = m.status)
          ∧ (r ≠ 0 → l.pcore = l0.pcore ∧ l.hidx = l0.hidx ∧ l.out = l0.out ∧ (m.status = 0 → l.moving = false))
          ∧ (r = 0 → m.b.getLsbD 12 = true → l.out = true ∧ l.moving = false)
          ∧ (r = 0 → m.b.getLsbD 12 = false →
            l.pcore = bitsOf m.b 9 0 ∧ l.hidx = bitsOf m.b 11 10 ∧ l.out = false ∧ l.moving = false)))

/-- R90, R126, R127, R228, R243, R278, R281, R359, R363, R393, R405: contexts and clusters as units. A context is created
from its description, only where its descriptor is FREE, fewer than 64 user contexts are resident (log entry 79), its fixed tables
lie apart and no save area enters a user context's address space; a gang stop makes a RESIDENT one HALTED; the acknowledgement of an
invalidation of every scope comes once every other cluster has removed the entries and raised its epoch, that of a watch
merge once no cluster's count is left; an uncorrectable error in a cluster's unit fences its rectangle and is recorded with KIND 6 and the unit of the error (log entry 66),
a corrected one adds 1 to the unit's score, and a failed data check of its firmware adds 4. The descriptor lies in M where log entry 11 (DESIGN CHOICE) puts it. -/
def Obligations.ContextAndClusterSteps : Prop :=
  ∀ (c : CtxSpec) (ctx num cluster : Nat) (va : Word) (u : UnitKind) (s : State),
    let fenceable := u ≠ .llc ∧ u ≠ .pc ∧ u ≠ .port
    let rect := fun k => (clusterDie k, s.rectOf k)
    (c.ctx < 256 → (s.ctxOf c.ctx).state = 0 → (c.ctx = 0 ∨ s.residents < 64) → rangesApart (createdCtx c).fixedTables = true →
      s.spaceOk (createdCtx c) = true → Memory.wf s.mem = true → (c.ctx = 0 → s.migs = []) →
      ({ s with ctxs := s.ctxs.filter fun x => x.id ≠ c.ctx } : State).canHost c.ctx c.cores = true →
      Leads (.contextCreation c) s fun t =>
        let x := t.ctxOf c.ctx
        x.state = 1 ∧ x.halted = false ∧ x.gvt = 0 ∧ x.lawbase = c.lawBase &&& ~~~ 0x1FFF#64
        ∧ x.objbase = c.objBase &&& ~~~ 0x3FFFFF#64 ∧ x.trapsv = c.trapSave &&& ~~~ 0xFFF#64 ∧ x.keyid = c.keyid % 1024
        ∧ x.hostOk = c.hostOk ∧ x.stage2 = c.pages ∧ x.inboxCap = c.inbox % 2 ^ 32
        ∧ ∀ l ∈ c.cores, x.defines l.n = true ∧ (x.lcOf l.n).lsz = l.lsz ∧ (x.lcOf l.n).pcore = l.pcore
          ∧ (∀ k, (x.lcOf l.n).fmtOf k = (fmtReset k, 0)) ∧ (x.lcOf l.n).tiles = []
          ∧ ∀ j, j < l.image.length → cellRead t.mem (scratchKey c.ctx l.n j) = l.image.getD j 0)
    ∧ ((s.ctxOf c.ctx).state ≠ 0 ∨ (c.ctx ≠ 0 ∧ 64 ≤ s.residents) ∨ rangesApart (createdCtx c).fixedTables = false
        ∨ s.spaceOk (createdCtx c) = false → exec (.contextCreation c) s = .next s)
    ∧ (s.hasCtx ctx = true → (s.ctxOf ctx).state = 1 → Leads (.gangStopByManagement ctx) s fun t =>
        (t.ctxOf ctx).halted = true ∧ (t.ctxOf ctx).state = 3 ∧ t.net = s.net
        ∧ (Memory.wf s.mem = true → (cellRead t.mem (descKey ctx)).toNat % 4 = 3
          ∧ ∀ a, a < descKey ctx ∨ descKey ctx + 48 ≤ a → cellRead t.mem a = cellRead s.mem a))
    ∧ (∀ r, s.relQ = [r] →
        (∀ a b, r.inv = true → r.wg = false → r.held = [.sys 33 a b] → a.getLsbD 10 = true →
          Leads (.tlbInvAcknowledgement 0) s fun t => t.relQ = [] ∧ t.mem = s.mem
            ∧ ∀ n, n < 128 → n ≠ r.cluster → (t.clusterOf n).epoch = (s.clusterOf n).epoch + 1
              ∧ ∀ e ∈ (t.clusterOf n).tlb, tlbInvHits a b e = false)
        ∧ (∀ a, r.wg = true → r.inv = false → r.held = [.wgSync a] → Leads (.wgTablesApplied 0) s fun t =>
          t.relQ = [] ∧ t.mem = s.mem
          ∧ ∀ x ∈ (t.ctxOf r.ctx).watch, x.1.isSome = true → x.2.1 ∈ syncGroups a → x.2.2.sat = 0))
    ∧ (fenceable → num < 1024 → Leads (.rectFence u num) s fun t => rect (clusterIdOf num) ∈ t.fences
        ∧ ∃ x ∈ t.mgmt, x.kind = 6 ∧ x.unit = unitCode u ∧ x.num = num)
    ∧ (¬ fenceable → exec (.rectFence u num) s = .next s)
    ∧ (fenceable → cluster < 128 →
        Leads (.clusterStateError cluster u (.corrected ctx va)) s (fun t => t.fences = s.fences
          ∧ Suspected s t u (clusterRouter cluster) incOne)
        ∧ Leads (.clusterStateError cluster u .dataCheck) s (fun t => t.fences = s.fences
          ∧ Suspected s t u (clusterRouter cluster) incFour)
        ∧ Leads (.clusterStateError cluster u .fatal) s fun t => rect cluster ∈ t.fences ∨ u = .hurdle ∧ t.fences = s.fences)

/-! ### The machine's own steps: memory, the host, energy -/

/-- R371, R374 to R377, R379 to R381, R383, R385, R386, R392: the steps of the LLC and of DRAM. A fill wakes the instruction that waited
for it, makes every sector of the unit valid, and what the LLC lacked of it takes the bytes that DRAM decodes to, or is poisoned
where it is uncorrectable; a write-back leaves M as it is and the unit clean, encrypted and encoded in its places; a scrub
leaves M and the valid sectors as they are and rewrites the unit; an offline slice holds no line, its intact units
written back and the others poisoned; and a key slot takes its keys. -/
def Obligations.LlcAndDramSteps : Prop :=
  ∀ (core slot pa n : Nat) (key1 key2 : BitVec 256) (bad : List Nat) (s : State),
    (∀ f k a, s.slotAt core slot = some f → f.wait = .fill k a →
      (s.slots.find? fun x => x.active && decide (x.wait = .fill k a)) = some f →
      let b := s.recorded a k
      let base := unitBase b.gran k
      Leads (.llcFill k a.ctx a.gran a.keyid) s fun t => t.slotAt core slot = some { f with wait := .none, filled := addNew f.filled (k / 32) }
        ∧ t.host = s.host ∧ t.net = s.net
        ∧ (inDram k = true → s.homeOff b k = false → ∀ q ∈ unitSectors b.gran base, t.hits a.ctx q = true)
        ∧ (Memory.wf s.mem = true → (∀ j, j / 512 ≠ k / 512 → cellRead t.mem j = cellRead s.mem j)
          ∧ (inDram k = true → s.ownLines b base →
            (∀ l, (s.getUnit b base).2 = some l → ∀ i, i < granUnit b.gran → i < l.length → cellRead t.mem (base + i)
              = if s.validAt (base + i / 32 * 32) then cellRead s.mem (base + i) else l.getD i 0)
            ∧ ((s.getUnit b base).2 = none → t.mem = s.mem ∧ ∀ i, i < granUnit b.gran → inPoison t.poison (base + i) = true))))
    ∧ (∀ l, s.lineAt (pa / 128) = some l →
      let base := unitBase l.attr.gran pa
      (s.unitDirty l.attr.gran base = false → exec (.llcWriteback pa) s = .next s)
      ∧ (s.unitDirty l.attr.gran base = true → Leads (.llcWriteback pa) s fun t =>
        t.mem = s.mem ∧ t.unitDirty l.attr.gran base = false
        ∧ (s.holdsUnit l.attr base = true → StoredUnit s t l.attr base (cellReadList s.mem base (granUnit l.attr.gran))
            (inPoison s.poison base || s.unitLost l.attr.gran base))
        ∧ (∀ old, s.holdsUnit l.attr base = false → s.unitLost l.attr.gran base = false → (s.getUnit l.attr base).2 = some old →
            StoredUnit s t l.attr base (s.merged l.attr base old) (inPoison s.poison base))
        ∧ (s.holdsUnit l.attr base = false → s.unitLost l.attr.gran base = false → (s.getUnit l.attr base).2 = none →
            inPoison t.poison base = true
            ∧ StoredUnit s t l.attr base (cellReadList s.mem base (granUnit l.attr.gran)) true)))
    ∧ (inDram pa = true →
      let a := s.scrubAttr pa
      let base := unitBase a.gran pa
      let now := cellReadList s.mem base (granUnit a.gran)
      let clean := s.holdsUnit a base = false ∧ s.unitDirty a.gran base = false
      Leads (.scrub pa) s fun t => t.mem = s.mem ∧ (∀ ctx k, t.hits ctx k = s.hits ctx k)
        ∧ (s.holdsUnit a base = true → t.unitDirty a.gran base = false
          ∧ StoredUnit s t a base now (inPoison s.poison base || s.unitLost a.gran base))
        ∧ (∀ old, clean → (s.getUnit a base).2 = some old → t.poison = s.poison
          ∧ ((∃ p ∈ unitPlaces a.gran base, ∃ b, (p, b) ∈ s.dram) → StoredUnit s t a base old false))
        ∧ (clean → (s.getUnit a base).2 = none → StoredUnit s t a base now true
          ∧ (inPoison s.poison base = false → s.storedPoison a.gran base = false →
            ∃ x ∈ t.mgmt, x.kind = 2 ∧ x.unit = 7 ∧ x.num = (unitMembers a.gran base).headD 0)))
    ∧ (n < 256 → n ∉ s.offline →
      (Leads (.llcSliceOffline n .corrected) s fun t => Suspected s t .llc n incOne ∧ t.llc = s.llc)
      ∧ (∀ l, (s.llc.find? fun l => l.has pa) = some l → Leads (.llcSliceOffline n (.data pa)) s fun t => t.mem = s.mem
        ∧ ∀ i, i < granUnit l.attr.gran → inPoison t.poison (unitBase l.attr.gran pa + i) = true)
      ∧ (Leads (.llcSliceOffline n (.lost bad)) s fun t =>
        n ∈ t.offline ∧ (∀ x ∈ t.llc, x.homedIn n = false) ∧ (∃ x ∈ t.mgmt, x.kind = 2 ∧ x.unit = 6 ∧ x.num = n)
        ∧ (∀ l b, (s.llc.filter fun x => x.homedIn n) = [l] → b ∈ unitsOfLine l.attr.gran l.line →
            s.unitDirty l.attr.gran b = true → (∃ k ∈ bad, unitBase l.attr.gran k = b) →
              StoredUnit s t l.attr b (cellReadList s.mem b (granUnit l.attr.gran)) true)
        ∧ ((s.llc.filter fun x => x.homedIn n) = [] → t.dram = s.dram)))
    ∧ (0 < n → n < 1024 → Leads (.keySlotWrite n key1 key2) s fun t =>
        lookupD t.keys n {} = ⟨key1, key2⟩ ∧ (∀ m, m ≠ n → lookupD t.keys m {} = lookupD s.keys m {})
        ∧ t.dram = s.dram ∧ t.mem = s.mem)
    ∧ (n = 0 ∨ 1024 ≤ n → exec (.keySlotWrite n key1 key2) s = .next s)

/-- R162, R193, R387, R405, R406, R408, R409: errors, tests, the host link and the energy grant. An uncorrectable scratchpad error
poisons 8 bytes and a corrected one adds 1 to the core's score; a unit that passes its test keeps half its score,
one that fails is retired, but for a second pseudo-channel of a group; the host reads and writes device memory through the
second stage, and what that refuses is answered so; its refusal of a load raises RIGHTS, of a firing's store sends a record, of a copy's
ends the copy ERROR RIGHTS; an accepted store lands in host memory; management sets the power limits, and whether corrected errors are recorded, and a budget
period grants every cluster its part. -/
def Obligations.MemoryAndHostSteps : Prop :=
  ∀ (ctx lc core slot off ia n num i : Nat) (fatal pass : Bool) (u : UnitKind) (data : List Byte) (shows : List (Nat × Byte))
    (plim pfix : Nat) (rest : List Turn) (s : State),
    let c := s.ctxOf ctx
    let l := s.lcOf ctx lc
    let lim := (s.plim - s.pfix) / 128
    (l.valid = true → l.out = false → off < l.lsz → Leads (.scratchpadError ctx lc off fatal) s fun t =>
        (fatal = true → t.mem = s.mem ∧ ∀ j, j < 8 → inPoison t.poison (scratchKey ctx lc (off / 8 * 8) + j) = true)
        ∧ (fatal = false → Suspected s t .core l.pcore incOne ∧ (Memory.wf s.mem = true →
            ∀ k, k < scoreKey .core l.pcore ∨ scoreKey .core l.pcore + 16 ≤ k → cellRead t.mem k = cellRead s.mem k)))
    ∧ ((u, num) ∈ s.thresholds → (∀ p ∈ s.coresOn u num, s.hosted p = []) → Leads (.thresholdRecord u num pass) s fun t =>
        (u, num) ∉ t.thresholds
        ∧ (pass = true → t.retired = s.retired ∧ (t.scoreOf u num).a
            = (rne32 ((exact32 (s.scoreOp .ld (s.scoreOf u num)).a).scale (-1))).val)
        ∧ (pass = false → (u ≠ .pc ∨ s.retiredPartner num = none) →
            (u, num) ∈ t.retired ∧ ∃ x ∈ t.mgmt, x.kind = 5 ∧ x.unit = unitCode u ∧ x.num = num)
        ∧ (∀ p, pass = false → u = .pc → s.retiredPartner num = some p → t.retired = s.retired
            ∧ ∃ x ∈ t.mgmt, x.kind = 9 ∧ x.sev = 3 ∧ x.unit = 7 ∧ x.num = num ∧ x.payload = leBytes 8 (p % 64)))
    ∧ (∀ p, let k := p.pa * 2 ^ 16 + ia % 2 ^ 16
        c.hostOk = true → (∀ j, j < n → c.stage2Of (ia + j) = some p) → s.migs = [] →
        Leads (.hostMemoryRead ctx ia n) s fun t => ∃ b bad, t.hostOut = s.hostOut ++ [.data b bad]
          ∧ b.length = n ∧ (∀ j, j < n → b.getD j 0 = cellRead t.mem (k + j))
          ∧ (bad = true ↔ ∃ j, j < n ∧ (inPoison t.poison (k + j) = true ∨ frameAbsent (k + j) = true))
          ∧ ((∀ j, j < n → s.hits (pageAttr ctx p).ctx (k + j) = true) → t.mem = s.mem ∧ t.poison = s.poison)
          ∧ (Memory.wf s.mem = true → ∀ a, (∀ j, j < n → (k + j) / 512 ≠ a / 512) → cellRead t.mem a = cellRead s.mem a))
    ∧ ((c.hostOk = false ∨ ∃ j, j < n ∧ c.stage2Of (ia + j) = none) →
        exec (.hostMemoryRead ctx ia n) s = .next (s.answerHost .refused))
    ∧ ((c.hostOk = false ∨ ∃ j p, j < data.length ∧ (c.stage2Of (ia + j) = none ∨ c.stage2Of (ia + j) = some p ∧ p.ro = true)) →
        exec (.hostMemoryWrite ctx ia data) s = .next (s.answerHost .refused))
    ∧ (∀ p, let k := p.pa * 2 ^ 16 + ia % 2 ^ 16
        let keys := (List.range data.length).map fun j => k + j
        c.hostOk = true → data ≠ [] → (∀ j, j < data.length → c.stage2Of (ia + j) = some p) → p.ro = false → s.migs = [] →
        Memory.wf s.mem = true → (∀ j, j < data.length → inDram (k + j) = true) → s.exclBlocks none keys = false →
        Leads (.hostMemoryWrite ctx ia data) s fun t => t.hostOut = s.hostOut
          ∧ (∀ j, j < data.length → cellRead t.mem (k + j) = data.getD j 0)
          ∧ (∀ a, (∀ j, j < data.length → (k + j) / 512 ≠ a / 512) → cellRead t.mem a = cellRead s.mem a)
          ∧ ((∀ q ∈ writtenSectors keys, q.2 = true) →
            ∀ a, a < k ∨ k + data.length ≤ a → cellRead t.mem a = cellRead s.mem a))
    ∧ (∀ f va, s.slotAt core slot = some f → f.wait = .host va →
        (Leads (.hostLoadResponse core slot false shows) s fun t => t.mem = s.mem
          ∧ t.slotAt core slot = some { f with hosts := addNew f.hosts va } ∧ (shows = [] → t.host = s.host)
          ∧ (∀ o b, shows = [(o, b)] → Memory.wf s.host = true → cellRead t.host (f.firing.ctx * 2 ^ 55 + o % 2 ^ 54) = b))
        ∧ ((f.firing.alarm.isSome && !f.chunk.checked) = false → ∃ v : State, v.focus = f ∧ v.mem = s.mem ∧ v.net = s.net
          ∧ exec (.hostLoadResponse core slot true shows) s = .next (v.takeException .rights f.reg.pc va 0 0))
        ∧ ((f.firing.alarm.isSome && !f.chunk.checked) = true → exec (.hostLoadResponse core slot true shows) s
          = .next (s.setSlot { f with wait := .none, chunk := { f.chunk with checkFail := true } })))
    ∧ (∀ h, s.hostQ[i]? = some h → (∀ j x, j < i → s.hostQ[j]? = some x → x.ctx ≠ h.ctx) →
        (h.job = none → (s.ctxOf h.ctx).trapNamesNone = false → Leads (.hostStoreRefusal i) s fun t =>
          t.hostQ = dropAt s.hostQ i ∧ t.host = s.host ∧ t.mem = s.mem ∧ ∃ m, t.net = s.net ++ [m] ∧ m.ctx = h.ctx
          ∧ m.payload = trapRecord h.fid 0 .rights h.ch false h.lc 0 h.fts h.va 1 0)
        ∧ (∀ uid j, h.job = some uid → s.jobOf uid = some j → j.running = true → j.err = 0 → Leads (.hostStoreRefusal i) s fun t =>
          t.hostQ = dropAt s.hostQ i ∧ t.host = s.host ∧ t.jobOf uid = some { j with err := 8 })
        ∧ (Memory.wf s.host = true → Leads (.hostStoreAcceptance i) s fun t =>
          let k := h.ctx * 2 ^ 55 + (h.va.toNat - 0x80000000000000)
          t.hostQ = dropAt s.hostQ i ∧ t.mem = s.mem ∧ t.net = s.net
          ∧ ∀ a, cellRead t.host a = if k ≤ a ∧ a < k + h.data.length then h.data.getD (a - k) 0 else cellRead s.host a))
    ∧ (s.grantAt + 1000000 ≤ s.ticks → Leads .budgetPeriod s fun t => t.grantAt = s.ticks ∧ t.mem = s.mem ∧ ∀ k, k < 128 →
        (t.clusterOf k).grant = lim ∧ (t.clusterOf k).remainder = 100000 * lim)
    ∧ (s.ticks < s.grantAt + 1000000 → exec .budgetPeriod s = .next s)
    ∧ (s.boot ≠ 2 → s.agenda = .limits plim pfix :: rest → ∃ t, step s = .next t ∧ t.plim = plim ∧ t.pfix = pfix ∧ t.agenda = rest
        ∧ (s.blamed = [] → s.scoreAlarms = [] → s.lawAhead = false → t.mem = s.mem ∧ t.clusters = s.clusters))
    ∧ (∀ on, s.boot ≠ 2 → s.agenda = .records on :: rest → ∃ t, step s = .next t ∧ t.records = on ∧ t.agenda = rest)

/-! ### The machine's own steps: the fabric, boot and attestation -/

/-- R186, R310, R350, R405, R412, R413, R416 to R419, R421, R422, R425, R426: the steps of the fabric, what arrives over it, and boot with
attestation (the layouts of SPDM are PRESUMED, log entries 17 and 100). The model's own choices among them: how the slew follows from
the lead (log entry 76), the KIND and UNIT of the records of a link and of the time base (log entry 66), port 0 and the lowest
port (log entry 78), and what arrivals carry (log entry 13). -/
def Obligations.FabricAndBootSteps : Prop := FabricStepsHold ∧ FabricArrivalsHold ∧ BootAndAttestationHold
end

