-- ==== Sys2Proof/Laws/Decode.lean ====
section
/-! SUPPORT. Laws of the word layout (R42): each part of a packed word reads back. -/

namespace Sys2Proof

theorem extract_append_low {m n : Nat} (a : BitVec m) (b : BitVec n) (i k : Nat) (h : i + k ≤ n) :
    (a ++ b).extractLsb' i k = b.extractLsb' i k :=
  BitVec.extractLsb'_append_eq_of_add_le h

theorem extract_append_high {m n : Nat} (a : BitVec m) (b : BitVec n) (i k : Nat) (h : n ≤ i) :
    (a ++ b).extractLsb' i k = a.extractLsb' (i - n) k :=
  BitVec.extractLsb'_append_eq_of_le h

theorem extract_whole {n : Nat} (a : BitVec n) : a.extractLsb' 0 n = a := by simp

@[simp] theorem packW_low (s : Bool) (m : BitVec 6) (x y : BitVec 5) (lo : BitVec 15) :
    (packW s m x y lo).extractLsb' 0 15 = lo := by
  unfold packW; rw [extract_append_low _ _ _ _ (by omega), extract_whole]

@[simp] theorem packW_y (s : Bool) (m : BitVec 6) (x y : BitVec 5) (lo : BitVec 15) :
    (packW s m x y lo).extractLsb' 15 5 = y := by
  unfold packW; rw [extract_append_high _ _ _ _ (by omega), extract_append_low _ _ _ _ (by omega), extract_whole]

@[simp] theorem packW_x (s : Bool) (m : BitVec 6) (x y : BitVec 5) (lo : BitVec 15) :
    (packW s m x y lo).extractLsb' 20 5 = x := by
  unfold packW
  rw [extract_append_high _ _ _ _ (by omega), extract_append_high _ _ _ _ (by omega),
    extract_append_low _ _ _ _ (by omega), extract_whole]

@[simp] theorem packW_major (s : Bool) (m : BitVec 6) (x y : BitVec 5) (lo : BitVec 15) :
    (packW s m x y lo).extractLsb' 25 6 = m := by
  unfold packW
  rw [extract_append_high _ _ _ _ (by omega), extract_append_high _ _ _ _ (by omega),
    extract_append_high _ _ _ _ (by omega), extract_append_low _ _ _ _ (by omega), extract_whole]

@[simp] theorem packW_s (s : Bool) (m : BitVec 6) (x y : BitVec 5) (lo : BitVec 15) :
    (packW s m x y lo).getLsbD 31 = s := by
  unfold packW
  rw [BitVec.getLsbD_append, BitVec.getLsbD_append, BitVec.getLsbD_append, BitVec.getLsbD_append]
  cases s <;> rfl

/-- R39, R42: decoding a packed word is decoding its parts. -/
theorem decode_packW (s : Bool) (m : BitVec 6) (x y : BitVec 5) (lo : BitVec 15) :
    decode (packW s m x y lo) = decodeParts s m x y lo := by
  rw [decode, packW_s, packW_major, packW_x, packW_y, packW_low]

@[simp] theorem loR3_part10 (b : BitVec 5) (fn : BitVec 10) : (loR3 b fn).extractLsb' 10 5 = b := by
  unfold loR3; rw [extract_append_high _ _ _ _ (by omega),
    extract_whole]

@[simp] theorem loR3_part0 (b : BitVec 5) (fn : BitVec 10) : (loR3 b fn).extractLsb' 0 10 = fn := by
  unfold loR3; rw [extract_append_low _ _ _ _ (by omega),
    extract_whole]

@[simp] theorem loAmo_part10 (b : BitVec 5) (z : BitVec 1) (fn : BitVec 9) : (loAmo b z fn).extractLsb' 10 5 = b := by
  unfold loAmo; rw [extract_append_high _ _ _ _ (by omega),
    extract_append_high _ _ _ _ (by omega),
    extract_whole]

@[simp] theorem loAmo_part9 (b : BitVec 5) (z : BitVec 1) (fn : BitVec 9) : (loAmo b z fn).extractLsb' 9 1 = z := by
  unfold loAmo; rw [extract_append_high _ _ _ _ (by omega),
    extract_append_low _ _ _ _ (by omega),
    extract_whole]

@[simp] theorem loAmo_part0 (b : BitVec 5) (z : BitVec 1) (fn : BitVec 9) : (loAmo b z fn).extractLsb' 0 9 = fn := by
  unfold loAmo; rw [extract_append_low _ _ _ _ (by omega),
    extract_whole]

@[simp] theorem loSh6_part12 (op : BitVec 3) (h : BitVec 6) : (loSh6 op h).extractLsb' 12 3 = op := by
  unfold loSh6; rw [extract_append_high _ _ _ _ (by omega), extract_append_high _ _ _ _ (by omega), extract_whole]

@[simp] theorem loSh6_part6 (op : BitVec 3) (h : BitVec 6) : (loSh6 op h).extractLsb' 6 6 = 0#6 := by
  unfold loSh6; rw [extract_append_high _ _ _ _ (by omega), extract_append_low _ _ _ _ (by omega), extract_whole]

@[simp] theorem loSh6_part0 (op : BitVec 3) (h : BitVec 6) : (loSh6 op h).extractLsb' 0 6 = h := by
  unfold loSh6; rw [extract_append_low _ _ _ _ (by omega), extract_whole]

@[simp] theorem loSh5_part12 (op : BitVec 3) (h : BitVec 5) : (loSh5 op h).extractLsb' 12 3 = op := by
  unfold loSh5; rw [extract_append_high _ _ _ _ (by omega), extract_append_high _ _ _ _ (by omega), extract_whole]

@[simp] theorem loSh5_part5 (op : BitVec 3) (h : BitVec 5) : (loSh5 op h).extractLsb' 5 7 = 0#7 := by
  unfold loSh5; rw [extract_append_high _ _ _ _ (by omega), extract_append_low _ _ _ _ (by omega), extract_whole]

@[simp] theorem loSh5_part0 (op : BitVec 3) (h : BitVec 5) : (loSh5 op h).extractLsb' 0 5 = h := by
  unfold loSh5; rw [extract_append_low _ _ _ _ (by omega), extract_whole]

/-- The two unused fields of a conversion read as one zero. -/
@[simp] theorem loVc_zero (q : BitVec 3) (fn : BitVec 6) : (loVc 0#3 0#3 q fn).extractLsb' 9 6 = 0#6 := by
  unfold loVc
  rw [extract_append_high _ _ _ _ (by omega), extract_append_high _ _ _ _ (by omega)]
  decide

/-- An m register in the b field: its number. -/
@[simp] theorem loV_part10_3 (b : BitVec 5) (q : BitVec 3) (fn : BitVec 7) :
    (loV b q fn).extractLsb' 10 3 = b.extractLsb' 0 3 := by
  unfold loV
  rw [extract_append_high _ _ _ _ (by omega), extract_append_high _ _ _ _ (by omega)]

/-- An m register in the b field: the class bits. -/
@[simp] theorem loV_part13_2 (b : BitVec 5) (q : BitVec 3) (fn : BitVec 7) :
    (loV b q fn).extractLsb' 13 2 = b.extractLsb' 3 2 := by
  unfold loV
  rw [extract_append_high _ _ _ _ (by omega), extract_append_high _ _ _ _ (by omega)]

@[simp] theorem loM_part12 (k : BitVec 3) (o : BitVec 12) : (loM k o).extractLsb' 12 3 = k := by
  unfold loM; rw [extract_append_high _ _ _ _ (by omega),
    extract_whole]

@[simp] theorem loM_part0 (k : BitVec 3) (o : BitVec 12) : (loM k o).extractLsb' 0 12 = o := by
  unfold loM; rw [extract_append_low _ _ _ _ (by omega),
    extract_whole]

@[simp] theorem loVm_part12 (md : BitVec 3) (q : BitVec 3) (o : BitVec 9) : (loVm md q o).extractLsb' 12 3 = md := by
  unfold loVm; rw [extract_append_high _ _ _ _ (by omega),
    extract_append_high _ _ _ _ (by omega),
    extract_whole]

@[simp] theorem loVm_part9 (md : BitVec 3) (q : BitVec 3) (o : BitVec 9) : (loVm md q o).extractLsb' 9 3 = q := by
  unfold loVm; rw [extract_append_high _ _ _ _ (by omega),
    extract_append_low _ _ _ _ (by omega),
    extract_whole]

@[simp] theorem loVm_part0 (md : BitVec 3) (q : BitVec 3) (o : BitVec 9) : (loVm md q o).extractLsb' 0 9 = o := by
  unfold loVm; rw [extract_append_low _ _ _ _ (by omega),
    extract_whole]

@[simp] theorem loVt_part14 (t : BitVec 1) (g : BitVec 5) (l : BitVec 1) (q : BitVec 3) : (loVt t g l q).extractLsb' 14 1 = t := by
  unfold loVt; rw [extract_append_high _ _ _ _ (by omega),
    extract_append_high _ _ _ _ (by omega),
    extract_append_high _ _ _ _ (by omega),
    extract_append_high _ _ _ _ (by omega),
    extract_whole]

@[simp] theorem loVt_part9 (t : BitVec 1) (g : BitVec 5) (l : BitVec 1) (q : BitVec 3) : (loVt t g l q).extractLsb' 9 5 = g := by
  unfold loVt; rw [extract_append_high _ _ _ _ (by omega),
    extract_append_high _ _ _ _ (by omega),
    extract_append_high _ _ _ _ (by omega),
    extract_append_low _ _ _ _ (by omega),
    extract_whole]

@[simp] theorem loVt_part8 (t : BitVec 1) (g : BitVec 5) (l : BitVec 1) (q : BitVec 3) : (loVt t g l q).extractLsb' 8 1 = l := by
  unfold loVt; rw [extract_append_high _ _ _ _ (by omega),
    extract_append_high _ _ _ _ (by omega),
    extract_append_low _ _ _ _ (by omega),
    extract_whole]

@[simp] theorem loVt_part5 (t : BitVec 1) (g : BitVec 5) (l : BitVec 1) (q : BitVec 3) : (loVt t g l q).extractLsb' 5 3 = q := by
  unfold loVt; rw [extract_append_high _ _ _ _ (by omega),
    extract_append_low _ _ _ _ (by omega),
    extract_whole]

@[simp] theorem loVt_part0 (t : BitVec 1) (g : BitVec 5) (l : BitVec 1) (q : BitVec 3) : (loVt t g l q).extractLsb' 0 5 = 0#5 := by
  unfold loVt; rw [extract_append_low _ _ _ _ (by omega),
    extract_whole]

@[simp] theorem loV_part10 (b : BitVec 5) (q : BitVec 3) (fn : BitVec 7) : (loV b q fn).extractLsb' 10 5 = b := by
  unfold loV; rw [extract_append_high _ _ _ _ (by omega),
    extract_append_high _ _ _ _ (by omega),
    extract_whole]

@[simp] theorem loV_part7 (b : BitVec 5) (q : BitVec 3) (fn : BitVec 7) : (loV b q fn).extractLsb' 7 3 = q := by
  unfold loV; rw [extract_append_high _ _ _ _ (by omega),
    extract_append_low _ _ _ _ (by omega),
    extract_whole]

@[simp] theorem loV_part0 (b : BitVec 5) (q : BitVec 3) (fn : BitVec 7) : (loV b q fn).extractLsb' 0 7 = fn := by
  unfold loV; rw [extract_append_low _ _ _ _ (by omega),
    extract_whole]

@[simp] theorem loVc_part12 (r : BitVec 3) (k : BitVec 3) (q : BitVec 3) (fn : BitVec 6) : (loVc r k q fn).extractLsb' 12 3 = r := by
  unfold loVc; rw [extract_append_high _ _ _ _ (by omega),
    extract_append_high _ _ _ _ (by omega),
    extract_append_high _ _ _ _ (by omega),
    extract_whole]

@[simp] theorem loVc_part9 (r : BitVec 3) (k : BitVec 3) (q : BitVec 3) (fn : BitVec 6) : (loVc r k q fn).extractLsb' 9 3 = k := by
  unfold loVc; rw [extract_append_high _ _ _ _ (by omega),
    extract_append_high _ _ _ _ (by omega),
    extract_append_low _ _ _ _ (by omega),
    extract_whole]

@[simp] theorem loVc_part6 (r : BitVec 3) (k : BitVec 3) (q : BitVec 3) (fn : BitVec 6) : (loVc r k q fn).extractLsb' 6 3 = q := by
  unfold loVc; rw [extract_append_high _ _ _ _ (by omega),
    extract_append_low _ _ _ _ (by omega),
    extract_whole]

@[simp] theorem loVc_part0 (r : BitVec 3) (k : BitVec 3) (q : BitVec 3) (fn : BitVec 6) : (loVc r k q fn).extractLsb' 0 6 = fn := by
  unfold loVc; rw [extract_append_low _ _ _ _ (by omega),
    extract_whole]

@[simp] theorem loVfn_part10 (q : BitVec 3) (p : BitVec 2) (fn : BitVec 5) : (loVfn q p fn).extractLsb' 10 5 = 0#5 := by
  unfold loVfn; rw [extract_append_high _ _ _ _ (by omega),
    extract_append_high _ _ _ _ (by omega),
    extract_append_high _ _ _ _ (by omega),
    extract_whole]

@[simp] theorem loVfn_part7 (q : BitVec 3) (p : BitVec 2) (fn : BitVec 5) : (loVfn q p fn).extractLsb' 7 3 = q := by
  unfold loVfn; rw [extract_append_high _ _ _ _ (by omega),
    extract_append_high _ _ _ _ (by omega),
    extract_append_low _ _ _ _ (by omega),
    extract_whole]

@[simp] theorem loVfn_part5 (q : BitVec 3) (p : BitVec 2) (fn : BitVec 5) : (loVfn q p fn).extractLsb' 5 2 = p := by
  unfold loVfn; rw [extract_append_high _ _ _ _ (by omega),
    extract_append_low _ _ _ _ (by omega),
    extract_whole]

@[simp] theorem loVfn_part0 (q : BitVec 3) (p : BitVec 2) (fn : BitVec 5) : (loVfn q p fn).extractLsb' 0 5 = fn := by
  unfold loVfn; rw [extract_append_low _ _ _ _ (by omega),
    extract_whole]

@[simp] theorem mReg_part3 (d : BitVec 3) : (mReg d).extractLsb' 3 2 = 0#2 := by
  unfold mReg; rw [extract_append_high _ _ _ _ (by omega),
    extract_whole]

@[simp] theorem mReg_part0 (d : BitVec 3) : (mReg d).extractLsb' 0 3 = d := by
  unfold mReg; rw [extract_append_low _ _ _ _ (by omega),
    extract_whole]

@[simp] theorem pairReg_part1 (d : BitVec 4) : (pairReg d).extractLsb' 1 4 = d := by
  unfold pairReg; rw [extract_append_high _ _ _ _ (by omega),
    extract_whole]

@[simp] theorem pairReg_part0 (d : BitVec 4) : (pairReg d).extractLsb' 0 1 = 0#1 := by
  unfold pairReg; rw [extract_append_low _ _ _ _ (by omega),
    extract_whole]

/-- A 20-bit immediate is its two parts joined (LUI, ADDPC). -/
@[simp] theorem join_imm20 (i : BitVec 20) : i.extractLsb' 15 5 ++ i.extractLsb' 0 15 = i := by
  rw [BitVec.extractLsb'_append_extractLsb'_eq_extractLsb' (by omega)]; simp

/-- A 25-bit displacement is its three parts joined (JAL, J). -/
@[simp] theorem join_disp25 (i : BitVec 25) :
    i.extractLsb' 20 5 ++ i.extractLsb' 15 5 ++ i.extractLsb' 0 15 = i := by
  rw [BitVec.extractLsb'_append_extractLsb'_eq_extractLsb' (by omega),
    BitVec.extractLsb'_append_extractLsb'_eq_extractLsb' (by omega)]; simp

/-- A tile index is its two parts joined (VT format). -/
@[simp] theorem join_tile (t : BitVec 6) : t.extractLsb' 1 5 ++ t.extractLsb' 0 1 = t := by
  rw [BitVec.extractLsb'_append_extractLsb'_eq_extractLsb' (by omega)]; simp

theorem decodeParts_Opr (s : Bool) (x y : BitVec 5) (lo : BitVec 15) :
    decodeParts s 1#6 x y lo = decodeOpr s x y lo := rfl

theorem decodeParts_Addi (s : Bool) (x y : BitVec 5) (lo : BitVec 15) :
    decodeParts s 2#6 x y lo = decodeAddi s x y lo := rfl

theorem decodeParts_Andi (s : Bool) (x y : BitVec 5) (lo : BitVec 15) :
    decodeParts s 3#6 x y lo = decodeAndi s x y lo := rfl

theorem decodeParts_Ori (s : Bool) (x y : BitVec 5) (lo : BitVec 15) :
    decodeParts s 4#6 x y lo = decodeOri s x y lo := rfl

theorem decodeParts_Xori (s : Bool) (x y : BitVec 5) (lo : BitVec 15) :
    decodeParts s 5#6 x y lo = decodeXori s x y lo := rfl

theorem decodeParts_Slti (s : Bool) (x y : BitVec 5) (lo : BitVec 15) :
    decodeParts s 6#6 x y lo = decodeSlti s x y lo := rfl

theorem decodeParts_Sltiu (s : Bool) (x y : BitVec 5) (lo : BitVec 15) :
    decodeParts s 7#6 x y lo = decodeSltiu s x y lo := rfl

theorem decodeParts_Shi (s : Bool) (x y : BitVec 5) (lo : BitVec 15) :
    decodeParts s 8#6 x y lo = decodeShi s x y lo := rfl

theorem decodeParts_Lui (s : Bool) (x y : BitVec 5) (lo : BitVec 15) :
    decodeParts s 9#6 x y lo = decodeLui s x y lo := rfl

theorem decodeParts_Addpc (s : Bool) (x y : BitVec 5) (lo : BitVec 15) :
    decodeParts s 10#6 x y lo = decodeAddpc s x y lo := rfl

theorem decodeParts_Muldiv (s : Bool) (x y : BitVec 5) (lo : BitVec 15) :
    decodeParts s 11#6 x y lo = decodeMuldiv s x y lo := rfl

theorem decodeParts_Beq (s : Bool) (x y : BitVec 5) (lo : BitVec 15) :
    decodeParts s 12#6 x y lo = decodeBeq s x y lo := rfl

theorem decodeParts_Bne (s : Bool) (x y : BitVec 5) (lo : BitVec 15) :
    decodeParts s 13#6 x y lo = decodeBne s x y lo := rfl

theorem decodeParts_Blt (s : Bool) (x y : BitVec 5) (lo : BitVec 15) :
    decodeParts s 14#6 x y lo = decodeBlt s x y lo := rfl

theorem decodeParts_Bge (s : Bool) (x y : BitVec 5) (lo : BitVec 15) :
    decodeParts s 15#6 x y lo = decodeBge s x y lo := rfl

theorem decodeParts_Bltu (s : Bool) (x y : BitVec 5) (lo : BitVec 15) :
    decodeParts s 16#6 x y lo = decodeBltu s x y lo := rfl

theorem decodeParts_Bgeu (s : Bool) (x y : BitVec 5) (lo : BitVec 15) :
    decodeParts s 17#6 x y lo = decodeBgeu s x y lo := rfl

theorem decodeParts_Jal (s : Bool) (x y : BitVec 5) (lo : BitVec 15) :
    decodeParts s 18#6 x y lo = decodeJal s x y lo := rfl

theorem decodeParts_J (s : Bool) (x y : BitVec 5) (lo : BitVec 15) :
    decodeParts s 19#6 x y lo = decodeJ s x y lo := rfl

theorem decodeParts_Jalr (s : Bool) (x y : BitVec 5) (lo : BitVec 15) :
    decodeParts s 20#6 x y lo = decodeJalr s x y lo := rfl

theorem decodeParts_Sys (s : Bool) (x y : BitVec 5) (lo : BitVec 15) :
    decodeParts s 21#6 x y lo = decodeSys s x y lo := rfl

theorem decodeParts_Ld (s : Bool) (x y : BitVec 5) (lo : BitVec 15) :
    decodeParts s 22#6 x y lo = decodeLd s x y lo := rfl

theorem decodeParts_St (s : Bool) (x y : BitVec 5) (lo : BitVec 15) :
    decodeParts s 23#6 x y lo = decodeSt s x y lo := rfl

theorem decodeParts_Vld (s : Bool) (x y : BitVec 5) (lo : BitVec 15) :
    decodeParts s 24#6 x y lo = decodeVld s x y lo := rfl

theorem decodeParts_Vst (s : Bool) (x y : BitVec 5) (lo : BitVec 15) :
    decodeParts s 25#6 x y lo = decodeVst s x y lo := rfl

theorem decodeParts_Vtl (s : Bool) (x y : BitVec 5) (lo : BitVec 15) :
    decodeParts s 26#6 x y lo = decodeVtl s x y lo := rfl

theorem decodeParts_Vgs (s : Bool) (x y : BitVec 5) (lo : BitVec 15) :
    decodeParts s 27#6 x y lo = decodeVgs s x y lo := rfl

theorem decodeParts_Amo (s : Bool) (x y : BitVec 5) (lo : BitVec 15) :
    decodeParts s 28#6 x y lo = decodeAmo s x y lo := rfl

theorem decodeParts_Msg (s : Bool) (x y : BitVec 5) (lo : BitVec 15) :
    decodeParts s 29#6 x y lo = decodeMsg s x y lo := rfl

theorem decodeParts_Chk (s : Bool) (x y : BitVec 5) (lo : BitVec 15) :
    decodeParts s 30#6 x y lo = decodeChk s x y lo := rfl

theorem decodeParts_Ring (s : Bool) (x y : BitVec 5) (lo : BitVec 15) :
    decodeParts s 31#6 x y lo = decodeRing s x y lo := rfl

theorem decodeParts_Varf (s : Bool) (x y : BitVec 5) (lo : BitVec 15) :
    decodeParts s 32#6 x y lo = decodeVarf s x y lo := rfl

theorem decodeParts_Vari (s : Bool) (x y : BitVec 5) (lo : BitVec 15) :
    decodeParts s 33#6 x y lo = decodeVari s x y lo := rfl

theorem decodeParts_Vcvt (s : Bool) (x y : BitVec 5) (lo : BitVec 15) :
    decodeParts s 34#6 x y lo = decodeVcvt s x y lo := rfl

theorem decodeParts_Vred (s : Bool) (x y : BitVec 5) (lo : BitVec 15) :
    decodeParts s 35#6 x y lo = decodeVred s x y lo := rfl

theorem decodeParts_Vprm (s : Bool) (x y : BitVec 5) (lo : BitVec 15) :
    decodeParts s 36#6 x y lo = decodeVprm s x y lo := rfl

theorem decodeParts_Vfn (s : Bool) (x y : BitVec 5) (lo : BitVec 15) :
    decodeParts s 37#6 x y lo = decodeVfn s x y lo := rfl

theorem decodeParts_Vmsk (s : Bool) (x y : BitVec 5) (lo : BitVec 15) :
    decodeParts s 38#6 x y lo = decodeVmsk s x y lo := rfl

theorem decodeParts_Vq (s : Bool) (x y : BitVec 5) (lo : BitVec 15) :
    decodeParts s 39#6 x y lo = decodeVq s x y lo := rfl

theorem decodeParts_Csr (s : Bool) (x y : BitVec 5) (lo : BitVec 15) :
    decodeParts s 40#6 x y lo = decodeCsr s x y lo := rfl

theorem decodeParts_Xeng (s : Bool) (x y : BitVec 5) (lo : BitVec 15) :
    decodeParts s 48#6 x y lo = decodeXeng s x y lo := rfl

end Sys2Proof
end

