-- ==== Sys2Proof/Laws/Memory.lean ====
section
/-! SUPPORT. Laws of memory as a canonical list of cells (R180): every write keeps the form; a read after a write gives
the byte written; every other byte reads as before. The same for a chunk's write buffer (R208). -/

namespace Sys2Proof.Machine

/-! ### The canonical form -/

theorem Memory.wfFrom_mono {lo lo' : Nat} (l : List Host.Cell) (h : lo' ≤ lo) :
    Memory.wfFrom lo l = true → Memory.wfFrom lo' l = true := by
  cases l with
  | nil => intro; rfl
  | cons c t => simp only [Memory.wfFrom, Bool.and_eq_true, decide_eq_true_eq]; rintro ⟨⟨h1, h2⟩, h3⟩
                exact ⟨⟨by omega, h2⟩, h3⟩

theorem Memory.wfFrom_cellWrite (l : List Host.Cell) (k : Nat) (v : Byte) :
    ∀ lo, lo ≤ k → Memory.wfFrom lo l = true → Memory.wfFrom lo (cellWrite l k v) = true := by
  induction l with
  | nil =>
    intro lo hk _
    unfold cellWrite
    split
    · rfl
    · simp_all [Memory.wfFrom]
  | cons c t ih =>
    intro lo hk h
    obtain ⟨a, w⟩ := c
    simp only [Memory.wfFrom, Bool.and_eq_true, decide_eq_true_eq] at h
    obtain ⟨⟨h1, h2⟩, h3⟩ := h
    unfold cellWrite
    split
    · split
      · simp [Memory.wfFrom, h1, h2, h3]
      · rename_i hlt hv
        have : k + 1 ≤ a := hlt
        simp_all [Memory.wfFrom]
    · split
      · subst_vars
        split
        · exact Memory.wfFrom_mono t (by omega) h3
        · simp_all [Memory.wfFrom]
      · simp only [Memory.wfFrom, Bool.and_eq_true, decide_eq_true_eq]
        exact ⟨⟨h1, h2⟩, ih (a + 1) (by omega) h3⟩

/-- A write keeps the canonical form. -/
theorem Memory.wf_cellWrite (l : List Host.Cell) (k : Nat) (v : Byte) (h : Memory.wf l = true) :
    Memory.wf (cellWrite l k v) = true := Memory.wfFrom_cellWrite l k v 0 (Nat.zero_le _) h

theorem Memory.wf_cellWriteList (b : List Byte) : ∀ (m : List Host.Cell) (k : Nat), Memory.wf m = true →
    Memory.wf (cellWriteList m k b) = true := by
  induction b with
  | nil => intro m k h; exact h
  | cons x t ih => intro m k h; exact ih _ _ (Memory.wf_cellWrite m k x h)

theorem Memory.wf_cellWriteAll (l : List Host.Cell) : ∀ (m : List Host.Cell), Memory.wf m = true →
    Memory.wf (cellWriteAll m l) = true := by
  induction l with
  | nil => intro m h; exact h
  | cons x t ih => intro m h; exact ih _ (Memory.wf_cellWrite m x.1 x.2 h)

theorem Memory.wfFrom_filter (p : Host.Cell → Bool) (l : List Host.Cell) :
    ∀ lo, Memory.wfFrom lo l = true → Memory.wfFrom lo (l.filter p) = true := by
  induction l with
  | nil => intro lo h; exact h
  | cons c t ih =>
    intro lo h
    obtain ⟨a, w⟩ := c
    simp only [Memory.wfFrom, Bool.and_eq_true, decide_eq_true_eq] at h
    obtain ⟨⟨h1, h2⟩, h3⟩ := h
    rw [List.filter_cons]
    split
    · simp only [Memory.wfFrom, Bool.and_eq_true, decide_eq_true_eq]
      exact ⟨⟨h1, h2⟩, ih _ h3⟩
    · exact Memory.wfFrom_mono _ (by omega) (ih _ h3)

theorem Memory.wf_filter (p : Host.Cell → Bool) (l : List Host.Cell) (h : Memory.wf l = true) :
    Memory.wf (l.filter p) = true := Memory.wfFrom_filter p l 0 h

/-! ### Reading after writing -/

theorem cellRead_below (l : List Host.Cell) (k : Nat) :
    ∀ lo, Memory.wfFrom lo l = true → k < lo → cellRead l k = 0#8 := by
  cases l with
  | nil => intros; rfl
  | cons c t =>
    intro lo h hk
    obtain ⟨a, w⟩ := c
    simp only [Memory.wfFrom, Bool.and_eq_true, decide_eq_true_eq] at h
    unfold cellRead
    rw [if_neg (by omega), if_pos (by omega)]

theorem cellRead_cellWrite_from (l : List Host.Cell) (k j : Nat) (v : Byte) :
    ∀ lo, Memory.wfFrom lo l = true → cellRead (cellWrite l k v) j = if j = k then v else cellRead l j := by
  induction l with
  | nil =>
    intro lo _
    unfold cellWrite
    by_cases hv : v = 0#8
    · simp [hv, cellRead]
    · simp only [hv, if_false, cellRead]
      by_cases hj : j = k
      · simp [hj]
      · have : ¬ k = j := fun e => hj e.symm
        simp [hj, this]
  | cons c t ih =>
    intro lo h
    obtain ⟨a, w⟩ := c
    simp only [Memory.wfFrom, Bool.and_eq_true, decide_eq_true_eq] at h
    obtain ⟨⟨h1, h2⟩, h3⟩ := h
    unfold cellWrite
    split
    · rename_i hlt
      split
      · rename_i hv
        by_cases hj : j = k
        · subst hj
          rw [if_pos rfl, hv]
          exact cellRead_below ((a, w) :: t) j a (by simp [Memory.wfFrom, h2, h3]) hlt
        · rw [if_neg hj]
      · rw [cellRead]
        by_cases hj : j = k
        · simp [hj]
        · have : ¬ k = j := fun e => hj e.symm
          rw [if_neg this, if_neg hj]
          split
          · exact (cellRead_below ((a, w) :: t) j a (by simp [Memory.wfFrom, h2, h3]) (by omega)).symm
          · rfl
    · split
      · rename_i hnl heq
        subst heq
        split
        · rename_i hv
          by_cases hj : j = k
          · subst hj
            rw [if_pos rfl, hv]
            exact cellRead_below t j (j + 1) h3 (by omega)
          · rw [if_neg hj, cellRead]
            have : ¬ k = j := fun e => hj e.symm
            rw [if_neg this]
            split
            · exact cellRead_below t j (k + 1) h3 (by omega)
            · rfl
        · rw [cellRead]
          by_cases hj : j = k
          · simp [hj]
          · have : ¬ k = j := fun e => hj e.symm
            rw [if_neg this, if_neg hj, cellRead, if_neg this]
      · rename_i hnl hne
        rw [cellRead, cellRead, ih (a + 1) h3]
        by_cases hj : j = k
        · subst hj
          rw [if_neg (by omega), if_neg hnl, if_pos rfl, if_pos rfl]
        · simp only [if_neg hj]

/-- In canonical memory a read after a write gives the byte written, and every other byte reads as before. -/
theorem cellRead_cellWrite (l : List Host.Cell) (k j : Nat) (v : Byte) (h : Memory.wf l = true) :
    cellRead (cellWrite l k v) j = if j = k then v else cellRead l j := cellRead_cellWrite_from l k j v 0 h

theorem cellRead_cellWriteList (b : List Byte) : ∀ (m : List Host.Cell) (k j : Nat), Memory.wf m = true →
    cellRead (cellWriteList m k b) j = if k ≤ j ∧ j < k + b.length then b.getD (j - k) 0 else cellRead m j := by
  induction b with
  | nil => intro m k j _; rw [if_neg (by simp), cellWriteList]
  | cons x t ih =>
    intro m k j h
    rw [cellWriteList, ih _ _ _ (Memory.wf_cellWrite m k x h), cellRead_cellWrite m k j x h]
    by_cases h1 : j = k
    · subst h1; simp
    · by_cases h2 : k + 1 ≤ j ∧ j < k + 1 + t.length
      · rw [if_pos h2, if_pos (by simp; omega)]
        have : j - k = (j - (k + 1)) + 1 := by omega
        rw [this]; simp
      · rw [if_neg h2, if_neg h1, if_neg (by simp; omega)]

/-! ### The write buffer (R208) -/

/-- The keys of a write buffer rise. -/
def bufSorted : Nat → List Host.Cell → Bool
  | _, [] => true
  | lo, (a, _) :: t => decide (lo ≤ a) && bufSorted (a + 1) t

/-- A write to the buffer is seen at its key; every other key is as before. -/
theorem bufRead_bufWrite (l : List Host.Cell) (k j : Nat) (v : Byte) :
    ∀ lo, bufSorted lo l = true → bufRead (bufWrite l k v) j = if j = k then some v else bufRead l j := by
  induction l with
  | nil =>
    intro lo _
    simp only [bufWrite, bufRead]
    by_cases hj : j = k
    · simp [hj]
    · have : ¬ k = j := fun e => hj e.symm
      simp [hj, this]
  | cons c t ih =>
    intro lo h
    obtain ⟨a, w⟩ := c
    simp only [bufSorted, Bool.and_eq_true, decide_eq_true_eq] at h
    unfold bufWrite
    split
    · rename_i hlt
      rw [bufRead]
      by_cases hj : j = k
      · simp [hj]
      · have : ¬ k = j := fun e => hj e.symm
        rw [if_neg this, if_neg hj]
        split
        · rw [bufRead, if_neg (by omega), if_pos (by omega)]
        · rfl
    · split
      · rename_i hnl heq
        subst heq
        rw [bufRead, bufRead]
        by_cases hj : j = k
        · simp [hj]
        · have : ¬ k = j := fun e => hj e.symm
          rw [if_neg this, if_neg hj, if_neg this]
      · rename_i hnl hne
        rw [bufRead, bufRead, ih (a + 1) h.2]
        by_cases hj : j = k
        · subst hj
          rw [if_neg (by omega), if_neg hnl, if_pos rfl, if_pos rfl]
        · simp only [if_neg hj]

theorem bufSorted_mono {lo lo' : Nat} (l : List Host.Cell) (h : lo' ≤ lo) :
    bufSorted lo l = true → bufSorted lo' l = true := by
  cases l with
  | nil => intro; rfl
  | cons c t => simp only [bufSorted, Bool.and_eq_true, decide_eq_true_eq]; rintro ⟨h1, h3⟩; exact ⟨by omega, h3⟩

theorem bufSorted_bufWrite (l : List Host.Cell) (k : Nat) (v : Byte) :
    ∀ lo, lo ≤ k → bufSorted lo l = true → bufSorted lo (bufWrite l k v) = true := by
  induction l with
  | nil => intro lo hk _; simp [bufWrite, bufSorted, hk]
  | cons c t ih =>
    intro lo hk h
    obtain ⟨a, w⟩ := c
    simp only [bufSorted, Bool.and_eq_true, decide_eq_true_eq] at h
    unfold bufWrite
    split
    · rename_i hlt
      have : k + 1 ≤ a := hlt
      simp [bufSorted, hk, this, h.2]
    · split
      · subst_vars; simp [bufSorted, hk, h.2]
      · simp only [bufSorted, Bool.and_eq_true, decide_eq_true_eq]
        exact ⟨h.1, ih (a + 1) (by omega) h.2⟩

theorem bufRead_bufWriteList (b : List Byte) : ∀ (m : List Host.Cell) (k j : Nat), bufSorted 0 m = true →
    bufRead (bufWriteList m k b) j = if k ≤ j ∧ j < k + b.length then some (b.getD (j - k) 0) else bufRead m j := by
  induction b with
  | nil => intro m k j _; rw [if_neg (by simp), bufWriteList]
  | cons x t ih =>
    intro m k j h
    rw [bufWriteList, ih _ _ _ (bufSorted_bufWrite m k x 0 (Nat.zero_le _) h), bufRead_bufWrite m k j x 0 h]
    by_cases h1 : j = k
    · subst h1; simp
    · by_cases h2 : k + 1 ≤ j ∧ j < k + 1 + t.length
      · rw [if_pos h2, if_pos (by simp; omega)]
        have : j - k = (j - (k + 1)) + 1 := by omega
        rw [this]; simp
      · rw [if_neg h2, if_neg h1, if_neg (by simp; omega)]

theorem bufSorted_bufWriteList (b : List Byte) : ∀ (m : List Host.Cell) (k : Nat), bufSorted 0 m = true →
    bufSorted 0 (bufWriteList m k b) = true := by
  induction b with
  | nil => intro m k h; exact h
  | cons x t ih => intro m k h; exact ih _ _ (bufSorted_bufWrite m k x 0 (Nat.zero_le _) h)

end Sys2Proof.Machine
end

