-- ==== Sys2Proof/Laws/State.lean ====
section
/-! SUPPORT. Laws of the record updates: one lemma for each field and each update of the state and of a slot. -/

set_option Elab.async false

namespace Sys2Proof.Machine

@[simp] theorem State.withFocus_focus (s : State) (f : Slot) : (s.withFocus f).focus = f := rfl
@[simp] theorem State.withFocus_others (s : State) (f : Slot) : (s.withFocus f).others = s.others := rfl
@[simp] theorem State.withFocus_cores (s : State) (f : Slot) : (s.withFocus f).cores = s.cores := rfl
@[simp] theorem State.withFocus_ctxs (s : State) (f : Slot) : (s.withFocus f).ctxs = s.ctxs := rfl
@[simp] theorem State.withFocus_clusters (s : State) (f : Slot) : (s.withFocus f).clusters = s.clusters := rfl
@[simp] theorem State.withFocus_ready (s : State) (f : Slot) : (s.withFocus f).ready = s.ready := rfl
@[simp] theorem State.withFocus_susp (s : State) (f : Slot) : (s.withFocus f).susp = s.susp := rfl
@[simp] theorem State.withFocus_mem (s : State) (f : Slot) : (s.withFocus f).mem = s.mem := rfl
@[simp] theorem State.withFocus_poison (s : State) (f : Slot) : (s.withFocus f).poison = s.poison := rfl
@[simp] theorem State.withFocus_covered (s : State) (f : Slot) : (s.withFocus f).covered = s.covered := rfl
@[simp] theorem State.withFocus_host (s : State) (f : Slot) : (s.withFocus f).host = s.host := rfl
@[simp] theorem State.withFocus_log (s : State) (f : Slot) : (s.withFocus f).log = s.log := rfl
@[simp] theorem State.withFocus_pend (s : State) (f : Slot) : (s.withFocus f).pend = s.pend := rfl
@[simp] theorem State.withFocus_jobs (s : State) (f : Slot) : (s.withFocus f).jobs = s.jobs := rfl
@[simp] theorem State.withFocus_nextUid (s : State) (f : Slot) : (s.withFocus f).nextUid = s.nextUid := rfl
@[simp] theorem State.withFocus_net (s : State) (f : Slot) : (s.withFocus f).net = s.net := rfl
@[simp] theorem State.withFocus_excl (s : State) (f : Slot) : (s.withFocus f).excl = s.excl := rfl
@[simp] theorem State.withFocus_exclQ (s : State) (f : Slot) : (s.withFocus f).exclQ = s.exclQ := rfl
@[simp] theorem State.withFocus_cycle (s : State) (f : Slot) : (s.withFocus f).cycle = s.cycle := rfl
@[simp] theorem State.withFocus_ticks (s : State) (f : Slot) : (s.withFocus f).ticks = s.ticks := rfl
@[simp] theorem State.withFocus_mgmt (s : State) (f : Slot) : (s.withFocus f).mgmt = s.mgmt := rfl
@[simp] theorem State.withFocus_agenda (s : State) (f : Slot) : (s.withFocus f).agenda = s.agenda := rfl
@[simp] theorem State.withFocus_fresh (s : State) (f : Slot) : (s.withFocus f).fresh = s.fresh := rfl
@[simp] theorem State.withFocus_onceQ (s : State) (f : Slot) : (s.withFocus f).onceQ = s.onceQ := rfl
@[simp] theorem State.withFocus_gangs (s : State) (f : Slot) : (s.withFocus f).gangs = s.gangs := rfl
@[simp] theorem State.withFocus_hostQ (s : State) (f : Slot) : (s.withFocus f).hostQ = s.hostQ := rfl
@[simp] theorem State.withFocus_hostOut (s : State) (f : Slot) : (s.withFocus f).hostOut = s.hostOut := rfl
@[simp] theorem State.withFocus_relQ (s : State) (f : Slot) : (s.withFocus f).relQ = s.relQ := rfl
@[simp] theorem State.withFocus_moves (s : State) (f : Slot) : (s.withFocus f).moves = s.moves := rfl
@[simp] theorem State.withFocus_images (s : State) (f : Slot) : (s.withFocus f).images = s.images := rfl
@[simp] theorem State.withFocus_llc (s : State) (f : Slot) : (s.withFocus f).llc = s.llc := rfl
@[simp] theorem State.withFocus_offline (s : State) (f : Slot) : (s.withFocus f).offline = s.offline := rfl
@[simp] theorem State.withFocus_dram (s : State) (f : Slot) : (s.withFocus f).dram = s.dram := rfl
@[simp] theorem State.withFocus_blamed (s : State) (f : Slot) : (s.withFocus f).blamed = s.blamed := rfl
@[simp] theorem State.withFocus_bursts (s : State) (f : Slot) : (s.withFocus f).bursts = s.bursts := rfl
@[simp] theorem State.withFocus_keys (s : State) (f : Slot) : (s.withFocus f).keys = s.keys := rfl
@[simp] theorem State.withFocus_migs (s : State) (f : Slot) : (s.withFocus f).migs = s.migs := rfl
@[simp] theorem State.withFocus_scores (s : State) (f : Slot) : (s.withFocus f).scores = s.scores := rfl
@[simp] theorem State.withFocus_scoreAlarms (s : State) (f : Slot) : (s.withFocus f).scoreAlarms = s.scoreAlarms := rfl
@[simp] theorem State.withFocus_thresholds (s : State) (f : Slot) : (s.withFocus f).thresholds = s.thresholds := rfl
@[simp] theorem State.withFocus_retired (s : State) (f : Slot) : (s.withFocus f).retired = s.retired := rfl
@[simp] theorem State.withFocus_law255 (s : State) (f : Slot) : (s.withFocus f).law255 = s.law255 := rfl
@[simp] theorem State.withFocus_lawAhead (s : State) (f : Slot) : (s.withFocus f).lawAhead = s.lawAhead := rfl
@[simp] theorem State.withFocus_records (s : State) (f : Slot) : (s.withFocus f).records = s.records := rfl
@[simp] theorem State.withFocus_rects (s : State) (f : Slot) : (s.withFocus f).rects = s.rects := rfl
@[simp] theorem State.withFocus_fences (s : State) (f : Slot) : (s.withFocus f).fences = s.fences := rfl
@[simp] theorem State.withFocus_plim (s : State) (f : Slot) : (s.withFocus f).plim = s.plim := rfl
@[simp] theorem State.withFocus_pfix (s : State) (f : Slot) : (s.withFocus f).pfix = s.pfix := rfl
@[simp] theorem State.withFocus_grantAt (s : State) (f : Slot) : (s.withFocus f).grantAt = s.grantAt := rfl
@[simp] theorem State.withFocus_fabOut (s : State) (f : Slot) : (s.withFocus f).fabOut = s.fabOut := rfl
@[simp] theorem State.withFocus_fabNext (s : State) (f : Slot) : (s.withFocus f).fabNext = s.fabNext := rfl
@[simp] theorem State.withFocus_fabSeen (s : State) (f : Slot) : (s.withFocus f).fabSeen = s.fabSeen := rfl
@[simp] theorem State.withFocus_ports (s : State) (f : Slot) : (s.withFocus f).ports = s.ports := rfl
@[simp] theorem State.withFocus_routes (s : State) (f : Slot) : (s.withFocus f).routes = s.routes := rfl
@[simp] theorem State.withFocus_farTakes (s : State) (f : Slot) : (s.withFocus f).farTakes = s.farTakes := rfl
@[simp] theorem State.withFocus_syncAt (s : State) (f : Slot) : (s.withFocus f).syncAt = s.syncAt := rfl
@[simp] theorem State.withFocus_slew (s : State) (f : Slot) : (s.withFocus f).slew = s.slew := rfl
@[simp] theorem State.withFocus_slewRem (s : State) (f : Slot) : (s.withFocus f).slewRem = s.slewRem := rfl
@[simp] theorem State.withFocus_boot (s : State) (f : Slot) : (s.withFocus f).boot = s.boot := rfl
@[simp] theorem State.withFocus_measures (s : State) (f : Slot) : (s.withFocus f).measures = s.measures := rfl
@[simp] theorem State.withFocus_answers (s : State) (f : Slot) : (s.withFocus f).answers = s.answers := rfl
@[simp] theorem State.withFocus_asked (s : State) (f : Slot) : (s.withFocus f).asked = s.asked := rfl
@[simp] theorem State.withFocus_session (s : State) (f : Slot) : (s.withFocus f).session = s.session := rfl

@[simp] theorem State.setCtx_focus (s : State) (c : Ctx) : (s.setCtx c).focus = s.focus := rfl
@[simp] theorem State.setCtx_others (s : State) (c : Ctx) : (s.setCtx c).others = s.others := rfl
@[simp] theorem State.setCtx_cores (s : State) (c : Ctx) : (s.setCtx c).cores = s.cores := rfl
@[simp] theorem State.setCtx_ctxs (s : State) (c : Ctx) : (s.setCtx c).ctxs = upsert (fun x => x.id = c.id) c s.ctxs := rfl
@[simp] theorem State.setCtx_clusters (s : State) (c : Ctx) : (s.setCtx c).clusters = s.clusters := rfl
@[simp] theorem State.setCtx_ready (s : State) (c : Ctx) : (s.setCtx c).ready = s.ready := rfl
@[simp] theorem State.setCtx_susp (s : State) (c : Ctx) : (s.setCtx c).susp = s.susp := rfl
@[simp] theorem State.setCtx_mem (s : State) (c : Ctx) : (s.setCtx c).mem = s.mem := rfl
@[simp] theorem State.setCtx_poison (s : State) (c : Ctx) : (s.setCtx c).poison = s.poison := rfl
@[simp] theorem State.setCtx_covered (s : State) (c : Ctx) : (s.setCtx c).covered = s.covered := rfl
@[simp] theorem State.setCtx_host (s : State) (c : Ctx) : (s.setCtx c).host = s.host := rfl
@[simp] theorem State.setCtx_log (s : State) (c : Ctx) : (s.setCtx c).log = s.log := rfl
@[simp] theorem State.setCtx_pend (s : State) (c : Ctx) : (s.setCtx c).pend = s.pend := rfl
@[simp] theorem State.setCtx_jobs (s : State) (c : Ctx) : (s.setCtx c).jobs = s.jobs := rfl
@[simp] theorem State.setCtx_nextUid (s : State) (c : Ctx) : (s.setCtx c).nextUid = s.nextUid := rfl
@[simp] theorem State.setCtx_net (s : State) (c : Ctx) : (s.setCtx c).net = s.net := rfl
@[simp] theorem State.setCtx_excl (s : State) (c : Ctx) : (s.setCtx c).excl = s.excl := rfl
@[simp] theorem State.setCtx_exclQ (s : State) (c : Ctx) : (s.setCtx c).exclQ = s.exclQ := rfl
@[simp] theorem State.setCtx_cycle (s : State) (c : Ctx) : (s.setCtx c).cycle = s.cycle := rfl
@[simp] theorem State.setCtx_ticks (s : State) (c : Ctx) : (s.setCtx c).ticks = s.ticks := rfl
@[simp] theorem State.setCtx_mgmt (s : State) (c : Ctx) : (s.setCtx c).mgmt = s.mgmt := rfl
@[simp] theorem State.setCtx_agenda (s : State) (c : Ctx) : (s.setCtx c).agenda = s.agenda := rfl
@[simp] theorem State.setCtx_fresh (s : State) (c : Ctx) : (s.setCtx c).fresh = s.fresh := rfl
@[simp] theorem State.setCtx_onceQ (s : State) (c : Ctx) : (s.setCtx c).onceQ = s.onceQ := rfl
@[simp] theorem State.setCtx_gangs (s : State) (c : Ctx) : (s.setCtx c).gangs = s.gangs := rfl
@[simp] theorem State.setCtx_hostQ (s : State) (c : Ctx) : (s.setCtx c).hostQ = s.hostQ := rfl
@[simp] theorem State.setCtx_hostOut (s : State) (c : Ctx) : (s.setCtx c).hostOut = s.hostOut := rfl
@[simp] theorem State.setCtx_relQ (s : State) (c : Ctx) : (s.setCtx c).relQ = s.relQ := rfl
@[simp] theorem State.setCtx_moves (s : State) (c : Ctx) : (s.setCtx c).moves = s.moves := rfl
@[simp] theorem State.setCtx_images (s : State) (c : Ctx) : (s.setCtx c).images = s.images := rfl
@[simp] theorem State.setCtx_llc (s : State) (c : Ctx) : (s.setCtx c).llc = s.llc := rfl
@[simp] theorem State.setCtx_offline (s : State) (c : Ctx) : (s.setCtx c).offline = s.offline := rfl
@[simp] theorem State.setCtx_dram (s : State) (c : Ctx) : (s.setCtx c).dram = s.dram := rfl
@[simp] theorem State.setCtx_blamed (s : State) (c : Ctx) : (s.setCtx c).blamed = s.blamed := rfl
@[simp] theorem State.setCtx_bursts (s : State) (c : Ctx) : (s.setCtx c).bursts = s.bursts := rfl
@[simp] theorem State.setCtx_keys (s : State) (c : Ctx) : (s.setCtx c).keys = s.keys := rfl
@[simp] theorem State.setCtx_migs (s : State) (c : Ctx) : (s.setCtx c).migs = s.migs := rfl
@[simp] theorem State.setCtx_scores (s : State) (c : Ctx) : (s.setCtx c).scores = s.scores := rfl
@[simp] theorem State.setCtx_scoreAlarms (s : State) (c : Ctx) : (s.setCtx c).scoreAlarms = s.scoreAlarms := rfl
@[simp] theorem State.setCtx_thresholds (s : State) (c : Ctx) : (s.setCtx c).thresholds = s.thresholds := rfl
@[simp] theorem State.setCtx_retired (s : State) (c : Ctx) : (s.setCtx c).retired = s.retired := rfl
@[simp] theorem State.setCtx_law255 (s : State) (c : Ctx) : (s.setCtx c).law255 = s.law255 := rfl
@[simp] theorem State.setCtx_lawAhead (s : State) (c : Ctx) : (s.setCtx c).lawAhead = s.lawAhead := rfl
@[simp] theorem State.setCtx_records (s : State) (c : Ctx) : (s.setCtx c).records = s.records := rfl
@[simp] theorem State.setCtx_rects (s : State) (c : Ctx) : (s.setCtx c).rects = s.rects := rfl
@[simp] theorem State.setCtx_fences (s : State) (c : Ctx) : (s.setCtx c).fences = s.fences := rfl
@[simp] theorem State.setCtx_plim (s : State) (c : Ctx) : (s.setCtx c).plim = s.plim := rfl
@[simp] theorem State.setCtx_pfix (s : State) (c : Ctx) : (s.setCtx c).pfix = s.pfix := rfl
@[simp] theorem State.setCtx_grantAt (s : State) (c : Ctx) : (s.setCtx c).grantAt = s.grantAt := rfl
@[simp] theorem State.setCtx_fabOut (s : State) (c : Ctx) : (s.setCtx c).fabOut = s.fabOut := rfl
@[simp] theorem State.setCtx_fabNext (s : State) (c : Ctx) : (s.setCtx c).fabNext = s.fabNext := rfl
@[simp] theorem State.setCtx_fabSeen (s : State) (c : Ctx) : (s.setCtx c).fabSeen = s.fabSeen := rfl
@[simp] theorem State.setCtx_ports (s : State) (c : Ctx) : (s.setCtx c).ports = s.ports := rfl
@[simp] theorem State.setCtx_routes (s : State) (c : Ctx) : (s.setCtx c).routes = s.routes := rfl
@[simp] theorem State.setCtx_farTakes (s : State) (c : Ctx) : (s.setCtx c).farTakes = s.farTakes := rfl
@[simp] theorem State.setCtx_syncAt (s : State) (c : Ctx) : (s.setCtx c).syncAt = s.syncAt := rfl
@[simp] theorem State.setCtx_slew (s : State) (c : Ctx) : (s.setCtx c).slew = s.slew := rfl
@[simp] theorem State.setCtx_slewRem (s : State) (c : Ctx) : (s.setCtx c).slewRem = s.slewRem := rfl
@[simp] theorem State.setCtx_boot (s : State) (c : Ctx) : (s.setCtx c).boot = s.boot := rfl
@[simp] theorem State.setCtx_measures (s : State) (c : Ctx) : (s.setCtx c).measures = s.measures := rfl
@[simp] theorem State.setCtx_answers (s : State) (c : Ctx) : (s.setCtx c).answers = s.answers := rfl
@[simp] theorem State.setCtx_asked (s : State) (c : Ctx) : (s.setCtx c).asked = s.asked := rfl
@[simp] theorem State.setCtx_session (s : State) (c : Ctx) : (s.setCtx c).session = s.session := rfl

@[simp] theorem State.setCore_focus (s : State) (c : CoreSt) : (s.setCore c).focus = s.focus := rfl
@[simp] theorem State.setCore_others (s : State) (c : CoreSt) : (s.setCore c).others = s.others := rfl
@[simp] theorem State.setCore_cores (s : State) (c : CoreSt) : (s.setCore c).cores = upsert (fun x => x.id = c.id) c s.cores := rfl
@[simp] theorem State.setCore_ctxs (s : State) (c : CoreSt) : (s.setCore c).ctxs = s.ctxs := rfl
@[simp] theorem State.setCore_clusters (s : State) (c : CoreSt) : (s.setCore c).clusters = s.clusters := rfl
@[simp] theorem State.setCore_ready (s : State) (c : CoreSt) : (s.setCore c).ready = s.ready := rfl
@[simp] theorem State.setCore_susp (s : State) (c : CoreSt) : (s.setCore c).susp = s.susp := rfl
@[simp] theorem State.setCore_mem (s : State) (c : CoreSt) : (s.setCore c).mem = s.mem := rfl
@[simp] theorem State.setCore_poison (s : State) (c : CoreSt) : (s.setCore c).poison = s.poison := rfl
@[simp] theorem State.setCore_covered (s : State) (c : CoreSt) : (s.setCore c).covered = s.covered := rfl
@[simp] theorem State.setCore_host (s : State) (c : CoreSt) : (s.setCore c).host = s.host := rfl
@[simp] theorem State.setCore_log (s : State) (c : CoreSt) : (s.setCore c).log = s.log := rfl
@[simp] theorem State.setCore_pend (s : State) (c : CoreSt) : (s.setCore c).pend = s.pend := rfl
@[simp] theorem State.setCore_jobs (s : State) (c : CoreSt) : (s.setCore c).jobs = s.jobs := rfl
@[simp] theorem State.setCore_nextUid (s : State) (c : CoreSt) : (s.setCore c).nextUid = s.nextUid := rfl
@[simp] theorem State.setCore_net (s : State) (c : CoreSt) : (s.setCore c).net = s.net := rfl
@[simp] theorem State.setCore_excl (s : State) (c : CoreSt) : (s.setCore c).excl = s.excl := rfl
@[simp] theorem State.setCore_exclQ (s : State) (c : CoreSt) : (s.setCore c).exclQ = s.exclQ := rfl
@[simp] theorem State.setCore_cycle (s : State) (c : CoreSt) : (s.setCore c).cycle = s.cycle := rfl
@[simp] theorem State.setCore_ticks (s : State) (c : CoreSt) : (s.setCore c).ticks = s.ticks := rfl
@[simp] theorem State.setCore_mgmt (s : State) (c : CoreSt) : (s.setCore c).mgmt = s.mgmt := rfl
@[simp] theorem State.setCore_agenda (s : State) (c : CoreSt) : (s.setCore c).agenda = s.agenda := rfl
@[simp] theorem State.setCore_fresh (s : State) (c : CoreSt) : (s.setCore c).fresh = s.fresh := rfl
@[simp] theorem State.setCore_onceQ (s : State) (c : CoreSt) : (s.setCore c).onceQ = s.onceQ := rfl
@[simp] theorem State.setCore_gangs (s : State) (c : CoreSt) : (s.setCore c).gangs = s.gangs := rfl
@[simp] theorem State.setCore_hostQ (s : State) (c : CoreSt) : (s.setCore c).hostQ = s.hostQ := rfl
@[simp] theorem State.setCore_hostOut (s : State) (c : CoreSt) : (s.setCore c).hostOut = s.hostOut := rfl
@[simp] theorem State.setCore_relQ (s : State) (c : CoreSt) : (s.setCore c).relQ = s.relQ := rfl
@[simp] theorem State.setCore_moves (s : State) (c : CoreSt) : (s.setCore c).moves = s.moves := rfl
@[simp] theorem State.setCore_images (s : State) (c : CoreSt) : (s.setCore c).images = s.images := rfl
@[simp] theorem State.setCore_llc (s : State) (c : CoreSt) : (s.setCore c).llc = s.llc := rfl
@[simp] theorem State.setCore_offline (s : State) (c : CoreSt) : (s.setCore c).offline = s.offline := rfl
@[simp] theorem State.setCore_dram (s : State) (c : CoreSt) : (s.setCore c).dram = s.dram := rfl
@[simp] theorem State.setCore_blamed (s : State) (c : CoreSt) : (s.setCore c).blamed = s.blamed := rfl
@[simp] theorem State.setCore_bursts (s : State) (c : CoreSt) : (s.setCore c).bursts = s.bursts := rfl
@[simp] theorem State.setCore_keys (s : State) (c : CoreSt) : (s.setCore c).keys = s.keys := rfl
@[simp] theorem State.setCore_migs (s : State) (c : CoreSt) : (s.setCore c).migs = s.migs := rfl
@[simp] theorem State.setCore_scores (s : State) (c : CoreSt) : (s.setCore c).scores = s.scores := rfl
@[simp] theorem State.setCore_scoreAlarms (s : State) (c : CoreSt) : (s.setCore c).scoreAlarms = s.scoreAlarms := rfl
@[simp] theorem State.setCore_thresholds (s : State) (c : CoreSt) : (s.setCore c).thresholds = s.thresholds := rfl
@[simp] theorem State.setCore_retired (s : State) (c : CoreSt) : (s.setCore c).retired = s.retired := rfl
@[simp] theorem State.setCore_law255 (s : State) (c : CoreSt) : (s.setCore c).law255 = s.law255 := rfl
@[simp] theorem State.setCore_lawAhead (s : State) (c : CoreSt) : (s.setCore c).lawAhead = s.lawAhead := rfl
@[simp] theorem State.setCore_records (s : State) (c : CoreSt) : (s.setCore c).records = s.records := rfl
@[simp] theorem State.setCore_rects (s : State) (c : CoreSt) : (s.setCore c).rects = s.rects := rfl
@[simp] theorem State.setCore_fences (s : State) (c : CoreSt) : (s.setCore c).fences = s.fences := rfl
@[simp] theorem State.setCore_plim (s : State) (c : CoreSt) : (s.setCore c).plim = s.plim := rfl
@[simp] theorem State.setCore_pfix (s : State) (c : CoreSt) : (s.setCore c).pfix = s.pfix := rfl
@[simp] theorem State.setCore_grantAt (s : State) (c : CoreSt) : (s.setCore c).grantAt = s.grantAt := rfl
@[simp] theorem State.setCore_fabOut (s : State) (c : CoreSt) : (s.setCore c).fabOut = s.fabOut := rfl
@[simp] theorem State.setCore_fabNext (s : State) (c : CoreSt) : (s.setCore c).fabNext = s.fabNext := rfl
@[simp] theorem State.setCore_fabSeen (s : State) (c : CoreSt) : (s.setCore c).fabSeen = s.fabSeen := rfl
@[simp] theorem State.setCore_ports (s : State) (c : CoreSt) : (s.setCore c).ports = s.ports := rfl
@[simp] theorem State.setCore_routes (s : State) (c : CoreSt) : (s.setCore c).routes = s.routes := rfl
@[simp] theorem State.setCore_farTakes (s : State) (c : CoreSt) : (s.setCore c).farTakes = s.farTakes := rfl
@[simp] theorem State.setCore_syncAt (s : State) (c : CoreSt) : (s.setCore c).syncAt = s.syncAt := rfl
@[simp] theorem State.setCore_slew (s : State) (c : CoreSt) : (s.setCore c).slew = s.slew := rfl
@[simp] theorem State.setCore_slewRem (s : State) (c : CoreSt) : (s.setCore c).slewRem = s.slewRem := rfl
@[simp] theorem State.setCore_boot (s : State) (c : CoreSt) : (s.setCore c).boot = s.boot := rfl
@[simp] theorem State.setCore_measures (s : State) (c : CoreSt) : (s.setCore c).measures = s.measures := rfl
@[simp] theorem State.setCore_answers (s : State) (c : CoreSt) : (s.setCore c).answers = s.answers := rfl
@[simp] theorem State.setCore_asked (s : State) (c : CoreSt) : (s.setCore c).asked = s.asked := rfl
@[simp] theorem State.setCore_session (s : State) (c : CoreSt) : (s.setCore c).session = s.session := rfl

@[simp] theorem State.setCluster_focus (s : State) (c : Cluster) : (s.setCluster c).focus = s.focus := rfl
@[simp] theorem State.setCluster_others (s : State) (c : Cluster) : (s.setCluster c).others = s.others := rfl
@[simp] theorem State.setCluster_cores (s : State) (c : Cluster) : (s.setCluster c).cores = s.cores := rfl
@[simp] theorem State.setCluster_ctxs (s : State) (c : Cluster) : (s.setCluster c).ctxs = s.ctxs := rfl
@[simp] theorem State.setCluster_clusters (s : State) (c : Cluster) : (s.setCluster c).clusters = upsert (fun x => x.id = c.id) c s.clusters := rfl
@[simp] theorem State.setCluster_ready (s : State) (c : Cluster) : (s.setCluster c).ready = s.ready := rfl
@[simp] theorem State.setCluster_susp (s : State) (c : Cluster) : (s.setCluster c).susp = s.susp := rfl
@[simp] theorem State.setCluster_mem (s : State) (c : Cluster) : (s.setCluster c).mem = s.mem := rfl
@[simp] theorem State.setCluster_poison (s : State) (c : Cluster) : (s.setCluster c).poison = s.poison := rfl
@[simp] theorem State.setCluster_covered (s : State) (c : Cluster) : (s.setCluster c).covered = s.covered := rfl
@[simp] theorem State.setCluster_host (s : State) (c : Cluster) : (s.setCluster c).host = s.host := rfl
@[simp] theorem State.setCluster_log (s : State) (c : Cluster) : (s.setCluster c).log = s.log := rfl
@[simp] theorem State.setCluster_pend (s : State) (c : Cluster) : (s.setCluster c).pend = s.pend := rfl
@[simp] theorem State.setCluster_jobs (s : State) (c : Cluster) : (s.setCluster c).jobs = s.jobs := rfl
@[simp] theorem State.setCluster_nextUid (s : State) (c : Cluster) : (s.setCluster c).nextUid = s.nextUid := rfl
@[simp] theorem State.setCluster_net (s : State) (c : Cluster) : (s.setCluster c).net = s.net := rfl
@[simp] theorem State.setCluster_excl (s : State) (c : Cluster) : (s.setCluster c).excl = s.excl := rfl
@[simp] theorem State.setCluster_exclQ (s : State) (c : Cluster) : (s.setCluster c).exclQ = s.exclQ := rfl
@[simp] theorem State.setCluster_cycle (s : State) (c : Cluster) : (s.setCluster c).cycle = s.cycle := rfl
@[simp] theorem State.setCluster_ticks (s : State) (c : Cluster) : (s.setCluster c).ticks = s.ticks := rfl
@[simp] theorem State.setCluster_mgmt (s : State) (c : Cluster) : (s.setCluster c).mgmt = s.mgmt := rfl
@[simp] theorem State.setCluster_agenda (s : State) (c : Cluster) : (s.setCluster c).agenda = s.agenda := rfl
@[simp] theorem State.setCluster_fresh (s : State) (c : Cluster) : (s.setCluster c).fresh = s.fresh := rfl
@[simp] theorem State.setCluster_onceQ (s : State) (c : Cluster) : (s.setCluster c).onceQ = s.onceQ := rfl
@[simp] theorem State.setCluster_gangs (s : State) (c : Cluster) : (s.setCluster c).gangs = s.gangs := rfl
@[simp] theorem State.setCluster_hostQ (s : State) (c : Cluster) : (s.setCluster c).hostQ = s.hostQ := rfl
@[simp] theorem State.setCluster_hostOut (s : State) (c : Cluster) : (s.setCluster c).hostOut = s.hostOut := rfl
@[simp] theorem State.setCluster_relQ (s : State) (c : Cluster) : (s.setCluster c).relQ = s.relQ := rfl
@[simp] theorem State.setCluster_moves (s : State) (c : Cluster) : (s.setCluster c).moves = s.moves := rfl
@[simp] theorem State.setCluster_images (s : State) (c : Cluster) : (s.setCluster c).images = s.images := rfl
@[simp] theorem State.setCluster_llc (s : State) (c : Cluster) : (s.setCluster c).llc = s.llc := rfl
@[simp] theorem State.setCluster_offline (s : State) (c : Cluster) : (s.setCluster c).offline = s.offline := rfl
@[simp] theorem State.setCluster_dram (s : State) (c : Cluster) : (s.setCluster c).dram = s.dram := rfl
@[simp] theorem State.setCluster_blamed (s : State) (c : Cluster) : (s.setCluster c).blamed = s.blamed := rfl
@[simp] theorem State.setCluster_bursts (s : State) (c : Cluster) : (s.setCluster c).bursts = s.bursts := rfl
@[simp] theorem State.setCluster_keys (s : State) (c : Cluster) : (s.setCluster c).keys = s.keys := rfl
@[simp] theorem State.setCluster_migs (s : State) (c : Cluster) : (s.setCluster c).migs = s.migs := rfl
@[simp] theorem State.setCluster_scores (s : State) (c : Cluster) : (s.setCluster c).scores = s.scores := rfl
@[simp] theorem State.setCluster_scoreAlarms (s : State) (c : Cluster) : (s.setCluster c).scoreAlarms = s.scoreAlarms := rfl
@[simp] theorem State.setCluster_thresholds (s : State) (c : Cluster) : (s.setCluster c).thresholds = s.thresholds := rfl
@[simp] theorem State.setCluster_retired (s : State) (c : Cluster) : (s.setCluster c).retired = s.retired := rfl
@[simp] theorem State.setCluster_law255 (s : State) (c : Cluster) : (s.setCluster c).law255 = s.law255 := rfl
@[simp] theorem State.setCluster_lawAhead (s : State) (c : Cluster) : (s.setCluster c).lawAhead = s.lawAhead := rfl
@[simp] theorem State.setCluster_records (s : State) (c : Cluster) : (s.setCluster c).records = s.records := rfl
@[simp] theorem State.setCluster_rects (s : State) (c : Cluster) : (s.setCluster c).rects = s.rects := rfl
@[simp] theorem State.setCluster_fences (s : State) (c : Cluster) : (s.setCluster c).fences = s.fences := rfl
@[simp] theorem State.setCluster_plim (s : State) (c : Cluster) : (s.setCluster c).plim = s.plim := rfl
@[simp] theorem State.setCluster_pfix (s : State) (c : Cluster) : (s.setCluster c).pfix = s.pfix := rfl
@[simp] theorem State.setCluster_grantAt (s : State) (c : Cluster) : (s.setCluster c).grantAt = s.grantAt := rfl
@[simp] theorem State.setCluster_fabOut (s : State) (c : Cluster) : (s.setCluster c).fabOut = s.fabOut := rfl
@[simp] theorem State.setCluster_fabNext (s : State) (c : Cluster) : (s.setCluster c).fabNext = s.fabNext := rfl
@[simp] theorem State.setCluster_fabSeen (s : State) (c : Cluster) : (s.setCluster c).fabSeen = s.fabSeen := rfl
@[simp] theorem State.setCluster_ports (s : State) (c : Cluster) : (s.setCluster c).ports = s.ports := rfl
@[simp] theorem State.setCluster_routes (s : State) (c : Cluster) : (s.setCluster c).routes = s.routes := rfl
@[simp] theorem State.setCluster_farTakes (s : State) (c : Cluster) : (s.setCluster c).farTakes = s.farTakes := rfl
@[simp] theorem State.setCluster_syncAt (s : State) (c : Cluster) : (s.setCluster c).syncAt = s.syncAt := rfl
@[simp] theorem State.setCluster_slew (s : State) (c : Cluster) : (s.setCluster c).slew = s.slew := rfl
@[simp] theorem State.setCluster_slewRem (s : State) (c : Cluster) : (s.setCluster c).slewRem = s.slewRem := rfl
@[simp] theorem State.setCluster_boot (s : State) (c : Cluster) : (s.setCluster c).boot = s.boot := rfl
@[simp] theorem State.setCluster_measures (s : State) (c : Cluster) : (s.setCluster c).measures = s.measures := rfl
@[simp] theorem State.setCluster_answers (s : State) (c : Cluster) : (s.setCluster c).answers = s.answers := rfl
@[simp] theorem State.setCluster_asked (s : State) (c : Cluster) : (s.setCluster c).asked = s.asked := rfl
@[simp] theorem State.setCluster_session (s : State) (c : Cluster) : (s.setCluster c).session = s.session := rfl

@[simp] theorem State.post_focus (s : State) (m : Msg) : (s.post m).focus = s.focus := rfl
@[simp] theorem State.post_others (s : State) (m : Msg) : (s.post m).others = s.others := rfl
@[simp] theorem State.post_cores (s : State) (m : Msg) : (s.post m).cores = s.cores := rfl
@[simp] theorem State.post_ctxs (s : State) (m : Msg) : (s.post m).ctxs = s.ctxs := rfl
@[simp] theorem State.post_clusters (s : State) (m : Msg) : (s.post m).clusters = s.clusters := rfl
@[simp] theorem State.post_ready (s : State) (m : Msg) : (s.post m).ready = s.ready := rfl
@[simp] theorem State.post_susp (s : State) (m : Msg) : (s.post m).susp = s.susp := rfl
@[simp] theorem State.post_mem (s : State) (m : Msg) : (s.post m).mem = s.mem := rfl
@[simp] theorem State.post_poison (s : State) (m : Msg) : (s.post m).poison = s.poison := rfl
@[simp] theorem State.post_covered (s : State) (m : Msg) : (s.post m).covered = s.covered := rfl
@[simp] theorem State.post_host (s : State) (m : Msg) : (s.post m).host = s.host := rfl
@[simp] theorem State.post_log (s : State) (m : Msg) : (s.post m).log = s.log := rfl
@[simp] theorem State.post_pend (s : State) (m : Msg) : (s.post m).pend = s.pend := rfl
@[simp] theorem State.post_jobs (s : State) (m : Msg) : (s.post m).jobs = s.jobs := rfl
@[simp] theorem State.post_nextUid (s : State) (m : Msg) : (s.post m).nextUid = s.nextUid := rfl
@[simp] theorem State.post_net (s : State) (m : Msg) : (s.post m).net = s.net ++ [m] := rfl
@[simp] theorem State.post_excl (s : State) (m : Msg) : (s.post m).excl = s.excl := rfl
@[simp] theorem State.post_exclQ (s : State) (m : Msg) : (s.post m).exclQ = s.exclQ := rfl
@[simp] theorem State.post_cycle (s : State) (m : Msg) : (s.post m).cycle = s.cycle := rfl
@[simp] theorem State.post_ticks (s : State) (m : Msg) : (s.post m).ticks = s.ticks := rfl
@[simp] theorem State.post_mgmt (s : State) (m : Msg) : (s.post m).mgmt = s.mgmt := rfl
@[simp] theorem State.post_agenda (s : State) (m : Msg) : (s.post m).agenda = s.agenda := rfl
@[simp] theorem State.post_fresh (s : State) (m : Msg) : (s.post m).fresh = s.fresh := rfl
@[simp] theorem State.post_onceQ (s : State) (m : Msg) : (s.post m).onceQ = s.onceQ := rfl
@[simp] theorem State.post_gangs (s : State) (m : Msg) : (s.post m).gangs = s.gangs := rfl
@[simp] theorem State.post_hostQ (s : State) (m : Msg) : (s.post m).hostQ = s.hostQ := rfl
@[simp] theorem State.post_hostOut (s : State) (m : Msg) : (s.post m).hostOut = s.hostOut := rfl
@[simp] theorem State.post_relQ (s : State) (m : Msg) : (s.post m).relQ = s.relQ := rfl
@[simp] theorem State.post_moves (s : State) (m : Msg) : (s.post m).moves = s.moves := rfl
@[simp] theorem State.post_images (s : State) (m : Msg) : (s.post m).images = s.images := rfl
@[simp] theorem State.post_llc (s : State) (m : Msg) : (s.post m).llc = s.llc := rfl
@[simp] theorem State.post_offline (s : State) (m : Msg) : (s.post m).offline = s.offline := rfl
@[simp] theorem State.post_dram (s : State) (m : Msg) : (s.post m).dram = s.dram := rfl
@[simp] theorem State.post_blamed (s : State) (m : Msg) : (s.post m).blamed = s.blamed := rfl
@[simp] theorem State.post_bursts (s : State) (m : Msg) : (s.post m).bursts = s.bursts := rfl
@[simp] theorem State.post_keys (s : State) (m : Msg) : (s.post m).keys = s.keys := rfl
@[simp] theorem State.post_migs (s : State) (m : Msg) : (s.post m).migs = s.migs := rfl
@[simp] theorem State.post_scores (s : State) (m : Msg) : (s.post m).scores = s.scores := rfl
@[simp] theorem State.post_scoreAlarms (s : State) (m : Msg) : (s.post m).scoreAlarms = s.scoreAlarms := rfl
@[simp] theorem State.post_thresholds (s : State) (m : Msg) : (s.post m).thresholds = s.thresholds := rfl
@[simp] theorem State.post_retired (s : State) (m : Msg) : (s.post m).retired = s.retired := rfl
@[simp] theorem State.post_law255 (s : State) (m : Msg) : (s.post m).law255 = s.law255 := rfl
@[simp] theorem State.post_lawAhead (s : State) (m : Msg) : (s.post m).lawAhead = s.lawAhead := rfl
@[simp] theorem State.post_records (s : State) (m : Msg) : (s.post m).records = s.records := rfl
@[simp] theorem State.post_rects (s : State) (m : Msg) : (s.post m).rects = s.rects := rfl
@[simp] theorem State.post_fences (s : State) (m : Msg) : (s.post m).fences = s.fences := rfl
@[simp] theorem State.post_plim (s : State) (m : Msg) : (s.post m).plim = s.plim := rfl
@[simp] theorem State.post_pfix (s : State) (m : Msg) : (s.post m).pfix = s.pfix := rfl
@[simp] theorem State.post_grantAt (s : State) (m : Msg) : (s.post m).grantAt = s.grantAt := rfl
@[simp] theorem State.post_fabOut (s : State) (m : Msg) : (s.post m).fabOut = s.fabOut := rfl
@[simp] theorem State.post_fabNext (s : State) (m : Msg) : (s.post m).fabNext = s.fabNext := rfl
@[simp] theorem State.post_fabSeen (s : State) (m : Msg) : (s.post m).fabSeen = s.fabSeen := rfl
@[simp] theorem State.post_ports (s : State) (m : Msg) : (s.post m).ports = s.ports := rfl
@[simp] theorem State.post_routes (s : State) (m : Msg) : (s.post m).routes = s.routes := rfl
@[simp] theorem State.post_farTakes (s : State) (m : Msg) : (s.post m).farTakes = s.farTakes := rfl
@[simp] theorem State.post_syncAt (s : State) (m : Msg) : (s.post m).syncAt = s.syncAt := rfl
@[simp] theorem State.post_slew (s : State) (m : Msg) : (s.post m).slew = s.slew := rfl
@[simp] theorem State.post_slewRem (s : State) (m : Msg) : (s.post m).slewRem = s.slewRem := rfl
@[simp] theorem State.post_boot (s : State) (m : Msg) : (s.post m).boot = s.boot := rfl
@[simp] theorem State.post_measures (s : State) (m : Msg) : (s.post m).measures = s.measures := rfl
@[simp] theorem State.post_answers (s : State) (m : Msg) : (s.post m).answers = s.answers := rfl
@[simp] theorem State.post_asked (s : State) (m : Msg) : (s.post m).asked = s.asked := rfl
@[simp] theorem State.post_session (s : State) (m : Msg) : (s.post m).session = s.session := rfl

@[simp] theorem State.mapSlots_focus (s : State) (g : Slot → Slot) : (s.mapSlots g).focus = g s.focus := rfl
@[simp] theorem State.mapSlots_others (s : State) (g : Slot → Slot) : (s.mapSlots g).others = s.others.map g := rfl
@[simp] theorem State.mapSlots_cores (s : State) (g : Slot → Slot) : (s.mapSlots g).cores = s.cores := rfl
@[simp] theorem State.mapSlots_ctxs (s : State) (g : Slot → Slot) : (s.mapSlots g).ctxs = s.ctxs := rfl
@[simp] theorem State.mapSlots_clusters (s : State) (g : Slot → Slot) : (s.mapSlots g).clusters = s.clusters := rfl
@[simp] theorem State.mapSlots_ready (s : State) (g : Slot → Slot) : (s.mapSlots g).ready = s.ready := rfl
@[simp] theorem State.mapSlots_susp (s : State) (g : Slot → Slot) : (s.mapSlots g).susp = s.susp := rfl
@[simp] theorem State.mapSlots_mem (s : State) (g : Slot → Slot) : (s.mapSlots g).mem = s.mem := rfl
@[simp] theorem State.mapSlots_poison (s : State) (g : Slot → Slot) : (s.mapSlots g).poison = s.poison := rfl
@[simp] theorem State.mapSlots_covered (s : State) (g : Slot → Slot) : (s.mapSlots g).covered = s.covered := rfl
@[simp] theorem State.mapSlots_host (s : State) (g : Slot → Slot) : (s.mapSlots g).host = s.host := rfl
@[simp] theorem State.mapSlots_log (s : State) (g : Slot → Slot) : (s.mapSlots g).log = s.log := rfl
@[simp] theorem State.mapSlots_pend (s : State) (g : Slot → Slot) : (s.mapSlots g).pend = s.pend := rfl
@[simp] theorem State.mapSlots_jobs (s : State) (g : Slot → Slot) : (s.mapSlots g).jobs = s.jobs := rfl
@[simp] theorem State.mapSlots_nextUid (s : State) (g : Slot → Slot) : (s.mapSlots g).nextUid = s.nextUid := rfl
@[simp] theorem State.mapSlots_net (s : State) (g : Slot → Slot) : (s.mapSlots g).net = s.net := rfl
@[simp] theorem State.mapSlots_excl (s : State) (g : Slot → Slot) : (s.mapSlots g).excl = s.excl := rfl
@[simp] theorem State.mapSlots_exclQ (s : State) (g : Slot → Slot) : (s.mapSlots g).exclQ = s.exclQ := rfl
@[simp] theorem State.mapSlots_cycle (s : State) (g : Slot → Slot) : (s.mapSlots g).cycle = s.cycle := rfl
@[simp] theorem State.mapSlots_ticks (s : State) (g : Slot → Slot) : (s.mapSlots g).ticks = s.ticks := rfl
@[simp] theorem State.mapSlots_mgmt (s : State) (g : Slot → Slot) : (s.mapSlots g).mgmt = s.mgmt := rfl
@[simp] theorem State.mapSlots_agenda (s : State) (g : Slot → Slot) : (s.mapSlots g).agenda = s.agenda := rfl
@[simp] theorem State.mapSlots_fresh (s : State) (g : Slot → Slot) : (s.mapSlots g).fresh = s.fresh := rfl
@[simp] theorem State.mapSlots_onceQ (s : State) (g : Slot → Slot) : (s.mapSlots g).onceQ = s.onceQ := rfl
@[simp] theorem State.mapSlots_gangs (s : State) (g : Slot → Slot) : (s.mapSlots g).gangs = s.gangs := rfl
@[simp] theorem State.mapSlots_hostQ (s : State) (g : Slot → Slot) : (s.mapSlots g).hostQ = s.hostQ := rfl
@[simp] theorem State.mapSlots_hostOut (s : State) (g : Slot → Slot) : (s.mapSlots g).hostOut = s.hostOut := rfl
@[simp] theorem State.mapSlots_relQ (s : State) (g : Slot → Slot) : (s.mapSlots g).relQ = s.relQ := rfl
@[simp] theorem State.mapSlots_moves (s : State) (g : Slot → Slot) : (s.mapSlots g).moves = s.moves := rfl
@[simp] theorem State.mapSlots_images (s : State) (g : Slot → Slot) : (s.mapSlots g).images = s.images := rfl
@[simp] theorem State.mapSlots_llc (s : State) (g : Slot → Slot) : (s.mapSlots g).llc = s.llc := rfl
@[simp] theorem State.mapSlots_offline (s : State) (g : Slot → Slot) : (s.mapSlots g).offline = s.offline := rfl
@[simp] theorem State.mapSlots_dram (s : State) (g : Slot → Slot) : (s.mapSlots g).dram = s.dram := rfl
@[simp] theorem State.mapSlots_blamed (s : State) (g : Slot → Slot) : (s.mapSlots g).blamed = s.blamed := rfl
@[simp] theorem State.mapSlots_bursts (s : State) (g : Slot → Slot) : (s.mapSlots g).bursts = s.bursts := rfl
@[simp] theorem State.mapSlots_keys (s : State) (g : Slot → Slot) : (s.mapSlots g).keys = s.keys := rfl
@[simp] theorem State.mapSlots_migs (s : State) (g : Slot → Slot) : (s.mapSlots g).migs = s.migs := rfl
@[simp] theorem State.mapSlots_scores (s : State) (g : Slot → Slot) : (s.mapSlots g).scores = s.scores := rfl
@[simp] theorem State.mapSlots_scoreAlarms (s : State) (g : Slot → Slot) : (s.mapSlots g).scoreAlarms = s.scoreAlarms := rfl
@[simp] theorem State.mapSlots_thresholds (s : State) (g : Slot → Slot) : (s.mapSlots g).thresholds = s.thresholds := rfl
@[simp] theorem State.mapSlots_retired (s : State) (g : Slot → Slot) : (s.mapSlots g).retired = s.retired := rfl
@[simp] theorem State.mapSlots_law255 (s : State) (g : Slot → Slot) : (s.mapSlots g).law255 = s.law255 := rfl
@[simp] theorem State.mapSlots_lawAhead (s : State) (g : Slot → Slot) : (s.mapSlots g).lawAhead = s.lawAhead := rfl
@[simp] theorem State.mapSlots_records (s : State) (g : Slot → Slot) : (s.mapSlots g).records = s.records := rfl
@[simp] theorem State.mapSlots_rects (s : State) (g : Slot → Slot) : (s.mapSlots g).rects = s.rects := rfl
@[simp] theorem State.mapSlots_fences (s : State) (g : Slot → Slot) : (s.mapSlots g).fences = s.fences := rfl
@[simp] theorem State.mapSlots_plim (s : State) (g : Slot → Slot) : (s.mapSlots g).plim = s.plim := rfl
@[simp] theorem State.mapSlots_pfix (s : State) (g : Slot → Slot) : (s.mapSlots g).pfix = s.pfix := rfl
@[simp] theorem State.mapSlots_grantAt (s : State) (g : Slot → Slot) : (s.mapSlots g).grantAt = s.grantAt := rfl
@[simp] theorem State.mapSlots_fabOut (s : State) (g : Slot → Slot) : (s.mapSlots g).fabOut = s.fabOut := rfl
@[simp] theorem State.mapSlots_fabNext (s : State) (g : Slot → Slot) : (s.mapSlots g).fabNext = s.fabNext := rfl
@[simp] theorem State.mapSlots_fabSeen (s : State) (g : Slot → Slot) : (s.mapSlots g).fabSeen = s.fabSeen := rfl
@[simp] theorem State.mapSlots_ports (s : State) (g : Slot → Slot) : (s.mapSlots g).ports = s.ports := rfl
@[simp] theorem State.mapSlots_routes (s : State) (g : Slot → Slot) : (s.mapSlots g).routes = s.routes := rfl
@[simp] theorem State.mapSlots_farTakes (s : State) (g : Slot → Slot) : (s.mapSlots g).farTakes = s.farTakes := rfl
@[simp] theorem State.mapSlots_syncAt (s : State) (g : Slot → Slot) : (s.mapSlots g).syncAt = s.syncAt := rfl
@[simp] theorem State.mapSlots_slew (s : State) (g : Slot → Slot) : (s.mapSlots g).slew = s.slew := rfl
@[simp] theorem State.mapSlots_slewRem (s : State) (g : Slot → Slot) : (s.mapSlots g).slewRem = s.slewRem := rfl
@[simp] theorem State.mapSlots_boot (s : State) (g : Slot → Slot) : (s.mapSlots g).boot = s.boot := rfl
@[simp] theorem State.mapSlots_measures (s : State) (g : Slot → Slot) : (s.mapSlots g).measures = s.measures := rfl
@[simp] theorem State.mapSlots_answers (s : State) (g : Slot → Slot) : (s.mapSlots g).answers = s.answers := rfl
@[simp] theorem State.mapSlots_asked (s : State) (g : Slot → Slot) : (s.mapSlots g).asked = s.asked := rfl
@[simp] theorem State.mapSlots_session (s : State) (g : Slot → Slot) : (s.mapSlots g).session = s.session := rfl

@[simp] theorem State.setLc_focus (s : State) (c : Nat) (l : LCore) : (s.setLc c l).focus = s.focus := rfl
@[simp] theorem State.setLc_others (s : State) (c : Nat) (l : LCore) : (s.setLc c l).others = s.others := rfl
@[simp] theorem State.setLc_cores (s : State) (c : Nat) (l : LCore) : (s.setLc c l).cores = s.cores := rfl
@[simp] theorem State.setLc_ctxs (s : State) (c : Nat) (l : LCore) : (s.setLc c l).ctxs = ((s.setCtx ((s.ctxOf c).setLc l)).ctxs) := rfl
@[simp] theorem State.setLc_clusters (s : State) (c : Nat) (l : LCore) : (s.setLc c l).clusters = s.clusters := rfl
@[simp] theorem State.setLc_ready (s : State) (c : Nat) (l : LCore) : (s.setLc c l).ready = s.ready := rfl
@[simp] theorem State.setLc_susp (s : State) (c : Nat) (l : LCore) : (s.setLc c l).susp = s.susp := rfl
@[simp] theorem State.setLc_mem (s : State) (c : Nat) (l : LCore) : (s.setLc c l).mem = s.mem := rfl
@[simp] theorem State.setLc_poison (s : State) (c : Nat) (l : LCore) : (s.setLc c l).poison = s.poison := rfl
@[simp] theorem State.setLc_covered (s : State) (c : Nat) (l : LCore) : (s.setLc c l).covered = s.covered := rfl
@[simp] theorem State.setLc_host (s : State) (c : Nat) (l : LCore) : (s.setLc c l).host = s.host := rfl
@[simp] theorem State.setLc_log (s : State) (c : Nat) (l : LCore) : (s.setLc c l).log = s.log := rfl
@[simp] theorem State.setLc_pend (s : State) (c : Nat) (l : LCore) : (s.setLc c l).pend = s.pend := rfl
@[simp] theorem State.setLc_jobs (s : State) (c : Nat) (l : LCore) : (s.setLc c l).jobs = s.jobs := rfl
@[simp] theorem State.setLc_nextUid (s : State) (c : Nat) (l : LCore) : (s.setLc c l).nextUid = s.nextUid := rfl
@[simp] theorem State.setLc_net (s : State) (c : Nat) (l : LCore) : (s.setLc c l).net = s.net := rfl
@[simp] theorem State.setLc_excl (s : State) (c : Nat) (l : LCore) : (s.setLc c l).excl = s.excl := rfl
@[simp] theorem State.setLc_exclQ (s : State) (c : Nat) (l : LCore) : (s.setLc c l).exclQ = s.exclQ := rfl
@[simp] theorem State.setLc_cycle (s : State) (c : Nat) (l : LCore) : (s.setLc c l).cycle = s.cycle := rfl
@[simp] theorem State.setLc_ticks (s : State) (c : Nat) (l : LCore) : (s.setLc c l).ticks = s.ticks := rfl
@[simp] theorem State.setLc_mgmt (s : State) (c : Nat) (l : LCore) : (s.setLc c l).mgmt = s.mgmt := rfl
@[simp] theorem State.setLc_agenda (s : State) (c : Nat) (l : LCore) : (s.setLc c l).agenda = s.agenda := rfl
@[simp] theorem State.setLc_fresh (s : State) (c : Nat) (l : LCore) : (s.setLc c l).fresh = s.fresh := rfl
@[simp] theorem State.setLc_onceQ (s : State) (c : Nat) (l : LCore) : (s.setLc c l).onceQ = s.onceQ := rfl
@[simp] theorem State.setLc_gangs (s : State) (c : Nat) (l : LCore) : (s.setLc c l).gangs = s.gangs := rfl
@[simp] theorem State.setLc_hostQ (s : State) (c : Nat) (l : LCore) : (s.setLc c l).hostQ = s.hostQ := rfl
@[simp] theorem State.setLc_hostOut (s : State) (c : Nat) (l : LCore) : (s.setLc c l).hostOut = s.hostOut := rfl
@[simp] theorem State.setLc_relQ (s : State) (c : Nat) (l : LCore) : (s.setLc c l).relQ = s.relQ := rfl
@[simp] theorem State.setLc_moves (s : State) (c : Nat) (l : LCore) : (s.setLc c l).moves = s.moves := rfl
@[simp] theorem State.setLc_images (s : State) (c : Nat) (l : LCore) : (s.setLc c l).images = s.images := rfl
@[simp] theorem State.setLc_llc (s : State) (c : Nat) (l : LCore) : (s.setLc c l).llc = s.llc := rfl
@[simp] theorem State.setLc_offline (s : State) (c : Nat) (l : LCore) : (s.setLc c l).offline = s.offline := rfl
@[simp] theorem State.setLc_dram (s : State) (c : Nat) (l : LCore) : (s.setLc c l).dram = s.dram := rfl
@[simp] theorem State.setLc_blamed (s : State) (c : Nat) (l : LCore) : (s.setLc c l).blamed = s.blamed := rfl
@[simp] theorem State.setLc_bursts (s : State) (c : Nat) (l : LCore) : (s.setLc c l).bursts = s.bursts := rfl
@[simp] theorem State.setLc_keys (s : State) (c : Nat) (l : LCore) : (s.setLc c l).keys = s.keys := rfl
@[simp] theorem State.setLc_migs (s : State) (c : Nat) (l : LCore) : (s.setLc c l).migs = s.migs := rfl
@[simp] theorem State.setLc_scores (s : State) (c : Nat) (l : LCore) : (s.setLc c l).scores = s.scores := rfl
@[simp] theorem State.setLc_scoreAlarms (s : State) (c : Nat) (l : LCore) : (s.setLc c l).scoreAlarms = s.scoreAlarms := rfl
@[simp] theorem State.setLc_thresholds (s : State) (c : Nat) (l : LCore) : (s.setLc c l).thresholds = s.thresholds := rfl
@[simp] theorem State.setLc_retired (s : State) (c : Nat) (l : LCore) : (s.setLc c l).retired = s.retired := rfl
@[simp] theorem State.setLc_law255 (s : State) (c : Nat) (l : LCore) : (s.setLc c l).law255 = s.law255 := rfl
@[simp] theorem State.setLc_lawAhead (s : State) (c : Nat) (l : LCore) : (s.setLc c l).lawAhead = s.lawAhead := rfl
@[simp] theorem State.setLc_records (s : State) (c : Nat) (l : LCore) : (s.setLc c l).records = s.records := rfl
@[simp] theorem State.setLc_rects (s : State) (c : Nat) (l : LCore) : (s.setLc c l).rects = s.rects := rfl
@[simp] theorem State.setLc_fences (s : State) (c : Nat) (l : LCore) : (s.setLc c l).fences = s.fences := rfl
@[simp] theorem State.setLc_plim (s : State) (c : Nat) (l : LCore) : (s.setLc c l).plim = s.plim := rfl
@[simp] theorem State.setLc_pfix (s : State) (c : Nat) (l : LCore) : (s.setLc c l).pfix = s.pfix := rfl
@[simp] theorem State.setLc_grantAt (s : State) (c : Nat) (l : LCore) : (s.setLc c l).grantAt = s.grantAt := rfl
@[simp] theorem State.setLc_fabOut (s : State) (c : Nat) (l : LCore) : (s.setLc c l).fabOut = s.fabOut := rfl
@[simp] theorem State.setLc_fabNext (s : State) (c : Nat) (l : LCore) : (s.setLc c l).fabNext = s.fabNext := rfl
@[simp] theorem State.setLc_fabSeen (s : State) (c : Nat) (l : LCore) : (s.setLc c l).fabSeen = s.fabSeen := rfl
@[simp] theorem State.setLc_ports (s : State) (c : Nat) (l : LCore) : (s.setLc c l).ports = s.ports := rfl
@[simp] theorem State.setLc_routes (s : State) (c : Nat) (l : LCore) : (s.setLc c l).routes = s.routes := rfl
@[simp] theorem State.setLc_farTakes (s : State) (c : Nat) (l : LCore) : (s.setLc c l).farTakes = s.farTakes := rfl
@[simp] theorem State.setLc_syncAt (s : State) (c : Nat) (l : LCore) : (s.setLc c l).syncAt = s.syncAt := rfl
@[simp] theorem State.setLc_slew (s : State) (c : Nat) (l : LCore) : (s.setLc c l).slew = s.slew := rfl
@[simp] theorem State.setLc_slewRem (s : State) (c : Nat) (l : LCore) : (s.setLc c l).slewRem = s.slewRem := rfl
@[simp] theorem State.setLc_boot (s : State) (c : Nat) (l : LCore) : (s.setLc c l).boot = s.boot := rfl
@[simp] theorem State.setLc_measures (s : State) (c : Nat) (l : LCore) : (s.setLc c l).measures = s.measures := rfl
@[simp] theorem State.setLc_answers (s : State) (c : Nat) (l : LCore) : (s.setLc c l).answers = s.answers := rfl
@[simp] theorem State.setLc_asked (s : State) (c : Nat) (l : LCore) : (s.setLc c l).asked = s.asked := rfl
@[simp] theorem State.setLc_session (s : State) (c : Nat) (l : LCore) : (s.setLc c l).session = s.session := rfl

@[simp] theorem State.touch_focus (s : State) (w : List Loc) (p : Slot → Bool) : (s.touch w p).focus = s.focus.touched w p := rfl
@[simp] theorem State.touch_others (s : State) (w : List Loc) (p : Slot → Bool) : (s.touch w p).others = s.others.map (Slot.touched w p) := rfl
@[simp] theorem State.touch_cores (s : State) (w : List Loc) (p : Slot → Bool) : (s.touch w p).cores = s.cores := rfl
@[simp] theorem State.touch_ctxs (s : State) (w : List Loc) (p : Slot → Bool) : (s.touch w p).ctxs = s.ctxs := rfl
@[simp] theorem State.touch_clusters (s : State) (w : List Loc) (p : Slot → Bool) : (s.touch w p).clusters = s.clusters := rfl
@[simp] theorem State.touch_ready (s : State) (w : List Loc) (p : Slot → Bool) : (s.touch w p).ready = s.ready := rfl
@[simp] theorem State.touch_susp (s : State) (w : List Loc) (p : Slot → Bool) : (s.touch w p).susp = s.susp := rfl
@[simp] theorem State.touch_mem (s : State) (w : List Loc) (p : Slot → Bool) : (s.touch w p).mem = s.mem := rfl
@[simp] theorem State.touch_poison (s : State) (w : List Loc) (p : Slot → Bool) : (s.touch w p).poison = s.poison := rfl
@[simp] theorem State.touch_covered (s : State) (w : List Loc) (p : Slot → Bool) : (s.touch w p).covered = s.covered := rfl
@[simp] theorem State.touch_host (s : State) (w : List Loc) (p : Slot → Bool) : (s.touch w p).host = s.host := rfl
@[simp] theorem State.touch_log (s : State) (w : List Loc) (p : Slot → Bool) : (s.touch w p).log = s.log := rfl
@[simp] theorem State.touch_pend (s : State) (w : List Loc) (p : Slot → Bool) : (s.touch w p).pend = s.pend := rfl
@[simp] theorem State.touch_jobs (s : State) (w : List Loc) (p : Slot → Bool) : (s.touch w p).jobs = s.jobs := rfl
@[simp] theorem State.touch_nextUid (s : State) (w : List Loc) (p : Slot → Bool) : (s.touch w p).nextUid = s.nextUid := rfl
@[simp] theorem State.touch_net (s : State) (w : List Loc) (p : Slot → Bool) : (s.touch w p).net = s.net := rfl
@[simp] theorem State.touch_excl (s : State) (w : List Loc) (p : Slot → Bool) : (s.touch w p).excl = s.excl := rfl
@[simp] theorem State.touch_exclQ (s : State) (w : List Loc) (p : Slot → Bool) : (s.touch w p).exclQ = s.exclQ := rfl
@[simp] theorem State.touch_cycle (s : State) (w : List Loc) (p : Slot → Bool) : (s.touch w p).cycle = s.cycle := rfl
@[simp] theorem State.touch_ticks (s : State) (w : List Loc) (p : Slot → Bool) : (s.touch w p).ticks = s.ticks := rfl
@[simp] theorem State.touch_mgmt (s : State) (w : List Loc) (p : Slot → Bool) : (s.touch w p).mgmt = s.mgmt := rfl
@[simp] theorem State.touch_agenda (s : State) (w : List Loc) (p : Slot → Bool) : (s.touch w p).agenda = s.agenda := rfl
@[simp] theorem State.touch_fresh (s : State) (w : List Loc) (p : Slot → Bool) : (s.touch w p).fresh = s.fresh := rfl
@[simp] theorem State.touch_onceQ (s : State) (w : List Loc) (p : Slot → Bool) : (s.touch w p).onceQ = s.onceQ := rfl
@[simp] theorem State.touch_gangs (s : State) (w : List Loc) (p : Slot → Bool) : (s.touch w p).gangs = s.gangs := rfl
@[simp] theorem State.touch_hostQ (s : State) (w : List Loc) (p : Slot → Bool) : (s.touch w p).hostQ = s.hostQ := rfl
@[simp] theorem State.touch_hostOut (s : State) (w : List Loc) (p : Slot → Bool) : (s.touch w p).hostOut = s.hostOut := rfl
@[simp] theorem State.touch_relQ (s : State) (w : List Loc) (p : Slot → Bool) : (s.touch w p).relQ = s.relQ := rfl
@[simp] theorem State.touch_moves (s : State) (w : List Loc) (p : Slot → Bool) : (s.touch w p).moves = s.moves := rfl
@[simp] theorem State.touch_images (s : State) (w : List Loc) (p : Slot → Bool) : (s.touch w p).images = s.images := rfl
@[simp] theorem State.touch_llc (s : State) (w : List Loc) (p : Slot → Bool) : (s.touch w p).llc = s.llc := rfl
@[simp] theorem State.touch_offline (s : State) (w : List Loc) (p : Slot → Bool) : (s.touch w p).offline = s.offline := rfl
@[simp] theorem State.touch_dram (s : State) (w : List Loc) (p : Slot → Bool) : (s.touch w p).dram = s.dram := rfl
@[simp] theorem State.touch_blamed (s : State) (w : List Loc) (p : Slot → Bool) : (s.touch w p).blamed = s.blamed := rfl
@[simp] theorem State.touch_bursts (s : State) (w : List Loc) (p : Slot → Bool) : (s.touch w p).bursts = s.bursts := rfl
@[simp] theorem State.touch_keys (s : State) (w : List Loc) (p : Slot → Bool) : (s.touch w p).keys = s.keys := rfl
@[simp] theorem State.touch_migs (s : State) (w : List Loc) (p : Slot → Bool) : (s.touch w p).migs = s.migs := rfl
@[simp] theorem State.touch_scores (s : State) (w : List Loc) (p : Slot → Bool) : (s.touch w p).scores = s.scores := rfl
@[simp] theorem State.touch_scoreAlarms (s : State) (w : List Loc) (p : Slot → Bool) : (s.touch w p).scoreAlarms = s.scoreAlarms := rfl
@[simp] theorem State.touch_thresholds (s : State) (w : List Loc) (p : Slot → Bool) : (s.touch w p).thresholds = s.thresholds := rfl
@[simp] theorem State.touch_retired (s : State) (w : List Loc) (p : Slot → Bool) : (s.touch w p).retired = s.retired := rfl
@[simp] theorem State.touch_law255 (s : State) (w : List Loc) (p : Slot → Bool) : (s.touch w p).law255 = s.law255 := rfl
@[simp] theorem State.touch_lawAhead (s : State) (w : List Loc) (p : Slot → Bool) : (s.touch w p).lawAhead = s.lawAhead := rfl
@[simp] theorem State.touch_records (s : State) (w : List Loc) (p : Slot → Bool) : (s.touch w p).records = s.records := rfl
@[simp] theorem State.touch_rects (s : State) (w : List Loc) (p : Slot → Bool) : (s.touch w p).rects = s.rects := rfl
@[simp] theorem State.touch_fences (s : State) (w : List Loc) (p : Slot → Bool) : (s.touch w p).fences = s.fences := rfl
@[simp] theorem State.touch_plim (s : State) (w : List Loc) (p : Slot → Bool) : (s.touch w p).plim = s.plim := rfl
@[simp] theorem State.touch_pfix (s : State) (w : List Loc) (p : Slot → Bool) : (s.touch w p).pfix = s.pfix := rfl
@[simp] theorem State.touch_grantAt (s : State) (w : List Loc) (p : Slot → Bool) : (s.touch w p).grantAt = s.grantAt := rfl
@[simp] theorem State.touch_fabOut (s : State) (w : List Loc) (p : Slot → Bool) : (s.touch w p).fabOut = s.fabOut := rfl
@[simp] theorem State.touch_fabNext (s : State) (w : List Loc) (p : Slot → Bool) : (s.touch w p).fabNext = s.fabNext := rfl
@[simp] theorem State.touch_fabSeen (s : State) (w : List Loc) (p : Slot → Bool) : (s.touch w p).fabSeen = s.fabSeen := rfl
@[simp] theorem State.touch_ports (s : State) (w : List Loc) (p : Slot → Bool) : (s.touch w p).ports = s.ports := rfl
@[simp] theorem State.touch_routes (s : State) (w : List Loc) (p : Slot → Bool) : (s.touch w p).routes = s.routes := rfl
@[simp] theorem State.touch_farTakes (s : State) (w : List Loc) (p : Slot → Bool) : (s.touch w p).farTakes = s.farTakes := rfl
@[simp] theorem State.touch_syncAt (s : State) (w : List Loc) (p : Slot → Bool) : (s.touch w p).syncAt = s.syncAt := rfl
@[simp] theorem State.touch_slew (s : State) (w : List Loc) (p : Slot → Bool) : (s.touch w p).slew = s.slew := rfl
@[simp] theorem State.touch_slewRem (s : State) (w : List Loc) (p : Slot → Bool) : (s.touch w p).slewRem = s.slewRem := rfl
@[simp] theorem State.touch_boot (s : State) (w : List Loc) (p : Slot → Bool) : (s.touch w p).boot = s.boot := rfl
@[simp] theorem State.touch_measures (s : State) (w : List Loc) (p : Slot → Bool) : (s.touch w p).measures = s.measures := rfl
@[simp] theorem State.touch_answers (s : State) (w : List Loc) (p : Slot → Bool) : (s.touch w p).answers = s.answers := rfl
@[simp] theorem State.touch_asked (s : State) (w : List Loc) (p : Slot → Bool) : (s.touch w p).asked = s.asked := rfl
@[simp] theorem State.touch_session (s : State) (w : List Loc) (p : Slot → Bool) : (s.touch w p).session = s.session := rfl

@[simp] theorem Slot.writeG_core (f : Slot) (d : BitVec 5) (x : Word) : (f.writeG d x).core = f.core := by unfold Slot.writeG; split <;> rfl
@[simp] theorem Slot.writeG_k (f : Slot) (d : BitVec 5) (x : Word) : (f.writeG d x).k = f.k := by unfold Slot.writeG; split <;> rfl
@[simp] theorem Slot.writeG_active (f : Slot) (d : BitVec 5) (x : Word) : (f.writeG d x).active = f.active := by unfold Slot.writeG; split <;> rfl
@[simp] theorem Slot.writeG_firing (f : Slot) (d : BitVec 5) (x : Word) : (f.writeG d x).firing = f.firing := by unfold Slot.writeG; split <;> rfl
@[simp] theorem Slot.writeG_glen (f : Slot) (d : BitVec 5) (x : Word) : (f.writeG d x).glen = f.glen := by unfold Slot.writeG; split <;> rfl
@[simp] theorem Slot.writeG_start (f : Slot) (d : BitVec 5) (x : Word) : (f.writeG d x).start = f.start := by unfold Slot.writeG; split <;> rfl
@[simp] theorem Slot.writeG_startChunk (f : Slot) (d : BitVec 5) (x : Word) : (f.writeG d x).startChunk = f.startChunk := by unfold Slot.writeG; split <;> rfl
@[simp] theorem Slot.writeG_chunk (f : Slot) (d : BitVec 5) (x : Word) : (f.writeG d x).chunk = f.chunk := by unfold Slot.writeG; split <;> rfl
@[simp] theorem Slot.writeG_ckpt (f : Slot) (d : BitVec 5) (x : Word) : (f.writeG d x).ckpt = f.ckpt := by unfold Slot.writeG; split <;> rfl
@[simp] theorem Slot.writeG_squashes (f : Slot) (d : BitVec 5) (x : Word) : (f.writeG d x).squashes = f.squashes := by unfold Slot.writeG; split <;> rfl
@[simp] theorem Slot.writeG_wait (f : Slot) (d : BitVec 5) (x : Word) : (f.writeG d x).wait = f.wait := by unfold Slot.writeG; split <;> rfl
@[simp] theorem Slot.writeG_opening (f : Slot) (d : BitVec 5) (x : Word) : (f.writeG d x).opening = f.opening := by unfold Slot.writeG; split <;> rfl
@[simp] theorem Slot.writeG_zeros (f : Slot) (d : BitVec 5) (x : Word) : (f.writeG d x).zeros = f.zeros := by unfold Slot.writeG; split <;> rfl
@[simp] theorem Slot.writeG_hosts (f : Slot) (d : BitVec 5) (x : Word) : (f.writeG d x).hosts = f.hosts := by unfold Slot.writeG; split <;> rfl
@[simp] theorem Slot.writeG_filled (f : Slot) (d : BitVec 5) (x : Word) : (f.writeG d x).filled = f.filled := by unfold Slot.writeG; split <;> rfl
@[simp] theorem Slot.writeG_word (f : Slot) (d : BitVec 5) (x : Word) : (f.writeG d x).word = f.word := by unfold Slot.writeG; split <;> rfl
@[simp] theorem Slot.writeG_lines (f : Slot) (d : BitVec 5) (x : Word) : (f.writeG d x).lines = f.lines := by unfold Slot.writeG; split <;> rfl

@[simp] theorem Slot.landG_core (f : Slot) (d : BitVec 5) (x : Word) : (f.landG d x).core = f.core := by unfold Slot.landG; split <;> rfl
@[simp] theorem Slot.landG_k (f : Slot) (d : BitVec 5) (x : Word) : (f.landG d x).k = f.k := by unfold Slot.landG; split <;> rfl
@[simp] theorem Slot.landG_active (f : Slot) (d : BitVec 5) (x : Word) : (f.landG d x).active = f.active := by unfold Slot.landG; split <;> rfl
@[simp] theorem Slot.landG_firing (f : Slot) (d : BitVec 5) (x : Word) : (f.landG d x).firing = f.firing := by unfold Slot.landG; split <;> rfl
@[simp] theorem Slot.landG_reg (f : Slot) (d : BitVec 5) (x : Word) : (f.landG d x).reg = f.reg := by unfold Slot.landG; split <;> rfl
@[simp] theorem Slot.landG_glen (f : Slot) (d : BitVec 5) (x : Word) : (f.landG d x).glen = f.glen := by unfold Slot.landG; split <;> rfl
@[simp] theorem Slot.landG_start (f : Slot) (d : BitVec 5) (x : Word) : (f.landG d x).start = f.start := by unfold Slot.landG; split <;> rfl
@[simp] theorem Slot.landG_startChunk (f : Slot) (d : BitVec 5) (x : Word) : (f.landG d x).startChunk = f.startChunk := by unfold Slot.landG; split <;> rfl
@[simp] theorem Slot.landG_chunk (f : Slot) (d : BitVec 5) (x : Word) : (f.landG d x).chunk = f.chunk := by unfold Slot.landG; split <;> rfl
@[simp] theorem Slot.landG_ckpt (f : Slot) (d : BitVec 5) (x : Word) : (f.landG d x).ckpt = f.ckpt := by unfold Slot.landG; split <;> rfl
@[simp] theorem Slot.landG_squashes (f : Slot) (d : BitVec 5) (x : Word) : (f.landG d x).squashes = f.squashes := by unfold Slot.landG; split <;> rfl
@[simp] theorem Slot.landG_wait (f : Slot) (d : BitVec 5) (x : Word) : (f.landG d x).wait = f.wait := by unfold Slot.landG; split <;> rfl
@[simp] theorem Slot.landG_opening (f : Slot) (d : BitVec 5) (x : Word) : (f.landG d x).opening = f.opening := by unfold Slot.landG; split <;> rfl
@[simp] theorem Slot.landG_zeros (f : Slot) (d : BitVec 5) (x : Word) : (f.landG d x).zeros = f.zeros := by unfold Slot.landG; split <;> rfl
@[simp] theorem Slot.landG_hosts (f : Slot) (d : BitVec 5) (x : Word) : (f.landG d x).hosts = f.hosts := by unfold Slot.landG; split <;> rfl
@[simp] theorem Slot.landG_filled (f : Slot) (d : BitVec 5) (x : Word) : (f.landG d x).filled = f.filled := by unfold Slot.landG; split <;> rfl
@[simp] theorem Slot.landG_word (f : Slot) (d : BitVec 5) (x : Word) : (f.landG d x).word = f.word := by unfold Slot.landG; split <;> rfl
@[simp] theorem Slot.landG_lines (f : Slot) (d : BitVec 5) (x : Word) : (f.landG d x).lines = f.lines := by unfold Slot.landG; split <;> rfl

@[simp] theorem Slot.writeV_core (f : Slot) (d : BitVec 5) (x : VReg) : (f.writeV d x).core = f.core := rfl
@[simp] theorem Slot.writeV_k (f : Slot) (d : BitVec 5) (x : VReg) : (f.writeV d x).k = f.k := rfl
@[simp] theorem Slot.writeV_active (f : Slot) (d : BitVec 5) (x : VReg) : (f.writeV d x).active = f.active := rfl
@[simp] theorem Slot.writeV_firing (f : Slot) (d : BitVec 5) (x : VReg) : (f.writeV d x).firing = f.firing := rfl
@[simp] theorem Slot.writeV_glen (f : Slot) (d : BitVec 5) (x : VReg) : (f.writeV d x).glen = f.glen := rfl
@[simp] theorem Slot.writeV_start (f : Slot) (d : BitVec 5) (x : VReg) : (f.writeV d x).start = f.start := rfl
@[simp] theorem Slot.writeV_startChunk (f : Slot) (d : BitVec 5) (x : VReg) : (f.writeV d x).startChunk = f.startChunk := rfl
@[simp] theorem Slot.writeV_chunk (f : Slot) (d : BitVec 5) (x : VReg) : (f.writeV d x).chunk = f.chunk := rfl
@[simp] theorem Slot.writeV_ckpt (f : Slot) (d : BitVec 5) (x : VReg) : (f.writeV d x).ckpt = f.ckpt := rfl
@[simp] theorem Slot.writeV_squashes (f : Slot) (d : BitVec 5) (x : VReg) : (f.writeV d x).squashes = f.squashes := rfl
@[simp] theorem Slot.writeV_wait (f : Slot) (d : BitVec 5) (x : VReg) : (f.writeV d x).wait = f.wait := rfl
@[simp] theorem Slot.writeV_opening (f : Slot) (d : BitVec 5) (x : VReg) : (f.writeV d x).opening = f.opening := rfl
@[simp] theorem Slot.writeV_zeros (f : Slot) (d : BitVec 5) (x : VReg) : (f.writeV d x).zeros = f.zeros := rfl
@[simp] theorem Slot.writeV_hosts (f : Slot) (d : BitVec 5) (x : VReg) : (f.writeV d x).hosts = f.hosts := rfl
@[simp] theorem Slot.writeV_filled (f : Slot) (d : BitVec 5) (x : VReg) : (f.writeV d x).filled = f.filled := rfl
@[simp] theorem Slot.writeV_word (f : Slot) (d : BitVec 5) (x : VReg) : (f.writeV d x).word = f.word := rfl
@[simp] theorem Slot.writeV_lines (f : Slot) (d : BitVec 5) (x : VReg) : (f.writeV d x).lines = f.lines := rfl

@[simp] theorem Slot.landV_core (f : Slot) (d : BitVec 5) (x : VReg) : (f.landV d x).core = f.core := rfl
@[simp] theorem Slot.landV_k (f : Slot) (d : BitVec 5) (x : VReg) : (f.landV d x).k = f.k := rfl
@[simp] theorem Slot.landV_active (f : Slot) (d : BitVec 5) (x : VReg) : (f.landV d x).active = f.active := rfl
@[simp] theorem Slot.landV_firing (f : Slot) (d : BitVec 5) (x : VReg) : (f.landV d x).firing = f.firing := rfl
@[simp] theorem Slot.landV_reg (f : Slot) (d : BitVec 5) (x : VReg) : (f.landV d x).reg = f.reg := rfl
@[simp] theorem Slot.landV_glen (f : Slot) (d : BitVec 5) (x : VReg) : (f.landV d x).glen = f.glen := rfl
@[simp] theorem Slot.landV_start (f : Slot) (d : BitVec 5) (x : VReg) : (f.landV d x).start = f.start := rfl
@[simp] theorem Slot.landV_startChunk (f : Slot) (d : BitVec 5) (x : VReg) : (f.landV d x).startChunk = f.startChunk := rfl
@[simp] theorem Slot.landV_chunk (f : Slot) (d : BitVec 5) (x : VReg) : (f.landV d x).chunk = f.chunk := rfl
@[simp] theorem Slot.landV_ckpt (f : Slot) (d : BitVec 5) (x : VReg) : (f.landV d x).ckpt = f.ckpt := rfl
@[simp] theorem Slot.landV_squashes (f : Slot) (d : BitVec 5) (x : VReg) : (f.landV d x).squashes = f.squashes := rfl
@[simp] theorem Slot.landV_wait (f : Slot) (d : BitVec 5) (x : VReg) : (f.landV d x).wait = f.wait := rfl
@[simp] theorem Slot.landV_opening (f : Slot) (d : BitVec 5) (x : VReg) : (f.landV d x).opening = f.opening := rfl
@[simp] theorem Slot.landV_zeros (f : Slot) (d : BitVec 5) (x : VReg) : (f.landV d x).zeros = f.zeros := rfl
@[simp] theorem Slot.landV_hosts (f : Slot) (d : BitVec 5) (x : VReg) : (f.landV d x).hosts = f.hosts := rfl
@[simp] theorem Slot.landV_filled (f : Slot) (d : BitVec 5) (x : VReg) : (f.landV d x).filled = f.filled := rfl
@[simp] theorem Slot.landV_word (f : Slot) (d : BitVec 5) (x : VReg) : (f.landV d x).word = f.word := rfl
@[simp] theorem Slot.landV_lines (f : Slot) (d : BitVec 5) (x : VReg) : (f.landV d x).lines = f.lines := rfl

@[simp] theorem Slot.writeM_core (f : Slot) (d : BitVec 3) (x : Lane) : (f.writeM d x).core = f.core := by unfold Slot.writeM; split <;> rfl
@[simp] theorem Slot.writeM_k (f : Slot) (d : BitVec 3) (x : Lane) : (f.writeM d x).k = f.k := by unfold Slot.writeM; split <;> rfl
@[simp] theorem Slot.writeM_active (f : Slot) (d : BitVec 3) (x : Lane) : (f.writeM d x).active = f.active := by unfold Slot.writeM; split <;> rfl
@[simp] theorem Slot.writeM_firing (f : Slot) (d : BitVec 3) (x : Lane) : (f.writeM d x).firing = f.firing := by unfold Slot.writeM; split <;> rfl
@[simp] theorem Slot.writeM_glen (f : Slot) (d : BitVec 3) (x : Lane) : (f.writeM d x).glen = f.glen := by unfold Slot.writeM; split <;> rfl
@[simp] theorem Slot.writeM_start (f : Slot) (d : BitVec 3) (x : Lane) : (f.writeM d x).start = f.start := by unfold Slot.writeM; split <;> rfl
@[simp] theorem Slot.writeM_startChunk (f : Slot) (d : BitVec 3) (x : Lane) : (f.writeM d x).startChunk = f.startChunk := by unfold Slot.writeM; split <;> rfl
@[simp] theorem Slot.writeM_chunk (f : Slot) (d : BitVec 3) (x : Lane) : (f.writeM d x).chunk = f.chunk := by unfold Slot.writeM; split <;> rfl
@[simp] theorem Slot.writeM_ckpt (f : Slot) (d : BitVec 3) (x : Lane) : (f.writeM d x).ckpt = f.ckpt := by unfold Slot.writeM; split <;> rfl
@[simp] theorem Slot.writeM_squashes (f : Slot) (d : BitVec 3) (x : Lane) : (f.writeM d x).squashes = f.squashes := by unfold Slot.writeM; split <;> rfl
@[simp] theorem Slot.writeM_wait (f : Slot) (d : BitVec 3) (x : Lane) : (f.writeM d x).wait = f.wait := by unfold Slot.writeM; split <;> rfl
@[simp] theorem Slot.writeM_opening (f : Slot) (d : BitVec 3) (x : Lane) : (f.writeM d x).opening = f.opening := by unfold Slot.writeM; split <;> rfl
@[simp] theorem Slot.writeM_zeros (f : Slot) (d : BitVec 3) (x : Lane) : (f.writeM d x).zeros = f.zeros := by unfold Slot.writeM; split <;> rfl
@[simp] theorem Slot.writeM_hosts (f : Slot) (d : BitVec 3) (x : Lane) : (f.writeM d x).hosts = f.hosts := by unfold Slot.writeM; split <;> rfl
@[simp] theorem Slot.writeM_filled (f : Slot) (d : BitVec 3) (x : Lane) : (f.writeM d x).filled = f.filled := by unfold Slot.writeM; split <;> rfl
@[simp] theorem Slot.writeM_word (f : Slot) (d : BitVec 3) (x : Lane) : (f.writeM d x).word = f.word := by unfold Slot.writeM; split <;> rfl
@[simp] theorem Slot.writeM_lines (f : Slot) (d : BitVec 3) (x : Lane) : (f.writeM d x).lines = f.lines := by unfold Slot.writeM; split <;> rfl

@[simp] theorem Slot.landM_core (f : Slot) (d : BitVec 3) (x : Lane) : (f.landM d x).core = f.core := by unfold Slot.landM; split <;> rfl
@[simp] theorem Slot.landM_k (f : Slot) (d : BitVec 3) (x : Lane) : (f.landM d x).k = f.k := by unfold Slot.landM; split <;> rfl
@[simp] theorem Slot.landM_active (f : Slot) (d : BitVec 3) (x : Lane) : (f.landM d x).active = f.active := by unfold Slot.landM; split <;> rfl
@[simp] theorem Slot.landM_firing (f : Slot) (d : BitVec 3) (x : Lane) : (f.landM d x).firing = f.firing := by unfold Slot.landM; split <;> rfl
@[simp] theorem Slot.landM_reg (f : Slot) (d : BitVec 3) (x : Lane) : (f.landM d x).reg = f.reg := by unfold Slot.landM; split <;> rfl
@[simp] theorem Slot.landM_glen (f : Slot) (d : BitVec 3) (x : Lane) : (f.landM d x).glen = f.glen := by unfold Slot.landM; split <;> rfl
@[simp] theorem Slot.landM_start (f : Slot) (d : BitVec 3) (x : Lane) : (f.landM d x).start = f.start := by unfold Slot.landM; split <;> rfl
@[simp] theorem Slot.landM_startChunk (f : Slot) (d : BitVec 3) (x : Lane) : (f.landM d x).startChunk = f.startChunk := by unfold Slot.landM; split <;> rfl
@[simp] theorem Slot.landM_chunk (f : Slot) (d : BitVec 3) (x : Lane) : (f.landM d x).chunk = f.chunk := by unfold Slot.landM; split <;> rfl
@[simp] theorem Slot.landM_ckpt (f : Slot) (d : BitVec 3) (x : Lane) : (f.landM d x).ckpt = f.ckpt := by unfold Slot.landM; split <;> rfl
@[simp] theorem Slot.landM_squashes (f : Slot) (d : BitVec 3) (x : Lane) : (f.landM d x).squashes = f.squashes := by unfold Slot.landM; split <;> rfl
@[simp] theorem Slot.landM_wait (f : Slot) (d : BitVec 3) (x : Lane) : (f.landM d x).wait = f.wait := by unfold Slot.landM; split <;> rfl
@[simp] theorem Slot.landM_opening (f : Slot) (d : BitVec 3) (x : Lane) : (f.landM d x).opening = f.opening := by unfold Slot.landM; split <;> rfl
@[simp] theorem Slot.landM_zeros (f : Slot) (d : BitVec 3) (x : Lane) : (f.landM d x).zeros = f.zeros := by unfold Slot.landM; split <;> rfl
@[simp] theorem Slot.landM_hosts (f : Slot) (d : BitVec 3) (x : Lane) : (f.landM d x).hosts = f.hosts := by unfold Slot.landM; split <;> rfl
@[simp] theorem Slot.landM_filled (f : Slot) (d : BitVec 3) (x : Lane) : (f.landM d x).filled = f.filled := by unfold Slot.landM; split <;> rfl
@[simp] theorem Slot.landM_word (f : Slot) (d : BitVec 3) (x : Lane) : (f.landM d x).word = f.word := by unfold Slot.landM; split <;> rfl
@[simp] theorem Slot.landM_lines (f : Slot) (d : BitVec 3) (x : Lane) : (f.landM d x).lines = f.lines := by unfold Slot.landM; split <;> rfl

@[simp] theorem Slot.raiseNow_core (f : Slot) (w : Word) : (f.raiseNow w).core = f.core := rfl
@[simp] theorem Slot.raiseNow_k (f : Slot) (w : Word) : (f.raiseNow w).k = f.k := rfl
@[simp] theorem Slot.raiseNow_active (f : Slot) (w : Word) : (f.raiseNow w).active = f.active := rfl
@[simp] theorem Slot.raiseNow_firing (f : Slot) (w : Word) : (f.raiseNow w).firing = f.firing := rfl
@[simp] theorem Slot.raiseNow_land (f : Slot) (w : Word) : (f.raiseNow w).land = f.land := rfl
@[simp] theorem Slot.raiseNow_glen (f : Slot) (w : Word) : (f.raiseNow w).glen = f.glen := rfl
@[simp] theorem Slot.raiseNow_start (f : Slot) (w : Word) : (f.raiseNow w).start = f.start := rfl
@[simp] theorem Slot.raiseNow_startChunk (f : Slot) (w : Word) : (f.raiseNow w).startChunk = f.startChunk := rfl
@[simp] theorem Slot.raiseNow_chunk (f : Slot) (w : Word) : (f.raiseNow w).chunk = f.chunk := rfl
@[simp] theorem Slot.raiseNow_ckpt (f : Slot) (w : Word) : (f.raiseNow w).ckpt = f.ckpt := rfl
@[simp] theorem Slot.raiseNow_squashes (f : Slot) (w : Word) : (f.raiseNow w).squashes = f.squashes := rfl
@[simp] theorem Slot.raiseNow_wait (f : Slot) (w : Word) : (f.raiseNow w).wait = f.wait := rfl
@[simp] theorem Slot.raiseNow_opening (f : Slot) (w : Word) : (f.raiseNow w).opening = f.opening := rfl
@[simp] theorem Slot.raiseNow_zeros (f : Slot) (w : Word) : (f.raiseNow w).zeros = f.zeros := rfl
@[simp] theorem Slot.raiseNow_hosts (f : Slot) (w : Word) : (f.raiseNow w).hosts = f.hosts := rfl
@[simp] theorem Slot.raiseNow_filled (f : Slot) (w : Word) : (f.raiseNow w).filled = f.filled := rfl
@[simp] theorem Slot.raiseNow_word (f : Slot) (w : Word) : (f.raiseNow w).word = f.word := rfl
@[simp] theorem Slot.raiseNow_lines (f : Slot) (w : Word) : (f.raiseNow w).lines = f.lines := rfl

@[simp] theorem Slot.raiseLate_core (f : Slot) (w : Word) : (f.raiseLate w).core = f.core := rfl
@[simp] theorem Slot.raiseLate_k (f : Slot) (w : Word) : (f.raiseLate w).k = f.k := rfl
@[simp] theorem Slot.raiseLate_active (f : Slot) (w : Word) : (f.raiseLate w).active = f.active := rfl
@[simp] theorem Slot.raiseLate_firing (f : Slot) (w : Word) : (f.raiseLate w).firing = f.firing := rfl
@[simp] theorem Slot.raiseLate_reg (f : Slot) (w : Word) : (f.raiseLate w).reg = f.reg := rfl
@[simp] theorem Slot.raiseLate_glen (f : Slot) (w : Word) : (f.raiseLate w).glen = f.glen := rfl
@[simp] theorem Slot.raiseLate_start (f : Slot) (w : Word) : (f.raiseLate w).start = f.start := rfl
@[simp] theorem Slot.raiseLate_startChunk (f : Slot) (w : Word) : (f.raiseLate w).startChunk = f.startChunk := rfl
@[simp] theorem Slot.raiseLate_chunk (f : Slot) (w : Word) : (f.raiseLate w).chunk = f.chunk := rfl
@[simp] theorem Slot.raiseLate_ckpt (f : Slot) (w : Word) : (f.raiseLate w).ckpt = f.ckpt := rfl
@[simp] theorem Slot.raiseLate_squashes (f : Slot) (w : Word) : (f.raiseLate w).squashes = f.squashes := rfl
@[simp] theorem Slot.raiseLate_wait (f : Slot) (w : Word) : (f.raiseLate w).wait = f.wait := rfl
@[simp] theorem Slot.raiseLate_opening (f : Slot) (w : Word) : (f.raiseLate w).opening = f.opening := rfl
@[simp] theorem Slot.raiseLate_zeros (f : Slot) (w : Word) : (f.raiseLate w).zeros = f.zeros := rfl
@[simp] theorem Slot.raiseLate_hosts (f : Slot) (w : Word) : (f.raiseLate w).hosts = f.hosts := rfl
@[simp] theorem Slot.raiseLate_filled (f : Slot) (w : Word) : (f.raiseLate w).filled = f.filled := rfl
@[simp] theorem Slot.raiseLate_word (f : Slot) (w : Word) : (f.raiseLate w).word = f.word := rfl
@[simp] theorem Slot.raiseLate_lines (f : Slot) (w : Word) : (f.raiseLate w).lines = f.lines := rfl

@[simp] theorem Slot.addHidden_core (f : Slot) (n : Nat) : (f.addHidden n).core = f.core := rfl
@[simp] theorem Slot.addHidden_k (f : Slot) (n : Nat) : (f.addHidden n).k = f.k := rfl
@[simp] theorem Slot.addHidden_active (f : Slot) (n : Nat) : (f.addHidden n).active = f.active := rfl
@[simp] theorem Slot.addHidden_firing (f : Slot) (n : Nat) : (f.addHidden n).firing = f.firing := rfl
@[simp] theorem Slot.addHidden_reg (f : Slot) (n : Nat) : (f.addHidden n).reg = f.reg := rfl
@[simp] theorem Slot.addHidden_land (f : Slot) (n : Nat) : (f.addHidden n).land = f.land := rfl
@[simp] theorem Slot.addHidden_glen (f : Slot) (n : Nat) : (f.addHidden n).glen = f.glen := rfl
@[simp] theorem Slot.addHidden_start (f : Slot) (n : Nat) : (f.addHidden n).start = f.start := rfl
@[simp] theorem Slot.addHidden_startChunk (f : Slot) (n : Nat) : (f.addHidden n).startChunk = f.startChunk := rfl
@[simp] theorem Slot.addHidden_ckpt (f : Slot) (n : Nat) : (f.addHidden n).ckpt = f.ckpt := rfl
@[simp] theorem Slot.addHidden_squashes (f : Slot) (n : Nat) : (f.addHidden n).squashes = f.squashes := rfl
@[simp] theorem Slot.addHidden_wait (f : Slot) (n : Nat) : (f.addHidden n).wait = f.wait := rfl
@[simp] theorem Slot.addHidden_opening (f : Slot) (n : Nat) : (f.addHidden n).opening = f.opening := rfl
@[simp] theorem Slot.addHidden_zeros (f : Slot) (n : Nat) : (f.addHidden n).zeros = f.zeros := rfl
@[simp] theorem Slot.addHidden_hosts (f : Slot) (n : Nat) : (f.addHidden n).hosts = f.hosts := rfl
@[simp] theorem Slot.addHidden_filled (f : Slot) (n : Nat) : (f.addHidden n).filled = f.filled := rfl
@[simp] theorem Slot.addHidden_word (f : Slot) (n : Nat) : (f.addHidden n).word = f.word := rfl
@[simp] theorem Slot.addHidden_lines (f : Slot) (n : Nat) : (f.addHidden n).lines = f.lines := rfl

@[simp] theorem Slot.addRead_core (f : Slot) (l : Loc) : (f.addRead l).core = f.core := rfl
@[simp] theorem Slot.addRead_k (f : Slot) (l : Loc) : (f.addRead l).k = f.k := rfl
@[simp] theorem Slot.addRead_active (f : Slot) (l : Loc) : (f.addRead l).active = f.active := rfl
@[simp] theorem Slot.addRead_firing (f : Slot) (l : Loc) : (f.addRead l).firing = f.firing := rfl
@[simp] theorem Slot.addRead_reg (f : Slot) (l : Loc) : (f.addRead l).reg = f.reg := rfl
@[simp] theorem Slot.addRead_land (f : Slot) (l : Loc) : (f.addRead l).land = f.land := rfl
@[simp] theorem Slot.addRead_glen (f : Slot) (l : Loc) : (f.addRead l).glen = f.glen := rfl
@[simp] theorem Slot.addRead_start (f : Slot) (l : Loc) : (f.addRead l).start = f.start := rfl
@[simp] theorem Slot.addRead_startChunk (f : Slot) (l : Loc) : (f.addRead l).startChunk = f.startChunk := rfl
@[simp] theorem Slot.addRead_ckpt (f : Slot) (l : Loc) : (f.addRead l).ckpt = f.ckpt := rfl
@[simp] theorem Slot.addRead_squashes (f : Slot) (l : Loc) : (f.addRead l).squashes = f.squashes := rfl
@[simp] theorem Slot.addRead_wait (f : Slot) (l : Loc) : (f.addRead l).wait = f.wait := rfl
@[simp] theorem Slot.addRead_opening (f : Slot) (l : Loc) : (f.addRead l).opening = f.opening := rfl
@[simp] theorem Slot.addRead_zeros (f : Slot) (l : Loc) : (f.addRead l).zeros = f.zeros := rfl
@[simp] theorem Slot.addRead_hosts (f : Slot) (l : Loc) : (f.addRead l).hosts = f.hosts := rfl
@[simp] theorem Slot.addRead_filled (f : Slot) (l : Loc) : (f.addRead l).filled = f.filled := rfl
@[simp] theorem Slot.addRead_word (f : Slot) (l : Loc) : (f.addRead l).word = f.word := rfl
@[simp] theorem Slot.addRead_lines (f : Slot) (l : Loc) : (f.addRead l).lines = f.lines := rfl

@[simp] theorem Slot.hold_core (f : Slot) (h : Held) : (f.hold h).core = f.core := rfl
@[simp] theorem Slot.hold_k (f : Slot) (h : Held) : (f.hold h).k = f.k := rfl
@[simp] theorem Slot.hold_active (f : Slot) (h : Held) : (f.hold h).active = f.active := rfl
@[simp] theorem Slot.hold_firing (f : Slot) (h : Held) : (f.hold h).firing = f.firing := rfl
@[simp] theorem Slot.hold_reg (f : Slot) (h : Held) : (f.hold h).reg = f.reg := rfl
@[simp] theorem Slot.hold_land (f : Slot) (h : Held) : (f.hold h).land = f.land := rfl
@[simp] theorem Slot.hold_glen (f : Slot) (h : Held) : (f.hold h).glen = f.glen := rfl
@[simp] theorem Slot.hold_start (f : Slot) (h : Held) : (f.hold h).start = f.start := rfl
@[simp] theorem Slot.hold_startChunk (f : Slot) (h : Held) : (f.hold h).startChunk = f.startChunk := rfl
@[simp] theorem Slot.hold_ckpt (f : Slot) (h : Held) : (f.hold h).ckpt = f.ckpt := rfl
@[simp] theorem Slot.hold_squashes (f : Slot) (h : Held) : (f.hold h).squashes = f.squashes := rfl
@[simp] theorem Slot.hold_wait (f : Slot) (h : Held) : (f.hold h).wait = f.wait := rfl
@[simp] theorem Slot.hold_opening (f : Slot) (h : Held) : (f.hold h).opening = f.opening := rfl
@[simp] theorem Slot.hold_zeros (f : Slot) (h : Held) : (f.hold h).zeros = f.zeros := rfl
@[simp] theorem Slot.hold_hosts (f : Slot) (h : Held) : (f.hold h).hosts = f.hosts := rfl
@[simp] theorem Slot.hold_filled (f : Slot) (h : Held) : (f.hold h).filled = f.filled := rfl
@[simp] theorem Slot.hold_word (f : Slot) (h : Held) : (f.hold h).word = f.word := rfl
@[simp] theorem Slot.hold_lines (f : Slot) (h : Held) : (f.hold h).lines = f.lines := rfl

@[simp] theorem Slot.advanceTo_core (f : Slot) (m : Bool) (pc : Word) : (f.advanceTo m pc).core = f.core := by unfold Slot.advanceTo; dsimp only; split <;> rfl
@[simp] theorem Slot.advanceTo_k (f : Slot) (m : Bool) (pc : Word) : (f.advanceTo m pc).k = f.k := by unfold Slot.advanceTo; dsimp only; split <;> rfl
@[simp] theorem Slot.advanceTo_active (f : Slot) (m : Bool) (pc : Word) : (f.advanceTo m pc).active = f.active := by unfold Slot.advanceTo; dsimp only; split <;> rfl
@[simp] theorem Slot.advanceTo_firing (f : Slot) (m : Bool) (pc : Word) : (f.advanceTo m pc).firing = f.firing := by unfold Slot.advanceTo; dsimp only; split <;> rfl
@[simp] theorem Slot.advanceTo_ckpt (f : Slot) (m : Bool) (pc : Word) : (f.advanceTo m pc).ckpt = f.ckpt := by unfold Slot.advanceTo; dsimp only; split <;> rfl
@[simp] theorem Slot.advanceTo_squashes (f : Slot) (m : Bool) (pc : Word) : (f.advanceTo m pc).squashes = f.squashes := by unfold Slot.advanceTo; dsimp only; split <;> rfl
@[simp] theorem Slot.advanceTo_opening (f : Slot) (m : Bool) (pc : Word) : (f.advanceTo m pc).opening = f.opening := by unfold Slot.advanceTo; dsimp only; split <;> rfl
@[simp] theorem Slot.advanceTo_word (f : Slot) (m : Bool) (pc : Word) : (f.advanceTo m pc).word = f.word := by unfold Slot.advanceTo; dsimp only; split <;> rfl
@[simp] theorem Slot.advanceTo_lines (f : Slot) (m : Bool) (pc : Word) : (f.advanceTo m pc).lines = f.lines := by unfold Slot.advanceTo; dsimp only; split <;> rfl

@[simp] theorem Slot.advance_core (f : Slot) (m : Bool) : (f.advance m).core = f.core := Slot.advanceTo_core _ _ _
@[simp] theorem Slot.advance_k (f : Slot) (m : Bool) : (f.advance m).k = f.k := Slot.advanceTo_k _ _ _
@[simp] theorem Slot.advance_active (f : Slot) (m : Bool) : (f.advance m).active = f.active := Slot.advanceTo_active _ _ _
@[simp] theorem Slot.advance_firing (f : Slot) (m : Bool) : (f.advance m).firing = f.firing := Slot.advanceTo_firing _ _ _
@[simp] theorem Slot.advance_ckpt (f : Slot) (m : Bool) : (f.advance m).ckpt = f.ckpt := Slot.advanceTo_ckpt _ _ _
@[simp] theorem Slot.advance_squashes (f : Slot) (m : Bool) : (f.advance m).squashes = f.squashes := Slot.advanceTo_squashes _ _ _
@[simp] theorem Slot.advance_opening (f : Slot) (m : Bool) : (f.advance m).opening = f.opening := Slot.advanceTo_opening _ _ _
@[simp] theorem Slot.advance_word (f : Slot) (m : Bool) : (f.advance m).word = f.word := Slot.advanceTo_word _ _ _
@[simp] theorem Slot.advance_lines (f : Slot) (m : Bool) : (f.advance m).lines = f.lines := Slot.advanceTo_lines _ _ _

@[simp] theorem Slot.landGroup_core (f : Slot) : (f.landGroup).core = f.core := rfl
@[simp] theorem Slot.landGroup_k (f : Slot) : (f.landGroup).k = f.k := rfl
@[simp] theorem Slot.landGroup_active (f : Slot) : (f.landGroup).active = f.active := rfl
@[simp] theorem Slot.landGroup_firing (f : Slot) : (f.landGroup).firing = f.firing := rfl
@[simp] theorem Slot.landGroup_chunk (f : Slot) : (f.landGroup).chunk = f.chunk := rfl
@[simp] theorem Slot.landGroup_ckpt (f : Slot) : (f.landGroup).ckpt = f.ckpt := rfl
@[simp] theorem Slot.landGroup_squashes (f : Slot) : (f.landGroup).squashes = f.squashes := rfl
@[simp] theorem Slot.landGroup_wait (f : Slot) : (f.landGroup).wait = f.wait := rfl
@[simp] theorem Slot.landGroup_opening (f : Slot) : (f.landGroup).opening = f.opening := rfl
@[simp] theorem Slot.landGroup_zeros (f : Slot) : (f.landGroup).zeros = f.zeros := rfl
@[simp] theorem Slot.landGroup_hosts (f : Slot) : (f.landGroup).hosts = f.hosts := rfl
@[simp] theorem Slot.landGroup_filled (f : Slot) : (f.landGroup).filled = f.filled := rfl
@[simp] theorem Slot.landGroup_word (f : Slot) : (f.landGroup).word = f.word := rfl
@[simp] theorem Slot.landGroup_lines (f : Slot) : (f.landGroup).lines = f.lines := rfl
/-! ### What a register reads after a write (R44, R67) -/

theorem Slot.gr_writeG_self (f : Slot) (d : BitVec 5) (x : Word) (h : d ≠ 0) : (f.writeG d x).gr d = x := by
  have h' : d ≠ 0#5 := h
  simp [Slot.writeG, Slot.gr, h']

theorem Slot.gr_writeG_ne (f : Slot) (d r : BitVec 5) (x : Word) (h : r ≠ d) : (f.writeG d x).gr r = f.gr r := by
  have : d.toNat ≠ r.toNat := fun e => h (BitVec.eq_of_toNat_eq e.symm)
  by_cases hd : d = 0#5 <;> simp [Slot.writeG, Slot.gr, hd, this]

@[simp] theorem Slot.gr_zero (f : Slot) : f.gr 0#5 = 0#64 := rfl

@[simp] theorem Slot.mr_zero (f : Slot) : f.mr 0#3 = BitVec.allOnes 32 := rfl

theorem Slot.vr_writeV_self (f : Slot) (d : BitVec 5) (x : VReg) : (f.writeV d x).vr d = x := by
  simp [Slot.writeV, Slot.vr]

theorem Slot.vr_writeV_ne (f : Slot) (d r : BitVec 5) (x : VReg) (h : r ≠ d) : (f.writeV d x).vr r = f.vr r := by
  have : d.toNat ≠ r.toNat := fun e => h (BitVec.eq_of_toNat_eq e.symm)
  simp [Slot.writeV, Slot.vr, this]

theorem Slot.mr_writeM_self (f : Slot) (d : BitVec 3) (x : Lane) (h : d ≠ 0) : (f.writeM d x).mr d = x := by
  have h' : d ≠ 0#3 := h
  simp [Slot.writeM, Slot.mr, h']

theorem Slot.mr_writeM_ne (f : Slot) (d r : BitVec 3) (x : Lane) (h : r ≠ d) : (f.writeM d x).mr r = f.mr r := by
  have : d.toNat ≠ r.toNat := fun e => h (BitVec.eq_of_toNat_eq e.symm)
  by_cases hd : d = 0#3 <;> simp [Slot.writeM, Slot.mr, hd, this]

/-! ### The end of a group (R66 to R69) -/

/-- Where the group does not end, nothing lands. -/
theorem Slot.advanceTo_open (f : Slot) (pc : Word) (h : f.glen < 63) :
    f.advanceTo false pc = { f with
      reg := { f.reg with pc := pc, onceArmed := false }, glen := f.glen + 1
      chunk := { f.chunk with ninstr := f.chunk.ninstr + 1 }, wait := .none, zeros := [], hosts := [], filled := [] } := by
  unfold Slot.advanceTo
  have : ¬ 64 ≤ f.glen + 1 := by omega
  simp [this]

/-- A marked instruction ends its group. -/
theorem Slot.advanceTo_marked (f : Slot) (pc : Word) :
    f.advanceTo true pc = ({ f with
      reg := { f.reg with pc := pc, onceArmed := false }, glen := f.glen + 1
      chunk := { f.chunk with ninstr := f.chunk.ninstr + 1 }, wait := .none, zeros := [], hosts := [], filled := [] } : Slot).landGroup := by
  simp [Slot.advanceTo]

@[simp] theorem Slot.advanceTo_pc (f : Slot) (m : Bool) (pc : Word) : (f.advanceTo m pc).reg.pc = pc := by
  unfold Slot.advanceTo; dsimp only; split <;> rfl

@[simp] theorem Slot.advance_pc (f : Slot) (m : Bool) : (f.advance m).reg.pc = f.reg.pc + 4#64 := Slot.advanceTo_pc _ _ _

@[simp] theorem Slot.advanceTo_wbuf (f : Slot) (m : Bool) (pc : Word) : (f.advanceTo m pc).chunk.wbuf = f.chunk.wbuf := by
  unfold Slot.advanceTo; dsimp only; split <;> rfl

@[simp] theorem Slot.advance_wbuf (f : Slot) (m : Bool) : (f.advance m).chunk.wbuf = f.chunk.wbuf :=
  Slot.advanceTo_wbuf _ _ _

@[simp] theorem Slot.advanceTo_held (f : Slot) (m : Bool) (pc : Word) : (f.advanceTo m pc).chunk.held = f.chunk.held := by
  unfold Slot.advanceTo; dsimp only; split <;> rfl

@[simp] theorem Slot.advance_held (f : Slot) (m : Bool) : (f.advance m).chunk.held = f.chunk.held :=
  Slot.advanceTo_held _ _ _

@[simp] theorem Slot.addRead_wbuf (f : Slot) (l : Loc) : (f.addRead l).chunk.wbuf = f.chunk.wbuf := rfl

@[simp] theorem Slot.addRead_held (f : Slot) (l : Loc) : (f.addRead l).chunk.held = f.chunk.held := rfl

@[simp] theorem Slot.hold_wbuf (f : Slot) (h : Held) : (f.hold h).chunk.wbuf = f.chunk.wbuf := rfl

@[simp] theorem Slot.addHidden_wbuf (f : Slot) (n : Nat) : (f.addHidden n).chunk.wbuf = f.chunk.wbuf := rfl

end Sys2Proof.Machine
end

