-- ==== Sys2Proof/Laws/Dram.lean ====
section
/-! SUPPORT. What the operations on the LLC and DRAM leave of M (R369 to R386): writing DRAM, recording errors and poisoning
leave it; fills and writes keep its canonical form. -/

namespace Sys2Proof.Machine

/-- A fold keeps what each of its steps keeps. -/
theorem foldl_keeps {α β : Type} {P : β → Prop} {f : β → α → β} (hf : ∀ s a, P s → P (f s a)) :
    ∀ (l : List α) (s : β), P s → P (l.foldl f s)
  | [], _, h => h
  | a :: t, s, h => foldl_keeps hf t _ (hf s a h)

/-- A fold leaves a field that each of its steps leaves. -/
theorem foldl_field {α β γ : Type} (g : β → γ) {f : β → α → β} (hf : ∀ s a, g (f s a) = g s) :
    ∀ (l : List α) (s : β), g (l.foldl f s) = g s
  | [], _ => rfl
  | a :: t, s => (foldl_field g hf t (f s a)).trans (hf s a)

@[simp] theorem State.report_mem (s : State) (r : MgmtRec) : (s.report r).mem = s.mem := rfl

@[simp] theorem State.poisonUnit_mem (s : State) (b n : Nat) : (s.poisonUnit b n).mem = s.mem := rfl

@[simp] theorem State.markLines_mem (s : State) (keys : List Nat) : (s.markLines keys).mem = s.mem := by
  unfold State.markLines; split <;> rfl

@[simp] theorem State.blame_mem (s : State) (pcs : List Nat) : (s.blame pcs).mem = s.mem := by
  unfold State.blame
  exact foldl_field State.mem (fun s p => by dsimp only; split <;> rfl) _ _

@[simp] theorem State.getUnit_mem (s : State) (a : Attr) (b : Nat) : (s.getUnit a b).1.mem = s.mem := by
  unfold State.getUnit; dsimp only; split
  · rfl
  · exact State.blame_mem _ _

@[simp] theorem State.putUnit_mem (s : State) (a : Attr) (b : Nat) (l : List Byte) (p : Bool) :
    (s.putUnit a b l p).mem = s.mem := rfl

@[simp] theorem State.reportUnit_mem (s : State) (a : Attr) (b : Nat) : (s.reportUnit a b).mem = s.mem := by
  unfold State.reportUnit; split <;> rfl

@[simp] theorem State.unpoison_mem (s : State) (c : Bool) (b n : Nat) : (s.unpoison c b n).mem = s.mem := by
  unfold State.unpoison; split <;> rfl

@[simp] theorem State.dropTags_mem (s : State) : s.dropTags.mem = s.mem := by
  unfold State.dropTags; split <;> rfl

@[simp] theorem State.foundBad_mem (s : State) (a : Attr) (b : Nat) : (s.foundBad a b).mem = s.mem := by
  unfold State.foundBad; split <;> simp

@[simp] theorem State.clean_mem (s : State) (g b : Nat) : (s.clean g b).mem = s.mem := rfl

/-- Writing a unit back leaves M. -/
@[simp] theorem State.writeBackUnit_mem (s : State) (a : Attr) (b : Nat) : (s.writeBackUnit a b).mem = s.mem := by
  unfold State.writeBackUnit; dsimp only; split
  · simp
  · split <;> simp

@[simp] theorem State.flushLine_mem (s : State) (l : LlcLine) : (s.flushLine l).mem = s.mem := by
  unfold State.flushLine
  exact foldl_field State.mem (fun s b => by split <;> simp) _ _

/-- A line that leaves the LLC leaves M. -/
@[simp] theorem State.evict_mem (s : State) (l : LlcLine) : (s.evict l).mem = s.mem := by
  unfold State.evict; simp

@[simp] theorem State.evictOther_mem (s : State) (c n : Nat) : (s.evictOther c n).mem = s.mem := by
  unfold State.evictOther; split
  · split <;> simp
  · rfl

@[simp] theorem State.makeRoom_mem (s : State) (a : Attr) (n : Nat) : (s.makeRoom a n).mem = s.mem := by
  unfold State.makeRoom; dsimp only; split
  · rfl
  · split <;> simp

@[simp] theorem State.allocate_mem (s : State) (a : Attr) (n v d : Nat) : (s.allocate a n v d).mem = s.mem := by
  unfold State.allocate; split <;> simp

@[simp] theorem State.writeThrough_mem (s : State) (a : Attr) (b : Nat) (keys : List Nat) :
    (s.writeThrough a b keys).mem = s.mem := by
  unfold State.writeThrough; dsimp only; split
  · simp
  · split <;> simp

@[simp] theorem State.afterWrite_mem (s : State) (attr : Nat → Attr) (keys : List Nat) : (s.afterWrite attr keys).mem = s.mem := by
  unfold State.afterWrite
  exact foldl_field State.mem (fun s q => by dsimp only; split <;> simp) _ _

@[simp] theorem State.poisonWrite_mem (s : State) (a : Attr) (k : Nat) : (s.poisonWrite a k).mem = s.mem := by
  simp [State.poisonWrite]

/-- The bytes of a unit that a fill takes keep the canonical form of M. -/
theorem State.takeUnit_wf (s : State) (a : Attr) (b : Nat) (l : List Byte) (h : Memory.wf s.mem = true) :
    Memory.wf (s.takeUnit a b l).mem = true := by
  unfold State.takeUnit
  exact foldl_keeps (P := fun m => Memory.wf m = true)
    (fun m p hm => by split; exacts [hm, Memory.wf_cellWriteList _ _ _ hm]) _ _ h

/-- A fill keeps the canonical form of M. -/
theorem State.fill_wf (s : State) (a : Attr) (k : Nat) (h : Memory.wf s.mem = true) : Memory.wf (s.fill a k).mem = true := by
  have h1 : ∀ (c : Nat) (l : List Nat), (l.foldl (fun s n => s.evictOther c n) s).mem = s.mem := fun c l =>
    foldl_field State.mem (fun s n => State.evictOther_mem s c n) l s
  have h2 : ∀ (b : Attr) (l : List Nat) (t : State),
      (l.foldl (fun s q => s.allocate b (q / 128) (sectorBit q) 0) t).mem = t.mem := fun b l t =>
    foldl_field State.mem (fun s q => State.allocate_mem s b _ _ _) l t
  unfold State.fill
  split
  · exact h
  · dsimp only
    split <;> split <;> simp_all [State.takeUnit_wf]

/-- Filling what the LLC lacks keeps the canonical form of M. -/
theorem State.fillMissing_wf (s : State) (attr : Nat → Attr) (keys : List Nat) (h : Memory.wf s.mem = true) :
    Memory.wf (s.fillMissing attr keys).mem = true := by
  unfold State.fillMissing
  refine foldl_keeps (P := fun s => Memory.wf s.mem = true) (fun s k hs => ?_) keys s h
  split
  · exact hs
  · exact State.fill_wf _ _ _ hs

/-- What precedes a write keeps the canonical form of M. -/
theorem State.beforeWrite_wf (s : State) (attr : Nat → Attr) (keys : List Nat) (h : Memory.wf s.mem = true) :
    Memory.wf (s.beforeWrite attr keys).mem = true := by
  unfold State.beforeWrite
  refine foldl_keeps (P := fun s => Memory.wf s.mem = true) (fun s q hs => ?_) _ s h
  dsimp only
  split
  · simpa using hs
  · exact State.fill_wf _ _ _ (by simpa using hs)

/-- A write writes its cells, but those in absent frames (R369), over what its fills have put into M. -/
theorem State.writeMem_mem (s : State) (attr : Nat → Attr) (l : List Host.Cell) :
    (s.writeMem attr l).mem = cellWriteAll (s.beforeWrite attr ((l.filter fun c => !frameAbsent c.1).map fun c => c.1)).mem
      (l.filter fun c => !frameAbsent c.1) := by
  simp [State.writeMem]

/-- A write keeps the canonical form of M. -/
theorem State.writeMem_wf (s : State) (attr : Nat → Attr) (l : List Host.Cell) (h : Memory.wf s.mem = true) :
    Memory.wf (s.writeMem attr l).mem = true := by
  rw [State.writeMem_mem]
  exact Memory.wf_cellWriteAll _ _ (State.beforeWrite_wf _ _ _ h)

/-- A write in the log keeps the canonical form of M. -/
theorem State.logWrite_wf (s : State) (attr : Nat → Attr) (l : List Host.Cell) (h : Memory.wf s.mem = true) :
    Memory.wf (s.logWrite attr l).mem = true :=
  State.writeMem_wf _ _ _ (by simpa using h)

/-- An Apply step keeps the canonical form of M. -/
theorem State.applyWith_wf (s : State) (attr : Nat → Attr) (k : Nat) (l : List Byte) (h : Memory.wf s.mem = true) :
    Memory.wf (s.applyWith attr k l).mem = true :=
  State.logWrite_wf _ _ _ h

/-! ### Writes of whole sectors (R379) -/

/-- A byte of a sector that the list has: its mask gains the byte's bit. -/
theorem addMask_mem (k : Nat) : ∀ l : List (Nat × Nat), (l.map Prod.fst).Nodup → k / 32 ∈ l.map Prod.fst →
    addMask l k = l.map fun x => if x.1 = k / 32 then (x.1, x.2 ||| 2 ^ (k % 32)) else x
  | [], _, h => by simp at h
  | x :: t, hn, h => by
    simp only [List.map_cons, List.nodup_cons] at hn
    by_cases hx : x.1 = k / 32
    · have : t.map (fun x => if x.1 = k / 32 then (x.1, x.2 ||| 2 ^ (k % 32)) else x) = t := by
        refine (List.map_congr_left fun y hy => ?_).trans (List.map_id t)
        have : y.1 ≠ k / 32 := fun e => hn.1 (by rw [hx, ← e]; exact List.mem_map_of_mem hy)
        simp [this]
      simp [addMask, hx, this]
    · have ht : k / 32 ∈ t.map Prod.fst := by
        rcases List.mem_cons.1 h with e | e
        · exact absurd e.symm hx
        · exact e
      have ha : (t.any fun y => y.1 = k / 32) = true := by
        obtain ⟨y, hy, e⟩ := List.mem_map.1 ht
        exact List.any_eq_true.2 ⟨y, hy, by simpa using e⟩
      simp only [addMask, hx, ha, if_false, if_true, List.map_cons]
      rw [addMask_mem k t hn.2 ht]

/-- A byte of a sector that the list lacks begins a mask. -/
theorem addMask_not_mem (k : Nat) (l : List (Nat × Nat)) (h : k / 32 ∉ l.map Prod.fst) :
    addMask l k = (k / 32, 2 ^ (k % 32)) :: l := by
  cases l with
  | nil => rfl
  | cons x t =>
    have hx : x.1 ≠ k / 32 := fun e => h (by simp [e])
    have ht : (t.any fun y => y.1 = k / 32) = false := by
      rw [List.any_eq_false]
      intro y hy e
      exact h (List.mem_cons_of_mem _ (by have := List.mem_map_of_mem (f := Prod.fst) hy; simpa [of_decide_eq_true e] using this))
    simp [addMask, hx, ht]

/-- What the masks of a list of bytes say: a sector is listed once, and its mask has the bits of its bytes in the list. -/
structure MasksOf (l : List (Nat × Nat)) (keys : List Nat) : Prop where
  nodup : (l.map Prod.fst).Nodup
  listed : ∀ k ∈ keys, k / 32 ∈ l.map Prod.fst
  source : ∀ x ∈ l, ∃ k ∈ keys, k / 32 = x.1
  small : ∀ x ∈ l, x.2 < 2 ^ 32
  bits : ∀ x ∈ l, ∀ j, j < 32 → (x.2.testBit j = true ↔ 32 * x.1 + j ∈ keys)

theorem MasksOf.add {l : List (Nat × Nat)} {keys : List Nat} (h : MasksOf l keys) (k : Nat) :
    MasksOf (addMask l k) (k :: keys) := by
  by_cases hk : k / 32 ∈ l.map Prod.fst
  · rw [addMask_mem k l h.nodup hk]
    have hf : (l.map fun x => if x.1 = k / 32 then (x.1, x.2 ||| 2 ^ (k % 32)) else x).map Prod.fst = l.map Prod.fst := by
      rw [List.map_map]; exact List.map_congr_left fun x _ => by simp only [Function.comp]; split <;> rfl
    refine ⟨by rw [hf]; exact h.nodup, fun j hj => ?_, fun x hx => ?_, fun x hx => ?_, fun x hx j hj => ?_⟩
    · rw [hf]
      rcases List.mem_cons.1 hj with e | e
      · exact e ▸ hk
      · exact h.listed j e
    · obtain ⟨y, hy, rfl⟩ := List.mem_map.1 hx
      obtain ⟨j, hj, e⟩ := h.source y hy
      exact ⟨j, List.mem_cons_of_mem _ hj, by split <;> exact e⟩
    · obtain ⟨y, hy, rfl⟩ := List.mem_map.1 hx
      split
      · exact Nat.or_lt_two_pow (h.small y hy) (Nat.pow_lt_pow_right (by omega) (Nat.mod_lt _ (by omega)))
      · exact h.small y hy
    · obtain ⟨y, hy, rfl⟩ := List.mem_map.1 hx
      split
      next e =>
        simp only [Nat.testBit_or, Nat.testBit_two_pow, Bool.or_eq_true, decide_eq_true_eq, List.mem_cons]
        rw [h.bits y hy j hj, e]; constructor <;> rintro (a | a) <;> first | (left; omega) | (right; assumption) | skip
        exact Or.inr (by omega)
      next e =>
        rw [h.bits y hy j hj, List.mem_cons]
        exact ⟨Or.inr, fun a => a.resolve_left (by omega)⟩
  · rw [addMask_not_mem k l hk]
    refine ⟨List.nodup_cons.2 ⟨hk, h.nodup⟩, fun j hj => ?_, fun x hx => ?_, fun x hx => ?_, fun x hx j hj => ?_⟩
    · rcases List.mem_cons.1 hj with e | e
      · simp [e]
      · exact List.mem_cons_of_mem _ (h.listed j e)
    · rcases List.mem_cons.1 hx with e | e
      · exact ⟨k, List.mem_cons_self .., by simp [e]⟩
      · obtain ⟨j, hj, e⟩ := h.source x e
        exact ⟨j, List.mem_cons_of_mem _ hj, e⟩
    · rcases List.mem_cons.1 hx with e | e
      · subst e; exact Nat.pow_lt_pow_right (by omega) (Nat.mod_lt _ (by omega))
      · exact h.small x e
    · rcases List.mem_cons.1 hx with e | e
      · subst e
        simp only [Nat.testBit_two_pow, decide_eq_true_eq, List.mem_cons]
        constructor
        · intro a; left; omega
        · rintro (a | a)
          · omega
          · exact absurd (by have := h.listed _ a; rwa [show (32 * (k / 32) + j) / 32 = k / 32 by omega] at this) hk
      · rw [h.bits x e j hj, List.mem_cons]
        refine ⟨Or.inr, fun a => a.resolve_left fun b => hk ?_⟩
        rw [show k / 32 = x.1 by omega]; exact List.mem_map_of_mem e

theorem MasksOf.fold : ∀ (keys : List Nat) (l : List (Nat × Nat)) (seen : List Nat), MasksOf l seen →
    MasksOf (keys.foldl addMask l) (keys.reverse ++ seen)
  | [], _, _, h => by simpa using h
  | k :: t, l, seen, h => by simpa using MasksOf.fold t _ _ (h.add k)

/-- R369: the bytes of installed DRAM. -/
theorem inDram_iff (k : Nat) : inDram k = true ↔ k < 64 * 2 ^ 33 := by
  rw [inDram, decide_eq_true_iff]; rfl

/-- Bytes that fill whole sectors write whole sectors. -/
theorem writtenSectors_whole (base n : Nat) (hb : base % 32 = 0) (hn : n % 32 = 0) :
    ∀ q ∈ writtenSectors ((List.range n).map (base + ·)), q.2 = true := by
  have h := MasksOf.fold (((List.range n).map (base + ·)).filter inDram) [] [] ⟨by simp, by simp, by simp, by simp, by simp⟩
  intro q hq
  simp only [writtenSectors, List.mem_map, List.mem_reverse] at hq
  obtain ⟨x, hx, rfl⟩ := hq
  obtain ⟨k, hk, e⟩ := h.source x hx
  simp only [List.append_nil, List.mem_reverse, List.mem_filter, List.mem_map, List.mem_range,
    inDram_iff] at hk
  obtain ⟨⟨i, hi, rfl⟩, hd⟩ := hk
  refine decide_eq_true (Nat.eq_of_testBit_eq fun j => ?_)
  by_cases hj : j < 32
  · rw [Nat.testBit_two_pow_sub_one, (h.bits x hx j hj).2 ?_]
    · simp [hj]
    · simp only [List.append_nil, List.mem_reverse, List.mem_filter, List.mem_map, List.mem_range,
        inDram_iff]
      exact ⟨⟨32 * x.1 + j - base, by omega, by omega⟩, by omega⟩
  · rw [Nat.testBit_two_pow_sub_one, Nat.testBit_lt_two_pow (Nat.lt_of_lt_of_le (h.small x hx) (Nat.pow_le_pow_right (by omega) (by omega)))]
    simp [hj]

/-- A write of whole sectors puts nothing but itself into M. -/
theorem State.beforeWrite_whole (s : State) (attr : Nat → Attr) (keys : List Nat) (h : ∀ q ∈ writtenSectors keys, q.2 = true) :
    (s.beforeWrite attr keys).mem = s.mem := by
  unfold State.beforeWrite
  revert h
  induction writtenSectors keys generalizing s with
  | nil => exact fun _ => rfl
  | cons q t ih =>
    intro h
    rw [List.foldl_cons, ih _ (fun x hx => h x (List.mem_cons_of_mem _ hx))]
    simp [h q (List.mem_cons_self ..)]

/-! ### Where a fill writes (R374, R379) -/

/-- R374: a unit lies in one aligned block of 512 bytes. -/
theorem unit_in_block (gran k i : Nat) (h : i < granUnit gran) : (unitBase gran k + i) / 512 = k / 512 := by
  unfold granUnit at h
  unfold unitBase granUnit
  split at h <;> omega

/-- The bytes of a unit that a fill takes lie in the unit. -/
theorem State.takeUnit_read (s : State) (a : Attr) (k j : Nat) (l : List Byte) (hw : Memory.wf s.mem = true)
    (hj : j / 512 ≠ k / 512) : cellRead (s.takeUnit a (unitBase a.gran k) l).mem j = cellRead s.mem j := by
  unfold State.takeUnit
  have key : ∀ (ps : List (Nat × Nat)) (m : List Host.Cell),
      (∀ p ∈ ps, ∀ i < 32, (p.1 + i) / 512 = k / 512) → Memory.wf m = true →
      cellRead (ps.foldl (fun m p => if s.validAt p.1 then m else cellWriteList m p.1 ((l.drop (32 * p.2)).take 32)) m) j
        = cellRead m j := by
    intro ps
    induction ps with
    | nil => intros; rfl
    | cons p t ih =>
      intro m hp hm
      rw [List.foldl_cons, ih _ (fun q hq => hp q (List.mem_cons_of_mem _ hq)) (by split; exacts [hm, Memory.wf_cellWriteList _ _ _ hm])]
      split
      · rfl
      · rw [cellRead_cellWriteList _ _ _ _ hm, if_neg]
        rintro ⟨h1, h2⟩
        have h3 : j - p.1 < 32 := by simp only [List.length_take] at h2; omega
        have := hp p (List.mem_cons_self ..) (j - p.1) h3
        rw [show p.1 + (j - p.1) = j by omega] at this
        exact hj this
  refine key _ _ (fun p hp i hi => ?_) hw
  have h := (List.mem_zipIdx' hp)
  obtain ⟨h1, h2⟩ := h
  simp only [unitSectors, List.length_map, List.length_range] at h1
  rw [h2]
  simp only [unitSectors, List.getElem_map, List.getElem_range]
  rw [Nat.add_assoc]
  refine unit_in_block _ _ _ ?_
  have : granUnit a.gran = 32 ∨ granUnit a.gran = 64 ∨ granUnit a.gran = 128 ∨ granUnit a.gran = 512 := by
    unfold granUnit; split <;> simp
  omega

/-- A fill leaves every byte outside the 512-byte block of the byte it is for. -/
theorem State.fill_read (s : State) (a : Attr) (k j : Nat) (hw : Memory.wf s.mem = true) (hj : j / 512 ≠ k / 512) :
    cellRead (s.fill a k).mem j = cellRead s.mem j := by
  have h1 : ∀ (c : Nat) (l : List Nat), (l.foldl (fun s n => s.evictOther c n) s).mem = s.mem := fun c l =>
    foldl_field State.mem (fun s n => State.evictOther_mem s c n) l s
  have h2 : ∀ (b : Attr) (l : List Nat) (t : State),
      (l.foldl (fun s q => s.allocate b (q / 128) (sectorBit q) 0) t).mem = t.mem := fun b l t =>
    foldl_field State.mem (fun s q => State.allocate_mem s b _ _ _) l t
  unfold State.fill
  split
  · rfl
  · dsimp only
    have h3 : ∀ (b : Attr) (t : State) (l : List Byte), t.mem = s.mem →
        cellRead (t.takeUnit b (unitBase b.gran k) l).mem j = cellRead s.mem j := fun b t l e => by
      rw [State.takeUnit_read _ _ _ _ _ (e ▸ hw) hj, e]
    have h4 : ∀ (b : Attr) (n : Nat) (l : List Nat),
        ((l.foldl (fun s n => s.evictOther b.ctx n) s).getUnit b n).1.mem = s.mem := fun b n l => by simp [h1]
    split <;> split
    · rw [State.unpoison_mem]; exact h3 _ _ _ (h4 _ _ _)
    · rw [State.unpoison_mem, h2]; exact h3 _ _ _ (h4 _ _ _)
    · rw [State.foundBad_mem, h4]
    · rw [State.foundBad_mem, h2, h4]

/-- What precedes a write leaves every byte outside the 512-byte blocks of its bytes. -/
theorem State.beforeWrite_read (s : State) (attr : Nat → Attr) (keys : List Nat) (j : Nat) (hw : Memory.wf s.mem = true)
    (hj : ∀ k ∈ keys, j / 512 ≠ k / 512) : cellRead (s.beforeWrite attr keys).mem j = cellRead s.mem j := by
  have hq : ∀ q ∈ writtenSectors keys, j / 512 ≠ q.1 / 512 := by
    have h := MasksOf.fold (keys.filter inDram) [] [] ⟨by simp, by simp, by simp, by simp, by simp⟩
    intro q hq
    simp only [writtenSectors, List.mem_map, List.mem_reverse] at hq
    obtain ⟨x, hx, rfl⟩ := hq
    obtain ⟨k, hk, e⟩ := h.source x hx
    simp only [List.append_nil, List.mem_reverse, List.mem_filter] at hk
    have := hj k hk.1
    show j / 512 ≠ 32 * x.1 / 512
    omega
  unfold State.beforeWrite
  revert hq hw
  induction writtenSectors keys generalizing s with
  | nil => intros; rfl
  | cons q t ih =>
    intro hw hq
    rw [List.foldl_cons]
    refine (ih _ ?_ (fun x hx => hq x (List.mem_cons_of_mem _ hx))).trans ?_
    · dsimp only
      split
      · simpa using hw
      · exact State.fill_wf _ _ _ (by simpa using hw)
    · dsimp only
      split
      · simp
      · rw [State.fill_read _ _ _ _ (by simpa using hw) (hq q (List.mem_cons_self ..))]; simp

end Sys2Proof.Machine
end

