-- ==== Sys2Proof/Laws/Ops.lean ====
section
/-! SUPPORT. Lemmas about the shared operations: tables by key, the places of contexts and logical cores, what an
instruction's result makes of the state, and exclusive commit. -/

namespace Sys2Proof.Machine

/-! ### Tables -/

/-- Reading a table after a write. -/
@[simp] theorem lookupD_setKey {α : Type} (l : List (Nat × α)) (k j : Nat) (v d : α) :
    lookupD (setKey l k v) j d = if j = k then v else lookupD l j d := by
  induction l with
  | nil => simp [setKey, lookupD, eq_comm]
  | cons p t ih =>
    obtain ⟨a, w⟩ := p
    by_cases h : a = k
    · subst h; by_cases hj : a = j <;> simp [setKey, lookupD, hj, Ne.symm]
    · by_cases hj : a = j
      · subst hj; simp [setKey, lookupD, h]
      · simp [setKey, lookupD, h, hj, ih]

/-- The element a replacement puts in place is the first that meets its condition. -/
theorem find?_upsert_self {α : Type} (p : α → Bool) (a : α) (h : p a = true) : ∀ l, (upsert p a l).find? p = some a
  | [] => by simp [upsert, h]
  | b :: t => by
    by_cases hb : p b = true
    · simp [upsert, hb, h]
    · simp [upsert, hb, find?_upsert_self p a h t]

/-- A replacement leaves what another condition finds. -/
theorem find?_upsert_other {α : Type} (p q : α → Bool) (a : α) (hq : q a = false) (hpq : ∀ b, p b = true → q b = false) :
    ∀ l, (upsert p a l).find? q = l.find? q
  | [] => by simp [upsert, hq]
  | b :: t => by
    by_cases hb : p b = true
    · simp [upsert, hb, hq, hpq b hb]
    · simp [upsert, hb, List.find?_cons, find?_upsert_other p q a hq hpq t]

/-- A context reads as it was set. -/
@[simp] theorem State.ctxOf_setCtx (s : State) (c : Ctx) : (s.setCtx c).ctxOf c.id = c := by
  simp [State.ctxOf, State.setCtx, find?_upsert_self]

/-- The other contexts stay. -/
theorem State.ctxOf_setCtx_ne (s : State) (c : Ctx) (n : Nat) (h : n ≠ c.id) : (s.setCtx c).ctxOf n = s.ctxOf n := by
  unfold State.ctxOf State.setCtx
  rw [find?_upsert_other]
  · simpa using Ne.symm h
  · intro b hb; simp only [decide_eq_true_eq] at hb; simp [hb, Ne.symm h]

/-- A logical core reads as it was set. -/
@[simp] theorem Ctx.lcOf_setLc (c : Ctx) (l : LCore) : (c.setLc l).lcOf l.n = l := by
  simp [Ctx.lcOf, Ctx.setLc, find?_upsert_self]

/-- The other logical cores stay. -/
theorem Ctx.lcOf_setLc_ne (c : Ctx) (l : LCore) (n : Nat) (h : n ≠ l.n) : (c.setLc l).lcOf n = c.lcOf n := by
  unfold Ctx.lcOf Ctx.setLc
  rw [find?_upsert_other]
  · simpa using Ne.symm h
  · intro b hb; simp only [decide_eq_true_eq] at hb; simp [hb, Ne.symm h]

/-- A task-table entry reads as it was set; the others stay. -/
@[simp] theorem LCore.ttOf_setTt (l : LCore) (k j : Nat) (e : TTEntry) :
    (l.setTt k e).ttOf j = if j = k then e else l.ttOf j := by simp [LCore.ttOf, LCore.setTt]

/-- A tile-table entry reads as it was set; the others stay. -/
@[simp] theorem LCore.tileOf_setTile (l : LCore) (k j : Nat) (e : Tile) :
    (l.setTile k e).tileOf j = if j = k then e else l.tileOf j := by simp [LCore.tileOf, LCore.setTile]

/-! ### What an instruction's result makes of the state (R60, R61, R66, R273) -/

@[simp] theorem State.finish_ok (s : State) (f : Slot) : s.finish (.ok f) = .next (s.withFocus f) := rfl

@[simp] theorem State.finish_exc (s : State) (c : Cause) (i0 i1 i2 : Word) :
    s.finish (.error (.exc c i0 i1 i2)) = .next (s.takeException c s.focus.reg.pc i0 i1 i2) := rfl

@[simp] theorem State.finish_park (s : State) (w : Wait) (reads : List Loc) :
    s.finish (.error (.park w reads)) = .next (s.withFocus { reads.foldl Slot.addRead s.focus with wait := w }) := rfl

@[simp] theorem State.finish_miss (s : State) (va : Word) (acc : Nat) :
    s.finish (.error (.miss va acc)) = .next (s.tlbMiss va acc) := rfl

/-- An instruction's result is always a next state: its own effect, a firing exception, a wait, or a translation request. -/
theorem State.finish_cases (s t : State) (r : Try Slot) (h : s.finish r = .next t) :
    (∃ f, r = .ok f ∧ t = s.withFocus f)
    ∨ (∃ c i0 i1 i2, r = .error (.exc c i0 i1 i2) ∧ t = s.takeException c s.focus.reg.pc i0 i1 i2)
    ∨ (∃ w reads, r = .error (.park w reads) ∧ t = s.withFocus { reads.foldl Slot.addRead s.focus with wait := w })
    ∨ (∃ va acc, r = .error (.miss va acc) ∧ t = s.tlbMiss va acc) := by
  match r, h with
  | .ok f, h => exact .inl ⟨f, rfl, by simpa using h.symm⟩
  | .error (.exc c i0 i1 i2), h => exact .inr (.inl ⟨c, i0, i1, i2, rfl, by simpa using h.symm⟩)
  | .error (.park w reads), h => exact .inr (.inr (.inl ⟨w, reads, rfl, by simpa using h.symm⟩))
  | .error (.miss va acc), h => exact .inr (.inr (.inr ⟨va, acc, rfl, by simpa using h.symm⟩))

/-- No result stops the machine. -/
theorem State.finish_next (s : State) (r : Try Slot) : ∃ t, s.finish r = .next t := by
  match r with
  | .ok f => exact ⟨_, rfl⟩
  | .error (.exc _ _ _ _) => exact ⟨_, rfl⟩
  | .error (.park _ _) => exact ⟨_, rfl⟩
  | .error (.miss _ _) => exact ⟨_, rfl⟩

/-! ### Exclusive commit (R200) -/

@[simp] theorem State.exclHolder_none (s : State) (h : s.excl = none) : s.exclHolder = none := by simp [State.exclHolder, h]

/-- Nothing waits while no chunk holds exclusive commit. -/
@[simp] theorem State.exclMeets_none (s : State) (own : Option (Nat × Nat)) (l : List Loc) (h : s.excl = none) :
    s.exclMeets own l = false := by simp [State.exclMeets, h]

@[simp] theorem State.exclBlocks_none (s : State) (own : Option (Nat × Nat)) (l : List Nat) (h : s.excl = none) :
    s.exclBlocks own l = false := by simp [State.exclBlocks, h]

end Sys2Proof.Machine
end

