-- ==== Sys2Proof/Laws/PerInstr.lean ====
section
/-! SUPPORT. The per-instruction family EncodesBack: the word of a well-formed instruction decodes to it (R39 to R57). An
event has no word, and the statement says nothing of it. -/

set_option Elab.async false
set_option linter.unusedSimpArgs false

/-- The word of a well-formed instruction decodes to the instruction, with every operand at every value it admits. -/
def Sys2Proof.Laws.EncodesBack.Statement (i : Sys2Proof.Instr) : Prop :=
  i.wf = true → ∀ w, Sys2Proof.encode? i = some w → Sys2Proof.decode w = .ok i

namespace Sys2Proof.Laws.EncodesBack

open Sys2Proof

theorem add (s : Bool) (d a b : BitVec 5) : Statement (.add s d a b) := by
  intro hw w h
  obtain rfl := Option.some.inj h
  refine (decode_packW _ _ _ _ _).trans ((decodeParts_Opr _ _ _ _).trans ?_)
  simp_all [decodeOpr, Instr.wf, rmAssigned, precAssigned, scopeAssigned, BitVec.le_def]

theorem sub (s : Bool) (d a b : BitVec 5) : Statement (.sub s d a b) := by
  intro hw w h
  obtain rfl := Option.some.inj h
  refine (decode_packW _ _ _ _ _).trans ((decodeParts_Opr _ _ _ _).trans ?_)
  simp_all [decodeOpr, Instr.wf, rmAssigned, precAssigned, scopeAssigned, BitVec.le_def]

theorem and (s : Bool) (d a b : BitVec 5) : Statement (.and s d a b) := by
  intro hw w h
  obtain rfl := Option.some.inj h
  refine (decode_packW _ _ _ _ _).trans ((decodeParts_Opr _ _ _ _).trans ?_)
  simp_all [decodeOpr, Instr.wf, rmAssigned, precAssigned, scopeAssigned, BitVec.le_def]

theorem or (s : Bool) (d a b : BitVec 5) : Statement (.or s d a b) := by
  intro hw w h
  obtain rfl := Option.some.inj h
  refine (decode_packW _ _ _ _ _).trans ((decodeParts_Opr _ _ _ _).trans ?_)
  simp_all [decodeOpr, Instr.wf, rmAssigned, precAssigned, scopeAssigned, BitVec.le_def]

theorem xor (s : Bool) (d a b : BitVec 5) : Statement (.xor s d a b) := by
  intro hw w h
  obtain rfl := Option.some.inj h
  refine (decode_packW _ _ _ _ _).trans ((decodeParts_Opr _ _ _ _).trans ?_)
  simp_all [decodeOpr, Instr.wf, rmAssigned, precAssigned, scopeAssigned, BitVec.le_def]

theorem andn (s : Bool) (d a b : BitVec 5) : Statement (.andn s d a b) := by
  intro hw w h
  obtain rfl := Option.some.inj h
  refine (decode_packW _ _ _ _ _).trans ((decodeParts_Opr _ _ _ _).trans ?_)
  simp_all [decodeOpr, Instr.wf, rmAssigned, precAssigned, scopeAssigned, BitVec.le_def]

theorem sll (s : Bool) (d a b : BitVec 5) : Statement (.sll s d a b) := by
  intro hw w h
  obtain rfl := Option.some.inj h
  refine (decode_packW _ _ _ _ _).trans ((decodeParts_Opr _ _ _ _).trans ?_)
  simp_all [decodeOpr, Instr.wf, rmAssigned, precAssigned, scopeAssigned, BitVec.le_def]

theorem srl (s : Bool) (d a b : BitVec 5) : Statement (.srl s d a b) := by
  intro hw w h
  obtain rfl := Option.some.inj h
  refine (decode_packW _ _ _ _ _).trans ((decodeParts_Opr _ _ _ _).trans ?_)
  simp_all [decodeOpr, Instr.wf, rmAssigned, precAssigned, scopeAssigned, BitVec.le_def]

theorem sra (s : Bool) (d a b : BitVec 5) : Statement (.sra s d a b) := by
  intro hw w h
  obtain rfl := Option.some.inj h
  refine (decode_packW _ _ _ _ _).trans ((decodeParts_Opr _ _ _ _).trans ?_)
  simp_all [decodeOpr, Instr.wf, rmAssigned, precAssigned, scopeAssigned, BitVec.le_def]

theorem slt (s : Bool) (d a b : BitVec 5) : Statement (.slt s d a b) := by
  intro hw w h
  obtain rfl := Option.some.inj h
  refine (decode_packW _ _ _ _ _).trans ((decodeParts_Opr _ _ _ _).trans ?_)
  simp_all [decodeOpr, Instr.wf, rmAssigned, precAssigned, scopeAssigned, BitVec.le_def]

theorem sltu (s : Bool) (d a b : BitVec 5) : Statement (.sltu s d a b) := by
  intro hw w h
  obtain rfl := Option.some.inj h
  refine (decode_packW _ _ _ _ _).trans ((decodeParts_Opr _ _ _ _).trans ?_)
  simp_all [decodeOpr, Instr.wf, rmAssigned, precAssigned, scopeAssigned, BitVec.le_def]

theorem min (s : Bool) (d a b : BitVec 5) : Statement (.min s d a b) := by
  intro hw w h
  obtain rfl := Option.some.inj h
  refine (decode_packW _ _ _ _ _).trans ((decodeParts_Opr _ _ _ _).trans ?_)
  simp_all [decodeOpr, Instr.wf, rmAssigned, precAssigned, scopeAssigned, BitVec.le_def]

theorem max (s : Bool) (d a b : BitVec 5) : Statement (.max s d a b) := by
  intro hw w h
  obtain rfl := Option.some.inj h
  refine (decode_packW _ _ _ _ _).trans ((decodeParts_Opr _ _ _ _).trans ?_)
  simp_all [decodeOpr, Instr.wf, rmAssigned, precAssigned, scopeAssigned, BitVec.le_def]

theorem minu (s : Bool) (d a b : BitVec 5) : Statement (.minu s d a b) := by
  intro hw w h
  obtain rfl := Option.some.inj h
  refine (decode_packW _ _ _ _ _).trans ((decodeParts_Opr _ _ _ _).trans ?_)
  simp_all [decodeOpr, Instr.wf, rmAssigned, precAssigned, scopeAssigned, BitVec.le_def]

theorem maxu (s : Bool) (d a b : BitVec 5) : Statement (.maxu s d a b) := by
  intro hw w h
  obtain rfl := Option.some.inj h
  refine (decode_packW _ _ _ _ _).trans ((decodeParts_Opr _ _ _ _).trans ?_)
  simp_all [decodeOpr, Instr.wf, rmAssigned, precAssigned, scopeAssigned, BitVec.le_def]

theorem cmovz (s : Bool) (d a b : BitVec 5) : Statement (.cmovz s d a b) := by
  intro hw w h
  obtain rfl := Option.some.inj h
  refine (decode_packW _ _ _ _ _).trans ((decodeParts_Opr _ _ _ _).trans ?_)
  simp_all [decodeOpr, Instr.wf, rmAssigned, precAssigned, scopeAssigned, BitVec.le_def]

theorem cmovn (s : Bool) (d a b : BitVec 5) : Statement (.cmovn s d a b) := by
  intro hw w h
  obtain rfl := Option.some.inj h
  refine (decode_packW _ _ _ _ _).trans ((decodeParts_Opr _ _ _ _).trans ?_)
  simp_all [decodeOpr, Instr.wf, rmAssigned, precAssigned, scopeAssigned, BitVec.le_def]

theorem clz (s : Bool) (d a : BitVec 5) : Statement (.clz s d a) := by
  intro hw w h
  obtain rfl := Option.some.inj h
  refine (decode_packW _ _ _ _ _).trans ((decodeParts_Opr _ _ _ _).trans ?_)
  simp_all [decodeOpr, Instr.wf, rmAssigned, precAssigned, scopeAssigned, BitVec.le_def]

theorem ctz (s : Bool) (d a : BitVec 5) : Statement (.ctz s d a) := by
  intro hw w h
  obtain rfl := Option.some.inj h
  refine (decode_packW _ _ _ _ _).trans ((decodeParts_Opr _ _ _ _).trans ?_)
  simp_all [decodeOpr, Instr.wf, rmAssigned, precAssigned, scopeAssigned, BitVec.le_def]

theorem popc (s : Bool) (d a : BitVec 5) : Statement (.popc s d a) := by
  intro hw w h
  obtain rfl := Option.some.inj h
  refine (decode_packW _ _ _ _ _).trans ((decodeParts_Opr _ _ _ _).trans ?_)
  simp_all [decodeOpr, Instr.wf, rmAssigned, precAssigned, scopeAssigned, BitVec.le_def]

theorem brev (s : Bool) (d a : BitVec 5) : Statement (.brev s d a) := by
  intro hw w h
  obtain rfl := Option.some.inj h
  refine (decode_packW _ _ _ _ _).trans ((decodeParts_Opr _ _ _ _).trans ?_)
  simp_all [decodeOpr, Instr.wf, rmAssigned, precAssigned, scopeAssigned, BitVec.le_def]

theorem bswap (s : Bool) (d a : BitVec 5) : Statement (.bswap s d a) := by
  intro hw w h
  obtain rfl := Option.some.inj h
  refine (decode_packW _ _ _ _ _).trans ((decodeParts_Opr _ _ _ _).trans ?_)
  simp_all [decodeOpr, Instr.wf, rmAssigned, precAssigned, scopeAssigned, BitVec.le_def]

theorem ext (s : Bool) (d a b : BitVec 5) : Statement (.ext s d a b) := by
  intro hw w h
  obtain rfl := Option.some.inj h
  refine (decode_packW _ _ _ _ _).trans ((decodeParts_Opr _ _ _ _).trans ?_)
  simp_all [decodeOpr, Instr.wf, rmAssigned, precAssigned, scopeAssigned, BitVec.le_def]

theorem ins (s : Bool) (d a b : BitVec 5) : Statement (.ins s d a b) := by
  intro hw w h
  obtain rfl := Option.some.inj h
  refine (decode_packW _ _ _ _ _).trans ((decodeParts_Opr _ _ _ _).trans ?_)
  simp_all [decodeOpr, Instr.wf, rmAssigned, precAssigned, scopeAssigned, BitVec.le_def]

theorem addw (s : Bool) (d a b : BitVec 5) : Statement (.addw s d a b) := by
  intro hw w h
  obtain rfl := Option.some.inj h
  refine (decode_packW _ _ _ _ _).trans ((decodeParts_Opr _ _ _ _).trans ?_)
  simp_all [decodeOpr, Instr.wf, rmAssigned, precAssigned, scopeAssigned, BitVec.le_def]

theorem subw (s : Bool) (d a b : BitVec 5) : Statement (.subw s d a b) := by
  intro hw w h
  obtain rfl := Option.some.inj h
  refine (decode_packW _ _ _ _ _).trans ((decodeParts_Opr _ _ _ _).trans ?_)
  simp_all [decodeOpr, Instr.wf, rmAssigned, precAssigned, scopeAssigned, BitVec.le_def]

theorem sllw (s : Bool) (d a b : BitVec 5) : Statement (.sllw s d a b) := by
  intro hw w h
  obtain rfl := Option.some.inj h
  refine (decode_packW _ _ _ _ _).trans ((decodeParts_Opr _ _ _ _).trans ?_)
  simp_all [decodeOpr, Instr.wf, rmAssigned, precAssigned, scopeAssigned, BitVec.le_def]

theorem srlw (s : Bool) (d a b : BitVec 5) : Statement (.srlw s d a b) := by
  intro hw w h
  obtain rfl := Option.some.inj h
  refine (decode_packW _ _ _ _ _).trans ((decodeParts_Opr _ _ _ _).trans ?_)
  simp_all [decodeOpr, Instr.wf, rmAssigned, precAssigned, scopeAssigned, BitVec.le_def]

theorem sraw (s : Bool) (d a b : BitVec 5) : Statement (.sraw s d a b) := by
  intro hw w h
  obtain rfl := Option.some.inj h
  refine (decode_packW _ _ _ _ _).trans ((decodeParts_Opr _ _ _ _).trans ?_)
  simp_all [decodeOpr, Instr.wf, rmAssigned, precAssigned, scopeAssigned, BitVec.le_def]

theorem addi (s : Bool) (d a : BitVec 5) (i : BitVec 15) : Statement (.addi s d a i) := by
  intro hw w h
  obtain rfl := Option.some.inj h
  refine (decode_packW _ _ _ _ _).trans ((decodeParts_Addi _ _ _ _).trans ?_)
  simp_all [decodeAddi, Instr.wf, rmAssigned, precAssigned, scopeAssigned, BitVec.le_def]

theorem andi (s : Bool) (d a : BitVec 5) (i : BitVec 15) : Statement (.andi s d a i) := by
  intro hw w h
  obtain rfl := Option.some.inj h
  refine (decode_packW _ _ _ _ _).trans ((decodeParts_Andi _ _ _ _).trans ?_)
  simp_all [decodeAndi, Instr.wf, rmAssigned, precAssigned, scopeAssigned, BitVec.le_def]

theorem ori (s : Bool) (d a : BitVec 5) (i : BitVec 15) : Statement (.ori s d a i) := by
  intro hw w h
  obtain rfl := Option.some.inj h
  refine (decode_packW _ _ _ _ _).trans ((decodeParts_Ori _ _ _ _).trans ?_)
  simp_all [decodeOri, Instr.wf, rmAssigned, precAssigned, scopeAssigned, BitVec.le_def]

theorem xori (s : Bool) (d a : BitVec 5) (i : BitVec 15) : Statement (.xori s d a i) := by
  intro hw w h
  obtain rfl := Option.some.inj h
  refine (decode_packW _ _ _ _ _).trans ((decodeParts_Xori _ _ _ _).trans ?_)
  simp_all [decodeXori, Instr.wf, rmAssigned, precAssigned, scopeAssigned, BitVec.le_def]

theorem slti (s : Bool) (d a : BitVec 5) (i : BitVec 15) : Statement (.slti s d a i) := by
  intro hw w h
  obtain rfl := Option.some.inj h
  refine (decode_packW _ _ _ _ _).trans ((decodeParts_Slti _ _ _ _).trans ?_)
  simp_all [decodeSlti, Instr.wf, rmAssigned, precAssigned, scopeAssigned, BitVec.le_def]

theorem sltiu (s : Bool) (d a : BitVec 5) (i : BitVec 15) : Statement (.sltiu s d a i) := by
  intro hw w h
  obtain rfl := Option.some.inj h
  refine (decode_packW _ _ _ _ _).trans ((decodeParts_Sltiu _ _ _ _).trans ?_)
  simp_all [decodeSltiu, Instr.wf, rmAssigned, precAssigned, scopeAssigned, BitVec.le_def]

theorem slli (s : Bool) (d a : BitVec 5) (h : BitVec 6) : Statement (.slli s d a h) := by
  intro hw w h
  obtain rfl := Option.some.inj h
  refine (decode_packW _ _ _ _ _).trans ((decodeParts_Shi _ _ _ _).trans ?_)
  simp_all [decodeShi, Instr.wf, rmAssigned, precAssigned, scopeAssigned, BitVec.le_def]

theorem srli (s : Bool) (d a : BitVec 5) (h : BitVec 6) : Statement (.srli s d a h) := by
  intro hw w h
  obtain rfl := Option.some.inj h
  refine (decode_packW _ _ _ _ _).trans ((decodeParts_Shi _ _ _ _).trans ?_)
  simp_all [decodeShi, Instr.wf, rmAssigned, precAssigned, scopeAssigned, BitVec.le_def]

theorem srai (s : Bool) (d a : BitVec 5) (h : BitVec 6) : Statement (.srai s d a h) := by
  intro hw w h
  obtain rfl := Option.some.inj h
  refine (decode_packW _ _ _ _ _).trans ((decodeParts_Shi _ _ _ _).trans ?_)
  simp_all [decodeShi, Instr.wf, rmAssigned, precAssigned, scopeAssigned, BitVec.le_def]

theorem slliw (s : Bool) (d a h : BitVec 5) : Statement (.slliw s d a h) := by
  intro hw w h
  obtain rfl := Option.some.inj h
  refine (decode_packW _ _ _ _ _).trans ((decodeParts_Shi _ _ _ _).trans ?_)
  simp_all [decodeShi, Instr.wf, rmAssigned, precAssigned, scopeAssigned, BitVec.le_def]

theorem srliw (s : Bool) (d a h : BitVec 5) : Statement (.srliw s d a h) := by
  intro hw w h
  obtain rfl := Option.some.inj h
  refine (decode_packW _ _ _ _ _).trans ((decodeParts_Shi _ _ _ _).trans ?_)
  simp_all [decodeShi, Instr.wf, rmAssigned, precAssigned, scopeAssigned, BitVec.le_def]

theorem sraiw (s : Bool) (d a h : BitVec 5) : Statement (.sraiw s d a h) := by
  intro hw w h
  obtain rfl := Option.some.inj h
  refine (decode_packW _ _ _ _ _).trans ((decodeParts_Shi _ _ _ _).trans ?_)
  simp_all [decodeShi, Instr.wf, rmAssigned, precAssigned, scopeAssigned, BitVec.le_def]

theorem lui (s : Bool) (d : BitVec 5) (i : BitVec 20) : Statement (.lui s d i) := by
  intro hw w h
  obtain rfl := Option.some.inj h
  refine (decode_packW _ _ _ _ _).trans ((decodeParts_Lui _ _ _ _).trans ?_)
  simp_all [decodeLui, Instr.wf, rmAssigned, precAssigned, scopeAssigned, BitVec.le_def]

theorem addpc (s : Bool) (d : BitVec 5) (i : BitVec 20) : Statement (.addpc s d i) := by
  intro hw w h
  obtain rfl := Option.some.inj h
  refine (decode_packW _ _ _ _ _).trans ((decodeParts_Addpc _ _ _ _).trans ?_)
  simp_all [decodeAddpc, Instr.wf, rmAssigned, precAssigned, scopeAssigned, BitVec.le_def]

theorem mul (s : Bool) (d a b : BitVec 5) : Statement (.mul s d a b) := by
  intro hw w h
  obtain rfl := Option.some.inj h
  refine (decode_packW _ _ _ _ _).trans ((decodeParts_Muldiv _ _ _ _).trans ?_)
  simp_all [decodeMuldiv, Instr.wf, rmAssigned, precAssigned, scopeAssigned, BitVec.le_def]

theorem mulh (s : Bool) (d a b : BitVec 5) : Statement (.mulh s d a b) := by
  intro hw w h
  obtain rfl := Option.some.inj h
  refine (decode_packW _ _ _ _ _).trans ((decodeParts_Muldiv _ _ _ _).trans ?_)
  simp_all [decodeMuldiv, Instr.wf, rmAssigned, precAssigned, scopeAssigned, BitVec.le_def]

theorem mulhu (s : Bool) (d a b : BitVec 5) : Statement (.mulhu s d a b) := by
  intro hw w h
  obtain rfl := Option.some.inj h
  refine (decode_packW _ _ _ _ _).trans ((decodeParts_Muldiv _ _ _ _).trans ?_)
  simp_all [decodeMuldiv, Instr.wf, rmAssigned, precAssigned, scopeAssigned, BitVec.le_def]

theorem div (s : Bool) (d a b : BitVec 5) : Statement (.div s d a b) := by
  intro hw w h
  obtain rfl := Option.some.inj h
  refine (decode_packW _ _ _ _ _).trans ((decodeParts_Muldiv _ _ _ _).trans ?_)
  simp_all [decodeMuldiv, Instr.wf, rmAssigned, precAssigned, scopeAssigned, BitVec.le_def]

theorem divu (s : Bool) (d a b : BitVec 5) : Statement (.divu s d a b) := by
  intro hw w h
  obtain rfl := Option.some.inj h
  refine (decode_packW _ _ _ _ _).trans ((decodeParts_Muldiv _ _ _ _).trans ?_)
  simp_all [decodeMuldiv, Instr.wf, rmAssigned, precAssigned, scopeAssigned, BitVec.le_def]

theorem rem (s : Bool) (d a b : BitVec 5) : Statement (.rem s d a b) := by
  intro hw w h
  obtain rfl := Option.some.inj h
  refine (decode_packW _ _ _ _ _).trans ((decodeParts_Muldiv _ _ _ _).trans ?_)
  simp_all [decodeMuldiv, Instr.wf, rmAssigned, precAssigned, scopeAssigned, BitVec.le_def]

theorem remu (s : Bool) (d a b : BitVec 5) : Statement (.remu s d a b) := by
  intro hw w h
  obtain rfl := Option.some.inj h
  refine (decode_packW _ _ _ _ _).trans ((decodeParts_Muldiv _ _ _ _).trans ?_)
  simp_all [decodeMuldiv, Instr.wf, rmAssigned, precAssigned, scopeAssigned, BitVec.le_def]

theorem mulw (s : Bool) (d a b : BitVec 5) : Statement (.mulw s d a b) := by
  intro hw w h
  obtain rfl := Option.some.inj h
  refine (decode_packW _ _ _ _ _).trans ((decodeParts_Muldiv _ _ _ _).trans ?_)
  simp_all [decodeMuldiv, Instr.wf, rmAssigned, precAssigned, scopeAssigned, BitVec.le_def]

theorem divw (s : Bool) (d a b : BitVec 5) : Statement (.divw s d a b) := by
  intro hw w h
  obtain rfl := Option.some.inj h
  refine (decode_packW _ _ _ _ _).trans ((decodeParts_Muldiv _ _ _ _).trans ?_)
  simp_all [decodeMuldiv, Instr.wf, rmAssigned, precAssigned, scopeAssigned, BitVec.le_def]

theorem divuw (s : Bool) (d a b : BitVec 5) : Statement (.divuw s d a b) := by
  intro hw w h
  obtain rfl := Option.some.inj h
  refine (decode_packW _ _ _ _ _).trans ((decodeParts_Muldiv _ _ _ _).trans ?_)
  simp_all [decodeMuldiv, Instr.wf, rmAssigned, precAssigned, scopeAssigned, BitVec.le_def]

theorem remw (s : Bool) (d a b : BitVec 5) : Statement (.remw s d a b) := by
  intro hw w h
  obtain rfl := Option.some.inj h
  refine (decode_packW _ _ _ _ _).trans ((decodeParts_Muldiv _ _ _ _).trans ?_)
  simp_all [decodeMuldiv, Instr.wf, rmAssigned, precAssigned, scopeAssigned, BitVec.le_def]

theorem remuw (s : Bool) (d a b : BitVec 5) : Statement (.remuw s d a b) := by
  intro hw w h
  obtain rfl := Option.some.inj h
  refine (decode_packW _ _ _ _ _).trans ((decodeParts_Muldiv _ _ _ _).trans ?_)
  simp_all [decodeMuldiv, Instr.wf, rmAssigned, precAssigned, scopeAssigned, BitVec.le_def]

theorem beq (s : Bool) (a b : BitVec 5) (i : BitVec 15) : Statement (.beq s a b i) := by
  intro hw w h
  obtain rfl := Option.some.inj h
  refine (decode_packW _ _ _ _ _).trans ((decodeParts_Beq _ _ _ _).trans ?_)
  simp_all [decodeBeq, Instr.wf, rmAssigned, precAssigned, scopeAssigned, BitVec.le_def]

theorem bne (s : Bool) (a b : BitVec 5) (i : BitVec 15) : Statement (.bne s a b i) := by
  intro hw w h
  obtain rfl := Option.some.inj h
  refine (decode_packW _ _ _ _ _).trans ((decodeParts_Bne _ _ _ _).trans ?_)
  simp_all [decodeBne, Instr.wf, rmAssigned, precAssigned, scopeAssigned, BitVec.le_def]

theorem blt (s : Bool) (a b : BitVec 5) (i : BitVec 15) : Statement (.blt s a b i) := by
  intro hw w h
  obtain rfl := Option.some.inj h
  refine (decode_packW _ _ _ _ _).trans ((decodeParts_Blt _ _ _ _).trans ?_)
  simp_all [decodeBlt, Instr.wf, rmAssigned, precAssigned, scopeAssigned, BitVec.le_def]

theorem bge (s : Bool) (a b : BitVec 5) (i : BitVec 15) : Statement (.bge s a b i) := by
  intro hw w h
  obtain rfl := Option.some.inj h
  refine (decode_packW _ _ _ _ _).trans ((decodeParts_Bge _ _ _ _).trans ?_)
  simp_all [decodeBge, Instr.wf, rmAssigned, precAssigned, scopeAssigned, BitVec.le_def]

theorem bltu (s : Bool) (a b : BitVec 5) (i : BitVec 15) : Statement (.bltu s a b i) := by
  intro hw w h
  obtain rfl := Option.some.inj h
  refine (decode_packW _ _ _ _ _).trans ((decodeParts_Bltu _ _ _ _).trans ?_)
  simp_all [decodeBltu, Instr.wf, rmAssigned, precAssigned, scopeAssigned, BitVec.le_def]

theorem bgeu (s : Bool) (a b : BitVec 5) (i : BitVec 15) : Statement (.bgeu s a b i) := by
  intro hw w h
  obtain rfl := Option.some.inj h
  refine (decode_packW _ _ _ _ _).trans ((decodeParts_Bgeu _ _ _ _).trans ?_)
  simp_all [decodeBgeu, Instr.wf, rmAssigned, precAssigned, scopeAssigned, BitVec.le_def]

theorem jal (s : Bool) (i : BitVec 25) : Statement (.jal s i) := by
  intro hw w h
  obtain rfl := Option.some.inj h
  refine (decode_packW _ _ _ _ _).trans ((decodeParts_Jal _ _ _ _).trans ?_)
  simp_all [decodeJal, Instr.wf, rmAssigned, precAssigned, scopeAssigned, BitVec.le_def]

theorem j (s : Bool) (i : BitVec 25) : Statement (.j s i) := by
  intro hw w h
  obtain rfl := Option.some.inj h
  refine (decode_packW _ _ _ _ _).trans ((decodeParts_J _ _ _ _).trans ?_)
  simp_all [decodeJ, Instr.wf, rmAssigned, precAssigned, scopeAssigned, BitVec.le_def]

theorem jalr (s : Bool) (d a : BitVec 5) (i : BitVec 15) : Statement (.jalr s d a i) := by
  intro hw w h
  obtain rfl := Option.some.inj h
  refine (decode_packW _ _ _ _ _).trans ((decodeParts_Jalr _ _ _ _).trans ?_)
  simp_all [decodeJalr, Instr.wf, rmAssigned, precAssigned, scopeAssigned, BitVec.le_def]

theorem nop (s : Bool) : Statement (.nop s) := by
  intro hw w h
  obtain rfl := Option.some.inj h
  refine (decode_packW _ _ _ _ _).trans ((decodeParts_Sys _ _ _ _).trans ?_)
  simp_all [decodeSys, Instr.wf, rmAssigned, precAssigned, scopeAssigned, BitVec.le_def]

theorem fin (s : Bool) : Statement (.fin s) := by
  intro hw w h
  obtain rfl := Option.some.inj h
  refine (decode_packW _ _ _ _ _).trans ((decodeParts_Sys _ _ _ _).trans ?_)
  simp_all [decodeSys, Instr.wf, rmAssigned, precAssigned, scopeAssigned, BitVec.le_def]

theorem trap (s : Bool) (a b : BitVec 5) : Statement (.trap s a b) := by
  intro hw w h
  obtain rfl := Option.some.inj h
  refine (decode_packW _ _ _ _ _).trans ((decodeParts_Sys _ _ _ _).trans ?_)
  simp_all [decodeSys, Instr.wf, rmAssigned, precAssigned, scopeAssigned, BitVec.le_def]

theorem brk (s : Bool) : Statement (.brk s) := by
  intro hw w h
  obtain rfl := Option.some.inj h
  refine (decode_packW _ _ _ _ _).trans ((decodeParts_Sys _ _ _ _).trans ?_)
  simp_all [decodeSys, Instr.wf, rmAssigned, precAssigned, scopeAssigned, BitVec.le_def]

theorem fmtSet (s : Bool) (d a b : BitVec 5) : Statement (.fmtSet s d a b) := by
  intro hw w h
  obtain rfl := Option.some.inj h
  refine (decode_packW _ _ _ _ _).trans ((decodeParts_Sys _ _ _ _).trans ?_)
  simp_all [decodeSys, Instr.wf, rmAssigned, precAssigned, scopeAssigned, BitVec.le_def]

theorem fmtRd (s : Bool) (d a : BitVec 5) : Statement (.fmtRd s d a) := by
  intro hw w h
  obtain rfl := Option.some.inj h
  refine (decode_packW _ _ _ _ _).trans ((decodeParts_Sys _ _ _ _).trans ?_)
  simp_all [decodeSys, Instr.wf, rmAssigned, precAssigned, scopeAssigned, BitVec.le_def]

theorem wgRd (s : Bool) (d a b : BitVec 5) : Statement (.wgRd s d a b) := by
  intro hw w h
  obtain rfl := Option.some.inj h
  refine (decode_packW _ _ _ _ _).trans ((decodeParts_Sys _ _ _ _).trans ?_)
  simp_all [decodeSys, Instr.wf, rmAssigned, precAssigned, scopeAssigned, BitVec.le_def]

theorem wgClr (s : Bool) (a b : BitVec 5) : Statement (.wgClr s a b) := by
  intro hw w h
  obtain rfl := Option.some.inj h
  refine (decode_packW _ _ _ _ _).trans ((decodeParts_Sys _ _ _ _).trans ?_)
  simp_all [decodeSys, Instr.wf, rmAssigned, precAssigned, scopeAssigned, BitVec.le_def]

theorem wgSync (s : Bool) (a : BitVec 5) : Statement (.wgSync s a) := by
  intro hw w h
  obtain rfl := Option.some.inj h
  refine (decode_packW _ _ _ _ _).trans ((decodeParts_Sys _ _ _ _).trans ?_)
  simp_all [decodeSys, Instr.wf, rmAssigned, precAssigned, scopeAssigned, BitVec.le_def]

theorem tbRd (s : Bool) (d : BitVec 5) : Statement (.tbRd s d) := by
  intro hw w h
  obtain rfl := Option.some.inj h
  refine (decode_packW _ _ _ _ _).trans ((decodeParts_Sys _ _ _ _).trans ?_)
  simp_all [decodeSys, Instr.wf, rmAssigned, precAssigned, scopeAssigned, BitVec.le_def]

theorem tlbWr (s : Bool) (a b : BitVec 5) : Statement (.tlbWr s a b) := by
  intro hw w h
  obtain rfl := Option.some.inj h
  refine (decode_packW _ _ _ _ _).trans ((decodeParts_Sys _ _ _ _).trans ?_)
  simp_all [decodeSys, Instr.wf, rmAssigned, precAssigned, scopeAssigned, BitVec.le_def]

theorem tlbInv (s : Bool) (a b : BitVec 5) : Statement (.tlbInv s a b) := by
  intro hw w h
  obtain rfl := Option.some.inj h
  refine (decode_packW _ _ _ _ _).trans ((decodeParts_Sys _ _ _ _).trans ?_)
  simp_all [decodeSys, Instr.wf, rmAssigned, precAssigned, scopeAssigned, BitVec.le_def]

theorem tlbRd (s : Bool) (d a b : BitVec 5) : Statement (.tlbRd s d a b) := by
  intro hw w h
  obtain rfl := Option.some.inj h
  refine (decode_packW _ _ _ _ _).trans ((decodeParts_Sys _ _ _ _).trans ?_)
  simp_all [decodeSys, Instr.wf, rmAssigned, precAssigned, scopeAssigned, BitVec.le_def]

theorem fltRply (s : Bool) (a b : BitVec 5) : Statement (.fltRply s a b) := by
  intro hw w h
  obtain rfl := Option.some.inj h
  refine (decode_packW _ _ _ _ _).trans ((decodeParts_Sys _ _ _ _).trans ?_)
  simp_all [decodeSys, Instr.wf, rmAssigned, precAssigned, scopeAssigned, BitVec.le_def]

theorem rectSet (s : Bool) (a b : BitVec 5) : Statement (.rectSet s a b) := by
  intro hw w h
  obtain rfl := Option.some.inj h
  refine (decode_packW _ _ _ _ _).trans ((decodeParts_Sys _ _ _ _).trans ?_)
  simp_all [decodeSys, Instr.wf, rmAssigned, precAssigned, scopeAssigned, BitVec.le_def]

theorem migGo (s : Bool) (a b : BitVec 5) : Statement (.migGo s a b) := by
  intro hw w h
  obtain rfl := Option.some.inj h
  refine (decode_packW _ _ _ _ _).trans ((decodeParts_Sys _ _ _ _).trans ?_)
  simp_all [decodeSys, Instr.wf, rmAssigned, precAssigned, scopeAssigned, BitVec.le_def]

theorem ctxStop (s : Bool) (a : BitVec 5) : Statement (.ctxStop s a) := by
  intro hw w h
  obtain rfl := Option.some.inj h
  refine (decode_packW _ _ _ _ _).trans ((decodeParts_Sys _ _ _ _).trans ?_)
  simp_all [decodeSys, Instr.wf, rmAssigned, precAssigned, scopeAssigned, BitVec.le_def]

theorem ctxGo (s : Bool) (a b : BitVec 5) : Statement (.ctxGo s a b) := by
  intro hw w h
  obtain rfl := Option.some.inj h
  refine (decode_packW _ _ _ _ _).trans ((decodeParts_Sys _ _ _ _).trans ?_)
  simp_all [decodeSys, Instr.wf, rmAssigned, precAssigned, scopeAssigned, BitVec.le_def]

theorem ldB (s : Bool) (d a : BitVec 5) (o : BitVec 12) : Statement (.ldB s d a o) := by
  intro hw w h
  obtain rfl := Option.some.inj h
  refine (decode_packW _ _ _ _ _).trans ((decodeParts_Ld _ _ _ _).trans ?_)
  simp_all [decodeLd, Instr.wf, rmAssigned, precAssigned, scopeAssigned, BitVec.le_def]

theorem ldBu (s : Bool) (d a : BitVec 5) (o : BitVec 12) : Statement (.ldBu s d a o) := by
  intro hw w h
  obtain rfl := Option.some.inj h
  refine (decode_packW _ _ _ _ _).trans ((decodeParts_Ld _ _ _ _).trans ?_)
  simp_all [decodeLd, Instr.wf, rmAssigned, precAssigned, scopeAssigned, BitVec.le_def]

theorem ldH (s : Bool) (d a : BitVec 5) (o : BitVec 12) : Statement (.ldH s d a o) := by
  intro hw w h
  obtain rfl := Option.some.inj h
  refine (decode_packW _ _ _ _ _).trans ((decodeParts_Ld _ _ _ _).trans ?_)
  simp_all [decodeLd, Instr.wf, rmAssigned, precAssigned, scopeAssigned, BitVec.le_def]

theorem ldHu (s : Bool) (d a : BitVec 5) (o : BitVec 12) : Statement (.ldHu s d a o) := by
  intro hw w h
  obtain rfl := Option.some.inj h
  refine (decode_packW _ _ _ _ _).trans ((decodeParts_Ld _ _ _ _).trans ?_)
  simp_all [decodeLd, Instr.wf, rmAssigned, precAssigned, scopeAssigned, BitVec.le_def]

theorem ldW (s : Bool) (d a : BitVec 5) (o : BitVec 12) : Statement (.ldW s d a o) := by
  intro hw w h
  obtain rfl := Option.some.inj h
  refine (decode_packW _ _ _ _ _).trans ((decodeParts_Ld _ _ _ _).trans ?_)
  simp_all [decodeLd, Instr.wf, rmAssigned, precAssigned, scopeAssigned, BitVec.le_def]

theorem ldWu (s : Bool) (d a : BitVec 5) (o : BitVec 12) : Statement (.ldWu s d a o) := by
  intro hw w h
  obtain rfl := Option.some.inj h
  refine (decode_packW _ _ _ _ _).trans ((decodeParts_Ld _ _ _ _).trans ?_)
  simp_all [decodeLd, Instr.wf, rmAssigned, precAssigned, scopeAssigned, BitVec.le_def]

theorem ldD (s : Bool) (d a : BitVec 5) (o : BitVec 12) : Statement (.ldD s d a o) := by
  intro hw w h
  obtain rfl := Option.some.inj h
  refine (decode_packW _ _ _ _ _).trans ((decodeParts_Ld _ _ _ _).trans ?_)
  simp_all [decodeLd, Instr.wf, rmAssigned, precAssigned, scopeAssigned, BitVec.le_def]

theorem stB (s : Bool) (d a : BitVec 5) (o : BitVec 12) : Statement (.stB s d a o) := by
  intro hw w h
  obtain rfl := Option.some.inj h
  refine (decode_packW _ _ _ _ _).trans ((decodeParts_St _ _ _ _).trans ?_)
  simp_all [decodeSt, Instr.wf, rmAssigned, precAssigned, scopeAssigned, BitVec.le_def]

theorem stH (s : Bool) (d a : BitVec 5) (o : BitVec 12) : Statement (.stH s d a o) := by
  intro hw w h
  obtain rfl := Option.some.inj h
  refine (decode_packW _ _ _ _ _).trans ((decodeParts_St _ _ _ _).trans ?_)
  simp_all [decodeSt, Instr.wf, rmAssigned, precAssigned, scopeAssigned, BitVec.le_def]

theorem stW (s : Bool) (d a : BitVec 5) (o : BitVec 12) : Statement (.stW s d a o) := by
  intro hw w h
  obtain rfl := Option.some.inj h
  refine (decode_packW _ _ _ _ _).trans ((decodeParts_St _ _ _ _).trans ?_)
  simp_all [decodeSt, Instr.wf, rmAssigned, precAssigned, scopeAssigned, BitVec.le_def]

theorem stD (s : Bool) (d a : BitVec 5) (o : BitVec 12) : Statement (.stD s d a o) := by
  intro hw w h
  obtain rfl := Option.some.inj h
  refine (decode_packW _ _ _ _ _).trans ((decodeParts_St _ _ _ _).trans ?_)
  simp_all [decodeSt, Instr.wf, rmAssigned, precAssigned, scopeAssigned, BitVec.le_def]

theorem vldW (s : Bool) (d a : BitVec 5) (q : BitVec 3) (o : BitVec 9) : Statement (.vldW s d a q o) := by
  intro hw w h
  obtain rfl := Option.some.inj h
  refine (decode_packW _ _ _ _ _).trans ((decodeParts_Vld _ _ _ _).trans ?_)
  simp_all [decodeVld, Instr.wf, rmAssigned, precAssigned, scopeAssigned, BitVec.le_def]

theorem vldBf (s : Bool) (d a : BitVec 5) (q : BitVec 3) (o : BitVec 9) : Statement (.vldBf s d a q o) := by
  intro hw w h
  obtain rfl := Option.some.inj h
  refine (decode_packW _ _ _ _ _).trans ((decodeParts_Vld _ _ _ _).trans ?_)
  simp_all [decodeVld, Instr.wf, rmAssigned, precAssigned, scopeAssigned, BitVec.le_def]

theorem vldH (s : Bool) (d a : BitVec 5) (q : BitVec 3) (o : BitVec 9) : Statement (.vldH s d a q o) := by
  intro hw w h
  obtain rfl := Option.some.inj h
  refine (decode_packW _ _ _ _ _).trans ((decodeParts_Vld _ _ _ _).trans ?_)
  simp_all [decodeVld, Instr.wf, rmAssigned, precAssigned, scopeAssigned, BitVec.le_def]

theorem vldB (s : Bool) (d a : BitVec 5) (q : BitVec 3) (o : BitVec 9) : Statement (.vldB s d a q o) := by
  intro hw w h
  obtain rfl := Option.some.inj h
  refine (decode_packW _ _ _ _ _).trans ((decodeParts_Vld _ _ _ _).trans ?_)
  simp_all [decodeVld, Instr.wf, rmAssigned, precAssigned, scopeAssigned, BitVec.le_def]

theorem vldSb (s : Bool) (d a : BitVec 5) (q : BitVec 3) (o : BitVec 9) : Statement (.vldSb s d a q o) := by
  intro hw w h
  obtain rfl := Option.some.inj h
  refine (decode_packW _ _ _ _ _).trans ((decodeParts_Vld _ _ _ _).trans ?_)
  simp_all [decodeVld, Instr.wf, rmAssigned, precAssigned, scopeAssigned, BitVec.le_def]

theorem vldBc (s : Bool) (d a : BitVec 5) (q : BitVec 3) (o : BitVec 9) : Statement (.vldBc s d a q o) := by
  intro hw w h
  obtain rfl := Option.some.inj h
  refine (decode_packW _ _ _ _ _).trans ((decodeParts_Vld _ _ _ _).trans ?_)
  simp_all [decodeVld, Instr.wf, rmAssigned, precAssigned, scopeAssigned, BitVec.le_def]

theorem vstW (s : Bool) (d a : BitVec 5) (q : BitVec 3) (o : BitVec 9) : Statement (.vstW s d a q o) := by
  intro hw w h
  obtain rfl := Option.some.inj h
  refine (decode_packW _ _ _ _ _).trans ((decodeParts_Vst _ _ _ _).trans ?_)
  simp_all [decodeVst, Instr.wf, rmAssigned, precAssigned, scopeAssigned, BitVec.le_def]

theorem vstBf (s : Bool) (d a : BitVec 5) (q : BitVec 3) (o : BitVec 9) : Statement (.vstBf s d a q o) := by
  intro hw w h
  obtain rfl := Option.some.inj h
  refine (decode_packW _ _ _ _ _).trans ((decodeParts_Vst _ _ _ _).trans ?_)
  simp_all [decodeVst, Instr.wf, rmAssigned, precAssigned, scopeAssigned, BitVec.le_def]

theorem vstH (s : Bool) (d a : BitVec 5) (q : BitVec 3) (o : BitVec 9) : Statement (.vstH s d a q o) := by
  intro hw w h
  obtain rfl := Option.some.inj h
  refine (decode_packW _ _ _ _ _).trans ((decodeParts_Vst _ _ _ _).trans ?_)
  simp_all [decodeVst, Instr.wf, rmAssigned, precAssigned, scopeAssigned, BitVec.le_def]

theorem vstB (s : Bool) (d a : BitVec 5) (q : BitVec 3) (o : BitVec 9) : Statement (.vstB s d a q o) := by
  intro hw w h
  obtain rfl := Option.some.inj h
  refine (decode_packW _ _ _ _ _).trans ((decodeParts_Vst _ _ _ _).trans ?_)
  simp_all [decodeVst, Instr.wf, rmAssigned, precAssigned, scopeAssigned, BitVec.le_def]

theorem vldt (s : Bool) (d : BitVec 5) (t : BitVec 6) (g : BitVec 5) (q : BitVec 3) : Statement (.vldt s d t g q) := by
  intro hw w h
  obtain rfl := Option.some.inj h
  refine (decode_packW _ _ _ _ _).trans ((decodeParts_Vtl _ _ _ _).trans ?_)
  simp_all [decodeVtl, Instr.wf, rmAssigned, precAssigned, scopeAssigned, BitVec.le_def]

theorem vstt (s : Bool) (d : BitVec 5) (t : BitVec 6) (g : BitVec 5) (q : BitVec 3) : Statement (.vstt s d t g q) := by
  intro hw w h
  obtain rfl := Option.some.inj h
  refine (decode_packW _ _ _ _ _).trans ((decodeParts_Vtl _ _ _ _).trans ?_)
  simp_all [decodeVtl, Instr.wf, rmAssigned, precAssigned, scopeAssigned, BitVec.le_def]

theorem vgath (s : Bool) (d a b : BitVec 5) (q : BitVec 3) : Statement (.vgath s d a b q) := by
  intro hw w h
  obtain rfl := Option.some.inj h
  refine (decode_packW _ _ _ _ _).trans ((decodeParts_Vgs _ _ _ _).trans ?_)
  simp_all [decodeVgs, Instr.wf, rmAssigned, precAssigned, scopeAssigned, BitVec.le_def]

theorem vscat (s : Bool) (d a b : BitVec 5) (q : BitVec 3) : Statement (.vscat s d a b q) := by
  intro hw w h
  obtain rfl := Option.some.inj h
  refine (decode_packW _ _ _ _ _).trans ((decodeParts_Vgs _ _ _ _).trans ?_)
  simp_all [decodeVgs, Instr.wf, rmAssigned, precAssigned, scopeAssigned, BitVec.le_def]

theorem vlds (s : Bool) (d a b : BitVec 5) (q : BitVec 3) : Statement (.vlds s d a b q) := by
  intro hw w h
  obtain rfl := Option.some.inj h
  refine (decode_packW _ _ _ _ _).trans ((decodeParts_Vgs _ _ _ _).trans ?_)
  simp_all [decodeVgs, Instr.wf, rmAssigned, precAssigned, scopeAssigned, BitVec.le_def]

theorem vsts (s : Bool) (d a b : BitVec 5) (q : BitVec 3) : Statement (.vsts s d a b q) := by
  intro hw w h
  obtain rfl := Option.some.inj h
  refine (decode_packW _ _ _ _ _).trans ((decodeParts_Vgs _ _ _ _).trans ?_)
  simp_all [decodeVgs, Instr.wf, rmAssigned, precAssigned, scopeAssigned, BitVec.le_def]

theorem vscatFadd (s : Bool) (d a b : BitVec 5) (q : BitVec 3) : Statement (.vscatFadd s d a b q) := by
  intro hw w h
  obtain rfl := Option.some.inj h
  refine (decode_packW _ _ _ _ _).trans ((decodeParts_Vgs _ _ _ _).trans ?_)
  simp_all [decodeVgs, Instr.wf, rmAssigned, precAssigned, scopeAssigned, BitVec.le_def]

theorem amoAdd (s : Bool) (d a b : BitVec 5) (z : BitVec 1) : Statement (.amoAdd s d a b z) := by
  intro hw w h
  obtain rfl := Option.some.inj h
  refine (decode_packW _ _ _ _ _).trans ((decodeParts_Amo _ _ _ _).trans ?_)
  simp_all [decodeAmo, Instr.wf, rmAssigned, precAssigned, scopeAssigned, BitVec.le_def]

theorem amoAnd (s : Bool) (d a b : BitVec 5) (z : BitVec 1) : Statement (.amoAnd s d a b z) := by
  intro hw w h
  obtain rfl := Option.some.inj h
  refine (decode_packW _ _ _ _ _).trans ((decodeParts_Amo _ _ _ _).trans ?_)
  simp_all [decodeAmo, Instr.wf, rmAssigned, precAssigned, scopeAssigned, BitVec.le_def]

theorem amoOr (s : Bool) (d a b : BitVec 5) (z : BitVec 1) : Statement (.amoOr s d a b z) := by
  intro hw w h
  obtain rfl := Option.some.inj h
  refine (decode_packW _ _ _ _ _).trans ((decodeParts_Amo _ _ _ _).trans ?_)
  simp_all [decodeAmo, Instr.wf, rmAssigned, precAssigned, scopeAssigned, BitVec.le_def]

theorem amoXor (s : Bool) (d a b : BitVec 5) (z : BitVec 1) : Statement (.amoXor s d a b z) := by
  intro hw w h
  obtain rfl := Option.some.inj h
  refine (decode_packW _ _ _ _ _).trans ((decodeParts_Amo _ _ _ _).trans ?_)
  simp_all [decodeAmo, Instr.wf, rmAssigned, precAssigned, scopeAssigned, BitVec.le_def]

theorem amoMax (s : Bool) (d a b : BitVec 5) (z : BitVec 1) : Statement (.amoMax s d a b z) := by
  intro hw w h
  obtain rfl := Option.some.inj h
  refine (decode_packW _ _ _ _ _).trans ((decodeParts_Amo _ _ _ _).trans ?_)
  simp_all [decodeAmo, Instr.wf, rmAssigned, precAssigned, scopeAssigned, BitVec.le_def]

theorem amoMin (s : Bool) (d a b : BitVec 5) (z : BitVec 1) : Statement (.amoMin s d a b z) := by
  intro hw w h
  obtain rfl := Option.some.inj h
  refine (decode_packW _ _ _ _ _).trans ((decodeParts_Amo _ _ _ _).trans ?_)
  simp_all [decodeAmo, Instr.wf, rmAssigned, precAssigned, scopeAssigned, BitVec.le_def]

theorem amoMaxu (s : Bool) (d a b : BitVec 5) (z : BitVec 1) : Statement (.amoMaxu s d a b z) := by
  intro hw w h
  obtain rfl := Option.some.inj h
  refine (decode_packW _ _ _ _ _).trans ((decodeParts_Amo _ _ _ _).trans ?_)
  simp_all [decodeAmo, Instr.wf, rmAssigned, precAssigned, scopeAssigned, BitVec.le_def]

theorem amoMinu (s : Bool) (d a b : BitVec 5) (z : BitVec 1) : Statement (.amoMinu s d a b z) := by
  intro hw w h
  obtain rfl := Option.some.inj h
  refine (decode_packW _ _ _ _ _).trans ((decodeParts_Amo _ _ _ _).trans ?_)
  simp_all [decodeAmo, Instr.wf, rmAssigned, precAssigned, scopeAssigned, BitVec.le_def]

theorem amoSwp (s : Bool) (d a b : BitVec 5) (z : BitVec 1) : Statement (.amoSwp s d a b z) := by
  intro hw w h
  obtain rfl := Option.some.inj h
  refine (decode_packW _ _ _ _ _).trans ((decodeParts_Amo _ _ _ _).trans ?_)
  simp_all [decodeAmo, Instr.wf, rmAssigned, precAssigned, scopeAssigned, BitVec.le_def]

theorem amoCas (s : Bool) (d a b : BitVec 5) (z : BitVec 1) : Statement (.amoCas s d a b z) := by
  intro hw w h
  obtain rfl := Option.some.inj h
  refine (decode_packW _ _ _ _ _).trans ((decodeParts_Amo _ _ _ _).trans ?_)
  simp_all [decodeAmo, Instr.wf, rmAssigned, precAssigned, scopeAssigned, BitVec.le_def]

theorem amoFadd (s : Bool) (d a b : BitVec 5) : Statement (.amoFadd s d a b) := by
  intro hw w h
  obtain rfl := Option.some.inj h
  refine (decode_packW _ _ _ _ _).trans ((decodeParts_Amo _ _ _ _).trans ?_)
  simp_all [decodeAmo, Instr.wf, rmAssigned, precAssigned, scopeAssigned, BitVec.le_def]

theorem pamoAdd (s : Bool) (a b : BitVec 5) (z : BitVec 1) : Statement (.pamoAdd s a b z) := by
  intro hw w h
  obtain rfl := Option.some.inj h
  refine (decode_packW _ _ _ _ _).trans ((decodeParts_Amo _ _ _ _).trans ?_)
  simp_all [decodeAmo, Instr.wf, rmAssigned, precAssigned, scopeAssigned, BitVec.le_def]

theorem pamoAnd (s : Bool) (a b : BitVec 5) (z : BitVec 1) : Statement (.pamoAnd s a b z) := by
  intro hw w h
  obtain rfl := Option.some.inj h
  refine (decode_packW _ _ _ _ _).trans ((decodeParts_Amo _ _ _ _).trans ?_)
  simp_all [decodeAmo, Instr.wf, rmAssigned, precAssigned, scopeAssigned, BitVec.le_def]

theorem pamoOr (s : Bool) (a b : BitVec 5) (z : BitVec 1) : Statement (.pamoOr s a b z) := by
  intro hw w h
  obtain rfl := Option.some.inj h
  refine (decode_packW _ _ _ _ _).trans ((decodeParts_Amo _ _ _ _).trans ?_)
  simp_all [decodeAmo, Instr.wf, rmAssigned, precAssigned, scopeAssigned, BitVec.le_def]

theorem pamoXor (s : Bool) (a b : BitVec 5) (z : BitVec 1) : Statement (.pamoXor s a b z) := by
  intro hw w h
  obtain rfl := Option.some.inj h
  refine (decode_packW _ _ _ _ _).trans ((decodeParts_Amo _ _ _ _).trans ?_)
  simp_all [decodeAmo, Instr.wf, rmAssigned, precAssigned, scopeAssigned, BitVec.le_def]

theorem pamoMax (s : Bool) (a b : BitVec 5) (z : BitVec 1) : Statement (.pamoMax s a b z) := by
  intro hw w h
  obtain rfl := Option.some.inj h
  refine (decode_packW _ _ _ _ _).trans ((decodeParts_Amo _ _ _ _).trans ?_)
  simp_all [decodeAmo, Instr.wf, rmAssigned, precAssigned, scopeAssigned, BitVec.le_def]

theorem pamoMin (s : Bool) (a b : BitVec 5) (z : BitVec 1) : Statement (.pamoMin s a b z) := by
  intro hw w h
  obtain rfl := Option.some.inj h
  refine (decode_packW _ _ _ _ _).trans ((decodeParts_Amo _ _ _ _).trans ?_)
  simp_all [decodeAmo, Instr.wf, rmAssigned, precAssigned, scopeAssigned, BitVec.le_def]

theorem pamoMaxu (s : Bool) (a b : BitVec 5) (z : BitVec 1) : Statement (.pamoMaxu s a b z) := by
  intro hw w h
  obtain rfl := Option.some.inj h
  refine (decode_packW _ _ _ _ _).trans ((decodeParts_Amo _ _ _ _).trans ?_)
  simp_all [decodeAmo, Instr.wf, rmAssigned, precAssigned, scopeAssigned, BitVec.le_def]

theorem pamoMinu (s : Bool) (a b : BitVec 5) (z : BitVec 1) : Statement (.pamoMinu s a b z) := by
  intro hw w h
  obtain rfl := Option.some.inj h
  refine (decode_packW _ _ _ _ _).trans ((decodeParts_Amo _ _ _ _).trans ?_)
  simp_all [decodeAmo, Instr.wf, rmAssigned, precAssigned, scopeAssigned, BitVec.le_def]

theorem pamoFadd (s : Bool) (a b : BitVec 5) : Statement (.pamoFadd s a b) := by
  intro hw w h
  obtain rfl := Option.some.inj h
  refine (decode_packW _ _ _ _ _).trans ((decodeParts_Amo _ _ _ _).trans ?_)
  simp_all [decodeAmo, Instr.wf, rmAssigned, precAssigned, scopeAssigned, BitVec.le_def]

theorem send (s : Bool) (a b : BitVec 5) : Statement (.send s a b) := by
  intro hw w h
  obtain rfl := Option.some.inj h
  refine (decode_packW _ _ _ _ _).trans ((decodeParts_Msg _ _ _ _).trans ?_)
  simp_all [decodeMsg, Instr.wf, rmAssigned, precAssigned, scopeAssigned, BitVec.le_def]

theorem sendt (s : Bool) (d a b : BitVec 5) : Statement (.sendt s d a b) := by
  intro hw w h
  obtain rfl := Option.some.inj h
  refine (decode_packW _ _ _ _ _).trans ((decodeParts_Msg _ _ _ _).trans ?_)
  simp_all [decodeMsg, Instr.wf, rmAssigned, precAssigned, scopeAssigned, BitVec.le_def]

theorem sendm (s : Bool) (d a b : BitVec 5) : Statement (.sendm s d a b) := by
  intro hw w h
  obtain rfl := Option.some.inj h
  refine (decode_packW _ _ _ _ _).trans ((decodeParts_Msg _ _ _ _).trans ?_)
  simp_all [decodeMsg, Instr.wf, rmAssigned, precAssigned, scopeAssigned, BitVec.le_def]

theorem sendr (s : Bool) (a b : BitVec 5) : Statement (.sendr s a b) := by
  intro hw w h
  obtain rfl := Option.some.inj h
  refine (decode_packW _ _ _ _ _).trans ((decodeParts_Msg _ _ _ _).trans ?_)
  simp_all [decodeMsg, Instr.wf, rmAssigned, precAssigned, scopeAssigned, BitVec.le_def]

theorem mld (s : Bool) (d a b : BitVec 5) : Statement (.mld s d a b) := by
  intro hw w h
  obtain rfl := Option.some.inj h
  refine (decode_packW _ _ _ _ _).trans ((decodeParts_Msg _ _ _ _).trans ?_)
  simp_all [decodeMsg, Instr.wf, rmAssigned, precAssigned, scopeAssigned, BitVec.le_def]

theorem mhdr (s : Bool) (d a b : BitVec 5) : Statement (.mhdr s d a b) := by
  intro hw w h
  obtain rfl := Option.some.inj h
  refine (decode_packW _ _ _ _ _).trans ((decodeParts_Msg _ _ _ _).trans ?_)
  simp_all [decodeMsg, Instr.wf, rmAssigned, precAssigned, scopeAssigned, BitVec.le_def]

theorem ttWr (s : Bool) (a b : BitVec 5) : Statement (.ttWr s a b) := by
  intro hw w h
  obtain rfl := Option.some.inj h
  refine (decode_packW _ _ _ _ _).trans ((decodeParts_Msg _ _ _ _).trans ?_)
  simp_all [decodeMsg, Instr.wf, rmAssigned, precAssigned, scopeAssigned, BitVec.le_def]

theorem ttRd (s : Bool) (d a b : BitVec 5) : Statement (.ttRd s d a b) := by
  intro hw w h
  obtain rfl := Option.some.inj h
  refine (decode_packW _ _ _ _ _).trans ((decodeParts_Msg _ _ _ _).trans ?_)
  simp_all [decodeMsg, Instr.wf, rmAssigned, precAssigned, scopeAssigned, BitVec.le_def]

theorem ttBlk (s : Bool) (a : BitVec 5) : Statement (.ttBlk s a) := by
  intro hw w h
  obtain rfl := Option.some.inj h
  refine (decode_packW _ _ _ _ _).trans ((decodeParts_Msg _ _ _ _).trans ?_)
  simp_all [decodeMsg, Instr.wf, rmAssigned, precAssigned, scopeAssigned, BitVec.le_def]

theorem ttUblk (s : Bool) (a : BitVec 5) : Statement (.ttUblk s a) := by
  intro hw w h
  obtain rfl := Option.some.inj h
  refine (decode_packW _ _ _ _ _).trans ((decodeParts_Msg _ _ _ _).trans ?_)
  simp_all [decodeMsg, Instr.wf, rmAssigned, precAssigned, scopeAssigned, BitVec.le_def]

theorem commit (s : Bool) : Statement (.commit s) := by
  intro hw w h
  obtain rfl := Option.some.inj h
  refine (decode_packW _ _ _ _ _).trans ((decodeParts_Chk _ _ _ _).trans ?_)
  simp_all [decodeChk, Instr.wf, rmAssigned, precAssigned, scopeAssigned, BitVec.le_def]

theorem fence (s : Bool) (b : BitVec 5) : Statement (.fence s b) := by
  intro hw w h
  obtain rfl := Option.some.inj h
  refine (decode_packW _ _ _ _ _).trans ((decodeParts_Chk _ _ _ _).trans ?_)
  simp_all [decodeChk, Instr.wf, rmAssigned, precAssigned, scopeAssigned, BitVec.le_def]

theorem abort (s : Bool) (a : BitVec 5) : Statement (.abort s a) := by
  intro hw w h
  obtain rfl := Option.some.inj h
  refine (decode_packW _ _ _ _ _).trans ((decodeParts_Chk _ _ _ _).trans ?_)
  simp_all [decodeChk, Instr.wf, rmAssigned, precAssigned, scopeAssigned, BitVec.le_def]

theorem dgRd (s : Bool) (d a : BitVec 5) : Statement (.dgRd s d a) := by
  intro hw w h
  obtain rfl := Option.some.inj h
  refine (decode_packW _ _ _ _ _).trans ((decodeParts_Chk _ _ _ _).trans ?_)
  simp_all [decodeChk, Instr.wf, rmAssigned, precAssigned, scopeAssigned, BitVec.le_def]

theorem dgMode (s : Bool) (a : BitVec 5) : Statement (.dgMode s a) := by
  intro hw w h
  obtain rfl := Option.some.inj h
  refine (decode_packW _ _ _ _ _).trans ((decodeParts_Chk _ _ _ _).trans ?_)
  simp_all [decodeChk, Instr.wf, rmAssigned, precAssigned, scopeAssigned, BitVec.le_def]

theorem tileDef (s : Bool) (a : BitVec 5) : Statement (.tileDef s a) := by
  intro hw w h
  obtain rfl := Option.some.inj h
  refine (decode_packW _ _ _ _ _).trans ((decodeParts_Chk _ _ _ _).trans ?_)
  simp_all [decodeChk, Instr.wf, rmAssigned, precAssigned, scopeAssigned, BitVec.le_def]

theorem tileSt (s : Bool) (a b : BitVec 5) : Statement (.tileSt s a b) := by
  intro hw w h
  obtain rfl := Option.some.inj h
  refine (decode_packW _ _ _ _ _).trans ((decodeParts_Chk _ _ _ _).trans ?_)
  simp_all [decodeChk, Instr.wf, rmAssigned, precAssigned, scopeAssigned, BitVec.le_def]

theorem tileRd (s : Bool) (d a b : BitVec 5) : Statement (.tileRd s d a b) := by
  intro hw w h
  obtain rfl := Option.some.inj h
  refine (decode_packW _ _ _ _ _).trans ((decodeParts_Chk _ _ _ _).trans ?_)
  simp_all [decodeChk, Instr.wf, rmAssigned, precAssigned, scopeAssigned, BitVec.le_def]

theorem tileSat (s : Bool) (d a : BitVec 5) : Statement (.tileSat s d a) := by
  intro hw w h
  obtain rfl := Option.some.inj h
  refine (decode_packW _ _ _ _ _).trans ((decodeParts_Chk _ _ _ _).trans ?_)
  simp_all [decodeChk, Instr.wf, rmAssigned, precAssigned, scopeAssigned, BitVec.le_def]

theorem pf (s : Bool) (a b : BitVec 5) : Statement (.pf s a b) := by
  intro hw w h
  obtain rfl := Option.some.inj h
  refine (decode_packW _ _ _ _ _).trans ((decodeParts_Chk _ _ _ _).trans ?_)
  simp_all [decodeChk, Instr.wf, rmAssigned, precAssigned, scopeAssigned, BitVec.le_def]

theorem rwLd (s : Bool) (d : BitVec 4) (a : BitVec 5) : Statement (.rwLd s d a) := by
  intro hw w h
  obtain rfl := Option.some.inj h
  refine (decode_packW _ _ _ _ _).trans ((decodeParts_Ring _ _ _ _).trans ?_)
  simp_all [decodeRing, Instr.wf, rmAssigned, precAssigned, scopeAssigned, BitVec.le_def]

theorem rwAdv (s : Bool) (d : BitVec 4) (a : BitVec 5) : Statement (.rwAdv s d a) := by
  intro hw w h
  obtain rfl := Option.some.inj h
  refine (decode_packW _ _ _ _ _).trans ((decodeParts_Ring _ _ _ _).trans ?_)
  simp_all [decodeRing, Instr.wf, rmAssigned, precAssigned, scopeAssigned, BitVec.le_def]

theorem rwSet (s : Bool) (d : BitVec 4) (a b : BitVec 5) : Statement (.rwSet s d a b) := by
  intro hw w h
  obtain rfl := Option.some.inj h
  refine (decode_packW _ _ _ _ _).trans ((decodeParts_Ring _ _ _ _).trans ?_)
  simp_all [decodeRing, Instr.wf, rmAssigned, precAssigned, scopeAssigned, BitVec.le_def]

theorem rwAdd (s : Bool) (d : BitVec 4) (a b : BitVec 5) : Statement (.rwAdd s d a b) := by
  intro hw w h
  obtain rfl := Option.some.inj h
  refine (decode_packW _ _ _ _ _).trans ((decodeParts_Ring _ _ _ _).trans ?_)
  simp_all [decodeRing, Instr.wf, rmAssigned, precAssigned, scopeAssigned, BitVec.le_def]

theorem rwArm (s : Bool) (d : BitVec 4) (a : BitVec 5) : Statement (.rwArm s d a) := by
  intro hw w h
  obtain rfl := Option.some.inj h
  refine (decode_packW _ _ _ _ _).trans ((decodeParts_Ring _ _ _ _).trans ?_)
  simp_all [decodeRing, Instr.wf, rmAssigned, precAssigned, scopeAssigned, BitVec.le_def]

theorem rwDisarm (s : Bool) (d : BitVec 4) (a : BitVec 5) : Statement (.rwDisarm s d a) := by
  intro hw w h
  obtain rfl := Option.some.inj h
  refine (decode_packW _ _ _ _ _).trans ((decodeParts_Ring _ _ _ _).trans ?_)
  simp_all [decodeRing, Instr.wf, rmAssigned, precAssigned, scopeAssigned, BitVec.le_def]

theorem rwHdr (s : Bool) (d a : BitVec 5) : Statement (.rwHdr s d a) := by
  intro hw w h
  obtain rfl := Option.some.inj h
  refine (decode_packW _ _ _ _ _).trans ((decodeParts_Ring _ _ _ _).trans ?_)
  simp_all [decodeRing, Instr.wf, rmAssigned, precAssigned, scopeAssigned, BitVec.le_def]

theorem lawWr (s : Bool) (a b : BitVec 5) : Statement (.lawWr s a b) := by
  intro hw w h
  obtain rfl := Option.some.inj h
  refine (decode_packW _ _ _ _ _).trans ((decodeParts_Ring _ _ _ _).trans ?_)
  simp_all [decodeRing, Instr.wf, rmAssigned, precAssigned, scopeAssigned, BitVec.le_def]

theorem lawRd (s : Bool) (d a b : BitVec 5) : Statement (.lawRd s d a b) := by
  intro hw w h
  obtain rfl := Option.some.inj h
  refine (decode_packW _ _ _ _ _).trans ((decodeParts_Ring _ _ _ _).trans ?_)
  simp_all [decodeRing, Instr.wf, rmAssigned, precAssigned, scopeAssigned, BitVec.le_def]

theorem clkAdv (s : Bool) (a b : BitVec 5) : Statement (.clkAdv s a b) := by
  intro hw w h
  obtain rfl := Option.some.inj h
  refine (decode_packW _ _ _ _ _).trans ((decodeParts_Ring _ _ _ _).trans ?_)
  simp_all [decodeRing, Instr.wf, rmAssigned, precAssigned, scopeAssigned, BitVec.le_def]

theorem clkRd (s : Bool) (d a : BitVec 5) : Statement (.clkRd s d a) := by
  intro hw w h
  obtain rfl := Option.some.inj h
  refine (decode_packW _ _ _ _ _).trans ((decodeParts_Ring _ _ _ _).trans ?_)
  simp_all [decodeRing, Instr.wf, rmAssigned, precAssigned, scopeAssigned, BitVec.le_def]

theorem vaddF (s : Bool) (d a b : BitVec 5) (q : BitVec 3) : Statement (.vaddF s d a b q) := by
  intro hw w h
  obtain rfl := Option.some.inj h
  refine (decode_packW _ _ _ _ _).trans ((decodeParts_Varf _ _ _ _).trans ?_)
  simp_all [decodeVarf, Instr.wf, rmAssigned, precAssigned, scopeAssigned, BitVec.le_def]

theorem vsubF (s : Bool) (d a b : BitVec 5) (q : BitVec 3) : Statement (.vsubF s d a b q) := by
  intro hw w h
  obtain rfl := Option.some.inj h
  refine (decode_packW _ _ _ _ _).trans ((decodeParts_Varf _ _ _ _).trans ?_)
  simp_all [decodeVarf, Instr.wf, rmAssigned, precAssigned, scopeAssigned, BitVec.le_def]

theorem vmulF (s : Bool) (d a b : BitVec 5) (q : BitVec 3) : Statement (.vmulF s d a b q) := by
  intro hw w h
  obtain rfl := Option.some.inj h
  refine (decode_packW _ _ _ _ _).trans ((decodeParts_Varf _ _ _ _).trans ?_)
  simp_all [decodeVarf, Instr.wf, rmAssigned, precAssigned, scopeAssigned, BitVec.le_def]

theorem vdivF (s : Bool) (d a b : BitVec 5) (q : BitVec 3) : Statement (.vdivF s d a b q) := by
  intro hw w h
  obtain rfl := Option.some.inj h
  refine (decode_packW _ _ _ _ _).trans ((decodeParts_Varf _ _ _ _).trans ?_)
  simp_all [decodeVarf, Instr.wf, rmAssigned, precAssigned, scopeAssigned, BitVec.le_def]

theorem vsqrtF (s : Bool) (d a : BitVec 5) (q : BitVec 3) : Statement (.vsqrtF s d a q) := by
  intro hw w h
  obtain rfl := Option.some.inj h
  refine (decode_packW _ _ _ _ _).trans ((decodeParts_Varf _ _ _ _).trans ?_)
  simp_all [decodeVarf, Instr.wf, rmAssigned, precAssigned, scopeAssigned, BitVec.le_def]

theorem vmaxF (s : Bool) (d a b : BitVec 5) (q : BitVec 3) : Statement (.vmaxF s d a b q) := by
  intro hw w h
  obtain rfl := Option.some.inj h
  refine (decode_packW _ _ _ _ _).trans ((decodeParts_Varf _ _ _ _).trans ?_)
  simp_all [decodeVarf, Instr.wf, rmAssigned, precAssigned, scopeAssigned, BitVec.le_def]

theorem vminF (s : Bool) (d a b : BitVec 5) (q : BitVec 3) : Statement (.vminF s d a b q) := by
  intro hw w h
  obtain rfl := Option.some.inj h
  refine (decode_packW _ _ _ _ _).trans ((decodeParts_Varf _ _ _ _).trans ?_)
  simp_all [decodeVarf, Instr.wf, rmAssigned, precAssigned, scopeAssigned, BitVec.le_def]

theorem vabsF (s : Bool) (d a : BitVec 5) (q : BitVec 3) : Statement (.vabsF s d a q) := by
  intro hw w h
  obtain rfl := Option.some.inj h
  refine (decode_packW _ _ _ _ _).trans ((decodeParts_Varf _ _ _ _).trans ?_)
  simp_all [decodeVarf, Instr.wf, rmAssigned, precAssigned, scopeAssigned, BitVec.le_def]

theorem vnegF (s : Bool) (d a : BitVec 5) (q : BitVec 3) : Statement (.vnegF s d a q) := by
  intro hw w h
  obtain rfl := Option.some.inj h
  refine (decode_packW _ _ _ _ _).trans ((decodeParts_Varf _ _ _ _).trans ?_)
  simp_all [decodeVarf, Instr.wf, rmAssigned, precAssigned, scopeAssigned, BitVec.le_def]

theorem vfma (s : Bool) (d a b : BitVec 5) (q : BitVec 3) : Statement (.vfma s d a b q) := by
  intro hw w h
  obtain rfl := Option.some.inj h
  refine (decode_packW _ _ _ _ _).trans ((decodeParts_Varf _ _ _ _).trans ?_)
  simp_all [decodeVarf, Instr.wf, rmAssigned, precAssigned, scopeAssigned, BitVec.le_def]

theorem vfms (s : Bool) (d a b : BitVec 5) (q : BitVec 3) : Statement (.vfms s d a b q) := by
  intro hw w h
  obtain rfl := Option.some.inj h
  refine (decode_packW _ _ _ _ _).trans ((decodeParts_Varf _ _ _ _).trans ?_)
  simp_all [decodeVarf, Instr.wf, rmAssigned, precAssigned, scopeAssigned, BitVec.le_def]

theorem vfnma (s : Bool) (d a b : BitVec 5) (q : BitVec 3) : Statement (.vfnma s d a b q) := by
  intro hw w h
  obtain rfl := Option.some.inj h
  refine (decode_packW _ _ _ _ _).trans ((decodeParts_Varf _ _ _ _).trans ?_)
  simp_all [decodeVarf, Instr.wf, rmAssigned, precAssigned, scopeAssigned, BitVec.le_def]

theorem vcmpeqF (s : Bool) (d : BitVec 3) (a b : BitVec 5) (q : BitVec 3) : Statement (.vcmpeqF s d a b q) := by
  intro hw w h
  obtain rfl := Option.some.inj h
  refine (decode_packW _ _ _ _ _).trans ((decodeParts_Varf _ _ _ _).trans ?_)
  simp_all [decodeVarf, Instr.wf, rmAssigned, precAssigned, scopeAssigned, BitVec.le_def]

theorem vcmpltF (s : Bool) (d : BitVec 3) (a b : BitVec 5) (q : BitVec 3) : Statement (.vcmpltF s d a b q) := by
  intro hw w h
  obtain rfl := Option.some.inj h
  refine (decode_packW _ _ _ _ _).trans ((decodeParts_Varf _ _ _ _).trans ?_)
  simp_all [decodeVarf, Instr.wf, rmAssigned, precAssigned, scopeAssigned, BitVec.le_def]

theorem vcmpleF (s : Bool) (d : BitVec 3) (a b : BitVec 5) (q : BitVec 3) : Statement (.vcmpleF s d a b q) := by
  intro hw w h
  obtain rfl := Option.some.inj h
  refine (decode_packW _ _ _ _ _).trans ((decodeParts_Varf _ _ _ _).trans ?_)
  simp_all [decodeVarf, Instr.wf, rmAssigned, precAssigned, scopeAssigned, BitVec.le_def]

theorem vcmpunF (s : Bool) (d : BitVec 3) (a b : BitVec 5) (q : BitVec 3) : Statement (.vcmpunF s d a b q) := by
  intro hw w h
  obtain rfl := Option.some.inj h
  refine (decode_packW _ _ _ _ _).trans ((decodeParts_Varf _ _ _ _).trans ?_)
  simp_all [decodeVarf, Instr.wf, rmAssigned, precAssigned, scopeAssigned, BitVec.le_def]

theorem vclass (s : Bool) (d a : BitVec 5) (q : BitVec 3) : Statement (.vclass s d a q) := by
  intro hw w h
  obtain rfl := Option.some.inj h
  refine (decode_packW _ _ _ _ _).trans ((decodeParts_Varf _ _ _ _).trans ?_)
  simp_all [decodeVarf, Instr.wf, rmAssigned, precAssigned, scopeAssigned, BitVec.le_def]

theorem vaddI (s : Bool) (d a b : BitVec 5) (q : BitVec 3) : Statement (.vaddI s d a b q) := by
  intro hw w h
  obtain rfl := Option.some.inj h
  refine (decode_packW _ _ _ _ _).trans ((decodeParts_Vari _ _ _ _).trans ?_)
  simp_all [decodeVari, Instr.wf, rmAssigned, precAssigned, scopeAssigned, BitVec.le_def]

theorem vsubI (s : Bool) (d a b : BitVec 5) (q : BitVec 3) : Statement (.vsubI s d a b q) := by
  intro hw w h
  obtain rfl := Option.some.inj h
  refine (decode_packW _ _ _ _ _).trans ((decodeParts_Vari _ _ _ _).trans ?_)
  simp_all [decodeVari, Instr.wf, rmAssigned, precAssigned, scopeAssigned, BitVec.le_def]

theorem vmulI (s : Bool) (d a b : BitVec 5) (q : BitVec 3) : Statement (.vmulI s d a b q) := by
  intro hw w h
  obtain rfl := Option.some.inj h
  refine (decode_packW _ _ _ _ _).trans ((decodeParts_Vari _ _ _ _).trans ?_)
  simp_all [decodeVari, Instr.wf, rmAssigned, precAssigned, scopeAssigned, BitVec.le_def]

theorem vand (s : Bool) (d a b : BitVec 5) (q : BitVec 3) : Statement (.vand s d a b q) := by
  intro hw w h
  obtain rfl := Option.some.inj h
  refine (decode_packW _ _ _ _ _).trans ((decodeParts_Vari _ _ _ _).trans ?_)
  simp_all [decodeVari, Instr.wf, rmAssigned, precAssigned, scopeAssigned, BitVec.le_def]

theorem vor (s : Bool) (d a b : BitVec 5) (q : BitVec 3) : Statement (.vor s d a b q) := by
  intro hw w h
  obtain rfl := Option.some.inj h
  refine (decode_packW _ _ _ _ _).trans ((decodeParts_Vari _ _ _ _).trans ?_)
  simp_all [decodeVari, Instr.wf, rmAssigned, precAssigned, scopeAssigned, BitVec.le_def]

theorem vxor (s : Bool) (d a b : BitVec 5) (q : BitVec 3) : Statement (.vxor s d a b q) := by
  intro hw w h
  obtain rfl := Option.some.inj h
  refine (decode_packW _ _ _ _ _).trans ((decodeParts_Vari _ _ _ _).trans ?_)
  simp_all [decodeVari, Instr.wf, rmAssigned, precAssigned, scopeAssigned, BitVec.le_def]

theorem vshl (s : Bool) (d a b : BitVec 5) (q : BitVec 3) : Statement (.vshl s d a b q) := by
  intro hw w h
  obtain rfl := Option.some.inj h
  refine (decode_packW _ _ _ _ _).trans ((decodeParts_Vari _ _ _ _).trans ?_)
  simp_all [decodeVari, Instr.wf, rmAssigned, precAssigned, scopeAssigned, BitVec.le_def]

theorem vshr (s : Bool) (d a b : BitVec 5) (q : BitVec 3) : Statement (.vshr s d a b q) := by
  intro hw w h
  obtain rfl := Option.some.inj h
  refine (decode_packW _ _ _ _ _).trans ((decodeParts_Vari _ _ _ _).trans ?_)
  simp_all [decodeVari, Instr.wf, rmAssigned, precAssigned, scopeAssigned, BitVec.le_def]

theorem vsra (s : Bool) (d a b : BitVec 5) (q : BitVec 3) : Statement (.vsra s d a b q) := by
  intro hw w h
  obtain rfl := Option.some.inj h
  refine (decode_packW _ _ _ _ _).trans ((decodeParts_Vari _ _ _ _).trans ?_)
  simp_all [decodeVari, Instr.wf, rmAssigned, precAssigned, scopeAssigned, BitVec.le_def]

theorem vminI (s : Bool) (d a b : BitVec 5) (q : BitVec 3) : Statement (.vminI s d a b q) := by
  intro hw w h
  obtain rfl := Option.some.inj h
  refine (decode_packW _ _ _ _ _).trans ((decodeParts_Vari _ _ _ _).trans ?_)
  simp_all [decodeVari, Instr.wf, rmAssigned, precAssigned, scopeAssigned, BitVec.le_def]

theorem vmaxI (s : Bool) (d a b : BitVec 5) (q : BitVec 3) : Statement (.vmaxI s d a b q) := by
  intro hw w h
  obtain rfl := Option.some.inj h
  refine (decode_packW _ _ _ _ _).trans ((decodeParts_Vari _ _ _ _).trans ?_)
  simp_all [decodeVari, Instr.wf, rmAssigned, precAssigned, scopeAssigned, BitVec.le_def]

theorem vcmpeqI (s : Bool) (d : BitVec 3) (a b : BitVec 5) (q : BitVec 3) : Statement (.vcmpeqI s d a b q) := by
  intro hw w h
  obtain rfl := Option.some.inj h
  refine (decode_packW _ _ _ _ _).trans ((decodeParts_Vari _ _ _ _).trans ?_)
  simp_all [decodeVari, Instr.wf, rmAssigned, precAssigned, scopeAssigned, BitVec.le_def]

theorem vcmpltI (s : Bool) (d : BitVec 3) (a b : BitVec 5) (q : BitVec 3) : Statement (.vcmpltI s d a b q) := by
  intro hw w h
  obtain rfl := Option.some.inj h
  refine (decode_packW _ _ _ _ _).trans ((decodeParts_Vari _ _ _ _).trans ?_)
  simp_all [decodeVari, Instr.wf, rmAssigned, precAssigned, scopeAssigned, BitVec.le_def]

theorem vcmpltu (s : Bool) (d : BitVec 3) (a b : BitVec 5) (q : BitVec 3) : Statement (.vcmpltu s d a b q) := by
  intro hw w h
  obtain rfl := Option.some.inj h
  refine (decode_packW _ _ _ _ _).trans ((decodeParts_Vari _ _ _ _).trans ?_)
  simp_all [decodeVari, Instr.wf, rmAssigned, precAssigned, scopeAssigned, BitVec.le_def]

theorem vsel (s : Bool) (d a b : BitVec 5) (q : BitVec 3) : Statement (.vsel s d a b q) := by
  intro hw w h
  obtain rfl := Option.some.inj h
  refine (decode_packW _ _ _ _ _).trans ((decodeParts_Vari _ _ _ _).trans ?_)
  simp_all [decodeVari, Instr.wf, rmAssigned, precAssigned, scopeAssigned, BitVec.le_def]

theorem vmov (s : Bool) (d a : BitVec 5) (q : BitVec 3) : Statement (.vmov s d a q) := by
  intro hw w h
  obtain rfl := Option.some.inj h
  refine (decode_packW _ _ _ _ _).trans ((decodeParts_Vari _ _ _ _).trans ?_)
  simp_all [decodeVari, Instr.wf, rmAssigned, precAssigned, scopeAssigned, BitVec.le_def]

theorem vbcast (s : Bool) (d a : BitVec 5) (q : BitVec 3) : Statement (.vbcast s d a q) := by
  intro hw w h
  obtain rfl := Option.some.inj h
  refine (decode_packW _ _ _ _ _).trans ((decodeParts_Vari _ _ _ _).trans ?_)
  simp_all [decodeVari, Instr.wf, rmAssigned, precAssigned, scopeAssigned, BitVec.le_def]

theorem vext (s : Bool) (d a b : BitVec 5) : Statement (.vext s d a b) := by
  intro hw w h
  obtain rfl := Option.some.inj h
  refine (decode_packW _ _ _ _ _).trans ((decodeParts_Vari _ _ _ _).trans ?_)
  simp_all [decodeVari, Instr.wf, rmAssigned, precAssigned, scopeAssigned, BitVec.le_def]

theorem vins (s : Bool) (d a b : BitVec 5) : Statement (.vins s d a b) := by
  intro hw w h
  obtain rfl := Option.some.inj h
  refine (decode_packW _ _ _ _ _).trans ((decodeParts_Vari _ _ _ _).trans ?_)
  simp_all [decodeVari, Instr.wf, rmAssigned, precAssigned, scopeAssigned, BitVec.le_def]

theorem viota (s : Bool) (d : BitVec 5) (q : BitVec 3) : Statement (.viota s d q) := by
  intro hw w h
  obtain rfl := Option.some.inj h
  refine (decode_packW _ _ _ _ _).trans ((decodeParts_Vari _ _ _ _).trans ?_)
  simp_all [decodeVari, Instr.wf, rmAssigned, precAssigned, scopeAssigned, BitVec.le_def]

theorem vcvtFI (s : Bool) (d a : BitVec 5) (r q : BitVec 3) : Statement (.vcvtFI s d a r q) := by
  intro hw w h
  obtain rfl := Option.some.inj h
  refine (decode_packW _ _ _ _ _).trans ((decodeParts_Vcvt _ _ _ _).trans ?_)
  simp_all [decodeVcvt, Instr.wf, rmAssigned, precAssigned, scopeAssigned, BitVec.le_def]

theorem vcvtIF (s : Bool) (d a : BitVec 5) (r q : BitVec 3) : Statement (.vcvtIF s d a r q) := by
  intro hw w h
  obtain rfl := Option.some.inj h
  refine (decode_packW _ _ _ _ _).trans ((decodeParts_Vcvt _ _ _ _).trans ?_)
  simp_all [decodeVcvt, Instr.wf, rmAssigned, precAssigned, scopeAssigned, BitVec.le_def]

theorem vcvtFBf (s : Bool) (d a : BitVec 5) (q : BitVec 3) : Statement (.vcvtFBf s d a q) := by
  intro hw w h
  obtain rfl := Option.some.inj h
  refine (decode_packW _ _ _ _ _).trans ((decodeParts_Vcvt _ _ _ _).trans ?_)
  simp_all [decodeVcvt, Instr.wf, rmAssigned, precAssigned, scopeAssigned, BitVec.le_def]

theorem vcvtBfF (s : Bool) (d a : BitVec 5) (r q : BitVec 3) : Statement (.vcvtBfF s d a r q) := by
  intro hw w h
  obtain rfl := Option.some.inj h
  refine (decode_packW _ _ _ _ _).trans ((decodeParts_Vcvt _ _ _ _).trans ?_)
  simp_all [decodeVcvt, Instr.wf, rmAssigned, precAssigned, scopeAssigned, BitVec.le_def]

theorem vcvtFH (s : Bool) (d a : BitVec 5) (q : BitVec 3) : Statement (.vcvtFH s d a q) := by
  intro hw w h
  obtain rfl := Option.some.inj h
  refine (decode_packW _ _ _ _ _).trans ((decodeParts_Vcvt _ _ _ _).trans ?_)
  simp_all [decodeVcvt, Instr.wf, rmAssigned, precAssigned, scopeAssigned, BitVec.le_def]

theorem vcvtHF (s : Bool) (d a : BitVec 5) (r q : BitVec 3) : Statement (.vcvtHF s d a r q) := by
  intro hw w h
  obtain rfl := Option.some.inj h
  refine (decode_packW _ _ _ _ _).trans ((decodeParts_Vcvt _ _ _ _).trans ?_)
  simp_all [decodeVcvt, Instr.wf, rmAssigned, precAssigned, scopeAssigned, BitVec.le_def]

theorem vnarrow (s : Bool) (d a : BitVec 5) (r k q : BitVec 3) : Statement (.vnarrow s d a r k q) := by
  intro hw w h
  obtain rfl := Option.some.inj h
  refine (decode_packW _ _ _ _ _).trans ((decodeParts_Vcvt _ _ _ _).trans ?_)
  simp_all [decodeVcvt, Instr.wf, rmAssigned, precAssigned, scopeAssigned, BitVec.le_def]

theorem vwiden (s : Bool) (d a : BitVec 5) (k q : BitVec 3) : Statement (.vwiden s d a k q) := by
  intro hw w h
  obtain rfl := Option.some.inj h
  refine (decode_packW _ _ _ _ _).trans ((decodeParts_Vcvt _ _ _ _).trans ?_)
  simp_all [decodeVcvt, Instr.wf, rmAssigned, precAssigned, scopeAssigned, BitVec.le_def]

theorem vpack (s : Bool) (d a : BitVec 5) (r k q : BitVec 3) : Statement (.vpack s d a r k q) := by
  intro hw w h
  obtain rfl := Option.some.inj h
  refine (decode_packW _ _ _ _ _).trans ((decodeParts_Vcvt _ _ _ _).trans ?_)
  simp_all [decodeVcvt, Instr.wf, rmAssigned, precAssigned, scopeAssigned, BitVec.le_def]

theorem vunpack (s : Bool) (d a : BitVec 5) (k q : BitVec 3) : Statement (.vunpack s d a k q) := by
  intro hw w h
  obtain rfl := Option.some.inj h
  refine (decode_packW _ _ _ _ _).trans ((decodeParts_Vcvt _ _ _ _).trans ?_)
  simp_all [decodeVcvt, Instr.wf, rmAssigned, precAssigned, scopeAssigned, BitVec.le_def]

theorem vrsumF (s : Bool) (d a : BitVec 5) (q : BitVec 3) : Statement (.vrsumF s d a q) := by
  intro hw w h
  obtain rfl := Option.some.inj h
  refine (decode_packW _ _ _ _ _).trans ((decodeParts_Vred _ _ _ _).trans ?_)
  simp_all [decodeVred, Instr.wf, rmAssigned, precAssigned, scopeAssigned, BitVec.le_def]

theorem vrmaxF (s : Bool) (d a : BitVec 5) (q : BitVec 3) : Statement (.vrmaxF s d a q) := by
  intro hw w h
  obtain rfl := Option.some.inj h
  refine (decode_packW _ _ _ _ _).trans ((decodeParts_Vred _ _ _ _).trans ?_)
  simp_all [decodeVred, Instr.wf, rmAssigned, precAssigned, scopeAssigned, BitVec.le_def]

theorem vrminF (s : Bool) (d a : BitVec 5) (q : BitVec 3) : Statement (.vrminF s d a q) := by
  intro hw w h
  obtain rfl := Option.some.inj h
  refine (decode_packW _ _ _ _ _).trans ((decodeParts_Vred _ _ _ _).trans ?_)
  simp_all [decodeVred, Instr.wf, rmAssigned, precAssigned, scopeAssigned, BitVec.le_def]

theorem vrsumI (s : Bool) (d a : BitVec 5) (q : BitVec 3) : Statement (.vrsumI s d a q) := by
  intro hw w h
  obtain rfl := Option.some.inj h
  refine (decode_packW _ _ _ _ _).trans ((decodeParts_Vred _ _ _ _).trans ?_)
  simp_all [decodeVred, Instr.wf, rmAssigned, precAssigned, scopeAssigned, BitVec.le_def]

theorem vrsumX (s : Bool) (d : BitVec 4) (a : BitVec 5) (q : BitVec 3) : Statement (.vrsumX s d a q) := by
  intro hw w h
  obtain rfl := Option.some.inj h
  refine (decode_packW _ _ _ _ _).trans ((decodeParts_Vred _ _ _ _).trans ?_)
  simp_all [decodeVred, Instr.wf, rmAssigned, precAssigned, scopeAssigned, BitVec.le_def]

theorem vscanF (s : Bool) (d a : BitVec 5) (q : BitVec 3) : Statement (.vscanF s d a q) := by
  intro hw w h
  obtain rfl := Option.some.inj h
  refine (decode_packW _ _ _ _ _).trans ((decodeParts_Vred _ _ _ _).trans ?_)
  simp_all [decodeVred, Instr.wf, rmAssigned, precAssigned, scopeAssigned, BitVec.le_def]

theorem vscanI (s : Bool) (d a : BitVec 5) (q : BitVec 3) : Statement (.vscanI s d a q) := by
  intro hw w h
  obtain rfl := Option.some.inj h
  refine (decode_packW _ _ _ _ _).trans ((decodeParts_Vred _ _ _ _).trans ?_)
  simp_all [decodeVred, Instr.wf, rmAssigned, precAssigned, scopeAssigned, BitVec.le_def]

theorem vargmax (s : Bool) (d a : BitVec 5) (q : BitVec 3) : Statement (.vargmax s d a q) := by
  intro hw w h
  obtain rfl := Option.some.inj h
  refine (decode_packW _ _ _ _ _).trans ((decodeParts_Vred _ _ _ _).trans ?_)
  simp_all [decodeVred, Instr.wf, rmAssigned, precAssigned, scopeAssigned, BitVec.le_def]

theorem vargmin (s : Bool) (d a : BitVec 5) (q : BitVec 3) : Statement (.vargmin s d a q) := by
  intro hw w h
  obtain rfl := Option.some.inj h
  refine (decode_packW _ _ _ _ _).trans ((decodeParts_Vred _ _ _ _).trans ?_)
  simp_all [decodeVred, Instr.wf, rmAssigned, precAssigned, scopeAssigned, BitVec.le_def]

theorem vperm (s : Bool) (d a b : BitVec 5) (q : BitVec 3) : Statement (.vperm s d a b q) := by
  intro hw w h
  obtain rfl := Option.some.inj h
  refine (decode_packW _ _ _ _ _).trans ((decodeParts_Vprm _ _ _ _).trans ?_)
  simp_all [decodeVprm, Instr.wf, rmAssigned, precAssigned, scopeAssigned, BitVec.le_def]

theorem vrot (s : Bool) (d a b : BitVec 5) (q : BitVec 3) : Statement (.vrot s d a b q) := by
  intro hw w h
  obtain rfl := Option.some.inj h
  refine (decode_packW _ _ _ _ _).trans ((decodeParts_Vprm _ _ _ _).trans ?_)
  simp_all [decodeVprm, Instr.wf, rmAssigned, precAssigned, scopeAssigned, BitVec.le_def]

theorem vzip (s : Bool) (d a b : BitVec 5) (q : BitVec 3) : Statement (.vzip s d a b q) := by
  intro hw w h
  obtain rfl := Option.some.inj h
  refine (decode_packW _ _ _ _ _).trans ((decodeParts_Vprm _ _ _ _).trans ?_)
  simp_all [decodeVprm, Instr.wf, rmAssigned, precAssigned, scopeAssigned, BitVec.le_def]

theorem vunzip (s : Bool) (d a b : BitVec 5) (q : BitVec 3) : Statement (.vunzip s d a b q) := by
  intro hw w h
  obtain rfl := Option.some.inj h
  refine (decode_packW _ _ _ _ _).trans ((decodeParts_Vprm _ _ _ _).trans ?_)
  simp_all [decodeVprm, Instr.wf, rmAssigned, precAssigned, scopeAssigned, BitVec.le_def]

theorem vcomp (s : Bool) (d a : BitVec 5) (q : BitVec 3) : Statement (.vcomp s d a q) := by
  intro hw w h
  obtain rfl := Option.some.inj h
  refine (decode_packW _ _ _ _ _).trans ((decodeParts_Vprm _ _ _ _).trans ?_)
  simp_all [decodeVprm, Instr.wf, rmAssigned, precAssigned, scopeAssigned, BitVec.le_def]

theorem vexpd (s : Bool) (d a : BitVec 5) (q : BitVec 3) : Statement (.vexpd s d a q) := by
  intro hw w h
  obtain rfl := Option.some.inj h
  refine (decode_packW _ _ _ _ _).trans ((decodeParts_Vprm _ _ _ _).trans ?_)
  simp_all [decodeVprm, Instr.wf, rmAssigned, precAssigned, scopeAssigned, BitVec.le_def]

theorem vfnExp2 (s : Bool) (d a : BitVec 5) (q : BitVec 3) (p : BitVec 2) : Statement (.vfnExp2 s d a q p) := by
  intro hw w h
  obtain rfl := Option.some.inj h
  refine (decode_packW _ _ _ _ _).trans ((decodeParts_Vfn _ _ _ _).trans ?_)
  simp_all [decodeVfn, Instr.wf, rmAssigned, precAssigned, scopeAssigned, BitVec.le_def]

theorem vfnLog2 (s : Bool) (d a : BitVec 5) (q : BitVec 3) (p : BitVec 2) : Statement (.vfnLog2 s d a q p) := by
  intro hw w h
  obtain rfl := Option.some.inj h
  refine (decode_packW _ _ _ _ _).trans ((decodeParts_Vfn _ _ _ _).trans ?_)
  simp_all [decodeVfn, Instr.wf, rmAssigned, precAssigned, scopeAssigned, BitVec.le_def]

theorem vfnExp (s : Bool) (d a : BitVec 5) (q : BitVec 3) (p : BitVec 2) : Statement (.vfnExp s d a q p) := by
  intro hw w h
  obtain rfl := Option.some.inj h
  refine (decode_packW _ _ _ _ _).trans ((decodeParts_Vfn _ _ _ _).trans ?_)
  simp_all [decodeVfn, Instr.wf, rmAssigned, precAssigned, scopeAssigned, BitVec.le_def]

theorem vfnLn (s : Bool) (d a : BitVec 5) (q : BitVec 3) (p : BitVec 2) : Statement (.vfnLn s d a q p) := by
  intro hw w h
  obtain rfl := Option.some.inj h
  refine (decode_packW _ _ _ _ _).trans ((decodeParts_Vfn _ _ _ _).trans ?_)
  simp_all [decodeVfn, Instr.wf, rmAssigned, precAssigned, scopeAssigned, BitVec.le_def]

theorem vfnRcp (s : Bool) (d a : BitVec 5) (q : BitVec 3) (p : BitVec 2) : Statement (.vfnRcp s d a q p) := by
  intro hw w h
  obtain rfl := Option.some.inj h
  refine (decode_packW _ _ _ _ _).trans ((decodeParts_Vfn _ _ _ _).trans ?_)
  simp_all [decodeVfn, Instr.wf, rmAssigned, precAssigned, scopeAssigned, BitVec.le_def]

theorem vfnRsqrt (s : Bool) (d a : BitVec 5) (q : BitVec 3) (p : BitVec 2) : Statement (.vfnRsqrt s d a q p) := by
  intro hw w h
  obtain rfl := Option.some.inj h
  refine (decode_packW _ _ _ _ _).trans ((decodeParts_Vfn _ _ _ _).trans ?_)
  simp_all [decodeVfn, Instr.wf, rmAssigned, precAssigned, scopeAssigned, BitVec.le_def]

theorem vfnSint (s : Bool) (d a : BitVec 5) (q : BitVec 3) (p : BitVec 2) : Statement (.vfnSint s d a q p) := by
  intro hw w h
  obtain rfl := Option.some.inj h
  refine (decode_packW _ _ _ _ _).trans ((decodeParts_Vfn _ _ _ _).trans ?_)
  simp_all [decodeVfn, Instr.wf, rmAssigned, precAssigned, scopeAssigned, BitVec.le_def]

theorem vfnCost (s : Bool) (d a : BitVec 5) (q : BitVec 3) (p : BitVec 2) : Statement (.vfnCost s d a q p) := by
  intro hw w h
  obtain rfl := Option.some.inj h
  refine (decode_packW _ _ _ _ _).trans ((decodeParts_Vfn _ _ _ _).trans ?_)
  simp_all [decodeVfn, Instr.wf, rmAssigned, precAssigned, scopeAssigned, BitVec.le_def]

theorem vfnTanh (s : Bool) (d a : BitVec 5) (q : BitVec 3) (p : BitVec 2) : Statement (.vfnTanh s d a q p) := by
  intro hw w h
  obtain rfl := Option.some.inj h
  refine (decode_packW _ _ _ _ _).trans ((decodeParts_Vfn _ _ _ _).trans ?_)
  simp_all [decodeVfn, Instr.wf, rmAssigned, precAssigned, scopeAssigned, BitVec.le_def]

theorem vfnSigm (s : Bool) (d a : BitVec 5) (q : BitVec 3) (p : BitVec 2) : Statement (.vfnSigm s d a q p) := by
  intro hw w h
  obtain rfl := Option.some.inj h
  refine (decode_packW _ _ _ _ _).trans ((decodeParts_Vfn _ _ _ _).trans ?_)
  simp_all [decodeVfn, Instr.wf, rmAssigned, precAssigned, scopeAssigned, BitVec.le_def]

theorem vfnErf (s : Bool) (d a : BitVec 5) (q : BitVec 3) (p : BitVec 2) : Statement (.vfnErf s d a q p) := by
  intro hw w h
  obtain rfl := Option.some.inj h
  refine (decode_packW _ _ _ _ _).trans ((decodeParts_Vfn _ _ _ _).trans ?_)
  simp_all [decodeVfn, Instr.wf, rmAssigned, precAssigned, scopeAssigned, BitVec.le_def]

theorem vfnGelu (s : Bool) (d a : BitVec 5) (q : BitVec 3) (p : BitVec 2) : Statement (.vfnGelu s d a q p) := by
  intro hw w h
  obtain rfl := Option.some.inj h
  refine (decode_packW _ _ _ _ _).trans ((decodeParts_Vfn _ _ _ _).trans ?_)
  simp_all [decodeVfn, Instr.wf, rmAssigned, precAssigned, scopeAssigned, BitVec.le_def]

theorem vfnSilu (s : Bool) (d a : BitVec 5) (q : BitVec 3) (p : BitVec 2) : Statement (.vfnSilu s d a q p) := by
  intro hw w h
  obtain rfl := Option.some.inj h
  refine (decode_packW _ _ _ _ _).trans ((decodeParts_Vfn _ _ _ _).trans ?_)
  simp_all [decodeVfn, Instr.wf, rmAssigned, precAssigned, scopeAssigned, BitVec.le_def]

theorem mand (s : Bool) (d a b : BitVec 3) : Statement (.mand s d a b) := by
  intro hw w h
  obtain rfl := Option.some.inj h
  refine (decode_packW _ _ _ _ _).trans ((decodeParts_Vmsk _ _ _ _).trans ?_)
  simp_all [decodeVmsk, Instr.wf, rmAssigned, precAssigned, scopeAssigned, BitVec.le_def]

theorem mor (s : Bool) (d a b : BitVec 3) : Statement (.mor s d a b) := by
  intro hw w h
  obtain rfl := Option.some.inj h
  refine (decode_packW _ _ _ _ _).trans ((decodeParts_Vmsk _ _ _ _).trans ?_)
  simp_all [decodeVmsk, Instr.wf, rmAssigned, precAssigned, scopeAssigned, BitVec.le_def]

theorem mxor (s : Bool) (d a b : BitVec 3) : Statement (.mxor s d a b) := by
  intro hw w h
  obtain rfl := Option.some.inj h
  refine (decode_packW _ _ _ _ _).trans ((decodeParts_Vmsk _ _ _ _).trans ?_)
  simp_all [decodeVmsk, Instr.wf, rmAssigned, precAssigned, scopeAssigned, BitVec.le_def]

theorem mnot (s : Bool) (d a : BitVec 3) : Statement (.mnot s d a) := by
  intro hw w h
  obtain rfl := Option.some.inj h
  refine (decode_packW _ _ _ _ _).trans ((decodeParts_Vmsk _ _ _ _).trans ?_)
  simp_all [decodeVmsk, Instr.wf, rmAssigned, precAssigned, scopeAssigned, BitVec.le_def]

theorem mpop (s : Bool) (d : BitVec 5) (a : BitVec 3) : Statement (.mpop s d a) := by
  intro hw w h
  obtain rfl := Option.some.inj h
  refine (decode_packW _ _ _ _ _).trans ((decodeParts_Vmsk _ _ _ _).trans ?_)
  simp_all [decodeVmsk, Instr.wf, rmAssigned, precAssigned, scopeAssigned, BitVec.le_def]

theorem mfirst (s : Bool) (d : BitVec 5) (a : BitVec 3) : Statement (.mfirst s d a) := by
  intro hw w h
  obtain rfl := Option.some.inj h
  refine (decode_packW _ _ _ _ _).trans ((decodeParts_Vmsk _ _ _ _).trans ?_)
  simp_all [decodeVmsk, Instr.wf, rmAssigned, precAssigned, scopeAssigned, BitVec.le_def]

theorem mset (s : Bool) (d : BitVec 3) (a : BitVec 5) : Statement (.mset s d a) := by
  intro hw w h
  obtain rfl := Option.some.inj h
  refine (decode_packW _ _ _ _ _).trans ((decodeParts_Vmsk _ _ _ _).trans ?_)
  simp_all [decodeVmsk, Instr.wf, rmAssigned, precAssigned, scopeAssigned, BitVec.le_def]

theorem mget (s : Bool) (d : BitVec 5) (a : BitVec 3) : Statement (.mget s d a) := by
  intro hw w h
  obtain rfl := Option.some.inj h
  refine (decode_packW _ _ _ _ _).trans ((decodeParts_Vmsk _ _ _ _).trans ?_)
  simp_all [decodeVmsk, Instr.wf, rmAssigned, precAssigned, scopeAssigned, BitVec.le_def]

theorem vquant (s : Bool) (d a b : BitVec 5) (q : BitVec 3) : Statement (.vquant s d a b q) := by
  intro hw w h
  obtain rfl := Option.some.inj h
  refine (decode_packW _ _ _ _ _).trans ((decodeParts_Vq _ _ _ _).trans ?_)
  simp_all [decodeVq, Instr.wf, rmAssigned, precAssigned, scopeAssigned, BitVec.le_def]

theorem vdq (s : Bool) (d a b : BitVec 5) (q : BitVec 3) : Statement (.vdq s d a b q) := by
  intro hw w h
  obtain rfl := Option.some.inj h
  refine (decode_packW _ _ _ _ _).trans ((decodeParts_Vq _ _ _ _).trans ?_)
  simp_all [decodeVq, Instr.wf, rmAssigned, precAssigned, scopeAssigned, BitVec.le_def]

theorem vlaw (s : Bool) (d a b : BitVec 5) (q : BitVec 3) : Statement (.vlaw s d a b q) := by
  intro hw w h
  obtain rfl := Option.some.inj h
  refine (decode_packW _ _ _ _ _).trans ((decodeParts_Vq _ _ _ _).trans ?_)
  simp_all [decodeVq, Instr.wf, rmAssigned, precAssigned, scopeAssigned, BitVec.le_def]

theorem vtopk (s : Bool) (d a b : BitVec 5) (q : BitVec 3) : Statement (.vtopk s d a b q) := by
  intro hw w h
  obtain rfl := Option.some.inj h
  refine (decode_packW _ _ _ _ _).trans ((decodeParts_Vq _ _ _ _).trans ?_)
  simp_all [decodeVq, Instr.wf, rmAssigned, precAssigned, scopeAssigned, BitVec.le_def]

theorem vsp24 (s : Bool) (d a b : BitVec 5) (q : BitVec 3) : Statement (.vsp24 s d a b q) := by
  intro hw w h
  obtain rfl := Option.some.inj h
  refine (decode_packW _ _ _ _ _).trans ((decodeParts_Vq _ _ _ _).trans ?_)
  simp_all [decodeVq, Instr.wf, rmAssigned, precAssigned, scopeAssigned, BitVec.le_def]

theorem csrr (s : Bool) (d : BitVec 5) (n : BitVec 12) : Statement (.csrr s d n) := by
  intro hw w h
  obtain rfl := Option.some.inj h
  refine (decode_packW _ _ _ _ _).trans ((decodeParts_Csr _ _ _ _).trans ?_)
  simp_all [decodeCsr, Instr.wf, rmAssigned, precAssigned, scopeAssigned, BitVec.le_def]

theorem csrw (s : Bool) (d a : BitVec 5) (n : BitVec 12) : Statement (.csrw s d a n) := by
  intro hw w h
  obtain rfl := Option.some.inj h
  refine (decode_packW _ _ _ _ _).trans ((decodeParts_Csr _ _ _ _).trans ?_)
  simp_all [decodeCsr, Instr.wf, rmAssigned, precAssigned, scopeAssigned, BitVec.le_def]

theorem csrs (s : Bool) (d a : BitVec 5) (n : BitVec 12) : Statement (.csrs s d a n) := by
  intro hw w h
  obtain rfl := Option.some.inj h
  refine (decode_packW _ _ _ _ _).trans ((decodeParts_Csr _ _ _ _).trans ?_)
  simp_all [decodeCsr, Instr.wf, rmAssigned, precAssigned, scopeAssigned, BitVec.le_def]

theorem csrc (s : Bool) (d a : BitVec 5) (n : BitVec 12) : Statement (.csrc s d a n) := by
  intro hw w h
  obtain rfl := Option.some.inj h
  refine (decode_packW _ _ _ _ _).trans ((decodeParts_Csr _ _ _ _).trans ?_)
  simp_all [decodeCsr, Instr.wf, rmAssigned, precAssigned, scopeAssigned, BitVec.le_def]

theorem frd (s : Bool) (d : BitVec 5) (n : BitVec 12) : Statement (.frd s d n) := by
  intro hw w h
  obtain rfl := Option.some.inj h
  refine (decode_packW _ _ _ _ _).trans ((decodeParts_Csr _ _ _ _).trans ?_)
  simp_all [decodeCsr, Instr.wf, rmAssigned, precAssigned, scopeAssigned, BitVec.le_def]

theorem mxWr (s : Bool) (a b : BitVec 5) : Statement (.mxWr s a b) := by
  intro hw w h
  obtain rfl := Option.some.inj h
  refine (decode_packW _ _ _ _ _).trans ((decodeParts_Xeng _ _ _ _).trans ?_)
  simp_all [decodeXeng, Instr.wf, rmAssigned, precAssigned, scopeAssigned, BitVec.le_def]

theorem mxRd (s : Bool) (a d : BitVec 5) : Statement (.mxRd s a d) := by
  intro hw w h
  obtain rfl := Option.some.inj h
  refine (decode_packW _ _ _ _ _).trans ((decodeParts_Xeng _ _ _ _).trans ?_)
  simp_all [decodeXeng, Instr.wf, rmAssigned, precAssigned, scopeAssigned, BitVec.le_def]

theorem mxLs (s : Bool) (a d : BitVec 5) : Statement (.mxLs s a d) := by
  intro hw w h
  obtain rfl := Option.some.inj h
  refine (decode_packW _ _ _ _ _).trans ((decodeParts_Xeng _ _ _ _).trans ?_)
  simp_all [decodeXeng, Instr.wf, rmAssigned, precAssigned, scopeAssigned, BitVec.le_def]

theorem mxStr (s : Bool) (a d : BitVec 5) : Statement (.mxStr s a d) := by
  intro hw w h
  obtain rfl := Option.some.inj h
  refine (decode_packW _ _ _ _ _).trans ((decodeParts_Xeng _ _ _ _).trans ?_)
  simp_all [decodeXeng, Instr.wf, rmAssigned, precAssigned, scopeAssigned, BitVec.le_def]

theorem mxDrn (s : Bool) (a d : BitVec 5) : Statement (.mxDrn s a d) := by
  intro hw w h
  obtain rfl := Option.some.inj h
  refine (decode_packW _ _ _ _ _).trans ((decodeParts_Xeng _ _ _ _).trans ?_)
  simp_all [decodeXeng, Instr.wf, rmAssigned, precAssigned, scopeAssigned, BitVec.le_def]

theorem mxZer (s : Bool) (a d : BitVec 5) : Statement (.mxZer s a d) := by
  intro hw w h
  obtain rfl := Option.some.inj h
  refine (decode_packW _ _ _ _ _).trans ((decodeParts_Xeng _ _ _ _).trans ?_)
  simp_all [decodeXeng, Instr.wf, rmAssigned, precAssigned, scopeAssigned, BitVec.le_def]

theorem mxPoll (s : Bool) (a d : BitVec 5) : Statement (.mxPoll s a d) := by
  intro hw w h
  obtain rfl := Option.some.inj h
  refine (decode_packW _ _ _ _ _).trans ((decodeParts_Xeng _ _ _ _).trans ?_)
  simp_all [decodeXeng, Instr.wf, rmAssigned, precAssigned, scopeAssigned, BitVec.le_def]

theorem mxSlp (s : Bool) (a d : BitVec 5) : Statement (.mxSlp s a d) := by
  intro hw w h
  obtain rfl := Option.some.inj h
  refine (decode_packW _ _ _ _ _).trans ((decodeParts_Xeng _ _ _ _).trans ?_)
  simp_all [decodeXeng, Instr.wf, rmAssigned, precAssigned, scopeAssigned, BitVec.le_def]

theorem mxCan (s : Bool) (a : BitVec 5) : Statement (.mxCan s a) := by
  intro hw w h
  obtain rfl := Option.some.inj h
  refine (decode_packW _ _ _ _ _).trans ((decodeParts_Xeng _ _ _ _).trans ?_)
  simp_all [decodeXeng, Instr.wf, rmAssigned, precAssigned, scopeAssigned, BitVec.le_def]

theorem cpPush (s : Bool) (a b : BitVec 5) : Statement (.cpPush s a b) := by
  intro hw w h
  obtain rfl := Option.some.inj h
  refine (decode_packW _ _ _ _ _).trans ((decodeParts_Xeng _ _ _ _).trans ?_)
  simp_all [decodeXeng, Instr.wf, rmAssigned, precAssigned, scopeAssigned, BitVec.le_def]

theorem cpTry (s : Bool) (a b d : BitVec 5) : Statement (.cpTry s a b d) := by
  intro hw w h
  obtain rfl := Option.some.inj h
  refine (decode_packW _ _ _ _ _).trans ((decodeParts_Xeng _ _ _ _).trans ?_)
  simp_all [decodeXeng, Instr.wf, rmAssigned, precAssigned, scopeAssigned, BitVec.le_def]

theorem cpPoll (s : Bool) (a d : BitVec 5) : Statement (.cpPoll s a d) := by
  intro hw w h
  obtain rfl := Option.some.inj h
  refine (decode_packW _ _ _ _ _).trans ((decodeParts_Xeng _ _ _ _).trans ?_)
  simp_all [decodeXeng, Instr.wf, rmAssigned, precAssigned, scopeAssigned, BitVec.le_def]

theorem cpCan (s : Bool) (a : BitVec 5) : Statement (.cpCan s a) := by
  intro hw w h
  obtain rfl := Option.some.inj h
  refine (decode_packW _ _ _ _ _).trans ((decodeParts_Xeng _ _ _ _).trans ?_)
  simp_all [decodeXeng, Instr.wf, rmAssigned, precAssigned, scopeAssigned, BitVec.le_def]

theorem hsWr (s : Bool) (a b : BitVec 5) : Statement (.hsWr s a b) := by
  intro hw w h
  obtain rfl := Option.some.inj h
  refine (decode_packW _ _ _ _ _).trans ((decodeParts_Xeng _ _ _ _).trans ?_)
  simp_all [decodeXeng, Instr.wf, rmAssigned, precAssigned, scopeAssigned, BitVec.le_def]

theorem hsRd (s : Bool) (a d : BitVec 5) : Statement (.hsRd s a d) := by
  intro hw w h
  obtain rfl := Option.some.inj h
  refine (decode_packW _ _ _ _ _).trans ((decodeParts_Xeng _ _ _ _).trans ?_)
  simp_all [decodeXeng, Instr.wf, rmAssigned, precAssigned, scopeAssigned, BitVec.le_def]

theorem hsEnt (s : Bool) (a b d : BitVec 5) : Statement (.hsEnt s a b d) := by
  intro hw w h
  obtain rfl := Option.some.inj h
  refine (decode_packW _ _ _ _ _).trans ((decodeParts_Xeng _ _ _ _).trans ?_)
  simp_all [decodeXeng, Instr.wf, rmAssigned, precAssigned, scopeAssigned, BitVec.le_def]

theorem hsTry (s : Bool) (a b d : BitVec 5) : Statement (.hsTry s a b d) := by
  intro hw w h
  obtain rfl := Option.some.inj h
  refine (decode_packW _ _ _ _ _).trans ((decodeParts_Xeng _ _ _ _).trans ?_)
  simp_all [decodeXeng, Instr.wf, rmAssigned, precAssigned, scopeAssigned, BitVec.le_def]

theorem hsPass (s : Bool) (a b : BitVec 5) : Statement (.hsPass s a b) := by
  intro hw w h
  obtain rfl := Option.some.inj h
  refine (decode_packW _ _ _ _ _).trans ((decodeParts_Xeng _ _ _ _).trans ?_)
  simp_all [decodeXeng, Instr.wf, rmAssigned, precAssigned, scopeAssigned, BitVec.le_def]

theorem hsDrop (s : Bool) : Statement (.hsDrop s) := by
  intro hw w h
  obtain rfl := Option.some.inj h
  refine (decode_packW _ _ _ _ _).trans ((decodeParts_Xeng _ _ _ _).trans ?_)
  simp_all [decodeXeng, Instr.wf, rmAssigned, precAssigned, scopeAssigned, BitVec.le_def]

theorem hsStat (s : Bool) (a b d : BitVec 5) : Statement (.hsStat s a b d) := by
  intro hw w h
  obtain rfl := Option.some.inj h
  refine (decode_packW _ _ _ _ _).trans ((decodeParts_Xeng _ _ _ _).trans ?_)
  simp_all [decodeXeng, Instr.wf, rmAssigned, precAssigned, scopeAssigned, BitVec.le_def]

theorem barCfg (s : Bool) (a b : BitVec 5) : Statement (.barCfg s a b) := by
  intro hw w h
  obtain rfl := Option.some.inj h
  refine (decode_packW _ _ _ _ _).trans ((decodeParts_Xeng _ _ _ _).trans ?_)
  simp_all [decodeXeng, Instr.wf, rmAssigned, precAssigned, scopeAssigned, BitVec.le_def]

theorem barArr (s : Bool) (a : BitVec 5) : Statement (.barArr s a) := by
  intro hw w h
  obtain rfl := Option.some.inj h
  refine (decode_packW _ _ _ _ _).trans ((decodeParts_Xeng _ _ _ _).trans ?_)
  simp_all [decodeXeng, Instr.wf, rmAssigned, precAssigned, scopeAssigned, BitVec.le_def]

theorem barWait (s : Bool) (a : BitVec 5) : Statement (.barWait s a) := by
  intro hw w h
  obtain rfl := Option.some.inj h
  refine (decode_packW _ _ _ _ _).trans ((decodeParts_Xeng _ _ _ _).trans ?_)
  simp_all [decodeXeng, Instr.wf, rmAssigned, precAssigned, scopeAssigned, BitVec.le_def]

theorem barAw (s : Bool) (a : BitVec 5) : Statement (.barAw s a) := by
  intro hw w h
  obtain rfl := Option.some.inj h
  refine (decode_packW _ _ _ _ _).trans ((decodeParts_Xeng _ _ _ _).trans ?_)
  simp_all [decodeXeng, Instr.wf, rmAssigned, precAssigned, scopeAssigned, BitVec.le_def]

theorem barAf (s : Bool) (a b : BitVec 5) : Statement (.barAf s a b) := by
  intro hw w h
  obtain rfl := Option.some.inj h
  refine (decode_packW _ _ _ _ _).trans ((decodeParts_Xeng _ _ _ _).trans ?_)
  simp_all [decodeXeng, Instr.wf, rmAssigned, precAssigned, scopeAssigned, BitVec.le_def]

theorem barRd (s : Bool) (a d : BitVec 5) : Statement (.barRd s a d) := by
  intro hw w h
  obtain rfl := Option.some.inj h
  refine (decode_packW _ _ _ _ _).trans ((decodeParts_Xeng _ _ _ _).trans ?_)
  simp_all [decodeXeng, Instr.wf, rmAssigned, precAssigned, scopeAssigned, BitVec.le_def]

theorem redCfg (s : Bool) (a b : BitVec 5) : Statement (.redCfg s a b) := by
  intro hw w h
  obtain rfl := Option.some.inj h
  refine (decode_packW _ _ _ _ _).trans ((decodeParts_Xeng _ _ _ _).trans ?_)
  simp_all [decodeXeng, Instr.wf, rmAssigned, precAssigned, scopeAssigned, BitVec.le_def]

theorem redRd (s : Bool) (a d : BitVec 5) : Statement (.redRd s a d) := by
  intro hw w h
  obtain rfl := Option.some.inj h
  refine (decode_packW _ _ _ _ _).trans ((decodeParts_Xeng _ _ _ _).trans ?_)
  simp_all [decodeXeng, Instr.wf, rmAssigned, precAssigned, scopeAssigned, BitVec.le_def]

theorem once : Statement .once := by
  intro _ w h
  obtain rfl := Option.some.inj h
  exact decode_packW _ _ _ _ _

theorem firingCreate (ctx lc ch : Nat) : Statement (.firingCreate ctx lc ch) := nofun

theorem firingDispatch (core slot : Nat) : Statement (.firingDispatch core slot) := nofun

theorem firingAging (i : Nat) : Statement (.firingAging i) := nofun

theorem timeSliceEnd (ctx lc : Nat) : Statement (.timeSliceEnd ctx lc) := nofun

theorem chunkClose (core slot : Nat) : Statement (.chunkClose core slot) := nofun

theorem chunkCommit (core slot : Nat) : Statement (.chunkCommit core slot) := nofun

theorem chunkSquash (core slot : Nat) : Statement (.chunkSquash core slot) := nofun

theorem exclusiveCommitGrant  : Statement (.exclusiveCommitGrant) := nofun

theorem abortWaitTimeout (core slot : Nat) : Statement (.abortWaitTimeout core slot) := nofun

theorem messageDeliver (i : Nat) : Statement (.messageDeliver i) := nofun

theorem trapReply (i : Nat) : Statement (.trapReply i) := nofun

theorem commandTake (cluster : Nat) (e : Engine) (head : TakenHead) : Statement (.commandTake cluster e head) := nofun

theorem readElement (cluster : Nat) (e : Engine) (job elem : Nat) (view : ReadView) : Statement (.readElement cluster e job elem view) := nofun

theorem perform (cluster : Nat) (e : Engine) (job elem : Nat) : Statement (.perform cluster e job elem) := nofun

theorem apply (i : Nat) : Statement (.apply i) := nofun

theorem postCompletion (cluster : Nat) (e : Engine) (job : Nat) : Statement (.postCompletion cluster e job) := nofun

theorem oncePosting (core slot : Nat) : Statement (.oncePosting core slot) := nofun

theorem faultReplyArrival (i : Nat) : Statement (.faultReplyArrival i) := nofun

theorem copyOpCopy (cluster job e0 e1 : Nat) : Statement (.copyOpCopy cluster job e0 e1) := nofun

theorem copyOpGather (cluster job e0 e1 : Nat) : Statement (.copyOpGather cluster job e0 e1) := nofun

theorem copyOpScatter (cluster job e0 e1 : Nat) : Statement (.copyOpScatter cluster job e0 e1) := nofun

theorem copyOpFill (cluster job e0 e1 : Nat) : Statement (.copyOpFill cluster job e0 e1) := nofun

theorem copyOpConvert (cluster job e0 e1 : Nat) : Statement (.copyOpConvert cluster job e0 e1) := nofun

theorem ringsweep (cluster job e0 e1 : Nat) : Statement (.ringsweep cluster job e0 e1) := nofun

theorem regran (cluster job line : Nat) : Statement (.regran cluster job line) := nofun

theorem regranRelease (cluster job : Nat) : Statement (.regranRelease cluster job) := nofun

theorem nanWindowClose (cluster ctx wg : Nat) : Statement (.nanWindowClose cluster ctx wg) := nofun

theorem hsEntryDelivery (i : Nat) : Statement (.hsEntryDelivery i) := nofun

theorem hsDispatch (ctx lcl set stage : Nat) : Statement (.hsDispatch ctx lcl set stage) := nofun

theorem hsVerdictDelivery (i : Nat) : Statement (.hsVerdictDelivery i) := nofun

theorem reductionResult (ctx group : Nat) : Statement (.reductionResult ctx group) := nofun

theorem gvtSweep (ctx : Nat) : Statement (.gvtSweep ctx) := nofun

theorem flushMarker (core router : Nat) : Statement (.flushMarker core router) := nofun

theorem migGoCompletion (i : Nat) : Statement (.migGoCompletion i) := nofun

theorem ctxStopCompletion (i : Nat) : Statement (.ctxStopCompletion i) := nofun

theorem ctxGoCompletion (i : Nat) : Statement (.ctxGoCompletion i) := nofun

theorem inboxReplay (ctx lc : Nat) : Statement (.inboxReplay ctx lc) := nofun

theorem inboxRetry (i : Nat) : Statement (.inboxRetry i) := nofun

theorem rectFence (u : UnitKind) (num : Nat) : Statement (.rectFence u num) := nofun

theorem scratchpadError (ctx lc off : Nat) (fatal : Bool) : Statement (.scratchpadError ctx lc off fatal) := nofun

theorem clusterStateError (cluster : Nat) (u : UnitKind) (what : UnitError) : Statement (.clusterStateError cluster u what) := nofun

theorem thresholdRecord (u : UnitKind) (num : Nat) (pass : Bool) : Statement (.thresholdRecord u num pass) := nofun

theorem llcFill (pa ctx gran keyid : Nat) : Statement (.llcFill pa ctx gran keyid) := nofun

theorem llcWriteback (pa : Nat) : Statement (.llcWriteback pa) := nofun

theorem scrub (pa : Nat) : Statement (.scrub pa) := nofun

theorem llcSliceOffline (slice : Nat) (what : LlcError) : Statement (.llcSliceOffline slice what) := nofun

theorem budgetPeriod : Statement .budgetPeriod := nofun

theorem hostMemoryRead (ctx ia n : Nat) : Statement (.hostMemoryRead ctx ia n) := nofun

theorem hostMemoryWrite (ctx ia : Nat) (data : List Byte) : Statement (.hostMemoryWrite ctx ia data) := nofun

theorem hostMessage (ctx : Nat) (m : OutsideMsg) : Statement (.hostMessage ctx m) := nofun

theorem hostLoadResponse (core slot : Nat) (refused : Bool) (data : List (Nat × Byte)) :
    Statement (.hostLoadResponse core slot refused data) := nofun

theorem hostStoreRefusal (i : Nat) : Statement (.hostStoreRefusal i) := nofun

theorem flitReplay (flit : PortFlit) : Statement (.flitReplay flit) := nofun

theorem portRetrain (port : Nat) (retrained : Retrain) : Statement (.portRetrain port retrained) := nofun

theorem fabricMessageTimeout (i : Nat) : Statement (.fabricMessageTimeout i) := nofun

theorem fabricAck (pkg num : Nat) (arrived : Option OutsideMsg) : Statement (.fabricAck pkg num arrived) := nofun

theorem timeBaseSync (offset : Int) : Statement (.timeBaseSync offset) := nofun

theorem boot (images : List BootImage) : Statement (.boot images) := nofun

theorem getVersion  : Statement (.getVersion) := nofun

theorem getCapabilities : Statement .getCapabilities := nofun

theorem negotiateAlgorithms : Statement .negotiateAlgorithms := nofun

theorem getDigests  : Statement (.getDigests) := nofun

theorem getCertificate (off len : Nat) : Statement (.getCertificate off len) := nofun

theorem challenge (req : ChallengeRequest) : Statement (.challenge req) := nofun

theorem getMeasurements (req : MeasureRequest) : Statement (.getMeasurements req) := nofun

theorem contextCreation (c : CtxSpec) : Statement (.contextCreation c) := nofun

theorem keySlotWrite (slot : Nat) (key1 key2 : BitVec 256) : Statement (.keySlotWrite slot key1 key2) := nofun

theorem gangStopByManagement (ctx : Nat) : Statement (.gangStopByManagement ctx) := nofun

theorem tlbInvAcknowledgement (i : Nat) : Statement (.tlbInvAcknowledgement i) := nofun

theorem wgTablesApplied (i : Nat) : Statement (.wgTablesApplied i) := nofun

theorem hostStoreAcceptance (i : Nat) : Statement (.hostStoreAcceptance i) := nofun

end Sys2Proof.Laws.EncodesBack
end

