-- ==== Sys2Proof/Tests/Slice0.lean ====
section
/-! SUPPORT. Tests: ill-formed terms that WellFormed refuses, words written out from the spec's encoding tables, worked
examples of the spec, and for each statement of Certificates/Slice0/Obligations.lean states and operands that meet its
hypotheses (witness_*). Expected values come from the spec's tables and examples, or by hand from its rules. -/

namespace Sys2Proof.Tests

open Sys2Proof Sys2Proof.Machine

set_option maxRecDepth 20000

/-! ### Small states -/

/-- A result that is there. -/
def okB {ε α : Type} (x : Except ε α) : Bool := match x with
  | .ok _ => true
  | .error _ => false

theorem ok_of {ε α : Type} {x : Except ε α} (h : okB x = true) : ∃ r, x = .ok r := by
  cases x with
  | ok r => exact ⟨r, rfl⟩
  | error e => simp [okB] at h

theorem error_of {ε α : Type} {x : Except ε α} (h : okB x = false) : ∃ e, x = .error e := by
  cases x with
  | ok r => simp [okB] at h
  | error e => exact ⟨e, rfl⟩

/-- A step of an instruction that answers a next state with a property. -/
def leads (i : Instr) (s : State) (p : State → Bool) : Bool := match exec i s with
  | .next t => p t
  | _ => false

/-- Registers with some g registers set. -/
def regsOf (l : List (Nat × Word)) : Regs :=
  { g := l.foldl (fun v p => v.setIfInBounds p.1 p.2) (Vector.replicate 32 0) }

/-- A slot of context 1, logical core 0, at the start of a group, with some g registers set. -/
def slotOf (l : List (Nat × Word)) : Slot :=
  let r := regsOf l
  { active := true, firing := { ctx := 1 }, reg := r, land := r.landing, start := r, ckpt := r }

/-- A vector register with some lanes set. -/
def vregOf (l : List (Nat × Lane)) : VReg := l.foldl (fun v p => v.setIfInBounds p.1 p.2) (Vector.replicate 32 0)

/-- A slot with some v registers set. -/
def withV (f : Slot) (l : List (Nat × VReg)) : Slot :=
  { f with reg := { f.reg with v := l.foldl (fun v p => v.setIfInBounds p.1 p.2) f.reg.v } }

/-- A slot with some m registers set. -/
def withM (f : Slot) (l : List (Nat × Lane)) : Slot :=
  { f with reg := { f.reg with m := l.foldl (fun v p => v.setIfInBounds p.1 p.2) f.reg.m } }

/-- A translation of a 64 KiB page of context 1 to the physical page of the same number plus 1; rights R, W, X, RO as
bits 0, 1, 2 and 10 of the second word. -/
def entryOf (page : Nat) (rights : Nat) : TlbEntry :=
  ⟨BitVec.ofNat 64 (1 + page * 2 ^ 16), BitVec.ofNat 64 ((page + 1) * 2 ^ 16 + rights)⟩

/-- Context 1 with logical cores 0 and 1 on physical core 0, its object table at 2^46; pages 1 (R, W, X), 2 (R), 3 (none). -/
def small (f : Slot) : State :=
  { State.reset with
    focus := f
    ctxs := [{ id := 1, state := 1, objbase := 0x400000000000#64, lawbase := 0x10000#64, lcores := [{ n := 0 }, { n := 1 }] }]
    cores := [{ id := 0, tlb := [entryOf 1 7, entryOf 2 1, entryOf 3 0] }] }

/-- The attributes of those pages. -/
def own : Attr := ⟨1, 0, 0⟩

/-- The small state with memory holding l at the physical address of page 1 (0x20000), and 32 bytes at 0x20040 poisoned; the LLC
holds 512 bytes from there. -/
def withMem (l : List Byte) (f : Slot) : State :=
  { small f with mem := cellWriteList [] 0x20000 l, poison := [(0x20040, 32)]
                 llc := (List.range 4).map fun i => ⟨0x400 + i, own, 15, 0⟩ }

/-- A chunk that holds one effect. -/
def holding (f : Slot) (h : Held) : Slot := { f with chunk := { f.chunk with held := [h] } }
/-! ### WellFormed (R2, R3, R56, R57, R131, R159, R168) -/

theorem test_wf_scope : (Instr.fence false 5).wf = true ∧ (Instr.fence false 6).wf = false := by decide
theorem test_wf_csr : (Instr.csrr false 1 0x803).wf = true ∧ (Instr.csrr false 1 0x004).wf = false
    ∧ (Instr.csrw false 1 2 0x014).wf = false ∧ (Instr.csrs false 1 2 0x028).wf = false
    ∧ (Instr.csrc false 1 2 0x804).wf = false := by decide
theorem test_wf_frd : (Instr.frd false 1 6).wf = true ∧ (Instr.frd false 1 7).wf = false := by decide
theorem test_wf_rounding : (Instr.vcvtFI false 1 2 6 0).wf = true ∧ (Instr.vcvtFI false 1 2 7 0).wf = false
    ∧ (Instr.vnarrow false 1 2 7 0 0).wf = false ∧ (Instr.vpack false 1 2 7 0 0).wf = false := by decide
theorem test_wf_precision : (Instr.vfnExp2 false 1 2 0 2).wf = true ∧ (Instr.vfnErf false 1 2 0 3).wf = false := by decide
theorem test_wf_units : (Instr.firingCreate 255 4095 63).wf = true ∧ (Instr.firingCreate 255 4095 64).wf = false
    ∧ (Instr.chunkCommit 1151 3).wf = true ∧ (Instr.chunkCommit 1152 3).wf = false ∧ (Instr.chunkClose 0 4).wf = false
    ∧ (Instr.timeSliceEnd 256 0).wf = false ∧ (Instr.commandTake 128 .copy ⟨0, none⟩).wf = false
    ∧ (Instr.scratchpadError 0 0 2097152 true).wf = false ∧ (Instr.keySlotWrite 1024 0 0).wf = false
    ∧ (Instr.reductionResult 0 64).wf = false ∧ (Instr.hsDispatch 0 0 4 0).wf = false := by decide

/-- A logical core's description. -/
def coreSpec (n lsz : Nat) (image : List Byte) : LCoreSpec :=
  { n := n, lsz := lsz, pcore := 0, hidx := 0, dual := none, table := [], image := image }

/-- A context's description. -/
def ctxSpec (ctx : Nat) (l : List LCoreSpec) : CtxSpec :=
  { ctx := ctx, cores := l, lawBase := 0, objBase := 0x400000000000#64, trapSave := 0, root := 0, dlBase := 0, fpol := 0
    fpn := 0, svBase := 0, svSize := 0, inbox := 0, keyid := 0, hostOk := true, pages := [] }

/-- A message from outside. -/
def outside (payload : List Byte) : OutsideMsg :=
  { dst := 0, ch := 5, wfmt := 0, ordered := false, ts := 0, payload := payload, ctx := 1, src := 0, spkg := 0, seq := 0, fid := 0 }

theorem test_wf_context : (Instr.contextCreation (ctxSpec 1 [coreSpec 0 65536 []])).wf = true
    ∧ (Instr.contextCreation (ctxSpec 256 [])).wf = false ∧ (Instr.contextCreation (ctxSpec 1 [coreSpec 4096 65536 []])).wf = false
    ∧ (Instr.contextCreation (ctxSpec 1 [coreSpec 0 65537 []])).wf = false
    ∧ (Instr.contextCreation (ctxSpec 1 [coreSpec 0 0 []])).wf = false := by decide
theorem test_wf_message : (Instr.hostMessage 1 (outside (List.replicate 64 0))).wf = true
    ∧ (Instr.hostMessage 1 (outside (List.replicate 65 0))).wf = false
    ∧ (Instr.hostMessage 1 { outside (List.replicate 65 0) with what := .roundSum 0 0 0 0 }).wf = true := by decide

/-! ### Words of the spec's encoding tables (R39 to R57 and the tables of each chapter) -/

theorem test_decode_scalar : decode 0x04500000#32 = .ok (.addi false 5 0 0) ∧ decode 0x12600201#32 = .ok (.lui false 6 0x201)
    ∧ decode 0x02528400#32 = .ok (.add false 5 5 1) ∧ decode 0x03083C06#32 = .ok (.sll false 16 16 15)
    ∧ decode 0x1032301F#32 = .ok (.slliw false 3 4 31) ∧ decode 0x02A2A416#32 = .ok (.ext false 10 5 9)
    ∧ decode 0x02603417#32 = .ok (.ins false 6 0 13) ∧ decode 0x02C28011#32 = .ok (.clz false 12 5)
    ∧ decode 0x0A730007#32 = .ok (.xori false 7 6 7) := by decide
theorem test_decode_muldiv : decode 0x16628004#32 = .ok (.divu false 6 5 0) ∧ decode 0x16728006#32 = .ok (.remu false 7 5 0) := by decide
theorem test_decode_branch : decode 0x9A107FFE#32 = .ok (.bne true 1 0 (-2)) := by decide
theorem test_decode_system : decode 0xAA000001#32 = .ok (.fin true) ∧ decode 0x2A000000#32 = .ok (.nop false)
    ∧ decode 0x50800000#32 = .ok (.csrr false 8 0) ∧ decode 0x50404001#32 = .ok (.frd false 4 1) := by decide
theorem test_decode_privileged : decode 0x2A029820#32 = .ok (.tlbWr false 5 6) ∧ decode 0x2A029821#32 = .ok (.tlbInv false 5 6)
    ∧ decode 0x2A729822#32 = .ok (.tlbRd false 7 5 6) ∧ decode 0x2A029823#32 = .ok (.fltRply false 5 6)
    ∧ decode 0x2A029824#32 = .ok (.rectSet false 5 6) ∧ decode 0x2A029825#32 = .ok (.migGo false 5 6)
    ∧ decode 0x2A028026#32 = .ok (.ctxStop false 5) ∧ decode 0x2A029827#32 = .ok (.ctxGo false 5 6) := by decide
theorem test_decode_load : decode 0xAD586000#32 = .ok (.ldD true 21 16 0) ∧ decode 0xACB71000#32 = .ok (.ldBu true 11 14 0)
    ∧ decode 0x2D93C024#32 = .ok (.ldW false 25 7 0x24) := by decide
theorem test_decode_store : decode 0x2E532000#32 = .ok (.stW false 5 6 0) ∧ decode 0x2E84B000#32 = .ok (.stD false 8 9 0)
    ∧ decode 0x2FD480D0#32 = .ok (.stB false 29 9 0xD0) := by decide
theorem test_decode_vector_memory : decode 0xB0258400#32 = .ok (.vldW true 2 11 2 0) ∧ decode 0x327A0200#32 = .ok (.vstW false 7 20 1 0)
    ∧ decode 0x34114400#32 = .ok (.vldt false 1 5 2 0) := by decide
theorem test_decode_atomic : decode 0x38742402#32 = .ok (.amoOr false 7 8 9 0) ∧ decode 0xB8B52000#32 = .ok (.amoAdd true 11 10 8 0)
    ∧ decode 0x38042700#32 = .ok (.pamoAdd false 8 9 1) := by decide
theorem test_decode_message : decode 0x3A062400#32 = .ok (.send false 12 9) ∧ decode 0x3AC72402#32 = .ok (.sendm false 12 14 9)
    ∧ decode 0x3A029C03#32 = .ok (.sendr false 5 7) ∧ decode 0x3A500004#32 = .ok (.mld false 5 0 0) := by decide
theorem test_decode_order : decode 0x3C000C01#32 = .ok (.fence false 3) ∧ decode 0x3C000000#32 = .ok (.commit false)
    ∧ decode 0x7C000000#32 = .ok .once := by decide
theorem test_decode_ring : decode 0xBE448000#32 = .ok (.rwLd true 2 9) ∧ decode 0x3EA41C02#32 = .ok (.rwSet false 5 8 7)
    ∧ decode 0x3E640004#32 = .ok (.rwArm false 3 8) ∧ decode 0x3E748006#32 = .ok (.rwHdr false 7 9)
    ∧ decode 0x3E029807#32 = .ok (.lawWr false 5 6) ∧ decode 0x3E029809#32 = .ok (.clkAdv false 5 6) := by decide
theorem test_decode_vector : decode 0x40410C89#32 = .ok (.vfma false 4 2 3 1) ∧ decode 0x4022980D#32 = .ok (.vcmpltF false 2 5 6 0)
    ∧ decode 0x42300010#32 = .ok (.vbcast false 3 0 0) ∧ decode 0x42128012#32 = .ok (.vins false 1 5 0)
    ∧ decode 0x42B18011#32 = .ok (.vext false 11 3 0) := by decide
theorem test_decode_conversion : decode 0x448490C3#32 = .ok (.vcvtBfF false 8 9 1 3)
    ∧ decode 0x44915246#32 = .ok (.vnarrow false 9 2 5 1 1) := by decide
theorem test_decode_reduction : decode 0xC6708000#32 = .ok (.vrsumF true 7 1 0) ∧ decode 0x46638004#32 = .ok (.vrsumX false 3 7 0)
    ∧ decode 0xC6E08081#32 = .ok (.vrmaxF true 14 1 1) := by decide
theorem test_decode_function : decode 0xCA320120#32 = .ok (.vfnExp2 true 3 4 2 1) ∧ decode 0xCA420080#32 = .ok (.vfnExp2 true 4 4 1 0) := by decide
theorem test_decode_mask_quant : decode 0x4C310004#32 = .ok (.mpop false 3 2) ∧ decode 0x4EA5B000#32 = .ok (.vquant false 10 11 12 0)
    ∧ decode 0x4E321402#32 = .ok (.vlaw false 3 4 5 0) := by decide
theorem test_decode_engine : decode 0x60530000#32 = .ok (.mxWr false 5 6) ∧ decode 0x60802402#32 = .ok (.mxLs false 8 9)
    ∧ decode 0x60802803#32 = .ok (.mxStr false 8 10) ∧ decode 0x60802C04#32 = .ok (.mxDrn false 8 11)
    ∧ decode 0x60B03007#32 = .ok (.mxSlp false 11 12) ∧ decode 0x60638040#32 = .ok (.cpPush false 6 7)
    ∧ decode 0x6063A441#32 = .ok (.cpTry false 6 7 9) ∧ decode 0x60702442#32 = .ok (.cpPoll false 7 9) := by decide
theorem test_decode_barrier : decode 0x605300C0#32 = .ok (.barCfg false 5 6) ∧ decode 0x605000C1#32 = .ok (.barArr false 5)
    ∧ decode 0x605000C2#32 = .ok (.barWait false 5) ∧ decode 0xE05000C3#32 = .ok (.barAw true 5)
    ∧ decode 0x605300C4#32 = .ok (.barAf false 5 6) ∧ decode 0x60501CC5#32 = .ok (.barRd false 5 7)
    ∧ decode 0x60530100#32 = .ok (.redCfg false 5 6) ∧ decode 0x60501D01#32 = .ok (.redRd false 5 7) := by decide
theorem test_decode_hurdle : decode 0x60530080#32 = .ok (.hsWr false 5 6) ∧ decode 0x60501C81#32 = .ok (.hsRd false 5 7)
    ∧ decode 0x60532482#32 = .ok (.hsEnt false 5 6 9) ∧ decode 0x60532483#32 = .ok (.hsTry false 5 6 9)
    ∧ decode 0x60000084#32 = .ok (.hsPass false 0 0) ∧ decode 0x60000085#32 = .ok (.hsDrop false)
    ∧ decode 0x60531C86#32 = .ok (.hsStat false 5 6 7) := by decide

/-- R46 to R57: words put together from the encoding tables for families without a listed word: `JAL` two words back,
`J` 16 words on, `JALR g1, g30, 0`, `ADDW g3, g1, g2`, `VADD.I v1, v2, v3 {m4}`, `VPERM v1, v2, v3`, `VGATH v1, v2, g3`,
`MAND m1, m2, m3`, `CSRW g1, SPECWIN, g2`, `TT.WR g1, g2`, `TILE.DEF g1` and `ABORT g1`. -/
theorem test_decode_built : decode 0x25FFFFFE#32 = .ok (.jal false (-2)) ∧ decode 0x26000010#32 = .ok (.j false 16)
    ∧ decode 0x281F0000#32 = .ok (.jalr false 1 30 0) ∧ decode 0x02308A00#32 = .ok (.addw false 3 1 2)
    ∧ decode 0x42110E00#32 = .ok (.vaddI false 1 2 3 4) ∧ decode 0x48110C00#32 = .ok (.vperm false 1 2 3 0)
    ∧ decode 0x36110C00#32 = .ok (.vgath false 1 2 3 0) ∧ decode 0x4C110C00#32 = .ok (.mand false 1 2 3)
    ∧ decode 0x50111020#32 = .ok (.csrw false 1 2 0x020) ∧ decode 0x3A008806#32 = .ok (.ttWr false 1 2)
    ∧ decode 0x3C008005#32 = .ok (.tileDef false 1) ∧ decode 0x3C008002#32 = .ok (.abort false 1) := by decide

/-- R60: a reserved major, an OPR selector that W does not take, a reserved field set, and an unassigned CSR are refused. -/
theorem test_decode_refused : okB (decode 0x7E000000#32) = false ∧ okB (decode 0x02000202#32) = false
    ∧ okB (decode 0x02C28411#32) = false ∧ okB (decode 0x50800004#32) = false := by decide
/-! ### Witnesses: registers, groups, scalar instructions -/

/-- g1 = 4, g2 = 6. -/
def s46 : State := small (slotOf [(1, 4), (2, 6)])

theorem witness_BranchesAndJumps :
    (BitVec.ofInt 64 ((s46.focus.gr 1).toInt + (0 : BitVec 15).toInt)).toNat % 4 = 0
    ∧ (BitVec.ofInt 64 ((s46.focus.gr 2).toInt + (0 : BitVec 15).toInt)).toNat % 4 ≠ 0 := by decide

theorem witness_GroupLanding : (false = false ∧ ({ s46.focus with glen := 62 } : Slot).glen + 1 < 64)
    ∧ (true = true ∨ 64 ≤ s46.focus.glen + 1) ∧ (false = true ∨ 64 ≤ ({ s46.focus with glen := 63 } : Slot).glen + 1) := by decide

theorem witness_RegisterWrites : (1 : BitVec 5) ≠ 0 ∧ (31 : BitVec 5) ≠ 0 := by decide

theorem witness_ScalarFrame : scalarDest (.div false 3 1 2) = some 3 ∧ (∃ t, exec (.div false 3 1 2) s46 = .next t)
    ∧ scalarDest (.beq false 1 2 0) = some 0 ∧ (∃ t, exec (.beq false 1 2 0) s46 = .next t)
    ∧ scalarDest (.jal true 5) = some 31 ∧ ∃ t, exec (.jal true 5) s46 = .next t := ⟨rfl, ⟨_, rfl⟩, rfl, ⟨_, rfl⟩, rfl, ⟨_, rfl⟩⟩

theorem witness_RoundingKeepsCodes : (exact32 0x80000000#32).isNan = false ∧ (exact32 0x7F800000#32).isNan = false
    ∧ (exact32 0x00000001#32).isNan = false ∧ (exact32 0x7F7FFFFF#32).isNan = false := by decide

/-- m1 = lanes 1 and 31. -/
def sM : State := small (withM (slotOf []) [(1, 0x80000002)])

theorem witness_VectorPermutations : activeLane sM 1 31 = true ∧ ((Finset.range 31).filter fun j => activeLane sM 1 j).card < 32
    ∧ ((Finset.range 32).filter fun j => activeLane sM 1 j).card ≤ 2 := by decide

/-! ### Worked examples of the spec and hand results, one step each -/

/-- R115: 100 divided by 0: the quotient all ones, the remainder 100, DZ. -/
theorem test_divu_by_zero : leads (.divu false 6 5 0) (small (slotOf [(5, 100)])) (fun t =>
    decide (t.focus.gr 6 = 0xFFFFFFFFFFFFFFFF) && decide (t.focus.reg.flags = 8)) = true := by decide
theorem test_remu_by_zero : leads (.remu false 7 5 0) (small (slotOf [(5, 100)])) (fun t => decide (t.focus.gr 7 = 100)) = true := by decide
/-- R115: EXT with the field 0x403 of 100 gives 12; INS with 0xF20 clears bits [47:32]; CLZ of 100 is 57. -/
theorem test_ext : leads (.ext false 10 5 9) (small (slotOf [(5, 100), (9, 0x403)])) (fun t => decide (t.focus.gr 10 = 12)) = true := by decide
theorem test_ins : leads (.ins false 6 0 13) (small (slotOf [(6, 0xFFFFFFFFFFFFFFFF), (13, 0xF20)]))
    (fun t => decide (t.focus.gr 6 = 0xFFFF0000FFFFFFFF)) = true := by decide
theorem test_clz : leads (.clz false 12 5) (small (slotOf [(5, 100)])) (fun t => decide (t.focus.gr 12 = 57)) = true := by decide
/-- R107: the most negative value divided by −1. -/
theorem test_div_overflow : leads (.div false 3 1 2) (small (slotOf [(1, 0x8000000000000000), (2, 0xFFFFFFFFFFFFFFFF)]))
    (fun t => decide (t.focus.gr 3 = 0x8000000000000000) && decide (t.focus.reg.flags = 0)) = true := by decide
/-- R111: 2^31 as a sum of 32-bit words is sign-extended. -/
theorem test_addw_wraps : leads (.addw false 3 1 1) (small (slotOf [(1, 0x40000000)]))
    (fun t => decide (t.focus.gr 3 = 0xFFFFFFFF80000000)) = true := by decide
/-- R109: only bits [5:0] of the count are used; SRA fills with bit 63. -/
theorem test_sra_count : leads (.sra false 3 1 2) (small (slotOf [(1, 0x8000000000000000), (2, 0x141)]))
    (fun t => decide (t.focus.gr 3 = 0xC000000000000000)) = true := by decide
/-- R117: JALR lr, lr, 0 reads the link before it writes it. -/
theorem test_jalr_link : leads (.jalr false 31 31 0) (small (slotOf [(31, 0x200)]))
    (fun t => decide (t.focus.reg.pc = 0x200) && decide (t.focus.gr 31 = 4)) = true := by decide
/-- R116: a branch back by 4 × 2. -/
theorem test_bne_back : leads (.bne true 1 0 (-2)) (small { slotOf [(1, 1)] with reg := { regsOf [(1, 1)] with pc := 0x10040 } })
    (fun t => decide (t.focus.reg.pc = 0x10038)) = true := by decide
/-! ### Witnesses: memory -/

/-- The law entry 0 lies at 0x10000, in frame 2; the chunk holds a LAW.WR of it. -/
def lawHeld : State :=
  { small (holding (slotOf []) (.lawWr 0 [5, 6, 7])) with
    ctxs := [{ id := 1, state := 1, lawbase := 0x10000#64, lcores := [{ n := 0 }]
               stage2 := [⟨0, 3, 0, true, false, false, false, 0⟩, ⟨1, 2, 0, true, false, false, false, 0⟩] }]
    mem := cellWriteList (cellWriteList (cellWriteList (cellWriteList [] 0x30000 (leBytes 8 0x1001)) 0x31000 (leBytes 8 0x2001))
      0x32000 (leBytes 8 0x3001)) 0x33008 (leBytes 8 0x1001F) }

theorem witness_MemoryReadAfterWrite_law : lawHeld.heldLawByte lawHeld.focus 0x20001 = some 6
    ∧ lawHeld.heldLawByte lawHeld.focus 0x20020 = none := by decide

theorem witness_MemoryReadAfterWrite : Memory.wf [(5, 1)] = true ∧ Memory.wf [] = true
    ∧ (∀ i, cellRead [(5, 1)] i = cellRead [(5, 1)] i) := ⟨by decide, by decide, fun _ => rfl⟩

/-- A PURE stage firing (class 0) and a COUNT one (class 1) of set 0, stage 0 of logical cluster 0. -/
def stageSlot : Slot := { slotOf [] with firing := { ctx := 1, stage := some (0, 0, 0, 0) } }

/-- The small state whose stage 0 of set 0 has a class. -/
def classed (n : Nat) (f : Slot) : State :=
  { small f with ctxs := [{ id := 1, state := 1, objbase := 0x400000000000#64, lcores := [{ n := 0 }, { n := 1 }]
                            hurdles := [(0, { regs := [(4, BitVec.ofNat 64 (0x10001 + n * 256))] })] }] }

theorem witness_AccessChecks_regions : classRefuses (s46.stageClass s46.focus.firing) .store = false
    ∧ noRegion (2 ^ 47) ∧ noRegion 0x7FFFFFFFFFFFFF ∧ noRegion 0xC0000000000000 ∧ noRegion 0xFFFDFFFFFFFFFF ∧ noRegion (2 ^ 56)
    ∧ ¬ noRegion (2 ^ 47 - 1) ∧ ¬ noRegion 0x80000000000000 ∧ ¬ noRegion 0xBFFFFFFFFFFFFF ∧ ¬ noRegion 0xFFFE0000000000
    ∧ ¬ noRegion (2 ^ 56 - 1) ∧ (¬ noRegion 0x10002 ∧ 0x10002 % 4 ≠ 0) := by unfold noRegion; decide

theorem witness_AccessChecks_device : (s46.ctxFor s46.focus).inTables 0x400000000000#64 = true ∧ (s46.ctxFor s46.focus).inTables 0x40000042013F#64 = true
    ∧ (s46.ctxFor s46.focus).inTables 0x400000420140#64 = false ∧ AccOp.store ≠ .load
    ∧ (s46.ctxFor s46.focus).inTables 0x10000#64 = false ∧ 0x10000#64 ∉ s46.focus.zeros
    ∧ tlbFind (s46.coreOf s46.focus.core).tlb 1 0x50000#64 = none
    ∧ tlbFind (s46.coreOf s46.focus.core).tlb 1 0x10000#64 = some (entryOf 1 7)
    ∧ tlbFind (s46.coreOf s46.focus.core).tlb 1 0x2FFFC#64 = some (entryOf 2 1) ∧ (entryOf 2 1).w = false
    ∧ (entryOf 3 0).r = false ∧ (entryOf 1 7).r = true ∧ (entryOf 1 7).w = true ∧ (entryOf 1 7).ro = false
    ∧ tlbFind (s46.coreOf s46.focus.core).tlb 1 0x30000#64 = some (entryOf 3 0) ∧ s46.migs = [] := by decide

/-- The windows: the last byte of W0, W1 and W8's end, W9; formats 1 and 2 of reset are 8-bit ones. -/
theorem witness_AccessChecks_scratch : (s46.lcOf 1 0).lsz = 65536 ∧ 0xFFFF000000FFFF / 2 ^ 24 % 2 ^ 16 = 0
    ∧ 0xFFFF0001000000 / 2 ^ 24 % 2 ^ 16 = 1 ∧ 0xFFFF0008000000 / 2 ^ 24 % 2 ^ 16 = 8 ∧ 0xFFFF0009000000 / 2 ^ 24 % 2 ^ 16 = 9
    ∧ (s46.lcOf 1 1).valid = true ∧ (s46.lcOf 1 2).valid = false ∧ 0xFFFE0001000000 / 2 ^ 24 % 2 ^ 16 = 1
    ∧ 0xFFFEFFFFFFFFFF / 2 ^ 24 % 2 ^ 16 = 65535 ∧ (fmtOfWord (s46.fmtSeen s46.focus 0).1).width ≠ 4 := by decide

theorem witness_AccessChecks_classes : (classed 0 stageSlot).stageClass stageSlot.firing = some 0
    ∧ (classed 1 stageSlot).stageClass stageSlot.firing = some 1 ∧ classRefuses (some 0) .store = true
    ∧ classRefuses (some 1) .post = false ∧ classRefuses (some 0) .load = false ∧ ¬ (0xFFFF0000000000 ≤ 0x10000 ∧ 0x10000 < 2 ^ 56) := by decide

/-- Addresses of the six kinds of place: memory, poison, the host answered and not, a window, the mirror, a ZERO reply, and
a read-only page. -/
def at' (x : Word) : State := withMem [0x11, 0x22, 0x33, 0x84] (slotOf [(1, x), (2, 0x55667788)])

def hostAnswered : State := let s := at' 0x80000000000008; { s with focus := { s.focus with hosts := [0x80000000000008] } }
/-- The barrier mirror's page is mapped with R. -/
def mirrored : State :=
  let s := at' 0x400000400000
  { s with cores := [{ id := 0, tlb := [entryOf 0x40000040 1] }] }
def zeroReply : State := let s := at' 0x10000; { s with focus := { s.focus with zeros := [0x10000] } }

theorem witness_ScalarLoads :
    ((at' 0x10000).access (at' 0x10000).focus 0x10000 4 .load true = .ok (.cells 0x20000 own)
      ∧ (at' 0x10000).anyPoison (at' 0x10000).focus 0x20000 4 = false)
    ∧ ((at' 0x10040).access (at' 0x10040).focus 0x10040 4 .load true = .ok (.cells 0x20040 own)
      ∧ (at' 0x10040).anyPoison (at' 0x10040).focus 0x20040 4 = true)
    ∧ hostAnswered.access hostAnswered.focus 0x80000000000008 4 .load true = .ok (.hostMem 8)
    ∧ ((at' 0xFFFF0001000000).access (at' 0xFFFF0001000000).focus 0xFFFF0001000000 4 .load true = .ok (.window 1 0)
      ∧ okB ((at' 0xFFFF0001000000).windowLoad (at' 0xFFFF0001000000).focus 0xFFFF0001000000 1 0) = true)
    ∧ mirrored.access mirrored.focus 0x400000400000 4 .load true = .ok (.live 0)
    ∧ ((at' 0x10200).access (at' 0x10200).focus 0x10200 4 .load true = .ok (.cells 0x20200 own)
      ∧ (at' 0x10200).lacks (at' 0x10200).focus own 0x20200 4 = some 0x20200)
    ∧ (at' 0x10000).lacks (at' 0x10000).focus own 0x20000 4 = none
    ∧ zeroReply.access zeroReply.focus 0x10000 4 .load true = .ok .zero
    ∧ okB ((at' 0x30000).access (at' 0x30000).focus 0x30000 4 .load true) = false := by decide

theorem witness_ScalarStores :
    (at' 0x10000).access (at' 0x10000).focus 0x10000 4 .store true = .ok (.cells 0x20000 own)
    ∧ (at' 0x80000000000008).access (at' 0x80000000000008).focus 0x80000000000008 4 .store true = .ok (.hostMem 8)
    ∧ ((at' 0xFFFF0001000000).access (at' 0xFFFF0001000000).focus 0xFFFF0001000000 4 .store true = .ok (.window 1 0)
      ∧ okB ((at' 0xFFFF0001000000).windowStore (at' 0xFFFF0001000000).focus 0xFFFF0001000000 1 0 0 0x3F800000#32) = true)
    ∧ zeroReply.access zeroReply.focus 0x10000 4 .store true = .ok .zero
    ∧ okB ((at' 0x20000).access (at' 0x20000).focus 0x20000 4 .store true) = false := by decide

theorem witness_ScalarStoreFrame : storeForm (.stW true 2 1 0) = some (2, 1, 0, 4)
    ∧ (at' 0x10000).access (at' 0x10000).focus (memAddr ((at' 0x10000).focus.gr 1) 0 4) 4 .store (decide (4 = 4)) = .ok (.cells 0x20000 own)
    ∧ leads (.stW true 2 1 0) (at' 0x10000) (fun t => decide (t.seenBytes t.focus 0x20000 4 = [0x88, 0x77, 0x66, 0x55])) = true := by decide

/-- m1 = lane 2 alone; v3's lanes are word offsets. -/
def vecAt (x : Word) : State :=
  { at' x with focus := withM (withV (at' x).focus [(3, vregOf [(2, 1)])]) [(1, 0x00000004#32)] }

theorem witness_VectorLoads : let s := vecAt 0x10000
    okB (s.loadLanes (s.focus.mr 1) (fun l => 0x10000#64 + BitVec.ofNat 64 (4 * l)) 4 true (List.range 32) s.focus) = true
    ∧ okB (s.loadLanes (s.focus.mr 1) (fun l => 0x10038#64 + BitVec.ofNat 64 (4 * l)) 4 true (List.range 32) s.focus) = false
    ∧ s.focus.mr 2 = 0 ∧ s.focus.mr 1 ≠ 0 ∧ okB (s.loadElem s.focus 0x10000 4 false) = true
    ∧ okB (s.loadElem s.focus 0x10002 4 false) = false := by decide

/-- Tile 5, READY, 128 bytes at offset 0; tile 6 is undefined. -/
def tiled : State :=
  { vecAt 0 with ctxs := [{ id := 1, lcores := [{ n := 0, tiles := [(5, { w0 := 0x40004000 })] }] }] }

theorem witness_VectorLoads_tile :
    okB (tiled.tileAccess tiled.focus 5 0 true) = true ∧ okB (tiled.tileAccess tiled.focus 6 0 true) = false
    ∧ okB (tiled.tileLanes tiled.focus (tiled.focus.mr 1) (scratchKey 1 0 0) (List.range 32)) = true := by decide

/-- Every access of every lane of a load at 0x10000 reaches M by key, and nothing there is poisoned. -/
theorem witness_VectorLoads_lanes : let s := vecAt 0x10000
    (∀ (f : Slot) (l : Nat), l < 32 → (4 : Lane).getLsbD l = true → f.firing = s.focus.firing → f.core = s.focus.core →
      f.zeros = s.focus.zeros → f.hosts = s.focus.hosts → f.chunk.bases = s.focus.chunk.bases →
      s.access f (0x10000#64 + BitVec.ofNat 64 (4 * l)) 4 .load true = .ok (.cells (0x20000 + 4 * l) own))
    ∧ ∀ l, l < 32 → (4 : Lane).getLsbD l = true → s.anyPoison s.focus (0x20000 + 4 * l) 4 = false
      ∧ s.lacks s.focus own (0x20000 + 4 * l) 4 = none := by
  refine ⟨fun f l hl hm hf hc hz hh hb => ?_, by decide⟩
  have h2 : l = 2 := by
    have : ∀ l, l < 32 → (4 : Lane).getLsbD l = true → l = 2 := by decide
    exact this l hl hm
  subst h2
  simp only [State.access, State.stageClass, State.deviceAccess, State.ctxFor, Chunk.sees, hf, hc, hz, hb]
  rfl

theorem witness_VectorStores : let s := vecAt 0x10000
    okB (s.storeLanes (s.focus.mr 1) (fun l => 0x10000#64 + BitVec.ofNat 64 (4 * l)) (fun l => leBytes 4 (s.lane 2 l).toNat) true
      (List.range 32) s.focus) = true
    ∧ okB (s.storeLanes (s.focus.mr 1) (fun l => 0x20000#64 + BitVec.ofNat 64 (4 * l)) (fun l => leBytes 4 (s.lane 2 l).toNat) true
      (List.range 32) s.focus) = false
    ∧ okB (s.scatAdd (s.focus.mr 1) (fun l => 0x10000#64 + BitVec.ofNat 64 (4 * l)) (s.lane 2) (List.range 32) s.focus) = true
    ∧ okB (s.scatAdd (s.focus.mr 1) (fun _ => 0x20000#64) (s.lane 2) (List.range 32) s.focus) = false
    ∧ okB (tiled.tileAccess tiled.focus 5 0 false) = true ∧ okB (tiled.tileAccess tiled.focus 5 128 false) = false := by decide

theorem witness_Atomics :
    ((at' 0x10000).access (at' 0x10000).focus 0x10000 4 .amo false = .ok (.cells 0x20000 own)
      ∧ (at' 0x10000).anyPoison (at' 0x10000).focus 0x20000 4 = false)
    ∧ ((at' 0x10040).access (at' 0x10040).focus 0x10040 8 .amo false = .ok (.cells 0x20040 own)
      ∧ (at' 0x10040).anyPoison (at' 0x10040).focus 0x20040 8 = true)
    ∧ (at' 0x10200).access (at' 0x10200).focus 0x10200 4 .amo false = .ok (.cells 0x20200 own)
    ∧ zeroReply.access zeroReply.focus 0x10000 4 .amo false = .ok .zero
    ∧ okB ((at' 0x80000000000000).access (at' 0x80000000000000).focus 0x80000000000000 4 .amo false) = false
    ∧ (at' 0x10000).access (at' 0x10000).focus 0x10000 4 .post false = .ok (.cells 0x20000 own)
    ∧ zeroReply.access zeroReply.focus 0x10000 4 .post false = .ok .zero
    ∧ okB ((at' 0x20000).access (at' 0x20000).focus 0x20000 4 .post false) = false := by decide

/-- R10, R207: LD.W sign-extends 0x84332211; LD.BU and LD.B of 0x84. -/
theorem test_ldW : leads (.ldW true 3 1 0) (at' 0x10000) (fun t => decide (t.focus.gr 3 = 0xFFFFFFFF84332211)) = true := by decide
theorem test_ldB : leads (.ldB true 3 1 0) (at' 0x10003) (fun t => decide (t.focus.gr 3 = 0xFFFFFFFFFFFFFF84)) = true := by decide
theorem test_ldBu : leads (.ldBu true 3 1 0) (at' 0x10003) (fun t => decide (t.focus.gr 3 = 0x84)) = true := by decide
/-- R68: a load in an open group is not seen yet. -/
theorem test_load_is_long : leads (.ldBu false 3 1 0) (at' 0x10003) (fun t => decide (t.focus.gr 3 = 0)) = true := by decide
/-- R215: AMO.ADD.W returns the old word, sign-extended, and leaves the sum modulo 2^32. -/
theorem test_amoAdd : leads (.amoAdd true 3 1 2 0) (at' 0x10000) (fun t =>
    decide (t.focus.gr 3 = 0xFFFFFFFF84332211) && decide (t.seenBytes t.focus 0x20000 4 = [0x99, 0x99, 0x99, 0xD9])) = true := by decide
/-- R215: AMO.CAS.W with the compare value in g[d] equal to the old word's low 32 bits. -/
theorem test_amoCas : leads (.amoCas true 3 1 2 0)
    (withMem [0x11, 0x22, 0x33, 0x84] (slotOf [(1, 0x10000), (2, 0x55667788), (3, 0x84332211)]))
    (fun t => decide (t.seenBytes t.focus 0x20000 4 = [0x88, 0x77, 0x66, 0x55])) = true := by decide

/-- R379: the load of bytes that the LLC lacks waits for their fill. -/
theorem test_load_waits : leads (.ldW true 3 1 0) (at' 0x10200) (fun t => decide (t.focus.wait = .fill 0x20200 own)
    && decide (t.focus.reg.pc = 0)) = true := by decide
/-! ### Witnesses: system, format, tile and CSR instructions -/

theorem witness_SystemInstructions : s46.focus.firing.stage = none ∧ gaveVerdict (holding stageSlot (.hsVerdict true 0 []))
    ∧ (stageSlot.firing.stage ≠ none ∧ ¬ gaveVerdict stageSlot) := by
  refine ⟨by decide, .inr ⟨true, 0, [], by simp [holding]⟩, by decide, ?_⟩
  simp [gaveVerdict, stageSlot, slotOf]

theorem witness_FormatAndWatchInstructions : validPair 0x1C283B98 0 = true ∧ validPair 0 0 = false
    ∧ (∀ x y, Held.fmt 7 x y ∉ s46.focus.chunk.held) := by
  refine ⟨by decide, by decide, fun x y => ?_⟩
  simp [s46, small, slotOf]

/-- Tile 5 is FILLING, 6 DRAINING, 7 READY and 8 undefined. -/
def tiles4 : State :=
  { small (slotOf []) with ctxs := [{ id := 1, lcores := [{ n := 0, tiles :=
      [(5, { w0 := 0x20004000 }), (6, { w0 := 0x60004000 }), (7, { w0 := 0x40004000 })] }] }] }

theorem witness_DigestAndTileInstructions :
    (2 % 4 ≠ 3 ∧ 3 % 4 = 3) ∧ (0x20000000 / 2 ^ 29 % 4 ≠ 0 ∧ 2 ^ 41 / 2 ^ 41 ≠ 0 ∧ 16384 < (16385 * 2 ^ 14) / 2 ^ 14 % 2 ^ 15)
    ∧ (tiles4.myLc.lsz < (0 + (513 * 2 ^ 14) / 2 ^ 14 % 2 ^ 15) * 128) ∧ ¬ (tiles4.myLc.lsz < (0 + (512 * 2 ^ 14) / 2 ^ 14 % 2 ^ 15) * 128)
    ∧ (tiles4.tileSeen tiles4.focus 5).state = 1 ∧ (tiles4.tileSeen tiles4.focus 6).state = 3
    ∧ (tiles4.tileSeen tiles4.focus 7).state = 2 ∧ (tiles4.tileSeen tiles4.focus 7).size ≠ 0
    ∧ (tiles4.tileSeen tiles4.focus 8).size = 0 ∧ (5 * 2 ^ 35) / 2 ^ 35 % 2 ^ 6 = 5 := by decide

/-- A firing of context 0 whose CTXSEL is n. -/
def sys0 (n : Word) : State :=
  let f := slotOf [(1, 0x1000)]
  small { f with firing := { ctx := 0 }, reg := { f.reg with ctxsel := n } }

theorem witness_CsrReads : (0x000, s46.focus.reg.flags) ∈ plainCsrs s46 ∧ (0x000 : BitVec 12).toNat < 0x800
    ∧ (0x800, (sys0 1).focus.reg.ctxsel) ∈ plainCsrs (sys0 1) ∧ (sys0 1).focus.firing.ctx = 0
    ∧ (0x020, 1, 0x020, (s46.ctxOf 1).specwin) ∈ contextCsrs s46 ∧ 1 = s46.focus.firing.ctx
    ∧ (0x801, 1, 0x026, ((sys0 1).ctxOf 1).lawbase) ∈ contextCsrs (sys0 1) ∧ (sys0 1).hasCtx 1 = true
    ∧ (0x801, 9, 0x026, ((sys0 9).ctxOf 9).lawbase) ∈ contextCsrs (sys0 9) ∧ (sys0 9).hasCtx 9 = false
    ∧ (∀ v, Held.csr 1 0x020 v ∉ s46.focus.chunk.held) ∧ (6 : BitVec 12).toNat = 6 := by
  refine ⟨by simp [plainCsrs], by decide, by simp [plainCsrs], by decide, by decide, by decide, by decide, by decide, by decide,
    by decide, fun v => by simp [s46, small, slotOf], by decide⟩

theorem witness_CsrWrites : (s46.focus ∈ s46.slots ∧ s46.focus.active = true) ∧ (0x020 : BitVec 12).toNat < 0x800 ∧ (1 : BitVec 5) ≠ 0
    ∧ (0x020 : BitVec 12) ∉ [0x002, 0x003, 0x010, 0x011, 0x012, 0x013, 0x021, 0x024, 0x025, 0x026, (0x027 : BitVec 12)]
    ∧ (0x027 : BitVec 12) ∈ [0x002, 0x003, 0x010, 0x011, 0x012, 0x013, 0x021, 0x024, 0x025, 0x026, (0x027 : BitVec 12)]
    ∧ (0x020, 1, 0x020, (s46.ctxOf 1).specwin) ∈ contextCsrs s46
    ∧ 0x800 ≤ (0x801 : BitVec 12).toNat ∧ s46.focus.firing.ctx ≠ 0 := by decide

/-- R131, R132: a write of FRM with code 7 gives 0, FLAGS keeps five bits. -/
theorem test_csrw_frm : leads (.csrw true 0 1 0x001) (small (slotOf [(1, 7)])) (fun t => decide (t.focus.reg.frm = 0)) = true := by decide
theorem test_csrw_flags : leads (.csrw true 0 1 0x000) (small (slotOf [(1, 0xFF)])) (fun t => decide (t.focus.reg.flags = 31)) = true := by decide

/-! ### Witnesses: exceptions, the step and the fetch -/

theorem witness_TrapRecordAndBlock : 63 < 64 ∧ 4095 < 4096 ∧ (31 < 32 ∧ 31 ≠ 0) ∧ (7 < 8 ∧ 7 ≠ 0) := by decide

/-- Context 1 with four tables in page 0 that map VA 0 to IA 0x10000 with R, W and X; IA pages 0 and 1 lie in frames 5 and
6; the trap actor is channel 2 of logical core 1. -/
def trapping : State :=
  let w (k v : Nat) (m : List Host.Cell) : List Host.Cell := cellWriteList m (5 * 2 ^ 16 + k) (leBytes 8 v)
  { small (slotOf [(7, 9)]) with
    ctxs := [{ id := 1, state := 1, trapch := 0x80002001#64, lcores := [{ n := 0 }, { n := 1, tt := [(2, { w1 := 0 })] }]
               stage2 := [⟨0, 5, 0, true, false, false, false, 1⟩, ⟨1, 6, 0, true, false, false, false, 1⟩] }]
    mem := w 0x3000 0x1001F (w 0x2000 0x3001 (w 0x1000 0x2001 (w 0 0x1001 []))) }

theorem witness_ExceptionEntry : trapping.exceptionWaits = false ∧  0 ∉ (trapping.lcOf 1 0).trapBlocks
    ∧ (trapping.walk 1 0).map (fun e => (e.w, e.ro, e.pa 0)) = some (true, false, 6 * 2 ^ 16)
    ∧ (0 : Word).toNat % 2 ^ 16 + 4480 ≤ 2 ^ 16 ∧ trapping.migs = [] ∧ Memory.wf trapping.mem = true
    ∧ trapping.focus.firing.dual = false ∧ (trapping.ctxOf 1).isTrapActor trapping.focus.firing = false
    ∧ (trapping.ctxOf 1).trapNamesNone = false := by decide

/-- Another slot, which holds exclusive commit, has read the first byte of the block. -/
def trappingHeld : State :=
  { trapping with
    others := [{ slotOf [] with core := 1, chunk := { rset := [.byte (6 * 2 ^ 16)] } }]
    excl := some (1, 0) }

theorem witness_ExceptionEntry_waits : trappingHeld.exceptionWaits = true ∧ (1 : Nat) < 256 := by decide

theorem witness_ExceptionEntry_frames : ∀ i, i < 4480 → frameAbsent (6 * 2 ^ 16 + i) = false := by
  intro i h
  have h1 : ¬ Config.stackGiB * 2 ^ 33 ≤ 6 * 2 ^ 16 + i := by
    have : Config.stackGiB * 2 ^ 33 = 549755813888 := by decide
    rw [this]
    omega
  unfold frameAbsent
  rw [decide_eq_false h1, Bool.false_and]

theorem witness_ExceptionEntry_full : ∀ j, j < 8 →
    j ∈ (({ s46 with ctxs := [{ id := 1, lcores := [{ n := 0, trapBlocks := [0, 1, 2, 3, 4, 5, 6, 7] }] }] } : State).lcOf 1 0).trapBlocks := by
  decide

theorem witness_StepKeepsMemoryCanonical : State.reset.MemOk ∧ ∃ t, step State.reset = .next t := by
  refine ⟨⟨by decide, by decide⟩, ?_⟩
  have h : (match step State.reset with | .next _ => true | _ => false) = true := by decide
  revert h
  cases step State.reset <;> simp

theorem witness_StepStopsOnlyAfterFailedBoot : ({ State.reset with boot := 2 } : State).boot = 2 ∧ State.reset.boot ≠ 2 := by decide

/-- Reset with a word placed at the next fetch. -/
def placed (w : Nat) : State := State.reset.withFetchWord 32 w

/-- The turn of physical core 0, as it finds slot 0. -/
noncomputable def turnOf (s : State) : State := issuing s.settle.nextTurnOf.2.passTurn 0 0

/-- The same once the word is there and noted. -/
noncomputable def wordAt (s : State) (w : BitVec 32) : State := ((turnOf s).fetchFill (turnOf s).focus).withFocus ((turnOf s).focus.takes w)

/-- What StepRunsDecoded asks of a state that issues a word. -/
noncomputable def issuesWord (s : State) (w : BitVec 32) : Bool :=
  decide (s.boot ≠ 2) && decide (s.settle.nextTurnOf.1 = .core 0)
    && decide (s.settle.nextTurnOf.2.passTurn.pickSlot 0 = some 0) && !(turnOf s).focus.chunk.doomed
    && decide ((turnOf s).focus.wait = .none) && decide ((turnOf s).focus.firing.alarm = none)
    && !(turnOf s).limitCloses (turnOf s).focus && decide (((turnOf s).fetchFill (turnOf s).focus).fetch (turnOf s).focus = .ok w)

/-- A user firing about to issue a word. -/
def userWord (w : Nat) : State :=
  { withMem (leBytes 4 w) { slotOf [] with reg := { regsOf [] with pc := 0x10000 } } with agenda := [.core 0] }

theorem witness_StepRunsDecoded : issuesWord (placed 0x02308800) 0x02308800 = true
    ∧ decode 0x02308800#32 = .ok (.add false 3 1 2) ∧ needsPriv (.add false 3 1 2) = false
    ∧ (wordAt (placed 0x02308800) 0x02308800).stageRefuses (wordAt (placed 0x02308800) 0x02308800).focus (.add false 3 1 2) = none
    ∧ (wordAt (placed 0x02308800) 0x02308800).focus.reg.onceArmed = false
    ∧ leads (.add false 3 1 2) (wordAt (placed 0x02308800) 0x02308800) (fun t => !t.focus.pastRoom && !t.focus.over false
        && (wordAt (placed 0x02308800) 0x02308800).focus.issued t.focus) = true := by decide

theorem witness_StepRunsDecoded_illop : issuesWord (placed 0x7E000000) 0x7E000000 = true ∧ okB (decode 0x7E000000#32) = false := by
  decide

theorem witness_StepRunsDecoded_priv : issuesWord (userWord 0x2A029820) 0x2A029820 = true
    ∧ decode 0x2A029820#32 = .ok (.tlbWr false 5 6) ∧ needsPriv (.tlbWr false 5 6) = true
    ∧ (wordAt (userWord 0x2A029820) 0x2A029820).focus.firing.ctx ≠ 0
    ∧ (wordAt (userWord 0x2A029820) 0x2A029820).focus.reg.onceArmed = false := by decide

/-- A load at address 0, which no translation maps, waits; BRK raises its exception. -/
theorem witness_StepRunsDecoded_notIssued : let l := wordAt (userWord 0x2D806000) 0x2D806000
    let b := wordAt (userWord 0x2A000003) 0x2A000003
    issuesWord (userWord 0x2D806000) 0x2D806000 = true ∧ decode 0x2D806000#32 = .ok (.ldD false 24 0 0)
    ∧ leads (.ldD false 24 0 0) l (fun t => !l.focus.issued t.focus && decide (t.susp.length ≤ l.susp.length)) = true
    ∧ issuesWord (userWord 0x2A000003) 0x2A000003 = true ∧ decode 0x2A000003#32 = .ok (.brk false)
    ∧ leads (.brk false) b (fun t => !b.focus.issued t.focus && decide (b.susp.length < t.susp.length)) = true := by decide

/-- R408: ADD costs 0.03 nJ, VLD.W 0.15 nJ. -/
theorem test_instrCharge : instrCharge 0x02308800 = 3 ∧ instrCharge (0x18#32 <<< 25) = 15
    ∧ (match step (placed 0x02308800) with
      | .next t => decide ((t.ctxOf 0).energy = 3)
      | _ => false) = true := by decide

/-- A slot at a pc. -/
def atPc (x : Word) : State := withMem [0x00, 0x88, 0x30, 0x02] { slotOf [] with reg := { regsOf [] with pc := x } }

theorem witness_FetchRules : (0x10002#64).toNat % 4 ≠ 0 ∧ ((2 ^ 47 : Nat) % 4 = 0 ∧ 2 ^ 47 ≤ 2 ^ 47)
    ∧ tlbFind ((atPc 0x50000).coreOf 0).tlb 1 0x50000 = none
    ∧ (tlbFind ((atPc 0x20000).coreOf 0).tlb 1 0x20000 = some (entryOf 2 1) ∧ (entryOf 2 1).x = false)
    ∧ (tlbFind ((atPc 0x10000).coreOf 0).tlb 1 0x10000 = some (entryOf 1 7) ∧ (entryOf 1 7).x = true)
    ∧ inPoison (atPc 0x10040).poison ((atPc 0x10040).home ((entryOf 1 7).pa 0x10040)) = true
    ∧ (∀ i, i < 4 → inPoison (atPc 0x10000).poison (0x20000 + i) = false ∧ frameAbsent (0x20000 + i) = false)
    ∧ (atPc 0x10000).fetch (atPc 0x10000).focus = .ok 0x02308800#32 := by decide

theorem witness_DecodeReadsEncodedBack : (Instr.add false 3 1 2).wf = true ∧ encode? (.add false 3 1 2) = some 0x02308800#32
    ∧ (Instr.vpack true 31 31 6 7 7).wf = true ∧ (encode? (.vpack true 31 31 6 7 7)).isSome = true := by decide

theorem witness_DecodedWordIsCanonical : decode 0x02308800#32 = .ok (.add false 3 1 2) ∧ decode 0x7C000000#32 = .ok .once := by decide
/-! ### Witnesses: messages, task tables, ring words -/

/-- Logical core 0 may send once (PROD = 1); group 3 is open to it; the firing has a message of channel 0 at offset 0x100. -/
def sender : State :=
  let s := at' 0x10000
  { s with
    focus := { s.focus with firing := { ctx := 1, prim := [⟨0, 0, 0, 0x100⟩] } }
    ctxs := [{ id := 1, state := 1, objbase := 0x400000000000#64, lcores := [{ n := 0, tt := [(0, { w1 := 0x400000 })] }, { n := 1 }]
               reds := [(3, { on := true })] }] }

theorem witness_SendForm_refused : (descOf 0x1040000).refused 0x1040000 0 ∧ (descOf 0xC000000).refused 0xC000000 0
    ∧ (descOf 0x4080000).refused 0x4080000 0 ∧ (descOf 0x3F000).refused 0x3F000 0 ∧ (descOf 0x4000000000).refused 0x4000000000 1
    ∧ ¬ (descOf 0x103E000).refused 0x103E000 0 ∧ ¬ (descOf 0x4000000000).refused 0x4000000000 0
    ∧ ¬ (descOf 0x20100000).refused 0x20100000 2 := by
  refine ⟨?_, ?_, ?_, ?_, ?_, ?_, ?_, ?_⟩ <;> (unfold Desc.refused; decide)

theorem witness_SendForm : ((2 ^ 6 : Nat) / 2 ^ 18 % 64 < 2 ^ 6 / 2 ^ 6 % 64)
    ∧ ((descOf 2).pkg = Config.ownPackage.val ∧ sender.myCtx.defines (descOf 2).dst = false)
    ∧ ((descOf 1).pkg = Config.ownPackage.val ∧ sender.myCtx.defines (descOf 1).dst = true)
    ∧ s46.myEntry.prod ≤ s46.focus.reg.sends ∧ ¬ sender.myEntry.prod ≤ sender.focus.reg.sends
    ∧ okB (sender.payload sender.focus 0x10000 64) = true ∧ okB (sender.payload sender.focus 0x30000 4) = false :=
  ⟨by decide, ⟨rfl, by decide⟩, ⟨rfl, by decide⟩, by decide, by decide, by decide, by decide⟩

theorem witness_SendsAndMessageReads : (sender.myCtx.redOf 4).on = false
    ∧ ((sender.myCtx.redOf 3).on = true ∧ inRect (sender.myCtx.redOf 3).cfgB 0 = true)
    ∧ s46.myEntry.prod ≤ 0 ∧ sender.focus.reg.sends < sender.myEntry.prod
    ∧ okB (sender.payload (sender.focus.addRead (.red 1 3)) 0x10000 4) = true
    ∧ sender.focus.firing.prim[1]? = none ∧ sender.focus.firing.prim[0]? = some ⟨0, 0, 0, 0x100⟩
    ∧ (4 % 8 ≠ 0 ∧ (64 % 8 = 0 ∧ 64 ≤ 64) ∧ (56 % 8 = 0 ∧ 56 < 64) ∧ 2 % 4 < 3 ∧ 3 % 4 = 3)
    ∧ okB (sender.readKey sender.focus 0xFFFE0000000148 (scratchKey 1 0 (0x100 + (16 + 56))) {} 8) = true
    ∧ okB (sender.readKey sender.focus 0xFFFE0000000150 (scratchKey 1 0 (0x100 + 80)) {} 4) = true := by decide

/-- Every element of an 8-byte payload at 0x10000 lies in M. -/
theorem witness_Payload : 4 ≤ 8 ∧ 8 ≤ 64
    ∧ (∀ (g : Slot) i, 4 * i < 8 → g.firing = sender.focus.firing → g.core = sender.focus.core → g.zeros = sender.focus.zeros →
        g.hosts = sender.focus.hosts → g.chunk.bases = sender.focus.chunk.bases →
        sender.access g (0x10000#64 + BitVec.ofNat 64 (4 * i)) 4 .load false = .ok (.cells (0x20000 + 4 * i) own))
    ∧ ∀ i, i < 8 → sender.poisoned sender.focus (0x20000 + i) = false ∧ sender.lacks sender.focus own (0x20000 + i) 1 = none := by
  refine ⟨by decide, by decide, fun g i hi hf hc hz hh hb => ?_, by decide⟩
  have h2 : i = 0 ∨ i = 1 := by omega
  rcases h2 with rfl | rfl <;> (simp only [State.access, State.stageClass, State.deviceAccess, State.ctxFor, Chunk.sees, hf, hc, hz, hb]; rfl)

/-- A TT.WR image at 0x10000: words 0 to 2. -/
def image (w0 w1 w2 : Nat) : State := withMem (leBytes 8 w0 ++ leBytes 8 w1 ++ leBytes 8 w2) (slotOf [(1, 0x5001), (2, 0x10000)])

theorem witness_TaskTableInstructions : s46.myCtx.defines 2 = false ∧ s46.myCtx.defines 1 = true
    ∧ (2 % 4 < 3 ∧ 3 % 4 = 3) ∧ okB ((image 0 0x40 0).loadRange 8 3 (image 0 0x40 0).focus 0x10000 24) = true
    ∧ (0x40 : Word).getLsbD 6 = true ∧ (0 : Word).getLsbD 6 = false
    ∧ entryBreaks 65536 5 { w0 := 0x1000, w1 := 0, w2 := 1 * 2 ^ 14 } (s46.ttSeen s46.focus 1) = none
    ∧ entryBreaks 65536 5 { w0 := 0x1000, w1 := 0, w2 := 0 } (s46.ttSeen s46.focus 1) = some 4
    ∧ okB (s46.loadRange 8 3 s46.focus 0x30000 24) = false := by decide

/-- R166, R228: an entry with FDEPTH = 0 breaks condition 4. -/
theorem test_ttWr_breaks : leads (.ttWr true 1 2) (image 0x1000 0 0) (fun t => decide (t.susp.length = 1)) = true
    ∧ leads (.ttWr true 1 2) (image 0x1000 0 0x4000) (fun t => decide (t.susp.length = 0)) = true := by decide

/-- A linear law: V = A + B × Δ, limits −∞ and +∞, threshold 2.0. -/
def linear : Law := ⟨2, 0, 0, 2, 0, 0, 0, 0xFF800000, 0x7F800000, 0x40000000, 0, 5⟩

/-- A ring word A = 0, B = 1.0, T = 0 under law 0. -/
def ramp : RingWord := ⟨0, 0x3F800000, 0, 0, false, false, false, false, false, 0⟩

theorem witness_RingWordArithmetic : ramp.small ∧ (ringAccess .arm ramp linear (clockOf 0 0 0)).alarm ≠ 0
    ∧ (∃ x : RingWord, x.small ∧ x.t = 2 ^ 48 - 1 ∧ x.law = 255 ∧ x.rsv = 7)
    ∧ (clockOf (BitVec.ofNat 64 (2 ^ 47)) 0 0).back = true ∧ (clockOf (BitVec.ofNat 64 (2 ^ 47 - 1)) 0 0).back = false
    ∧ ({ linear with kind := 0 } : Law).kind = 0 ∧ RingOp.arm ≠ .ld := by
  refine ⟨by unfold RingWord.small; decide, by decide,
    ⟨{ ramp with t := 2 ^ 48 - 1, law := 255, rsv := 7 }, by unfold RingWord.small; decide, rfl, rfl, rfl⟩, by decide, by decide, rfl, by decide⟩

/-- R253, R254: armed at 0, the ramp reaches 2.0 at Δ = 2. -/
theorem test_ring_crossing : (ringAccess .arm ramp linear (clockOf 0 0 0)).alarm = 2 := by decide
/-- R247: after 3 ticks the ramp reads 3.0. -/
theorem test_ring_adv : (ringAccess .adv ramp linear (clockOf 3 0 0)).a = 0x40400000#32
    ∧ (ringAccess .adv ramp linear (clockOf 3 0 0)).word.t = 3 := by decide

/-- The law table at 0x10000, whose entries are zeros but for entry 1 (KIND 2) and entry 2 (KIND 4). -/
def laws : State := { withMem (leBytes 64 (2 * 2 ^ 256) ++ leBytes 32 4) (slotOf [(1, 0x10100)]) with poison := [] }

theorem witness_RingDoes : okB (laws.ringOpen laws.focus 0x10100 false) = true ∧ okB (laws.ringOpen laws.focus 0x30000 true) = false
    ∧ (okB (laws.loadLaw laws.focus 1) = true ∧ (Law.ofBytes (leBytes 32 2)).kind ≤ 3)
    ∧ (okB (laws.loadLaw laws.focus 2) = true ∧ 3 < (Law.ofBytes (leBytes 32 4)).kind) := by decide

theorem witness_RingInstructions : okB (laws.loadRange 8 4 laws.focus 0x10000 32) = true ∧ lawBreaks 1 (leBytes 32 2) = none
    ∧ lawBreaks 0 (leBytes 32 2) = some 1 ∧ lawBreaks 1 (leBytes 32 4) = some 2
    ∧ (0 % 4 = 0 ∧ 3 % 4 ≠ 0) ∧ (∀ v, Held.clkAdv 3 v ∉ laws.focus.chunk.held) := by
  refine ⟨by decide, by decide, by decide, by decide, by decide, fun v => by simp [laws, withMem, small, slotOf]⟩

/-- A law table that no translation reaches. -/
def noLaws : State := { s46 with ctxs := [{ id := 1, lawbase := 0x50000, lcores := [{ n := 0 }] }] }

theorem witness_VectorLawResults : okB (laws.loadLaw laws.focus 1) = true ∧ okB (noLaws.loadLaw noLaws.focus 1) = false
    ∧ (Law.ofBytes (leBytes 32 4)).kind = 4 ∧ (Law.ofBytes (leBytes 32 3)).kind = 3 := by decide
/-! ### Witnesses: engine commands, barriers, groups, hurdles, privileged instructions -/

/-- Context 1, whose logical core 0 has tile 5 (128 bytes), a legal shape and legal formats, and the tile as B. -/
def unitsOf (l : List Byte) (r : List (Nat × Word)) (jobs : List Job) : State :=
  { withMem l (slotOf r) with
    ctxs := [{ id := 1, state := 1, objbase := 0x400000000000#64
               lcores := [{ n := 0, tiles := [(5, { w0 := 0x40004000 })], eg := [(0, 0x21), (1, 0x10101), (4, 10)] }, { n := 1 }]
               bars := [((0, 3), { part := 2 })] }]
    jobs := jobs }

def unit0 : State := unitsOf [] [] []

/-- A released matrix job 7 of logical core 0 in a state, and a held one. -/
def job7 (e : Engine) (st : Nat) : Job :=
  { engine := e, ctx := 1, lc := 0, pcore := 0, id := 7, op := 2, word := 0, fid := 0, fts := 0, fch := 0, pc := 0, frm := 0
    draw := 0, st := st, err := if st = 5 then 2 else 0 }

theorem witness_MatrixUnitCommands_registers : egBad 1 (2 ^ 25) = true ∧ egBad 1 (2 ^ 25 - 1) = false ∧ egBad 6 9 = true
    ∧ egBad 6 8 = false ∧ egBad 14 0 = true ∧ 13 < 14 ∧ (31 : BitVec 5).toNat % 32 = 31 := by decide

theorem witness_MatrixUnitCommands_jobs : (71 < (72 : Word).toNat % 128 ∧ ¬ 71 < (71 : Word).toNat % 128)
    ∧ okB (jobFmtCheck 2 (unit0.egSeen unit0.focus)) = true ∧ okB (jobFmtCheck 2 (s46.egSeen s46.focus)) = true
    ∧ okB (jobFmtCheck 2 fun n => if n = 1 then 0x10081#64 else egReset n) = false
    ∧ okB (unit0.jobOperands (jobReads unit0 2) 2 (unit0.egSeen unit0.focus)) = true
    ∧ okB (unit0.jobOperands (jobReads unit0 3) 3 (unit0.egSeen unit0.focus)) = false
    ∧ abFmtOk 1 = true ∧ (0x10081 : Nat) % 256 = 129 := by decide

theorem witness_MatrixUnitCommands_polls : (unitsOf [] [] [job7 .matrix 2]).findJob .matrix 1 0 7 = some (job7 .matrix 2)
    ∧ (unitsOf [] [] [job7 .matrix 5]).findJob .matrix 1 0 7 = some (job7 .matrix 5) ∧ unit0.findJob .matrix 1 0 7 = none
    ∧ Held.job (job7 .matrix 0) ∈ (holding unit0.focus (.job (job7 .matrix 0))).chunk.held ∧ unit0.focus.chunk.held = [] := by
  refine ⟨by decide, by decide, by decide, List.mem_singleton.mpr rfl, rfl⟩

/-- A block that fills one element of tile 5, in memory at 0x10000. -/
def fillBlock : List Byte :=
  leBytes 8 0x33 ++ leBytes 24 0 ++ leBytes 8 0x5000 ++ leBytes 8 0 ++ leBytes 8 0x100000001 ++ leBytes 8 7

/-- The block is a1's operand; so many requests wait. -/
def copies (l : List Byte) (tf : Word) (n : Nat) : State :=
  unitsOf l [(1, 0x10000), (2, tf)] (List.replicate n (job7 .copy 1))

theorem witness_CopyUnitCommands : (2 ^ 17 : Nat) / 2 ^ 17 ≠ 0
    ∧ okB ((copies fillBlock 5 7).loadBytes (copies fillBlock 5 7).focus 0x10000 64 64 .load) = true
    ∧ cpIllegal fillBlock = none ∧ cpIllegal (leBytes 64 0x0F) = some 0 ∧ cpIllegal (leBytes 8 0x23 ++ leBytes 56 0) = some 48
    ∧ okB ((copies fillBlock 5 7).copyRequest (copies fillBlock 5 7).focus 0x10000 5) = true
    ∧ okB ((copies fillBlock 5 8).copyRequest (copies fillBlock 5 8).focus 0x10000 5) = true
    ∧ okB ((copies fillBlock 5 0).copyRequest (copies fillBlock 5 0).focus 0x10040 5) = false
    ∧ ((copies [] 0 7).jobs.length = 7 ∧ (copies [] 0 8).jobs.length = 8)
    ∧ (copies [] 0 1).findJob .copy 1 0 7 = some (job7 .copy 1) := by decide

/-- R306: REGRAN in a user firing: the block's other words are legal. -/
def regranBlock : List Byte := leBytes 8 6 ++ leBytes 16 0 ++ leBytes 8 0 ++ leBytes 8 0 ++ leBytes 8 0x10000 ++ leBytes 8 0x100000001 ++ leBytes 8 0

theorem witness_CopyUnitCommands_regran : cpIllegal regranBlock = none ∧ leNat (regranBlock.take 8) % 16 = 6
    ∧ okB ((copies regranBlock 0 0).loadBytes (copies regranBlock 0 0).focus 0x10000 64 64 .load) = true
    ∧ (copies regranBlock 0 0).focus.firing.ctx ≠ 0 := by decide

theorem test_mxLs : leads (.mxLs true 1 2) (unitsOf [] [(1, 0)] []) (fun t => t.focus.chunk.held.any fun h => match h with
    | .job j => decide (j.op = 2) && decide (j.bank.getD 1 0 = 0x10101)
    | _ => false) = true := by decide
theorem test_cpPush : leads (.cpPush true 1 2) (copies fillBlock 5 0) (fun t => t.focus.chunk.held.any fun h => match h with
    | .job j => decide (j.op = 3) && decide (j.id = 5)
    | _ => false) = true := by decide

/-- Barrier 3 of logical cluster 0 has two participants and its phase is 0. -/
def phased (b : Bool) : State :=
  let f := slotOf []
  { unit0 with focus := { f with firing := { f.firing with phases := [(3, b)] } } }

theorem witness_Barriers : (71 < 72 ∧ 71 ≤ 71) ∧ unit0.partSeen unit0.focus 4 = 0 ∧ unit0.partSeen unit0.focus 3 = 2
    ∧ (62 ≤ (62 : Word).toNat % 64 ∧ (61 : Word).toNat % 64 < 62)
    ∧ (phased true).focus.firing.phaseOf 3 = some true ∧ (phased false).focus.firing.phaseOf 3 = some false
    ∧ ((unit0.myCtx.barOf 0 3).phase = false) ∧ unit0.focus.firing.phaseOf 3 = none := by decide

theorem witness_Reductions : ((2 ^ 30 : Nat) / 2 ^ 30 ≠ 0) ∧ ((62 * 2 ^ 11 : Nat) / 2 ^ 11 % 64 = 62) ∧ rectBad 0 = false
    ∧ (inRect 0 0 = true ∧ inRect 0 1 = false) ∧ unit0.myCtx.defines 0 = true ∧ unit0.myCtx.defines 2 = false
    ∧ ((2 ^ 29 : Nat) / 2 ^ 29 % 2 = 1) ∧ ((128 : Nat) / 64 % 4 = 2 ∧ (192 : Nat) / 64 % 4 = 3) := by decide

/-- Set 0 of logical cluster 0 enabled or not, with n records in the buffer; its one stage has member 0 on channel 0. -/
def hurdled (on : Bool) (n : Nat) : State :=
  { withMem (leBytes 64 0) (slotOf [(1, 0), (2, 0x10000)]) with
    ctxs := [{ id := 1, state := 1, lcores := [{ n := 0, tt := [(0, { w1 := 0, w2 := 1 * 2 ^ 14 })] }]
               hurdles := [(0, { regs := [(0, 0x1000000 + if on then 1 else 0), (4, 0x10001), (6, 1)]
                                 recs := List.replicate n ⟨0, 0, 0, [], 0, 0, 0, .waiting, false, false, none⟩ })] }] }

theorem witness_HurdleInstructions : (3 = 3 ∧ ¬ 36 < 36 ∧ 35 < 36) ∧ hsValueBad 0 0xFF0001 = true ∧ hsValueBad 0 0x1000001 = false
    ∧ liveRefuses 0x1000001 0 1 0 = true ∧ liveRefuses 0x1000001 0x1000000 0 0 = false ∧ liveRefuses 0x1000000 0x1000001 0 0 = false
    ∧ (hurdled false 0).hsSeen (hurdled false 0).focus 0 0 = 0x1000000 ∧ (hurdled true 0).hsSeen (hurdled true 0).focus 0 0 = 0x1000001
    ∧ ((hurdled false 0).enableCheck (hurdled false 0).focus 0 0x1000001).1 = none
    ∧ (s46.enableCheck s46.focus 0 0x1000001).1 = some (1, 0)
    ∧ okB ((hurdled true 1).loadRange 8 8 ((hurdled true 1).focus.addRead (.hs 1 0 0 0)) 0x10008 56) = true := by decide

theorem witness_HurdleInstructions_room : ((hurdled true 2047).myCtx.hurdle 0).recs.length < 2048
    ∧ 2048 ≤ ((hurdled true 2048).myCtx.hurdle 0).recs.length := by
  have h : ∀ n, ((hurdled true n).myCtx.hurdle 0).recs.length = n := fun n => List.length_replicate ..
  rw [h, h]
  decide

theorem witness_HurdleInstructions_verdicts : s46.focus.firing.stage = none ∧ stageSlot.firing.stage = some (0, 0, 0, 0)
    ∧ ¬ gaveVerdict stageSlot ∧ gaveVerdict (holding stageSlot (.hsVerdict true 0 []))
    ∧ ((hurdled true 1).myCtx.hurdle 0).reg 0 6 = 1 ∧ ((2 : Word) &&& ~~~ 1 ≠ 0) ∧ ((1 : Word) &&& ~~~ 1 = 0) := by
  refine ⟨rfl, rfl, ?_, .inr ⟨true, 0, [], by simp [holding]⟩, by decide, by decide, by decide⟩
  simp [gaveVerdict, stageSlot, slotOf]

/-- A firing of context 0; contexts 1, 2 and 3 are RESIDENT, STOPPED and HALTED; the cluster holds an entry of context 1. -/
def kernel : State :=
  let s := sys0 0
  { s with
    ctxs := [{ id := 0, state := 1, lcores := [{ n := 0 }] }, { id := 1, state := 1, lcores := [{ n := 0 }] }, { id := 2, state := 2 },
      { id := 3, state := 3 }]
    clusters := [{ id := 0, tlb := [entryOf 1 7] }] }

theorem witness_PrivilegedInstructions : s46.focus.firing.ctx ≠ 0 ∧ kernel.focus.firing.ctx = 0
    ∧ (0x200 : Nat) / 2 ^ 9 % 128 ≠ 0 ∧ (0x18 : Nat) / 8 % 4 = 3 ∧ (0x11 : Nat) / 8 % 4 ≠ 3 ∧ (0x800 : Nat) / 2 ^ 11 ≠ 0
    ∧ tlbFind (kernel.clusterOf 0).tlb 1 0x10000 = some (entryOf 1 7) ∧ tlbFind (kernel.clusterOf 0).tlb 1 0x50000 = none
    ∧ (34 < 35 ∧ ¬ 34 < 34) ∧ (kernel.stateSeen kernel.focus 1 = 1 ∧ kernel.stateSeen kernel.focus 2 = 2
      ∧ kernel.stateSeen kernel.focus 3 = 3 ∧ kernel.stateSeen kernel.focus 4 = 0)
    ∧ (kernel.ctxOf 1).defines 0 = true ∧ (kernel.ctxOf 1).defines 1 = false := by decide

/-- R407: a rectangle given its own index again is whole; index 1's cluster given index 0 beside 0's leaves both whole. -/
theorem witness_PrivilegedInstructions_rects :
    ((List.range 32).all fun i => rectWhole ({ kernel with rects := rectApply (kernel.rectsSeen kernel.focus) 0 0x40 } : State).rectOf 0 i) = true
    ∧ kernel.rectMeetsFence ({ kernel with rects := kernel.rectsSeen kernel.focus } : State).rectOf 0 0x40 = false
    ∧ (0x80 : Nat) / 2 ^ 7 ≠ 0 ∧ ((1 : Nat) / 8 % 8 < 1 % 8) := by decide
/-! ### Witnesses: firings, chunks, commits -/

/-- A message from logical core 0 to channel 0 of logical core 1. -/
def note : Msg := { deviceMsg 1 1 0 [1, 2, 3] (.core 1 0) .send with src := 0 }

/-- Context 1, whose channel 0 of logical core 1 is on (four slots, at unit 2), and holds q; the ready firings are r. -/
def queued (f : Slot) (w0 : Nat) (q : List QSlot) (r : List Firing) : State :=
  { small f with
    ctxs := [{ id := 1, state := 1, objbase := 0x400000000000#64
               lcores := [{ n := 0 }, { n := 1, tt := [(0, { w0 := BitVec.ofNat 64 w0, w1 := 0, w2 := 4 * 2 ^ 14 + 2, q := q })] }] }]
    ready := r }

/-- A firing of logical core 1 at level 2 that is ready. -/
def waitingFiring : Firing := { ctx := 1, lc := 1, prio := 2 }

theorem witness_FiringAndChunkSteps_firings :
    ((1 : Word).toNat % 2 = 1 ∧ (slotOf []).active = true ∧ (slotOf []).firing.copy = 0)
    ∧ ((queued {} 0 [⟨.queued, note⟩] []).ctxOf 1).mayCreate 1 0 = true
    ∧ (((queued {} 0 [⟨.queued, note⟩] []).lcOf 1 1).ttOf 0).join = false
    ∧ (queued {} 0 [] [waitingFiring]).bestReady 0 = some waitingFiring ∧ (queued {} 0 [] [waitingFiring]).slotFree 0 3 = true
    ∧ (waitingFiring.dual = false ∧ waitingFiring.prio ≠ 0 ∧ waitingFiring.resume = none)
    ∧ (queued {} 0 [] [{ waitingFiring with resume := some {} }]).bestReady 0 = some { waitingFiring with resume := some {} }
    ∧ (let s : State := { queued {} 0 [] [waitingFiring] with cycle := 65536 }
       s.ready[0]? = some waitingFiring ∧ waitingFiring.movedAt + 65536 ≤ s.cycle ∧ (s.lcOf 1 1).valid = true ∧ (s.lcOf 1 1).out = false)
    ∧ (s46.ctxOf 1).runs = true ∧ s46.busy 1 (some 1) = false
    ∧ (let l := (s46.ctxOf 1).lcOf 1
       l.valid = true ∧ l.moving = false ∧ l.stopOut = false ∧ l.out = false) := by decide

/-- A slot whose chunk has n instructions and whose wait is w. -/
def filled (n : Nat) (w : Wait) : State :=
  let f := slotOf []
  small { f with chunk := { f.chunk with ninstr := n }, startChunk := { f.chunk with ninstr := n }, wait := w }

theorem witness_FiringAndChunkSteps_chunks : ((filled 512 .none).slotAt 0 0).isSome = true
    ∧ (filled 512 .none).limitCloses (filled 512 .none).focus = true ∧ (filled 511 .none).limitCloses (filled 511 .none).focus = false
    ∧ (filled 512 .none).focus.glen = 0 ∧ (filled 0 .none).focus.firing.dual = false
    ∧ ((filled 0 (.fence 4)).focus.chunk.ninstr = 0 ∧ (filled 0 (.fence 4)).focus.wait = .fence 4)
    ∧ (filled 0 (.watch [] 5)).focus.wait = .watch [] 5 ∧ 5 + 65536 ≤ 65541
    ∧ (([⟨1, 0, 0, 0, 0, 0, []⟩] : List Posting).find? fun p => p.to s46.focus.firing) = some ⟨1, 0, 0, 0, 0, 0, []⟩ := by decide

/-- Three slots: one whose ordered firing's key lies above that of another, and one of a firing that is not ordered. -/
def keyed (excl : Option (Nat × Nat)) (q : List (Nat × Nat)) : State :=
  let f := slotOf []
  let at' (n : Nat) (x : Word) : Slot := { f with core := n, firing := { ctx := 1, lc := n, ordered := true, key := ⟨x, false, 0, 0, 0⟩ } }
  { small { f with core := 3 } with others := [at' 1 9, at' 2 5], excl := excl, exclQ := q }

theorem witness_FiringAndChunkSteps_exclusive : (keyed none [(1, 0), (3, 0)]).exclQ = [(1, 0)] ++ (3, 0) :: []
    ∧ (((keyed none []).slotAt 1 0).map fun h => (h.firing.ordered, (keyed none []).atMin h.firing)) = some (true, false)
    ∧ (((keyed none []).slotAt 2 0).map fun h => (h.firing.ordered, (keyed none []).atMin h.firing)) = some (true, true)
    ∧ (((keyed none []).slotAt 3 0).map fun h => (h.firing.ordered, h.chunk.doomed)) = some (false, false)
    ∧ (keyed (some (1, 0)) []).excl = some (1, 0) ∧ (3, 0) ∈ (keyed none [(3, 0)]).exclQ := by decide

/-- R170: Create reserves the message; R62, R65: Dispatch gives g1 = NP, g2 = the channel, g30 the top of slot 3's stack. -/
theorem test_create : leads (.firingCreate 1 1 0) (queued {} 0 [⟨.queued, note⟩] []) (fun t => decide (t.ready.length = 1)
    && decide ((((t.lcOf 1 1).ttOf 0).q.map fun x => x.st) = [.reserved])) = true := by decide
theorem test_dispatch : leads (.firingDispatch 0 3) (queued {} 0 [] [waitingFiring]) (fun t =>
    ((t.slotAt 0 3).map fun g => (g.gr 1, g.gr 30)) == some (1, 0xFFFF000000D000)) = true := by decide

/-- A closed chunk that has stored four bytes, and another slot that has read one of them. -/
def stored (kind : EndKind) : State :=
  let f := slotOf []
  { small { f with chunk := { f.chunk with wbuf := [(0x20000, 1), (0x20001, 2), (0x20002, 3), (0x20003, 4)], closed := some kind } } with
    others := [{ f with k := 1, chunk := { f.chunk with rset := [.byte 0x20003] } }] }

theorem witness_CommitOfStores (kind : EndKind) (h : kind = .commit ∨ kind = .boundary ∨ kind = .fin) : let s := stored kind
    s.mayCommit = true ∧ s.slotAt s.focus.core s.focus.k = some s.focus ∧ s.focus.chunk.closed = some kind ∧ s.focus.chunk.held = []
    ∧ s.focus.firing.dual = false ∧ s.focus.firing.copy = 0 ∧ s.focus.firing.serial = false ∧ s.focus.firing.stage = none
    ∧ (s.ctxOf s.focus.firing.ctx).dgMode = 0 ∧ s.moves = [] ∧ Memory.wf s.mem = true
    ∧ (s.focus.chunk.wbuf.map fun c => c.1).Pairwise (· < ·) ∧ (∀ c ∈ s.focus.chunk.wbuf, frameAbsent c.1 = false)
    ∧ ∃ h ∈ s.others, h.active = true ∧ h.k ≠ s.focus.k ∧ ∃ c ∈ s.focus.chunk.wbuf, Loc.byte c.1 ∈ h.chunk.rset := by
  rcases h with rfl | rfl | rfl <;> decide

/-- The chunk has stored a whole sector of 32 bytes. -/
theorem witness_CommitOfStores_whole : ∀ q ∈ writtenSectors ((List.range 32).map fun i => 0x20000 + i), q.2 = true := by decide

theorem test_commit : leads (.chunkCommit 0 0) (stored .commit) (fun t => decide (cellReadList t.mem 0x20000 4 = [1, 2, 3, 4])
    && t.others.all fun h => h.chunk.doomed) = true := by decide
/-! ### Witnesses: the steps of messages -/

/-- A message lies in the network for context 1 (queued above: channel 0 of logical core 1). -/
def carrying (m : Msg) (q : List QSlot) : State := { queued {} 0 q [] with net := [m] }

theorem witness_MessageSteps_delivery : (carrying note []).fate note = .write ∧ (carrying note []).relayClear note = true
    ∧ (carrying note []).behind 0 note Msg.toFifo = false ∧ ((carrying note []).ctxOf 1).inboxHolds 1 = false
    ∧ (carrying note []).fencedCore 0 = false
    ∧ (carrying note (List.replicate 4 ⟨.queued, note⟩)).fate note = .wait
    ∧ (carrying note (List.replicate 3 ⟨.queued, note⟩)).fate note = .write ∧ note.isReply = false := by decide

/-- A round's result for logical core 1. -/
def result : Msg := { note with kind := .redResult 0 3 }

theorem witness_MessageSteps_result : (carrying result []).mayDeliver 0 result ∧ (carrying result []).fate result = .write ∧ result.ch ≠ 62
    ∧ result.isReply = false := by
  unfold State.mayDeliver; decide

/-- R169: the message takes the FIFO's first free slot. -/
theorem test_deliver : leads (.messageDeliver 0) (carrying note []) (fun t =>
    decide (t.net.length = 0) && decide ((((t.lcOf 1 1).ttOf 0).q.map fun x => x.st) = [.queued])) = true := by decide

/-- A reply of action n about block 0 of logical core 1, which a firing in suspense waits for; the blocks lie at 0. -/
def reply (n : Byte) : Msg := { deviceMsg 1 1 62 (leBytes 8 0 ++ [n]) (.core 1 0) .send with src := 0 }
def replying (n : Byte) : State :=
  { trapping with
    net := [reply n], susp := [⟨{ ctx := 1, lc := 1 }, 0, 0, 0, 0, 0, 0⟩]
    ctxs := trapping.ctxs.map fun c => { c with trapsv := BitVec.ofNat 64 (2 ^ 64 - 8 * 4608) } }

theorem witness_mayDeliver : (carrying note []).mayDeliver 0 note ∧ (replying 1).mayDeliver 0 (reply 1) ∧ Memory.wf (carrying note []).mem = true
    ∧ note.payload.length ≤ 64 := by
  unfold State.mayDeliver; decide

theorem witness_MessageSteps_replies : (∀ n ∈ [1, 2, 3], leNat (((reply (BitVec.ofNat 8 n)).payload.drop 8).take 1) = n
      ∧ (replying (BitVec.ofNat 8 n)).suspOf 1 1 0 = some ⟨{ ctx := 1, lc := 1 }, 0, 0, 0, 0, 0, 0⟩)
    ∧ ((replying 1).readBlock 1 0).isSome = true ∧ ((replying 1).ctxOf 1).halted = false ∧ ((replying 1).lcOf 1 1).out = false := by decide

theorem witness_MessageSteps_reply : (reply 1).isReply = true := by simp [Msg.isReply, reply, deviceMsg, replyForm, leBytes]

/-- Logical core 1 is out; the inbox has room for n, and the message has been tried k times. -/
def inboxed (n k : Nat) : State :=
  { carrying { note with tries := k } [] with
    ctxs := [{ id := 1, state := 1, inboxCap := n, trapch := 0x80000000#64, lcores := [{ n := 0, tt := [(0, { w1 := 0 })] }, { n := 1, out := true }] }]
    cycle := 4096 }

theorem witness_MessageSteps_inbox : ((inboxed 1 0).lcOf 1 1).out = true ∧ ((inboxed 1 0).ctxOf 1).defines 1 = true
    ∧ ((inboxed 1 0).ctxOf 1).halted = false ∧ (inboxed 1 0).behind 0 { note with tries := 0 } Msg.toFifo = false
    ∧ ((inboxed 1 0).ctxOf 1).inRing.length < ((inboxed 1 0).ctxOf 1).inboxCap
    ∧ ((inboxed 0 62).ctxOf 1).inboxCap ≤ ((inboxed 0 62).ctxOf 1).inRing.length ∧ Memory.wf (inboxed 1 0).mem = true
    ∧ (62 + 1 < 64 ∧ ¬ 63 + 1 < 64 ∧ note.triedAt + 4096 ≤ (inboxed 0 63).cycle) ∧ note.host = false
    ∧ ((inboxed 0 63).ctxOf 1).trapNamesNone = false := by decide

theorem witness_ownPackage : note.spkg = Config.ownPackage.val := rfl

/-- Mailbox 1 of cluster 0 (slot 1 of core 0) waits for request 5. -/
def missing (code : Nat) : State :=
  let f := { slotOf [] with k := 1, wait := .mailbox 5 }
  { small f with clusters := [{ id := 0, boxes := [(1, 5, 0x50000, 1, 0, 0)] }], net := [deviceMsg 1 0 0 [] .device (.mailboxReply 1 5 code)] }

theorem witness_MessageSteps_mailbox : ((missing 2).net[0]?).map (fun m => m.kind) = some (.mailboxReply 1 5 2) ∧ 1 < 32
    ∧ ((((missing 0).clusterOf 0).boxes.find? fun b => decide (b.1 = 1) && decide (b.2.1 = 5)).isSome = true)
    ∧ (missing 1).slotAt (coreAt 0 (1 / 4)) (1 % 4) = some (missing 1).focus ∧ (missing 2).focus.firing.alarm = none := by decide

/-- Another slot, which holds exclusive commit, has read the first byte of the block that the exception would write. -/
def missingHeld : State :=
  let f := { slotOf [] with k := 1, wait := .mailbox 5 }
  { trappingHeld with focus := f, clusters := [{ id := 0, boxes := [(1, 5, 0x50000, 1, 0, 0)] }]
                      net := [deviceMsg 1 0 0 [] .device (.mailboxReply 1 5 2)] }

theorem witness_MessageSteps_mailboxWaits : (missingHeld.refocus 0 1).exceptionWaits = true
    ∧ ((missing 2).refocus 0 1).exceptionWaits = false ∧ missingHeld.slotAt (coreAt 0 (1 / 4)) (1 % 4) = some missingHeld.focus
    ∧ missingHeld.focus.firing.alarm = none := by decide

/-- The inbox of context 1 holds the message. -/
def replaying : State :=
  { carrying note [] with net := [], ctxs := (carrying note []).ctxs.map fun c => { c with inbox := [note], inRing := [true], inboxCap := 4, hostOk := true } }

/-- No chunk holds exclusive commit. -/
theorem witness_freeToWrite (n : Nat) : (carrying note []).freeToWrite n 128 ∧ replaying.freeToWrite n 128 := by
  constructor <;> (intro p f h; simp [carrying, replaying, queued, small, State.reset] at h)

theorem witness_MessageSteps_replay : (replaying.ctxOf 1).inbox = [note] := rfl

theorem witness_MessageSteps_host : ((replaying.ctxOf 1).inbox.find? fun m => m.dst = 1).map (fun m => m.payload) = some [1, 2, 3] ∧ replaying.fate note = .write
    ∧ (replaying.ctxOf 1).inRing = [true] ∧ 0 < (replaying.ctxOf 1).inboxCap
    ∧ (let l := (replaying.ctxOf 1).lcOf 1
       l.out = false ∧ l.moving = false ∧ l.valid = true) ∧ (note.ctx = 1 ∧ note.kind = .send) ∧ (outside []).ordered = false
    ∧ (replaying.ctxOf 1).halted = false ∧ (replaying.ctxOf 1).hostOk = true ∧ (s46.ctxOf 1).hostOk = false ∧ (2 : Nat) < 3
    ∧ (64 ≤ 64 ∧ 64 < 65) := by decide

/-- Group 0 sums logical core 0's contribution of two lanes; the root is logical core 1. -/
def folding : State :=
  { small {} with ctxs := [{ id := 1, state := 1, lcores := [{ n := 0 }, { n := 1 }]
                             reds := [(0, { on := true, cfgA := BitVec.ofNat 64 (1 * 2 ^ 17 + 1 * 2 ^ 7), got := [(0, 0, [0, 0, 0x80, 0x3F], 0)] })] }] }

theorem witness_MessageSteps_reduction : let g := (folding.ctxOf 1).redOf 0
    g.on = true ∧ ((List.range 4096).filter fun n => inRect g.cfgB n && (folding.ctxOf 1).defines n) = [0] ∧ (folding.ctxOf 1).halted = false ∧ g.spans = false ∧ (folding.ctxOf 1).defines 1 = true
    ∧ g.exact = false ∧ g.lanes = 2 ∧ g.got.length = 1 := by decide

/-- A sweep is due; an ordered firing of timestamp 9 is ready and every ordered message has arrived. -/
def sweeping : State :=
  { small {} with
    ctxs := [{ id := 1, state := 1, gvt := 3, ordSent := 4, ordRecv := 4, prevTotals := some (4, 4), lcores := [{ n := 0 }] }]
    ready := [{ ctx := 1, ordered := true, key := ⟨9, false, 0, 0, 0⟩ }], cycle := 256 }

theorem witness_MessageSteps_sweep : sweeping.hasCtx 1 = true ∧ (sweeping.ctxOf 1).sweepAt + 256 ≤ sweeping.cycle
    ∧ (sweeping.minKey 1).map (fun k => k.ts) = some 9 ∧ ((sweeping.ctxOf 1).gvt.toNat < 9)
    ∧ (sweeping.ctxOf 1).prevTotals = some (4, 4) := by decide

theorem test_sweep : leads (.gvtSweep 1) sweeping (fun t => decide ((t.ctxOf 1).gvt = 9)) = true := by decide

/-- Core 0 has one relay entry, which every router but router 5 has passed. -/
theorem witness_MessageSteps_relay : ({ s46 with cores := [{ id := 0, relay := [⟨1, 0, 7, 0, []⟩] }] } : State).coreOf 0
      = { id := 0, relay := [⟨1, 0, 7, 0, []⟩] } ∧ (5 : Nat) ∉ ([] : List Nat) ∧ s46.moves = [] ∧ s46.net = [] ∧ 1023 < 1024 := by decide

/-! ### Witnesses: engines and copies -/

/-- A copy of one element of the UINT8 object 0 to object 1, taken; page 1 of the cluster's TLB lets it read and write. -/
def copyBlock (op e0 e1 : Nat) : List Byte :=
  leBytes 8 op ++ leBytes 8 0 ++ leBytes 8 0 ++ leBytes 8 0 ++ leBytes 8 1 ++ leBytes 8 0 ++ leBytes 8 (e0 + e1 * 2 ^ 32) ++ leBytes 8 0

/-- An object record in page 1: two by two UINT8 elements at 0x10000 + off. -/
def objAt (off : Nat) : Nat := leNat (leBytes 8 (0x10000 + off) ++ leBytes 8 (5 + 1 * 2 ^ 5) ++ leBytes 4 2 ++ leBytes 4 2 ++ leBytes 8 0
  ++ leBytes 6 1 ++ leBytes 6 2 ++ leBytes 20 0)

def copyJob (op st : Nat) : Job :=
  { job7 .copy st with op := op, block := copyBlock op 2 2, recs := [(0, objAt 0), (1, objAt 0x80)], uid := 3 }

def copying (j : Job) : State :=
  { withMem [1, 2, 3, 4] {} with jobs := [j], clusters := [{ id := 0, tlb := [entryOf 1 7] }] }

theorem witness_EngineAndCopySteps_takes : (copying (copyJob 0 1)).headJob .copy (coreAt 0 0) = some (copyJob 0 1)
    ∧ (copying (copyJob 0 1)).mayTake (copyJob 0 1) = true ∧ (copying { job7 .matrix 1 with op := 5 }).nextTurn 0 .matrix = some 0 ∧ (copying (copyJob 0 1)).nextTurn 0 .copy = some 0
    ∧ (copying { job7 .matrix 1 with op := 5 }).headJob .matrix (coreAt 0 0) = some { job7 .matrix 1 with op := 5 } := by decide

/-- The same copy with its first element read; and one whose source ends before its first row does. -/
def copyGot (op : Nat) : Job := { copyJob op 2 with buf := [(0, 9, 127)] }
def shortSource : Job := { copyJob 0 2 with recs := [(0, 0), (1, objAt 0x80)] }

theorem witness_EngineAndCopySteps_elements : let j := copyJob 0 2
    let s := copying j
    s.runningJob 0 .copy 3 = some j ∧ s.readsOf j 1 = some ⟨.va 0x10001 false, uint8, none⟩ ∧ j.got 1 = none
    ∧ j.readsRemote 1 = false ∧ (s.readOperand j [] ⟨.va 0x10001 false, uint8, none⟩ = .bytes [2, 127])
    ∧ (copying shortSource).readsOf shortSource 0 = some ⟨.outside, fp32, none⟩
    ∧ ((copying (copyGot 0)).writeOf (copyGot 0) 0).map (fun w => w.dst.loc) = some (.va 0x10080 false)
    ∧ (copyGot 0).rowsBefore 0 = true ∧ (copyGot 0).remote = false
    ∧ (copying (copyGot 0)).elemLocs (copyGot 0) (.va 0x10080 false) (codeBytes uint8.width) true = [.key 0x20080 own]
    ∧ (copyGot 0).done = [] ∧ (copyGot 0).cancel = false ∧ (copyGot 0).halted = false ∧ 0 < uint8.width ∧ (copyGot 0).zero = [] ∧ s.linksDown = false
    ∧ (copying (copyGot 0)).exclBlocks none [0x20080] = false := by decide

theorem witness_holdsKeys : (copying (copyJob 0 2)).holdsKeys 1 0x20000 512 := by
  intro i h _
  have hall : ∀ i, i < 512 → (copying (copyJob 0 2)).hits 1 (0x20000 + i) = true := by decide
  exact hall i h

/-- The same copy from an object in host memory. -/
def hostCopy : Job :=
  { copyJob 0 2 with recs := [(0, leNat (leBytes 8 0x80000000000000 ++ leBytes 8 (5 + 1 * 2 ^ 5) ++ leBytes 4 2 ++ leBytes 4 2 ++ leBytes 8 0
      ++ leBytes 6 1 ++ leBytes 6 2 ++ leBytes 20 0)), (1, objAt 0x80)] }

theorem witness_EngineAndCopySteps_host : (copying hostCopy).readsOf hostCopy 0 = some ⟨.va 0x80000000000000 false, uint8, none⟩
    ∧ (copying hostCopy).readsHost hostCopy ⟨.va 0x80000000000000 false, uint8, none⟩ = true
    ∧ (copying hostCopy).runningJob 0 .copy 3 = some hostCopy := by decide

/-- A copy whose destination lies in package n, at the head of its queue; and the same where every link is down. -/
def farCopy (n : Nat) : Job := { copyJob 0 1 with block := (copyBlock 0 2 2).take 56 ++ leBytes 8 (n + 0x80) }
def cutOff : State := { copying (farCopy 0) with ports := (List.range 16).map fun i => (i, { down := true }) }

theorem witness_EngineAndCopySteps_far : (∃ n, n < 2 ∧ (farCopy n).remote = true)
    ∧ (∀ n, n < 2 → (copying (farCopy n)).headJob .copy (coreAt 0 0) = some (farCopy n) ∧ (farCopy n).op = 0)
    ∧ (∀ n, n < 2 → (copying (farCopy n)).reaches n = true) ∧ cutOff.reaches 0 = false := by
  refine ⟨?_, by decide, by decide, by decide⟩
  have h : ∀ n, n < 2 → (farCopy n).bits 7 5 0 = n ∧ (farCopy n).bits 7 7 6 = 2 ∧ (farCopy n).engine = .copy ∧ (farCopy n).op = 0 := by
    decide
  by_cases hp : Config.ownPackage.val = 0
  · refine ⟨1, by decide, ?_⟩
    obtain ⟨h1, h2, h3, h4⟩ := h 1 (by decide)
    simp [Job.remote, h1, h2, h3, h4, hp]
  · refine ⟨0, by decide, ?_⟩
    obtain ⟨h1, h2, h3, h4⟩ := h 0 (by decide)
    have : ¬ 0 = Config.ownPackage.val := fun e => hp e.symm
    simp [Job.remote, h1, h2, h3, h4, this]

theorem witness_EngineAndCopySteps_ops : (∀ op ∈ [0, 1, 2, 3, 4, 5], (copying (copyJob op 2)).copyJob 0 3 op 1 1 = some (copyJob op 2))
    ∧ (copyJob 1 2).got 4 = none ∧ (copyGot 0).got 0 ≠ none ∧ 0 ≤ s46.log.length := by decide

/-- R307: COPY reads 2 at (1, 0), then performs 9 at (0, 0). -/
theorem test_copyReads : leads (.copyOpCopy 0 3 1 0) (copying (copyJob 0 2)) (fun t =>
    decide ((t.jobs.map fun j => j.buf) = [[(1, 2, 127)]])) = true := by decide
theorem test_copyWrites : leads (.copyOpCopy 0 3 0 0) (copying (copyGot 0)) (fun t => decide (t.committedByte 0 0x20080 = 9)
    && decide (t.committedByte 1 0x20080 = 0)) = true := by decide

/-- A pending byte; a finished copy; a collection window that was last used at cycle 0. -/
def pending : State :=
  { copying { copyJob 0 2 with err := 8 } with
    pend := [⟨0, .copy, 3, 0x20080, 9, 0, 0, own⟩], cycle := 65536, clusters := [{ id := 0, windows := [⟨1, 2, 0, 6⟩, ⟨1, 3, 0, 0⟩] }] }

theorem witness_EngineAndCopySteps_ends : pending.pend[0]? = some ⟨0, .copy, 3, 0x20080, 9, 0, 0, own⟩ ∧ frameAbsent 0x20080 = false
    ∧ (∀ q ∈ pending.pend.drop 1, q.job = 3 → q.key ≠ 0x20080)
    ∧ pending.stepsDone { copyJob 0 2 with err := 8 } = true ∧ pending.releaseMet { copyJob 0 2 with err := 8 } = true
    ∧ ({ copyJob 0 2 with err := 8 } : Job).migrated = true ∧ pending.jobTilesHeld { copyJob 0 2 with err := 8 } = false
    ∧ pending.exclBlocks none [0x20080] = false ∧ Memory.wf pending.mem = true ∧ pending.migs = []
    ∧ ((pending.clusterOf 0).windows.find? fun w => decide (w.ctx = 1) && decide (w.wg = 2)) = some ⟨1, 2, 0, 6⟩
    ∧ (0 + 65536 ≤ pending.cycle ∧ ¬ 65535 < 0 + 65535) ∧ (inboxed 0 0).pend = [] ∧ ((inboxed 0 0).ctxOf 1).trapNamesNone = false := by decide

/-- A RINGSWEEP over the ring word at 0x10000 with clock c. -/
def sweepOf (c : Nat) (rsv : Nat) : Job × State :=
  let j : Job := { job7 .copy 2 with op := 5, block := copyBlock 5 1 1, uid := 3, clocks := [(0, BitVec.ofNat 64 c)]
                                     recs := [(1, leNat (leBytes 8 0x10000 ++ leBytes 8 5 ++ leBytes 4 1 ++ leBytes 12 0 ++ leBytes 6 16 ++ leBytes 26 0))] }
  (j, { withMem (RingWord.bytes { ramp with rsv := rsv }) {} with poison := [], jobs := [j], clusters := [{ id := 0, tlb := [entryOf 1 7] }] })

theorem witness_EngineAndCopySteps_sweeps : let p := sweepOf (2 ^ 46) 0
    p.2.copyJob 0 3 5 0 0 = some p.1 ∧ (p.2.copyOperand p.1 (decide (p.1.bits 0 5 5 = 1)) 4 ringFmt 0 0).loc = .va 0x10000 false
    ∧ p.2.engineLoc p.1 0x10000 true = .key 0x20000 own
    ∧ (RingWord.ofBytes (cellReadList p.2.mem 0x20000 16)).rsv = 0 ∧ (RingWord.ofBytes (cellReadList (sweepOf 0 7).2.mem 0x20000 16)).rsv = 7
    ∧ okB ((p.2.readLaw p.1 0).sweepLaw p.1 0) = true ∧ (clockOf (lookupD p.1.clocks 0 0) 0 0).raw = 2 ^ 46
    ∧ (clockOf (2 ^ 46 - 1) 0 0).raw < 2 ^ 46 ∧ (clockOf (2 ^ 47 - 1) 0 0).raw < 2 ^ 47 := by decide

/-- A REGRAN (or RELEASE) of two frames, 5 and 6 to 8 and 9, taken. -/
def regranJob (w7 : Nat) (done : List Nat) : Job :=
  { job7 .copy 2 with
    op := 6, uid := 3, done := done
    block := leBytes 8 6 ++ leBytes 16 0 ++ leBytes 8 (5 * 2 ^ 16) ++ leBytes 8 0 ++ leBytes 8 (8 * 2 ^ 16) ++ leBytes 8 0x100000002 ++ leBytes 8 w7 }

/-- Frame 5 is under migration in a pass, with lines 0 and 511 to visit. -/
def migrating (pass : Nat) : State :=
  { copying (regranJob 0 []) with migs := [{ uid := 3, src := 5, dst := 8, ogran := 0, ngran := 0, keyid := 0, marked := [0, 511], todo := [0, 511], pass := pass }] }

/-- R391: after the completion the second stage names the destination frame under NGRAN. -/
theorem test_mapMigrated : ((({
      migs := [{ uid := 3, src := 5, dst := 8, ogran := 0, ngran := 3, keyid := 0, marked := [], todo := [], closed := true }]
      ctxs := [{ id := 1, stage2 := [{ ia := 2, pa := 5, gran := 0, cache := true, shared := false, mig := true, ro := false, keyid := 0 }] }] } :
      State).mapMigrated 3).ctxOf 1).stage2
    = [{ ia := 2, pa := 8, gran := 3, cache := true, shared := false, mig := false, ro := false, keyid := 0 }] := by decide

theorem witness_EngineAndCopySteps_regran : (copying (regranJob 0 [])).runningJob 0 .copy 3 = some (regranJob 0 [])
    ∧ (regranJob 0 []).releases = false ∧ (regranJob 0x10 []).releases = true
    ∧ (copying (regranJob 0 [])).openFrame 3 = none ∧ (regranJob 0 []).done.length < (regranJob 0 []).e0
    ∧ ((migrating 4).openFrame 3).map (fun m => (m.pass, m.todo, m.marked, m.switched)) = some (4, [0, 511], [0, 511], [])
    ∧ ((migrating 5).openFrame 3).map (fun m => m.pass) = some 5 ∧ 511 < 512 ∧ Memory.wf (migrating 5).mem = true := by decide

theorem test_regranSwitch : leads (.regran 0 3 511) (migrating 5) (fun t => decide (t.home (5 * 2 ^ 16 + 65535) = 8 * 2 ^ 16 + 65535)
    && decide (t.home (5 * 2 ^ 16 + 7) = 5 * 2 ^ 16 + 7)) = true := by decide
/-! ### Witnesses: hurdles, placement, contexts, clusters -/

/-- A record of set 0 with RID 7 in a phase, stage 0, DONE d; set 0 has one stage with pool member 0, QD 1, and exits to
channel 5 of logical core 0. -/
def record (d : Nat) (p : HPhase) : HRec := ⟨0, 7, 0, List.replicate 56 1, d, 0, 0, p, false, false, none⟩
def routed (r : List HRec) (net : List Msg) : State :=
  { small {} with
    ctxs := [{ id := 1, state := 1, lcores := [{ n := 0 }]
               hurdles := [(0, { regs := [(0, 0x1000001), (1, BitVec.ofNat 64 (5 * 2 ^ 12)), (4, 0x10001), (5, 0xFF), (6, 1)], recs := r })] }]
    net := net }
def verdict (pass err : Bool) : Msg := deviceMsg 1 0 0 (List.replicate 56 2) (.hurdle 0) (.hsVerdict 0 0 7 0 pass err 1 10)

theorem witness_HurdleAndPlacementSteps_hurdles : ((routed [] []).ctxOf 1).runs = true ∧ ((routed [] []).hurdleOf 1 0).free ≠ 0
    ∧ ((routed [record 0xFE (.dispatched 0)] [verdict true false]).hurdleOf 1 0).recOf 0 7 = some (record 0xFE (.dispatched 0))
    ∧ (record 0xFE (.dispatched 0)).atWorker = true ∧ (record 0xFE .waiting).atWorker = false
    ∧ (0xFE ||| 2 ^ 0 : Nat) % 256 = 255 ∧ (0xFC ||| 2 ^ 0 : Nat) % 256 ≠ 255
    ∧ ((routed [] []).hurdleOf 1 0).ctl 0 5 = false ∧ ((routed [] []).hurdleOf 1 0).ctl 0 6 = false
    ∧ bitsOf (((routed [] []).hurdleOf 1 0).reg 0 1) 11 0 = 0 ∧ ((routed [] []).ctxOf 1).defines 0 = true
    ∧ ((routed [record 0xFE .waiting] []).hurdleOf 1 0).firstWaiting 0 0 = some (record 0xFE .waiting)
    ∧ ((routed [record 0xFE .waiting] []).hurdleOf 1 0).member 0 0 = some 0 := by decide

theorem test_entryDone : leads (.hsEntryDelivery 0) (routed [] [deviceMsg 1 0 0 (List.replicate 56 1) (.core 1 0) (.hsEntry 0 0 7)])
    (fun t => decide ((((t.hurdleOf 1 0).recOf 0 7).map fun r => r.done) = some 0xFE)) = true := by decide

/-- One placement command of logical core 0 of context 0 has begun: about context 1, which is in a state, with room to be
saved or without. -/
def moving (k : MoveKind) (state size : Nat) (jobs : List Job) : State :=
  { small {} with
    ctxs := [{ id := 0, state := 1, lcores := [{ n := 0 }] }, { id := 1, state := state, svSize := size, lcores := [{ n := 0 }] }]
    moves := [{ kind := k, src := 0, a := 1, b := 0x5, fid := 0, fts := 0, fch := 0, begun := true }], jobs := jobs }

theorem witness_HurdleAndPlacementSteps_moves : ((moving .stop 1 0 []).ctxOf 0).defines 0 = true
    ∧ (moving .stop 1 0 []).busy 1 none = false ∧ (moving .stop 1 0 [job7 .copy 2]).busy 1 none = true
    ∧ (moving .mig 1 0 []).busy (migCtx 1) (some (migLc 1)) = false ∧ ((moving .go 2 0 []).ctxOf 1).state = 2
    ∧ (0x1005 : Word).getLsbD 12 = true ∧ (5 : Word).getLsbD 12 = false := by decide

theorem witness_HurdleAndPlacementSteps_save : ∃ n, ((moving .stop 1 n []).ctxOf 1).saveNeed ≤ ((moving .stop 1 n []).ctxOf 1).svSize * 2 ^ 16 := by
  refine ⟨((moving .stop 1 0 []).ctxOf 1).saveNeed, ?_⟩
  have h : ∀ n, ((moving .stop 1 n []).ctxOf 1).svSize = n ∧ ((moving .stop 1 n []).ctxOf 1).saveNeed = ((moving .stop 1 0 []).ctxOf 1).saveNeed :=
    fun n => ⟨rfl, rfl⟩
  rw [(h _).1, (h _).2]
  exact Nat.le_mul_of_pos_right _ (by decide)

/-- Without a save area nothing fits. -/
theorem witness_HurdleAndPlacementSteps_halts : ¬ ((moving .stop 1 0 []).ctxOf 1).saveNeed ≤ ((moving .stop 1 0 []).ctxOf 1).svSize * 2 ^ 16 := by
  have h : ((moving .stop 1 0 []).ctxOf 1).svSize = 0 := rfl
  have h0 : ((moving .stop 1 0 []).ctxOf 1).imageAt ≠ 0 := by decide
  rw [h, Ctx.saveNeed]
  omega

/-- Context 1 is STOPPED, without logical cores, with a save area that begins with a version; other contexts are resident. -/
def saved (v n : Nat) : State :=
  { moving .go 2 0 [] with
    ctxs := [{ id := 0, state := 1, lcores := [{ n := 0 }] }, { id := 1, state := 2 }]
      ++ (List.range n).map fun i => { id := i + 2, state := 1 }
    mem := cellWriteList [] 0 (leBytes 8 v) }

theorem saved_version (v n : Nat) (h : v < 2 ^ 64) : cellNat (saved v n).mem ((saved v n).ctxOf 1).svBase 8 = v := by
  have hb : ((saved v n).ctxOf 1).svBase = 0 := rfl
  have hm : (saved v n).mem = cellWriteList [] 0 (leBytes 8 v) := rfl
  rw [hb, hm]
  simp only [cellNat, cellReadList, cellRead_cellWriteList _ [] _ _ (by decide : Memory.wf [] = true)]
  simp [leBytes, leNat]
  omega

theorem witness_HurdleAndPlacementSteps_go : (∃ v, v < 2 ^ 64 ∧ v ≠ Config.imageVersion.toNat)
    ∧ ((saved 0 64).ctxOf 1).state = 2 ∧ Config.imageVersion.toNat < 2 ^ 64 ∧ Memory.wf (saved 5 0).mem = true
    ∧ (∀ v b, (saved v 64).canResume ((saved v 64).placeFrom ((saved v 64).ctxOf 1) b) = false) := by
  refine ⟨?_, by decide, Config.imageVersion.isLt, by decide, ?_⟩
  · by_cases h : Config.imageVersion.toNat = 0
    · exact ⟨1, by decide, by omega⟩
    · exact ⟨0, by decide, fun e => h e.symm⟩
  · intro v b
    have h : (saved v 64).residents = (saved 0 64).residents := rfl
    have h0 : ¬ (saved 0 64).residents < 64 := by decide
    simp [State.canResume, h, h0]

/-- No image is recorded, so that the one in the save area is the one written last. -/
theorem witness_HurdleAndPlacementSteps_image (v n : Nat) : (saved v n).fromImage ((saved v n).ctxOf 1) = saved v n := rfl

/-- The image has this version, the placement table at 0x10000 names no core, and the package has room. -/
theorem witness_HurdleAndPlacementSteps_resume (v : Nat) :
    (saved v 0).canResume ((saved v 0).placeFrom ((saved v 0).ctxOf 1) 0x10000) = true := by
  have hz : ∀ n, cellNat (saved v 0).mem ((saved v 0).home (0x10000 + 2 * n)) 2 = 0 := by
    intro n
    have hh : (saved v 0).home (0x10000 + 2 * n) = 0x10000 + 2 * n := by simp [State.home, saved, moving, small, State.reset]
    have hm : (saved v 0).mem = cellWriteList [] 0 (leBytes 8 v) := rfl
    rw [hh, hm]
    simp only [cellNat, cellReadList, cellRead_cellWriteList _ [] _ _ (by decide : Memory.wf [] = true)]
    simp [leBytes, leNat, cellRead]
    exact ⟨by rw [if_neg (by omega)]; rfl, by rw [if_neg (by omega)]; rfl⟩
  have hp : (saved v 0).placeFrom ((saved v 0).ctxOf 1) 0x10000 = (saved v 0).ctxOf 1 := by
    have hd : ∀ n, ((saved v 0).ctxOf 1).defines n = false := fun n => rfl
    unfold State.placeFrom
    suffices h : ∀ l : List Nat, l.foldl (fun (c : Ctx) n =>
        let e := cellNat (saved v 0).mem ((saved v 0).home (0x10000 + 2 * n)) 2
        if natBits e 12 12 = 1 ∨ c.defines n = true then c.setLc ({ c.lcOf n with n := n }.placed e) else c)
        ((saved v 0).ctxOf 1) = (saved v 0).ctxOf 1 from h _
    intro l
    induction l with
    | nil => rfl
    | cons n t ih =>
      rw [List.foldl_cons]
      have : ¬ (natBits 0 12 12 = 1 ∨ ((saved v 0).ctxOf 1).defines n = true) := by rw [hd]; decide
      simp only [hz, this, if_false]
      simpa only [hz] using ih
  rw [hp]
  have h : (saved v 0).residents = (saved 0 0).residents := rfl
  have h0 : (saved 0 0).residents < 64 := by decide
  have hl : ((saved v 0).ctxOf 1).lcores = [] := rfl
  simp [State.canResume, h, h0, hl]

/-- A move whose target has room, one to a retired core, one into the save area, and one that fails at its beginning. -/
def movingTo (b : Word) (status : Nat) (retired : List (UnitKind × Nat)) : State :=
  { moving .mig 1 0 [] with
    moves := [{ kind := .mig, src := 0, a := 1, b := b, fid := 0, fts := 0, fch := 0, begun := true, status := status }]
    retired := retired }

/-- The copy queue of the target is full, and the logical core that moves has a command of its own queued. -/
def fullTarget : State :=
  { movingTo 5 0 [] with jobs := job7 .copy 1 :: (List.range 8).map fun i => { job7 .copy 1 with ctx := 9, pcore := 5, uid := i + 1 } }

theorem witness_HurdleAndPlacementSteps_mig :
    (movingTo 5 0 []).moves.map (movingTo 5 0 []).migResult = [0]
    ∧ (movingTo 5 0 [(.core, 5)]).moves.map (movingTo 5 0 [(.core, 5)]).migResult ≠ [0]
    ∧ (movingTo 0x1005 0 [(.core, 5)]).moves.map (movingTo 0x1005 0 [(.core, 5)]).migResult = [0]
    ∧ (movingTo 5 2 []).moves.map (movingTo 5 2 []).migResult = [2]
    ∧ (movingTo 5 0 []).moves.map (movingTo 5 0 []).moveFits = [true] ∧ fullTarget.moves.map fullTarget.moveFits = [false] := by decide

/-- A description of context 2 with its tables apart. -/
def spec2 : CtxSpec :=
  { ctxSpec 2 [coreSpec 0 65536 [1]] with lawBase := 0x10000, trapSave := 0x20000000, dlBase := 0x40000000 }

theorem witness_ContextAndClusterSteps :
    (spec2.ctx < 256 ∧ (s46.ctxOf 2).state = 0 ∧ s46.residents < 64 ∧ (s46.ctxOf 1).state = 1)
    ∧ s46.spaceOk (createdCtx spec2) = true ∧ s46.spaceOk (createdCtx { spec2 with pages := [⟨0, 2 ^ 23, 0, true, false, false, false, 0⟩] }) = false
    ∧ rangesApart (createdCtx spec2).fixedTables = true ∧ rangesApart (createdCtx (ctxSpec 2 [coreSpec 0 65536 [1]])).fixedTables = false
    ∧ ({ s46 with ctxs := s46.ctxs.filter fun x => x.id ≠ 2 } : State).canHost 2 spec2.cores = true ∧ Memory.wf s46.mem = true
    ∧ s46.hasCtx 1 = true ∧ (UnitKind.core ≠ .llc ∧ UnitKind.core ≠ .pc ∧ UnitKind.core ≠ .port)
    ∧ 1023 < 1024 ∧ 127 < 128 := by decide

/-- A held invalidation of every entry, and a held merge of every watch group, wait for their acknowledgement. -/
def releasing (wg : Bool) : Release :=
  { ctx := 1, lc := 0, cluster := 0, slotCore := 0, wg := wg, inv := !wg, firing := {}
    held := [if wg then .wgSync 0x100 else .sys 33 0x700 0] }

theorem witness_ContextAndClusterSteps_releases : (releasing false).held = [.sys 33 0x700 0] ∧ (releasing false).inv = true
    ∧ (releasing true).held = [.wgSync 0x100] ∧ (releasing true).inv = false ∧ (0x700 : Word).getLsbD 10 = true
    ∧ 63 ∈ syncGroups 0x100 := by decide

/-! ### Witnesses: the LLC and DRAM -/

/-- The LLC holds the first line of frame 2 under attributes a, with these masks; units l are poisoned, p retired. -/
def lined (a : Attr) (valid dirty : Nat) (l : List (Nat × Nat)) (p : List (UnitKind × Nat)) : State :=
  { s46 with llc := [⟨0x400, a, valid, dirty⟩], poison := l, retired := p }

/-- A slot whose access waits for the unit of a byte. -/
def filling (k : Nat) : State :=
  let s := withMem [] { slotOf [] with wait := .fill k own }
  { s with mem := [(0x20200, 5)] }

theorem ownLines_of {s : State} {a : Attr} {base : Nat}
    (h : ((unitSectors a.gran base).all fun q => match s.lineAt (q / 128) with
      | some x => decide (x.attr.ctx = a.ctx)
      | none => true) = true) : s.ownLines a base := by
  intro q hq x hx
  have := List.all_eq_true.mp h q hq
  simpa [hx] using this

theorem witness_LlcAndDramSteps_fill :
    (∀ k ∈ [0x20200, 0x20040], (filling k).slotAt 0 0 = some (filling k).focus
      ∧ ((filling k).slots.find? fun x => x.active && decide (x.wait = .fill k own)) = some (filling k).focus ∧ (filling k).focus.wait = .fill k own
      ∧ inDram k = true ∧ (filling k).recorded own k = own ∧ (filling k).homeOff own k = false
      ∧ Memory.wf (filling k).mem = true ∧ (filling k).ownLines own (unitBase 0 k))
    ∧ ((filling 0x20200).getUnit own 0x20200).2 = some (5 :: List.replicate 31 0)
    ∧ ((filling 0x20040).getUnit own 0x20040).2 = none
    ∧ (filling 0x20200).hits 1 0x20200 = false ∧ (filling 0x20040).hits 1 0x20040 = true := by
  refine ⟨?_, by decide, by decide, by decide, by decide⟩
  have h : ∀ k ∈ [0x20200, 0x20040], ((unitSectors own.gran (unitBase 0 k)).all fun q => match (filling k).lineAt (q / 128) with
      | some x => decide (x.attr.ctx = own.ctx)
      | none => true) = true := by decide
  intro k hk
  refine ⟨rfl, ?_, rfl, ?_, ?_, ?_, ?_, ownLines_of (h k hk)⟩
  all_goals
    simp only [List.mem_cons, List.not_mem_nil, or_false] at hk
    rcases hk with rfl | rfl <;> decide

/-- Under granule 1 a unit has two sectors: of the first unit of the line one is valid and dirty, of the second none. -/
def half : Attr := ⟨1, 1, 0⟩

theorem witness_LlcAndDramSteps_writeback :
    (lined own 15 1 [] []).lineAt (0x2001F / 128) = some ⟨0x400, own, 15, 1⟩
    ∧ (lined own 15 1 [] []).unitDirty 0 0x20020 = false ∧ (lined own 15 1 [] []).unitDirty 0 0x20000 = true
    ∧ (lined own 15 1 [] []).holdsUnit own 0x20000 = true
    ∧ (lined half 1 1 [] []).unitDirty 1 0x20000 = true ∧ (lined half 1 1 [] []).holdsUnit half 0x20000 = false
    ∧ (lined half 1 1 [] []).unitLost 1 0x20000 = false
    ∧ ((lined half 1 1 [] []).getUnit half 0x20000).2 = some (List.replicate 64 0)
    ∧ ((lined half 1 1 [(0x20000, 64)] []).getUnit half 0x20000).2 = none := by decide

theorem witness_LlcAndDramSteps_scrub :
    inDram 0x20000 = true ∧ (lined own 15 1 [] []).scrubAttr 0x20000 = own ∧ (lined own 15 1 [] []).holdsUnit own 0x20000 = true
    ∧ (lined half 0 0 [] []).holdsUnit half 0x20000 = false ∧ (lined half 0 0 [] []).unitDirty 1 0x20000 = false
    ∧ ((lined half 0 0 [] []).getUnit half 0x20000).2 = some (List.replicate 64 0)
    ∧ (unitMembers 1 0x20000).map (fun m => (lined half 0 0 [] [(.pc, m)]).unitLost 1 0x20000) = [true, true]
    ∧ (unitMembers 1 0x20000).map (fun m => ((lined half 0 0 [] [(.pc, m)]).getUnit half 0x20000).2) = [none, none]
    ∧ inPoison (lined half 0 0 [] [(.pc, 0)]).poison 0x20000 = false
    ∧ (lined half 0 0 [] [(.pc, 0)]).storedPoison 1 0x20000 = false := by decide

/-- The burst of the unit at 0x30000, as it must lie in DRAM for the next read to meet no error in a word of zeros. -/
def stored32 : State :=
  { lined own 0 0 [] [] with
    dram := (unitPlaces 0 0x30000).map fun p => (p, Vector.ofFn fun (k : Fin 8) => Config.beatError (0 + 8 * 0 + k.val)) }

theorem witness_LlcAndDramSteps_stored : (∃ p ∈ unitPlaces 0 0x30000, ∃ b, (p, b) ∈ stored32.dram)
    ∧ stored32.scrubAttr 0x30000 = ⟨0, 0, 0⟩
    ∧ (stored32.getUnit ⟨0, 0, 0⟩ 0x30000).2 = some (List.replicate 32 0) := by
  have hr : Burst.read (Vector.ofFn fun (k : Fin 8) => Config.beatError (0 + 8 * 0 + k.val)) (0 + 8 * 0) = Vector.replicate 8 0 := by
    apply Vector.ext
    intro i h
    simp [Burst.read, Vector.getElem_ofFn]
  have hd : (decodeUnit 0 [] [Vector.replicate 8 0]).1 = some (List.replicate 32 0) := by decide +kernel
  refine ⟨?_, by decide, ?_⟩
  · have : ∃ p, unitPlaces 0 0x30000 = [p] := ⟨_, rfl⟩
    obtain ⟨p, hp⟩ := this
    exact ⟨p, by rw [hp]; simp, _, by simp only [stored32, hp, List.map_cons]; exact List.mem_cons_self⟩
  · have hp : unitPlaces 0 0x30000 = [(unitPlaces 0 0x30000).headD 0] := by decide
    generalize (unitPlaces 0 0x30000).headD 0 = p at hp
    have hs : stored32.dram = [(p, Vector.ofFn fun (k : Fin 8) => Config.beatError (0 + 8 * 0 + k.val))] := by
      simp only [stored32, hp, List.map_cons, List.map_nil]
    have hf : stored32.fresh = 0 := rfl
    have hl : stored32.lostMembers 0 0x30000 = [] := by decide
    have hk : ∀ (s : State) (_ : s.keys = stored32.keys), s.keySlot 0 = stored32.keySlot 0 := fun s h => by
      simp only [State.keySlot, h]
    have hn : ∀ (s : State) (_ : s.retired = stored32.retired), s.lostMembers 0 0x30000 = [] := fun s h => by
      simpa only [State.lostMembers, h] using hl
    have hx : lookupD stored32.dram p (Vector.replicate 8 0) = Vector.ofFn fun (k : Fin 8) => Config.beatError (0 + 8 * 0 + k.val) := by
      rw [hs]
      simp [lookupD]
    have ha : ([p].all fun p => !(stored32.dram.any fun d => decide (d.1 = p))) = false := by simp [hs]
    simp only [State.getUnit, hp, hf, hl, ha, Bool.false_eq_true, if_false, List.zipIdx_cons, List.zipIdx_nil, List.map_cons, List.map_nil,
      hx]
    rw [hr, hn, hd, hk]
    · decide
    · rfl
    · rfl

theorem witness_LlcAndDramSteps_slices : 255 < 256 ∧ 255 ∉ (lined own 15 1 [] []).offline
    ∧ ((lined own 15 1 [] []).llc.find? fun l => l.has 0x20000) = some ⟨0x400, own, 15, 1⟩
    ∧ ((lined own 15 1 [] []).llc.filter fun x => x.homedIn (homeSlice 0 0x20000)) = [⟨0x400, own, 15, 1⟩]
    ∧ homeSlice 0 0x20000 ≠ 255 ∧ ((lined own 15 1 [] []).llc.filter fun x => x.homedIn 255) = []
    ∧ 0x20000 ∈ unitsOfLine 0 0x400 ∧ (∃ k ∈ [0x2001F], unitBase 0 k = 0x20000) ∧ (0 < 1023 ∧ 1023 < 1024) := by decide

/-- R405: a score of 31.5 reaches TH = 32 with an increment of 1. -/
theorem witness_Suspected : let s : State := { s46 with scores := [(.llc, 255, { a := 0x41FC0000, law := 255 })] }
    let x := s.scoreOf .llc 255
    let r := ringAccess (.add (incOne.setWidth 64)) x s.scoreLaw (s.scoreClock x)
    (exact32 r.a).cmp (exact32 s.scoreLaw.th) = .lt ∧ (exact32 r.word.a).cmp (exact32 s.scoreLaw.th) ≠ .lt := by decide

/-- R371, R379: the fill makes the whole unit valid. -/
theorem test_fill : leads (.llcFill 0x20200 1 0 0) (filling 0x20200) (fun t => t.hits 1 0x20200 && decide (t.focus.wait = .none)) = true := by decide
/-- R379: a write-back encodes the unit in DRAM: keyless, its bytes as they are. -/
theorem test_writeback : leads (.llcWriteback 0x20000) { lined own 15 1 [] [] with mem := [(0x20005, 7)] } (fun t =>
    t.dram.map (fun d => d.2.byte 5) == [7]) = true := by decide

/-! ### Witnesses: memory, the host, energy -/

/-- A whole dirty line at 0x20000; the host may reach context 1, whose page 0 lies in frame 2. -/
def stocked (ro : Bool) : State :=
  { small { slotOf [] with wait := .host 0x80000000000000 } with
    ctxs := [{ id := 1, state := 1, hostOk := true, trapch := 0x80000000#64, lcores := [{ n := 0, tt := [(0, { w1 := 0 })] }]
               stage2 := [⟨0, 2, 0, true, false, false, ro, 0⟩] }]
    llc := [⟨0x400, own, 15, 15⟩], jobs := [copyJob 0 2]
    thresholds := [(.pc, 3), (.port, 2), (.core, 9)], retired := [(.pc, 1)]
    hostQ := [{ ctx := 1, va := 0x80000000000000, data := [7], lc := 0, ch := 0, fid := 0, fts := 0 }], ticks := 1000000 }

/-- The same where the first instruction is part of an alarm check; and where the store is a copy's. -/
def checking : State := let s := stocked false; { s with focus := { s.focus with firing := { ctx := 1, alarm := some [] } } }
def copyStore : State :=
  { stocked false with hostQ := [{ ctx := 1, va := 0x80000000000000, data := [7], lc := 0, ch := 0, fid := 0, fts := 0, job := some 3 }] }

/-- Management sets the limits in the next turn. -/
def limited : State := { s46 with agenda := [.limits 5 2] }

theorem witness_MemoryAndHostSteps_limits : limited.boot ≠ 2 ∧ limited.agenda = .limits 5 2 :: [] ∧ limited.blamed = [] := by decide

/-- R413: the body of a request arrives in the next turn. -/
theorem witness_FabricAndBootSteps_request : ({ s46 with agenda := [.request [1]] } : State).agenda = .request [1] :: [] := rfl

theorem witness_MemoryAndHostSteps_memory : let s := stocked false
    (s.lcOf 1 0).valid = true ∧ (s.lcOf 1 0).out = false ∧ 65535 < (s.lcOf 1 0).lsz ∧ Memory.wf s.mem = true := by decide

theorem witness_MemoryAndHostSteps_thresholds : let s := stocked false
    (UnitKind.pc, 3) ∈ s.thresholds ∧ (UnitKind.port, 2) ∈ s.thresholds ∧ (UnitKind.core, 9) ∈ s.thresholds
    ∧ (∀ p ∈ s.coresOn .core 9, s.hosted p = []) ∧ s.coresOn .pc 3 = []
    ∧ s.retiredPartner 3 = some 1 ∧ s46.retiredPartner 3 = none
    ∧ s.grantAt + 1000000 ≤ s.ticks ∧ s46.ticks < s46.grantAt + 1000000 := by decide

theorem witness_MemoryAndHostSteps_host : let s := stocked false
    let p : PageSpec := ⟨0, 2, 0, true, false, false, false, 0⟩
    (∀ i, i < 32 → (s.ctxOf 1).stage2Of i = some p) ∧ (∀ i, i < 32 → ((stocked true).ctxOf 1).stage2Of i = some { p with ro := true })
    ∧ (s.ctxOf 1).stage2Of 0x10000 = none ∧ s.migs = [] ∧ (s.ctxOf 1).hostOk = true ∧ (s46.ctxOf 1).hostOk = false
    ∧ Memory.wf s.mem = true ∧ Memory.wf s.host = true
    ∧ (∀ j, j < 32 → s.hits (pageAttr 1 p).ctx (p.pa * 2 ^ 16 + 0 % 2 ^ 16 + j) = true ∧ frameAbsent (0x20000 + j) = false)
    ∧ s.exclBlocks none ((List.range 32).map fun j => 0x20000 + j) = false
    ∧ (∀ q ∈ writtenSectors ((List.range 32).map fun j => 0x20000 + j), q.2 = true) := by decide

theorem witness_MemoryAndHostSteps_link : let s := stocked false
    s.slotAt 0 0 = some s.focus ∧ s.focus.wait = .host 0x80000000000000
    ∧ (s.focus.firing.alarm.isSome && !s.focus.chunk.checked) = false
    ∧ checking.slotAt 0 0 = some checking.focus ∧ (checking.focus.firing.alarm.isSome && !checking.focus.chunk.checked) = true
    ∧ (s.ctxOf 1).trapNamesNone = false ∧ s.hostQ.map (fun h => h.job) = [none] ∧ copyStore.hostQ.map (fun h => h.job) = [some 3]
    ∧ copyStore.jobOf 3 = some (copyJob 0 2) ∧ (copyJob 0 2).running = true ∧ (copyJob 0 2).err = 0 := by decide

/-- R409: the host reads the line that the LLC holds. -/
theorem test_hostRead : leads (.hostMemoryRead 1 0 2) { stocked false with mem := [(0x20001, 9)] } (fun t =>
    t.hostOut == [.data [0, 9] false]) = true := by decide

/-! ### Witnesses: the fabric and boot -/

/-- A message that has waited 10 ms for its acknowledgement; port 3, which carries the route to package 5, has 16 replays in a
row and fails failed retrains; the ports of down are down. -/
def linked (fails : Nat) (down : List Nat) : State :=
  { inboxed 0 0 with
    fabOut := [⟨0, 1, note, 0⟩, ⟨1, 1, { note with kind := .farWrite 3 0 0 0 }, 0⟩], ticks := 10000000
    ports := (3, { replays := 16, fails := fails }) :: down.map fun n => (n, { down := true })
    routes := [(5, 3)], jobs := [copyJob 0 2], fabSeen := [(60, 4)] }

theorem witness_FabricAndBootSteps_ports : let s := linked 2 []
    ((s.portOf 3).down = false ∧ 16 ≤ (s.portOf 3).replays ∧ (s.portOf 3).carries = false ∧ (s.portOf 4).replays < 16
    ∧ (s.portOf 4).carries = true ∧ s.portTo 5 = 3 ∧ (s.portOf (s.portTo 6)).carries = true)
    ∧ ¬ (s.portOf 3).fails + 1 < 3 ∧ ((linked 1 []).portOf 3).fails + 1 < 3
    ∧ (∀ n, n < 16 → n ≠ 3 → ((linked 2 [0, 1, 2, 4, 5, 6, 7, 8, 9, 10, 11, 12, 13, 14, 15]).portOf n).down = true) := by decide

/-- With a copy to another package (witness_EngineAndCopySteps_far) that runs. -/
theorem witness_FabricAndBootSteps_remote : ∃ n, ({ farCopy n with st := 2 } : Job).running = true ∧ ({ farCopy n with st := 2 } : Job).remote = true
    ∧ ({ farCopy n with st := 2 } : Job).err = 0 := by
  obtain ⟨n, _, h⟩ := witness_EngineAndCopySteps_far.1
  exact ⟨n, rfl, h, rfl⟩

theorem witness_FabricAndBootSteps_timeouts : let s := linked 2 []
    (s.fabOut.map fun x => x.msg.kind) = [.send, .farWrite 3 0 0 0] ∧ (s.fabOut.map fun x => x.sentAt + 10000000 ≤ s.ticks) = [True, True]
    ∧ note.host = false ∧ note.spkg = Config.ownPackage.val ∧ (s.ctxOf 1).trapNamesNone = false
    ∧ s.jobOf 3 = some (copyJob 0 2) ∧ (copyJob 0 2).running = true ∧ (copyJob 0 2).err = 0
    ∧ (({ s with ticks := 0 } : State).ticks < 0 + 10000000) := by
  refine ⟨by decide, ?_, rfl, rfl, by decide, by decide, by decide, by decide, by decide⟩
  simp [linked]

theorem witness_FabricAndBootSteps_time : (linked 2 []).syncAt + 1000000 ≤ (linked 2 []).ticks ∧ s46.ticks < s46.syncAt + 1000000
    ∧ ((-100 : Int) ≤ -100 ∧ (100 : Int) ≤ 100 ∧ (1000 : Int).natAbs ≤ 1000 ∧ 1000 < (-1001 : Int).natAbs) := by decide

/-- Another package's number differs from this one's: the range has 64. -/
theorem witness_otherPackage : ∃ n, n < 64 ∧ n ≠ Config.ownPackage.val := by
  by_cases h : Config.ownPackage.val = 0
  · exact ⟨1, by decide, by omega⟩
  · exact ⟨0, by decide, by omega⟩

/-- Context 1 with a barrier of two participants of which n have arrived, a group that spans packages 3 and 4, and tables
that map VA 0 to frame 6, where an object record and its element lie. -/
def podded (n : Nat) : State :=
  { trapping with
    ctxs := trapping.ctxs.map fun c => { c with
      objbase := 0x8000#64, bars := [((0, 64), { part := 2, arr := n })]
      reds := [(0, { on := true, cfgB := BitVec.ofNat 64 (2 ^ 44 + 2 ^ 38 + 3 * 2 ^ 32) })] }
    farTakes := [((60, 0), some (leNat (leBytes 8 0x4000 ++ leBytes 8 (5 + 2 ^ 5 + 2 ^ 8 + 2 ^ 10) ++ leBytes 4 2 ++ leBytes 4 2
      ++ leBytes 8 0 ++ leBytes 6 1 ++ leBytes 6 2 ++ leBytes 20 0)))] }

theorem witness_FabricAndBootSteps_arrivals :
    (lookupD (podded 0).fabSeen 60 0 = 0 ∧ (podded 0).linksDown = false ∧ cutOff.linksDown = true)
    ∧ (outside []).what = .message ∧ ((podded 0).ctxOf 1).defines 0 = true ∧ (podded 0).hasCtx 1 = true ∧ (podded 0).resident 1 = true ∧ (podded 0).resident 2 = false
    ∧ (((podded 0).ctxOf 1).barOf 0 64).part ≠ 0 ∧ (((podded 0).ctxOf 1).barOf 0 64).arr + 1 ≠ (((podded 0).ctxOf 1).barOf 0 64).part
    ∧ (((podded 1).ctxOf 1).barOf 0 64).arr + 1 = (((podded 1).ctxOf 1).barOf 0 64).part
    ∧ (let g := ((podded 0).ctxOf 1).redOf 0
       g.on = true ∧ g.spans = true ∧ g.cfgA ≠ 0 ∧ bitsOf g.cfgB 44 32 ≠ 0)
    ∧ ((podded 0).farPlace 1 0 60 0 1 1) = some (.va 0x4003 false, uint8)
    ∧ ((podded 0).farKeys 1 0x4003 1).map (fun p => p.1) = some [6 * 2 ^ 16 + 0x4003]
    ∧ (podded 0).exclBlocks none [6 * 2 ^ 16 + 0x4003] = false := by decide

/-- Barriers 64 to 71 of a context on this package alone are held here; where a context also lies on a lower-numbered
package, they are held there. -/
theorem witness_FabricAndBootSteps_barriers : (((podded 0).ctxOf 1).farBarrier 64 = false)
    ∧ (0 < Config.ownPackage.val → ({ (podded 0).ctxOf 1 with pkgs := [0] } : Ctx).farBarrier 64 = true
        ∧ ({ (podded 0).ctxOf 1 with pkgs := [0] } : Ctx).lowPkg = 0) := by
  have hp : ((podded 0).ctxOf 1).pkgs = [] := rfl
  refine ⟨by simp [Ctx.farBarrier, Ctx.lowPkg, hp], fun h => ?_⟩
  simp [Ctx.farBarrier, Ctx.lowPkg]
  omega

theorem witness_FabricAndBootSteps_boot : s46.boot = 0 ∧ ({ s46 with boot := 1 } : State).boot = 1
    ∧ (∀ n, n < 4 → ({ s46 with session := { stage := n } } : State).session.stage = n)
    ∧ (List.replicate 16 (0 : Byte)).length = 16 ∧ 28 ≤ (List.replicate 28 (0 : Byte)).length := by decide

/-- R426: the third failed retrain takes the port down, with a record of the management controller, and routes over port 0. -/
theorem test_portDown : leads (.portRetrain 3 ⟨false, []⟩) (linked 2 []) (fun t => (t.portOf 3).down && decide (t.mgmt.length = 1)
    && decide (t.portTo 5 = 0)) = true := by decide
/-- R425: an offset of 250 ns is slewed at 100 ppm. -/
theorem test_slew : leads (.timeBaseSync 250) (linked 2 []) (fun t => decide (t.slew = 100)) = true := by decide
/-- R188, R419: a write of another package's copy is pending until it is applied. -/
theorem test_farWrite : ((podded 0).takeWrite 60 { outside [9] with what := .write 0 1 1 } 0 1 1).map (fun t =>
    t.pend.map fun p => (p.key, p.val)) = some [(6 * 2 ^ 16 + 0x4003, 9)] := by decide
/-- R378: the address map of PA 0x00_2345_9A40. -/
theorem test_addressMap : unitMembers 0 0x23459A40 = [64 * 7 + 26] ∧ unitMembers 1 0x23459A40 = [64 * 6 + 26, 64 * 6 + 27]
    ∧ unitMembers 2 0x23459A40 = [88, 89, 90, 91] ∧ unitMembers 3 0x23459A40 = (List.range 16).map (fun m => 144 + m)
    ∧ (List.range 4).map (fun g => unitBurst g 0x23459A40) = [2, 2, 2, 2] ∧ burstPlace (4 * 9029 + 2) = (70, 14, 22)
    ∧ (List.range 4).map (fun g => homeSlice g 0x23459A40) = [146, 146, 18, 82] := by decide

/-- R422, R423: of packages 3 to 5, with g[b] bits [44:32] = 1, 000010, 000011: ORDERED passes on from the package before,
EXACT gathers at the first. -/
theorem test_redNeeds : let g : RedGroup := { cfgB := BitVec.ofNat 64 (2 ^ 44 + 2 * 2 ^ 38 + 3 * 2 ^ 32) }
    g.needs 3 = [] ∧ g.needs 5 = [4] ∧ ({ g with cfgA := 0x40#64 }).needs 3 = [4, 5] ∧ ({ g with cfgA := 0x40#64 }).needs 4 = []
    ∧ g.last = 5 := by decide

/-! ### The codes of DRAM and the cipher below M -/

/-- R375: the roots 1, 2, 4 and 8 give x^4 + 15 x^3 + 54 x^2 + 120 x + 64. -/
theorem test_rsGenerator : rsGen 4 = [1, 15, 54, 120, 64] := by decide +kernel
/-- R375, R377: one wrong symbol of a G32 unit is corrected, in member 0; R383: a poisoned unit is not read. -/
theorem test_rsCorrects : let w := (List.range 32).map fun i => 7 * i
    (encodeUnit 0 w false).map (fun b => decodeUnit 0 [] [b.set 3 ((b[3]) ^^^ 0xFF00)]) = [(some w, [0])]
    ∧ (decodeUnit 0 [] (encodeUnit 0 w true)).1 = none := by decide +kernel
/-- R380: parts of AES as FIPS 197 shows them: the S-box of 53 and its inverse, ShiftRows, a column of MixColumns. -/
theorem test_aesParts : aesSub 0x53 = 0xED ∧ aesUnsub 0xED = 0x53
    ∧ mixColumns [2, 3, 1, 1] ([0xDB, 0x13, 0x53, 0x45] ++ List.replicate 12 1) = [0x8E, 0x4D, 0xA1, 0xBC] ++ List.replicate 12 1
    ∧ shiftRows 1 (List.range 16) = [0, 5, 10, 15, 4, 9, 14, 3, 8, 13, 2, 7, 12, 1, 6, 11] := by decide +kernel

/-! ### Witnesses: prefetches, ONCE in a gang, functions -/

/-- A firing whose LLC holds nothing; g1 is an address that its TLB maps. -/
def bare : State := { withMem [] (slotOf [(1, 0x10000)]) with llc := [] }

theorem witness_SystemInstructions_prefetch : tlbFind (bare.coreOf 0).tlb 1 0x10000 = some (entryOf 1 7)
    ∧ bare.home ((entryOf 1 7).pa 0x10000) / 128 * 128 = 0x20000 ∧ inDram 0x20000 = true ∧ bare.lineAt 0x400 = none
    ∧ (∀ i, i < 4 → bare.homeOff (bare.attrOf (entryOf 1 7) 0x10000) (0x20000 + 32 * i) = false)
    ∧ tlbFind (bare.coreOf 0).tlb 1 0x50000 = none ∧ Memory.wf bare.mem = true
    ∧ (∀ i, i < 4 → (withMem [] (slotOf [])).hits 1 (0x20000 + 32 * i) = true) := by decide

/-- R238: a prefetch fills its line. -/
theorem test_pf : leads (.pf true 1 2) bare (fun t => (List.range 4).all fun i => t.hits 1 (0x20000 + 32 * i)) = true := by decide

/-- Member g of a gang firing, about to issue a word under ONCE with ordinal n − 1; it holds some postings. -/
def onced (n g : Nat) (post : List (Nat × BitVec 32 × List (Nat × Nat × Nat))) (w : Nat) : State :=
  let f := slotOf [(1, 5), (2, 6)]
  { withMem (leBytes 4 w) { f with
      reg := { f.reg with pc := 0x10000, onceArmed := true, onceOrd := n }
      firing := { ctx := 1, isGang := true, gang := g, postings := post } } with
    agenda := [.core 0] }

theorem witness_StepRunsDecoded_once : let w := 0x02308800
    issuesWord (onced 1 0 [] w) w = true ∧ issuesWord (onced 1 1 [(0, w, [(0, 3, 11)])] w) w = true
    ∧ decode 0x02308800#32 = .ok (.add false 3 1 2) ∧ needsPriv (.add false 3 1 2) = false ∧ onceForbidden (.add false 3 1 2) = false
    ∧ (wordAt (onced 1 0 [] w) w).stageRefuses (wordAt (onced 1 0 [] w) w).focus (.add false 3 1 2) = none
    ∧ (wordAt (onced 1 0 [] w) w).mayPost (wordAt (onced 1 0 [] w) w).focus.firing 0 = true
    ∧ (wordAt (onced 9 0 [] w) w).mayPost (wordAt (onced 9 0 [] w) w).focus.firing 8 = false
    ∧ onceSame 0x02308800#32 0x02308800#32 = true ∧ onceSame 0x02308800#32 0x04527FFF#32 = false
    ∧ leads (.add false 3 1 2) (wordAt (onced 1 0 [] w) w) (fun t => !t.focus.pastRoom && !t.focus.over false
        && (wordAt (onced 1 0 [] w) w).focus.issued t.focus) = true := by decide

theorem witness_StepRunsDecoded_onceRefused : issuesWord (onced 1 1 [] 0x7C000000) 0x7C000000 = true
    ∧ decode 0x7C000000#32 = .ok .once ∧ (0x7C000000#32).toNat / 2 ^ 25 % 64 = 0x3E
    ∧ issuesWord (onced 1 1 [] 0x2A000001) 0x2A000001 = true ∧ decode 0x2A000001#32 = .ok (.fin false)
    ∧ onceForbidden (.fin false) = true := by decide

/-- R271: a member takes the posted register: 11, where its own operands would give 11 too, and 7 where the posting says so. -/
theorem test_takeOnce : (match step (onced 1 1 [(0, 0x02308800, [(0, 3, 7)])] 0x82308800) with
    | .next t => decide (t.focus.gr 3 = 7)
    | _ => false) = true := by decide

theorem witness_VectorFloatResults : 0x7F800000 < (0x7FC00001#32).toNat % 2 ^ 31 ∧ ¬ 0x7F800000 < (0x80000000#32).toNat % 2 ^ 31
    ∧ laneOrder 0x80000000 < laneOrder 0 ∧ laneOrder 0xBF800000 < laneOrder 0x80000000 := by decide

/-- R141: −0 counts as less than +0. -/
theorem test_maxF : maxF 0x80000000 0 = 0 ∧ minF 0 0x80000000 = 0x80000000 ∧ maxF 0x7F800001 0x3F800000 = 0x7FC00000
    ∧ minF 0xBF800000 0x3F800000 = 0xBF800000 := by decide

theorem witness_VectorFunctions : (2 : BitVec 2) ≠ 3 ∧ 0x7F800000 < (0x7FC00001#32).toNat % 2 ^ 31
    ∧ (0x43000000 ≤ (0x43000000#32).toNat ∧ (0x43000000#32).toNat < 0x7F800000)
    ∧ (0xC3170000 ≤ (0xC3170000#32).toNat ∧ (0xC3170000#32).toNat < 0xFF800000)
    ∧ (0x42B20000 ≤ (0x42B20000#32).toNat ∧ 0xC2D00000 ≤ (0xC2D00000#32).toNat)
    ∧ (0x80000000 < (0x80000001#32).toNat ∧ (0x80000001#32).toNat < 0xFF800000)
    ∧ (0x40800000 ≤ (0xC0800000#32).toNat % 2 ^ 31 ∧ (0xC0800000#32).toNat % 2 ^ 31 < 0x7F800000)
    ∧ (0 < (1#32).toNat % 2 ^ 31 ∧ ((-151 : Int) < -150 ∧ (127 : Int) < 128) ∧ ((-17 : Int) < -16 ∧ (16 : Int) < 17)) := by decide

/-- R102: EXP2(−0) = 1.0 and RCP(−0) = −∞ with DZ; R152: LOG2(0.3) in BF16. -/
theorem test_vfn : vfnLane .exp2 1 0x80000000 = ⟨0x3F800000, 0, 0⟩ ∧ vfnLane .rcp 0 0x80000000 = ⟨0xFF800000, 8, 0⟩
    ∧ vfnLane .log2 1 0x3E99999A = ⟨0xBFDE0000, 0, 0⟩ := by decide

/-! ### Witnesses: waits before a chunk opens, uncounted arrivals, copies of the own package, takes of a turn -/

/-- A slot that waits before its next chunk opens; a firing with an arrival that another package has not counted. -/
def unopened : State := small { slotOf [] with opening := true, wait := .fence 4 }
def arriving : State :=
  let f := slotOf []
  { unit0 with focus := { f with firing := { f.firing with phases := [(3, true)], farArr := [(3, 1)] } } }

theorem witness_opening : unopened.focus.opening = true ∧ unopened.focus.chunk.bases = none ∧ unopened.focus ∈ unopened.slots
    ∧ unopened.focus.active = true ∧ unopened.slotAt 0 0 = some unopened.focus ∧ unopened.focus.firing.dual = false
    ∧ unopened.excl = none ∧ unopened.exclQ = [] := by decide

theorem witness_Barriers_uncounted : (3, 1) ∈ arriving.focus.firing.farArr ∧ arriving.focus.firing.phaseOf 3 = some true
    ∧ (arriving.myCtx.barOf 0 3).phase = false ∧ arriving.partSeen arriving.focus 3 = 2 := by decide

/-- R195, R421: BAR.WAIT waits until the other package has counted the arrival. -/
theorem test_barUncounted : leads (.barWait true 1) { arriving with focus := { arriving.focus with reg := regsOf [(1, 3)] } }
    (fun t => decide (t.focus.wait = .barrier 3 true)) = true := by decide

theorem witness_CopyUnitCommands_block : (2 ^ 17 : Nat) / 2 ^ 17 ≠ 0
    ∧ okB ((copies fillBlock (2 ^ 17) 0).loadBytes (copies fillBlock (2 ^ 17) 0).focus 0x50000 64 64 .load) = false
    ∧ leNat (fillBlock.take 8) % 16 ≠ 6 := by decide

/-- R60: REGRAN of a user firing raises PRIV though its frames are not installed. -/
theorem test_regranPriv : leads (.cpPush true 1 2) { copies regranBlock 0 0 with mgmt := [] } (fun t =>
    decide (t.susp.length = 1)) = true := by decide

/-- A copy that names an object of its own package, at the head of its queue. -/
theorem witness_EngineAndCopySteps_selfNamed : (farCopy Config.ownPackage.val).selfNamed = true
    ∧ (copying (farCopy Config.ownPackage.val)).headJob .copy (coreAt 0 0) = some (farCopy Config.ownPackage.val) := by
  have h : ∀ n, n < 64 → (farCopy n).bits 7 5 0 = n ∧ (farCopy n).bits 7 7 6 = 2 ∧ (farCopy n).engine = .copy ∧ (farCopy n).op = 0 := by
    decide
  obtain ⟨h1, h2, h3, h4⟩ := h Config.ownPackage.val Config.ownPackage.isLt
  refine ⟨by simp [Job.selfNamed, h1, h2, h3, h4], ?_⟩
  generalize Config.ownPackage.val = n
  rfl

theorem witness_MemoryAndHostSteps_turns : ({ s46 with agenda := [.records true] } : State).agenda = .records true :: []
    ∧ s46.boot ≠ 2 ∧ s46.scoreAlarms = [] ∧ s46.lawAhead = false ∧ s46.blamed = [] ∧ inDram 0x20000 = true := by decide

/-- R392: management lets corrected errors be recorded. -/
theorem test_records : (match step { s46 with agenda := [.records true] } with
    | .next t => t.records
    | _ => false) = true := by decide

/-- A ready firing whose first primary message lies at 0x100 of its logical core. -/
def shown : State :=
  { queued {} 0 [] [{ waitingFiring with prim := [⟨0, 0, 0, 0x100⟩] }] with
    mem := cellWriteList [] (scratchKey 1 1 0x110) [1, 0, 0, 0, 2] }

theorem witness_FiringAndChunkSteps_payload : shown.bestReady 0 = some { waitingFiring with prim := [⟨0, 0, 0, 0x100⟩] }
    ∧ shown.slotFree 0 3 = true ∧ ({ waitingFiring with prim := [⟨0, 0, 0, 0x100⟩] } : Firing).resume = none := by decide

/-- R62: v0 takes the payload of the first message, 16 lanes of it. -/
theorem test_payload : leads (.firingDispatch 0 3) shown (fun t =>
    ((t.slotAt 0 3).map fun g => (laneAt (g.vr 0) 0, laneAt (g.vr 0) 1, laneAt (g.vr 0) 16)) == some (1, 2, 0)) = true := by decide

theorem witness_CommitOfStores_tables : ∀ c ∈ (stored .commit).focus.chunk.wbuf, c.1 < 2 ^ 39 := by decide

/-- The same reply where the block lies in a frame of firmware, which no line of the LLC holds. -/
def replyFar : State :=
  { replying 1 with ctxs := (replying 1).ctxs.map fun c => { c with
      stage2 := [⟨0, 5, 0, true, false, false, false, 1⟩, ⟨1, 2 ^ 23 + 6, 0, true, false, false, false, 1⟩] } }

theorem witness_MessageSteps_block :
    ((replyFar.readSpan (clusterIdOf (replyFar.lcOf 1 1).pcore) 1 0 4480).readBlock 1 0).isSome = true := by decide

end Sys2Proof.Tests
end

section
/-! SUPPORT. The loads (R203, R206, R207): what a read of M by key and an element's load answer at each place of the
access, and what a scalar load makes of it. -/

namespace Sys2Proof.Machine

/-- R207: the address of an M offset, in integer arithmetic. -/
theorem memAddr_eq_ofInt (x : Word) (o : BitVec 12) (n : Nat) :
    memAddr x o n = BitVec.ofInt 64 (x.toInt + o.toInt * n) := by
  rw [BitVec.ofInt_add, BitVec.ofInt_mul, BitVec.ofInt_toInt, BitVec.ofInt_natCast]
  rfl

/-- R41: the sign extension of the low bits of a number is its balanced residue. -/
theorem sextW_ofNat (x n : Nat) (hn : n ≤ 64) :
    sextW (BitVec.ofNat 64 x) n = BitVec.ofInt 64 (Int.bmod x (2 ^ n)) := by
  rw [sextW, BitVec.setWidth_ofNat_of_le hn, BitVec.signExtend, BitVec.toInt_ofNat']

/-- R10, R207: the word that a load of at most eight bytes gives, in integer arithmetic. -/
theorem loadValue_eq_ofInt (l : List Byte) (n : Nat) (signed : Bool) (hn : n ≤ 8) :
    loadValue l n signed = BitVec.ofInt 64 (loadedInt l n signed) := by
  cases signed with
  | true => simp [loadValue, loadedInt, sextW_ofNat _ (8 * n) (by omega)]
  | false => simp [loadValue, loadedInt]

@[simp] theorem leNat_replicate_zero (n : Nat) : leNat (List.replicate n 0#8) = 0 := by
  induction n with
  | zero => rfl
  | succ n ih => simp [List.replicate_succ, leNat, ih]

/-- R280: zero bytes give zero, signed or not. -/
theorem loadedInt_replicate_zero (m n : Nat) (signed : Bool) :
    loadedInt (List.replicate m 0#8) n signed = 0 := by
  cases signed <;> simp [loadedInt]

section
variable {s : State} {f : Slot} {a : Word} {key n : Nat} {m : Attr}

theorem State.readKey_of_poison (hp : s.anyPoison f key n = true) :
    s.readKey f a key m n = excAt .poison a := by
  simp [State.readKey, hp]

theorem State.readKey_of_lacks {b : Nat} (hp : s.anyPoison f key n = false) (hl : s.lacks f m key n = some b) :
    s.readKey f a key m n = .error (.park (.fill b m) []) := by
  simp [State.readKey, hp, hl]

theorem State.readKey_of_present (hp : s.anyPoison f key n = false) (hl : s.lacks f m key n = none) :
    s.readKey f a key m n = .ok (f.readBytes key n, s.seenBytes f key n) := by
  simp [State.readKey, hp, hl]

end

section
variable {s : State} {f : Slot} {a : Word} {n : Nat} {win : Bool}

theorem State.loadElem_cells {key : Nat} {m : Attr} (h : s.access f a n .load win = .ok (.cells key m)) :
    s.loadElem f a n win = s.readKey f a key m n := by
  rw [State.loadElem, h]; rfl

theorem State.loadElem_hostMem {off : Nat} (h : s.access f a n .load win = .ok (.hostMem off)) :
    s.loadElem f a n win = .ok (f, cellReadList s.host (f.firing.ctx * 2 ^ 55 + off) n) := by
  rw [State.loadElem, h]; rfl

theorem State.loadElem_window {w off : Nat} {g : Slot} {x : Lane} (h : s.access f a n .load win = .ok (.window w off))
    (hx : s.windowLoad f a w off = .ok (g, x)) : s.loadElem f a n win = .ok (g, leBytes 4 x.toNat) := by
  rw [State.loadElem, h]
  change (s.windowLoad f a w off >>= _) = _
  rw [hx]; rfl

theorem State.loadElem_live {off : Nat} (h : s.access f a n .load win = .ok (.live off)) :
    s.loadElem f a n win = .ok (f, s.myCtx.mirrorBytes off n) := by
  rw [State.loadElem, h]; rfl

theorem State.loadElem_zero (h : s.access f a n .load win = .ok .zero) :
    s.loadElem f a n win = .ok (f, List.replicate n 0) := by
  rw [State.loadElem, h]; rfl

theorem State.loadElem_refused {e : Stop} (h : s.access f a n .load win = .error e) :
    s.loadElem f a n win = .error e := by
  rw [State.loadElem, h]; rfl

end

section
variable {s : State} {k : Bool} {d a : BitVec 5} {o : BitVec 12} {n : Nat} {signed : Bool}

/-- A scalar load lands the integer that the bytes of its element give, in the slot that the element's load leaves. -/
theorem scalarLoad_of_loadElem_ok {g : Slot} {l : List Byte} (hn : n ≤ 8)
    (h : s.loadElem s.focus (memAddr (s.focus.gr a) o n) n (decide (n = 4)) = .ok (g, l)) :
    scalarLoad k d a o n signed s
      = .next (s.withFocus ((g.landG d (BitVec.ofInt 64 (loadedInt l n signed))).advance k)) := by
  rw [scalarLoad, h, ← loadValue_eq_ofInt l n signed hn]; rfl

/-- A scalar load whose element is not read ends as the element's load says, and lands nothing. -/
theorem scalarLoad_of_loadElem_error {e : Stop}
    (h : s.loadElem s.focus (memAddr (s.focus.gr a) o n) n (decide (n = 4)) = .error e) :
    scalarLoad k d a o n signed s = s.finish (.error e) := by
  rw [scalarLoad, h]; rfl

/-- R206, R207: an instruction that is a scalar load of at most eight bytes keeps each clause of `Loads`: the place that
the check of its access names decides. -/
theorem loads_of_exec_eq_scalarLoad {i : Instr} (hi : exec i s = scalarLoad k d a o n signed s) (hn : n ≤ 8) :
    Loads i k d a o n signed s := by
  simp only [Loads, Does, hi, ← memAddr_eq_ofInt]
  refine ⟨fun key m h hp hl => ?present, fun key m h hp => ?poison, fun key m b h hp hl => ?lacks, fun off h => ?host,
    fun w off g x h hx => ?window, fun off h => ?live, fun h => ?zero, fun e h => ?refused⟩
  case present => exact scalarLoad_of_loadElem_ok hn (by rw [State.loadElem_cells h, State.readKey_of_present hp hl])
  case poison =>
    rw [scalarLoad_of_loadElem_error (by rw [State.loadElem_cells h, State.readKey_of_poison hp, excAt])]
    exact s.finish_exc ..
  case lacks =>
    rw [scalarLoad_of_loadElem_error (by rw [State.loadElem_cells h, State.readKey_of_lacks hp hl])]
    exact s.finish_park ..
  case host => exact scalarLoad_of_loadElem_ok hn (State.loadElem_hostMem h)
  case window => exact scalarLoad_of_loadElem_ok hn (State.loadElem_window h hx)
  case live => exact scalarLoad_of_loadElem_ok hn (State.loadElem_live h)
  case zero =>
    rw [scalarLoad_of_loadElem_ok hn (State.loadElem_zero h)]
    simp [loadedInt_replicate_zero]
  case refused => exact scalarLoad_of_loadElem_error (State.loadElem_refused h)

end

/-- Settles O20: each of the seven forms is `scalarLoad` at its size and extension, and the place of its access decides
what it lands or how it stops. -/
theorem scalarLoads : Obligations.ScalarLoads := by
  unfold Obligations.ScalarLoads
  intro k d a o s
  exact ⟨loads_of_exec_eq_scalarLoad rfl (by decide), loads_of_exec_eq_scalarLoad rfl (by decide),
    loads_of_exec_eq_scalarLoad rfl (by decide), loads_of_exec_eq_scalarLoad rfl (by decide),
    loads_of_exec_eq_scalarLoad rfl (by decide), loads_of_exec_eq_scalarLoad rfl (by decide),
    loads_of_exec_eq_scalarLoad rfl (by decide)⟩

end Sys2Proof.Machine
end

section
/-! SUPPORT. O40: the per-instruction lemmas of `Laws.EncodesBack` cover every instruction. -/

namespace Sys2Proof.Laws.EncodesBack

/-- R39 to R57: the word of every instruction decodes to it, constructor by constructor in the order of `Instr`. -/
theorem encodesBack : ∀ i : Instr, Statement i :=
  @Instr.rec Statement
    add sub and or xor andn sll srl sra slt sltu min max minu maxu cmovz cmovn clz ctz popc brev bswap ext ins addw
    subw sllw srlw sraw addi andi ori xori slti sltiu slli srli srai slliw srliw sraiw lui addpc mul mulh mulhu div
    divu rem remu mulw divw divuw remw remuw beq bne blt bge bltu bgeu jal j jalr nop fin trap brk fmtSet fmtRd wgRd
    wgClr wgSync tbRd tlbWr tlbInv tlbRd fltRply rectSet migGo ctxStop ctxGo ldB ldBu ldH ldHu ldW ldWu ldD stB stH
    stW stD vldW vldBf vldH vldB vldSb vldBc vstW vstBf vstH vstB vldt vstt vgath vscat vlds vsts vscatFadd amoAdd
    amoAnd amoOr amoXor amoMax amoMin amoMaxu amoMinu amoSwp amoCas amoFadd pamoAdd pamoAnd pamoOr pamoXor pamoMax
    pamoMin pamoMaxu pamoMinu pamoFadd send sendt sendm sendr mld mhdr ttWr ttRd ttBlk ttUblk commit fence abort dgRd
    dgMode tileDef tileSt tileRd tileSat pf rwLd rwAdv rwSet rwAdd rwArm rwDisarm rwHdr lawWr lawRd clkAdv clkRd vaddF
    vsubF vmulF vdivF vsqrtF vmaxF vminF vabsF vnegF vfma vfms vfnma vcmpeqF vcmpltF vcmpleF vcmpunF vclass vaddI
    vsubI vmulI vand vor vxor vshl vshr vsra vminI vmaxI vcmpeqI vcmpltI vcmpltu vsel vmov vbcast vext vins viota
    vcvtFI vcvtIF vcvtFBf vcvtBfF vcvtFH vcvtHF vnarrow vwiden vpack vunpack vrsumF vrmaxF vrminF vrsumI vrsumX vscanF
    vscanI vargmax vargmin vperm vrot vzip vunzip vcomp vexpd vfnExp2 vfnLog2 vfnExp vfnLn vfnRcp vfnRsqrt vfnSint
    vfnCost vfnTanh vfnSigm vfnErf vfnGelu vfnSilu mand mor mxor mnot mpop mfirst mset mget vquant vdq vlaw vtopk
    vsp24 csrr csrw csrs csrc frd mxWr mxRd mxLs mxStr mxDrn mxZer mxPoll mxSlp mxCan cpPush cpTry cpPoll cpCan hsWr
    hsRd hsEnt hsTry hsPass hsDrop hsStat barCfg barArr barWait barAw barAf barRd redCfg redRd once firingCreate
    firingDispatch firingAging timeSliceEnd chunkClose chunkCommit chunkSquash exclusiveCommitGrant abortWaitTimeout
    messageDeliver trapReply commandTake readElement perform apply postCompletion oncePosting faultReplyArrival
    copyOpCopy copyOpGather copyOpScatter copyOpFill copyOpConvert ringsweep regran regranRelease nanWindowClose
    hsEntryDelivery hsDispatch hsVerdictDelivery reductionResult gvtSweep flushMarker migGoCompletion
    ctxStopCompletion ctxGoCompletion inboxReplay inboxRetry rectFence scratchpadError clusterStateError
    thresholdRecord llcFill llcWriteback scrub llcSliceOffline budgetPeriod hostMemoryRead hostMemoryWrite hostMessage
    hostLoadResponse hostStoreRefusal flitReplay portRetrain fabricMessageTimeout fabricAck timeBaseSync boot
    getVersion getCapabilities negotiateAlgorithms getDigests getCertificate challenge getMeasurements contextCreation
    keySlotWrite gangStopByManagement tlbInvAcknowledgement wgTablesApplied hostStoreAcceptance

end Sys2Proof.Laws.EncodesBack

namespace Sys2Proof

/-- Settles O40: each constructor has its own lemma of `Laws.EncodesBack`; an event has no word. -/
theorem decodeReadsEncodedBack : Obligations.DecodeReadsEncodedBack := by
  unfold Obligations.DecodeReadsEncodedBack
  intro i w hwf hw
  exact Laws.EncodesBack.encodesBack i hwf w hw

end Sys2Proof
end

section
/-! SUPPORT. O41 and O39: the fields of a word, put back together, are the word, so what decodes encodes to it. -/

namespace Sys2Proof

/-! ### The parts of a word and of its low part (R42) -/

theorem ofBool_getLsbD {n : Nat} (w : BitVec n) (i : Nat) : BitVec.ofBool (w.getLsbD i) = w.extractLsb' i 1 := by
  ext j hj
  obtain rfl : j = 0 := by omega
  simp

/-- R42: the five parts of a word, packed, are the word. -/
theorem packW_parts (w : BitVec 32) :
    packW (w.getLsbD 31) (w.extractLsb' 25 6) (w.extractLsb' 20 5) (w.extractLsb' 15 5) (w.extractLsb' 0 15) = w := by
  rw [packW, ofBool_getLsbD]
  iterate 4 rw [BitVec.extractLsb'_append_extractLsb'_eq_extractLsb' (by omega)]
  exact extract_whole w

theorem exists_append {m n : Nat} (v : BitVec (m + n)) : ∃ (a : BitVec m) (b : BitVec n), v = a ++ b := by
  refine ⟨v.extractLsb' n m, v.extractLsb' 0 n, ?_⟩
  rw [BitVec.extractLsb'_append_extractLsb'_eq_extractLsb' (by omega)]
  exact (extract_whole v).symm

theorem exists_loR3 (lo : BitVec 15) : ∃ b fn, lo = loR3 b fn := exists_append (m := 5) (n := 10) lo

theorem exists_loM (lo : BitVec 15) : ∃ k o, lo = loM k o := exists_append (m := 3) (n := 12) lo

theorem exists_loAmo (lo : BitVec 15) : ∃ b z fn, lo = loAmo b z fn := by
  obtain ⟨h, fn, rfl⟩ := exists_append (m := 6) (n := 9) lo
  obtain ⟨b, z, rfl⟩ := exists_append (m := 5) (n := 1) h
  exact ⟨b, z, fn, rfl⟩

theorem exists_loV (lo : BitVec 15) : ∃ b q fn, lo = loV b q fn := by
  obtain ⟨h, fn, rfl⟩ := exists_append (m := 8) (n := 7) lo
  obtain ⟨b, q, rfl⟩ := exists_append (m := 5) (n := 3) h
  exact ⟨b, q, fn, rfl⟩

theorem exists_loVm (lo : BitVec 15) : ∃ md q o, lo = loVm md q o := by
  obtain ⟨h, o, rfl⟩ := exists_append (m := 6) (n := 9) lo
  obtain ⟨md, q, rfl⟩ := exists_append (m := 3) (n := 3) h
  exact ⟨md, q, o, rfl⟩

theorem exists_loVc (lo : BitVec 15) : ∃ r k q fn, lo = loVc r k q fn := by
  obtain ⟨h, fn, rfl⟩ := exists_append (m := 9) (n := 6) lo
  obtain ⟨h, q, rfl⟩ := exists_append (m := 6) (n := 3) h
  obtain ⟨r, k, rfl⟩ := exists_append (m := 3) (n := 3) h
  exact ⟨r, k, q, fn, rfl⟩

/-- Two joined fields are zero only together. -/
theorem append_eq_zero {m n : Nat} {a : BitVec m} {b : BitVec n} (h : a ++ b = 0#(m + n)) : a = 0#m ∧ b = 0#n := by
  have hb : (a ++ b).extractLsb' 0 n = b := by rw [extract_append_low _ _ _ _ (by omega), extract_whole]
  have ha : (a ++ b).extractLsb' n m = a := by rw [extract_append_high _ _ _ _ (by omega), Nat.sub_self, extract_whole]
  rw [h] at ha hb
  simp_all

@[simp] theorem loVc_part9_6 (r k q : BitVec 3) (fn : BitVec 6) : (loVc r k q fn).extractLsb' 9 6 = r ++ k := by
  unfold loVc
  rw [extract_append_high _ _ _ _ (by omega), extract_append_high _ _ _ _ (by omega), extract_whole]

@[simp] theorem loV_part7_8 (b : BitVec 5) (q : BitVec 3) (fn : BitVec 7) : (loV b q fn).extractLsb' 7 8 = b ++ q := by
  unfold loV
  rw [extract_append_high _ _ _ _ (by omega), extract_whole]

theorem loSh6_eq {lo : BitVec 15} {op : BitVec 3} (hop : lo.extractLsb' 12 3 = op) (h : lo.extractLsb' 6 6 = 0#6) :
    loSh6 op (lo.extractLsb' 0 6) = lo := by
  rw [loSh6, ← hop, ← h]
  iterate 2 rw [BitVec.extractLsb'_append_extractLsb'_eq_extractLsb' (by omega)]
  exact extract_whole lo

theorem loSh5_eq {lo : BitVec 15} {op : BitVec 3} (hop : lo.extractLsb' 12 3 = op) (h : lo.extractLsb' 5 7 = 0#7) :
    loSh5 op (lo.extractLsb' 0 5) = lo := by
  rw [loSh5, ← hop, ← h]
  iterate 2 rw [BitVec.extractLsb'_append_extractLsb'_eq_extractLsb' (by omega)]
  exact extract_whole lo

theorem loVt_eq {lo : BitVec 15} {l : BitVec 1} (hl : lo.extractLsb' 8 1 = l) (h : lo.extractLsb' 0 5 = 0#5) :
    loVt (lo.extractLsb' 14 1) (lo.extractLsb' 9 5) l (lo.extractLsb' 5 3) = lo := by
  rw [loVt, ← hl, ← h]
  iterate 4 rw [BitVec.extractLsb'_append_extractLsb'_eq_extractLsb' (by omega)]
  exact extract_whole lo

theorem loVfn_eq {lo : BitVec 15} {fn : BitVec 5} (hfn : lo.extractLsb' 0 5 = fn) (h : lo.extractLsb' 10 5 = 0#5) :
    loVfn (lo.extractLsb' 7 3) (lo.extractLsb' 5 2) fn = lo := by
  rw [loVfn, ← hfn, ← h]
  iterate 3 rw [BitVec.extractLsb'_append_extractLsb'_eq_extractLsb' (by omega)]
  exact extract_whole lo

theorem mReg_eq {x : BitVec 5} (h : x.extractLsb' 3 2 = 0#2) : mReg (x.extractLsb' 0 3) = x := by
  rw [mReg, ← h, BitVec.extractLsb'_append_extractLsb'_eq_extractLsb' (by omega)]
  exact extract_whole x

theorem pairReg_eq {x : BitVec 5} (h : x.extractLsb' 0 1 = 0#1) : pairReg (x.extractLsb' 1 4) = x := by
  rw [pairReg, ← h, BitVec.extractLsb'_append_extractLsb'_eq_extractLsb' (by omega)]
  exact extract_whole x

/-! ### What a decoder answers is canonical (R60) -/

/-- R60: what is read from a word of these parts, if anything, is a well-formed instruction whose encoding is that word. -/
def IsCanonical (s : Bool) (m : BitVec 6) (x y : BitVec 5) (lo : BitVec 15) (r : Except Reject Instr) : Prop :=
  ∀ i, r = .ok i → encode? i = some (packW s m x y lo) ∧ i.wf = true

section
variable {s : Bool} {m : BitVec 6} {x y : BitVec 5} {lo : BitVec 15}

/-- A refused word claims nothing. -/
theorem IsCanonical.error {e : Reject} : IsCanonical s m x y lo (.error e) := nofun

/-- A check of R60 that refuses a word leaves only the words that pass it to look at. -/
theorem IsCanonical.ite {P : Prop} [Decidable P] {r : Except Reject Instr} {e : Reject}
    (h : P → IsCanonical s m x y lo r) : IsCanonical s m x y lo (if P then r else .error e) := by
  split
  · exact h ‹_›
  · exact .error

/-- An answer whose encoding has these parts. -/
theorem IsCanonical.parts {i : Instr} {x' y' : BitVec 5} {lo' : BitVec 15} (h : encode? i = some (packW s m x' y' lo'))
    (hx : x' = x) (hy : y' = y) (hlo : lo' = lo) (hwf : i.wf = true) : IsCanonical s m x y lo (.ok i) := by
  rintro _ ⟨⟩
  exact ⟨by rw [h, hx, hy, hlo], hwf⟩

/-- An answer whose encoding has these parts as they stand. -/
theorem IsCanonical.ok {i : Instr} (h : encode? i = some (packW s m x y lo)) (hwf : i.wf = true) :
    IsCanonical s m x y lo (.ok i) :=
  .parts h rfl rfl rfl hwf

end

/-! ### The groups (R47 to R59) -/

section
variable (s : Bool) (x y : BitVec 5) (lo : BitVec 15)

theorem decodeOpr_canonical : IsCanonical s 1#6 x y lo (decodeOpr s x y lo) := by
  obtain ⟨b, fn, rfl⟩ := exists_loR3 lo
  rw [decodeOpr, loR3_part0, loR3_part10]
  split
  case h_18 | h_19 | h_20 | h_21 | h_22 => exact .ite (by rintro rfl; exact .ok rfl rfl)
  case h_30 => exact .error
  all_goals exact .ok rfl rfl

theorem decodeShi_canonical : IsCanonical s 8#6 x y lo (decodeShi s x y lo) := by
  rw [decodeShi]
  split
  case h_1 hop | h_2 hop | h_3 hop => exact .ite fun h => .parts rfl rfl rfl (loSh6_eq hop h) rfl
  case h_4 hop | h_5 hop | h_6 hop => exact .ite fun h => .parts rfl rfl rfl (loSh5_eq hop h) rfl
  case h_7 => exact .error

theorem decodeMuldiv_canonical : IsCanonical s 11#6 x y lo (decodeMuldiv s x y lo) := by
  obtain ⟨b, fn, rfl⟩ := exists_loR3 lo
  rw [decodeMuldiv, loR3_part0, loR3_part10]
  split
  case h_13 => exact .error
  all_goals exact .ok rfl rfl

/-- LUI, ADDPC: the immediate is the second register field and the low part. -/
theorem imm20_parts (y : BitVec 5) (lo : BitVec 15) : (y ++ lo).extractLsb' 15 5 = y ∧ (y ++ lo).extractLsb' 0 15 = lo :=
  ⟨by rw [extract_append_high _ _ _ _ (by omega), extract_whole], by rw [extract_append_low _ _ _ _ (by omega), extract_whole]⟩

/-- JAL, J: the displacement is both register fields and the low part. -/
theorem disp25_parts (x y : BitVec 5) (lo : BitVec 15) : (x ++ y ++ lo).extractLsb' 20 5 = x
    ∧ (x ++ y ++ lo).extractLsb' 15 5 = y ∧ (x ++ y ++ lo).extractLsb' 0 15 = lo :=
  ⟨by rw [extract_append_high _ _ _ _ (by omega), extract_append_high _ _ _ _ (by omega), extract_whole],
    by rw [extract_append_high _ _ _ _ (by omega), extract_append_low _ _ _ _ (by omega), extract_whole],
    by rw [extract_append_low _ _ _ _ (by omega), extract_whole]⟩

theorem decodeLui_canonical : IsCanonical s 9#6 x y lo (decodeLui s x y lo) :=
  .parts rfl rfl (imm20_parts y lo).1 (imm20_parts y lo).2 rfl

theorem decodeAddpc_canonical : IsCanonical s 10#6 x y lo (decodeAddpc s x y lo) :=
  .parts rfl rfl (imm20_parts y lo).1 (imm20_parts y lo).2 rfl

theorem decodeJal_canonical : IsCanonical s 18#6 x y lo (decodeJal s x y lo) :=
  have ⟨hx, hy, hlo⟩ := disp25_parts x y lo
  .parts rfl hx hy hlo rfl

theorem decodeJ_canonical : IsCanonical s 19#6 x y lo (decodeJ s x y lo) :=
  have ⟨hx, hy, hlo⟩ := disp25_parts x y lo
  .parts rfl hx hy hlo rfl

theorem decodeSys_canonical : IsCanonical s 21#6 x y lo (decodeSys s x y lo) := by
  obtain ⟨b, fn, rfl⟩ := exists_loR3 lo
  rw [decodeSys, loR3_part0, loR3_part10]
  split
  case h_1 | h_2 | h_4 => exact .ite (by rintro ⟨rfl, rfl, rfl⟩; exact .ok rfl rfl)
  case h_5 | h_7 | h_13 => exact .ok rfl rfl
  case h_9 | h_10 | h_17 => exact .ite (by rintro ⟨rfl, rfl⟩; exact .ok rfl rfl)
  case h_19 => exact .error
  all_goals exact .ite (by rintro rfl; exact .ok rfl rfl)

theorem decodeLd_canonical : IsCanonical s 22#6 x y lo (decodeLd s x y lo) := by
  obtain ⟨k, o, rfl⟩ := exists_loM lo
  rw [decodeLd, loM_part0, loM_part12]
  split
  case h_8 => exact .error
  all_goals exact .ok rfl rfl

theorem decodeSt_canonical : IsCanonical s 23#6 x y lo (decodeSt s x y lo) := by
  obtain ⟨k, o, rfl⟩ := exists_loM lo
  rw [decodeSt, loM_part0, loM_part12]
  split
  case h_5 => exact .error
  all_goals exact .ok rfl rfl

theorem decodeVld_canonical : IsCanonical s 24#6 x y lo (decodeVld s x y lo) := by
  obtain ⟨md, q, o, rfl⟩ := exists_loVm lo
  rw [decodeVld, loVm_part0, loVm_part9, loVm_part12]
  split
  case h_7 => exact .error
  all_goals exact .ok rfl rfl

theorem decodeVst_canonical : IsCanonical s 25#6 x y lo (decodeVst s x y lo) := by
  obtain ⟨md, q, o, rfl⟩ := exists_loVm lo
  rw [decodeVst, loVm_part0, loVm_part9, loVm_part12]
  split
  case h_5 => exact .error
  all_goals exact .ok rfl rfl

/-- VT format: the tile index is the second register field and bit 14. -/
theorem tile_parts (y : BitVec 5) (t : BitVec 1) : (y ++ t).extractLsb' 1 5 = y ∧ (y ++ t).extractLsb' 0 1 = t :=
  ⟨by rw [extract_append_high _ _ _ _ (by omega), extract_whole], by rw [extract_append_low _ _ _ _ (by omega), extract_whole]⟩

theorem decodeVtl_canonical : IsCanonical s 26#6 x y lo (decodeVtl s x y lo) := by
  have ⟨hy, ht⟩ := tile_parts y (lo.extractLsb' 14 1)
  rw [decodeVtl]
  split
  case h_1 hl | h_2 hl => exact .ite fun h => .parts rfl rfl hy (by rw [ht, loVt_eq hl h]) rfl

theorem decodeVgs_canonical : IsCanonical s 27#6 x y lo (decodeVgs s x y lo) := by
  obtain ⟨b, q, fn, rfl⟩ := exists_loV lo
  rw [decodeVgs, loV_part0, loV_part7, loV_part10]
  split
  case h_6 => exact .error
  all_goals exact .ok rfl rfl

theorem decodeAmo_canonical : IsCanonical s 28#6 x y lo (decodeAmo s x y lo) := by
  obtain ⟨b, z, fn, rfl⟩ := exists_loAmo lo
  rw [decodeAmo, loAmo_part0, loAmo_part9, loAmo_part10]
  split
  case h_11 | h_12 | h_13 | h_14 | h_15 | h_16 | h_17 | h_18 | h_19 => exact .ite (by rintro rfl; exact .ok rfl rfl)
  case h_20 => exact .ite (by rintro ⟨rfl, rfl⟩; exact .ok rfl rfl)
  case h_21 => exact .error
  all_goals exact .ok rfl rfl

theorem decodeMsg_canonical : IsCanonical s 29#6 x y lo (decodeMsg s x y lo) := by
  obtain ⟨b, fn, rfl⟩ := exists_loR3 lo
  rw [decodeMsg, loR3_part0, loR3_part10]
  split
  case h_1 | h_4 | h_7 => exact .ite (by rintro rfl; exact .ok rfl rfl)
  case h_9 | h_10 => exact .ite (by rintro ⟨rfl, rfl⟩; exact .ok rfl rfl)
  case h_11 => exact .error
  all_goals exact .ok rfl rfl

theorem decodeChk_canonical : IsCanonical s 30#6 x y lo (decodeChk s x y lo) := by
  obtain ⟨b, fn, rfl⟩ := exists_loR3 lo
  rw [decodeChk, loR3_part0, loR3_part10]
  split
  case h_1 => exact .ite (by rintro ⟨rfl, rfl, rfl⟩; exact .ok rfl rfl)
  case h_2 => exact .ite fun h => .ite (by rintro ⟨rfl, rfl⟩; exact .ok rfl (decide_eq_true h))
  case h_3 | h_5 | h_6 => exact .ite (by rintro ⟨rfl, rfl⟩; exact .ok rfl rfl)
  case h_4 | h_7 | h_9 | h_10 => exact .ite (by rintro rfl; exact .ok rfl rfl)
  case h_8 => exact .ok rfl rfl
  case h_11 => exact .error

theorem decodeRing_canonical : IsCanonical s 31#6 x y lo (decodeRing s x y lo) := by
  obtain ⟨b, fn, rfl⟩ := exists_loR3 lo
  rw [decodeRing, loR3_part0, loR3_part10]
  split
  case h_1 | h_2 | h_5 | h_6 => exact .ite (by rintro ⟨h, rfl⟩; exact .parts rfl (pairReg_eq h) rfl rfl rfl)
  case h_3 | h_4 => exact .ite fun h => .parts rfl (pairReg_eq h) rfl rfl rfl
  case h_7 | h_8 | h_10 | h_11 => exact .ite (by rintro rfl; exact .ok rfl rfl)
  case h_9 => exact .ok rfl rfl
  case h_12 => exact .error

theorem decodeVarf_canonical : IsCanonical s 32#6 x y lo (decodeVarf s x y lo) := by
  obtain ⟨b, q, fn, rfl⟩ := exists_loV lo
  rw [decodeVarf, loV_part0, loV_part7, loV_part10]
  split
  case h_5 | h_8 | h_9 | h_17 => exact .ite (by rintro rfl; exact .ok rfl rfl)
  case h_13 | h_14 | h_15 | h_16 => exact .ite fun h => .parts rfl (mReg_eq h) rfl rfl rfl
  case h_18 => exact .error
  all_goals exact .ok rfl rfl

theorem decodeVari_canonical : IsCanonical s 33#6 x y lo (decodeVari s x y lo) := by
  obtain ⟨b, q, fn, rfl⟩ := exists_loV lo
  rw [decodeVari, loV_part0, loV_part7, loV_part10]
  split
  case h_12 | h_13 | h_14 => exact .ite fun h => .parts rfl (mReg_eq h) rfl rfl rfl
  case h_16 | h_17 | h_18 | h_19 => exact .ite (by rintro rfl; exact .ok rfl rfl)
  case h_20 => exact .ite (by rintro ⟨rfl, rfl⟩; exact .ok rfl rfl)
  case h_21 => exact .error
  all_goals exact .ok rfl rfl

theorem decodeVcvt_canonical : IsCanonical s 34#6 x y lo (decodeVcvt s x y lo) := by
  obtain ⟨r, k, q, fn, rfl⟩ := exists_loVc lo
  rw [decodeVcvt, loVc_part0, loVc_part6, loVc_part9, loVc_part12, loVc_part9_6]
  split
  case h_1 | h_2 | h_4 | h_6 => exact .ite fun hr => .ite (by rintro rfl; exact .ok rfl (decide_eq_true hr))
  case h_3 | h_5 =>
    refine .ite fun h => ?_
    obtain ⟨rfl, rfl⟩ := append_eq_zero h
    exact .ok rfl rfl
  case h_7 | h_9 => exact .ite fun hr => .ok rfl (decide_eq_true hr)
  case h_8 | h_10 => exact .ite (by rintro rfl; exact .ok rfl rfl)
  case h_11 => exact .error

theorem decodeVred_canonical : IsCanonical s 35#6 x y lo (decodeVred s x y lo) := by
  obtain ⟨b, q, fn, rfl⟩ := exists_loV lo
  rw [decodeVred, loV_part0, loV_part7, loV_part10]
  split
  case h_5 => exact .ite (by rintro ⟨h, rfl⟩; exact .parts rfl (pairReg_eq h) rfl rfl rfl)
  case h_10 => exact .error
  all_goals exact .ite (by rintro rfl; exact .ok rfl rfl)

theorem decodeVprm_canonical : IsCanonical s 36#6 x y lo (decodeVprm s x y lo) := by
  obtain ⟨b, q, fn, rfl⟩ := exists_loV lo
  rw [decodeVprm, loV_part0, loV_part7, loV_part10]
  split
  case h_5 | h_6 => exact .ite (by rintro rfl; exact .ok rfl rfl)
  case h_7 => exact .error
  all_goals exact .ok rfl rfl

theorem decodeVfn_canonical : IsCanonical s 37#6 x y lo (decodeVfn s x y lo) := by
  rw [decodeVfn]
  split <;> rename_i hfn
  case h_14 => exact .error
  all_goals exact .ite fun hp => .ite fun h => .parts rfl rfl rfl (loVfn_eq hfn h) (decide_eq_true hp)

theorem decodeVmsk_canonical : IsCanonical s 38#6 x y lo (decodeVmsk s x y lo) := by
  obtain ⟨b, q, fn, rfl⟩ := exists_loV lo
  rw [decodeVmsk, loV_part0, loV_part7, loV_part10_3, loV_part13_2, loV_part7_8]
  split
  case h_1 | h_2 | h_3 =>
    refine .ite ?_
    rintro ⟨hx, hy, rfl, hb⟩
    exact .parts rfl (mReg_eq hx) (mReg_eq hy) (by rw [mReg_eq hb]) rfl
  case h_4 =>
    refine .ite fun ⟨hx, hy, h⟩ => ?_
    obtain ⟨rfl, rfl⟩ := append_eq_zero h
    exact .parts rfl (mReg_eq hx) (mReg_eq hy) rfl rfl
  case h_5 | h_6 | h_8 =>
    refine .ite fun ⟨hy, h⟩ => ?_
    obtain ⟨rfl, rfl⟩ := append_eq_zero h
    exact .parts rfl rfl (mReg_eq hy) rfl rfl
  case h_7 =>
    refine .ite fun ⟨hx, h⟩ => ?_
    obtain ⟨rfl, rfl⟩ := append_eq_zero h
    exact .parts rfl (mReg_eq hx) rfl rfl rfl
  case h_9 => exact .error

theorem decodeVq_canonical : IsCanonical s 39#6 x y lo (decodeVq s x y lo) := by
  obtain ⟨b, q, fn, rfl⟩ := exists_loV lo
  rw [decodeVq, loV_part0, loV_part7, loV_part10]
  split
  case h_6 => exact .error
  all_goals exact .ok rfl rfl

theorem decodeCsr_canonical : IsCanonical s 40#6 x y lo (decodeCsr s x y lo) := by
  obtain ⟨k, n, rfl⟩ := exists_loM lo
  rw [decodeCsr, loM_part0, loM_part12]
  split
  case h_1 => exact .ite fun hn => .ite (by rintro rfl; exact .ok rfl hn)
  case h_2 | h_3 | h_4 => exact .ite fun hn => .ok rfl hn
  case h_5 => exact .ite fun hn => .ite (by rintro rfl; exact .ok rfl (decide_eq_true hn))
  case h_6 => exact .error

theorem decodeXeng_canonical : IsCanonical s 48#6 x y lo (decodeXeng s x y lo) := by
  obtain ⟨b, fn, rfl⟩ := exists_loR3 lo
  rw [decodeXeng, loR3_part0, loR3_part10]
  split
  case h_9 | h_13 | h_22 | h_23 | h_24 => exact .ite (by rintro ⟨rfl, rfl⟩; exact .ok rfl rfl)
  case h_11 | h_16 | h_17 | h_20 => exact .ok rfl rfl
  case h_19 => exact .ite (by rintro ⟨rfl, rfl, rfl⟩; exact .ok rfl rfl)
  case h_29 => exact .error
  all_goals exact .ite (by rintro rfl; exact .ok rfl rfl)

/-- R46, R60: each major reads only canonical words. -/
theorem decodeParts_canonical (m : BitVec 6) : IsCanonical s m x y lo (decodeParts s m x y lo) := by
  unfold decodeParts
  split
  case h_1 => exact decodeOpr_canonical s x y lo
  case h_8 => exact decodeShi_canonical s x y lo
  case h_9 => exact decodeLui_canonical s x y lo
  case h_10 => exact decodeAddpc_canonical s x y lo
  case h_11 => exact decodeMuldiv_canonical s x y lo
  case h_18 => exact decodeJal_canonical s x y lo
  case h_19 => exact decodeJ_canonical s x y lo
  case h_21 => exact decodeSys_canonical s x y lo
  case h_22 => exact decodeLd_canonical s x y lo
  case h_23 => exact decodeSt_canonical s x y lo
  case h_24 => exact decodeVld_canonical s x y lo
  case h_25 => exact decodeVst_canonical s x y lo
  case h_26 => exact decodeVtl_canonical s x y lo
  case h_27 => exact decodeVgs_canonical s x y lo
  case h_28 => exact decodeAmo_canonical s x y lo
  case h_29 => exact decodeMsg_canonical s x y lo
  case h_30 => exact decodeChk_canonical s x y lo
  case h_31 => exact decodeRing_canonical s x y lo
  case h_32 => exact decodeVarf_canonical s x y lo
  case h_33 => exact decodeVari_canonical s x y lo
  case h_34 => exact decodeVcvt_canonical s x y lo
  case h_35 => exact decodeVred_canonical s x y lo
  case h_36 => exact decodeVprm_canonical s x y lo
  case h_37 => exact decodeVfn_canonical s x y lo
  case h_38 => exact decodeVmsk_canonical s x y lo
  case h_39 => exact decodeVq_canonical s x y lo
  case h_40 => exact decodeCsr_canonical s x y lo
  case h_41 => exact decodeXeng_canonical s x y lo
  case h_42 => exact .ite (by rintro ⟨rfl, rfl, rfl, rfl⟩; exact .ok rfl rfl)
  case h_43 => exact .error
  all_goals exact .ok rfl rfl

end

/-- Settles O41: the parts of the word give it back, and each major reads only canonical words. -/
theorem decodedWordIsCanonical : Obligations.DecodedWordIsCanonical := by
  unfold Obligations.DecodedWordIsCanonical
  intro i w h
  have hcanon := decodeParts_canonical (w.getLsbD 31) (w.extractLsb' 20 5) (w.extractLsb' 15 5) (w.extractLsb' 0 15)
    (w.extractLsb' 25 6) i h
  rwa [packW_parts] at hcanon

/-- Settles O39: each of the seven words is the encoding of its instruction, which decodes back; major 0x3F is reserved. -/
theorem wordsDecode : Obligations.WordsDecode := by
  unfold Obligations.WordsDecode
  exact ⟨decodeReadsEncodedBack _ _ rfl rfl, decodeReadsEncodedBack _ _ rfl rfl, decodeReadsEncodedBack _ _ rfl rfl,
    decodeReadsEncodedBack _ _ rfl rfl, decodeReadsEncodedBack _ _ rfl rfl, decodeReadsEncodedBack _ _ rfl rfl,
    decodeReadsEncodedBack _ _ rfl rfl, .reservedMajor, rfl⟩

end Sys2Proof
end

section
/-! SUPPORT. O6: what the registers read after a write, and after the group's end (R44, R66 to R69). -/

namespace Sys2Proof.Machine

/-! ### Reads after a write (R44, R67) -/

section
variable (f : Slot) (d r : BitVec 5) (e q : BitVec 3) (x : Word) (v : VReg) (y : Lane)

theorem Slot.gr_writeG : (f.writeG d x).gr r = if r = 0 then 0 else if r = d then x else f.gr r := by
  split
  case isTrue hr => rw [hr]; rfl
  case isFalse hr =>
    split
    case isTrue hd => exact hd ▸ f.gr_writeG_self r x hr
    case isFalse hd => exact f.gr_writeG_ne d r x hd

theorem Slot.vr_writeV : (f.writeV d v).vr r = if r = d then v else f.vr r := by
  split
  case isTrue hd => exact hd ▸ f.vr_writeV_self r v
  case isFalse hd => exact f.vr_writeV_ne d r v hd

theorem Slot.mr_writeM : (f.writeM e y).mr q = if q = 0 then BitVec.allOnes 32 else if q = e then y else f.mr q := by
  split
  case isTrue hq => rw [hq]; rfl
  case isFalse hq =>
    split
    case isTrue he => exact he ▸ f.mr_writeM_self q y hq
    case isFalse he => exact f.mr_writeM_ne e q y he

/-- R67: a long-class result is not seen within its group. -/
@[simp] theorem Slot.gr_landG : (f.landG d x).gr r = f.gr r := by simp [Slot.gr]

@[simp] theorem Slot.vr_landV : (f.landV d v).vr r = f.vr r := rfl

@[simp] theorem Slot.mr_landM : (f.landM e y).mr q = f.mr q := by simp [Slot.mr]

end

/-! ### Reads after the end of the group (R68) -/

section
variable {f : Slot} {mark : Bool} {pc : Word}

/-- R66, R68: where the instruction is marked or the 64th, a register reads what landed. -/
theorem Slot.advanceTo_of_ends (h : mark = true ∨ 64 ≤ f.glen + 1) :
    (f.advanceTo mark pc).reg.g = f.land.g ∧ (f.advanceTo mark pc).reg.v = f.land.v
      ∧ (f.advanceTo mark pc).reg.m = f.land.m := by
  have hends : (mark || decide (64 ≤ f.glen + 1)) = true := by simpa using h
  rw [Slot.advanceTo, if_pos hends]
  exact ⟨rfl, rfl, rfl⟩

theorem Slot.gr_advanceTo_of_ends {d : BitVec 5} (hd : d ≠ 0) (h : mark = true ∨ 64 ≤ f.glen + 1) :
    (f.advanceTo mark pc).gr d = f.land.g[d.toNat]'d.isLt := by
  obtain ⟨hg, -, -⟩ := Slot.advanceTo_of_ends (pc := pc) h
  rw [Slot.gr, if_neg hd]
  simp only [hg]

theorem Slot.vr_advanceTo_of_ends {d : BitVec 5} (h : mark = true ∨ 64 ≤ f.glen + 1) :
    (f.advanceTo mark pc).vr d = f.land.v[d.toNat]'d.isLt := by
  obtain ⟨-, hv, -⟩ := Slot.advanceTo_of_ends (pc := pc) h
  rw [Slot.vr]
  simp only [hv]

theorem Slot.mr_advanceTo_of_ends {e : BitVec 3} (he : e ≠ 0) (h : mark = true ∨ 64 ≤ f.glen + 1) :
    (f.advanceTo mark pc).mr e = f.land.m[e.toNat]'e.isLt := by
  obtain ⟨-, -, hm⟩ := Slot.advanceTo_of_ends (pc := pc) h
  rw [Slot.mr, if_neg he]
  simp only [hm]

/-! What a write leaves to land in the register it writes, of either class. -/

theorem Slot.gr_advanceTo_landG {d : BitVec 5} {x : Word} (hd : d ≠ 0) (h : mark = true ∨ 64 ≤ f.glen + 1) :
    ((f.landG d x).advanceTo mark pc).gr d = x := by
  rw [Slot.gr_advanceTo_of_ends hd (by simpa using h)]
  simp [Slot.landG, show d ≠ 0#5 from hd]

theorem Slot.gr_advanceTo_writeG {d : BitVec 5} {x : Word} (hd : d ≠ 0) (h : mark = true ∨ 64 ≤ f.glen + 1) :
    ((f.writeG d x).advanceTo mark pc).gr d = x := by
  rw [Slot.gr_advanceTo_of_ends hd (by simpa using h)]
  simp [Slot.writeG, show d ≠ 0#5 from hd]

theorem Slot.vr_advanceTo_landV {d : BitVec 5} {v : VReg} (h : mark = true ∨ 64 ≤ f.glen + 1) :
    ((f.landV d v).advanceTo mark pc).vr d = v := by
  rw [Slot.vr_advanceTo_of_ends (by simpa using h)]
  simp [Slot.landV]

theorem Slot.vr_advanceTo_writeV {d : BitVec 5} {v : VReg} (h : mark = true ∨ 64 ≤ f.glen + 1) :
    ((f.writeV d v).advanceTo mark pc).vr d = v := by
  rw [Slot.vr_advanceTo_of_ends (by simpa using h)]
  simp [Slot.writeV]

theorem Slot.mr_advanceTo_landM {e : BitVec 3} {y : Lane} (he : e ≠ 0) (h : mark = true ∨ 64 ≤ f.glen + 1) :
    ((f.landM e y).advanceTo mark pc).mr e = y := by
  rw [Slot.mr_advanceTo_of_ends he (by simpa using h)]
  simp [Slot.landM, show e ≠ 0#3 from he]

theorem Slot.mr_advanceTo_writeM {e : BitVec 3} {y : Lane} (he : e ≠ 0) (h : mark = true ∨ 64 ≤ f.glen + 1) :
    ((f.writeM e y).advanceTo mark pc).mr e = y := by
  rw [Slot.mr_advanceTo_of_ends he (by simpa using h)]
  simp [Slot.writeM, show e ≠ 0#3 from he]

end

/-- Settles O6: a read after a write within the group, and after its end, where the last write of the register is what the
landing registers hold; an earlier write of the group only makes another slot that the lemmas of the last one speak of. -/
theorem registerWrites : Obligations.RegisterWrites := by
  unfold Obligations.RegisterWrites
  refine ⟨fun f d r e q x v y => ?_, fun f d e x x' v v' y y' mark pc hend => ?_⟩
  · exact ⟨f.gr_writeG d r x, f.vr_writeV d r v, f.mr_writeM e q y, rfl, rfl, rfl, rfl, f.gr_landG d r x, rfl,
      f.mr_landM e q y⟩
  · refine ⟨fun hd => ⟨?_, ?_, ?_, ?_, ?_⟩, ?_, ?_, ?_, ?_, ?_, ?_, fun he => ⟨?_, ?_, ?_, ?_, ?_⟩, ?_⟩
    · exact Slot.gr_advanceTo_writeG hd (by simpa using hend)
    · exact Slot.gr_advanceTo_landG hd (by simpa using hend)
    · exact Slot.gr_advanceTo_landG hd (by simpa using hend)
    · exact Slot.gr_advanceTo_writeG hd (by simpa using hend)
    · rw [Slot.gr_landG, Slot.gr_writeG_self _ _ _ hd]
    · rintro rfl
      exact ⟨rfl, rfl⟩
    · exact Slot.vr_advanceTo_writeV (by simpa using hend)
    · exact Slot.vr_advanceTo_landV (by simpa using hend)
    · exact Slot.vr_advanceTo_landV (by simpa using hend)
    · exact Slot.vr_advanceTo_writeV (by simpa using hend)
    · rw [Slot.vr_landV, Slot.vr_writeV_self]
    · exact Slot.mr_advanceTo_writeM he (by simpa using hend)
    · exact Slot.mr_advanceTo_landM he (by simpa using hend)
    · exact Slot.mr_advanceTo_landM he (by simpa using hend)
    · exact Slot.mr_advanceTo_writeM he (by simpa using hend)
    · rw [Slot.mr_landM, Slot.mr_writeM_self _ _ _ he]
    · rintro rfl
      exact ⟨rfl, rfl⟩

end Sys2Proof.Machine
end

section
/-! SUPPORT. O30 and O31: the CSR instructions (R129 to R132) and the registers of a firing (R64). -/

namespace Sys2Proof.Machine

/-! ### What a CSR reads as (R130, R131) -/

/-- R131: a firing, core or live CSR reads as it stands, and the read leaves the slot. -/
theorem State.csrRead_plain {s : State} {n : BitVec 12} {x : Word} (h : (n, x) ∈ plainCsrs s) :
    s.csrRead s.focus n.toNat = (s.focus, x) := by
  simp only [plainCsrs, List.mem_cons, List.not_mem_nil, or_false, Prod.mk.injEq] at h
  rcases h with ⟨rfl, rfl⟩ | ⟨rfl, rfl⟩ | ⟨rfl, rfl⟩ | ⟨rfl, rfl⟩ | ⟨rfl, rfl⟩ | ⟨rfl, rfl⟩ | ⟨rfl, rfl⟩ | ⟨rfl, rfl⟩ |
    ⟨rfl, rfl⟩ | ⟨rfl, rfl⟩ | ⟨rfl, rfl⟩ | ⟨rfl, rfl⟩ <;> rfl

/-- R130, R131: a context CSR enters the read set and reads as the chunk sees it, zero where its context does not exist. -/
theorem State.csrRead_context {s : State} {n : BitVec 12} {c m : Nat} {x : Word} (h : (n, c, m, x) ∈ contextCsrs s) :
    s.csrRead s.focus n.toNat = (s.focus.addRead (.csr c m),
      if s.hasCtx c || decide (c = s.focus.firing.ctx) then s.focus.heldCsr c m x else 0) := by
  simp only [contextCsrs, List.mem_cons, List.not_mem_nil, or_false, Prod.mk.injEq] at h
  rcases h with ⟨rfl, rfl, rfl, rfl⟩ | ⟨rfl, rfl, rfl, rfl⟩ | ⟨rfl, rfl, rfl, rfl⟩ | ⟨rfl, rfl, rfl, rfl⟩ |
    ⟨rfl, rfl, rfl, rfl⟩ | ⟨rfl, rfl, rfl, rfl⟩ | ⟨rfl, rfl, rfl, rfl⟩ | ⟨rfl, rfl, rfl, rfl⟩ <;> rfl

/-- R130: without a held write of the CSR the chunk sees the committed value. -/
theorem Slot.heldCsr_of_not_mem {f : Slot} {c m : Nat} {x : Word} (h : ∀ v, Held.csr c m v ∉ f.chunk.held) :
    f.heldCsr c m x = x := by
  have hnone : (f.chunk.held.reverse.findSome? fun h => match h with
      | .csr c' n v => if c' = c ∧ n = m then some v else none
      | _ => none) = none := by
    rw [List.findSome?_eq_none_iff]
    intro e he
    split
    next c' n v =>
      rw [if_neg]
      rintro ⟨rfl, rfl⟩
      exact h v (List.mem_reverse.1 he)
    next => rfl
  rw [Slot.heldCsr]
  split
  next v hv => exact absurd (hnone.symm.trans hv) nofun
  next => rfl

/-- R130: the chunk sees its own latest held write. -/
theorem Slot.heldCsr_hold (f : Slot) (c m : Nat) (v x : Word) : (f.hold (.csr c m v)).heldCsr c m x = v := by
  simp [Slot.heldCsr, Slot.hold]

/-! ### What a CSR instruction does (R60, R129) -/

section
variable {s : State} {k : Bool} {d : BitVec 5} {n : Nat}

/-- R60: a privileged number in a user firing raises PRIV in every form. -/
theorem State.csrOp_priv {w : Option (Word → Word)} (hn : 0x800 ≤ n) (hu : s.focus.firing.ctx ≠ 0) :
    s.csrOp k d n w = .next (s.takeException .priv s.focus.reg.pc 0 0 0) := by
  simp [State.csrOp, Slot.priv, hn, hu]

/-- R131: a write of a read-only CSR raises ILLOP. -/
theorem State.csrOp_readOnly {g : Word → Word} (hp : n < 0x800) (hro : csrReadOnly n = true) :
    s.csrOp k d n (some g) = .next (s.takeException .illop s.focus.reg.pc 0 0 0) := by
  simp [State.csrOp, Nat.not_le.2 hp, hro]

theorem not_privileged (hp : n < 0x800 ∨ s.focus.firing.ctx = 0) : (decide (0x800 ≤ n) && !s.focus.priv) = false := by
  simp only [Slot.priv, Bool.and_eq_false_imp, decide_eq_true_eq, Bool.not_eq_false']
  omega

/-- R129: a read: g[d] takes the value. -/
theorem State.csrOp_read (hp : n < 0x800 ∨ s.focus.firing.ctx = 0) :
    s.csrOp k d n none = .next (s.withFocus (((s.csrRead s.focus n).1.writeG d (s.csrRead s.focus n).2).advance k)) := by
  simp [State.csrOp, not_privileged hp]

/-- R129: a write: g[d] takes the old value, the CSR the new one. -/
theorem State.csrOp_write {g : Word → Word} (hp : n < 0x800 ∨ s.focus.firing.ctx = 0) (hro : csrReadOnly n = false) :
    s.csrOp k d n (some g) = .next (s.withFocus (((s.csrWrite (s.csrRead s.focus n).1 n (g (s.csrRead s.focus n).2)).writeG d
      (s.csrRead s.focus n).2).advance k)) := by
  simp [State.csrOp, not_privileged hp, hro]

end

/-- Settles O30: the three reading forms are one read of the CSR, whose value the two tables give. -/
theorem csrReads : Obligations.CsrReads := by
  unfold Obligations.CsrReads
  intro k d n s
  refine ⟨fun x hx hp => ?plain, fun c m x hx hp => ⟨fun hc => ?own, fun hne hno => ?absent, fun h => ?committed, ?held⟩, ?frd⟩
  case plain =>
    have h := State.csrOp_read (k := k) (d := d) hp
    rw [State.csrRead_plain hx] at h
    exact ⟨h, h, h⟩
  case own =>
    have h := State.csrOp_read (k := k) (d := d) hp
    have hc' : (s.hasCtx c || decide (c = s.focus.firing.ctx)) = true := by simpa [or_comm] using hc
    rw [State.csrRead_context hx, if_pos hc'] at h
    exact ⟨h, h, h⟩
  case absent =>
    have h := State.csrOp_read (k := k) (d := d) hp
    have hc' : ¬ (s.hasCtx c || decide (c = s.focus.firing.ctx)) = true := by simp [hne, hno]
    rw [State.csrRead_context hx, if_neg hc'] at h
    exact ⟨h, h, h⟩
  case committed => exact Slot.heldCsr_of_not_mem h
  case held => exact fun v => Slot.heldCsr_hold _ c m v x
  case frd =>
    intro j x hx hn
    simp only [List.mem_cons, List.not_mem_nil, or_false, Prod.mk.injEq] at hx
    change shortResult k d (s.focus.firing.reg n.toNat) s = _
    rw [hn]
    rcases hx with ⟨rfl, rfl⟩ | ⟨rfl, rfl⟩ | ⟨rfl, rfl⟩ | ⟨rfl, rfl⟩ | ⟨rfl, rfl⟩ | ⟨rfl, rfl⟩ | ⟨rfl, rfl⟩
    case inr.inr.inr.inr.inr.inl => rw [Nat.mul_comm 256]; rfl
    all_goals rfl

/-! ### CSR writes (R129 to R132) -/

theorem csrReadOnly_iff (n : BitVec 12) : csrReadOnly n.toNat = true ↔
    n ∈ [0x002, 0x003, 0x010, 0x011, 0x012, 0x013, 0x021, 0x024, 0x025, 0x026, 0x027] := by
  simp [csrReadOnly, ← BitVec.toNat_inj]

/-- R131: the read-only CSRs are not privileged. -/
theorem lt_of_csrReadOnly {n : Nat} (h : csrReadOnly n = true) : n < 0x800 := by
  simp only [csrReadOnly, List.mem_cons, List.not_mem_nil, or_false, decide_eq_true_eq] at h
  omega

/-- R132: FRM keeps codes 0 to 5. -/
theorem frmMasked_eq (v : Word) : frmMasked v = if 6 ≤ v.toNat % 8 then 0 else v &&& 7 := rfl

/-- R130, R131: the context CSR that a number names is that of the table. -/
theorem Slot.csrTarget_context {s : State} {n : BitVec 12} {c m : Nat} {x : Word} (h : (n, c, m, x) ∈ contextCsrs s) :
    s.focus.csrTarget n.toNat = some (c, m) := by
  simp only [contextCsrs, List.mem_cons, List.not_mem_nil, or_false, Prod.mk.injEq] at h
  rcases h with ⟨rfl, rfl, rfl, rfl⟩ | ⟨rfl, rfl, rfl, rfl⟩ | ⟨rfl, rfl, rfl, rfl⟩ | ⟨rfl, rfl, rfl, rfl⟩ |
    ⟨rfl, rfl, rfl, rfl⟩ | ⟨rfl, rfl, rfl, rfl⟩ | ⟨rfl, rfl, rfl, rfl⟩ | ⟨rfl, rfl, rfl, rfl⟩ <;> rfl

@[simp] theorem Slot.csrTarget_addRead (f : Slot) (l : Loc) (n : Nat) : (f.addRead l).csrTarget n = f.csrTarget n := rfl

/-- R130: a write of a context CSR is held where its context exists. -/
theorem State.csrWrite_context (s : State) {f : Slot} {n c m : Nat} (v : Word) (h : f.csrTarget n = some (c, m)) :
    s.csrWrite f n v = if s.hasCtx c || decide (c = f.firing.ctx) then f.hold (.csr c m (csrMasked m v)) else f := by
  have h0 : n ≠ 0x000 := by rintro rfl; exact absurd h nofun
  have h1 : n ≠ 0x001 := by rintro rfl; exact absurd h nofun
  have h8 : n ≠ 0x800 := by rintro rfl; exact absurd h nofun
  simp [State.csrWrite, h]

/-- R131, R132: the value that a context CSR keeps, row by row. -/
theorem csrMasked_eq {m : Nat} {v z : Word} (h : (m, z) ∈ [(0x020, v), (0x022, v &&& 0x8003FFFF), (0x023, v),
    (0x026, v &&& ~~~ 0x1FFF), (0x027, v &&& ~~~ 0x3FFFFF), (0x803, v &&& ~~~ 0xFFF)]) : csrMasked m v = z := by
  simp only [List.mem_cons, List.not_mem_nil, or_false, Prod.mk.injEq] at h
  rcases h with ⟨rfl, rfl⟩ | ⟨rfl, rfl⟩ | ⟨rfl, rfl⟩ | ⟨rfl, rfl⟩ | ⟨rfl, rfl⟩ | ⟨rfl, rfl⟩ <;> rfl

/-- R129 to R132: the slot that a write of v to CSR n leaves. -/
def CsrWritten (s : State) (n : BitVec 12) (v : Word) (g : Slot) : Prop :=
  let f := s.focus
  (n = 0x000 → g = { f with reg := { f.reg with flags := v &&& 31 } })
  ∧ (n = 0x001 → g = { f with reg := { f.reg with frm := if 6 ≤ v.toNat % 8 then 0 else v &&& 7 } })
  ∧ (n = 0x800 → g = { f with reg := { f.reg with ctxsel := v &&& 255 } })
  ∧ (∀ c m y z, (n, c, m, y) ∈ contextCsrs s → (m, z) ∈ [(0x020, v), (0x022, v &&& 0x8003FFFF), (0x023, v),
        (0x026, v &&& ~~~ 0x1FFF), (0x027, v &&& ~~~ 0x3FFFFF), (0x803, v &&& ~~~ 0xFFF)] →
      g = if c = f.firing.ctx ∨ s.hasCtx c = true then (f.addRead (.csr c m)).hold (.csr c m z)
        else f.addRead (.csr c m))

/-- R129 to R132: a CSR write after its read leaves the slot so. -/
theorem State.csrWrite_csrRead (s : State) (n : BitVec 12) (v : Word) :
    CsrWritten s n v (s.csrWrite (s.csrRead s.focus n.toNat).1 n.toNat v) := by
  refine ⟨?flags, ?frm, ?ctxsel, fun c m y z hn hz => ?context⟩
  case flags => rintro rfl; rfl
  case frm => rintro rfl; rfl
  case ctxsel => rintro rfl; rfl
  case context =>
    rw [State.csrRead_context hn, State.csrWrite_context s v (by simpa using Slot.csrTarget_context hn), csrMasked_eq hz,
      Slot.addRead_firing]
    simp [or_comm]

/-! ### The commit of a context CSR (R132, R192, R195) -/

theorem State.ctxOf_id (s : State) (c : Nat) : (s.ctxOf c).id = c := by
  rw [State.ctxOf]
  cases h : s.ctxs.find? fun x => x.id = c with
  | none => rfl
  | some x => simpa using List.find?_some h

theorem Ctx.setCsr_id (c : Ctx) (num : Nat) (v : Word) : (c.setCsr num v).id = c.id := by
  unfold Ctx.setCsr
  split <;> rfl

/-- A context that was set is what its number names. -/
theorem State.ctxOf_setCtx_of_id (s : State) {c : Ctx} {n : Nat} (h : c.id = n) : (s.setCtx c).ctxOf n = c := by
  rw [← h, State.ctxOf_setCtx]

theorem State.moveLaw_slots (s : State) : s.moveLaw.slots = s.slots := by
  unfold State.moveLaw
  split
  · rfl
  · split <;> rfl

theorem State.moveLaw_ctxOf (s : State) (n : Nat) : s.moveLaw.ctxOf n = s.ctxOf n := by
  unfold State.moveLaw
  split
  · rfl
  · split <;> rfl

theorem State.keepBases_ctxOf (s : State) (c num n : Nat) : (s.keepBases c num).ctxOf n = s.ctxOf n := by
  unfold State.keepBases
  split <;> rfl

section
variable (s : State) (f : Slot) (c num : Nat) (v : Word)

/-- R132: the commit of a context CSR changes that context alone. -/
theorem State.applyHeld_csr_ctxOf (n : Nat) :
    (s.applyHeld f (.csr c num v)).ctxOf n = if n = c then (s.ctxOf c).setCsr num v else s.ctxOf n := by
  have hset : (((s.keepBases c num).setCtx ((s.ctxOf c).setCsr num v)).ctxOf n)
      = if n = c then (s.ctxOf c).setCsr num v else s.ctxOf n := by
    have hid : ((s.ctxOf c).setCsr num v).id = c := by rw [Ctx.setCsr_id, State.ctxOf_id]
    split
    case isTrue h => exact State.ctxOf_setCtx_of_id _ (hid.trans h.symm)
    case isFalse h => rw [State.ctxOf_setCtx_ne _ _ _ (by rwa [hid]), State.keepBases_ctxOf]
  change State.ctxOf (if c = 0 ∧ num = 0x026 then State.moveLaw _ else _) n = _
  split
  · rw [State.moveLaw_ctxOf, hset]
  · exact hset

theorem State.applyHeld_csr_slots : (s.applyHeld f (.csr c num v)).slots = (s.keepBases c num).slots := by
  change State.slots (if c = 0 ∧ num = 0x026 then State.moveLaw _ else _) = _
  split
  · rw [State.moveLaw_slots]; rfl
  · rfl

/-- The table bases of a context (R132). -/
def Ctx.bases (c : Ctx) : Word × Word × Word := (c.lawbase, c.objbase, c.trapsv)

theorem Chunk.sees_bases (k : Chunk) (x : Ctx) : (k.sees x).bases = k.bases.getD x.bases := by
  unfold Chunk.sees
  split <;> simp [Ctx.bases, *]

/-- The CSR numbers of the table bases (R132). -/
abbrev isBaseCsr (num : Nat) : Prop := num = 0x026 ∨ num = 0x027 ∨ num = 0x803

/-- R132: a CSR that is no table base leaves the bases. -/
theorem Ctx.setCsr_bases (x : Ctx) (h : ¬ isBaseCsr num) : (x.setCsr num v).bases = x.bases := by
  unfold Ctx.setCsr
  split <;> simp_all [Ctx.bases, isBaseCsr]

/-- R132: a slot under a commit of a table base: an open one of the context keeps the bases it opened under. -/
theorem State.exists_keepBases {h : Slot} (hmem : h ∈ s.slots) (hact : h.active = true) :
    ∃ g ∈ (s.keepBases c num).slots, g.core = h.core ∧ g.k = h.k ∧ g.firing = h.firing ∧
      g.chunk.bases = if isBaseCsr num ∧ h.opening = false ∧ h.firing.ctx = c
        then some (h.chunk.bases.getD (s.ctxOf c).bases) else h.chunk.bases := by
  by_cases hnum : isBaseCsr num
  case neg => exact ⟨h, by rwa [State.keepBases, if_neg hnum], rfl, rfl, rfl, by rw [if_neg (hnum ·.1)]⟩
  case pos =>
    rw [State.keepBases, if_pos hnum]
    refine ⟨_, List.mem_map_of_mem (f := fun f : Slot => if f.active && !f.opening && decide (f.firing.ctx = c) then
        { f with chunk := f.chunk.keepBases (s.ctxOf c), startChunk := f.startChunk.keepBases (s.ctxOf c) } else f) hmem, ?_⟩
    by_cases hopen : h.opening = false ∧ h.firing.ctx = c
    · obtain ⟨hop, hctx⟩ := hopen
      cases hb : h.chunk.bases <;> simp [hact, hop, hctx, hnum, hb, Chunk.keepBases, Ctx.bases]
    · have hkeep : ¬ (h.active && !h.opening && decide (h.firing.ctx = c)) = true := by simpa [hact] using hopen
      rw [if_neg hkeep, if_neg (hopen ·.2)]
      exact ⟨rfl, rfl, rfl, rfl⟩

/-- R132, R192, R195: the commit leaves an active slot its bases: a chunk that is not yet open and has none takes those of
its context after the commit, every other one has those it had. -/
theorem State.applyHeld_csr_keeps_bases {h : Slot} (hmem : h ∈ s.slots) (hact : h.active = true) :
    ∃ g ∈ (s.applyHeld f (.csr c num v)).slots, g.core = h.core ∧ g.k = h.k ∧
      ((s.applyHeld f (.csr c num v)).ctxFor g).bases = if h.opening = true ∧ h.chunk.bases = none
        then ((s.applyHeld f (.csr c num v)).ctxOf h.firing.ctx).bases else (s.ctxFor h).bases := by
  obtain ⟨g, hg, hcore, hk, hfir, hbases⟩ := s.exists_keepBases c num hmem hact
  refine ⟨g, by rwa [State.applyHeld_csr_slots], hcore, hk, ?_⟩
  rw [State.ctxFor, State.ctxFor, Chunk.sees_bases, Chunk.sees_bases, hfir, hbases]
  split
  case isTrue hkept =>
    obtain ⟨-, hopen, hctx⟩ := hkept
    simp [hopen, hctx]
  case isFalse hkept =>
    cases hb : h.chunk.bases with
    | some b => simp
    | none =>
      by_cases hopen : h.opening = true
      · simp [hopen]
      · rw [if_neg (hopen ·.1), State.applyHeld_csr_ctxOf]
        split
        case isTrue hctx =>
          have hnum : ¬ isBaseCsr num := fun hn => hkept ⟨hn, by simpa using hopen, hctx⟩
          simp [hctx, Ctx.setCsr_bases num v _ hnum]
        case isFalse => rfl

end

/-- Settles O31. -/
theorem csrWrites : Obligations.CsrWrites := by
  unfold Obligations.CsrWrites
  intro k d a n s
  refine ⟨fun hp hro => ?written, fun hro => ?readOnly, fun hn hu => ?priv, fun ctx num v h hmem hact => ⟨?bases, ?law, ?obj, ?trap⟩⟩
  case written =>
    have hro' : csrReadOnly n.toNat = false := by rwa [← csrReadOnly_iff, Bool.not_eq_true] at hro
    refine ⟨⟨_, State.csrOp_write hp hro', s.csrWrite_csrRead n _⟩, fun ha => ⟨_, ?_, s.csrWrite_csrRead n _⟩,
      fun ha => ⟨_, ?_, s.csrWrite_csrRead n _⟩⟩
    · change s.csrOp k d n.toNat (if a = 0 then none else _) = _
      rw [if_neg ha, State.csrOp_write hp hro']
    · change s.csrOp k d n.toNat (if a = 0 then none else _) = _
      rw [if_neg ha, State.csrOp_write hp hro']
  case readOnly =>
    rw [← csrReadOnly_iff] at hro
    have hraise := fun g => State.csrOp_readOnly (s := s) (k := k) (d := d) (g := g) (lt_of_csrReadOnly hro) hro
    refine ⟨hraise _, fun ha => ?_, fun ha => ?_⟩
    · change s.csrOp k d n.toNat (if a = 0 then none else _) = _
      rw [if_neg ha, hraise]
    · change s.csrOp k d n.toNat (if a = 0 then none else _) = _
      rw [if_neg ha, hraise]
  case priv => exact ⟨State.csrOp_priv hn hu, State.csrOp_priv hn hu, State.csrOp_priv hn hu, State.csrOp_priv hn hu⟩
  case bases => exact State.applyHeld_csr_keeps_bases s s.focus ctx num v hmem hact
  case law =>
    rintro rfl
    rw [State.applyHeld_csr_ctxOf, if_pos rfl]; rfl
  case obj =>
    rintro rfl
    rw [State.applyHeld_csr_ctxOf, if_pos rfl]; rfl
  case trap =>
    rintro rfl
    rw [State.applyHeld_csr_ctxOf, if_pos rfl]; rfl

end Sys2Proof.Machine
end

section
/-! SUPPORT. O38: what a fetch answers at each place of the pc (R40, R76, R203). -/

namespace Sys2Proof.Machine

theorem regionOf_device {a : Word} (h : a.toNat < 2 ^ 47) : regionOf a = .device := if_pos h

theorem regionOf_ne_device {a : Word} (h : 2 ^ 47 ≤ a.toNat) : regionOf a ≠ .device := by
  unfold regionOf
  dsimp only
  have h' : ¬ a.toNat < 0x800000000000 := Nat.not_lt.2 h
  rw [if_neg h']
  split_ifs <;> nofun

section
variable {s : State} {f : Slot}

theorem State.fetch_misaligned (h : f.reg.pc.toNat % 4 ≠ 0) : s.fetch f = .error (.exc .misalign f.reg.pc 0 0) := if_pos h

/-- R40: outside device memory there is nothing to fetch. -/
theorem State.fetch_outside (h : f.reg.pc.toNat % 4 = 0) (hpc : 2 ^ 47 ≤ f.reg.pc.toNat) :
    s.fetch f = .error (.exc .rights f.reg.pc 0 0) := by
  have hreg := regionOf_ne_device hpc
  rw [State.fetch, if_neg (not_not.2 h)]
  split
  next hdev => exact absurd hdev hreg
  next => rfl

section
variable (h : f.reg.pc.toNat % 4 = 0) (hpc : f.reg.pc.toNat < 2 ^ 47)
include h hpc

theorem State.fetch_zero (hz : f.reg.pc ∈ f.zeros) : s.fetch f = .ok 0 := by
  rw [State.fetch, if_neg (not_not.2 h), regionOf_device hpc]
  exact if_pos hz

theorem State.fetch_miss (hz : f.reg.pc ∉ f.zeros) (htlb : tlbFind (s.coreOf f.core).tlb f.firing.ctx f.reg.pc = none) :
    s.fetch f = .error (.miss f.reg.pc 2) := by
  rw [State.fetch, if_neg (not_not.2 h), regionOf_device hpc, htlb]
  exact if_neg hz

/-- R40, R203: a fetch that finds a translation: X, then poison, then the word. -/
theorem State.fetch_hit {e : TlbEntry} (hz : f.reg.pc ∉ f.zeros)
    (htlb : tlbFind (s.coreOf f.core).tlb f.firing.ctx f.reg.pc = some e) : s.fetch f =
      if !e.x then .error (.exc .rights f.reg.pc 0 0)
      else if (List.range 4).any fun i => inPoison s.poison (s.home (e.pa f.reg.pc) + i)
        || frameAbsent (s.home (e.pa f.reg.pc) + i) then .error (.exc .poison f.reg.pc 0 0)
      else .ok (BitVec.ofNat 32 (leNat (cellReadList s.mem (s.home (e.pa f.reg.pc)) 4))) := by
  rw [State.fetch, if_neg (not_not.2 h), regionOf_device hpc, htlb]
  exact if_neg hz

end

end

/-- Settles O38: the checks of a fetch in their order; the slot in focus gives the record's PC. -/
theorem fetchRules : Obligations.FetchRules := by
  unfold Obligations.FetchRules
  intro s f
  refine ⟨State.fetch_misaligned, State.fetch_outside, State.fetch_zero, ?exc, fun h hpc hz => ⟨State.fetch_miss h hpc hz,
    fun e htlb hx => ?rights, fun e htlb hx => ⟨fun hbad => ?poison, fun hgood => ?word⟩⟩⟩
  case exc =>
    rintro c i0 i1 i2 rfl -
    exact s.finish_exc c i0 i1 i2
  case rights => rw [State.fetch_hit h hpc hz htlb, hx]; rfl
  case poison =>
    have hany : ((List.range 4).any fun i => inPoison s.poison (s.home (e.pa f.reg.pc) + i)
        || frameAbsent (s.home (e.pa f.reg.pc) + i)) = true := by
      obtain ⟨i, hi, hbad⟩ := hbad
      exact List.any_eq_true.2 ⟨i, List.mem_range.2 hi, by simpa using hbad⟩
    rw [State.fetch_hit h hpc hz htlb, hx, if_neg (by simp), if_pos hany]
  case word =>
    have hany : ¬ ((List.range 4).any fun i => inPoison s.poison (s.home (e.pa f.reg.pc) + i)
        || frameAbsent (s.home (e.pa f.reg.pc) + i)) = true := by
      rw [List.any_eq_true]
      rintro ⟨i, hi, hbad⟩
      obtain ⟨hpoison, habsent⟩ := hgood i (List.mem_range.1 hi)
      simp [hpoison, habsent] at hbad
    rw [State.fetch_hit h hpc hz htlb, hx, if_neg (by simp), if_neg hany]

end Sys2Proof.Machine
end

section
/-! SUPPORT. O48: the commands of the copy unit (R264, R266, R304 to R309): a bit field as a quotient and remainder, what a
computation of an instruction gives when it completes, and the checks of a request in their order. -/

namespace Sys2Proof

/-! ### Bit fields of a word (R41) -/

theorem bitsOf_eq {n : Nat} (x : BitVec n) (hi lo : Nat) : bitsOf x hi lo = x.toNat / 2 ^ lo % 2 ^ (hi + 1 - lo) := by
  rw [bitsOf, Nat.shiftRight_eq_div_pow]

/-- R41: a field that ends at the word's last bit is a quotient. -/
theorem bitsOf_top {n : Nat} (x : BitVec (n + 1)) {lo : Nat} (h : lo ≤ n + 1) : bitsOf x n lo = x.toNat / 2 ^ lo := by
  rw [bitsOf_eq, Nat.mod_eq_of_lt]
  rw [Nat.div_lt_iff_lt_mul (Nat.two_pow_pos lo), ← pow_add, Nat.sub_add_cancel h]
  exact x.isLt

/-- R41: a field that begins at bit 0 is a remainder. -/
theorem bitsOf_low {n : Nat} (x : BitVec n) (hi : Nat) : bitsOf x hi 0 = x.toNat % 2 ^ (hi + 1) := rfl

namespace Machine

/-! ### Computations that may stop -/

/-- What a computation gives, where it does not stop. -/
def Gives {α : Type} (P : α → Prop) (t : Try α) : Prop := ∀ a, t = .ok a → P a

section
variable {α β : Type} {P : α → Prop} {Q : β → Prop}

theorem Gives.ok {a : α} (h : P a) : Gives P (.ok a) := by
  rintro _ ⟨⟩
  exact h

theorem Gives.error {e : Stop} : Gives P (.error e) := nofun

theorem Gives.bind {x : Try β} {k : β → Try α} (hx : Gives Q x) (hk : ∀ b, Q b → Gives P (k b)) : Gives P (x >>= k) := by
  cases x with
  | error e => exact .error
  | ok b => exact hk b (hx b rfl)

/-- A check that passes leaves nothing behind. -/
theorem Gives.refuseIf {c : Bool} {x : Cause} {i0 i1 : Word} {k : Unit → Try α} (hk : Gives P (k ())) :
    Gives P (Machine.refuseIf c x i0 i1 >>= k) := by
  cases c with
  | true => exact .error
  | false => exact hk

theorem Gives.ite {c : Prop} [Decidable c] {x y : Try α} (hx : Gives P x) (hy : Gives P y) :
    Gives P (if c then x else y) := by
  split
  · exact hx
  · exact hy

end

/-- R182: a slot whose chunk has read: nothing held, written or landed, and no register changed. -/
structure OnlyRead (f g : Slot) : Prop where
  held : g.chunk.held = f.chunk.held
  reg : g.reg = f.reg
  land : g.land = f.land
  wbuf : g.chunk.wbuf = f.chunk.wbuf

theorem OnlyRead.refl (f : Slot) : OnlyRead f f := ⟨rfl, rfl, rfl, rfl⟩

theorem OnlyRead.trans {f g h : Slot} (a : OnlyRead f g) (b : OnlyRead g h) : OnlyRead f h :=
  ⟨b.held.trans a.held, b.reg.trans a.reg, b.land.trans a.land, b.wbuf.trans a.wbuf⟩

theorem OnlyRead.addRead {f g : Slot} (h : OnlyRead f g) (l : Loc) : OnlyRead f (g.addRead l) :=
  h.trans ⟨rfl, rfl, rfl, rfl⟩

theorem OnlyRead.addReadBytes {f : Slot} : ∀ (n k : Nat) {g : Slot}, OnlyRead f g → OnlyRead f (g.addReadBytes k n)
  | 0, _, _, h => h
  | n + 1, k, _, h => OnlyRead.addReadBytes n (k + 1) (h.addRead (.byte k))

theorem OnlyRead.readBytes (f : Slot) (k n : Nat) : OnlyRead f (f.readBytes k n) :=
  (OnlyRead.addReadBytes n k (.refl f)).trans ⟨rfl, rfl, rfl, rfl⟩

theorem OnlyRead.readFmtCode {f g : Slot} (h : OnlyRead f g) (c : Nat) : OnlyRead f (g.readFmtCode c) := by
  unfold Slot.readFmtCode
  split
  · exact h.addRead _
  · exact h

/-- R206: a load only reads. -/
theorem State.loadBytes_onlyRead (s : State) (f : Slot) (a : Word) (n size : Nat) (op : AccOp) :
    Gives (fun r => OnlyRead f r.1) (s.loadBytes f a n size op) := by
  unfold State.loadBytes
  refine .bind (Q := fun _ => True) (fun _ _ => trivial) fun p _ => ?_
  split
  case h_1 k at' =>
    unfold State.readKey
    refine .ite .error ?_
    split
    · exact .error
    · exact .ok (OnlyRead.readBytes f k n)
  all_goals exact .ok (.refl f)

theorem State.loadObj_onlyRead (s : State) (f : Slot) (i : Nat) : Gives (fun r => OnlyRead f r.1) (s.loadObj f i) :=
  .bind (s.loadBytes_onlyRead f _ 64 64 .load) fun _ h => .ok h

/-! ### The operands of a copy request (R306) -/

theorem State.cpObj_onlyRead (s : State) (f : Slot) (i right w : Nat) (blk : Word) :
    Gives (fun r => OnlyRead f r.1) (s.cpObj f i right w blk) :=
  .bind (s.loadObj_onlyRead f i) fun _ h => .refuseIf (.ok (h.readFmtCode _))

theorem State.cpTile_onlyRead (s : State) (f : Slot) (l : List Byte) (w : Nat) (tile : Bool) (blk : Word) :
    Gives (OnlyRead f) (s.cpTile f l w tile blk) :=
  .ite (.ok (.refl f)) (.ite .error (.ok ((OnlyRead.refl f).addRead _)))

/-- R306: the checks of a block only read. -/
theorem State.cpOperands_onlyRead (s : State) (f : Slot) (l : List Byte) (blk : Word) :
    Gives (fun r => OnlyRead f r.1) (s.cpOperands f l blk) := by
  unfold State.cpOperands
  refine .ite (.ok (.refl f)) ?_
  refine .bind (Q := fun r => OnlyRead f r.1) (.ite (s.cpObj_onlyRead f _ _ _ _) (.ok (.refl f))) fun src hsrc => ?_
  refine .bind (Q := fun r => OnlyRead src.1 r.1) (.ite (s.cpObj_onlyRead _ _ _ _ _) (.ok (.refl _))) fun dst hdst => ?_
  refine .refuseIf (.refuseIf (.refuseIf (.refuseIf (.refuseIf ?_))))
  refine .bind (Q := fun r => OnlyRead dst.1 r.1)
    (.ite (.bind (s.cpObj_onlyRead _ _ _ _ _) fun _ h => .refuseIf (.ok h)) (.ok (.refl _))) fun aux haux => ?_
  refine .bind (s.cpTile_onlyRead _ _ _ _ _) fun t ht => ?_
  exact .bind (s.cpTile_onlyRead _ _ _ _ _) fun u hu => .ok ((((hsrc.trans hdst).trans haux).trans ht).trans hu)

/-! ### A copy request (R60, R304 to R306) -/

/-- R304: the tag word's reserved bits. -/
theorem tagBad_iff (tf : Word) : decide (bitsOf tf 63 17 ≠ 0) = true ↔ tf.toNat / 2 ^ 17 ≠ 0 := by
  rw [decide_eq_true_eq, bitsOf_top tf (by decide)]

/-- R305: OP of a block. -/
theorem blockBits_op (l : List Byte) : blockBits l 0 3 0 = leNat (l.take 8) % 16 := rfl

section
variable {s : State} {f : Slot} {a tf : Word}

/-- A tag word with reserved bits is refused before the exception of the block's load. -/
theorem State.copyRequest_of_load_error {e : Stop} (htag : tf.toNat / 2 ^ 17 ≠ 0)
    (hload : s.loadBytes f a 64 64 .load = .error e) : s.copyRequest f a tf = .error (.exc .illop a 0 0) := by
  unfold State.copyRequest
  rw [hload]
  dsimp only
  rw [(tagBad_iff tf).2 htag]
  rfl

/-- R60: that REGRAN is not refused by its privilege. -/
theorem regran_allowed {l : List Byte} (hp : ¬ leNat (l.take 8) % 16 = 6 ∨ f.firing.ctx = 0) :
    (decide (blockBits l 0 3 0 = 6) && !f.priv) = false := by
  rcases hp with hop | hctx
  · simp [blockBits_op, hop]
  · simp [Slot.priv, hctx]

section
variable {g : Slot} {l : List Byte} (hload : s.loadBytes f a 64 64 .load = .ok (g, l))
include hload

/-- R60: a REGRAN of a user firing is refused before any other fault of the block. -/
theorem State.copyRequest_priv (hop : leNat (l.take 8) % 16 = 6) (hu : f.firing.ctx ≠ 0) :
    s.copyRequest f a tf = .error (.exc .priv a 0 0) := by
  have hpriv : (decide (blockBits l 0 3 0 = 6) && !f.priv) = true := by simp [blockBits_op, hop, Slot.priv, hu]
  unfold State.copyRequest
  rw [hload]
  change (refuseIf (decide (blockBits l 0 3 0 = 6) && !f.priv) .priv a 0 >>= _) = _
  rw [hpriv]
  rfl

section
variable (hp : ¬ leNat (l.take 8) % 16 = 6 ∨ f.firing.ctx = 0)
include hp

theorem State.copyRequest_tagBad (htag : tf.toNat / 2 ^ 17 ≠ 0) : s.copyRequest f a tf = .error (.exc .illop a 0 0) := by
  unfold State.copyRequest
  rw [hload]
  change (refuseIf (decide (blockBits l 0 3 0 = 6) && !f.priv) .priv a 0 >>= _) = _
  rw [regran_allowed hp, (tagBad_iff tf).2 htag]
  rfl

theorem State.copyRequest_illegal {n : Nat} (htag : tf.toNat / 2 ^ 17 = 0) (hl : cpIllegal l = some n) :
    s.copyRequest f a tf = .error (.exc .illop a (BitVec.ofNat 64 n) 0) := by
  have htag' : decide (bitsOf tf 63 17 ≠ 0) = false := by
    rw [Bool.eq_false_iff, ne_eq, tagBad_iff, not_not]
    exact htag
  unfold State.copyRequest
  rw [hload]
  change (refuseIf (decide (blockBits l 0 3 0 = 6) && !f.priv) .priv a 0 >>= _) = _
  rw [regran_allowed hp, htag']
  dsimp only [refuseIf, Except.bind, bind]
  rw [hl]
  rfl

end

end

/-- R304, R306: what a request that passes its checks gives: a slot that has only read, the job with its tag and its issuer,
and SR for a conversion alone. -/
def RequestOf (f : Slot) (tf : Word) (r : Slot × Job × Bool) : Prop :=
  OnlyRead f r.1 ∧ r.2.1.engine = .copy ∧ r.2.1.id = tf.toNat % 2 ^ 16 ∧ r.2.1.ctx = f.firing.ctx
    ∧ r.2.1.lc = f.firing.lc ∧ r.2.1.fid = f.firing.fid ∧ (r.2.2 = true → leNat (r.2.1.block.take 8) % 16 = 4)

theorem State.copyRequest_gives (s : State) (f : Slot) (a tf : Word) : Gives (RequestOf f tf) (s.copyRequest f a tf) := by
  have hload := s.loadBytes_onlyRead f a 64 64 .load
  unfold State.copyRequest
  refine .bind (Q := fun r => OnlyRead f r.1) ?load fun r hr => .refuseIf (.refuseIf ?request)
  case load =>
    split
    · next r h => exact .ok (hload r h)
    · exact .ite .error .error
  case request =>
    split
    · exact .error
    · refine .bind (s.cpOperands_onlyRead r.1 r.2 a) fun o ho => .ok ⟨?read, rfl, rfl, rfl, rfl, rfl, fun hsr => ?convert⟩
      case read =>
        dsimp only
        split
        · exact (hr.trans ho).readFmtCode _
        · exact hr.trans ho
      case convert =>
        have hop := (Bool.and_eq_true_iff.1 hsr).1
        exact of_decide_eq_true hop

end

/-! ### CP.PUSH and CP.TRY (R264, R304) -/

section
variable {k : Bool} {d a b : BitVec 5} {s : State}

theorem cp_of_request_error {e : Stop} (h : s.copyRequest s.focus (s.focus.gr a) (s.focus.gr b) = .error e) :
    exec (.cpPush k a b) s = s.finish (.error e) ∧ exec (.cpTry k a b d) s = s.finish (.error e) := by
  change s.finish (s.copyRequest _ _ _ >>= _) = _ ∧ s.finish (s.copyRequest _ _ _ >>= _) = _
  rw [h]
  exact ⟨rfl, rfl⟩

/-- A request that its checks refuse raises the exception in both commands. -/
theorem cp_raises_of_request_error {c : Cause} {i1 : Word}
    (h : s.copyRequest s.focus (s.focus.gr a) (s.focus.gr b) = .error (.exc c (s.focus.gr a) i1 0)) :
    Raises (.cpPush k a b) s c (s.focus.gr a) i1 ∧ Raises (.cpTry k a b d) s c (s.focus.gr a) i1 :=
  cp_of_request_error h

section
variable {r : Slot × Job × Bool} (h : s.copyRequest s.focus (s.focus.gr a) (s.focus.gr b) = .ok r)
include h

/-- R304: with room in the FIFO the request is held. -/
theorem cp_of_room (hroom : s.cpQueued s.focus.core < 8) :
    Does (.cpPush k a b) s ((Slot.holdCopy r).advance k) ∧ Does (.cpTry k a b d) s (((Slot.holdCopy r).landG d 0).advance k) := by
  change s.finish (s.copyRequest _ _ _ >>= _) = _ ∧ s.finish (s.copyRequest _ _ _ >>= _) = _
  rw [h]
  change s.finish (if _ then _ else _) = _ ∧ s.finish (if _ then _ else _) = _
  rw [if_neg (Nat.not_le.2 hroom), if_neg (Nat.not_le.2 hroom)]
  exact ⟨rfl, rfl⟩

/-- R264, R304: with none, CP.PUSH waits and CP.TRY answers 1. -/
theorem cp_of_full (hfull : 8 ≤ s.cpQueued s.focus.core) :
    Does (.cpPush k a b) s { s.focus with wait := .room } ∧ Does (.cpTry k a b d) s ((r.1.landG d 1).advance k) := by
  change s.finish (s.copyRequest _ _ _ >>= _) = _ ∧ s.finish (s.copyRequest _ _ _ >>= _) = _
  rw [h]
  change s.finish (if _ then _ else _) = _ ∧ s.finish (if _ then _ else _) = _
  rw [if_pos hfull, if_pos hfull]
  exact ⟨rfl, rfl⟩

end

end

/-- Settles O48: the checks of a request in their order, then room or none in the FIFO. -/
theorem copyUnitCommands : Obligations.CopyUnitCommands := by
  unfold Obligations.CopyUnitCommands
  intro k d a b s
  refine ⟨fun e htag hload => cp_raises_of_request_error (State.copyRequest_of_load_error htag hload),
    fun g l hload => ⟨fun hop hu => cp_raises_of_request_error (State.copyRequest_priv hload hop hu),
      fun hp htag => cp_raises_of_request_error (State.copyRequest_tagBad hload hp htag),
      fun n hp htag hl => cp_raises_of_request_error (State.copyRequest_illegal hload hp htag hl)⟩,
    fun g j sr h hroom => ?room, fun g j sr h hfull => cp_of_full h hfull, fun e h => cp_of_request_error h, ?poll, rfl⟩
  case room =>
    obtain ⟨hread, hengine, hid, hctx, hlc, hfid, hsr⟩ := s.copyRequest_gives _ _ _ _ h
    obtain ⟨hpush, htry⟩ := cp_of_room (k := k) (d := d) h hroom
    exact ⟨hpush, htry, hread.held, hread.reg, hread.land, hread.wbuf, hengine, hid, hctx, hlc, hfid, hsr⟩
  case poll => rfl

end Machine
end Sys2Proof
end

section
/-! SUPPORT. O51: the privileged instructions (R60, R276 to R280, R398 to R401, R407): each is `privileged` over one check of its
operands. -/

namespace Sys2Proof.Machine

/-! ### A privileged instruction by its firing's context and its check (R60) -/

theorem getElem_eq_decide {n : Nat} (x : BitVec n) (i : Nat) (h : i < n) : x[i] = decide (x.toNat / 2 ^ i % 2 = 1) :=
  Nat.testBit_eq_decide_div_mod_eq

section
variable {i : Instr} {s : State}

theorem raises_priv_of_user {t : Try Slot} (hi : exec i s = privileged s t) (hu : s.focus.firing.ctx ≠ 0) :
    Raises i s .priv 0 0 := by
  rw [Raises, hi, privileged, if_neg (by simpa [Slot.priv] using hu)]
  rfl

theorem exec_privileged {t : Try Slot} (hi : exec i s = privileged s t) (h0 : s.focus.firing.ctx = 0) :
    exec i s = s.finish t := by
  rw [hi, privileged, if_pos (by simpa [Slot.priv] using h0)]

section
variable {c : Prop} [Decidable c] {i0 i1 : Word} {g : Slot}
  (hi : exec i s = privileged s (if c then .error (.exc .illop i0 i1 0) else .ok g)) (h0 : s.focus.firing.ctx = 0)
include hi h0

theorem raises_of_refused (hc : c) : Raises i s .illop i0 i1 := by
  rw [Raises, exec_privileged hi h0, if_pos hc]
  rfl

theorem does_of_allowed (hc : ¬ c) : Does i s g := by
  rw [Does, exec_privileged hi h0, if_neg hc]
  rfl

end

end

/-! ### The checks of the operands, field by field -/

theorem tlbWrBad_iff (x y : Word) : tlbWrBad x y = true ↔ x.toNat / 2 ^ 9 % 128 ≠ 0 ∨ x.toNat / 2 ^ 47 ≠ 0
    ∨ y.toNat / 8 % 4 = 3 ∨ y.toNat / 2 ^ 11 % 32 ≠ 0 ∨ y.toNat / 2 ^ 50 ≠ 0
    ∨ (x.toNat / 2 ^ 8 % 2 = 1 ∧ (x.toNat / 2 ^ 16 % 32 ≠ 0 ∨ y.toNat / 2 ^ 16 % 32 ≠ 0)) := by
  simp [tlbWrBad, bitsOf_top, bitsOf_eq, getElem_eq_decide, or_assoc]

/-- R407: RECT.SET's check, over what the table after it and the fences say. -/
theorem rectRefused_iff (x y : Word) (whole fenced : Bool) :
    (decide (bitsOf x 63 7 ≠ 0) || decide (bitsOf y 63 10 ≠ 0) || decide (bitsOf y 5 3 < bitsOf y 2 0)
      || decide (bitsOf y 9 8 < bitsOf y 7 6) || !whole || fenced) = true ↔
    (x.toNat / 2 ^ 7 ≠ 0 ∨ y.toNat / 2 ^ 10 ≠ 0 ∨ y.toNat / 8 % 8 < y.toNat % 8
      ∨ y.toNat / 2 ^ 8 % 4 < y.toNat / 2 ^ 6 % 4) ∨ whole = false ∨ fenced = true := by
  simp [bitsOf_top, bitsOf_eq, or_assoc]

/-- R279: the bits of an address that a translation covers. -/
theorem and_mask47 (x : Word) : x &&& 0x7FFFFFFFFFFF#64 = BitVec.ofNat 64 (x.toNat % 2 ^ 47) := by
  apply BitVec.eq_of_toNat_eq
  change x.toNat &&& (2 ^ 47 - 1) = x.toNat % 2 ^ 47 % 2 ^ 64
  exact (Nat.and_two_pow_sub_one_eq_mod _ _).trans (Nat.mod_eq_of_lt (by omega)).symm

/-- R279: TLB.RD of an entry, where the cluster has one. -/
theorem exec_tlbRd_entry {k : Bool} {d a b : BitVec 5} {s : State} (h0 : s.focus.firing.ctx = 0)
    (hb : (s.focus.gr b).toNat / 2 % 2 = 0) {o : Option TlbEntry}
    (hit : tlbFind (s.clusterOf (clusterIdOf s.focus.core)).tlb ((s.focus.gr a).toNat / 2 ^ 56)
      (BitVec.ofNat 64 ((s.focus.gr a).toNat % 2 ^ 47)) = o) :
    GivesLate (.tlbRd k d a b) k d s (o.elim 0 fun e =>
      if (s.focus.gr b).toNat % 2 = 1 then e.b else e.a ||| 0x8000000000000000) := by
  have hexec : exec (.tlbRd k d a b) s = s.finish _ := exec_privileged rfl h0
  have hb' : ¬ (s.focus.gr b).getLsbD 1 = true := by simp [getElem_eq_decide, hb]
  rw [GivesLate, Does, hexec, if_neg hb', and_mask47, bitsOf_top _ (by decide), hit]
  cases o with
  | none => rfl
  | some e => simp [getElem_eq_decide]

theorem OnlyRead.frame {f g : Slot} (h : OnlyRead f g) :
    g.reg = f.reg ∧ g.land = f.land ∧ g.chunk.wbuf = f.chunk.wbuf ∧ g.chunk.held = f.chunk.held :=
  ⟨h.reg, h.land, h.wbuf, h.held⟩

theorem OnlyRead.foldl_addRead {f : Slot} {α : Type} (l : α → Loc) : ∀ (cs : List α) {g : Slot}, OnlyRead f g →
    OnlyRead f (cs.foldl (fun g c => g.addRead (l c)) g)
  | [], _, h => h
  | c :: cs, _, h => OnlyRead.foldl_addRead l cs (h.addRead (l c))

/-- Settles O51: PRIV in a user firing, whatever the operands; in context 0 the one check of each. -/
theorem privilegedInstructions : Obligations.PrivilegedInstructions := by
  unfold Obligations.PrivilegedInstructions
  intro k d a b s
  refine ⟨fun hu => ?user, fun h0 => ⟨fun hbad => ?tlbWrBad, fun hok => ?tlbWr, fun hbad => ?tlbInvBad, fun hok => ?tlbInv,
    fun hb => ?epoch, fun hb hit => ?absent, fun e hb hit => ?present,
    fun hbad => ?rplyBad, fun hok => ?rply, fun hbad => ?migBad, fun hok => ?mig, fun hbad => ?stopBad, fun hok => ?stop,
    fun hbad => ?goBad, fun hok => ?go, fun hbad => ?rectBad, fun hok hwhole hfence => ?rect⟩⟩
  case user =>
    exact ⟨raises_priv_of_user rfl hu, raises_priv_of_user rfl hu, raises_priv_of_user rfl hu, raises_priv_of_user rfl hu,
      raises_priv_of_user rfl hu, raises_priv_of_user rfl hu, raises_priv_of_user rfl hu, raises_priv_of_user rfl hu⟩
  case tlbWrBad => exact raises_of_refused rfl h0 ((tlbWrBad_iff _ _).2 hbad)
  case tlbWr => exact does_of_allowed rfl h0 (mt (tlbWrBad_iff _ _).1 hok)
  case tlbInvBad => exact raises_of_refused rfl h0 (by rwa [bitsOf_top _ (by decide)])
  case tlbInv => exact does_of_allowed rfl h0 (by rwa [bitsOf_top _ (by decide), not_not])
  case epoch =>
    have hb' : (s.focus.gr b).getLsbD 1 = true := by simp [getElem_eq_decide, hb]
    have hexec : exec (.tlbRd k d a b) s = s.finish _ := exec_privileged rfl h0
    rw [Does, hexec, if_pos hb']
    rfl
  case absent => exact exec_tlbRd_entry (o := none) h0 hb hit
  case present => exact exec_tlbRd_entry (o := some e) h0 hb hit
  case rplyBad => exact raises_of_refused rfl h0 hbad
  case rply => exact does_of_allowed rfl h0 hok
  case migBad =>
    refine raises_of_refused rfl h0 ?_
    simpa [bitsOf_top, bitsOf_eq, migCtx, migLc, or_assoc] using hbad
  case mig =>
    refine does_of_allowed rfl h0 ?_
    simpa [bitsOf_top, bitsOf_eq, migCtx, migLc, or_assoc] using hok
  case stopBad =>
    refine raises_of_refused rfl h0 ?_
    simpa [bitsOf_top, bitsOf_eq, or_assoc] using hbad
  case stop =>
    refine does_of_allowed rfl h0 ?_
    simpa [bitsOf_top, bitsOf_eq, or_assoc] using hok
  case goBad =>
    refine raises_of_refused rfl h0 ?_
    simpa [bitsOf_top, bitsOf_eq, or_assoc] using hbad
  case go =>
    refine does_of_allowed rfl h0 ?_
    simpa [bitsOf_top, bitsOf_eq, or_assoc] using hok
  case rectBad => exact raises_of_refused rfl h0 ((rectRefused_iff _ _ _ _).2 (.inl hbad))
  case rect =>
    refine ⟨_, does_of_allowed rfl h0 fun hrefused => ?_, ?_⟩
    · rcases (rectRefused_iff _ _ _ _).1 hrefused with hbad | hpart | hmeets
      · exact hok hbad
      · obtain ⟨i, hi, hnot⟩ := List.all_eq_false.1 hpart
        exact hnot (hwhole i (List.mem_range.1 hi))
      · exact Bool.false_ne_true (hfence.symm.trans hmeets)
    · exact (OnlyRead.foldl_addRead Loc.rect _ (.refl s.focus)).frame

end Sys2Proof.Machine
end

section
/-! SUPPORT. O37: a core's turn (R40, R60, R66, R69, R200, R201, R271, R272): from the step to the word that its slot issues, what
becomes of that word by the order of R60, and why an exception counts as no issued instruction: the slot is freed, and neither
the record that is sent nor the stop of the partition uses the slot again. -/

namespace Sys2Proof.Machine

/-! ### What the operations on the LLC and DRAM leave of the focus slot (R371 to R389) -/

@[simp] theorem State.report_focus (s : State) (r : MgmtRec) : (s.report r).focus = s.focus := rfl

@[simp] theorem State.poisonUnit_focus (s : State) (b n : Nat) : (s.poisonUnit b n).focus = s.focus := rfl

@[simp] theorem State.putUnit_focus (s : State) (a : Attr) (b : Nat) (l : List Byte) (p : Bool) :
    (s.putUnit a b l p).focus = s.focus := rfl

@[simp] theorem State.clean_focus (s : State) (g b : Nat) : (s.clean g b).focus = s.focus := rfl

@[simp] theorem State.takeUnit_focus (s : State) (a : Attr) (b : Nat) (l : List Byte) :
    (s.takeUnit a b l).focus = s.focus := rfl

@[simp] theorem State.markLines_focus (s : State) (keys : List Nat) : (s.markLines keys).focus = s.focus := by
  unfold State.markLines
  split <;> rfl

@[simp] theorem State.unpoison_focus (s : State) (c : Bool) (b n : Nat) : (s.unpoison c b n).focus = s.focus := by
  unfold State.unpoison
  split <;> rfl

@[simp] theorem State.dropTags_focus (s : State) : s.dropTags.focus = s.focus := by
  unfold State.dropTags
  split <;> rfl

@[simp] theorem State.reportUnit_focus (s : State) (a : Attr) (b : Nat) : (s.reportUnit a b).focus = s.focus := by
  unfold State.reportUnit
  split <;> rfl

@[simp] theorem State.foundBad_focus (s : State) (a : Attr) (b : Nat) : (s.foundBad a b).focus = s.focus := by
  unfold State.foundBad
  split <;> simp

@[simp] theorem State.blame_focus (s : State) (pcs : List Nat) : (s.blame pcs).focus = s.focus :=
  foldl_field State.focus (fun s p => by dsimp only; split <;> rfl) pcs s

@[simp] theorem State.getUnit_focus (s : State) (a : Attr) (b : Nat) : (s.getUnit a b).1.focus = s.focus := by
  unfold State.getUnit
  dsimp only
  split
  · rfl
  · exact State.blame_focus _ _

@[simp] theorem State.writeBackUnit_focus (s : State) (a : Attr) (b : Nat) : (s.writeBackUnit a b).focus = s.focus := by
  unfold State.writeBackUnit
  dsimp only
  split
  · simp
  · split <;> simp

@[simp] theorem State.flushLine_focus (s : State) (l : LlcLine) : (s.flushLine l).focus = s.focus :=
  foldl_field State.focus (fun s b => by split <;> simp) _ s

@[simp] theorem State.evict_focus (s : State) (l : LlcLine) : (s.evict l).focus = s.focus := by
  simp [State.evict]

@[simp] theorem State.evictOther_focus (s : State) (c n : Nat) : (s.evictOther c n).focus = s.focus := by
  unfold State.evictOther
  split
  · split <;> simp
  · rfl

@[simp] theorem State.makeRoom_focus (s : State) (a : Attr) (n : Nat) : (s.makeRoom a n).focus = s.focus := by
  unfold State.makeRoom
  dsimp only
  split
  · rfl
  · split <;> simp

@[simp] theorem State.allocate_focus (s : State) (a : Attr) (n v d : Nat) : (s.allocate a n v d).focus = s.focus := by
  unfold State.allocate
  split <;> simp

@[simp] theorem State.fill_focus (s : State) (a : Attr) (k : Nat) : (s.fill a k).focus = s.focus := by
  have hevict : ∀ (c : Nat) (l : List Nat), (l.foldl (fun s n => s.evictOther c n) s).focus = s.focus := fun c l =>
    foldl_field State.focus (fun s n => State.evictOther_focus s c n) l s
  have hallocate : ∀ (b : Attr) (l : List Nat) (t : State),
      (l.foldl (fun s q => s.allocate b (q / 128) (sectorBit q) 0) t).focus = t.focus := fun b l t =>
    foldl_field State.focus (fun s q => State.allocate_focus s b _ _ _) l t
  unfold State.fill
  split
  · rfl
  · dsimp only
    split <;> split <;> simp [hevict, hallocate]

@[simp] theorem State.beforeWrite_focus (s : State) (attr : Nat → Attr) (keys : List Nat) :
    (s.beforeWrite attr keys).focus = s.focus :=
  foldl_field State.focus (fun s q => by dsimp only; split <;> simp) _ s

@[simp] theorem State.writeThrough_focus (s : State) (a : Attr) (b : Nat) (keys : List Nat) :
    (s.writeThrough a b keys).focus = s.focus := by
  unfold State.writeThrough
  dsimp only
  split
  · simp
  · split <;> simp

@[simp] theorem State.afterWrite_focus (s : State) (attr : Nat → Attr) (keys : List Nat) :
    (s.afterWrite attr keys).focus = s.focus :=
  foldl_field State.focus (fun s q => by dsimp only; split <;> simp) _ s

@[simp] theorem State.writeMem_focus (s : State) (attr : Nat → Attr) (l : List Host.Cell) :
    (s.writeMem attr l).focus = s.focus := by
  simp [State.writeMem]

@[simp] theorem State.logWrite_focus (s : State) (attr : Nat → Attr) (l : List Host.Cell) :
    (s.logWrite attr l).focus = s.focus := by
  simp [State.logWrite]

/-! ### A record that is sent leaves a free slot free (R75, R77, R81, R359) -/

theorem Slot.touched_inactive {f : Slot} (h : f.active = false) (w : List Loc) (p : Slot → Bool) : f.touched w p = f := by
  simp [Slot.touched, h]

/-- R184, R393: a descriptor that the hardware changes touches the focus slot as any write does. -/
theorem State.changeDesc_focus (s : State) (c : Ctx) :
    (s.changeDesc c).focus = s.focus.touched (descLocs c.id) fun _ => true := by
  simp [State.changeDesc, State.putDesc]

theorem State.gangStop_inactive {s : State} (h : s.focus.active = false) (ctx : Nat) :
    (s.gangStop ctx).focus = s.focus := by
  have hcores : ∀ l : List Nat, (l.foldl (fun t p => t.setCore ((t.coreOf p).recordStop (s.ctxOf ctx) t.cycle)) s).focus
      = s.focus := fun l =>
    foldl_field State.focus (fun t p => State.setCore_focus t ((t.coreOf p).recordStop (s.ctxOf ctx) t.cycle)) l s
  unfold State.gangStop
  rw [State.changeDesc_focus, hcores, Slot.touched_inactive h]

theorem State.sendRecord_inactive {s : State} (h : s.focus.active = false) (ctx lc : Nat) (wait toMgmt : Bool)
    (unit num : Nat) (l : List Byte) : (s.sendRecord ctx lc wait toMgmt unit num l).focus = s.focus := by
  unfold State.sendRecord State.sendRecordFrom
  dsimp only
  split
  · unfold State.recordToMgmt
    cases wait with
    | true => simp [State.gangStop_inactive h]
    | false => simp
  · simp

/-! ### What counts as issued (R66, R408) -/

theorem Slot.not_issued_of_inactive {f g : Slot} (h : g.active = false) : f.issued g = false := by
  simp [Slot.issued, h]

theorem Slot.not_issued_of_ninstr {f g : Slot} (h : g.chunk.ninstr = f.chunk.ninstr) : f.issued g = false := by
  simp [Slot.issued, h]

/-- R75, R200: an instruction that raises an exception is not issued: its slot is freed, or, while the block waits, as it was. -/
theorem State.not_issued_takeException (s : State) (c : Cause) (pc i0 i1 i2 : Word) :
    s.focus.issued (s.takeException c pc i0 i1 i2).focus = false := by
  unfold State.takeException
  split
  · exact Slot.not_issued_of_ninstr rfl
  · dsimp only
    split <;>
    · rw [State.sendRecord_inactive rfl]
      exact Slot.not_issued_of_inactive rfl

/-! ### The charge and the limits of an issued word (R69, R181, R408) -/

/-- R41, R46: the major of a word. -/
theorem major_eq (w : BitVec 32) : bitsOf w 30 25 = w.toNat / 2 ^ 25 % 64 := bitsOf_eq w 30 25

theorem State.spend_next (s t : State) (w : BitVec 32) (abort : Bool) :
    s.spend w abort (.next t) = .next (paidFor s t w abort) := by
  simp only [State.spend, paidFor, instrCharge, llcCharge, major_eq, Bool.or_eq_true, decide_eq_true_eq, or_assoc]

theorem State.withinLimits_next {s t : State}
    (h : s.focus.issued t.focus = true → t.focus.pastRoom = false ∧ t.focus.over false = false) :
    s.withinLimits (.next t) = .next t := by
  cases hi : s.focus.issued t.focus with
  | false => simp [State.withinLimits, hi]
  | true =>
    obtain ⟨hroom, hover⟩ := h hi
    simp [State.withinLimits, hi, hroom, hover]

/-- R69: what did not issue passes no limit. -/
theorem State.withinLimits_not_issued {s t : State} (h : s.focus.issued t.focus = false) :
    s.withinLimits (.next t) = .next t :=
  State.withinLimits_next fun hi => absurd hi (by simp [h])

/-- R69, R75: an exception passes no limit. -/
theorem State.withinLimits_exc (s : State) (c : Cause) (i0 i1 i2 : Word) :
    s.withinLimits (s.finish (.error (.exc c i0 i1 i2))) = .next (s.takeException c s.focus.reg.pc i0 i1 i2) :=
  State.withinLimits_not_issued (s.not_issued_takeException c _ i0 i1 i2)

/-! ### The governed instruction of ONCE (R271, R272) -/

section
variable {s : State} {run : Instr → State → Out} {w : BitVec 32} {i : Instr}

theorem State.governed_free (h : s.focus.reg.onceArmed = false ∨ s.focus.firing.isGang = false) :
    s.governed run w i = run i s := by
  rcases h with h | h <;> simp [State.governed, h]

theorem State.governed_forbidden (ha : s.focus.reg.onceArmed = true) (hg : s.focus.firing.isGang = true)
    (hf : onceForbidden i = true) : s.governed run w i = s.finish (.error (.exc .illop 0 0 0)) := by
  simp [State.governed, ha, hg, hf]

theorem State.governed_first (ha : s.focus.reg.onceArmed = true) (hg : s.focus.firing.isGang = true)
    (hf : onceForbidden i = false) (h0 : s.focus.firing.gang = 0) :
    s.governed run w i = s.postOnce run w i (s.focus.reg.onceOrd - 1) := by
  simp [State.governed, ha, hg, hf, h0]

theorem State.governed_other (ha : s.focus.reg.onceArmed = true) (hg : s.focus.firing.isGang = true)
    (hf : onceForbidden i = false) (h0 : s.focus.firing.gang ≠ 0) :
    s.governed run w i = s.takeOnce w (s.focus.reg.onceOrd - 1) := by
  simp [State.governed, ha, hg, hf, h0]

variable {n : Nat}

theorem State.takeOnce_none (h : ∀ q ∈ s.focus.firing.postings, q.1 ≠ n) :
    s.takeOnce w n = .next (s.withFocus { s.focus with wait := .posting n }) := by
  have hnone : (s.focus.firing.postings.find? fun q => q.1 = n) = none := by simpa using h
  simp [State.takeOnce, hnone]

theorem State.takeOnce_some {q : Nat × BitVec 32 × List (Nat × Nat × Nat)}
    (h : (s.focus.firing.postings.find? fun q => q.1 = n) = some q) :
    s.takeOnce w n = if onceSame w q.2.1 then
      .next (s.withFocus ((q.2.2.foldl Slot.landPosted
        { s.focus with firing := { s.focus.firing with taken := max s.focus.firing.taken (n + 1) } }).advance (w.getLsbD 31)))
      else s.finish (.error (.exc .illop 0 0 0)) := by
  simp [State.takeOnce, h]

theorem State.postOnce_waits (h : s.mayPost s.focus.firing n = false) :
    s.postOnce run w i n = .next (s.withFocus { s.focus with wait := .takers n }) := by
  simp [State.postOnce, h]

/-- R271: the members that a posting goes to. -/
theorem liveMembers_eq (l : List Nat) :
    ((List.range 8).filter fun g => g ≠ 0 ∧ g ∉ l) = [1, 2, 3, 4, 5, 6, 7].filter fun g => g ∉ l := by
  simp [List.range_succ_eq_map, List.filter_cons]

variable {t t' : State}

theorem State.postOnce_posts (h : s.mayPost s.focus.firing n = true) (hrun : run i s = .next t)
    (hflip : run i (s.withFocus { s.focus with land := s.focus.land.flip }) = .next t')
    (hi : s.focus.issued t.focus = true) :
    s.postOnce run w i n = .next { t with onceQ := t.onceQ ++
      ((List.range 8).filter fun g => g ≠ 0 ∧ g ∉ (s.gangOf s.focus.firing).ended).map fun g =>
        ⟨s.focus.firing.ctx, s.focus.firing.msgHome + g, s.focus.firing.ch, s.focus.firing.seq, n, w,
          writtenRegs t.focus.land t'.focus.land⟩ } := by
  rw [liveMembers_eq]
  simp [State.postOnce, h, hrun, hflip, hi]

theorem State.postOnce_not_issued (h : s.mayPost s.focus.firing n = true) (hrun : run i s = .next t)
    (hflip : run i (s.withFocus { s.focus with land := s.focus.land.flip }) = .next t')
    (hi : s.focus.issued t.focus = false) : s.postOnce run w i n = .next t := by
  simp [State.postOnce, h, hrun, hflip, hi]

/-! ### A fetched word, by the order of R60 -/

theorem State.issueDecoded_none :
    s.issueDecoded run w none = s.spend w false (.next (s.takeException .illop s.focus.reg.pc 0 0 0)) :=
  rfl

theorem State.issueDecoded_second (h : s.focus.reg.onceArmed = true ∧ w.toNat / 2 ^ 25 % 64 = 0x3E) :
    s.issueDecoded run w (some i) = s.spend w false (.next (s.takeException .illop s.focus.reg.pc 0 0 0)) := by
  unfold State.issueDecoded
  rw [major_eq]
  exact if_pos (by simpa using h)

variable (hs : ¬ (s.focus.reg.onceArmed = true ∧ w.toNat / 2 ^ 25 % 64 = 0x3E))
include hs

theorem State.issueDecoded_priv (hp : needsPriv i = true) (hu : s.focus.firing.ctx ≠ 0) :
    s.issueDecoded run w (some i) = s.spend w false (.next (s.takeException .priv s.focus.reg.pc 0 0 0)) := by
  unfold State.issueDecoded
  rw [major_eq]
  exact (if_neg (by simpa using hs)).trans (if_pos (by simp [Slot.priv, hp, hu]))

variable (hp : needsPriv i = false ∨ s.focus.firing.ctx = 0)
include hp

theorem State.issueDecoded_refused {c : Nat} (hc : s.stageRefuses s.focus i = some c) : s.issueDecoded run w (some i)
    = s.spend w false (.next (s.takeException .rights s.focus.reg.pc 0 (BitVec.ofNat 64 (c + 1)) 0)) := by
  unfold State.issueDecoded
  rw [major_eq]
  refine (if_neg (by simpa using hs)).trans ((if_neg (by rcases hp with h | h <;> simp [Slot.priv, h])).trans ?_)
  rw [hc]
  rfl

theorem State.issueDecoded_runs (hc : s.stageRefuses s.focus i = none) : s.issueDecoded run w (some i)
    = s.spend w (isAbort i && !(s.focus.reg.onceArmed && s.focus.firing.isGang)) (s.withinLimits (s.governed run w i)) := by
  unfold State.issueDecoded
  rw [major_eq]
  refine (if_neg (by simpa using hs)).trans ((if_neg (by rcases hp with h | h <;> simp [Slot.priv, h])).trans ?_)
  rw [hc]

end

/-! ### From the step to the word (R40, R66, R183) -/

/-- Log entry 1: a turn of a core in a step. -/
theorem step_of_coreTurn {s s0 : State} {p k : Nat} (hb : s.boot ≠ 2) (ht : s.settle.nextTurnOf = (.core p, s0))
    (hk : s0.passTurn.pickSlot p = some k) :
    step s = s0.passTurn.orWait ((issuing s0.passTurn p k).issueSlot exec decodeWord?) := by
  simp only [step, State.bootFailed, hb, decide_false, Bool.false_eq_true, if_false, State.turn, ht, State.issueCore, hk]
  rfl

section
variable {s : State} {run : Instr → State → Out} {dec : BitVec 32 → Option Instr}

/-- R66, R256: a slot that waits for no fill issues, once the check of its alarm is made. -/
theorem State.issueSlot_issues (hd : s.focus.chunk.doomed = false) (hw : ∀ b m, s.focus.wait ≠ .fill b m)
    (ha : s.focus.firing.alarm = none ∨ s.focus.chunk.checked = true) : s.issueSlot run dec = s.issueWord run dec := by
  unfold State.issueSlot
  simp only [hd, Bool.false_eq_true, if_false]
  split
  case h_1 l h => exact if_pos (ha.resolve_left (by simp [h]))
  case h_2 => rfl

theorem State.issueWord_fetches {w : BitVec 32} (hl : s.limitCloses s.focus = false)
    (hf : (s.fetchFill s.focus).fetch s.focus = .ok w) :
    s.issueWord run dec = ((s.fetchFill s.focus).withFocus (s.focus.takes w)).issueDecoded run w (dec w) := by
  simp [State.issueWord, hl, hf]

end

theorem decodeWord?_eq_some {w : BitVec 32} {i : Instr} (h : decode w = .ok i) : decodeWord? w = some i := by
  simp [decodeWord?, h]

theorem decodeWord?_eq_none {w : BitVec 32} (h : ∀ i, decode w ≠ .ok i) : decodeWord? w = none := by
  unfold decodeWord?
  split
  case h_1 i hi => exact absurd hi (h i)
  case h_2 => rfl

/-- Settles O37: the step is the issue of the fetched word, and what that issue spends is what the step leaves, unless the turn
waits. -/
theorem stepRunsDecoded : Obligations.StepRunsDecoded := by
  unfold Obligations.StepRunsDecoded
  intro s s0 p k w u u' v f n second ends raises inLimits hb ht hk hd hw ha hl hfetch
  have hstep : step s = s0.passTurn.orWait (v.issueDecoded exec w (decodeWord? w)) := by
    rw [step_of_coreTurn hb ht hk, State.issueSlot_issues hd hw ha, State.issueWord_fetches hl hfetch]
  have hends : ∀ (t : State) (abort : Bool), v.issueDecoded exec w (decodeWord? w) = v.spend w abort (.next t) →
      ends t abort := fun t abort h => by
    rw [State.spend_next] at h
    exact hstep.trans (congrArg s0.passTurn.orWait h)
  refine ⟨fun hnone => ?illop, fun i hi hsecond => ?second, fun i hi hs hp hu => ?priv, fun i hi hs hp => ?allowed⟩
  case illop =>
    exact hends _ _ (by rw [decodeWord?_eq_none hnone, State.issueDecoded_none])
  case second =>
    exact hends _ _ (by rw [decodeWord?_eq_some hi, State.issueDecoded_second hsecond])
  case priv =>
    exact hends _ _ (by rw [decodeWord?_eq_some hi, State.issueDecoded_priv hs hp hu])
  case allowed =>
    rw [decodeWord?_eq_some hi] at hends
    refine ⟨fun c hc => hends _ _ (State.issueDecoded_refused hs hp hc), fun hc => ?_⟩
    have hruns : ∀ (t : State) (abort : Bool), (isAbort i && !(f.reg.onceArmed && f.firing.isGang)) = abort →
        v.withinLimits (v.governed exec w i) = .next t → ends t abort := fun t abort habort h =>
      hends t abort (by rw [State.issueDecoded_runs hs hp hc, ← habort, ← h])
    refine ⟨fun hfree t ht hin => ?free, fun harm hgang => ?governed⟩
    case free =>
      refine hruns t _ (by rcases hfree with h | h <;> simp [h]) ?_
      rw [State.governed_free hfree, ht, State.withinLimits_next hin]
    case governed =>
      have hgov : ∀ t, v.withinLimits (v.governed exec w i) = .next t → ends t false := fun t =>
        hruns t false (by simp [harm, hgang])
      refine ⟨fun hforbid => ?forbidden, fun hforbid h0 => ?member, fun hforbid h0 => ?first⟩
      case forbidden =>
        exact hgov _ (by rw [State.governed_forbidden harm hgang hforbid, State.withinLimits_exc])
      case member =>
        rw [State.governed_other harm hgang hforbid h0] at hgov
        refine ⟨fun hq => hgov _ ?_, fun q hq => ⟨fun hsame => hgov _ ?_, fun hsame => ?_⟩⟩
        · rw [State.takeOnce_none hq]
          exact State.withinLimits_not_issued (Slot.not_issued_of_ninstr rfl)
        · rw [State.takeOnce_some hq, hsame]
          exact State.withinLimits_exc ..
        · intro g hin
          refine hgov _ ?_
          rw [State.takeOnce_some hq, hsame]
          exact State.withinLimits_next hin
      case first =>
        rw [State.governed_first harm hgang hforbid h0] at hgov
        refine ⟨fun hmay => hgov _ ?_, fun hmay t t' hrun hflip hin => ⟨fun hi => hgov _ ?_, fun hi => hgov _ ?_⟩⟩
        · rw [State.postOnce_waits hmay]
          exact State.withinLimits_not_issued (Slot.not_issued_of_ninstr rfl)
        · rw [State.postOnce_posts hmay hrun hflip hi]
          exact State.withinLimits_next hin
        · rw [State.postOnce_not_issued hmay hrun hflip hi]
          exact State.withinLimits_next hin

end Sys2Proof.Machine
end

section
/-! SUPPORT. O5 and O34: where a group's results land (R66 to R69), and the state that reset leaves. -/

namespace Sys2Proof.Machine

/-- R66, R69: whether an instruction ends its group: it is marked, or the 64th. -/
theorem Slot.advanceTo_eq (f : Slot) (mark : Bool) (pc : Word) :
    (¬ (mark = true ∨ 64 ≤ f.glen + 1) ∧ (f.advanceTo mark pc).glen = f.glen + 1 ∧ (f.advanceTo mark pc).land = f.land
      ∧ (f.advanceTo mark pc).reg = { f.reg with pc := pc, onceArmed := false })
    ∨ ((mark = true ∨ 64 ≤ f.glen + 1) ∧ (f.advanceTo mark pc).glen = 0 ∧ (f.advanceTo mark pc).land = { f.land with flags := 0 }
      ∧ (f.advanceTo mark pc).reg = { f.reg with
          pc := pc, onceArmed := false, g := f.land.g, v := f.land.v, m := f.land.m, flags := f.reg.flags ||| f.land.flags }) := by
  by_cases hend : (mark || decide (64 ≤ f.glen + 1)) = true
  · refine .inr ⟨by simpa using hend, ?_⟩
    rw [Slot.advanceTo, if_pos hend]
    exact ⟨rfl, rfl, rfl⟩
  · refine .inl ⟨by simpa using hend, ?_⟩
    rw [Slot.advanceTo, if_neg hend]
    exact ⟨rfl, rfl, rfl⟩

@[simp] theorem Slot.advanceTo_rset (f : Slot) (mark : Bool) (pc : Word) :
    (f.advanceTo mark pc).chunk.rset = f.chunk.rset := by
  unfold Slot.advanceTo
  dsimp only
  split <;> rfl

/-- Settles O5: by whether the instruction ends its group. -/
theorem groupLanding : Obligations.GroupLanding := by
  unfold Obligations.GroupLanding
  intro f mark pc
  obtain ⟨hopen, hglen, hland, hreg⟩ | ⟨hend, hglen, hland, hreg⟩ := f.advanceTo_eq mark pc
  case inl =>
    refine ⟨by simp, fun _ => ?_, fun hend => absurd hend hopen, by simp, by simp, by simp, by simp, ?_, ?_, ?_, by simp⟩
    · simp only [hglen, hland, hreg, and_self]
    all_goals rw [hreg]
  case inr =>
    refine ⟨by simp, fun hopen => ?_, fun _ => ?_, by simp, by simp, by simp, by simp, ?_, ?_, ?_, by simp⟩
    · obtain ⟨hmark, hlt⟩ := hopen
      exact absurd hend (by simp [hmark, Nat.not_le.2 hlt])
    · simp only [hglen, hland, hreg, and_self]
    all_goals rw [hreg]

/-- Settles O34: reset lists nothing, and an entry that a table does not list reads as its reset value. -/
theorem resetLeaves : Obligations.ResetLeaves := by
  unfold Obligations.ResetLeaves
  have hmemory : State.reset.MemOk := ⟨rfl, rfl⟩
  have hformats : ∀ k, ({ n := 0 } : LCore).fmtOf k = (fmtReset k, 0) := fun _ => rfl
  have hentry : ({ n := 0 } : LCore).ttOf 5 = {} := rfl
  have htile : ({ n := 0 } : LCore).tileOf 5 = {} := rfl
  have hbarrier : ({ id := 1 } : Ctx).barOf 0 3 = {} := rfl
  refine ⟨⟨rfl, rfl, rfl, rfl, rfl, rfl, rfl, rfl, rfl, rfl, rfl, rfl, ⟨rfl, rfl, rfl, rfl, rfl⟩, ?_, ?_, ?_,
    ⟨rfl, rfl, rfl, rfl, rfl⟩, ?_⟩, ?_⟩
  · exact ⟨hformats 0, hformats 1, hformats 2, hformats 3, hformats 4⟩
  · rw [hentry]; decide
  · rw [htile]; decide
  · rw [hbarrier]; decide
  · exact hmemory

end Sys2Proof.Machine
end

section
/-! SUPPORT. O32: words laid end to end in a list of bytes (R10), the trap record (R77) and the chunk-start state block (R76) as
such lists, and the registers that a RESTART takes of a block (R80, R132). -/

namespace Sys2Proof.Machine

/-! ### Little-endian words laid end to end (R10) -/

@[simp] theorem leBytes_length (n x : Nat) : (leBytes n x).length = n := by
  induction n generalizing x with
  | zero => rfl
  | succ n ih => simp [leBytes, ih]

theorem leNat_leBytes (n x : Nat) : leNat (leBytes n x) = x % 256 ^ n := by
  induction n generalizing x with
  | zero => simp [leBytes, leNat, Nat.mod_one]
  | succ n ih =>
    rw [leBytes, leNat, ih, BitVec.toNat_ofNat, Nat.pow_succ' (n := n), Nat.mod_mul]

/-- The bytes of n-byte words, one after the other. -/
def wordBytes (n : Nat) (ws : List Nat) : List Byte := (ws.map (leBytes n)).flatten

@[simp] theorem wordBytes_nil (n : Nat) : wordBytes n [] = [] := rfl

theorem wordBytes_cons (n w : Nat) (ws : List Nat) : wordBytes n (w :: ws) = leBytes n w ++ wordBytes n ws := rfl

@[simp] theorem wordBytes_length (n : Nat) (ws : List Nat) : (wordBytes n ws).length = n * ws.length := by
  induction ws with
  | nil => rfl
  | cons w ws ih => rw [wordBytes_cons, List.length_append, leBytes_length, ih, List.length_cons, Nat.mul_succ, Nat.add_comm]

/-- The word of an index, read out of bytes that begin with the words. -/
theorem leNat_wordBytes (n : Nat) (q : List Byte) : ∀ (ws : List Nat) (i : Nat) (h : i < ws.length),
    leNat (((wordBytes n ws ++ q).drop (n * i)).take n) = ws[i] % 256 ^ n
  | w :: ws, 0, _ => by
    rw [wordBytes_cons, List.append_assoc, Nat.mul_zero, List.drop_zero, List.take_left' (leBytes_length n w), leNat_leBytes]
    rfl
  | w :: ws, i + 1, h => by
    rw [wordBytes_cons, List.append_assoc, Nat.mul_succ, Nat.add_comm, ← List.drop_drop,
      List.drop_left' (leBytes_length n w), leNat_wordBytes n q ws i (Nat.lt_of_succ_lt_succ h)]
    rfl

/-- The same where other bytes stand before the words. -/
theorem leNat_wordBytes_after {n k : Nat} {p q : List Byte} {ws : List Nat} {i : Nat} (h : i < ws.length)
    (hk : k = p.length + n * i) : leNat (((p ++ (wordBytes n ws ++ q)).drop k).take n) = ws[i] % 256 ^ n := by
  rw [hk, ← List.drop_drop, List.drop_left, leNat_wordBytes n q ws i h]

/-! ### The trap record (R77) -/

/-- R77: the third word of a trap record: the cause, CH, WAIT and LCORE. -/
def trapWord (c : Cause) (ch : Nat) (wait : Bool) (lc : Nat) : Nat :=
  c.code + (ch % 64) * 2 ^ 8 + (if wait then 2 ^ 15 else 0) + (lc % 4096) * 2 ^ 16

/-- R77: the words of a trap record. -/
def trapWords (fid pc : Word) (c : Cause) (ch : Nat) (wait : Bool) (lc : Nat) (csa fts i0 i1 i2 : Word) : List Nat :=
  [fid.toNat, pc.toNat, trapWord c ch wait lc, csa.toNat, fts.toNat, i0.toNat, i1.toNat, i2.toNat]

section
variable (fid pc csa fts i0 i1 i2 : Word) (c : Cause) (ch lc : Nat) (wait : Bool)

theorem trapRecord_eq_wordBytes : trapRecord fid pc c ch wait lc csa fts i0 i1 i2
    = wordBytes 8 (trapWords fid pc c ch wait lc csa fts i0 i1 i2) := by
  simp only [trapRecord, trapWords, trapWord, wordBytes_cons, wordBytes_nil, List.append_assoc, List.append_nil]

theorem trapRecord_length : (trapRecord fid pc c ch wait lc csa fts i0 i1 i2).length = 64 := by
  simp [trapRecord_eq_wordBytes, trapWords]

theorem trapRecord_word (i : Nat) (h : i < 8) :
    leNat (((trapRecord fid pc c ch wait lc csa fts i0 i1 i2).drop (8 * i)).take 8)
      = (trapWords fid pc c ch wait lc csa fts i0 i1 i2)[i]'h % 256 ^ 8 := by
  rw [trapRecord_eq_wordBytes]
  simpa using leNat_wordBytes 8 [] (trapWords fid pc c ch wait lc csa fts i0 i1 i2) i h

end

theorem Cause.code_le (c : Cause) : c.code ≤ 18 := by cases c <;> decide

/-! ### The chunk-start state block (R76) -/

/-- R76: the 8-byte words at the head of a block: a reserved one, the pc, FLAGS, FRM and the g registers. -/
def Regs.blockWords (r : Regs) : List Nat := 0 :: r.pc.toNat :: r.flags.toNat :: r.frm.toNat :: r.g.toList.map BitVec.toNat

/-- R76: the lanes of the v registers, as a block holds them. -/
def Regs.blockLanes (r : Regs) : List Nat := (r.v.toList.map fun x => x.toList.map BitVec.toNat).flatten

theorem wordBytes_append (n : Nat) (a b : List Nat) : wordBytes n (a ++ b) = wordBytes n a ++ wordBytes n b := by
  simp [wordBytes]

theorem wordBytes_flatten (n : Nat) (l : List (List Nat)) : wordBytes n l.flatten = (l.map (wordBytes n)).flatten := by
  induction l with
  | nil => rfl
  | cons a l ih => rw [List.flatten_cons, wordBytes_append, ih, List.map_cons, List.flatten_cons]

theorem blockBytes_eq_wordBytes (r : Regs) : blockBytes r
    = wordBytes 8 r.blockWords ++ (wordBytes 4 (r.m.toList.map BitVec.toNat) ++ (wordBytes 4 r.blockLanes ++ leBytes 64 0)) := by
  have hlanes : (r.v.toList.map fun x => (x.toList.map fun y => leBytes 4 y.toNat).flatten).flatten
      = wordBytes 4 r.blockLanes := by
    rw [Regs.blockLanes, wordBytes_flatten, List.map_map]
    simp only [wordBytes, Function.comp_def, List.map_map]
  rw [blockBytes, hlanes, Regs.blockWords]
  simp only [wordBytes, List.map_cons, List.flatten_cons, List.map_map, Function.comp_def, List.append_assoc]

section
variable (r : Regs)

@[simp] theorem Regs.blockWords_length : r.blockWords.length = 36 := by simp [Regs.blockWords]

@[simp] theorem Regs.blockLanes_length : r.blockLanes.length = 1024 := by
  have hconst : (r.v.toList.map fun x => (x.toList.map BitVec.toNat).length) = List.replicate 32 32 := by
    rw [List.eq_replicate_iff]
    simp
  rw [Regs.blockLanes, List.length_flatten, List.map_map, Function.comp_def, hconst]
  rfl

theorem blockBytes_length : (blockBytes r).length = 4480 := by simp [blockBytes_eq_wordBytes]

/-- R76: an 8-byte word of a block. -/
theorem blockWord_head {i k : Nat} (h : i < 36) (hk : k = 8 * i) :
    blockWord (blockBytes r) k 8 = (r.blockWords[i]'(by simpa using h)) % 256 ^ 8 := by
  rw [blockWord, blockBytes_eq_wordBytes, hk]
  exact leNat_wordBytes 8 _ _ i (by simpa using h)

theorem blockWord_pc : blockWord (blockBytes r) 8 8 = r.pc.toNat := by
  rw [blockWord_head r (i := 1) (by omega) rfl]
  exact Nat.mod_eq_of_lt r.pc.isLt

theorem blockWord_flags : blockWord (blockBytes r) 16 8 = r.flags.toNat := by
  rw [blockWord_head r (i := 2) (by omega) rfl]
  exact Nat.mod_eq_of_lt r.flags.isLt

theorem blockWord_frm : blockWord (blockBytes r) 24 8 = r.frm.toNat := by
  rw [blockWord_head r (i := 3) (by omega) rfl]
  exact Nat.mod_eq_of_lt r.frm.isLt

theorem blockWord_g (i : Nat) (h : i < 32) : blockWord (blockBytes r) (32 + 8 * i) 8 = (r.g[i]).toNat := by
  rw [blockWord_head r (i := i + 4) (by omega) (by omega)]
  have hword : r.blockWords[i + 4]'(by simp; omega) = (r.g[i]).toNat := by simp [Regs.blockWords]
  rw [hword]
  exact Nat.mod_eq_of_lt (r.g[i]).isLt

theorem blockWord_m (i : Nat) (h : i < 8) : blockWord (blockBytes r) (288 + 4 * i) 4 = (r.m[i]).toNat := by
  rw [blockWord, blockBytes_eq_wordBytes, leNat_wordBytes_after (by simpa using h) (by simp)]
  simpa using Nat.mod_eq_of_lt (r.m[i]).isLt

/-- The element at a place of lists of one length, laid end to end. -/
theorem getElem?_flatten_of_length {α : Type} {n : Nat} : ∀ {L : List (List α)} {i j : Nat}, (∀ l ∈ L, l.length = n) →
    (h : i < L.length) → j < n → L.flatten[n * i + j]? = L[i][j]?
  | l :: L, 0, j, hn, _, hj => by
    rw [List.flatten_cons, Nat.mul_zero, Nat.zero_add, List.getElem?_append_left (by rw [hn l (List.mem_cons_self ..)]; exact hj)]
    rfl
  | l :: L, i + 1, j, hn, h, hj => by
    have hl := hn l (List.mem_cons_self ..)
    rw [List.flatten_cons, List.getElem?_append_right (by rw [hl, Nat.mul_succ]; omega), hl,
      show n * (i + 1) + j - n = n * i + j by rw [Nat.mul_succ]; omega,
      getElem?_flatten_of_length (fun m hm => hn m (List.mem_cons_of_mem _ hm)) (Nat.lt_of_succ_lt_succ h) hj]
    rfl

theorem Regs.blockLanes_getElem (i j : Nat) (h : i < 32) (h' : j < 32) :
    r.blockLanes[32 * i + j]? = some (r.v[i][j]).toNat := by
  rw [Regs.blockLanes, getElem?_flatten_of_length (by simp) (by simpa using h) h']
  simp [h']

theorem blockWord_v (i j : Nat) (h : i < 32) (h' : j < 32) :
    blockWord (blockBytes r) (320 + 128 * i + 4 * j) 4 = (r.v[i][j]).toNat := by
  have hlane := r.blockLanes_getElem i j h h'
  obtain ⟨hlt, hval⟩ := List.getElem?_eq_some_iff.1 hlane
  rw [blockWord, blockBytes_eq_wordBytes, ← List.append_assoc, leNat_wordBytes_after hlt (by simp; omega), hval]
  exact Nat.mod_eq_of_lt (r.v[i][j]).isLt

/-! ### What a RESTART takes of a block (R80, R132) -/

theorem ofNat_mod_eight (x : Word) : BitVec.ofNat 64 (x.toNat % 8) = x &&& 7#64 := by
  apply BitVec.eq_of_toNat_eq
  rw [BitVec.toNat_ofNat, BitVec.toNat_and, show (7#64).toNat = 2 ^ 3 - 1 from rfl, Nat.and_two_pow_sub_one_eq_mod]
  exact Nat.mod_eq_of_lt (Nat.lt_trans (Nat.mod_lt _ (by decide)) (by decide))

variable (x : Susp)

theorem regsOfBlock_pc : (regsOfBlock (blockBytes r) x).pc = r.pc := by simp [regsOfBlock, blockWord_pc]

theorem regsOfBlock_flags : (regsOfBlock (blockBytes r) x).flags = r.flags &&& 31#64 := by
  simp [regsOfBlock, blockWord_flags, flagMask]

theorem regsOfBlock_frm : (regsOfBlock (blockBytes r) x).frm
    = if r.frm.toNat % 8 = 6 ∨ r.frm.toNat % 8 = 7 then 0 else r.frm &&& 7#64 := by
  simp only [regsOfBlock, blockWord_frm, ofNat_mod_eight]

theorem regsOfBlock_g (i : Nat) (h : i < 32) (h0 : i ≠ 0) : (regsOfBlock (blockBytes r) x).g[i] = r.g[i] := by
  simp [regsOfBlock, h0, blockWord_g r i h]

theorem regsOfBlock_m (i : Nat) (h : i < 8) (h0 : i ≠ 0) : (regsOfBlock (blockBytes r) x).m[i] = r.m[i] := by
  simp [regsOfBlock, h0, blockWord_m r i h]

theorem regsOfBlock_v : (regsOfBlock (blockBytes r) x).v = r.v := by
  ext i h j h' : 2
  simp [regsOfBlock, blockWord_v r i j h h']

end

/-- Settles O32: the record and the block are words laid end to end, so each field is the word of its index. -/
theorem trapRecordAndBlock : Obligations.TrapRecordAndBlock := by
  unfold Obligations.TrapRecordAndBlock
  refine ⟨fun fid pc csa fts i0 i1 i2 c ch lc wait hch hlc => ?record, fun r x => ?block⟩
  case record =>
    intro l word
    have hword : ∀ (i : Nat) (h : i < 8) (w : Word),
        (trapWords fid pc c ch wait lc csa fts i0 i1 i2)[i]'h = w.toNat → word i = w.toNat := fun i h w hw => by
      rw [← Nat.mod_eq_of_lt w.isLt, ← hw]
      exact trapRecord_word fid pc csa fts i0 i1 i2 c ch lc wait i h
    have hcode := c.code_le
    have hthird : word 2 = c.code + ch * 2 ^ 8 + (if wait then 2 ^ 15 else 0) + lc * 2 ^ 16 := by
      refine (trapRecord_word fid pc csa fts i0 i1 i2 c ch lc wait 2 (by omega)).trans ?_
      simp only [trapWords, List.getElem_cons_succ, List.getElem_cons_zero, trapWord, Nat.mod_eq_of_lt hch,
        Nat.mod_eq_of_lt hlc]
      split <;> omega
    refine ⟨trapRecord_length fid pc csa fts i0 i1 i2 c ch lc wait, hword 0 (by omega) fid rfl, hword 1 (by omega) pc rfl,
      ?_, ?_, ?_, ?_, ?_, ?_, hword 3 (by omega) csa rfl, hword 4 (by omega) fts rfl, hword 5 (by omega) i0 rfl,
      hword 6 (by omega) i1 rfl, hword 7 (by omega) i2 rfl⟩
    all_goals
      rw [hthird]
      cases wait
      all_goals simp only [if_true, if_false, Bool.false_eq_true]
      all_goals omega
  case block =>
    exact ⟨blockBytes_length r, blockWord_pc r, blockWord_flags r, blockWord_frm r, blockWord_g r, blockWord_m r,
      blockWord_v r, regsOfBlock_pc r x, regsOfBlock_flags r x, regsOfBlock_v r x, regsOfBlock_frm r x,
      regsOfBlock_g r x, regsOfBlock_m r x⟩

end Sys2Proof.Machine
end

section
/-! SUPPORT. The memory side of the state (R369 to R392): what the operations on the LLC and DRAM read and change. Each of them
commutes with a change of the rest of the state, so it leaves the rest as it is, and the rest does not matter to it. -/

namespace Sys2Proof.Machine

/-- A state with the memory side of another: M, its poison and its log, the LLC and DRAM, and what reading and writing them
goes by. -/
def State.onMemory (r s : State) : State :=
  { r with
    mem := s.mem, poison := s.poison, covered := s.covered, log := s.log, llc := s.llc, dram := s.dram, bursts := s.bursts
    blamed := s.blamed, mgmt := s.mgmt, fresh := s.fresh, ticks := s.ticks, records := s.records, retired := s.retired
    offline := s.offline, keys := s.keys, migs := s.migs }

/-- A fold commutes with what each of its steps commutes with. -/
theorem foldl_commutes {α β : Type} {h : β → β} {f : β → α → β} (hf : ∀ s a, f (h s) a = h (f s a)) :
    ∀ (l : List α) (s : β), l.foldl f (h s) = h (l.foldl f s)
  | [], _ => rfl
  | a :: l, s => by rw [List.foldl_cons, hf, foldl_commutes hf l, List.foldl_cons]

section
variable (r s : State) (a : Attr) (b n : Nat)

@[simp] theorem State.onMemory_poisonUnit : (r.onMemory s).poisonUnit b n = r.onMemory (s.poisonUnit b n) := rfl

@[simp] theorem State.onMemory_putUnit (l : List Byte) (p : Bool) :
    (r.onMemory s).putUnit a b l p = r.onMemory (s.putUnit a b l p) := rfl

@[simp] theorem State.onMemory_clean : (r.onMemory s).clean n b = r.onMemory (s.clean n b) := rfl

@[simp] theorem State.onMemory_takeUnit (l : List Byte) :
    (r.onMemory s).takeUnit a b l = r.onMemory (s.takeUnit a b l) := rfl

@[simp] theorem State.onMemory_report (x : MgmtRec) : (r.onMemory s).report x = r.onMemory (s.report x) := rfl

@[simp] theorem State.onMemory_markLines (keys : List Nat) :
    (r.onMemory s).markLines keys = r.onMemory (s.markLines keys) := by
  unfold State.markLines
  rw [apply_ite r.onMemory]
  rfl

@[simp] theorem State.onMemory_unpoison (c : Bool) : (r.onMemory s).unpoison c b n = r.onMemory (s.unpoison c b n) := by
  unfold State.unpoison
  rw [apply_ite r.onMemory]
  rfl

@[simp] theorem State.onMemory_dropTags : (r.onMemory s).dropTags = r.onMemory s.dropTags := by
  unfold State.dropTags
  rw [apply_ite r.onMemory]
  rfl

@[simp] theorem State.onMemory_reportUnit : (r.onMemory s).reportUnit a b = r.onMemory (s.reportUnit a b) := by
  unfold State.reportUnit
  rw [apply_ite r.onMemory]
  rfl

@[simp] theorem State.onMemory_foundBad : (r.onMemory s).foundBad a b = r.onMemory (s.foundBad a b) := by
  unfold State.foundBad
  rw [apply_ite r.onMemory, State.onMemory_reportUnit]
  rfl

@[simp] theorem State.onMemory_blame (pcs : List Nat) : (r.onMemory s).blame pcs = r.onMemory (s.blame pcs) :=
  foldl_commutes (h := r.onMemory) (fun s p => by dsimp only; rw [apply_ite r.onMemory]; rfl) pcs s

@[simp] theorem State.onMemory_getUnit :
    (r.onMemory s).getUnit a b = (r.onMemory (s.getUnit a b).1, (s.getUnit a b).2) := by
  by_cases h : ((unitPlaces a.gran b).all fun p => !(s.dram.any fun d => d.1 = p)) = true
  · unfold State.getUnit
    dsimp only
    rw [if_pos h]
    exact if_pos h
  · unfold State.getUnit
    dsimp only
    rw [if_neg h]
    refine (if_neg h).trans (Prod.ext ?_ rfl)
    exact State.onMemory_blame r { s with
      bursts := s.bursts + ((unitPlaces a.gran b).length - (s.lostMembers a.gran b).length)
      fresh := s.fresh + 8 * (unitPlaces a.gran b).length } _

@[simp] theorem State.onMemory_writeBackUnit : (r.onMemory s).writeBackUnit a b = r.onMemory (s.writeBackUnit a b) := by
  by_cases h : (s.holdsUnit a b || s.unitLost a.gran b) = true
  · unfold State.writeBackUnit
    dsimp only
    rw [if_pos h]
    exact if_pos h
  · unfold State.writeBackUnit
    dsimp only
    rw [if_neg h]
    refine (if_neg h).trans ?_
    rw [State.onMemory_getUnit]
    cases (s.getUnit a b).2 with
    | some old => rfl
    | none =>
      dsimp only
      rw [State.onMemory_foundBad]
      rfl

@[simp] theorem State.onMemory_flushLine (l : LlcLine) : (r.onMemory s).flushLine l = r.onMemory (s.flushLine l) :=
  foldl_commutes (h := r.onMemory)
    (fun s b => by rw [apply_ite r.onMemory, State.onMemory_writeBackUnit]; rfl) _ s

@[simp] theorem State.onMemory_evict (l : LlcLine) : (r.onMemory s).evict l = r.onMemory (s.evict l) := by
  unfold State.evict
  dsimp only
  rw [State.onMemory_flushLine]
  exact State.onMemory_dropTags r { s.flushLine l with llc := (s.flushLine l).llc.filter fun x => x.line ≠ l.line }

@[simp] theorem State.onMemory_evictOther (c : Nat) : (r.onMemory s).evictOther c n = r.onMemory (s.evictOther c n) := by
  unfold State.evictOther
  change (match s.lineAt n with | some l => if l.attr.ctx = c then r.onMemory s else (r.onMemory s).evict l | none => r.onMemory s)
    = _
  cases s.lineAt n with
  | none => rfl
  | some l =>
    dsimp only
    rw [apply_ite r.onMemory, State.onMemory_evict]

@[simp] theorem State.onMemory_makeRoom : (r.onMemory s).makeRoom a n = r.onMemory (s.makeRoom a n) := by
  unfold State.makeRoom
  change (if (s.wayLines a n).length < 16 then r.onMemory s else match (s.wayLines a n).getLast? with
    | some l => (r.onMemory s).evict l
    | none => r.onMemory s) = _
  dsimp only
  rw [apply_ite r.onMemory]
  cases (s.wayLines a n).getLast? with
  | none => rfl
  | some l => dsimp only; rw [State.onMemory_evict]

@[simp] theorem State.onMemory_allocate (v d : Nat) : (r.onMemory s).allocate a n v d = r.onMemory (s.allocate a n v d) := by
  unfold State.allocate
  change (match s.lineAt n with | some _ => _ | none => _) = _
  cases s.lineAt n with
  | none => dsimp only; rw [State.onMemory_makeRoom]; rfl
  | some l => rfl

@[simp] theorem State.onMemory_fill : (r.onMemory s).fill a n = r.onMemory (s.fill a n) := by
  have hevict : ∀ (c : Nat) (l : List Nat) (s : State),
      l.foldl (fun s n => s.evictOther c n) (r.onMemory s) = r.onMemory (l.foldl (fun s n => s.evictOther c n) s) := fun c =>
    foldl_commutes (h := r.onMemory) fun s n => State.onMemory_evictOther r s n c
  have hallocate : ∀ (b : Attr) (l : List Nat) (s : State),
      l.foldl (fun s q => s.allocate b (q / 128) (sectorBit q) 0) (r.onMemory s)
        = r.onMemory (l.foldl (fun s q => s.allocate b (q / 128) (sectorBit q) 0) s) := fun b =>
    foldl_commutes (h := r.onMemory) fun s q => State.onMemory_allocate r s b (q / 128) (sectorBit q) 0
  have hrecorded : (r.onMemory s).recorded a n = s.recorded a n := rfl
  have hoff : ∀ b, (r.onMemory s).homeOff b n = s.homeOff b n := fun _ => rfl
  have hvalid : ∀ t : State, (r.onMemory t).validAt = t.validAt := fun _ => rfl
  unfold State.fill
  simp only [hrecorded, hoff, hevict, hvalid, State.onMemory_getUnit]
  split
  · rfl
  · generalize State.getUnit _ _ _ = g
    obtain ⟨t, _ | l⟩ := g
    · simp only
      split
      · exact State.onMemory_foundBad r t _ _
      · rw [hallocate, State.onMemory_foundBad]
    · simp only
      split
      · rw [State.onMemory_takeUnit, State.onMemory_unpoison]
      · rw [State.onMemory_takeUnit, hallocate, State.onMemory_unpoison]

@[simp] theorem State.onMemory_writeThrough (keys : List Nat) :
    (r.onMemory s).writeThrough a b keys = r.onMemory (s.writeThrough a b keys) := by
  unfold State.writeThrough
  dsimp only
  rw [State.onMemory_getUnit]
  cases (s.getUnit a b).2 with
  | some old => rfl
  | none =>
    dsimp only
    rw [apply_ite r.onMemory, State.onMemory_foundBad]
    rfl

/-! ### Reads and writes of M -/

variable (attr : Nat → Attr) (keys : List Nat) (cells : List Host.Cell)

@[simp] theorem State.onMemory_fillMissing :
    (r.onMemory s).fillMissing attr keys = r.onMemory (s.fillMissing attr keys) :=
  foldl_commutes (h := r.onMemory) (fun s k => by rw [apply_ite r.onMemory, State.onMemory_fill]; rfl) keys s

@[simp] theorem State.onMemory_beforeWrite :
    (r.onMemory s).beforeWrite attr keys = r.onMemory (s.beforeWrite attr keys) :=
  foldl_commutes (h := r.onMemory) (fun s q => by
    dsimp only
    rw [State.onMemory_evictOther, apply_ite r.onMemory, State.onMemory_fill]
    rfl) _ s

@[simp] theorem State.onMemory_afterWrite :
    (r.onMemory s).afterWrite attr keys = r.onMemory (s.afterWrite attr keys) :=
  foldl_commutes (h := r.onMemory) (fun s q => by
    dsimp only
    rw [apply_ite r.onMemory, State.onMemory_writeThrough, State.onMemory_allocate]
    rfl) _ s

@[simp] theorem State.onMemory_writeMem : (r.onMemory s).writeMem attr cells = r.onMemory (s.writeMem attr cells) := by
  unfold State.writeMem
  dsimp only
  rw [State.onMemory_beforeWrite, ← State.onMemory_afterWrite]
  rfl

@[simp] theorem State.onMemory_logWrite : (r.onMemory s).logWrite attr cells = r.onMemory (s.logWrite attr cells) := by
  unfold State.logWrite
  dsimp only
  rw [State.onMemory_markLines, State.onMemory_writeMem]
  rfl

/-- A fill changes the memory side alone. -/
theorem State.fillMissing_onMemory : s.fillMissing attr keys = s.onMemory (s.fillMissing attr keys) :=
  State.onMemory_fillMissing s s attr keys

/-- A write changes the memory side alone. -/
theorem State.logWrite_onMemory : s.logWrite attr cells = s.onMemory (s.logWrite attr cells) :=
  State.onMemory_logWrite s s attr cells

@[simp] theorem State.logWrite_ctxs : (s.logWrite attr cells).ctxs = s.ctxs := by
  rw [State.logWrite_onMemory]
  rfl

@[simp] theorem State.logWrite_susp : (s.logWrite attr cells).susp = s.susp := by
  rw [State.logWrite_onMemory]
  rfl

@[simp] theorem State.logWrite_host : (s.logWrite attr cells).host = s.host := by
  rw [State.logWrite_onMemory]
  rfl

@[simp] theorem State.logWrite_net : (s.logWrite attr cells).net = s.net := by
  rw [State.logWrite_onMemory]
  rfl

end

/-! ### Writes beyond DRAM (R162, R369) -/

/-- R369: no frame beyond the first 512 GiB is one of DRAM. -/
theorem inDram_of_le {k : Nat} (h : 2 ^ 39 ≤ k) : inDram k = false := by
  rw [Bool.eq_false_iff, Ne, inDram_iff]
  omega

theorem frameAbsent_of_le {k : Nat} (h : 2 ^ 39 ≤ k) : frameAbsent k = false :=
  Bool.and_eq_false_iff.2 (.inr (decide_eq_false (Nat.not_lt.2 h)))

/-- A write beyond DRAM meets no sector. -/
theorem writtenSectors_beyond {keys : List Nat} (h : ∀ k ∈ keys, 2 ^ 39 ≤ k) : writtenSectors keys = [] := by
  have hnone : keys.filter inDram = [] :=
    List.filter_eq_nil_iff.2 fun k hk => Bool.not_eq_true _ ▸ inDram_of_le (h k hk)
  rw [writtenSectors, hnone]
  rfl

section
variable {s : State} {attr : Nat → Attr} {cells : List Host.Cell} (h : ∀ c ∈ cells, 2 ^ 39 ≤ c.1)
include h

theorem State.writeMem_beyond : (s.writeMem attr cells).mem = cellWriteAll s.mem cells
    ∧ (s.writeMem attr cells).mgmt = s.mgmt := by
  have hall : cells.filter (fun c => !frameAbsent c.1) = cells :=
    List.filter_eq_self.2 fun c hc => by simp [frameAbsent_of_le (h c hc)]
  have hnone : writtenSectors (cells.map fun c => c.1) = [] := writtenSectors_beyond fun k hk => by
    obtain ⟨c, hc, rfl⟩ := List.mem_map.1 hk
    exact h c hc
  simp [State.writeMem, State.beforeWrite, State.afterWrite, hall, hnone]

/-- R162, R369: a write beyond DRAM puts its cells into M and records nothing. -/
theorem State.logWrite_beyond : (s.logWrite attr cells).mem = cellWriteAll s.mem cells
    ∧ (s.logWrite attr cells).mgmt = s.mgmt := by
  have hmark : ∀ keys, (s.markLines keys).mgmt = s.mgmt := fun keys => by
    unfold State.markLines
    split <;> rfl
  obtain ⟨hmem, hmgmt⟩ := State.writeMem_beyond (s := s.markLines ((cells.filter fun c => !frameAbsent c.1).map fun c => c.1))
    (attr := attr) h
  exact ⟨hmem.trans (by rw [State.markLines_mem]), hmgmt.trans (hmark _)⟩

end

end Sys2Proof.Machine
end

section
/-! SUPPORT. Tables of contexts and logical cores after an update, charges (R408), bytes written one after the other (R184), and
what a write leaves of the slots that it touches (R184, R232). -/

namespace Sys2Proof.Machine

/-! ### Contexts and logical cores -/

@[simp] theorem Ctx.lcOf_n (c : Ctx) (n : Nat) : (c.lcOf n).n = n := by
  unfold Ctx.lcOf
  cases h : c.lcores.find? fun x => x.n = n with
  | none => rfl
  | some l => simpa using List.find?_some h

/-- A logical core reads as it was set; the others stay. -/
theorem Ctx.lcOf_setLc_eq (c : Ctx) (l : LCore) (n : Nat) : (c.setLc l).lcOf n = if n = l.n then l else c.lcOf n := by
  split
  case isTrue h => rw [h, Ctx.lcOf_setLc]
  case isFalse h => exact c.lcOf_setLc_ne l n h

/-- A context reads as it was set; the others stay. -/
theorem State.ctxOf_setCtx_eq (s : State) {c : Ctx} {i : Nat} (hi : c.id = i) (j : Nat) :
    (s.setCtx c).ctxOf j = if j = i then c else s.ctxOf j := by
  split
  case isTrue h => exact State.ctxOf_setCtx_of_id s (hi.trans h.symm)
  case isFalse h => exact s.ctxOf_setCtx_ne c j (hi ▸ h)

/-- What is set under its number is read under it. -/
theorem State.ctxOf_setLc (s : State) (i j : Nat) (l : LCore) :
    (s.setLc i l).ctxOf j = if j = i then (s.ctxOf i).setLc l else s.ctxOf j :=
  State.ctxOf_setCtx_eq s (c := (s.ctxOf i).setLc l) (s.ctxOf_id i) j

theorem State.lcOf_setLc (s : State) (i j n : Nat) (l : LCore) :
    (s.setLc i l).lcOf j n = if j = i ∧ n = l.n then l else s.lcOf j n := by
  rw [State.lcOf, State.ctxOf_setLc]
  by_cases hj : j = i
  · subst hj
    simp only [if_true, true_and, Ctx.lcOf_setLc_eq, State.lcOf]
  · simp only [hj, false_and, if_false, State.lcOf]

/-- What the committed TRAPCH names depends on the trap logical core's entries alone. -/
theorem Ctx.trapNamesNone_congr {c d : Ctx} (hch : c.trapch = d.trapch) (hvalid : ∀ n, (c.lcOf n).valid = (d.lcOf n).valid)
    (htt : ∀ n, (c.lcOf n).tt = (d.lcOf n).tt) : c.trapNamesNone = d.trapNamesNone := by
  simp only [Ctx.trapNamesNone, LCore.ttOf, hch, hvalid, htt]

/-! ### Charges (R408) -/

/-- R408: charges alone lead from a state to another: they change the clusters and the energy of contexts. -/
structure State.Charged (s t : State) : Prop where
  rest : t = { s with ctxs := t.ctxs, clusters := t.clusters }
  ctxOf : ∀ j, t.ctxOf j = { s.ctxOf j with energy := (t.ctxOf j).energy }

theorem State.Charged.refl (s : State) : s.Charged s := ⟨rfl, fun _ => rfl⟩

theorem State.Charged.trans {s t u : State} (ht : s.Charged t) (hu : t.Charged u) : s.Charged u where
  rest := hu.rest.trans (by rw [ht.rest])
  ctxOf j := (hu.ctxOf j).trans (by rw [ht.ctxOf j])

theorem State.charge_charged (s : State) (ctx cluster n : Nat) : s.Charged (s.charge ctx cluster n) := by
  unfold State.charge
  split
  · exact .refl s
  · refine ⟨rfl, fun j => ?_⟩
    have hset := State.ctxOf_setCtx_eq s (c := { s.ctxOf ctx with energy := (s.ctxOf ctx).energy + n }) (s.ctxOf_id ctx) j
    have henergy : ∀ c : Ctx, c = (if j = ctx then { s.ctxOf ctx with energy := (s.ctxOf ctx).energy + n } else s.ctxOf j) →
        c = { s.ctxOf j with energy := c.energy } := by
      rintro c rfl
      split
      case isTrue h => rw [h]
      case isFalse => rfl
    exact henergy _ hset

theorem State.chargeBursts_charged (t s : State) (ctx cluster : Nat) : t.Charged (t.chargeBursts s ctx cluster) :=
  State.charge_charged t ctx cluster _

theorem State.Charged.lcOf {s t : State} (h : s.Charged t) (j n : Nat) : t.lcOf j n = s.lcOf j n := by
  rw [State.lcOf, h.ctxOf j]
  rfl

/-! ### Bytes one after the other (R184) -/

theorem cellsAt_cons (k : Nat) (b : Byte) (l : List Byte) : cellsAt k (b :: l) = (k, b) :: cellsAt (k + 1) l := by
  simp only [cellsAt, List.zipIdx_cons', List.map_cons, List.map_map, Nat.add_zero, List.cons.injEq, true_and]
  refine List.map_congr_left fun p _ => ?_
  simp [Prod.map, Nat.add_comm, Nat.add_left_comm]

theorem cellWriteAll_cellsAt (l : List Byte) : ∀ (m : List Host.Cell) (k : Nat),
    cellWriteAll m (cellsAt k l) = cellWriteList m k l := by
  induction l with
  | nil => exact fun _ _ => rfl
  | cons b l ih =>
    intro m k
    rw [cellsAt_cons, cellWriteList, ← ih]
    rfl

theorem zip_range_eq_cellsAt (k : Nat) (l : List Byte) : ((List.range l.length).map (k + ·)).zip l = cellsAt k l := by
  induction l generalizing k with
  | nil => rfl
  | cons b l ih =>
    rw [List.length_cons, List.range_succ_eq_map, List.map_cons, List.zip_cons_cons, List.map_map, cellsAt_cons, ← ih (k + 1)]
    simp only [Nat.add_zero, Function.comp_def, Nat.add_succ, Nat.succ_add]

theorem range_map_getD_eq_cellsAt (k : Nat) (l : List Byte) :
    ((List.range l.length).map fun i => (k + i, l.getD i 0)) = cellsAt k l := by
  induction l generalizing k with
  | nil => rfl
  | cons b l ih =>
    rw [List.length_cons, List.range_succ_eq_map, List.map_cons, List.map_map, cellsAt_cons, ← ih (k + 1)]
    simp [Function.comp_def, Nat.add_assoc, Nat.add_comm 1]

theorem le_of_mem_cellsAt {k : Nat} {l : List Byte} {c : Host.Cell} (h : c ∈ cellsAt k l) : k ≤ c.1 ∧ c.1 < k + l.length := by
  obtain ⟨p, hp, rfl⟩ := List.mem_map.1 h
  obtain ⟨hlt, -⟩ := List.mem_zipIdx' hp
  exact ⟨Nat.le_add_right _ _, Nat.add_lt_add_left hlt k⟩

theorem cellsAt_keys (k : Nat) (l : List Byte) : ((cellsAt k l).map fun c => c.1) = (List.range l.length).map (k + ·) := by
  rw [← range_map_getD_eq_cellsAt, List.map_map]
  rfl

/-- R379: a write of whole sectors of present frames puts its cells into M and nothing else. -/
theorem State.logWrite_whole (s : State) (attr : Nat → Attr) {cells : List Host.Cell}
    (hpresent : ∀ c ∈ cells, frameAbsent c.1 = false)
    (hwhole : ∀ q ∈ writtenSectors (cells.map fun c => c.1), q.2 = true) :
    (s.logWrite attr cells).mem = cellWriteAll s.mem cells := by
  have hall : cells.filter (fun c => !frameAbsent c.1) = cells := List.filter_eq_self.2 fun c hc => by simp [hpresent c hc]
  change (State.writeMem _ attr cells).mem = _
  rw [State.writeMem_mem, hall, State.beforeWrite_whole _ _ _ hwhole, State.markLines_mem]

/-! ### What a write leaves of the slots (R184, R232) -/

section
variable (f : Slot) (w : List Loc) (p : Slot → Bool)

/-- R184, R232: a write may doom a chunk or end a slot's wait. -/
theorem Slot.touched_eq : ∃ d v, f.touched w p = { f with chunk := { f.chunk with doomed := d }, wait := v } := by
  unfold Slot.touched
  split
  case isTrue =>
    have hmark : ∃ d, (if p f && meets f.chunk.rset w then { f with chunk := { f.chunk with doomed := true } } else f)
        = { f with chunk := { f.chunk with doomed := d } } := by
      split
      case isTrue => exact ⟨true, rfl⟩
      case isFalse => exact ⟨f.chunk.doomed, rfl⟩
    obtain ⟨d, hd⟩ := hmark
    dsimp only
    rw [hd]
    split
    · split
      case isTrue => exact ⟨d, .none, rfl⟩
      case isFalse => exact ⟨d, f.wait, rfl⟩
    · exact ⟨d, f.wait, rfl⟩
  case isFalse => exact ⟨f.chunk.doomed, f.wait, rfl⟩

@[simp] theorem Slot.touched_core : (f.touched w p).core = f.core := by
  obtain ⟨d, v, h⟩ := f.touched_eq w p
  rw [h]

@[simp] theorem Slot.touched_k : (f.touched w p).k = f.k := by
  obtain ⟨d, v, h⟩ := f.touched_eq w p
  rw [h]

@[simp] theorem Slot.touched_active : (f.touched w p).active = f.active := by
  obtain ⟨d, v, h⟩ := f.touched_eq w p
  rw [h]

@[simp] theorem Slot.touched_firing : (f.touched w p).firing = f.firing := by
  obtain ⟨d, v, h⟩ := f.touched_eq w p
  rw [h]

@[simp] theorem Slot.touched_rset : (f.touched w p).chunk.rset = f.chunk.rset := by
  obtain ⟨d, v, h⟩ := f.touched_eq w p
  rw [h]

end

end Sys2Proof.Machine
end

section
/-! SUPPORT. O33: taking an exception (R75 to R77, R81, R200, R394): the squash before it, the block's bytes in M, and the record
that goes out. -/

namespace Sys2Proof.Machine

/-! ### The squash of an exception (R75, R200) -/

/-- R274: a cancelled request changes the clusters alone. -/
theorem State.cancelBox_eq (s : State) (f : Slot) : ∃ k, s.cancelBox f = { s with clusters := k } := by
  unfold State.cancelBox
  dsimp only
  split
  · exact ⟨_, rfl⟩
  · exact ⟨_, rfl⟩

theorem State.foldl_cancelBox (l : List Slot) : ∀ s : State, ∃ k, l.foldl State.cancelBox s = { s with clusters := k } := by
  induction l with
  | nil => exact fun s => ⟨_, rfl⟩
  | cons f l ih =>
    intro s
    obtain ⟨k, hk⟩ := s.cancelBox_eq f
    obtain ⟨k', hk'⟩ := ih (s.cancelBox f)
    exact ⟨k', by rw [List.foldl_cons, hk', hk]⟩

theorem State.endSlots_eq (s : State) (f : Slot) : ∃ o e q k,
    s.endSlots f = { s with others := o, excl := e, exclQ := q, clusters := k } := by
  unfold State.endSlots
  dsimp only
  generalize s.others.filter _ = other
  obtain ⟨k, hk⟩ := State.foldl_cancelBox other s
  rw [hk]
  exact ⟨_, _, _, _, rfl⟩

/-- R75, R200: the state in which an exception writes its block: the focus is squashed, its grant and the other copy of a dual
firing are gone. -/
def State.squashed (s : State) : State := ((s.endSlots s.focus).cancelBox s.focus).withFocus s.focus.squash

theorem State.squashed_eq (s : State) : ∃ o e q k,
    s.squashed = { s with focus := s.focus.squash, others := o, excl := e, exclQ := q, clusters := k } := by
  obtain ⟨o, e, q, k, hend⟩ := s.endSlots_eq s.focus
  obtain ⟨k', hbox⟩ := (s.endSlots s.focus).cancelBox_eq s.focus
  refine ⟨o, e, q, k', ?_⟩
  rw [State.squashed, hbox, hend]
  rfl

theorem State.ctxOf_congr {s t : State} (h : t.ctxs = s.ctxs) (j : Nat) : t.ctxOf j = s.ctxOf j := by
  rw [State.ctxOf, h, State.ctxOf]

theorem State.ctxFor_squashed (s : State) : s.focus.chunk.sees (s.squashed.ctxOf s.focus.firing.ctx) = s.ctxFor s.focus := by
  obtain ⟨o, e, q, k, hsq⟩ := s.squashed_eq
  rw [State.ctxOf_congr (s := s) (by rw [hsq]), State.ctxFor]

/-- R75, R394: the suspended firing of an exception, with its block and the block's address. -/
def State.suspended (s : State) (b : Nat) (csa : Word) : Susp :=
  { csa := csa, block := b
    firing := { s.focus.firing with
      copy := 0, serial := false, heldFor := s.focus.firing.heldFor + (s.cycle - s.focus.firing.since)
      squashes := s.focus.squashes + 1 }
    srcnt := s.focus.ckpt.srcnt, srecnt := s.focus.ckpt.srecnt, sends := s.focus.ckpt.sends, onceOrd := s.focus.ckpt.onceOrd }

/-- R77: the record of an exception of the focus. -/
def State.trapBytes (s : State) (c : Cause) (pc csa i0 i1 i2 : Word) : List Byte :=
  trapRecord s.focus.firing.fid pc c s.focus.firing.ch true s.focus.firing.lc csa s.focus.firing.fts i0 i1 i2

/-! ### Trap blocks (R76, R394) -/

/-- R394: a logical core with a list of blocks in use. -/
def State.setBlocks (s : State) (x : Firing) (l : List Nat) : State :=
  s.setLc x.ctx { s.lcOf x.ctx x.lc with trapBlocks := l }

/-- R394: the lowest free block. -/
theorem LCore.freeBlock_eq_some {l : LCore} {b : Nat} (hb : b < 8) (hfree : b ∉ l.trapBlocks)
    (hlow : ∀ j, j < b → j ∈ l.trapBlocks) : l.freeBlock = some b := by
  rw [LCore.freeBlock, List.find?_range_eq_some]
  simp only [decide_eq_true_eq, List.mem_range]
  exact ⟨hfree, hb, fun j hj => by simp [hlow j hj]⟩

theorem LCore.freeBlock_eq_none {l : LCore} (h : ∀ j, j < 8 → j ∈ l.trapBlocks) : l.freeBlock = none := by
  rw [LCore.freeBlock, List.find?_eq_none]
  intro j hj
  simpa using h j (List.mem_range.1 hj)

/-- The bytes of M in one page that a context maps. -/
theorem State.spanKeys_one {s : State} {ctx n : Nat} {va : Word} {grants : TlbEntry → Bool} {e : TlbEntry}
    (hwalk : s.walk ctx va = some e) (hgrants : grants e = true) (hpage : va.toNat % 2 ^ 16 + n ≤ 2 ^ 16) :
    s.spanKeys ctx va n grants = some ((List.range n).map fun i => s.home (e.pa va + i)) := by
  have hn : min n (2 ^ 16 - va.toNat % 2 ^ 16) = n := Nat.min_eq_left (by omega)
  unfold State.spanKeys
  dsimp only
  rw [hn, hwalk]
  simp [hgrants]

/-- R389: without migrations every byte is where its address says. -/
theorem State.home_of_no_migs {s : State} (h : s.migs = []) (k : Nat) : s.home k = k := by simp [State.home, h]

/-- R277: a page begins at a multiple of 32 bytes. -/
theorem TlbEntry.pa_mod_32 (e : TlbEntry) (va : Word) (h : va.toNat % 32 = 0) : e.pa va % 32 = 0 := by
  unfold TlbEntry.pa
  split
  · rw [bitsOf_low]; omega
  · rw [bitsOf_low]; omega

/-- R394: what writing a block leaves: its bytes stand in M, and beside the slots that it touches and the charges the rest of
the state is as it was. -/
theorem State.writeBlock_eq_some {s : State} {cluster ctx : Nat} {va : Word} {l : List Byte} {keys : List Nat}
    (hkeys : s.blockKeys ctx va l.length = some keys) : ∃ t : State, s.writeBlock cluster ctx va l = some t
      ∧ State.Charged ((s.logWrite s.ownAttr (keys.zip l)).touch (keys.map Loc.byte) fun _ => true) t := by
  rw [State.writeBlock, hkeys]
  exact ⟨_, rfl, (State.chargeBursts_charged _ _ _ _).trans (State.charge_charged _ _ _ _)⟩

/-! ### The record of an exception (R75, R81) -/

/-- R75: a record that the trap actor can take is a message to it. -/
theorem State.sendRecord_posts {s : State} {ctx : Nat} {ch : Word} (hch : (s.ctxOf ctx).trapch = ch)
    (h : (s.ctxOf ctx).trapNamesNone = false) (lc : Nat) (wait : Bool) (unit num : Nat) (l : List Byte) :
    s.sendRecord ctx lc wait false unit num l
      = s.post { deviceMsg ctx (bitsOf ch 11 0) (bitsOf ch 17 12) l (.traps ctx lc) (.trap wait unit num) with src := lc } := by
  unfold State.sendRecord State.sendRecordFrom
  simp [h, hch]

/-- R81: a record that management takes, with WAIT = 1, follows a gang stop. -/
theorem State.sendRecord_toMgmt (s : State) (ctx lc unit num : Nat) (l : List Byte) :
    s.sendRecord ctx lc true true unit num l = (s.gangStop ctx).report
      { kind := 7, sev := 1, ctx := ctx, lcore := lc, unit := unit, num := num, payload := l.take 24 } := rfl

/-! ### The two ways of an exception -/

section
variable {s : State} {c : Cause} {pc i0 i1 i2 : Word}

/-- R200: while the block must wait nothing changes. -/
theorem State.takeException_waits (h : s.exceptionWaits = true) : s.takeException c pc i0 i1 i2 = s := by
  rw [State.takeException, if_pos h]

variable (hw : s.exceptionWaits = false)
include hw

/-- R75 to R77, R394: with a block that was written. -/
theorem State.takeException_of_block {b : Nat} {t : State} {ctx : Ctx} (hctx : s.ctxFor s.focus = ctx)
    (hfree : (ctx.lcOf s.focus.firing.lc).freeBlock = some b)
    (hblock : s.squashed.writeBlock (clusterIdOf s.focus.core) s.focus.firing.ctx (ctx.blockVa s.focus.firing.lc b)
      (blockBytes s.focus.ckpt) = some t) :
    s.takeException c pc i0 i1 i2
      = ({ (t.setBlocks s.focus.firing (b :: (ctx.lcOf s.focus.firing.lc).trapBlocks)).withFocus t.focus.free with
          susp := t.susp ++ [s.suspended b (ctx.blockVa s.focus.firing.lc b)] } : State).sendRecord
        s.focus.firing.ctx s.focus.firing.lc true (ctx.isTrapActor s.focus.firing) 0 s.focus.core
        (s.trapBytes c pc (ctx.blockVa s.focus.firing.lc b) i0 i1 i2) := by
  rw [← hctx, ← State.ctxFor_squashed] at hfree hblock ⊢
  rw [State.takeException, if_neg (by simp [hw])]
  unfold State.squashed at hfree hblock ⊢
  dsimp only
  rw [hfree]
  dsimp only
  simp only [Slot.squash, Slot.restore] at hblock ⊢
  rw [hblock]
  rfl

/-- R81, R394: without a block. -/
theorem State.takeException_of_no_block (hfree : ((s.ctxFor s.focus).lcOf s.focus.firing.lc).freeBlock = none) :
    s.takeException c pc i0 i1 i2
      = ({ s.squashed.withFocus s.focus.free with susp := s.squashed.susp ++ [s.suspended 8 0] } : State).sendRecord
        s.focus.firing.ctx s.focus.firing.lc true true 0 s.focus.core (s.trapBytes c pc 0 i0 i1 i2) := by
  rw [← State.ctxFor_squashed] at hfree
  rw [State.takeException, if_neg (by simp [hw])]
  unfold State.squashed at hfree
  dsimp only
  rw [hfree]
  rfl

end

/-! ### The block of an exception in M (R76, R275, R394) -/

theorem State.walkFrom_congr {s t : State} (h : ∀ c ia, t.tableEntry c ia = s.tableEntry c ia) (c : Ctx) (va : Nat) :
    ∀ n level table, t.walkFrom c va n level table = s.walkFrom c va n level table := by
  intro n
  induction n with
  | zero => exact fun _ _ => rfl
  | succ n ih =>
    intro level table
    rw [State.walkFrom, State.walkFrom, h]
    simp only [ih]

/-- A walk depends on the context's tables and on M. -/
theorem State.walk_congr {s t : State} (hctxs : t.ctxs = s.ctxs) (hmem : t.mem = s.mem) (hmigs : t.migs = s.migs)
    (ctx : Nat) (va : Word) : t.walk ctx va = s.walk ctx va := by
  have hentry : ∀ c ia, t.tableEntry c ia = s.tableEntry c ia := fun c ia => by
    simp only [State.tableEntry, State.home, hmem, hmigs]
  unfold State.walk
  simp only [State.ctxOf_congr hctxs, State.walkFrom_congr hentry]

/-- R394: the state block of an exception, written to a page that the context maps with W: its bytes stand in M, and every other
byte is as before. -/
theorem State.writeBlock_of_walk {s : State} {cluster ctx : Nat} {va : Word} {e : TlbEntry} {l : List Byte}
    (hwalk : s.walk ctx va = some e) (hw : e.w = true) (hro : e.ro = false) (hpage : va.toNat % 2 ^ 16 + l.length ≤ 2 ^ 16)
    (hva : va.toNat % 32 = 0) (hlen : l.length % 32 = 0) (hpresent : ∀ i, i < l.length → frameAbsent (e.pa va + i) = false)
    (hmigs : s.migs = []) (hwf : Memory.wf s.mem = true) :
    ∃ m t : State, ∃ locs, s.writeBlock cluster ctx va l = some t
      ∧ State.Charged ((s.onMemory m).touch locs fun _ => true) t
      ∧ ∀ j, cellRead m.mem j = if e.pa va ≤ j ∧ j < e.pa va + l.length then l.getD (j - e.pa va) 0 else cellRead s.mem j := by
  have hkeys : s.blockKeys ctx va l.length = some ((List.range l.length).map (e.pa va + ·)) := by
    rw [State.blockKeys, State.spanKeys_one hwalk (by simp [hw, hro]) hpage]
    simp only [State.home_of_no_migs hmigs]
  obtain ⟨t, hwrite, hcharged⟩ := State.writeBlock_eq_some (cluster := cluster) hkeys
  rw [zip_range_eq_cellsAt, State.logWrite_onMemory] at hcharged
  refine ⟨_, t, _, hwrite, hcharged, fun j => ?_⟩
  have hmem : (s.logWrite s.ownAttr (cellsAt (e.pa va) l)).mem = cellWriteAll s.mem (cellsAt (e.pa va) l) := by
    refine State.logWrite_whole s _ (fun c hc => ?_) ?_
    · obtain ⟨hle, hlt⟩ := le_of_mem_cellsAt hc
      have := hpresent (c.1 - e.pa va) (by omega)
      rwa [Nat.add_sub_cancel' hle] at this
    · rw [cellsAt_keys]
      exact writtenSectors_whole _ _ (e.pa_mod_32 va hva) hlen
  rw [hmem, cellWriteAll_cellsAt, cellRead_cellWriteList _ _ _ _ hwf]

/-! ### The outcome with a block -/

theorem Chunk.sees_trapch (k : Chunk) (c : Ctx) : (k.sees c).trapch = c.trapch := by
  unfold Chunk.sees
  split <;> rfl

theorem Chunk.sees_lcOf (k : Chunk) (c : Ctx) (n : Nat) : (k.sees c).lcOf n = c.lcOf n := by
  unfold Chunk.sees
  split <;> rfl

theorem Chunk.sees_trapNamesNone (k : Chunk) (c : Ctx) : (k.sees c).trapNamesNone = c.trapNamesNone :=
  Ctx.trapNamesNone_congr (k.sees_trapch c) (fun n => by rw [k.sees_lcOf]) fun n => by rw [k.sees_lcOf]

/-- A block in use is no matter of the trap actor's entries. -/
theorem Ctx.trapNamesNone_setBlocks (c : Ctx) (n : Nat) (l : List Nat) :
    (c.setLc { c.lcOf n with trapBlocks := l }).trapNamesNone = c.trapNamesNone := by
  refine Ctx.trapNamesNone_congr rfl (fun i => ?_) fun i => ?_
  all_goals
    rw [Ctx.lcOf_setLc_eq]
    split
    case isTrue h => rw [h, Ctx.lcOf_n]
    case isFalse => rfl

/-- What the trap actor's entries are does not depend on the blocks in use or on charges. -/
theorem State.Charged.trapNamesNone_setBlocks {s t : State} (h : s.Charged t) (x : Firing) (l : List Nat) :
    ((t.setBlocks x l).ctxOf x.ctx).trapNamesNone = (s.ctxOf x.ctx).trapNamesNone := by
  rw [State.setBlocks, State.ctxOf_setLc, if_pos rfl]
  refine ((t.ctxOf x.ctx).trapNamesNone_setBlocks x.lc l).trans ?_
  rw [h.ctxOf]
  rfl

theorem State.Charged.trapch_setBlocks {s t : State} (h : s.Charged t) (x : Firing) (l : List Nat) :
    ((t.setBlocks x l).ctxOf x.ctx).trapch = (s.ctxOf x.ctx).trapch := by
  rw [State.setBlocks, State.ctxOf_setLc, if_pos rfl]
  change (t.ctxOf x.ctx).trapch = _
  rw [h.ctxOf]

theorem State.blocks_setBlocks (t : State) (x : Firing) (l : List Nat) :
    ((t.setBlocks x l).lcOf x.ctx x.lc).trapBlocks = l := by
  rw [State.setBlocks, State.lcOf_setLc, if_pos ⟨rfl, (Ctx.lcOf_n _ _).symm⟩]

section
variable {s : State} {c : Cause} {pc i0 i1 i2 : Word} {b : Nat} {m t : State} {locs : List Loc} {ctx : Ctx}

/-- R75 to R77, R394: what an exception leaves once its block is written: the slot is free, the firing is suspended with its
block, and the record is on its way to the trap actor. -/
theorem State.takeException_frees (hw : s.exceptionWaits = false) (hctx : s.ctxFor s.focus = ctx)
    (hfree : (ctx.lcOf s.focus.firing.lc).freeBlock = some b)
    (hactor : ctx.isTrapActor s.focus.firing = false) (hnames : ctx.trapNamesNone = false)
    (hblock : s.squashed.writeBlock (clusterIdOf s.focus.core) s.focus.firing.ctx (ctx.blockVa s.focus.firing.lc b)
      (blockBytes s.focus.ckpt) = some t)
    (hcharged : State.Charged ((s.squashed.onMemory m).touch locs fun _ => true) t) :
    let x := s.focus.firing
    let va := ctx.blockVa x.lc b
    let u := s.takeException c pc i0 i1 i2
    u.focus = { core := s.focus.core, k := s.focus.k } ∧ u.susp = s.susp ++ [s.suspended b va]
      ∧ (u.lcOf x.ctx x.lc).trapBlocks = b :: (ctx.lcOf x.lc).trapBlocks ∧ u.mem = m.mem ∧ u.host = s.host
      ∧ u.net = s.net ++ [{ deviceMsg x.ctx (bitsOf ctx.trapch 11 0) (bitsOf ctx.trapch 17 12)
          (s.trapBytes c pc va i0 i1 i2) (.traps x.ctx x.lc) (.trap true 0 s.focus.core) with src := x.lc }] := by
  obtain ⟨o, e, q, k, hsq⟩ := s.squashed_eq
  have hctxs : ∀ j, ((s.squashed.onMemory m).touch locs fun _ => true).ctxOf j = s.ctxOf j :=
    State.ctxOf_congr (by rw [State.touch_ctxs, hsq]; rfl)
  obtain ⟨hfocus, hsusp, hmem, hhost, hnet⟩ : t.focus.free = { core := s.focus.core, k := s.focus.k } ∧ t.susp = s.susp
      ∧ t.mem = m.mem ∧ t.host = s.host ∧ t.net = s.net := by
    rw [hcharged.rest, hsq]
    refine ⟨?_, rfl, rfl, rfl, rfl⟩
    simp only [Slot.free, State.touch_focus, Slot.touched_core, Slot.touched_k]
    rfl
  intro x va u
  have hu : u = _ := State.takeException_of_block hw hctx hfree hblock
  have htrapch : ((t.setBlocks x (b :: (ctx.lcOf x.lc).trapBlocks)).ctxOf x.ctx).trapch = ctx.trapch := by
    rw [hcharged.trapch_setBlocks, hctxs, ← hctx]
    exact (Chunk.sees_trapch _ _).symm
  have hnone : ((t.setBlocks x (b :: (ctx.lcOf x.lc).trapBlocks)).ctxOf x.ctx).trapNamesNone = false := by
    rw [hcharged.trapNamesNone_setBlocks, hctxs, ← hnames, ← hctx]
    exact (Chunk.sees_trapNamesNone _ _).symm
  rw [hactor] at hu
  rw [hu.trans (State.sendRecord_posts (by exact htrapch) (by exact hnone) _ _ _ _ _)]
  exact ⟨hfocus, congrArg (· ++ _) hsusp, t.blocks_setBlocks x _, hmem, hhost, congrArg (· ++ _) hnet⟩

end

/-! ### The gang stop (R359, R393, R394) -/

theorem Ctx.descBytes_length (c : Ctx) : c.descBytes.length = 48 := by simp [Ctx.descBytes]

/-- R393: a changed descriptor: the context reads as it was set, and in M its 48 bytes alone change. -/
theorem State.changeDesc_outcome (s : State) {c : Ctx} {i : Nat} (hi : c.id = i) :
    let t := s.changeDesc c
    t.host = s.host ∧ t.net = s.net ∧ t.susp = s.susp ∧ t.mgmt = s.mgmt ∧ t.ctxOf i = c
      ∧ t.mem = cellWriteList s.mem (descKey i) c.descBytes := by
  subst hi
  obtain ⟨hmem, hmgmt⟩ := State.logWrite_beyond (s := s.setCtx c) (attr := s.ownAttr)
    (cells := cellsAt (descKey c.id) c.descBytes) fun x hx => by
      have := (le_of_mem_cellsAt hx).1
      unfold descKey at this
      omega
  have hctx : (s.changeDesc c).ctxOf c.id = (s.setCtx c).ctxOf c.id :=
    State.ctxOf_congr (by rw [State.changeDesc, State.touch_ctxs, State.putDesc, State.logWrite_ctxs]) _
  rw [State.ctxOf_setCtx_eq s rfl, if_pos rfl] at hctx
  rw [cellWriteAll_cellsAt] at hmem
  intro t
  refine ⟨?_, ?_, ?_, ?_, hctx, ?_⟩ <;> simp [t, State.changeDesc, State.putDesc, hmem, hmgmt]

/-- R359: what the cores record at a gang stop is no part of the descriptor's change. -/
theorem State.gangStop_eq (s : State) (ctx : Nat) : ∃ k, s.gangStop ctx
    = State.changeDesc { s with cores := k } { s.ctxOf ctx with halted := true, state := 3 } := by
  have hcores : ∀ (l : List Nat) (s t : State), (∃ k, t = { s with cores := k }) →
      ∃ k, l.foldl (fun t p => t.setCore ((t.coreOf p).recordStop (s.ctxOf ctx) t.cycle)) t = { s with cores := k } := by
    intro l s
    induction l with
    | nil => exact fun _ h => h
    | cons p l ih =>
      rintro t ⟨k, rfl⟩
      exact ih _ ⟨_, rfl⟩
  unfold State.gangStop
  obtain ⟨k, hk⟩ := hcores (((s.ctxOf ctx).lcores.filter fun l => l.valid).map fun l => l.pcore) s s ⟨_, rfl⟩
  exact ⟨k, by dsimp only; rw [hk]; rfl⟩

/-- R394: what a gang stop leaves. -/
theorem State.gangStop_outcome (s : State) (ctx : Nat) :
    let c : Ctx := { s.ctxOf ctx with halted := true, state := 3 }
    let t := s.gangStop ctx
    t.host = s.host ∧ t.net = s.net ∧ t.susp = s.susp ∧ t.mgmt = s.mgmt ∧ t.ctxOf ctx = c
      ∧ t.mem = cellWriteList s.mem (descKey ctx) c.descBytes := by
  obtain ⟨k, hk⟩ := s.gangStop_eq ctx
  intro c t
  have h := State.changeDesc_outcome { s with cores := k } (c := c) (i := ctx) (s.ctxOf_id ctx)
  rwa [← hk] at h

/-! ### The obligation -/

/-- R200: without a free block there is nothing that the exception waits for. -/
theorem State.exceptionWaits_of_no_block {s : State}
    (h : ((s.ctxFor s.focus).lcOf s.focus.firing.lc).freeBlock = none) : s.exceptionWaits = false := by
  simp [State.exceptionWaits, h]

/-- R81, R394: what an exception leaves that finds all eight blocks in use. -/
theorem State.takeException_halts (s : State) (c : Cause) (pc i0 i1 i2 : Word)
    (h : ((s.ctxFor s.focus).lcOf s.focus.firing.lc).freeBlock = none) :
    let x := s.focus.firing
    let d : Ctx := { s.ctxOf x.ctx with halted := true, state := 3 }
    let t := s.takeException c pc i0 i1 i2
    t.focus = { core := s.focus.core, k := s.focus.k } ∧ t.host = s.host ∧ t.net = s.net
      ∧ t.mem = cellWriteList s.mem (descKey x.ctx) d.descBytes ∧ t.susp = s.susp ++ [s.suspended 8 0] ∧ t.ctxOf x.ctx = d
      ∧ ∃ r : MgmtRec, t.mgmt = s.mgmt ++ [r] ∧ r.kind = 7 ∧ r.sev = 1 ∧ r.ctx = x.ctx ∧ r.lcore = x.lc ∧ r.unit = 0
        ∧ r.num = s.focus.core := by
  intro x d t
  have ht : t = _ := State.takeException_of_no_block (State.exceptionWaits_of_no_block h) h
  obtain ⟨o, e, q, k, hsq⟩ := s.squashed_eq
  rw [hsq, State.sendRecord_toMgmt] at ht
  rw [ht]
  generalize hu : ({ State.withFocus _ _ with susp := _ } : State) = u
  obtain ⟨hhost, hnet, hsusp, hmgmt, hctx, hmem⟩ := u.gangStop_outcome x.ctx
  have hfocus := u.gangStop_inactive (by rw [← hu]; rfl) x.ctx
  generalize u.gangStop x.ctx = v at hhost hnet hsusp hmgmt hctx hmem hfocus ⊢
  subst hu
  exact ⟨hfocus, hhost, hnet, hmem, hsusp, hctx, _, congrArg (· ++ _) hmgmt, rfl, rfl, rfl, rfl, rfl, rfl⟩

/-- Settles O33. With a block: the block's write, then the frame of the record's message. Without one: the gang stop, whose
descriptor is all that changes in M. -/
theorem exceptionEntry : Obligations.ExceptionEntry := by
  refine ⟨?_, ?_, fun s c pc i0 i1 i2 h => State.takeException_waits h⟩
  · intro s c pc i0 i1 i2 b e f x ctx l va pa bytes hb hnot hlow hwalk hw hro hpage hva hwaits hpresent hmigs hwf _ hactor
      hnames t
    obtain ⟨o, _, q, k, hsq⟩ := s.squashed_eq
    have hlen : bytes.length = 4480 := blockBytes_length _
    obtain ⟨m, u, locs, hblock, hcharged, hmem⟩ := State.writeBlock_of_walk (s := s.squashed) (ctx := x.ctx) (va := va) (e := e)
      (l := bytes) (cluster := clusterIdOf f.core)
      (by rw [State.walk_congr (s := s) (by rw [hsq]) (by rw [hsq]) (by rw [hsq]), hwalk]) hw hro (by rw [hlen]; exact hpage) hva
      (by rw [hlen]) (by rw [hlen]; exact hpresent) (by rw [hsq]; exact hmigs) (by rw [hsq]; exact hwf)
    obtain ⟨hfocus, hsusp, hblocks, htmem, hhost, hnet⟩ := State.takeException_frees (c := c) (pc := pc) (i0 := i0) (i1 := i1)
      (i2 := i2) hwaits rfl (LCore.freeBlock_eq_some hb hnot hlow) hactor hnames hblock hcharged
    refine ⟨hfocus, ⟨_, hsusp, rfl, rfl, rfl, rfl, rfl, rfl, rfl, rfl⟩, hblocks, fun j => ?_, hhost, _, hnet, rfl, ?_, ?_, rfl⟩
    · rw [htmem, hmem, hlen, hsq]
    · exact bitsOf_low _ _
    · exact bitsOf_eq _ _ _
  · intro s c pc i0 i1 i2 f x hfull t
    have hfree : ((s.ctxFor f).lcOf x.lc).freeBlock = none := LCore.freeBlock_eq_none fun j hj => by
      rw [State.ctxFor, Chunk.sees_lcOf]
      exact hfull j hj
    obtain ⟨hfocus, hhost, hnet, hmem, hsusp, hctx, hmgmt⟩ := s.takeException_halts c pc i0 i1 i2 hfree
    refine ⟨hfocus, hhost, hnet, fun hwf _ j hj => ?_, ⟨_, hsusp, rfl⟩, by rw [hctx], by rw [hctx], hmgmt⟩
    rw [hmem, cellRead_cellWriteList _ _ _ _ hwf, Ctx.descBytes_length]
    exact if_neg fun hin => hj.elim (Nat.not_lt.2 hin.1) (Nat.not_le.2 hin.2)

end Sys2Proof.Machine
end

section
/-! SUPPORT. O52: the slots in use under the operations that fill, change and free them (R62, R185, R200), the tables that creation
and aging change (R160, R170), and the steps of firings and chunks. -/

namespace Sys2Proof.Machine

/-! ### The slots in use -/

theorem Slot.at_iff {f : Slot} {core k : Nat} : f.at core k = true ↔ f.active = true ∧ f.core = core ∧ f.k = k := by
  simp [Slot.at, and_assoc]

/-- What is found at a place is there. -/
theorem State.slotAt_at {s : State} {core k : Nat} {f : Slot} (h : s.slotAt core k = some f) : f.at core k = true := by
  have := List.find?_some h
  exact this

/-- A slot found at a place reads there as it was set. -/
theorem State.slotAt_setSlot {s : State} {core k : Nat} {f g : Slot} (h : s.slotAt core k = some f)
    (hplace : g.active = f.active ∧ g.core = f.core ∧ g.k = f.k) : (s.setSlot g).slotAt core k = some g := by
  obtain ⟨hactive, hcore, hk⟩ := Slot.at_iff.1 (State.slotAt_at h)
  obtain ⟨hactive', hcore', hk'⟩ := hplace
  have hg : g.at core k = true := Slot.at_iff.2 ⟨hactive'.trans hactive, hcore'.trans hcore, hk'.trans hk⟩
  have hall : ∀ l : List Slot, l.find? (fun f => f.at core k) = some f →
      (l.map fun f => if f.at core k then g else f).find? (fun f => f.at core k) = some g := by
    intro l
    induction l with
    | nil => intro h; cases h
    | cons a l ih =>
      intro hl
      rw [List.map_cons]
      by_cases ha : a.at core k = true
      · rw [if_pos ha, List.find?_cons_of_pos (by exact hg)]
      · rw [List.find?_cons_of_neg (by exact ha)] at hl
        rw [if_neg ha, List.find?_cons_of_neg (by exact ha), ih hl]
  have := hall s.slots h
  rwa [State.slotAt, State.setSlot, State.slots, State.mapSlots_focus, State.mapSlots_others, hcore'.trans hcore, hk'.trans hk]

/-- A slot that falls in use at a free place is found there. -/
theorem State.slotAt_addSlot {s : State} {core k : Nat} {f : Slot} (h : s.slotAt core k = none) (hf : f.at core k = true) :
    (s.addSlot f).slotAt core k = some f := by
  unfold State.addSlot
  split
  case isTrue =>
    have hslots : (State.slots { s with others := s.others ++ [f] }) = s.slots ++ [f] := rfl
    rw [State.slotAt, hslots, List.find?_append]
    rw [State.slotAt] at h
    rw [h, Option.none_or, List.find?_cons_of_pos (by exact hf)]
  case isFalse => exact List.find?_cons_of_pos (by exact hf)

/-- R200: queueing for exclusive commit changes the queue alone. -/
theorem State.queueExcl_eq (s : State) (f : Slot) : s.queueExcl f = { s with exclQ := (s.queueExcl f).exclQ } := by
  unfold State.queueExcl
  split <;> rfl

@[simp] theorem State.slotAt_queueExcl (s : State) (f : Slot) (core k : Nat) :
    (s.queueExcl f).slotAt core k = s.slotAt core k := by
  rw [State.queueExcl_eq]
  rfl

/-! ### Squashes (R185, R200) -/

theorem State.partner_of_single {s : State} {f : Slot} (h : f.firing.dual = false) : s.partner f = none := by
  simp [State.partner, h]

/-- R185: what a squash leaves of the state: the chunk of its slot alone is gone. -/
theorem State.squashSlot_outcome {s : State} {core k : Nat} {g : Slot} (h : s.slotAt core k = some g) :
    (s.squashSlot g).mem = s.mem ∧ (s.squashSlot g).net = s.net ∧ (s.squashSlot g).slotAt core k = some g.squash := by
  obtain ⟨c, hbox⟩ := s.cancelBox_eq g
  unfold State.squashSlot
  dsimp only
  rw [hbox]
  refine ⟨?_, ?_, ?_⟩
  · rw [State.queueExcl_eq]; rfl
  · rw [State.queueExcl_eq]; rfl
  · rw [State.slotAt_queueExcl]
    exact State.slotAt_setSlot (f := g) (by exact h) ⟨rfl, rfl, rfl⟩

/-- R200: the chunks whose squash is put off. -/
theorem execChunkSquash_of_slotAt {s : State} {core k : Nat} {g : Slot} (h : s.slotAt core k = some g) :
    exec (.chunkSquash core k) s = .next
      (if (s.holdsExcl g = true ∨ s.awaitsExcl g = true) ∧ g.chunk.doomed = false then s else s.squashChunk g) := by
  change execChunkSquash core k s = _
  rw [execChunkSquash, h]
  dsimp only
  split <;> rfl

theorem State.excl_of_place {s : State} {core k : Nat} {g : Slot} (hg : g.at core k = true)
    (h : s.excl = some (core, k) ∨ (core, k) ∈ s.exclQ) : s.holdsExcl g = true ∨ s.awaitsExcl g = true := by
  obtain ⟨-, rfl, rfl⟩ := Slot.at_iff.1 hg
  exact h.imp (fun h => by simp [State.holdsExcl, State.copies, h]) fun h => by simp [State.awaitsExcl, State.copies, h]

theorem State.place_of_excl {s : State} {core k : Nat} {g : Slot} (hg : g.at core k = true) (hdual : g.firing.dual = false)
    (h : s.holdsExcl g = true ∨ s.awaitsExcl g = true) : s.excl = some (core, k) ∨ (core, k) ∈ s.exclQ := by
  obtain ⟨-, rfl, rfl⟩ := Slot.at_iff.1 hg
  simpa [State.holdsExcl, State.awaitsExcl, State.copies, State.partner_of_single hdual] using h

theorem chunkSquash_squashes {s : State} {core k : Nat} {g : Slot} (h : s.slotAt core k = some g) (hdual : g.firing.dual = false)
    (hfree : s.excl = some (core, k) ∨ (core, k) ∈ s.exclQ → g.chunk.doomed = true) :
    Leads (.chunkSquash core k) s fun t => t.mem = s.mem ∧ t.net = s.net ∧ ∃ h, t.slotAt core k = some h
      ∧ h.chunk = {} ∧ h.reg = g.ckpt ∧ h.firing = g.firing ∧ h.squashes = g.squashes + 1
      ∧ h.wait = if g.opening = true then g.wait else .none := by
  refine ⟨s.squashChunk g, ?_, ?_⟩
  · rw [execChunkSquash_of_slotAt h, if_neg]
    rintro ⟨hexcl, hdoomed⟩
    simp [hfree (State.place_of_excl (State.slotAt_at h) hdual hexcl)] at hdoomed
  · rw [State.squashChunk, State.partner_of_single hdual]
    obtain ⟨hmem, hnet, hat⟩ := State.squashSlot_outcome h
    exact ⟨hmem, hnet, _, hat, rfl, rfl, rfl, rfl, rfl⟩

theorem chunkSquash_waits {s : State} {core k : Nat} {g : Slot} (h : s.slotAt core k = some g)
    (hexcl : s.excl = some (core, k) ∨ (core, k) ∈ s.exclQ) (hdoomed : g.chunk.doomed = false) :
    exec (.chunkSquash core k) s = .next s := by
  rw [execChunkSquash_of_slotAt h, if_pos ⟨State.excl_of_place (State.slotAt_at h) hexcl, hdoomed⟩]

/-! ### Exclusive commit (R200, R201) -/

theorem State.lapse_of_free {s : State} (h : s.excl = none) : s.lapse = s := by
  simp [State.lapse, h]

/-- R201: an ordered chunk that is no longer MINKEY queues again at the end. -/
theorem State.lapse_of_not_min {s : State} {core k : Nat} {g : Slot} (hexcl : s.excl = some (core, k))
    (h : s.slotAt core k = some g) (hord : g.firing.ordered = true) (hmin : s.atMin g.firing = false) :
    s.lapse = { s with excl := none, exclQ := s.exclQ ++ [(core, k)] } := by
  simp [State.lapse, State.exclHolder, hexcl, h, hord, hmin]

/-- R200: the grant is no matter of what may be granted. -/
theorem State.grantable_excl (s : State) (e : Option (Nat × Nat)) (q : List (Nat × Nat)) (p : Nat × Nat) :
    ({ s with excl := e, exclQ := q } : State).grantable p = s.grantable p := rfl

theorem State.grantable_eq {s : State} {p : Nat × Nat} {g : Slot} (h : s.slotAt p.1 p.2 = some g) :
    s.grantable p = (!g.firing.ordered || s.atMin g.firing) := by
  simp [State.grantable, h]

/-- R200: a queued chunk to which nothing is granted: one whose key is not MINKEY. -/
theorem State.not_grantable {s : State} {p : Nat × Nat}
    (h : ∀ g, s.slotAt p.1 p.2 = some g → g.firing.ordered = true ∧ s.atMin g.firing = false) : s.grantable p = false := by
  cases hp : s.slotAt p.1 p.2 with
  | none => simp [State.grantable, hp]
  | some g =>
    obtain ⟨hord, hmin⟩ := h g hp
    simp [State.grantable_eq hp, hord, hmin]

/-- R200: the first queued chunk that the grant may go to takes it. -/
theorem execGrant_first {s : State} {p : Nat × Nat} {pre post : List (Nat × Nat)} (hexcl : s.excl = none)
    (hq : s.exclQ = pre ++ p :: post) (hpre : ∀ q ∈ pre, s.grantable q = false) (hp : s.grantable p = true) :
    exec .exclusiveCommitGrant s = .next { s with excl := some p, exclQ := pre ++ post } := by
  have hfind : s.exclQ.find? s.grantable = some p := by
    rw [hq, List.find?_append, List.find?_eq_none.2 fun q hq => by simp [hpre q hq], Option.none_or,
      List.find?_cons_of_pos (by exact hp)]
  have hnot : p ∉ pre := fun hmem => by simp [hpre p hmem] at hp
  change execExclusiveCommitGrant s = _
  rw [execExclusiveCommitGrant, State.lapse_of_free hexcl, hexcl, hfind]
  dsimp only
  rw [hq, List.erase_append_right _ hnot, List.erase_cons_head]

/-- R200, R201: a grant that lapses goes to another chunk or to none, and its chunk is queued. -/
theorem execGrant_lapses {s : State} {core k : Nat} {g : Slot} (hexcl : s.excl = some (core, k))
    (h : s.slotAt core k = some g) (hord : g.firing.ordered = true) (hmin : s.atMin g.firing = false) :
    Leads .exclusiveCommitGrant s fun t => t.excl ≠ some (core, k) ∧ (core, k) ∈ t.exclQ ∧ t.mem = s.mem := by
  refine ⟨_, rfl, ?_⟩
  rw [State.lapse_of_not_min hexcl h hord hmin]
  cases hfind : (s.exclQ ++ [(core, k)]).find? (State.grantable { s with excl := none, exclQ := s.exclQ ++ [(core, k)] }) with
  | none => exact ⟨nofun, by simp, rfl⟩
  | some p =>
    have hp := List.find?_some hfind
    have hne : (core, k) ≠ p := by
      rintro rfl
      rw [State.grantable_excl, State.grantable_eq (g := g) h] at hp
      simp [hord, hmin] at hp
    exact ⟨fun he => hne (Option.some.inj he).symm, (List.mem_erase_of_ne hne).2 (by simp), rfl⟩

/-! ### Steps of one slot -/

theorem chunkClose_closes {s : State} {core k : Nat} {g : Slot} (h : s.slotAt core k = some g) (hopen : g.chunk.closed = none)
    (hglen : g.glen = 0) (hlimit : s.limitCloses g = true) :
    Leads (.chunkClose core k) s fun t => t.slotAt core k = some g.closeBoundary := by
  refine ⟨s.setSlot g.closeBoundary, ?_, State.slotAt_setSlot h ⟨rfl, rfl, rfl⟩⟩
  change execChunkClose core k s = _
  simp [execChunkClose, h, hopen, hglen, hlimit]

theorem abortWaitTimeout_wakes {s : State} {core k : Nat} {g : Slot} {set : List Loc} {since : Nat}
    (h : s.slotAt core k = some g) (hwait : g.wait = .watch set since) (hover : since + 65536 ≤ s.cycle) :
    Leads (.abortWaitTimeout core k) s fun t => t.slotAt core k = some { g with wait := .none } ∧ t.mem = s.mem := by
  refine ⟨s.setSlot { g with wait := .none }, ?_, State.slotAt_setSlot h ⟨rfl, rfl, rfl⟩, rfl⟩
  change execAbortWaitTimeout core k s = _
  simp [execAbortWaitTimeout, h, hwait, hover]

theorem oncePosting_reaches {s : State} {core k : Nat} {g : Slot} {p : Posting} (h : s.slotAt core k = some g)
    (hfind : (s.onceQ.find? fun p => p.to g.firing) = some p) :
    Leads (.oncePosting core k) s fun t => t.onceQ = s.onceQ.erase p ∧ ∃ h, t.slotAt core k = some h ∧ h.reg = g.reg
      ∧ h.chunk = g.chunk ∧ (p.n, p.word, p.res) ∈ h.firing.postings := by
  refine ⟨_, rfl, ?_⟩
  rw [h]
  dsimp only
  rw [hfind]
  exact ⟨rfl, _, State.slotAt_setSlot (f := g) (by exact h) ⟨rfl, rfl, rfl⟩, rfl, rfl, List.mem_cons_self⟩

/-! ### Creation (R65, R170, R173) -/

/-- R170: of the messages that no firing has reserved, the oldest n are reserved. -/
theorem reserveOldest_free (n : Nat) (l : List QSlot) :
    ((reserveOldest n l).filter QSlot.free).length = (l.filter QSlot.free).length - n := by
  induction l generalizing n with
  | nil => cases n <;> simp [reserveOldest]
  | cons x l ih =>
    cases n with
    | zero => rfl
    | succ n =>
      cases hx : x.free with
      | true =>
        have hr : ({ x with st := .reserved } : QSlot).free = false := rfl
        simp only [reserveOldest, hx, if_true]
        rw [List.filter_cons_of_neg (by simp [hr]), ih, List.filter_cons_of_pos hx, List.length_cons, Nat.add_sub_add_right]
      | false =>
        simp only [reserveOldest, hx, Bool.false_eq_true, if_false]
        rw [List.filter_cons_of_neg (by simp [hx]), ih, List.filter_cons_of_neg (by simp [hx])]

theorem TTEntry.find?_free_of_waiting {e : TTEntry} (h : 0 < e.waiting) : ∃ x, e.q.find? QSlot.free = some x := by
  obtain ⟨x, hx⟩ := List.exists_mem_of_length_pos h
  obtain ⟨hmem, hfree⟩ := List.mem_filter.1 hx
  exact Option.isSome_iff_exists.1 (List.find?_isSome.2 ⟨x, hmem, hfree⟩)

/-- R170: an entry of a channel that has taken messages for a firing. -/
def TTEntry.fired (e : TTEntry) : TTEntry := { e with q := reserveOldest (e.rate + 1) e.q, seq := (e.seq + 1) % 2 ^ 32 }

theorem TTEntry.fired_waiting (e : TTEntry) : e.fired.waiting = e.waiting - (e.rate + 1) := reserveOldest_free _ _

/-- R170, R173: creation of a firing without a JOIN entry. -/
theorem State.createFiring_of_no_join {s : State} {ctx lc ch : Nat} {x : QSlot}
    (hjoin : ((s.lcOf ctx lc).ttOf ch).join = false) (hx : ((s.lcOf ctx lc).ttOf ch).q.find? QSlot.free = some x) :
    let e := (s.lcOf ctx lc).ttOf ch
    s.createFiring ctx lc ch = { s.setLc ctx ((s.lcOf ctx lc).setTt ch e.fired) with
      ready := s.ready ++ (List.range (if e.gang then 8 else 1)).map fun k =>
        (s.ctxOf ctx).newFiring lc ch k s.cycle x.msg (e.refs ch (e.rate + 1)) []
      gangs := (s.createFiring ctx lc ch).gangs } := by
  intro e
  simp only [State.lcOf] at hjoin hx
  unfold State.createFiring
  simp only [hjoin, hx, Bool.false_eq_true, if_false]
  rfl

theorem Ctx.waits_of_mayCreate {c : Ctx} {lc ch : Nat} (h : c.mayCreate lc ch = true) :
    ((c.lcOf lc).ttOf ch).rate + 1 ≤ ((c.lcOf lc).ttOf ch).waiting := by
  simp only [Ctx.mayCreate, Bool.and_eq_true, decide_eq_true_eq] at h
  exact h.1.1.2

theorem firingCreate_creates {s : State} {ctx lc ch : Nat} (hmay : (s.ctxOf ctx).mayCreate lc ch = true)
    (hjoin : ((s.lcOf ctx lc).ttOf ch).join = false) :
    let e := (s.lcOf ctx lc).ttOf ch
    Leads (.firingCreate ctx lc ch) s fun t => t.ready.length = s.ready.length + (if e.gang then 8 else 1)
      ∧ (∀ x, x ∈ t.ready → x ∉ s.ready → x.ctx = ctx ∧ x.ch = ch ∧ x.seq = e.seq ∧ x.home = lc ∧ x.np = e.rate + 1
        ∧ x.prim = e.refs ch (e.rate + 1))
      ∧ (t.lcOf ctx lc).ttOf ch = e.fired ∧ t.mem = s.mem := by
  intro e
  have hwaits : e.rate + 1 ≤ e.waiting := Ctx.waits_of_mayCreate hmay
  obtain ⟨x, hx⟩ := TTEntry.find?_free_of_waiting (e := e) (by omega)
  refine ⟨s.createFiring ctx lc ch, congrArg Host.Outcome.next (if_pos hmay), ?_⟩
  rw [State.createFiring_of_no_join hjoin hx]
  refine ⟨by simp [e], fun y hy hnot => ?_, ?_, rfl⟩
  · obtain ⟨k, -, rfl⟩ := List.mem_map.1 ((List.mem_append.1 hy).resolve_left hnot)
    exact ⟨s.ctxOf_id ctx, rfl, rfl, rfl, rfl, rfl⟩
  · refine (congrArg (LCore.ttOf · ch) (State.lcOf_setLc s ctx ctx lc _)).trans ?_
    rw [if_pos ⟨rfl, (Ctx.lcOf_n _ _).symm⟩, LCore.ttOf_setTt, if_pos rfl]

/-! ### Aging (R160) -/

theorem setAt_eq_set {α : Type} (l : List α) (n : Nat) (a : α) : setAt l n a = l.set n a := by
  induction l generalizing n with
  | nil => rfl
  | cons b l ih =>
    cases n with
    | zero => rfl
    | succ n => rw [setAt, ih, List.set_cons_succ]

theorem firingAging_ages {s : State} {n : Nat} {x : Firing} (h : s.ready[n]? = some x) (hprio : x.prio ≠ 0)
    (hmoved : x.movedAt + 65536 ≤ s.cycle) (hvalid : (s.lcOf x.ctx x.lc).valid = true) (hin : (s.lcOf x.ctx x.lc).out = false) :
    Leads (.firingAging n) s fun t => t = { s with ready := t.ready } ∧ t.ready.length = s.ready.length
      ∧ t.ready[n]? = some { x with prio := x.prio - 1, movedAt := s.cycle } ∧ ∀ j, j ≠ n → t.ready[j]? = s.ready[j]? := by
  refine ⟨{ s with ready := s.ready.set n { x with prio := x.prio - 1, movedAt := s.cycle } }, ?_, rfl, List.length_set, ?_,
    fun j hj => List.getElem?_set_ne hj.symm⟩
  · change execFiringAging n s = _
    simp [execFiringAging, h, hprio, hmoved, hvalid, hin, setAt_eq_set]
  · obtain ⟨hlt, -⟩ := List.getElem?_eq_some_iff.1 h
    simp [hlt]

/-! ### Swapping out (R160) -/

/-- R160: a pre-emption frees the chosen slots. -/
theorem State.preempt_slots {s : State} {which : Slot → Bool} {g : Slot} (hg : g ∈ (s.preempt which).slots)
    (hactive : g.active = true) : which g = false := by
  rcases List.mem_cons.1 hg with rfl | hg
  · by_cases h : (s.focus.active && which s.focus) = true
    · have : (s.preempt which).focus = s.focus.free := if_pos h
      rw [this] at hactive
      cases hactive
    · have : (s.preempt which).focus = s.focus := if_neg h
      rw [this] at hactive ⊢
      simpa [hactive] using h
  · simpa using (List.mem_filter.1 hg).2

/-- R160, R200: leaving the grant and the mailboxes is no matter of memory and contexts. -/
theorem State.foldl_leaves (l : List Slot) : ∀ s : State, ∃ c e q,
    l.foldl (fun s f => (s.cancelBox f).leaveExcl f.core f.k) s = { s with clusters := c, excl := e, exclQ := q } := by
  induction l with
  | nil => exact fun s => ⟨_, _, _, rfl⟩
  | cons f l ih =>
    intro s
    obtain ⟨c, hbox⟩ := s.cancelBox_eq f
    obtain ⟨c', e, q, hl⟩ := ih ((s.cancelBox f).leaveExcl f.core f.k)
    exact ⟨c', e, q, by rw [List.foldl_cons, hl, hbox]; rfl⟩

theorem State.preempt_eq (s : State) (which : Slot → Bool) : ∃ c e q f o r,
    s.preempt which = { s with clusters := c, excl := e, exclQ := q, focus := f, others := o, ready := r } := by
  unfold State.preempt
  dsimp only
  obtain ⟨c, e, q, hl⟩ := State.foldl_leaves (s.slots.filter fun f => f.active && which f) s
  rw [hl]
  exact ⟨_, _, _, _, _, _, rfl⟩

/-- R160: a context with a logical core swapped out. -/
def State.swappedOut (s : State) (ctx lc : Nat) : State :=
  s.setLc ctx { s.lcOf ctx lc with out := true, outAt := s.cycle }

theorem State.swappedOut_out (s : State) (ctx lc : Nat) : ((s.swappedOut ctx lc).lcOf ctx lc).out = true :=
  congrArg LCore.out ((State.lcOf_setLc s ctx ctx lc _).trans (if_pos ⟨rfl, (Ctx.lcOf_n _ _).symm⟩))

theorem timeSliceEnd_swapsOut {s : State} {ctx lc : Nat} (hruns : (s.ctxOf ctx).runs = true)
    (hvalid : (s.lcOf ctx lc).valid = true) (hmoving : (s.lcOf ctx lc).moving = false) (hstop : (s.lcOf ctx lc).stopOut = false)
    (hin : (s.lcOf ctx lc).out = false) (hbusy : s.busy ctx (some lc) = false) :
    Leads (.timeSliceEnd ctx lc) s fun t => (t.lcOf ctx lc).out = true ∧ t.mem = s.mem
      ∧ ∀ g ∈ t.slots, g.active = true → ¬ (g.firing.ctx = ctx ∧ g.firing.lc = lc) := by
  simp only [State.lcOf] at hvalid hmoving hstop hin
  refine ⟨(s.swappedOut ctx lc).preempt fun f => decide (f.firing.ctx = ctx) && decide (f.firing.lc = lc), ?_, ?_⟩
  · change execTimeSliceEnd ctx lc s = _
    unfold execTimeSliceEnd
    dsimp only
    rw [if_neg (by simp [hruns, hvalid, hmoving, hstop]), if_neg (by simp [hin]), if_neg (by simp [hbusy])]
    rfl
  · obtain ⟨c, e, q, f, o, r, h⟩ := (s.swappedOut ctx lc).preempt_eq
      fun f => decide (f.firing.ctx = ctx) && decide (f.firing.lc = lc)
    refine ⟨?_, ?_, fun g hg hactive => by simpa using State.preempt_slots hg hactive⟩
    · rw [h]
      exact s.swappedOut_out ctx lc
    · rw [h]
      rfl

/-! ### Dispatch (R62, R171) -/

/-- R62: the slot of a dispatched firing. -/
def State.dispatchedSlot (s : State) (core k : Nat) (x : Firing) : Slot :=
  { Slot.opened core k (x.dispatched s.timeBase s.cycle 0) (s.dispatchRegs x k) with
    wait := x.gate, opening := decide (x.gate ≠ .none) }

theorem State.dispatch_of_single {s : State} {x : Firing} (h : x.dual = false) (core k : Nat) :
    s.dispatch core k x = (State.addSlot { s with ready := s.ready.erase x } (s.dispatchedSlot core k x)).queueExcl
      (s.dispatchedSlot core k x) := by
  unfold State.dispatch
  dsimp only
  rw [if_neg (by simp [h])]
  rfl

theorem State.addSlot_eq (s : State) (f : Slot) : ∃ g o, s.addSlot f = { s with focus := g, others := o } := by
  unfold State.addSlot
  split
  · exact ⟨_, _, rfl⟩
  · exact ⟨_, _, rfl⟩

/-- R62, R171: what a free slot takes. -/
theorem firingDispatch_dispatches {s : State} {core k : Nat} {x : Firing} (hbest : s.bestReady core = some x)
    (hfree : s.slotFree core k = true) (hdual : x.dual = false) : Leads (.firingDispatch core k) s fun t =>
      t.ready = s.ready.erase x ∧ t.mem = s.mem ∧ t.slotAt core k = some (s.dispatchedSlot core k x) := by
  have hnone : s.slotAt core k = none := by
    simp only [State.slotFree, Bool.and_eq_true, Option.isNone_iff_eq_none] at hfree
    exact hfree.1.1.2
  refine ⟨s.dispatch core k x, ?_, ?_⟩
  · change execFiringDispatch core k s = _
    simp [execFiringDispatch, hbest, hfree, hdual]
  · rw [State.dispatch_of_single hdual]
    refine ⟨?_, ?_, ?_⟩
    · obtain ⟨g, o, h⟩ := State.addSlot_eq { s with ready := s.ready.erase x } (s.dispatchedSlot core k x)
      rw [State.queueExcl_eq, h]
    · obtain ⟨g, o, h⟩ := State.addSlot_eq { s with ready := s.ready.erase x } (s.dispatchedSlot core k x)
      rw [State.queueExcl_eq, h]
    · rw [State.slotAt_queueExcl]
      exact State.slotAt_addSlot hnone (by simp [Slot.at, State.dispatchedSlot, Slot.opened])

section
variable {s : State} {core k : Nat} {x : Firing}

theorem State.dispatchedSlot_resumes {r : Regs} (h : x.resume = some r) : (s.dispatchedSlot core k x).reg = r := by
  simp [State.dispatchedSlot, Slot.opened, State.dispatchRegs, h]

variable (h : x.resume = none)
include h

/-- R62: the pc, the flags and the other state of a first dispatch. -/
theorem State.dispatchedSlot_pc : (s.dispatchedSlot core k x).reg.pc
      = (if x.ch = 63 then x.entry else ((s.lcOf x.ctx x.lc).ttOf x.ch).entry)
    ∧ (s.dispatchedSlot core k x).reg.flags = 0 ∧ (s.dispatchedSlot core k x).reg.frm = 0
    ∧ (s.dispatchedSlot core k x).reg.srcnt = 0 ∧ (s.dispatchedSlot core k x).reg.ctxsel = 0 := by
  simp [State.dispatchedSlot, Slot.opened, State.dispatchRegs, h]

/-- R62: the g registers of a first dispatch. -/
theorem State.dispatchedSlot_gr (r : BitVec 5) : (s.dispatchedSlot core k x).gr r
    = if r = 0 then 0 else if r = 30 then BitVec.ofNat 64 (0xFFFF0000000000 + (s.lcOf x.ctx x.lc).lsz - 4096 * k)
      else if r = 2 then BitVec.ofNat 64 x.ch else if r = 1 then BitVec.ofNat 64 x.np else 0 := by
  have hnat : ∀ n : BitVec 5, (n.toNat = r.toNat) = (r = n) := fun n => propext (BitVec.toNat_inj.trans eq_comm)
  have h1 := hnat 1
  have h2 := hnat 2
  have h30 := hnat 30
  simp only [BitVec.reduceToNat] at h1 h2 h30
  simp only [Slot.gr, State.dispatchedSlot, Slot.opened, State.dispatchRegs, h, Vector.getElem_set, Vector.getElem_replicate,
    h1, h2, h30]

theorem State.dispatchedSlot_vr (r : BitVec 5) : (s.dispatchedSlot core k x).vr r
    = if r = 0 then s.payloadReg x else Vector.replicate 32 0 := by
  have h0 : (0 = r.toNat) = (r = 0) := propext ((BitVec.toNat_inj (x := 0#5)).trans eq_comm)
  simp only [Slot.vr, State.dispatchedSlot, Slot.opened, State.dispatchRegs, h, Vector.getElem_set, Vector.getElem_replicate, h0]

theorem State.dispatchedSlot_mr {r : BitVec 3} (hr : r ≠ 0) : (s.dispatchedSlot core k x).mr r = 0 := by
  rw [Slot.mr, if_neg hr]
  simp [State.dispatchedSlot, Slot.opened, State.dispatchRegs, h]

end

/-- R62: the payload of the first message, lane by lane. -/
theorem State.payloadReg_lane {s : State} {x : Firing} {m : MsgRef} (h : x.prim.head? = some m) (j : Nat) (hj : j < 32) :
    (s.payloadReg x)[j] = if j < 16 then BitVec.ofNat 32 (leNat (cellReadList s.mem
      (scratchKey x.ctx (if x.isGang then 8 * (x.lc / 8) else x.lc) (m.off + 16 + 4 * j)) 4)) else 0 := by
  obtain ⟨l, hl⟩ := List.head?_eq_some_iff.1 h
  simp [State.payloadReg, hl, vecOf, cellNat, Firing.msgHome]

/-! ### ABORT (R232) -/

/-- R170, R173: freeing messages changes contexts, whose digests stay, and gang records. -/
theorem State.freeMessages_eq (s : State) (x : Firing) : ∃ c g, s.freeMessages x = { s with ctxs := c, gangs := g }
    ∧ ∀ j, ((s.freeMessages x).ctxOf j).digest = (s.ctxOf j).digest := by
  have hset : ∀ (l : LCore) (j : Nat), ((s.setLc x.ctx l).ctxOf j).digest = (s.ctxOf j).digest := fun l j => by
    rw [State.ctxOf_setLc]
    split
    case isTrue h => rw [h]; rfl
    case isFalse => rfl
  unfold State.freeMessages
  split
  · dsimp only
    split
    · exact ⟨_, _, rfl, hset _⟩
    · exact ⟨_, _, rfl, fun _ => rfl⟩
  · exact ⟨_, _, rfl, hset _⟩

/-- R80, R402: what the end of a firing changes; a shadow's copy changes nothing. -/
theorem State.endFiring_eq (s : State) (x : Firing) : ∃ c g n, s.endFiring x = { s with ctxs := c, gangs := g, net := n }
    ∧ (x.copy = 0 → ((s.endFiring x).ctxOf x.ctx).digest = (s.ctxOf x.ctx).digest + mix64 (mix64 x.fid ^^^ x.digest)) := by
  obtain ⟨c, g, hfree, hdigest⟩ := (s.foldDigest x).freeMessages_eq x
  have hfold : ((s.foldDigest x).ctxOf x.ctx).digest = (s.ctxOf x.ctx).digest + mix64 (mix64 x.fid ^^^ x.digest) := by
    unfold State.foldDigest
    dsimp only
    rw [State.ctxOf_setCtx_eq s (by exact s.ctxOf_id x.ctx), if_pos rfl]
  by_cases hcopy : x.copy = 0
  · have hpost : ∃ n, s.endFiring x = { (s.foldDigest x).freeMessages x with net := n } := by
      unfold State.endFiring
      rw [if_neg (by simp [hcopy])]
      dsimp only
      split
      · split
        · exact ⟨_, rfl⟩
        · exact ⟨_, rfl⟩
      · exact ⟨_, rfl⟩
    obtain ⟨n, hn⟩ := hpost
    refine ⟨c, g, n, by rw [hn, hfree]; rfl, fun _ => ?_⟩
    rw [hn]
    exact (hdigest x.ctx).trans hfold
  · exact ⟨_, _, _, if_pos hcopy, fun h => absurd h hcopy⟩

theorem State.freeSlot_eq (s : State) (f : Slot) : ∃ e q o, s.freeSlot f = { s with
    excl := e, exclQ := q, focus := if s.focus.at f.core f.k then s.focus.free else s.focus, others := o } :=
  ⟨_, _, _, rfl⟩

/-- R232, R354: the end of a firing frees its slot. -/
theorem State.freeBoth_outcome {s : State} (hactive : s.focus.active = true) :
    (s.freeBoth s.focus).focus = s.focus.free ∧ (s.freeBoth s.focus).mem = s.mem ∧ (s.freeBoth s.focus).host = s.host
      ∧ (s.freeBoth s.focus).ctxs = s.ctxs := by
  have hat : s.focus.at s.focus.core s.focus.k = true := Slot.at_iff.2 ⟨hactive, rfl, rfl⟩
  unfold State.freeBoth
  split
  · obtain ⟨e, q, o, h⟩ := s.freeSlot_eq s.focus
    rw [h, if_pos hat]
    exact ⟨rfl, rfl, rfl, rfl⟩
  · next g _ =>
    obtain ⟨c, hbox⟩ := s.cancelBox_eq g
    obtain ⟨e, q, o, h⟩ := (s.cancelBox g).freeSlot_eq g
    obtain ⟨e', q', o', h'⟩ := ((s.cancelBox g).freeSlot g).freeSlot_eq s.focus
    rw [h', h, hbox]
    refine ⟨?_, rfl, rfl, rfl⟩
    dsimp only
    by_cases hg : s.focus.at g.core g.k = true
    · rw [if_pos hg]
      exact ite_self s.focus.free
    · rw [if_neg hg, if_pos hat]

theorem abort_ends {s : State} {mark : Bool} {a : BitVec 5} (hmode : (s.focus.gr a).toNat % 2 = 1)
    (hactive : s.focus.active = true) : Leads (.abort mark a) s fun t =>
      t.focus = s.focus.free ∧ t.mem = s.mem ∧ t.host = s.host ∧ (t.ctxOf s.focus.firing.ctx).digest
        = (s.ctxOf s.focus.firing.ctx).digest + mix64 (mix64 s.focus.firing.fid ^^^ s.focus.firing.digest) := by
  obtain ⟨c, g, n, hend, hdigest⟩ := s.endFiring_eq { s.focus.firing with copy := 0 }
  have hfocus : (s.endFiring { s.focus.firing with copy := 0 }).focus = s.focus := by rw [hend]
  obtain ⟨hfree, hmem, hhost, hctxs⟩ := State.freeBoth_outcome (s := s.endFiring { s.focus.firing with copy := 0 })
    (by rw [hfocus]; exact hactive)
  rw [hfocus] at hfree hmem hhost hctxs
  have hbit : (s.focus.gr a).getLsbD 0 = true := by
    rw [← BitVec.testBit_toNat, Nat.testBit_zero, decide_eq_true_eq, hmode]
  refine ⟨_, if_pos hbit, hfree, hmem.trans (by rw [hend]), hhost.trans (by rw [hend]), ?_⟩
  rw [State.ctxOf_congr hctxs]
  exact hdigest rfl

/-- R232: ABORT in mode 0: the chunk is restored, and waits for a write to what it had read. -/
theorem abort_parks {s : State} {mark : Bool} {a : BitVec 5} (hmode : (s.focus.gr a).toNat % 2 = 0)
    (hdual : s.focus.firing.dual = false) : exec (.abort mark a) s = .next (s.withFocus (if s.focus.chunk.doomed
      then s.focus.restore else { s.focus.restore with wait := .watch s.focus.chunk.rset s.cycle })) := by
  have hbit : ¬ (s.focus.gr a).getLsbD 0 = true := by
    rw [← BitVec.testBit_toNat, Nat.testBit_zero, decide_eq_true_eq, hmode]
    exact Nat.zero_ne_one
  refine (if_neg hbit).trans ?_
  rw [State.abortOther, State.partner_of_single hdual]

/-! ### The obligation -/

/-- Settles O52, each clause by the lemma that says what its step leaves. -/
theorem firingAndChunkSteps : Obligations.FiringAndChunkSteps := by
  intro core k ctx lc ch n mark a s f c l e
  refine ⟨rfl, fun hmode hactive _ => abort_ends hmode hactive, fun hmode hdual => ?_, fun hmay hjoin => ?_,
    fun x hbest hfree hdual => ?_,
    fun x h hprio hmoved hvalid hin => firingAging_ages h hprio hmoved hvalid hin,
    fun hruns hvalid hmoving hstop hin hbusy => timeSliceEnd_swapsOut hruns hvalid hmoving hstop hin hbusy,
    fun g h hopen hglen hlimit => ?_, fun g h hdual hfree => chunkSquash_squashes h hdual hfree,
    fun g h hexcl hdoomed => chunkSquash_waits h hexcl hdoomed,
    fun p pre post g hexcl hq hpre hp hmin => execGrant_first hexcl hq (fun q hq => State.not_grantable (hpre q hq)) ?_,
    fun g hexcl h hord hmin => execGrant_lapses hexcl h hord hmin,
    fun g set since h hwait hover => abortWaitTimeout_wakes h hwait hover, fun g p h hfind => oncePosting_reaches h hfind⟩
  · have hparks := abort_parks (mark := mark) hmode hdual
    by_cases hdoomed : s.focus.chunk.doomed = true
    · rw [if_pos hdoomed] at hparks
      exact ⟨_, hparks, rfl, rfl, rfl, rfl, rfl, (if_pos hdoomed).symm⟩
    · rw [if_neg hdoomed] at hparks
      exact ⟨_, hparks, rfl, rfl, rfl, rfl, rfl, (if_neg hdoomed).symm⟩
  · obtain ⟨t, hexec, hready, hnew, hentry, hmem⟩ := firingCreate_creates hmay hjoin
    exact ⟨t, hexec, hready, hnew, by rw [hentry]; rfl, by rw [hentry]; exact TTEntry.fired_waiting _, hmem⟩
  · obtain ⟨t, hexec, hready, hmem, hslot⟩ := firingDispatch_dispatches hbest hfree hdual
    refine ⟨t, hexec, hready, hmem, _, hslot, rfl, rfl, rfl, rfl, rfl, rfl, ?_, fun r hr => State.dispatchedSlot_resumes hr,
      fun hresume => ?_⟩
    · simp [State.dispatchedSlot, Slot.opened, Firing.dispatched, State.timeBase]
    · obtain ⟨hpc, hflags, hfrm, hsrcnt, hctxsel⟩ := State.dispatchedSlot_pc (s := s) (core := core) (k := k) hresume
      refine ⟨hpc, ?_, ?_, ?_, fun r h1 h2 h30 => ?_, fun r hr => ?_, fun r hr => State.dispatchedSlot_mr hresume hr,
        fun m j hj hm => ?_, hflags, hfrm, hsrcnt, hctxsel⟩
      · rw [State.dispatchedSlot_gr hresume]; rfl
      · rw [State.dispatchedSlot_gr hresume]; rfl
      · rw [State.dispatchedSlot_gr hresume]; rfl
      · rw [State.dispatchedSlot_gr hresume, if_neg h30, if_neg h2, if_neg h1, ite_self]
      · rw [State.dispatchedSlot_vr hresume, if_neg hr]
      · simp only [State.dispatchedSlot_vr hresume, if_pos]
        exact State.payloadReg_lane hm j hj
  · obtain ⟨t, hexec, hslot⟩ := chunkClose_closes h hopen hglen hlimit
    exact ⟨t, hexec, _, hslot, rfl, rfl, rfl, rfl⟩
  · rw [State.grantable_eq hp]
    cases hord : g.firing.ordered with
    | false => rfl
    | true => exact hmin hord

end Sys2Proof.Machine
end

section
/-! SUPPORT. O54: what messages leave of FIFOs, inboxes and slots (R169, R179, R186, R280, R397), replies (R79, R80), reductions
(R351), sweeps (R358) and flush markers (R345). -/

namespace Sys2Proof.Machine

/-! ### The slots that a write touches (R200) -/

theorem Slot.touched_at (f : Slot) (w : List Loc) (p : Slot → Bool) (core k : Nat) :
    (f.touched w p).at core k = f.at core k := by
  simp [Slot.at]

theorem State.slotAt_touch (s : State) (w : List Loc) (p : Slot → Bool) (core k : Nat) :
    (s.touch w p).slotAt core k = (s.slotAt core k).map (Slot.touched w p) := by
  have hslots : (s.touch w p).slots = s.slots.map (Slot.touched w p) := rfl
  rw [State.slotAt, hslots, List.find?_map]
  refine congrArg _ (congrArg (List.find? · s.slots) (funext fun f => ?_))
  exact f.touched_at w p core k

theorem State.partner_touch (s : State) (w : List Loc) (p : Slot → Bool) (f : Slot) :
    (s.touch w p).partner (f.touched w p) = (s.partner f).map (Slot.touched w p) := by
  have hslots : (s.touch w p).slots = s.slots.map (Slot.touched w p) := rfl
  simp only [State.partner, Slot.touched_firing]
  split
  · rw [hslots, List.find?_map]
    refine congrArg _ (congrArg (List.find? · s.slots) (funext fun g => ?_))
    simp
  · rfl

theorem State.readsWith_touch (s : State) (w : List Loc) (p : Slot → Bool) (f : Slot) :
    (s.touch w p).readsWith (f.touched w p) = s.readsWith f := by
  simp only [State.readsWith, Slot.touched_rset, State.partner_touch, Option.map_map]
  congr 3
  funext g
  simp

/-- R200: the reads of the slots, and with them what bytes are free to be written, are no matter of what a write touches. -/
theorem State.freeToWrite_touch {s : State} {w : List Loc} {p : Slot → Bool} {key n : Nat} (h : s.freeToWrite key n) :
    (s.touch w p).freeToWrite key n := by
  intro q f hexcl hat j hj
  rw [State.slotAt_touch] at hat
  obtain ⟨g, hg, rfl⟩ := Option.map_eq_some_iff.1 hat
  rw [State.readsWith_touch]
  exact h q g hexcl hg j hj

theorem State.freeToWrite_congr {s t : State} (hfocus : t.focus = s.focus) (hothers : t.others = s.others)
    (hexcl : t.excl = s.excl) {key n : Nat} (h : s.freeToWrite key n) : t.freeToWrite key n := by
  have hslots : t.slots = s.slots := by rw [State.slots, hfocus, hothers, State.slots]
  intro q f he hat j hj
  have := h q f (hexcl ▸ he) (by rw [State.slotAt, ← hslots]; exact hat) j hj
  rwa [State.readsWith, State.partner, hslots, ← State.partner, ← State.readsWith]

/-- R200: a write by hardware to bytes that are free need not wait. -/
theorem State.exclBlocks_of_free {s : State} {key n : Nat} (h : s.freeToWrite key n) :
    s.exclBlocks none ((List.range n).map (key + ·)) = false := by
  unfold State.exclBlocks State.exclMeets
  cases hholder : s.exclHolder with
  | none => rfl
  | some f =>
    have hf : ∃ p, s.excl = some p ∧ s.slotAt p.1 p.2 = some f := by
      unfold State.exclHolder at hholder
      split at hholder
      · cases hholder
      · next p hp =>
        split at hholder
        · cases hholder
        · next g hg =>
          split at hholder
          · cases hholder
          · cases hholder
            exact ⟨p, hp, hg⟩
    obtain ⟨p, hp, hat⟩ := hf
    simp only [Bool.not_false, Bool.true_and, List.any_eq_false, List.mem_map, decide_eq_true_eq]
    rintro _ ⟨_, ⟨j, hj, rfl⟩, rfl⟩
    exact h p f hp hat j (List.mem_range.1 hj)

/-! ### FIFO slots (R168, R169) -/

theorem Msg.slotBytes_length {m : Msg} (h : m.payload.length ≤ 64) : m.slotBytes.length = 128 := by
  simp [Msg.slotBytes]
  omega

/-- R169: the bytes of a FIFO slot, each part at its place. -/
theorem Msg.slotHolds_slotBytes {m : Msg} (h : m.payload.length ≤ 64) : slotHolds m fun j => m.slotBytes.getD j 0 := by
  have hsplit : m.slotBytes = leBytes 8 m.hdr.toNat ++ (leBytes 8 m.ts.toNat ++ (m.payload ++ (List.replicate (64 - m.payload.length) 0
      ++ (leBytes 4 (if m.ord then m.seq else 0) ++ List.replicate 44 0)))) := by simp [Msg.slotBytes]
  simp only [slotHolds, hsplit, List.getD_eq_getElem?_getD, List.getElem?_append, leBytes_length,
    List.length_replicate, List.getElem?_replicate]
  refine ⟨fun j hj => ?_, fun j hj => ?_, fun j hj => ?_, fun j hj => ?_, fun j hj hj' => ?_⟩
  · rw [if_pos hj]
  · rw [if_neg (by omega), if_pos (by omega), Nat.add_sub_cancel_left]
  · rw [if_neg (by omega), if_neg (by omega), show 16 + j - 8 - 8 = j by omega]
    by_cases hp : j < m.payload.length
    · rw [if_pos hp]
    · rw [if_neg hp, if_pos (by omega), if_pos (by omega), List.getElem?_eq_none (by omega)]
      rfl
  · rw [if_neg (by omega), if_neg (by omega), if_neg (by omega), if_neg (by omega), if_pos (by omega)]
    congr 2
    omega
  · rw [if_neg (by omega), if_neg (by omega), if_neg (by omega), if_neg (by omega), if_neg (by omega), if_pos (by omega)]
    rfl

/-- R169: a FIFO slot is 128 bytes. -/
theorem slotHolds_congr {m : Msg} {a b : Nat → Byte} (hab : ∀ j, j < 128 → a j = b j) (h : slotHolds m a) : slotHolds m b := by
  obtain ⟨hhdr, hts, hpayload, hseq, hrest⟩ := h
  exact ⟨fun j hj => hab j (by omega) ▸ hhdr j hj, fun j hj => hab (8 + j) (by omega) ▸ hts j hj,
    fun j hj => hab (16 + j) (by omega) ▸ hpayload j hj, fun j hj => hab (80 + j) (by omega) ▸ hseq j hj,
    fun j hj hj' => hab j hj' ▸ hrest j hj hj'⟩

/-- R188: one Apply step by hardware: a write of M, and what it touches. -/
theorem State.applyWith_eq (s : State) (attr : Nat → Attr) (k : Nat) (l : List Byte) :
    s.applyWith attr k l = (s.onMemory (s.logWrite attr (cellsAt k l))).touch ((cellsAt k l).map fun c => .byte c.1)
      fun _ => true := by
  unfold State.applyWith
  dsimp only
  rw [range_map_getD_eq_cellsAt, ← State.logWrite_onMemory]

/-- R162, R188: beyond DRAM it puts its bytes into M. -/
theorem State.applyWith_beyond_mem {k : Nat} (hk : 2 ^ 39 ≤ k) (s : State) (attr : Nat → Attr) (l : List Byte) :
    (s.applyWith attr k l).mem = cellWriteList s.mem k l := by
  rw [State.applyWith_eq, ← cellWriteAll_cellsAt]
  exact (State.logWrite_beyond fun c hc => hk.trans (le_of_mem_cellsAt hc).1).1

/-- R169: a logical core whose FIFO has taken a message. -/
def LCore.takes (l : LCore) (m : Msg) : LCore :=
  { l.setTt m.ch { l.ttOf m.ch with q := (l.ttOf m.ch).q ++ [⟨.queued, m⟩] } with recv := l.recv + 1 }

/-- R169: what a message that enters its FIFO leaves. -/
theorem State.enqueue_outcome (s : State) (m : Msg) :
    let t := s.enqueue m
    t.net = s.net ∧ t.host = s.host ∧ t.mem = cellWriteList s.mem (s.slotKey m) m.slotBytes ∧ t.susp = s.susp
      ∧ ∀ j, t.ctxOf j = if j = m.ctx then (s.ctxOf j).setLc ((s.lcOf m.ctx m.dst).takes m) else s.ctxOf j := by
  intro t
  have ht : t = (s.setLc m.ctx ((s.lcOf m.ctx m.dst).takes m)).applyBytes (s.slotKey m) m.slotBytes := rfl
  have hkey : 2 ^ 39 ≤ s.slotKey m := by
    unfold State.slotKey scratchKey
    dsimp only
    omega
  have hmem := State.applyWith_beyond_mem hkey (s.setLc m.ctx ((s.lcOf m.ctx m.dst).takes m))
    (State.ownAttr (s.setLc m.ctx ((s.lcOf m.ctx m.dst).takes m))) m.slotBytes
  rw [← State.applyBytes, ← ht] at hmem
  rw [State.applyBytes, State.applyWith_eq] at ht
  refine ⟨by rw [ht]; rfl, by rw [ht]; rfl, hmem, by rw [ht]; rfl, fun j => ?_⟩
  rw [State.ctxOf_congr (s := s.setLc m.ctx ((s.lcOf m.ctx m.dst).takes m)) (by rw [ht]; rfl), State.ctxOf_setLc]
  split
  case isTrue h => rw [h]
  case isFalse => rfl

theorem State.enqueue_free {s : State} {m : Msg} {key n : Nat} (h : s.freeToWrite key n) : (s.enqueue m).freeToWrite key n := by
  change (State.applyWith (s.setLc m.ctx ((s.lcOf m.ctx m.dst).takes m)) _ (s.slotKey m) m.slotBytes).freeToWrite key n
  rw [State.applyWith_eq]
  exact State.freeToWrite_touch (State.freeToWrite_congr (by rfl) (by rfl) (by rfl) h)

@[simp] theorem LCore.takes_n (l : LCore) (m : Msg) : (l.takes m).n = l.n := rfl

theorem LCore.takes_q (l : LCore) (m : Msg) : ((l.takes m).ttOf m.ch).q = (l.ttOf m.ch).q ++ [⟨.queued, m⟩] := by
  have : (l.takes m).ttOf m.ch = _ := LCore.ttOf_setTt l m.ch m.ch _
  rw [this, if_pos rfl]

/-! ### The Deliver step (R186) -/

/-- R358: counting an ordered message changes one counter of its context. -/
theorem State.countOrdRecv_eq (s : State) (m : Msg) : ∃ n, s.countOrdRecv m = { s with ctxs := n }
    ∧ ∀ j, (s.countOrdRecv m).ctxOf j = { s.ctxOf j with ordRecv := ((s.countOrdRecv m).ctxOf j).ordRecv } := by
  unfold State.countOrdRecv
  split
  · refine ⟨_, rfl, fun j => ?_⟩
    dsimp only
    have hset := State.ctxOf_setCtx_eq s (c := { s.ctxOf m.ctx with ordRecv := (s.ctxOf m.ctx).ordRecv + 1 }) (s.ctxOf_id m.ctx) j
    rw [hset]
    split
    case isTrue h => rw [h]
    case isFalse => rfl
  · exact ⟨_, rfl, fun j => rfl⟩

/-- R327: of the messages it is only a hurdle's exit that means something to a record. -/
theorem State.hsDelivered_of_not_exit {s : State} {m : Msg} (h : ∀ a b c d, m.kind ≠ .hsExit a b c d) : s.hsDelivered m = s := by
  unfold State.hsDelivered
  split
  · next hk => exact absurd hk (h _ _ _ _)
  · rfl

/-- R169, R186: a message whose FIFO has room enters it. -/
theorem State.deliverAt_write {s : State} {m : Msg} (hkind : ∀ a b c d, m.kind ≠ .hsExit a b c d) (hfate : s.fate m = .write)
    (hfree : s.freeToWrite (s.slotKey m) 128) (fresh : Bool) :
    s.deliverAt m fresh = some (if fresh then (s.enqueue m).countOrdRecv m else s.enqueue m) := by
  unfold State.deliverAt
  rw [hfate]
  dsimp only
  rw [State.exclBlocks_of_free (State.enqueue_free hfree), if_neg Bool.false_ne_true, State.hsDelivered_of_not_exit hkind]

/-- A state without message i. -/
def State.without (s : State) (i : Nat) : State := { s with net := dropAt s.net i }

@[simp] theorem State.without_net (s : State) (i : Nat) : (s.without i).net = dropAt s.net i := rfl
@[simp] theorem State.without_host (s : State) (i : Nat) : (s.without i).host = s.host := rfl
@[simp] theorem State.without_mem (s : State) (i : Nat) : (s.without i).mem = s.mem := rfl
@[simp] theorem State.without_ctxOf (s : State) (i j : Nat) : (s.without i).ctxOf j = s.ctxOf j := rfl
@[simp] theorem State.without_lcOf (s : State) (i j n : Nat) : (s.without i).lcOf j n = s.lcOf j n := rfl
@[simp] theorem State.without_slotKey (s : State) (i : Nat) (m : Msg) : (s.without i).slotKey m = s.slotKey m := by
  simp only [State.slotKey, State.without_lcOf]

/-- R186: a message that nothing keeps back meets its channel. -/
theorem State.deliverPlain_of_clear {s : State} {m : Msg} (hrun : (s.ctxOf m.ctx).halted = false)
    (hdef : (s.ctxOf m.ctx).defines m.dst = true) (hin : (s.lcOf m.ctx m.dst).out = false)
    (hfence : s.fencedCore (s.lcOf m.ctx m.dst).pcore = false) (hmove : (s.lcOf m.ctx m.dst).moving = false)
    (hrelay : s.relayClear m = true) (hinbox : (s.ctxOf m.ctx).inboxHolds m.dst = false) :
    s.deliverPlain m = s.deliverAt m true := by
  simp only [State.lcOf] at hin hfence hmove
  simp [State.deliverPlain, hrun, hdef, hin, hfence, hmove, hrelay, hinbox]

theorem State.deliverBy_of_mayDeliver {s : State} {i : Nat} {m : Msg} (hi : s.net[i]? = some m) (hmay : s.mayDeliver i m)
    (hlike : m.toFifo = true) : s.deliverBy i Msg.toFifo State.deliverMsg
      = (((s.without i).deliverAt m true).map fun t => t.redDelivered m).getD s := by
  obtain ⟨hrun, hdef, hin, hfence, hmove, hrelay, hinbox, hbehind⟩ := hmay
  have hplain := State.deliverPlain_of_clear (s := s.without i) hrun hdef hin hfence hmove hrelay hinbox
  unfold State.deliverBy
  rw [hi]
  dsimp only
  rw [if_neg (by simp [hlike, hbehind]), State.deliverMsg, ← hplain]
  rfl

/-- R186: the Deliver step of a message for a FIFO that is no reply. -/
theorem execMessageDeliver_of_fifo {s : State} {i : Nat} {m : Msg} (hi : s.net[i]? = some m) (hlike : m.toFifo = true)
    (hreply : m.isReply = false) : exec (.messageDeliver i) s = .next (s.deliverBy i Msg.toFifo State.deliverMsg) := by
  have hwalk : m.isWalk = false := Bool.eq_false_iff.2 fun h => by
    have hk : m.kind = .tlbRequest := of_decide_eq_true h
    simp [Msg.toFifo, hk] at hlike
  have hred : m.isRed = false := by
    unfold Msg.isRed
    split
    · next hk => simp [Msg.toFifo, hk] at hlike
    · rfl
  change execMessageDeliver i s = _
  rw [execMessageDeliver, hi]
  simp [hwalk, hred, hreply]

/-! ### Delivery into a FIFO -/

theorem State.countOrdRecv_lcOf (s : State) (m : Msg) (j n : Nat) : (s.countOrdRecv m).lcOf j n = s.lcOf j n := by
  obtain ⟨-, -, h⟩ := s.countOrdRecv_eq m
  rw [State.lcOf, h]
  rfl

theorem State.redDelivered_of_not_result {s : State} {m : Msg} (h : ∀ g n, m.kind ≠ .redResult g n) : s.redDelivered m = s := by
  unfold State.redDelivered
  split
  · next hk => exact absurd hk (h _ _)
  · rfl

/-- R186: the state in which a message lies in its FIFO and is counted. -/
def State.received (s : State) (i : Nat) (m : Msg) : State := ((s.without i).enqueue m).countOrdRecv m

theorem State.enqueue_q (s : State) (m : Msg) : (((s.enqueue m).lcOf m.ctx m.dst).ttOf m.ch).q
    = ((s.lcOf m.ctx m.dst).ttOf m.ch).q ++ [⟨.queued, m⟩] := by
  obtain ⟨-, -, -, -, hctx⟩ := s.enqueue_outcome m
  rw [State.lcOf, hctx, if_pos rfl, Ctx.lcOf_setLc_eq, if_pos (by rw [LCore.takes_n, State.lcOf, Ctx.lcOf_n])]
  exact LCore.takes_q _ m

theorem State.received_outcome (s : State) (i : Nat) (m : Msg) :
    let t := s.received i m
    t.net = dropAt s.net i ∧ t.host = s.host ∧ t.mem = cellWriteList s.mem (s.slotKey m) m.slotBytes
      ∧ ((t.lcOf m.ctx m.dst).ttOf m.ch).q = ((s.lcOf m.ctx m.dst).ttOf m.ch).q ++ [⟨.queued, m⟩]
      ∧ (t.ctxOf m.ctx).reds = (s.ctxOf m.ctx).reds := by
  obtain ⟨hnet, hhost, hmem, -, hctx⟩ := (s.without i).enqueue_outcome m
  have hq := (s.without i).enqueue_q m
  simp only [State.without_net, State.without_host, State.without_mem, State.without_ctxOf, State.without_lcOf,
    State.without_slotKey] at hnet hhost hmem hctx hq
  obtain ⟨n, hcounted, hcount⟩ := ((s.without i).enqueue m).countOrdRecv_eq m
  unfold State.received
  refine ⟨?_, ?_, ?_, ?_, ?_⟩
  · rw [hcounted, ← hnet]
  · rw [hcounted, ← hhost]
  · rw [hcounted, ← hmem]
  · rw [State.countOrdRecv_lcOf, hq]
  · rw [hcount, hctx, if_pos rfl]
    rfl

/-- R350: a round whose result is delivered counts as delivered; its logical cores stay as they are. -/
theorem State.redDelivered_result {s : State} {m : Msg} {gr n : Nat} (h : m.kind = .redResult gr n) :
    (s.redDelivered m).net = s.net ∧ (∀ k, (s.redDelivered m).lcOf m.ctx k = s.lcOf m.ctx k)
      ∧ ((s.redDelivered m).ctxOf m.ctx).redOf gr = { (s.ctxOf m.ctx).redOf gr with
        rounds := max ((s.ctxOf m.ctx).redOf gr).rounds (n + 1)
        got := ((s.ctxOf m.ctx).redOf gr).got.filter fun x => x.1 ≠ n } := by
  unfold State.redDelivered State.lcOf
  rw [h]
  dsimp only
  rw [State.ctxOf_setCtx_eq s (by exact s.ctxOf_id m.ctx), if_pos rfl]
  exact ⟨rfl, fun _ => rfl, (lookupD_setKey _ _ _ _ _).trans (if_pos rfl)⟩

section
variable {s : State} {i : Nat} {m : Msg} (hi : s.net[i]? = some m) (hmay : s.mayDeliver i m)
include hi hmay

/-- R169, R186: a message that nothing keeps back and whose FIFO has room enters it. -/
theorem messageDeliver_of_write (hlike : m.toFifo = true) (hkind : ∀ a b c d, m.kind ≠ .hsExit a b c d)
    (hreply : m.isReply = false) (hfate : s.fate m = .write) (hfree : s.freeToWrite (s.slotKey m) 128) :
    exec (.messageDeliver i) s = .next ((s.received i m).redDelivered m) := by
  have hwrite := State.deliverAt_write (s := s.without i) hkind hfate hfree true
  rw [execMessageDeliver_of_fifo hi hlike hreply, State.deliverBy_of_mayDeliver hi hmay hlike, hwrite]
  rfl

/-- R169: one whose FIFO is full stays. -/
theorem messageDeliver_of_wait (hlike : m.toFifo = true) (hreply : m.isReply = false) (hfate : s.fate m = .wait) :
    exec (.messageDeliver i) s = .next s := by
  have hnone : (s.without i).deliverAt m true = none := by
    unfold State.deliverAt
    rw [show (s.without i).fate m = .wait from hfate]
  rw [execMessageDeliver_of_fifo hi hlike hreply, State.deliverBy_of_mayDeliver hi hmay hlike, hnone]
  rfl

theorem messageDeliver_queues (hkind : m.kind = .send) (hreply : m.isReply = false) (hfate : s.fate m = .write)
    (hfree : s.freeToWrite (s.slotKey m) 128) (hlen : m.payload.length ≤ 64) (hwf : Memory.wf s.mem = true) :
    Leads (.messageDeliver i) s fun t => t.net = dropAt s.net i ∧ t.host = s.host
      ∧ ((t.lcOf m.ctx m.dst).ttOf m.ch).q = ((s.lcOf m.ctx m.dst).ttOf m.ch).q ++ [⟨.queued, m⟩]
      ∧ slotHolds m (fun j => cellRead t.mem (s.slotKey m + j))
      ∧ ∀ j, j < s.slotKey m ∨ s.slotKey m + 128 ≤ j → cellRead t.mem j = cellRead s.mem j := by
  have hexec := messageDeliver_of_write hi hmay (by rw [Msg.toFifo, hkind]) (by simp [hkind]) hreply hfate hfree
  rw [State.redDelivered_of_not_result (by simp [hkind])] at hexec
  obtain ⟨hnet, hhost, hmem, hq, -⟩ := s.received_outcome i m
  have hread : ∀ j, cellRead (s.received i m).mem j = if s.slotKey m ≤ j ∧ j < s.slotKey m + 128
      then m.slotBytes.getD (j - s.slotKey m) 0 else cellRead s.mem j := fun j => by
    rw [hmem, cellRead_cellWriteList _ _ _ _ hwf, Msg.slotBytes_length hlen]
  refine ⟨_, hexec, hnet, hhost, hq, ?_, fun j hj => ?_⟩
  · refine slotHolds_congr (fun j hj => ?_) (Msg.slotHolds_slotBytes hlen)
    rw [hread, if_pos ⟨Nat.le_add_right _ _, Nat.add_lt_add_left hj _⟩, Nat.add_sub_cancel_left]
  · rw [hread, if_neg (by omega)]

/-- R350: the delivery of a round's result. -/
theorem messageDeliver_result {gr n : Nat} (hkind : m.kind = .redResult gr n) (hfate : s.fate m = .write)
    (hfree : s.freeToWrite (s.slotKey m) 128) : Leads (.messageDeliver i) s fun t => t.net = dropAt s.net i
      ∧ ((t.ctxOf m.ctx).redOf gr).rounds = max ((s.ctxOf m.ctx).redOf gr).rounds (n + 1)
      ∧ ((t.lcOf m.ctx m.dst).ttOf m.ch).q = ((s.lcOf m.ctx m.dst).ttOf m.ch).q ++ [⟨.queued, m⟩] := by
  have hexec := messageDeliver_of_write hi hmay (by rw [Msg.toFifo, hkind]) (by simp [hkind]) (by simp [Msg.isReply, hkind])
    hfate hfree
  obtain ⟨hnet, -, -, hq, hreds⟩ := s.received_outcome i m
  obtain ⟨hnet', hlc, hred⟩ := State.redDelivered_result (s := s.received i m) hkind
  refine ⟨_, hexec, hnet'.trans hnet, ?_, by rw [hlc, hq]⟩
  rw [hred]
  simp only [Ctx.redOf, hreds]

end

/-! ### Replies (R79, R80) -/

/-- The messages under way are no matter of what memory is read. -/
def State.withNet (s : State) (n : List Msg) : State := { s with net := n }

theorem State.charge_withNet (s : State) (n : List Msg) (ctx cluster k : Nat) :
    (s.withNet n).charge ctx cluster k = (s.charge ctx cluster k).withNet n := by
  unfold State.charge
  split <;> rfl

theorem State.fillMissing_withNet (s : State) (n : List Msg) (attr : Nat → Attr) (keys : List Nat) :
    (s.withNet n).fillMissing attr keys = (s.fillMissing attr keys).withNet n := by
  rw [State.fillMissing_onMemory s]
  exact State.onMemory_fillMissing (s.withNet n) s attr keys

theorem State.deviceRead_withNet (s : State) (n : List Msg) (ctx cluster : Nat) (keys : List Nat) :
    (s.withNet n).deviceRead ctx cluster keys = (s.deviceRead ctx cluster keys).withNet n := by
  unfold State.deviceRead State.chargeBursts
  have hown : (s.withNet n).ownAttr = s.ownAttr := rfl
  rw [hown, State.fillMissing_withNet, ← State.charge_withNet, ← State.charge_withNet]
  rfl

theorem State.spanKeys_congr {s t : State} (hctxs : t.ctxs = s.ctxs) (hmem : t.mem = s.mem) (hmigs : t.migs = s.migs)
    (ctx : Nat) (va : Word) (n : Nat) (grants : TlbEntry → Bool) : t.spanKeys ctx va n grants = s.spanKeys ctx va n grants := by
  have hhome : ∀ k, t.home k = s.home k := fun k => by simp only [State.home, hmigs]
  unfold State.spanKeys
  simp only [State.walk_congr hctxs hmem hmigs, hhome]

@[simp] theorem State.spanKeys_withNet (s : State) (l : List Msg) (ctx : Nat) (va : Word) (n : Nat) (grants : TlbEntry → Bool) :
    (s.withNet l).spanKeys ctx va n grants = s.spanKeys ctx va n grants :=
  State.spanKeys_congr rfl rfl rfl ctx va n grants

theorem State.readSpan_withNet (s : State) (n : List Msg) (cluster ctx : Nat) (va : Word) (k : Nat) :
    (s.withNet n).readSpan cluster ctx va k = (s.readSpan cluster ctx va k).withNet n := by
  unfold State.readSpan
  rw [State.spanKeys_withNet]
  cases s.spanKeys ctx va k fun _ => true with
  | none => rfl
  | some keys => exact s.deviceRead_withNet n ctx cluster keys

/-- R379, R408: what the hardware's read of a span changes: memory, and charges. -/
theorem State.readSpan_charged (s : State) (cluster ctx : Nat) (va : Word) (k : Nat) :
    ∃ m, (s.onMemory m).Charged (s.readSpan cluster ctx va k) := by
  unfold State.readSpan
  cases s.spanKeys ctx va k fun _ => true with
  | none => exact ⟨s, .refl s⟩
  | some keys =>
    refine ⟨s.fillMissing s.ownAttr keys, ?_⟩
    rw [← State.fillMissing_onMemory]
    exact (State.chargeBursts_charged _ _ _ _).trans (State.charge_charged _ _ _ _)

/-- R394: a freed block is no matter of anything else of its logical core. -/
theorem State.setBlocks_lcOf (s : State) (x : Firing) (l : List Nat) :
    (s.setBlocks x l).lcOf x.ctx x.lc = { s.lcOf x.ctx x.lc with trapBlocks := l } := by
  rw [State.setBlocks, State.lcOf_setLc, if_pos ⟨rfl, (Ctx.lcOf_n _ _).symm⟩]

/-- R79: the block that a reply names. -/
def Msg.csa (m : Msg) : Word := BitVec.ofNat 64 (leNat (m.payload.take 8))

section
variable {s : State} {i : Nat} {m : Msg} (hi : s.net[i]? = some m) (hreply : m.isReply = true) (hmay : s.mayDeliver i m)
include hi hreply hmay

/-- R79: a reply that nothing keeps back takes effect. -/
theorem trapReply_applies : exec (.trapReply i) s = .next ((s.without i).applyReply m) := by
  have hform : m.ch = 62 ∧ m.kind = .send := by
    simp only [Msg.isReply, Bool.and_eq_true, decide_eq_true_eq] at hreply
    exact ⟨hreply.1.1.1.1.1, hreply.1.1.1.1.2⟩
  obtain ⟨hch, hkind⟩ := hform
  have hat : (s.without i).deliverAt m true = some ((s.without i).applyReply m) := by
    have hfate : (s.without i).fate m = .reply := by simp [State.fate, hch, hreply]
    rw [State.deliverAt, hfate]
  have hby := State.deliverBy_of_mayDeliver hi hmay (by rw [Msg.toFifo, hkind])
  rw [hat, Option.map_some, Option.getD_some, State.redDelivered_of_not_result (by simp [hkind])] at hby
  change execTrapReply i s = _
  rw [execTrapReply, hi]
  dsimp only
  rw [if_pos hreply, hby]

variable {x : Susp} (hsusp : s.suspOf m.ctx m.dst m.csa = some x)
include hsusp

/-- R80: RESTART: the firing is ready from the block as M holds it. -/
theorem trapReply_restarts {b : List Byte} {u : State} (hcode : leNat ((m.payload.drop 8).take 1) = 1)
    (hu : s.readSpan (clusterIdOf (s.lcOf m.ctx m.dst).pcore) m.ctx m.csa 4480 = u) (hblock : u.readBlock m.ctx m.csa = some b) :
    Leads (.trapReply i) s fun t => t.net = dropAt s.net i ∧ t.mem = u.mem
      ∧ x ∉ t.susp ∧ ∃ y, t.ready = s.ready ++ [y] ∧ y.fid = x.firing.fid ∧ y.resume = some (regsOfBlock b x)
      ∧ y.prio = ((s.lcOf x.firing.ctx x.firing.lc).ttOf x.firing.ch).prio := by
  generalize hcsa : m.csa = csa at hsusp hblock hu
  have hread : (s.without i).readSpan (clusterIdOf (s.lcOf m.ctx m.dst).pcore) m.ctx csa 4480 = u.withNet (dropAt s.net i) := by
    rw [← hu]
    exact s.readSpan_withNet (dropAt s.net i) _ _ _ _
  have hblock' : (u.withNet (dropAt s.net i)).readBlock m.ctx csa = some b := by
    rw [← hblock, State.readBlock, State.spanKeys_withNet]
    rfl
  have happly : (s.without i).applyReply m = ((u.withNet (dropAt s.net i)).freeBlock x).restartFiring x b u.cycle := by
    have hsusp' : (s.without i).suspOf m.ctx m.dst csa = some x := hsusp
    have hcsa' : BitVec.ofNat 64 (leNat (m.payload.take 8)) = csa := hcsa
    simp only [State.applyReply, hcsa', hsusp', hcode, State.without_lcOf, hread, hblock']
    rfl
  obtain ⟨v, hcharged⟩ := s.readSpan_charged (clusterIdOf (s.lcOf m.ctx m.dst).pcore) m.ctx csa 4480
  rw [hu] at hcharged
  have hready : u.ready = s.ready := by rw [hcharged.rest]; rfl
  have hlc : ((u.withNet (dropAt s.net i)).freeBlock x).lcOf x.firing.ctx x.firing.lc
      = { s.lcOf x.firing.ctx x.firing.lc with
          trapBlocks := (s.lcOf x.firing.ctx x.firing.lc).trapBlocks.filter fun b => b ≠ x.block } := by
    refine (State.setBlocks_lcOf (u.withNet (dropAt s.net i)) x.firing _).trans ?_
    rw [show (u.withNet (dropAt s.net i)).lcOf x.firing.ctx x.firing.lc = s.lcOf x.firing.ctx x.firing.lc from
      hcharged.lcOf _ _]
  refine ⟨_, trapReply_applies hi hreply hmay, ?_⟩
  rw [happly]
  refine ⟨rfl, rfl, by simp [State.restartFiring], _, congrArg (· ++ _) hready, rfl, rfl, ?_⟩
  dsimp only
  rw [hlc]
  rfl

/-- R80: the reply that ends the firing. -/
theorem trapReply_ends (hcode : leNat ((m.payload.drop 8).take 1) = 2) : Leads (.trapReply i) s fun t =>
    x ∉ t.susp ∧ t.ready = s.ready ∧ t.mem = s.mem := by
  refine ⟨_, trapReply_applies hi hreply hmay, ?_⟩
  have hsusp' : (s.without i).suspOf m.ctx m.dst (BitVec.ofNat 64 (leNat (m.payload.take 8))) = some x := hsusp
  simp only [State.applyReply, hsusp', hcode]
  obtain ⟨c, g, n, hend, -⟩ := (State.freeBlock { s.without i with susp := (s.without i).susp.filter fun y => y ≠ x } x).endFiring_eq
    x.firing
  rw [hend]
  exact ⟨by simp [State.freeBlock], rfl, rfl⟩

/-- R80: the reply that halts the partition. -/
theorem trapReply_halts (hcode : leNat ((m.payload.drop 8).take 1) = 3) : Leads (.trapReply i) s fun t =>
    (t.ctxOf m.ctx).halted = true ∧ t.susp = s.susp := by
  refine ⟨_, trapReply_applies hi hreply hmay, ?_⟩
  have hsusp' : (s.without i).suspOf m.ctx m.dst (BitVec.ofNat 64 (leNat (m.payload.take 8))) = some x := hsusp
  simp only [State.applyReply, hsusp', hcode]
  obtain ⟨-, -, hsusp, -, hctx, -⟩ := (s.without i).gangStop_outcome m.ctx
  exact ⟨by rw [hctx], hsusp⟩

end

/-! ### What hardware's writes leave of M (R188, R379) -/

theorem cellRead_cellWriteAll_of_not_mem (l : List Host.Cell) : ∀ m : List Host.Cell, Memory.wf m = true → ∀ j,
    (∀ c ∈ l, c.1 ≠ j) → cellRead (cellWriteAll m l) j = cellRead m j := by
  induction l with
  | nil => exact fun _ _ _ _ => rfl
  | cons c l ih =>
    intro m h j hj
    refine (ih _ (Memory.wf_cellWrite m c.1 c.2 h) j fun d hd => hj d (List.mem_cons_of_mem c hd)).trans ?_
    rw [cellRead_cellWrite m c.1 j c.2 h, if_neg (hj c List.mem_cons_self).symm]

theorem State.applyWith_mem (s : State) (attr : Nat → Attr) (k : Nat) (l : List Byte) :
    ∃ keys, (s.applyWith attr k l).mem = ((s.markLines keys).writeMem attr (cellsAt k l)).mem :=
  ⟨_, by rw [State.applyWith_eq]; rfl⟩

section
variable {s : State} {attr : Nat → Attr} {k : Nat} {l : List Byte} (hwf : Memory.wf s.mem = true)
include hwf

/-- R188: M then holds the bytes written to present frames. -/
theorem State.applyWith_read_written (hpresent : ∀ j, j < l.length → frameAbsent (k + j) = false) {j : Nat} (hj : j < l.length) :
    cellRead (s.applyWith attr k l).mem (k + j) = l.getD j 0 := by
  have hall : (cellsAt k l).filter (fun c => !frameAbsent c.1) = cellsAt k l := List.filter_eq_self.2 fun c hc => by
    obtain ⟨hle, hlt⟩ := le_of_mem_cellsAt hc
    have := hpresent (c.1 - k) (by omega)
    rw [Nat.add_sub_cancel' hle] at this
    simp [this]
  obtain ⟨keys, hmem⟩ := s.applyWith_mem attr k l
  rw [hmem, State.writeMem_mem, hall, cellWriteAll_cellsAt, cellRead_cellWriteList _ _ _ _
    (State.beforeWrite_wf _ _ _ (by rw [State.markLines_mem]; exact hwf)), if_pos (by omega), Nat.add_sub_cancel_left]

/-- R379: a fill before the write may change the other bytes of its blocks of 512, and no more. -/
theorem State.applyWith_read_other {j : Nat} (hj : ∀ i, i < l.length → j / 512 ≠ (k + i) / 512) :
    cellRead (s.applyWith attr k l).mem j = cellRead s.mem j := by
  have hkeys : ∀ c ∈ (cellsAt k l).filter (fun c => !frameAbsent c.1), j / 512 ≠ c.1 / 512 := fun c hc => by
    obtain ⟨hle, hlt⟩ := le_of_mem_cellsAt (List.mem_filter.1 hc).1
    have := hj (c.1 - k) (by omega)
    rwa [Nat.add_sub_cancel' hle] at this
  obtain ⟨keys, hmem⟩ := s.applyWith_mem attr k l
  rw [hmem, State.writeMem_mem, cellRead_cellWriteAll_of_not_mem _ _
    (State.beforeWrite_wf _ _ _ (by rw [State.markLines_mem]; exact hwf)) _ fun c hc he => hkeys c hc (by rw [he]),
    State.beforeWrite_read _ _ _ _ (by rw [State.markLines_mem]; exact hwf) fun q hq => ?_, State.markLines_mem]
  obtain ⟨c, hc, rfl⟩ := List.mem_map.1 hq
  exact hkeys c hc

end

/-! ### The inbox (R395, R397) -/

/-- R397: a context whose inbox has taken a message. -/
def Ctx.inboxTakes (c : Ctx) (m : Msg) : Ctx := { c with inbox := c.inbox ++ [m], inRing := c.inRing ++ [true] }

/-- R395: the state in which the message stands in its slot of the save area. -/
def State.inboxStored (s : State) (m : Msg) : State :=
  (s.setCtx ((s.ctxOf m.ctx).inboxTakes m)).writeSave (s.ctxOf m.ctx) (0x1000 + 128 * (s.ctxOf m.ctx).inTail) m.slotBytes

theorem State.toInbox_of_room {s : State} {m : Msg} (h : (s.ctxOf m.ctx).inRing.length < (s.ctxOf m.ctx).inboxCap) :
    s.toInbox m = some (((s.inboxStored m).writeEnds m.ctx).countOrdRecv m) := if_pos h

theorem State.toInbox_of_full {s : State} {m : Msg} (h : (s.ctxOf m.ctx).inboxCap ≤ (s.ctxOf m.ctx).inRing.length) :
    s.toInbox m = none := if_neg (Nat.not_lt.2 h)

/-- R395: a write of a save area changes memory and touches slots. -/
theorem State.writeSave_eq (s : State) (c : Ctx) (off : Nat) (l : List Byte) :
    ∃ r w, s.writeSave c off l = (s.onMemory r).touch w fun _ => true := ⟨_, _, State.applyWith_eq _ _ _ _⟩

theorem State.writeEnds_eq (s : State) (ctx : Nat) : ∃ r w, s.writeEnds ctx = (s.onMemory r).touch w fun _ => true :=
  State.writeSave_eq _ _ _ _

theorem State.writeEnds_ctxOf (s : State) (ctx j : Nat) : (s.writeEnds ctx).ctxOf j = s.ctxOf j := by
  obtain ⟨r, w, h⟩ := s.writeEnds_eq ctx
  exact State.ctxOf_congr (by rw [h]; rfl) j

theorem State.inboxStored_ctxOf (s : State) (m : Msg) : (s.inboxStored m).ctxOf m.ctx = (s.ctxOf m.ctx).inboxTakes m := by
  obtain ⟨r, w, h⟩ := State.writeSave_eq (s.setCtx ((s.ctxOf m.ctx).inboxTakes m)) (s.ctxOf m.ctx)
    (0x1000 + 128 * (s.ctxOf m.ctx).inTail) m.slotBytes
  rw [State.ctxOf_congr (s := s.setCtx ((s.ctxOf m.ctx).inboxTakes m)) (by rw [State.inboxStored, h]; rfl) m.ctx,
    State.ctxOf_setCtx_eq s (c := (s.ctxOf m.ctx).inboxTakes m) (s.ctxOf_id m.ctx), if_pos rfl]

theorem State.inboxed_outcome (s : State) (m : Msg) :
    let t := ((s.inboxStored m).writeEnds m.ctx).countOrdRecv m
    t.net = s.net ∧ (t.ctxOf m.ctx).inbox = (s.ctxOf m.ctx).inbox ++ [m]
      ∧ (t.ctxOf m.ctx).inRing = (s.ctxOf m.ctx).inRing ++ [true] ∧ t.mem = ((s.inboxStored m).writeEnds m.ctx).mem := by
  obtain ⟨r, w, hsave⟩ := State.writeSave_eq (s.setCtx ((s.ctxOf m.ctx).inboxTakes m)) (s.ctxOf m.ctx)
    (0x1000 + 128 * (s.ctxOf m.ctx).inTail) m.slotBytes
  obtain ⟨r', w', hends⟩ := (s.inboxStored m).writeEnds_eq m.ctx
  obtain ⟨n, hcounted, hcount⟩ := ((s.inboxStored m).writeEnds m.ctx).countOrdRecv_eq m
  dsimp only
  refine ⟨?_, ?_, ?_, by rw [hcounted]⟩
  · rw [hcounted, hends, State.inboxStored, hsave]
    rfl
  · rw [hcount, State.writeEnds_ctxOf, State.inboxStored_ctxOf]
    rfl
  · rw [hcount, State.writeEnds_ctxOf, State.inboxStored_ctxOf]
    rfl

/-- R395: the message stands in the slot at the tail, also once the header's ends are written. -/
theorem State.inboxed_slot {s : State} {m : Msg} (hwf : Memory.wf s.mem = true) (hlen : m.payload.length ≤ 64)
    (hpresent : ∀ j, j < 128 → frameAbsent ((s.ctxOf m.ctx).svBase + 0x1000 + 128 * (s.ctxOf m.ctx).inTail + j) = false) :
    slotHolds m fun j => cellRead ((s.inboxStored m).writeEnds m.ctx).mem
      ((s.ctxOf m.ctx).svBase + 0x1000 + 128 * (s.ctxOf m.ctx).inTail + j) := by
  refine slotHolds_congr (fun j hj => ?_) (Msg.slotHolds_slotBytes hlen)
  have hbase : ((s.inboxStored m).ctxOf m.ctx).svBase = (s.ctxOf m.ctx).svBase := by
    rw [State.inboxStored_ctxOf]
    rfl
  have hkey : ∀ n, (s.ctxOf m.ctx).svBase + (0x1000 + n) = (s.ctxOf m.ctx).svBase + 0x1000 + n := fun n =>
    (Nat.add_assoc _ _ _).symm
  unfold State.writeEnds State.writeSave
  rw [State.applyWith_read_other]
  · unfold State.inboxStored State.writeSave
    rw [← hkey, State.applyWith_read_written (by exact hwf) _ (by rwa [Msg.slotBytes_length hlen])]
    rw [Msg.slotBytes_length hlen]
    intro j hj
    rw [hkey]
    exact hpresent j hj
  · exact State.applyWith_wf _ _ _ _ hwf
  · intro i hi
    rw [hbase]
    simp only [List.length_append, leBytes_length] at hi
    omega

section
variable {s : State} {i : Nat} {m : Msg} (hi : s.net[i]? = some m) (hkind : m.kind = .send)
  (hrun : (s.ctxOf m.ctx).halted = false) (hout : (s.lcOf m.ctx m.dst).out = true)
  (hdef : (s.ctxOf m.ctx).defines m.dst = true) (hbehind : s.behind i m Msg.toFifo = false)
  (hwaited : m.tries = 0 ∨ m.triedAt + 4096 ≤ s.cycle)
include hi hkind hrun hout hdef hbehind hwaited

/-- R397: a message for a core that is out is tried at the inbox. -/
theorem inboxRetry_tries : exec (.inboxRetry i) s = .next (((s.without i).toInbox m).elim
    (if 64 ≤ m.tries + 1 then (s.without i).refuse m 3
      else { s with net := setAt s.net i { m with tries := m.tries + 1, triedAt := s.cycle } }) id) := by
  have hfifo : m.toFifo = true := by rw [Msg.toFifo, hkind]
  have hred : ∀ t : State, t.redDelivered m = t := fun t => State.redDelivered_of_not_result (by simp [hkind])
  simp only [State.lcOf] at hout
  change execInboxRetry i s = _
  unfold execInboxRetry
  rw [hi]
  dsimp only
  rw [if_neg (by simpa [hfifo, hrun, hout, hdef, hbehind] using hwaited.resolve_left)]
  change Host.Outcome.next (match (s.without i).toInbox m with | some t => _ | none => _) = _
  cases (s.without i).toInbox m with
  | some t => exact congrArg _ (hred t)
  | none =>
    dsimp only [Option.elim]
    rw [hred]
    rfl

theorem inboxRetry_appends (hroom : (s.ctxOf m.ctx).inRing.length < (s.ctxOf m.ctx).inboxCap) :
    Leads (.inboxRetry i) s fun t => t.net = dropAt s.net i
      ∧ (t.ctxOf m.ctx).inbox = (s.ctxOf m.ctx).inbox ++ [m] ∧ (t.ctxOf m.ctx).inRing = (s.ctxOf m.ctx).inRing ++ [true]
      ∧ t.mem = (((s.without i).inboxStored m).writeEnds m.ctx).mem := by
  have hexec := inboxRetry_tries hi hkind hrun hout hdef hbehind hwaited
  rw [State.toInbox_of_room (s := s.without i) hroom] at hexec
  exact ⟨_, hexec, (s.without i).inboxed_outcome m⟩

theorem inboxRetry_waits (hfull : (s.ctxOf m.ctx).inboxCap ≤ (s.ctxOf m.ctx).inRing.length) (htries : m.tries + 1 < 64) :
    exec (.inboxRetry i) s = .next { s with net := setAt s.net i { m with tries := m.tries + 1, triedAt := s.cycle } } := by
  rw [inboxRetry_tries hi hkind hrun hout hdef hbehind hwaited, State.toInbox_of_full (s := s.without i) hfull, Option.elim_none,
    if_neg (by omega)]

/-- R179, R397: after 64 failures the message is refused. -/
theorem inboxRetry_refuses (hfull : (s.ctxOf m.ctx).inboxCap ≤ (s.ctxOf m.ctx).inRing.length) (htries : 64 ≤ m.tries + 1)
    (hhost : m.host = false) (hpkg : m.spkg = Config.ownPackage.val) (hnames : (s.ctxOf m.ctx).trapNamesNone = false) :
    Leads (.inboxRetry i) s fun t => ∃ r, t.net = dropAt s.net i ++ [r] ∧ nackOf m 3 r := by
  have hexec := inboxRetry_tries hi hkind hrun hout hdef hbehind hwaited
  rw [State.toInbox_of_full (s := s.without i) hfull, Option.elim_none, if_pos htries] at hexec
  refine ⟨_, hexec, ?_⟩
  have hrefuse : (s.without i).refuse m 3 = (s.without i).sendRecord m.ctx m.src false false ((s.without i).refuser m).1
      ((s.without i).refuser m).2 (trapRecord m.fid 0 .nack m.fch false m.src 0 m.fts m.hdr (BitVec.ofNat 64 3) 0) := by
    simp [State.refuse, State.hsRefused, State.nack, State.sendNack, hkind, hhost, hpkg]
  rw [hrefuse, State.sendRecord_posts (s := s.without i) rfl hnames]
  exact ⟨_, rfl, rfl, rfl⟩

end

/-! ### Mailbox replies (R280) -/

/-- A slot in use that becomes the focus. -/
theorem State.refocus_eq {s : State} {core k : Nat} {g : Slot} (h : s.slotAt core k = some g) :
    ∃ o, s.refocus core k = { s with focus := g, others := o } := by
  unfold State.slotAt State.slots at h
  unfold State.refocus
  by_cases hf : s.focus.at core k = true
  · rw [List.find?_cons_of_pos (by exact hf)] at h
    cases h
    exact ⟨_, if_pos hf⟩
  · rw [List.find?_cons_of_neg (by exact hf)] at h
    rw [if_neg hf, h]
    exact ⟨_, rfl⟩

/-- R280: the state in which a mailbox no longer holds a request. -/
def State.answered (s : State) (cluster mbox : Nat) : State :=
  s.setCluster { s.clusterOf cluster with boxes := (s.clusterOf cluster).boxes.filter fun x => x.1 ≠ mbox }

/-- R200, R280: a reply of PAGE waits where the exception must. -/
theorem State.replyWaits_eq {s : State} {cluster mbox : Nat} {g : Slot} (hmbox : mbox < 32)
    (hslot : s.slotAt (coreAt cluster (mbox / 4)) (mbox % 4) = some g) (halarm : g.firing.alarm = none) :
    s.replyWaits cluster mbox 2 = (s.refocus g.core g.k).exceptionWaits := by
  simp [State.replyWaits, hmbox, hslot, halarm]

section
variable {s : State} {i : Nat} {m : Msg} {mbox seq code : Nat} {b : Nat × Nat × Word × Nat × Nat × Nat} {g : Slot}
  (hi : s.net[i]? = some m) (hkind : m.kind = .mailboxReply mbox seq code) (hmbox : mbox < 32)
  (hbox : ((s.clusterOf m.dst).boxes.find? fun b => decide (b.1 = mbox) && decide (b.2.1 = seq)) = some b)
include hi hkind

theorem faultReply_waits (hwaits : s.replyWaits m.dst mbox code = true) : exec (.faultReplyArrival i) s = .next s := by
  change execFaultReplyArrival i s = _
  rw [execFaultReplyArrival, hi]
  simp only [hkind]
  rw [if_pos hwaits]

include hmbox hbox

/-- R280: a reply for the request that a core slot's mailbox holds goes to that slot. -/
theorem faultReply_applies (hwaits : s.replyWaits m.dst mbox code = false) : exec (.faultReplyArrival i) s
    = .next (((s.without i).answered m.dst mbox).replySlot (coreAt m.dst (mbox / 4)) (mbox % 4) b.2.2.1 code) := by
  have hbox' : (((s.without i).clusterOf m.dst).boxes.find? fun b => decide (b.1 = mbox) && decide (b.2.1 = seq)) = some b := hbox
  have happly : (s.without i).applyMailbox m.dst mbox seq code
      = ((s.without i).answered m.dst mbox).replySlot (coreAt m.dst (mbox / 4)) (mbox % 4) b.2.2.1 code := by
    unfold State.applyMailbox
    dsimp only
    rw [hbox']
    exact if_pos hmbox
  rw [← happly]
  change execFaultReplyArrival i s = _
  rw [execFaultReplyArrival, hi]
  simp only [hkind]
  rw [if_neg (by simp [hwaits])]
  rfl

variable (hslot : s.slotAt (coreAt m.dst (mbox / 4)) (mbox % 4) = some g)
include hslot

theorem faultReply_wakes (hcode : code = 0) : Leads (.faultReplyArrival i) s fun t => t.net = dropAt s.net i
    ∧ t.slotAt (coreAt m.dst (mbox / 4)) (mbox % 4) = some { g with wait := .none } := by
  refine ⟨_, faultReply_applies hi hkind hmbox hbox (by simp [State.replyWaits, hcode]), ?_⟩
  have hslot' : ((s.without i).answered m.dst mbox).slotAt (coreAt m.dst (mbox / 4)) (mbox % 4) = some g := hslot
  unfold State.replySlot
  rw [hslot']
  dsimp only
  rw [if_pos hcode]
  exact ⟨rfl, State.slotAt_setSlot hslot' ⟨rfl, rfl, rfl⟩⟩

theorem faultReply_zeroes (hcode : code = 1) : Leads (.faultReplyArrival i) s fun t => t.net = dropAt s.net i
    ∧ t.slotAt (coreAt m.dst (mbox / 4)) (mbox % 4) = some { g with wait := .none, zeros := b.2.2.1 :: g.zeros } := by
  refine ⟨_, faultReply_applies hi hkind hmbox hbox (by simp [State.replyWaits, hcode]), ?_⟩
  have hslot' : ((s.without i).answered m.dst mbox).slotAt (coreAt m.dst (mbox / 4)) (mbox % 4) = some g := hslot
  unfold State.replySlot
  rw [hslot']
  dsimp only
  rw [if_neg (by omega), if_pos hcode]
  exact ⟨rfl, State.slotAt_setSlot hslot' ⟨rfl, rfl, rfl⟩⟩

/-- R280: a reply that raises PAGE. -/
theorem faultReply_raises (hcode : 2 ≤ code) (halarm : g.firing.alarm = none)
    (hwaits : (s.refocus g.core g.k).exceptionWaits = false) : ∃ u : State, u.focus = g ∧ u.mem = s.mem ∧ u.net = dropAt s.net i
      ∧ exec (.faultReplyArrival i) s = .next (u.takeException .page g.reg.pc b.2.2.1 0 0) := by
  have hreply : s.replyWaits m.dst mbox code = false := by
    by_cases h : code = 2
    · rw [h, State.replyWaits_eq hmbox hslot halarm, hwaits]
    · simp [State.replyWaits, h]
  have hslot' : ((s.without i).answered m.dst mbox).slotAt (coreAt m.dst (mbox / 4)) (mbox % 4) = some g := hslot
  obtain ⟨o, hfocus⟩ := State.refocus_eq hslot'
  have hexec := faultReply_applies hi hkind hmbox hbox hreply
  unfold State.replySlot at hexec
  rw [hslot'] at hexec
  dsimp only at hexec
  rw [if_neg (by omega), if_neg (by omega), if_neg (by simp [halarm])] at hexec
  generalize ((s.without i).answered m.dst mbox).refocus (coreAt m.dst (mbox / 4)) (mbox % 4) = u at hfocus hexec
  obtain rfl : u.focus = g := by rw [hfocus]
  exact ⟨u, rfl, by rw [hfocus]; rfl, by rw [hfocus]; rfl, hexec⟩

end

/-! ### The inbox once its core is back (R397) -/

theorem Ctx.takeInbox_single {c : Ctx} {m : Msg} (hinbox : c.inbox = [m]) (hring : c.inRing = [true]) (hcap : 0 < c.inboxCap) :
    (c.takeInbox m).inRing = [] ∧ (c.takeInbox m).inHead = (c.inHead + 1) % c.inboxCap := by
  have hn : (c.inbox.takeWhile fun x => x ≠ m).length = 0 := by simp [hinbox]
  unfold Ctx.takeInbox
  dsimp only
  rw [hn, hring]
  refine ⟨rfl, ?_⟩
  change (c.inHead + 1) % max 1 c.inboxCap = _
  rw [Nat.max_eq_right hcap]

/-- R397: the state in which the inbox has given a message back. -/
def State.inboxGiven (s : State) (ctx : Nat) (m : Msg) : State := (s.setCtx ((s.ctxOf ctx).takeInbox m)).writeEnds ctx

section
variable (s : State) (ctx : Nat) (m : Msg)

theorem State.inboxGiven_ctxOf (j : Nat) :
    (s.inboxGiven ctx m).ctxOf j = if j = ctx then (s.ctxOf ctx).takeInbox m else s.ctxOf j := by
  rw [State.inboxGiven, State.writeEnds_ctxOf, State.ctxOf_setCtx_eq s (c := (s.ctxOf ctx).takeInbox m) (s.ctxOf_id ctx)]

/-- R397: the inbox is no matter of the logical cores. -/
theorem State.inboxGiven_lcOf (j n : Nat) : (s.inboxGiven ctx m).lcOf j n = s.lcOf j n := by
  rw [State.lcOf, State.inboxGiven_ctxOf]
  split
  case isTrue h => rw [h]; rfl
  case isFalse => rfl

theorem State.inboxGiven_fate : (s.inboxGiven ctx m).fate m = s.fate m := by
  simp only [State.fate, State.inboxGiven_lcOf]

theorem State.inboxGiven_slotKey : (s.inboxGiven ctx m).slotKey m = s.slotKey m := by
  simp only [State.slotKey, State.inboxGiven_lcOf]

theorem State.inboxGiven_free {key n : Nat} (h : s.freeToWrite key n) : (s.inboxGiven ctx m).freeToWrite key n := by
  obtain ⟨r, w, hends⟩ := (s.setCtx ((s.ctxOf ctx).takeInbox m)).writeEnds_eq ctx
  rw [State.inboxGiven, hends]
  exact State.freeToWrite_touch (State.freeToWrite_congr (by rfl) (by rfl) (by rfl) h)

end

/-- R397: the oldest inbox message of a core that is back enters its FIFO. -/
theorem inboxReplay_delivers {s : State} {ctx lc : Nat} {m : Msg} (hrun : (s.ctxOf ctx).halted = false)
    (hin : (s.lcOf ctx lc).out = false) (hmove : (s.lcOf ctx lc).moving = false) (hvalid : (s.lcOf ctx lc).valid = true)
    (hfind : ((s.ctxOf ctx).inbox.find? fun m => m.dst = lc) = some m) (hctx : m.ctx = ctx) (hkind : m.kind = .send)
    (hfate : s.fate m = .write) (hfree : s.freeToWrite (s.slotKey m) 128) : Leads (.inboxReplay ctx lc) s fun t =>
      (t.ctxOf ctx).inbox = (s.ctxOf ctx).inbox.erase m ∧ (t.ctxOf ctx).inRing = ((s.ctxOf ctx).takeInbox m).inRing
      ∧ (t.ctxOf ctx).inHead = ((s.ctxOf ctx).takeInbox m).inHead
      ∧ ((t.lcOf m.ctx m.dst).ttOf m.ch).q = ((s.lcOf m.ctx m.dst).ttOf m.ch).q ++ [⟨.queued, m⟩] := by
  have hat := State.deliverAt_write (s := s.inboxGiven ctx m) (m := m) (by simp [hkind]) (by rw [State.inboxGiven_fate, hfate])
    (by rw [State.inboxGiven_slotKey]; exact s.inboxGiven_free ctx m hfree) false
  simp only [State.lcOf] at hin hmove hvalid
  refine ⟨(s.inboxGiven ctx m).enqueue m, ?_, ?_⟩
  · change execInboxReplay ctx lc s = _
    unfold execInboxReplay
    dsimp only
    rw [if_neg (by simp [hrun, hin, hmove, hvalid]), hfind]
    exact congrArg Host.Outcome.next ((congrArg (Option.getD · s) hat).trans rfl)
  · obtain ⟨-, -, -, -, hctxs⟩ := (s.inboxGiven ctx m).enqueue_outcome m
    rw [hctxs ctx, if_pos hctx.symm, State.inboxGiven_ctxOf, if_pos rfl, State.enqueue_q, State.inboxGiven_lcOf]
    exact ⟨rfl, rfl, rfl, rfl⟩

/-! ### Messages of the host (R168, R409) -/

theorem hostMessage_posts {s : State} {ctx : Nat} {o : OutsideMsg} (hok : (s.ctxOf ctx).hostOk = true) (hfmt : o.wfmt = 0)
    (hlen : o.payload.length ≤ 64) (hord : o.ordered = false) :
    exec (.hostMessage ctx o) s = .next (s.post (hostMsg ctx (s.ctxOf ctx).hostSeq o)) := by
  change execHostMessage ctx o s = _
  simp [execHostMessage, hostMsgOk, hok, hfmt, hlen, hord]

theorem hostMessage_refused {s : State} {ctx : Nat} {o : OutsideMsg}
    (h : (s.ctxOf ctx).hostOk = false ∨ 2 < o.wfmt ∨ 64 < o.payload.length) :
    exec (.hostMessage ctx o) s = .next { s with hostOut := s.hostOut ++ [.refused] } := by
  refine congrArg Host.Outcome.next (if_pos ?_)
  rcases h with h | h | h
  · simp [h]
  · simp [hostMsgOk, Nat.not_le.2 h]
  · simp [hostMsgOk, Nat.not_le.2 h]

/-- R168: a host message that needs no conversion. -/
theorem hostMsg_plain {ctx seq : Nat} {o : OutsideMsg} (hfmt : o.wfmt = 0) (hord : o.ordered = false) :
    (hostMsg ctx seq o).ctx = ctx ∧ (hostMsg ctx seq o).dst = o.dst % 4096 ∧ (hostMsg ctx seq o).ch = o.ch % 64
      ∧ (hostMsg ctx seq o).payload = o.payload ∧ (hostMsg ctx seq o).host = true ∧ (hostMsg ctx seq o).ord = false := by
  refine ⟨rfl, rfl, rfl, ?_, rfl, hord⟩
  simp [hostMsg, hfmt, wireConvert, wireFmt, deviceMsg]

/-! ### Sweeps (R197, R358) -/

theorem State.sweptGvt_le (s : State) (c : Ctx) : c.gvt.toNat ≤ (s.sweptGvt c).toNat := by
  unfold State.sweptGvt
  split
  · split
    case isTrue h => exact Nat.le_of_lt h
    case isFalse => exact Nat.le_refl _
  · exact Nat.le_refl _

/-- R358: a larger timestamp of MINKEY replaces GVT. -/
theorem State.sweptGvt_of_later {s : State} {c : Ctx} {k : Key} (hmin : s.minKey c.id = some k) (h : c.gvt.toNat < k.ts.toNat) :
    s.sweptGvt c = k.ts := by
  rw [State.sweptGvt, hmin]
  exact if_pos h

/-- R358: a context after a sweep. -/
def State.sweptCtx (s : State) (c : Ctx) : Ctx :=
  { c with
    gvt := if c.ordSent = c.ordRecv ∧ c.prevTotals = some (c.ordSent, c.ordRecv) then s.sweptGvt c else c.gvt
    prevTotals := some (c.ordSent, c.ordRecv)
    sweepAt := s.cycle }

theorem gvtSweep_sweeps {s : State} {ctx : Nat} (hctx : s.hasCtx ctx = true) (hdue : (s.ctxOf ctx).sweepAt + 256 ≤ s.cycle) :
    let c := s.ctxOf ctx
    Leads (.gvtSweep ctx) s fun t => (t.ctxOf ctx).sweepAt = s.cycle
      ∧ (t.ctxOf ctx).gvt = if c.ordSent = c.ordRecv ∧ c.prevTotals = some (c.ordSent, c.ordRecv) then s.sweptGvt c else c.gvt := by
  have hexec : exec (.gvtSweep ctx) s = .next (s.setCtx (s.sweptCtx (s.ctxOf ctx))) := by
    change execGvtSweep ctx s = _
    unfold execGvtSweep
    dsimp only
    rw [if_neg (by simp [hctx, hdue])]
    simp only [State.sweptCtx, Bool.and_eq_true, decide_eq_true_eq]
  have hread : (s.setCtx (s.sweptCtx (s.ctxOf ctx))).ctxOf ctx = s.sweptCtx (s.ctxOf ctx) :=
    State.ctxOf_setCtx_of_id s (s.ctxOf_id ctx)
  exact ⟨_, hexec, by rw [hread]; rfl, by rw [hread]; rfl⟩

/-! ### Flush markers (R345) -/

theorem State.coreOf_id (s : State) (p : Nat) : (s.coreOf p).id = p := by
  rw [State.coreOf]
  cases h : s.cores.find? fun x => x.id = p with
  | none => rfl
  | some k => simpa using List.find?_some h

theorem State.coreOf_setCore {s : State} {k : CoreSt} {p : Nat} (h : k.id = p) : (s.setCore k).coreOf p = k := by
  subst h
  rw [State.coreOf, State.setCore_cores, find?_upsert_self _ _ (by simp), Option.getD_some]

/-- R345: a marker passes a relay once no message that its router injected before the move is left. -/
theorem Relay.marked_passes {s : State} {router : Nat} {r : Relay} (hnot : router ∉ r.passed)
    (hclear : ∀ m ∈ s.net, m.old = true → m.ctx = r.ctx → m.dst = r.lcore → s.injector m ≠ router) :
    r.marked s router = { r with passed := router :: r.passed } := by
  refine if_neg fun h => ?_
  rcases h with h | h
  · exact hnot h
  · obtain ⟨m, hm, hold⟩ := List.any_eq_true.1 h
    simp only [Bool.and_eq_true, decide_eq_true_eq] at hold
    obtain ⟨⟨⟨hold, hctx⟩, hdst⟩, hinj⟩ := hold
    exact hclear m hm hold hctx hdst hinj

theorem flushMarker_passes {s : State} {core router : Nat} {r : Relay} (hrouter : router < 1024)
    (hrelay : (s.coreOf core).relay = [r]) (hnot : router ∉ r.passed) (hmoves : s.moves = [])
    (hclear : ∀ m ∈ s.net, m.old = true → m.ctx = r.ctx → m.dst = r.lcore → s.injector m ≠ router) :
    Leads (.flushMarker core router) s fun t => (t.coreOf core).relay =
      if r.passed.length + 1 < 1024 then [{ r with passed := router :: r.passed }] else [] := by
  generalize hl : (if r.passed.length + 1 < 1024 then [{ r with passed := router :: r.passed }] else [] : List Relay) = l
  have hmarked : (((s.coreOf core).relay.map fun r => r.marked s router).filter fun r => r.passed.length < 1024) = l := by
    rw [hrelay, List.map_singleton, Relay.marked_passes hnot hclear, ← hl, List.filter_singleton]
    simp
  have hne : l ≠ (s.coreOf core).relay := by
    rw [hrelay, ← hl]
    split
    · intro h
      have := congrArg (fun l : List Relay => l.map fun r => r.passed.length) h
      simp at this
    · exact nofun
  refine ⟨((s.setCore { s.coreOf core with relay := l }).startMoves), ?_, ?_⟩
  · change execFlushMarker core router s = _
    unfold execFlushMarker
    rw [if_neg (by omega)]
    dsimp only
    rw [hmarked, if_neg hne]
  · have hstart : (s.setCore { s.coreOf core with relay := l }).startMoves
        = { s.setCore { s.coreOf core with relay := l } with moves := [] } := by
      rw [State.startMoves, State.setCore_moves, hmoves]
      rfl
    rw [hstart]
    exact congrArg CoreSt.relay (State.coreOf_setCore (s := s) (k := { s.coreOf core with relay := l }) (s.coreOf_id core))

/-! ### Reductions (R351, R352) -/

/-- R72: an event changes the watch tables of its context alone. -/
theorem State.watchEvent_eq (s : State) (ctx cluster wg bits sat : Nat) (fid : Word) :
    (∃ c, s.watchEvent ctx cluster wg bits sat fid = { s with ctxs := c })
      ∧ ∀ j, (s.watchEvent ctx cluster wg bits sat fid).ctxOf j
        = { s.ctxOf j with watch := ((s.watchEvent ctx cluster wg bits sat fid).ctxOf j).watch } := by
  unfold State.watchEvent
  dsimp only
  split
  · exact ⟨⟨_, rfl⟩, fun _ => rfl⟩
  · refine ⟨⟨_, rfl⟩, fun j => ?_⟩
    generalize hw : (s.ctxOf ctx).setWatch _ _ _ = c
    have hset := State.ctxOf_setCtx_eq s (c := c) (i := ctx) (by rw [← hw]; exact s.ctxOf_id ctx) j
    rw [hset]
    split
    case isTrue h => rw [h, ← hw]; rfl
    case isFalse => rfl

/-- R352: the result of a round of a group on this package goes to its root. -/
theorem State.placeResult_posts {s : State} {ctx group : Nat} {g : RedGroup} (payload : List Byte) (flags fid : Word)
    (hdef : (s.ctxOf ctx).defines (bitsOf g.cfgA 28 17) = true) :
    let t := s.placeResult ctx group g payload flags fid
    t.net = s.net ++ [g.result ctx group g.placed payload] ∧ (t.ctxOf ctx).reds = (s.ctxOf ctx).reds := by
  obtain ⟨⟨c, hevent⟩, hctxs⟩ := s.watchEvent_eq ctx (clusterIdOf (s.lcOf ctx (bitsOf g.cfgA 28 17)).pcore)
    (bitsOf g.cfgB 31 24) flags.toNat 0 fid
  unfold State.placeResult
  dsimp only
  rw [State.postResult, if_pos (by rw [hctxs]; exact hdef)]
  exact ⟨by rw [State.post_net, hevent], by rw [State.ctxOf_congr (State.post_ctxs _ _), hctxs]⟩

/-- R351: the lanes of a round's result, of its contributions. -/
def RedGroup.lanesOf (g : RedGroup) (got : List (Nat × Nat × List Byte × Word)) : List (Flagged Lane) :=
  (List.range g.lanes).map fun i =>
    let lane := got.map fun x => payloadLane x.2.2.1 i
    if g.exact then ⟨(foldExact lane).val.round.val, (foldExact lane).flags ||| (foldExact lane).val.round.flags, 0⟩
    else foldOrdered lane

/-- R352: a group whose round is placed. -/
def RedGroup.placeRound (g : RedGroup) : RedGroup :=
  { g with placed := g.placed + 1, sums := g.sums.filter fun x => x.1 ≠ g.placed }

/-- R352: a context with a reduction group. -/
def Ctx.setRed (c : Ctx) (grp : Nat) (g : RedGroup) : Ctx := { c with reds := setKey c.reds grp g }

section
variable {s : State} {ctx grp : Nat} {g : RedGroup} {got : List (Nat × Nat × List Byte × Word)}
  (hg : (s.ctxOf ctx).redOf grp = g)
  (hgot : (((s.ctxOf ctx).participants g).filterMap fun p =>
    g.got.find? fun x => decide (x.1 = g.placed) && decide (x.2.1 = p)) = got)
  (hon : g.on = true) (hrun : (s.ctxOf ctx).halted = false) (hparts : (s.ctxOf ctx).participants g ≠ [])
  (hall : got.length = ((s.ctxOf ctx).participants g).length) (hspans : g.spans = false)
include hg hgot hon hrun hparts hall hspans

/-- R351 to R353: a complete round of a group on this package is folded and placed. -/
theorem reductionResult_places : ∃ flags fid : Word, exec (.reductionResult ctx grp) s
    = .next ((s.setCtx ((s.ctxOf ctx).setRed grp g.placeRound)).placeResult ctx grp g
      ((g.lanesOf got).map fun x => leBytes 4 x.val.toNat).flatten flags fid) := by
  have hneeds : g.needs Config.ownPackage.val = [] := by simp [RedGroup.needs, hspans]
  refine ⟨(g.lanesOf got).foldl (fun w x => w ||| x.flags) 0, (got.getLast?.map fun x => x.2.2.2).getD 0, ?_⟩
  change execReductionResult ctx grp s = _
  unfold execReductionResult
  have hhere : (!g.spans || g.exact && decide (Config.ownPackage.val = g.first)) = true := by simp [hspans]
  simp only [hg, hneeds, hgot, hhere, if_true, List.filterMap_nil, List.map_nil, ite_self, List.nil_append, List.foldl_nil, List.map_map]
  rw [if_neg (by simp [hon, hrun, hparts, hall])]
  cases hexact : g.exact with
  | true =>
    simp only [RedGroup.lanesOf, hexact, if_true]
    rfl
  | false =>
    simp only [RedGroup.lanesOf, hexact]
    rfl

/-- R351, R352: what a complete round leaves: the result is on its way to the root, and counts as placed. -/
theorem reductionResult_posts (hdef : (s.ctxOf ctx).defines (bitsOf g.cfgA 28 17) = true) :
    Leads (.reductionResult ctx grp) s fun t => (t.ctxOf ctx).redOf grp = g.placeRound
      ∧ t.net = s.net ++ [g.result ctx grp g.placed ((g.lanesOf got).map fun x => leBytes 4 x.val.toNat).flatten] := by
  obtain ⟨flags, fid, hexec⟩ := reductionResult_places hg hgot hon hrun hparts hall hspans
  have hctx : (s.setCtx ((s.ctxOf ctx).setRed grp g.placeRound)).ctxOf ctx = (s.ctxOf ctx).setRed grp g.placeRound :=
    State.ctxOf_setCtx_of_id s (s.ctxOf_id ctx)
  obtain ⟨hnet, hreds⟩ := State.placeResult_posts (s := s.setCtx ((s.ctxOf ctx).setRed grp g.placeRound)) (group := grp) (g := g)
    ((g.lanesOf got).map fun x => leBytes 4 x.val.toNat).flatten flags fid (by rw [hctx]; exact hdef)
  refine ⟨_, hexec, ?_, hnet⟩
  rw [Ctx.redOf, hreds, hctx]
  exact (lookupD_setKey _ _ _ _ _).trans (if_pos rfl)

end

/-- R351: the payload of a result, lane by lane. -/
theorem payload_eq_wordBytes (res : List (Flagged Lane)) :
    (res.map fun x => leBytes 4 x.val.toNat).flatten = wordBytes 4 (res.map fun x => x.val.toNat) := by
  rw [wordBytes, List.map_map]
  rfl

theorem payloadLane_flatten {res : List (Flagged Lane)} {j : Nat} (h : j < res.length) :
    payloadLane (res.map fun x => leBytes 4 x.val.toNat).flatten j = (res[j]'h).val := by
  have hword := leNat_wordBytes 4 [] (res.map fun x => x.val.toNat) j (by simpa using h)
  rw [List.append_nil, ← payload_eq_wordBytes] at hword
  rw [payloadLane, hword, List.getElem_map, Nat.mod_eq_of_lt (by simpa using res[j].val.isLt), BitVec.ofNat_toNat,
    BitVec.setWidth_eq]

theorem RedGroup.lanesOf_length (g : RedGroup) (got : List (Nat × Nat × List Byte × Word)) :
    (g.lanesOf got).length = g.lanes := by
  simp [RedGroup.lanesOf]

/-- R351: an ORDERED lane is the fold of its contributions. -/
theorem RedGroup.lanesOf_ordered {g : RedGroup} (h : g.exact = false) (got : List (Nat × Nat × List Byte × Word)) {j : Nat}
    (hj : j < (g.lanesOf got).length) : (g.lanesOf got)[j] = foldOrdered (got.map fun x => payloadLane x.2.2.1 j) := by
  simp [RedGroup.lanesOf, h]

/-! ### The obligation -/

/-- Settles O54, each clause by the lemma that says what its step leaves. -/
theorem messageSteps : Obligations.MessageSteps := by
  intro i core router ctx lc grp o s c l
  refine ⟨fun m hi => ?_, ?_, ?_, hostMessage_refused, ?_, ?_, ?_⟩
  case refine_1 =>
    intro e key queued free csa u rest
    refine ⟨fun hkind hreply hmay hfate hfree hlen hwf => messageDeliver_queues hi hmay hkind hreply hfate hfree hlen hwf,
      fun hkind hreply hmay hfate => messageDeliver_of_wait hi hmay (by rw [Msg.toFifo, hkind]) hreply hfate,
      fun hreply hmay x hsusp => ⟨fun b hcode hblock => trapReply_restarts hi hreply hmay hsusp hcode rfl hblock,
        trapReply_ends hi hreply hmay hsusp, trapReply_halts hi hreply hmay hsusp⟩,
      fun hkind hrun hout hdef hbehind hwaited => ⟨fun hroom => ?_,
        inboxRetry_waits hi hkind hrun hout hdef hbehind hwaited, inboxRetry_refuses hi hkind hrun hout hdef hbehind hwaited⟩,
      fun mbox seq code b g hkind hmbox hbox hslot => ⟨faultReply_wakes hi hkind hmbox hbox hslot,
        faultReply_zeroes hi hkind hmbox hbox hslot, fun hcode halarm hwaits => faultReply_waits hi hkind ?_,
        faultReply_raises hi hkind hmbox hbox hslot⟩,
      fun gr n hkind _ hmay hfate hfree => messageDeliver_result hi hmay hkind hfate hfree⟩
    · obtain ⟨t, hexec, hnet, hinbox, hring, hmem⟩ := inboxRetry_appends hi hkind hrun hout hdef hbehind hwaited hroom
      refine ⟨t, hexec, hnet, hinbox, hring, fun hwf hlen hpresent => ?_⟩
      rw [hmem]
      exact State.inboxed_slot (s := s.without i) hwf hlen hpresent
    · rw [hcode, State.replyWaits_eq hmbox hslot halarm, hwaits]
  case refine_2 =>
    intro m hrun hin hmove hvalid hfind hctx hkind hfate hfree
    obtain ⟨t, hexec, hinbox, hring, hhead, hq⟩ := inboxReplay_delivers hrun hin hmove hvalid hfind hctx hkind hfate hfree
    refine ⟨t, hexec, hinbox, fun hone hslot hcap => ?_, hq⟩
    obtain ⟨hring', hhead'⟩ := Ctx.takeInbox_single hone hslot hcap
    exact ⟨hring.trans hring', hhead.trans hhead'⟩
  case refine_3 =>
    intro hok hfmt hlen hord
    exact ⟨_, hostMessage_posts hok hfmt hlen hord, _, rfl, hostMsg_plain hfmt hord⟩
  case refine_4 =>
    intro g parts got root hon hrun hparts hall hspans hdef
    have hroot : root = bitsOf g.cfgA 28 17 := (bitsOf_eq g.cfgA 28 17).symm
    obtain ⟨t, hexec, hred, hnet⟩ := reductionResult_posts (g := g) (got := got) rfl rfl hon hrun hparts hall hspans (hroot ▸ hdef)
    refine ⟨t, hexec, by rw [hred]; rfl, by rw [hred]; rfl, _, hnet, rfl, hroot.symm, bitsOf_eq g.cfgA 16 11, ?_, fun hord j hj => ?_⟩
    · refine (congrArg List.length (payload_eq_wordBytes _)).trans ?_
      rw [wordBytes_length, List.length_map, RedGroup.lanesOf_length]
    · have hlt : j < (g.lanesOf got).length := by rwa [RedGroup.lanesOf_length]
      exact (payloadLane_flatten hlt).trans (by rw [RedGroup.lanesOf_ordered hord])
  case refine_5 =>
    intro hctx hdue
    obtain ⟨t, hexec, hat, hgvt⟩ := gvtSweep_sweeps hctx hdue
    refine ⟨t, hexec, hat, ?_, fun hne => ?_, fun k hsent hprev hmin hlt => ?_⟩
    · rw [hgvt]
      split
      · exact s.sweptGvt_le c
      · exact Nat.le_refl _
    · rw [hgvt, if_neg fun h => hne h.1]
    · rw [hgvt, if_pos ⟨hsent, hprev⟩]
      exact State.sweptGvt_of_later (by rw [s.ctxOf_id ctx, hmin]) hlt
  case refine_6 =>
    intro r hrouter hrelay hnot hmoves hclear
    exact flushMarker_passes hrouter hrelay hnot hmoves hclear

end Sys2Proof.Machine
end

section
/-! SUPPORT. O28: the format registers as a chunk sees them (R88, R124) and the watch-group instructions (R125 to R127). -/

namespace Sys2Proof.Machine

/-- R88: without a held FMT.SET of the register the chunk sees the committed pair. -/
theorem State.fmtSeen_of_not_mem {s : State} {f : Slot} {k : Nat} (h : ∀ x y, Held.fmt k x y ∉ f.chunk.held) :
    s.fmtSeen f k = (s.lcOf f.firing.ctx f.firing.lc).fmtOf k := by
  have hnone : (f.chunk.held.reverse.findSome? fun h => match h with
      | .fmt j x y => if j = k then some (x, y) else none
      | _ => none) = none := by
    rw [List.findSome?_eq_none_iff]
    intro e he
    split
    next j x y =>
      rw [if_neg]
      rintro rfl
      exact h x y (List.mem_reverse.1 he)
    next => rfl
  rw [State.fmtSeen]
  split
  next p hp => exact absurd (hnone.symm.trans hp) nofun
  next => rfl

/-- R88, R124: the chunk sees its own latest held pair. -/
theorem State.fmtSeen_hold (s : State) (f : Slot) (k : Nat) (x y : Word) :
    s.fmtSeen (f.hold (.fmt k x y)) k = (x, y) := by
  simp [State.fmtSeen, Slot.hold]

section
variable {k : Bool} {d a b : BitVec 5} {s : State}

/-- R87, R124: FMT.SET of a valid pair. -/
theorem fmtSet_holds (h : validPair (s.focus.gr a) (s.focus.gr b) = true) : Does (.fmtSet k d a b) s
    (((s.focus.addRead (.fmt s.focus.firing.ctx s.focus.firing.lc (fmtNum (s.focus.gr d)))).hold
      (.fmt (fmtNum (s.focus.gr d)) (s.focus.gr a) (s.focus.gr b))).advance k) :=
  congrArg s.finish (if_pos h)

/-- R87, R124: FMT.SET of another pair. -/
theorem fmtSet_raises (h : validPair (s.focus.gr a) (s.focus.gr b) = false) :
    Raises (.fmtSet k d a b) s .illop (s.focus.gr a) (s.focus.gr b) :=
  congrArg s.finish (if_neg (ne_true_of_eq_false h))

end

/-- Settles O28: the bits that an operand gives are remainders by definition; what a chunk sees of a format register is its
latest held pair, else the committed one. -/
theorem formatAndWatchInstructions : Obligations.FormatAndWatchInstructions := by
  unfold Obligations.FormatAndWatchInstructions
  intro k d a b s
  exact ⟨fmtSet_holds, fmtSet_raises, rfl, State.fmtSeen_of_not_mem, State.fmtSeen_hold s _ _, rfl, rfl, rfl⟩

end Sys2Proof.Machine
end

section
/-! SUPPORT. O3: products, quotients and remainders of words in integer arithmetic (R107, R115), the quotients for every
width. -/

namespace Sys2Proof.Machine

/-! ### The low half of a word (R41, R48) -/

theorem toNat_low32 (x : Word) : (low32 x).toNat = nat32Of x := BitVec.toNat_setWidth ..

theorem toInt_low32 (x : Word) : (low32 x).toInt = int32Of x := BitVec.toInt_setWidth ..

theorem low32_eq_zero_iff (x : Word) : low32 x = 0 ↔ nat32Of x = 0 := by
  rw [← toNat_low32, ← BitVec.toNat_inj]
  rfl

/-- R48: the 32-bit result of an integer. -/
theorem resW_ofInt (i : Int) : resW (BitVec.ofInt 32 i) = wordOf32 i := by
  rw [resW, BitVec.signExtend, BitVec.toInt_ofInt, wordOf32]

/-! ### Products (R115) -/

theorem mul_eq_ofInt {n : Nat} (x y : BitVec n) : x * y = BitVec.ofInt n (x.toInt * y.toInt) := by
  rw [BitVec.ofInt_mul, BitVec.ofInt_toInt, BitVec.ofInt_toInt]

theorem mul_eq_ofNat {n : Nat} (x y : BitVec n) : x * y = BitVec.ofNat n (x.toNat * y.toNat) := by
  rw [BitVec.ofNat_mul, BitVec.ofNat_toNat, BitVec.ofNat_toNat, BitVec.setWidth_eq, BitVec.setWidth_eq]

/-- R115: the high half of a 128-bit number, as a floored quotient. -/
theorem highHalf_ofInt (p : Int) : (BitVec.ofInt 128 p >>> 64).setWidth 64 = BitVec.ofInt 64 (p / 2 ^ 64) := by
  apply BitVec.eq_of_toNat_eq
  rw [BitVec.toNat_setWidth, BitVec.toNat_ushiftRight, Nat.shiftRight_eq_div_pow, BitVec.toNat_ofInt, BitVec.toNat_ofInt]
  omega

theorem mulhW_eq_ofInt (x y : Word) : mulhW x y = BitVec.ofInt 64 (x.toInt * y.toInt / 2 ^ 64) := by
  rw [mulhW, mul_eq_ofInt, BitVec.toInt_signExtend_of_le (by decide), BitVec.toInt_signExtend_of_le (by decide), highHalf_ofInt]

theorem mulhuW_eq_ofNat (x y : Word) : mulhuW x y = BitVec.ofNat 64 (x.toNat * y.toNat / 2 ^ 64) := by
  rw [mulhuW, mul_eq_ofNat, BitVec.toNat_setWidth_of_le (by decide), BitVec.toNat_setWidth_of_le (by decide),
    ← BitVec.ofInt_natCast, highHalf_ofInt, ← BitVec.ofInt_natCast]
  rfl

/-! ### Quotients and remainders (R107) -/

section
variable {n : Nat} (x y : BitVec n)

theorem allOnes_eq_ofInt : BitVec.allOnes n = BitVec.ofInt n (-1) := by
  rw [← BitVec.neg_one_eq_allOnes, BitVec.ofInt_neg]
  rfl

theorem sdivW_eq_ofInt : sdivW x y = BitVec.ofInt n (if y = 0 then -1 else x.toInt.tdiv y.toInt) := by
  unfold sdivW
  split
  · exact allOnes_eq_ofInt
  · exact BitVec.eq_of_toInt_eq ((BitVec.toInt_sdiv x y).trans (BitVec.toInt_ofInt _).symm)

theorem udivW_eq_ofInt : udivW x y = BitVec.ofInt n (if y = 0 then -1 else (x.toNat / y.toNat : Nat)) := by
  unfold udivW
  split
  · exact allOnes_eq_ofInt
  · rw [BitVec.ofInt_natCast]
    exact BitVec.eq_of_toNat_eq (by simp [Nat.mod_eq_of_lt (Nat.lt_of_le_of_lt (Nat.div_le_self ..) x.isLt)])

theorem sremW_eq_ofInt : sremW x y = BitVec.ofInt n (if y = 0 then x.toInt else x.toInt.tmod y.toInt) := by
  unfold sremW
  split
  · exact BitVec.ofInt_toInt.symm
  · rw [← BitVec.toInt_srem, BitVec.ofInt_toInt]

theorem uremW_eq_ofNat : uremW x y = BitVec.ofNat n (if y = 0 then x.toNat else x.toNat % y.toNat) := by
  unfold uremW
  split
  · simp
  · exact BitVec.eq_of_toNat_eq (by simp [Nat.mod_eq_of_lt (Nat.lt_of_le_of_lt (Nat.mod_le ..) x.isLt)])

end

/-! ### The instructions (R107, R115) -/

section
variable {i : Instr} {k : Bool} {d : BitVec 5} {s : State} {x x' : Word}

theorem givesG_of_shortResult (hi : exec i s = shortResult k d x s) (hx : x = x') : GivesG i k d s x' := hx ▸ hi

/-- R115: a division raises DZ at once where its divisor is zero. -/
theorem givesQuotient_of_divResult {z z' : Prop} [Decidable z] [Decidable z'] (hi : exec i s = divResult k d x (decide z) s)
    (hz : z ↔ z') (hx : x = x') : GivesQuotient i k d s z' x' := by
  rw [GivesQuotient, Does, hi, divResult, flagIf, hx]
  simp only [hz, decide_eq_true_eq]
  rfl

end

/-- Settles O3: each form is `shortResult` or `divResult` of one operation, whose value the lemmas above give; a W form is the
operation on the low halves. -/
theorem multiplyDivideResults : Obligations.MultiplyDivideResults := by
  unfold Obligations.MultiplyDivideResults
  intro k d a b s
  have hz := low32_eq_zero_iff (s.focus.gr b)
  refine ⟨givesG_of_shortResult rfl (mul_eq_ofNat ..), givesG_of_shortResult rfl (mulhW_eq_ofInt ..),
    givesG_of_shortResult rfl (mulhuW_eq_ofNat ..), givesQuotient_of_divResult rfl .rfl (sdivW_eq_ofInt ..),
    givesQuotient_of_divResult rfl .rfl (udivW_eq_ofInt ..), givesQuotient_of_divResult rfl .rfl (sremW_eq_ofInt ..),
    givesQuotient_of_divResult rfl .rfl (uremW_eq_ofNat ..), givesG_of_shortResult rfl ?mulw,
    givesQuotient_of_divResult rfl hz ?divw, givesQuotient_of_divResult rfl hz ?divuw,
    givesQuotient_of_divResult rfl hz ?remw, givesQuotient_of_divResult rfl hz ?remuw⟩
  case mulw => rw [mul_eq_ofInt, resW_ofInt, toInt_low32, toInt_low32]
  case divw => simp only [sdivW_eq_ofInt, resW_ofInt, hz, toInt_low32]
  case divuw => simp only [udivW_eq_ofInt, resW_ofInt, hz, toNat_low32]
  case remw => simp only [sremW_eq_ofInt, resW_ofInt, hz, toInt_low32]
  case remuw =>
    rw [uremW_eq_ofNat, ← BitVec.ofInt_natCast, resW_ofInt]
    simp only [hz, toNat_low32, apply_ite (Nat.cast (R := Int))]

end Sys2Proof.Machine
end

section
/-! SUPPORT. O9: exact values as rational numbers (R84, R92): their sums, products and scalings. -/

namespace Sys2Proof.Machine

/-- The factor of a sign. -/
def signQ (neg : Bool) : Rat := if neg then -1 else 1

theorem signQ_not (n : Bool) : signQ (!n) = -signQ n := by cases n <;> simp [signQ]

theorem signQ_bne (a b : Bool) : signQ (a != b) = signQ a * signQ b := by cases a <;> cases b <;> simp [signQ]

theorem XR.rat_fin (n : Bool) (m : Nat) (e : Int) (s : Bool) : (XR.fin n m e s).rat = some (signQ n * m * 2 ^ e) := rfl

@[simp] theorem XR.rat_zero (n : Bool) : (XR.zero n).rat = some 0 := by simp [XR.zero, XR.rat_fin]

/-- A signed integer is its sign times its magnitude. -/
theorem signQ_mul_natAbs (v : Int) : signQ (decide (v < 0)) * (v.natAbs : Rat) = v := by
  rw [Nat.cast_natAbs, Int.cast_abs]
  by_cases h : v < 0
  · have h' : (v : Rat) < 0 := by exact_mod_cast h
    simp [signQ, h, abs_of_neg h']
  · have h' : (0 : Rat) ≤ v := by exact_mod_cast not_lt.1 h
    simp [signQ, h, abs_of_nonneg h']

theorem XR.rat_ofInt (v e : Int) : (XR.ofInt v e).rat = some ((v : Rat) * 2 ^ e) := by
  rw [XR.ofInt, XR.rat_fin, signQ_mul_natAbs]

/-- A magnitude moved to a lower exponent keeps its value. -/
theorem shifted_mul_zpow {m : Nat} {e q : Int} (h : q ≤ e) :
    ((m <<< (e - q).toNat : Nat) : Rat) * 2 ^ q = m * 2 ^ e := by
  rw [Nat.shiftLeft_eq, Nat.cast_mul, Nat.cast_pow, Nat.cast_ofNat, mul_assoc, ← zpow_natCast,
    ← zpow_add₀ two_ne_zero, Int.toNat_of_nonneg (by omega), sub_add_cancel]

theorem signed_cast (n : Bool) (m : Nat) : ((if n then -(m : Int) else (m : Int) : Int) : Rat) = signQ n * m := by
  cases n <;> simp [signQ]

/-- The two signed magnitudes that are added, on their common exponent, are the two values. -/
theorem alignInts_rat (n1 n2 : Bool) (m1 m2 : Nat) (e1 e2 : Int) :
    let t := alignInts n1 m1 e1 n2 m2 e2
    ((t.1 + t.2.1 : Int) : Rat) * 2 ^ t.2.2 = signQ n1 * m1 * 2 ^ e1 + signQ n2 * m2 * 2 ^ e2 := by
  dsimp only [alignInts]
  rw [Int.cast_add, signed_cast, signed_cast, add_mul, mul_assoc, mul_assoc, shifted_mul_zpow (min_le_left ..),
    shifted_mul_zpow (min_le_right ..), mul_assoc, mul_assoc]

section
variable (n1 n2 : Bool) (m1 m2 : Nat) (e1 e2 : Int)

theorem XR.add_rat : ((XR.fin n1 m1 e1 false).add (.fin n2 m2 e2 false)).rat
    = some (signQ n1 * m1 * 2 ^ e1 + signQ n2 * m2 * 2 ^ e2) := by
  have hsum := alignInts_rat n1 n2 m1 m2 e1 e2
  dsimp only at hsum
  simp only [XR.add]
  split
  next h => simp [h.1, h.2]
  split
  next h => simp [h, XR.rat_fin]
  split
  next h => simp [h, XR.rat_fin]
  rw [← hsum]
  split
  next h => simp [h]
  next h => exact XR.rat_ofInt _ _

theorem XR.mul_rat : ((XR.fin n1 m1 e1 false).mul (.fin n2 m2 e2 false)).rat
    = some (signQ n1 * m1 * 2 ^ e1 * (signQ n2 * m2 * 2 ^ e2)) := by
  simp only [XR.mul]
  split
  next h => rcases h with h | h <;> simp [h]
  next h =>
    rw [XR.rat_fin, signQ_bne, zpow_add₀ two_ne_zero, Nat.cast_mul]
    congr 1
    ring

theorem XR.scale_rat (k : Int) : ((XR.fin n1 m1 e1 false).scale k).rat = some (signQ n1 * m1 * 2 ^ e1 * 2 ^ k) := by
  rw [XR.scale, XR.rat_fin, zpow_add₀ two_ne_zero, mul_assoc _ _ ((2 : Rat) ^ k)]

theorem XR.negate_rat : (XR.fin n1 m1 e1 false).negate.rat = some (-(signQ n1 * m1 * 2 ^ e1)) := by
  rw [XR.negate, XR.rat_fin, signQ_not, neg_mul, neg_mul]

end

/-- Settles O9. -/
theorem exactSumsAndProducts : Obligations.ExactSumsAndProducts := by
  unfold Obligations.ExactSumsAndProducts
  intro n1 n2 m1 m2 e1 e2 k
  exact ⟨_, _, XR.rat_fin .., XR.rat_fin .., XR.add_rat .., XR.mul_rat .., XR.scale_rat .., XR.negate_rat ..⟩

end Sys2Proof.Machine
end

section
/-! SUPPORT. O10: the fields of an FP32 code and its exact value (R83, R89), and how a value that the format holds rounds
(R92, R93). -/

namespace Sys2Proof.Machine

/-! ### The fields of an FP32 code (R83) -/

/-- R83: the exponent field. -/
def expField (x : Lane) : Nat := x.toNat / 2 ^ 23 % 256

/-- R83: the mantissa field. -/
def fracField (x : Lane) : Nat := x.toNat % 2 ^ 23

/-- R83: the sign. -/
def signField (x : Lane) : Bool := decide (2 ^ 31 ≤ x.toNat)

theorem expField_lt (x : Lane) : expField x < 256 := Nat.mod_lt _ (by decide)

theorem fracField_lt (x : Lane) : fracField x < 2 ^ 23 := Nat.mod_lt _ (by decide)

/-- A code is put together from its fields. -/
theorem toNat_eq_fields (x : Lane) : x.toNat = fp32.signBit (signField x) + expField x * 2 ^ 23 + fracField x := by
  have hlt : x.toNat < 2 ^ 32 := x.isLt
  have hsign : fp32.signBit (signField x) = if 2 ^ 31 ≤ x.toNat then 2 ^ 31 else 0 := by
    simp [Fmt.signBit, fp32, signField]
  rw [hsign, expField, fracField]
  split <;> omega

/-- R89: the exact value of a code by its fields. -/
theorem exact32_eq (x : Lane) : exact32 x =
    if expField x = 255 then (if fracField x = 0 then .inf (signField x) else .nan)
    else if expField x = 0 then .fin (signField x) (fracField x) (-149) false
    else .fin (signField x) (2 ^ 23 + fracField x) (expField x - 150) false := by
  have hsign : (fp32.s && decide (x.toNat >>> (8 + 23) % 2 = 1)) = signField x := by
    have hlt : x.toNat < 2 ^ 32 := x.isLt
    rw [Nat.shiftRight_eq_div_pow, show fp32.s = true from rfl, Bool.true_and, signField, decide_eq_decide]
    omega
  have hexp : x.toNat >>> 23 % 2 ^ 8 = expField x := by rw [Nat.shiftRight_eq_div_pow]; rfl
  rw [exact32, decodeFmt, if_neg (by decide)]
  simp only [show fp32.m = 23 from rfl, show fp32.e = 8 from rfl, show fp32.special = 0 from rfl,
    show fp32.subn = true from rfl, show fp32.bias = 127 from rfl, show fp32.emaxf = 255 from rfl, hsign, hexp,
    show x.toNat % 2 ^ 23 = fracField x from rfl, true_and, if_true, reduceIte, Nat.zero_ne_one, false_and]
  split
  · rfl
  split
  · rfl
  · congr 1; push_cast; ring

theorem exact32_nan {x : Lane} (he : expField x = 255) (hm : fracField x ≠ 0) : exact32 x = .nan := by
  rw [exact32_eq, if_pos he, if_neg hm]

theorem exact32_inf {x : Lane} (he : expField x = 255) (hm : fracField x = 0) : exact32 x = .inf (signField x) := by
  rw [exact32_eq, if_pos he, if_pos hm]

theorem exact32_subnormal {x : Lane} (he : expField x = 0) :
    exact32 x = .fin (signField x) (fracField x) (-149) false := by
  rw [exact32_eq, if_neg (by omega), if_pos he]

theorem exact32_normal {x : Lane} (h0 : expField x ≠ 0) (h255 : expField x ≠ 255) :
    exact32 x = .fin (signField x) (2 ^ 23 + fracField x) (expField x - 150) false := by
  rw [exact32_eq, if_neg h255, if_neg h0]

/-! ### Rounding what the grid holds (R92, R93) -/

/-- R92: a magnitude on the grid stays, exact. -/
theorem roundMag_on_grid (mode : RMode) (neg : Bool) (m : Nat) {e q : Int} (draw : Nat) (h : q ≤ e) :
    roundMag mode neg m e false q draw = (m <<< (e - q).toNat, false, true) := by
  simp [roundMag, onGrid, h, chooseHi]

/-- R92, R93: the exponent of the grid on which a floating format holds the magnitude m × 2^e. -/
def Fmt.grid (f : Fmt) (m : Nat) (e : Int) : Int :=
  if e + Nat.log2 m < f.emin ∧ f.subn then f.emin - f.m else e + Nat.log2 m - f.m

/-- R93: a magnitude that lies on its own grid and is at most MAXF rounds to its code, without a flag. -/
theorem roundFloat_on_grid {f : Fmt} (hs : f.s = true) (hsub : f.subn = true) (mode : RMode) (neg : Bool) {m : Nat} {e : Int}
    (draw : Nat) (hgrid : f.grid m e = e) (hmax : cmpMag m e f.maxMag.1 f.maxMag.2 ≠ .gt) :
    roundFloat f mode neg m e false draw = ⟨f.codeOf neg m e, 0, false, false⟩ := by
  unfold Fmt.grid at hgrid
  unfold roundFloat
  simp only [hgrid, roundMag_on_grid mode neg m draw (le_refl e)]
  simp [hs, hsub, hmax, flagIf]

theorem roundTo_on_grid {f : Fmt} (hs : f.s = true) (hsub : f.subn = true) (he : f.e ≠ 0) (mode : RMode) (neg : Bool) {m : Nat}
    {e : Int} (draw : Nat) (hgrid : f.grid m e = e) (hmax : cmpMag m e f.maxMag.1 f.maxMag.2 ≠ .gt) :
    roundTo f mode draw (.fin neg m e false) = ⟨f.codeOf neg m e, 0, false, false⟩ := by
  rw [roundTo, if_neg he]
  split
  next h => rw [Fmt.codeOf, if_pos h.1]; rfl
  exact roundFloat_on_grid hs hsub mode neg draw hgrid hmax

/-! ### FP32 (R83, R89) -/

/-- R89: a magnitude of 24 bits is at most MAXF. -/
theorem fp32_cmpMag_maxMag {m : Nat} {e : Int} (hm : m < 2 ^ 24) (he : e ≤ 104) :
    cmpMag m e fp32.maxMag.1 fp32.maxMag.2 ≠ .gt := by
  have hmax : fp32.maxMag = (2 ^ 24 - 1, 104) := by decide
  rw [hmax, cmpMag, Ne, compare_gt_iff_gt, min_eq_left he, sub_self, Int.toNat_zero, Nat.shiftLeft_zero, Nat.shiftLeft_eq]
  have := Nat.le_mul_of_pos_right (2 ^ 24 - 1) (Nat.two_pow_pos (104 - e).toNat)
  dsimp only
  omega

theorem log2_normal {m : Nat} (h : m < 2 ^ 23) : Nat.log2 (2 ^ 23 + m) = 23 :=
  (Nat.log2_eq_iff (by omega)).2 ⟨by omega, by omega⟩

theorem log2_subnormal {m : Nat} (h : m < 2 ^ 23) : Nat.log2 m < 23 := by
  rcases Nat.eq_zero_or_pos m with rfl | hpos
  · decide
  · exact (Nat.log2_lt hpos.ne').2 h

/-- R83, R89: a subnormal magnitude lies on its own grid. -/
theorem fp32_grid_subnormal {m : Nat} (h : m < 2 ^ 23) : fp32.grid m (-149) = -149 := by
  have hlog := log2_subnormal h
  rw [Fmt.grid, if_pos]
  · rfl
  · simp only [show fp32.emin = -126 from rfl, show fp32.subn = true from rfl, and_true]
    omega

/-- R83, R89: a normal magnitude lies on its own grid. -/
theorem fp32_grid_normal {m : Nat} {e : Int} (h : m < 2 ^ 23) (he : -149 ≤ e) : fp32.grid (2 ^ 23 + m) e = e := by
  rw [Fmt.grid, log2_normal h, if_neg]
  · simp [fp32]
  · simp only [show fp32.emin = -126 from rfl, show fp32.subn = true from rfl, and_true]
    omega

theorem fp32_code_subnormal (neg : Bool) {m : Nat} (h : m < 2 ^ 23) : fp32.codeOf neg m (-149) = fp32.signBit neg + m := by
  have hlog := log2_subnormal h
  have hlow : (-149 : Int) + Nat.log2 m < fp32.emin := by rw [show fp32.emin = -126 from rfl]; omega
  rw [Fmt.codeOf]
  split
  next h0 => rw [h0, Nat.add_zero]
  · rw [if_pos hlow]
    exact congrArg _ (Nat.mod_eq_of_lt h)

theorem fp32_code_normal (neg : Bool) {m : Nat} {e : Int} (h : m < 2 ^ 23) (he : -149 ≤ e) :
    fp32.codeOf neg (2 ^ 23 + m) e = fp32.signBit neg + (e + 150).toNat * 2 ^ 23 + m := by
  have hhigh : ¬ e + ((23 : Nat) : Int) < fp32.emin := by rw [show fp32.emin = -126 from rfl]; omega
  rw [Fmt.codeOf, if_neg (by omega), log2_normal h, if_neg hhigh]
  simp [fp32, add_assoc]

/-- R84, R93, R141: a code that is no NaN is the code of its exact value. -/
theorem roundTo_exact32 {x : Lane} (h : (exact32 x).isNan = false) :
    roundTo fp32 .rne 0 (exact32 x) = ⟨x.toNat, 0, false, false⟩ := by
  have hfrac := fracField_lt x
  rw [toNat_eq_fields x]
  by_cases h255 : expField x = 255
  · by_cases hm : fracField x = 0
    · rw [exact32_inf h255 hm, h255, hm]
      simp [roundTo, fp32, Fmt.hasInf, Fmt.infCode, Fmt.emaxf]
    · rw [exact32_nan h255 hm] at h
      exact absurd h nofun
  by_cases h0 : expField x = 0
  · rw [exact32_subnormal h0, roundTo_on_grid rfl rfl (by decide) _ _ _ (fp32_grid_subnormal hfrac)
      (fp32_cmpMag_maxMag (by omega) (by omega)), fp32_code_subnormal _ hfrac, h0, Nat.zero_mul, Nat.add_zero]
  · have hexp := expField_lt x
    rw [exact32_normal h0 h255, roundTo_on_grid rfl rfl (by decide) _ _ _ (fp32_grid_normal hfrac (by omega))
      (fp32_cmpMag_maxMag (by omega) (by omega)), fp32_code_normal _ hfrac (by omega), sub_add_cancel, Int.toNat_natCast]

/-- Settles O10. -/
theorem roundingKeepsCodes : Obligations.RoundingKeepsCodes := by
  unfold Obligations.RoundingKeepsCodes
  intro x h
  rw [rne32, roundTo_exact32 h, BitVec.ofNat_toNat, BitVec.setWidth_eq]
  rfl

end Sys2Proof.Machine
end

section
/-! SUPPORT. Vector registers (R44, R135 to R139): the lanes of a result merged under a mask, what a lane-wise instruction leaves
of its slot, and a register as the number of its 1,024 bits. -/

namespace Sys2Proof.Machine

/-! ### Lanes (R135) -/

theorem laneAt_of_lt (v : VReg) {l : Nat} (h : l < 32) : laneAt v l = v[l] := by
  rw [laneAt, List.getD_eq_getElem _ _ (by simpa using h), Vector.getElem_toList]

@[simp] theorem vecOf_getElem (g : Nat → Lane) {l : Nat} (h : l < 32) : (vecOf g)[l] = g l := Vector.getElem_ofFn h

section
variable (f : Slot) (d : BitVec 5) (q : BitVec 3)

/-- R135: an active lane takes the result, an inactive one keeps the destination's value. -/
theorem Slot.merged_getElem (g : Nat → Lane) {l : Nat} (h : l < 32) :
    (f.merged d q g)[l] = if f.on q l then g l else (f.vr d)[l] := by
  rw [Slot.merged, vecOf_getElem _ h, laneAt_of_lt _ h]

/-- R135, R138, R139: the results of the active lanes land, with the flags and saturations of those lanes. -/
theorem Slot.laneResults_eq (g : Nat → Flagged Lane) : f.laneResults d q g
    = ((f.landV d (f.merged d q fun l => (g l).val)).raiseLate ((f.activeLanes q).foldl (fun w l => w ||| (g l).flags) 0)).addHidden
      ((f.activeLanes q).foldl (fun n l => n + (g l).sat) 0) := by
  rw [Slot.laneResults, flagsOf, satOf, List.foldl_map, List.foldl_map]
  rfl

end

section
variable {k : Bool} {d : BitVec 5} {q : BitVec 3} {s : State} {i : Instr}

/-- R138: what a lane-wise operation leaves, after the reads of its slot. -/
theorem does_of_lanewise {t : Slot} {g : Nat → Flagged Lane} (hi : exec i s = lanewise k d q g (s.withFocus t)) :
    ∃ v : VReg, Does i s ((((t.landV d v).raiseLate ((t.activeLanes q).foldl (fun w l => w ||| (g l).flags) 0)).addHidden
        ((t.activeLanes q).foldl (fun n l => n + (g l).sat) 0)).advance k)
      ∧ ∀ l (h : l < 32), v[l] = if t.on q l then (g l).val else (t.vr d)[l] := by
  refine ⟨_, ?_, fun l h => t.merged_getElem d q _ h⟩
  rw [Does, hi, lanewise, State.withFocus_focus, Slot.laneResults_eq]
  rfl

theorem landsLanes_of_lanewise {g : Nat → Flagged Lane} (hi : exec i s = lanewise k d q g s) : LandsLanes i k d q s g :=
  does_of_lanewise (t := s.focus) hi

/-- R138: what a lane-wise operation that raises nothing leaves. -/
theorem landsPure_of_lanePure {g : Nat → Lane} (hi : exec i s = lanePure k d q g s) : LandsPure i k d q s g :=
  ⟨s.focus.merged d q g, hi, fun _ h => s.focus.merged_getElem d q g h⟩

end

/-! ### A register as a number (R44) -/

/-- The number of 32-bit words, the lowest first. -/
def wordsNat : List Lane → Nat := List.foldr (fun x n => x.toNat + 2 ^ 32 * n) 0

theorem vregNat_eq (v : VReg) : vregNat v = wordsNat v.toList := rfl

theorem wordsNat_lt (l : List Lane) : wordsNat l < 2 ^ (32 * l.length) := by
  induction l with
  | nil => simp [wordsNat]
  | cons x t ih =>
    have hx : x.toNat < 2 ^ 32 := x.isLt
    have hcons : wordsNat (x :: t) = x.toNat + 2 ^ 32 * wordsNat t := rfl
    rw [hcons, List.length_cons, Nat.mul_succ, Nat.add_comm, pow_add]
    nlinarith

theorem vregNat_lt (v : VReg) : vregNat v < 2 ^ 1024 := by
  simpa only [vregNat_eq, Vector.length_toList, Nat.reduceMul] using wordsNat_lt v.toList

/-- The words of a number from its word k on. -/
theorem wordsNat_range' (N : Nat) : ∀ n k : Nat,
    wordsNat ((List.range' k n).map fun l => BitVec.ofNat 32 (N >>> (32 * l))) = N / 2 ^ (32 * k) % 2 ^ (32 * n)
  | 0, k => by simp [wordsNat, Nat.mod_one]
  | n + 1, k => by
    have hcons (x : Lane) (t : List Lane) : wordsNat (x :: t) = x.toNat + 2 ^ 32 * wordsNat t := rfl
    rw [List.range'_succ, List.map_cons, hcons, wordsNat_range' N n (k + 1), BitVec.toNat_ofNat, Nat.shiftRight_eq_div_pow,
      Nat.mul_succ 32 n, Nat.add_comm (32 * n), pow_add 2 32, Nat.mod_mul, Nat.div_div_eq_div_mul, Nat.mul_succ 32 k, pow_add]

/-- R44: a register of a number holds it, modulo 2^1024. -/
theorem vregNat_vregOfNat (N : Nat) : vregNat (vregOfNat N) = N % 2 ^ 1024 := by
  have hlist : (vregOfNat N).toList = (List.range' 0 32).map fun l => BitVec.ofNat 32 (N >>> (32 * l)) := by
    apply List.ext_getElem
    · simp
    · intro i h1 h2
      simp [vregOfNat]
  rw [vregNat_eq, hlist, wordsNat_range']
  simp only [Nat.mul_zero, pow_zero, Nat.div_one, Nat.reduceMul]

/-! ### Codes at their packed places (R148) -/

theorem packedSum_succ (w : Nat) (c : Nat → Nat) (n : Nat) : packedSum w ((List.range (n + 1)).map fun l => (l, c l))
    = packedSum w ((List.range n).map fun l => (l, c l)) + c n % 2 ^ w * 2 ^ (w * n) := by
  simp [packedSum, List.range_succ, Nat.shiftLeft_eq]

theorem packedSum_lt (w : Nat) (c : Nat → Nat) (n : Nat) : packedSum w ((List.range n).map fun l => (l, c l)) < 2 ^ (w * n) := by
  induction n with
  | zero => simp [packedSum]
  | succ n ih =>
    have hc : c n % 2 ^ w < 2 ^ w := Nat.mod_lt _ (Nat.two_pow_pos w)
    rw [packedSum_succ, Nat.mul_succ, pow_add]
    nlinarith

/-- R148: the codes below a place do not reach it. -/
theorem packed_div (w : Nat) (c : Nat → Nat) (n h : Nat) :
    (packedSum w ((List.range n).map fun l => (l, c l)) + 2 ^ (w * n) * h) / 2 ^ (w * n) = h := by
  rw [Nat.add_mul_div_left _ _ (Nat.two_pow_pos _), Nat.div_eq_of_lt (packedSum_lt w c n), Nat.zero_add]

/-- R148: each code stands at its own place. -/
theorem packed_digit (w : Nat) (c : Nat → Nat) {j : Nat} : ∀ n h, j < n →
    (packedSum w ((List.range n).map fun l => (l, c l)) + 2 ^ (w * n) * h) / 2 ^ (w * j) % 2 ^ w = c j % 2 ^ w
  | n + 1, h, hj => by
    have hsplit : packedSum w ((List.range (n + 1)).map fun l => (l, c l)) + 2 ^ (w * (n + 1)) * h
        = packedSum w ((List.range n).map fun l => (l, c l)) + 2 ^ (w * n) * (c n % 2 ^ w + 2 ^ w * h) := by
      rw [packedSum_succ, Nat.mul_succ, pow_add]
      ring
    rw [hsplit]
    rcases Nat.lt_succ_iff_lt_or_eq.1 hj with hlt | rfl
    · exact packed_digit w c n _ hlt
    · rw [packed_div, Nat.add_mul_mod_self_left, Nat.mod_mod]

end Sys2Proof.Machine
end

section
/-! SUPPORT. O14: the conversions (R146 to R148). -/

namespace Sys2Proof.Machine

/-! ### What a conversion leaves of its slot (R139, R146) -/

theorem flagsOf_lanes (g : Nat → Rounded) (l : List Nat) :
    flagsOf (l.map fun j => (g j).lane) = l.foldl (fun w j => w ||| (g j).flags) 0 := List.foldl_map

/-- R72: the saturations of rounded codes are counted one by one. -/
theorem foldl_sat_eq_length (g : Nat → Rounded) (l : List Nat) (n : Nat) :
    l.foldl (fun n j => n + (g j).lane.sat) n = n + (l.filter fun j => (g j).sat).length := by
  induction l generalizing n with
  | nil => rfl
  | cons j t ih =>
    rw [List.foldl_cons, ih, List.filter_cons]
    cases hs : (g j).sat <;> simp [Rounded.lane, hs]
    omega

theorem satOf_lanes (g : Nat → Rounded) (l : List Nat) :
    satOf (l.map fun j => (g j).lane) = (l.filter fun j => (g j).sat).length := by
  rw [satOf, List.foldl_map, foldl_sat_eq_length, Nat.zero_add]

section
variable {k : Bool} {d : BitVec 5} {r q : BitVec 3} {s : State} {i : Instr} {t : Slot}

/-- R146: what a conversion that rounds leaves, after the reads of its slot. -/
theorem rounds_of_convert {F : Fmt} {x : Nat → XR} (hi : exec i s = convert k d r q F x (s.withFocus t)) :
    ∃ v : VReg, Does i s (((((t.landV d v).raiseLate ((t.activeLanes q).foldl
          (fun w l => w ||| (roundTo F (t.modeOf r.toNat) (t.draw l) (x l)).flags) 0)).addHidden
        ((t.activeLanes q).filter fun l => (roundTo F (t.modeOf r.toNat) (t.draw l) (x l)).sat).length).countSr
          (t.modeOf r.toNat)).advance k)
      ∧ ∀ l (h : l < 32), v[l] =
        if t.on q l then BitVec.ofNat 32 (roundTo F (t.modeOf r.toNat) (t.draw l) (x l)).code else (t.vr d)[l] := by
  refine ⟨_, ?_, fun l h => t.merged_getElem d q _ h⟩
  rw [Does, hi, convert, State.withFocus_focus]
  rw [Slot.laneResults_eq, foldl_sat_eq_length, Nat.zero_add]
  rfl

end

/-! ### VPACK and VUNPACK (R148) -/

theorem packedCode_eq (v : VReg) (w l : Nat) : packedCode v w l = vregNat v / 2 ^ (w * l) % 2 ^ w := by
  rw [packedCode, Nat.shiftRight_eq_div_pow]

/-- R85: a format's code has at most 15 bits. -/
theorem fmtOfWord_width_lt (F : Word) : (fmtOfWord F).width < 16 := Nat.mod_lt _ (by decide)

/-- R148: 32 codes below the other bits of a register. -/
theorem vregNat_packed {w : Nat} (hw : w < 16) (c : Nat → Nat) (old : VReg) :
    vregNat (vregOfNat (packedSum w ((List.range 32).map fun l => (l, c l)) + (vregNat old >>> (32 * w)) <<< (32 * w)))
      = packedSum w ((List.range 32).map fun l => (l, c l)) + 2 ^ (w * 32) * (vregNat old / 2 ^ (w * 32)) := by
  have hlow := packedSum_lt w c 32
  have hhigh : 2 ^ (w * 32) * (vregNat old / 2 ^ (w * 32) + 1) ≤ 2 ^ 1024 := by
    have hsplit : (2 : Nat) ^ 1024 = 2 ^ (w * 32) * 2 ^ (1024 - w * 32) := by rw [← pow_add]; congr 1; omega
    rw [hsplit]
    refine Nat.mul_le_mul_left _ (Nat.succ_le_of_lt ((Nat.div_lt_iff_lt_mul (Nat.two_pow_pos _)).2 ?_))
    rw [Nat.mul_comm, ← hsplit]
    exact vregNat_lt old
  rw [vregNat_vregOfNat, Nat.shiftRight_eq_div_pow, Nat.shiftLeft_eq, Nat.mul_comm 32 w, Nat.mul_comm (_ / _), Nat.mod_eq_of_lt]
  rw [Nat.mul_succ] at hhigh
  omega

/-- R148: what VPACK leaves, after the reads of its slot: each active lane's code at its place, every other bit as it was. -/
theorem vpack_packs {w : Nat} (hw : w < 16) (on : Nat → Bool) (g : Nat → Nat) (old : VReg) :
    let v := vregOfNat (packedSum w ((List.range 32).map fun l => (l, if on l then g l else packedCode old w l))
      + (vregNat old >>> (32 * w)) <<< (32 * w))
    (∀ l < 32, vregNat v / 2 ^ (w * l) % 2 ^ w = if on l then g l % 2 ^ w else vregNat old / 2 ^ (w * l) % 2 ^ w)
      ∧ vregNat v / 2 ^ (32 * w) = vregNat old / 2 ^ (32 * w) := by
  intro v
  have hv := vregNat_packed hw (fun l => if on l then g l else packedCode old w l) old
  refine ⟨fun l hl => ?_, ?_⟩
  · rw [hv, packed_digit _ _ _ _ hl, packedCode_eq]
    split
    · rfl
    · exact Nat.mod_mod _ _
  · rw [hv, Nat.mul_comm 32 w, packed_div]

/-- Settles O14: a form with a rounding mode is `convert`, one that widens is `lanewise`, each after the read of FMTk where it names
one; VPACK's codes stand at their packed places. -/
theorem vectorConversions : Obligations.VectorConversions := by
  unfold Obligations.VectorConversions
  intro k d a r c q s
  refine ⟨rounds_of_convert (t := s.focus) rfl, rounds_of_convert (t := s.focus) rfl, rounds_of_convert (t := s.focus) rfl,
    rounds_of_convert (t := s.focus) rfl, rounds_of_convert rfl, does_of_lanewise (t := s.focus) rfl,
    does_of_lanewise (t := s.focus) rfl, does_of_lanewise rfl, ?unpack, ?pack⟩
  case unpack =>
    simp only [← packedCode_eq]
    exact does_of_lanewise rfl
  case pack =>
    refine ⟨_, ?_, vpack_packs (fmtOfWord_width_lt _) (activeLane s q) _ _⟩
    change execVpack k d a r c q s = _
    simp only [execVpack, flagsOf_lanes, satOf_lanes]
    rfl

end Sys2Proof.Machine
end

section
/-! SUPPORT. The order of FP32 codes (R84, R141, R151): a finite code's magnitude in units of 2^−149, and the comparison of two
codes that are no NaN. -/

namespace Sys2Proof.Machine

/-! ### Magnitudes -/

/-- The code of a value's magnitude. -/
def magField (x : Lane) : Nat := x.toNat % 2 ^ 31

theorem magField_eq (x : Lane) : magField x = expField x * 2 ^ 23 + fracField x := by
  rw [magField, expField, fracField]
  omega

theorem nanCode_iff (x : Lane) : nanCode x ↔ expField x = 255 ∧ fracField x ≠ 0 := by
  have h := magField_eq x
  have he := expField_lt x
  have hm := fracField_lt x
  rw [nanCode, show x.toNat % 2 ^ 31 = magField x from rfl]
  omega

theorem isNan_exact32 (x : Lane) : (exact32 x).isNan = true ↔ nanCode x := by
  rw [nanCode_iff, exact32_eq]
  split
  next he =>
    split
    next hm => simp [XR.isNan, hm]
    next hm => simp [XR.isNan, he, hm]
  next he =>
    simp only [he, false_and, iff_false]
    split <;> simp [XR.isNan]

/-- R89, R99: the magnitude of a finite code in units of 2^−149. -/
def magUnits (n : Nat) : Nat := if n / 2 ^ 23 = 0 then n % 2 ^ 23 else (2 ^ 23 + n % 2 ^ 23) * 2 ^ (n / 2 ^ 23 - 1)

/-- A larger magnitude has the larger code. -/
theorem magUnits_strictMono : StrictMono magUnits := by
  refine strictMono_nat_of_lt_succ fun n => ?_
  by_cases hr : (n + 1) % 2 ^ 23 = 0
  · have hq : (n + 1) / 2 ^ 23 = n / 2 ^ 23 + 1 := by omega
    have hn : n % 2 ^ 23 = 2 ^ 23 - 1 := by omega
    rw [magUnits, magUnits, if_neg (c := (n + 1) / 2 ^ 23 = 0) (by omega), hq, hr, hn, Nat.add_sub_cancel]
    split
    next h0 => rw [h0]; decide
    next h0 =>
      obtain ⟨q, hq'⟩ := Nat.exists_eq_succ_of_ne_zero h0
      have := Nat.two_pow_pos q
      rw [hq', Nat.succ_sub_one, Nat.succ_eq_add_one, pow_succ 2 q]
      omega
  · have hq : (n + 1) / 2 ^ 23 = n / 2 ^ 23 := by omega
    have hn : (n + 1) % 2 ^ 23 = n % 2 ^ 23 + 1 := by omega
    rw [magUnits, magUnits, hq, hn]
    split
    · exact Nat.lt_succ_self _
    · exact Nat.mul_lt_mul_of_pos_right (by omega) (Nat.two_pow_pos _)

/-- R89: a finite code's exact value, its magnitude in units of 2^−149. -/
theorem exact32_finite {x : Lane} (h : magField x < 0x7F800000) : ∃ m e, exact32 x = .fin (signField x) m e false
    ∧ -149 ≤ e ∧ m * 2 ^ (e + 149).toNat = magUnits (magField x) ∧ (m = 0 ↔ magField x = 0) := by
  have hmag := magField_eq x
  have hm := fracField_lt x
  have hq : magField x / 2 ^ 23 = expField x := by omega
  have hr : magField x % 2 ^ 23 = fracField x := by omega
  rw [magUnits, hq, hr]
  by_cases h0 : expField x = 0
  · refine ⟨_, _, exact32_subnormal h0, le_refl _, ?_, by omega⟩
    rw [if_pos h0, show (-149 + 149 : Int).toNat = 0 from rfl, pow_zero, Nat.mul_one]
  · refine ⟨_, _, exact32_normal h0 (by omega), by omega, ?_, by omega⟩
    rw [if_neg h0]
    congr 2
    omega

theorem exact32_infinite {x : Lane} (h : magField x = 0x7F800000) : exact32 x = .inf (signField x) := by
  have hmag := magField_eq x
  have he := expField_lt x
  have hm := fracField_lt x
  exact exact32_inf (by omega) (by omega)

/-! ### The comparison (R141) -/

/-- The place of a signed magnitude in the order of values, −0 just below +0. -/
def signedRank (neg : Bool) (n : Nat) : Int := if neg then -1 - (n : Int) else n

theorem codeRank_eq (x : Lane) : codeRank x = signedRank (signField x) (magField x) := by
  have hlt : x.toNat < 2 ^ 32 := x.isLt
  rw [codeRank, signedRank, magField]
  simp only [signField, decide_eq_true_eq]
  split <;> split <;> omega

theorem XR.isZero_fin (n : Bool) (m : Nat) (e : Int) : (XR.fin n m e false).isZero = decide (m = 0) := by
  cases m <;> rfl

theorem compare_nat (a b : Nat) : compare a b = if a < b then .lt else if a = b then .eq else .gt := rfl

theorem compare_int (a b : Int) : compare a b = if a < b then .lt else if a = b then .eq else .gt := rfl

/-- R141: two finite values whose magnitudes compare as two numbers compare as those numbers with their signs. -/
theorem cmpZeroed_fin {n1 n2 : Bool} {m1 m2 k1 k2 : Nat} {e1 e2 : Int} (hk : cmpMag m1 e1 m2 e2 = compare k1 k2)
    (hk' : cmpMag m2 e2 m1 e1 = compare k2 k1) (h1 : m1 = 0 ↔ k1 = 0) (h2 : m2 = 0 ↔ k2 = 0) :
    cmpZeroed (.fin n1 m1 e1 false) (.fin n2 m2 e2 false) = compare (signedRank n1 k1) (signedRank n2 k2) := by
  simp only [cmpZeroed, XR.isZero_fin, XR.cmp, XR.isNeg, hk, hk', h1, h2, compare_nat, compare_int, signedRank]
  cases n1 <;> cases n2
  case false.false => grind
  case false.true => grind
  case true.false => grind
  case true.true => grind

/-- R141: an infinity is beyond every finite value. -/
theorem cmpZeroed_inf_fin {n1 n2 : Bool} {m k K : Nat} {e : Int} (h : k < K) :
    cmpZeroed (.inf n1) (.fin n2 m e false) = compare (signedRank n1 K) (signedRank n2 k) := by
  simp only [cmpZeroed, XR.isZero, XR.cmp, compare_int, signedRank]
  cases n1 <;> cases n2 <;> grind

theorem cmpZeroed_fin_inf {n1 n2 : Bool} {m k K : Nat} {e : Int} (h : k < K) :
    cmpZeroed (.fin n1 m e false) (.inf n2) = compare (signedRank n1 k) (signedRank n2 K) := by
  simp only [cmpZeroed, XR.isZero, XR.cmp, compare_int, signedRank]
  cases n1 <;> cases n2 <;> grind

theorem cmpZeroed_inf_inf (n1 n2 : Bool) (K : Nat) :
    cmpZeroed (.inf n1) (.inf n2) = compare (signedRank n1 K) (signedRank n2 K) := by
  simp only [cmpZeroed, XR.isZero, XR.cmp, compare_int, signedRank]
  cases n1 <;> cases n2 <;> grind

/-- Magnitudes compare as numbers of a unit below both. -/
theorem cmpMag_eq_compare {m1 m2 : Nat} {e1 e2 q : Int} (h1 : q ≤ e1) (h2 : q ≤ e2) :
    cmpMag m1 e1 m2 e2 = compare (m1 * 2 ^ (e1 - q).toNat) (m2 * 2 ^ (e2 - q).toNat) := by
  have hsplit (m : Nat) {e : Int} (h : min e1 e2 ≤ e) :
      m * 2 ^ (e - q).toNat = m <<< (e - min e1 e2).toNat * 2 ^ (min e1 e2 - q).toNat := by
    rw [Nat.shiftLeft_eq, mul_assoc, ← pow_add]
    congr 2
    omega
  have hpos : 0 < 2 ^ (min e1 e2 - q).toNat := Nat.two_pow_pos _
  rw [hsplit m1 (min_le_left ..), hsplit m2 (min_le_right ..), cmpMag, ← cmp_eq_compare, ← cmp_eq_compare, cmp_mul_pos_right hpos]

theorem cmpMag_of_units {m1 m2 n1 n2 : Nat} {e1 e2 : Int} (h1 : -149 ≤ e1) (h2 : -149 ≤ e2)
    (hm1 : m1 * 2 ^ (e1 + 149).toNat = magUnits n1) (hm2 : m2 * 2 ^ (e2 + 149).toNat = magUnits n2) :
    cmpMag m1 e1 m2 e2 = compare n1 n2 := by
  rw [cmpMag_eq_compare h1 h2, sub_neg_eq_add, sub_neg_eq_add, hm1, hm2, ← cmp_eq_compare, ← cmp_eq_compare,
    magUnits_strictMono.cmp_map_eq]

/-- R141, R151: codes that are no NaN compare as their places in the order of values. -/
theorem cmpZeroed_exact32 {x y : Lane} (hx : ¬nanCode x) (hy : ¬nanCode y) :
    cmpZeroed (exact32 x) (exact32 y) = compare (codeRank x) (codeRank y) := by
  rw [codeRank_eq, codeRank_eq]
  rcases lt_or_eq_of_le (not_lt.1 hx : magField x ≤ _) with hx | hx <;>
    rcases lt_or_eq_of_le (not_lt.1 hy : magField y ≤ _) with hy | hy
  · obtain ⟨m1, e1, h1, he1, hu1, hz1⟩ := exact32_finite hx
    obtain ⟨m2, e2, h2, he2, hu2, hz2⟩ := exact32_finite hy
    rw [h1, h2]
    exact cmpZeroed_fin (cmpMag_of_units he1 he2 hu1 hu2) (cmpMag_of_units he2 he1 hu2 hu1) hz1 hz2
  · obtain ⟨m1, e1, h1, _⟩ := exact32_finite hx
    rw [h1, exact32_infinite hy, hy]
    exact cmpZeroed_fin_inf hx
  · obtain ⟨m2, e2, h2, _⟩ := exact32_finite hy
    rw [h2, exact32_infinite hx, hx]
    exact cmpZeroed_inf_fin hy
  · rw [exact32_infinite hx, exact32_infinite hy, hx, hy]
    exact cmpZeroed_inf_inf _ _ _

theorem nanCode_nan32 : nanCode nan32 := (isNan_exact32 nan32).1 (by decide)

section
variable {x y : Lane}

theorem maxF_of_nan (h : nanCode x ∨ nanCode y) : maxF x y = nan32 := by
  rw [← isNan_exact32, ← isNan_exact32, ← Bool.or_eq_true] at h
  exact if_pos h

theorem minF_of_nan (h : nanCode x ∨ nanCode y) : minF x y = nan32 := by
  rw [← isNan_exact32, ← isNan_exact32, ← Bool.or_eq_true] at h
  exact if_pos h

theorem not_nan_or (hx : ¬nanCode x) (hy : ¬nanCode y) : ((exact32 x).isNan || (exact32 y).isNan) = false := by
  rw [← isNan_exact32, Bool.not_eq_true] at hx hy
  rw [hx, hy]
  rfl

/-- R141: the larger of two values that are no NaN. -/
theorem maxF_eq (hx : ¬nanCode x) (hy : ¬nanCode y) : maxF x y = if codeRank x < codeRank y then y else x := by
  simp only [maxF, not_nan_or hx hy, cmpZeroed_exact32 hx hy, compare_lt_iff_lt, Bool.false_eq_true, if_false]

/-- R141: the smaller of two values that are no NaN. -/
theorem minF_eq (hx : ¬nanCode x) (hy : ¬nanCode y) : minF x y = if codeRank y < codeRank x then y else x := by
  simp only [minF, not_nan_or hx hy, cmpZeroed_exact32 hx hy, compare_gt_iff_gt, Bool.false_eq_true, if_false]

end

end Sys2Proof.Machine
end

section
/-! SUPPORT. O15: the reductions (R98 to R100, R149 to R151): the pairwise tree, the extremes and their lanes, XA320 and the
scans. -/

namespace Sys2Proof.Machine

/-! ### The active lanes (R135) -/

theorem mem_activeLanes {s : State} {q : BitVec 3} {l : Nat} :
    l ∈ s.focus.activeLanes q ↔ l < 32 ∧ activeLane s q l = true := by
  rw [Slot.activeLanes, List.mem_filter, List.mem_range]
  rfl

theorem activeLanes_ascending (f : Slot) (q : BitVec 3) : (f.activeLanes q).Pairwise (· < ·) :=
  List.pairwise_lt_range.filter _

theorem sum_filter_range {M : Type} [AddCommMonoid M] (p : Nat → Bool) (g : Nat → M) (n : Nat) :
    (((List.range n).filter p).map g).sum = ∑ l ∈ (Finset.range n).filter fun l => p l = true, g l := by
  induction n with
  | zero => rfl
  | succ n ih =>
    rw [List.range_succ, List.filter_append, List.map_append, List.sum_append, ih, Finset.range_add_one, Finset.filter_insert]
    cases hp : p n
    · simp [hp]
    · simp [hp, add_comm]

/-! ### TREE_SUM (R100) -/

/-- R100: two nodes of a level joined, the one that is there, or none. -/
def joinNodes : Option (Flagged Lane) → Option (Flagged Lane) → Option (Flagged Lane)
  | a, none => a
  | none, b => b
  | some a, some b => some ⟨(fadd a.val b.val).val, a.flags ||| b.flags ||| (fadd a.val b.val).flags, 0⟩

theorem treeLevel_cons (a b : Option (Flagged Lane)) (t : List (Option (Flagged Lane))) :
    treeLevel (a :: b :: t) = joinNodes a b :: treeLevel t := by
  cases a <;> cases b <;> rfl

/-- A node of the tree counts no saturations. -/
theorem treeNode_sat (X : Nat → Option Lane) (n l : Nat) : ∀ r, treeNode X n l = some r → r.sat = 0 := by
  induction n generalizing l with
  | zero =>
    intro r h
    obtain ⟨v, _, rfl⟩ := Option.map_eq_some_iff.1 h
    rfl
  | succ n ih =>
    intro r h
    rw [treeNode] at h
    split at h
    · exact ih _ _ h
    · exact ih _ _ h
    next a b ha hb =>
      obtain rfl := Option.some.inj h
      simp [ih _ _ ha, ih _ _ hb, fadd, fpRound, Flagged.mk']

theorem treeNode_succ (X : Nat → Option Lane) (n l : Nat) :
    treeNode X (n + 1) l = joinNodes (treeNode X n l) (treeNode X n (l + 2 ^ n)) := by
  rw [treeNode]
  cases ha : treeNode X n l <;> cases hb : treeNode X n (l + 2 ^ n)
  case some.some a b => simp [joinNodes, treeNode_sat X n _ a ha, treeNode_sat X n _ b hb, fadd, fpRound, Flagged.mk']
  all_goals rfl

/-- R100: a level of the tree pairs neighbours. -/
theorem treeLevel_nodes (X : Nat → Option Lane) (n : Nat) : ∀ k j : Nat,
    treeLevel ((List.range' (2 * j) (2 * k)).map fun i => treeNode X n (2 ^ n * i))
      = (List.range' j k).map fun i => treeNode X (n + 1) (2 ^ (n + 1) * i)
  | 0, j => rfl
  | k + 1, j => by
    have hleft : 2 ^ (n + 1) * j = 2 ^ n * (2 * j) := by ring
    have hright : 2 ^ n * (2 * j) + 2 ^ n = 2 ^ n * (2 * j + 1) := by ring
    have hnode := treeNode_succ X n (2 ^ (n + 1) * j)
    rw [hleft, hright] at hnode
    rw [Nat.mul_succ, List.range'_succ, List.range'_succ, List.range'_succ, List.map_cons, List.map_cons, List.map_cons,
      treeLevel_cons, hleft, hnode]
    exact congrArg _ (treeLevel_nodes X n k (j + 1))

/-- R100: TREE_SUM is the fifth level's only node. -/
theorem treeSum_eq (X : Nat → Option Lane) :
    treeSum ((List.range 32).map X) = (treeNode X 5 0).getD ⟨0, 0, 0⟩ := by
  have hlevel (n k : Nat) := treeLevel_nodes X n k 0
  have h0 : ((List.range 32).map X).map (Option.map Flagged.pure)
      = (List.range' (2 * 0) (2 * 16)).map fun i => treeNode X 0 (2 ^ 0 * i) := by
    rw [List.map_map, List.range_eq_range']
    refine List.map_congr_left fun i _ => ?_
    rw [pow_zero, Nat.one_mul]
    rfl
  rw [treeSum, h0]
  have h1 := hlevel 0 16
  have h2 := hlevel 1 8
  have h3 := hlevel 2 4
  have h4 := hlevel 3 2
  have h5 := hlevel 4 1
  simp only [Nat.mul_zero, Nat.reduceMul] at h1 h2 h3 h4 h5 ⊢
  rw [h1, h2, h3, h4, h5]
  cases h : treeNode X 5 0 <;> simp [h, Flagged.pure]

/-! ### The extremes (R149) -/

/-- R141: an operation that gives the canonical NaN where an operand is NaN, else the operand of the larger key, the first on a
tie. -/
structure Picks (key : Lane → Int) (op : Lane → Lane → Lane) : Prop where
  nan : ∀ {x y}, nanCode x ∨ nanCode y → op x y = nan32
  pick : ∀ {x y}, ¬nanCode x → ¬nanCode y → op x y = if key x < key y then y else x

theorem picks_maxF : Picks codeRank maxF := ⟨maxF_of_nan, maxF_eq⟩

theorem picks_minF : Picks (fun x => -codeRank x) minF :=
  ⟨minF_of_nan, fun hx hy => by rw [minF_eq hx hy]; simp only [neg_lt_neg_iff]⟩

section
variable {key : Lane → Int} {op : Lane → Lane → Lane} (h : Picks key op)
include h

theorem Picks.foldl_nan32 (t : List Lane) : t.foldl op nan32 = nan32 := by
  induction t with
  | nil => rfl
  | cons x t ih => rw [List.foldl_cons, h.nan (.inl nanCode_nan32), ih]

theorem Picks.foldl_of_nan {t : List Lane} (b : Lane) (hnan : ∃ x ∈ t, nanCode x) : t.foldl op b = nan32 := by
  obtain ⟨x, hx, hnan⟩ := hnan
  obtain ⟨l, r, rfl⟩ := List.append_of_mem hx
  rw [List.foldl_append, List.foldl_cons, h.nan (.inr hnan), h.foldl_nan32]

/-- Values that are no NaN: the fold gives one of them, and none has a larger key. -/
theorem Picks.foldl_greatest (t : List Lane) : ∀ b, (∀ x ∈ b :: t, ¬nanCode x) →
    t.foldl op b ∈ b :: t ∧ ∀ x ∈ b :: t, key x ≤ key (t.foldl op b) := by
  induction t with
  | nil => simp
  | cons x t ih =>
    intro b hno
    rw [List.forall_mem_cons, List.forall_mem_cons] at hno
    obtain ⟨hb, hx, ht⟩ := hno
    have hpick := h.pick hb hx
    by_cases hlt : key b < key x
    · rw [if_pos hlt] at hpick
      obtain ⟨hmem, hmax⟩ := ih x (List.forall_mem_cons.2 ⟨hx, ht⟩)
      rw [List.foldl_cons, hpick]
      exact ⟨List.mem_cons_of_mem _ hmem, List.forall_mem_cons.2 ⟨hlt.le.trans (hmax x List.mem_cons_self), hmax⟩⟩
    · rw [if_neg hlt] at hpick
      obtain ⟨hmem, hmax⟩ := ih b (List.forall_mem_cons.2 ⟨hb, ht⟩)
      rw [List.forall_mem_cons] at hmax
      rw [List.foldl_cons, hpick]
      refine ⟨List.cons_subset_cons _ (List.subset_cons_self ..) hmem, ?_⟩
      exact List.forall_mem_cons.2 ⟨hmax.1, List.forall_mem_cons.2 ⟨(not_lt.1 hlt).trans hmax.1, hmax.2⟩⟩

/-- R149: the extreme of a list of lanes. -/
theorem Picks.extremeF_nan {l : List Lane} (empty : Lane) (hnan : ∃ x ∈ l, nanCode x) : extremeF op l empty = nan32 := by
  cases l with
  | nil => simp at hnan
  | cons x t =>
    by_cases hx : nanCode x
    · rw [extremeF, h.nan (.inl hx), h.foldl_nan32]
    · refine h.foldl_of_nan _ ?_
      obtain ⟨y, hy, hnan⟩ := hnan
      rcases List.mem_cons.1 hy with rfl | hy
      · exact absurd hnan hx
      · exact ⟨y, hy, hnan⟩

theorem Picks.extremeF_greatest {l : List Lane} (empty : Lane) (hne : l ≠ []) (hno : ∀ x ∈ l, ¬nanCode x) :
    extremeF op l empty ∈ l ∧ ∀ x ∈ l, key x ≤ key (extremeF op l empty) := by
  cases l with
  | nil => exact absurd rfl hne
  | cons x t =>
    have hx := hno x List.mem_cons_self
    have hself : op x x = x := (h.pick hx hx).trans (if_neg (lt_irrefl _))
    rw [extremeF, hself]
    exact h.foldl_greatest t x hno

/-- R149: VRMAX.F and VRMIN.F. -/
theorem Picks.isExtreme (s : State) (a : BitVec 5) (q : BitVec 3) (empty : Lane) {better : Int → Int → Prop}
    (hb : ∀ x y, key y ≤ key x → better (codeRank x) (codeRank y)) :
    IsExtreme s a q empty better (extremeF op (s.activeVals a q) empty) := by
  have hmem {x : Lane} : x ∈ s.activeVals a q ↔ ∃ l < 32, activeLane s q l = true ∧ s.lane a l = x := by
    simp only [State.activeVals, List.mem_map, mem_activeLanes, and_assoc]
  refine ⟨fun hnone => ?none, fun ⟨l, hl, hon, hnan⟩ => h.extremeF_nan _ ⟨_, hmem.2 ⟨l, hl, hon, rfl⟩, hnan⟩,
    fun ⟨l, hl, hon⟩ hno => ?some⟩
  case none =>
    have hnil : s.activeVals a q = [] := List.eq_nil_iff_forall_not_mem.2 fun x hx => by
      obtain ⟨l, hl, hon, -⟩ := hmem.1 hx
      rw [hnone l hl] at hon
      exact absurd hon nofun
    rw [hnil]
    rfl
  case some =>
    have hlane := hmem.2 ⟨l, hl, hon, rfl⟩
    obtain ⟨hin, hmax⟩ := h.extremeF_greatest empty (List.ne_nil_of_mem hlane) fun x hx => by
      obtain ⟨j, hj, hjon, rfl⟩ := hmem.1 hx
      exact hno j hj hjon
    exact ⟨hmem.1 hin, fun j hj hjon => hb _ _ (hmax _ (hmem.2 ⟨j, hj, hjon, rfl⟩))⟩

end

/-! ### The lane of the extreme (R151) -/

/-- The first lane of a list in ascending order that meets a condition is the lowest. -/
theorem find?_lowest {p : Nat → Bool} {l : List Nat} (hl : l.Pairwise (· < ·)) {i : Nat} (hi : l.find? p = some i) :
    i ∈ l ∧ p i = true ∧ ∀ j ∈ l, p j = true → i ≤ j := by
  obtain ⟨hp, as, bs, rfl, has⟩ := List.find?_eq_some_iff_append.1 hi
  refine ⟨by simp, hp, fun j hj hpj => ?_⟩
  rcases List.mem_append.1 hj with hj | hj
  · simpa [hpj] using has j hj
  · rcases List.mem_cons.1 hj with rfl | hj
    · exact le_refl _
    · exact ((List.pairwise_cons.1 (List.pairwise_append.1 hl).2.1).1 j hj).le

/-- Over lanes in ascending order a scan that keeps a lane of larger key gives the lowest of those with the largest. -/
theorem foldl_lowest_greatest {P : Nat → Prop} {key : Nat → Int} {step : Nat → Nat → Nat}
    (hstep : ∀ b j, P b → P j → step b j = if key b < key j then j else b) (t : List Nat) : ∀ b, (∀ j ∈ b :: t, P j) →
    (b :: t).Pairwise (· < ·) → t.foldl step b ∈ b :: t ∧ ∀ j ∈ b :: t, key j ≤ key (t.foldl step b)
      ∧ (key (t.foldl step b) ≤ key j → t.foldl step b ≤ j) := by
  induction t with
  | nil => simp
  | cons x t ih =>
    intro b hP hsort
    rw [List.forall_mem_cons, List.forall_mem_cons] at hP
    obtain ⟨hb, hx, ht⟩ := hP
    rw [List.pairwise_cons, List.forall_mem_cons] at hsort
    obtain ⟨⟨hbx, hbt⟩, hxt⟩ := hsort
    have hstep := hstep b x hb hx
    rw [List.foldl_cons]
    by_cases hlt : key b < key x
    · rw [if_pos hlt] at hstep
      obtain ⟨hmem, hmax⟩ := ih x (List.forall_mem_cons.2 ⟨hx, ht⟩) hxt
      rw [hstep]
      have hxmax := (hmax x List.mem_cons_self).1
      exact ⟨List.mem_cons_of_mem _ hmem, List.forall_mem_cons.2 ⟨⟨by omega, by omega⟩, hmax⟩⟩
    · rw [if_neg hlt] at hstep
      obtain ⟨hmem, hmax⟩ := ih b (List.forall_mem_cons.2 ⟨hb, ht⟩) (List.pairwise_cons.2 ⟨hbt, (List.pairwise_cons.1 hxt).2⟩)
      rw [List.forall_mem_cons] at hmax
      obtain ⟨⟨hbmax, hblow⟩, hmax⟩ := hmax
      rw [hstep]
      refine ⟨List.cons_subset_cons _ (List.subset_cons_self ..) hmem, ?_⟩
      refine List.forall_mem_cons.2 ⟨⟨hbmax, hblow⟩, List.forall_mem_cons.2 ⟨⟨by omega, fun hle => ?_⟩, hmax⟩⟩
      exact (hblow (by omega)).trans hbx.le

/-- R151: VARGMAX and VARGMIN. -/
theorem isExtremeLane_argExtreme (s : State) (a : BitVec 5) (q : BitVec 3) {o : Ordering} {key : Lane → Int}
    {better : Int → Int → Prop} (hkey : ∀ x y, compare (codeRank x) (codeRank y) = o ↔ key y < key x)
    (hb : ∀ x y, better (codeRank x) (codeRank y) ↔ key y ≤ key x) :
    IsExtremeLane s a q better (argExtreme o (s.lane a) (s.focus.activeLanes q)) := by
  have hsort := activeLanes_ascending s.focus q
  have hmem {l : Nat} : l ∈ s.focus.activeLanes q ↔ l < 32 ∧ activeLane s q l = true := mem_activeLanes
  generalize hon : s.focus.activeLanes q = on at hsort hmem
  simp only [IsExtremeLane, ← hmem, hb]
  refine ⟨fun hnone => ?none, fun l hl hnan hlow => ?nan, fun l hl hno hbest hlow => ?best⟩
  case none =>
    rw [List.eq_nil_iff_forall_not_mem.2 hnone]
    rfl
  case nan =>
    cases hfind : on.find? fun l => (exact32 (s.lane a l)).isNan with
    | none =>
      have := List.find?_eq_none.1 hfind l hl
      rw [isNan_exact32] at this
      exact absurd hnan this
    | some i =>
      obtain ⟨hi, hinan, hilow⟩ := find?_lowest hsort hfind
      simp only [argExtreme, hfind]
      exact congrArg _ (le_antisymm (hilow l hl ((isNan_exact32 _).2 hnan)) (hlow i hi ((isNan_exact32 _).1 hinan)))
  case best =>
    have hfind : (on.find? fun l => (exact32 (s.lane a l)).isNan) = none :=
      List.find?_eq_none.2 fun j hj => by rw [isNan_exact32]; exact hno j hj
    cases on with
    | nil => simp at hl
    | cons b t =>
      simp only [argExtreme, hfind]
      obtain ⟨hin, hmax⟩ := foldl_lowest_greatest (P := fun j => ¬nanCode (s.lane a j)) (key := fun j => key (s.lane a j))
        (step := fun b j => if cmpZeroed (exact32 (s.lane a j)) (exact32 (s.lane a b)) = o then j else b)
        (fun b j hb hj => by simp only [cmpZeroed_exact32 hj hb, hkey]) t b hno hsort
      exact congrArg _ (le_antisymm ((hmax l hl).2 (hbest _ hin)) (hlow _ hin fun j hj => (hmax j hj).1))

/-! ### The image of an accumulator (R98) -/

theorem leBytes_add (m n x : Nat) : leBytes (m + n) x = leBytes m x ++ leBytes n (x / 256 ^ m) := by
  induction m generalizing x with
  | zero => simp [leBytes]
  | succ m ih =>
    rw [Nat.succ_add, leBytes, ih, leBytes, List.cons_append, Nat.div_div_eq_div_mul, pow_succ, Nat.mul_comm 256]

theorem leNat_append (a b : List Byte) : leNat (a ++ b) = leNat a + 256 ^ a.length * leNat b := by
  induction a with
  | nil => simp [leNat]
  | cons x t ih => rw [List.cons_append, leNat, leNat, ih, List.length_cons, pow_succ]; ring

theorem pow256 (n : Nat) : 256 ^ n = 2 ^ (8 * n) := by rw [pow_mul, show 2 ^ 8 = 256 from rfl]

theorem toNat_lt_pow {n : Nat} (x : BitVec n) : x.toNat < 2 ^ n := x.isLt

/-- R98: the number of three flags. -/
def flagBits (nan pinf ninf : Bool) : Nat := (if nan then 1 else 0) + (if pinf then 2 else 0) + (if ninf then 4 else 0)

theorem flagBits_lt : ∀ a b c, flagBits a b c < 8 := by decide

theorem flagBits_testBit : ∀ a b c, (flagBits a b c).testBit 0 = a ∧ (flagBits a b c).testBit 1 = b
    ∧ (flagBits a b c).testBit 2 = c := by decide

/-- R98: an accumulator as a number, its flags above its value. -/
def Xa.toNat (acc : Xa) : Nat := acc.v.toNat + 2 ^ 320 * flagBits acc.nan acc.pinf acc.ninf

theorem leNat_xaBytes (acc : Xa) : leNat acc.bytes = acc.toNat := by
  have hbytes : acc.bytes = leBytes 40 acc.v.toNat ++ leBytes 8 (flagBits acc.nan acc.pinf acc.ninf) := rfl
  have hf : flagBits acc.nan acc.pinf acc.ninf < 2 ^ (8 * 8) := Nat.lt_of_lt_of_le (flagBits_lt _ _ _) (by decide)
  rw [hbytes, leNat_append, leNat_leBytes, leNat_leBytes, leBytes_length, pow256, pow256, Nat.mod_eq_of_lt hf,
    Nat.mod_eq_of_lt (toNat_lt_pow acc.v)]
  simp only [Xa.toNat, Nat.reduceMul]

theorem add_mul_lt_pow {m n a b : Nat} (ha : a < 2 ^ m) (hb : b < 2 ^ n) : a + 2 ^ m * b < 2 ^ (m + n) := by
  rw [pow_add]
  nlinarith

theorem Xa.toNat_lt (acc : Xa) : acc.toNat < 2 ^ (320 + 3) := add_mul_lt_pow (toNat_lt_pow acc.v) (flagBits_lt _ _ _)

/-- R150: the register that holds an accumulator. -/
theorem vregNat_xaBytes (acc : Xa) : vregNat (vregOfNat (leNat acc.bytes)) = acc.toNat := by
  rw [vregNat_vregOfNat, leNat_xaBytes, Nat.mod_eq_of_lt]
  exact Nat.lt_of_lt_of_le acc.toNat_lt (pow_le_pow_right₀ (by decide) (by decide))

theorem Xa.toNat_mod (acc : Xa) : acc.toNat % 2 ^ 320 = acc.v.toNat := by
  rw [Xa.toNat, Nat.add_mul_mod_self_left, Nat.mod_eq_of_lt (toNat_lt_pow acc.v)]

theorem Xa.toNat_testBit (acc : Xa) :
    acc.toNat.testBit 320 = acc.nan ∧ acc.toNat.testBit 321 = acc.pinf ∧ acc.toNat.testBit 322 = acc.ninf := by
  have hbit (i : Nat) : acc.toNat.testBit (320 + i) = (flagBits acc.nan acc.pinf acc.ninf).testBit i := by
    rw [Xa.toNat, Nat.add_comm, Nat.testBit_two_pow_mul_add _ (toNat_lt_pow acc.v), if_neg (by omega), Nat.add_sub_cancel_left]
  obtain ⟨h0, h1, h2⟩ := flagBits_testBit acc.nan acc.pinf acc.ninf
  exact ⟨(hbit 0).trans h0, (hbit 1).trans h1, (hbit 2).trans h2⟩

/-- R98, R150: the accumulator that a register holds. -/
theorem xaOfReg_eq (v : VReg) : xaOfReg v = ⟨BitVec.ofNat 320 (vregNat v), (vregNat v).testBit 320, (vregNat v).testBit 321,
    (vregNat v).testBit 322⟩ := by
  have hlen := leBytes_length 40 (vregNat v)
  have hbit {i : Nat} (hi : i < 8 * 8) :
      decide (vregNat v / 2 ^ (8 * 40) % 2 ^ (8 * 8) / 2 ^ i % 2 = 1) = (vregNat v).testBit (320 + i) := by
    rw [← Nat.testBit_eq_decide_div_mod_eq, Nat.testBit_mod_two_pow, decide_eq_true hi, Bool.true_and,
      Nat.testBit_div_two_pow, Nat.add_comm]
  have h0 := hbit (i := 0) (by decide)
  rw [pow_zero, Nat.div_one] at h0
  have hv {n w : Nat} (h : n = w) (x : Nat) : BitVec.ofNat w (x % 2 ^ n) = BitVec.ofNat w x :=
    BitVec.eq_of_toNat_eq (by simp [h])
  rw [xaOfReg, Xa.ofBytes, show 48 = 40 + 8 from rfl, leBytes_add, List.drop_left' hlen, List.take_left' hlen, leNat_leBytes,
    leNat_leBytes, pow256, pow256, hv rfl]
  exact congr (congr (congrArg (Xa.mk _) h0) (hbit (i := 1) (by decide))) (hbit (i := 2) (by decide))

/-! ### Adding lanes (R99) -/

theorem codeUnits_eq (x : Lane) :
    codeUnits x = if signField x then -(magUnits (magField x) : Int) else magUnits (magField x) := by
  have hlt : x.toNat < 2 ^ 32 := x.isLt
  have hq : magField x / 2 ^ 23 = x.toNat / 2 ^ 23 % 256 := by rw [magField]; omega
  have hr : magField x % 2 ^ 23 = x.toNat % 2 ^ 23 := by rw [magField]; omega
  rw [codeUnits, magUnits, hq, hr, signField]
  by_cases h : x.toNat < 2 ^ 31
  · simp only [if_pos h, decide_eq_true_eq, if_neg (not_le.2 h)]
  · simp only [if_neg h, decide_eq_true_eq, if_pos (not_lt.1 h)]

/-- R99: a finite value that is a whole number of units adds them, exactly. -/
theorem Xa.add_fin (acc : Xa) {neg : Bool} {m : Nat} {e : Int} (he : -149 ≤ e) : (acc.add (.fin neg m e false)).val
    = { acc with v := acc.v + BitVec.ofInt 320 (if neg then -((m * 2 ^ (e + 149).toNat : Nat) : Int)
        else ((m * 2 ^ (e + 149).toNat : Nat) : Int)) } := by
  rw [Xa.add, roundMag_on_grid _ _ _ _ he, Nat.shiftLeft_eq]
  rfl

theorem lane_eq_of_fields {x y : Lane} (hs : signField x = signField y) (hm : magField x = magField y) : x = y := by
  have hx : x.toNat < 2 ^ 32 := x.isLt
  have hy : y.toNat < 2 ^ 32 := y.isLt
  rw [signField, signField, decide_eq_decide] at hs
  rw [magField, magField] at hm
  exact BitVec.eq_of_toNat_eq (by omega)

/-- R99: what one lane adds to an accumulator. -/
theorem Xa.add_exact32 (acc : Xa) (x : Lane) : (acc.add (exact32 x)).val =
    { v := acc.v + BitVec.ofInt 320 (if magField x < 0x7F800000 then codeUnits x else 0)
      nan := acc.nan || (exact32 x).isNan
      pinf := acc.pinf || decide (x = 0x7F800000#32)
      ninf := acc.ninf || decide (x = 0xFF800000#32) } := by
  have hinf {y : Lane} (hy : magField y = 0x7F800000) (hne : magField x ≠ 0x7F800000) : x ≠ y := fun h => hne (h ▸ hy)
  rcases lt_trichotomy (magField x) 0x7F800000 with h | h | h
  · obtain ⟨m, e, hx, he, hu, -⟩ := exact32_finite h
    rw [hx, Xa.add_fin acc he, hu, if_pos h, codeUnits_eq]
    simp [XR.isNan, hinf (y := 0x7F800000#32) rfl h.ne, hinf (y := 0xFF800000#32) rfl h.ne]
  · rw [exact32_infinite h, if_neg (by omega)]
    cases hs : signField x
    · have hx : x = 0x7F800000#32 := lane_eq_of_fields hs h
      subst hx
      simp [Xa.add, XR.isNan, Flagged.pure]
    · have hx : x = 0xFF800000#32 := lane_eq_of_fields hs h
      subst hx
      simp [Xa.add, XR.isNan, Flagged.pure]
  · have hnan : (exact32 x).isNan = true := (isNan_exact32 x).2 h
    cases hx : exact32 x with
    | nan => simp [Xa.add, XR.isNan, Flagged.pure, not_lt.2 h.le, hinf (y := 0x7F800000#32) rfl h.ne', hinf (y := 0xFF800000#32) rfl h.ne']
    | inf n => rw [hx] at hnan; exact absurd hnan nofun
    | fin n m e s => rw [hx] at hnan; exact absurd hnan nofun

/-- R99: the lanes of a list added one after the other. -/
theorem Xa.foldl_add (l : List Lane) : ∀ acc : Xa, l.foldl (fun acc x => (acc.add (exact32 x)).val) acc =
    { v := acc.v + BitVec.ofInt 320 (l.map fun x => if magField x < 0x7F800000 then codeUnits x else 0).sum
      nan := acc.nan || l.any fun x => (exact32 x).isNan
      pinf := acc.pinf || l.any fun x => decide (x = 0x7F800000#32)
      ninf := acc.ninf || l.any fun x => decide (x = 0xFF800000#32) } := by
  induction l with
  | nil => intro acc; simp
  | cons x t ih =>
    intro acc
    rw [List.foldl_cons, ih, Xa.add_exact32]
    simp only [List.map_cons, List.sum_cons, List.any_cons, BitVec.ofInt_add, BitVec.add_assoc, Bool.or_assoc]

/-! ### XA_ROUND and VRSUM.X (R99, R150) -/

section
variable {acc : Xa}

theorem Xa.round_nan (h : acc.nan = true) : acc.round = ⟨nan32, 0, 0⟩ := by rw [Xa.round, if_pos h]; rfl

theorem Xa.round_both (hn : ¬acc.nan = true) (hp : acc.pinf = true) (hm : acc.ninf = true) : acc.round = ⟨nan32, flagInv, 0⟩ := by
  simp [Xa.round, hn, hp, hm, Flagged.mk']

theorem Xa.round_pinf (hn : ¬acc.nan = true) (hp : acc.pinf = true) (hm : ¬acc.ninf = true) :
    acc.round = ⟨0x7F800000#32, 0, 0⟩ := by
  simp [Xa.round, hn, hp, hm, Flagged.pure]

theorem Xa.round_ninf (hn : ¬acc.nan = true) (hp : ¬acc.pinf = true) (hm : acc.ninf = true) :
    acc.round = ⟨0xFF800000#32, 0, 0⟩ := by
  simp [Xa.round, hn, hp, hm, Flagged.pure]

theorem Xa.round_finite (hn : ¬acc.nan = true) (hp : ¬acc.pinf = true) (hm : ¬acc.ninf = true) :
    acc.round = rne32 (.ofInt acc.v.toInt (-149)) := by
  simp [Xa.round, hn, hp, hm]

end

/-- R150: the accumulator that VRSUM.X leaves. -/
def summedXa (s : State) (a : BitVec 5) (q : BitVec 3) (v : VReg) : Xa :=
  (s.activeVals a q).foldl (fun acc x => (acc.add (exact32 x)).val) (xaOfReg v)

theorem any_activeVals (s : State) (a : BitVec 5) (q : BitVec 3) (p : Lane → Bool) : (s.activeVals a q).any p = true ↔
    ∃ l ∈ (Finset.range 32).filter fun l => activeLane s q l = true, p (s.lane a l) = true := by
  simp only [State.activeVals, List.any_map, List.any_eq_true, Function.comp_apply, mem_activeLanes, Finset.mem_filter,
    Finset.mem_range]

section
variable (s : State) (a : BitVec 5) (q : BitVec 3) (v : VReg)

theorem summedXa_flags :
    ((summedXa s a q v).nan = true ↔ (vregNat v).testBit 320 = true
      ∨ ∃ l ∈ (Finset.range 32).filter fun l => activeLane s q l = true, nanCode (s.lane a l))
    ∧ ((summedXa s a q v).pinf = true ↔ (vregNat v).testBit 321 = true
      ∨ ∃ l ∈ (Finset.range 32).filter fun l => activeLane s q l = true, s.lane a l = 0x7F800000#32)
    ∧ ((summedXa s a q v).ninf = true ↔ (vregNat v).testBit 322 = true
      ∨ ∃ l ∈ (Finset.range 32).filter fun l => activeLane s q l = true, s.lane a l = 0xFF800000#32) := by
  rw [summedXa, Xa.foldl_add, xaOfReg_eq]
  simp only [Bool.or_eq_true, any_activeVals, isNan_exact32, decide_eq_true_eq, and_self]

/-- R150: the sum, in units of 2^−149. -/
theorem summedXa_v : (summedXa s a q v).v = BitVec.ofInt 320 ((vregNat v % 2 ^ 320 : Nat)
    + ∑ l ∈ ((Finset.range 32).filter fun l => activeLane s q l = true).filter fun l => (s.lane a l).toNat % 2 ^ 31 < 0x7F800000,
      codeUnits (s.lane a l)) := by
  have hv {n : Nat} (x : Nat) : BitVec.ofNat n x = BitVec.ofInt n ((x % 2 ^ n : Nat) : Int) := by
    rw [BitVec.ofInt_natCast]
    exact BitVec.eq_of_toNat_eq (by simp)
  have hsum := sum_filter_range (activeLane s q)
    (fun l => if (s.lane a l).toNat % 2 ^ 31 < 0x7F800000 then codeUnits (s.lane a l) else 0) 32
  rw [← Finset.sum_filter] at hsum
  rw [summedXa, Xa.foldl_add, xaOfReg_eq, State.activeVals, List.map_map, hv, ← BitVec.ofInt_add, ← hsum]
  rfl

end

/-! ### The scans (R100, R149) -/

section
variable {op : Lane → Lane → Flagged Lane} {x : Nat → Lane} {p : Nat → Bool}

/-- The lanes that a mask leaves. -/
def shownLane (x : Nat → Lane) (p : Nat → Bool) (l : Nat) : Option Lane := if p l then some (x l) else none

theorem foldBelow_skip {l : Nat} (h : p l = false) : foldBelow op (shownLane x p) (l + 1) = foldBelow op (shownLane x p) l := by
  simp [foldBelow, shownLane, h]

theorem foldBelow_first {l : Nat} (h : p l = true) (hnone : foldBelow op (shownLane x p) l = none) :
    foldBelow op (shownLane x p) (l + 1) = some ⟨x l, 0, 0⟩ := by
  simp [foldBelow, shownLane, h, hnone]

theorem foldBelow_next {l : Nat} {r : Flagged Lane} (h : p l = true) (hsome : foldBelow op (shownLane x p) l = some r) :
    foldBelow op (shownLane x p) (l + 1) = some (op r.val (x l)) := by
  simp [foldBelow, shownLane, h, hsome]

/-- R100: the scan of the lanes from k on, after the result below k, gives each of them its left fold. -/
theorem lookupD_scanLanes (d : Flagged Lane) {l : Nat} (hl : p l = true) : ∀ n k, k ≤ l → l < k + n →
    lookupD (scanLanes op x ((foldBelow op (shownLane x p) k).map Flagged.val) ((List.range' k n).filter p)) l d
      = (foldBelow op (shownLane x p) (l + 1)).getD d
  | 0, k, h1, h2 => by omega
  | n + 1, k, h1, h2 => by
    rw [List.range'_succ]
    cases hp : p k
    · have hne : k ≠ l := fun h => by rw [h, hl] at hp; exact absurd hp nofun
      rw [List.filter_cons_of_neg (by simp [hp]), ← foldBelow_skip hp]
      exact lookupD_scanLanes d hl n (k + 1) (by omega) (by omega)
    rw [List.filter_cons_of_pos hp]
    have hrest := lookupD_scanLanes d hl n (k + 1)
    cases hr : foldBelow op (shownLane x p) k with
    | none =>
      rw [foldBelow_first hp hr] at hrest
      rw [Option.map_none, scanLanes, lookupD]
      split
      next h => subst h; rw [foldBelow_first hp hr]; rfl
      next h => exact hrest (by omega) (by omega)
    | some r =>
      rw [foldBelow_next hp hr] at hrest
      rw [Option.map_some, scanLanes, lookupD]
      split
      next h => subst h; rw [foldBelow_next hp hr]; rfl
      next h => exact hrest (by omega) (by omega)

/-- R149: the left fold of an integer sum. -/
theorem foldBelow_add (l : Nat) : (foldBelow (fun x y => .pure (x + y)) (shownLane x p) l).getD ⟨0, 0, 0⟩
    = ⟨BitVec.ofNat 32 (∑ j ∈ (Finset.range l).filter fun j => p j = true, (x j).toNat), 0, 0⟩ := by
  induction l with
  | zero => rfl
  | succ l ih =>
    rw [Finset.range_add_one, Finset.filter_insert]
    cases hp : p l
    · rw [foldBelow_skip hp, ih, if_neg Bool.false_ne_true]
    rw [if_pos rfl, Finset.sum_insert (by simp), BitVec.ofNat_add, BitVec.ofNat_toNat, BitVec.setWidth_eq]
    have hsum : ((foldBelow (fun x y => .pure (x + y)) (shownLane x p) l).getD ⟨0, 0, 0⟩).val
        = BitVec.ofNat 32 (∑ j ∈ (Finset.range l).filter fun j => p j = true, (x j).toNat) := congrArg Flagged.val ih
    rw [← hsum]
    cases hr : foldBelow (fun x y => .pure (x + y)) (shownLane x p) l with
    | none =>
      rw [foldBelow_first hp hr]
      exact congrArg (Flagged.mk · 0 0) (BitVec.add_zero _).symm
    | some r =>
      rw [foldBelow_next hp hr]
      exact congrArg (Flagged.mk · 0 0) (BitVec.add_comm _ _)

end

section
variable {i : Instr} {k : Bool} {d : BitVec 5} {q : BitVec 3} {s : State}

/-- R135: the results of the inactive lanes do not matter. -/
theorem LandsLanes.congr {g g' : Nat → Flagged Lane} (h : LandsLanes i k d q s g)
    (hg : ∀ l < 32, activeLane s q l = true → g l = g' l) : LandsLanes i k d q s g' := by
  have hon : ((List.range 32).filter (activeLane s q)).map g = ((List.range 32).filter (activeLane s q)).map g' :=
    List.map_congr_left fun l hl => by
      rw [List.mem_filter, List.mem_range] at hl
      exact hg l hl.1 hl.2
  have hflags : ((List.range 32).filter (activeLane s q)).foldl (fun w l => w ||| (g l).flags) (0 : Word)
      = ((List.range 32).filter (activeLane s q)).foldl (fun w l => w ||| (g' l).flags) 0 := by
    rw [← List.foldl_map (f := g) (g := fun w (r : Flagged Lane) => w ||| r.flags), hon, List.foldl_map]
  have hsat : ((List.range 32).filter (activeLane s q)).foldl (fun n l => n + (g l).sat) 0
      = ((List.range 32).filter (activeLane s q)).foldl (fun n l => n + (g' l).sat) 0 := by
    rw [← List.foldl_map (f := g) (g := fun n (r : Flagged Lane) => n + r.sat), hon, List.foldl_map]
  obtain ⟨v, hdoes, hv⟩ := h
  refine ⟨v, by rw [← hflags, ← hsat]; exact hdoes, fun l hl => (hv l hl).trans ?_⟩
  split
  next hact => rw [hg l hl hact]
  next => rfl

@[simp] theorem Slot.raiseLate_zero (f : Slot) : f.raiseLate 0 = f := by simp [Slot.raiseLate]

@[simp] theorem Slot.addHidden_zero (f : Slot) : f.addHidden 0 = f := rfl

/-- R138: results that raise nothing. -/
theorem LandsLanes.pure {g : Nat → Lane} (h : LandsLanes i k d q s fun l => ⟨g l, 0, 0⟩) : LandsPure i k d q s g := by
  obtain ⟨v, hdoes, hv⟩ := h
  have hflags (l : List Nat) (w : Word) : l.foldl (fun w _ => w ||| 0) w = w := by
    induction l <;> simp_all
  have hsat (l : List Nat) (n : Nat) : l.foldl (fun n _ => n + 0) n = n := by
    induction l <;> simp_all
  rw [hflags, hsat, Slot.raiseLate_zero, Slot.addHidden_zero] at hdoes
  exact ⟨v, hdoes, hv⟩

/-- R100, R149: a scan lands the left fold of each active lane. -/
theorem landsLanes_of_scan {a : BitVec 5} {op : Lane → Lane → Flagged Lane} (hi : exec i s = scan k d a q op s) :
    LandsLanes i k d q s fun l => (foldBelow op (shownLane (s.lane a) (activeLane s q)) (l + 1)).getD ⟨0, 0, 0⟩ := by
  refine (landsLanes_of_lanewise hi).congr fun l hl hon => ?_
  have hscan := lookupD_scanLanes (op := op) (x := s.lane a) (p := activeLane s q) (.pure 0) hon 32 0 (Nat.zero_le l) (by omega)
  rw [← List.range_eq_range'] at hscan
  exact hscan

end

/-- R150: what VRSUM.X leaves. -/
theorem does_vrsumX (k : Bool) (p : BitVec 4) (a : BitVec 5) (q : BitVec 3) (s : State) :
    let acc := summedXa s a q (s.focus.vr (pairReg p))
    Does (.vrsumX k p a q) s ((((s.focus.landV (pairReg p) (vregOfNat (leNat acc.bytes))).landV (pairReg p + 1)
      (vecOf fun l => if l = 0 then acc.round.val else 0)).raiseLate acc.round.flags).advance k) := rfl

/-! ### The obligation -/

/-- Settles O15. -/
theorem vectorReductions : Obligations.VectorReductions := by
  unfold Obligations.VectorReductions
  intro k d a p q s
  refine ⟨?rsumF, ⟨_, ?rmax, picks_maxF.isExtreme s a q _ ?maxKey⟩, ⟨_, ?rmin, picks_minF.isExtreme s a q _ ?minKey⟩, ?rsumI,
    ?rsumX, landsLanes_of_scan rfl, ?scanI, ⟨_, rfl, isExtremeLane_argExtreme s a q (key := codeRank) ?maxCmp ?maxLe⟩,
    ⟨_, rfl, isExtremeLane_argExtreme s a q (key := fun x => -codeRank x) ?minCmp ?minLe⟩⟩
  case rsumF =>
    rw [BitVec.ofNat_toNat, ← treeSum_eq]
    rfl
  case rmax => rw [BitVec.ofNat_toNat]; rfl
  case rmin => rw [BitVec.ofNat_toNat]; rfl
  case maxKey => exact fun _ _ h => h
  case minKey => exact fun _ _ h => neg_le_neg_iff.1 h
  case rsumI =>
    have hsum : ((s.activeVals a q).map BitVec.toInt).sum = _ :=
      (congrArg List.sum List.map_map).trans (sum_filter_range (activeLane s q) (fun l => (s.lane a l).toInt) 32)
    rw [← hsum]
    rfl
  case rsumX =>
    obtain ⟨hnan, hpinf, hninf⟩ := summedXa_flags s a q (s.focus.vr (pairReg p))
    have hsum := summedXa_v s a q (s.focus.vr (pairReg p))
    refine ⟨_, _, _, does_vrsumX k p a q s, ?_⟩
    generalize summedXa s a q (s.focus.vr (pairReg p)) = acc at hnan hpinf hninf hsum
    obtain ⟨h0, h1, h2⟩ := acc.toNat_testBit
    rw [vregNat_xaBytes, h0, h1, h2, ← hnan, ← hpinf, ← hninf, Xa.toNat_mod]
    refine ⟨?value, ?bound, Iff.rfl, Iff.rfl, Iff.rfl, fun l h => vecOf_getElem _ h, ?nan, ?both, ?pinf, ?ninf, ?finite⟩
    case value => simp only [hsum, BitVec.toNat_ofInt, Nat.cast_pow, Nat.cast_ofNat]
    case bound => simpa only [Nat.reduceAdd] using acc.toNat_lt
    case nan => exact fun hn => ⟨congrArg Flagged.val (Xa.round_nan hn), congrArg Flagged.flags (Xa.round_nan hn)⟩
    case both =>
      exact fun hn hp hm => ⟨congrArg Flagged.val (Xa.round_both hn hp hm), congrArg Flagged.flags (Xa.round_both hn hp hm)⟩
    case pinf =>
      exact fun hn hp hm => ⟨congrArg Flagged.val (Xa.round_pinf hn hp hm), congrArg Flagged.flags (Xa.round_pinf hn hp hm)⟩
    case ninf =>
      exact fun hn hp hm => ⟨congrArg Flagged.val (Xa.round_ninf hn hp hm), congrArg Flagged.flags (Xa.round_ninf hn hp hm)⟩
    case finite =>
      intro hn hp hm
      rw [Xa.round_finite hn hp hm, hsum, BitVec.toInt_ofInt, ← Int.emod_bmod]
      simp only [Nat.cast_pow, Nat.cast_ofNat]
  case scanI =>
    refine LandsLanes.pure ?_
    simp only [← foldBelow_add]
    exact landsLanes_of_scan rfl
  case maxCmp => exact fun _ _ => compare_gt_iff_gt
  case maxLe => exact fun _ _ => Iff.rfl
  case minCmp => exact fun _ _ => compare_lt_iff_lt.trans neg_lt_neg_iff.symm
  case minLe => exact fun _ _ => neg_le_neg_iff.symm

end Sys2Proof.Machine
end

section
/-! SUPPORT. O16: rounding depends on the value alone (R92, R93); FP32 codes read back as what was rounded; the codes of BF16 and
FP16 as FP32 values. -/

namespace Sys2Proof.Machine

/-! ### Rounding depends on the value alone (R92, R93) -/

/-- The value ±m × 2^e, in some form. -/
def XR.Holds (x : XR) (neg : Bool) (m : Nat) (e : Int) : Prop := ∃ k : Nat, x = .fin neg (m * 2 ^ k) (e - k) false

/-- R93: a zero keeps its sign. -/
theorem roundTo_zero (f : Fmt) (mode : RMode) (draw : Nat) (neg : Bool) (e : Int) : roundTo f mode draw (.fin neg 0 e false)
    = ⟨if f.e = 0 then 0 else f.signBit neg, 0, false, false⟩ :=
  by rw [roundTo, if_pos ⟨rfl, rfl⟩]; rfl

section
variable {m : Nat} (hm : m ≠ 0) (k : Nat) (e q : Int)
include hm

theorem log2_mul_two_pow : Nat.log2 (m * 2 ^ k) = Nat.log2 m + k := by
  have hpos : m * 2 ^ k ≠ 0 := Nat.mul_ne_zero hm (Nat.two_pow_pos k).ne'
  rw [Nat.log2_eq_iff hpos, pow_add, Nat.add_right_comm, pow_add]
  exact ⟨Nat.mul_le_mul_right _ (Nat.log2_self_le hm), Nat.mul_lt_mul_of_pos_right Nat.lt_log2_self (Nat.two_pow_pos k)⟩

/-- R92: how a magnitude stands on a grid does not depend on its form. -/
theorem onGrid_shift : onGrid (m * 2 ^ k) (e - k) false q = onGrid m e false q := by
  have hlog := log2_mul_two_pow hm k
  rcases le_or_gt q (e - k) with h1 | h1
  · have h2 : q ≤ e := by omega
    rw [onGrid, onGrid, if_pos h1, if_pos h2, Nat.shiftLeft_eq, Nat.shiftLeft_eq, Nat.mul_assoc, ← pow_add]
    congr 3
    omega
  rcases le_or_gt q e with h2 | h2
  · obtain ⟨j, hj, hk⟩ : ∃ j, (q - (e - k)).toNat = j ∧ k = j + (e - q).toNat := ⟨_, rfl, by omega⟩
    have hsplit : m * 2 ^ k = m * 2 ^ (e - q).toNat * 2 ^ j := by rw [hk, Nat.add_comm, pow_add, Nat.mul_assoc]
    rw [onGrid, onGrid, if_neg (not_le.2 h1), if_pos h2, hj, if_neg (by omega), hsplit, Nat.shiftRight_eq_div_pow,
      Nat.mul_div_cancel _ (Nat.two_pow_pos j), Nat.mul_mod_left, Nat.shiftLeft_eq]
    simp
  · obtain ⟨j, hj, hj'⟩ : ∃ j, (q - e).toNat = j ∧ (q - (e - k)).toNat = j + k := ⟨_, rfl, by omega⟩
    obtain ⟨i, rfl⟩ : ∃ i, j = i + 1 := ⟨j - 1, by omega⟩
    rw [onGrid, onGrid, if_neg (not_le.2 h1), if_neg (not_le.2 h2), hj, hj']
    by_cases hfar : i + 1 > Nat.log2 m + 64
    · rw [if_pos hfar, if_pos (by omega)]
      simp [hm]
    · have hpow : 2 ^ (i + 1 + k) = 2 ^ (i + 1) * 2 ^ k := pow_add ..
      have hhalf : 2 ^ (i + 1 + k - 1) = 2 ^ i * 2 ^ k := by rw [← pow_add]; congr 1; omega
      have hk := Nat.two_pow_pos k
      rw [if_neg hfar, if_neg (by omega)]
      simp only [Nat.shiftRight_eq_div_pow, Nat.shiftLeft_eq, hpow, hhalf, Nat.add_sub_cancel, Nat.mul_mod_mul_right,
        Nat.mul_div_mul_right _ _ hk, Nat.mul_lt_mul_right hk, Nat.mul_left_inj hk.ne',
        Nat.mul_right_comm _ (2 ^ k), Nat.mul_eq_zero, hk.ne', or_false]

theorem roundMag_shift (mode : RMode) (neg : Bool) (draw : Nat) :
    roundMag mode neg (m * 2 ^ k) (e - k) false q draw = roundMag mode neg m e false q draw := by
  rw [roundMag, roundMag, onGrid_shift hm]

theorem roundTo_of_ne_zero (f : Fmt) (mode : RMode) (neg sticky : Bool) (draw : Nat) : roundTo f mode draw (.fin neg m e sticky)
    = if f.e = 0 then roundInt f mode neg m e sticky draw else roundFloat f mode neg m e sticky draw :=
  if_neg fun h => hm h.1

theorem roundTo_shift (f : Fmt) (mode : RMode) (neg : Bool) (draw : Nat) :
    roundTo f mode draw (.fin neg (m * 2 ^ k) (e - k) false) = roundTo f mode draw (.fin neg m e false) := by
  have hm' : m * 2 ^ k ≠ 0 := Nat.mul_ne_zero hm (Nat.two_pow_pos k).ne'
  have hex : e - k + ((Nat.log2 (m * 2 ^ k) : Nat) : Int) = e + Nat.log2 m := by rw [log2_mul_two_pow hm]; omega
  rw [roundTo_of_ne_zero hm, roundTo_of_ne_zero hm']
  unfold roundInt roundFloat
  simp only [hex, roundMag_shift hm]

end

/-! ### The bits of a code (R83, R89) -/

theorem mod_two_pow_shiftRight_mod {w a b : Nat} (h : a + b ≤ w) (c : Nat) : (c % 2 ^ w) >>> a % 2 ^ b = c >>> a % 2 ^ b := by
  obtain ⟨j, rfl⟩ := Nat.exists_eq_add_of_le h
  rw [Nat.shiftRight_eq_div_pow, Nat.shiftRight_eq_div_pow, Nat.add_assoc, pow_add 2 a, Nat.mod_mul_right_div_self, pow_add,
    Nat.mod_mul_right_mod]

/-- R89: a floating format's decoding reads the low bits alone. -/
theorem decodeFmt_mod {f : Fmt} {w : Nat} (he : f.e ≠ 0) (hw : f.e + f.m + 1 ≤ w) (c : Nat) :
    decodeFmt f (c % 2 ^ w) = decodeFmt f c := by
  have hfrac : c % 2 ^ w % 2 ^ f.m = c % 2 ^ f.m := mod_two_pow_shiftRight_mod (a := 0) (by omega) c
  have hexp := mod_two_pow_shiftRight_mod (w := w) (a := f.m) (b := f.e) (by omega) c
  have hsign := mod_two_pow_shiftRight_mod (w := w) (a := f.e + f.m) (b := 1) (by omega) c
  rw [decodeFmt, decodeFmt, if_neg he, if_neg he]
  simp only [hfrac, hexp, show ∀ n : Nat, n % 2 = n % 2 ^ 1 from fun _ => rfl, hsign]

theorem decodeFmt_fp32 (c : Nat) : decodeFmt fp32 c = exact32 (BitVec.ofNat 32 c) := by
  rw [exact32, BitVec.toNat_ofNat, decodeFmt_mod (by decide) (by decide)]

/-- The fields of a code that is put together from them. -/
theorem fields_ofNat (neg : Bool) {e m : Nat} (he : e < 256) (hm : m < 2 ^ 23) :
    let x : Lane := BitVec.ofNat 32 (fp32.signBit neg + e * 2 ^ 23 + m)
    signField x = neg ∧ expField x = e ∧ fracField x = m := by
  have hsign : fp32.signBit neg = if neg then 2 ^ 31 else 0 := by cases neg <;> rfl
  simp only [signField, expField, fracField, BitVec.toNat_ofNat, hsign]
  cases neg
  · simp only [Bool.false_eq_true, if_false, decide_eq_false_iff_not]
    omega
  · simp only [if_true, decide_eq_true_eq]
    omega

/-- R83, R89: the code of a magnitude on its own grid has it as its exact value. -/
theorem exact32_codeOf (neg : Bool) {m : Nat} {e : Int} (h0 : m ≠ 0) (hm : m < 2 ^ 24) (hlow : -149 ≤ e) (hhigh : e ≤ 104)
    (hgrid : fp32.grid m e = e) : exact32 (BitVec.ofNat 32 (fp32.codeOf neg m e)) = .fin neg m e false := by
  by_cases hn : m < 2 ^ 23
  · have hlog := log2_subnormal hn
    have he : e = -149 := by
      rw [← hgrid, Fmt.grid]
      split
      · rfl
      next h =>
        rw [Fmt.grid, if_neg h] at hgrid
        simp only [fp32] at hgrid
        omega
    obtain ⟨hs, hx, hf⟩ := fields_ofNat neg (e := 0) (by decide) hn
    rw [he, fp32_code_subnormal neg hn, ← Nat.add_zero (fp32.signBit neg), ← Nat.zero_mul (2 ^ 23), exact32_subnormal hx, hs, hf]
  · obtain ⟨j, rfl⟩ := Nat.exists_eq_add_of_le (not_lt.1 hn)
    obtain ⟨hs, hx, hf⟩ := fields_ofNat neg (e := (e + 150).toNat) (m := j) (by omega) (by omega)
    rw [fp32_code_normal neg (by omega) hlow, exact32_normal (by omega) (by omega), hs, hx, hf]
    congr 1
    omega

/-- R92, R93: a value of at most 24 bits within FP32's range is rounded to itself. -/
theorem exact32_rne32_holds (neg : Bool) {m : Nat} {e : Int} (h0 : m ≠ 0) (hm : m < 2 ^ 24) (hlow : -149 ≤ e)
    (hhigh : e + Nat.log2 m ≤ 127) : (exact32 (rne32 (.fin neg m e false)).val).Holds neg m e := by
  have hlog : Nat.log2 m < 24 := (Nat.log2_lt h0).2 hm
  have hgrid : fp32.grid m e = max (-149) (e + Nat.log2 m - 23) := by
    rw [Fmt.grid]
    simp only [show fp32.emin = -126 from rfl, show fp32.subn = true from rfl, show (fp32.m : Int) = 23 from rfl, and_true]
    split <;> omega
  obtain ⟨k, hk⟩ : ∃ k : Nat, fp32.grid m e = e - k := ⟨(e - fp32.grid m e).toNat, by omega⟩
  have hlog' := log2_mul_two_pow h0 k
  have h0' : m * 2 ^ k ≠ 0 := Nat.mul_ne_zero h0 (Nat.two_pow_pos k).ne'
  have hm' : m * 2 ^ k < 2 ^ 24 := (Nat.log2_lt h0').1 (by omega)
  have hgrid' : fp32.grid (m * 2 ^ k) (e - k) = e - k := by
    rw [← hk, hk, Fmt.grid, hlog', Nat.cast_add, show e - (k : Int) + (Nat.log2 m + k) = e + Nat.log2 m by ring]
    exact hk
  refine ⟨k, ?_⟩
  rw [rne32, ← roundTo_shift h0 k, roundTo_on_grid rfl rfl (by decide) _ _ _ hgrid' (fp32_cmpMag_maxMag hm' (by omega))]
  exact exact32_codeOf neg h0' hm' (by omega) (by omega) hgrid'

/-! ### FP32 results read back (R84, R93) -/

/-- A code that, read as an FP32 value and rounded again, is itself. -/
def ReadsBack (c : Nat) : Prop := (rne32 (decodeFmt fp32 c)).val = BitVec.ofNat 32 c

theorem ReadsBack.of_fields (neg : Bool) {e m : Nat} (he : e < 255) (hm : m < 2 ^ 23) :
    ReadsBack (fp32.signBit neg + e * 2 ^ 23 + m) := by
  obtain ⟨-, hx, -⟩ := fields_ofNat neg (e := e) (by omega) hm
  rw [ReadsBack, decodeFmt_fp32, roundingKeepsCodes _ (Bool.eq_false_iff.2 fun h => ?_)]
  rw [isNan_exact32, nanCode_iff] at h
  omega

theorem log2_le_of_cmpMag {n M b : Nat} {q Q : Int} (hn : n ≠ 0) (hM : M < 2 ^ b) (h : cmpMag n q M Q ≠ .gt) :
    q + Nat.log2 n < Q + b := by
  rw [cmpMag, Ne, compare_gt_iff_gt, not_lt, Nat.shiftLeft_eq, Nat.shiftLeft_eq] at h
  have hlow : 2 ^ (Nat.log2 n + (q - min q Q).toNat) ≤ n * 2 ^ (q - min q Q).toNat := by
    rw [pow_add]
    exact Nat.mul_le_mul_right _ (Nat.log2_self_le hn)
  have hhigh : M * 2 ^ (Q - min q Q).toNat < 2 ^ (b + (Q - min q Q).toNat) := by
    rw [pow_add]
    exact Nat.mul_lt_mul_of_pos_right hM (Nat.two_pow_pos _)
  have hlt := (Nat.pow_lt_pow_iff_right (by decide)).1 ((hlow.trans h).trans_lt hhigh)
  omega

/-- R89: the code of a magnitude up to MAXF is that of a finite value. -/
theorem ReadsBack.codeOf (neg : Bool) {n : Nat} {q : Int}
    (h : ¬ (n ≠ 0 ∧ cmpMag n q fp32.maxMag.1 fp32.maxMag.2 = .gt)) : ReadsBack (fp32.codeOf neg n q) := by
  rw [Fmt.codeOf]
  split
  · simpa using ReadsBack.of_fields neg (e := 0) (m := 0) (by decide) (by decide)
  next hn =>
    have hmax : fp32.maxMag = (2 ^ 24 - 1, 104) := by decide
    rw [hmax] at h
    have hlog := log2_le_of_cmpMag (b := 24) hn (by decide) fun hgt => h ⟨hn, hgt⟩
    dsimp only
    split
    · have h := ReadsBack.of_fields neg (e := 0) (by decide)
        (Nat.mod_lt (n <<< (q - (fp32.emin - (fp32.m : Int))).toNat) (Nat.two_pow_pos 23))
      rwa [Nat.zero_mul, Nat.add_zero] at h
    next hex =>
      refine ReadsBack.of_fields neg (e := (q + Nat.log2 n + 127).toNat) (by omega) ?_
      have hn' : n < 2 ^ (Nat.log2 n + 1) := Nat.lt_log2_self
      have hsig : (if (Nat.log2 n : Int) ≥ (fp32.m : Int) then n >>> (Nat.log2 n - fp32.m)
          else n <<< (fp32.m - Nat.log2 n)) < 2 ^ 24 := by
        simp only [show fp32.m = 23 from rfl]
        split
        next h23 =>
          rw [Nat.shiftRight_eq_div_pow, Nat.div_lt_iff_lt_mul (Nat.two_pow_pos _), ← pow_add,
            show 24 + (Nat.log2 n - 23) = Nat.log2 n + 1 by omega]
          exact hn'
        next h23 =>
          have := Nat.mul_lt_mul_of_pos_right hn' (Nat.two_pow_pos (23 - Nat.log2 n))
          rwa [← pow_add, show Nat.log2 n + 1 + (23 - Nat.log2 n) = 24 by omega, ← Nat.shiftLeft_eq] at this
      simp only [show 2 ^ fp32.m = 2 ^ 23 from rfl]
      omega

theorem ReadsBack.nan : ReadsBack (roundNan fp32).code := by unfold ReadsBack; decide

theorem ReadsBack.infCode (neg : Bool) : ReadsBack (fp32.infCode neg) := by cases neg <;> unfold ReadsBack <;> decide

theorem ReadsBack.maxCode (neg : Bool) : ReadsBack (fp32.maxCode neg) := by cases neg <;> unfold ReadsBack <;> decide

theorem ReadsBack.overflow (mode : RMode) (neg hi : Bool) : ReadsBack (roundOverflow fp32 mode neg hi).code := by
  have hrow : ∀ toInf : Bool, ReadsBack (if toInf then fp32.infCode neg else fp32.maxCode neg)
    | true => .infCode neg
    | false => .maxCode neg
  unfold roundOverflow
  rw [if_pos (show fp32.ieee = true from rfl)]
  exact hrow _

/-- R93: the code of a finite result in a signed format with subnormals. -/
theorem roundFloat_signed {f : Fmt} (hs : f.s = true) (hsub : f.subn = true) (mode : RMode) (neg : Bool) (m : Nat) (e : Int)
    (sticky : Bool) (draw : Nat) :
    let r := roundMag mode neg m e sticky (f.grid m e) draw
    (roundFloat f mode neg m e sticky draw).code = if r.1 ≠ 0 ∧ cmpMag r.1 (f.grid m e) f.maxMag.1 f.maxMag.2 = .gt
      then (roundOverflow f mode neg r.2.1).code else f.codeOf neg r.1 (f.grid m e) := by
  unfold roundFloat
  rw [if_neg (fun h => Bool.noConfusion (hsub.symm.trans h.2)), if_neg (fun h => Bool.noConfusion (hs.symm.trans h.2.1))]
  exact apply_ite Rounded.code _ _ _

/-- R93: an FP32 result is a code of FP32, its NaN the canonical one. -/
theorem ReadsBack.roundTo (mode : RMode) (draw : Nat) (x : XR) : ReadsBack (Machine.roundTo fp32 mode draw x).code := by
  cases x with
  | nan => exact .nan
  | inf neg => cases neg <;> exact .infCode _
  | fin neg m e sticky =>
    rw [Machine.roundTo, if_neg (show ¬ fp32.e = 0 by decide), if_neg (show ¬ fp32.e = 0 by decide)]
    split
    · simpa using ReadsBack.of_fields neg (e := 0) (m := 0) (by decide) (by decide)
    rw [roundFloat_signed rfl rfl]
    split
    · exact ReadsBack.overflow mode neg _
    next h => exact ReadsBack.codeOf neg h

/-! ### BF16 (R83) -/

/-- R89: a BF16 code by its fields. -/
theorem decodeFmt_bf16 (c : Nat) : decodeFmt bf16 c =
    if c >>> 7 % 2 ^ 8 = 255 then (if c % 2 ^ 7 = 0 then .inf (decide (c >>> 15 % 2 = 1)) else .nan)
    else if c >>> 7 % 2 ^ 8 = 0 then .fin (decide (c >>> 15 % 2 = 1)) (c % 2 ^ 7) (-133) false
    else .fin (decide (c >>> 15 % 2 = 1)) (2 ^ 7 + c % 2 ^ 7) ((c >>> 7 % 2 ^ 8 : Nat) - 134) false := by
  rw [decodeFmt, if_neg (by decide)]
  simp only [show bf16.m = 7 from rfl, show bf16.e = 8 from rfl, show bf16.special = 0 from rfl, show bf16.s = true from rfl,
    show bf16.subn = true from rfl, show bf16.bias = 127 from rfl, show bf16.emaxf = 255 from rfl, Bool.true_and, true_and,
    reduceIte, Nat.zero_ne_one, false_and]
  split
  · rfl
  split
  · rfl
  · congr 1; push_cast; ring

/-- The FP32 code whose upper half is a BF16 code. -/
def upperHalf (c : Nat) : Lane := BitVec.ofNat 32 (c * 2 ^ 16)

theorem upperHalf_fields (c : Nat) : signField (upperHalf c) = decide (c >>> 15 % 2 = 1)
    ∧ expField (upperHalf c) = c >>> 7 % 2 ^ 8 ∧ fracField (upperHalf c) = c % 2 ^ 7 * 2 ^ 16 := by
  simp only [signField, expField, fracField, upperHalf, BitVec.toNat_ofNat, Nat.shiftRight_eq_div_pow, decide_eq_decide]
  omega

theorem rne32_shift (neg : Bool) (m k : Nat) (e : Int) :
    rne32 (.fin neg (m * 2 ^ k) (e - k) false) = rne32 (.fin neg m e false) := by
  rcases Nat.eq_zero_or_pos m with rfl | hm
  · rw [Nat.zero_mul, rne32, rne32, roundTo_zero, roundTo_zero]
  · rw [rne32, rne32, roundTo_shift hm.ne']

/-- R83: a BF16 code is the upper half of an FP32 code of the same value. -/
theorem rne32_bf16_eq (c : Nat) : rne32 (decodeFmt bf16 c) = rne32 (exact32 (upperHalf c)) := by
  obtain ⟨hs, hx, hf⟩ := upperHalf_fields c
  rw [decodeFmt_bf16, exact32_eq, hs, hx, hf]
  split
  · simp only [Nat.mul_eq_zero, Nat.pow_eq_zero, reduceCtorEq, false_and, or_false]
  split
  · rw [← rne32_shift _ _ 16, show (-133 : Int) - (16 : Nat) = -149 by decide]
  · generalize c >>> 7 % 2 ^ 8 = E
    have he : (E : Int) - 134 - (16 : Nat) = E - 150 := by omega
    rw [← rne32_shift _ _ 16, he, Nat.add_mul, show 2 ^ 7 * 2 ^ 16 = 2 ^ 23 by decide]

/-- R83: a BF16 value, held as an FP32 one, has a lower half of zeros. -/
theorem rne32_bf16 (c : Nat) : (rne32 (decodeFmt bf16 c)).val.toNat % 2 ^ 16 = 0 := by
  rw [rne32_bf16_eq]
  cases h : exact32 (upperHalf c) with
  | nan => decide
  | inf neg =>
    rw [← h, roundingKeepsCodes _ (by rw [h]; rfl), upperHalf, BitVec.toNat_ofNat]
    omega
  | fin neg m e sticky =>
    rw [← h, roundingKeepsCodes _ (by rw [h]; rfl), upperHalf, BitVec.toNat_ofNat]
    omega

end Sys2Proof.Machine
end


section
/-! SUPPORT. O16: the exact values that stand for a rational number, and what the operations of R84, R92 and R102 make of them. -/

namespace Sys2Proof.Machine

/-- An exact value (no sticky mark) that stands for the rational number q. -/
def XR.Is (x : XR) (q : Rat) : Prop := ∃ neg m e, x = .fin neg m e false ∧ signQ neg * m * 2 ^ e = q

theorem XR.is_ofInt (v e : Int) : (XR.ofInt v e).Is (v * 2 ^ e) :=
  ⟨_, _, _, rfl, by rw [signQ_mul_natAbs]⟩

theorem XR.is_xInt (v : Int) : (xInt v).Is v := by
  have h := XR.is_ofInt v 0
  rwa [zpow_zero, mul_one] at h

theorem XR.Holds.is {x : XR} {neg : Bool} {m : Nat} {e : Int} (h : x.Holds neg m e) : x.Is (signQ neg * m * 2 ^ e) := by
  obtain ⟨k, rfl⟩ := h
  refine ⟨_, _, _, rfl, ?_⟩
  rw [zpow_sub₀ two_ne_zero, zpow_natCast]
  push_cast
  field_simp

section
variable {x y : XR} {a b : Rat}

theorem XR.Is.add (hx : x.Is a) (hy : y.Is b) : (x.add y).Is (a + b) := by
  obtain ⟨n1, m1, e1, rfl, rfl⟩ := hx
  obtain ⟨n2, m2, e2, rfl, rfl⟩ := hy
  have hq := XR.add_rat n1 n2 m1 m2 e1 e2
  have hf : ∃ neg m e, (XR.fin n1 m1 e1 false).add (.fin n2 m2 e2 false) = .fin neg m e false := by
    simp only [XR.add, XR.zero, XR.ofInt]
    split_ifs <;> exact ⟨_, _, _, rfl⟩
  obtain ⟨neg, m, e, hf⟩ := hf
  rw [hf, XR.rat_fin, Option.some_inj] at hq
  exact ⟨neg, m, e, hf, hq⟩

theorem XR.Is.mul (hx : x.Is a) (hy : y.Is b) : (x.mul y).Is (a * b) := by
  obtain ⟨n1, m1, e1, rfl, rfl⟩ := hx
  obtain ⟨n2, m2, e2, rfl, rfl⟩ := hy
  have hq := XR.mul_rat n1 n2 m1 m2 e1 e2
  have hf : ∃ neg m e, (XR.fin n1 m1 e1 false).mul (.fin n2 m2 e2 false) = .fin neg m e false := by
    simp only [XR.mul, XR.zero]
    split_ifs <;> exact ⟨_, _, _, rfl⟩
  obtain ⟨neg, m, e, hf⟩ := hf
  rw [hf, XR.rat_fin, Option.some_inj] at hq
  exact ⟨neg, m, e, hf, hq⟩

theorem XR.Is.scale (hx : x.Is a) (k : Int) : (x.scale k).Is (a * 2 ^ k) := by
  obtain ⟨neg, m, e, rfl, rfl⟩ := hx
  exact ⟨neg, m, e + k, rfl, by rw [zpow_add₀ two_ne_zero, mul_assoc _ _ ((2 : Rat) ^ k)]⟩

theorem XR.Is.negate (hx : x.Is a) : x.negate.Is (-a) := by
  obtain ⟨neg, m, e, rfl, rfl⟩ := hx
  exact ⟨!neg, m, e, rfl, by rw [signQ_not, neg_mul, neg_mul]⟩

theorem XR.Is.abs (hx : x.Is a) : x.abs.Is |a| := by
  obtain ⟨neg, m, e, rfl, rfl⟩ := hx
  have hsign : |signQ neg| = 1 := by cases neg <;> simp [signQ]
  have hpow : (0 : Rat) < 2 ^ e := by positivity
  exact ⟨false, m, e, rfl, by rw [abs_mul, abs_mul, hsign, Nat.abs_cast, abs_of_pos hpow]; rfl⟩

/-- R84: a value and its opposite cancel to +0. -/
theorem XR.Is.add_cancel (hx : x.Is a) (hy : y.Is (-a)) (ha : a ≠ 0) : x.add y = .zero false := by
  obtain ⟨n1, m1, e1, rfl, h1⟩ := hx
  obtain ⟨n2, m2, e2, rfl, h2⟩ := hy
  have hm1 : m1 ≠ 0 := fun h => ha (by rw [← h1, h]; simp)
  have hm2 : m2 ≠ 0 := fun h => ha (by rw [← neg_eq_zero, ← h2, h]; simp)
  have hv := alignInts_rat n1 n2 m1 m2 e1 e2
  dsimp only at hv
  rw [h1, h2, add_neg_cancel, mul_eq_zero_iff_right (zpow_ne_zero _ two_ne_zero), Int.cast_eq_zero] at hv
  simp only [XR.add]
  rw [if_neg (fun h => hm1 h.1), if_neg hm1, if_neg hm2, if_pos hv]

end

/-! ### Equal magnitudes in two forms -/

theorem magnitude_eq_shift {m1 m2 : Nat} {e1 e2 : Int} (h : (m1 : Rat) * 2 ^ e1 = m2 * 2 ^ e2) (hle : e1 ≤ e2) :
    ∃ k : Nat, m1 = m2 * 2 ^ k ∧ e1 = e2 - k := by
  refine ⟨(e2 - e1).toNat, ?_, by omega⟩
  rw [← shifted_mul_zpow hle, mul_left_inj' (zpow_ne_zero _ two_ne_zero), Nat.cast_inj, Nat.shiftLeft_eq] at h
  exact h

theorem signed_magnitude_inj {n1 n2 : Bool} {m1 m2 : Nat} {e1 e2 : Int} (hm : m1 ≠ 0)
    (h : signQ n1 * m1 * 2 ^ e1 = signQ n2 * m2 * 2 ^ e2) : n1 = n2 ∧ (m1 : Rat) * 2 ^ e1 = m2 * 2 ^ e2 := by
  have h1 : (0 : Rat) < m1 * 2 ^ e1 := mul_pos (by exact_mod_cast Nat.pos_of_ne_zero hm) (zpow_pos two_pos _)
  have h2 : (0 : Rat) ≤ m2 * 2 ^ e2 := mul_nonneg (Nat.cast_nonneg _) (zpow_pos two_pos _).le
  rw [mul_assoc, mul_assoc] at h
  cases n1 <;> cases n2 <;> simp only [signQ, if_true, Bool.false_eq_true, if_false] at h
  case false.false => exact ⟨rfl, by linarith⟩
  case true.true => exact ⟨rfl, by linarith⟩
  all_goals linarith

/-- R92, R93: values that are equal and not zero round alike. -/
theorem XR.Is.roundTo_eq {x y : XR} {q : Rat} (hx : x.Is q) (hy : y.Is q) (hq : q ≠ 0) (f : Fmt) (mode : RMode) (draw : Nat) :
    roundTo f mode draw x = roundTo f mode draw y := by
  obtain ⟨n1, m1, e1, rfl, h1⟩ := hx
  obtain ⟨n2, m2, e2, rfl, h2⟩ := hy
  have hm1 : m1 ≠ 0 := fun h => hq (by rw [← h1, h]; simp)
  have hm2 : m2 ≠ 0 := fun h => hq (by rw [← h2, h]; simp)
  obtain ⟨rfl, h⟩ := signed_magnitude_inj hm1 (h1.trans h2.symm)
  rcases le_total e1 e2 with hle | hle
  · obtain ⟨k, rfl, rfl⟩ := magnitude_eq_shift h hle
    exact roundTo_shift hm2 k e2 f mode n1 draw
  · obtain ⟨k, rfl, rfl⟩ := magnitude_eq_shift h.symm hle
    exact (roundTo_shift hm1 k e1 f mode n1 draw).symm

/-- R102: RNI of an integer. -/
theorem XR.Is.rni {x : XR} {n : Int} (hx : x.Is n) : Machine.rni x = n := by
  obtain ⟨neg, m, e, rfl, h⟩ := hx
  rcases Nat.eq_zero_or_pos m with rfl | hm
  · have hn : n = 0 := by exact_mod_cast (show (n : Rat) = 0 by rw [← h]; simp)
    have hzero : (roundMag .rne neg 0 e false 0 0).1 = 0 := by
      rcases le_or_gt 0 e with he | he
      · rw [roundMag_on_grid .rne neg 0 0 he, Nat.zero_shiftLeft]
      · simp only [roundMag, onGrid, if_neg (not_le.2 he)]
        split <;> simp [chooseHi]
    simp only [Machine.rni, hzero, hn, Nat.cast_zero, neg_zero, ite_self]
  · rw [← signQ_mul_natAbs, ← mul_one (signQ (decide (n < 0)) * _), ← zpow_zero (2 : Rat)] at h
    obtain ⟨rfl, hmag⟩ := signed_magnitude_inj hm.ne' h
    have habs : (roundMag .rne (decide (n < 0)) m e false 0 0).1 = n.natAbs := by
      rcases le_total 0 e with he | he
      · obtain ⟨k, hk, he'⟩ := magnitude_eq_shift hmag.symm he
        rw [roundMag_on_grid .rne _ m 0 he, hk, Nat.shiftLeft_eq, show (e - 0).toNat = k by omega]
      · obtain ⟨k, rfl, rfl⟩ := magnitude_eq_shift hmag he
        rw [roundMag_shift (fun h0 => hm.ne' (by rw [h0, Nat.zero_mul])), roundMag_on_grid .rne _ _ 0 le_rfl]
        exact Nat.shiftLeft_zero
    simp only [Machine.rni, habs, decide_eq_true_eq]
    split <;> omega

/-! ### The comparison of two values -/

theorem cmpMag_rat (m1 m2 : Nat) (e1 e2 : Int) : cmpMag m1 e1 m2 e2 = compare ((m1 : Rat) * 2 ^ e1) (m2 * 2 ^ e2) := by
  have hpow : (0 : Rat) < 2 ^ min e1 e2 := zpow_pos two_pos _
  rw [cmpMag, ← shifted_mul_zpow (min_le_left e1 e2), ← shifted_mul_zpow (min_le_right e1 e2)]
  have hmono : StrictMono fun n : Nat => (n : Rat) * 2 ^ min e1 e2 := fun a b h => mul_lt_mul_of_pos_right (Nat.cast_lt.2 h) hpow
  rw [← cmp_eq_compare, ← cmp_eq_compare]
  exact (hmono.cmp_map_eq _ _).symm

theorem compare_rat (a b : Rat) : compare a b = if a < b then .lt else if a = b then .eq else .gt := by
  rcases lt_trichotomy a b with h | rfl | h
  · rw [if_pos h, compare_lt_iff_lt.2 h]
  · rw [if_neg (lt_irrefl a), if_pos rfl, compare_eq_iff_eq.2 rfl]
  · rw [if_neg h.not_gt, if_neg h.ne', compare_gt_iff_gt.2 h]

/-- R141: finite values compare as the numbers that they stand for. -/
theorem XR.Is.cmp {x y : XR} {a b : Rat} (hx : x.Is a) (hy : y.Is b) : x.cmp y = compare a b := by
  obtain ⟨n1, m1, e1, rfl, rfl⟩ := hx
  obtain ⟨n2, m2, e2, rfl, rfl⟩ := hy
  have hp (m : Nat) (e : Int) : 0 ≤ (m : Rat) * 2 ^ e ∧ (m = 0 ↔ (m : Rat) * 2 ^ e = 0) :=
    ⟨by positivity, by rw [mul_eq_zero_iff_right (zpow_ne_zero _ two_ne_zero), Nat.cast_eq_zero]⟩
  obtain ⟨h1, hz1⟩ := hp m1 e1
  obtain ⟨h2, hz2⟩ := hp m2 e2
  simp only [XR.cmp, cmpMag_rat, mul_assoc, hz1, hz2]
  generalize (m1 : Rat) * 2 ^ e1 = p1 at *
  generalize (m2 : Rat) * 2 ^ e2 = p2 at *
  simp only [compare_rat]
  cases n1 <;> cases n2 <;> simp only [signQ, if_true, Bool.false_eq_true, if_false]
  case false.false => grind
  case false.true => grind
  case true.false => grind
  case true.true => grind

end Sys2Proof.Machine
end


section
/-! SUPPORT. O16: what a VFN lane is for a special input, for a value beyond a function's range, and where the function's exact
value is known (R102, R152). -/

namespace Sys2Proof.Machine

/-- R152: the format in which a precision rounds. -/
def precision (p : BitVec 2) : Fmt := if p = 1 then bf16 else if p = 2 then fp16 else fp32

theorem precision_width (p : BitVec 2) : (precision p).width = 32 → precision p = fp32 := by
  rw [precision]
  split
  · exact fun h => absurd h (by decide)
  split
  · exact fun h => absurd h (by decide)
  · exact fun _ => rfl

/-- R152: a lane is the code of its result, read as an FP32 value. -/
theorem vfnLane_of_code {fn : Fn} {p : BitVec 2} {x : Lane} {y : XR} {fl : Word}
    (h : evalFn (precision p) fn (exact32 x) = .mk' (roundTo (precision p) .rne 0 y).code fl) :
    vfnLane fn p x = ⟨(inPrecision p y).val, fl, 0⟩ := by
  have hlane : vfnLane fn p x = .mk' (if (precision p).width = 32 then BitVec.ofNat 32 (evalFn (precision p) fn (exact32 x)).val
      else (widen (precision p) (evalFn (precision p) fn (exact32 x)).val).val) (evalFn (precision p) fn (exact32 x)).flags := rfl
  have hprec : (inPrecision p y).val = (rne32 (decodeFmt (precision p) (roundTo (precision p) .rne 0 y).code)).val := rfl
  rw [hlane, h, hprec]
  simp only [Flagged.mk']
  split
  next hw => rw [precision_width p hw, ReadsBack.roundTo .rne 0 y]
  next => rfl

section
variable {fn : Fn} {p : BitVec 2} {x : Lane} {y : XR}

/-- R102: a lane that the special-case table decides. -/
theorem vfnLane_special {fl : Word} (h : special fn (exact32 x) = some (y, fl)) :
    vfnLane fn p x = ⟨(inPrecision p y).val, (inPrecision p y).flags ||| fl, 0⟩ := by
  refine vfnLane_of_code ?_
  unfold evalFn
  rw [h]
  rfl

/-- R102, R152: the value that the FP32 form rounds. -/
def fp32Value (fn : Fn) (neg : Bool) (m : Nat) (e : Int) : XR :=
  if fn = .rsqrt then rsqrtX m e else procedure fn (.fin neg m e false)

theorem evalFn_finite {f : Fmt} {neg : Bool} {m : Nat} {e : Int} (h : special fn (.fin neg m e false) = none) :
    evalFn f fn (.fin neg m e false) =
      let r := if f.width = 32 then roundTo f .rne 0 (fp32Value fn neg m e) else realFn f fn neg m e
      .mk' (zeroCode fn f r.code) r.flags := by
  unfold evalFn
  rw [h]
  cases fn <;> rfl

/-- R102, R152: a lane whose FP32 and whose exact value round to the same number. -/
theorem vfnLane_rounded {neg : Bool} {m : Nat} {e : Int} (hx : exact32 x = .fin neg m e false)
    (hs : special fn (.fin neg m e false) = none)
    (h : ∀ r, r = roundTo (precision p) .rne 0 (fp32Value fn neg m e) ∨ r = realFn (precision p) fn neg m e →
      zeroCode fn (precision p) r.code = (roundTo (precision p) .rne 0 y).code ∧ r.flags = (roundTo (precision p) .rne 0 y).flags) :
    vfnLane fn p x = inPrecision p y := by
  refine vfnLane_of_code (y := y) ?_
  rw [hx, evalFn_finite hs]
  obtain ⟨hcode, hflags⟩ := h (if (precision p).width = 32 then roundTo (precision p) .rne 0 (fp32Value fn neg m e)
    else realFn (precision p) fn neg m e) (ite_eq_or_eq ..)
  dsimp only
  rw [hcode, hflags]
  rfl

/-- R102, R152: a lane whose exact value is known. -/
theorem vfnLane_exact {neg : Bool} {m : Nat} {e : Int} (hx : exact32 x = .fin neg m e false)
    (hs : special fn (.fin neg m e false) = none) (hproc : fp32Value fn neg m e = y)
    (hreal : realFn (precision p) fn neg m e = roundTo (precision p) .rne 0 y)
    (hzero : zeroCode fn (precision p) (roundTo (precision p) .rne 0 y).code = (roundTo (precision p) .rne 0 y).code) :
    vfnLane fn p x = inPrecision p y := by
  refine vfnLane_rounded hx hs fun r hr => ?_
  rw [hproc, hreal, or_self] at hr
  subst hr
  exact ⟨hzero, rfl⟩

end

/-! ### NaN, and the form of a result (R102, R152) -/

theorem inPrecision_nan : ∀ p : BitVec 2, inPrecision p .nan = ⟨0x7FC00000#32, 0, 0⟩ := by decide

theorem inPrecision_inf : ∀ p : BitVec 2, inPrecision p (.inf false) = ⟨0x7F800000#32, 0, 0⟩ := by decide

theorem inPrecision_zero : ∀ p : BitVec 2, inPrecision p (.zero false) = ⟨0, 0, 0⟩ := by decide

theorem inPrecision_signed_one : ∀ (p : BitVec 2) (neg : Bool),
    inPrecision p (withSign neg xOne) = ⟨if neg then 0xBF800000#32 else 0x3F800000#32, 0, 0⟩ := by decide

theorem exact32_of_nanCode {x : Lane} (h : nanCode x) : exact32 x = .nan := by
  have hnan := (isNan_exact32 x).2 h
  cases hx : exact32 x with
  | nan => rfl
  | inf neg => rw [hx] at hnan; exact absurd hnan nofun
  | fin neg m e s => rw [hx] at hnan; exact absurd hnan nofun

theorem vfnLane_nan (fn : Fn) (p : BitVec 2) {x : Lane} (h : nanCode x) : vfnLane fn p x = ⟨0x7FC00000#32, 0, 0⟩ := by
  rw [vfnLane_special (y := .nan) (fl := 0) (by rw [exact32_of_nanCode h]; rfl), inPrecision_nan]
  rfl

theorem vfnLane_bf16 (fn : Fn) (x : Lane) : (vfnLane fn 1 x).val.toNat % 2 ^ 16 = 0 := rne32_bf16 _

theorem vfnLane_fp16 (fn : Fn) (x : Lane) : ∃ c < 2 ^ 16, (vfnLane fn 2 x).val = (rne32 (decodeFmt fp16 c)).val :=
  ⟨(evalFn fp16 fn (exact32 x)).val % 2 ^ 16, Nat.mod_lt _ (Nat.two_pow_pos _), by
    rw [decodeFmt_mod (by decide) (by decide)]
    rfl⟩

/-- R102: the table at the special inputs. -/
theorem vfnLane_specialInputs (fn : Fn) : ∀ p : BitVec 2, specialInputs.map (vfnLane fn p) = functionTable fn := by
  cases fn <;> decide

/-- R152: the three precisions at 0.3. -/
theorem vfnLane_at (fn : Fn) : ∀ p : BitVec 2, p ≠ 3 → some (vfnLane fn p 0x3E99999A#32).val = (functionAt fn)[p.toNat]? := by
  cases fn <;> decide +kernel

end Sys2Proof.Machine
end


section
/-! SUPPORT. O16: the values beyond a function's range, and the reciprocal (R102). -/

namespace Sys2Proof.Machine

/-- R89: a finite code stands for its magnitude in units of 2^−149. -/
theorem exact32_is {x : Lane} (h : magField x < 0x7F800000) :
    (exact32 x).Is (signQ (signField x) * (magUnits (magField x) * 2 ^ (-149 : Int))) := by
  obtain ⟨m, e, hx, he, hu, -⟩ := exact32_finite h
  refine ⟨_, m, e, hx, ?_⟩
  rw [← hu, mul_assoc, Nat.cast_mul, Nat.cast_pow, Nat.cast_ofNat, ← zpow_natCast, mul_assoc, ← zpow_add₀ two_ne_zero,
    Int.toNat_of_nonneg (by omega), add_neg_cancel_right]

/-- R89: a code at or above that of a bound is a value at or above the bound. -/
theorem le_magnitude {n k : Nat} {b : Rat} (hb : magUnits n * 2 ^ (-149 : Int) = b) (h : n ≤ k) :
    b ≤ magUnits k * 2 ^ (-149 : Int) := by
  rw [← hb]
  exact mul_le_mul_of_nonneg_right (Nat.cast_le.2 (magUnits_strictMono.monotone h)) (zpow_pos two_pos _).le

theorem abs_signQ_mul (neg : Bool) (q : Rat) : |signQ neg * q| = |q| := by
  cases neg <;> simp [signQ]

section
variable (neg : Bool) {m : Nat} (e : Int) (hm : m ≠ 0)
include hm

theorem special_exp2 : special .exp2 (.fin neg m e false) =
    if (XR.fin neg m e false).cmp (xInt 128) ≠ .lt then some (.inf false, flagOvf)
    else if (XR.fin neg m e false).cmp (xInt (-151)) ≠ .gt then some (.zero false, flagUnf) else none := by
  obtain ⟨m, rfl⟩ := Nat.exists_eq_succ_of_ne_zero hm
  rfl

theorem special_exp : special .exp (.fin neg m e false) =
    if (XR.fin neg m e false).cmp (xInt 89) ≠ .lt then some (.inf false, flagOvf)
    else if (XR.fin neg m e false).cmp (xInt (-104)) ≠ .gt then some (.zero false, flagUnf) else none := by
  obtain ⟨m, rfl⟩ := Nat.exists_eq_succ_of_ne_zero hm
  rfl

theorem special_erf : special .erf (.fin neg m e false) =
    if (XR.fin neg m e false).abs.cmp (xInt 4) ≠ .lt then some (withSign neg xOne, 0) else none := by
  obtain ⟨m, rfl⟩ := Nat.exists_eq_succ_of_ne_zero hm
  rfl

/-- R102: LOG2, LN and RSQRT have no value at a negative number. -/
theorem special_negative {fn : Fn} (hfn : fn = .log2 ∨ fn = .ln ∨ fn = .rsqrt) :
    special fn (.fin true m e false) = some (.nan, flagInv) := by
  obtain ⟨m, rfl⟩ := Nat.exists_eq_succ_of_ne_zero hm
  rcases hfn with rfl | rfl | rfl <;> rfl

/-- R102: LOG2 and RSQRT have no special case at a positive number, RCP, SINT and COST none at all but zeros. -/
theorem special_none {fn : Fn} (h : (neg = false ∧ (fn = .log2 ∨ fn = .rsqrt)) ∨ fn = .rcp ∨ fn = .sint ∨ fn = .cost) :
    special fn (.fin neg m e false) = none := by
  obtain ⟨m, rfl⟩ := Nat.exists_eq_succ_of_ne_zero hm
  rcases h with ⟨rfl, rfl | rfl⟩ | rfl | rfl | rfl <;> rfl

end

section
variable {x : Lane} (p : BitVec 2) (hfin : magField x < 0x7F800000)
include hfin

/-- R102: a function that overflows from b on and gives +0 from c down. -/
theorem vfnLane_overflow {fn : Fn} {b c : Int} {n : Nat} (hs : ∀ neg m e, m ≠ 0 → special fn (.fin neg m e false) =
      if (XR.fin neg m e false).cmp (xInt b) ≠ .lt then some (.inf false, flagOvf)
      else if (XR.fin neg m e false).cmp (xInt c) ≠ .gt then some (.zero false, flagUnf) else none)
    (hb : magUnits n * 2 ^ (-149 : Int) = (b : Rat)) (hn : 0 < n) (hsign : signField x = false) (h : n ≤ magField x) :
    vfnLane fn p x = ⟨0x7F800000#32, flagOvf, 0⟩ := by
  obtain ⟨m, e, hx, -, -, hzero⟩ := exact32_finite hfin
  have hcmp := (exact32_is hfin).cmp (XR.is_xInt b)
  have hle := le_magnitude hb h
  rw [hx, hsign, signQ, if_neg Bool.false_ne_true, one_mul] at hcmp
  have hspecial : special fn (exact32 x) = some (.inf false, flagOvf) := by
    rw [hx, hsign, hs _ _ _ (by omega), hcmp, if_pos]
    rw [Ne, compare_lt_iff_lt, not_lt]
    exact hle
  rw [vfnLane_special hspecial, inPrecision_inf]
  rfl

theorem vfnLane_underflow {fn : Fn} {b c : Int} {n : Nat} (hs : ∀ neg m e, m ≠ 0 → special fn (.fin neg m e false) =
      if (XR.fin neg m e false).cmp (xInt b) ≠ .lt then some (.inf false, flagOvf)
      else if (XR.fin neg m e false).cmp (xInt c) ≠ .gt then some (.zero false, flagUnf) else none)
    (hc : magUnits n * 2 ^ (-149 : Int) = -(c : Rat)) (hb : 0 < b) (hn : 0 < n) (hsign : signField x = true)
    (h : n ≤ magField x) : vfnLane fn p x = ⟨0, flagUnf, 0⟩ := by
  obtain ⟨m, e, hx, -, -, hzero⟩ := exact32_finite hfin
  have hcmp (b : Int) := (exact32_is hfin).cmp (XR.is_xInt b)
  have hle := le_magnitude hc h
  have hpos : (0 : Rat) ≤ magUnits (magField x) * 2 ^ (-149 : Int) := by positivity
  have hb : (0 : Rat) < b := by exact_mod_cast hb
  rw [hx, hsign, signQ, if_pos rfl, neg_one_mul] at hcmp
  have hspecial : special fn (exact32 x) = some (.zero false, flagUnf) := by
    rw [hx, hsign, hs _ _ _ (by omega), hcmp, hcmp, if_neg, if_pos]
    · rw [Ne, compare_gt_iff_gt, not_lt]
      linarith
    · rw [Ne, not_not, compare_lt_iff_lt]
      linarith
  rw [vfnLane_special hspecial, inPrecision_zero]
  rfl

theorem vfnLane_negative {fn : Fn} (hfn : fn = .log2 ∨ fn = .ln ∨ fn = .rsqrt) (hsign : signField x = true) (h : 0 < magField x) :
    vfnLane fn p x = ⟨0x7FC00000#32, flagInv, 0⟩ := by
  obtain ⟨m, e, hx, -, -, hzero⟩ := exact32_finite hfin
  rw [vfnLane_special (y := .nan) (fl := flagInv) (by rw [hx, hsign, special_negative e (by omega) hfn]), inPrecision_nan]
  rfl

/-- R102: ERF from 4 on is ±1. -/
theorem vfnLane_erf_far (h : 0x40800000 ≤ magField x) :
    vfnLane .erf p x = ⟨if signField x then 0xBF800000#32 else 0x3F800000#32, 0, 0⟩ := by
  obtain ⟨m, e, hx, -, -, hzero⟩ := exact32_finite hfin
  have hcmp := (exact32_is hfin).abs.cmp (XR.is_xInt 4)
  have hle := le_magnitude (n := 0x40800000) (b := 4) (by norm_num [magUnits]) h
  have hspecial : special .erf (exact32 x) = some (withSign (signField x) xOne, 0) := by
    rw [hx, abs_signQ_mul, abs_of_nonneg (by positivity)] at hcmp
    rw [hx, special_erf _ _ (by omega), hcmp, if_pos]
    rw [Ne, compare_lt_iff_lt, not_lt]
    exact hle
  rw [vfnLane_special hspecial, inPrecision_signed_one]
  cases signField x <;> rfl

/-- R102: RCP is the correctly rounded quotient. -/
theorem vfnLane_rcp (h : 0 < magField x) : vfnLane .rcp p x = inPrecision p ((XR.ofInt 1 0).div (exact32 x)) := by
  obtain ⟨m, e, hx, -, -, hzero⟩ := exact32_finite hfin
  rw [vfnLane_exact hx (special_none _ _ (by omega) (.inr (.inl rfl))) rfl rfl rfl, hx]
  rfl

end

theorem units_128 : magUnits 0x43000000 * 2 ^ (-149 : Int) = ((128 : Int) : Rat) := by norm_num [magUnits]
theorem units_151 : magUnits 0x43170000 * 2 ^ (-149 : Int) = -((-151 : Int) : Rat) := by norm_num [magUnits]
theorem units_89 : magUnits 0x42B20000 * 2 ^ (-149 : Int) = ((89 : Int) : Rat) := by norm_num [magUnits]
theorem units_104 : magUnits 0x42D00000 * 2 ^ (-149 : Int) = -((-104 : Int) : Rat) := by norm_num [magUnits]

end Sys2Proof.Machine
end


section
/-! SUPPORT. O16: the inputs with a dyadic exact value (R102): EXP2 at integers, LOG2 and RSQRT at powers of two, SINT and COST at
quarter turns. -/

namespace Sys2Proof.Machine

/-- R92, R93: an integer multiple of a power of two that FP32 holds. -/
theorem exact32_ofInt {v e : Int} (h0 : v ≠ 0) (hv : v.natAbs < 2 ^ 24) (hlow : -149 ≤ e) (hhigh : e + Nat.log2 v.natAbs ≤ 127) :
    ∃ k : Nat, exact32 (rne32 (.ofInt v e)).val = .fin (decide (v < 0)) (v.natAbs * 2 ^ k) (e - k) false :=
  exact32_rne32_holds _ (Int.natAbs_ne_zero.2 h0) hv hlow hhigh

theorem exact32_ofInt_is {v e : Int} {neg : Bool} {m : Nat} {q : Int} (h : ∃ k : Nat,
    XR.fin neg m q false = .fin (decide (v < 0)) (v.natAbs * 2 ^ k) (e - k) false) : (XR.fin neg m q false).Is (v * 2 ^ e) := by
  have := XR.Holds.is h
  rwa [signQ_mul_natAbs] at this

theorem log2_lt_of_lt {m b : Nat} (h0 : m ≠ 0) (h : m < 2 ^ b) : Nat.log2 m < b := (Nat.log2_lt h0).2 h

/-- R103: the procedure's reduced argument vanishes at an integer, and leaves the power of two. -/
theorem expv2_of_integer {x : XR} {n : Int} (hx : x.Is n) (hn : n ≠ 0) : expv2 x = xOne.scale n := by
  have hk : rni (x.scale 6) = 64 * n := by
    have h := hx.scale 6
    rw [show (n : Rat) * 2 ^ (6 : Int) = ((64 * n : Int) : Rat) by push_cast; ring] at h
    exact h.rni
  have hr : x.add ((xInt (64 * n)).scale (-6)).negate = .zero false := by
    have h := ((XR.is_xInt (64 * n)).scale (-6)).negate
    rw [show -(((64 * n : Int) : Rat) * 2 ^ (-6 : Int)) = -(n : Rat) by push_cast; norm_num; ring] at h
    exact hx.add_cancel h (by exact_mod_cast hn)
  have hshift : (64 * n) >>> 6 = n := by
    rw [show (6 : Int) = ((6 : Nat) : Int) from rfl, Int.shiftRight_natCast_right, Int.shiftRight_eq_div_pow]
    omega
  have hmod : (64 * n) % 64 = 0 := by omega
  unfold expv2
  dsimp only
  rw [hk, hr, hshift, hmod]
  congr 1

/-- R102: EXP2 at an integer is the power of two. -/
theorem vfnLane_exp2_integer (p : BitVec 2) {n : Int} (hlow : -151 < n) (hhigh : n < 128) :
    vfnLane .exp2 p (rne32 (.ofInt n 0)).val = inPrecision p (.ofInt 1 n) := by
  rcases eq_or_ne n 0 with rfl | hn
  · revert p
    decide
  obtain ⟨k, hx⟩ := exact32_ofInt (v := n) (e := 0) hn (by omega) (by decide)
    (by have := log2_lt_of_lt (b := 8) (Int.natAbs_ne_zero.2 hn) (by omega); omega)
  have his := exact32_ofInt_is ⟨k, rfl⟩ (v := n) (e := 0)
  rw [zpow_zero, mul_one] at his
  set m := n.natAbs * 2 ^ k
  have hm : m ≠ 0 := Nat.mul_ne_zero (Int.natAbs_ne_zero.2 hn) (Nat.two_pow_pos k).ne'
  have hspecial : special .exp2 (.fin (decide (n < 0)) m (0 - k) false) = none := by
    rw [special_exp2 _ _ hm, his.cmp (XR.is_xInt 128), his.cmp (XR.is_xInt (-151)), if_neg, if_neg]
    · rw [Ne, not_not, compare_gt_iff_gt]
      exact_mod_cast hlow
    · rw [Ne, not_not, compare_lt_iff_lt]
      exact_mod_cast hhigh
  have hout : xOne.scale n = .ofInt 1 n := by rw [xOne, XR.scale, zero_add]; rfl
  refine vfnLane_exact hx hspecial ((expv2_of_integer his hn).trans hout) ?_ rfl
  have hbig : (XR.fin (decide (n < 0)) m (0 - k) false).abs.cmp (xInt 1024) = .lt := by
    rw [his.abs.cmp (XR.is_xInt 1024), compare_lt_iff_lt, abs_lt]
    exact ⟨by exact_mod_cast (by omega : (-1024 : Int) < n), by exact_mod_cast (by omega : n < 1024)⟩
  have hr : (XR.fin (decide (n < 0)) m (0 - k) false).add (xInt n).negate = .zero false :=
    his.add_cancel (XR.is_xInt n).negate (by exact_mod_cast hn)
  rw [realFn]
  simp only [hbig, his.rni, hr, XR.zero]
  rw [if_neg (by decide), if_pos trivial, hout]

/-! ### LOG2 at powers of two (R104) -/

/-- R84, R102: FMA of a product and its opposite. -/
theorem pfma_cancel {x y z : XR} {a b : Rat} (hx : x.Is a) (hy : y.Is b) (hz : z.Is (-(a * b))) (hab : a * b ≠ 0) :
    pfma x y z = exact32 0 := by
  have hsum : sumZero .rne (x.mul y) z ((x.mul y).add z) = .zero false := by
    rw [(hx.mul hy).add_cancel hz hab, sumZero]
    exact ite_self _
  have hval : (fmaX x y z).val = (rne32 (.zero false)).val := by rw [← hsum]; rfl
  rw [pfma, hval]
  rfl

theorem XR.add_zero_right (n : Int) (neg : Bool) (e : Int) : (xInt n).add (.fin false 0 e neg) = xInt n := by
  simp only [xInt, XR.ofInt, XR.add]
  split_ifs <;> simp_all [XR.zero]

theorem log2_two_pow_not_up (k : Nat) : ¬ 2 * 2 ^ k ≥ 3 * 2 ^ Nat.log2 (2 ^ k) := by
  have := Nat.two_pow_pos k
  rw [Nat.log2_two_pow]
  omega

/-- R104: the procedure's u vanishes at a power of two, and leaves the exponent. -/
theorem log2v_of_two_pow (k : Nat) (n : Int) : log2v (2 ^ k) (n - k) = xInt n := by
  have hred : logReduce (2 ^ k) (n - k) = (n, .fin false (2 ^ k) (-k) false) := by
    rw [logReduce, if_neg (log2_two_pow_not_up k), Nat.log2_two_pow, sub_add_cancel]
  have hone : (XR.fin false (2 ^ k) (-k) false).Is 1 :=
    ⟨_, _, _, rfl, by rw [signQ, if_neg Bool.false_ne_true, one_mul, Nat.cast_pow, zpow_neg, zpow_natCast]; field_simp; rfl⟩
  have hj : rni ((XR.fin false (2 ^ k) (-k) false).scale 6) = 64 := by
    have h := hone.scale 6
    rw [one_mul, show (2 : Rat) ^ (6 : Int) = ((64 : Int) : Rat) by norm_num] at h
    exact h.rni
  have hrc : (tabRc 64).Is 1 := ⟨false, 2 ^ 23, -23, by decide, by norm_num [signQ]⟩
  have hu : pfma (.fin false (2 ^ k) (-k) false) (tabRc 64) (xInt (-1)) = exact32 0 :=
    pfma_cancel hone hrc (by simpa using XR.is_xInt (-1)) (by norm_num)
  unfold log2v
  rw [hred]
  dsimp only
  rw [hj, show (64 : Int).toNat = 64 from rfl, hu]
  refine (congrArg₂ XR.add (XR.add_zero_right n false 0) (?_ : _ = XR.fin false 0 0 false)).trans (XR.add_zero_right n false 0)
  decide

/-- R102: an integer of this size never rounds to −0. -/
theorem roundTo_xInt_ne_negZero : ∀ p : BitVec 2, ∀ n < 256, ∀ neg : Bool, n ≠ 0 →
    (roundTo (precision p) .rne 0 (.fin neg n 0 false)).code ≠ (precision p).signBit true := by
  decide +kernel

theorem zeroCode_xInt (fn : Fn) (p : BitVec 2) {n : Int} (hn : n.natAbs < 256) : zeroCode fn (precision p)
    (roundTo (precision p) .rne 0 (xInt n)).code = (roundTo (precision p) .rne 0 (xInt n)).code := by
  have hne : (roundTo (precision p) .rne 0 (xInt n)).code ≠ (precision p).signBit true := by
    rcases eq_or_ne n 0 with rfl | h0
    · revert p
      decide
    · exact roundTo_xInt_ne_negZero p _ hn _ (Int.natAbs_ne_zero.2 h0)
  cases fn <;> simp [zeroCode, hne]

theorem exact32_two_pow {n : Int} (hlow : -150 < n) (hhigh : n < 128) :
    ∃ k : Nat, exact32 (rne32 (.ofInt 1 n)).val = .fin false (2 ^ k) (n - k) false := by
  obtain ⟨k, hx⟩ := exact32_ofInt (v := 1) (e := n) one_ne_zero (by decide) (by omega) (by
    rw [show Nat.log2 (Int.natAbs 1) = 0 from rfl]
    omega)
  exact ⟨k, by rw [hx, show Int.natAbs 1 = 1 from rfl, Nat.one_mul]; rfl⟩

/-- R102: LOG2 of a power of two is its exponent. -/
theorem vfnLane_log2_two_pow (p : BitVec 2) {n : Int} (hlow : -150 < n) (hhigh : n < 128) :
    vfnLane .log2 p (rne32 (.ofInt 1 n)).val = inPrecision p (.ofInt n 0) := by
  obtain ⟨k, hx⟩ := exact32_two_pow hlow hhigh
  have hm : (2 ^ k) ≠ 0 := (Nat.two_pow_pos k).ne'
  refine vfnLane_exact hx (special_none _ _ hm (.inl ⟨rfl, .inl rfl⟩)) (log2v_of_two_pow k n) ?_ (zeroCode_xInt _ p (by omega))
  rw [realFn]
  dsimp only
  rw [Nat.log2_two_pow, if_pos rfl, sub_add_cancel]
  rfl

end Sys2Proof.Machine
end


section
/-! SUPPORT. O16: RSQRT at powers of four, SINT and COST at quarter turns (R104, R105). -/

namespace Sys2Proof.Machine

/-! ### RSQRT at powers of four (R104) -/

theorem isqrtStep_of_square (a bit : Nat) (h : 0 < bit) : isqrtStep (a * a) a bit = a := by
  rw [isqrtStep, if_neg]
  rw [Nat.not_le]
  exact Nat.mul_lt_mul'' (Nat.lt_add_of_pos_right h) (Nat.lt_add_of_pos_right h)

/-- A square's root is reached, the lower bits change nothing. -/
theorem isqrtFrom_of_square (a : Nat) : ∀ k, isqrtFrom (a * a) k a = a
  | 0 => isqrtStep_of_square a 1 one_pos
  | k + 1 => by rw [isqrtFrom, isqrtStep_of_square a _ (Nat.two_pow_pos _), isqrtFrom_of_square a k]

theorem isqrt_four_pow (t : Nat) : isqrt (2 ^ (2 * t)) = 2 ^ t := by
  have hsq : 2 ^ (2 * t) = 2 ^ t * 2 ^ t := by rw [← pow_add, two_mul]
  have hstep : isqrtStep (2 ^ t * 2 ^ t) 0 (2 ^ t) = 2 ^ t := by rw [isqrtStep, Nat.zero_add, if_pos le_rfl]
  rw [isqrt, Nat.log2_two_pow, Nat.mul_div_cancel_left t two_pos, hsq]
  cases t with
  | zero => exact hstep
  | succ t => rw [isqrtFrom, hstep, isqrtFrom_of_square]

theorem exact32_significand {x : Lane} {neg : Bool} {m : Nat} {e : Int} {s : Bool} (h : exact32 x = .fin neg m e s) : m < 2 ^ 24 := by
  have hf := fracField_lt x
  rw [exact32_eq] at h
  split at h
  · split at h <;> exact XR.noConfusion h
  split at h <;> injection h <;> omega

/-- R104: the reciprocal of the root of a power of four. -/
theorem rsqrtX_four_pow {k : Nat} (n : Int) (hk : k < 400) : (rsqrtX (2 ^ k) (2 * n - k)).Is (2 ^ (-n)) := by
  obtain ⟨t, ht⟩ : ∃ t : Nat, (400 + (2 * n - (k : Int)) % 2).toNat = k + 2 * t :=
    ⟨((400 + (2 * n - (k : Int)) % 2).toNat - k) / 2, by omega⟩
  have hh : -((2 * n - (k : Int) + (400 + (2 * n - (k : Int)) % 2 - 400)) / 2) - 200 = -n - t := by omega
  have hdiv : 2 ^ (k + 2 * t) / 2 ^ k = 2 ^ (2 * t) := by rw [pow_add, Nat.mul_div_cancel_left _ (Nat.two_pow_pos k)]
  have hexact : 2 ^ t * 2 ^ t * 2 ^ k = 2 ^ (k + 2 * t) := by rw [← pow_add, ← pow_add]; congr 1; omega
  refine ⟨false, 2 ^ t, -n - t, ?_, ?_⟩
  · simp only [rsqrtX, ht, hh, hdiv, isqrt_four_pow, hexact, ne_eq, not_true_eq_false, decide_false]
  · rw [signQ, if_neg Bool.false_ne_true, one_mul, Nat.cast_pow, Nat.cast_ofNat, ← zpow_natCast, ← zpow_add₀ two_ne_zero,
      add_sub_cancel]

/-- R102: RSQRT of a power of four is a power of two. -/
theorem vfnLane_rsqrt_four_pow (p : BitVec 2) {n : Int} (hlow : -75 < n) (hhigh : n < 64) :
    vfnLane .rsqrt p (rne32 (.ofInt 1 (2 * n))).val = inPrecision p (.ofInt 1 (-n)) := by
  obtain ⟨k, hx⟩ := exact32_two_pow (n := 2 * n) (by omega) (by omega)
  have hk : k < 24 := (Nat.pow_lt_pow_iff_right (by decide)).1 (exact32_significand hx)
  have hm : (2 ^ k) ≠ 0 := (Nat.two_pow_pos k).ne'
  have hround (f : Fmt) := (rsqrtX_four_pow n (hk.trans (by decide))).roundTo_eq
    (by simpa using XR.is_ofInt 1 (-n)) (zpow_ne_zero _ two_ne_zero) f .rne 0
  refine vfnLane_rounded hx (special_none _ _ hm (.inl ⟨rfl, .inr rfl⟩)) fun r hr => ?_
  have hr : r = roundTo (precision p) .rne 0 (.ofInt 1 (-n)) := by
    rw [← hround]
    exact hr.elim id id
  subst hr
  exact ⟨rfl, rfl⟩

/-! ### SINT and COST at quarter turns (R105) -/

/-- R105: at a quarter turn the quadrant is the turn's number, and the reduced argument vanishes. -/
theorem quarter_reduction {x : XR} {k : Int} (hx : x.Is (k / 4)) (hk : k ≠ 0) :
    rni (x.scale 2) = k ∧ x.add ((xInt k).scale (-2)).negate = .zero false := by
  have hscale := hx.scale 2
  have hback := ((XR.is_xInt k).scale (-2)).negate
  rw [show (k : Rat) / 4 * 2 ^ (2 : Int) = k by norm_num] at hscale
  rw [show -((k : Rat) * 2 ^ (-2 : Int)) = -(k / 4) by norm_num; ring] at hback
  exact ⟨hscale.rni, hx.add_cancel hback (by simpa using hk)⟩

theorem trigv_of_quarter {x : XR} {k : Int} (hx : x.Is (k / 4)) (hk : k ≠ 0) :
    trigv x = ((k % 4).toNat, .zero false, xOne) := by
  obtain ⟨hq, hf⟩ := quarter_reduction hx hk
  unfold trigv
  dsimp only
  rw [hq, hf]
  congr 1

/-- The sine of c quarter turns. -/
def quarterSine (c : Nat) : Int := [0, 1, 0, -1].getD c 0

/-- R105: the procedures at a quarter turn, where a zero may be −0. -/
theorem trigPick_of_quarter (sine : Bool) {x : XR} {k : Int} (hx : x.Is (k / 4)) (hk : k ≠ 0) {c : Nat}
    (hc : c = ((k + if sine then 0 else 1) % 4).toNat) :
    trigPick sine x = xInt (quarterSine c) ∨ (trigPick sine x = .zero true ∧ quarterSine c = 0) := by
  have hquad : (k % 4).toNat = 0 ∧ c = (if sine then 0 else 1) ∨ (k % 4).toNat = 1 ∧ c = (if sine then 1 else 2)
      ∨ (k % 4).toNat = 2 ∧ c = (if sine then 2 else 3) ∨ (k % 4).toNat = 3 ∧ c = (if sine then 3 else 0) := by
    cases sine <;> simp only [if_true, Bool.false_eq_true, if_false] at hc ⊢ <;> omega
  unfold trigPick
  rw [trigv_of_quarter hx hk]
  rcases hquad with ⟨h, rfl⟩ | ⟨h, rfl⟩ | ⟨h, rfl⟩ | ⟨h, rfl⟩ <;> rw [h] <;> cases sine <;> decide

/-- R102: the exact values at a quarter turn. -/
theorem realFn_of_quarter (f : Fmt) {fn : Fn} (hfn : fn = .sint ∨ fn = .cost) {neg : Bool} {m : Nat} {e k : Int}
    (hx : (XR.fin neg m e false).Is (k / 4)) (hk : k ≠ 0) {c : Nat} (hc : c = ((k + if fn = .cost then 1 else 0) % 4).toNat) :
    realFn f fn neg m e = roundTo f .rne 0 (xInt (quarterSine c)) := by
  obtain ⟨hq, hf⟩ := quarter_reduction hx hk
  have hc4 : c < 4 := by omega
  have hturn : (match (generalizing := false) c with | 1 => xOne | 3 => xInt (-1) | _ => .zero false) = xInt (quarterSine c) := by
    clear hc
    interval_cases c <;> rfl
  unfold realFn
  rcases hfn with rfl | rfl <;> dsimp only <;> rw [hq, hf, ← hc] <;> exact congrArg (roundTo f .rne 0) hturn

/-- R102: a zero result is +0. -/
theorem zeroCode_negZero {fn : Fn} (hfn : fn = .sint ∨ fn = .cost) : ∀ p : BitVec 2,
    zeroCode fn (precision p) (roundTo (precision p) .rne 0 (.zero true)).code = (roundTo (precision p) .rne 0 (xInt 0)).code
    ∧ (roundTo (precision p) .rne 0 (.zero true)).flags = (roundTo (precision p) .rne 0 (xInt 0)).flags := by
  rcases hfn with rfl | rfl <;> decide

/-- R102: SINT and COST at a quarter turn, a zero result being +0. -/
theorem vfnLane_quarter {fn : Fn} (p : BitVec 2) {k : Int} (hfn : fn = .sint ∨ fn = .cost) (hk : k.natAbs < 17) (h0 : k ≠ 0) {c : Nat}
    (hc : c = ((k + if fn = .cost then 1 else 0) % 4).toNat) :
    vfnLane fn p (rne32 (.ofInt k (-2))).val = inPrecision p (xInt (quarterSine c)) := by
  obtain ⟨j, hx⟩ := exact32_ofInt (v := k) (e := -2) h0 (by omega) (by decide)
    (by have := log2_lt_of_lt (b := 5) (Int.natAbs_ne_zero.2 h0) (by omega); omega)
  have his := exact32_ofInt_is ⟨j, rfl⟩ (v := k) (e := -2)
  rw [show (k : Rat) * 2 ^ (-2 : Int) = k / 4 by norm_num; ring] at his
  have hm : k.natAbs * 2 ^ j ≠ 0 := Nat.mul_ne_zero (Int.natAbs_ne_zero.2 h0) (Nat.two_pow_pos j).ne'
  have hc4 : c < 4 := by omega
  have hint : (quarterSine c).natAbs < 256 := by interval_cases c <;> decide
  have hproc : fp32Value fn (decide (k < 0)) (k.natAbs * 2 ^ j) (-2 - j) = xInt (quarterSine c)
      ∨ (fp32Value fn (decide (k < 0)) (k.natAbs * 2 ^ j) (-2 - j) = .zero true ∧ quarterSine c = 0) := by
    rcases hfn with rfl | rfl
    · exact trigPick_of_quarter true his h0 hc
    · exact trigPick_of_quarter false his h0 hc
  refine vfnLane_rounded hx (special_none _ _ hm (.inr (.inr hfn))) fun r hr => ?_
  rw [realFn_of_quarter _ hfn his h0 hc] at hr
  have hr : r = roundTo (precision p) .rne 0 (xInt (quarterSine c))
      ∨ (r = roundTo (precision p) .rne 0 (.zero true) ∧ quarterSine c = 0) := by
    rcases hr with rfl | rfl
    · rcases hproc with h | ⟨h, hz⟩
      · exact .inl (by rw [h])
      · exact .inr ⟨by rw [h], hz⟩
    · exact .inl rfl
  rcases hr with rfl | ⟨rfl, hz⟩
  · exact ⟨zeroCode_xInt fn p hint, rfl⟩
  · rw [hz]
    exact zeroCode_negZero hfn p

end Sys2Proof.Machine
end


section
/-! SUPPORT. O16: the lanes of VFN follow R102 and R152. -/

namespace Sys2Proof.Machine

theorem functionLanes_form (p : BitVec 2) (fn : Fn) (x : Lane) :
    (0x7F800000 < x.toNat % 2 ^ 31 → vfnLane fn p x = ⟨0x7FC00000#32, 0, 0⟩)
    ∧ (p = 1 → (vfnLane fn p x).val.toNat % 2 ^ 16 = 0)
    ∧ (p = 2 → ∃ c < 2 ^ 16, (vfnLane fn p x).val = (rne32 (decodeFmt fp16 c)).val)
    ∧ (vfnLane fn p x).sat = 0 := by
  refine ⟨vfnLane_nan fn p, ?_, ?_, rfl⟩
  · rintro rfl
    exact vfnLane_bf16 fn x
  · rintro rfl
    exact vfnLane_fp16 fn x

/-- R102: the rows beyond a function's range, and RCP. -/
theorem functionLanes_range (p : BitVec 2) (x : Lane) :
    let n := x.toNat
    (0x43000000 ≤ n ∧ n < 0x7F800000 → vfnLane .exp2 p x = ⟨0x7F800000#32, flagOvf, 0⟩)
    ∧ (0xC3170000 ≤ n ∧ n < 0xFF800000 → vfnLane .exp2 p x = ⟨0, flagUnf, 0⟩)
    ∧ (0x42B20000 ≤ n ∧ n < 0x7F800000 → vfnLane .exp p x = ⟨0x7F800000#32, flagOvf, 0⟩)
    ∧ (0xC2D00000 ≤ n ∧ n < 0xFF800000 → vfnLane .exp p x = ⟨0, flagUnf, 0⟩)
    ∧ (0x80000000 < n ∧ n < 0xFF800000 →
        vfnLane .log2 p x = ⟨0x7FC00000#32, flagInv, 0⟩ ∧ vfnLane .ln p x = ⟨0x7FC00000#32, flagInv, 0⟩
        ∧ vfnLane .rsqrt p x = ⟨0x7FC00000#32, flagInv, 0⟩)
    ∧ (0x40800000 ≤ n % 2 ^ 31 ∧ n % 2 ^ 31 < 0x7F800000 →
        vfnLane .erf p x = ⟨if n < 2 ^ 31 then 0x3F800000#32 else 0xBF800000#32, 0, 0⟩)
    ∧ (0 < n % 2 ^ 31 ∧ n % 2 ^ 31 < 0x7F800000 → vfnLane .rcp p x = inPrecision p ((XR.ofInt 1 0).div (exact32 x))) := by
  have hmag : magField x = x.toNat % 2 ^ 31 := rfl
  have hpos (h : x.toNat < 0x7F800000) : signField x = false := decide_eq_false (by omega)
  have hneg (h : 0x80000000 < x.toNat) : signField x = true := decide_eq_true (by omega)
  refine ⟨fun h => ?_, fun h => ?_, fun h => ?_, fun h => ?_, fun h => ?_, fun h => ?_, fun h => ?_⟩
  · exact vfnLane_overflow p (by omega) (fun _ _ _ => special_exp2 _ _) units_128 (by decide) (hpos h.2) (by omega)
  · exact vfnLane_underflow p (by omega) (fun _ _ _ => special_exp2 _ _) units_151 (by decide) (by decide) (hneg (by omega)) (by omega)
  · exact vfnLane_overflow p (by omega) (fun _ _ _ => special_exp _ _) units_89 (by decide) (hpos h.2) (by omega)
  · exact vfnLane_underflow p (by omega) (fun _ _ _ => special_exp _ _) units_104 (by decide) (by decide) (hneg (by omega)) (by omega)
  · have hfin : magField x < 0x7F800000 := by omega
    have hnz : 0 < magField x := by omega
    exact ⟨vfnLane_negative p hfin (.inl rfl) (hneg h.1) hnz, vfnLane_negative p hfin (.inr (.inl rfl)) (hneg h.1) hnz,
      vfnLane_negative p hfin (.inr (.inr rfl)) (hneg h.1) hnz⟩
  · rw [vfnLane_erf_far p h.2 h.1]
    have hsign : signField x = true ↔ ¬ x.toNat < 2 ^ 31 := by rw [signField, decide_eq_true_eq, not_lt]
    simp only [hsign, ite_not]
  · exact vfnLane_rcp p h.2 h.1

theorem functionLanes_quarters (p : BitVec 2) {k : Int} (hlow : -17 < k) (hhigh : k < 17) :
    vfnLane .sint p (rne32 (.ofInt k (-2))).val = inPrecision p (.ofInt ([0, 1, 0, -1].getD (k % 4).toNat 0) 0)
    ∧ vfnLane .cost p (rne32 (.ofInt k (-2))).val = inPrecision p (.ofInt ([1, 0, -1, 0].getD (k % 4).toNat 0) 0) := by
  rcases eq_or_ne k 0 with rfl | h0
  · revert p
    decide
  have hcos : quarterSine ((k + 1) % 4).toNat = [1, 0, -1, 0].getD (k % 4).toNat 0 := by
    have hc : (k % 4).toNat = 0 ∧ ((k + 1) % 4).toNat = 1 ∨ (k % 4).toNat = 1 ∧ ((k + 1) % 4).toNat = 2
        ∨ (k % 4).toNat = 2 ∧ ((k + 1) % 4).toNat = 3 ∨ (k % 4).toNat = 3 ∧ ((k + 1) % 4).toNat = 0 := by omega
    rcases hc with ⟨h, h'⟩ | ⟨h, h'⟩ | ⟨h, h'⟩ | ⟨h, h'⟩ <;> rw [h, h'] <;> rfl
  rw [← hcos]
  constructor
  · exact vfnLane_quarter p (.inl rfl) (by omega) h0 (by rw [if_neg nofun, add_zero])
  · exact vfnLane_quarter p (.inr rfl) (by omega) h0 (by rw [if_pos rfl])

theorem functionLanes_vfnLane : FunctionLanes vfnLane := fun p hp =>
  ⟨functionLanes_form p, fun fn => ⟨vfnLane_specialInputs fn p, vfnLane_at fn p hp⟩, functionLanes_range p,
    fun _ => vfnLane_exp2_integer p, fun _ => vfnLane_log2_two_pow p, fun _ => vfnLane_rsqrt_four_pow p,
    fun _ => functionLanes_quarters p⟩

/-- Settles O16. -/
theorem vectorFunctions : Obligations.VectorFunctions := by
  unfold Obligations.VectorFunctions
  refine ⟨fun k d a q p s => ?_, functionLanes_vfnLane⟩
  dsimp only
  refine ⟨?_, ?_, ?_, ?_, ?_, ?_, ?_, ?_, ?_, ?_, ?_, ?_, ?_⟩ <;> exact landsLanes_of_lanewise rfl

end Sys2Proof.Machine
end


section
/-! SUPPORT. O57: the creation of a context (R90, R243, R393): what its descriptor, its logical cores and its scratchpads hold, and
the gang stop (R359). -/

namespace Sys2Proof.Machine

/-! ### The descriptor of a new context (R393) -/

/-- R393: the words of a descriptor. -/
def Ctx.descWords (c : Ctx) : List Nat :=
  [c.state % 4 + (if c.hostOk then 4 else 0) + c.keyid % 1024 * 8, c.svBase % 2 ^ 40 + c.svSize % 2 ^ 24 * 2 ^ 40,
    c.inboxCap % 2 ^ 32, c.root % 2 ^ 48, c.dlBase % 2 ^ 56, c.fpol % 2 ^ 48 + c.fpn % 2 ^ 16 * 2 ^ 48]

theorem Ctx.descBytes_eq (c : Ctx) : c.descBytes = wordBytes 8 c.descWords := by
  simp [Ctx.descBytes, Ctx.descWords, wordBytes]

theorem Ctx.descWord (c : Ctx) (i : Nat) (h : i < c.descWords.length) :
    leNat ((c.descBytes.drop (8 * i)).take 8) = c.descWords[i] % 2 ^ 64 := by
  have := leNat_wordBytes 8 [] c.descWords i h
  rwa [List.append_nil, ← c.descBytes_eq] at this

/-- R393: what a descriptor that has been written gives back. -/
theorem Ctx.ofDesc_descBytes (c : Ctx) : (c.ofDesc c.descBytes).state = c.state % 4
    ∧ (c.ofDesc c.descBytes).hostOk = c.hostOk ∧ (c.ofDesc c.descBytes).keyid = c.keyid % 1024
    ∧ (c.ofDesc c.descBytes).inboxCap = c.inboxCap % 2 ^ 32 := by
  have h0 := c.descWord 0 (show 0 < 6 by decide)
  have h2 := c.descWord 2 (show 2 < 6 by decide)
  simp only [Ctx.descWords, List.getElem_cons_zero, List.getElem_cons_succ] at h0 h2
  simp only [Ctx.ofDesc, h0, h2, natBits, Nat.shiftRight_eq_div_pow]
  refine ⟨?_, ?_, ?_, ?_⟩
  · split <;> omega
  · cases c.hostOk <;> simp <;> omega
  · split <;> omega
  · omega

/-! ### The logical cores of a new context (R90, R228, R264) -/

/-- R166, R228: a launch image changes the task table alone. -/
theorem createdLc_eq (c : LCoreSpec) : ∃ t, createdLc c =
    { n := c.n, lsz := c.lsz, pcore := c.pcore, hidx := c.hidx % 4, dual := c.dual.isSome
      shadow := (c.dual.map fun d => d.1).getD 0, alt := (c.dual.map fun d => d.2).getD (0, 0), tt := t } := by
  have hentry : ∀ (table : List (Nat × Word × Word × Word)) (l : LCore), ∃ t, table.foldl LCore.launchEntry l = { l with tt := t } := by
    intro table
    induction table with
    | nil => exact fun l => ⟨l.tt, rfl⟩
    | cons e table ih =>
      intro l
      have hstep : ∃ t, l.launchEntry e = { l with tt := t } := by
        unfold LCore.launchEntry
        dsimp only
        split
        · exact ⟨l.tt, rfl⟩
        · exact ⟨_, rfl⟩
      obtain ⟨t, ht⟩ := hstep
      obtain ⟨t', ht'⟩ := ih { l with tt := t }
      exact ⟨t', by rw [List.foldl_cons, ht, ht']⟩
  obtain ⟨t, ht⟩ := hentry c.table _
  exact ⟨t, ht⟩

@[simp] theorem createdLc_n (c : LCoreSpec) : (createdLc c).n = c.n := by
  obtain ⟨t, h⟩ := createdLc_eq c
  rw [h]

/-- R159, R264: what placement checks of each logical core, and of each two. -/
theorem State.canHost_cores {s : State} {ctx : Nat} {l : List LCoreSpec} (h : s.canHost ctx l = true) :
    (∀ c ∈ l, c.n < 4096 ∧ c.image.length ≤ 2 ^ 21) ∧ l.Pairwise fun c d => d.n ≠ c.n := by
  induction l generalizing s with
  | nil => exact ⟨nofun, List.Pairwise.nil⟩
  | cons c t ih =>
    simp only [State.canHost, lszOk, Bool.and_eq_true, decide_eq_true_eq, List.all_eq_true] at h
    obtain ⟨⟨⟨⟨⟨⟨⟨⟨hn, hlsz⟩, -⟩, -⟩, -⟩, himage⟩, -⟩, hdistinct⟩, hrest⟩ := h
    obtain ⟨hall, hpair⟩ := ih hrest
    refine ⟨fun d hd => ?_, List.pairwise_cons.2 ⟨hdistinct, hpair⟩⟩
    rcases List.mem_cons.1 hd with rfl | hd
    · exact ⟨hn, by omega⟩
    · exact hall d hd

/-- R264: a logical core of a new context is found by its number. -/
theorem lcOf_created {l : List LCoreSpec} (h : l.Pairwise fun c d => d.n ≠ c.n) {c : LCoreSpec} (hc : c ∈ l) :
    (l.map createdLc).find? (fun x => decide (x.n = c.n)) = some (createdLc c) := by
  induction l with
  | nil => exact absurd hc nofun
  | cons d t ih =>
    obtain ⟨hd, ht⟩ := List.pairwise_cons.1 h
    rw [List.map_cons, List.find?_cons, createdLc_n]
    rcases List.mem_cons.1 hc with rfl | hc
    · simp
    · rw [decide_eq_false (hd c hc).symm]
      exact ih ht hc

/-! ### The scratchpads (R26) -/

/-- R26: a scratchpad lies beyond every frame of device memory. -/
theorem scratchKey_beyond (ctx lc off : Nat) : 2 ^ 40 ≤ scratchKey ctx lc off := by
  unfold scratchKey
  omega

/-- R163: scratchpads of different logical cores are apart. -/
theorem scratchKey_apart {ctx m n i j : Nat} (hmn : m ≠ n) (hi : i < 2 ^ 24) (hj : j < 2 ^ 24) :
    scratchKey ctx m i ≠ scratchKey ctx n j := by
  unfold scratchKey
  omega

theorem State.applyBytes_beyond {k : Nat} (hk : 2 ^ 39 ≤ k) (s : State) (l : List Byte) :
    (s.applyBytes k l).mem = cellWriteList s.mem k l := State.applyWith_beyond_mem hk s s.ownAttr l

/-- R162, R369, R389: a write beyond DRAM begins no migration. -/
theorem State.logWrite_beyond_migs {s : State} {attr : Nat → Attr} {cells : List Host.Cell} (h : ∀ c ∈ cells, 2 ^ 39 ≤ c.1)
    (hmigs : s.migs = []) : (s.logWrite attr cells).migs = [] := by
  have hall : cells.filter (fun c => !frameAbsent c.1) = cells :=
    List.filter_eq_self.2 fun c hc => by simp [frameAbsent_of_le (h c hc)]
  have hnone : writtenSectors (cells.map fun c => c.1) = [] := writtenSectors_beyond fun k hk => by
    obtain ⟨c, hc, rfl⟩ := List.mem_map.1 hk
    exact h c hc
  simp [State.logWrite, State.markLines, State.writeMem, State.beforeWrite, State.afterWrite, hall, hnone, hmigs]

/-- What a write beyond DRAM leaves of the tables: the contexts, that no migration is open, that M is canonical. -/
structure State.Beyond (s t : State) : Prop where
  ctxs : t.ctxs = s.ctxs
  migs : s.migs = [] → t.migs = []
  wf : Memory.wf s.mem = true → Memory.wf t.mem = true

theorem State.Beyond.trans {s t u : State} (h : s.Beyond t) (h' : t.Beyond u) : s.Beyond u :=
  ⟨h'.ctxs.trans h.ctxs, h'.migs ∘ h.migs, h'.wf ∘ h.wf⟩

theorem State.logWrite_beyondOf {s : State} {attr : Nat → Attr} {cells : List Host.Cell} (h : ∀ c ∈ cells, 2 ^ 39 ≤ c.1) :
    s.Beyond (s.logWrite attr cells) :=
  ⟨State.logWrite_ctxs .., State.logWrite_beyond_migs h, State.logWrite_wf _ _ _⟩

theorem State.touch_beyondOf (s : State) (w : List Loc) (p : Slot → Bool) : s.Beyond (s.touch w p) := ⟨rfl, id, id⟩

theorem State.applyBytes_beyondOf {k : Nat} (hk : 2 ^ 39 ≤ k) (s : State) (l : List Byte) : s.Beyond (s.applyBytes k l) := by
  have h : s.Beyond (s.logWrite s.ownAttr (cellsAt k l)) :=
    State.logWrite_beyondOf fun c hc => hk.trans (le_of_mem_cellsAt hc).1
  rw [State.applyBytes, State.applyWith_eq, ← State.logWrite_onMemory]
  exact h.trans (State.touch_beyondOf ..)

/-- R26: one image written to its scratchpad. -/
def State.loadImage (ctx : Nat) (s : State) (c : LCoreSpec) : State :=
  if c.image = [] then s else s.applyBytes (scratchKey ctx c.n 0) c.image

theorem State.loadImage_beyondOf (ctx : Nat) (s : State) (c : LCoreSpec) : s.Beyond (s.loadImage ctx c) := by
  unfold State.loadImage
  split
  · exact ⟨rfl, id, id⟩
  · exact State.applyBytes_beyondOf ((by decide : 2 ^ 39 ≤ 2 ^ 40).trans (scratchKey_beyond ..)) s _

theorem State.loadImages_beyondOf (ctx : Nat) (l : List LCoreSpec) : ∀ s : State, s.Beyond (s.loadImages ctx l) := by
  induction l with
  | nil => exact fun s => ⟨rfl, id, id⟩
  | cons c t ih => exact fun s => (s.loadImage_beyondOf ctx c).trans (ih (s.loadImage ctx c))

theorem State.loadImage_mem (ctx : Nat) (s : State) (c : LCoreSpec) :
    (s.loadImage ctx c).mem = cellWriteList s.mem (scratchKey ctx c.n 0) c.image := by
  unfold State.loadImage
  split
  next h => rw [h]; rfl
  next => exact State.applyBytes_beyond ((by decide : 2 ^ 39 ≤ 2 ^ 40).trans (scratchKey_beyond ..)) s _

theorem scratchKey_add (ctx n j : Nat) : scratchKey ctx n j = scratchKey ctx n 0 + j := by
  unfold scratchKey
  omega

/-- R26: the images of other logical cores leave a scratchpad as it is. -/
theorem State.loadImages_read_other {ctx n j : Nat} (hj : j < 2 ^ 24) {l : List LCoreSpec} :
    ∀ s : State, Memory.wf s.mem = true → (∀ c ∈ l, n ≠ c.n ∧ c.image.length ≤ 2 ^ 21) →
      cellRead (s.loadImages ctx l).mem (scratchKey ctx n j) = cellRead s.mem (scratchKey ctx n j) := by
  induction l with
  | nil => exact fun _ _ _ => rfl
  | cons c t ih =>
    intro s hwf h
    obtain ⟨hn, hlen⟩ := h c List.mem_cons_self
    refine (ih (s.loadImage ctx c) ((s.loadImage_beyondOf ctx c).wf hwf) fun d hd => h d (List.mem_cons_of_mem c hd)).trans ?_
    rw [State.loadImage_mem, cellRead_cellWriteList _ _ _ _ hwf, if_neg]
    rintro ⟨hle, hlt⟩
    have hoff := scratchKey_add ctx c.n (scratchKey ctx n j - scratchKey ctx c.n 0)
    rw [Nat.add_sub_cancel' hle] at hoff
    exact scratchKey_apart hn hj (by omega) hoff.symm

/-- R26: each scratchpad holds the image that the launch loads into it. -/
theorem State.loadImages_read {ctx : Nat} {l : List LCoreSpec} (hpair : l.Pairwise fun c d => d.n ≠ c.n)
    (hlen : ∀ c ∈ l, c.image.length ≤ 2 ^ 21) {c : LCoreSpec} (hc : c ∈ l) {j : Nat} (hj : j < c.image.length) :
    ∀ s : State, Memory.wf s.mem = true → cellRead (s.loadImages ctx l).mem (scratchKey ctx c.n j) = c.image.getD j 0 := by
  induction l with
  | nil => exact absurd hc nofun
  | cons d t ih =>
    intro s hwf
    obtain ⟨hd, ht⟩ := List.pairwise_cons.1 hpair
    have hwf' := (s.loadImage_beyondOf ctx d).wf hwf
    rcases List.mem_cons.1 hc with rfl | hc
    · have hshort := hlen c List.mem_cons_self
      refine (State.loadImages_read_other (by omega) (s.loadImage ctx c) hwf'
        fun d hd' => ⟨(hd d hd').symm, hlen d (List.mem_cons_of_mem c hd')⟩).trans ?_
      have hoff := scratchKey_add ctx c.n j
      rw [State.loadImage_mem, cellRead_cellWriteList _ _ _ _ hwf, if_pos ⟨by omega, by omega⟩, hoff, Nat.add_sub_cancel_left]
    · exact ih ht (fun e he => hlen e (List.mem_cons_of_mem d he)) hc (s.loadImage ctx d) hwf'

/-! ### The entry of the scores (R405) -/

/-- R277: a page lies below 2^40. -/
theorem TlbEntry.pa_lt (e : TlbEntry) {va : Word} {i n : Nat} (h : va.toNat % 2 ^ 16 + n ≤ 2 ^ 16) (hi : i < n) : e.pa va + i < 2 ^ 40 := by
  have h1 : bitsOf e.b 39 21 < 2 ^ 19 := Nat.mod_lt _ (by decide)
  have h2 : bitsOf e.b 39 16 < 2 ^ 24 := Nat.mod_lt _ (by decide)
  have h3 : bitsOf va 15 0 = va.toNat % 2 ^ 16 := rfl
  have h4 : bitsOf va 20 0 = va.toNat % 2 ^ 21 := rfl
  unfold TlbEntry.pa
  split
  · rw [h4]; omega
  · rw [h3]; omega

/-- R277: the bytes of a span that lie in one page. -/
def State.spanPart (s : State) (ctx : Nat) (grants : TlbEntry → Bool) (a : Word) (k : Nat) : Option (List Nat) :=
  match s.walk ctx a with
  | some e => if grants e then some ((List.range k).map fun i => s.home (e.pa a + i)) else none
  | none => none

theorem State.spanKeys_eq_some {s : State} {ctx n : Nat} {va : Word} {grants : TlbEntry → Bool} {ks : List Nat}
    (h : s.spanKeys ctx va n grants = some ks) :
    let n0 := min n (2 ^ 16 - va.toNat % 2 ^ 16)
    ∃ l0 l1, ks = l0 ++ l1 ∧ s.spanPart ctx grants va n0 = some l0
      ∧ (l1 = [] ∨ n0 ≠ n ∧ s.spanPart ctx grants (va + BitVec.ofNat 64 n0) (n - n0) = some l1) := by
  intro n0
  have heq : s.spanKeys ctx va n grants = match s.spanPart ctx grants va n0,
      (if n0 = n then some [] else s.spanPart ctx grants (va + BitVec.ofNat 64 n0) (n - n0)) with
    | some l0, some l1 => some (l0 ++ l1)
    | _, _ => none := rfl
  rw [heq] at h
  cases h0 : s.spanPart ctx grants va n0 with
  | none => rw [h0] at h; exact absurd h nofun
  | some l0 =>
    rw [h0] at h
    by_cases hn : n0 = n
    · rw [if_pos hn] at h
      exact ⟨l0, [], (Option.some.inj h).symm, rfl, .inl rfl⟩
    · rw [if_neg hn] at h
      cases h1 : s.spanPart ctx grants (va + BitVec.ofNat 64 n0) (n - n0) with
      | none => rw [h1] at h; exact absurd h nofun
      | some l1 =>
        rw [h1] at h
        exact ⟨l0, l1, (Option.some.inj h).symm, rfl, .inr ⟨hn, rfl⟩⟩

theorem State.spanPart_lt {s : State} (hmigs : s.migs = []) {ctx k : Nat} {grants : TlbEntry → Bool} {a : Word} {l : List Nat}
    (hk : a.toNat % 2 ^ 16 + k ≤ 2 ^ 16) (h : s.spanPart ctx grants a k = some l) : ∀ x ∈ l, x < 2 ^ 40 := by
  intro x hx
  unfold State.spanPart at h
  split at h
  next e _ =>
    split at h
    · obtain rfl := Option.some.inj h
      obtain ⟨i, hi, rfl⟩ := List.mem_map.1 hx
      rw [State.home_of_no_migs hmigs]
      exact e.pa_lt hk (List.mem_range.1 hi)
    · exact absurd h nofun
  next => exact absurd h nofun

/-- R277, R405: the bytes of a span are bytes of device memory, where no migration is open. -/
theorem State.spanKeys_lt {s : State} (hmigs : s.migs = []) {ctx n : Nat} {va : Word} {grants : TlbEntry → Bool} {ks : List Nat}
    (hn : n ≤ 2 ^ 16) (h : s.spanKeys ctx va n grants = some ks) : ∀ k ∈ ks, k < 2 ^ 40 := by
  obtain ⟨l0, l1, rfl, h0, h1⟩ := State.spanKeys_eq_some h
  intro k hk
  rcases List.mem_append.1 hk with hk | hk
  · exact State.spanPart_lt hmigs (by omega) h0 k hk
  · rcases h1 with rfl | ⟨hne, h1⟩
    · exact absurd hk nofun
    · refine State.spanPart_lt hmigs ?_ h1 k hk
      have hva : (va + BitVec.ofNat 64 (min n (2 ^ 16 - va.toNat % 2 ^ 16))).toNat % 2 ^ 16 = 0 := by
        have := va.isLt
        rw [BitVec.toNat_add, BitVec.toNat_ofNat]
        omega
      rw [hva]
      omega

/-- R369, R379: a write below the scratchpads leaves them as they are. -/
theorem State.logWrite_read_scratch {s : State} (hwf : Memory.wf s.mem = true) (attr : Nat → Attr) {cells : List Host.Cell}
    (h : ∀ c ∈ cells, c.1 < 2 ^ 40) {k : Nat} (hk : 2 ^ 40 ≤ k) : cellRead (s.logWrite attr cells).mem k = cellRead s.mem k := by
  have hkeys : ∀ c ∈ cells.filter (fun c => !frameAbsent c.1), c.1 < 2 ^ 40 := fun c hc => h c (List.mem_filter.1 hc).1
  have hmark : (s.markLines ((cells.filter fun c => !frameAbsent c.1).map fun c => c.1)).mem = s.mem := State.markLines_mem ..
  change cellRead (State.writeMem _ attr cells).mem k = _
  rw [State.writeMem_mem, cellRead_cellWriteAll_of_not_mem _ _ (State.beforeWrite_wf _ _ _ (by rw [hmark]; exact hwf)) k
    (fun c hc => by have := hkeys c hc; omega), State.beforeWrite_read _ _ _ _ (by rw [hmark]; exact hwf), hmark]
  intro x hx
  obtain ⟨c, hc, rfl⟩ := List.mem_map.1 hx
  have := hkeys c hc
  omega

/-- R405: the entry of the scores is none of the contexts and lies in no scratchpad. -/
theorem State.writeScoreLaw_keeps {s : State} (hmigs : s.migs = []) (hwf : Memory.wf s.mem = true) :
    s.writeScoreLaw.ctxs = s.ctxs ∧ ∀ k, 2 ^ 40 ≤ k → cellRead s.writeScoreLaw.mem k = cellRead s.mem k := by
  unfold State.writeScoreLaw State.placeLaw
  rw [if_neg (by simp)]
  cases hks : State.scoreLawKeys { s with lawAhead := true } with
  | none => exact ⟨rfl, fun _ _ => rfl⟩
  | some ks =>
    dsimp only
    split
    · exact ⟨rfl, fun _ _ => rfl⟩
    · refine ⟨State.logWrite_ctxs .., fun k hk => State.logWrite_read_scratch (s := { s with lawAhead := true }) hwf _ (fun c hc => ?_) hk⟩
      exact State.spanKeys_lt (s := { s with lawAhead := true }) hmigs (by decide) hks c.1 (List.of_mem_zip hc).1

end Sys2Proof.Machine
end


section
/-! SUPPORT. O57: the creation of a context and the gang stop as steps (R90, R359, R393). -/

namespace Sys2Proof.Machine

/-! ### Creation (R90, R243, R393) -/

theorem createdCtx_id (c : CtxSpec) : (createdCtx c).id = c.ctx := rfl

/-- R393: a new context's tables after its descriptor and its second stage are written. -/
theorem State.changeDesc_beyondOf (s : State) (c : Ctx) : (s.setCtx c).Beyond (s.changeDesc c) := by
  refine (State.logWrite_beyondOf fun x hx => ?_).trans (State.touch_beyondOf ..)
  have := (le_of_mem_cellsAt hx).1
  unfold descKey at this
  omega

theorem State.putStage_beyondOf (s : State) (c : Ctx) : (s.setCtx c).Beyond (s.putStage c) := by
  have hwrite : (s.setCtx c).Beyond ((s.setCtx c).logWrite s.ownAttr (cellsAt (stageKey c.id) c.stageBytes)) :=
    State.logWrite_beyondOf fun x hx => (Nat.le_add_right _ _).trans (le_of_mem_cellsAt hx).1
  exact hwrite.trans (State.touch_beyondOf ..)

/-- R26, R90, R393: what creation leaves: the context as its description makes it, and its images in its scratchpads. -/
theorem State.create_outcome {s : State} {c : CtxSpec} (hwf : Memory.wf s.mem = true) (hmigs : c.ctx = 0 → s.migs = [])
    (himages : ∀ l ∈ c.cores, l.image.length ≤ 2 ^ 21) (hpair : c.cores.Pairwise fun l d => d.n ≠ l.n) :
    (s.create c).ctxOf c.ctx = createdCtx c
    ∧ ∀ l ∈ c.cores, ∀ j, j < l.image.length → cellRead (s.create c).mem (scratchKey c.ctx l.n j) = l.image.getD j 0 := by
  have hdesc := State.changeDesc_beyondOf s (createdCtx c)
  have hstage := State.putStage_beyondOf (s.changeDesc (createdCtx c)) (createdCtx c)
  obtain ⟨s0, hs0⟩ : ∃ s0, s0 = (s.changeDesc (createdCtx c)).putStage (createdCtx c) := ⟨_, rfl⟩
  rw [← hs0] at hstage
  have hload := State.loadImages_beyondOf c.ctx c.cores s0
  have hwf1 : Memory.wf (s.changeDesc (createdCtx c)).mem = true := hdesc.wf (by rw [State.setCtx_mem]; exact hwf)
  have hwf0 : Memory.wf s0.mem = true := hstage.wf (by rw [State.setCtx_mem]; exact hwf1)
  have hctx0 : s0.ctxOf c.ctx = createdCtx c :=
    (State.ctxOf_congr hstage.ctxs c.ctx).trans (State.ctxOf_setCtx_of_id _ (createdCtx_id c))
  have hctx := (State.ctxOf_congr hload.ctxs c.ctx).trans hctx0
  have hread : ∀ l ∈ c.cores, ∀ j, j < l.image.length →
      cellRead (s0.loadImages c.ctx c.cores).mem (scratchKey c.ctx l.n j) = l.image.getD j 0 :=
    fun l hl j hj => State.loadImages_read hpair himages hl hj s0 hwf0
  have hcreate : s.create c = if c.ctx = 0 then (s0.loadImages c.ctx c.cores).writeScoreLaw else s0.loadImages c.ctx c.cores := by
    rw [hs0]
    rfl
  rw [hcreate]
  split
  next h0 =>
    have hmigs1 : (s.changeDesc (createdCtx c)).migs = [] := hdesc.migs (by rw [State.setCtx_migs]; exact hmigs h0)
    have hmigs0 : s0.migs = [] := hstage.migs (by rw [State.setCtx_migs]; exact hmigs1)
    obtain ⟨hctxs, hmem⟩ := State.writeScoreLaw_keeps (hload.migs hmigs0) (hload.wf hwf0)
    exact ⟨(State.ctxOf_congr hctxs _).trans hctx, fun l hl j hj => (hmem _ (scratchKey_beyond ..)).trans (hread l hl j hj)⟩
  next => exact ⟨hctx, hread⟩

/-- R90, R131, R393: the fields of a new context. -/
theorem createdCtx_fields (c : CtxSpec) :
    let x := createdCtx c
    x.state = 1 ∧ x.halted = false ∧ x.gvt = 0 ∧ x.lawbase = c.lawBase &&& ~~~ 0x1FFF#64
    ∧ x.objbase = c.objBase &&& ~~~ 0x3FFFFF#64 ∧ x.trapsv = c.trapSave &&& ~~~ 0xFFF#64 ∧ x.keyid = c.keyid % 1024
    ∧ x.hostOk = c.hostOk ∧ x.stage2 = c.pages ∧ x.inboxCap = c.inbox % 2 ^ 32 := by
  obtain ⟨hstate, hhost, hkey, hinbox⟩ := Ctx.ofDesc_descBytes
    { id := c.ctx, state := 1, hostOk := c.hostOk, keyid := c.keyid, svBase := c.svBase.toNat, svSize := c.svSize
      inboxCap := c.inbox, root := c.root.toNat, dlBase := c.dlBase.toNat, fpol := c.fpol.toNat, fpn := c.fpn
      lawbase := csrMasked 0x026 c.lawBase, objbase := csrMasked 0x027 c.objBase
      trapsv := csrMasked 0x803 c.trapSave, stage2 := c.pages, lcores := c.cores.map createdLc, pkgs := c.pkgs }
  exact ⟨hstate, rfl, rfl, rfl, rfl, rfl, hkey, hhost, rfl, hinbox⟩

/-- R87, R90, R264: a logical core of a new context. -/
theorem createdCtx_lcOf {c : CtxSpec} (hpair : c.cores.Pairwise fun l d => d.n ≠ l.n) {l : LCoreSpec} (hl : l ∈ c.cores) :
    let x := createdCtx c
    x.defines l.n = true ∧ (x.lcOf l.n).lsz = l.lsz ∧ (x.lcOf l.n).pcore = l.pcore
    ∧ (∀ k, (x.lcOf l.n).fmtOf k = (fmtReset k, 0)) ∧ (x.lcOf l.n).tiles = [] := by
  have hlc : (createdCtx c).lcOf l.n = createdLc l := by
    have hfind : (createdCtx c).lcores.find? (fun x => decide (x.n = l.n)) = some (createdLc l) := lcOf_created hpair hl
    rw [Ctx.lcOf, hfind]
    rfl
  obtain ⟨t, ht⟩ := createdLc_eq l
  intro x
  rw [Ctx.defines, hlc, ht]
  exact ⟨rfl, rfl, rfl, fun _ => rfl, rfl⟩

/-- R3, R393, R428: a description that is refused changes nothing. -/
theorem contextCreation_refused {c : CtxSpec} {s : State}
    (h : (s.ctxOf c.ctx).state ≠ 0 ∨ (c.ctx ≠ 0 ∧ 64 ≤ s.residents) ∨ rangesApart (createdCtx c).fixedTables = false
      ∨ s.spaceOk (createdCtx c) = false) : exec (.contextCreation c) s = .next s := by
  change execContextCreation c s = _
  unfold execContextCreation
  rw [if_pos]
  rcases h with h | h | h | h
  · simp [h]
  · simp [h]
  · simp [h]
  · simp [h]

/-! ### The gang stop (R359) -/

theorem gangStopByManagement_leads {ctx : Nat} {s : State} (hctx : s.hasCtx ctx = true) (hstate : (s.ctxOf ctx).state = 1) :
    Leads (.gangStopByManagement ctx) s fun t =>
      (t.ctxOf ctx).halted = true ∧ (t.ctxOf ctx).state = 3 ∧ t.net = s.net
      ∧ (Memory.wf s.mem = true → (cellRead t.mem (descKey ctx)).toNat % 4 = 3
        ∧ ∀ a, a < descKey ctx ∨ descKey ctx + 48 ≤ a → cellRead t.mem a = cellRead s.mem a) := by
  obtain ⟨-, hnet, -, -, hc, hmem⟩ := s.gangStop_outcome ctx
  refine ⟨s.gangStop ctx, ?_, by rw [hc], by rw [hc], hnet, fun hwf => ⟨?_, fun a ha => ?_⟩⟩
  · change execGangStopByManagement ctx s = _
    unfold execGangStopByManagement
    rw [if_pos (by simp [hctx, hstate])]
  · rw [hmem, cellRead_cellWriteList _ _ _ _ hwf, Ctx.descBytes_length, if_pos ⟨le_rfl, by omega⟩, Nat.sub_self]
    simp only [Ctx.descBytes, leBytes, List.cons_append, List.getD_cons_zero, BitVec.toNat_ofNat]
    split <;> omega
  · rw [hmem, cellRead_cellWriteList _ _ _ _ hwf, Ctx.descBytes_length, if_neg (by omega)]

end Sys2Proof.Machine
end


section
/-! SUPPORT. O57: the acknowledgements of queued releases (R126, R127, R278). -/

namespace Sys2Proof.Machine

/-! ### Invalidations of every scope (R278) -/

@[simp] theorem State.clusterOf_id (s : State) (n : Nat) : (s.clusterOf n).id = n := by
  unfold State.clusterOf
  cases h : s.clusters.find? fun x => x.id = n with
  | none => rfl
  | some c => simpa using List.find?_some h

/-- A cluster reads as it was set; the others stay. -/
theorem State.clusterOf_setCluster (s : State) (c : Cluster) (n : Nat) :
    (s.setCluster c).clusterOf n = if n = c.id then c else s.clusterOf n := by
  unfold State.clusterOf
  rw [State.setCluster_clusters]
  split
  next h => rw [h, find?_upsert_self _ _ (by simp)]; rfl
  next h =>
    rw [find?_upsert_other _ _ _ (by simpa using Ne.symm h)]
    intro b hb
    rw [decide_eq_true_eq] at hb
    rw [hb]
    exact decide_eq_false (Ne.symm h)

/-- R278: the clusters of a list without repetition each remove the entries once. -/
theorem State.clusterOf_invalidated (a b : Word) (n : Nat) : ∀ (l : List Nat) (s : State), l.Nodup →
    (l.foldl (fun s n => s.setCluster ((s.clusterOf n).invalidate a b)) s).clusterOf n
      = if n ∈ l then (s.clusterOf n).invalidate a b else s.clusterOf n
  | [], _, _ => by simp
  | k :: l, s, h => by
    obtain ⟨hk, hl⟩ := List.nodup_cons.1 h
    have hid : ((s.clusterOf k).invalidate a b).id = k := s.clusterOf_id k
    rw [List.foldl_cons, State.clusterOf_invalidated a b n l _ hl, State.clusterOf_setCluster, hid]
    by_cases hn : n = k
    · rw [if_neg (hn ▸ hk), if_pos hn, if_pos (List.mem_cons.2 (.inl hn)), hn]
    · rw [if_neg hn]
      simp only [List.mem_cons, hn, false_or]

/-- R278: what an invalidation leaves: the chosen clusters without the entries, and one epoch on. -/
theorem State.tlbInvalidate_outcome (s : State) (which : Nat → Bool) (a b : Word) :
    (s.tlbInvalidate which a b).relQ = s.relQ ∧ (s.tlbInvalidate which a b).mem = s.mem
    ∧ ∀ n, n < 128 → which n = true → (s.tlbInvalidate which a b).clusterOf n = (s.clusterOf n).invalidate a b := by
  have hfold : ∀ (l : List Nat) (s : State),
      (l.foldl (fun s n => s.setCluster ((s.clusterOf n).invalidate a b)) s).relQ = s.relQ
      ∧ (l.foldl (fun s n => s.setCluster ((s.clusterOf n).invalidate a b)) s).mem = s.mem := fun l s =>
    ⟨foldl_field State.relQ (f := fun s n => s.setCluster ((s.clusterOf n).invalidate a b)) (fun _ _ => rfl) l s,
      foldl_field State.mem (f := fun s n => s.setCluster ((s.clusterOf n).invalidate a b)) (fun _ _ => rfl) l s⟩
  refine ⟨(hfold _ s).1, (hfold _ s).2, fun n hn hw => ?_⟩
  have hmem : n ∈ (List.range 128).filter which := List.mem_filter.2 ⟨List.mem_range.2 hn, hw⟩
  refine Eq.trans ?_ ((State.clusterOf_invalidated a b n _ s (List.nodup_range.filter which)).trans (if_pos hmem))
  rfl

/-- R126, R127, R278: a queued release that is alone and waits no more is released. -/
theorem State.drainReleases_alone {s : State} {r : Release} (hq : s.relQ = [r]) (hinv : r.inv = false) (hwg : r.wg = false) :
    s.drainReleases 1 = State.releaseAll { s with relQ := [] } r := by
  have hfind : s.relQ.find? (fun x => !x.wg && !x.inv &&
      ((s.relQ.takeWhile fun y => decide (y ≠ x)).all fun y => !(decide (y.ctx = x.ctx) && decide (y.lc = x.lc)))) = some r := by
    simp [hq, hinv, hwg]
  unfold State.drainReleases
  dsimp only
  rw [hfind]
  dsimp only
  rw [hq, List.erase_cons_head]
  rfl

theorem tlbInvAcknowledgement_leads {s : State} {r : Release} {a b : Word} (hq : s.relQ = [r]) (hinv : r.inv = true)
    (hwg : r.wg = false) (hheld : r.held = [.sys 33 a b]) (hall : a.getLsbD 10 = true) :
    Leads (.tlbInvAcknowledgement 0) s fun t => t.relQ = [] ∧ t.mem = s.mem
      ∧ ∀ n, n < 128 → n ≠ r.cluster → (t.clusterOf n).epoch = (s.clusterOf n).epoch + 1
        ∧ ∀ e ∈ (t.clusterOf n).tlb, tlbInvHits a b e = false := by
  obtain ⟨hrel, hmem, hclusters⟩ := s.tlbInvalidate_outcome (fun c => decide (c ≠ r.cluster)) a b
  generalize hu : s.tlbInvalidate (fun c => decide (c ≠ r.cluster)) a b = u at hrel hmem hclusters
  have helse : s.invElsewhere r = u := by
    unfold State.invElsewhere
    rw [hheld, ← hu]
    exact if_pos hall
  have hexec : exec (.tlbInvAcknowledgement 0) s = .next { u with relQ := [] } := by
    change execTlbInvAcknowledgement 0 s = _
    unfold execTlbInvAcknowledgement
    simp only [hq, List.getElem?_cons_zero, hinv, Bool.not_true, Bool.false_eq_true, if_false, helse, hrel, setAt,
      List.length_singleton]
    rw [State.drainReleases_alone (r := { r with inv := false }) rfl rfl hwg, State.releaseAll, hheld]
    rfl
  refine ⟨_, hexec, rfl, hmem, fun n hn hne => ?_⟩
  have hcl : State.clusterOf { u with relQ := [] } n = (s.clusterOf n).invalidate a b := hclusters n hn (by simpa using hne)
  rw [hcl]
  refine ⟨rfl, fun e he => ?_⟩
  simpa using (List.mem_filter.1 he).2

/-! ### Watch merges (R127) -/

theorem mem_upsert {α : Type} {p : α → Bool} {a x : α} : ∀ {l : List α}, x ∈ upsert p a l → x = a ∨ x ∈ l
  | [], h => .inl (List.mem_singleton.1 h)
  | b :: t, h => by
    rw [upsert] at h
    split at h
    · exact (List.mem_cons.1 h).imp_right (List.mem_cons_of_mem b)
    · rcases List.mem_cons.1 h with rfl | h
      · exact .inr List.mem_cons_self
      · exact (mem_upsert h).imp_right (List.mem_cons_of_mem b)

/-- R127: no cluster's record of a group has a count left. -/
def Ctx.Merged (c : Ctx) (g : Nat) : Prop := ∀ x ∈ c.watch, x.1.isSome = true → x.2.1 = g → x.2.2.sat = 0

/-- R127: a merge zeroes the counts of its group, and leaves those of others at zero. -/
theorem Ctx.mergeGroup_merged (c : Ctx) (wg g : Nat) (h : g = wg ∨ c.Merged g) : (c.mergeGroup wg).Merged g := by
  unfold Ctx.mergeGroup
  dsimp only
  split
  next hnone =>
    rcases h with rfl | h
    · intro x hx hsome hg
      exact absurd (by simp [hsome, hg]) (List.filter_eq_nil_iff.1 hnone x hx)
    · exact h
  next =>
    intro x hx hsome hg
    rcases mem_upsert hx with rfl | hx
    · exact absurd hsome nofun
    · obtain ⟨y, hy, rfl⟩ := List.mem_map.1 hx
      split
      · rfl
      next hnot =>
        rw [if_neg hnot] at hsome hg
        rcases h with rfl | h
        · exact absurd ⟨hsome, hg⟩ hnot
        · exact h y hy hsome hg

@[simp] theorem Ctx.mergeGroup_id (c : Ctx) (wg : Nat) : (c.mergeGroup wg).id = c.id := by
  unfold Ctx.mergeGroup
  dsimp only
  split <;> rfl

theorem Ctx.mergeGroups_merged (g : Nat) : ∀ (l : List Nat) (c : Ctx), g ∈ l ∨ c.Merged g → (l.foldl Ctx.mergeGroup c).Merged g
  | [], _, h => h.resolve_left nofun
  | k :: l, c, h => by
    refine Ctx.mergeGroups_merged g l _ ?_
    rcases h with h | h
    · rcases List.mem_cons.1 h with rfl | h
      · exact .inr (c.mergeGroup_merged g g (.inl rfl))
      · exact .inl h
    · exact .inr (c.mergeGroup_merged k g (.inr h))

theorem wgTablesApplied_leads {s : State} {r : Release} {a : Word} (hq : s.relQ = [r]) (hwg : r.wg = true) (hinv : r.inv = false)
    (hheld : r.held = [.wgSync a]) : Leads (.wgTablesApplied 0) s fun t => t.relQ = [] ∧ t.mem = s.mem
      ∧ ∀ x ∈ (t.ctxOf r.ctx).watch, x.1.isSome = true → x.2.1 ∈ syncGroups a → x.2.2.sat = 0 := by
  set c := (syncGroups a).foldl Ctx.mergeGroup (s.ctxOf r.ctx) with hc
  have hid : c.id = r.ctx := (foldl_field Ctx.id Ctx.mergeGroup_id _ _).trans (s.ctxOf_id r.ctx)
  have helse : s.watchElsewhere r = s.setCtx c := by
    unfold State.watchElsewhere
    rw [hheld]
    rfl
  have hexec : exec (.wgTablesApplied 0) s = .next { s.setCtx c with relQ := [] } := by
    change execWgTablesApplied 0 s = _
    unfold execWgTablesApplied
    have hrel : (s.setCtx c).relQ = [r] := hq
    simp only [hq, List.getElem?_cons_zero, hwg, Bool.not_true, Bool.false_eq_true, if_false, helse, hrel, setAt,
      List.length_singleton]
    rw [State.drainReleases_alone (r := { r with wg := false }) rfl hinv rfl, State.releaseAll, hheld]
    rfl
  refine ⟨_, hexec, rfl, rfl, fun x hx hsome hg => ?_⟩
  have hctx : State.ctxOf { s.setCtx c with relQ := [] } r.ctx = c := State.ctxOf_setCtx_of_id s hid
  rw [hctx] at hx
  exact Ctx.mergeGroups_merged x.2.1 _ _ (.inl hg) x hx hsome rfl

end Sys2Proof.Machine
end


section
/-! SUPPORT. O57: what the machine's operations leave of the fences, of the scores and of the records sent to management (R363, R405,
R414): of the memory side, of slots and messages, and of the steps of a fence. -/

namespace Sys2Proof.Machine

/-- R363, R405, R414: one state has the fences and the scores of another, and its records, to which others may have come. -/
structure State.Reports (s t : State) : Prop where
  fences : t.fences = s.fences
  scores : t.scores = s.scores
  thresholds : t.thresholds = s.thresholds
  mgmt : ∀ r ∈ s.mgmt, r ∈ t.mgmt

section
variable {s t u : State}

/-- An operation on other fields. -/
theorem State.Reports.same (hf : t.fences = s.fences) (hs : t.scores = s.scores) (ht : t.thresholds = s.thresholds)
    (hm : t.mgmt = s.mgmt) : s.Reports t :=
  ⟨hf, hs, ht, fun _ hr => hm ▸ hr⟩

theorem State.Reports.refl (s : State) : s.Reports s := .same rfl rfl rfl rfl

theorem State.Reports.trans (h : s.Reports t) (h' : t.Reports u) : s.Reports u :=
  ⟨h'.fences.trans h.fences, h'.scores.trans h.scores, h'.thresholds.trans h.thresholds, fun r hr => h'.mgmt r (h.mgmt r hr)⟩

/-- An operation on other fields, before one that reports. -/
theorem State.Reports.after (h : t.Reports u) (hf : t.fences = s.fences) (hs : t.scores = s.scores)
    (ht : t.thresholds = s.thresholds) (hm : t.mgmt = s.mgmt) : s.Reports u :=
  (State.Reports.same hf hs ht hm).trans h

theorem State.Reports.ite {p : Prop} [Decidable p] (ht : s.Reports t) (hu : s.Reports u) : s.Reports (if p then t else u) := by
  split
  · exact ht
  · exact hu

theorem State.Reports.foldl {α : Type} {f : State → α → State} (h : ∀ (s : State) (a : α), s.Reports (f s a)) (l : List α) (s : State) :
    s.Reports (l.foldl f s) :=
  foldl_keeps (P := fun t => State.Reports s t) (fun t a ht => ht.trans (h t a)) l s (.refl s)

end

section
variable (s : State)

theorem State.report_reports (r : MgmtRec) : s.Reports (s.report r) := ⟨rfl, rfl, rfl, fun _ => List.mem_append_left _⟩

theorem State.setCtx_reports (c : Ctx) : s.Reports (s.setCtx c) := .same rfl rfl rfl rfl

theorem State.setLc_reports (i : Nat) (l : LCore) : s.Reports (s.setLc i l) := .same rfl rfl rfl rfl

theorem State.setCluster_reports (c : Cluster) : s.Reports (s.setCluster c) := .same rfl rfl rfl rfl

theorem State.setCore_reports (c : CoreSt) : s.Reports (s.setCore c) := .same rfl rfl rfl rfl

theorem State.touch_reports (w : List Loc) (p : Slot → Bool) : s.Reports (s.touch w p) := .same rfl rfl rfl rfl

theorem State.post_reports (m : Msg) : s.Reports (s.post m) := .same rfl rfl rfl rfl

theorem State.setHurdle_reports (ctx lcl : Nat) (h : HRouter) : s.Reports (s.setHurdle ctx lcl h) := .same rfl rfl rfl rfl

theorem State.setJob_reports (j : Job) : s.Reports (s.setJob j) := .same rfl rfl rfl rfl

/-! ### The memory side (R369 to R392) -/

section
variable (a : Attr) (attr : Nat → Attr) (b n : Nat) (keys : List Nat) (cells : List Host.Cell)

theorem State.markLines_reports : s.Reports (s.markLines keys) := by
  unfold State.markLines
  exact .ite (.refl s) (.same rfl rfl rfl rfl)

theorem State.unpoison_reports (c : Bool) : s.Reports (s.unpoison c b n) := by
  unfold State.unpoison
  exact .ite (.refl s) (.same rfl rfl rfl rfl)

theorem State.dropTags_reports : s.Reports s.dropTags := by
  unfold State.dropTags
  exact .ite (.refl s) (.same rfl rfl rfl rfl)

theorem State.poisonUnit_reports : s.Reports (s.poisonUnit b n) := .same rfl rfl rfl rfl

theorem State.putUnit_reports (l : List Byte) (p : Bool) : s.Reports (s.putUnit a b l p) := .same rfl rfl rfl rfl

theorem State.clean_reports : s.Reports (s.clean b n) := .same rfl rfl rfl rfl

theorem State.takeUnit_reports (l : List Byte) : s.Reports (s.takeUnit a b l) := .same rfl rfl rfl rfl

theorem State.withLlc_reports (l : List LlcLine) : s.Reports { s with llc := l } := .same rfl rfl rfl rfl

/-- R392, R414: a record for each corrected error. -/
theorem State.blame_reports (pcs : List Nat) : s.Reports (s.blame pcs) :=
  .foldl (fun s p => by
    have hblamed : s.Reports { s with blamed := s.blamed ++ [(.pc, p, incOne)] } := .same rfl rfl rfl rfl
    exact .ite (hblamed.trans (State.report_reports _ _)) hblamed) pcs s

theorem State.getUnit_reports : s.Reports (s.getUnit a b).1 := by
  unfold State.getUnit
  dsimp only
  split
  · exact .same rfl rfl rfl rfl
  · exact .after (State.blame_reports _ _) rfl rfl rfl rfl

theorem State.reportUnit_reports : s.Reports (s.reportUnit a b) := by
  unfold State.reportUnit
  exact .ite (.refl s) (s.report_reports _)

theorem State.foundBad_reports : s.Reports (s.foundBad a b) := by
  unfold State.foundBad
  exact .ite (.refl s) ((s.reportUnit_reports a b).trans (State.poisonUnit_reports _ _ _))

theorem State.putClean_reports (g c : Nat) (l : List Byte) (p : Bool) : s.Reports ((s.putUnit a b l p).clean g c) :=
  (s.putUnit_reports a b l p).trans (State.clean_reports _ g c)

theorem State.writeBackUnit_reports : s.Reports (s.writeBackUnit a b) := by
  unfold State.writeBackUnit
  dsimp only
  split
  · exact s.putClean_reports a b _ _ _ _
  split
  · exact (s.getUnit_reports a b).trans (State.putClean_reports _ a b _ _ _ _)
  · exact ((s.getUnit_reports a b).trans (State.foundBad_reports _ a b)).trans (State.putClean_reports _ a b _ _ _ _)

theorem State.flushLine_reports (l : LlcLine) : s.Reports (s.flushLine l) :=
  .foldl (fun s b => .ite (s.writeBackUnit_reports l.attr b) (.refl s)) _ s

theorem State.evict_reports (l : LlcLine) : s.Reports (s.evict l) :=
  (s.flushLine_reports l).trans ((State.withLlc_reports _ _).trans (State.dropTags_reports _))

theorem State.evictOther_reports : s.Reports (s.evictOther b n) := by
  unfold State.evictOther
  split
  · exact .ite (.refl s) (s.evict_reports _)
  · exact .refl s

theorem State.makeRoom_reports : s.Reports (s.makeRoom a n) := by
  unfold State.makeRoom
  dsimp only
  split
  · exact .refl s
  split
  · exact s.evict_reports _
  · exact .refl s

theorem State.allocate_reports (v d : Nat) : s.Reports (s.allocate a n v d) := by
  unfold State.allocate
  split
  · exact .same rfl rfl rfl rfl
  · exact (s.makeRoom_reports a n).trans (State.withLlc_reports _ _)

/-- R379, R383: a fill once its unit has been read: what the LLC lacked takes the value, and the sectors become valid. -/
def State.filledFrom (off whole : Bool) (a : Attr) (b : Nat) (r : State × Option (List Byte)) : State :=
  let s2 := match r.2 with
    | some l => r.1.takeUnit a b l
    | none => r.1
  let s3 := if off then s2 else (unitSectors a.gran b).foldl (fun s q => s.allocate a (q / 128) (sectorBit q) 0) s2
  match r.2 with
  | some _ => s3.unpoison whole b (granUnit a.gran)
  | none => s3.foundBad a b

theorem State.fill_eq (a0 : Attr) (k : Nat) : s.fill a0 k = if !inDram k then s else
    let a := s.recorded a0 k
    let base := unitBase a.gran k
    let s1 := (((unitSectors a.gran base).map (· / 128)).foldl addNew []).foldl (fun s n => s.evictOther a.ctx n) s
    State.filledFrom (s.homeOff a k) ((unitSectors a.gran base).all fun q => !s1.validAt q) a base (s1.getUnit a base) := rfl

theorem State.filledFrom_reports (off whole : Bool) (r : State × Option (List Byte)) :
    r.1.Reports (State.filledFrom off whole a b r) := by
  have hallocate (t : State) : t.Reports (if off then t else
      (unitSectors a.gran b).foldl (fun s q => s.allocate a (q / 128) (sectorBit q) 0) t) :=
    .ite (.refl t) (.foldl (fun s q => s.allocate_reports a _ _ _) _ t)
  obtain ⟨t, _ | l⟩ := r
  · exact (hallocate t).trans (State.foundBad_reports _ a b)
  · exact ((t.takeUnit_reports a b l).trans (hallocate _)).trans (State.unpoison_reports _ b _ _)

theorem State.fill_reports : s.Reports (s.fill a n) := by
  rw [State.fill_eq]
  refine .ite (.refl s) ?_
  dsimp only
  exact ((State.Reports.foldl (fun s k => s.evictOther_reports _ k) _ s).trans (State.getUnit_reports _ _ _)).trans
    (State.filledFrom_reports _ _ _ _ _)

theorem State.fillMissing_reports : s.Reports (s.fillMissing attr keys) :=
  .foldl (fun s k => .ite (.refl s) (s.fill_reports _ k)) keys s

theorem State.beforeWrite_reports : s.Reports (s.beforeWrite attr keys) :=
  .foldl (fun s _ => (s.evictOther_reports _ _).trans (.ite (.refl _) (State.fill_reports _ _ _))) _ s

theorem State.writeThrough_reports : s.Reports (s.writeThrough a b keys) := by
  unfold State.writeThrough
  dsimp only
  split
  · exact (s.getUnit_reports a b).trans (State.putUnit_reports _ a b _ _)
  · exact .ite (s.putUnit_reports a b _ _)
      (((s.getUnit_reports a b).trans (State.foundBad_reports _ a b)).trans (State.putUnit_reports _ a b _ _))

theorem State.afterWrite_reports : s.Reports (s.afterWrite attr keys) :=
  .foldl (fun s _ => .ite (s.writeThrough_reports _ _ keys) (s.allocate_reports _ _ _ _)) _ s

theorem State.writeMem_reports : s.Reports (s.writeMem attr cells) :=
  (s.beforeWrite_reports attr _).trans (.after (State.afterWrite_reports _ attr _) rfl rfl rfl rfl)

theorem State.logWrite_reports : s.Reports (s.logWrite attr cells) :=
  ((s.markLines_reports _).trans (State.writeMem_reports _ attr cells)).trans (.same rfl rfl rfl rfl)

theorem State.applyWith_reports (l : List Byte) : s.Reports (s.applyWith attr n l) :=
  (s.logWrite_reports attr _).trans (State.touch_reports _ _ _)

theorem State.changeDesc_reports (c : Ctx) : s.Reports (s.changeDesc c) :=
  (s.setCtx_reports c).trans ((State.logWrite_reports _ _ _).trans (State.touch_reports _ _ _))

end

theorem State.charge_reports (ctx cluster n : Nat) : s.Reports (s.charge ctx cluster n) := by
  unfold State.charge
  exact .ite (.refl s) (.same rfl rfl rfl rfl)

theorem State.chargeBursts_reports (t : State) (ctx cluster : Nat) : s.Reports (s.chargeBursts t ctx cluster) :=
  s.charge_reports _ _ _

theorem State.deviceRead_reports (ctx cluster : Nat) (keys : List Nat) : s.Reports (s.deviceRead ctx cluster keys) :=
  (s.fillMissing_reports _ keys).trans ((State.chargeBursts_reports _ _ _ _).trans (State.charge_reports _ _ _ _))

theorem State.readWalk_reports (cluster : Nat) (c : Ctx) (va : Nat) : ∀ (n level table : Nat) (s : State),
    s.Reports (s.readWalk cluster c va n level table)
  | 0, _, _, s => .refl s
  | n + 1, level, table, s => by
    unfold State.readWalk
    split
    · exact .refl s
    · exact (s.deviceRead_reports _ _ _).trans (.ite (State.readWalk_reports cluster c va n _ _ _) (.refl _))

theorem State.readTables_reports (cluster ctx : Nat) (va : Word) : s.Reports (s.readTables cluster ctx va) := by
  unfold State.readTables
  exact .ite (State.readWalk_reports _ _ _ _ _ _ s) (.refl s)

theorem State.install_reports (cluster ctx : Nat) (va : Word) : s.Reports ((s.install cluster ctx va).getD s) := by
  unfold State.install
  cases s.walk ctx va with
  | none => exact .refl s
  | some e => exact s.setCluster_reports _

/-- R281: a TLB entry that is removed and refilled. -/
theorem State.refillTlb_reports (cluster ctx : Nat) (va : Word) : s.Reports (s.refillTlb cluster ctx va) := by
  unfold State.refillTlb
  exact .ite (((s.setCluster_reports _).trans (State.readTables_reports _ cluster ctx va)).trans
    (State.install_reports _ cluster ctx va)) (.refl s)

/-! ### Records and refusals (R75, R81, R169, R359) -/

theorem State.gangStop_reports (ctx : Nat) : s.Reports (s.gangStop ctx) :=
  (State.Reports.foldl (fun s _ => s.setCore_reports _) _ s).trans (State.changeDesc_reports _ _)

theorem State.recordToMgmt_reports (ctx lc : Nat) (wait : Bool) (unit num : Nat) (l : List Byte) :
    s.Reports (s.recordToMgmt ctx lc wait unit num l) :=
  (State.Reports.ite (s.gangStop_reports ctx) (.refl s)).trans (State.report_reports _ _)

theorem State.sendRecordFrom_reports (box : Outbox) (ctx lc : Nat) (wait toMgmt : Bool) (unit num : Nat) (l : List Byte) :
    s.Reports (s.sendRecordFrom box ctx lc wait toMgmt unit num l) := by
  unfold State.sendRecordFrom
  exact .ite (s.recordToMgmt_reports _ _ _ _ _ _) (s.post_reports _)

theorem State.sendRecord_reports (ctx lc : Nat) (wait toMgmt : Bool) (unit num : Nat) (l : List Byte) :
    s.Reports (s.sendRecord ctx lc wait toMgmt unit num l) := s.sendRecordFrom_reports _ _ _ _ _ _ _ _

theorem State.sendNack_reports (m : Msg) (i unit num : Nat) : s.Reports (s.sendNack m i unit num) := by
  unfold State.sendNack
  split
  · exact s.recordToMgmt_reports _ _ _ _ _ _
  · exact .ite (.refl s) (s.sendRecord_reports _ _ _ _ _ _ _)

theorem State.nackBuilt_reports (m : Msg) : s.Reports (s.nackBuilt m) := s.sendNack_reports _ _ _ _

theorem State.postHw_reports (m : Msg) : s.Reports (s.postHw m) := by
  unfold State.postHw
  exact .ite (s.post_reports m) (s.nackBuilt_reports m)

theorem State.postFabric_reports (m : Msg) : s.Reports (s.postFabric m) := .same rfl rfl rfl rfl

/-! ### Hurdle routers (R326 to R329) -/

theorem State.hsLost_reports (ctx lcl set rid : Nat) : s.Reports (s.hsLost ctx lcl set rid) := .same rfl rfl rfl rfl

theorem State.sendExit_reports (ctx lcl : Nat) (r : HRec) (stg : Nat) : s.Reports (s.sendExit ctx lcl r stg) := by
  unfold State.sendExit
  exact .ite (.same rfl rfl rfl rfl) ((s.setHurdle_reports _ _ _).trans ((State.nackBuilt_reports _ _).trans (State.hsLost_reports _ _ _ _ _)))

theorem State.flushOrder_reports (ctx lcl set lc : Nat) : ∀ (n : Nat) (s : State), s.Reports (s.flushOrder ctx lcl set lc n)
  | 0, s => .refl s
  | n + 1, s => by
    unfold State.flushOrder
    dsimp only
    split
    · exact (s.setHurdle_reports _ _ _).trans (State.flushOrder_reports ctx lcl set lc n _)
    split
    · exact (s.setHurdle_reports _ _ _).trans
        ((State.sendExit_reports _ _ _ _ _).trans (State.flushOrder_reports ctx lcl set lc n _))
    · exact .refl s

theorem State.hsDrop_reports (ctx lcl set rid stg : Nat) (err : Bool) : s.Reports (s.hsDrop ctx lcl set rid stg err) := by
  unfold State.hsDrop
  dsimp only
  split
  · exact .refl s
  · exact (State.Reports.ite (((s.setHurdle_reports _ _ _).trans (State.sendExit_reports _ _ _ _ _)))
      ((s.setHurdle_reports _ _ _).trans (State.setHurdle_reports _ _ _ _))).trans (.ite (State.flushOrder_reports _ _ _ _ _ _) (.refl _))

theorem State.nack_reports (m : Msg) (i : Nat) : s.Reports (s.nack m i) := s.sendNack_reports _ _ _ _

theorem State.hsRefused_reports (m : Msg) : s.Reports (s.hsRefused m) := by
  unfold State.hsRefused
  split
  · exact s.hsDrop_reports _ _ _ _ _ _
  · exact s.hsLost_reports _ _ _ _
  · exact .refl s

theorem State.refuse_reports (m : Msg) (i : Nat) : s.Reports (s.refuse m i) :=
  (s.nack_reports m i).trans (State.hsRefused_reports _ m)

/-! ### Slots (R75, R122, R185, R232, R280) -/

theorem State.cancelBox_reports (f : Slot) : s.Reports (s.cancelBox f) := by
  unfold State.cancelBox
  exact .ite (s.setCluster_reports _) (.refl s)

theorem State.leaveExcl_reports (core k : Nat) : s.Reports (s.leaveExcl core k) := .same rfl rfl rfl rfl

theorem State.freeSlot_reports (f : Slot) : s.Reports (s.freeSlot f) := .same rfl rfl rfl rfl

theorem State.withFocus_reports (f : Slot) : s.Reports (s.withFocus f) := .same rfl rfl rfl rfl

theorem State.setSlot_reports (f : Slot) : s.Reports (s.setSlot f) := .same rfl rfl rfl rfl

theorem State.endSlots_reports (f : Slot) : s.Reports (s.endSlots f) :=
  (State.Reports.foldl (fun s f => s.cancelBox_reports f) _ s).trans (.same rfl rfl rfl rfl)

/-- The slots of a preemption leave; the firings go back to those that are ready. -/
theorem State.preempt_reports (which : Slot → Bool) : s.Reports (s.preempt which) :=
  (State.Reports.foldl (fun s (f : Slot) => (s.cancelBox_reports f).trans (State.leaveExcl_reports _ _ _)) _ s).trans (.same rfl rfl rfl rfl)

theorem State.refocus_reports (core k : Nat) : s.Reports (s.refocus core k) := by
  unfold State.refocus
  split
  · exact .refl s
  split
  · exact .refl s
  · exact .same rfl rfl rfl rfl

theorem State.writeBlock_reports {t : State} {cluster ctx : Nat} {va : Word} {l : List Byte}
    (h : s.writeBlock cluster ctx va l = some t) : s.Reports t := by
  unfold State.writeBlock at h
  obtain ⟨keys, -, rfl⟩ := Option.map_eq_some_iff.1 h
  exact (((s.logWrite_reports _ _).trans (State.touch_reports _ _ _)).trans (State.chargeBursts_reports _ _ _ _)).trans
    (State.charge_reports _ _ _ _)

end

end Sys2Proof.Machine
end


section
/-! SUPPORT. O57: the fences, the scores and the records, over the steps that a fence makes (R281, R334, R354, R363). -/

namespace Sys2Proof.Machine

section
variable (s : State)

/-! ### Exceptions and replies (R75, R80, R280) -/

theorem State.takeException_reports (c : Cause) (pc i0 i1 i2 : Word) : s.Reports (s.takeException c pc i0 i1 i2) := by
  have hsquash : s.Reports (((s.endSlots s.focus).cancelBox s.focus).withFocus s.focus.squash) :=
    ((s.endSlots_reports _).trans (State.cancelBox_reports _ _)).trans (State.withFocus_reports _ _)
  unfold State.takeException
  refine .ite (.refl s) ?_
  dsimp only
  generalize ((s.endSlots s.focus).cancelBox s.focus).withFocus s.focus.squash = s1 at hsquash ⊢
  split
  next s2 b csa hdone =>
    refine hsquash.trans (State.Reports.trans (t := s2) ?_ (.after (State.sendRecord_reports _ _ _ _ _ _ _ _) rfl rfl rfl rfl))
    split at hdone
    · exact absurd hdone nofun
    split at hdone
    · exact absurd hdone nofun
    next t hwrite =>
      obtain ⟨rfl, -, -⟩ := Prod.mk.inj (Option.some.inj hdone)
      exact (State.writeBlock_reports _ hwrite).trans (State.setLc_reports _ _ _)
  next => exact hsquash.trans (.after (State.sendRecord_reports _ _ _ _ _ _ _ _) rfl rfl rfl rfl)

theorem State.replySlot_reports (core k : Nat) (va : Word) (code : Nat) : s.Reports (s.replySlot core k va code) := by
  unfold State.replySlot
  split
  · exact .refl s
  · exact .ite (s.setSlot_reports _) (.ite (s.setSlot_reports _) (.ite (s.setSlot_reports _)
      ((s.refocus_reports core k).trans (State.takeException_reports _ _ _ _ _ _))))

theorem State.replyEngine_reports (cluster : Nat) (e : Engine) (seq code : Nat) : s.Reports (s.replyEngine cluster e seq code) := by
  unfold State.replyEngine
  split
  · exact .refl s
  · exact .ite (s.setJob_reports _) (.ite (s.setJob_reports _) (s.setJob_reports _))

theorem State.replyRouter_reports (cluster seq code : Nat) : s.Reports (s.replyRouter cluster seq code) := by
  unfold State.replyRouter
  dsimp only
  split
  · exact .refl s
  · exact .ite ((s.setHurdle_reports _ _ _).trans (State.hsDrop_reports _ _ _ _ _ _ _)) (s.setHurdle_reports _ _ _)

theorem State.applyMailbox_reports (cluster mbox seq code : Nat) : s.Reports (s.applyMailbox cluster mbox seq code) := by
  unfold State.applyMailbox
  dsimp only
  split
  · exact .refl s
  · exact (s.setCluster_reports _).trans (.ite (State.replySlot_reports _ _ _ _ _) (.ite (State.replyEngine_reports _ _ _ _ _)
      (.ite (State.replyEngine_reports _ _ _ _ _) (State.replyRouter_reports _ _ _ _))))

/-! ### Engine commands that end (R267, R289, R301) -/

theorem State.dropAsks_reports (uid : Nat) : s.Reports (s.dropAsks uid) := .same rfl rfl rfl rfl

theorem State.changeTile_reports (ctx lc t : Nat) (g : Tile → Tile) : s.Reports (s.changeTile ctx lc t g) := by
  unfold State.changeTile
  exact .ite (.refl s) ((s.setLc_reports _ _).trans (State.touch_reports _ _ _))

theorem State.watchEvent_reports (ctx cluster wg bits sat : Nat) (fid : Word) :
    s.Reports (s.watchEvent ctx cluster wg bits sat fid) := by
  unfold State.watchEvent
  exact .ite (.refl s) (s.setCtx_reports _)

theorem State.tellBarrier_reports (ctx id : Nat) : s.Reports (s.tellBarrier ctx id) := by
  unfold State.tellBarrier
  exact .ite (.refl s) (.foldl (fun s _ => s.postFabric_reports _) _ s)

theorem State.arriveHere_reports (ctx owner id : Nat) (req : List (Nat × Nat)) (far : List (Nat × Nat × Nat)) :
    s.Reports (s.arriveHere ctx owner id req far) := by
  unfold State.arriveHere
  dsimp only
  split
  · exact (((s.setCtx_reports _).trans (.foldl (fun s _ => s.postHw_reports _) _ _)).trans
      (.foldl (fun s _ => s.postFabric_reports _) _ _)).trans (State.tellBarrier_reports _ _ _)
  · exact (s.setCtx_reports _).trans (State.tellBarrier_reports _ _ _)

theorem State.arrive_reports (ctx owner id : Nat) (req : List (Nat × Nat)) : s.Reports (s.arrive ctx owner id req) := by
  unfold State.arrive
  exact .ite ((s.setCtx_reports _).trans (State.postFabric_reports _ _)) (s.arriveHere_reports _ _ _ _ _)

theorem State.complete_reports (j : Job) : s.Reports (s.complete j) := by
  unfold State.complete
  extract_lets owner unconfigured j1 j2 s1 taken s2 s3 s4 s5
  have h1 : s.Reports s1 := (s.setJob_reports _).trans (State.dropAsks_reports _ _)
  have h2 : s1.Reports s2 := .ite (.foldl (fun s _ => s.changeTile_reports _ _ _ _) _ _) (.refl _)
  have h3 : s2.Reports s3 := by
    unfold s3
    split
    · exact State.changeTile_reports _ _ _ _ _
    · exact .refl _
  have h4 : s3.Reports s4 := State.watchEvent_reports _ _ _ _ _ _ _
  have h5 : s4.Reports s5 := by
    unfold s5
    split
    · exact .ite (.refl _) (State.arrive_reports _ _ _ _ _)
    · exact .refl _
  refine (((h1.trans h2).trans h3).trans h4).trans (h5.trans ?_)
  split
  · exact State.postHw_reports _ _
  · exact .refl _

/-! ### The steps of a fence (R281, R334, R354, R363) -/

theorem State.redDelivered_reports (m : Msg) : s.Reports (s.redDelivered m) := by
  unfold State.redDelivered
  split
  · exact s.setCtx_reports _
  · exact .refl s

theorem State.refuseHere_reports (m : Msg) (i : Nat) (fresh : Bool) : s.Reports (s.refuseHere m i fresh) := by
  have hcount : s.Reports (s.countOrdRecv m) := by
    unfold State.countOrdRecv
    exact .ite (s.setCtx_reports _) (.refl s)
  exact (State.Reports.ite hcount (.refl s)).trans (State.refuse_reports _ m i)

theorem State.turnBack_reports (inside : Nat → Bool) : s.Reports (s.turnBack inside) := by
  have hnet : s.Reports { s with net := s.net.filter fun m => !s.boundInto inside m } := .same rfl rfl rfl rfl
  exact hnet.trans (.foldl (fun s m => (s.refuseHere_reports m 2 true).trans (State.redDelivered_reports _ m)) _ _)

theorem State.abortBoxes_reports (cluster : Nat) : s.Reports (s.abortBoxes cluster) :=
  .foldl (fun s _ => .ite (.refl s) (s.applyMailbox_reports _ _ _ _)) _ s

theorem State.failEngines_reports (which : Nat → Bool) : s.Reports (s.failEngines which) :=
  .foldl (fun s _ => s.complete_reports _) _ s

theorem State.clearSlots_reports (inside : Nat → Bool) : s.Reports (s.clearSlots inside) := s.preempt_reports _

theorem State.resetCore_reports (p : Nat) : s.Reports (s.resetCore p) := s.setCore_reports _

theorem State.resetClusters_reports (which : Nat → Bool) : s.Reports (s.resetClusters which) := by
  have hclusters (l : List Cluster) : s.Reports { s with clusters := l } := .same rfl rfl rfl rfl
  exact (hclusters _).trans (.foldl (fun s _ => .foldl (fun s p => s.resetCore_reports p) _ s) _ _)

theorem State.loseRecords_reports (ctx lcl : Nat) : s.Reports (s.loseRecords ctx lcl) := by
  unfold State.loseRecords
  exact .ite (s.setHurdle_reports _ _ _) (.refl s)

theorem State.matchDual_reports (ctx n : Nat) : s.Reports (s.matchDual ctx n) := .same rfl rfl rfl rfl

theorem State.keepShadow_reports (ctx n : Nat) : s.Reports (s.keepShadow ctx n) := by
  have hfresh (t : State) (k : Nat) : t.Reports { t with fresh := k } := .same rfl rfl rfl rfl
  unfold State.keepShadow
  exact .ite (.refl s) ((((s.preempt_reports _).trans (State.setLc_reports _ _ _)).trans (hfresh _ _)).trans
    (State.matchDual_reports _ _ _))

theorem State.keepShadows_reports : s.Reports s.keepShadows := .foldl (fun s _ => s.keepShadow_reports _ _) _ s

theorem State.requeue_reports (ctx : Nat) : s.Reports (s.requeue ctx) := .same rfl rfl rfl rfl

theorem State.saveDual_reports (inside : Nat → Bool) (ctx : Nat) (l : LCore) : s.Reports (s.saveDual inside ctx l) := by
  unfold State.saveDual
  exact .ite ((((State.Reports.ite (s.loseRecords_reports _ _) (.refl s)).trans (State.setLc_reports _ _ _)).trans
    (State.keepShadow_reports _ _ _)).trans (State.requeue_reports _ _)) (s.keepShadow_reports _ _)

theorem State.scramble_reports (k n : Nat) : s.Reports (s.scramble k n) := .same rfl rfl rfl rfl

theorem State.loseCore_reports (u : UnitKind) (num ctx : Nat) (l : LCore) : s.Reports (s.loseCore u num ctx l) := by
  unfold State.loseCore
  extract_lets mine s1 s2 c c1 c2
  have h1 : s.Reports s1 := .foldl (fun s f => s.freeSlot_reports f) _ s
  have h2 : s1.Reports s2 := .same rfl rfl rfl rfl
  exact (((((h1.trans h2).trans (State.setCtx_reports _ _)).trans (State.scramble_reports _ _ _)).trans
    (State.gangStop_reports _ _)).trans (State.report_reports _ _))

/-- R363, log entry 66: a loss is recorded with KIND 6 and the unit of the error. -/
def State.RecordsError (s : State) (u : UnitKind) (num : Nat) : Prop := ∃ x ∈ s.mgmt, x.kind = 6 ∧ x.unit = unitCode u ∧ x.num = num

theorem State.report_recordsError (u : UnitKind) (num sev ctx lc : Nat) (l : List Byte) :
    (s.report { kind := 6, sev := sev, ctx := ctx, lcore := lc, unit := unitCode u, num := num, payload := l }).RecordsError u num :=
  ⟨_, List.mem_append_right _ (List.mem_singleton_self _), rfl, rfl, rfl⟩

theorem State.loseCore_recordsError (u : UnitKind) (num ctx : Nat) (l : LCore) : (s.loseCore u num ctx l).RecordsError u num :=
  State.report_recordsError _ u num 2 ctx l.n []

theorem State.RecordsError.of_reports {s t : State} {u : UnitKind} {num : Nat} (h : s.Reports t) (hs : s.RecordsError u num) :
    t.RecordsError u num := by
  obtain ⟨x, hx, hkind⟩ := hs
  exact ⟨x, h.mgmt x hx, hkind⟩

/-! ### Scores (R405) -/

/-- R254, R405: a score that takes a word changes that score alone. -/
theorem State.holdScore_reports (u : UnitKind) (n : Nat) (x : RingWord) (r : RingResult) :
    (s.putScore u n r.word).Reports (s.holdScore u n x r) := by
  have hset : (s.putScore u n r.word).Reports (s.setScore u n r.word) := State.applyWith_reports _ _ _ _
  have halarm (t : State) (l : List Alarm) : t.Reports { t with scoreAlarms := l } := .same rfl rfl rfl rfl
  exact hset.trans (.ite (.refl _) (halarm _ _))

theorem State.scoreOf_putScore (u : UnitKind) (n : Nat) (x : RingWord) : (s.putScore u n x).scoreOf u n = x := by
  unfold State.scoreOf State.putScore
  dsimp only
  rw [find?_upsert_self _ _ (by simp)]

theorem State.Reports.scoreOf {s t : State} (h : s.Reports t) (u : UnitKind) (n : Nat) : t.scoreOf u n = s.scoreOf u n := by
  rw [State.scoreOf, h.scores, State.scoreOf]

@[simp] theorem State.putScore_fences (u : UnitKind) (n : Nat) (x : RingWord) : (s.putScore u n x).fences = s.fences := rfl

@[simp] theorem State.putScore_mgmt (u : UnitKind) (n : Nat) (x : RingWord) : (s.putScore u n x).mgmt = s.mgmt := rfl

/-- R405: marking a score's threshold leaves the scores. -/
theorem State.scoreOf_thresholds (l : List (UnitKind × Nat)) (u : UnitKind) (n : Nat) :
    ({ s with thresholds := l } : State).scoreOf u n = s.scoreOf u n := rfl

/-- R405: what a score's new word leaves beside the score that takes it. -/
theorem State.holdScore_outcome (u : UnitKind) (n : Nat) (x : RingWord) (r : RingResult) :
    (s.holdScore u n x r).fences = s.fences ∧ (∀ y ∈ s.mgmt, y ∈ (s.holdScore u n x r).mgmt)
    ∧ (s.holdScore u n x r).scoreOf u n = r.word := by
  have hhold := s.holdScore_reports u n x r
  refine ⟨?_, ?_, ?_⟩
  · rw [hhold.fences, State.putScore_fences]
  · intro y hy
    exact hhold.mgmt y (by rwa [State.putScore_mgmt])
  · rw [hhold.scoreOf, State.scoreOf_putScore]

/-- R405: a threshold record leaves the fences, the records and the scores. -/
theorem State.noteThreshold_outcome {p : Prop} [Decidable p] (l : List (UnitKind × Nat)) (r : MgmtRec) (u : UnitKind) (n : Nat) :
    (if p then ({ s with thresholds := l } : State).report r else s).fences = s.fences
    ∧ (∀ y ∈ s.mgmt, y ∈ (if p then ({ s with thresholds := l } : State).report r else s).mgmt)
    ∧ (if p then ({ s with thresholds := l } : State).report r else s).scoreOf u n = s.scoreOf u n := by
  split
  · have hreport := State.report_reports { s with thresholds := l } r
    refine ⟨hreport.fences, hreport.mgmt, ?_⟩
    rw [hreport.scoreOf, State.scoreOf_thresholds]
  · exact ⟨rfl, fun _ hy => hy, rfl⟩

/-- R405: what an increment leaves beside the score that takes it. -/
theorem State.suspect_outcome (u : UnitKind) (n : Nat) (inc : Lane) :
    (s.suspect u n inc).fences = s.fences ∧ (∀ y ∈ s.mgmt, y ∈ (s.suspect u n inc).mgmt)
    ∧ (s.suspect u n inc).scoreOf u n = (s.scoreOp (.add (inc.setWidth 64)) (s.scoreOf u n)).word := by
  obtain ⟨hfences, hmgmt, hscore⟩ := s.holdScore_outcome u n (s.scoreOf u n) (s.scoreOp (.add (inc.setWidth 64)) (s.scoreOf u n))
  unfold State.suspect
  extract_lets x r t
  obtain ⟨hf, hm, hs⟩ := t.noteThreshold_outcome
    (p := (exact32 r.a).cmp (exact32 s.scoreLaw.th) = .lt ∧ (exact32 r.word.a).cmp (exact32 s.scoreLaw.th) ≠ .lt)
    (t.thresholds ++ [(u, n)]) { kind := 3, sev := 0, ctx := 0, lcore := 0, unit := unitCode u, num := n, payload := [] } u n
  exact ⟨hf.trans hfences, fun y hy => hm y (hmgmt y hy), hs.trans hscore⟩

/-- R405: an increment reaches the score, with a threshold record where the score reaches TH from below. -/
theorem State.suspect_suspected (u : UnitKind) (n : Nat) (inc : Lane) : Suspected s (s.suspect u n inc) u n inc := by
  refine ⟨(s.suspect_outcome u n inc).2.2, fun hbelow hreach => ?_⟩
  have hs : s.suspect u n inc = _ := if_pos ⟨hbelow, hreach⟩
  rw [hs]
  exact ⟨List.mem_append_right _ (List.mem_singleton_self _), _, List.mem_append_right _ (List.mem_singleton_self _),
    rfl, rfl, rfl, rfl⟩

theorem Suspected.of_reports {s t v : State} {u : UnitKind} {n : Nat} {inc : Lane} (h : Suspected s t u n inc) (hr : t.Reports v) :
    Suspected s v u n inc := by
  obtain ⟨hscore, hreach⟩ := h
  refine ⟨?_, fun h1 h2 => ?_⟩
  · rw [← hscore, hr.scoreOf]
  · obtain ⟨hth, x, hx, hfields⟩ := hreach h1 h2
    exact ⟨hr.thresholds ▸ hth, x, hr.mgmt x hx, hfields⟩

/-! ### The fence itself (R363) -/

theorem mem_addNew {α : Type} [DecidableEq α] (l : List α) (a : α) : a ∈ addNew l a := by
  unfold addNew
  split
  · assumption
  · exact List.mem_cons_self

/-- R363: the logical cores that are lost are recorded. -/
theorem State.loseCores_recordsError (u : UnitKind) (num : Nat) {lost : List (Nat × LCore)} (h : lost ≠ []) :
    (lost.foldl (fun s p => s.loseCore u num p.1 p.2) s).RecordsError u num := by
  cases lost with
  | nil => exact absurd rfl h
  | cons p lost =>
    have hfirst := s.loseCore_recordsError u num p.1 p.2
    rw [List.foldl_cons]
    exact hfirst.of_reports
      (State.Reports.foldl (fun s (q : Nat × LCore) => s.loseCore_reports u num q.1 q.2) lost _)

/-- R363: a fence holds its rectangle, and the error is recorded. -/
theorem State.fence_outcome (u : UnitKind) (num cluster : Nat) :
    (clusterDie cluster, s.rectOf cluster) ∈ (s.fence u num cluster).fences ∧ (s.fence u num cluster).RecordsError u num := by
  unfold State.fence
  extract_lets r inside at' placed duals lost s0 s1 s2 s3 s4 s5
  have h0 : State.Reports { s with fences := addNew s.fences r } s0 := State.turnBack_reports _ _
  have h1 : s0.Reports s1 := .foldl (fun s k => s.abortBoxes_reports k) _ _
  have h2 : s1.Reports s2 :=
    ((State.failEngines_reports _ _).trans (State.clearSlots_reports _ _)).trans (State.resetClusters_reports _ _)
  have h3 : s2.Reports s3 := .foldl (fun s p => s.saveDual_reports _ _ _) _ _
  have h4 : s3.Reports s4 := .foldl (fun s p => s.loseCore_reports u num _ _) _ _
  have h5 : s4.Reports s5 := .ite (State.report_reports _ _) (.refl _)
  have herror : s5.RecordsError u num := by
    unfold s5
    split
    · exact State.report_recordsError _ u num 1 0 0 []
    next h => exact State.loseCores_recordsError _ u num h
  have hall := (((((h0.trans h1).trans h2).trans h3).trans h4).trans h5).trans (State.keepShadows_reports s5)
  constructor
  · rw [(State.suspect_outcome _ u num _).1, hall.fences]
    exact mem_addNew _ r
  · obtain ⟨x, hx, hfields⟩ := herror.of_reports (State.keepShadows_reports s5)
    exact ⟨x, (State.suspect_outcome _ u num _).2.1 x hx, hfields⟩

/-- R326, R334: an error in one record of a hurdle router fences nothing. -/
theorem State.loseRecord_reports (cluster : Nat) : s.Reports (s.loseRecord cluster) := by
  have hfresh : s.Reports { s with fresh := s.fresh + 1 } := .same rfl rfl rfl rfl
  unfold State.loseRecord
  dsimp only
  split
  · exact hfresh
  · exact (hfresh.trans (State.hsDrop_reports _ _ _ _ _ _ _)).trans (State.sendRecordFrom_reports _ _ _ _ _ _ _ _ _)

end

end Sys2Proof.Machine
end


section
/-! PROOF. O57: context creation, gang stop, acknowledgements and the fencing of rectangles (R90, R281, R359, R363, R393, R405). -/

namespace Sys2Proof.Machine

/-- R90, R393: what a description that every guard accepts creates. -/
theorem contextCreation_leads {c : CtxSpec} {s : State} (hid : c.ctx < 256) (hfree : (s.ctxOf c.ctx).state = 0)
    (hroom : c.ctx = 0 ∨ s.residents < 64) (hapart : rangesApart (createdCtx c).fixedTables = true)
    (hspace : s.spaceOk (createdCtx c) = true) (hwf : Memory.wf s.mem = true) (hmigs : c.ctx = 0 → s.migs = [])
    (hhost : ({ s with ctxs := s.ctxs.filter fun x => x.id ≠ c.ctx } : State).canHost c.ctx c.cores = true) :
    Leads (.contextCreation c) s fun t =>
      let x := t.ctxOf c.ctx
      x.state = 1 ∧ x.halted = false ∧ x.gvt = 0 ∧ x.lawbase = c.lawBase &&& ~~~ 0x1FFF#64
      ∧ x.objbase = c.objBase &&& ~~~ 0x3FFFFF#64 ∧ x.trapsv = c.trapSave &&& ~~~ 0xFFF#64 ∧ x.keyid = c.keyid % 1024
      ∧ x.hostOk = c.hostOk ∧ x.stage2 = c.pages ∧ x.inboxCap = c.inbox % 2 ^ 32
      ∧ ∀ l ∈ c.cores, x.defines l.n = true ∧ (x.lcOf l.n).lsz = l.lsz ∧ (x.lcOf l.n).pcore = l.pcore
        ∧ (∀ k, (x.lcOf l.n).fmtOf k = (fmtReset k, 0)) ∧ (x.lcOf l.n).tiles = []
        ∧ ∀ j, j < l.image.length → cellRead t.mem (scratchKey c.ctx l.n j) = l.image.getD j 0 := by
  obtain ⟨hcores, hpair⟩ := State.canHost_cores hhost
  obtain ⟨hctx, hread⟩ := State.create_outcome hwf hmigs (fun l hl => (hcores l hl).2) hpair
  obtain ⟨hstate, hhalted, hgvt, hlaw, hobj, htrap, hkey, hok, hpages, hinbox⟩ := createdCtx_fields c
  have hfull : ¬ (c.ctx ≠ 0 ∧ 64 ≤ s.residents) := fun h => hroom.elim h.1 h.2.not_gt
  refine ⟨s.create c, ?_, ?_⟩
  · change execContextCreation c s = _
    unfold execContextCreation
    rw [if_neg]
    simp only [Bool.or_eq_true, decide_eq_true_eq, hapart, hspace, hhost, hfree, hfull, hid.not_ge]
    simp
  · dsimp only
    rw [hctx]
    refine ⟨hstate, hhalted, hgvt, hlaw, hobj, htrap, hkey, hok, hpages, hinbox, fun l hl => ?_⟩
    obtain ⟨hdefines, hlsz, hpcore, hfmt, htiles⟩ := createdCtx_lcOf hpair hl
    exact ⟨hdefines, hlsz, hpcore, hfmt, htiles, hread l hl⟩

/-- R363, log entry 66: an uncorrectable error of a unit fences the rectangle of its cluster. -/
theorem rectFence_leads {u : UnitKind} {num : Nat} {s : State} (hu : u ≠ .llc ∧ u ≠ .pc ∧ u ≠ .port) (hnum : num < 1024) :
    Leads (.rectFence u num) s fun t => (clusterDie (clusterIdOf num), s.rectOf (clusterIdOf num)) ∈ t.fences
      ∧ ∃ x ∈ t.mgmt, x.kind = 6 ∧ x.unit = unitCode u ∧ x.num = num := by
  refine ⟨s.fence u num (clusterIdOf num), ?_, s.fence_outcome u num (clusterIdOf num)⟩
  change execRectFence u num s = _
  unfold execRectFence
  rw [if_neg (by simp [hu, hnum])]

/-- R363: a unit that lies in no rectangle fences none. -/
theorem rectFence_refused {u : UnitKind} {num : Nat} {s : State} (hu : ¬ (u ≠ .llc ∧ u ≠ .pc ∧ u ≠ .port)) :
    exec (.rectFence u num) s = .next s := by
  change execRectFence u num s = _
  unfold execRectFence
  rw [if_pos]
  by_contra h
  simp only [not_or] at h
  exact hu h.2

section
variable {u : UnitKind} {cluster : Nat} {s : State}

/-- R281, R405: a corrected error adds 1 to the unit's score and fences nothing. -/
theorem clusterStateError_corrected_leads (hu : u ≠ .llc ∧ u ≠ .pc ∧ u ≠ .port) (hcluster : cluster < 128) (ctx : Nat) (va : Word) :
    Leads (.clusterStateError cluster u (.corrected ctx va)) s fun t => t.fences = s.fences
      ∧ Suspected s t u (clusterRouter cluster) incOne := by
  have hrefill := (s.suspect u (clusterRouter cluster) incOne).refillTlb_reports cluster ctx va
  refine ⟨(s.suspect u (clusterRouter cluster) incOne).refillTlb cluster ctx va, ?_,
    hrefill.fences.trans (s.suspect_outcome u _ incOne).1, (s.suspect_suspected u _ incOne).of_reports hrefill⟩
  change execClusterStateError cluster u (.corrected ctx va) s = _
  unfold execClusterStateError
  dsimp only
  rw [if_neg (by simp [hu, hcluster])]

/-- R405: a failed data check of firmware adds 4 to the unit's score and fences nothing. -/
theorem clusterStateError_dataCheck_leads (hu : u ≠ .llc ∧ u ≠ .pc ∧ u ≠ .port) (hcluster : cluster < 128) :
    Leads (.clusterStateError cluster u .dataCheck) s fun t => t.fences = s.fences
      ∧ Suspected s t u (clusterRouter cluster) incFour := by
  refine ⟨s.suspect u (clusterRouter cluster) incFour, ?_, (s.suspect_outcome u _ incFour).1, s.suspect_suspected u _ incFour⟩
  change execClusterStateError cluster u .dataCheck s = _
  unfold execClusterStateError
  dsimp only
  rw [if_neg (by simp [hu, hcluster])]

/-- R281, R326, R334, R363: an uncorrectable error fences the rectangle, or drops one record of a hurdle router. -/
theorem clusterStateError_fatal_leads (hu : u ≠ .llc ∧ u ≠ .pc ∧ u ≠ .port) (hcluster : cluster < 128) :
    Leads (.clusterStateError cluster u .fatal) s fun t =>
      (clusterDie cluster, s.rectOf cluster) ∈ t.fences ∨ u = .hurdle ∧ t.fences = s.fences := by
  obtain ⟨s1, hs1⟩ : ∃ s1, s1 = ({ s with fresh := s.fresh + 1 } : State) := ⟨_, rfl⟩
  have hrect : s1.rectOf cluster = s.rectOf cluster := by rw [hs1]; rfl
  have hfences : s1.fences = s.fences := by rw [hs1]
  have hexec : exec (.clusterStateError cluster u .fatal) s = .next (if u = .hurdle then
      (if Config.freeBool s.fresh then s1.loseRecord cluster else s1.fence u (clusterRouter cluster) cluster)
      else s.fence u (clusterRouter cluster) cluster) := by
    change execClusterStateError cluster u .fatal s = _
    unfold execClusterStateError
    dsimp only
    rw [if_neg (by simp [hu, hcluster]), hs1]
  refine ⟨_, hexec, ?_⟩
  split
  next hhurdle =>
    split
    · exact .inr ⟨hhurdle, (s1.loseRecord_reports cluster).fences.trans hfences⟩
    · exact .inl (hrect ▸ (s1.fence_outcome u _ cluster).1)
  next => exact .inl (s.fence_outcome u _ cluster).1

end

/-- Settles O57: each clause by the lemma about its step; a fence and a score change the other's records only by adding. -/
theorem contextAndClusterSteps : Obligations.ContextAndClusterSteps := by
  unfold Obligations.ContextAndClusterSteps
  intro c ctx num cluster va u s fenceable rect
  refine ⟨contextCreation_leads, contextCreation_refused, gangStopByManagement_leads, fun r hq => ⟨?_, ?_⟩, rectFence_leads,
    rectFence_refused, fun hu hcluster => ⟨?_, ?_, ?_⟩⟩
  case refine_1 => exact fun a b hinv hwg hheld hall => tlbInvAcknowledgement_leads hq hinv hwg hheld hall
  case refine_2 => exact fun a hwg hinv hheld => wgTablesApplied_leads hq hwg hinv hheld
  case refine_3 => exact clusterStateError_corrected_leads hu hcluster ctx va
  case refine_4 => exact clusterStateError_dataCheck_leads hu hcluster
  case refine_5 => exact clusterStateError_fatal_leads hu hcluster

end Sys2Proof.Machine
end

section
/-! SUPPORT. The scalar instructions (R109 to R117): the operations on words in integer arithmetic, the W forms of an integer, and
the values of the immediates. -/

namespace Sys2Proof.Machine

/-! ### Words from their values -/

section
variable {n : Nat} (x y : BitVec n)

theorem eq_ofNat_of_toNat_eq {x : BitVec n} {v : Nat} (h : x.toNat = v) : x = BitVec.ofNat n v := by
  rw [← h, BitVec.ofNat_toNat, BitVec.setWidth_eq]

theorem eq_ofInt_of_toInt_eq {x : BitVec n} {v : Int} (h : x.toInt = v) : x = BitVec.ofInt n v := by
  rw [← h, BitVec.ofInt_toInt]

theorem add_ofInt_eq (v : Int) : x + BitVec.ofInt n v = BitVec.ofInt n (x.toInt + v) := by
  rw [BitVec.ofInt_add, BitVec.ofInt_toInt]

theorem ofInt_sub (v w : Int) : BitVec.ofInt n (v - w) = BitVec.ofInt n v - BitVec.ofInt n w := by
  rw [sub_eq_add_neg, BitVec.ofInt_add, BitVec.ofInt_neg, BitVec.sub_eq_add_neg]

theorem sub_eq_ofInt : x - y = BitVec.ofInt n ((x.toNat : Int) - y.toNat) := by
  rw [ofInt_sub, BitVec.ofInt_natCast, BitVec.ofInt_natCast, ← eq_ofNat_of_toNat_eq rfl, ← eq_ofNat_of_toNat_eq rfl]

theorem and_eq_ofNat : x &&& y = BitVec.ofNat n (x.toNat &&& y.toNat) := eq_ofNat_of_toNat_eq (BitVec.toNat_and ..)

theorem or_eq_ofNat : x ||| y = BitVec.ofNat n (x.toNat ||| y.toNat) := eq_ofNat_of_toNat_eq (BitVec.toNat_or ..)

theorem xor_eq_ofNat : x ^^^ y = BitVec.ofNat n (x.toNat ^^^ y.toNat) := eq_ofNat_of_toNat_eq (BitVec.toNat_xor ..)

theorem andNot_eq_ofNat : x &&& ~~~y = BitVec.ofNat n (x.toNat &&& (2 ^ n - 1 - y.toNat)) :=
  eq_ofNat_of_toNat_eq (by rw [BitVec.toNat_and, BitVec.toNat_not])

theorem shiftLeft_eq_ofNat (k : Nat) : x <<< k = BitVec.ofNat n (x.toNat * 2 ^ k) :=
  BitVec.eq_of_toNat_eq (by rw [BitVec.toNat_shiftLeft, Nat.shiftLeft_eq, BitVec.toNat_ofNat])

theorem shiftRight_eq_ofNat (k : Nat) : x >>> k = BitVec.ofNat n (x.toNat / 2 ^ k) :=
  eq_ofNat_of_toNat_eq (by rw [BitVec.toNat_ushiftRight, Nat.shiftRight_eq_div_pow])

theorem sshiftRight_eq_ofInt (k : Nat) : x.sshiftRight k = BitVec.ofInt n (x.toInt / 2 ^ k) :=
  eq_ofInt_of_toInt_eq (by rw [BitVec.toInt_sshiftRight, Int.shiftRight_eq_div_pow]; norm_cast)

end

/-! ### Comparisons (R109, R112, R116) -/

section
variable (x y : Word)

theorem boolW_slt : boolW (x.slt y) = if x.toInt < y.toInt then 1 else 0 := by
  simp only [boolW, BitVec.slt_iff_toInt_lt]
  rfl

theorem boolW_ult : boolW (x.ult y) = if x.toNat < y.toNat then 1 else 0 := by
  simp only [boolW, BitVec.ult_iff_toNat_lt]
  rfl

theorem ite_slt_eq_min : (if x.slt y then x else y) = BitVec.ofInt 64 (min x.toInt y.toInt) :=
  eq_ofInt_of_toInt_eq (by simp only [apply_ite BitVec.toInt, BitVec.slt_iff_toInt_lt, min_def_lt])

theorem ite_slt_eq_max : (if x.slt y then y else x) = BitVec.ofInt 64 (max x.toInt y.toInt) :=
  eq_ofInt_of_toInt_eq (by simp only [apply_ite BitVec.toInt, BitVec.slt_iff_toInt_lt, max_def_lt])

theorem ite_ult_eq_min : (if x.ult y then x else y) = BitVec.ofNat 64 (min x.toNat y.toNat) :=
  eq_ofNat_of_toNat_eq (by simp only [apply_ite BitVec.toNat, BitVec.ult_iff_toNat_lt, min_def_lt])

theorem ite_ult_eq_max : (if x.ult y then y else x) = BitVec.ofNat 64 (max x.toNat y.toNat) :=
  eq_ofNat_of_toNat_eq (by simp only [apply_ite BitVec.toNat, BitVec.ult_iff_toNat_lt, max_def_lt])

end

/-! ### The W forms (R48, R111, R113) -/

section
variable (x y : Word) (k : Nat)

theorem resW_ofNat (m : Nat) : resW (BitVec.ofNat 32 m) = wordOf32 m := by rw [← BitVec.ofInt_natCast, resW_ofInt]

theorem low32_eq_ofInt : low32 x = BitVec.ofInt 32 x.toNat := by
  rw [BitVec.ofInt_natCast, BitVec.ofNat_toNat, low32]

theorem resW_add : resW (low32 x + low32 y) = wordOf32 (x.toNat + y.toNat) := by
  rw [low32_eq_ofInt, low32_eq_ofInt, ← BitVec.ofInt_add, resW_ofInt]

theorem resW_sub : resW (low32 x - low32 y) = wordOf32 ((x.toNat : Int) - y.toNat) := by
  rw [low32_eq_ofInt, low32_eq_ofInt, ← ofInt_sub, resW_ofInt]

theorem resW_shiftLeft : resW (low32 x <<< k) = wordOf32 (nat32Of x * 2 ^ k) := by
  rw [shiftLeft_eq_ofNat, resW_ofNat, toNat_low32]
  norm_cast

theorem resW_shiftRight : resW (low32 x >>> k) = wordOf32 (nat32Of x / 2 ^ k : Nat) := by
  rw [shiftRight_eq_ofNat, resW_ofNat, toNat_low32]

theorem resW_sshiftRight : resW ((low32 x).sshiftRight k) = wordOf32 (int32Of x / 2 ^ k) := by
  rw [sshiftRight_eq_ofInt, resW_ofInt, toInt_low32]

end

/-! ### Shift counts and immediates (R43, R46, R109 to R112) -/

theorem shCount_eq (y : Word) : shCount y = y.toNat % 64 := by
  rw [shCount, BitVec.extractLsb'_toNat, Nat.shiftRight_zero]

theorem shCountW_eq (y : Word) : shCountW y = y.toNat % 32 := by
  rw [shCountW, BitVec.extractLsb'_toNat, Nat.shiftRight_zero]

/-- R43: an immediate reads as the signed number it is. -/
theorem sext64_toInt (i : BitVec 15) : (sext64 i).toInt = i.toInt := BitVec.toInt_signExtend_of_le (by decide)

/-- R112: the sign-extended immediate read as unsigned. -/
theorem sext64_toNat (i : BitVec 15) : ((sext64 i).toNat : Int) = i.toInt % 2 ^ 64 := by
  rw [sext64, BitVec.signExtend, BitVec.toNat_ofInt]
  exact Int.toNat_of_nonneg (Int.emod_nonneg _ (by decide))

/-- R43: the U immediate. -/
theorem immU_eq_ofInt (u : BitVec 20) : immU u = BitVec.ofInt 64 (u.toInt * 2 ^ 12) := by
  rw [immU, BitVec.signExtend, BitVec.toInt_append_zero, mul_comm]

/-- R43: the target of a displacement. -/
theorem branchTarget_eq {n : Nat} (pc : Word) (disp : BitVec n) : branchTarget pc disp = targetOf pc disp := by
  rw [branchTarget, targetOf, BitVec.ofInt_add, BitVec.ofInt_mul, BitVec.ofInt_toInt, BitVec.signExtend]
  rfl

end Sys2Proof.Machine
end

section
/-! PROOF. O1: the OPR instructions at full width (R109, R110): the counts of leading, trailing and set bits, the moves of bits and
bytes, and the fields of EXT and INS. -/

namespace Sys2Proof.Machine

/-! ### Counts (R109) -/

/-- The number of bits before the first that is set. -/
theorem length_takeWhile_range (bit : Nat → Bool) (n : Nat) : ∃ k ≤ n,
    ((List.range n).takeWhile fun i => !bit i).length = k ∧ (∀ i < k, bit i = false) ∧ (k < n → bit k = true) := by
  have hle := List.findIdx_le_length (p := bit) (xs := List.range n)
  rw [List.length_range] at hle
  refine ⟨_, hle, ?_, fun i hi => ?_, fun hk => ?_⟩
  · simp only [List.takeWhile_eq_take_findIdx_not, List.length_take, List.length_range, Bool.not_not, min_eq_left hle]
  · simpa using List.not_of_lt_findIdx hi
  · have hat := List.findIdx_getElem (p := bit) (xs := List.range n) (w := by rwa [List.length_range])
    rwa [List.getElem_range] at hat

theorem popcW_eq {n : Nat} (x : BitVec n) : popcW x = BitVec.ofNat 64 ((Finset.range n).filter fun i => x.getLsbD i).card := by
  rw [popcW, ← Nat.count_eq_card_filter_range, Nat.count, List.countP_eq_length_filter]
  simp only [Bool.decide_eq_true]

/-! ### Moves of bits and bytes (R109) -/

theorem getLsbD_brevW (x : Word) {i : Nat} (hi : i < 64) : (brevW x).getLsbD i = x.getLsbD (63 - i) := by
  rw [brevW, BitVec.getLsbD_reverse, BitVec.getMsbD_eq_getLsbD, decide_eq_true hi, Bool.true_and]

theorem getLsbD_bswapW (x : Word) {i : Nat} (hi : i < 64) : (bswapW x).getLsbD i = x.getLsbD (8 * (7 - i / 8) + i % 8) := by
  -- One case for each byte that bit i can lie in.
  simp only [bswapW, BitVec.getLsbD_append, BitVec.getLsbD_extractLsb']
  repeat' split
  all_goals
    rw [decide_eq_true (by omega), Bool.true_and]
    exact congrArg _ (by omega)

/-! ### Fields (R110) -/

section
variable (x y z : Word)

theorem fieldPos_eq : fieldPos y = y.toNat % 64 := shCount_eq y

/-- R110: the mask of a field. -/
theorem getLsbD_fieldMask {i : Nat} (hi : i < 64) : (fieldMask y).getLsbD i =
    decide (y.toNat % 64 ≤ i ∧ i < y.toNat % 64 + (y.toNat / 256 % 64 + 1)) := by
  have hlen : (y.extractLsb' 8 6).toNat = y.toNat / 256 % 64 := by rw [BitVec.extractLsb'_toNat, Nat.shiftRight_eq_div_pow]
  rw [fieldMask, fieldPos_eq, hlen, BitVec.getLsbD_shiftLeft, BitVec.getLsbD_ofNat, Nat.testBit_two_pow_sub_one]
  grind

theorem extW_eq_ofNat : extW x y = BitVec.ofNat 64 (x.toNat / 2 ^ (y.toNat % 64) % 2 ^ (y.toNat / 256 % 64 + 1)) := by
  apply BitVec.eq_of_getLsbD_eq
  intro i hi
  rw [extW, fieldPos_eq, BitVec.getLsbD_ushiftRight, BitVec.getLsbD_and, BitVec.getLsbD_ofNat, Nat.testBit_mod_two_pow,
    Nat.testBit_div_two_pow, BitVec.testBit_toNat, decide_eq_true hi, Bool.true_and, add_comm i]
  by_cases h : y.toNat % 64 + i < 64
  · rw [getLsbD_fieldMask y h, Bool.and_comm]
    simp
  · simp [BitVec.getLsbD_of_ge x _ (not_lt.1 h)]

theorem getLsbD_insW {i : Nat} (hi : i < 64) : (insW z x y).getLsbD i =
    if y.toNat % 64 ≤ i ∧ i < y.toNat % 64 + (y.toNat / 256 % 64 + 1) then x.getLsbD (i - y.toNat % 64) else z.getLsbD i := by
  rw [insW, fieldPos_eq, BitVec.getLsbD_or, BitVec.getLsbD_and, BitVec.getLsbD_and, BitVec.getLsbD_not, BitVec.getLsbD_shiftLeft,
    getLsbD_fieldMask y hi]
  split
  next h => simp [h, hi, h.1.not_gt]
  next h => simp [h, hi]

end

/-! ### The obligation -/

section
variable {i : Instr} {k : Bool} {d : BitVec 5} {s : State}

/-- A result that the operation's value fixes bit by bit. -/
theorem givesG_of_bits {x : Word} {bit : Nat → Bool} (hi : exec i s = shortResult k d x s)
    (hbits : ∀ j < 64, x.getLsbD j = bit j) : ∃ v : Word, GivesG i k d s v ∧ ∀ j < 64, v.getLsbD j = bit j :=
  ⟨x, hi, hbits⟩

/-- A result that counts the bits before the first one that is set. -/
theorem givesG_of_count {bit : Nat → Bool}
    (hi : exec i s = shortResult k d (BitVec.ofNat 64 ((List.range 64).takeWhile fun j => !bit j).length) s) :
    ∃ n ≤ 64, GivesG i k d s (BitVec.ofNat 64 n) ∧ (∀ j < n, bit j = false) ∧ (n < 64 → bit n = true) := by
  obtain ⟨n, hn, hlen, hbits⟩ := length_takeWhile_range bit 64
  exact ⟨n, hn, givesG_of_shortResult hi (congrArg _ hlen), hbits⟩

end

/-- Settles O1: each operation is `shortResult` of one function of words, whose value the lemmas above give. -/
theorem scalarRegisterResults : Obligations.ScalarRegisterResults := by
  unfold Obligations.ScalarRegisterResults
  intro k d a b s x y n pos len
  have hn : shCount y = n := shCount_eq y
  refine ⟨givesG_of_shortResult rfl (BitVec.add_def ..), givesG_of_shortResult rfl (sub_eq_ofInt ..),
    givesG_of_shortResult rfl (and_eq_ofNat ..),
    givesG_of_shortResult rfl (or_eq_ofNat ..), givesG_of_shortResult rfl (xor_eq_ofNat ..),
    givesG_of_shortResult rfl (andNot_eq_ofNat ..), givesG_of_shortResult rfl ?sll, givesG_of_shortResult rfl ?srl,
    givesG_of_shortResult rfl ?sra, givesG_of_shortResult rfl (boolW_slt ..), givesG_of_shortResult rfl (boolW_ult ..),
    givesG_of_shortResult rfl (ite_slt_eq_min ..), givesG_of_shortResult rfl (ite_slt_eq_max ..),
    givesG_of_shortResult rfl (ite_ult_eq_min ..), givesG_of_shortResult rfl (ite_ult_eq_max ..), rfl, rfl,
    givesG_of_count rfl, givesG_of_count rfl, givesG_of_shortResult rfl (popcW_eq _),
    givesG_of_bits rfl fun _ => getLsbD_brevW _, givesG_of_bits rfl fun _ => getLsbD_bswapW _,
    givesG_of_shortResult rfl (extW_eq_ofNat ..), givesG_of_bits rfl fun _ => getLsbD_insW _ _ _⟩
  case sll => rw [hn, shiftLeft_eq_ofNat]
  case srl => rw [hn, shiftRight_eq_ofNat]
  case sra => rw [hn, sshiftRight_eq_ofInt]

end Sys2Proof.Machine
end

section
/-! PROOF. O2: the W forms, the immediate forms and the shifts by an immediate count (R111 to R114). -/

namespace Sys2Proof.Machine

/-- R112: SLTI compares signed numbers. -/
theorem boolW_slt_sext64 (x : Word) (i : BitVec 15) :
    boolW (x.slt (sext64 i)) = if x.toInt < i.toInt then 1 else 0 := by rw [boolW_slt, sext64_toInt]

/-- R112: SLTIU compares against the sign-extended immediate read as unsigned. -/
theorem boolW_ult_sext64 (x : Word) (i : BitVec 15) :
    boolW (x.ult (sext64 i)) = if (x.toNat : Int) < i.toInt % 2 ^ 64 then 1 else 0 := by
  rw [boolW_ult, ← sext64_toNat]
  simp only [Nat.cast_lt]

/-- Settles O2: each form is `shortResult` of one function of words, whose value the lemmas above give; the sign-extended
immediate is `BitVec.ofInt` of the signed number by definition. -/
theorem wordAndImmediateResults : Obligations.WordAndImmediateResults := by
  unfold Obligations.WordAndImmediateResults
  intro k d a b i u h w s x y n
  have hn : shCountW y = n := shCountW_eq y
  refine ⟨givesG_of_shortResult rfl (resW_add ..), givesG_of_shortResult rfl (resW_sub ..), givesG_of_shortResult rfl ?sllw,
    givesG_of_shortResult rfl ?srlw, givesG_of_shortResult rfl ?sraw, givesG_of_shortResult rfl (add_ofInt_eq ..),
    rfl, rfl, rfl, givesG_of_shortResult rfl (boolW_slt_sext64 ..), givesG_of_shortResult rfl (boolW_ult_sext64 ..),
    givesG_of_shortResult rfl (shiftLeft_eq_ofNat ..), givesG_of_shortResult rfl (shiftRight_eq_ofNat ..),
    givesG_of_shortResult rfl (sshiftRight_eq_ofInt ..), givesG_of_shortResult rfl (resW_shiftLeft ..),
    givesG_of_shortResult rfl (resW_shiftRight ..), givesG_of_shortResult rfl (resW_sshiftRight ..),
    givesG_of_shortResult rfl (immU_eq_ofInt u), givesG_of_shortResult rfl ?addpc⟩
  case sllw => rw [hn, resW_shiftLeft]
  case srlw => rw [hn, resW_shiftRight]
  case sraw => rw [hn, resW_sshiftRight]
  case addpc => rw [immU_eq_ofInt, add_ofInt_eq]

end Sys2Proof.Machine
end

section
/-! PROOF. O4: the branches and the jumps (R116, R117). -/

namespace Sys2Proof.Machine

section
variable {i : Instr} {k : Bool} {s : State}

/-- R116: a branch whose condition is decided by `taken`. -/
theorem branches_of_branchIf {taken : Bool} {p : Prop} [Decidable p] {disp : BitVec 15}
    (hi : exec i s = branchIf k taken disp s) (hp : taken = true ↔ p) : Branches i k s p disp := by
  rw [Branches, Does, hi, branchIf, branchTarget_eq]
  simp only [hp]
  rfl

theorem not_slt_iff (x y : Word) : (!x.slt y) = true ↔ y.toInt ≤ x.toInt := by
  rw [BitVec.slt_eq_decide, Bool.not_eq_true', decide_eq_false_iff_not, not_lt]

theorem not_ult_iff (x y : Word) : (!x.ult y) = true ↔ y.toNat ≤ x.toNat := by
  rw [BitVec.ult_eq_decide, Bool.not_eq_true', decide_eq_false_iff_not, not_lt]

/-- R117: a target is misaligned where it is no multiple of 4. -/
theorem extractLsb'_two_ne_zero_iff (t : Word) : t.extractLsb' 0 2 ≠ 0 ↔ t.toNat % 4 ≠ 0 := by
  rw [Ne, ← BitVec.toNat_inj, BitVec.extractLsb'_toNat, Nat.shiftRight_zero]
  rfl

variable {d a : BitVec 5} {disp : BitVec 15}

theorem jalrTarget_eq (f : Slot) : jalrTarget f a disp = BitVec.ofInt 64 ((f.gr a).toInt + disp.toInt) := add_ofInt_eq ..

/-- R117: JALR with an aligned target. -/
theorem jalr_aligned (h : (jalrTarget s.focus a disp).toNat % 4 = 0) : Does (.jalr k d a disp) s
    ((s.focus.writeG d (s.focus.reg.pc + 4)).advanceTo k (jalrTarget s.focus a disp)) :=
  congrArg s.finish (if_neg fun hmis => (extractLsb'_two_ne_zero_iff _).1 hmis h)

/-- R117: JALR with a misaligned target. -/
theorem jalr_misaligned (h : (jalrTarget s.focus a disp).toNat % 4 ≠ 0) :
    Raises (.jalr k d a disp) s .misalign (jalrTarget s.focus a disp) 0 :=
  congrArg s.finish (if_pos ((extractLsb'_two_ne_zero_iff _).2 h))

end

/-- Settles O4: a branch is `branchIf` of its condition; a jump writes its link and goes on at its target, unless the target of
JALR is misaligned. -/
theorem branchesAndJumps : Obligations.BranchesAndJumps := by
  unfold Obligations.BranchesAndJumps
  intro k d a b i j s x y t
  have ht : jalrTarget s.focus a i = t := jalrTarget_eq _
  have hj : branchTarget s.focus.reg.pc j = targetOf s.focus.reg.pc j := branchTarget_eq ..
  refine ⟨branches_of_branchIf rfl decide_eq_true_iff, branches_of_branchIf rfl decide_eq_true_iff,
    branches_of_branchIf rfl BitVec.slt_iff_toInt_lt, branches_of_branchIf rfl (not_slt_iff ..),
    branches_of_branchIf rfl BitVec.ult_iff_toNat_lt, branches_of_branchIf rfl (not_ult_iff ..), ?jal, ?j,
    ht ▸ jalr_aligned, ht ▸ jalr_misaligned⟩
  case jal => exact hj ▸ rfl
  case j => exact hj ▸ rfl

end Sys2Proof.Machine
end

section
/-! SUPPORT. The vector instructions that compute in registers (R44, R135 to R138): a result that lands where a mask is active, the
mask of a compare, counts of active lanes, and 32-bit lanes from their values. -/

namespace Sys2Proof.Machine

/-! ### Results and masks (R135, R138, R153) -/

section
variable {i : Instr} {k : Bool} {d : BitVec 5} {q : BitVec 3} {s : State}

/-- R135, R138: a lane-wise operation lands the values that its function gives the active lanes. -/
theorem landsPure_of_values {g g' : Nat → Lane} (hi : exec i s = lanePure k d q g s)
    (hg : ∀ l < 32, activeLane s q l = true → g l = g' l) : LandsPure i k d q s g' := by
  obtain ⟨v, hdoes, hv⟩ := landsPure_of_lanePure hi
  refine ⟨v, hdoes, fun l hl => (hv l hl).trans ?_⟩
  split
  next hon => exact hg l hl hon
  next => rfl

/-- R137: a long-class result of every lane. -/
theorem landsWhole_of_vecOf {g g' : Nat → Lane} (hi : Does i s ((s.focus.landV d (vecOf g)).advance k))
    (hg : ∀ l < 32, g l = g' l) : LandsWhole i k d s g' :=
  ⟨vecOf g, hi, fun l hl => (vecOf_getElem g hl).trans (hg l hl)⟩

/-- R144: a short-class move of lanes. -/
theorem movesLanes_of_vecOf {g g' : Nat → Lane} (hi : Does i s ((s.focus.writeV d (vecOf g)).advance k))
    (hg : ∀ l < 32, g l = g' l) : MovesLanes i k d s g' :=
  ⟨vecOf g, hi, fun l hl => (vecOf_getElem g hl).trans (hg l hl)⟩

theorem givesM_of_maskResult {e : BitVec 3} {x x' : Lane} (hi : exec i s = maskResult k e x s) (hx : x = x') :
    GivesM i k e s x' := hx ▸ hi

end

/-- R135: a mask word as 32 codes of one bit. -/
theorem maskOf_eq_packed (c : Nat → Bool) :
    maskOf c = BitVec.ofNat 32 (packedSum 1 ((List.range 32).map fun l => (l, (c l).toNat))) := by
  rw [maskOf, packedSum, List.map_map]
  congr 3
  funext l
  cases h : c l <;> simp [h, Nat.shiftLeft_eq]

theorem getLsbD_maskOf (c : Nat → Bool) {l : Nat} (hl : l < 32) : (maskOf c).getLsbD l = c l := by
  have hbit := packed_digit 1 (fun l => (c l).toNat) 32 0 hl
  rw [Nat.mul_zero, Nat.add_zero, Nat.one_mul, pow_one] at hbit
  rw [maskOf_eq_packed, BitVec.getLsbD_ofNat, decide_eq_true hl, Bool.true_and, Nat.testBit_eq_decide_div_mod_eq, hbit]
  cases c l <;> rfl

/-- R135, R138: a compare lands the bits that its condition gives the active lanes. -/
theorem landsMask_of_laneCompare {i : Instr} {k : Bool} {e q : BitVec 3} {s : State} {c : Nat → Bool} {p : Nat → Prop}
    (hi : exec i s = laneCompare k e q c s) (hc : ∀ l, c l = true ↔ p l) : LandsMask i k e q s p := by
  refine ⟨_, hi, fun l hl => ?_⟩
  rw [getLsbD_maskOf _ hl, show s.focus.on q l = activeLane s q l from rfl]
  split
  next => exact hc l
  next => exact Iff.rfl

/-! ### Counts of active lanes (R135, R144) -/

theorem length_filter_range (p : Nat → Bool) (n : Nat) :
    ((List.range n).filter p).length = ((Finset.range n).filter fun j => p j = true).card := by
  rw [← Nat.count_eq_card_filter_range, Nat.count, List.countP_eq_length_filter]
  simp only [Bool.decide_eq_true]

/-- R144: the rank of a lane counts the active lanes below it. -/
theorem rank_eq_card (s : State) (q : BitVec 3) {l : Nat} (hl : l ≤ 32) :
    s.focus.rank q l = ((Finset.range l).filter fun j => activeLane s q j = true).card := by
  rw [Slot.rank, Slot.activeLanes, List.filter_filter, length_filter_range]
  congr 1
  ext j
  simp only [Finset.mem_filter, Finset.mem_range, Bool.and_eq_true, decide_eq_true_eq]
  exact ⟨fun ⟨_, hj, hon⟩ => ⟨hj, hon⟩, fun ⟨hj, hon⟩ => ⟨hj.trans_le hl, hj, hon⟩⟩

/-- The place of a member of an ascending list of lanes is the number of members below it. -/
theorem getElem?_filter_range (p : Nat → Bool) {l n : Nat} (hl : l < n) (hp : p l = true) :
    ((List.range n).filter p)[((Finset.range l).filter fun j => p j = true).card]? = some l := by
  obtain ⟨m, rfl⟩ := Nat.exists_eq_add_of_lt hl
  rw [Nat.add_assoc, List.range_add, List.filter_append, ← length_filter_range, List.getElem?_append_right (le_refl _),
    Nat.sub_self, List.range_succ_eq_map, List.map_cons, Nat.add_zero, List.filter_cons_of_pos hp]
  rfl

/-! ### Lanes from their values (R12, R108) -/

theorem laneShift_eq (x : Lane) : laneShift x = x.toNat % 32 := by
  rw [laneShift, BitVec.extractLsb'_toNat, Nat.shiftRight_zero]

theorem laneIndex_eq (x : Word) : laneIndex x = x.toNat % 32 := bitsOf_low ..

theorem low32_eq_ofNat (x : Word) : low32 x = BitVec.ofNat 32 x.toNat := (BitVec.ofNat_toNat ..).symm

theorem setWidth_eq_ofNat (x : Lane) : x.setWidth 64 = BitVec.ofNat 64 x.toNat := (BitVec.ofNat_toNat ..).symm

theorem not_eq_ofNat (x : Lane) : ~~~x = BitVec.ofNat 32 (2 ^ 32 - 1 - x.toNat) := eq_ofNat_of_toNat_eq BitVec.toNat_not

section
variable (x y : Lane)

theorem lane_ite_slt_eq_min : (if y.slt x then y else x) = BitVec.ofInt 32 (min x.toInt y.toInt) :=
  eq_ofInt_of_toInt_eq (by simp only [apply_ite BitVec.toInt, BitVec.slt_iff_toInt_lt, min_comm x.toInt, min_def_lt])

theorem lane_ite_slt_eq_max : (if x.slt y then y else x) = BitVec.ofInt 32 (max x.toInt y.toInt) :=
  eq_ofInt_of_toInt_eq (by simp only [apply_ite BitVec.toInt, BitVec.slt_iff_toInt_lt, max_def_lt])

end

end Sys2Proof.Machine
end

section
/-! PROOF. O8: the mask instructions (R153). -/

namespace Sys2Proof.Machine

/-- Settles O8: each instruction is `maskResult` or `shortResult` of one function of the mask. -/
theorem maskResults : Obligations.MaskResults := by
  unfold Obligations.MaskResults
  intro k d a b g h s x y
  refine ⟨givesM_of_maskResult rfl (and_eq_ofNat ..), givesM_of_maskResult rfl (or_eq_ofNat ..),
    givesM_of_maskResult rfl (xor_eq_ofNat ..), givesM_of_maskResult rfl (not_eq_ofNat _),
    givesG_of_shortResult rfl (popcW_eq _), ?first, givesM_of_maskResult rfl (low32_eq_ofNat _),
    givesG_of_shortResult rfl (setWidth_eq_ofNat _)⟩
  case first =>
    obtain ⟨n, hn, hlen, hbits⟩ := length_takeWhile_range x.getLsbD 32
    exact ⟨n, hn, givesG_of_shortResult rfl (congrArg _ hlen), hbits⟩

end Sys2Proof.Machine
end

section
/-! PROOF. O12: the VARI group (R144). -/

namespace Sys2Proof.Machine

/-- Settles O12: each operation is `lanePure`, `laneCompare` or a whole register of one function of lanes, whose value the lemmas
above give in integer arithmetic. -/
theorem vectorIntegerResults : Obligations.VectorIntegerResults := by
  unfold Obligations.VectorIntegerResults
  intro k d a b e q s A B n
  have hn (l : Nat) : laneShift (s.lane b l) = n l := laneShift_eq _
  refine ⟨landsPure_of_values rfl fun _ _ _ => BitVec.add_def .., landsPure_of_values rfl fun _ _ _ => sub_eq_ofInt ..,
    landsPure_of_values rfl fun _ _ _ => BitVec.mul_def .., landsPure_of_values rfl fun _ _ _ => and_eq_ofNat ..,
    landsPure_of_values rfl fun _ _ _ => or_eq_ofNat .., landsPure_of_values rfl fun _ _ _ => xor_eq_ofNat ..,
    landsPure_of_values rfl fun l _ _ => ?shl, landsPure_of_values rfl fun l _ _ => ?shr,
    landsPure_of_values rfl fun l _ _ => ?sra, landsPure_of_values rfl fun _ _ _ => lane_ite_slt_eq_min ..,
    landsPure_of_values rfl fun _ _ _ => lane_ite_slt_eq_max ..,
    landsMask_of_laneCompare rfl fun l => ?eq, landsMask_of_laneCompare rfl fun _ => BitVec.slt_iff_toInt_lt,
    landsMask_of_laneCompare rfl fun _ => BitVec.ult_iff_toNat_lt, landsWhole_of_vecOf rfl fun _ _ => rfl,
    movesLanes_of_vecOf rfl fun _ _ => rfl, movesLanes_of_vecOf rfl fun _ _ => ?bcast, givesG_of_shortResult rfl ?ext,
    movesLanes_of_vecOf rfl fun _ _ => ?ins, landsPure_of_values rfl fun l hl _ => congrArg _ (rank_eq_card s q hl.le)⟩
  case shl => rw [hn, shiftLeft_eq_ofNat]
  case shr => rw [hn, shiftRight_eq_ofNat]
  case sra => rw [hn, sshiftRight_eq_ofInt]
  case eq => rw [decide_eq_true_iff, BitVec.toNat_inj]
  case bcast => rw [low32_eq_ofNat]; rfl
  case ext => rw [laneIndex_eq, setWidth_eq_ofNat]
  case ins => rw [laneIndex_eq, low32_eq_ofNat]

end Sys2Proof.Machine
end

section
/-! PROOF. O13: the VPRM group (R145). -/

namespace Sys2Proof.Machine

/-- R145: VCOMP puts the lane with j active lanes below it into lane j, and +0 above the last. -/
theorem activeLanes_getD (s : State) (q : BitVec 3) (g : Nat → Lane) :
    (∀ l < 32, activeLane s q l = true →
      ((s.focus.activeLanes q).map g).getD ((Finset.range l).filter fun j => activeLane s q j = true).card 0 = g l)
    ∧ ∀ j, ((Finset.range 32).filter fun j => activeLane s q j = true).card ≤ j →
      ((s.focus.activeLanes q).map g).getD j 0 = 0 := by
  have hlen : (s.focus.activeLanes q).length = ((Finset.range 32).filter fun j => activeLane s q j = true).card :=
    length_filter_range ..
  constructor
  · intro l hl hon
    have hat : (s.focus.activeLanes q)[_]? = some l := getElem?_filter_range (activeLane s q) hl hon
    rw [List.getD_eq_getElem?_getD, List.getElem?_map, hat]
    rfl
  · intro j hj
    rw [List.getD_eq_default _ _ (by rw [List.length_map, hlen]; exact hj)]

/-- Settles O13: the moves are functions of the lanes; VCOMP lists the active lanes in ascending order, VEXPD reads them by rank. -/
theorem vectorPermutations : Obligations.VectorPermutations := by
  unfold Obligations.VectorPermutations
  intro k d a b q s A B rank
  obtain ⟨hactive, habove⟩ := activeLanes_getD s q A
  refine ⟨landsPure_of_values rfl fun l _ _ => ?perm, landsPure_of_values rfl fun l _ _ => ?rot,
    landsPure_of_lanePure rfl, landsPure_of_lanePure rfl, ⟨_, rfl, ?comp, ?fill⟩, landsWhole_of_vecOf rfl fun l hl => ?expd⟩
  case perm => rw [laneShift_eq]
  case rot => rw [laneShift_eq]
  case comp => exact fun l hl hon hrank => (vecOf_getElem _ hrank).trans (hactive l hl hon)
  case fill => exact fun j hj hle => (vecOf_getElem _ hj).trans (habove j hle)
  case expd =>
    rw [rank_eq_card s q hl.le]
    rfl

end Sys2Proof.Machine
end

section
/-! PROOF. O11: the VARF group (R141 to R143). -/

namespace Sys2Proof.Machine

/-! ### Signs and order (R141) -/

theorem clearSign_eq_ofNat (x : Lane) : x &&& 0x7FFFFFFF#32 = BitVec.ofNat 32 (x.toNat % 2 ^ 31) := by
  rw [and_eq_ofNat, show (0x7FFFFFFF#32).toNat = 2 ^ 31 - 1 from rfl, Nat.and_two_pow_sub_one_eq_mod]

theorem flipSign_eq_ofNat (x : Lane) : x ^^^ 0x80000000#32 = BitVec.ofNat 32 (x.toNat + 2 ^ 31) := by
  apply BitVec.eq_of_getLsbD_eq
  intro i hi
  rw [BitVec.getLsbD_xor, show 0x80000000#32 = BitVec.twoPow 32 31 from rfl, BitVec.getLsbD_twoPow, BitVec.getLsbD_ofNat,
    decide_eq_true hi, Nat.add_comm]
  rcases Nat.lt_or_eq_of_le (Nat.le_of_lt_succ hi) with hlow | rfl
  · rw [Nat.testBit_two_pow_add_gt hlow, BitVec.testBit_toNat]
    simp [hlow.ne']
  · rw [Nat.testBit_two_pow_add_eq, BitVec.testBit_toNat]
    simp

/-- Distinct codes have distinct places in the order of values. -/
theorem laneOrder_injective : Function.Injective laneOrder := by
  intro x y h
  have hx : x.toNat < 2 ^ 32 := x.isLt
  have hy : y.toNat < 2 ^ 32 := y.isLt
  rw [laneOrder, laneOrder] at h
  exact BitVec.eq_of_toNat_eq (by split at h <;> split at h <;> omega)

/-- R141: VMIN.F gives the first operand where it lies below the second. -/
theorem minF_eq_ite_laneOrder {x y : Lane} (hx : ¬nanCode x) (hy : ¬nanCode y) :
    minF x y = if laneOrder x < laneOrder y then x else y := by
  have hmin : minF x y = if laneOrder y < laneOrder x then y else x := minF_eq hx hy
  rw [hmin]
  rcases lt_trichotomy (laneOrder x) (laneOrder y) with h | h | h
  · rw [if_neg h.not_gt, if_pos h]
  · rw [laneOrder_injective h]
  · rw [if_pos h, if_neg h.not_gt]

/-- R141, R142: a quiet compare of two codes. -/
theorem cmpF_iff {ok : Ordering → Bool} {c : Ordering → Prop} (hok : ∀ o, ok o = true ↔ c o) (x y : Lane) :
    cmpF ok x y = true ↔ lanesOrder x y c := by
  simp only [cmpF, lanesOrder, Bool.and_eq_true, Bool.not_eq_true', hok, and_assoc]

/-! ### VCLASS (R143) -/

/-- R143: the class by the fields of the code. -/
theorem classF_eq (x : Lane) : classF x =
    if expField x = 255 then (if fracField x ≠ 0 then 0x100#32 else if signField x then 0x01#32 else 0x80#32)
    else if expField x = 0 then
      (if fracField x = 0 then (if signField x then 0x08#32 else 0x10#32) else if signField x then 0x04#32 else 0x20#32)
    else if signField x then 0x02#32 else 0x40#32 := by
  have hexp : (x.extractLsb' 23 8).toNat = expField x := by rw [BitVec.extractLsb'_toNat, Nat.shiftRight_eq_div_pow]; rfl
  have hfrac : (x.extractLsb' 0 23).toNat = fracField x := by rw [BitVec.extractLsb'_toNat, Nat.shiftRight_zero]; rfl
  have hsign : x.getLsbD 31 = signField x := BitVec.msb_eq_decide x
  simp only [classF, ← BitVec.toNat_inj, ne_eq, hexp, hfrac, hsign]
  rfl

/-- R143: the bit that VCLASS sets. -/
theorem classF_eq_bit (x : Lane) : classF x = BitVec.ofNat 32 (2 ^ (
    if expField x = 255 then (if fracField x ≠ 0 then 8 else if 2 ^ 31 ≤ x.toNat then 0 else 7)
    else if expField x ≠ 0 then (if 2 ^ 31 ≤ x.toNat then 1 else 6)
    else if fracField x ≠ 0 then (if 2 ^ 31 ≤ x.toNat then 2 else 5)
    else if 2 ^ 31 ≤ x.toNat then 3 else 4)) := by
  have hsign : signField x = true ↔ 2 ^ 31 ≤ x.toNat := decide_eq_true_iff
  simp only [classF_eq, hsign]
  by_cases h255 : expField x = 255
  · rw [if_pos h255, if_pos h255]
    split
    · rfl
    · split <;> rfl
  rw [if_neg h255, if_neg h255]
  by_cases h0 : expField x = 0
  · rw [if_pos h0, if_neg (not_not.2 h0)]
    by_cases hm : fracField x = 0
    · rw [if_pos hm, if_neg (not_not.2 hm)]
      split <;> rfl
    · rw [if_neg hm, if_pos hm]
      split <;> rfl
  · rw [if_neg h0, if_pos h0]
    split <;> rfl

/-- Settles O11: each operation is `lanewise`, `lanePure` or `laneCompare` of one function of codes. -/
theorem vectorFloatResults : Obligations.VectorFloatResults := by
  unfold Obligations.VectorFloatResults
  refine ⟨fun k d a b e q s => ?group, fun a b => ?extremes, classF_eq_bit⟩
  case group =>
    refine ⟨landsLanes_of_lanewise rfl, landsLanes_of_lanewise rfl, landsLanes_of_lanewise rfl, landsLanes_of_lanewise rfl,
      landsLanes_of_lanewise rfl, landsPure_of_lanePure rfl, landsPure_of_lanePure rfl,
      landsPure_of_values rfl fun _ _ _ => ?abs, landsPure_of_values rfl fun _ _ _ => ?neg, landsLanes_of_lanewise rfl,
      landsLanes_of_lanewise rfl, landsLanes_of_lanewise rfl,
      landsMask_of_laneCompare rfl fun _ => cmpF_iff (fun _ => decide_eq_true_iff) _ _,
      landsMask_of_laneCompare rfl fun _ => cmpF_iff (fun _ => decide_eq_true_iff) _ _,
      landsMask_of_laneCompare rfl fun _ => cmpF_iff (fun _ => decide_eq_true_iff) _ _,
      landsMask_of_laneCompare rfl fun _ => Bool.or_eq_true_iff, landsPure_of_lanePure rfl⟩
    case abs => rw [absF, clearSign_eq_ofNat]
    case neg => rw [negF, flipSign_eq_ofNat]
  case extremes =>
    split
    next hnan => exact ⟨maxF_of_nan hnan, minF_of_nan hnan⟩
    next hnan =>
      obtain ⟨ha, hb⟩ := not_or.1 hnan
      exact ⟨maxF_eq ha hb, minF_eq_ite_laneOrder ha hb⟩

end Sys2Proof.Machine
end

section
/-! PROOF. O17: quantisation, dequantisation and sparsity (R154 to R156, R158). -/

namespace Sys2Proof.Machine

/-! ### The image in a register (R155) -/

theorem leBytes_leNat (l : List Byte) : leBytes l.length (leNat l) = l := by
  induction l with
  | nil => rfl
  | cons x t ih =>
    have hx : x.toNat < 256 := x.isLt
    have hhead : BitVec.ofNat 8 (x.toNat + 256 * leNat t) = x := BitVec.eq_of_toNat_eq (by rw [BitVec.toNat_ofNat]; omega)
    rw [List.length_cons, leBytes, leNat, hhead, show (x.toNat + 256 * leNat t) / 256 = leNat t by omega, ih]

theorem leNat_lt (l : List Byte) : leNat l < 256 ^ l.length := by
  have h := Nat.mod_lt (leNat l) (Nat.pow_pos (n := l.length) (show 0 < 256 by decide))
  rwa [← leNat_leBytes, leBytes_leNat] at h

/-- R44: a register that holds 128 bytes. -/
theorem leBytes_vregOfNat {l : List Byte} (hl : l.length = 128) : leBytes 128 (vregNat (vregOfNat (leNat l))) = l := by
  have hlt := leNat_lt l
  rw [hl, pow256, show 8 * 128 = 1024 from rfl] at hlt
  rw [vregNat_vregOfNat, Nat.mod_eq_of_lt hlt, ← hl, leBytes_leNat]

theorem quantImage_length (width : Nat) (codes : List Nat) (starts : List Bool) (scales : List Nat) :
    (quantImage width codes starts scales).length = 128 := by
  simp [quantImage, Function.comp_def]

/-! ### What a read of a format register leaves of its slot (R147) -/

theorem State.readFmt_eq (s : State) (n : Nat) :
    s.readFmt n = (s.focus.addRead (.fmt s.focus.firing.ctx s.focus.firing.lc n), (s.fmtSeen s.focus n).1) := rfl

section
variable (f : Slot) (x : Loc)

@[simp] theorem Slot.modeOf_addRead (n : Nat) : (f.addRead x).modeOf n = f.modeOf n := rfl

@[simp] theorem Slot.draw_addRead (l : Nat) : (f.addRead x).draw l = f.draw l := rfl

@[simp] theorem Slot.on_addRead (q : BitVec 3) (l : Nat) : (f.addRead x).on q l = f.on q l := rfl

end

/-! ### The ranking (R158) -/

/-- R158: a lane is kept where fewer than k others of its list beat it. -/
theorem mem_keepTop (k n : Nat) (score : Nat → Nat) (p : Nat → Bool) (i : Nat) :
    i ∈ keepTop k score ((List.range n).filter p) ↔ (i < n ∧ p i = true)
      ∧ ((Finset.range n).filter fun j => p j = true ∧ (score i < score j ∨ score i = score j ∧ j < i)).card < k := by
  rw [keepTop, List.mem_filter, List.mem_filter, List.mem_range, List.filter_filter, length_filter_range]
  simp only [decide_eq_true_eq, Bool.and_eq_true, Bool.or_eq_true, and_comm (b := p _ = true)]

section
variable {s : State} {q : BitVec 3} {l : Nat} (hl : l < 32) (hon : activeLane s q l = true) (score : Nat → Nat)
include hl hon

/-- R158: VTOPK keeps an active lane that fewer than k active lanes beat. -/
theorem mem_keepTop_activeLanes (k : Nat) : l ∈ keepTop k score (s.focus.activeLanes q) ↔
    ((Finset.range 32).filter fun j => activeLane s q j = true
      ∧ (score l < score j ∨ score l = score j ∧ j < l)).card < k :=
  (mem_keepTop k 32 score (activeLane s q) l).trans (and_iff_right ⟨hl, hon⟩)

/-- R158: VSP24 keeps an active lane that fewer than two active lanes of its group of four beat. -/
theorem mem_keepTop_group : l ∈ keepTop 2 score ((s.focus.activeLanes q).filter fun j => j / 4 = l / 4) ↔
    ((Finset.range 32).filter fun j => activeLane s q j = true ∧ j / 4 = l / 4
      ∧ (score l < score j ∨ score l = score j ∧ j < l)).card < 2 := by
  have hgroup := mem_keepTop 2 32 score (fun j => activeLane s q j && decide (j / 4 = l / 4)) l
  have hfilter : (s.focus.activeLanes q).filter (fun j => j / 4 = l / 4)
      = (List.range 32).filter fun j => activeLane s q j && decide (j / 4 = l / 4) := by
    rw [Slot.activeLanes, List.filter_filter]
    exact List.filter_congr fun j _ => Bool.and_comm ..
  rw [hfilter, hgroup]
  simp only [Bool.and_eq_true, decide_eq_true_eq, hl, hon, true_and, and_assoc]

end

/-- Settles O17: VQUANT writes the 128 bytes of its image, VDQ is `lanewise` after the read of FMTk, VTOPK and VSP24 are `lanePure`
of the lanes that `keepTop` keeps. -/
theorem quantisationAndSparsity : Obligations.QuantisationAndSparsity := by
  unfold Obligations.QuantisationAndSparsity
  intro k d a b q s f c p F reads mode blocks el r beats
  have hfmt : bitsOf (s.focus.gr b) 2 0 = c % 8 := bitsOf_low ..
  have hrm : bitsOf (s.focus.gr b) 5 3 = c / 8 % 8 := bitsOf_eq ..
  refine ⟨⟨_, ?quant, leBytes_vregOfNat (quantImage_length ..)⟩, ?dq, landsPure_of_values rfl fun l hl hon => ?topk,
    landsPure_of_values rfl fun l hl hon => ?sp24⟩
  case quant =>
    change execVquant k d a b q s = _
    simp only [execVquant, hfmt, hrm, State.readFmt_eq, Slot.modeOf_addRead, Slot.draw_addRead, Slot.on_addRead]
    rfl
  case dq => exact does_of_lanewise rfl
  case topk =>
    simp only [mem_keepTop_activeLanes hl hon]
    rfl
  case sp24 =>
    simp only [mem_keepTop_group hl hon, decide_eq_true_eq]
    rfl

end Sys2Proof.Machine
end

section
/-! PROOF. O46: VLAW (R157). -/

namespace Sys2Proof.Machine

/-! ### What VLAW writes (R157) -/

section
variable {e : Law} (v : VReg) (on : Nat → Bool) (dt j : Nat)

/-- R157: KIND 0 evaluates no lane. -/
theorem vlawLane_kind0 (h : e.kind = 0) : vlawLane e v on dt j = none := by
  simp [vlawLane, h]

theorem vlawLane_kind1 (h : e.kind = 1) :
    vlawLane e v on dt j = if on j then some (lawEval e (laneAt v j) 0 dt) else none := if_pos h

theorem vlawLane_pair (h : e.kind = 2 ∨ e.kind = 3) : vlawLane e v on dt j =
    if on (j - j % 2) then some (lawEval e (laneAt v (j - j % 2)) (laneAt v (j - j % 2 + 1)) dt) else none := by
  rw [vlawLane, if_neg (by omega), if_pos h]

/-- R157: lane j after VLAW: the value of its evaluation, or what it held where it is not evaluated. -/
def vlawResult (e : Law) (v : VReg) (on : Nat → Bool) (dt j : Nat) : Lane :=
  match vlawLane e v on dt j with
  | none => laneAt v j
  | some x => if j % 2 = 0 ∨ e.kind = 1 then x.a else x.b

/-- R157: the evaluations that VLAW makes, one for a lane or for a pair of lanes. -/
def vlawRuns (e : Law) (v : VReg) (on : Nat → Bool) (dt : Nat) : List LawOut :=
  (List.range 32).filterMap fun l => if e.kind = 1 ∨ l % 2 = 0 then vlawLane e v on dt l else none

theorem vlawResult_kind0 (h : e.kind = 0) : vlawResult e v on dt j = laneAt v j := by
  rw [vlawResult, vlawLane_kind0 v on dt j h]

theorem vlawResult_kind1 (h : e.kind = 1) :
    vlawResult e v on dt j = if on j then (lawEval e (laneAt v j) 0 dt).a else laneAt v j := by
  rw [vlawResult, vlawLane_kind1 v on dt j h]
  cases on j
  case false => rfl
  case true => exact if_pos (.inr h)

theorem vlawResult_pair (h : e.kind = 2 ∨ e.kind = 3) : vlawResult e v on dt j =
    if on (j - j % 2) then
      (if j % 2 = 0 then (lawEval e (laneAt v (j - j % 2)) (laneAt v (j - j % 2 + 1)) dt).a
       else (lawEval e (laneAt v (j - j % 2)) (laneAt v (j - j % 2 + 1)) dt).b)
    else laneAt v j := by
  have hk : e.kind ≠ 1 := by omega
  rw [vlawResult, vlawLane_pair v on dt j h]
  cases on (j - j % 2)
  case false => rfl
  case true => simp only [if_true, hk, or_false]

end

/-! ### What VLAW does (R140, R157) -/

section
variable {k : Bool} {d a b : BitVec 5} {q : BitVec 3} {s : State}

/-- R140: the exceptions, waits and misses of the read of the law entry are those of VLAW. -/
theorem exec_vlaw_of_error {er : Stop} (h : s.loadLaw s.focus ((s.focus.gr a).toNat % 256) = .error er) :
    exec (.vlaw k d a b q) s = s.finish (.error er) := by
  change s.finish (s.loadLaw s.focus ((s.focus.gr a).toNat % 256) >>= _) = _
  rw [h]
  rfl

variable {g : Slot} {l : List Byte} (h : s.loadLaw s.focus ((s.focus.gr a).toNat % 256) = .ok (g, l))
include h

/-- R140: a reserved KIND raises RWFMT. -/
theorem vlaw_reserved (hkind : 3 < (Law.ofBytes l).kind) :
    Raises (.vlaw k d a b q) s .rwfmt (s.myCtx.lawAddr ((s.focus.gr a).toNat % 256)) 0 := by
  change s.finish (s.loadLaw s.focus ((s.focus.gr a).toNat % 256) >>= _) = _
  rw [h]
  change s.finish (refuseIf (decide (3 < (Law.ofBytes l).kind)) .rwfmt _ 0 >>= _) = _
  rw [decide_eq_true hkind]
  rfl

/-- R157: VLAW under a KIND that is not reserved. -/
theorem vlaw_does (hkind : (Law.ofBytes l).kind ≤ 3) :
    let e := Law.ofBytes l
    let runs := vlawRuns e (s.focus.vr d) (activeLane s q) (vlawDelta (s.focus.gr b))
    Does (.vlaw k d a b q) s
      ((((g.landV d (vecOf (vlawResult e (s.focus.vr d) (activeLane s q) (vlawDelta (s.focus.gr b))))).raiseLate
        (runs.foldl (fun w x => w ||| x.flags) 0)).addHidden (runs.filter fun x => x.sat).length).advance k) := by
  change s.finish (s.loadLaw s.focus ((s.focus.gr a).toNat % 256) >>= _) = _
  rw [h]
  change s.finish (refuseIf (decide (3 < (Law.ofBytes l).kind)) .rwfmt _ 0 >>= _) = _
  rw [decide_eq_false (not_lt.2 hkind)]
  rfl

end

/-- Settles O46: VLAW lands `vlawResult` of each lane, whose cases by KIND the lemmas above give. -/
theorem vectorLawResults : Obligations.VectorLawResults := by
  unfold Obligations.VectorLawResults
  intro k d a b q s f i raw dt
  have hdt : vlawDelta (f.gr b) = dt := rfl
  refine ⟨fun g l hload => ⟨vlaw_reserved hload, fun hkind => ⟨_, _, _, vlaw_does hload hkind, fun h0 => ?kind0,
    fun j hj hne => (vecOf_getElem _ hj).trans ?evaluated⟩⟩, fun er => exec_vlaw_of_error⟩
  case kind0 =>
    exact Vector.ext fun j hj =>
      (vecOf_getElem _ hj).trans ((vlawResult_kind0 _ _ _ _ h0).trans (laneAt_of_lt _ hj))
  case evaluated =>
    rw [hdt]
    by_cases h1 : (Law.ofBytes l).kind = 1
    · rw [if_pos h1]
      exact vlawResult_kind1 _ _ _ _ h1
    · rw [if_neg h1]
      exact vlawResult_pair _ _ _ _ (by omega)

end Sys2Proof.Machine
end


section
/-! SUPPORT. O19: the check of an access (R163, R203, R205, R324, R427): the region of an address, what a stage class refuses, and
the check in each region. -/

namespace Sys2Proof.Machine

/-! ### The region of an address (R427) -/

theorem regionOf_eq_nowhere_iff (a : Word) : regionOf a = .nowhere ↔ noRegion a.toNat := by
  unfold regionOf noRegion
  dsimp only
  split_ifs <;> simp only [false_iff, true_iff] <;> omega

theorem regionOf_host {a : Word} (hlow : 0x80000000000000 ≤ a.toNat) (hhigh : a.toNat < 0xC0000000000000) :
    regionOf a = .host (a.toNat - 0x80000000000000) := by
  unfold regionOf
  dsimp only
  rw [if_neg (by omega), if_neg (by omega), if_pos hhigh]

theorem regionOf_remote {a : Word} (hlow : 0xFFFE0000000000 ≤ a.toNat) (hhigh : a.toNat < 0xFFFF0000000000) :
    regionOf a = .remote (a.toNat / 2 ^ 24 % 2 ^ 16) (a.toNat % 2 ^ 24) := by
  unfold regionOf
  dsimp only
  rw [if_neg (by omega), if_neg (by omega), if_neg (by omega), if_neg (by omega), if_pos hhigh]
  simp [natBits, Nat.shiftRight_eq_div_pow]

theorem regionOf_own {a : Word} (hlow : 0xFFFF0000000000 ≤ a.toNat) (hhigh : a.toNat < 2 ^ 56) :
    regionOf a = .own (a.toNat / 2 ^ 24 % 2 ^ 16) (a.toNat % 2 ^ 24) := by
  unfold regionOf
  dsimp only
  rw [if_neg (by omega), if_neg (by omega), if_neg (by omega), if_neg (by omega), if_neg (by omega),
    if_pos (show a.toNat < 0x100000000000000 from hhigh)]
  simp [natBits, Nat.shiftRight_eq_div_pow]

/-- R427: the own scratchpad's range is the addresses of that region. -/
theorem isOwn_regionOf (a : Word) :
    (regionOf a).isOwn = decide (0xFFFF0000000000 ≤ a.toNat ∧ a.toNat < 2 ^ 56) := by
  unfold regionOf
  dsimp only
  split_ifs <;> simp [Region.isOwn] <;> omega

/-! ### The check by region (R203) -/

section
variable {s : State} {f : Slot} {a : Word} {size : Nat} {op : AccOp} {win : Bool}

/-- R324: a stage class that refuses an access refuses it before R203's checks. -/
theorem State.access_refused {n : Nat} (hcls : s.stageClass f.firing = some n) (href : classRefuses (some n) op = true)
    (hown : (regionOf a).isOwn = false) : s.access f a size op win = .error (.exc .rights a (BitVec.ofNat 64 (n + 1)) 0) := by
  unfold State.access
  rw [hcls]
  exact if_pos (by simp [href, hown])

/-- R324: an access that the stage class of its firing, if any, does not refuse. -/
def State.Admits (s : State) (f : Slot) (a : Word) (op : AccOp) : Prop :=
  classRefuses (s.stageClass f.firing) op = false ∨ (0xFFFF0000000000 ≤ a.toNat ∧ a.toNat < 2 ^ 56)

section
variable (h : s.Admits f a op)
include h

theorem State.Admits.not_refused : ¬ (classRefuses (s.stageClass f.firing) op && !(regionOf a).isOwn) = true := by
  rw [isOwn_regionOf]
  rcases h with hpass | hown
  · simp [hpass]
  · rw [decide_eq_true hown, Bool.not_true, Bool.and_false]
    exact Bool.false_ne_true

theorem State.access_nowhere (hr : regionOf a = .nowhere) : s.access f a size op win = excAt .rights a := by
  unfold State.access
  dsimp only
  rw [if_neg h.not_refused, hr]

theorem State.access_misaligned (hr : regionOf a ≠ .nowhere) (halign : a.toNat % size ≠ 0) :
    s.access f a size op win = excAt .misalign a := by
  unfold State.access
  dsimp only
  rw [if_neg h.not_refused]
  split
  next hnone => exact absurd hnone hr
  all_goals exact if_pos halign

section
variable (halign : a.toNat % size = 0)
include halign

theorem State.access_device (hr : regionOf a = .device) : s.access f a size op win = s.deviceAccess f a op := by
  unfold State.access
  dsimp only
  rw [if_neg h.not_refused, hr]
  exact if_neg (not_not.2 halign)

theorem State.access_own {w off : Nat} (hr : regionOf a = .own w off) :
    s.access f a size op win = s.scratchAccess f a win (.own w off) := by
  unfold State.access
  dsimp only
  rw [if_neg h.not_refused, hr]
  exact if_neg (not_not.2 halign)

theorem State.access_remote {n off : Nat} (hr : regionOf a = .remote n off) :
    s.access f a size op win = s.scratchAccess f a win (.remote n off) := by
  unfold State.access
  dsimp only
  rw [if_neg h.not_refused, hr]
  exact if_neg (not_not.2 halign)

/-- R193, R203: host memory takes no atomic, and a load waits for the host's answer. -/
theorem State.access_host {off : Nat} (hr : regionOf a = .host off) : s.access f a size op win =
    if op = .amo ∨ op = .post then excAt .rights a
    else if op = .store ∨ a ∈ f.hosts then .ok (.hostMem off) else .error (.park (.host a) []) := by
  unfold State.access
  dsimp only
  rw [if_neg h.not_refused, hr]
  exact if_neg (not_not.2 halign)

end

end

/-! ### Device memory (R205, R270, R382) -/

theorem State.deviceAccess_zero (hz : a ∈ f.zeros) : s.deviceAccess f a op = .ok .zero := if_pos hz

theorem State.deviceAccess_miss (hz : a ∉ f.zeros) (htlb : tlbFind (s.coreOf f.core).tlb f.firing.ctx a = none) :
    s.deviceAccess f a op = .error (.miss a (if op = .load then 0 else 1)) := by
  unfold State.deviceAccess
  dsimp only
  rw [if_neg hz, htlb]

theorem Ctx.inTables_iff (c : Ctx) (a : Word) :
    c.inTables a = true ↔ c.objbase.toNat ≤ a.toNat ∧ a.toNat < c.objbase.toNat + 0x420140 := by
  simp [Ctx.inTables]

section
variable {e : TlbEntry} (hz : a ∉ f.zeros) (htlb : tlbFind (s.coreOf f.core).tlb f.firing.ctx a = some e)
include hz htlb

theorem State.deviceAccess_load : s.deviceAccess f a .load =
    if e.r = false then excAt .rights a
    else if (s.ctxFor f).objbase.toNat + 0x400000 ≤ a.toNat ∧ a.toNat < (s.ctxFor f).objbase.toNat + 0x420140 then
      .ok (.live (a.toNat - (s.ctxFor f).objbase.toNat - 0x400000))
    else .ok (s.placeOf e a) := by
  have hmirror : ((s.ctxFor f).inTables a = true ∧ (s.ctxFor f).objbase.toNat + 0x400000 ≤ a.toNat) ↔
      ((s.ctxFor f).objbase.toNat + 0x400000 ≤ a.toNat ∧ a.toNat < (s.ctxFor f).objbase.toNat + 0x420140) := by
    rw [Ctx.inTables_iff]
    omega
  unfold State.deviceAccess
  dsimp only
  rw [if_neg hz, htlb]
  dsimp only
  rw [if_pos rfl]
  simp only [hmirror, Bool.not_eq_true']

theorem State.deviceAccess_write (hop : op ≠ .load) : s.deviceAccess f a op =
    if e.w = true ∧ e.ro = false
      ∧ ¬ ((s.ctxFor f).objbase.toNat ≤ a.toNat ∧ a.toNat < (s.ctxFor f).objbase.toNat + 0x420140) then .ok (s.placeOf e a)
    else excAt .rights a := by
  unfold State.deviceAccess
  dsimp only
  rw [if_neg hz, htlb]
  dsimp only
  rw [if_neg hop]
  simp only [← Ctx.inTables_iff, Bool.and_eq_true, Bool.not_eq_true', and_assoc, Bool.not_eq_true]

end

theorem tlbFind_ctx {t : List TlbEntry} {ctx : Nat} {va : Word} {e : TlbEntry} (h : tlbFind t ctx va = some e) :
    e.ctx = ctx := by
  have hfound := List.find?_some h
  simp only [Bool.and_eq_true, decide_eq_true_eq] at hfound
  exact hfound.1

/-- R382: without a migration an access has the attributes of its entry. -/
theorem State.attrOf_of_no_migs (hmigs : s.migs = []) (e : TlbEntry) : s.attrOf e a = e.attr := by simp [State.attrOf, hmigs]

/-! ### The scratchpads (R163) -/

section
variable {w n off : Nat}

theorem State.scratchAccess_remote : s.scratchAccess f a win (.remote n off) =
    if n < 4096 ∧ (s.lcOf f.firing.ctx n).valid = true ∧ off < (s.lcOf f.firing.ctx n).lsz then
      .ok (.cells (scratchKey f.firing.ctx n off) {}) else excAt .bounds a := rfl

theorem State.scratchAccess_own : s.scratchAccess f a win (.own 0 off) =
    if off < (s.lcOf f.firing.ctx f.firing.lc).lsz then .ok (.cells (scratchKey f.firing.ctx f.firing.lc off) {})
    else excAt .bounds a := rfl

/-- R163: a window that is none, or an instruction that may not use one. -/
theorem State.scratchAccess_noWindow (hw : w ≠ 0) (h : win = false ∨ 8 < w) :
    s.scratchAccess f a win (.own w off) = excAt .rights a := by
  unfold State.scratchAccess
  dsimp only
  rw [if_neg hw]
  by_cases hle : w ≤ 8
  · rw [if_pos hle, h.resolve_right (by omega)]
    rfl
  · exact if_neg hle

theorem State.scratchAccess_window (hw : w ≠ 0) (hle : w ≤ 8) : s.scratchAccess f a true (.own w off) =
    if off < (if (fmtOfWord (s.fmtSeen f (w - 1)).1).width = 4 then 8 else 4) * (s.lcOf f.firing.ctx f.firing.lc).lsz then
      .ok (.window w off) else excAt .bounds a := by
  unfold State.scratchAccess
  dsimp only
  rw [if_neg hw, if_pos hle]
  rfl

end

end

/-- Settles O19: the check in each region, and the stage class's refusal before it. -/
theorem accessChecks : Obligations.AccessChecks := by
  unfold Obligations.AccessChecks
  refine ⟨fun s f a size op win => ?_, fun s f a size op win n hcls href hown => ?refused⟩
  case refused =>
    refine State.access_refused hcls ?_ (by rw [isOwn_regionOf]; exact decide_eq_false hown)
    rcases href with ⟨rfl, hop⟩ | ⟨rfl, rfl | rfl⟩
    · exact decide_eq_true hop
    · rfl
    · rfl
  intro x w off c own got h
  replace h : s.Admits f a op := h
  refine ⟨fun hno => State.access_nowhere h ((regionOf_eq_nowhere_iff a).2 hno),
    fun hsome halign => State.access_misaligned h (mt (regionOf_eq_nowhere_iff a).1 hsome) halign,
    fun hx halign => ?device, fun hlow hhigh halign => ?own, fun hlow hhigh halign => ?remote, fun hlow hhigh halign => ?host⟩
  case device =>
    have hgot : got = s.deviceAccess f a op := State.access_device h halign (regionOf_device hx)
    rw [hgot]
    refine ⟨State.deviceAccess_zero, State.deviceAccess_miss, fun e hz htlb => ⟨?_, State.deviceAccess_write hz htlb,
      fun hmigs => ⟨State.home_of_no_migs hmigs _, ?_⟩⟩⟩
    · rintro rfl
      exact State.deviceAccess_load hz htlb
    · rw [State.attrOf_of_no_migs hmigs, TlbEntry.attr, tlbFind_ctx htlb]
  case own =>
    have hgot : got = s.scratchAccess f a win (.own w off) := State.access_own h halign (regionOf_own hlow hhigh)
    rw [hgot]
    refine ⟨fun hw => ?_, State.scratchAccess_noWindow, fun hw hwin hle => ?_⟩
    · rw [hw]
      exact State.scratchAccess_own
    · rw [hwin]
      exact State.scratchAccess_window hw hle
  case remote => exact State.access_remote h halign (regionOf_remote hlow hhigh)
  case host =>
    have hgot : got = _ := State.access_host h halign (regionOf_host hlow hhigh)
    rw [hgot]
    refine ⟨fun hop => if_pos hop, fun hop => ?_, fun hop hanswer => ?_⟩
    · rw [if_neg (by rcases hop with rfl | ⟨rfl, -⟩ <;> simp), if_pos (hop.imp_right And.right)]
    · rw [if_neg (by simp [hop]), if_neg (by simp [hop, hanswer])]

end Sys2Proof.Machine
end


section
/-! SUPPORT. O29: DG.RD and DG.MODE (R233), and the tile instructions (R174, R175, R234 to R237): the checks in order, the wait while
a tile is FILLING or DRAINING, and what is held. -/

namespace Sys2Proof.Machine

/-! ### An instruction by its checks in order (R60) -/

section
variable {i : Instr} {s : State} {t : Try Slot} (hi : exec i s = s.finish t)
include hi

theorem raises_of_finish {c : Cause} {i0 i1 : Word} (ht : t = .error (.exc c i0 i1 0)) : Raises i s c i0 i1 :=
  hi.trans (congrArg s.finish ht)

theorem does_of_finish {g : Slot} (ht : t = .ok g) : Does i s g := hi.trans (congrArg s.finish ht)

/-- R66: the slot waits, with the place that it waits for in its read set. -/
theorem does_of_park {w : Wait} {l : Loc} (ht : t = .error (.park w [l])) :
    Does i s { s.focus.addRead l with wait := w } := hi.trans (congrArg s.finish ht)

end

section
variable {α : Type} {c : Bool} {x : Cause} {i0 i1 : Word} {next : Unit → Try α} {r : Try α}

theorem refuseIf_refuses (h : c = true) : (refuseIf c x i0 i1 >>= next) = .error (.exc x i0 i1 0) := by
  rw [h]
  rfl

theorem refuseIf_passes (h : c = false) (hnext : next () = r) : (refuseIf c x i0 i1 >>= next) = r := by
  rw [h]
  exact hnext

/-! ### The state of a tile (R174, R175) -/

/-- R175: FILLING and DRAINING are the odd states. -/
theorem Tile.busy_iff (t : Tile) : t.state % 2 = 1 ↔ t.state = 1 ∨ t.state = 3 := by
  have hlt : t.state < 4 := Nat.mod_lt _ (by decide)
  omega

variable {s : State} {f : Slot} {n : Nat}

theorem State.tileSettled_waits (h : (s.tileSeen f n).state = 1 ∨ (s.tileSeen f n).state = 3) :
    (s.tileSettled f n >>= next) = .error (.park (.tile n) [f.tileLoc n]) := by
  rw [State.tileSettled, if_pos ((Tile.busy_iff _).2 h)]
  rfl

theorem State.tileSettled_passes (h : ¬ ((s.tileSeen f n).state = 1 ∨ (s.tileSeen f n).state = 3)) (hnext : next () = r) :
    (s.tileSettled f n >>= next) = r := by
  rw [State.tileSettled, if_neg (mt (Tile.busy_iff _).1 h)]
  exact hnext

end

/-! ### TILE.DEF (R234) -/

/-- R234: what TILE.DEF refuses of a descriptor. -/
theorem tileDefBad_iff (x : Word) :
    (decide (bitsOf x 30 29 ≠ 0) || decide (bitsOf x 63 41 ≠ 0) || decide (16384 < bitsOf x 28 14)) = true ↔
      x.toNat / 2 ^ 29 % 4 ≠ 0 ∨ x.toNat / 2 ^ 41 ≠ 0 ∨ 16384 < x.toNat / 2 ^ 14 % 2 ^ 15 := by
  simp [bitsOf_top, bitsOf_eq, or_assoc]

/-- R234: whether a tile of a descriptor reaches beyond a scratchpad. -/
theorem tileDefOutside_iff (x : Word) (lsz : Nat) : decide (lsz < (bitsOf x 13 0 + bitsOf x 28 14) * 128) = true ↔
    lsz < (x.toNat % 2 ^ 14 + x.toNat / 2 ^ 14 % 2 ^ 15) * 128 := by
  simp [bitsOf_eq]

theorem tileDefIndex_eq (x : Word) : tileDefIndex x = x.toNat / 2 ^ 35 % 2 ^ 6 := bitsOf_eq x 40 35

/-- Settles O29: TILE.DEF and TILE.ST make their checks in order; the other instructions answer at once. -/
theorem digestAndTileInstructions : Obligations.DigestAndTileInstructions := by
  unfold Obligations.DigestAndTileInstructions
  intro k d a b s f x y t e loc base size idx defBad outside busy
  have hlegal (h : ¬ defBad) := Bool.eq_false_iff.2 (mt (tileDefBad_iff x).1 h)
  have hin (h : ¬ outside) := Bool.eq_false_iff.2 (mt (tileDefOutside_iff x s.myLc.lsz).1 h)
  have hidx : tileDefIndex x = idx := tileDefIndex_eq x
  have heven (h : y.toNat % 2 = 0) : decide (bitsOf y 0 0 = 1) = false := decide_eq_false (by rw [bitsOf_low]; omega)
  have hbit : y.getLsbD 0 = decide (y.toNat % 2 = 1) := Nat.testBit_zero y.toNat
  refine ⟨rfl, fun hmode => congrArg s.finish (if_neg hmode), fun hmode => congrArg s.finish (if_pos hmode),
    fun hbad => raises_of_finish rfl (refuseIf_refuses ((tileDefBad_iff x).2 hbad)),
    fun hok hout => raises_of_finish rfl (refuseIf_passes (hlegal hok) (refuseIf_refuses ((tileDefOutside_iff x _).2 hout))),
    fun hok hfit hbusy => ?defWaits, fun hok hfit hidle => ?defHolds,
    fun hy => raises_of_finish rfl (refuseIf_refuses (decide_eq_true hy)),
    fun hy hsize => raises_of_finish rfl (refuseIf_passes (heven hy) (refuseIf_refuses (decide_eq_true hsize))),
    fun hy hsize hbusy => ?stWaits, fun hy hsize hidle => ?stHolds, fun hy => ?word, fun hy => ?counts,
    fun hsize => congrArg s.finish (if_pos hsize), fun hsize => congrArg s.finish (if_neg hsize)⟩
  case defWaits =>
    rw [← hidx] at hbusy ⊢
    exact does_of_park rfl (refuseIf_passes (hlegal hok) (refuseIf_passes (hin hfit) (State.tileSettled_waits hbusy)))
  case defHolds =>
    rw [← hidx] at hidle ⊢
    exact does_of_finish rfl (refuseIf_passes (hlegal hok) (refuseIf_passes (hin hfit) (State.tileSettled_passes hidle rfl)))
  case stWaits =>
    exact does_of_park rfl (refuseIf_passes (heven hy) (refuseIf_passes (decide_eq_false hsize) (State.tileSettled_waits hbusy)))
  case stHolds =>
    exact does_of_finish rfl
      (refuseIf_passes (heven hy) (refuseIf_passes (decide_eq_false hsize) (State.tileSettled_passes hidle rfl)))
  case word => exact if_neg (ne_true_of_eq_false (hbit.trans (decide_eq_false (by omega))))
  case counts => exact if_pos (hbit.trans (decide_eq_true hy))

end Sys2Proof.Machine
end


section
/-! SUPPORT. O43: what a load of a range leaves of a slot (R182, R206), and the task-table instructions (R227 to R229). -/

namespace Sys2Proof.Machine

/-! ### Computations that may stop, one after the other -/

section
variable {α β : Type} {x : Try β} {next : β → Try α} {r : Try α}

theorem bind_of_ok {b : β} (h : x = .ok b) (hnext : next b = r) : (x >>= next) = r := by
  rw [h]
  exact hnext

theorem bind_of_error {e : Stop} (h : x = .error e) : (x >>= next) = .error e := by
  rw [h]
  rfl

end

/-! ### A chunk that has only read (R182, R206) -/

/-- R182: a slot that has only read, and whose further reads find what those of the other find. -/
structure ReadOn (f g : Slot) : Prop extends OnlyRead f g where
  firing : g.firing = f.firing
  core : g.core = f.core
  zeros : g.zeros = f.zeros
  hosts : g.hosts = f.hosts
  filled : g.filled = f.filled
  bases : g.chunk.bases = f.chunk.bases

section
variable {f g h : Slot}

theorem ReadOn.refl (f : Slot) : ReadOn f f := ⟨.refl f, rfl, rfl, rfl, rfl, rfl, rfl⟩

theorem ReadOn.trans (a : ReadOn f g) (b : ReadOn g h) : ReadOn f h :=
  ⟨a.toOnlyRead.trans b.toOnlyRead, b.firing.trans a.firing, b.core.trans a.core, b.zeros.trans a.zeros,
    b.hosts.trans a.hosts, b.filled.trans a.filled, b.bases.trans a.bases⟩

theorem ReadOn.addRead (h : ReadOn f g) (l : Loc) : ReadOn f (g.addRead l) :=
  h.trans ⟨(OnlyRead.refl g).addRead l, rfl, rfl, rfl, rfl, rfl, rfl⟩

theorem ReadOn.addReadBytes : ∀ (n k : Nat) {g : Slot}, ReadOn f g → ReadOn f (g.addReadBytes k n)
  | 0, _, _, h => h
  | n + 1, k, _, h => ReadOn.addReadBytes n (k + 1) (h.addRead (.byte k))

theorem ReadOn.readBytes (f : Slot) (k n : Nat) : ReadOn f (f.readBytes k n) :=
  (ReadOn.addReadBytes n k (.refl f)).trans ⟨⟨rfl, rfl, rfl, rfl⟩, rfl, rfl, rfl, rfl, rfl, rfl⟩

end

section
variable (s : State)

theorem State.readKey_readOn (f : Slot) (a : Word) (k : Nat) (at' : Attr) (n : Nat) :
    Gives (fun r => ReadOn f r.1) (s.readKey f a k at' n) := by
  unfold State.readKey
  refine .ite .error ?_
  split
  · exact .error
  · exact .ok (ReadOn.readBytes f k n)

/-- R206: a load of a range only reads. -/
theorem State.loadRange_readOn (size : Nat) : ∀ (fuel : Nat) (f : Slot) (a : Word) (n : Nat),
    Gives (fun r => ReadOn f r.1) (s.loadRange size fuel f a n)
  | 0, f, _, _ => .ok (.refl f)
  | fuel + 1, f, a, n => by
    unfold State.loadRange
    refine .ite (.ok (.refl f)) (.bind (Q := fun r => ReadOn f r.1) ?_ fun r hr =>
      .bind (State.loadRange_readOn size fuel r.1 _ _) fun _ ht => .ok (hr.trans ht))
    split
    case h_1 => exact .error
    case h_2 => exact s.readKey_readOn f a _ _ _
    all_goals exact .ok (.refl f)

end

/-! ### The entries that TT.WR reads (R182, R228) -/

theorem mem_addNew_of_mem {α : Type} [DecidableEq α] {l : List α} {a : α} (h : a ∈ l) (b : α) : a ∈ addNew l b := by
  unfold addNew
  split
  · exact h
  · exact List.mem_cons_of_mem b h

/-- R228: one entry of a logical core enters the read set. -/
def Slot.readEntry (lc : Nat) (f : Slot) (i : Nat) : Slot := f.addRead (.tt f.firing.ctx lc i)

/-- R182: entries that enter the read set stay there. -/
theorem mem_rset_foldl_readEntry {x : Loc} (lc : Nat) (l : List Nat) (f : Slot) (h : x ∈ f.chunk.rset) :
    x ∈ (l.foldl (Slot.readEntry lc) f).chunk.rset :=
  foldl_keeps (P := fun g : Slot => x ∈ g.chunk.rset) (fun _ _ h => mem_addNew_of_mem h _) l f h

theorem foldl_readEntry_mem (lc i : Nat) (l : List Nat) : ∀ f : Slot, i ∈ l →
    Loc.tt f.firing.ctx lc i ∈ (l.foldl (Slot.readEntry lc) f).chunk.rset := by
  induction l with
  | nil => exact fun _ h => absurd h List.not_mem_nil
  | cons j t ih =>
    intro f h
    rcases List.mem_cons.1 h with rfl | h
    · exact mem_rset_foldl_readEntry lc t _ (mem_addNew f.chunk.rset _)
    · exact ih (f.readEntry lc j) h

theorem Slot.readEntries_readOn (f : Slot) (lc ch : Nat) : ReadOn f (f.readEntries lc ch) :=
  foldl_keeps (P := ReadOn f) (fun _ _ h => h.addRead _) _ f (.refl f)

theorem Slot.mem_readEntries (f : Slot) (lc : Nat) {i ch : Nat} (hi : i < 64) (hne : i ≠ ch) :
    Loc.tt f.firing.ctx lc i ∈ (f.readEntries lc ch).chunk.rset :=
  foldl_readEntry_mem lc i _ f (List.mem_filter.2 ⟨List.mem_range.2 hi, decide_eq_true hne⟩)

/-! ### TT.RD, TT.BLK and TT.UBLK (R229) -/

section
variable {k : Bool} {d a b : BitVec 5} {s : State}

theorem taskTable_bounds (h : ¬ s.myCtx.defines (selLc (s.focus.gr a)) = true) :
    Raises (.ttWr k a b) s .bounds (s.focus.gr a) 0 ∧ Raises (.ttRd k d a b) s .bounds (s.focus.gr a) 0
      ∧ Raises (.ttBlk k a) s .bounds (s.focus.gr a) 0 ∧ Raises (.ttUblk k a) s .bounds (s.focus.gr a) 0 := by
  have hnot : (!s.myCtx.defines (selLc (s.focus.gr a))) = true := by simpa using h
  exact ⟨raises_of_finish rfl (refuseIf_refuses hnot), raises_of_finish rfl (if_pos hnot), raises_of_finish rfl (if_pos hnot),
    raises_of_finish rfl (if_pos hnot)⟩

section
variable (hdef : s.myCtx.defines (selLc (s.focus.gr a)) = true)
include hdef

theorem not_undefined : ¬ (!s.myCtx.defines (selLc (s.focus.gr a))) = true := by simp [hdef]

theorem ttRd_word (hj : (s.focus.gr b).toNat % 4 < 3) : Does (.ttRd k d a b) s
    (((s.focus.addRead (.tt s.focus.firing.ctx (selLc (s.focus.gr a)) (selCh (s.focus.gr a)))).landG d
      (if (s.focus.gr b).toNat % 4 = 0 then (s.ttSeen s.focus (selLc (s.focus.gr a)) (selCh (s.focus.gr a))).w0
        else if (s.focus.gr b).toNat % 4 = 1 then (s.ttSeen s.focus (selLc (s.focus.gr a)) (selCh (s.focus.gr a))).w1
        else (s.ttSeen s.focus (selLc (s.focus.gr a)) (selCh (s.focus.gr a))).w2)).advance k) := by
  refine does_of_finish rfl ((if_neg (not_undefined hdef)).trans ?_)
  have hbits : (s.focus.gr b).toNat % 4 = bitsOf (s.focus.gr b) 1 0 := rfl
  rw [hbits] at hj ⊢
  obtain h | h | h : bitsOf (s.focus.gr b) 1 0 = 0 ∨ bitsOf (s.focus.gr b) 1 0 = 1 ∨ bitsOf (s.focus.gr b) 1 0 = 2 := by omega
  all_goals
    rw [h]
    rfl

theorem ttRd_live (hj : (s.focus.gr b).toNat % 4 = 3) : Does (.ttRd k d a b) s
    ((s.focus.landG d (s.ttSeen s.focus (selLc (s.focus.gr a)) (selCh (s.focus.gr a))).w3).advance k) := by
  refine does_of_finish rfl ((if_neg (not_undefined hdef)).trans ?_)
  have hbits : (s.focus.gr b).toNat % 4 = bitsOf (s.focus.gr b) 1 0 := rfl
  rw [hbits] at hj
  rw [hj]
  rfl

/-! ### TT.WR (R166, R228) -/

theorem exec_ttWr_of_load_error {er : Stop} (hload : s.loadRange 8 3 s.focus (s.focus.gr b) 24 = .error er) :
    exec (.ttWr k a b) s = s.finish (.error er) :=
  congrArg s.finish (refuseIf_passes (Bool.eq_false_iff.2 (not_undefined hdef)) (bind_of_error hload))

/-- R228: a word of the image that TT.WR reads. -/
def imageWord (l : List Byte) (i : Nat) : Word := BitVec.ofNat 64 (leNat ((l.drop (8 * i)).take 8))

/-- R165, R228: the entry that an image gives. -/
def imageEntry (l : List Byte) : TTEntry := { w0 := imageWord l 0, w1 := imageWord l 1, w2 := imageWord l 2 }

/-- R166: the condition that the entry of an image breaks for the entry that TT.WR's selector names. -/
def State.ttWrBreaks (s : State) (sel : Word) (l : List Byte) : Option Nat :=
  if (imageWord l 1).getLsbD 6 then none
  else entryBreaks (s.lcOf s.focus.firing.ctx (selLc sel)).lsz (selCh sel) (imageEntry l) (s.ttSeen s.focus (selLc sel))

variable {g : Slot} {l : List Byte} (hload : s.loadRange 8 3 s.focus (s.focus.gr b) 24 = .ok (g, l))
include hload

theorem ttWr_raises {n : Nat} (hbreaks : s.ttWrBreaks (s.focus.gr a) l = some n) :
    Raises (.ttWr k a b) s .illop (BitVec.ofNat 64 (selCh (s.focus.gr a))) (BitVec.ofNat 64 n) := by
  refine raises_of_finish rfl (refuseIf_passes (Bool.eq_false_iff.2 (not_undefined hdef)) (bind_of_ok hload ?_))
  dsimp only
  split
  next m h =>
    obtain rfl := Option.some.inj (h.symm.trans hbreaks)
    rfl
  next h => exact absurd (h.symm.trans hbreaks) nofun

theorem ttWr_holds (hmeets : s.ttWrBreaks (s.focus.gr a) l = none) : Does (.ttWr k a b) s
    (((g.readEntries (selLc (s.focus.gr a)) (selCh (s.focus.gr a))).hold (.ttWr (s.focus.gr a)
      (imageWord l 0 &&& 0x00FFFFFFFFFFFFFF#64) (imageWord l 1 &&& 0x00FFFFFF07FFFFFF#64)
      (imageWord l 2 &&& 0xFFFFFF#64))).advance k) := by
  refine does_of_finish rfl (refuseIf_passes (Bool.eq_false_iff.2 (not_undefined hdef)) (bind_of_ok hload ?_))
  dsimp only
  split
  next m h => exact absurd (h.symm.trans hmeets) nofun
  next h => rfl

end

end

/-- Settles O43: an undefined logical core first; then the word read, or the load of the image and R166's conditions on it. -/
theorem taskTableInstructions : Obligations.TaskTableInstructions := by
  unfold Obligations.TaskTableInstructions
  intro k d a b s f sel lc ch e j defined
  have hch : ch = selCh sel := (bitsOf_eq sel 17 12).symm
  clear_value ch
  subst hch
  refine ⟨taskTable_bounds, fun hdef => ⟨does_of_finish rfl (if_neg (not_undefined hdef)),
    does_of_finish rfl (if_neg (not_undefined hdef))⟩, ttRd_word, ttRd_live, fun g l hdef hload => ⟨fun hmeets => ?holds,
    fun n hbreaks => ttWr_raises hdef hload hbreaks⟩, fun er hdef hload => exec_ttWr_of_load_error hdef hload⟩
  case holds =>
    have hread := s.loadRange_readOn 8 3 _ _ _ _ hload
    have hentries := g.readEntries_readOn lc (selCh sel)
    refine ⟨_, ttWr_holds hdef hload hmeets, hentries.reg, hentries.land, hentries.wbuf, hentries.held, fun i hi hne => ?_⟩
    have hmem := g.mem_readEntries lc hi hne
    rwa [hread.firing] at hmem

end Sys2Proof.Machine
end


section
/-! SUPPORT. O42: the bytes of a range that lies in M (R182, R206), the common form of a send (R220 to R223), and reads of the
messages that a firing reserved (R226). -/

namespace Sys2Proof.Machine

/-! ### What a read finds, byte by byte (R182, R203, R379) -/

section
variable (s : State) (f : Slot)

theorem State.anyPoison_eq_false_iff (k n : Nat) : s.anyPoison f k n = false ↔ ∀ i < n, s.poisoned f (k + i) = false := by
  simp [State.anyPoison]

theorem State.lacks_eq_none_iff (m : Attr) (k n : Nat) :
    s.lacks f m k n = none ↔ ∀ i < n, s.lacks f m (k + i) 1 = none := by
  simp [State.lacks]

theorem State.seenBytes_add (k m n : Nat) : s.seenBytes f k (m + n) = s.seenBytes f k m ++ s.seenBytes f (k + m) n := by
  induction m generalizing k with
  | zero => rw [Nat.zero_add]; rfl
  | succ m ih =>
    rw [Nat.add_right_comm, Nat.add_left_comm k m 1, Nat.add_comm m (k + 1)]
    exact congrArg (s.seenByte f k :: ·) (ih (k + 1))

end

section
variable {f g : Slot} (h : ReadOn f g) (s : State)
include h

/-! R182: a slot that has only read sees what it saw. -/

theorem ReadOn.ctxFor : s.ctxFor g = s.ctxFor f := by
  simp only [State.ctxFor, Chunk.sees, h.firing, h.bases]

theorem ReadOn.ownByte (k : Nat) : s.ownByte g k = s.ownByte f k := by
  rw [State.ownByte, State.heldLawByte, h.ctxFor, h.held, h.firing, h.wbuf]
  rfl

theorem ReadOn.poisoned (k : Nat) : s.poisoned g k = s.poisoned f k := by
  simp only [State.poisoned, h.ownByte]

theorem ReadOn.lacks (m : Attr) (k n : Nat) : s.lacks g m k n = s.lacks f m k n := by
  simp only [State.lacks, h.ownByte, h.filled]

theorem ReadOn.seenBytes (k n : Nat) : s.seenBytes g k n = s.seenBytes f k n := by
  induction n generalizing k with
  | zero => rfl
  | succ n ih => simp only [State.seenBytes, State.seenByte, h.ownByte, h.core, ih]

end

/-! ### A range that lies in M (R206) -/

section
variable {s : State} {f : Slot} {m : Attr} {size : Nat}

/-- R203, R379: bytes that a read finds at once: none is poisoned and none is to be filled first. -/
def State.Ready (s : State) (f : Slot) (m : Attr) (key n : Nat) : Prop :=
  ∀ i, i < n → s.poisoned f (key + i) = false ∧ s.lacks f m (key + i) 1 = none

theorem State.Ready.readKey {g : Slot} {a : Word} {key n k : Nat} (h : s.Ready f m key n) (hg : ReadOn f g) (hk : k ≤ n) :
    s.readKey g a key m k = .ok (g.readBytes key k, s.seenBytes f key k) := by
  rw [State.readKey_of_present, hg.seenBytes]
  · exact (s.anyPoison_eq_false_iff g key k).2 fun i hi => (hg.poisoned s _).trans (h i (by omega)).1
  · exact (s.lacks_eq_none_iff g m key k).2 fun i hi => (hg.lacks s m _ 1).trans (h i (by omega)).2

/-- R206: a range whose elements lie in M one after the other, its bytes ready, gives the bytes that the chunk sees. -/
theorem State.loadRange_seenBytes (hsize : 0 < size) : ∀ (fuel : Nat) (g : Slot) (va : Word) (key n : Nat), ReadOn f g →
    n ≤ size * fuel → s.Ready f m key n →
    (∀ (g : Slot) i, ReadOn f g → size * i < n →
      s.access g (va + BitVec.ofNat 64 (size * i)) size .load false = .ok (.cells (key + size * i) m)) →
    ∃ g', s.loadRange size fuel g va n = .ok (g', s.seenBytes f key n)
  | 0, g, va, key, n, _, hn, _, _ => by
    obtain rfl : n = 0 := by omega
    exact ⟨g, rfl⟩
  | fuel + 1, g, va, key, 0, _, _, _, _ => ⟨g, rfl⟩
  | fuel + 1, g, va, key, n + 1, hg, hn, hready, haccess => by
    have hcells : s.access g va size .load false = .ok (.cells key m) := by
      simpa using haccess g 0 hg (by omega)
    obtain ⟨k, hk⟩ : ∃ k, k = min size (n + 1) := ⟨_, rfl⟩
    have hread : s.readKey g va key m k = .ok (g.readBytes key k, s.seenBytes f key k) := hready.readKey hg (by omega)
    have hon : ReadOn f (g.readBytes key k) := hg.trans (.readBytes g key k)
    obtain ⟨g', hrest⟩ := State.loadRange_seenBytes hsize fuel _ (va + BitVec.ofNat 64 size) (key + k) (n + 1 - k) hon
      (by rw [Nat.mul_succ] at hn; omega)
      (fun i hi => by rw [Nat.add_assoc]; exact hready (k + i) (by omega))
      (fun g i hg hi => by
        obtain rfl : k = size := by omega
        have hnext := haccess g (i + 1) hg (by rw [Nat.mul_succ]; omega)
        rwa [Nat.mul_succ, Nat.add_comm _ k, BitVec.ofNat_add, ← BitVec.add_assoc, ← Nat.add_assoc] at hnext)
    subst hk
    refine ⟨g', (if_neg (Nat.succ_ne_zero n)).trans ?_⟩
    rw [hcells]
    refine bind_of_ok hread (bind_of_ok hrest ?_)
    rw [← State.seenBytes_add, Nat.add_sub_cancel' (Nat.min_le_right _ _)]

end
/-! ### A descriptor, field by field (R220) -/

theorem eq_false_of_iff {c : Bool} {p : Prop} (h : c = true ↔ p) (hp : ¬ p) : c = false := Bool.eq_false_iff.2 (mt h.1 hp)

theorem descOf_eq (w : Word) : descOf w = ⟨descDst w, descCh w, descLen w, descWfmt w, descPkg w⟩ := by
  simp [descOf, descDst, descCh, descLen, descWfmt, descPkg, bitsOf_eq, getElem_eq_decide]

theorem descBad_iff (fn : Nat) (w : Word) : descBad fn w = true ↔ (descOf w).refused w fn := by
  simp [descBad, descOf_eq, Desc.refused, getElem_eq_decide, or_assoc]

/-- R220: FAB = 0, and FAB = 1 with its own number, both name the own package. -/
theorem descLocal_iff (w : Word) : descLocal w = true ↔ (descOf w).pkg = Config.ownPackage.val := by
  rw [descOf_eq]
  unfold descLocal descPkg
  cases w.getLsbD 38 with
  | false => simp
  | true => simp

/-- R223: SENDM's check of its rectangle. -/
theorem rectBad_iff (r : Word) : rectBad r = true ↔
    r.toNat / 2 ^ 12 % 64 < r.toNat % 64 ∨ r.toNat / 2 ^ 18 % 64 < r.toNat / 2 ^ 6 % 64 := by
  simp [rectBad, bitsOf_eq]

theorem Slot.message_sentAs (s : State) (w : Word) (l : List Byte) (ts : Option Word) :
    sentAs s w l ts (s.focus.message w l ts) := by
  rw [sentAs, descOf_eq]
  exact ⟨rfl, rfl, rfl, rfl, rfl, rfl, rfl, rfl, rfl, rfl, rfl, rfl, rfl, rfl⟩

/-! ### The common part of a send (R221) -/

section
variable {s : State} {fn : Nat} {w addr : Word}

theorem State.sendParts_refused (h : descBad fn w = true) :
    s.sendParts fn w addr = .error (.exc .illop w (BitVec.ofNat 64 fn) 0) := refuseIf_refuses h

section
variable (hok : descBad fn w = false)
include hok

theorem State.sendParts_undefined (h : (decide (fn ≠ 2) && descLocal w && !s.myCtx.defines (descDst w)) = true) :
    s.sendParts fn w addr = .error (.exc .bounds w 0 0) := refuseIf_passes hok (refuseIf_refuses h)

variable (hdef : (decide (fn ≠ 2) && descLocal w && !s.myCtx.defines (descDst w)) = false)
include hdef

theorem State.sendParts_full (h : s.myEntry.prod ≤ s.focus.reg.sends) :
    s.sendParts fn w addr = .error (.exc .sendrate (BitVec.ofNat 64 s.myEntry.prod) (BitVec.ofNat 64 fn) 0) :=
  refuseIf_passes hok (refuseIf_passes hdef (refuseIf_refuses (decide_eq_true h)))

theorem State.sendParts_payload (h : ¬ s.myEntry.prod ≤ s.focus.reg.sends) :
    s.sendParts fn w addr = s.payload (s.focus.readWfmt w) addr (descLen w) :=
  refuseIf_passes hok (refuseIf_passes hdef (refuseIf_passes (decide_eq_false h) rfl))

end

/-- R220, R221: a send is of the common form when it refuses its descriptor, then its other operand, and then does the common
part and holds what the form sends. -/
theorem sendForm_of_parts {i : Instr} {k bounded : Bool} {pre : Prop} {preAt : Word} {held : List Byte → Held → Prop}
    (heldOf : List Byte → Held) (hheld : ∀ l, held l (heldOf l)) (hbounded : bounded = decide (fn ≠ 2))
    (hearly : descBad fn w = true → Raises i s .illop w (BitVec.ofNat 64 fn))
    (hpre : descBad fn w = false → pre → Raises i s .illop preAt 0)
    (hparts : descBad fn w = false → ¬ pre → exec i s = s.finish (s.sendParts fn w addr >>= fun r =>
      .ok ((r.1.hold (heldOf r.2)).countSend.advance k))) :
    SendForm i k fn w addr pre preAt bounded held s := by
  subst hbounded
  have hok (h : ¬ (descOf w).refused w fn) : descBad fn w = false := eq_false_of_iff (descBad_iff fn w) h
  have hundef : (decide (fn ≠ 2) && descLocal w && !s.myCtx.defines (descDst w)) = true ↔
      decide (fn ≠ 2) = true ∧ (descOf w).pkg = Config.ownPackage.val ∧ s.myCtx.defines (descOf w).dst = false := by
    rw [Bool.and_eq_true, Bool.and_eq_true, descLocal_iff, Bool.not_eq_true', and_assoc]
    rfl
  refine ⟨fun h => hearly ((descBad_iff fn w).2 h), fun h => hpre (hok h),
    fun h hp hu => raises_of_finish (hparts (hok h) hp) (bind_of_error (State.sendParts_undefined (hok h) (hundef.2 hu))),
    fun h hp hu hfull => raises_of_finish (hparts (hok h) hp)
      (bind_of_error (State.sendParts_full (hok h) (eq_false_of_iff hundef hu) hfull)), fun h hp hu hfull => ?_⟩
  have hpayload := State.sendParts_payload (addr := addr) (hok h) (eq_false_of_iff hundef hu) hfull
  rw [descOf_eq]
  refine ⟨fun g l hl => ⟨heldOf l, hheld l, does_of_finish (hparts (hok h) hp) (bind_of_ok (hpayload.trans hl) rfl)⟩,
    fun e he => (hparts (hok h) hp).trans (congrArg s.finish (bind_of_error (hpayload.trans he)))⟩

end

/-! ### SEND, SENDT and SENDM (R223) -/

section
variable {k : Bool} {d a b : BitVec 5} {s : State}

theorem send_form : SendForm (.send k a b) k 0 (s.focus.gr a) (s.focus.gr b) False 0 true
    (fun l h => ∃ m, h = .send m ∧ sentAs s (s.focus.gr a) l none m) s :=
  sendForm_of_parts (fun l => .send (s.focus.message (s.focus.gr a) l none))
    (fun l => ⟨_, rfl, Slot.message_sentAs s _ l none⟩) rfl
    (fun h => raises_of_finish rfl (bind_of_error (State.sendParts_refused h))) (fun _ => nofun) (fun _ _ => rfl)

theorem sendt_form : SendForm (.sendt k d a b) k 1 (s.focus.gr a) (s.focus.gr b) False 0 true
    (fun l h => ∃ m, h = .send m ∧ sentAs s (s.focus.gr a) l (some (s.focus.gr d)) m) s :=
  sendForm_of_parts (fun l => .send (s.focus.message (s.focus.gr a) l (some (s.focus.gr d))))
    (fun l => ⟨_, rfl, Slot.message_sentAs s _ l _⟩) rfl
    (fun h => raises_of_finish rfl (bind_of_error (State.sendParts_refused h))) (fun _ => nofun) (fun _ _ => rfl)

theorem sendm_form {pre : Prop} (hpre : rectBad (s.focus.gr d) = true ↔ pre) :
    SendForm (.sendm k d a b) k 2 (s.focus.gr a) (s.focus.gr b) pre (s.focus.gr d) false
      (fun l h => ∃ m, h = .sendm (s.focus.gr d) m ∧ sentAs s (s.focus.gr a) l none m) s :=
  sendForm_of_parts (fun l => .sendm (s.focus.gr d) (s.focus.message (s.focus.gr a) l none))
    (fun l => ⟨_, rfl, Slot.message_sentAs s _ l none⟩) rfl
    (fun h => raises_of_finish rfl (refuseIf_refuses h))
    (fun h hp => raises_of_finish rfl (refuseIf_passes h (refuseIf_refuses (hpre.2 hp))))
    (fun h hp => congrArg s.finish (refuseIf_passes h (refuseIf_passes (eq_false_of_iff hpre hp) rfl)))

/-! ### SENDR (R223, R349) -/

section
variable {red : RedGroup} (hred : s.myCtx.redOf (bitsOf (s.focus.gr a) 5 0) = red)
include hred

theorem sendr_closed (h : red.on = false ∨ inRect red.cfgB s.focus.firing.lc = false) :
    Raises (.sendr k a b) s .illop (s.focus.gr a) 0 := by
  subst hred
  exact raises_of_finish rfl (refuseIf_refuses (by simpa using h))

variable (hopen : ¬ (red.on = false ∨ inRect red.cfgB s.focus.firing.lc = false))
include hopen

theorem sendr_full (hfull : s.myEntry.prod ≤ s.focus.reg.sends) :
    Raises (.sendr k a b) s .sendrate (BitVec.ofNat 64 s.myEntry.prod) 3 := by
  subst hred
  exact raises_of_finish rfl (refuseIf_passes (by simpa using hopen) (refuseIf_refuses (decide_eq_true hfull)))

theorem sendr_holds (hrate : s.focus.reg.sends < s.myEntry.prod) {g : Slot} {l : List Byte}
    (hload : s.payload (s.focus.addRead (.red s.focus.firing.ctx (bitsOf (s.focus.gr a) 5 0))) (s.focus.gr b)
      (4 * (bitsOf red.cfgA 10 7 + 1)) = .ok (g, l)) :
    Does (.sendr k a b) s ((oneMoreSend (g.hold (.sendr (bitsOf (s.focus.gr a) 5 0) l))).advance k) := by
  subst hred
  exact does_of_finish rfl (refuseIf_passes (by simpa using hopen) (refuseIf_passes (decide_eq_false (by omega))
    (bind_of_ok hload rfl)))

end

/-! ### MLD and MHDR (R226) -/

/-- R226: the list of the selector's message, and its number in it. -/
theorem Firing.msgRef_eq (x : Firing) (sel : Word) :
    x.msgRef sel = (if sel.toNat / 32 % 2 = 1 then x.join else x.prim)[sel.toNat % 32]? := by
  simp [Firing.msgRef, bitsOf_low, getElem_eq_decide]

theorem message_bounds (h : s.focus.firing.msgRef (s.focus.gr a) = none) :
    Raises (.mld k d a b) s .bounds (s.focus.gr a) 0 ∧ Raises (.mhdr k d a b) s .bounds (s.focus.gr a) 0 := by
  constructor
  all_goals
    refine raises_of_finish rfl ?_
    rw [h]
    rfl

section
variable {m : MsgRef} (hm : s.focus.firing.msgRef (s.focus.gr a) = some m)
include hm

theorem mld_misalign (h : (s.focus.gr b).toNat % 8 ≠ 0) : Raises (.mld k d a b) s .misalign (s.focus.gr b) 0 := by
  refine raises_of_finish rfl ?_
  rw [hm]
  exact refuseIf_refuses (decide_eq_true h)

theorem mld_bounds (h8 : (s.focus.gr b).toNat % 8 = 0) (h : 64 ≤ (s.focus.gr b).toNat) :
    Raises (.mld k d a b) s .bounds (s.focus.gr b) 0 := by
  refine raises_of_finish rfl ?_
  rw [hm]
  exact refuseIf_passes (decide_eq_false (not_not.2 h8)) (refuseIf_refuses (decide_eq_true h))

theorem mld_reads (h8 : (s.focus.gr b).toNat % 8 = 0) (h : (s.focus.gr b).toNat < 64) {g : Slot} {l : List Byte}
    (hload : s.slotBytes s.focus m (16 + (s.focus.gr b).toNat) 8 = .ok (g, l)) :
    Does (.mld k d a b) s ((g.landG d (BitVec.ofNat 64 (leNat l))).advance k) := by
  refine does_of_finish rfl ?_
  rw [hm]
  exact refuseIf_passes (decide_eq_false (not_not.2 h8)) (refuseIf_passes (decide_eq_false (by omega)) (bind_of_ok hload rfl))

/-- R226: the words of the header and the send sequence. -/
theorem mhdr_reads {j : Nat} (hj : bitsOf (s.focus.gr b) 1 0 = j) (h : j < 3) {g : Slot} {l : List Byte}
    (hload : s.slotBytes s.focus m (if j = 2 then 80 else 8 * j) (if j = 2 then 4 else 8) = .ok (g, l)) :
    Does (.mhdr k d a b) s ((g.landG d (BitVec.ofNat 64 (leNat l))).advance k) := by
  refine does_of_finish rfl ?_
  rw [hm, hj]
  obtain rfl | rfl | rfl : j = 0 ∨ j = 1 ∨ j = 2 := by omega
  all_goals exact bind_of_ok hload rfl

theorem mhdr_zero (hj : bitsOf (s.focus.gr b) 1 0 = 3) : Does (.mhdr k d a b) s ((s.focus.landG d 0).advance k) := by
  refine does_of_finish rfl ?_
  rw [hm, hj]
  rfl

end

end

/-- R206, R221: the payload of a send whose elements lie in M and are ready is the bytes that the chunk sees. -/
theorem State.payload_seenBytes {s : State} {f : Slot} {va : Word} {key n : Nat} {m : Attr} (h4 : 4 ≤ n) (h64 : n ≤ 64)
    (haccess : ∀ (g : Slot) i, ReadOn f g → 4 * i < n →
      s.access g (va + BitVec.ofNat 64 (4 * i)) 4 .load false = .ok (.cells (key + 4 * i) m))
    (hready : s.Ready f m key n) : ∃ g, s.payload f va n = .ok (g, s.seenBytes f key n) := by
  rw [State.payload, if_neg (by omega)]
  exact State.loadRange_seenBytes (by decide) 20 f va key n (.refl f) (by omega) hready haccess

/-- Settles O42: the three forms with a descriptor have one order of checks; SENDR checks its group, then the rate; MLD and
MHDR find the message first; and a payload in M is read element after element. -/
theorem sendsAndMessageReads : Obligations.SendsAndMessageReads := by
  unfold Obligations.SendsAndMessageReads
  intro k d a b s f w r rectBad grp red closed slot ref o
  have hcfg : red.cfgA.toNat / 2 ^ 7 % 16 = bitsOf red.cfgA 10 7 := (bitsOf_eq red.cfgA 10 7).symm
  have href : ref = f.firing.msgRef w := (f.firing.msgRef_eq w).symm
  refine ⟨send_form, sendt_form, sendm_form (rectBad_iff r), sendr_closed rfl, sendr_full rfl,
    fun hopen hrate g l hload => sendr_holds rfl hopen hrate (by rwa [hcfg] at hload),
    fun hnone => message_bounds (href.symm.trans hnone), fun m hm => mld_misalign (href.symm.trans hm),
    fun m hm => mld_bounds (href.symm.trans hm), fun m g l hm h8 h hload => mld_reads (href.symm.trans hm) h8 h hload,
    fun m g l hm hj hload => mhdr_reads (href.symm.trans hm) rfl hj hload, fun m hm hj => mhdr_zero (href.symm.trans hm) hj,
    fun h va key n m h4 h64 haccess hready => State.payload_seenBytes h4 h64 (fun g i hg hi =>
      haccess g i hi hg.firing hg.core hg.zeros hg.hosts hg.bases) hready⟩

end Sys2Proof.Machine
end


section
/-! SUPPORT. O59: errors of scratchpads, and the tests that management makes of suspect units (R162, R387, R405, R406). -/

namespace Sys2Proof.Machine

/-! ### A score's place in M (R405) -/

theorem scoreKey_beyond (u : UnitKind) (n : Nat) : 2 ^ 39 ≤ scoreKey u n := by
  unfold scoreKey
  omega

theorem RingWord.bytes_length (w : RingWord) : w.bytes.length = 16 := by
  rw [RingWord.bytes, leBytes_length]

section
variable (s : State)

/-- R254: an alarm that a score arms changes neither M nor the units in service. -/
theorem State.noteAlarm_outcome (t : State) {p : Prop} [Decidable p] (l : List Alarm) :
    (if p then t else { t with scoreAlarms := l }).mem = t.mem
    ∧ (if p then t else { t with scoreAlarms := l }).retired = t.retired := by
  split
  · exact ⟨rfl, rfl⟩
  · exact ⟨rfl, rfl⟩

theorem State.holdScore_mem (u : UnitKind) (n : Nat) (x : RingWord) (r : RingResult) :
    (s.holdScore u n x r).mem = cellWriteList s.mem (scoreKey u n) r.word.bytes :=
  (State.noteAlarm_outcome _ _).1.trans (State.applyBytes_beyond (scoreKey_beyond u n) _ _)

/-- R405: an increment writes the score's ring word and no other byte of M. -/
theorem State.suspect_mem (u : UnitKind) (n : Nat) (inc : Lane) : ∃ x : RingWord,
    (s.suspect u n inc).mem = cellWriteList s.mem (scoreKey u n) x.bytes := by
  unfold State.suspect
  extract_lets x r s1
  have hmem : s1.mem = cellWriteList s.mem (scoreKey u n) r.word.bytes := s.holdScore_mem u n x r
  refine ⟨r.word, Eq.trans ?_ hmem⟩
  split
  · rfl
  · rfl

theorem State.suspect_read {u : UnitKind} {n : Nat} (inc : Lane) (hwf : Memory.wf s.mem = true) {k : Nat}
    (hk : k < scoreKey u n ∨ scoreKey u n + 16 ≤ k) : cellRead (s.suspect u n inc).mem k = cellRead s.mem k := by
  obtain ⟨x, hmem⟩ := s.suspect_mem u n inc
  rw [hmem, cellRead_cellWriteList _ _ _ _ hwf, x.bytes_length, if_neg (by omega)]

end

/-! ### Errors of a scratchpad (R162, R405) -/

/-- R162: a unit that was poisoned reads as poisoned, byte by byte. -/
theorem State.inPoison_poisonUnit (s : State) (base : Nat) {size j : Nat} (hj : j < size) :
    inPoison (s.poisonUnit base size).poison (base + j) = true := by
  refine List.any_eq_true.2 ⟨(base, size), mem_addNew s.poison (base, size), ?_⟩
  rw [Bool.and_eq_true, decide_eq_true_iff, decide_eq_true_iff]
  exact ⟨Nat.le_add_right _ _, Nat.add_lt_add_left hj base⟩

theorem execScratchpadError_of_placed {ctx lc off : Nat} {fatal : Bool} {s : State} (hvalid : (s.lcOf ctx lc).valid = true)
    (hin : (s.lcOf ctx lc).out = false) (hoff : off < (s.lcOf ctx lc).lsz) :
    exec (.scratchpadError ctx lc off fatal) s = .next (if fatal then s.poisonUnit (scratchKey ctx lc (off / 8 * 8)) 8
      else s.suspect .core (s.lcOf ctx lc).pcore incOne) := by
  have hplaced : ¬ (!(s.lcOf ctx lc).valid || (s.lcOf ctx lc).out || decide ((s.lcOf ctx lc).lsz ≤ off)) = true := by
    simp [hvalid, hin, hoff]
  exact congrArg Host.Outcome.next (if_neg hplaced)

/-- R162, R405: an error poisons 8 bytes, or adds 1 to the score of the core and writes it. -/
theorem scratchpadError_leads {ctx lc off : Nat} {fatal : Bool} {s : State} (hvalid : (s.lcOf ctx lc).valid = true)
    (hin : (s.lcOf ctx lc).out = false) (hoff : off < (s.lcOf ctx lc).lsz) :
    Leads (.scratchpadError ctx lc off fatal) s fun t =>
      (fatal = true → t.mem = s.mem ∧ ∀ j, j < 8 → inPoison t.poison (scratchKey ctx lc (off / 8 * 8) + j) = true)
      ∧ (fatal = false → Suspected s t .core (s.lcOf ctx lc).pcore incOne ∧ (Memory.wf s.mem = true →
          ∀ k, k < scoreKey .core (s.lcOf ctx lc).pcore ∨ scoreKey .core (s.lcOf ctx lc).pcore + 16 ≤ k →
            cellRead t.mem k = cellRead s.mem k)) := by
  have hexec := execScratchpadError_of_placed (fatal := fatal) hvalid hin hoff
  cases fatal with
  | true =>
    rw [if_pos rfl] at hexec
    exact ⟨_, hexec, fun _ => ⟨rfl, fun j hj => s.inPoison_poisonUnit _ hj⟩, nofun⟩
  | false =>
    rw [if_neg Bool.false_ne_true] at hexec
    exact ⟨_, hexec, nofun, fun _ => ⟨s.suspect_suspected _ _ _, fun hwf k hk => s.suspect_read _ hwf hk⟩⟩

/-! ### What leaves the units in service as they are (R386, R406) -/

/-- R406: the units retired and the pending threshold records stay as they are. -/
structure State.KeepsTests (s t : State) : Prop where
  retired : t.retired = s.retired
  thresholds : t.thresholds = s.thresholds

section
variable {s t u : State}

theorem State.KeepsTests.refl (s : State) : s.KeepsTests s := ⟨rfl, rfl⟩

theorem State.KeepsTests.trans (h : s.KeepsTests t) (h' : t.KeepsTests u) : s.KeepsTests u :=
  ⟨h'.retired.trans h.retired, h'.thresholds.trans h.thresholds⟩

theorem State.KeepsTests.ite {p : Prop} [Decidable p] (ht : s.KeepsTests t) (hu : s.KeepsTests u) :
    s.KeepsTests (if p then t else u) := by
  split
  · exact ht
  · exact hu

theorem State.KeepsTests.foldl {α : Type} {f : State → α → State} (h : ∀ (s : State) (a : α), s.KeepsTests (f s a)) (l : List α)
    (s : State) : s.KeepsTests (l.foldl f s) :=
  foldl_keeps (P := fun t => State.KeepsTests s t) (fun t a ht => ht.trans (h t a)) l s (.refl s)

end

section
variable (s : State)

theorem State.report_keepsTests (r : MgmtRec) : s.KeepsTests (s.report r) := ⟨rfl, rfl⟩

/-! The memory side (R379, R392). -/

section
variable (a : Attr) (base : Nat)

theorem State.getUnit_keepsTests : s.KeepsTests (s.getUnit a base).1 := by
  have hblame (t : State) (pcs : List Nat) : t.KeepsTests (t.blame pcs) :=
    .foldl (fun t p => by
      have hblamed : t.KeepsTests { t with blamed := t.blamed ++ [(.pc, p, incOne)] } := ⟨rfl, rfl⟩
      exact .ite (hblamed.trans (State.report_keepsTests _ _)) hblamed) pcs t
  unfold State.getUnit
  dsimp only
  split
  · exact ⟨rfl, rfl⟩
  · exact ⟨(hblame _ _).retired, (hblame _ _).thresholds⟩

theorem State.foundBad_keepsTests : s.KeepsTests (s.foundBad a base) := by
  have hreport : s.KeepsTests (s.reportUnit a base) := by
    unfold State.reportUnit
    exact .ite (.refl s) (s.report_keepsTests _)
  unfold State.foundBad
  exact .ite (.refl s) (hreport.trans ⟨rfl, rfl⟩)

theorem State.putClean_keepsTests (g c : Nat) (l : List Byte) (p : Bool) : s.KeepsTests ((s.putUnit a base l p).clean g c) :=
  ⟨rfl, rfl⟩

theorem State.writeBackUnit_keepsTests : s.KeepsTests (s.writeBackUnit a base) := by
  unfold State.writeBackUnit
  dsimp only
  split
  · exact s.putClean_keepsTests a base _ _ _ _
  split
  · exact (s.getUnit_keepsTests a base).trans (State.putClean_keepsTests _ a base _ _ _ _)
  · exact ((s.getUnit_keepsTests a base).trans (State.foundBad_keepsTests _ a base)).trans
      (State.putClean_keepsTests _ a base _ _ _ _)

end

theorem State.sliceOffline_keepsTests (slice : Nat) (bad : List Nat) : s.KeepsTests (s.sliceOffline slice bad) := by
  have hdrain (t : State) (l : LlcLine) : t.KeepsTests (t.drainLine bad l) :=
    .foldl (fun t b => by
      split
      · exact .refl t
      split
      · exact ⟨rfl, rfl⟩
      · exact t.writeBackUnit_keepsTests l.attr b) _ t
  have hdrop (t : State) : t.KeepsTests t.dropTags := by
    unfold State.dropTags
    exact .ite (.refl t) ⟨rfl, rfl⟩
  unfold State.sliceOffline
  extract_lets s1
  have hlines : s.KeepsTests s1 := .foldl hdrain _ s
  have hgone : s1.KeepsTests { s1 with llc := s1.llc.filter fun l => !l.homedIn slice, offline := addNew s1.offline slice } :=
    ⟨rfl, rfl⟩
  exact (hlines.trans hgone).trans (hdrop _)

/-! Links (R426) and shadows (R354). -/

theorem State.portDown_keepsTests (port : Nat) : s.KeepsTests (s.portDown port) := by
  have hroute (t : State) : t.KeepsTests (t.reroute port) := by
    unfold State.reroute
    split
    · exact ⟨rfl, rfl⟩
    · exact ⟨rfl, rfl⟩
  have hset : s.KeepsTests (s.setPort port { s.portOf port with down := true }) := ⟨rfl, rfl⟩
  exact (hset.trans (hroute _)).trans (State.report_keepsTests _ _)

theorem State.keepShadows_keepsTests : s.KeepsTests s.keepShadows := by
  have hcancel (t : State) (f : Slot) : t.KeepsTests (t.cancelBox f) := by
    unfold State.cancelBox
    exact .ite ⟨rfl, rfl⟩ (.refl t)
  have hleave (t : State) (core k : Nat) : t.KeepsTests (t.leaveExcl core k) := ⟨rfl, rfl⟩
  have hpreempt (t : State) (which : Slot → Bool) : t.KeepsTests (t.preempt which) :=
    (State.KeepsTests.foldl (fun t (f : Slot) => (hcancel t f).trans (hleave _ _ _)) _ t).trans ⟨rfl, rfl⟩
  have hkeep (t : State) (p : Nat × Nat) : t.KeepsTests (t.keepShadow p.1 p.2) := by
    unfold State.keepShadow
    exact .ite (.refl t) ((hpreempt t _).trans ⟨rfl, rfl⟩)
  exact .foldl hkeep _ s

/-- R369: a write beyond DRAM retires nothing. -/
theorem State.applyBytes_beyond_retired {k : Nat} (hk : 2 ^ 39 ≤ k) (l : List Byte) : (s.applyBytes k l).retired = s.retired := by
  have hbeyond : ∀ c ∈ cellsAt k l, 2 ^ 39 ≤ c.1 := fun c hc => hk.trans (le_of_mem_cellsAt hc).1
  have hall : (cellsAt k l).filter (fun c => !frameAbsent c.1) = cellsAt k l :=
    List.filter_eq_self.2 fun c hc => by simp [frameAbsent_of_le (hbeyond c hc)]
  have hnone : writtenSectors ((cellsAt k l).map fun c => c.1) = [] := writtenSectors_beyond fun q hq => by
    obtain ⟨c, hc, rfl⟩ := List.mem_map.1 hq
    exact hbeyond c hc
  have hmark (keys : List Nat) : (s.markLines keys).retired = s.retired := by
    unfold State.markLines
    split
    · rfl
    · rfl
  rw [State.applyBytes, State.applyWith_eq]
  change (s.logWrite s.ownAttr (cellsAt k l)).retired = s.retired
  simp [State.logWrite, State.writeMem, State.beforeWrite, State.afterWrite, hall, hnone, hmark]

/-- R405: a score that takes a word leaves the units in service and the threshold records. -/
theorem State.holdScore_keepsTests (u : UnitKind) (n : Nat) (x : RingWord) (r : RingResult) :
    s.KeepsTests (s.holdScore u n x r) := by
  have hset : (s.setScore u n r.word).retired = s.retired := State.applyBytes_beyond_retired _ (scoreKey_beyond u n) _
  exact ⟨(State.noteAlarm_outcome _ _).2.trans hset, (s.holdScore_reports u n x r).thresholds⟩

/-- R386, R406: what retirement does beside its record. -/
theorem State.retire_outcome (u : UnitKind) (num : Nat) :
    (s.retire u num).retired = addNew s.retired (u, num) ∧ (s.retire u num).thresholds = s.thresholds
    ∧ ∃ x ∈ (s.retire u num).mgmt, x.kind = 5 ∧ x.unit = unitCode u ∧ x.num = num := by
  unfold State.retire
  extract_lets s1 s2
  have hunit : s1.KeepsTests s2 := by
    unfold s2
    split
    · exact .ite (.refl s1) ((s1.sliceOffline_keepsTests num []).trans (State.report_keepsTests _ _))
    · exact ⟨rfl, rfl⟩
    · exact .ite (.refl s1) (s1.portDown_keepsTests num)
    · exact .refl s1
  have hall := hunit.trans s2.keepShadows_keepsTests
  exact ⟨hall.retired, hall.thresholds, _, List.mem_append_right _ (List.mem_singleton_self _), rfl, rfl, rfl⟩

end

/-! ### The test of a unit (R387, R406) -/

/-- R406: the state in which a unit's pending threshold record is taken. -/
def State.takeThreshold (s : State) (u : UnitKind) (num : Nat) : State :=
  { s with thresholds := s.thresholds.filter fun x => x ≠ (u, num) }

theorem State.not_mem_takeThreshold (s : State) (u : UnitKind) (num : Nat) : (u, num) ∉ (s.takeThreshold u num).thresholds := by
  simp [State.takeThreshold]

section
variable {u : UnitKind} {num : Nat} {pass : Bool} {s : State}

theorem execThresholdRecord_of_pending (hpending : (u, num) ∈ s.thresholds) (hfree : ∀ p ∈ s.coresOn u num, s.hosted p = []) :
    exec (.thresholdRecord u num pass) s
      = .next (if pass then (s.takeThreshold u num).passTest u num else (s.takeThreshold u num).failTest u num) := by
  have hready : ¬ ((u, num) ∉ s.thresholds ∨ ((s.coresOn u num).any fun p => s.hosted p ≠ []) = true) := by
    simpa [hpending] using hfree
  exact congrArg Host.Outcome.next (if_neg hready)

theorem ringAccess_set_a (y : Word) (w : RingWord) (e : Law) (c : Clock) : (ringAccess (.set y) w e c).word.a = low32 y := by
  have hheld (v : LawOut) (xd : Nat) : (ringHeld (.set y) w v c xd).1.a = low32 y := rfl
  unfold ringAccess
  dsimp only
  rw [apply_ite RingWord.a, hheld, ite_self]

/-- R406: a unit that passes keeps half its score. -/
theorem State.passTest_outcome (t : State) : t.KeepsTests (t.passTest u num) ∧ ((t.passTest u num).scoreOf u num).a
    = (rne32 ((exact32 (t.scoreOp .ld (t.scoreOf u num)).a).scale (-1))).val := by
  unfold State.passTest
  extract_lets x half
  refine ⟨(t.holdScore_keepsTests u num x _).trans (State.report_keepsTests _ _), ?_⟩
  rw [(State.report_reports _ _).scoreOf, (t.holdScore_outcome u num x _).2.2]
  exact (ringAccess_set_a _ x _ _).trans (BitVec.setWidth_append_eq_right)

theorem State.failTest_retires (t : State) (h : (if u = .pc then t.retiredPartner num else none) = none) :
    t.failTest u num = t.retire u num := by
  rw [State.failTest, h]

/-- R387: a second pseudo-channel of a group stays in service. -/
theorem State.failTest_reports (t : State) {p : Nat} (h : (if u = .pc then t.retiredPartner num else none) = some p) :
    t.failTest u num = t.report
      { kind := 9, sev := 3, ctx := 0, lcore := 0, unit := 7, num := num, payload := leBytes 8 (p % 64) } := by
  rw [State.failTest, h]

/-- R387, R406: the test of a unit, passed or failed. -/
theorem thresholdRecord_leads (hpending : (u, num) ∈ s.thresholds) (hfree : ∀ p ∈ s.coresOn u num, s.hosted p = []) :
    Leads (.thresholdRecord u num pass) s fun t => (u, num) ∉ t.thresholds
      ∧ (pass = true → t.retired = s.retired ∧ (t.scoreOf u num).a
          = (rne32 ((exact32 (s.scoreOp .ld (s.scoreOf u num)).a).scale (-1))).val)
      ∧ (pass = false → (u ≠ .pc ∨ s.retiredPartner num = none) →
          (u, num) ∈ t.retired ∧ ∃ x ∈ t.mgmt, x.kind = 5 ∧ x.unit = unitCode u ∧ x.num = num)
      ∧ (∀ p, pass = false → u = .pc → s.retiredPartner num = some p → t.retired = s.retired
          ∧ ∃ x ∈ t.mgmt, x.kind = 9 ∧ x.sev = 3 ∧ x.unit = 7 ∧ x.num = num ∧ x.payload = leBytes 8 (p % 64)) := by
  have hexec := execThresholdRecord_of_pending (pass := pass) hpending hfree
  have htaken := s.not_mem_takeThreshold u num
  cases pass with
  | true =>
    obtain ⟨hkept, hscore⟩ := (s.takeThreshold u num).passTest_outcome (u := u) (num := num)
    exact ⟨_, hexec, hkept.thresholds ▸ htaken, fun _ => ⟨hkept.retired, hscore⟩, nofun, nofun⟩
  | false =>
    cases hpartner : (if u = .pc then s.retiredPartner num else none) with
    | none =>
      have hfail := State.failTest_retires (s.takeThreshold u num) hpartner
      obtain ⟨hretired, hthresholds, hrecord⟩ := (s.takeThreshold u num).retire_outcome u num
      refine ⟨_, hexec.trans (congrArg _ hfail), hthresholds ▸ htaken, nofun, fun _ _ => ⟨?_, hrecord⟩, fun p _ hu hp => ?_⟩
      · exact hretired ▸ mem_addNew _ _
      · rw [if_pos hu, hp] at hpartner
        cases hpartner
    | some p =>
      have hfail := State.failTest_reports (s.takeThreshold u num) hpartner
      refine ⟨_, hexec.trans (congrArg _ hfail), htaken, nofun, fun _ h => ?_, fun q _ hu hq => ⟨rfl, ?_⟩⟩
      · rcases h with hu | hnone
        · rw [if_neg hu] at hpartner
          cases hpartner
        · rw [hnone, ite_self] at hpartner
          cases hpartner
      · rw [if_pos hu, hq] at hpartner
        cases hpartner
        exact ⟨_, List.mem_append_right _ (List.mem_singleton_self _), rfl, rfl, rfl, rfl, rfl⟩

end

end Sys2Proof.Machine
end


section
/-! SUPPORT. O59: what the host reads and writes of device memory through the second stage (R382, R409). -/

namespace Sys2Proof.Machine

/-! ### Folds that may stop -/

section
variable {β : Type} {f : Nat → Option (List β) → Option (List β)}

theorem foldr_eq_some_map {g : Nat → β} {r : List Nat} (hf : ∀ i ∈ r, ∀ l, f i (some l) = some (g i :: l)) :
    r.foldr f (some []) = some (r.map g) := by
  induction r with
  | nil => rfl
  | cons i r ih =>
    rw [List.foldr_cons, ih fun j hj => hf j (List.mem_cons_of_mem i hj)]
    exact hf i List.mem_cons_self _

theorem exists_of_foldr_eq_some {P : Nat → β → Prop} (hf : ∀ i o l, f i o = some l → ∃ b t, o = some t ∧ l = b :: t ∧ P i b)
    {r : List Nat} {l : List β} (h : r.foldr f (some []) = some l) : ∀ i ∈ r, ∃ b ∈ l, P i b := by
  induction r generalizing l with
  | nil => exact fun _ hi => absurd hi List.not_mem_nil
  | cons j r ih =>
    intro i hi
    obtain ⟨b, t, ht, rfl, hb⟩ := hf j _ l h
    rcases List.mem_cons.1 hi with rfl | hi
    · exact ⟨b, List.mem_cons_self, hb⟩
    · obtain ⟨b', hmem, hb'⟩ := ih ht i hi
      exact ⟨b', List.mem_cons_of_mem b hmem, hb'⟩

end

/-! ### The keys of a host access (R382) -/

section
variable {s : State} {c : Ctx} {ia n : Nat}

/-- R382: an access has its keys where every byte of it is mapped. -/
theorem State.hostKeys_mapped {l : List (Nat × Stage2)} (h : s.hostKeys c ia n = some l) {i : Nat} (hi : i < n) :
    ∃ x ∈ l, c.stage2Of (ia + i) = some x.2 := by
  refine exists_of_foldr_eq_some (P := fun i x => c.stage2Of (ia + i) = some x.2) (fun i o l hl => ?_) h i (List.mem_range.2 hi)
  split at hl
  next t p hp => exact ⟨_, t, rfl, (Option.some.inj hl).symm, hp⟩
  next => cases hl

/-- R382: within one page the offsets follow each other. -/
theorem Ctx.stage2Of_offset {p : Stage2} (hmap : ∀ j, j < n → c.stage2Of (ia + j) = some p) {i : Nat} (hi : i < n) :
    (ia + i) % 2 ^ 16 = ia % 2 ^ 16 + i := by
  have hpage : ∀ j, j < n → p.ia = (ia + j) / 2 ^ 16 := fun j hj => by simpa using List.find?_some (hmap j hj)
  have h0 := hpage 0 (by omega)
  have h1 := hpage i hi
  omega

theorem State.hostKeys_onePage {p : Stage2} (hmigs : s.migs = []) (hmap : ∀ j, j < n → c.stage2Of (ia + j) = some p) :
    s.hostKeys c ia n = some ((List.range n).map fun i => (p.pa * 2 ^ 16 + ia % 2 ^ 16 + i, p)) := by
  refine foldr_eq_some_map fun i hi l => ?_
  have hi := List.mem_range.1 hi
  rw [hmap i hi]
  dsimp only
  rw [State.home_of_no_migs hmigs, Ctx.stage2Of_offset hmap hi, Nat.add_assoc]

/-- R382: the attributes of a host access to one page. -/
theorem State.hostAttr_onePage {p : Stage2} {l : List (Nat × Stage2)} (hmigs : s.migs = []) (hall : ∀ x ∈ l, x.2 = p) (ctx : Nat)
    {k : Nat} (hk : k ∈ l.map fun x => x.1) : s.hostAttr ctx l k = pageAttr ctx p := by
  unfold State.hostAttr
  split
  next hnone =>
    obtain ⟨x, hx, rfl⟩ := List.mem_map.1 hk
    simpa using List.find?_eq_none.1 hnone x hx
  next x hx =>
    rw [hall x (List.mem_of_find?_eq_some hx), hmigs]
    exact ite_self _

end

/-! ### Fills (R379) -/

section
variable {s : State} {attr : Nat → Attr} {keys : List Nat}

/-- R379: what the LLC holds is not filled. -/
theorem State.fillMissing_of_hits (h : ∀ k ∈ keys, s.hits (attr k).ctx k = true) : s.fillMissing attr keys = s := by
  induction keys with
  | nil => rfl
  | cons k keys ih =>
    have hhit : (if !inDram k || s.hits (attr k).ctx k then s else s.fill (attr k) k) = s :=
      if_pos (by rw [h k List.mem_cons_self, Bool.or_true])
    rw [State.fillMissing, List.foldl_cons, hhit]
    exact ih fun q hq => h q (List.mem_cons_of_mem k hq)

/-- R379: fills change only blocks of 512 bytes of which a byte is read. -/
theorem State.fillMissing_read (hwf : Memory.wf s.mem = true) {j : Nat} (hj : ∀ k ∈ keys, j / 512 ≠ k / 512) :
    cellRead (s.fillMissing attr keys).mem j = cellRead s.mem j := by
  induction keys generalizing s with
  | nil => rfl
  | cons k keys ih =>
    have hrest := fun q hq => hj q (List.mem_cons_of_mem k hq)
    rw [State.fillMissing, List.foldl_cons]
    split
    · exact ih hwf hrest
    · exact (ih (s.fill_wf _ _ hwf) hrest).trans (s.fill_read _ _ _ hwf (hj k List.mem_cons_self))

end

/-! ### Host reads and writes of device memory (R409) -/

section
variable {ctx ia n : Nat} {data : List Byte} {s : State}

/-- R409: a read that the second stage does not map, or that the host link may not make. -/
theorem hostMemoryRead_refused (h : (s.ctxOf ctx).hostOk = false ∨ ∃ j, j < n ∧ (s.ctxOf ctx).stage2Of (ia + j) = none) :
    exec (.hostMemoryRead ctx ia n) s = .next (s.answerHost .refused) := by
  change Host.Outcome.next _ = _
  split
  next l hok hkeys =>
    rcases h with h | ⟨j, hj, hnone⟩
    · rw [hok] at h
      cases h
    · obtain ⟨x, -, hx⟩ := State.hostKeys_mapped hkeys hj
      rw [hnone] at hx
      cases hx
  next => rfl

/-- R409: a write is refused as a read is, and where a page that it meets is RO. -/
theorem hostMemoryWrite_refused (h : (s.ctxOf ctx).hostOk = false ∨ ∃ j p, j < data.length
      ∧ ((s.ctxOf ctx).stage2Of (ia + j) = none ∨ (s.ctxOf ctx).stage2Of (ia + j) = some p ∧ p.ro = true)) :
    exec (.hostMemoryWrite ctx ia data) s = .next (s.answerHost .refused) := by
  change Host.Outcome.next _ = _
  split
  next l hok hkeys =>
    rcases h with h | ⟨j, p, hj, hpage⟩
    · rw [hok] at h
      cases h
    · obtain ⟨x, hmem, hx⟩ := State.hostKeys_mapped hkeys hj
      rcases hpage with hnone | ⟨hp, hro⟩
      · rw [hnone] at hx
        cases hx
      · obtain rfl := Option.some.inj (hp.symm.trans hx)
        rw [if_neg]
        exact fun hall => by simpa [hro] using List.all_eq_true.1 hall x hmem
  next => rfl

theorem execHostMemoryRead_of_keys (hok : (s.ctxOf ctx).hostOk = true) {l : List (Nat × Stage2)}
    (hkeys : s.hostKeys (s.ctxOf ctx) ia n = some l) {t : State}
    (ht : s.fillMissing (s.hostAttr ctx l) (l.map fun x => x.1) = t) :
    exec (.hostMemoryRead ctx ia n) s = .next (t.answerHost (.data (l.map fun x => cellRead t.mem x.1)
      (l.any fun x => inPoison t.poison x.1 || frameAbsent x.1))) := by
  subst ht
  change Host.Outcome.next _ = _
  rw [hok, hkeys]

/-- R409: a read of one page is answered with what M holds after the fills, and whether some of it is bad. -/
theorem hostMemoryRead_leads {p : Stage2} (hok : (s.ctxOf ctx).hostOk = true)
    (hmap : ∀ j, j < n → (s.ctxOf ctx).stage2Of (ia + j) = some p) (hmigs : s.migs = []) {k : Nat}
    (hk : p.pa * 2 ^ 16 + ia % 2 ^ 16 = k) :
    Leads (.hostMemoryRead ctx ia n) s fun t => ∃ b bad, t.hostOut = s.hostOut ++ [.data b bad]
      ∧ b.length = n ∧ (∀ j, j < n → b.getD j 0 = cellRead t.mem (k + j))
      ∧ (bad = true ↔ ∃ j, j < n ∧ (inPoison t.poison (k + j) = true ∨ frameAbsent (k + j) = true))
      ∧ ((∀ j, j < n → s.hits (pageAttr ctx p).ctx (k + j) = true) → t.mem = s.mem ∧ t.poison = s.poison)
      ∧ (Memory.wf s.mem = true → ∀ a, (∀ j, j < n → (k + j) / 512 ≠ a / 512) → cellRead t.mem a = cellRead s.mem a) := by
  have hkeys := State.hostKeys_onePage hmigs hmap
  rw [hk] at hkeys
  obtain ⟨l, hl⟩ : ∃ l, l = (List.range n).map fun i => (k + i, p) := ⟨_, rfl⟩
  have hfst : (l.map fun x => x.1) = (List.range n).map (k + ·) := by
    rw [hl, List.map_map]
    rfl
  rw [← hl] at hkeys
  obtain ⟨t, ht⟩ : ∃ t, s.fillMissing (s.hostAttr ctx l) (l.map fun x => x.1) = t := ⟨_, rfl⟩
  have hout : t.hostOut = s.hostOut := by
    rw [← ht, State.fillMissing_onMemory]
    rfl
  have hattr : ∀ q ∈ l.map (fun x => x.1), s.hostAttr ctx l q = pageAttr ctx p := fun q hq =>
    State.hostAttr_onePage hmigs (by simp [hl]) ctx hq
  have hbyte (j : Nat) (hj : j < n) : (l.map fun x => cellRead t.mem x.1).getD j 0 = cellRead t.mem (k + j) := by simp [hl, hj]
  have hbad : (l.any fun x => inPoison t.poison x.1 || frameAbsent x.1) = true
      ↔ ∃ j, j < n ∧ (inPoison t.poison (k + j) = true ∨ frameAbsent (k + j) = true) := by simp [hl]
  refine ⟨_, execHostMemoryRead_of_keys hok hkeys ht, _, _, congrArg (· ++ _) hout, by simp [hl], hbyte, hbad, fun hhits => ?_,
    fun hwf a ha => ?_⟩
  · have hsame : t = s := ht.symm.trans (State.fillMissing_of_hits fun q hq => by
      rw [hattr q hq]
      rw [hfst] at hq
      obtain ⟨j, hj, rfl⟩ := List.mem_map.1 hq
      exact hhits j (List.mem_range.1 hj))
    exact hsame ▸ ⟨rfl, rfl⟩
  · change cellRead t.mem a = _
    rw [← ht]
    refine State.fillMissing_read hwf fun q hq => ?_
    rw [hfst] at hq
    obtain ⟨j, hj, rfl⟩ := List.mem_map.1 hq
    exact (ha j (List.mem_range.1 hj)).symm

/-- R379, R393: a write of device memory below the firmware's tables changes no copy that hardware has of them, but the entry of
the scores. -/
theorem State.refreshAll_low {keys : List Nat} (h : ∀ q ∈ keys, q < 2 ^ 39) :
    (s.refreshAll keys).mem = s.mem ∧ (s.refreshAll keys).hostOut = s.hostOut := by
  have hlow : s.refresh keys = s := if_pos (List.all_eq_true.2 fun q hq => by rw [decide_eq_true (h q hq), Bool.true_or])
  rw [State.refreshAll, hlow, State.refreshLaw]
  split
  · split
    · exact ⟨rfl, rfl⟩
    · exact ⟨rfl, rfl⟩
  · exact ⟨rfl, rfl⟩

theorem execHostMemoryWrite_of_keys (hok : (s.ctxOf ctx).hostOk = true) {l : List (Nat × Stage2)}
    (hkeys : s.hostKeys (s.ctxOf ctx) ia data.length = some l) (hro : ∀ x ∈ l, x.2.ro = false) {keys : List Nat}
    (hfst : (l.map fun x => x.1) = keys) (hexcl : s.exclBlocks none keys = false) :
    exec (.hostMemoryWrite ctx ia data) s = .next (((s.logWrite (s.hostAttr ctx l) (keys.zip data)).refreshAll keys).touch
      (keys.map Loc.byte) fun _ => true) := by
  subst hfst
  change Host.Outcome.next _ = _
  rw [hok, hkeys]
  dsimp only
  rw [if_pos (List.all_eq_true.2 fun x hx => by simp [hro x hx]), if_neg (by simp [hexcl])]

/-- R409: a write of one page of DRAM. -/
theorem hostMemoryWrite_leads {p : Stage2} (hok : (s.ctxOf ctx).hostOk = true)
    (hmap : ∀ j, j < data.length → (s.ctxOf ctx).stage2Of (ia + j) = some p) (hro : p.ro = false) (hmigs : s.migs = [])
    (hwf : Memory.wf s.mem = true) {k : Nat} (hk : p.pa * 2 ^ 16 + ia % 2 ^ 16 = k)
    (hdram : ∀ j, j < data.length → inDram (k + j) = true)
    (hexcl : s.exclBlocks none ((List.range data.length).map fun j => k + j) = false) :
    Leads (.hostMemoryWrite ctx ia data) s fun t => t.hostOut = s.hostOut
      ∧ (∀ j, j < data.length → cellRead t.mem (k + j) = data.getD j 0)
      ∧ (∀ a, (∀ j, j < data.length → (k + j) / 512 ≠ a / 512) → cellRead t.mem a = cellRead s.mem a)
      ∧ ((∀ q ∈ writtenSectors ((List.range data.length).map fun j => k + j), q.2 = true) →
        ∀ a, a < k ∨ k + data.length ≤ a → cellRead t.mem a = cellRead s.mem a) := by
  have hkeys := State.hostKeys_onePage hmigs hmap
  rw [hk] at hkeys
  obtain ⟨l, hl⟩ : ∃ l, l = (List.range data.length).map fun i => (k + i, p) := ⟨_, rfl⟩
  have hfst : (l.map fun x => x.1) = (List.range data.length).map (k + ·) := by
    rw [hl, List.map_map]
    rfl
  rw [← hl] at hkeys
  have hlow (j : Nat) (hj : j < data.length) : k + j < 2 ^ 39 := by
    have := (inDram_iff _).1 (hdram j hj)
    omega
  have hpresent (j : Nat) (hj : j < data.length) : frameAbsent (k + j) = false := by
    have := (inDram_iff _).1 (hdram j hj)
    exact Bool.and_eq_false_iff.2 (.inl (decide_eq_false (Nat.not_le.2 this)))
  have hexec := execHostMemoryWrite_of_keys hok hkeys (by simp [hl, hro]) hfst hexcl
  rw [zip_range_eq_cellsAt] at hexec
  obtain ⟨hmem, hout⟩ := State.refreshAll_low (s := s.logWrite (s.hostAttr ctx l) (cellsAt k data))
    (keys := (List.range data.length).map (k + ·)) fun q hq => by
      obtain ⟨j, hj, rfl⟩ := List.mem_map.1 hq
      exact hlow j (List.mem_range.1 hj)
  have happly : (s.logWrite (s.hostAttr ctx l) (cellsAt k data)).mem = (s.applyWith (s.hostAttr ctx l) k data).mem := by
    rw [State.applyWith_eq]
    rfl
  refine ⟨_, hexec, hout.trans ?_, fun j hj => ?_, fun a ha => ?_, fun hwhole a ha => ?_⟩
  · rw [State.logWrite_onMemory]
    rfl
  · exact (congrArg (cellRead · (k + j)) (hmem.trans happly)).trans (State.applyWith_read_written hwf hpresent hj)
  · exact (congrArg (cellRead · a) (hmem.trans happly)).trans (State.applyWith_read_other hwf fun j hj => (ha j hj).symm)
  · have hput := s.logWrite_whole (s.hostAttr ctx l) (cells := cellsAt k data) (fun c hc => by
      obtain ⟨hle, hlt⟩ := le_of_mem_cellsAt hc
      have := hpresent (c.1 - k) (by omega)
      rwa [Nat.add_sub_cancel' hle] at this) (by rwa [cellsAt_keys])
    refine (congrArg (cellRead · a) (hmem.trans hput)).trans ?_
    rw [cellWriteAll_cellsAt, cellRead_cellWriteList _ _ _ _ hwf, if_neg (by omega)]

end

end Sys2Proof.Machine
end


section
/-! SUPPORT. O59: the host's responses (R193, R409), and the budget period (R408). -/

namespace Sys2Proof.Machine

/-! ### Responses to loads (R193, R256) -/

section
variable {core slot : Nat} {f : Slot} {va : Word} {s : State} (hslot : s.slotAt core slot = some f) (hwait : f.wait = .host va)
include hslot hwait

/-- R193: the load that the host answers issues again, with what the host has shown. -/
theorem hostLoadResponse_leads (shows : List (Nat × Byte)) : Leads (.hostLoadResponse core slot false shows) s fun t =>
    t.mem = s.mem ∧ t.slotAt core slot = some { f with hosts := addNew f.hosts va } ∧ (shows = [] → t.host = s.host)
      ∧ (∀ o b, shows = [(o, b)] → Memory.wf s.host = true → cellRead t.host (f.firing.ctx * 2 ^ 55 + o % 2 ^ 54) = b) := by
  have hshown : (s.hostShows f.firing.ctx shows).slotAt core slot = some f := hslot
  refine ⟨(s.hostShows f.firing.ctx shows).setSlot { f with hosts := addNew f.hosts va }, ?_, rfl,
    State.slotAt_setSlot hshown ⟨rfl, rfl, rfl⟩, fun h => by subst h; rfl, fun o b h hwf => ?_⟩
  · change Host.Outcome.next _ = _
    rw [hslot]
    dsimp only
    rw [hwait]
    rfl
  · subst h
    exact (cellRead_cellWrite _ _ _ _ hwf).trans (if_pos rfl)

section
variable (shows : List (Nat × Byte))

/-- R193: a refused load raises RIGHTS at its slot. -/
theorem hostLoadResponse_raises (halarm : (f.firing.alarm.isSome && !f.chunk.checked) = false) :
    ∃ v : State, v.focus = f ∧ v.mem = s.mem ∧ v.net = s.net
      ∧ exec (.hostLoadResponse core slot true shows) s = .next (v.takeException .rights f.reg.pc va 0 0) := by
  obtain ⟨o, hfocus⟩ := State.refocus_eq hslot
  refine ⟨{ s with focus := f, others := o }, rfl, rfl, rfl, ?_⟩
  change Host.Outcome.next _ = _
  rw [hslot]
  dsimp only
  rw [hwait]
  dsimp only
  rw [hfocus, halarm]
  rfl

/-- R256: a refused check of an alarm drops the alarm. -/
theorem hostLoadResponse_dropsAlarm (halarm : (f.firing.alarm.isSome && !f.chunk.checked) = true) :
    exec (.hostLoadResponse core slot true shows) s
      = .next (s.setSlot { f with wait := .none, chunk := { f.chunk with checkFail := true } }) := by
  change Host.Outcome.next _ = _
  rw [hslot]
  dsimp only
  rw [hwait]
  dsimp only
  rw [halarm]
  rfl

end

end

/-! ### Responses to stores (R192, R193) -/

/-- R289: a job reads as it was replaced. -/
theorem State.jobOf_setJob {s : State} {j : Job} {uid : Nat} (h : j.uid = uid) : (s.setJob j).jobOf uid = some j :=
  h ▸ find?_upsert_self _ j (decide_eq_true rfl) s.jobs

theorem State.jobOf_uid {s : State} {j : Job} {uid : Nat} (h : s.jobOf uid = some j) : j.uid = uid := by
  simpa using List.find?_some h

section
variable {i : Nat} {h : HostStore} {s : State} (hq : s.hostQ[i]? = some h)
  (hturn : ∀ j x, j < i → s.hostQ[j]? = some x → x.ctx ≠ h.ctx)
include hq hturn

/-- R409: a host store has its turn when none of its context is before it. -/
theorem State.hostTurn_eq : s.hostTurn i = some h := by
  have hnone : ((s.hostQ.take i).any fun x => x.ctx = h.ctx) = false := List.any_eq_false.2 fun x hx => by
    obtain ⟨j, hj⟩ := List.mem_iff_getElem?.1 hx
    rw [List.getElem?_take] at hj
    split at hj
    next hlt => simpa using hturn j x hlt hj
    next => cases hj
  rw [State.hostTurn, hq, Option.bind_some, hnone]
  rfl

theorem execHostStoreRefusal_of_turn :
    exec (.hostStoreRefusal i) s = .next (({ s with hostQ := dropAt s.hostQ i } : State).refuseStore h) := by
  change Host.Outcome.next _ = _
  rw [State.hostTurn_eq hq hturn]

/-- R193: the refusal of a firing's store sends a record. -/
theorem hostStoreRefusal_sends (hjob : h.job = none) (hnames : (s.ctxOf h.ctx).trapNamesNone = false) :
    Leads (.hostStoreRefusal i) s fun t =>
      t.hostQ = dropAt s.hostQ i ∧ t.host = s.host ∧ t.mem = s.mem ∧ ∃ m, t.net = s.net ++ [m] ∧ m.ctx = h.ctx
      ∧ m.payload = trapRecord h.fid 0 .rights h.ch false h.lc 0 h.fts h.va 1 0 := by
  have hexec := execHostStoreRefusal_of_turn hq hturn
  rw [State.refuseStore, hjob] at hexec
  dsimp only at hexec
  rw [State.sendRecord_posts (s := { s with hostQ := dropAt s.hostQ i }) rfl hnames] at hexec
  exact ⟨_, hexec, rfl, rfl, rfl, _, rfl, rfl, rfl⟩

/-- R193: the refusal of a copy's store ends the copy ERROR RIGHTS. -/
theorem hostStoreRefusal_fails {uid : Nat} {j : Job} (hjob : h.job = some uid) (hj : s.jobOf uid = some j)
    (hrunning : j.running = true) (herr : j.err = 0) : Leads (.hostStoreRefusal i) s fun t =>
      t.hostQ = dropAt s.hostQ i ∧ t.host = s.host ∧ t.jobOf uid = some { j with err := 8 } := by
  have hexec := execHostStoreRefusal_of_turn hq hturn
  have hj' : ({ s with hostQ := dropAt s.hostQ i } : State).jobOf uid = some j := hj
  rw [State.refuseStore, hjob] at hexec
  dsimp only at hexec
  rw [hj'] at hexec
  dsimp only at hexec
  rw [if_pos (by simp [hrunning, herr])] at hexec
  have huid : j.uid = uid := State.jobOf_uid hj
  exact ⟨_, hexec, rfl, rfl, State.jobOf_setJob huid⟩

/-- R192, R409: an accepted store lands in host memory. -/
theorem hostStoreAcceptance_leads (hwf : Memory.wf s.host = true) {k : Nat}
    (hk : h.ctx * 2 ^ 55 + (h.va.toNat - 0x80000000000000) = k) : Leads (.hostStoreAcceptance i) s fun t =>
      t.hostQ = dropAt s.hostQ i ∧ t.mem = s.mem ∧ t.net = s.net
      ∧ ∀ a, cellRead t.host a = if k ≤ a ∧ a < k + h.data.length then h.data.getD (a - k) 0 else cellRead s.host a := by
  subst hk
  refine ⟨{ s with
    hostQ := dropAt s.hostQ i
    host := cellWriteList s.host (h.ctx * 2 ^ 55 + (h.va.toNat - 0x80000000000000)) h.data }, ?_, rfl, rfl, rfl,
    fun a => cellRead_cellWriteList _ _ _ _ hwf⟩
  change Host.Outcome.next _ = _
  rw [State.hostTurn_eq hq hturn]

end

/-! ### The budget period (R408) -/

/-- R408: a cluster receives its grant. -/
def State.giveGrant (g : Nat) (s : State) (n : Nat) : State :=
  s.setCluster { s.clusterOf n with grant := g, remainder := 100000 * g }

/-- R408: the grant that a cluster received stays while others receive theirs. -/
theorem State.giveGrant_clusterOf (g : Nat) (s : State) {n k : Nat}
    (h : n = k ∨ (s.clusterOf k).grant = g ∧ (s.clusterOf k).remainder = 100000 * g) :
    ((s.giveGrant g n).clusterOf k).grant = g ∧ ((s.giveGrant g n).clusterOf k).remainder = 100000 * g := by
  rw [State.giveGrant, State.clusterOf_setCluster]
  split
  · exact ⟨rfl, rfl⟩
  next hne => exact h.resolve_left fun hn => hne (hn.symm.trans (s.clusterOf_id n).symm)

theorem State.giveGrants_clusterOf (g k : Nat) (l : List Nat) : ∀ s : State,
    (k ∈ l ∨ (s.clusterOf k).grant = g ∧ (s.clusterOf k).remainder = 100000 * g) →
    ((l.foldl (State.giveGrant g) s).clusterOf k).grant = g
      ∧ ((l.foldl (State.giveGrant g) s).clusterOf k).remainder = 100000 * g := by
  induction l with
  | nil => exact fun s h => h.resolve_left List.not_mem_nil
  | cons n l ih =>
    intro s h
    rw [List.foldl_cons]
    refine ih _ ?_
    by_cases hl : k ∈ l
    · exact .inl hl
    · refine .inr (s.giveGrant_clusterOf g (h.imp_left fun hk => ?_))
      exact ((List.mem_cons.1 hk).resolve_right hl).symm

theorem State.giveGrants_keeps (g : Nat) (l : List Nat) (s : State) :
    (l.foldl (State.giveGrant g) s).grantAt = s.grantAt ∧ (l.foldl (State.giveGrant g) s).mem = s.mem :=
  ⟨foldl_field State.grantAt (f := State.giveGrant g) (fun _ _ => rfl) l s,
    foldl_field State.mem (f := State.giveGrant g) (fun _ _ => rfl) l s⟩

theorem budgetPeriod_leads {s : State} (h : s.grantAt + 1000000 ≤ s.ticks) : Leads .budgetPeriod s fun t =>
    t.grantAt = s.ticks ∧ t.mem = s.mem ∧ ∀ k, k < 128 →
      (t.clusterOf k).grant = s.grantOf ∧ (t.clusterOf k).remainder = 100000 * s.grantOf := by
  obtain ⟨hat, hmem⟩ := State.giveGrants_keeps s.grantOf (List.range 128) { s with grantAt := s.ticks }
  exact ⟨_, congrArg Host.Outcome.next (if_neg (by omega)), hat, hmem, fun k hk =>
    State.giveGrants_clusterOf _ k _ _ (.inl (List.mem_range.2 hk))⟩

end Sys2Proof.Machine
end


section
/-! SUPPORT. O59: the turns of management (R405, R408): what the step of a turn leaves of the agenda. -/

namespace Sys2Proof.Machine

/-! ### What leaves the agenda (R183) -/

section
variable (s : State)

@[simp] theorem State.logWrite_agenda (attr : Nat → Attr) (cells : List Host.Cell) : (s.logWrite attr cells).agenda = s.agenda := by
  rw [State.logWrite_onMemory]
  rfl

@[simp] theorem State.applyBytes_agenda (k : Nat) (l : List Byte) : (s.applyBytes k l).agenda = s.agenda := by
  rw [State.applyBytes, State.applyWith_eq]
  rfl

@[simp] theorem State.placeLaw_agenda : s.placeLaw.agenda = s.agenda := by
  unfold State.placeLaw
  split
  · rfl
  split
  · rfl
  split
  · rfl
  · exact s.logWrite_agenda _ _

@[simp] theorem State.suspect_agenda (u : UnitKind) (n : Nat) (inc : Lane) : (s.suspect u n inc).agenda = s.agenda := by
  have halarm (t : State) (p : Prop) [Decidable p] (l : List Alarm) :
      (if p then t else { t with scoreAlarms := l }).agenda = t.agenda := by
    split
    · rfl
    · rfl
  have hhold (x : RingWord) (r : RingResult) : (s.holdScore u n x r).agenda = s.agenda :=
    (halarm _ _ _).trans (State.applyBytes_agenda _ _ _)
  unfold State.suspect
  extract_lets x r s1
  refine Eq.trans ?_ (hhold x r)
  split
  · rfl
  · rfl

/-! Records and NACKs (R81, R225, R359). -/

@[simp] theorem State.gangStop_agenda (ctx : Nat) : (s.gangStop ctx).agenda = s.agenda := by
  unfold State.gangStop
  extract_lets c hosts s1
  have hstops : s1.agenda = s.agenda := foldl_field State.agenda (fun t p => t.setCore_agenda _) hosts s
  rw [State.changeDesc, State.touch_agenda, State.putDesc, State.logWrite_agenda, State.setCtx_agenda, hstops]

@[simp] theorem State.recordToMgmt_agenda (ctx lc : Nat) (wait : Bool) (unit num : Nat) (l : List Byte) :
    (s.recordToMgmt ctx lc wait unit num l).agenda = s.agenda := by
  change (if wait = true then s.gangStop ctx else s).agenda = s.agenda
  rw [apply_ite State.agenda, s.gangStop_agenda, ite_self]

@[simp] theorem State.sendRecord_agenda (ctx lc : Nat) (wait toMgmt : Bool) (unit num : Nat) (l : List Byte) :
    (s.sendRecord ctx lc wait toMgmt unit num l).agenda = s.agenda := by
  unfold State.sendRecord State.sendRecordFrom
  dsimp only
  split
  · exact s.recordToMgmt_agenda ..
  · rfl

@[simp] theorem State.nackBuilt_agenda (m : Msg) : (s.nackBuilt m).agenda = s.agenda := by
  unfold State.nackBuilt State.sendNack
  dsimp only
  split
  · exact s.recordToMgmt_agenda ..
  split
  · rfl
  · exact s.sendRecord_agenda ..

/-! Alarms (R254, R255). -/

@[simp] theorem State.sendAlarm_agenda (ctx : Nat) (a : Alarm) : (s.sendAlarm ctx a).agenda = s.agenda := by
  have htake (m : Msg) : (s.takeSeq m).1.agenda = s.agenda := by
    unfold State.takeSeq
    split
    · rfl
    · rfl
  have hcount (t : State) (m : Msg) : (t.countOrdRecv m).agenda = t.agenda := by
    unfold State.countOrdRecv
    split
    · rfl
    · rfl
  unfold State.sendAlarm
  split
  · unfold State.releaseAlarm
    dsimp only
    split
    · exact htake _
    · exact ((State.nackBuilt_agenda _ _).trans (hcount _ _)).trans (htake _)
  · unfold State.queueAlarm
    dsimp only
    split
    · rfl
    · rfl

/-- R405: the errors that the last turn met reach their scores. -/
def State.settleErrors (s : State) : State := s.blamed.foldl (fun s b => s.suspect b.1 b.2.1 b.2.2) { s.placeLaw with blamed := [] }

/-- R405: the alarms that scores have armed go out. -/
def State.settleAlarms (s : State) : State := s.scoreAlarms.foldl (fun s a => s.sendAlarm 0 a) { s with scoreAlarms := [] }

theorem State.settle_eq : s.settle = s.settleErrors.settleAlarms := rfl

theorem State.suspects_agenda (l : List (UnitKind × Nat × Lane)) (t : State) :
    (l.foldl (fun s b => s.suspect b.1 b.2.1 b.2.2) t).agenda = t.agenda := by
  induction l generalizing t with
  | nil => rfl
  | cons b l ih => rw [List.foldl_cons, ih, State.suspect_agenda]

theorem State.settleErrors_agenda : s.settleErrors.agenda = s.agenda := by
  have hblamed (t : State) : State.agenda { t with blamed := [] } = t.agenda := rfl
  rw [State.settleErrors, State.suspects_agenda, hblamed, State.placeLaw_agenda]

theorem State.settleAlarms_agenda : s.settleAlarms.agenda = s.agenda :=
  foldl_field State.agenda (f := fun s a => s.sendAlarm 0 a) (fun t a => t.sendAlarm_agenda 0 a) s.scoreAlarms _

/-- R405: settling what the last turn left keeps the agenda. -/
theorem State.settle_agenda : s.settle.agenda = s.agenda := by
  rw [s.settle_eq, State.settleAlarms_agenda, State.settleErrors_agenda]

/-- R405: with no error met, no alarm armed and the default entry placed there is nothing to settle. -/
theorem State.settle_idle (hblamed : s.blamed = []) (halarms : s.scoreAlarms = []) (hlaw : s.lawAhead = false) :
    s.settle.mem = s.mem ∧ s.settle.clusters = s.clusters := by
  have hplace : s.placeLaw = s := if_pos (by rw [hlaw]; rfl)
  unfold State.settle
  rw [hplace, hblamed]
  dsimp only [List.foldl_nil]
  rw [halarms]
  exact ⟨rfl, rfl⟩

end

/-! ### Turns of management (R405, R408) -/

section
variable {s : State} (hboot : s.boot ≠ 2) {rest : List Turn}
include hboot

/-- R183: a step takes the first turn of the agenda, after settling. -/
theorem step_of_agenda {t : Turn} (ha : s.agenda = t :: rest) :
    s.settle.nextTurnOf = (t, { s.settle with agenda := rest }) ∧ step s = s.turn exec decodeWord? := by
  refine ⟨?_, if_neg (by simp [State.bootFailed, hboot])⟩
  rw [State.nextTurnOf, s.settle_agenda, ha]

theorem limits_step {plim pfix : Nat} (ha : s.agenda = .limits plim pfix :: rest) : ∃ t, step s = .next t ∧ t.plim = plim
    ∧ t.pfix = pfix ∧ t.agenda = rest
    ∧ (s.blamed = [] → s.scoreAlarms = [] → s.lawAhead = false → t.mem = s.mem ∧ t.clusters = s.clusters) := by
  obtain ⟨hturn, hstep⟩ := step_of_agenda hboot ha
  rw [State.turn, hturn] at hstep
  exact ⟨_, hstep, rfl, rfl, rfl, s.settle_idle⟩

theorem records_step {on : Bool} (ha : s.agenda = .records on :: rest) :
    ∃ t, step s = .next t ∧ t.records = on ∧ t.agenda = rest := by
  obtain ⟨hturn, hstep⟩ := step_of_agenda hboot ha
  rw [State.turn, hturn] at hstep
  exact ⟨_, hstep, rfl, rfl⟩

end

/-- Settles O59: errors and tests by what keeps the scores, host accesses by the keys of one page, the host's answers at the
slot or the store that waits for them, and the turns of management by the agenda. -/
theorem memoryAndHostSteps : Obligations.MemoryAndHostSteps := by
  unfold Obligations.MemoryAndHostSteps
  intro ctx lc core slot off ia n num i fatal pass u data shows plim pfix rest s
  refine ⟨scratchpadError_leads, thresholdRecord_leads, fun p hok hmap hmigs => hostMemoryRead_leads hok hmap hmigs rfl,
    hostMemoryRead_refused, hostMemoryWrite_refused, fun p hok _ hmap hro hmigs hwf hdram hexcl =>
      hostMemoryWrite_leads hok hmap hro hmigs hwf rfl hdram hexcl, fun f va hslot hwait =>
      ⟨hostLoadResponse_leads hslot hwait shows, hostLoadResponse_raises hslot hwait shows,
        hostLoadResponse_dropsAlarm hslot hwait shows⟩, fun h hq hturn => ⟨hostStoreRefusal_sends hq hturn,
        fun uid j => hostStoreRefusal_fails hq hturn, fun hwf => hostStoreAcceptance_leads hq hturn hwf rfl⟩,
    budgetPeriod_leads, fun hearly => congrArg Host.Outcome.next (if_pos hearly), fun hboot => limits_step hboot, fun on hboot => records_step hboot⟩

end Sys2Proof.Machine
end

section
/-! SUPPORT. O35: what each operation on the state leaves of the canonical form of memory (R180). Few operations write device or
host memory themselves; every other one keeps the form because its parts do, so each lemma follows the definition's branches. -/

namespace Sys2Proof.Machine

section
variable {s t : State}

/-! ### Branches, folds and optional results -/

theorem State.MemOk.ite {p : Prop} {_ : Decidable p} (hs : s.MemOk) (ht : t.MemOk) : (if p then s else t).MemOk := by
  split
  · exact hs
  · exact ht

theorem State.MemOk.foldl {α : Type} {f : State → α → State} {l : List α} (hm : s.MemOk)
    (hf : ∀ {t : State} {a : α}, t.MemOk → (f t a).MemOk) : (l.foldl f s).MemOk :=
  foldl_keeps (P := State.MemOk) (fun _ _ => hf) l s hm

/-- An operation on other fields. -/
theorem State.MemOk.same (hm : s.MemOk) (hmem : t.mem = s.mem := by rfl) (hhost : t.host = s.host := by rfl) : t.MemOk :=
  ⟨hmem ▸ hm.1, hhost ▸ hm.2⟩

/-- R180: the state that an optional operation gives, where it gives one, has canonical memory. -/
def GivesMemOk (o : Option State) : Prop := ∀ t, o = some t → t.MemOk

theorem GivesMemOk.none : GivesMemOk none := fun _ h => absurd h (Option.some_ne_none _).symm

theorem GivesMemOk.some (hm : s.MemOk) : GivesMemOk (some s) := fun _ h => Option.some.inj h ▸ hm

theorem GivesMemOk.ite {p : Prop} {_ : Decidable p} {o o' : Option State} (ho : GivesMemOk o) (ho' : GivesMemOk o') :
    GivesMemOk (if p then o else o') := by
  split
  · exact ho
  · exact ho'

theorem GivesMemOk.map {α : Type} {o : Option α} {g : α → State} (h : ∀ a, o = Option.some a → (g a).MemOk) :
    GivesMemOk (o.map g) := by
  intro t ht
  obtain ⟨a, ha, rfl⟩ := Option.map_eq_some_iff.1 ht
  exact h a ha

theorem State.MemOk.getD {o : Option State} (hm : s.MemOk) (ho : GivesMemOk o) : (o.getD s).MemOk := by
  cases o with
  | none => exact hm
  | some t => exact ho t rfl

/-- R180: the state that a step goes on with, where it goes on, has canonical memory. -/
def KeepsMem (r : Out) : Prop := ∀ t, r = .next t → t.MemOk

theorem KeepsMem.next (hm : s.MemOk) : KeepsMem (.next s) := fun _ h => Host.Outcome.next.inj h ▸ hm

theorem KeepsMem.ite {p : Prop} {_ : Decidable p} {r r' : Out} (h : KeepsMem r) (h' : KeepsMem r') :
    KeepsMem (if p then r else r') := by
  split
  · exact h
  · exact h'

end

section
variable {s : State}

/-! ### The operations on the state, each after those it uses -/

theorem State.MemOk.setCluster {c : Cluster} (hm : s.MemOk) : (s.setCluster c).MemOk := hm

theorem State.MemOk.cancelJobBox {j : Job} (hm : s.MemOk) : (s.cancelJobBox j).MemOk := by
  unfold State.cancelJobBox
  exact .ite hm hm

theorem State.MemOk.setJob {j : Job} (hm : s.MemOk) : (s.setJob j).MemOk := hm

theorem State.MemOk.post {m : Msg} (hm : s.MemOk) : (s.post m).MemOk := hm

theorem State.MemOk.report {r : MgmtRec} (hm : s.MemOk) : (s.report r).MemOk := hm

theorem State.MemOk.setCtx {c : Ctx} (hm : s.MemOk) : (s.setCtx c).MemOk := hm

/-- An operation on the memory side alone that keeps the form of M. -/
theorem State.MemOk.of_onMemory {t : State} (h : t = s.onMemory t) (hwf : Memory.wf t.mem = true) (hm : s.MemOk) : t.MemOk :=
  ⟨hwf, by rw [h]; exact hm.2⟩

theorem State.MemOk.dropTags (hm : s.MemOk) :
    s.dropTags.MemOk := hm.of_onMemory (State.onMemory_dropTags s s) (by simpa using hm.1)

theorem State.MemOk.reportUnit {a : Attr} {base : Nat} (hm : s.MemOk) : (s.reportUnit a base).MemOk :=
  hm.of_onMemory (State.onMemory_reportUnit s s a base) (by simpa using hm.1)

theorem State.MemOk.poisonUnit {base size : Nat} (hm : s.MemOk) : (s.poisonUnit base size).MemOk := hm

theorem State.MemOk.getUnit {a : Attr} {base : Nat} (hm : s.MemOk) : (s.getUnit a base).1.MemOk := by
  have h := congrArg Prod.fst (State.onMemory_getUnit s s a base)
  exact hm.of_onMemory h (by simpa using hm.1)

theorem State.MemOk.putUnit {a : Attr} {base : Nat} {bytes : List Byte} {poison : Bool} (hm : s.MemOk) :
    (s.putUnit a base bytes poison).MemOk := hm

theorem State.MemOk.writeBackUnit {a : Attr} {base : Nat} (hm : s.MemOk) : (s.writeBackUnit a base).MemOk :=
  hm.of_onMemory (State.onMemory_writeBackUnit s s a base) (by simpa using hm.1)

theorem State.MemOk.evict {l : LlcLine} (hm : s.MemOk) :
    (s.evict l).MemOk := hm.of_onMemory (State.onMemory_evict s s l) (by simpa using hm.1)

theorem State.MemOk.afterWrite {attr : Nat → Attr} {keys : List Nat} (hm : s.MemOk) : (s.afterWrite attr keys).MemOk :=
  hm.of_onMemory (State.onMemory_afterWrite s s attr keys) (by simpa using hm.1)

theorem State.MemOk.unpoison {c : Bool} {base size : Nat} (hm : s.MemOk) : (s.unpoison c base size).MemOk :=
  hm.of_onMemory (State.onMemory_unpoison s s base size c) (by simpa using hm.1)

theorem State.MemOk.fill {a : Attr} {k : Nat} (hm : s.MemOk) : (s.fill a k).MemOk :=
  hm.of_onMemory (State.onMemory_fill s s a k) (State.fill_wf s a k hm.1)

theorem State.MemOk.writeMem {attr : Nat → Attr} {cells : List Host.Cell} (hm : s.MemOk) : (s.writeMem attr cells).MemOk :=
  hm.of_onMemory (State.onMemory_writeMem s s attr cells) (State.writeMem_wf s attr cells hm.1)

theorem State.MemOk.logWrite {attr : Nat → Attr} {cells : List Host.Cell} (hm : s.MemOk) : (s.logWrite attr cells).MemOk :=
  hm.of_onMemory (State.logWrite_onMemory s attr cells) (State.logWrite_wf s attr cells hm.1)

theorem State.MemOk.putDesc {c : Ctx} (hm : s.MemOk) : (s.putDesc c).MemOk := by
  unfold State.putDesc
  exact hm.setCtx.logWrite

theorem State.MemOk.touch {w : List Loc} {which : Slot → Bool} (hm : s.MemOk) : (s.touch w which).MemOk := hm

theorem State.MemOk.changeDesc {c : Ctx} (hm : s.MemOk) : (s.changeDesc c).MemOk := by
  unfold State.changeDesc
  exact hm.putDesc.touch

theorem State.MemOk.setCore {c : CoreSt} (hm : s.MemOk) : (s.setCore c).MemOk := hm

theorem State.MemOk.gangStop {ctx : Nat} (hm : s.MemOk) : (s.gangStop ctx).MemOk := by
  unfold State.gangStop
  exact .changeDesc (.foldl hm fun hm => hm)

theorem State.MemOk.recordToMgmt {ctx lc : Nat} {wait : Bool} {unit num : Nat} {payload : List Byte} (hm : s.MemOk) :
    (s.recordToMgmt ctx lc wait unit num payload).MemOk := by
  unfold State.recordToMgmt
  exact .report (.ite hm.gangStop hm)

theorem State.MemOk.sendRecordFrom {box : Outbox} {ctx lc : Nat} {wait toMgmt : Bool} {unit num : Nat} {payload : List Byte}
    (hm : s.MemOk) :
    (s.sendRecordFrom box ctx lc wait toMgmt unit num payload).MemOk := by
  unfold State.sendRecordFrom
  exact .ite hm.recordToMgmt hm

theorem State.MemOk.sendRecord {ctx lc : Nat} {wait toMgmt : Bool} {unit num : Nat} {payload : List Byte} (hm : s.MemOk) :
    (s.sendRecord ctx lc wait toMgmt unit num payload).MemOk := by
  unfold State.sendRecord
  exact hm.sendRecordFrom

theorem State.MemOk.sendNack {m : Msg} {info1 unit num : Nat} (hm : s.MemOk) : (s.sendNack m info1 unit num).MemOk := by
  unfold State.sendNack
  split
  · exact hm.recordToMgmt
  · exact .ite hm hm.sendRecord

theorem State.MemOk.nackBuilt {m : Msg} (hm : s.MemOk) : (s.nackBuilt m).MemOk := by
  unfold State.nackBuilt
  exact hm.sendNack

theorem State.MemOk.postHw {m : Msg} (hm : s.MemOk) : (s.postHw m).MemOk := by
  unfold State.postHw
  exact .ite hm hm.nackBuilt

theorem State.MemOk.postFabric {m : Msg} (hm : s.MemOk) : (s.postFabric m).MemOk := hm

theorem State.MemOk.tellBarrier {ctx id : Nat} (hm : s.MemOk) : (s.tellBarrier ctx id).MemOk := by
  unfold State.tellBarrier
  exact .ite hm (.foldl hm fun hm => hm)

theorem State.MemOk.arriveHere {ctx owner id : Nat} {req : List (Nat × Nat)} {far : List (Nat × Nat × Nat)} (hm : s.MemOk) :
    (s.arriveHere ctx owner id req far).MemOk := by
  unfold State.arriveHere
  exact .ite (.tellBarrier (.foldl (.foldl hm fun hm => hm.postHw) fun hm => hm)) hm.setCtx.tellBarrier

theorem State.MemOk.arrive {ctx owner id : Nat} {req : List (Nat × Nat)} (hm : s.MemOk) :
    (s.arrive ctx owner id req).MemOk := by
  unfold State.arrive
  exact .ite hm hm.arriveHere

theorem State.MemOk.watchEvent {ctx cluster wg bits sat : Nat} {fid : Word} (hm : s.MemOk) :
    (s.watchEvent ctx cluster wg bits sat fid).MemOk := by
  unfold State.watchEvent
  exact .ite hm hm

theorem State.MemOk.setLc {c : Nat} {l : LCore} (hm : s.MemOk) : (s.setLc c l).MemOk := hm

theorem State.MemOk.changeTile {ctx lc t : Nat} {g : Tile → Tile} (hm : s.MemOk) : (s.changeTile ctx lc t g).MemOk := by
  unfold State.changeTile
  exact .ite hm hm

theorem State.MemOk.complete {j : Job} (hm : s.MemOk) : (s.complete j).MemOk := by
  unfold State.complete
  extract_lets owner unconfigured j1 j2 s1 taken s2 s3 s4 s5
  have h2 : s2.MemOk := .ite (.foldl hm fun hm => hm.changeTile) hm
  have h3 : s3.MemOk := by
    unfold s3
    split
    · exact h2.changeTile
    · exact h2
  have h5 : s5.MemOk := by
    unfold s5
    split
    · exact .ite h3.watchEvent h3.watchEvent.arrive
    · exact h3.watchEvent
  split
  · exact h5.postHw
  · exact h5

theorem State.MemOk.cancelCopies {ctx lc tag : Nat} (hm : s.MemOk) : (s.cancelCopies ctx lc tag).MemOk := by
  unfold State.cancelCopies
  exact hm.foldl fun hm => .ite hm.complete hm.cancelJobBox

theorem State.MemOk.cancelMatrix {ctx lc id : Nat} (hm : s.MemOk) : (s.cancelMatrix ctx lc id).MemOk := by
  unfold State.cancelMatrix
  split
  · exact hm
  · exact .ite hm.complete (.ite hm.cancelJobBox.setJob hm)

theorem State.MemOk.pruneJobs {e : Engine} {ctx lc : Nat} (hm : s.MemOk) : (s.pruneJobs e ctx lc).MemOk := by
  unfold State.pruneJobs
  exact .ite hm hm

theorem State.MemOk.fillMissing {attr : Nat → Attr} {keys : List Nat} (hm : s.MemOk) : (s.fillMissing attr keys).MemOk :=
  hm.of_onMemory (State.fillMissing_onMemory s attr keys) (State.fillMissing_wf s attr keys hm.1)

theorem State.MemOk.charge {ctx cluster n : Nat} (hm : s.MemOk) : (s.charge ctx cluster n).MemOk := by
  unfold State.charge
  exact .ite hm hm

theorem State.MemOk.chargeBursts {r : State} {ctx cluster : Nat} (hm : s.MemOk) : (s.chargeBursts r ctx cluster).MemOk := by
  unfold State.chargeBursts
  exact hm.charge

theorem State.MemOk.deviceRead {ctx cluster : Nat} {keys : List Nat} (hm : s.MemOk) :
    (s.deviceRead ctx cluster keys).MemOk := by
  unfold State.deviceRead
  exact hm.fillMissing.chargeBursts.charge

theorem State.MemOk.readSpan {cluster ctx : Nat} {va : Word} {n : Nat} (hm : s.MemOk) :
    (s.readSpan cluster ctx va n).MemOk := by
  unfold State.readSpan
  split
  · exact hm.deviceRead
  · exact hm

theorem State.MemOk.readRecords {j : Job} (hm : s.MemOk) : (s.readRecords j).MemOk := by
  unfold State.readRecords
  exact .foldl hm fun hm => hm.readSpan

theorem State.MemOk.releaseJob {r : Release} {j : Job} (hm : s.MemOk) : (s.releaseJob r j).MemOk := by
  unfold State.releaseJob
  exact .pruneJobs (.ite hm.readRecords.same.setLc hm.readRecords.same)

theorem State.MemOk.chargeTree {m : Msg} {p wire : Nat} {l : List Nat} (hm : s.MemOk) : (s.chargeTree m p wire l).MemOk := by
  unfold State.chargeTree
  exact hm.charge

theorem State.MemOk.countSent {ctx lc : Nat} (hm : s.MemOk) : (s.countSent ctx lc).MemOk := hm

theorem State.MemOk.releaseMulti {r : Release} {rect : Word} {m : Msg} (hm : s.MemOk) : (s.releaseMulti r rect m).MemOk := by
  unfold State.releaseMulti
  exact .foldl (.chargeTree (.ite hm hm.watchEvent)) fun hm => hm

theorem State.MemOk.countOrdRecv {m : Msg} (hm : s.MemOk) : (s.countOrdRecv m).MemOk := by
  unfold State.countOrdRecv
  exact .ite hm hm

theorem State.MemOk.discardUndefined {m : Msg} (hm : s.MemOk) : (s.discardUndefined m).MemOk := by
  unfold State.discardUndefined
  exact hm.countOrdRecv.nackBuilt

theorem State.MemOk.chargeFlits {m : Msg} {p wire : Nat} (hm : s.MemOk) : (s.chargeFlits m p wire).MemOk := by
  unfold State.chargeFlits
  exact hm.charge

theorem State.MemOk.takeSeq {m : Msg} (hm : s.MemOk) : (s.takeSeq m).1.MemOk := by
  unfold State.takeSeq
  split <;> exact hm

theorem State.MemOk.releaseMsg {r : Release} {m : Msg} (hm : s.MemOk) : (s.releaseMsg r m).MemOk := by
  unfold State.releaseMsg
  exact .ite (.postFabric (.takeSeq (.countSent (.ite hm hm.watchEvent))))
    (.ite (.post (.chargeFlits (.takeSeq (.countSent (.ite hm hm.watchEvent)))))
      (.discardUndefined (.takeSeq (.countSent (.ite hm hm.watchEvent)))))

theorem State.MemOk.releaseAlarm {m : Msg} (hm : s.MemOk) : (s.releaseAlarm m).MemOk := by
  unfold State.releaseAlarm
  exact .ite hm.takeSeq.post hm.takeSeq.discardUndefined

theorem State.MemOk.releaseHeld {r : Release} {x : Held} (hm : s.MemOk) : (s.releaseHeld r x).MemOk := by
  unfold State.releaseHeld
  split
  · exact .ite hm.releaseAlarm hm.releaseMsg
  · exact hm.releaseMulti
  · exact hm
  · exact hm
  · exact hm
  · split <;> exact hm
  · exact hm.releaseJob
  · exact hm.cancelMatrix
  · exact hm.cancelCopies
  · exact .ite hm.releaseAlarm hm
  · exact hm
  · exact hm

theorem State.MemOk.releaseAll {r : Release} (hm : s.MemOk) : (s.releaseAll r).MemOk := by
  unfold State.releaseAll
  exact .foldl hm fun hm => hm.releaseHeld

theorem State.MemOk.drainReleases {n : Nat} (hm : s.MemOk) : (s.drainReleases n).MemOk := by
  induction n generalizing s with
  | zero => exact hm
  | succ n ih =>
    unfold State.drainReleases
    dsimp only
    split
    · exact hm
    · exact ih (State.MemOk.releaseAll hm)

theorem State.MemOk.watchElsewhere {r : Release} (hm : s.MemOk) : (s.watchElsewhere r).MemOk := by
  unfold State.watchElsewhere
  refine .foldl (.foldl hm ?_) ?_
  · intro s a hm
    split
    · exact .ite hm hm
    · exact hm
  · intro s a hm
    split
    · exact hm
    · exact hm

theorem State.MemOk.tlbInvalidate {which : Nat → Bool} {a b : Word} (hm : s.MemOk) : (s.tlbInvalidate which a b).MemOk := by
  unfold State.tlbInvalidate
  extract_lets named s1 s2
  have h : s1.MemOk := .foldl hm fun hm => hm.setCluster
  clear_value s1
  exact .touch ⟨h.1, h.2⟩

theorem State.MemOk.invElsewhere {r : Release} (hm : s.MemOk) : (s.invElsewhere r).MemOk := by
  unfold State.invElsewhere
  refine .foldl hm ?_
  intro s a hm
  split
  · exact .ite hm.tlbInvalidate hm
  · exact hm

theorem State.MemOk.placeLaw (hm : s.MemOk) : s.placeLaw.MemOk := by
  unfold State.placeLaw
  refine .ite hm ?_
  split
  · exact hm
  · exact .ite hm hm.logWrite.same

theorem State.MemOk.writeScoreLaw (hm : s.MemOk) : s.writeScoreLaw.MemOk := by
  unfold State.writeScoreLaw
  exact hm.same.placeLaw

theorem State.MemOk.putStage {c : Ctx} (hm : s.MemOk) : (s.putStage c).MemOk := by
  unfold State.putStage
  exact hm.setCtx.logWrite.touch

theorem State.MemOk.applyWith {attr : Nat → Attr} {k : Nat} {l : List Byte} (hm : s.MemOk) :
    (s.applyWith attr k l).MemOk := by
  unfold State.applyWith
  exact hm.logWrite.touch

theorem State.MemOk.applyBytes {k : Nat} {l : List Byte} (hm : s.MemOk) : (s.applyBytes k l).MemOk := by
  unfold State.applyBytes
  exact hm.applyWith

theorem State.MemOk.loadImages {ctx : Nat} {l : List LCoreSpec} (hm : s.MemOk) : (s.loadImages ctx l).MemOk := by
  unfold State.loadImages
  exact .foldl hm fun hm => (.ite hm hm.applyBytes)

theorem State.MemOk.create {c : CtxSpec} (hm : s.MemOk) : (s.create c).MemOk := by
  unfold State.create
  exact .ite hm.changeDesc.putStage.loadImages.writeScoreLaw hm.changeDesc.putStage.loadImages

theorem State.MemOk.bootImages {l : List (Nat × BootImage)} (hm : s.MemOk) : (s.bootImages l).MemOk := by
  induction l generalizing s with
  | nil => exact hm
  | cons x l ih =>
    unfold State.bootImages
    exact .ite (ih hm) hm

theorem State.MemOk.farPerform {pkg copy : Nat} {a : Attr} {l : List (Nat × Byte)} (hm : s.MemOk) :
    (s.farPerform pkg copy a l).MemOk := by
  unfold State.farPerform
  exact .foldl hm fun hm => hm

theorem State.takeWrite_givesMemOk {pkg : Nat} {m : OutsideMsg} {copy i0 i1 : Nat} (hm : s.MemOk) :
    GivesMemOk (s.takeWrite pkg m copy i0 i1) := by
  unfold State.takeWrite
  split
  · dsimp only
    split
    · exact .some hm
    · exact .ite .none (.some (State.MemOk.farPerform (.ite hm.fillMissing hm)))
  · exact .some hm

theorem State.MemOk.takeFar {ctx pkg copy obj : Nat} (hm : s.MemOk) : (s.takeFar ctx pkg copy obj).MemOk := by
  unfold State.takeFar
  split
  · exact hm.fillMissing
  · exact hm

theorem State.MemOk.takeBarrier {ctx pkg id n arr : Nat} {phase : Bool} {mine : Nat} (hm : s.MemOk) :
    (s.takeBarrier ctx pkg id n arr phase mine).MemOk := by
  unfold State.takeBarrier
  exact .ite hm hm

theorem State.MemOk.configBarrier {ctx owner id n : Nat} (hm : s.MemOk) : (s.configBarrier ctx owner id n).MemOk := by
  unfold State.configBarrier
  exact hm.setCtx.tellBarrier

theorem State.MemOk.takeConfig {ctx id n : Nat} (hm : s.MemOk) : (s.takeConfig ctx id n).MemOk := by
  unfold State.takeConfig
  exact .ite hm.configBarrier.touch hm

theorem State.MemOk.takeArrival {ctx pkg id num : Nat} {req : Option (Nat × Nat)} (hm : s.MemOk) :
    (s.takeArrival ctx pkg id num req).MemOk := by
  unfold State.takeArrival
  exact .ite hm.setCtx.arriveHere hm

theorem State.MemOk.redDelivered {m : Msg} (hm : s.MemOk) : (s.redDelivered m).MemOk := by
  unfold State.redDelivered
  split <;> exact hm

theorem State.MemOk.postResult {ctx group : Nat} {g : RedGroup} {round : Nat} {payload : List Byte} (hm : s.MemOk) :
    (s.postResult ctx group g round payload).MemOk := by
  unfold State.postResult
  exact .ite hm hm.nackBuilt.redDelivered

theorem State.MemOk.takeResult {ctx pkg group round : Nat} {a b : Word} {l : List Byte} (hm : s.MemOk) :
    (s.takeResult ctx pkg group round a b l).MemOk := by
  unfold State.takeResult
  exact .ite hm.postResult hm

theorem State.MemOk.takeSum {ctx pkg group round : Nat} {a b : Word} {l : List Byte} (hm : s.MemOk) :
    (s.takeSum ctx pkg group round a b l).MemOk := by
  unfold State.takeSum
  exact .ite hm hm

theorem State.fabricTake_givesMemOk {pkg : Nat} {m : OutsideMsg} (hm : s.MemOk) : GivesMemOk (s.fabricTake pkg m) := by
  unfold State.fabricTake
  split
  · exact .some (.ite hm hm)
  · exact .some hm.takeSum
  · exact .some hm
  · exact .some hm.takeResult
  · exact .some hm.takeArrival
  · exact .some hm.takeConfig
  · exact .some hm.takeBarrier
  · exact .some hm.takeFar
  · exact takeWrite_givesMemOk hm

theorem State.MemOk.fabricArrive {pkg num : Nat} {m : OutsideMsg} (hm : s.MemOk) : (s.fabricArrive pkg num m).MemOk := by
  unfold State.fabricArrive
  exact .ite hm (.getD hm (fabricTake_givesMemOk hm))

theorem State.MemOk.nack {m : Msg} {info1 : Nat} (hm : s.MemOk) : (s.nack m info1).MemOk := by
  unfold State.nack
  exact hm.sendNack

theorem State.MemOk.setHurdle {ctx lcl : Nat} {h : HRouter} (hm : s.MemOk) : (s.setHurdle ctx lcl h).MemOk := hm

theorem State.MemOk.hsLost {ctx lcl set rid : Nat} (hm : s.MemOk) : (s.hsLost ctx lcl set rid).MemOk := hm

theorem State.MemOk.sendExit {ctx lcl : Nat} {r : HRec} {stg : Nat} (hm : s.MemOk) : (s.sendExit ctx lcl r stg).MemOk := by
  unfold State.sendExit
  exact .ite hm hm.setHurdle.nackBuilt.hsLost

theorem State.MemOk.flushOrder {ctx lcl set lc n : Nat} (hm : s.MemOk) : (s.flushOrder ctx lcl set lc n).MemOk := by
  induction n generalizing s with
  | zero => exact hm
  | succ n ih =>
    unfold State.flushOrder
    dsimp only
    split
    · exact ih hm
    split
    · exact ih (State.MemOk.sendExit hm)
    · exact hm

theorem State.MemOk.hsDrop {ctx lcl set rid stg : Nat} {err : Bool} (hm : s.MemOk) :
    (s.hsDrop ctx lcl set rid stg err).MemOk := by
  unfold State.hsDrop
  dsimp only
  split
  · exact hm
  · exact .ite (.flushOrder (.ite hm.setHurdle.sendExit hm.setHurdle.setHurdle)) (.ite hm.setHurdle.sendExit hm)

theorem State.MemOk.hsRefused {m : Msg} (hm : s.MemOk) : (s.hsRefused m).MemOk := by
  unfold State.hsRefused
  split
  · exact hm.hsDrop
  · exact hm
  · exact hm

theorem State.MemOk.refuse {m : Msg} {info1 : Nat} (hm : s.MemOk) : (s.refuse m info1).MemOk := by
  unfold State.refuse
  exact hm.nack.hsRefused

theorem State.MemOk.failJob {j : Job} {n : Nat} (hm : s.MemOk) : (s.failJob j n).MemOk := hm

theorem State.MemOk.undeliverable {m : Msg} (hm : s.MemOk) : (s.undeliverable m).MemOk := by
  unfold State.undeliverable
  split
  · split
    · exact .ite hm hm
    · exact hm
  · split
    · exact .ite hm hm
    · exact hm
  · exact hm
  · exact hm
  · exact hm
  · exact hm
  · exact hm
  · exact hm.refuse

theorem State.MemOk.setPort {n : Nat} {p : Port} (hm : s.MemOk) : (s.setPort n p).MemOk := hm

theorem State.MemOk.writeRoutes {l : List (Nat × Nat)} (hm : s.MemOk) : (s.writeRoutes l).MemOk := hm

theorem State.MemOk.reroute {port : Nat} (hm : s.MemOk) : (s.reroute port).MemOk := by
  unfold State.reroute
  split <;> exact hm

theorem State.MemOk.portDown {port : Nat} (hm : s.MemOk) : (s.portDown port).MemOk := by
  unfold State.portDown
  exact hm.setPort.reroute.report

theorem State.MemOk.retrain {port : Nat} {ok : Bool} (hm : s.MemOk) : (s.retrain port ok).MemOk := by
  unfold State.retrain
  exact .ite hm (.ite hm (.ite hm hm.setPort.portDown))

theorem State.MemOk.putScore {u : UnitKind} {n : Nat} {x : RingWord} (hm : s.MemOk) : (s.putScore u n x).MemOk := hm

theorem State.MemOk.setScore {u : UnitKind} {n : Nat} {x : RingWord} (hm : s.MemOk) : (s.setScore u n x).MemOk := by
  unfold State.setScore
  exact hm.putScore.applyBytes

theorem State.MemOk.holdScore {u : UnitKind} {n : Nat} {x : RingWord} {r : RingResult} (hm : s.MemOk) :
    (s.holdScore u n x r).MemOk := by
  unfold State.holdScore
  have h : (s.setScore u n r.word).MemOk := hm.setScore
  generalize s.setScore u n r.word = v at h
  exact .ite h ⟨h.1, h.2⟩

theorem State.MemOk.suspect {u : UnitKind} {n : Nat} {inc : Lane} (hm : s.MemOk) : (s.suspect u n inc).MemOk := by
  unfold State.suspect
  extract_lets x r s1
  have h : s1.MemOk := hm.holdScore
  clear_value s1
  exact .ite (.report ⟨h.1, h.2⟩) h

theorem State.MemOk.refuseStore {x : HostStore} (hm : s.MemOk) : (s.refuseStore x).MemOk := by
  unfold State.refuseStore
  split
  · split
    · exact .ite hm hm
    · exact hm
  · exact hm.sendRecord

theorem State.writeBlock_givesMemOk {cluster ctx : Nat} {va : Word} {l : List Byte} (hm : s.MemOk) :
    GivesMemOk (s.writeBlock cluster ctx va l) := by
  unfold State.writeBlock
  exact .map fun _ _ => hm.logWrite.touch.chargeBursts.charge

theorem State.MemOk.cancelBox {f : Slot} (hm : s.MemOk) : (s.cancelBox f).MemOk := by
  unfold State.cancelBox
  exact .ite hm hm

theorem State.MemOk.endSlots {f : Slot} (hm : s.MemOk) : (s.endSlots f).MemOk := by
  unfold State.endSlots
  exact .foldl hm fun hm => hm.cancelBox

theorem State.MemOk.withFocus {f : Slot} (hm : s.MemOk) : (s.withFocus f).MemOk := hm

theorem State.MemOk.takeException {c : Cause} {pc i0 i1 i2 : Word} (hm : s.MemOk) :
    (s.takeException c pc i0 i1 i2).MemOk := by
  unfold State.takeException
  refine .ite hm ?_
  have hs : (((s.endSlots s.focus).cancelBox s.focus).withFocus s.focus.squash).MemOk := hm.endSlots.cancelBox.withFocus
  dsimp only
  generalize ((s.endSlots s.focus).cancelBox s.focus).withFocus s.focus.squash = u at hs
  generalize LCore.freeBlock _ = o
  cases o with
  | none => exact .sendRecord ⟨hs.1, hs.2⟩
  | some b =>
    dsimp only
    have hw := State.writeBlock_givesMemOk (cluster := clusterIdOf s.focus.core) (ctx := s.focus.firing.ctx)
      (va := (s.focus.chunk.sees (u.ctxOf s.focus.firing.ctx)).blockVa s.focus.firing.lc b)
      (l := blockBytes s.focus.squash.reg) hs
    generalize u.writeBlock _ _ _ _ = w at hw ⊢
    cases w with
    | none => exact .sendRecord ⟨hs.1, hs.2⟩
    | some v =>
      have hv := hw v rfl
      exact .sendRecord ⟨hv.1, hv.2⟩

theorem State.MemOk.refocus {core k : Nat} (hm : s.MemOk) : (s.refocus core k).MemOk := by
  unfold State.refocus
  refine .ite hm ?_
  split
  · exact hm
  · exact hm

theorem State.MemOk.hostShows {ctx : Nat} {data : List (Nat × Byte)} (hm : s.MemOk) : (s.hostShows ctx data).MemOk :=
  ⟨hm.1, Memory.wf_cellWriteAll _ _ hm.2⟩

theorem State.MemOk.setSlot {g : Slot} (hm : s.MemOk) : (s.setSlot g).MemOk := hm

theorem State.MemOk.answerHost {a : HostAnswer} (hm : s.MemOk) : (s.answerHost a).MemOk := hm

theorem State.MemOk.keepZeros {n : Nat} (hm : s.MemOk) : (s.keepZeros n).MemOk := by
  unfold State.keepZeros
  exact .ite hm hm.logWrite

theorem State.MemOk.meetCtx {n : Nat} (hm : s.MemOk) : (s.meetCtx n).MemOk := by
  unfold State.meetCtx
  exact .ite hm hm

theorem State.MemOk.refresh {keys : List Nat} (hm : s.MemOk) : (s.refresh keys).MemOk := by
  unfold State.refresh
  exact .ite hm (.foldl (.foldl (.foldl hm fun hm => hm.meetCtx) fun hm => hm.keepZeros) fun hm => hm)

theorem State.MemOk.refreshLaw {keys : List Nat} (hm : s.MemOk) : (s.refreshLaw keys).MemOk := by
  unfold State.refreshLaw
  split
  · exact .ite hm hm
  · exact hm

theorem State.MemOk.refreshAll {keys : List Nat} (hm : s.MemOk) : (s.refreshAll keys).MemOk := by
  unfold State.refreshAll
  exact hm.refresh.refreshLaw

theorem State.MemOk.drainLine {bad : List Nat} {l : LlcLine} (hm : s.MemOk) : (s.drainLine bad l).MemOk := by
  unfold State.drainLine
  exact .foldl hm fun hm => (.ite hm (.ite hm hm.writeBackUnit))

theorem State.MemOk.sliceOffline {slice : Nat} {bad : List Nat} (hm : s.MemOk) : (s.sliceOffline slice bad).MemOk := by
  unfold State.sliceOffline
  extract_lets s1
  have h : s1.MemOk := .foldl hm fun hm => hm.drainLine
  clear_value s1
  exact .dropTags ⟨h.1, h.2⟩

theorem State.MemOk.reportOffline {slice : Nat} (hm : s.MemOk) : (s.reportOffline slice).MemOk := hm

theorem State.MemOk.poisonWrite {a : Attr} {k : Nat} (hm : s.MemOk) : (s.poisonWrite a k).MemOk := by
  unfold State.poisonWrite
  exact hm.poisonUnit.afterWrite.poisonUnit

theorem State.MemOk.sectorBad {pa : Nat} (hm : s.MemOk) : (s.sectorBad pa).MemOk := by
  unfold State.sectorBad
  split
  · exact hm.poisonWrite.touch
  · exact hm

theorem State.MemOk.scrubDram {a : Attr} {base : Nat} (hm : s.MemOk) : (s.scrubDram a base).MemOk := by
  unfold State.scrubDram
  extract_lets stored r
  have hr : r.1.MemOk := hm.getUnit
  clear_value r
  split
  · exact .ite hr.putUnit hr
  · exact hr.reportUnit.putUnit

theorem State.MemOk.fillFor {f : Slot} (hm : s.MemOk) : (s.fillFor f).MemOk := by
  unfold State.fillFor
  split
  · exact hm.fill.chargeBursts.setSlot
  · exact hm

theorem State.MemOk.matchDual {ctx lc : Nat} (hm : s.MemOk) : (s.matchDual ctx lc).MemOk := hm

theorem State.MemOk.leaveExcl {core k : Nat} (hm : s.MemOk) : (s.leaveExcl core k).MemOk := hm

theorem State.MemOk.preempt {which : Slot → Bool} (hm : s.MemOk) : (s.preempt which).MemOk := by
  unfold State.preempt
  exact .foldl hm fun hm => hm.cancelBox.leaveExcl

theorem State.MemOk.keepShadow {ctx n : Nat} (hm : s.MemOk) : (s.keepShadow ctx n).MemOk := by
  unfold State.keepShadow
  extract_lets l kept s1 q a
  have h1 : s1.MemOk := hm.preempt
  clear_value s1
  exact .ite hm (.matchDual ⟨h1.1, h1.2⟩)

theorem State.MemOk.keepShadows (hm : s.MemOk) : s.keepShadows.MemOk := by
  unfold State.keepShadows
  exact .foldl hm fun hm => hm.keepShadow

theorem State.MemOk.fenceRouter {p : Nat} (hm : s.MemOk) : (s.fenceRouter p).MemOk := hm

theorem State.MemOk.retire {u : UnitKind} {num : Nat} (hm : s.MemOk) : (s.retire u num).MemOk := by
  unfold State.retire
  extract_lets s1 s2
  have h1 : s1.MemOk := hm
  clear_value s1
  have h2 : s2.MemOk := by
    unfold s2
    split
    · exact .ite h1 h1.sliceOffline.reportOffline
    · exact h1.fenceRouter
    · exact .ite h1 h1.portDown
    · exact h1
  exact h2.keepShadows.report

theorem State.MemOk.failTest {u : UnitKind} {num : Nat} (hm : s.MemOk) : (s.failTest u num).MemOk := by
  unfold State.failTest
  split
  · exact hm
  · exact hm.retire

theorem State.MemOk.passTest {u : UnitKind} {num : Nat} (hm : s.MemOk) : (s.passTest u num).MemOk := by
  unfold State.passTest
  exact hm.holdScore.report

theorem State.MemOk.scramble {k n : Nat} (hm : s.MemOk) : (s.scramble k n).MemOk := ⟨Memory.wf_cellWriteAll _ _ hm.1, hm.2⟩

theorem State.MemOk.freeSlot {f : Slot} (hm : s.MemOk) : (s.freeSlot f).MemOk := hm

theorem State.MemOk.loseCore {u : UnitKind} {num ctx : Nat} {l : LCore} (hm : s.MemOk) : (s.loseCore u num ctx l).MemOk := by
  unfold State.loseCore
  extract_lets mine s1 s2
  have h1 : s1.MemOk := .foldl hm fun hm => hm.freeSlot
  have h2 : s2.MemOk := ⟨h1.1, h1.2⟩
  clear_value s2
  exact h2.setCtx.scramble.gangStop.report

theorem State.MemOk.requeue {ctx : Nat} (hm : s.MemOk) : (s.requeue ctx).MemOk := hm

theorem State.MemOk.loseRecords {ctx lcl : Nat} (hm : s.MemOk) : (s.loseRecords ctx lcl).MemOk := by
  unfold State.loseRecords
  exact .ite hm hm

theorem State.MemOk.saveDual {inside : Nat → Bool} {ctx : Nat} {l : LCore} (hm : s.MemOk) :
    (s.saveDual inside ctx l).MemOk := by
  unfold State.saveDual
  exact .ite (.requeue (.keepShadow (.setLc (.ite hm.loseRecords hm)))) hm.keepShadow

theorem State.MemOk.failEngines {which : Nat → Bool} (hm : s.MemOk) : (s.failEngines which).MemOk := by
  unfold State.failEngines
  exact .foldl hm fun hm => hm.complete

theorem State.MemOk.clearSlots {inside : Nat → Bool} (hm : s.MemOk) : (s.clearSlots inside).MemOk := by
  unfold State.clearSlots
  exact hm.preempt

theorem State.MemOk.resetClusters {which : Nat → Bool} (hm : s.MemOk) : (s.resetClusters which).MemOk := by
  unfold State.resetClusters
  exact .foldl hm fun hm => (.foldl hm fun hm => hm)

theorem State.MemOk.replyRouter {cluster seq code : Nat} (hm : s.MemOk) : (s.replyRouter cluster seq code).MemOk := by
  unfold State.replyRouter
  dsimp only
  split
  · exact hm
  · exact .ite hm.setHurdle.hsDrop hm

theorem State.MemOk.replyEngine {cluster : Nat} {e : Engine} {seq code : Nat} (hm : s.MemOk) :
    (s.replyEngine cluster e seq code).MemOk := by
  unfold State.replyEngine
  split
  · exact hm
  · exact .ite hm (.ite hm hm)

theorem State.MemOk.replySlot {core k : Nat} {va : Word} {code : Nat} (hm : s.MemOk) :
    (s.replySlot core k va code).MemOk := by
  unfold State.replySlot
  split
  · exact hm
  · exact .ite hm.setSlot (.ite hm.setSlot (.ite hm.setSlot hm.refocus.takeException))

theorem State.MemOk.applyMailbox {cluster mbox seq code : Nat} (hm : s.MemOk) :
    (s.applyMailbox cluster mbox seq code).MemOk := by
  unfold State.applyMailbox
  dsimp only
  split
  · exact hm
  · exact .ite hm.setCluster.replySlot (.ite hm.setCluster.replyEngine
      (.ite hm.setCluster.replyEngine hm.setCluster.replyRouter))

theorem State.MemOk.abortBoxes {cluster : Nat} (hm : s.MemOk) : (s.abortBoxes cluster).MemOk := by
  unfold State.abortBoxes
  exact .foldl hm fun hm => (.ite hm hm.applyMailbox)

theorem State.MemOk.refuseHere {m : Msg} {info1 : Nat} {fresh : Bool} (hm : s.MemOk) :
    (s.refuseHere m info1 fresh).MemOk := by
  unfold State.refuseHere
  exact .refuse (.ite hm.countOrdRecv hm)

theorem State.MemOk.turnBack {inside : Nat → Bool} (hm : s.MemOk) : (s.turnBack inside).MemOk := by
  unfold State.turnBack
  exact .foldl ⟨hm.1, hm.2⟩ fun hm => hm.refuseHere.redDelivered

theorem State.MemOk.fence {u : UnitKind} {num cluster : Nat} (hm : s.MemOk) : (s.fence u num cluster).MemOk := by
  unfold State.fence
  extract_lets r inside at' placed duals lost s0 s1 s2 s3 s4 s5
  have h0 : s0.MemOk := State.MemOk.turnBack (s := { s with fences := addNew s.fences r }) hm
  clear_value s0
  have h2 : s2.MemOk := .resetClusters (.clearSlots (.failEngines (.foldl h0 fun hm => hm.abortBoxes)))
  clear_value s2
  have h4 : s4.MemOk := .foldl (.foldl h2 fun hm => hm.saveDual) fun hm => hm.loseCore
  clear_value s4
  exact .suspect (.keepShadows (.ite h4.report h4))

theorem State.MemOk.loseRecord {cluster : Nat} (hm : s.MemOk) : (s.loseRecord cluster).MemOk := by
  have h : State.MemOk { s with fresh := s.fresh + 1 } := hm
  unfold State.loseRecord
  generalize ({ s with fresh := s.fresh + 1 } : State) = u at h
  dsimp only
  split
  · exact h
  · exact h.hsDrop.sendRecordFrom

theorem State.install_givesMemOk {cluster ctx : Nat} {va : Word} (hm : s.MemOk) : GivesMemOk (s.install cluster ctx va) := by
  unfold State.install
  exact .map fun _ _ => hm

theorem State.MemOk.readWalk {cluster : Nat} {c : Ctx} {va n level table : Nat} (hm : s.MemOk) :
    (s.readWalk cluster c va n level table).MemOk := by
  induction n generalizing s level table with
  | zero => exact hm
  | succ n ih =>
    unfold State.readWalk
    split
    · exact hm
    · exact .ite (ih hm.deviceRead) hm.deviceRead

theorem State.MemOk.readTables {cluster ctx : Nat} {va : Word} (hm : s.MemOk) : (s.readTables cluster ctx va).MemOk := by
  unfold State.readTables
  exact .ite hm.readWalk hm

theorem State.MemOk.refillTlb {cluster ctx : Nat} {va : Word} (hm : s.MemOk) : (s.refillTlb cluster ctx va).MemOk := by
  unfold State.refillTlb
  exact .ite (.getD (State.MemOk.readTables hm) (install_givesMemOk (State.MemOk.readTables hm))) hm

theorem State.MemOk.writeSave {c : Ctx} {off : Nat} {l : List Byte} (hm : s.MemOk) : (s.writeSave c off l).MemOk := by
  unfold State.writeSave
  exact hm.applyWith

theorem State.MemOk.writeEnds {ctx : Nat} (hm : s.MemOk) : (s.writeEnds ctx).MemOk := by
  unfold State.writeEnds
  exact hm.writeSave

theorem State.toInbox_givesMemOk {m : Msg} (hm : s.MemOk) : GivesMemOk (s.toInbox m) := by
  unfold State.toInbox
  exact .ite (.some hm.setCtx.writeSave.writeEnds.countOrdRecv) .none

theorem State.MemOk.hsDelivered {m : Msg} (hm : s.MemOk) : (s.hsDelivered m).MemOk := by
  unfold State.hsDelivered
  split <;> exact hm

theorem State.MemOk.enqueue {m : Msg} (hm : s.MemOk) : (s.enqueue m).MemOk := by
  unfold State.enqueue
  exact hm.setLc.applyBytes

theorem State.MemOk.foldDigest {x : Firing} (hm : s.MemOk) : (s.foldDigest x).MemOk := hm

theorem State.MemOk.freeMessages {x : Firing} (hm : s.MemOk) : (s.freeMessages x).MemOk := by
  unfold State.freeMessages
  exact .ite (.ite hm hm) hm

theorem State.MemOk.endFiring {x : Firing} (hm : s.MemOk) : (s.endFiring x).MemOk := by
  unfold State.endFiring
  refine .ite hm ?_
  split
  · exact .ite hm.foldDigest.freeMessages hm.foldDigest.freeMessages.post
  · exact hm.foldDigest.freeMessages

theorem State.MemOk.freeBlock {x : Susp} (hm : s.MemOk) : (s.freeBlock x).MemOk := hm

theorem State.MemOk.restartFiring {x : Susp} {l : List Byte} {fromReady : Nat} (hm : s.MemOk) :
    (s.restartFiring x l fromReady).MemOk := hm

theorem State.MemOk.applyReply {m : Msg} (hm : s.MemOk) : (s.applyReply m).MemOk := by
  unfold State.applyReply
  dsimp only
  split
  · exact hm
  · split
    · split
      · exact hm.readSpan.freeBlock.restartFiring
      · exact hm.readSpan
    · exact .endFiring (.freeBlock ⟨hm.1, hm.2⟩)
    · exact hm.gangStop
    · exact hm

theorem State.deliverAt_givesMemOk {m : Msg} {fresh : Bool} (hm : s.MemOk) : GivesMemOk (s.deliverAt m fresh) := by
  unfold State.deliverAt
  split
  · exact .none
  · exact .some hm.refuseHere
  · exact .some hm.applyReply
  · exact .ite .none (.some (State.MemOk.hsDelivered (.ite hm.enqueue.countOrdRecv hm.enqueue)))

theorem State.MemOk.endFences (hm : s.MemOk) : (s.endFences).MemOk := hm

theorem State.MemOk.restoreUnits {ctx : Nat} {u : SavedUnits} (hm : s.MemOk) : (s.restoreUnits ctx u).MemOk := by
  unfold State.restoreUnits
  exact .foldl (.foldl (.foldl hm fun hm => hm) fun hm => hm) fun hm => hm

theorem State.MemOk.swappedIn {ctx : Nat} {l : LCore} (hm : s.MemOk) : (s.swappedIn ctx l).MemOk := hm

theorem State.MemOk.backIn {c new : Ctx} (hm : s.MemOk) : (s.backIn c new).MemOk := by
  unfold State.backIn
  exact .foldl hm fun hm => hm

theorem State.MemOk.resume {c1 : Ctx} (hm : s.MemOk) : (s.resume c1).MemOk := by
  unfold State.resume
  exact .endFences (.requeue (.foldl (.foldl hm.backIn.changeDesc fun hm => hm.restoreUnits) fun hm => hm.keepShadow.matchDual))

theorem State.MemOk.rollBack {x : Image} (hm : s.MemOk) : (s.rollBack x).MemOk := by
  unfold State.rollBack
  exact hm.setCtx.logWrite.same

theorem State.MemOk.fromImage {c : Ctx} (hm : s.MemOk) : (s.fromImage c).MemOk := by
  unfold State.fromImage
  split
  · exact hm
  · refine .ite hm ?_
    split
    · exact hm.rollBack
    · exact hm

theorem State.MemOk.beginMig {m : Move} (hm : s.MemOk) : (s.beginMig m).1.MemOk := by
  unfold State.beginMig
  dsimp only
  split
  · exact hm
  · exact State.MemOk.preempt hm

theorem State.MemOk.beginStop {ctx : Nat} (hm : s.MemOk) : (s.beginStop ctx).MemOk := by
  unfold State.beginStop
  exact hm.setCtx.preempt

theorem State.MemOk.startMove {m : Move} (hm : s.MemOk) : (s.startMove m).1.MemOk := by
  unfold State.startMove
  split
  · exact hm
  split
  · exact hm
  · split
    · exact hm
    · exact hm.beginStop
  · split
    · exact hm.beginMig
    · exact hm

theorem State.MemOk.startFrom {done l : List Move} (hm : s.MemOk) : (s.startFrom done l).MemOk := by
  induction l generalizing s done with
  | nil => exact hm
  | cons m l ih => exact ih (State.MemOk.startMove hm)

theorem State.MemOk.startMoves (hm : s.MemOk) : s.startMoves.MemOk := by
  unfold State.startMoves
  exact hm.startFrom

theorem State.MemOk.endMove {i : Nat} {m : Msg} (hm : s.MemOk) : (s.endMove i m).MemOk := by
  unfold State.endMove
  exact hm.same.postHw.startMoves

theorem State.MemOk.writeSaved {c : Ctx} (hm : s.MemOk) : (s.writeSaved c).MemOk := by
  unfold State.writeSaved
  exact hm.writeSave.writeSave.same

theorem State.MemOk.writeImage {ctx : Nat} (hm : s.MemOk) : (s.writeImage ctx).MemOk := by
  unfold State.writeImage
  exact .writeSaved (.tlbInvalidate (.foldl hm fun hm => hm.evict))

theorem State.MemOk.agePath {ctx lc : Nat} (hm : s.MemOk) : (s.agePath ctx lc).MemOk := hm

theorem State.MemOk.relocate {ctx lc pcore hidx : Nat} (hm : s.MemOk) : (s.relocate ctx lc pcore hidx).MemOk := by
  unfold State.relocate
  exact .endFences (.requeue (.keepShadow (.ite (.setLc (.ite hm hm)) (.agePath (.setCore (.setLc (.ite hm hm)))))))

theorem State.MemOk.placeFar {ctx : Nat} {g : RedGroup} {pkg lc : Nat} {m : Msg} {flags fid : Word} (hm : s.MemOk) :
    (s.placeFar ctx g pkg lc m flags fid).MemOk := by
  unfold State.placeFar
  exact hm.watchEvent.postFabric

theorem State.MemOk.placeResult {ctx group : Nat} {g : RedGroup} {payload : List Byte} {flags fid : Word} (hm : s.MemOk) :
    (s.placeResult ctx group g payload flags fid).MemOk := by
  unfold State.placeResult
  exact hm.watchEvent.postResult

theorem State.MemOk.hsLeave {ctx lcl : Nat} {r : HRec} (hm : s.MemOk) : (s.hsLeave ctx lcl r).MemOk := by
  unfold State.hsLeave
  exact .ite hm.setHurdle.flushOrder hm.sendExit

theorem State.MemOk.hsJudge {ctx lcl set rid stage : Nat} {pass err : Bool} {mask : Word} {bytes : List Byte} {cycles : Nat}
    (hm : s.MemOk) :
    (s.hsJudge ctx lcl set rid stage pass err mask bytes cycles).MemOk := by
  unfold State.hsJudge
  dsimp only
  split
  · exact hm
  · exact .ite hm.hsDrop (.ite hm.setHurdle.hsDrop (.ite hm.setHurdle.hsLeave hm.setHurdle))

theorem State.MemOk.hsSend {ctx lcl set stage : Nat} {r : HRec} {k : Nat} (hm : s.MemOk) :
    (s.hsSend ctx lcl set stage r k).MemOk := by
  unfold State.hsSend
  exact .ite hm hm.setHurdle.nackBuilt.hsRefused

theorem State.MemOk.nanRecord {cluster ctx lc ch core : Nat} {fid pc fts i0 i1 i2 : Word} (hm : s.MemOk) :
    (s.nanRecord cluster ctx lc ch core fid pc fts i0 i1 i2).MemOk := by
  unfold State.nanRecord
  exact hm.sendRecordFrom

theorem State.MemOk.closeWindow {cluster : Nat} {w : NanWindow} (hm : s.MemOk) : (s.closeWindow cluster w).MemOk := by
  unfold State.closeWindow
  exact .ite hm hm.setCluster.nanRecord

theorem State.MemOk.closeIdle {cluster ctx wg : Nat} (hm : s.MemOk) : (s.closeIdle cluster ctx wg).MemOk := by
  unfold State.closeIdle
  split
  · exact hm
  · exact .ite hm hm.closeWindow

theorem State.MemOk.forward {m : Migration} {line : Nat} (hm : s.MemOk) : (s.forward m line).MemOk := hm

theorem State.MemOk.setMig {m : Migration} (hm : s.MemOk) : (s.setMig m).MemOk := hm

theorem State.MemOk.closeFrame {j : Job} {m : Migration} (hm : s.MemOk) : (s.closeFrame j m).MemOk := by
  unfold State.closeFrame
  exact .ite hm hm

theorem State.MemOk.carryPoison {m : Migration} {line : Nat} (hm : s.MemOk) : (s.carryPoison m line).MemOk := by
  unfold State.carryPoison
  exact .ite (.foldl hm fun hm => hm) hm

theorem State.MemOk.copyLine {m : Migration} {line : Nat} (hm : s.MemOk) : (s.copyLine m line).1.MemOk := by
  unfold State.copyLine
  exact hm.fillMissing.writeMem.carryPoison

theorem State.MemOk.migrateLine {j : Job} {m : Migration} {line : Nat} (hm : s.MemOk) : (s.migrateLine j m line).MemOk := by
  have h : (if line ∈ m.marked then s.copyLine m line else (s, m)).1.MemOk := by
    split
    · exact hm.copyLine
    · exact hm
  exact .ite (.ite hm (.ite hm.copyLine.chargeBursts.setMig hm.setMig)) (.ite hm h.chargeBursts.forward.closeFrame)

theorem State.MemOk.openNext {j : Job} (hm : s.MemOk) : (s.openNext j).MemOk := by
  unfold State.openNext
  exact .ite hm hm

theorem State.MemOk.engineMiss {j : Job} {va : Word} {elem : Nat} {write : Bool} (hm : s.MemOk) :
    (s.engineMiss j va elem write).MemOk := by
  unfold State.engineMiss
  exact .ite hm hm

theorem State.MemOk.queueAlarm {ctx : Nat} {a : Alarm} (hm : s.MemOk) : (s.queueAlarm ctx a).MemOk := by
  unfold State.queueAlarm
  exact .ite hm hm

theorem State.MemOk.sendAlarm {ctx : Nat} {a : Alarm} (hm : s.MemOk) : (s.sendAlarm ctx a).MemOk := by
  unfold State.sendAlarm
  exact .ite hm.releaseAlarm hm.queueAlarm

theorem State.MemOk.readLaw {j : Job} {law : Nat} (hm : s.MemOk) : (s.readLaw j law).MemOk := by
  unfold State.readLaw
  exact .ite hm hm.readSpan

theorem State.MemOk.sweepWord {j : Job} {elem key : Nat} {a : Attr} {addr : Word} (hm : s.MemOk) :
    (s.sweepWord j elem key a addr).MemOk := by
  unfold State.sweepWord
  extract_lets w t
  have ht : t.MemOk := .ite hm.readLaw hm
  clear_value t
  refine .ite ht.setJob ?_
  split
  · exact ht.failJob
  · exact .ite ht.setJob (.ite ht.setJob (.ite ht.applyWith.setJob (.sendAlarm ht.applyWith.setJob)))

theorem State.MemOk.fillLocs {j : Job} {l : List EngLoc} (hm : s.MemOk) : (s.fillLocs j l).MemOk := by
  unfold State.fillLocs
  refine .chargeBursts (.foldl hm ?_)
  intro s a hm
  split
  · exact hm.fillMissing
  · exact hm

theorem State.MemOk.sweepElement {j : Job} {elem : Nat} {o : Operand} (hm : s.MemOk) : (s.sweepElement j elem o).MemOk := by
  unfold State.sweepElement
  split
  · refine .ite hm ?_
    split
    · exact .ite hm.fillLocs.failJob (.ite hm hm.fillLocs.sweepWord)
    · exact hm.engineMiss
    · exact hm
  · exact .ite hm (.ite hm (.ite hm hm.sweepWord))
  · exact hm

theorem State.MemOk.engineHostStore {j : Job} {a : Word} {l : List Byte} (hm : s.MemOk) :
    (s.engineHostStore j a l).MemOk := hm

theorem State.MemOk.perform1 {j : Job} {a : Attr} {k : Nat} {b : Byte} (hm : s.MemOk) : (s.perform1 j a k b).MemOk := hm

theorem State.MemOk.sendWrite {j : Job} {elem : Nat} {w : Write} (hm : s.MemOk) : (s.sendWrite j elem w).MemOk := hm

theorem State.MemOk.countTile {j : Job} {sat nan : Bool} (hm : s.MemOk) : (s.countTile j sat nan).MemOk := by
  unfold State.countTile
  split
  · exact hm
  · exact .ite hm hm

theorem State.MemOk.markDone {j : Job} {elem : Nat} {w : Write} (hm : s.MemOk) : (s.markDone j elem w).MemOk := by
  unfold State.markDone
  exact hm.countTile.setJob

theorem State.MemOk.performStep {j : Job} {elem : Nat} (hm : s.MemOk) : (s.performStep j elem).MemOk := by
  unfold State.performStep
  split
  · exact hm
  next w _ =>
    extract_lets n locs s1
    have h1 : s1.MemOk := .ite hm.fillLocs hm
    clear_value s1
    refine .ite hm (.ite hm.markDone (.ite hm.sendWrite.markDone ?_))
    split
    · exact hm.engineMiss
    · exact .ite hm (.markDone (.foldl h1 fun hm => hm.perform1))
    · exact hm.engineHostStore.markDone
    · exact hm.failJob

theorem State.MemOk.poisonLoc {j : Job} {x : EngLoc} (hm : s.MemOk) : (s.poisonLoc j x).MemOk := by
  unfold State.poisonLoc
  split
  · exact .ite hm.poisonWrite hm
  · exact hm

theorem State.MemOk.poisonElem {j : Job} {elem : Nat} (hm : s.MemOk) : (s.poisonElem j elem).MemOk := by
  unfold State.poisonElem
  split
  · exact hm
  · exact .foldl hm fun hm => hm.poisonLoc

theorem State.MemOk.poisonTargets {j : Job} (hm : s.MemOk) : (s.poisonTargets j).MemOk := by
  unfold State.poisonTargets
  exact .ite hm (.foldl hm fun hm => hm.poisonElem)

theorem State.MemOk.farStep {j : Job} {elem : Nat} {o : Operand} {backs : List Nat} {refused : Bool} (hm : s.MemOk) :
    (s.farStep j elem o backs refused).MemOk := by
  unfold State.farStep
  exact .ite hm (.ite hm (.ite hm hm))

theorem State.MemOk.readStep {j : Job} {elem : Nat} {backs : List Nat} {refused : Bool} (hm : s.MemOk) :
    (s.readStep j elem backs refused).MemOk := by
  unfold State.readStep
  split
  · exact hm
  next o _ =>
    extract_lets t
    have ht : t.MemOk := hm.fillLocs
    clear_value t
    refine .ite hm (.ite hm.setJob (.ite hm.farStep (.ite hm.failJob ?_)))
    split
    · exact ht.setJob
    · exact ht.engineMiss
    · exact .failJob (.ite ht.poisonTargets ht)

theorem State.MemOk.copyElement {cluster uid op e0 e1 : Nat} (hm : s.MemOk) :
    (s.copyElement cluster uid op e0 e1).MemOk := by
  unfold State.copyElement
  split
  · exact hm
  · exact .ite hm.readStep (.ite hm.readStep (.ite hm.performStep (.ite hm.performStep hm)))

theorem State.MemOk.mapMigrated {uid : Nat} (hm : s.MemOk) : (s.mapMigrated uid).MemOk := by
  unfold State.mapMigrated
  exact .foldl hm fun hm => (.ite hm hm.putStage)

theorem State.MemOk.trapNans {j : Job} {l : List NanOut} (hm : s.MemOk) : (s.trapNans j l).MemOk := by
  unfold State.trapNans
  split
  · exact hm
  · exact .ite hm.closeIdle.watchEvent.setCluster (.ite hm.closeIdle.watchEvent.setCluster.nanRecord hm.closeIdle.watchEvent)

theorem State.MemOk.endStr {j : Job} (hm : s.MemOk) : (s.endStr j).1.MemOk := by
  unfold State.endStr
  split
  · exact hm
  dsimp only
  split
  · exact hm
  · exact State.MemOk.trapNans hm

theorem State.MemOk.endLs {j : Job} (hm : s.MemOk) : (s.endLs j).1.MemOk := by
  unfold State.endLs
  dsimp only
  split <;> exact hm

theorem State.MemOk.matrixResult {j : Job} (hm : s.MemOk) : (s.matrixResult j).1.MemOk := by
  unfold State.matrixResult
  split
  · exact hm
  split
  · exact hm.endLs
  · exact hm.endStr
  · exact hm
  · exact hm

theorem State.MemOk.sawApply {p : Pend} (hm : s.MemOk) : (s.sawApply p).MemOk := hm

theorem State.MemOk.cover {p : Pend} (hm : s.MemOk) : (s.cover p).MemOk := by
  unfold State.cover
  split
  · exact hm
  · exact .ite hm.unpoison.same hm

theorem State.MemOk.takeChecks {j : Job} {far : Option Nat} (hm : s.MemOk) : (s.takeChecks j far).1.MemOk := by
  unfold State.takeChecks
  dsimp only
  split
  · exact hm
  split
  · split
    · split <;> exact hm
    · exact hm
  split
  · split <;> exact hm
  · exact hm

theorem State.MemOk.takeJob {j : Job} {far : Option Nat} (hm : s.MemOk) : (s.takeJob j far).MemOk := by
  unfold State.takeJob
  split
  · exact .changeTile (.foldl hm.takeChecks.setJob fun hm => hm.changeTile)
  · exact .foldl hm.takeChecks.setJob fun hm => hm.changeTile

theorem State.deliverPlain_givesMemOk {m : Msg} (hm : s.MemOk) : GivesMemOk (s.deliverPlain m) := by
  unfold State.deliverPlain
  exact .ite .none (.ite (.some hm.refuseHere) (.ite (toInbox_givesMemOk hm) (.ite (.some hm.refuseHere)
    (.ite .none (deliverAt_givesMemOk hm)))))

theorem State.deliverMsg_givesMemOk {m : Msg} (hm : s.MemOk) : GivesMemOk (s.deliverMsg m) := by
  unfold State.deliverMsg
  exact .map fun t ht => (deliverPlain_givesMemOk hm t ht).redDelivered

theorem State.MemOk.deliverBy {i : Nat} {like : Msg → Bool} {rule : State → Msg → Option State} (hm : s.MemOk)
    (hrule : ∀ {t : State} {m : Msg}, t.MemOk → GivesMemOk (rule t m)) : (s.deliverBy i like rule).MemOk := by
  unfold State.deliverBy
  split
  · exact hm
  · exact .ite hm (.getD hm (hrule hm))

theorem State.MemOk.tellRounds {ctx group n : Nat} (hm : s.MemOk) : (s.tellRounds ctx group n).MemOk := by
  unfold State.tellRounds
  exact .ite hm (.foldl hm fun hm => hm)

theorem State.contribute_givesMemOk {m : Msg} (hm : s.MemOk) : GivesMemOk (s.contribute m) := by
  unfold State.contribute
  split
  · exact .ite .none (.some (State.MemOk.tellRounds hm))
  · exact .none

theorem State.MemOk.tscReply {cluster mbox seq code : Nat} (hm : s.MemOk) : (s.tscReply cluster mbox seq code).MemOk := hm

theorem State.MemOk.writeTable {ctx ia w : Nat} (hm : s.MemOk) : (s.writeTable ctx ia w).MemOk := by
  unfold State.writeTable
  split
  · exact hm.applyBytes
  · exact hm

theorem State.MemOk.zeroFrame {frame : Nat} (hm : s.MemOk) : (s.zeroFrame frame).MemOk := ⟨Memory.wf_filter _ _ hm.1, hm.2⟩

theorem State.MemOk.mapFrame {ctx attrs : Nat} {r : State × Nat} (hm : s.MemOk) (hr : s.mapFrame ctx attrs = some r) :
    r.1.MemOk := by
  obtain ⟨pa, -, rfl⟩ := Option.map_eq_some_iff.1 hr
  exact hm.putStage.zeroFrame

theorem State.MemOk.demand {ctx attrs va n level ia : Nat} (hm : s.MemOk) : (s.demand ctx attrs va n level ia).MemOk := by
  induction n generalizing s level ia with
  | zero => exact hm
  | succ n ih =>
    unfold State.demand
    split
    · exact hm
    next r hr => exact .ite (hm.mapFrame hr).writeTable (ih (hm.mapFrame hr).writeTable)

theorem State.MemOk.answerWalk {cluster ctx lc : Nat} {va : Word} (hm : s.MemOk) :
    (s.answerWalk cluster ctx lc va).1.MemOk := by
  have hread : (s.readTables cluster ctx va).MemOk := hm.readTables
  unfold State.answerWalk
  generalize s.readTables cluster ctx va = u at hread
  dsimp only
  split
  · split
    next t ht => exact install_givesMemOk hread t ht
    next => exact hread
  · exact hread
  · split
    · exact hread
    split
    · exact hread
    split
    · split
      next v hv => exact install_givesMemOk hread.demand v hv
      next => exact hread.demand
    · exact hread

theorem State.MemOk.serveWalk {m : Msg} (hm : s.MemOk) : (s.serveWalk m).MemOk := by
  unfold State.serveWalk
  exact hm.answerWalk.tscReply

theorem State.deliverWalk_givesMemOk {m : Msg} (hm : s.MemOk) : GivesMemOk (s.deliverWalk m) := by
  unfold State.deliverWalk
  refine .ite (.some hm) ?_
  split
  · exact deliverMsg_givesMemOk hm
  · exact .some hm.serveWalk

theorem State.MemOk.lapse (hm : s.MemOk) : s.lapse.MemOk := by
  unfold State.lapse
  split <;> exact hm

theorem State.MemOk.queueExcl {f : Slot} (hm : s.MemOk) : (s.queueExcl f).MemOk := by
  unfold State.queueExcl
  exact .ite hm hm

theorem State.MemOk.squashSlot {f : Slot} (hm : s.MemOk) : (s.squashSlot f).MemOk := by
  unfold State.squashSlot
  exact hm.cancelBox.setSlot.queueExcl

theorem State.MemOk.squashChunk {f : Slot} (hm : s.MemOk) : (s.squashChunk f).MemOk := by
  unfold State.squashChunk
  split
  · exact hm.squashSlot.squashSlot
  · exact hm.squashSlot

theorem State.MemOk.withReady {l : List Firing} (hm : s.MemOk) : State.MemOk { s with ready := l } := hm

theorem State.MemOk.dualMismatch {f g : Slot} {h1 h2 : Word} (hm : s.MemOk) : (s.dualMismatch f g h1 h2).MemOk := by
  unfold State.dualMismatch
  extract_lets x src y s1 s2 s3
  have hs1 : s1.MemOk := hm.cancelBox.cancelBox.freeSlot.freeSlot
  clear_value s1
  have hs2 : s2.MemOk := hs1.suspect.suspect
  clear_value s2
  exact .ite hs2.withReady hs2.withReady.sendRecord

theorem State.MemOk.nextChunk {f : Slot} {x : Firing} {phase : Bool} {far : Option Nat} (hm : s.MemOk) :
    (s.nextChunk f x phase far).MemOk := by
  unfold State.nextChunk
  exact .ite hm.leaveExcl.endFiring.freeSlot hm

theorem State.MemOk.arriveOf {f : Slot} (hm : s.MemOk) : (s.arriveOf f).MemOk := by
  unfold State.arriveOf
  split
  · exact hm.arrive
  · exact hm

theorem State.MemOk.release {r : Release} (hm : s.MemOk) : (s.release r).MemOk := by
  unfold State.release
  exact .ite hm hm.releaseAll

theorem State.MemOk.stepAlarms {ctx : Nat} {l : List Held} (hm : s.MemOk) : (s.stepAlarms ctx l).1.MemOk := by
  unfold State.stepAlarms
  refine foldl_keeps (P := fun r : State × List Alarm => r.1.MemOk) ?_ _ _ (hm.foldl ?_)
  · intro r x hr
    split <;> exact hr
  · intro t x ht
    split
    · exact .ite ht ht.queueAlarm
    · exact ht

theorem State.MemOk.writeHs {ctx lcl : Nat} {sel v : Word} (hm : s.MemOk) : (s.writeHs ctx lcl sel v).MemOk := by
  unfold State.writeHs
  exact .ite hm hm

theorem State.MemOk.writeEntry {ctx : Nat} {sel w0 w1 w2 : Word} (hm : s.MemOk) : (s.writeEntry ctx sel w0 w1 w2).MemOk := by
  unfold State.writeEntry
  exact .foldl hm fun hm => hm.refuse

theorem State.MemOk.moveLaw (hm : s.MemOk) : s.moveLaw.MemOk := by
  unfold State.moveLaw
  refine .ite hm ?_
  split
  · exact hm
  · exact hm

theorem State.MemOk.keepBases {ctx num : Nat} (hm : s.MemOk) : (s.keepBases ctx num).MemOk := by
  unfold State.keepBases
  exact .ite hm hm

theorem State.applyHeld_sys_other {n : Nat} {a b : Word} {f : Slot} (h : n ∉ [32, 33, 36, 37, 38, 39]) :
    s.applyHeld f (.sys n a b) = s := by
  by_cases hn : n < 40
  · interval_cases n
    any_goals contradiction
    all_goals rfl
  · obtain ⟨m, rfl⟩ := Nat.exists_eq_add_of_le' (Nat.le_of_not_lt hn)
    rfl

theorem State.MemOk.withMoves {l : List Move} (hm : s.MemOk) : State.MemOk { s with moves := l } := hm

theorem State.MemOk.applyHeld_sys {n : Nat} {a b : Word} {f : Slot} (hm : s.MemOk) : (s.applyHeld f (.sys n a b)).MemOk := by
  by_cases h : n ∈ [32, 33, 36, 37, 38, 39]
  · simp only [List.mem_cons, List.not_mem_nil, or_false] at h
    obtain rfl | rfl | rfl | rfl | rfl | rfl := h
    · exact hm
    · exact hm.tlbInvalidate
    · exact hm
    · exact hm
    · exact hm.putDesc.withMoves
    · exact hm
  · rw [State.applyHeld_sys_other h]
    exact hm

theorem State.MemOk.applyHeld {f : Slot} {x : Held} (hm : s.MemOk) : (s.applyHeld f x).MemOk := by
  cases x with
  | csr cc num v => exact .ite (.moveLaw (.setCtx hm.keepBases)) (.setCtx hm.keepBases)
  | ttWr => exact hm.writeEntry
  | hsWr => exact hm.writeHs
  | job j => exact .ite hm hm
  | barCfg id n => exact .ite hm hm.configBarrier
  | sys n a b => exact hm.applyHeld_sys
  | _ => exact hm

theorem State.MemOk.reportLogFault {f : Slot} (hm : s.MemOk) : (s.reportLogFault f).MemOk := by
  unfold State.reportLogFault
  exact .ite hm hm

theorem State.MemOk.commitEffect (hm : s.MemOk) : s.commitEffect.MemOk := by
  unfold State.commitEffect
  extract_lets f hash x0 x s0 cells cl locs others s1 s2 wg q s3 s4 s5 w s6 phase far s7 s8 s9 s10
  have h0 : s0.MemOk := hm.reportLogFault.fillMissing
  clear_value s0
  have h1 : s1.MemOk := h0.logWrite.refreshAll.chargeBursts.charge
  clear_value s1
  have h2 : s2.MemOk := .foldl h1 fun hm => hm.applyHeld
  have hq : q.1.MemOk := h2.stepAlarms
  have h4 : s4.MemOk := hq.touch.watchEvent
  have h6 : s6.MemOk := (State.MemOk.ite h4 h4.setLc).release
  clear_value s6
  have h7 : s7.MemOk := h6.arriveOf
  clear_value s7
  have h8 : s8.MemOk := by
    unfold s8
    split
    · exact h7.nextChunk
    · exact h7
  clear_value s8
  have h10 : s10.MemOk := .ite h8.nextChunk.suspect h8.nextChunk
  exact h10.startMoves

theorem State.MemOk.digestMismatch {f : Slot} {old new : Word} (hm : s.MemOk) : (s.digestMismatch f old new).MemOk := by
  unfold State.digestMismatch
  exact .ite hm.takeException hm.squashChunk.setSlot

theorem State.MemOk.readDigest {f : Slot} (hm : s.MemOk) : (s.readDigest f).MemOk := by
  unfold State.readDigest
  extract_lets x c t
  have ht : t.MemOk := hm.readSpan
  clear_value t
  refine .ite hm ?_
  split
  · exact ht.deviceRead
  · exact ht

theorem State.MemOk.commitFocus (hm : s.MemOk) : s.commitFocus.MemOk := by
  unfold State.commitFocus
  extract_lets f t verify
  have ht : t.MemOk := hm.readDigest
  clear_value t
  have hv : verify.MemOk := by
    unfold verify
    split
    · exact ht.digestMismatch
    · exact ht.commitEffect
  refine .ite hm (.ite hv ?_)
  split
  · exact ht
  · exact .ite ht (.ite hv ht.dualMismatch)

theorem State.MemOk.commitPrimary (hm : s.MemOk) : s.commitPrimary.MemOk := by
  unfold State.commitPrimary
  refine .ite hm.commitFocus ?_
  split
  · exact hm
  · exact hm.refocus.commitFocus

theorem State.MemOk.addSlot {f : Slot} (hm : s.MemOk) : (s.addSlot f).MemOk := by
  unfold State.addSlot
  exact .ite hm hm

theorem State.MemOk.dispatch {core k : Nat} {x : Firing} (hm : s.MemOk) : (s.dispatch core k x).MemOk := by
  unfold State.dispatch
  exact .ite hm.same.addSlot.queueExcl.addSlot.queueExcl hm.same.addSlot.queueExcl

theorem State.MemOk.createFiring {ctx lc ch : Nat} (hm : s.MemOk) : (s.createFiring ctx lc ch).MemOk := by
  unfold State.createFiring
  extract_lets c l e j prim join
  split <;> exact hm

theorem State.MemOk.tlbMiss {va : Word} {acc : Nat} (hm : s.MemOk) : (s.tlbMiss va acc).MemOk := by
  unfold State.tlbMiss
  extract_lets f cl c t seq s1 payload
  have ht : t.MemOk := hm.readTables
  clear_value t
  split
  · exact hm
  · refine .ite ?_ hm
    split
    · exact ht.setCore
    · exact ht.takeException

theorem State.MemOk.prefetch {a : Word} (hm : s.MemOk) : (s.prefetch a).MemOk := by
  unfold State.prefetch
  extract_lets f
  split
  · exact hm.fillMissing.chargeBursts.charge
  · exact hm

theorem State.MemOk.abortOther {f : Slot} (hm : s.MemOk) : (s.abortOther f).MemOk := by
  unfold State.abortOther
  split
  · exact hm
  · split
    · exact hm
    · exact hm.cancelBox.setSlot

theorem State.MemOk.freeBoth {f : Slot} (hm : s.MemOk) : (s.freeBoth f).MemOk := by
  unfold State.freeBoth
  split
  · exact hm
  · exact hm.cancelBox.freeSlot.freeSlot

theorem State.MemOk.openFocus (hm : s.MemOk) : s.openFocus.MemOk := by
  unfold State.openFocus
  exact .ite hm hm

theorem State.MemOk.alarmCheck {p : List Byte} (hm : s.MemOk) : (s.alarmCheck p).MemOk := by
  unfold State.alarmCheck
  refine .ite hm ?_
  split
  · exact hm
  · exact .ite hm hm.tlbMiss
  · exact hm
  · exact hm

theorem State.MemOk.makeCheck {p : List Byte} (hm : s.MemOk) : (s.makeCheck p).MemOk := by
  unfold State.makeCheck
  exact .ite hm.alarmCheck.withFocus hm.alarmCheck

theorem State.MemOk.fetchFill {f : Slot} (hm : s.MemOk) : (s.fetchFill f).MemOk := by
  unfold State.fetchFill
  split
  · exact .ite hm.fillMissing.chargeBursts.charge hm
  · exact hm

theorem State.MemOk.settle (hm : s.MemOk) : s.settle.MemOk := by
  unfold State.settle
  have hp : s.placeLaw.MemOk := hm.placeLaw
  generalize s.placeLaw = u at hp
  extract_lets src t
  have ht : t.MemOk := .foldl ⟨hp.1, hp.2⟩ fun hm => hm.suspect
  clear_value t
  exact .foldl ⟨ht.1, ht.2⟩ fun hm => hm.sendAlarm

theorem State.MemOk.nextTurnOf (hm : s.MemOk) : s.nextTurnOf.2.MemOk := by
  unfold State.nextTurnOf
  split <;> exact hm

end

section
variable {st : State}

/-! ### The steps -/

theorem State.finish_keepsMem {r : Try Slot} (hm : st.MemOk) : KeepsMem (st.finish r) := by
  unfold State.finish
  split
  · exact .next hm
  · exact .next hm.takeException
  · exact .next hm
  · exact .next hm.tlbMiss

theorem execHostStoreAcceptance_keepsMem {i : Nat} (hm : st.MemOk) : KeepsMem (execHostStoreAcceptance i st) := by
  unfold execHostStoreAcceptance
  refine .next ?_
  split
  · exact hm
  · exact ⟨hm.1, Memory.wf_cellWriteList _ _ _ hm.2⟩

theorem execWgTablesApplied_keepsMem {i : Nat} (hm : st.MemOk) : KeepsMem (execWgTablesApplied i st) := by
  unfold execWgTablesApplied
  refine .next ?_
  split
  · exact hm
  · exact .ite hm hm.watchElsewhere.same.drainReleases

theorem execTlbInvAcknowledgement_keepsMem {i : Nat} (hm : st.MemOk) : KeepsMem (execTlbInvAcknowledgement i st) := by
  unfold execTlbInvAcknowledgement
  refine .next ?_
  split
  · exact hm
  · exact .ite hm hm.invElsewhere.same.drainReleases

theorem execGangStopByManagement_keepsMem {ctx : Nat} (hm : st.MemOk) : KeepsMem (execGangStopByManagement ctx st) := by
  unfold execGangStopByManagement
  exact .next (.ite hm.gangStop hm)

theorem execKeySlotWrite_keepsMem {slot : Nat} {key1 key2 : BitVec 256} (hm : st.MemOk) :
    KeepsMem (execKeySlotWrite slot key1 key2 st) := by
  unfold execKeySlotWrite
  exact .next (.ite hm hm)

theorem execContextCreation_keepsMem {c : CtxSpec} (hm : st.MemOk) : KeepsMem (execContextCreation c st) := by
  unfold execContextCreation
  exact .next (.ite hm hm.create)

theorem State.spdmAt_keepsMem {stage : Nat} {f : State → State} (hm : st.MemOk) (hf : (f st).MemOk) :
    KeepsMem (st.spdmAt stage f) := by
  unfold State.spdmAt
  exact .next (.ite hm (.ite hf hm))

theorem execGetMeasurements_keepsMem {req : MeasureRequest} (hm : st.MemOk) : KeepsMem (execGetMeasurements req st) :=
  State.spdmAt_keepsMem hm (.ite hm hm)

theorem execChallenge_keepsMem {req : ChallengeRequest} (hm : st.MemOk) :
    KeepsMem (execChallenge req st) := State.spdmAt_keepsMem hm (.ite hm hm)

theorem execGetCertificate_keepsMem {off len : Nat} (hm : st.MemOk) : KeepsMem (execGetCertificate off len st) :=
  State.spdmAt_keepsMem hm (.ite hm hm)

theorem execGetDigests_keepsMem (hm : st.MemOk) : KeepsMem (execGetDigests st) := State.spdmAt_keepsMem hm hm

theorem execNegotiateAlgorithms_keepsMem (hm : st.MemOk) :
    KeepsMem (execNegotiateAlgorithms st) := State.spdmAt_keepsMem hm (.ite hm hm)

theorem execGetCapabilities_keepsMem (hm : st.MemOk) :
    KeepsMem (execGetCapabilities st) := State.spdmAt_keepsMem hm (.ite hm hm)

theorem execGetVersion_keepsMem (hm : st.MemOk) : KeepsMem (execGetVersion st) := by
  unfold execGetVersion
  exact .next (.ite hm hm)

theorem execBoot_keepsMem {images : List BootImage} (hm : st.MemOk) : KeepsMem (execBoot images st) := by
  unfold execBoot
  exact .next (.ite hm hm.same.bootImages)

theorem execTimeBaseSync_keepsMem {offset : Int} (hm : st.MemOk) : KeepsMem (execTimeBaseSync offset st) := by
  unfold execTimeBaseSync
  exact .next (.ite hm (.ite hm hm))

theorem execFabricAck_keepsMem {pkg num : Nat} {arrived : Option OutsideMsg} (hm : st.MemOk) :
    KeepsMem (execFabricAck pkg num arrived st) := by
  unfold execFabricAck
  refine .next ?_
  split
  · exact .ite hm hm
  · exact hm.fabricArrive

theorem execFabricMessageTimeout_keepsMem {i : Nat} (hm : st.MemOk) : KeepsMem (execFabricMessageTimeout i st) := by
  unfold execFabricMessageTimeout
  refine .next ?_
  split
  · exact hm
  · exact .ite hm hm.same.undeliverable

theorem execPortRetrain_keepsMem {port : Nat} {retrained : Retrain} (hm : st.MemOk) :
    KeepsMem (execPortRetrain port retrained st) := by
  unfold execPortRetrain
  exact .next hm.retrain.writeRoutes

theorem execFlitReplay_keepsMem {flit : PortFlit} (hm : st.MemOk) : KeepsMem (execFlitReplay flit st) := by
  unfold execFlitReplay
  exact .next (.ite hm (.ite (.ite hm hm) hm.setPort.suspect))

theorem execHostStoreRefusal_keepsMem {i : Nat} (hm : st.MemOk) : KeepsMem (execHostStoreRefusal i st) := by
  unfold execHostStoreRefusal
  refine .next ?_
  split
  · exact hm
  · exact hm.same.refuseStore

theorem execHostLoadResponse_keepsMem {core slot : Nat} {refused : Bool} {data : List (Nat × Byte)} (hm : st.MemOk) :
    KeepsMem (execHostLoadResponse core slot refused data st) := by
  unfold execHostLoadResponse
  refine .next ?_
  split
  · exact hm
  · split
    · exact .ite hm.hostShows.setSlot (.ite hm hm.refocus.takeException)
    · exact hm

theorem execHostMessage_keepsMem {ctx : Nat} {m : OutsideMsg} (hm : st.MemOk) : KeepsMem (execHostMessage ctx m st) := by
  unfold execHostMessage
  exact .next (.ite hm (.post (.ite hm hm)))

theorem execHostMemoryWrite_keepsMem {ctx ia : Nat} {data : List Byte} (hm : st.MemOk) :
    KeepsMem (execHostMemoryWrite ctx ia data st) := by
  unfold execHostMemoryWrite
  refine .next ?_
  split
  · exact .ite (.ite hm hm.logWrite.refreshAll.touch) hm
  · exact hm

theorem execHostMemoryRead_keepsMem {ctx ia n : Nat} (hm : st.MemOk) : KeepsMem (execHostMemoryRead ctx ia n st) := by
  unfold execHostMemoryRead
  refine .next ?_
  split
  · exact hm.fillMissing.answerHost
  · exact hm

theorem execBudgetPeriod_keepsMem (hm : st.MemOk) : KeepsMem (execBudgetPeriod st) := by
  unfold execBudgetPeriod
  exact .next (.ite hm (.foldl hm fun hm => hm))

theorem execLlcSliceOffline_keepsMem {slice : Nat} {what : LlcError} (hm : st.MemOk) :
    KeepsMem (execLlcSliceOffline slice what st) := by
  unfold execLlcSliceOffline
  refine .next (.ite hm ?_)
  split
  · exact hm.suspect
  · exact hm.sectorBad
  · exact hm.sliceOffline.suspect.reportOffline

theorem execScrub_keepsMem {pa : Nat} (hm : st.MemOk) : KeepsMem (execScrub pa st) := by
  unfold execScrub
  exact .next (.ite hm (.ite hm.getUnit.writeBackUnit (.ite hm.writeBackUnit hm.scrubDram)))

theorem execLlcWriteback_keepsMem {pa : Nat} (hm : st.MemOk) : KeepsMem (execLlcWriteback pa st) := by
  unfold execLlcWriteback
  refine .next ?_
  split
  · exact hm
  · exact .ite hm.writeBackUnit hm

theorem execLlcFill_keepsMem {pa ctx gran keyid : Nat} (hm : st.MemOk) : KeepsMem (execLlcFill pa ctx gran keyid st) := by
  unfold execLlcFill
  refine .next ?_
  split
  · exact hm
  · exact hm.fillFor

theorem execThresholdRecord_keepsMem {u : UnitKind} {num : Nat} {pass : Bool} (hm : st.MemOk) :
    KeepsMem (execThresholdRecord u num pass st) := by
  unfold execThresholdRecord
  exact .next (.ite hm (.ite hm.same.passTest hm.same.failTest))

theorem execClusterStateError_keepsMem {cluster : Nat} {u : UnitKind} {what : UnitError} (hm : st.MemOk) :
    KeepsMem (execClusterStateError cluster u what st) := by
  unfold execClusterStateError
  refine .next (.ite hm ?_)
  split
  · exact hm.suspect.refillTlb
  · exact hm.suspect
  · exact .ite (.ite hm.same.loseRecord hm.same.fence) hm.fence

theorem execScratchpadError_keepsMem {ctx lc off : Nat} {fatal : Bool} (hm : st.MemOk) :
    KeepsMem (execScratchpadError ctx lc off fatal st) := by
  unfold execScratchpadError
  exact .next (.ite hm (.ite hm hm.suspect))

theorem execRectFence_keepsMem {u : UnitKind} {num : Nat} (hm : st.MemOk) : KeepsMem (execRectFence u num st) := by
  unfold execRectFence
  exact .next (.ite hm hm.fence)

theorem execInboxRetry_keepsMem {i : Nat} (hm : st.MemOk) : KeepsMem (execInboxRetry i st) := by
  unfold execInboxRetry
  refine .next ?_
  split
  · exact hm
  next m _ =>
    extract_lets c
    have hd : State.MemOk { st with net := dropAt st.net i } := hm
    generalize ({ st with net := dropAt st.net i } : State) = u at hd
    refine .ite hm ?_
    split
    next t ht => exact (State.toInbox_givesMemOk hd t ht).redDelivered
    next => exact .ite hd.refuse.redDelivered hm

theorem execInboxReplay_keepsMem {ctx lc : Nat} (hm : st.MemOk) : KeepsMem (execInboxReplay ctx lc st) := by
  unfold execInboxReplay
  refine .next (.ite hm ?_)
  split
  · exact hm
  · exact .getD hm (State.deliverAt_givesMemOk (State.MemOk.writeEnds hm))

theorem execCtxGoCompletion_keepsMem {i : Nat} (hm : st.MemOk) : KeepsMem (execCtxGoCompletion i st) := by
  unfold execCtxGoCompletion
  refine .next ?_
  split
  · exact hm
  · exact .ite hm (.ite hm.backIn.changeDesc.endMove (.ite hm.endMove (.ite hm.fromImage.resume.endMove hm)))

theorem execCtxStopCompletion_keepsMem {i : Nat} (hm : st.MemOk) : KeepsMem (execCtxStopCompletion i st) := by
  unfold execCtxStopCompletion
  refine .next ?_
  split
  · exact hm
  · exact .ite hm (.endMove (.ite hm.writeImage hm.changeDesc))

theorem execMigGoCompletion_keepsMem {i : Nat} (hm : st.MemOk) : KeepsMem (execMigGoCompletion i st) := by
  unfold execMigGoCompletion
  refine .next ?_
  split
  · exact hm
  · exact .ite hm (.endMove (.ite hm (.ite hm (.ite hm hm.relocate))))

theorem execFlushMarker_keepsMem {core router : Nat} (hm : st.MemOk) : KeepsMem (execFlushMarker core router st) := by
  unfold execFlushMarker
  exact .next (.ite hm (.ite hm hm.setCore.startMoves))

theorem execGvtSweep_keepsMem {ctx : Nat} (hm : st.MemOk) : KeepsMem (execGvtSweep ctx st) := by
  unfold execGvtSweep
  exact .next (.ite hm hm)

theorem execReductionResult_keepsMem {ctx group : Nat} (hm : st.MemOk) : KeepsMem (execReductionResult ctx group st) := by
  unfold execReductionResult
  exact .ite (.next hm) (.next (.ite hm.setCtx.placeResult
    (.ite hm.setCtx.placeFar (.ite hm.setCtx.placeFar hm.setCtx.placeFar))))

theorem execHsVerdictDelivery_keepsMem {i : Nat} (hm : st.MemOk) : KeepsMem (execHsVerdictDelivery i st) := by
  unfold execHsVerdictDelivery
  refine .next ?_
  split
  · exact hm
  · split
    · exact .ite hm hm.same.hsJudge
    · exact hm

theorem execHsDispatch_keepsMem {ctx lcl set stage : Nat} (hm : st.MemOk) :
    KeepsMem (execHsDispatch ctx lcl set stage st) := by
  unfold execHsDispatch
  refine .next (.ite hm ?_)
  split
  · exact hm.hsSend
  · exact hm

theorem execHsEntryDelivery_keepsMem {i : Nat} (hm : st.MemOk) : KeepsMem (execHsEntryDelivery i st) := by
  unfold execHsEntryDelivery
  refine .next ?_
  split
  · exact hm
  · split
    · exact .ite hm hm
    · exact hm

theorem execNanWindowClose_keepsMem {cluster ctx wg : Nat} (hm : st.MemOk) :
    KeepsMem (execNanWindowClose cluster ctx wg st) := by
  unfold execNanWindowClose
  exact .next hm.closeIdle

theorem execRegranRelease_keepsMem {cluster job : Nat} (hm : st.MemOk) : KeepsMem (execRegranRelease cluster job st) := by
  unfold execRegranRelease
  refine .next ?_
  split
  · exact hm
  · exact .ite hm hm

theorem execRegran_keepsMem {cluster job line : Nat} (hm : st.MemOk) : KeepsMem (execRegran cluster job line st) := by
  unfold execRegran
  refine .next ?_
  split
  · exact hm
  · refine .ite hm ?_
    split
    · exact hm.openNext
    · exact hm.migrateLine

theorem execRingsweep_keepsMem {cluster job e0 e1 : Nat} (hm : st.MemOk) :
    KeepsMem (execRingsweep cluster job e0 e1 st) := by
  unfold execRingsweep
  refine .next ?_
  split
  · exact hm
  · exact .ite hm hm.sweepElement

theorem execCopyOpConvert_keepsMem {cluster job e0 e1 : Nat} (hm : st.MemOk) :
    KeepsMem (execCopyOpConvert cluster job e0 e1 st) := by
  unfold execCopyOpConvert
  exact .next hm.copyElement

theorem execCopyOpFill_keepsMem {cluster job e0 e1 : Nat} (hm : st.MemOk) :
    KeepsMem (execCopyOpFill cluster job e0 e1 st) := by
  unfold execCopyOpFill
  exact .next hm.copyElement

theorem execCopyOpScatter_keepsMem {cluster job e0 e1 : Nat} (hm : st.MemOk) :
    KeepsMem (execCopyOpScatter cluster job e0 e1 st) := by
  unfold execCopyOpScatter
  exact .next hm.copyElement

theorem execCopyOpGather_keepsMem {cluster job e0 e1 : Nat} (hm : st.MemOk) :
    KeepsMem (execCopyOpGather cluster job e0 e1 st) := by
  unfold execCopyOpGather
  exact .next hm.copyElement

theorem execCopyOpCopy_keepsMem {cluster job e0 e1 : Nat} (hm : st.MemOk) :
    KeepsMem (execCopyOpCopy cluster job e0 e1 st) := by
  unfold execCopyOpCopy
  exact .next hm.copyElement

theorem execFaultReplyArrival_keepsMem {i : Nat} (hm : st.MemOk) : KeepsMem (execFaultReplyArrival i st) := by
  unfold execFaultReplyArrival
  refine .next ?_
  split
  · exact hm
  · split
    · exact .ite hm hm.same.applyMailbox
    · exact hm

theorem execOncePosting_keepsMem {core slot : Nat} (hm : st.MemOk) : KeepsMem (execOncePosting core slot st) := by
  unfold execOncePosting
  refine .next ?_
  split
  · exact hm
  · split
    · exact hm
    · exact hm

theorem execPostCompletion_keepsMem {cluster : Nat} {e : Engine} {job : Nat} (hm : st.MemOk) :
    KeepsMem (execPostCompletion cluster e job st) := by
  unfold execPostCompletion
  refine .next ?_
  split
  · exact hm
  · exact .ite hm.matrixResult.charge.mapMigrated.complete hm

theorem execApply_keepsMem {i : Nat} (hm : st.MemOk) : KeepsMem (execApply i st) := by
  unfold execApply
  refine .next ?_
  split
  · exact hm
  · exact .ite hm hm.same.applyWith.refreshAll.sawApply.cover

theorem execPerform_keepsMem {cluster : Nat} {e : Engine} {job elem : Nat} (hm : st.MemOk) :
    KeepsMem (execPerform cluster e job elem st) := by
  unfold execPerform
  refine .next ?_
  split
  · exact hm
  · exact hm.performStep

theorem execReadElement_keepsMem {cluster : Nat} {e : Engine} {job elem : Nat} {view : ReadView} (hm : st.MemOk) :
    KeepsMem (execReadElement cluster e job elem view st) := by
  unfold execReadElement
  refine .next ?_
  split
  · exact hm
  · exact hm.readStep

theorem execCommandTake_keepsMem {cluster : Nat} {e : Engine} {head : TakenHead} (hm : st.MemOk) :
    KeepsMem (execCommandTake cluster e head st) := by
  unfold execCommandTake
  refine .next ?_
  split
  · exact hm
  · exact .ite hm.takeJob.setCluster hm

theorem execTrapReply_keepsMem {i : Nat} (hm : st.MemOk) : KeepsMem (execTrapReply i st) := by
  unfold execTrapReply
  refine .next ?_
  split
  · exact hm
  · exact .ite (hm.deliverBy State.deliverMsg_givesMemOk) hm

theorem execMessageDeliver_keepsMem {i : Nat} (hm : st.MemOk) : KeepsMem (execMessageDeliver i st) := by
  unfold execMessageDeliver
  refine .next ?_
  split
  · exact hm
  · exact .ite (hm.deliverBy State.deliverWalk_givesMemOk) (.ite (.ite hm (.getD hm (State.contribute_givesMemOk hm)))
      (.ite hm (hm.deliverBy State.deliverMsg_givesMemOk)))

theorem execAbortWaitTimeout_keepsMem {core slot : Nat} (hm : st.MemOk) : KeepsMem (execAbortWaitTimeout core slot st) := by
  unfold execAbortWaitTimeout
  refine .next ?_
  split
  · exact hm
  · split
    · exact .ite hm hm
    · exact hm

theorem execExclusiveCommitGrant_keepsMem (hm : st.MemOk) : KeepsMem (execExclusiveCommitGrant st) := by
  unfold execExclusiveCommitGrant
  refine .next ?_
  split
  · exact hm.lapse.same
  · exact hm.lapse

theorem execChunkSquash_keepsMem {core slot : Nat} (hm : st.MemOk) : KeepsMem (execChunkSquash core slot st) := by
  unfold execChunkSquash
  split
  · exact .next hm
  · exact .ite (.next hm) (.next hm.squashChunk)

theorem execChunkCommit_keepsMem {core slot : Nat} (hm : st.MemOk) : KeepsMem (execChunkCommit core slot st) := by
  unfold execChunkCommit
  exact .next (.ite (.ite hm hm.refocus.commitPrimary) (.keepShadows (.ite hm hm.refocus.commitPrimary)))

theorem execChunkClose_keepsMem {core slot : Nat} (hm : st.MemOk) : KeepsMem (execChunkClose core slot st) := by
  unfold execChunkClose
  refine .next ?_
  split
  · exact hm
  · exact .ite hm hm

theorem execTimeSliceEnd_keepsMem {ctx lc : Nat} (hm : st.MemOk) : KeepsMem (execTimeSliceEnd ctx lc st) := by
  unfold execTimeSliceEnd
  exact .next (.ite hm (.ite (.ite hm.swappedIn.setLc.keepShadow hm) (.ite hm hm.setLc.preempt)))

theorem execFiringAging_keepsMem {i : Nat} (hm : st.MemOk) : KeepsMem (execFiringAging i st) := by
  unfold execFiringAging
  refine .next ?_
  split
  · exact hm
  · exact .ite hm hm

theorem execFiringDispatch_keepsMem {core slot : Nat} (hm : st.MemOk) : KeepsMem (execFiringDispatch core slot st) := by
  unfold execFiringDispatch
  refine .next ?_
  split
  · exact hm
  · exact .ite hm.dispatch hm

theorem execFiringCreate_keepsMem {ctx lc ch : Nat} (hm : st.MemOk) : KeepsMem (execFiringCreate ctx lc ch st) := by
  unfold execFiringCreate
  exact .next (.ite hm.createFiring hm)

theorem execPf_keepsMem {s : Bool} {a _b : BitVec 5} (hm : st.MemOk) : KeepsMem (execPf s a _b st) := by
  unfold execPf
  exact .next hm.prefetch.withFocus

theorem execAbort_keepsMem {_s : Bool} {a : BitVec 5} (hm : st.MemOk) : KeepsMem (execAbort _s a st) := by
  unfold execAbort
  exact .ite (.next hm.endFiring.freeBoth) (.next hm.abortOther.withFocus)

theorem execTileRd_keepsMem {s : Bool} {d a b : BitVec 5} (hm : st.MemOk) : KeepsMem (execTileRd s d a b st) := by
  unfold execTileRd
  exact .ite (.next hm) (.next hm)

theorem execClkRd_keepsMem {s : Bool} {d a : BitVec 5} (hm : st.MemOk) : KeepsMem (execClkRd s d a st) := by
  unfold execClkRd
  exact .ite (.next hm) (.next hm)

theorem execMxRd_keepsMem {s : Bool} {a d : BitVec 5} (hm : st.MemOk) : KeepsMem (execMxRd s a d st) := by
  unfold execMxRd
  exact .ite (.next hm) (.next hm)

theorem execHsRd_keepsMem {s : Bool} {a d : BitVec 5} (hm : st.MemOk) : KeepsMem (execHsRd s a d st) := by
  unfold execHsRd
  exact .ite (.next hm) (.next hm)

theorem execBarWait_keepsMem {s : Bool} {a : BitVec 5} (hm : st.MemOk) : KeepsMem (execBarWait s a st) := by
  unfold execBarWait
  dsimp only
  split
  · exact State.finish_keepsMem hm
  · exact .ite (.next hm) (.next hm)

theorem execBarAf_keepsMem {k : Bool} {a b : BitVec 5} (hm : st.MemOk) : KeepsMem (execBarAf k a b st) := by
  unfold execBarAf
  exact .ite (State.finish_keepsMem hm) (State.finish_keepsMem hm)

end

section
variable {st : State}

/-! ### Instructions and events -/

/-- R180: what an instruction or an event does keeps the form of memory. -/
theorem exec_keepsMem (i : Instr) (hm : st.MemOk) : KeepsMem (exec i st) := by
  cases i with
  | abort s => exact execAbort_keepsMem (_s := s) hm
  | tileRd => exact execTileRd_keepsMem hm
  | pf s a b => exact execPf_keepsMem (_b := b) hm
  | clkRd => exact execClkRd_keepsMem hm
  | mxRd => exact execMxRd_keepsMem hm
  | hsRd => exact execHsRd_keepsMem hm
  | barWait => exact execBarWait_keepsMem hm
  | barAf s => exact execBarAf_keepsMem (k := s) hm
  | firingCreate => exact execFiringCreate_keepsMem hm
  | firingDispatch => exact execFiringDispatch_keepsMem hm
  | firingAging => exact execFiringAging_keepsMem hm
  | timeSliceEnd => exact execTimeSliceEnd_keepsMem hm
  | chunkClose => exact execChunkClose_keepsMem hm
  | chunkCommit => exact execChunkCommit_keepsMem hm
  | chunkSquash => exact execChunkSquash_keepsMem hm
  | exclusiveCommitGrant => exact execExclusiveCommitGrant_keepsMem hm
  | abortWaitTimeout => exact execAbortWaitTimeout_keepsMem hm
  | messageDeliver => exact execMessageDeliver_keepsMem hm
  | trapReply => exact execTrapReply_keepsMem hm
  | commandTake => exact execCommandTake_keepsMem hm
  | readElement => exact execReadElement_keepsMem hm
  | perform => exact execPerform_keepsMem hm
  | apply => exact execApply_keepsMem hm
  | postCompletion => exact execPostCompletion_keepsMem hm
  | oncePosting => exact execOncePosting_keepsMem hm
  | faultReplyArrival => exact execFaultReplyArrival_keepsMem hm
  | copyOpCopy => exact execCopyOpCopy_keepsMem hm
  | copyOpGather => exact execCopyOpGather_keepsMem hm
  | copyOpScatter => exact execCopyOpScatter_keepsMem hm
  | copyOpFill => exact execCopyOpFill_keepsMem hm
  | copyOpConvert => exact execCopyOpConvert_keepsMem hm
  | ringsweep => exact execRingsweep_keepsMem hm
  | regran => exact execRegran_keepsMem hm
  | regranRelease => exact execRegranRelease_keepsMem hm
  | nanWindowClose => exact execNanWindowClose_keepsMem hm
  | hsEntryDelivery => exact execHsEntryDelivery_keepsMem hm
  | hsDispatch => exact execHsDispatch_keepsMem hm
  | hsVerdictDelivery => exact execHsVerdictDelivery_keepsMem hm
  | reductionResult => exact execReductionResult_keepsMem hm
  | gvtSweep => exact execGvtSweep_keepsMem hm
  | flushMarker => exact execFlushMarker_keepsMem hm
  | migGoCompletion => exact execMigGoCompletion_keepsMem hm
  | ctxStopCompletion => exact execCtxStopCompletion_keepsMem hm
  | ctxGoCompletion => exact execCtxGoCompletion_keepsMem hm
  | inboxReplay => exact execInboxReplay_keepsMem hm
  | inboxRetry => exact execInboxRetry_keepsMem hm
  | rectFence => exact execRectFence_keepsMem hm
  | scratchpadError => exact execScratchpadError_keepsMem hm
  | clusterStateError => exact execClusterStateError_keepsMem hm
  | thresholdRecord => exact execThresholdRecord_keepsMem hm
  | llcFill => exact execLlcFill_keepsMem hm
  | llcWriteback => exact execLlcWriteback_keepsMem hm
  | scrub => exact execScrub_keepsMem hm
  | llcSliceOffline => exact execLlcSliceOffline_keepsMem hm
  | budgetPeriod => exact execBudgetPeriod_keepsMem hm
  | hostMemoryRead => exact execHostMemoryRead_keepsMem hm
  | hostMemoryWrite => exact execHostMemoryWrite_keepsMem hm
  | hostMessage => exact execHostMessage_keepsMem hm
  | hostLoadResponse => exact execHostLoadResponse_keepsMem hm
  | hostStoreRefusal => exact execHostStoreRefusal_keepsMem hm
  | flitReplay => exact execFlitReplay_keepsMem hm
  | portRetrain => exact execPortRetrain_keepsMem hm
  | fabricMessageTimeout => exact execFabricMessageTimeout_keepsMem hm
  | fabricAck => exact execFabricAck_keepsMem hm
  | timeBaseSync => exact execTimeBaseSync_keepsMem hm
  | boot => exact execBoot_keepsMem hm
  | getVersion => exact execGetVersion_keepsMem hm
  | getCapabilities => exact execGetCapabilities_keepsMem hm
  | negotiateAlgorithms => exact execNegotiateAlgorithms_keepsMem hm
  | getDigests => exact execGetDigests_keepsMem hm
  | getCertificate => exact execGetCertificate_keepsMem hm
  | challenge => exact execChallenge_keepsMem hm
  | getMeasurements => exact execGetMeasurements_keepsMem hm
  | contextCreation => exact execContextCreation_keepsMem hm
  | keySlotWrite => exact execKeySlotWrite_keepsMem hm
  | gangStopByManagement => exact execGangStopByManagement_keepsMem hm
  | tlbInvAcknowledgement => exact execTlbInvAcknowledgement_keepsMem hm
  | wgTablesApplied => exact execWgTablesApplied_keepsMem hm
  | hostStoreAcceptance => exact execHostStoreAcceptance_keepsMem hm
  | trap | brk => exact .next hm.takeException
  | jalr | fin | fmtSet | tlbWr | tlbInv | tlbRd | fltRply | rectSet | migGo | ctxStop | ctxGo | ldB | ldBu | ldH | ldHu
  | ldW | ldWu | ldD | stB | stH | stW | stD | vldW | vldBf | vldH | vldB | vldSb | vldBc | vstW | vstBf | vstH | vstB
  | vldt | vstt | vgath | vscat | vlds | vsts | vscatFadd | amoAdd | amoAnd | amoOr | amoXor | amoMax | amoMin | amoMaxu
  | amoMinu | amoSwp | amoCas | amoFadd | pamoAdd | pamoAnd | pamoOr | pamoXor | pamoMax | pamoMin | pamoMaxu | pamoMinu
  | pamoFadd | send | sendt | sendm | sendr | mld | mhdr | ttWr | ttRd | ttBlk | ttUblk | dgMode | tileDef | tileSt
  | tileSat | rwLd | rwAdv | rwSet | rwAdd | rwArm | rwDisarm | rwHdr | lawWr | lawRd | clkAdv | vlaw | csrr | csrw | csrs
  | csrc | mxWr | mxLs | mxStr | mxDrn | mxZer | mxSlp | cpPush | cpTry | hsWr | hsEnt | hsTry | hsPass | hsDrop | barCfg
  | barArr | barAw | barRd | redCfg =>
    exact State.finish_keepsMem hm
  | _ => exact .next hm

end

section
variable {s : State}

/-! ### Issue and turns (R60, R66, R183) -/

theorem State.MemOk.passTurn (hm : s.MemOk) : s.passTurn.MemOk := hm

theorem KeepsMem.spend {w : BitVec 32} {abort : Bool} {r : Out} (h : KeepsMem r) : KeepsMem (s.spend w abort r) := by
  unfold State.spend
  split
  next t => exact .next (.ite (h t rfl).charge (h t rfl))
  next => exact h

theorem KeepsMem.withinLimits {r : Out} (h : KeepsMem r) (hm : s.MemOk) : KeepsMem (s.withinLimits r) := by
  unfold State.withinLimits
  extract_lets f
  split
  next t =>
    have ht := h t rfl
    exact .ite (.ite (.ite (.next (State.MemOk.takeException hm)) (.next hm)) (.next ht))
      (.ite (.ite (.next hm.takeException) (.next hm)) (.next ht))
  next => exact h

theorem KeepsMem.orWait {r : Out} (h : KeepsMem r) (hm : s.MemOk) : KeepsMem (s.orWait r) := by
  unfold State.orWait
  split
  next t => exact .next (.ite (h t rfl) hm)
  next => exact h

theorem State.takeOnce_keepsMem {w : BitVec 32} {n : Nat} (hm : s.MemOk) : KeepsMem (s.takeOnce w n) := by
  unfold State.takeOnce
  extract_lets f
  split
  · exact .next hm
  · exact .ite (.next hm) (State.finish_keepsMem hm)

end

section
variable {s : State} {run : Instr → State → Out} (hrun : ∀ (i : Instr) {t : State}, t.MemOk → KeepsMem (run i t))
include hrun

theorem State.postOnce_keepsMem {w : BitVec 32} {i : Instr} {n : Nat} (hm : s.MemOk) : KeepsMem (s.postOnce run w i n) := by
  unfold State.postOnce
  extract_lets f x res
  refine .ite (.next hm) ?_
  split
  next t _ ht _ => exact .ite (.next (hrun i hm t ht)) (.next (hrun i hm t ht))
  next => exact hrun i hm

theorem State.governed_keepsMem {w : BitVec 32} {i : Instr} (hm : s.MemOk) : KeepsMem (s.governed run w i) := by
  unfold State.governed
  exact .ite (hrun i hm) (.ite (State.finish_keepsMem hm) (.ite (State.postOnce_keepsMem hrun hm)
    (State.takeOnce_keepsMem hm)))

theorem State.issueDecoded_keepsMem {w : BitVec 32} {o : Option Instr} (hm : s.MemOk) :
    KeepsMem (s.issueDecoded run w o) := by
  have hrefuse {c : Cause} {i0 i1 i2 : Word} : KeepsMem (s.spend w false (s.finish (.error (.exc c i0 i1 i2)))) :=
    .spend (State.finish_keepsMem hm)
  unfold State.issueDecoded
  split
  · exact hrefuse
  · refine .ite hrefuse (.ite hrefuse ?_)
    split
    · exact hrefuse
    · exact .spend (.withinLimits (State.governed_keepsMem hrun hm) hm)

theorem State.issueWord_keepsMem {dec : BitVec 32 → Option Instr} (hm : s.MemOk) : KeepsMem (s.issueWord run dec) := by
  unfold State.issueWord
  refine .ite (.next hm) ?_
  have ht : (s.fetchFill s.focus).MemOk := hm.fetchFill
  generalize s.fetchFill s.focus = t at ht
  dsimp only
  split
  · exact State.finish_keepsMem ht
  · exact State.issueDecoded_keepsMem hrun ht.withFocus

theorem State.issueSlot_keepsMem {dec : BitVec 32 → Option Instr} (hm : s.MemOk) : KeepsMem (s.issueSlot run dec) := by
  unfold State.issueSlot
  refine .ite (.next hm.squashChunk) ?_
  split
  · exact .next hm.fillFor
  split
  · exact .ite (State.issueWord_keepsMem hrun hm) (.next hm.makeCheck)
  · exact State.issueWord_keepsMem hrun hm

theorem State.issueCore_keepsMem {core : Nat} {dec : BitVec 32 → Option Instr} (hm : s.MemOk) :
    KeepsMem (s.issueCore core run dec) := by
  unfold State.issueCore
  split
  · exact .next hm
  · exact State.issueSlot_keepsMem hrun hm.setCore.refocus.openFocus

theorem State.turn_keepsMem {dec : BitVec 32 → Option Instr} (hm : s.MemOk) : KeepsMem (s.turn run dec) := by
  unfold State.turn
  extract_lets r
  have hr : r.2.MemOk := hm.settle.nextTurnOf
  clear_value r
  split
  · exact .orWait (State.issueCore_keepsMem hrun hr.passTurn) hr.passTurn
  · exact .ite (.orWait (hrun _ hr.passTurn) hr.passTurn) (.next hr.passTurn)
  · exact .next hr
  · exact .next hr
  · exact .next hr
  · exact .next hr

end

/-- Settles O35: no write of a step takes memory out of its canonical form. -/
theorem stepKeepsMemoryCanonical : Obligations.StepKeepsMemoryCanonical := by
  unfold Obligations.StepKeepsMemoryCanonical
  intro s t hm hstep
  unfold step at hstep
  split at hstep
  · contradiction
  · exact State.turn_keepsMem (fun i => exec_keepsMem i) hm t hstep

end Sys2Proof.Machine
end

section
/-! O18: reads of memory after writes to it, and of a chunk after its own stores (R180, R182, R208). -/

namespace Sys2Proof.Machine

/-! ### Canonical memory is determined by what it reads -/

/-- The lowest listed byte of canonical memory is not 0, and so it is told from memory that lists it later or not at all. -/
theorem Memory.head_le_of_reads {lo a b : Nat} {v w : Byte} {l l' : List Host.Cell}
    (h : Memory.wfFrom lo ((a, v) :: l) = true)
    (hread : ∀ i, cellRead ((a, v) :: l) i = cellRead ((b, w) :: l') i) : b ≤ a := by
  simp only [Memory.wfFrom, Bool.and_eq_true, decide_eq_true_eq] at h
  obtain ⟨⟨-, hv⟩, -⟩ := h
  by_contra hlt
  have ha := hread a
  simp only [cellRead, if_pos, if_neg (show ¬ b = a by omega), if_pos (show a < b by omega)] at ha
  exact hv ha

theorem Memory.reads_ne_nil {lo a : Nat} {v : Byte} {l : List Host.Cell} (h : Memory.wfFrom lo ((a, v) :: l) = true) :
    cellRead ((a, v) :: l) a ≠ cellRead [] a := by
  simp only [Memory.wfFrom, Bool.and_eq_true, decide_eq_true_eq] at h
  simpa [cellRead] using h.1.2

/-- Equal contents are equal lists. -/
theorem Memory.eq_of_reads : ∀ {m m' : List Host.Cell} {lo lo' : Nat}, Memory.wfFrom lo m = true →
    Memory.wfFrom lo' m' = true → (∀ i, cellRead m i = cellRead m' i) → m = m'
  | [], [], _, _, _, _, _ => rfl
  | [], (_, _) :: _, _, _, _, h', hread => absurd (hread _).symm (Memory.reads_ne_nil h')
  | (_, _) :: _, [], _, _, h, _, hread => absurd (hread _) (Memory.reads_ne_nil h)
  | (a, v) :: l, (b, w) :: l', _, _, h, h', hread => by
    obtain rfl : a = b := Nat.le_antisymm (Memory.head_le_of_reads h' fun i => (hread i).symm)
      (Memory.head_le_of_reads h hread)
    obtain rfl : v = w := by simpa [cellRead] using hread a
    simp only [Memory.wfFrom, Bool.and_eq_true] at h h'
    obtain rfl : l = l' := by
      refine Memory.eq_of_reads h.2 h'.2 fun i => ?_
      by_cases hi : i < a + 1
      · rw [cellRead_below l i _ h.2 hi, cellRead_below l' i _ h'.2 hi]
      · have hi' := hread i
        simpa only [cellRead, if_neg (show ¬ a = i by omega), if_neg (show ¬ i < a by omega)] using hi'
    rfl

/-! ### The write buffer, whatever the order of its keys -/

theorem bufRead_bufWrite_any (l : List Host.Cell) (k j : Nat) (v : Byte) :
    bufRead (bufWrite l k v) j = if j = k then some v else bufRead l j := by
  induction l with
  | nil =>
    simp only [bufWrite, bufRead]
    grind
  | cons c t ih =>
    obtain ⟨a, w⟩ := c
    unfold bufWrite
    split
    · simp only [bufRead]
      grind
    split
    · simp only [bufRead]
      grind
    · simp only [bufRead, ih]
      grind

theorem bufRead_bufWriteList_any (l : List Byte) (m : List Host.Cell) (k j : Nat) :
    bufRead (bufWriteList m k l) j = if k ≤ j ∧ j < k + l.length then some (l.getD (j - k) 0) else bufRead m j := by
  induction l generalizing m k with
  | nil => simp [bufWriteList]
  | cons b l ih =>
    rw [bufWriteList, ih, bufRead_bufWrite_any, List.length_cons]
    by_cases h : j = k
    · subst h
      simp
    · by_cases hin : k + 1 ≤ j ∧ j < k + 1 + l.length
      · rw [if_pos hin, if_pos (by omega), show j - k = j - (k + 1) + 1 by omega, List.getD_cons_succ]
      · rw [if_neg hin, if_neg h, if_neg (by omega)]

/-! ### A chunk reads its own stores -/

/-- The slot whose chunk has stored a list of bytes. -/
def Slot.buffers (f : Slot) (k : Nat) (l : List Byte) : Slot :=
  { f with chunk := { f.chunk with wbuf := bufWriteList f.chunk.wbuf k l } }

variable {s : State} {f : Slot}

theorem State.heldLawByte_buffers (k j : Nat) (l : List Byte) : s.heldLawByte (f.buffers k l) j = s.heldLawByte f j := rfl

theorem State.seenByte_of_heldLaw {j : Nat} {b : Byte} (h : s.heldLawByte f j = some b) : s.seenByte f j = b := by
  simp [State.seenByte, State.ownByte, h]

theorem State.seenByte_buffers {k j : Nat} {l : List Byte} (h : s.heldLawByte f j = none) :
    s.seenByte (f.buffers k l) j = if k ≤ j ∧ j < k + l.length then l.getD (j - k) 0 else s.seenByte f j := by
  have hown : s.ownByte (f.buffers k l) j = bufRead (bufWriteList f.chunk.wbuf k l) j := by
    rw [State.ownByte, State.heldLawByte_buffers, h]
    rfl
  have hown' : s.ownByte f j = bufRead f.chunk.wbuf j := by
    rw [State.ownByte, h]
    rfl
  rw [State.seenByte, State.seenByte, hown, hown', bufRead_bufWriteList_any]
  by_cases hin : k ≤ j ∧ j < k + l.length
  · rw [if_pos hin, if_pos hin]
  · rw [if_neg hin, if_neg hin]
    rfl

/-- Settles O18: the write and the buffer keep every other byte, and canonical lists are told apart by their lowest byte. -/
theorem memoryReadAfterWrite : Obligations.MemoryReadAfterWrite := by
  unfold Obligations.MemoryReadAfterWrite
  refine ⟨fun m m' k j v hm hm' => ⟨Memory.wf_cellWrite m k v hm, cellRead_cellWrite m k j v hm,
    Memory.eq_of_reads hm hm'⟩, ?_⟩
  exact fun s f k j l => ⟨State.seenByte_buffers, fun b hb => State.seenByte_of_heldLaw hb⟩

end Sys2Proof.Machine
end

section
/-! O49: the barrier instructions and RED.CFG and RED.RD (R195, R269, R310, R349, R350, R421). -/

namespace Sys2Proof.Machine

/-! ### The checks of a barrier (R269, R310) -/

section
variable {s : State} {f : Slot} {w : Word}

theorem State.barCheck_unknown (h : 71 < barNum w) : s.barCheck f w = .error (.exc .illop w 0 0) :=
  refuseIf_refuses (decide_eq_true h)

theorem State.barCheck_unconfigured (h : barNum w ≤ 71) (hpart : s.partSeen f (barNum w) = 0) :
    s.barCheck f w = .error (.exc .illop (BitVec.ofNat 64 (barNum w)) 0 0) :=
  refuseIf_passes (decide_eq_false (Nat.not_lt.2 h)) (refuseIf_refuses (decide_eq_true hpart))

theorem State.barCheck_passes (h : barNum w ≤ 71) (hpart : s.partSeen f (barNum w) ≠ 0) :
    s.barCheck f w = .ok (f.addRead (f.partLoc (barNum w))) :=
  refuseIf_passes (decide_eq_false (Nat.not_lt.2 h)) (refuseIf_passes (decide_eq_false hpart) rfl)

end

/-! ### The arrive forms (R195, R310) -/

section
variable {i : Instr} {s : State} {w : Word} {wait : Bool} {notify : Option Word} (hi : exec i s = arriveForm w wait notify s)
include hi

theorem raises_of_arriveForm {i0 : Word} (h : s.barCheck s.focus w = .error (.exc .illop i0 0 0)) : Raises i s .illop i0 0 :=
  raises_of_finish hi (bind_of_error h)

/-- R195: a legal arrive form closes the chunk with PART in its read set. -/
theorem closesFrom_of_arriveForm (h : barNum w ≤ 71) (hpart : s.partSeen s.focus (barNum w) ≠ 0) :
    ClosesFrom i (s.focus.addRead (s.focus.partLoc (barNum w))) (.arrive (barNum w) wait notify) s :=
  ⟨_, does_of_finish hi (bind_of_ok (State.barCheck_passes h hpart) rfl), rfl, rfl, rfl, rfl, rfl, rfl, rfl, rfl⟩

end

/-- R310, log entry 117: BAR.AF checks its channel after the barrier's number and before PART. -/
theorem execBarAf_of_arrives {k : Bool} {a b : BitVec 5} {s : State}
    (h : 71 < barNum (s.focus.gr a) ∨ bitsOf (s.focus.gr b) 5 0 < 62) :
    exec (.barAf k a b) s = arriveForm (s.focus.gr a) false (some (s.focus.gr b)) s := if_pos h

theorem barAf_channel {k : Bool} {a b : BitVec 5} {s : State} (hid : barNum (s.focus.gr a) ≤ 71)
    (hch : 62 ≤ bitsOf (s.focus.gr b) 5 0) : Raises (.barAf k a b) s .illop (s.focus.gr b) 0 :=
  if_neg (not_or.2 ⟨Nat.not_lt.2 hid, Nat.not_lt.2 hch⟩)

/-! ### BAR.WAIT (R195, R310, R421) -/

section
variable {k : Bool} {a : BitVec 5} {s : State}

/-- R421: an arrival that the package holding the barrier has not yet counted. -/
theorem Firing.awaitsCount_iff (x : Firing) (id : Nat) : x.awaitsCount id = true ↔ ∃ n, (id, n) ∈ x.farArr := by
  simp only [Firing.awaitsCount, List.any_eq_true, decide_eq_true_eq, Prod.exists]
  constructor
  · rintro ⟨_, n, hmem, rfl⟩
    exact ⟨n, hmem⟩
  · rintro ⟨n, hmem⟩
    exact ⟨id, n, hmem, rfl⟩

theorem barWait_refused {i0 : Word} (h : s.barCheck s.focus (s.focus.gr a) = .error (.exc .illop i0 0 0)) :
    Raises (.barWait k a) s .illop i0 0 := by
  show execBarWait k a s = _
  rw [execBarWait, h]
  rfl

/-- The slot of a legal BAR.WAIT, with PART in its read set, before the phase is recorded. -/
def State.barWaiter (s : State) (a : BitVec 5) : Slot := s.focus.addRead (s.focus.partLoc (barNum (s.focus.gr a)))

/-- R195: the phase of the barrier that BAR.WAIT names, as it stands. -/
def State.barPhase (s : State) (a : BitVec 5) : Bool :=
  (s.myCtx.barOf (barOwner s.focus.firing.lc (barNum (s.focus.gr a))) (barNum (s.focus.gr a))).phase

variable (hid : barNum (s.focus.gr a) ≤ 71) (hpart : s.partSeen s.focus (barNum (s.focus.gr a)) ≠ 0)
include hid hpart

/-- R195, R310: BAR.WAIT with a phase recorded: it passes where the phase has changed and no arrival is uncounted. -/
theorem barWait_recorded {ph : Bool} (hrec : s.focus.firing.phaseOf (barNum (s.focus.gr a)) = some ph) :
    exec (.barWait k a) s = if s.barPhase a = ph ∨ s.focus.firing.awaitsCount (barNum (s.focus.gr a)) = true then
      .next (s.withFocus { s.barWaiter a with wait := .barrier (barNum (s.focus.gr a)) ph })
    else .next (s.withFocus ((s.barWaiter a).advance k)) := by
  show execBarWait k a s = _
  rw [execBarWait, State.barCheck_passes hid hpart]
  simp only [Slot.addRead_firing, hrec, Option.getD_some, Option.isSome_some, if_true]
  rfl

/-- R195, R310: BAR.WAIT without a phase recorded waits for the phase to change from what it is. -/
theorem barWait_unrecorded (hrec : s.focus.firing.phaseOf (barNum (s.focus.gr a)) = none) :
    Does (.barWait k a) s { s.barWaiter a with
      firing := { s.focus.firing with waits := (barNum (s.focus.gr a), s.barPhase a) :: s.focus.firing.waits }
      wait := .barrier (barNum (s.focus.gr a)) (s.barPhase a) } := by
  show execBarWait k a s = _
  rw [execBarWait, State.barCheck_passes hid hpart]
  simp only [Slot.addRead_firing, hrec, Option.getD_none, true_or, if_true]
  rfl

end

/-! ### RED.CFG (R349) -/

/-- R349: what RED.CFG refuses of its images. -/
theorem redCfgBad_iff (x y : Word) :
    (decide (bitsOf x 63 30 ≠ 0) || (!x.getLsbD 29 && (decide (bitsOf y 63 45 ≠ 0) || decide (62 ≤ bitsOf x 16 11)
      || (y.getLsbD 44 && decide (63 < bitsOf y 37 32 + bitsOf y 43 38))
      || (!y.getLsbD 44 && decide (bitsOf y 43 32 ≠ 0)) || rectBad y))) = true ↔
      x.toNat / 2 ^ 30 ≠ 0 ∨ (¬ x.toNat / 2 ^ 29 % 2 = 1 ∧ (y.toNat / 2 ^ 45 ≠ 0 ∨ 62 ≤ x.toNat / 2 ^ 11 % 64
        ∨ (y.toNat / 2 ^ 44 % 2 = 1 ∧ 63 < y.toNat / 2 ^ 32 % 64 + y.toNat / 2 ^ 38 % 64)
        ∨ (¬ y.toNat / 2 ^ 44 % 2 = 1 ∧ y.toNat / 2 ^ 32 % 2 ^ 12 ≠ 0) ∨ rectBad y = true)) := by
  simp [bitsOf_top, bitsOf_eq, getElem_eq_decide, or_assoc]

/-- R349: whether RED.CFG names logical cores that the context does not define. -/
theorem redCfgUndef_iff (c : Ctx) (x y : Word) :
    (!x.getLsbD 29 && (((!y.getLsbD 44 || decide (bitsOf y 37 32 = Config.ownPackage.val)) && !c.defines (bitsOf x 28 17))
      || !(c.lcores.any fun l => l.valid && inRect y l.n))) = true ↔
      ¬ x.toNat / 2 ^ 29 % 2 = 1 ∧ (((¬ y.toNat / 2 ^ 44 % 2 = 1 ∨ y.toNat / 2 ^ 32 % 64 = Config.ownPackage.val)
        ∧ c.defines (x.toNat / 2 ^ 17 % 2 ^ 12) = false) ∨ ∀ l ∈ c.lcores, l.valid = true → inRect y l.n = false) := by
  simp [bitsOf_eq, getElem_eq_decide]

/-! ### RED.RD (R350) -/

theorem RedGroup.word_config (r : RedGroup) {n : Nat} (h : n < 2) : r.word n = if n = 0 then r.cfgA else r.cfgB := by
  interval_cases n <;> rfl

section
variable {k : Bool} {d a : BitVec 5} {s : State}

theorem redRd_config (hw : (s.focus.gr a).toNat / 64 % 4 < 2) :
    let r := s.myCtx.redOf ((s.focus.gr a).toNat % 64)
    Does (.redRd k a d) s (((s.focus.addRead (.red s.focus.firing.ctx ((s.focus.gr a).toNat % 64))).landG d
      (if (s.focus.gr a).toNat / 64 % 4 = 0 then r.cfgA else r.cfgB)).advance k) := by
  intro r
  rw [← RedGroup.word_config r hw]
  show execRedRd k a d s = _
  simp only [execRedRd, show bitsOf (s.focus.gr a) 7 6 = (s.focus.gr a).toNat / 64 % 4 from bitsOf_eq _ 7 6, if_pos hw]
  rfl

theorem redRd_live {n : Nat} {v : Word} (hn : (s.focus.gr a).toNat / 64 % 4 = n) (hw : ¬ n < 2)
    (hv : (s.myCtx.redOf ((s.focus.gr a).toNat % 64)).word n = v) : GivesLate (.redRd k a d) k d s v := by
  show execRedRd k a d s = _
  simp only [execRedRd, (bitsOf_eq (s.focus.gr a) 7 6).trans hn, if_neg hw, ← hv]
  rfl

end

/-- Settles O49: each instruction makes its checks in order; what they let pass is held, closes the chunk, waits or answers. -/
theorem barrierAndReductionInstructions : Obligations.BarrierAndReductionInstructions := by
  unfold Obligations.BarrierAndReductionInstructions
  intro k d a b s f x y id bar part g recorded uncounted grp w off cross redBad rootHere redUndef
  have hunknown (h : 71 < id) : s.barCheck f x = .error (.exc .illop x 0 0) := State.barCheck_unknown h
  have hunset (h : id ≤ 71) (hp : part = 0) : s.barCheck f x = .error (.exc .illop (BitVec.ofNat 64 id) 0 0) :=
    State.barCheck_unconfigured h hp
  have hlegal (h : ¬ redBad) := Bool.eq_false_iff.2 (mt (redCfgBad_iff x y).1 h)
  have hdefined (h : ¬ redUndef) := Bool.eq_false_iff.2 (mt (redCfgUndef_iff s.myCtx x y).1 h)
  refine ⟨fun h => ⟨?_, ?_, ?_, ?_, ?_, ?_⟩, fun h => ⟨?_, ?_⟩, fun h hp => ⟨?_, ?_, ?_, fun hch => ?_⟩,
    fun h hch => barAf_channel h hch, fun h hp => ⟨?_, ?_, fun hch => ?_⟩,
    fun h hp ph hrec => ⟨fun hne hcount => ?_, fun hwait => ?_⟩,
    fun h hp hrec => barWait_unrecorded h hp hrec,
    fun hbad => raises_of_finish rfl (refuseIf_refuses ((redCfgBad_iff x y).2 hbad)),
    fun hok hund => raises_of_finish rfl (refuseIf_passes (hlegal hok)
      (refuseIf_refuses ((redCfgUndef_iff s.myCtx x y).2 hund))),
    fun hok hdef => does_of_finish rfl (refuseIf_passes (hlegal hok) (refuseIf_passes (hdefined hdef) rfl)),
    fun hw => ?_, fun hw => ?_, fun hw => ?_⟩
  · exact raises_of_finish rfl (if_pos h)
  · exact raises_of_arriveForm rfl (hunknown h)
  · exact raises_of_arriveForm rfl (hunknown h)
  · exact raises_of_arriveForm (execBarAf_of_arrives (.inl h)) (hunknown h)
  · exact barWait_refused (hunknown h)
  · exact raises_of_finish rfl (if_pos h)
  · exact does_of_finish rfl (if_neg (Nat.not_lt.2 h))
  · exact does_of_finish rfl (if_neg (Nat.not_lt.2 h))
  · exact raises_of_arriveForm rfl (hunset h hp)
  · exact raises_of_arriveForm rfl (hunset h hp)
  · exact barWait_refused (hunset h hp)
  · exact raises_of_arriveForm (execBarAf_of_arrives (.inr hch)) (hunset h hp)
  · exact closesFrom_of_arriveForm rfl h hp
  · exact closesFrom_of_arriveForm rfl h hp
  · exact closesFrom_of_arriveForm (execBarAf_of_arrives (.inr hch)) h hp
  · exact (barWait_recorded h hp hrec).trans
      (if_neg (not_or.2 ⟨fun heq => hne heq.symm, fun hc => hcount ((Firing.awaitsCount_iff _ _).1 hc)⟩))
  · exact (barWait_recorded h hp hrec).trans (if_pos (hwait.imp Eq.symm (Firing.awaitsCount_iff _ _).2))
  · exact redRd_config hw
  · exact redRd_live hw (by decide) rfl
  · exact redRd_live hw (by decide) rfl

end Sys2Proof.Machine
end

section
/-! O53: the commit of a chunk that holds stores alone (R180, R182, R184, R185, R188, R379). -/

namespace Sys2Proof.Machine

/-! ### What a write leaves of the log and of the migrations (R184, R389) -/

/-- R184, R389: what the LLC and DRAM do not change when M is read and written. -/
def State.logMigs (s : State) : List LogEntry × List Migration := (s.log, s.migs)

section
variable (s : State)

@[simp] theorem State.markLines_log (keys : List Nat) : (s.markLines keys).log = s.log := by
  unfold State.markLines
  split <;> rfl

@[simp] theorem State.blame_logMigs (pcs : List Nat) : (s.blame pcs).logMigs = s.logMigs := by
  unfold State.blame
  exact foldl_field State.logMigs (fun s p => by dsimp only; split <;> rfl) _ _

@[simp] theorem State.getUnit_logMigs (a : Attr) (b : Nat) : (s.getUnit a b).1.logMigs = s.logMigs := by
  unfold State.getUnit
  dsimp only
  split
  · rfl
  · exact State.blame_logMigs _ _

@[simp] theorem State.reportUnit_logMigs (a : Attr) (b : Nat) : (s.reportUnit a b).logMigs = s.logMigs := by
  unfold State.reportUnit
  split <;> rfl

@[simp] theorem State.unpoison_logMigs (c : Bool) (b n : Nat) : (s.unpoison c b n).logMigs = s.logMigs := by
  unfold State.unpoison
  split <;> rfl

@[simp] theorem State.dropTags_logMigs : s.dropTags.logMigs = s.logMigs := by
  unfold State.dropTags
  split <;> rfl

@[simp] theorem State.poisonUnit_logMigs (b n : Nat) : (s.poisonUnit b n).logMigs = s.logMigs := rfl

@[simp] theorem State.putUnit_logMigs (a : Attr) (b : Nat) (l : List Byte) (p : Bool) :
    (s.putUnit a b l p).logMigs = s.logMigs := rfl

@[simp] theorem State.clean_logMigs (g b : Nat) : (s.clean g b).logMigs = s.logMigs := rfl

@[simp] theorem State.takeUnit_logMigs (a : Attr) (b : Nat) (l : List Byte) : (s.takeUnit a b l).logMigs = s.logMigs := rfl

@[simp] theorem State.foundBad_logMigs (a : Attr) (b : Nat) : (s.foundBad a b).logMigs = s.logMigs := by
  unfold State.foundBad
  split <;> simp

@[simp] theorem State.writeBackUnit_logMigs (a : Attr) (b : Nat) : (s.writeBackUnit a b).logMigs = s.logMigs := by
  unfold State.writeBackUnit
  dsimp only
  split
  · simp
  · split <;> simp

@[simp] theorem State.flushLine_logMigs (l : LlcLine) : (s.flushLine l).logMigs = s.logMigs := by
  unfold State.flushLine
  exact foldl_field State.logMigs (fun s b => by split <;> simp) _ _

@[simp] theorem State.evict_logMigs (l : LlcLine) : (s.evict l).logMigs = s.logMigs := by
  unfold State.evict
  rw [State.dropTags_logMigs]
  exact s.flushLine_logMigs l

@[simp] theorem State.evictOther_logMigs (c n : Nat) : (s.evictOther c n).logMigs = s.logMigs := by
  unfold State.evictOther
  split
  · split <;> simp
  · rfl

@[simp] theorem State.makeRoom_logMigs (a : Attr) (n : Nat) : (s.makeRoom a n).logMigs = s.logMigs := by
  unfold State.makeRoom
  dsimp only
  split
  · rfl
  · split <;> simp

@[simp] theorem State.allocate_logMigs (a : Attr) (n v d : Nat) : (s.allocate a n v d).logMigs = s.logMigs := by
  unfold State.allocate
  split
  · rfl
  · exact s.makeRoom_logMigs a n

@[simp] theorem State.writeThrough_logMigs (a : Attr) (b : Nat) (keys : List Nat) :
    (s.writeThrough a b keys).logMigs = s.logMigs := by
  unfold State.writeThrough
  dsimp only
  split
  · simp
  · split <;> simp

@[simp] theorem State.afterWrite_logMigs (attr : Nat → Attr) (keys : List Nat) :
    (s.afterWrite attr keys).logMigs = s.logMigs := by
  unfold State.afterWrite
  exact foldl_field State.logMigs (fun s q => by dsimp only; split <;> simp) _ _

@[simp] theorem State.fill_logMigs (a : Attr) (k : Nat) : (s.fill a k).logMigs = s.logMigs := by
  have hevict (c : Nat) (l : List Nat) (t : State) : (l.foldl (fun s n => s.evictOther c n) t).logMigs = t.logMigs :=
    foldl_field State.logMigs (fun s n => s.evictOther_logMigs c n) l t
  have halloc (b : Attr) (l : List Nat) (t : State) :
      (l.foldl (fun s q => s.allocate b (q / 128) (sectorBit q) 0) t).logMigs = t.logMigs :=
    foldl_field State.logMigs (fun s q => s.allocate_logMigs b _ _ _) l t
  unfold State.fill
  split
  · rfl
  · dsimp only
    split <;> split <;> simp [hevict, halloc]

@[simp] theorem State.beforeWrite_logMigs (attr : Nat → Attr) (keys : List Nat) :
    (s.beforeWrite attr keys).logMigs = s.logMigs := by
  unfold State.beforeWrite
  exact foldl_field State.logMigs (fun s q => by dsimp only; split <;> simp) _ _

theorem State.writeMem_logMigs (attr : Nat → Attr) (cells : List Host.Cell) : (s.writeMem attr cells).logMigs = s.logMigs := by
  unfold State.writeMem
  dsimp only
  rw [State.afterWrite_logMigs]
  exact State.beforeWrite_logMigs _ _ _

theorem State.writeMem_log (attr : Nat → Attr) (cells : List Host.Cell) : (s.writeMem attr cells).log = s.log :=
  congrArg Prod.fst (s.writeMem_logMigs attr cells)

/-- R184: a write enters the log as one. -/
theorem State.logWrite_log_length (attr : Nat → Attr) (cells : List Host.Cell) :
    (s.logWrite attr cells).log.length = s.log.length + 1 := by
  simp [State.logWrite, State.writeMem_log]

end

/-! ### The bytes of a write buffer in M (R180, R208) -/

/-- A byte that a sorted buffer does not list is one of no cell of it. -/
theorem bufRead_cons_of_lt {a j : Nat} {v : Byte} {l : List Host.Cell} (h : ((a, v) :: l).map (·.1) |>.Pairwise (· < ·))
    (hj : j ≤ a) : ∀ c ∈ l, c.1 ≠ j := by
  intro c hc
  have hlt : a < c.1 := List.rel_of_pairwise_cons h (List.mem_map_of_mem (f := (·.1)) hc)
  omega

theorem cellRead_cellWriteAll_sorted : ∀ (w m : List Host.Cell), Memory.wf m = true →
    (w.map fun c => c.1).Pairwise (· < ·) → ∀ j, cellRead (cellWriteAll m w) j = (bufRead w j).getD (cellRead m j)
  | [], _, _, _, _ => rfl
  | (a, v) :: l, m, hwf, hsorted, j => by
    have hm := Memory.wf_cellWrite m a v hwf
    change cellRead (cellWriteAll (cellWrite m a v) l) j = _
    rw [bufRead]
    split
    case isTrue haj =>
      rw [cellRead_cellWriteAll_of_not_mem l _ hm j (bufRead_cons_of_lt hsorted haj.ge), cellRead_cellWrite m a j v hwf,
        if_pos haj.symm]
      rfl
    case isFalse hne =>
      split
      case isTrue hlt =>
        rw [cellRead_cellWriteAll_of_not_mem l _ hm j (bufRead_cons_of_lt hsorted hlt.le), cellRead_cellWrite m a j v hwf,
          if_neg (Ne.symm hne)]
        rfl
      case isFalse =>
        rw [cellRead_cellWriteAll_sorted l _ hm (List.Pairwise.of_cons hsorted), cellRead_cellWrite m a j v hwf,
          if_neg (Ne.symm hne)]

theorem bufRead_none_of_not_mem {w : List Host.Cell} {j : Nat} (h : ∀ c ∈ w, c.1 ≠ j) : bufRead w j = none := by
  induction w with
  | nil => rfl
  | cons c l ih =>
    rw [bufRead, if_neg (h c List.mem_cons_self), ih fun d hd => h d (List.mem_cons_of_mem c hd), ite_self]

section
variable {s : State} {attr : Nat → Attr} {w : List Host.Cell} (hwf : Memory.wf s.mem = true)
  (hsorted : (w.map fun c => c.1).Pairwise (· < ·)) (hpresent : ∀ c ∈ w, frameAbsent c.1 = false)
include hwf hsorted hpresent

/-- R379: M after a write holds its bytes over what its fills have put there. -/
theorem State.logWrite_read_sorted (j : Nat) : ∃ m : List Host.Cell,
    cellRead (s.logWrite attr w).mem j = (bufRead w j).getD (cellRead m j)
    ∧ ((∀ c ∈ w, j / 512 ≠ c.1 / 512) → cellRead m j = cellRead s.mem j)
    ∧ ((∀ q ∈ writtenSectors (w.map fun c => c.1), q.2 = true) → m = s.mem) := by
  have hall : w.filter (fun c => !frameAbsent c.1) = w := List.filter_eq_self.2 fun c hc => by simp [hpresent c hc]
  have hmarked : Memory.wf (s.markLines (w.map fun c => c.1)).mem = true := by rwa [State.markLines_mem]
  refine ⟨((s.markLines (w.map fun c => c.1)).beforeWrite attr (w.map fun c => c.1)).mem, ?_,
    fun hfar => ?_, fun hwhole => ?_⟩
  · rw [← cellRead_cellWriteAll_sorted w _ (State.beforeWrite_wf _ attr _ hmarked) hsorted]
    change cellRead (State.writeMem _ attr w).mem j = _
    rw [State.writeMem_mem, hall]
  · rw [State.beforeWrite_read _ attr _ j hmarked (List.forall_mem_map.2 hfar), State.markLines_mem]
  · rw [State.beforeWrite_whole _ attr _ hwhole, State.markLines_mem]

end

/-! ### What the steps of a commit leave (R184) -/

/-- R184: what follows a commit's writes leaves M, host memory, the log, the rectangles, the moves, the slots,
the pending writes and the commands. -/
structure State.LeavesSlots (s t : State) : Prop where
  mem : t.mem = s.mem
  host : t.host = s.host
  log : t.log = s.log
  rects : t.rects = s.rects
  moves : t.moves = s.moves
  focus : t.focus = s.focus
  others : t.others = s.others
  pend : t.pend = s.pend
  jobs : t.jobs = s.jobs

theorem State.LeavesSlots.refl (s : State) : s.LeavesSlots s := ⟨rfl, rfl, rfl, rfl, rfl, rfl, rfl, rfl, rfl⟩

theorem State.LeavesSlots.trans {s t u : State} (h : s.LeavesSlots t) (h' : t.LeavesSlots u) : s.LeavesSlots u where
  mem := h'.mem.trans h.mem
  host := h'.host.trans h.host
  log := h'.log.trans h.log
  rects := h'.rects.trans h.rects
  moves := h'.moves.trans h.moves
  focus := h'.focus.trans h.focus
  others := h'.others.trans h.others
  pend := h'.pend.trans h.pend
  jobs := h'.jobs.trans h.jobs

section
variable (s : State)

theorem State.charge_leavesSlots (ctx cluster n : Nat) : s.LeavesSlots (s.charge ctx cluster n) := by
  rw [(s.charge_charged ctx cluster n).rest]
  exact ⟨rfl, rfl, rfl, rfl, rfl, rfl, rfl, rfl, rfl⟩

theorem State.watchEvent_leavesSlots (ctx cluster wg bits sat : Nat) (fid : Word) :
    s.LeavesSlots (s.watchEvent ctx cluster wg bits sat fid) := by
  obtain ⟨⟨c, h⟩, -⟩ := s.watchEvent_eq ctx cluster wg bits sat fid
  rw [h]
  exact ⟨rfl, rfl, rfl, rfl, rfl, rfl, rfl, rfl, rfl⟩

theorem State.setLc_leavesSlots (c : Nat) (l : LCore) : s.LeavesSlots (s.setLc c l) :=
  ⟨rfl, rfl, rfl, rfl, rfl, rfl, rfl, rfl, rfl⟩

/-- R184: a release of nothing queues at most itself. -/
theorem State.release_leavesSlots {r : Release} (h : r.held = []) : s.LeavesSlots (s.release r) := by
  unfold State.release
  split
  · exact ⟨rfl, rfl, rfl, rfl, rfl, rfl, rfl, rfl, rfl⟩
  · rw [State.releaseAll, h]
    exact .refl s

/-- R393, R405: a write to no table of firmware changes the entry of the scores at most. -/
theorem State.refreshAll_leavesSlots {keys : List Nat} (h : ∀ k ∈ keys, k < 2 ^ 39 ∨ isDeviceKey k = false) :
    s.LeavesSlots (s.refreshAll keys) := by
  have hnone : s.refresh keys = s := if_pos (List.all_eq_true.2 fun k hk => by simpa using h k hk)
  rw [State.refreshAll, hnone, State.refreshLaw]
  split
  · split <;> exact ⟨rfl, rfl, rfl, rfl, rfl, rfl, rfl, rfl, rfl⟩
  · exact .refl s

theorem State.endFiring_leavesSlots (x : Firing) : s.LeavesSlots (s.endFiring x) := by
  obtain ⟨c, g, n, h, -⟩ := s.endFiring_eq x
  rw [h]
  exact ⟨rfl, rfl, rfl, rfl, rfl, rfl, rfl, rfl, rfl⟩

theorem State.startMoves_of_none (h : s.moves = []) : s.startMoves = s := by
  rw [State.startMoves, h, State.startFrom, ← h]

end

/-! ### COMMIT_EFFECT on stores alone (R184) -/

section
variable (s : State)

/-- R184: the slots whose read sets a commit of the focus meets, its own firing's apart. -/
def State.meetsOthers (g : Slot) : Bool :=
  !g.at s.focus.core s.focus.k && !(g.active && g.firing.dual && g.firing.same s.focus.firing)

/-- R184: the firing of the focus after the commit of a chunk that holds stores alone. -/
def State.storesFiring : Firing := s.focus.firing.afterCommit (s.effectHash s.focus)

/-- R184: M with the chunk's bytes, and what hardware keeps of the tables that they lie in. -/
def State.storesWritten : State :=
  let keys := s.focus.chunk.wbuf.map fun c => c.1
  let x := s.storesFiring
  let cl := clusterIdOf s.focus.core
  (((s.logWrite (s.chunkAttr s.focus) s.focus.chunk.wbuf).refreshAll keys).chargeBursts s x.ctx cl).charge x.ctx cl
    (llcCharge * linesOf keys)

/-- R184: the watch group's events and the releases of a chunk that holds stores alone. -/
def State.storesReleased (u : State) : State :=
  let f := s.focus
  let x := s.storesFiring
  let cl := clusterIdOf f.core
  let s4 := u.watchEvent x.ctx cl ((s.storesWritten.lcOf x.ctx x.lc).ttOf x.ch).wg f.reg.flags.toNat f.chunk.hidden x.fid
  let s5 := if f.chunk.winEv = [] then s4 else s4.setLc x.ctx ((s4.lcOf x.ctx x.lc).windowEvents f.chunk.winEv)
  s5.release { ctx := x.ctx, lc := x.lc, cluster := cl, slotCore := f.core, wg := false, inv := false, firing := x
               held := [], fmts := (s5.lcOf x.ctx x.lc).fmtWords }

/-- R184: the state in which the slot goes on. -/
def State.storesCommitted : State :=
  s.storesReleased (s.storesWritten.touch (s.focus.chunk.wbuf.map fun c => Loc.byte c.1) s.meetsOthers)

variable {s}
variable {kind : EndKind} (hclosed : s.focus.chunk.closed = some kind)
  (hkind : kind = .commit ∨ kind = .boundary ∨ kind = .fin)
  (hheld : s.focus.chunk.held = []) (hdual : s.focus.firing.dual = false) (hserial : s.focus.firing.serial = false)
  (hmode : (s.ctxOf s.focus.firing.ctx).dgMode = 0)
include hclosed hkind hheld hdual hserial hmode

theorem State.commitEffect_stores : s.commitEffect = (s.storesCommitted.nextChunk s.focus s.storesFiring
    (s.storesCommitted.phaseAt s.focus) (s.storesCommitted.farArrival s.focus)).startMoves := by
  have harrive (u : State) : u.arriveOf s.focus = u := by
    rw [State.arriveOf, hclosed]
    rcases hkind with rfl | rfl | rfl <;> rfl
  have hpartner : s.partner s.focus = none := if_neg (by simp [hdual])
  have hreport : s.reportLogFault s.focus = s := if_neg (by simp [hmode])
  have hposted : s.focus.postedKeys = [] := by rw [Slot.postedKeys, hheld]; rfl
  have hcells (fd : Word) : s.commitCells s.focus fd = (s.focus.chunk.wbuf, 0) := by
    have hrecord : s.recordCells s.focus fd = [] := if_neg (by simp [hmode])
    rw [State.commitCells, hheld, hrecord]
    simp [pamoCells, State.heldLawCells]
  have hverdict : s.focus.heldVerdict = false := by rw [Slot.heldVerdict, hheld]; rfl
  have hfill (attr : Nat → Attr) : s.fillMissing attr [] = s := rfl
  have hflags : s.focus.reg.flags ||| 0 = s.focus.reg.flags := BitVec.or_zero
  simp only [State.commitEffect, hreport, hposted, hfill, hcells, hverdict, hheld, hpartner, hserial, Bool.or_false,
    List.foldl_nil,
    List.map_nil, List.flatten_nil, List.append_nil, hflags, harrive, Bool.false_eq_true, if_false]
  rfl

end

/-! ### What the slots are after the commit (R122, R182, R185) -/

theorem State.storesReleased_leavesSlots (s u : State) : u.LeavesSlots (s.storesReleased u) := by
  unfold State.storesReleased
  extract_lets f x cl s4 s5
  have h4 : u.LeavesSlots s4 := u.watchEvent_leavesSlots _ _ _ _ _ _
  have h5 : u.LeavesSlots s5 := by
    unfold s5
    split
    · exact h4
    · exact h4.trans (State.setLc_leavesSlots _ _ _)
  exact h5.trans (State.release_leavesSlots _ rfl)

section
variable (u : State) (f : Slot) (x : Firing) (phase : Bool) (far : Option Nat)

/-- R122: what becomes of a slot after its commit leaves M, host memory, the log, the rectangles and the moves. -/
theorem State.nextChunk_leaves : (u.nextChunk f x phase far).mem = u.mem ∧ (u.nextChunk f x phase far).host = u.host
    ∧ (u.nextChunk f x phase far).log = u.log ∧ (u.nextChunk f x phase far).rects = u.rects
    ∧ (u.nextChunk f x phase far).moves = u.moves := by
  have hend := (u.leaveExcl f.core f.k).endFiring_leavesSlots x
  unfold State.nextChunk
  split
  · exact ⟨hend.mem, hend.host, hend.log, hend.rects, hend.moves⟩
  · exact ⟨rfl, rfl, rfl, rfl, rfl⟩

/-- R122: the other slots stay. -/
theorem State.mem_others_nextChunk {h : Slot} (hmem : h ∈ u.others) (hat : h.at f.core f.k = false)
    (hplace : (f.reopen x phase far).core = f.core ∧ (f.reopen x phase far).k = f.k) :
    h ∈ (u.nextChunk f x phase far).others := by
  have hend := (u.leaveExcl f.core f.k).endFiring_leavesSlots x
  unfold State.nextChunk
  split
  · refine List.mem_filter.2 ⟨?_, by simp [hat]⟩
    change h ∈ State.others (State.endFiring _ x)
    rwa [hend.others]
  · refine List.mem_map.2 ⟨h, hmem, if_neg ?_⟩
    rw [hplace.1, hplace.2, hat]
    exact Bool.false_ne_true

end

/-- R182, R185: a write that meets the read set of a slot in use dooms its chunk. -/
theorem Slot.touched_doomed {h : Slot} {w : List Loc} {p : Slot → Bool} (hactive : h.active = true) (hp : p h = true)
    (hmeets : meets h.chunk.rset w = true) : (h.touched w p).chunk.doomed = true := by
  unfold Slot.touched
  rw [if_pos hactive, hp, hmeets]
  dsimp only [Bool.and_self, if_true]
  split
  · split <;> rfl
  · rfl

/-- R192: a chunk that no fence or arrive form closed is followed by one that opens at once. -/
theorem Slot.reopen_plain {f : Slot} {kind : EndKind} (hclosed : f.chunk.closed = some kind)
    (hkind : kind = .commit ∨ kind = .boundary ∨ kind = .fin)
    (x : Firing) (phase : Bool) (far : Option Nat) : f.reopen x phase far = { f with firing := x }.openChunk := by
  rw [Slot.reopen, hclosed]
  rcases hkind with rfl | rfl | rfl <;> rfl

/-! ### The commit of a chunk of stores -/

section
variable {s : State} {kind : EndKind} (hmay : s.mayCommit = true) (hslot : s.slotAt s.focus.core s.focus.k = some s.focus)
  (hclosed : s.focus.chunk.closed = some kind) (hkind : kind = .commit ∨ kind = .boundary ∨ kind = .fin)
  (hheld : s.focus.chunk.held = []) (hdual : s.focus.firing.dual = false) (hcopy : s.focus.firing.copy = 0)
  (hserial : s.focus.firing.serial = false) (hmode : (s.ctxOf s.focus.firing.ctx).dgMode = 0) (hmoves : s.moves = [])
  (htables : ∀ c ∈ s.focus.chunk.wbuf, c.1 < 2 ^ 39 ∨ isDeviceKey c.1 = false)

include hmay hcopy hdual hmode in
/-- R184, R404: without a shadow and outside VERIFY a chunk that may commit has its effect. -/
theorem State.commitPrimary_of_mayCommit : s.commitPrimary = s.commitEffect := by
  have hread : s.readDigest s.focus = s := if_pos (.inr (.inl hmode))
  have hdigest : s.digestFails s.focus = none := if_neg (by simp [hmode])
  rw [State.commitPrimary, if_pos hcopy, State.commitFocus, hmay]
  simp [hread, hdigest, hdual]

include htables in
/-- R184, R393: the write to M is all that the commit's first half does to memory and the slots. -/
theorem State.storesWritten_leavesSlots : (s.logWrite (s.chunkAttr s.focus) s.focus.chunk.wbuf).LeavesSlots s.storesWritten :=
  ((State.refreshAll_leavesSlots _ (List.forall_mem_map.2 htables)).trans (State.charge_leavesSlots _ _ _ _)).trans
    (State.charge_leavesSlots _ _ _ _)

/-- R184: the slots that the focus commit's writes have met. -/
def State.storesTouch (s : State) (h : Slot) : Slot :=
  h.touched (s.focus.chunk.wbuf.map fun c => Loc.byte c.1) s.meetsOthers

include htables in
theorem State.storesCommitted_fields : let v := s.storesCommitted
    v.mem = (s.logWrite (s.chunkAttr s.focus) s.focus.chunk.wbuf).mem ∧ v.host = s.host ∧ v.log.length = s.log.length + 1
      ∧ v.rects = s.rects ∧ v.moves = s.moves ∧ v.focus = s.storesTouch s.focus
      ∧ v.others = s.others.map s.storesTouch := by
  have hw := s.storesWritten_leavesSlots htables
  have hr := s.storesReleased_leavesSlots (s.storesWritten.touch (s.focus.chunk.wbuf.map fun c => Loc.byte c.1) s.meetsOthers)
  have hlog := s.logWrite_onMemory (s.chunkAttr s.focus) s.focus.chunk.wbuf
  have hrects := congrArg State.rects hlog
  have hmoves := congrArg State.moves hlog
  have hothers := congrArg State.others hlog
  intro v
  refine ⟨hr.mem.trans hw.mem, (hr.host.trans hw.host).trans (s.logWrite_host _ _), ?_, (hr.rects.trans hw.rects).trans hrects,
    (hr.moves.trans hw.moves).trans hmoves, hr.focus.trans ?_, hr.others.trans ?_⟩
  · exact (congrArg List.length (hr.log.trans hw.log)).trans (s.logWrite_log_length _ _)
  · change s.storesTouch s.storesWritten.focus = _
    rw [hw.focus, State.logWrite_focus]
  · change s.storesWritten.others.map s.storesTouch = _
    rw [hw.others, hothers]
    rfl

/-- R184: the state after the commit of a chunk that holds stores alone. -/
def State.storesNext (s : State) : State := s.storesCommitted.nextChunk s.focus s.storesFiring
  (s.storesCommitted.phaseAt s.focus) (s.storesCommitted.farArrival s.focus)

include htables in
theorem State.storesNext_leaves : s.storesNext.mem = (s.logWrite (s.chunkAttr s.focus) s.focus.chunk.wbuf).mem
    ∧ s.storesNext.host = s.host ∧ s.storesNext.log.length = s.log.length + 1 ∧ s.storesNext.rects = s.rects
    ∧ s.storesNext.moves = s.moves := by
  obtain ⟨hmem, hhost, hlog, hrects, hmoves, -, -⟩ := s.storesCommitted_fields htables
  obtain ⟨hmem', hhost', hlog', hrects', hmoves'⟩ := s.storesCommitted.nextChunk_leaves s.focus s.storesFiring
    (s.storesCommitted.phaseAt s.focus) (s.storesCommitted.farArrival s.focus)
  exact ⟨hmem'.trans hmem, hhost'.trans hhost, (congrArg List.length hlog').trans hlog, hrects'.trans hrects,
    hmoves'.trans hmoves⟩

include hmay hslot hclosed hkind hheld hdual hcopy hserial hmode hmoves htables in
theorem chunkCommit_stores : exec (.chunkCommit s.focus.core s.focus.k) s = .next s.storesNext := by
  obtain ⟨-, -, -, hrects, hnomoves⟩ := s.storesNext_leaves htables
  have hfocus : s.refocus s.focus.core s.focus.k = s := if_pos (State.slotAt_at hslot)
  have heffect : s.commitPrimary = s.storesNext := by
    rw [s.commitPrimary_of_mayCommit hmay hdual hcopy hmode, s.commitEffect_stores hclosed hkind hheld hdual hserial hmode]
    exact State.startMoves_of_none _ (hnomoves.trans hmoves)
  change execChunkCommit s.focus.core s.focus.k s = _
  simp only [execChunkCommit, hslot, Option.isNone_some, Bool.false_eq_true, if_false, hfocus, heffect, hrects, if_true]

include hslot in
theorem State.storesCommitted_slotAt (htables : ∀ c ∈ s.focus.chunk.wbuf, c.1 < 2 ^ 39 ∨ isDeviceKey c.1 = false) :
    s.storesCommitted.slotAt s.focus.core s.focus.k = some (s.storesTouch s.focus) := by
  obtain ⟨-, -, -, -, -, hfocus, hothers⟩ := s.storesCommitted_fields htables
  have hat : (s.storesTouch s.focus).at s.focus.core s.focus.k = true :=
    (Slot.touched_at _ _ _ _ _).trans (State.slotAt_at hslot)
  rw [State.slotAt, State.slots, hfocus]
  exact List.find?_cons_of_pos (by exact hat)

include hslot hclosed hkind htables in
/-- R122, R192: a firing that goes on has its next chunk from the registers it had. -/
theorem State.storesNext_goesOn (hfin : kind ≠ .fin) : s.storesNext.slotAt s.focus.core s.focus.k
    = some { s.focus with firing := s.storesFiring }.openChunk := by
  have hends : s.focus.ends = false := by
    rw [Slot.ends, hclosed]
    rcases hkind with rfl | rfl | rfl
    · rfl
    · rfl
    · exact absurd rfl hfin
  have hnext : s.storesNext = (s.storesCommitted.leaveExcl s.focus.core s.focus.k).setSlot
      { s.focus with firing := s.storesFiring }.openChunk := by
    rw [State.storesNext, State.nextChunk, hends, Slot.reopen_plain hclosed hkind]
    rfl
  obtain ⟨hactive, -, -⟩ := Slot.at_iff.1 (State.slotAt_at hslot)
  rw [hnext]
  refine State.slotAt_setSlot (f := s.storesTouch s.focus) (s.storesCommitted_slotAt hslot htables) ⟨?_, ?_, ?_⟩
  · exact (Slot.touched_active s.focus _ _).symm
  · exact (Slot.touched_core s.focus _ _).symm
  · exact (Slot.touched_k s.focus _ _).symm

include hslot hclosed htables in
/-- R122: a firing that has ended frees its slot. -/
theorem State.storesNext_ends (hfin : kind = .fin) : s.storesNext.focus = s.focus.free := by
  obtain ⟨-, -, -, -, -, hfocus, -⟩ := s.storesCommitted_fields htables
  have hat : (s.storesTouch s.focus).at s.focus.core s.focus.k = true :=
    (Slot.touched_at _ _ _ _ _).trans (State.slotAt_at hslot)
  have hends : s.focus.ends = true := by
    rw [Slot.ends, hclosed, hfin]
    rfl
  have hend := (s.storesCommitted.leaveExcl s.focus.core s.focus.k).endFiring_leavesSlots s.storesFiring
  have hendFocus := hend.focus.trans hfocus
  rw [State.storesNext, State.nextChunk, hends, if_pos rfl]
  obtain ⟨e, q, o, h⟩ := ((s.storesCommitted.leaveExcl s.focus.core s.focus.k).endFiring s.storesFiring).freeSlot_eq s.focus
  rw [h]
  change (if _ then _ else _) = _
  rw [hendFocus, if_pos hat]
  rw [Slot.free, Slot.free, State.storesTouch, Slot.touched_core, Slot.touched_k]

include hclosed hkind htables in
/-- R182, R185: another slot whose read set the stores meet can no longer commit. -/
theorem State.storesNext_dooms {h : Slot} (hmem : h ∈ s.others) (hactive : h.active = true)
    (hother : h.core ≠ s.focus.core ∨ h.k ≠ s.focus.k) (hsingle : h.firing.dual = false)
    (hmeets : ∃ c ∈ s.focus.chunk.wbuf, Loc.byte c.1 ∈ h.chunk.rset) :
    ∃ h' ∈ s.storesNext.others, h'.core = h.core ∧ h'.k = h.k ∧ h'.chunk.doomed = true := by
  obtain ⟨c, hc, hread⟩ := hmeets
  obtain ⟨-, -, -, -, -, -, hothers⟩ := s.storesCommitted_fields htables
  have hat : h.at s.focus.core s.focus.k = false := by
    rw [Bool.eq_false_iff, Ne, Slot.at_iff]
    rintro ⟨-, hcore, hk⟩
    exact hother.elim (absurd hcore) (absurd hk)
  have hmet : meets h.chunk.rset (s.focus.chunk.wbuf.map fun c => Loc.byte c.1) = true :=
    List.any_eq_true.2 ⟨_, hread, decide_eq_true (List.mem_map.2 ⟨c, hc, rfl⟩)⟩
  refine ⟨s.storesTouch h, State.mem_others_nextChunk _ _ _ _ _ ?_ ?_ ?_, Slot.touched_core _ _ _, Slot.touched_k _ _ _,
    Slot.touched_doomed hactive (by simp [State.meetsOthers, hat, hsingle]) hmet⟩
  · rw [hothers]
    exact List.mem_map_of_mem hmem
  · exact (Slot.touched_at _ _ _ _ _).trans hat
  · rw [Slot.reopen_plain hclosed hkind]
    exact ⟨rfl, rfl⟩

end

/-- Settles O53: the write of the chunk's buffer is the commit's only write of M; the slots after it follow from what it met. -/
theorem commitOfStores : Obligations.CommitOfStores := by
  unfold Obligations.CommitOfStores
  intro s kind f x w hmay hslot hclosed hkind hheld hdual hcopy hserial _ hmode hmoves hwf hsorted hpresent htables
  obtain ⟨hmem, hhost, hlog, -, -⟩ := s.storesNext_leaves htables
  refine ⟨s.storesNext, chunkCommit_stores hmay hslot hclosed hkind hheld hdual hcopy hserial hmode hmoves htables,
    fun j b hb => ?_, fun j hfar => ?_, fun hwhole j => ?_, hhost, hlog,
    fun h hin hact hother hsingle hmeets => State.storesNext_dooms hclosed hkind htables hin hact hother hsingle hmeets,
    fun hfin => ⟨_, State.storesNext_goesOn hslot hclosed hkind htables hfin, rfl, rfl, rfl, rfl, rfl, rfl, rfl⟩,
    fun hfin => State.storesNext_ends hslot hclosed htables hfin⟩
  all_goals
    obtain ⟨m, hread, hbefore, hsame⟩ := State.logWrite_read_sorted (attr := s.chunkAttr s.focus) hwf hsorted hpresent j
    rw [hmem, hread]
  · rw [hb]
    rfl
  · rw [bufRead_none_of_not_mem fun c hc heq => hfar c hc (by rw [heq])]
    exact hbefore hfar
  · rw [hsame hwhole]

end Sys2Proof.Machine
end

section
/-! O55: the steps of engines and copies (R187 to R191, R246, R267, R289, R290, R299, R301, R307, R388 to R391). -/

namespace Sys2Proof.Machine

/-! ### Take (R187, R267, R299, R419, R426) -/

section
variable (s : State) (j : Job) (far : Option Nat)

@[simp] theorem State.changeTile_jobs (ctx lc n : Nat) (g : Tile → Tile) : (s.changeTile ctx lc n g).jobs = s.jobs := by
  unfold State.changeTile
  dsimp only
  split <;> rfl

/-- R187: what the take finds out is written to the command; the states of its tiles change after it. -/
theorem State.takeJob_jobs : (s.takeJob j far).jobs
    = ((s.takeChecks { j with st := 2 } far).1.setJob (s.takeChecks { j with st := 2 } far).2).jobs := by
  have hread (l : List (Nat × Nat)) (t : State) :
      (l.foldl (fun s x => s.changeTile j.ctx x.1 x.2 Tile.readerStart) t).jobs = t.jobs :=
    foldl_field State.jobs (fun s x => s.changeTile_jobs _ _ _ _) l t
  unfold State.takeJob
  dsimp only
  split
  · rw [State.changeTile_jobs, hread]
  · rw [hread]

theorem Job.takeRecord_uid_st (i r : Nat) : (j.takeRecord i r).uid = j.uid ∧ (j.takeRecord i r).st = j.st := by
  have h : j.takeRecord i r = { j with recs := (i, r) :: j.recs } ∨ j.takeRecord i r = { j with err := 8 } := ite_eq_or_eq ..
  rcases h with h | h <;> rw [h] <;> exact ⟨rfl, rfl⟩

theorem Job.withFar_uid_st : (j.withFar far).uid = j.uid ∧ (j.withFar far).st = j.st := by
  unfold Job.withFar
  split
  · exact ⟨rfl, rfl⟩
  · exact j.takeRecord_uid_st _ _

theorem State.takeChecks_uid_st : (s.takeChecks j far).2.uid = j.uid ∧ (s.takeChecks j far).2.st = j.st := by
  unfold State.takeChecks
  dsimp only
  split
  · split
    · exact j.takeRecord_uid_st _ _
    split
    · exact ⟨rfl, rfl⟩
    split
    · exact j.withFar_uid_st far
    · exact ⟨rfl, rfl⟩
  split
  · split
    · split <;> exact ⟨rfl, rfl⟩
    · exact ⟨rfl, rfl⟩
  split
  · split
    · dsimp only
      split <;> exact ⟨rfl, rfl⟩
    · exact ⟨rfl, rfl⟩
  · exact ⟨rfl, rfl⟩

end

section
variable {s : State} {cluster k : Nat} {far : Option Nat} {j : Job} {e : Engine} (hhead : s.headJob e (coreAt cluster k) = some j)
  (hturn : s.nextTurn cluster e = some k)

include hhead hturn in
theorem execCommandTake_takes : exec (.commandTake cluster e ⟨k, far⟩) s = .next ((s.takeJob j far).setCluster
    (((s.takeJob j far).clusterOf cluster).turnPast e k)) := by
  change execCommandTake cluster e ⟨k, far⟩ s = _
  rw [execCommandTake, hhead]
  dsimp only
  rw [if_pos hturn]

theorem State.jobOf_taken (c : Cluster) :
    ((s.takeJob j far).setCluster c).jobOf j.uid = some (s.takeChecks { j with st := 2 } far).2 := by
  obtain ⟨huid, -⟩ := s.takeChecks_uid_st { j with st := 2 } far
  change ((s.takeJob j far).jobs.find? fun x => x.uid = j.uid) = _
  rw [State.takeJob_jobs]
  exact State.jobOf_setJob huid

/-- R267: the engine's turn passes the core whose command it took. -/
theorem Cluster.turnPast_id (c : Cluster) : (c.turnPast e k).id = c.id := by
  cases e <;> rfl

theorem State.clusterOf_turnPast (t : State) :
    (t.setCluster ((t.clusterOf cluster).turnPast e k)).clusterOf cluster = (t.clusterOf cluster).turnPast e k := by
  rw [State.clusterOf_setCluster, Cluster.turnPast_id, State.clusterOf_id, if_pos rfl]

/-- R187, R267: Take starts the command with what its checks found out, and moves the engine's turn on. -/
theorem commandTake_takes (hhead : s.headJob e (coreAt cluster k) = some j) (hturn : s.nextTurn cluster e = some k)
    {p : State → Prop}
    (hp : ∀ t : State, t.clusterOf cluster = ((s.takeJob j far).clusterOf cluster).turnPast e k →
      t.jobOf j.uid = some (s.takeChecks { j with st := 2 } far).2 → p t) :
    Leads (.commandTake cluster e ⟨k, far⟩) s p :=
  ⟨_, execCommandTake_takes hhead hturn, hp _ (State.clusterOf_turnPast _) (State.jobOf_taken _)⟩

/-- R267: a core whose head command waits is passed over. -/
theorem State.nextTurn_mayTake {n : Nat} (h : s.nextTurn cluster e = some n) :
    ∃ j, s.headJob e (coreAt cluster n) = some j ∧ s.mayTake j = true := by
  have hmay := List.find?_some h
  cases hj : s.headJob e (coreAt cluster n) with
  | none => simp [hj] at hmay
  | some j => exact ⟨j, rfl, by simpa [hj] using hmay⟩

theorem State.headJob_engine (hhead : s.headJob e (coreAt cluster k) = some j) : j.engine = e := by
  have := List.find?_some hhead
  simp only [Bool.and_eq_true, decide_eq_true_eq] at this
  exact this.1.1

end

/-! ### The checks of a copy at its take (R419, R426) -/

section
variable {s : State} {j : Job} {far : Option Nat} (hcopy : j.engine = .copy)

/-- R419: an object without the rights of its end ends the transfer. -/
theorem Job.takeRecord_refused {i r : Nat}
    (h : objOk r = false ∨ objRight r 10 = false ∨ objRight r (if j.bits 7 6 6 = 1 then 7 else 8) = false) :
    (j.takeRecord i r).err = 8 := by
  have hbad : ¬ (objOk r && objRight r 10 && objRight r (if j.bits 7 6 6 = 1 then 7 else 8)) = true := by
    rcases h with h | h | h <;> simp [h]
  rw [Job.takeRecord, if_neg hbad]

include hcopy

theorem State.takeChecks_copy : (s.takeChecks j far).2 =
    if j.selfNamed = true then j.takeRecord (j.bits j.farWord 15 0) (s.recordNow (s.ctxOf j.ctx) (j.bits j.farWord 15 0, 0)).2
    else if (!j.remote) = true then j
    else if s.reaches (j.bits 7 5 0) = true then j.withFar far else { j with err := 9 } := by
  rw [State.takeChecks, if_pos hcopy]

theorem State.takeChecks_local (hremote : j.remote = false) (hself : j.selfNamed = false) : (s.takeChecks j far).2 = j := by
  rw [State.takeChecks_copy hcopy, hself, hremote]
  rfl

theorem State.takeChecks_remote (hremote : j.remote = true) :
    (s.takeChecks j far).2 = if s.reaches (j.bits 7 5 0) = true then j.withFar far else { j with err := 9 } := by
  have hself : j.selfNamed = false := by
    simp only [Job.remote, Bool.and_eq_true, decide_eq_true_eq] at hremote
    simp [Job.selfNamed, hremote.2]
  rw [State.takeChecks_copy hcopy, hself, hremote]
  rfl

theorem State.takeChecks_selfNamed (hself : j.selfNamed = true) : (s.takeChecks j far).2
    = j.takeRecord (j.bits j.farWord 15 0) (s.recordNow (s.ctxOf j.ctx) (j.bits j.farWord 15 0, 0)).2 := by
  rw [State.takeChecks_copy hcopy, if_pos hself]

end

/-- R187, R419, R426: the Take of a copy. -/
theorem commandTake_copy {cluster k : Nat} {far : Option Nat} {s : State} {j : Job}
    (hhead : s.headJob .copy (coreAt cluster k) = some j)
    (hturn : s.nextTurn cluster .copy = some k) :
    Leads (.commandTake cluster .copy ⟨k, far⟩) s fun t => (t.clusterOf cluster).cturn = (k + 1) % 8
      ∧ ∃ j', t.jobOf j.uid = some j' ∧ j'.st = 2 ∧ (j.remote = false → j.selfNamed = false → j'.err = j.err)
      ∧ (j.remote = true → s.reaches (j.bits 7 5 0) = false → j'.err = 9)
      ∧ (j.remote = true → s.reaches (j.bits 7 5 0) = true → far = none → j'.err = 8)
      ∧ (j.selfNamed = true →
        let r := (s.recordNow (s.ctxOf j.ctx) (j.bits j.farWord 15 0, 0)).2
        objOk r = false ∨ objRight r 10 = false ∨ objRight r (if j.bits 7 6 6 = 1 then 7 else 8) = false → j'.err = 8) := by
  have hcopy := State.headJob_engine hhead
  refine commandTake_takes hhead hturn fun t hcluster hjob => ⟨by rw [hcluster]; rfl, _, hjob,
    (s.takeChecks_uid_st { j with st := 2 } far).2, fun hremote hself => ?_, fun hremote hdown => ?_,
    fun hremote hup hnone => ?_, fun hself hbad => ?_⟩
  · rw [State.takeChecks_local (j := { j with st := 2 }) hcopy hremote hself]
  · rw [State.takeChecks_remote (j := { j with st := 2 }) hcopy hremote]
    exact congrArg Job.err (if_neg (by rw [show ({ j with st := 2 } : Job).bits 7 5 0 = j.bits 7 5 0 from rfl, hdown]; simp))
  · rw [State.takeChecks_remote (j := { j with st := 2 }) hcopy hremote, hnone]
    exact congrArg Job.err (if_pos hup)
  · rw [State.takeChecks_selfNamed (j := { j with st := 2 }) hcopy hself]
    exact Job.takeRecord_refused (j := { j with st := 2 }) hbad

/-- R187: the Take of a matrix job. -/
theorem commandTake_matrix {cluster k : Nat} {far : Option Nat} {s : State} {j : Job}
    (hhead : s.headJob .matrix (coreAt cluster k) = some j) (hturn : s.nextTurn cluster .matrix = some k) :
    Leads (.commandTake cluster .matrix ⟨k, far⟩) s fun t => (t.clusterOf cluster).turn = (k + 1) % 8
      ∧ ∃ j', t.jobOf j.uid = some j' ∧ j'.st = 2 :=
  commandTake_takes hhead hturn fun t hcluster hjob => ⟨by rw [hcluster]; rfl, _, hjob,
    (s.takeChecks_uid_st { j with st := 2 } far).2⟩

/-! ### Fills of an element's bytes (R371, R379) -/

section
variable (s : State)

/-- R379: where the LLC holds what lies in DRAM nothing is filled. -/
theorem State.fillMissing_of_held {attr : Nat → Attr} {keys : List Nat}
    (h : ∀ k ∈ keys, inDram k = true → s.hits (attr k).ctx k = true) : s.fillMissing attr keys = s := by
  induction keys with
  | nil => rfl
  | cons k keys ih =>
    have hhit : (if !inDram k || s.hits (attr k).ctx k then s else s.fill (attr k) k) = s := if_pos (by
      cases hdram : inDram k
      · rfl
      · rw [h k List.mem_cons_self hdram, Bool.or_true])
    rw [State.fillMissing, List.foldl_cons, hhit]
    exact ih fun q hq => h q (List.mem_cons_of_mem k hq)

theorem State.chargeBursts_self (ctx cluster : Nat) : s.chargeBursts s ctx cluster = s := by
  rw [State.chargeBursts, Nat.sub_self, Nat.mul_zero]
  exact if_pos rfl

/-- R379: the LLC fills what it lacks of one place. -/
def State.fillLoc (s : State) : EngLoc → State
  | .key k a => s.fillMissing (fun _ => a) [k]
  | _ => s

theorem State.fillLocs_eq (j : Job) (l : List EngLoc) :
    s.fillLocs j l = (l.foldl State.fillLoc s).chargeBursts s j.ctx j.cluster := by
  have hstep : (fun (s : State) (x : EngLoc) => match x with
      | .key k a => s.fillMissing (fun _ => a) [k]
      | _ => s) = State.fillLoc := by
    funext s x
    cases x <;> rfl
  rw [← hstep]
  rfl

theorem State.fillLoc_of_held {x : EngLoc} (h : ∀ k a, x = .key k a → s.holdsKeys a.ctx k 1) : s.fillLoc x = s := by
  cases x with
  | key k a => exact s.fillMissing_of_held fun q hq => List.mem_singleton.1 hq ▸ h k a rfl 0 Nat.one_pos
  | _ => rfl

theorem State.fillLocs_of_held {j : Job} {l : List EngLoc} (h : ∀ k a, EngLoc.key k a ∈ l → s.holdsKeys a.ctx k 1) :
    s.fillLocs j l = s := by
  have hfold : l.foldl State.fillLoc s = s := by
    induction l with
    | nil => rfl
    | cons x l ih =>
      rw [List.foldl_cons, s.fillLoc_of_held fun k a hx => h k a (hx ▸ List.mem_cons_self)]
      exact ih fun k a hmem => h k a (List.mem_cons_of_mem x hmem)
  rw [State.fillLocs_eq, hfold]
  exact s.chargeBursts_self _ _

/-- R379: fills leave host memory. -/
theorem State.fillLocs_host (j : Job) (l : List EngLoc) : (s.fillLocs j l).host = s.host := by
  rw [State.fillLocs_eq]
  refine (State.charge_leavesSlots _ _ _ _).host.trans (foldl_field (f := State.fillLoc) State.host (fun t x => ?_) l s)
  cases x with
  | key k a => exact (congrArg State.host (t.fillMissing_onMemory (fun _ => a) [k])).trans rfl
  | _ => rfl

end

/-! ### Read element (R188, R193, R290) -/

theorem Job.got_keep (j : Job) (elem code sc : Nat) : (j.keep elem code sc).got elem = some (code, sc) := by
  simp [Job.keep, Job.got]

section
variable {s : State} {j : Job} {elem : Nat} {backs : List Nat} {refused : Bool} {o : Operand} (hreads : s.readsOf j elem = some o)
  (hgot : j.got elem = none)
include hreads hgot

theorem State.readStep_zero (h : o.loc = .outside ∨ elem ∈ j.zero) :
    s.readStep j elem backs refused = s.setJob (j.keepZero elem) := by
  rw [State.readStep, hreads]
  dsimp only
  rw [hgot, if_neg (by simp), if_pos h]

theorem State.readStep_refused (h : ¬ (o.loc = .outside ∨ elem ∈ j.zero)) (hnear : j.readsRemote elem = false)
    (hrefused : refused = true) (hhost : s.readsHost j o = true) : s.readStep j elem backs refused = s.failJob j 8 := by
  rw [State.readStep, hreads]
  dsimp only
  rw [hgot, if_neg (by simp), if_neg h, hnear, hrefused, hhost]
  rfl

theorem State.readStep_bytes (h : ¬ (o.loc = .outside ∨ elem ∈ j.zero)) (hnear : j.readsRemote elem = false)
    (hhost : refused = true → s.readsHost j o = false) {l : List Byte}
    (hbytes : (s.fillLocs j (s.operandLocs j o)).readOperand j backs o = .bytes l) :
    s.readStep j elem backs refused = (s.fillLocs j (s.operandLocs j o)).setJob
      (j.keep elem (codeFrom o.fmt o.loc l) (l.getLast?.getD 127).toNat) := by
  have hgoes : ¬ (refused && s.readsHost j o) = true := by
    cases refused
    · simp
    · simp [hhost rfl]
  rw [State.readStep, hreads]
  dsimp only
  rw [hgot, if_neg (by simp), if_neg h, hnear, if_neg (by simp), if_neg hgoes, hbytes]

end

/-- R188: a step that reads an element. -/
theorem readsElement_of_exec {i : Instr} {s : State} {j : Job} {elem : Nat} {backs : List Nat} {refused : Bool}
    (hexec : exec i s = .next (s.readStep j elem backs refused)) : ReadsElement i j elem backs refused s := by
  intro o hreads hgot hnear u
  refine ⟨fun hzero => ⟨_, hexec, ?_⟩, fun hinside hrefused hhost => ⟨_, hexec, ?_⟩,
    fun hinside hanswer l hbytes => ⟨_, hexec, ?_⟩⟩
  · rw [State.readStep_zero hreads hgot hzero]
    exact ⟨rfl, _, State.jobOf_setJob rfl, j.got_keep elem 0 127, rfl⟩
  · rw [State.readStep_refused hreads hgot hinside hnear hrefused hhost]
    exact ⟨rfl, _, State.jobOf_setJob rfl, rfl⟩
  · rw [State.readStep_bytes hreads hgot hinside hnear hanswer hbytes]
    exact ⟨rfl, fun hheld => congrArg State.mem (s.fillLocs_of_held hheld), _, State.jobOf_setJob rfl, j.got_keep elem _ _, rfl⟩

/-! ### Perform (R188) -/

theorem lastWritePos_le (k : Nat) : ∀ log : List LogEntry, lastWritePos log k ≤ log.length
  | [] => Nat.le_refl 0
  | e :: t => by
    rw [lastWritePos]
    split
    · exact Nat.le_refl _
    · exact (lastWritePos_le k t).trans (Nat.le_succ _)

section
variable (s : State) (j : Job) (a : Attr)

/-- R188: the job's cluster sees the byte at once, as no commit or apply is later; no other cluster does. -/
theorem State.committedByte_perform1 (k : Nat) (b : Byte) (c x : Nat) :
    (s.perform1 j a k b).committedByte c x = if c = j.cluster ∧ x = k then b else s.committedByte c x := by
  change (match List.find? _ (_ :: s.pend) with
    | some p => if lastWritePos s.log x ≤ p.pos then p.val else cellRead s.mem x
    | none => cellRead s.mem x) = _
  rw [List.find?_cons]
  by_cases h : c = j.cluster ∧ x = k
  · obtain ⟨rfl, rfl⟩ := h
    rw [if_pos ⟨rfl, rfl⟩]
    dsimp only
    rw [decide_eq_true rfl, decide_eq_true rfl]
    exact if_pos (lastWritePos_le _ _)
  · rw [if_neg h]
    have hother : (decide (j.cluster = c) && decide (k = x)) = false :=
      Bool.eq_false_iff.2 fun hboth => h (by
        simp only [Bool.and_eq_true, decide_eq_true_eq] at hboth
        exact ⟨hboth.1.symm, hboth.2.symm⟩)
    dsimp only
    rw [hother]
    rfl

/-- R188: the bytes at a key, performed one after the other. -/
def State.performCells (l : List Host.Cell) : State := l.foldl (fun s x => s.perform1 j a x.1 x.2) s

theorem State.performCells_memory (l : List Host.Cell) :
    (s.performCells j a l).mem = s.mem ∧ (s.performCells j a l).host = s.host :=
  ⟨foldl_field State.mem (f := fun s (x : Host.Cell) => s.perform1 j a x.1 x.2) (fun _ _ => rfl) l s,
    foldl_field State.host (f := fun s (x : Host.Cell) => s.perform1 j a x.1 x.2) (fun _ _ => rfl) l s⟩

theorem State.committedByte_performCells : ∀ (l : List Byte) (k : Nat) (s : State) (c x : Nat),
    (s.performCells j a (cellsAt k l)).committedByte c x
      = if c = j.cluster ∧ k ≤ x ∧ x < k + l.length then l.getD (x - k) 0 else s.committedByte c x
  | [], k, s, c, x => by
    rw [if_neg (by simp only [List.length_nil]; omega)]
    rfl
  | b :: l, k, s, c, x => by
    rw [cellsAt_cons]
    change ((s.perform1 j a k b).performCells j a (cellsAt (k + 1) l)).committedByte c x = _
    rw [State.committedByte_performCells l, State.committedByte_perform1, List.length_cons]
    by_cases hx : x = k
    · subst hx
      rw [if_neg (by omega)]
      by_cases hc : c = j.cluster
      · rw [if_pos ⟨hc, rfl⟩, if_pos ⟨hc, by omega⟩, Nat.sub_self]
        rfl
      · rw [if_neg (fun h => hc h.1), if_neg (fun h => hc h.1)]
    · rw [if_neg (c := c = j.cluster ∧ x = k) (fun h => hx h.2)]
      by_cases hin : c = j.cluster ∧ k + 1 ≤ x ∧ x < k + 1 + l.length
      · obtain ⟨hc, hle, hlt⟩ := hin
        obtain ⟨n, rfl⟩ := Nat.exists_eq_add_of_le hle
        rw [if_pos ⟨hc, hle, hlt⟩, if_pos ⟨hc, by omega, by omega⟩, Nat.add_sub_cancel_left, show k + 1 + n - k = n + 1 by omega]
        rfl
      · rw [if_neg hin, if_neg (by omega)]

/-- R298: the events of an element leave memory and what is performed. -/
theorem State.countTile_leaves (sat nan : Bool) : (s.countTile j sat nan).mem = s.mem ∧ (s.countTile j sat nan).host = s.host
    ∧ ∀ c x, (s.countTile j sat nan).committedByte c x = s.committedByte c x := by
  unfold State.countTile
  split
  · exact ⟨rfl, rfl, fun _ _ => rfl⟩
  · split <;> exact ⟨rfl, rfl, fun _ _ => rfl⟩

end

section
variable {s : State} {j : Job} {elem k : Nat} {w : Write} {m : Attr}

theorem findSome?_missed_keys (l : List Nat) : (l.map fun n => EngLoc.key n m).findSome? EngLoc.missed = none :=
  List.findSome?_eq_none_iff.2 fun x hx => by
    obtain ⟨n, -, rfl⟩ := List.mem_map.1 hx
    rfl

theorem mapM_cell_keys (l : List Nat) : (l.map fun n => EngLoc.key n m).mapM EngLoc.cell = some (l.map fun n => (n, m)) := by
  induction l with
  | nil => rfl
  | cons n l ih => simp [List.mapM_cons, ih, EngLoc.cell]

theorem State.codeBytesOf_length (u : State) : (u.codeBytesOf j w k).length = codeBytes w.dst.fmt.width := by
  unfold State.codeBytesOf
  split
  case isTrue h => rw [h]; rfl
  case isFalse => exact leBytes_length _ _

/-- R188: M as an element's write finds it: a 4-bit code needs its byte. -/
def State.codeFilled (s : State) (j : Job) (w : Write) (k : Nat) (m : Attr) : State :=
  if w.dst.fmt.width = 4 then s.fillLocs j [.key k m] else s

theorem State.fillLocs_codeKeys : (if w.dst.fmt.width = 4 then
      s.fillLocs j (((List.range (codeBytes w.dst.fmt.width)).map fun n => k + n).map fun n => EngLoc.key n m)
    else s) = s.codeFilled j w k m := by
  unfold State.codeFilled
  split
  case isTrue h => rw [h]; rfl
  case isFalse => rfl

theorem headD_codeKeys {width : Nat} (h : 0 < width) : ((List.range (codeBytes width)).map fun n => k + n).headD 0 = k := by
  obtain ⟨n, hn⟩ : ∃ n, codeBytes width = n + 1 := ⟨codeBytes width - 1, by unfold codeBytes; omega⟩
  rw [hn, List.range_succ_eq_map]
  rfl

variable (hwrites : s.writeOf j elem = some w) (hnew : elem ∉ j.done)
  (hrows : j.rowsBefore elem = true) (hnear : j.remoteEnd 7 = false)
  (hcancel : j.cancel = true → j.halted = false ∧ j.begun elem = true) (hinside : w.dst.loc ≠ .outside)
  (hvalue : 2 ^ 32 + elem ∉ j.zero)
  (hlocs : s.elemLocs j w.dst.loc (codeBytes w.dst.fmt.width) true
    = ((List.range (codeBytes w.dst.fmt.width)).map fun n => k + n).map fun n => .key n m)
  (hwidth : 0 < w.dst.fmt.width) (hfree : s.exclBlocks none ((List.range (codeBytes w.dst.fmt.width)).map fun n => k + n) = false)

include hwrites hnew hrows hnear hcancel hinside hvalue hlocs hwidth hfree in
/-- R188: an element whose bytes all lie in M is performed. -/
theorem State.performStep_cells : s.performStep j elem = ((s.codeFilled j w k m).performCells j m
    (cellsAt k ((s.codeFilled j w k m).codeBytesOf j w k))).markDone j elem w := by
  have hgoes : ¬ (elem ∈ j.done ∨ j.rowsBefore elem = false ∨ (j.cancel = true ∧ (j.halted = true ∨ j.begun elem = false))) := by
    rintro (h | h | ⟨hc, h⟩)
    · exact hnew h
    · simp [hrows] at h
    · obtain ⟨hh, hb⟩ := hcancel hc
      simp [hh, hb] at h
  have hkeys : ∀ l : List Nat, ((l.map fun n => (n, m)).map fun k => k.1) = l := fun l =>
    (List.map_map ..).trans (List.map_id l)
  rw [State.performStep, hwrites]
  dsimp only
  rw [if_neg hgoes, if_neg (not_or.2 ⟨hinside, hvalue⟩), hnear, if_neg Bool.false_ne_true, hlocs,
    findSome?_missed_keys, mapM_cell_keys]
  dsimp only
  rw [hkeys, if_neg (by simp [hfree]), State.fillLocs_codeKeys, headD_codeKeys hwidth, List.zip_map_left, List.foldl_map, State.performCells]
  conv_rhs => rw [← zip_range_eq_cellsAt, State.codeBytesOf_length]
  rfl

include hwrites hnew hrows hnear hcancel hinside hvalue hlocs hwidth hfree in
theorem State.performStep_outcome : let u := s.codeFilled j w k m
    let t := s.performStep j elem
    t.mem = u.mem ∧ t.host = s.host
      ∧ (∀ c x, t.committedByte c x = if c = j.cluster ∧ k ≤ x ∧ x < k + (u.codeBytesOf j w k).length
          then (u.codeBytesOf j w k).getD (x - k) 0 else u.committedByte c x)
      ∧ ∃ j', t.jobOf j.uid = some j' ∧ elem ∈ j'.done := by
  intro u t
  have ht : t = (u.performCells j m (cellsAt k (u.codeBytesOf j w k))).markDone j elem w :=
    State.performStep_cells hwrites hnew hrows hnear hcancel hinside hvalue hlocs hwidth hfree
  have hhost : u.host = s.host := by
    unfold u State.codeFilled
    split
    · exact s.fillLocs_host j _
    · rfl
  obtain ⟨hmem', hhost'⟩ := u.performCells_memory j m (cellsAt k (u.codeBytesOf j w k))
  obtain ⟨hmem, hhost'', hbyte⟩ := (u.performCells j m (cellsAt k (u.codeBytesOf j w k))).countTile_leaves j w.sat w.nan
  rw [ht]
  exact ⟨hmem.trans hmem', hhost''.trans (hhost'.trans hhost), fun c x => (hbyte c x).trans (State.committedByte_performCells ..),
    _, State.jobOf_setJob rfl, List.mem_cons_self⟩

end

/-- R188: a step that performs an element. -/
theorem performsElement_of_exec {i : Instr} {s : State} {j : Job} {elem : Nat}
    (hexec : elem ∉ j.done → exec i s = .next (s.performStep j elem)) : PerformsElement i j elem s := by
  intro w k m hwrites hnew hrows hnear hcancel hinside hvalue keys hlocs hwidth hfree u l
  obtain ⟨hmem, hhost, hbyte, hjob⟩ :=
    State.performStep_outcome hwrites hnew hrows hnear hcancel hinside hvalue hlocs hwidth hfree
  refine ⟨_, hexec hnew, hmem, hhost, fun hheld => ?_, fun x => ?_, fun c x hc => ?_, hjob⟩
  · unfold u
    split
    · rw [s.fillLocs_of_held fun k' a ha => by
        cases List.mem_singleton.1 ha
        exact hheld]
    · rfl
  · rw [hbyte]
    simp only [true_and]
    rfl
  · rw [hbyte, if_neg fun h => hc h.1]
    rfl

/-! ### The elements of jobs and copies (R188, R307) -/

section
variable {cluster job : Nat} {s : State} {j : Job}

theorem readElement_reads {e : Engine} (hrun : s.runningJob cluster e job = some j) (elem : Nat) (backs : List Nat)
    (refused : Bool) :
    ReadsElement (.readElement cluster e job elem ⟨backs, refused⟩) j elem backs refused s :=
  readsElement_of_exec (by
    change execReadElement cluster e job elem ⟨backs, refused⟩ s = _
    rw [execReadElement, hrun])

theorem perform_performs {e : Engine} (hrun : s.runningJob cluster e job = some j) (elem : Nat) :
    PerformsElement (.perform cluster e job elem) j elem s :=
  performsElement_of_exec fun _ => by
    change execPerform cluster e job elem s = _
    rw [execPerform, hrun]

variable {op e0 e1 : Nat} {ins : Instr}

/-- R307: each copy operation is the step of a copy on its element. -/
theorem exec_copyOp (hins : (op, ins) ∈ [(0, Instr.copyOpCopy cluster job e0 e1), (1, .copyOpGather cluster job e0 e1),
    (2, .copyOpScatter cluster job e0 e1), (3, .copyOpFill cluster job e0 e1), (4, .copyOpConvert cluster job e0 e1)]) :
    exec ins s = .next (s.copyElement cluster job op e0 e1) := by
  simp only [List.mem_cons, List.not_mem_nil, or_false, Prod.mk.injEq] at hins
  rcases hins with ⟨rfl, rfl⟩ | ⟨rfl, rfl⟩ | ⟨rfl, rfl⟩ | ⟨rfl, rfl⟩ | ⟨rfl, rfl⟩ <;> rfl

variable (hjob : s.copyJob cluster job op e0 e1 = some j)
include hjob

theorem State.copyElement_index (hop : op = 1 ∨ op = 2) (hgot : j.got (j.e0 * j.e1 + e1) = none) :
    s.copyElement cluster job op e0 e1 = s.readStep j (j.e0 * j.e1 + e1) [] false := by
  rw [State.copyElement, hjob]
  exact if_pos ⟨hop, by rw [hgot]; rfl⟩

variable (hindex : ¬ ((op = 1 ∨ op = 2) ∧ j.got (j.e0 * j.e1 + e1) = none))
include hindex

theorem State.copyElement_source (hop : op ≠ 3) (hgot : j.got (e1 * j.e0 + e0) = none) :
    s.copyElement cluster job op e0 e1 = s.readStep j (e1 * j.e0 + e0) [] false := by
  rw [State.copyElement, hjob]
  dsimp only
  rw [if_neg fun h => hindex ⟨h.1, Option.isNone_iff_eq_none.1 h.2⟩, if_pos ⟨hop, by rw [hgot]; rfl⟩]

variable (hread : op = 3 ∨ j.got (e1 * j.e0 + e0) ≠ none)
include hread

theorem State.copyElement_read : s.copyElement cluster job op e0 e1 =
    if e1 * j.e0 + e0 ∉ j.done then s.performStep j (e1 * j.e0 + e0)
    else if j.quantises = true ∧ e0 % 32 = 0 then s.performStep j (j.e0 * j.e1 + e1 * j.rowBlocks + e0 / 32) else s := by
  rw [State.copyElement, hjob]
  dsimp only
  rw [if_neg fun h => hindex ⟨h.1, Option.isNone_iff_eq_none.1 h.2⟩,
    if_neg fun h => hread.elim h.1 fun hsome => hsome (Option.isNone_iff_eq_none.1 h.2)]

theorem State.copyElement_target (hnew : e1 * j.e0 + e0 ∉ j.done) :
    s.copyElement cluster job op e0 e1 = s.performStep j (e1 * j.e0 + e0) := by
  rw [State.copyElement_read hjob hindex hread, if_pos hnew]

theorem State.copyElement_scale (hdone : e1 * j.e0 + e0 ∈ j.done) (hquant : j.quantises = true) (hblock : e0 % 32 = 0) :
    s.copyElement cluster job op e0 e1 = s.performStep j (j.e0 * j.e1 + (e1 * j.rowBlocks + e0 / 32)) := by
  rw [State.copyElement_read hjob hindex hread, if_neg (not_not.2 hdone), if_pos ⟨hquant, hblock⟩, Nat.add_assoc]

end

/-! ### The collection window (R301) -/

section
variable {cluster ctx wg : Nat} {s : State} {w : NanWindow} (hw : (s.clusterOf cluster).windowOf ctx wg = some w)
include hw

theorem nanWindowClose_waits (h : s.cycle < w.last + 65536) : exec (.nanWindowClose cluster ctx wg) s = .next s := by
  change execNanWindowClose cluster ctx wg s = _
  rw [execNanWindowClose, State.closeIdle, hw]
  exact congrArg _ (if_pos h)

theorem nanWindowClose_closes (h : w.last + 65536 ≤ s.cycle) :
    exec (.nanWindowClose cluster ctx wg) s = .next (s.closeWindow cluster w) := by
  change execNanWindowClose cluster ctx wg s = _
  rw [execNanWindowClose, State.closeIdle, hw]
  exact congrArg _ (if_neg (Nat.not_lt.2 h))

theorem Cluster.windowOf_ctx : w.ctx = ctx := by
  have := List.find?_some hw
  simp only [Bool.and_eq_true, decide_eq_true_eq] at this
  exact this.1

end

/-- R81: a record that does not stop the gang leaves the clusters. -/
theorem State.sendRecordFrom_clusters (s : State) (box : Outbox) (ctx lc : Nat) (toMgmt : Bool) (unit num : Nat) (l : List Byte) :
    (s.sendRecordFrom box ctx lc false toMgmt unit num l).clusters = s.clusters := by
  unfold State.sendRecordFrom
  dsimp only
  split <;> rfl

/-- R301: a cluster without a collection window. -/
def State.withoutWindow (s : State) (cluster : Nat) (w : NanWindow) : State :=
  s.setCluster { s.clusterOf cluster with windows := (s.clusterOf cluster).windows.erase w }

theorem State.withoutWindow_windows (s : State) (cluster : Nat) (w : NanWindow) :
    ((s.withoutWindow cluster w).clusterOf cluster).windows = (s.clusterOf cluster).windows.erase w := by
  rw [State.withoutWindow, State.clusterOf_setCluster, if_pos (s.clusterOf_id cluster).symm]

/-- R301: a closing window leaves its cluster, and sends a count that is not zero. -/
theorem State.closeWindow_outcome (s : State) (cluster : Nat) (w : NanWindow) : let t := s.closeWindow cluster w
    (t.clusterOf cluster).windows = (s.clusterOf cluster).windows.erase w ∧ (w.count = 0 → t.net = s.net)
      ∧ (w.count ≠ 0 → (s.ctxOf w.ctx).trapNamesNone = false → ∃ m, t.net = s.net ++ [m]
        ∧ m.payload = trapRecord 0 0 .nantrap 0 false 0 0 0 (BitVec.ofNat 64 (2 ^ 25)) 0 (BitVec.ofNat 64 w.count)) := by
  have hset := s.withoutWindow_windows cluster w
  intro t
  by_cases hcount : w.count = 0
  · have ht : t = s.withoutWindow cluster w := if_pos hcount
    rw [ht]
    exact ⟨hset, fun _ => rfl, fun h => absurd hcount h⟩
  · have ht : t = (s.withoutWindow cluster w).nanRecord cluster w.ctx 0 0 0 0 0 0 (BitVec.ofNat 64 (2 ^ 25)) 0
        (BitVec.ofNat 64 w.count) := if_neg hcount
    rw [ht, State.nanRecord]
    refine ⟨?_, fun h => absurd h hcount, fun _ hnames => ?_⟩
    · rw [State.clusterOf, State.sendRecordFrom_clusters]
      exact hset
    · rw [State.sendRecordFrom, if_neg (by rw [Bool.false_or]; exact Bool.eq_false_iff.1 hnames)]
      exact ⟨_, rfl, rfl⟩

/-! ### RELEASE of a REGRAN (R391) -/

theorem regranRelease_frees {cluster job : Nat} {s : State} {j : Job} (hrun : s.runningJob cluster .copy job = some j)
    (hop : j.op = 6)
    (hrel : j.releases = true) (hdone : j.done = []) : Leads (.regranRelease cluster job) s fun t => t.mem = s.mem
      ∧ (∃ j', t.jobOf j.uid = some j' ∧ j'.done = [0])
      ∧ ∀ m, m ∈ t.migs ↔ m ∈ s.migs ∧ ¬ (m.closed = true ∧ j.srcFrame ≤ m.src ∧ m.src < j.srcFrame + j.e0) := by
  refine ⟨({ s with migs := s.migs.filter fun m => !(m.closed && decide (j.srcFrame ≤ m.src)
      && decide (m.src < j.srcFrame + j.e0)) } : State).setJob { j with done := [0] }, ?_, rfl, ⟨_, State.jobOf_setJob rfl, rfl⟩,
    fun m => ?_⟩
  · change execRegranRelease cluster job s = _
    rw [execRegranRelease, hrun]
    dsimp only
    rw [if_neg (by simp [hop, hrel, hdone])]
  · refine List.mem_filter.trans (and_congr_right fun _ => ?_)
    rw [Bool.not_eq_true', ← Bool.not_eq_true]
    simp only [Bool.and_eq_true, decide_eq_true_eq, and_assoc]

/-! ### Apply (R188) -/

/-- R162, R369: a present byte that is none of DRAM lies beyond it. -/
theorem le_of_not_inDram {k : Nat} (hdram : inDram k = false) (hpresent : frameAbsent k = false) : 2 ^ 39 ≤ k :=
  (Bool.and_eq_false_iff.1 hpresent).elim (fun h => absurd (Nat.le_of_not_lt (of_decide_eq_false hdram)) (of_decide_eq_false h))
    fun h => Nat.le_of_not_lt (of_decide_eq_false h)

section
variable {s : State} {attr : Nat → Attr} {k : Nat} {l : List Byte} (hwf : Memory.wf s.mem = true)
  (hpresent : ∀ j, j < l.length → frameAbsent (k + j) = false)
include hwf hpresent

/-- R188, R379: a write in one block of 512 changes no byte beyond it, and beyond DRAM no byte but its own. -/
theorem State.applyWith_read_outside (hblock : inDram k = true → ∀ i, i < l.length → (k + i) / 512 = k / 512)
    (hne : 0 < l.length) {a : Nat}
    (hfar : a / 512 ≠ k / 512 ∨ inDram k = false) (ha : a < k ∨ k + l.length ≤ a) :
    cellRead (s.applyWith attr k l).mem a = cellRead s.mem a := by
  cases hdram : inDram k
  · rw [State.applyWith_beyond_mem (le_of_not_inDram hdram (hpresent 0 hne)), cellRead_cellWriteList _ _ _ _ hwf,
      if_neg (by omega)]
  · have hother : a / 512 ≠ k / 512 := hfar.resolve_right (by rw [hdram]; exact Bool.noConfusion)
    exact State.applyWith_read_other hwf fun i hi => (hblock hdram i hi).symm ▸ hother

end

/-- R384: what a write covers is no matter of M, host memory, the log or the pending writes. -/
theorem State.cover_leaves (s : State) (p : Pend) : (s.cover p).mem = s.mem ∧ (s.cover p).host = s.host ∧ (s.cover p).log = s.log
    ∧ (s.cover p).pend = s.pend := by
  have hunpoison (b n : Nat) : s.LeavesSlots (s.unpoison true b n) := by
    unfold State.unpoison
    split <;> exact ⟨rfl, rfl, rfl, rfl, rfl, rfl, rfl, rfl, rfl⟩
  unfold State.cover
  split
  · exact ⟨rfl, rfl, rfl, rfl⟩
  next u _ =>
    dsimp only
    split
    · have h := hunpoison u.1 u.2
      exact ⟨h.mem, h.host, h.log, h.pend⟩
    · exact ⟨rfl, rfl, rfl, rfl⟩

section
variable {i : Nat} {s : State} {p : Pend} (hp : s.pend[i]? = some p)
  (hfirst : ∀ q ∈ s.pend.drop (i + 1), q.job = p.job → q.key ≠ p.key) (hfree : s.exclBlocks none [p.key] = false)

/-- R188: the pending write alone, put into M. -/
def State.appliedByte (s : State) (i : Nat) (p : Pend) : State :=
  ({ s with pend := dropAt s.pend i } : State).applyWith (fun _ => p.attr) p.key [p.val]

include hp hfirst hfree in
theorem execApply_of_turn : exec (.apply i) s = .next ((((s.appliedByte i p).refreshAll [p.key]).sawApply p).cover p) := by
  change execApply i s = _
  rw [execApply, hp]
  dsimp only
  rw [if_neg]
  · rfl
  · rw [hfree, Bool.or_false, List.any_eq_true]
    rintro ⟨q, hq, hsame⟩
    rw [Bool.and_eq_true, decide_eq_true_eq, decide_eq_true_eq] at hsame
    exact hfirst q hq hsame.1 hsame.2

theorem State.appliedByte_leaves (s : State) (i : Nat) (p : Pend) : (s.appliedByte i p).pend = dropAt s.pend i
    ∧ (s.appliedByte i p).host = s.host ∧ (s.appliedByte i p).log.length = s.log.length + 1 := by
  rw [State.appliedByte, State.applyWith_eq]
  exact ⟨rfl, rfl, State.logWrite_log_length _ _ _⟩

include hp hfirst hfree in
/-- R188: Apply puts the byte into M. -/
theorem apply_puts (htables : p.key < 2 ^ 39 ∨ isDeviceKey p.key = false) (hpresent : frameAbsent p.key = false)
    (hwf : Memory.wf s.mem = true) : Leads (.apply i) s fun t => t.pend = dropAt s.pend i ∧ t.host = s.host
      ∧ t.log.length = s.log.length + 1 ∧ cellRead t.mem p.key = p.val
      ∧ ∀ a, a / 512 ≠ p.key / 512 ∨ inDram p.key = false → a ≠ p.key → cellRead t.mem a = cellRead s.mem a := by
  have hone : ∀ j, j < [p.val].length → frameAbsent (p.key + j) = false := fun j hj => by
    rwa [Nat.lt_one_iff.1 hj]
  obtain ⟨hpend, hhost, hlog⟩ := s.appliedByte_leaves i p
  have hrefresh := (s.appliedByte i p).refreshAll_leavesSlots (keys := [p.key]) fun k hk => List.mem_singleton.1 hk ▸ htables
  obtain ⟨hmem', hhost', hlog', hpend'⟩ := (((s.appliedByte i p).refreshAll [p.key]).sawApply p).cover_leaves p
  refine ⟨_, execApply_of_turn hp hfirst hfree, (hpend'.trans hrefresh.pend).trans hpend,
    (hhost'.trans hrefresh.host).trans hhost,
    (congrArg List.length (hlog'.trans hrefresh.log)).trans hlog, ?_, fun a hfar hne => ?_⟩
  · rw [hmem'.trans hrefresh.mem]
    exact State.applyWith_read_written (s := { s with pend := dropAt s.pend i }) hwf hone Nat.one_pos
  · rw [hmem'.trans hrefresh.mem]
    exact State.applyWith_read_outside (s := { s with pend := dropAt s.pend i }) hwf hone
      (fun _ j hj => by rw [Nat.lt_one_iff.1 hj, Nat.add_zero]) Nat.one_pos hfar (by simp only [List.length_singleton]; omega)

end

/-! ### What a completion leaves of M, the commands and the migrations (R189, R191) -/

/-- R189: what the messages, flags and tiles of a completion leave. -/
def State.memJobsMigs (s : State) : List Host.Cell × List Job × List Migration := (s.mem, s.jobs, s.migs)

section
variable (s : State)

theorem State.changeTile_memJobsMigs (ctx lc n : Nat) (g : Tile → Tile) :
    (s.changeTile ctx lc n g).memJobsMigs = s.memJobsMigs := by
  unfold State.changeTile
  dsimp only
  split <;> rfl

theorem State.foldl_changeTile_memJobsMigs (ctx : Nat) (g : Tile → Tile) (l : List (Nat × Nat)) :
    (l.foldl (fun s t => s.changeTile ctx t.1 t.2 g) s).memJobsMigs = s.memJobsMigs :=
  foldl_field State.memJobsMigs (f := fun s (t : Nat × Nat) => s.changeTile ctx t.1 t.2 g)
    (fun s t => s.changeTile_memJobsMigs ctx t.1 t.2 g) l s

theorem State.watchEvent_memJobsMigs (ctx cluster wg bits sat : Nat) (fid : Word) :
    (s.watchEvent ctx cluster wg bits sat fid).memJobsMigs = s.memJobsMigs := by
  unfold State.watchEvent
  dsimp only
  split <;> rfl

theorem State.charge_memJobsMigs (ctx cluster n : Nat) : (s.charge ctx cluster n).memJobsMigs = s.memJobsMigs := by
  rw [(s.charge_charged ctx cluster n).rest]
  rfl

/-- R81: a record that does not stop the gang leaves them. -/
theorem State.sendRecordFrom_memJobsMigs (box : Outbox) (ctx lc : Nat) (toMgmt : Bool) (unit num : Nat) (l : List Byte) :
    (s.sendRecordFrom box ctx lc false toMgmt unit num l).memJobsMigs = s.memJobsMigs := by
  unfold State.sendRecordFrom
  dsimp only
  split <;> rfl

theorem State.postHw_memJobsMigs {m : Msg} (hkind : ∀ wait u n, m.kind ≠ .trap wait u n) :
    (s.postHw m).memJobsMigs = s.memJobsMigs := by
  unfold State.postHw
  split
  · rfl
  · unfold State.nackBuilt State.sendNack
    dsimp only
    split
    next wait u n h => exact absurd h (hkind wait u n)
    next =>
      split
      · rfl
      · exact State.sendRecordFrom_memJobsMigs _ _ _ _ _ _ _ _

theorem State.postFabric_memJobsMigs (m : Msg) : (s.postFabric m).memJobsMigs = s.memJobsMigs := rfl

theorem State.tellBarrier_memJobsMigs (ctx id : Nat) : (s.tellBarrier ctx id).memJobsMigs = s.memJobsMigs := by
  unfold State.tellBarrier
  split
  · rfl
  · exact foldl_field State.memJobsMigs (fun s _ => s.postFabric_memJobsMigs _) _ _

theorem State.arriveHere_memJobsMigs (ctx owner id : Nat) (req : List (Nat × Nat)) (far : List (Nat × Nat × Nat)) :
    (s.arriveHere ctx owner id req far).memJobsMigs = s.memJobsMigs := by
  have hflip (phase : Bool) (l : List (Nat × Nat)) (t : State) :
      (l.foldl (fun s r => s.postHw (flipMsg ctx id phase r)) t).memJobsMigs = t.memJobsMigs :=
    foldl_field State.memJobsMigs (fun s r => s.postHw_memJobsMigs fun _ _ _ h => by cases h) l t
  have hfar (phase : Bool) (l : List (Nat × Nat × Nat)) (t : State) :
      (l.foldl (fun s r => s.postFabric { flipMsg ctx id phase r.2 with pkg := r.1 }) t).memJobsMigs = t.memJobsMigs :=
    foldl_field State.memJobsMigs (fun s _ => s.postFabric_memJobsMigs _) l t
  unfold State.arriveHere
  dsimp only
  split
  · rw [State.tellBarrier_memJobsMigs, hfar, hflip]
    rfl
  · exact State.tellBarrier_memJobsMigs _ _ _

theorem State.arrive_memJobsMigs (ctx owner id : Nat) (req : List (Nat × Nat)) :
    (s.arrive ctx owner id req).memJobsMigs = s.memJobsMigs := by
  unfold State.arrive
  dsimp only
  split
  · rfl
  · exact s.arriveHere_memJobsMigs _ _ _ _ _

end

/-! ### Post completion (R189) -/

/-- R189: the message of a completion is none of a trap actor's records. -/
theorem Job.completion_kind {j : Job} {m : Msg} (h : j.completion = some m) : m.kind = .device ∨ m.kind = .copyDone := by
  unfold Job.completion at h
  split at h
  · refine .inl ?_
    dsimp only at h
    split at h
    · exact (congrArg Msg.kind (Option.some.inj h)).symm
    · cases h
  · refine .inr ?_
    dsimp only at h
    split at h
    · cases h
    · exact (congrArg Msg.kind (Option.some.inj h)).symm

theorem State.dropAsks_memJobsMigs (s : State) (uid : Nat) : (s.dropAsks uid).memJobsMigs = s.memJobsMigs := rfl

/-- R189: a completed command keeps its name and whether it is cancelled, and ends in the state that they and its error give. -/
theorem State.complete_outcome (s : State) (j : Job) : ∃ j' : Job, (s.complete j).memJobsMigs = (s.setJob j').memJobsMigs
    ∧ j'.uid = j.uid ∧ j'.cancel = j.cancel ∧ j'.st = j'.finalState ∧ (j.err ≠ 0 → j'.err = j.err) := by
  unfold State.complete
  extract_lets owner unconfigured j1 j2 s1 taken s2 s3 s4 s5
  have hj2 : j2.uid = j.uid ∧ j2.cancel = j.cancel ∧ j2.st = j2.finalState ∧ (j.err ≠ 0 → j2.err = j.err) :=
    ⟨rfl, rfl, rfl, fun herr => if_neg fun h => herr h.2⟩
  clear_value j2
  have h1 : s1.memJobsMigs = (s.setJob j2).memJobsMigs := State.dropAsks_memJobsMigs _ _
  clear_value s1
  have h2 : s2.memJobsMigs = (s.setJob j2).memJobsMigs := by
    unfold s2
    split
    · exact (State.foldl_changeTile_memJobsMigs _ _ _ _).trans h1
    · exact h1
  have h3 : s3.memJobsMigs = s2.memJobsMigs := by
    unfold s3
    split
    · exact State.changeTile_memJobsMigs _ _ _ _ _
    · rfl
  have h5 : s5.memJobsMigs = s4.memJobsMigs := by
    unfold s5
    split
    · split
      · rfl
      · exact State.arrive_memJobsMigs _ _ _ _ _
    · rfl
  have hall : s5.memJobsMigs = (s.setJob j2).memJobsMigs :=
    h5.trans ((State.watchEvent_memJobsMigs _ _ _ _ _ _ _).trans (h3.trans h2))
  refine ⟨j2, ?_, hj2⟩
  split
  next m hm =>
    refine (s5.postHw_memJobsMigs fun wait u n h => ?_).trans hall
    rcases Job.completion_kind hm with hk | hk <;> rw [hk] at h <;> cases h
  next => exact hall

/-- R189, R301, R303: the states in which a command can end. -/
theorem Job.finalState_cases (j : Job) : (j.finalState = 4 ∨ j.finalState = 5 ∨ j.finalState = 6)
    ∧ (j.cancel = true → j.finalState = 6) ∧ (j.cancel = false → j.err ≠ 0 → j.err ≠ 5 → j.finalState = 5) := by
  unfold Job.finalState
  refine ⟨?_, fun h => if_pos h, fun hcancel h0 h5 => ?_⟩
  · split
    · exact .inr (.inr rfl)
    split
    · exact .inr (.inl rfl)
    · exact .inl rfl
  · rw [hcancel, if_neg Bool.false_ne_true, if_pos ⟨h0, h5⟩]

section
variable (s : State) (j : Job)

theorem State.closeIdle_memJobsMigs (cluster ctx wg : Nat) : (s.closeIdle cluster ctx wg).memJobsMigs = s.memJobsMigs := by
  unfold State.closeIdle
  split
  · rfl
  split
  · rfl
  unfold State.closeWindow
  dsimp only
  split
  · rfl
  · exact State.sendRecordFrom_memJobsMigs _ _ _ _ _ _ _ _

theorem State.trapNans_memJobsMigs (l : List NanOut) : (s.trapNans j l).memJobsMigs = s.memJobsMigs := by
  unfold State.trapNans
  split
  · rfl
  extract_lets s' k s1
  have h1 : s1.memJobsMigs = s.memJobsMigs := (s'.watchEvent_memJobsMigs _ _ _ _ _ _).trans (s.closeIdle_memJobsMigs _ _ _)
  split
  · exact h1
  split
  · exact (State.sendRecordFrom_memJobsMigs _ _ _ _ _ _ _ _).trans h1
  · exact h1

/-- R291 to R294, R300: the result of a matrix job lies in the engine alone; one that has failed or is cancelled has none. -/
theorem State.matrixResult_outcome : let r := s.matrixResult j
    r.1.memJobsMigs = s.memJobsMigs ∧ r.2.uid = j.uid ∧ r.2.cancel = j.cancel ∧ (j.err ≠ 0 → r.2.err = j.err) := by
  intro r
  unfold r State.matrixResult
  split
  case isTrue => exact ⟨rfl, rfl, rfl, fun _ => rfl⟩
  case isFalse h =>
    have herr : ¬ j.err ≠ 0 := fun he => h (.inr (.inl he))
    split
    · unfold State.endLs
      dsimp only
      split <;> exact ⟨rfl, rfl, rfl, fun he => absurd he herr⟩
    · unfold State.endStr
      split
      · exact ⟨rfl, rfl, rfl, fun he => absurd he herr⟩
      dsimp only
      split
      · exact ⟨rfl, rfl, rfl, fun he => absurd he herr⟩
      · exact ⟨State.trapNans_memJobsMigs _ _ _, rfl, rfl, fun _ => rfl⟩
    all_goals exact ⟨rfl, rfl, rfl, fun _ => rfl⟩

/-- R391: without a closed migration of the command no mapping is rewritten. -/
theorem State.mapMigrated_of_open {uid : Nat} (h : ∀ m ∈ s.migs, m.uid = uid → m.closed = false) : s.mapMigrated uid = s := by
  have hnone : (s.migs.filter fun m => m.closed && decide (m.uid = uid)) = [] := List.filter_eq_nil_iff.2 fun m hm => by
    by_cases huid : m.uid = uid
    · simp [h m hm huid]
    · simp [huid]
  unfold State.mapMigrated
  rw [hnone]
  exact foldl_field (fun t => t) (fun t c => if_pos (List.map_id' c.stage2)) s.ctxs s

end

/-- R189, R191: Post completion leaves the command DONE, in error or cancelled. -/
theorem postCompletion_completes {cluster job : Nat} {e : Engine} {s : State} {j : Job} (hjob : s.jobOf job = some j)
    (hengine : j.engine = e) (hcluster : j.cluster = cluster) (hst : j.st = 2) (hsteps : s.stepsDone j = true)
    (hrelease : s.releaseMet j = true) (hmigrated : j.migrated = true) (htiles : s.jobTilesHeld j = false) :
    Leads (.postCompletion cluster e job) s fun t => ((∀ m ∈ s.migs, m.uid = job → m.closed = false) → t.mem = s.mem)
      ∧ ∃ j', t.jobOf job = some j' ∧ (j'.st = 4 ∨ j'.st = 5 ∨ j'.st = 6) ∧ (j.cancel = true → j'.st = 6)
      ∧ (j.cancel = false → j.err ≠ 0 → j.err ≠ 5 → j'.st = 5 ∧ j'.err = j.err) := by
  obtain ⟨hresult, huid, hcancel, herr⟩ := s.matrixResult_outcome j
  have hexec : exec (.postCompletion cluster e job) s = .next (((((s.matrixResult j).1.charge j.ctx cluster
      (s.jobCharge j)).mapMigrated job).complete (s.matrixResult j).2)) := by
    change execPostCompletion cluster e job s = _
    rw [execPostCompletion, hjob]
    dsimp only
    rw [if_pos ⟨hengine, hcluster, hst, hsteps, hrelease, hmigrated, htiles⟩]
  obtain ⟨u, hu⟩ : ∃ u, u = (s.matrixResult j).1.charge j.ctx cluster (s.jobCharge j) := ⟨_, rfl⟩
  have hcharged : u.memJobsMigs = s.memJobsMigs := by
    rw [hu, State.charge_memJobsMigs, hresult]
  rw [← hu] at hexec
  obtain ⟨j', hdone, huid', hcancel', hst', herr'⟩ := (u.mapMigrated job).complete_outcome (s.matrixResult j).2
  obtain ⟨hmem, hjobs⟩ := Prod.mk.inj hdone
  obtain ⟨hjobs, -⟩ := Prod.mk.inj hjobs
  obtain ⟨hcases, hcancelled, hfailed⟩ := j'.finalState_cases
  refine ⟨_, hexec, fun hopen => ?_, j', ?_, hst' ▸ hcases, fun hc => hst'.trans (hcancelled ?_), fun hc h0 h5 => ?_⟩
  · obtain ⟨hmem', hrest⟩ := Prod.mk.inj hcharged
    obtain ⟨-, hmigs⟩ := Prod.mk.inj hrest
    rw [hmem, State.mapMigrated_of_open _ (hmigs ▸ hopen)]
    exact hmem'
  · rw [State.jobOf, hjobs]
    exact State.jobOf_setJob (huid'.trans (huid.trans (State.jobOf_uid hjob)))
  · rw [hcancel', hcancel, hc]
  · have hsame : j'.err = j.err := (herr' (by rwa [herr h0])).trans (herr h0)
    exact ⟨hst'.trans (hfailed (by rw [hcancel', hcancel, hc]) (hsame ▸ h0) (hsame ▸ h5)), hsame⟩

/-! ### RINGSWEEP (R246) -/

section
variable {s : State} {j : Job} {elem k : Nat} {a : Attr} {addr : Word} {w : RingWord} {u : State}

theorem State.sweepWord_reserved (hword : RingWord.ofBytes (cellReadList s.mem k 16) = w) (hrsv : w.rsv ≠ 0) :
    s.sweepWord j elem k a addr = s.setJob (j.swept elem 0 1) := by
  unfold State.sweepWord
  rw [hword]
  dsimp only
  rw [if_pos hrsv, if_neg hrsv]

variable (hword : RingWord.ofBytes (cellReadList s.mem k 16) = w) (hrsv : w.rsv = 0) (hread : s.readLaw j w.law = u)
include hword hrsv hread

theorem State.sweepWord_unreadable {n : Nat} (hlaw : u.sweepLaw j w.law = .error n) :
    s.sweepWord j elem k a addr = u.failJob j n := by
  unfold State.sweepWord
  rw [hword]
  dsimp only
  rw [if_neg (not_not.2 hrsv), if_pos hrsv, hread, hlaw]

variable {e : Law} (hlaw : u.sweepLaw j w.law = .ok e)
include hlaw

theorem State.sweepWord_badKind (hkind : 3 < e.kind) : s.sweepWord j elem k a addr = u.setJob (j.swept elem 0 1) := by
  unfold State.sweepWord
  rw [hword]
  dsimp only
  rw [if_neg (not_not.2 hrsv), if_pos hrsv, hread, hlaw]
  exact if_pos hkind

variable (hkind : e.kind ≤ 3) {c : Clock} (hc : clockOf (lookupD j.clocks e.clk 0) e.shift w.t = c)
include hkind hc

theorem State.sweepWord_near (hnear : c.raw < 2 ^ 46 ∨ 2 ^ 47 ≤ c.raw) :
    s.sweepWord j elem k a addr = u.setJob (j.swept elem 0 0) := by
  unfold State.sweepWord
  rw [hword]
  dsimp only
  rw [if_neg (not_not.2 hrsv), if_pos hrsv, hread, hlaw]
  dsimp only
  rw [if_neg (Nat.not_lt.2 hkind), hc, if_pos hnear]

theorem State.sweepWord_advances (hfar : ¬ (c.raw < 2 ^ 46 ∨ 2 ^ 47 ≤ c.raw)) {r : RingResult} (hr : ringAccess .adv w e c = r)
    (halarm : r.alarm = 0) :
    s.sweepWord j elem k a addr = (u.applyWith (fun _ => a) k r.word.bytes).setJob (j.swept elem 1 0) := by
  unfold State.sweepWord
  rw [hword]
  dsimp only
  rw [if_neg (not_not.2 hrsv), if_pos hrsv, hread, hlaw]
  dsimp only
  rw [if_neg (Nat.not_lt.2 hkind), hc, if_neg hfar, hr, if_pos halarm]

end

/-- R241, R379: reading a law entry keeps the canonical form of M. -/
theorem State.readLaw_wf {s : State} (j : Job) (law : Nat) (hwf : Memory.wf s.mem = true) :
    Memory.wf (s.readLaw j law).mem = true := by
  unfold State.readLaw
  split
  · exact hwf
  unfold State.readSpan
  split
  · unfold State.deviceRead State.chargeBursts
    rw [(State.charge_leavesSlots _ _ _ _).mem, (State.charge_leavesSlots _ _ _ _).mem]
    exact State.fillMissing_wf _ _ _ hwf
  · exact hwf

/-- R246, R379: the apply of an aligned word writes its 16 bytes and no other byte. -/
theorem State.applyWith_word {s : State} {attr : Nat → Attr} {k : Nat} {l : List Byte} (hwf : Memory.wf s.mem = true)
    (hlen : l.length = 16) (hpresent : ∀ n, n < 16 → frameAbsent (k + n) = false) (hblock : inDram k = true → k % 16 = 0) :
    (∀ n, n < 16 → cellRead (s.applyWith attr k l).mem (k + n) = l.getD n 0)
    ∧ ∀ a, a / 512 ≠ k / 512 ∨ inDram k = false → a < k ∨ k + 16 ≤ a →
      cellRead (s.applyWith attr k l).mem a = cellRead s.mem a := by
  rw [← hlen] at hpresent ⊢
  refine ⟨fun n hn => State.applyWith_read_written hwf hpresent hn, fun a hfar ha =>
    State.applyWith_read_outside hwf hpresent (fun hdram n hn => ?_) (by rw [hlen]; exact Nat.succ_pos 15) hfar ha⟩
  have halign := hblock hdram
  omega

theorem State.setJob_mem (s : State) (j : Job) : (s.setJob j).mem = s.mem := rfl

/-- R246: a step on an aligned word in bounds. -/
theorem sweeps_of_exec {i : Instr} {s : State} {j : Job} {elem k : Nat} {a : Attr} {addr : Word}
    (hexec : exec i s = .next (s.sweepWord j elem k a addr)) (hwf : Memory.wf s.mem = true)
    (hpresent : ∀ n, n < 16 → frameAbsent (k + n) = false) (hblock : inDram k = true → k % 16 = 0) : Sweeps i j elem k s := by
  unfold Sweeps
  intro w u
  refine ⟨fun hrsv => ⟨_, hexec, ?_⟩, fun n hrsv hlaw => ⟨_, hexec, ?_⟩, fun e hrsv hlaw hkind => ⟨_, hexec, ?_⟩,
    fun e hrsv hlaw hkind => ?_⟩
  · rw [State.sweepWord_reserved rfl hrsv]
    exact ⟨rfl, _, State.jobOf_setJob rfl, List.mem_cons_self, rfl⟩
  · rw [State.sweepWord_unreadable rfl hrsv rfl hlaw]
    exact ⟨rfl, _, State.jobOf_setJob rfl, rfl⟩
  · rw [State.sweepWord_badKind rfl hrsv rfl hlaw hkind]
    exact ⟨rfl, _, State.jobOf_setJob rfl, List.mem_cons_self, rfl⟩
  · obtain ⟨c, hc⟩ : ∃ c, clockOf (lookupD j.clocks e.clk 0) e.shift w.t = c := ⟨_, rfl⟩
    obtain ⟨r, hr⟩ : ∃ r, ringAccess .adv w e c = r := ⟨_, rfl⟩
    rw [hc]
    dsimp only
    rw [hr]
    have hu : Memory.wf u.mem = true := State.readLaw_wf j w.law hwf
    refine ⟨fun hnear => ⟨_, hexec, ?_⟩, fun hlow hhigh halarm => ⟨_, hexec, ?_⟩⟩
    · rw [State.sweepWord_near rfl hrsv rfl hlaw hkind hc hnear]
      exact ⟨rfl, _, State.jobOf_setJob rfl, List.mem_cons_self⟩
    · rw [State.sweepWord_advances rfl hrsv rfl hlaw hkind hc (fun h => h.elim (Nat.not_lt.2 hlow) (Nat.not_le.2 hhigh))
        hr halarm]
      beta_reduce
      rw [State.setJob_mem]
      obtain ⟨hin, hout⟩ := State.applyWith_word (attr := fun _ => a) hu r.word.bytes_length hpresent hblock
      exact ⟨hin, hout, _, State.jobOf_setJob rfl, List.mem_cons_self, rfl⟩

/-! ### The places of a sweep (R246, R277, R389) -/

/-- R277: a translation keeps where an address lies in 16 bytes. -/
theorem TlbEntry.pa_mod_16 (e : TlbEntry) (va : Word) : e.pa va % 16 = va.toNat % 16 := by
  unfold TlbEntry.pa bitsOf
  split <;> omega

/-- R389: forwarding keeps where a byte lies in its frame. -/
theorem State.home_mod (s : State) (k : Nat) : s.home k % 2 ^ 16 = k % 2 ^ 16 := by
  unfold State.home
  split
  · omega
  · rfl

theorem inDram_scratchKey (ctx lc off : Nat) : inDram (scratchKey ctx lc off) = false :=
  inDram_of_le ((by decide : 2 ^ 39 ≤ 2 ^ 40).trans (scratchKey_beyond ctx lc off))

/-- R246: an aligned address names an aligned byte of DRAM, or one of a scratchpad. -/
theorem State.engineLoc_aligned {s : State} {j : Job} {va : Word} {k : Nat} {m : Attr} (halign : va.toNat % 16 = 0)
    (h : s.engineLoc j va true = .key k m) (hdram : inDram k = true) : k % 16 = 0 := by
  have hscratch {p : Prop} [Decidable p] {n off : Nat}
      (h : (if p then EngLoc.key (scratchKey j.ctx n off) {} else .bad) = .key k m) :
      k % 16 = 0 := by
    split at h
    · injection h with h
      rw [← h, inDram_scratchKey] at hdram
      cases hdram
    · cases h
  unfold State.engineLoc at h
  dsimp only at h
  split at h
  · split at h
    · cases h
    next e _ =>
      rw [State.devicePlace, if_pos rfl] at h
      split at h
      · injection h with h
        have hhome := s.home_mod (e.pa va)
        have hpa := e.pa_mod_16 va
        omega
      · cases h
  · cases h
  · exact hscratch h
  · exact hscratch h
  · cases h

section
variable {cluster job e0 e1 : Nat} {s : State} {j : Job} {o : Operand} {a : Nat}

theorem execRingsweep_of_job (hjob : s.copyJob cluster job 5 e0 e1 = some j) (hnew : e1 * j.e0 + e0 ∉ j.done) :
    exec (.ringsweep cluster job e0 e1) s = .next (s.sweepElement j (e1 * j.e0 + e0)
      (s.copyOperand j (decide (j.bits 0 5 5 = 1)) 4 ringFmt e0 e1)) := by
  change execRingsweep cluster job e0 e1 s = _
  rw [execRingsweep, hjob]
  exact congrArg _ (if_neg hnew)

variable {elem : Nat} (hpoison : ∀ n, n < 16 → inPoison s.poison (a + n) = false ∧ frameAbsent (a + n) = false)
  (hfree : s.exclBlocks none ((List.range 16).map fun n => a + n) = false)
include hpoison hfree

theorem State.sweepElement_key {hi : Bool} (hloc : o.loc = .key a hi) (halign : a % 16 = 0) : s.sweepElement j elem o
    = s.sweepWord j elem a {} (remoteAddr ((a - 2 ^ 40) / 2 ^ 24 % 4096) (a % 2 ^ 24)) := by
  have hclean : ((List.range 16).any fun n => inPoison s.poison (a + n)) = false := List.any_eq_false.2 fun n hn => by
    rw [(hpoison n (List.mem_range.1 hn)).1]
    exact Bool.false_ne_true
  rw [State.sweepElement, hloc]
  dsimp only
  rw [if_neg (not_not.2 halign), hclean, hfree, if_neg Bool.false_ne_true, if_neg Bool.false_ne_true]

theorem State.sweepElement_va {va : Word} {hi : Bool} {m : Attr} (hloc : o.loc = .va va hi) (halign : va.toNat % 16 = 0)
    (hindex : elem ∉ j.zero) (hvalue : 2 ^ 32 + elem ∉ j.zero) (hplace : s.engineLoc j va true = .key a m)
    (hheld : s.holdsKeys m.ctx a 16) : s.sweepElement j elem o = s.sweepWord j elem a m (j.wordAddr va) := by
  have hclean : ((List.range 16).any fun n => inPoison s.poison (a + n) || frameAbsent (a + n)) = false :=
    List.any_eq_false.2 fun n hn => by
      obtain ⟨hp, ha⟩ := hpoison n (List.mem_range.1 hn)
      rw [hp, ha]
      exact Bool.false_ne_true
  have hfill : s.fillLocs j ((List.range 16).map fun n => .key (a + n) m) = s := s.fillLocs_of_held fun k b hk => by
    obtain ⟨n, hn, hkey⟩ := List.mem_map.1 hk
    injection hkey with hkey hattr
    subst hkey hattr
    exact fun i hi => by
      rw [Nat.lt_one_iff.1 hi]
      exact hheld n (List.mem_range.1 hn)
  rw [State.sweepElement, hloc]
  dsimp only
  rw [if_neg (not_or.2 ⟨not_not.2 halign, not_or.2 ⟨hindex, hvalue⟩⟩), hplace]
  dsimp only
  rw [hfill, hclean, hfree, if_neg Bool.false_ne_true, if_neg Bool.false_ne_true]

end

/-- R246: the step of RINGSWEEP on an aligned word in bounds. -/
theorem ringsweep_sweeps {cluster job e0 e1 a : Nat} {s : State} {j : Job} (hjob : s.copyJob cluster job 5 e0 e1 = some j)
    (hnew : e1 * j.e0 + e0 ∉ j.done)
    (hloc : let loc := (s.copyOperand j (decide (j.bits 0 5 5 = 1)) 4 ringFmt e0 e1).loc
      (∃ hi, loc = .key a hi ∧ a % 16 = 0)
        ∨ (∃ va hi, loc = .va va hi ∧ va.toNat % 16 = 0 ∧ e1 * j.e0 + e0 ∉ j.zero ∧ 2 ^ 32 + (e1 * j.e0 + e0) ∉ j.zero
          ∧ ∃ m, s.engineLoc j va true = .key a m ∧ s.holdsKeys m.ctx a 16))
    (hpoison : ∀ n, n < 16 → inPoison s.poison (a + n) = false ∧ frameAbsent (a + n) = false)
    (hfree : s.exclBlocks none ((List.range 16).map fun n => a + n) = false) (hwf : Memory.wf s.mem = true) :
    Sweeps (.ringsweep cluster job e0 e1) j (e1 * j.e0 + e0) a s := by
  have hexec := execRingsweep_of_job hjob hnew
  have hpresent := fun n hn => (hpoison n hn).2
  rcases hloc with ⟨hi, hkey, halign⟩ | ⟨va, hi, hva, halign, hindex, hvalue, m, hplace, hheld⟩
  · rw [State.sweepElement_key hpoison hfree hkey halign] at hexec
    exact sweeps_of_exec hexec hwf hpresent fun _ => halign
  · rw [State.sweepElement_va hpoison hfree hva halign hindex hvalue hplace hheld] at hexec
    exact sweeps_of_exec hexec hwf hpresent (State.engineLoc_aligned halign hplace)

/-! ### The steps of a REGRAN (R389, R390) -/

theorem add_lt_of_frame_lt {d n x : Nat} (hx : x < 2 ^ 16) (h : d * 2 ^ 16 < n * 2 ^ 33) : d * 2 ^ 16 + x < n * 2 ^ 33 := by
  have hn : n * 2 ^ 33 = n * 2 ^ 17 * 2 ^ 16 := by rw [Nat.mul_assoc, ← Nat.pow_add]
  rw [hn] at h ⊢
  calc d * 2 ^ 16 + x < (d + 1) * 2 ^ 16 := by rw [Nat.succ_mul]; exact Nat.add_lt_add_left hx _
    _ ≤ n * 2 ^ 17 * 2 ^ 16 := Nat.mul_le_mul_right _ (Nat.lt_of_mul_lt_mul_right h)

/-- R369: the bytes of a frame are present together. -/
theorem frameAbsent_in_frame {d x : Nat} (hx : x < 2 ^ 16) (h : frameAbsent (d * 2 ^ 16) = false) :
    frameAbsent (d * 2 ^ 16 + x) = false :=
  Bool.and_eq_false_iff.2 ((Bool.and_eq_false_iff.1 h).imp
    (fun h => decide_eq_false (Nat.not_le.2 (add_lt_of_frame_lt hx (Nat.not_le.1 (of_decide_eq_false h)))))
    fun h => decide_eq_false fun hlt => of_decide_eq_false h ((Nat.le_add_right _ _).trans_lt hlt))

section
variable {cluster job line : Nat} {s : State} {j : Job} {m : Migration} (hrun : s.runningJob cluster .copy job = some j)
  (hop : j.op = 6)
  (hrel : j.releases = false)
include hrun hop hrel

/-- R389, step 1: the next frame is opened. -/
theorem regran_opens (hnone : s.openFrame j.uid = none) (hmore : j.done.length < j.e0) (hroom : s.migs.length < 16)
    (hfree : ∀ m ∈ s.migs, m.src ≠ j.srcFrame + j.done.length) : Leads (.regran cluster job line) s fun t => t.mem = s.mem
      ∧ ∃ m, t.migs = s.migs ++ [m] ∧ m.src = j.srcFrame + j.done.length ∧ m.dst = j.dstFrame + j.done.length
        ∧ m.marked = List.range 512 ∧ m.pass = 1 := by
  have hexec : exec (.regran cluster job line) s = .next (s.openNext j) := by
    change execRegran cluster job line s = _
    rw [execRegran, hrun]
    dsimp only
    rw [if_neg (by simp [hop, hrel]), hnone]
  have hopens : ¬ (j.e0 ≤ j.done.length ∨ 16 ≤ s.migs.length
      ∨ (s.migs.any fun m => decide (m.src = j.srcFrame + j.done.length)) = true) := by
    rintro (h | h | h)
    · exact Nat.not_le.2 hmore h
    · exact Nat.not_le.2 hroom h
    · obtain ⟨m, hm, hsrc⟩ := List.any_eq_true.1 h
      exact hfree m hm (of_decide_eq_true hsrc)
  refine ⟨_, hexec, ?_⟩
  rw [State.openNext]
  dsimp only
  rw [if_neg hopens]
  generalize List.range 512 = lines
  exact ⟨rfl, _, rfl, rfl, rfl, rfl, rfl⟩

theorem execRegran_of_open (hopen : s.openFrame j.uid = some m) :
    exec (.regran cluster job line) s = .next (s.migrateLine j m line) := by
  change execRegran cluster job line s = _
  rw [execRegran, hrun]
  dsimp only
  rw [if_neg (by simp [hop, hrel]), hopen]

end

/-! #### A line copied (R389, R390) -/

section
variable (s : State) (m : Migration) (line : Nat)

theorem State.putUnit_migs (a : Attr) (b : Nat) (l : List Byte) (p : Bool) : (s.putUnit a b l p).migs = s.migs := rfl

/-- R384: the poison that a line carries along is no matter of M or of the migrations. -/
theorem State.carryPoison_leaves : (s.carryPoison m line).mem = s.mem ∧ (s.carryPoison m line).migs = s.migs := by
  have hput (g : Nat) (l : List Nat) (t : State) :
      (l.foldl (fun s u => s.putUnit (s.dstAttr m) u (cellReadList s.mem u g) true) t).mem = t.mem
      ∧ (l.foldl (fun s u => s.putUnit (s.dstAttr m) u (cellReadList s.mem u g) true) t).migs = t.migs :=
    ⟨foldl_field State.mem (fun s u => s.putUnit_mem _ _ _ _) l t, foldl_field State.migs (fun s _ => s.putUnit_migs _ _ _ _) l t⟩
  unfold State.carryPoison
  dsimp only
  split
  · exact hput _ _ _
  · exact ⟨rfl, rfl⟩

theorem State.fillMissing_logMigs (attr : Nat → Attr) (keys : List Nat) : (s.fillMissing attr keys).logMigs = s.logMigs := by
  unfold State.fillMissing
  exact foldl_field State.logMigs (fun s k => by split <;> simp) _ _

theorem State.chargeBursts_leaves (t : State) (ctx cluster : Nat) :
    (s.chargeBursts t ctx cluster).mem = s.mem ∧ (s.chargeBursts t ctx cluster).migs = s.migs := by
  rw [State.chargeBursts, (s.charge_charged ctx cluster _).rest]
  exact ⟨rfl, rfl⟩

theorem State.copyLine_migs : (s.copyLine m line).1.migs = s.migs := by
  refine (State.carryPoison_leaves _ m line).2.trans ?_
  exact congrArg Prod.snd ((State.writeMem_logMigs _ _ _).trans (s.fillMissing_logMigs _ _))

variable {s m line}

/-- R389: a copied line stands in the destination frame; every other byte stays. -/
theorem State.copyLine_read (hwf : Memory.wf s.mem = true) (hline : line < 512) (hpresent : frameAbsent (m.dst * 2 ^ 16) = false)
    (hheld : s.holdsKeys (s.srcAttr m line).ctx (m.src * 2 ^ 16 + 128 * line) 128) (x : Nat) :
    cellRead (s.copyLine m line).1.mem x =
      if m.dst * 2 ^ 16 + 128 * line ≤ x ∧ x < m.dst * 2 ^ 16 + 128 * line + 128 then
        cellRead s.mem (m.src * 2 ^ 16 + 128 * line + (x - (m.dst * 2 ^ 16 + 128 * line))) else cellRead s.mem x := by
  obtain ⟨a, ha⟩ : ∃ a, a = m.src * 2 ^ 16 + 128 * line := ⟨_, rfl⟩
  obtain ⟨b, hb⟩ : ∃ b, b = m.dst * 2 ^ 16 + 128 * line := ⟨_, rfl⟩
  obtain ⟨l, hl⟩ : ∃ l, l = (List.range 128).map fun i => cellRead s.mem (a + i) := ⟨_, rfl⟩
  have hlen : l.length = 128 := by rw [hl, List.length_map, List.length_range]
  have hget (i : Nat) (hi : i < 128) : l.getD i 0 = cellRead s.mem (a + i) := by simp [hl, hi]
  have hfill : s.fillMissing (fun _ => s.srcAttr m line) ((List.range 4).map fun i => a + 32 * i) = s :=
    s.fillMissing_of_held fun k hk => by
      obtain ⟨i, hi, rfl⟩ := List.mem_map.1 hk
      have := List.mem_range.1 hi
      exact ha ▸ hheld (32 * i) (by omega)
  have hcells : ((List.range 128).map fun i => (b + i, cellRead s.mem (a + i))) = cellsAt b l := by
    rw [← range_map_getD_eq_cellsAt, hlen]
    exact List.map_congr_left fun i hi => by rw [hget i (List.mem_range.1 hi)]
  have hall : (cellsAt b l).filter (fun c => !frameAbsent c.1) = cellsAt b l := List.filter_eq_self.2 fun c hc => by
    obtain ⟨hle, hlt⟩ := le_of_mem_cellsAt hc
    have h := frameAbsent_in_frame (x := c.1 - m.dst * 2 ^ 16) (by omega) hpresent
    rw [Nat.add_sub_cancel' (by omega)] at h
    rw [h]
    rfl
  have hwhole : ∀ q ∈ writtenSectors ((cellsAt b l).map fun c => c.1), q.2 = true := by
    rw [cellsAt_keys, hlen]
    exact writtenSectors_whole b 128 (by omega) rfl
  have hmem : (s.copyLine m line).1.mem = cellWriteList s.mem b l := by
    refine (State.carryPoison_leaves _ m line).1.trans ?_
    rw [← ha, ← hb, hfill, hcells, State.writeMem_mem, hall, State.beforeWrite_whole _ _ _ hwhole, cellWriteAll_cellsAt]
  rw [hmem, cellRead_cellWriteList _ _ _ _ hwf, hlen, ← ha, ← hb]
  split
  next h => exact hget _ (by omega)
  next => rfl

end

/-- R389: the copy of a line in a pass. -/
theorem regran_copies {cluster job line : Nat} {s : State} {j : Job} {m : Migration}
    (hrun : s.runningJob cluster .copy job = some j)
    (hop : j.op = 6) (hrel : j.releases = false) (hopen : s.openFrame j.uid = some m) (hpass : m.pass < 5) (hline : line < 512)
    (htodo : line ∈ m.todo) (hmarked : line ∈ m.marked) (hwf : Memory.wf s.mem = true)
    (hpresent : frameAbsent (m.dst * 2 ^ 16) = false)
    (hheld : s.holdsKeys (s.srcAttr m line).ctx (m.src * 2 ^ 16 + 128 * line) 128) :
    Leads (.regran cluster job line) s fun t => ∀ a, cellRead t.mem a =
      if m.dst * 2 ^ 16 + 128 * line ≤ a ∧ a < m.dst * 2 ^ 16 + 128 * line + 128 then
        cellRead s.mem (m.src * 2 ^ 16 + 128 * line + (a - (m.dst * 2 ^ 16 + 128 * line))) else cellRead s.mem a := by
  obtain ⟨m1, hm1⟩ : ∃ m1 : Migration, m1 = { m with todo := m.todo.filter fun l => l ≠ line } := ⟨_, rfl⟩
  have hmigrate : s.migrateLine j m line = ((s.copyLine m1 line).1.chargeBursts s j.ctx j.cluster).setMig
      (s.copyLine m1 line).2.endPass := by
    rw [State.migrateLine, if_pos hpass, if_neg (not_not.2 htodo), hm1]
    exact if_pos hmarked
  refine ⟨_, execRegran_of_open hrun hop hrel hopen, fun x => ?_⟩
  have hmem : (s.migrateLine j m line).mem = (s.copyLine m1 line).1.mem := by
    rw [hmigrate]
    exact (State.chargeBursts_leaves _ _ _ _).1
  rw [hmem]
  subst hm1
  exact State.copyLine_read hwf hline hpresent hheld x

/-! #### A line switched (R389) -/

/-- R389: forwarding sends an access of a switched line to the destination. -/
theorem State.home_setMig {s : State} {m : Migration} (hmig : ∃ x ∈ s.migs, x.src = m.src) {a : Nat} (hsrc : a / 2 ^ 16 = m.src)
    (hswitched : a % 2 ^ 16 / 128 ∈ m.switched) : (s.setMig m).home a = m.dst * 2 ^ 16 + a % 2 ^ 16 := by
  obtain ⟨x, hx, hxsrc⟩ := hmig
  have hmem : m ∈ (s.setMig m).migs := List.mem_map.2 ⟨x, hx, if_pos hxsrc⟩
  have honly : ∀ y ∈ (s.setMig m).migs, y.src = m.src → y = m := by
    intro y hy hysrc
    obtain ⟨z, -, rfl⟩ := List.mem_map.1 hy
    by_cases hz : z.src = m.src
    · exact if_pos hz
    · rw [if_neg hz] at hysrc
      exact absurd hysrc hz
  rw [State.home]
  split
  next y hy =>
    have hfound := List.find?_some hy
    rw [Bool.and_eq_true, decide_eq_true_eq] at hfound
    rw [honly y (List.mem_of_find?_eq_some hy) (hfound.1.trans hsrc)]
  next hnone =>
    have hmiss := List.find?_eq_none.1 hnone m hmem
    rw [Bool.and_eq_true, decide_eq_true_eq, decide_eq_true_eq] at hmiss
    exact absurd ⟨hsrc.symm, hswitched⟩ hmiss

theorem State.home_setJob (s : State) (j : Job) (a : Nat) : (s.setJob j).home a = s.home a := rfl

/-- R389, step 4: once a line is switched, accesses to it reach the destination. -/
theorem State.home_closeFrame {s : State} {m : Migration} (j : Job) (hmig : ∃ x ∈ s.migs, x.src = m.src) {a : Nat}
    (hsrc : a / 2 ^ 16 = m.src) (hswitched : a % 2 ^ 16 / 128 ∈ m.switched) :
    (s.closeFrame j m).home a = m.dst * 2 ^ 16 + a % 2 ^ 16 := by
  unfold State.closeFrame
  split
  · exact State.home_setMig hmig hsrc hswitched
  · dsimp only
    rw [State.home_setJob]
    exact State.home_setMig (m := { m with closed := true, poisoned := _ }) hmig hsrc hswitched

/-- R389, step 4: a switched line. -/
theorem regran_switches {cluster job line : Nat} {s : State} {j : Job} {m : Migration}
    (hrun : s.runningJob cluster .copy job = some j)
    (hop : j.op = 6) (hrel : j.releases = false) (hopen : s.openFrame j.uid = some m) (hpass : 5 ≤ m.pass) (hline : line < 512)
    (hnew : line ∉ m.switched) : Leads (.regran cluster job line) s fun t =>
      ∀ a, a / 2 ^ 16 = m.src → a % 2 ^ 16 / 128 = line → t.home a = m.dst * 2 ^ 16 + a % 2 ^ 16 := by
  have hmem : m ∈ s.migs := List.mem_of_find?_eq_some hopen
  obtain ⟨r, hr⟩ : ∃ r, (if line ∈ m.marked then s.copyLine m line else (s, m)) = r := ⟨_, rfl⟩
  obtain ⟨hmigs, hsrc, hdst⟩ : r.1.migs = s.migs ∧ r.2.src = m.src ∧ r.2.dst = m.dst := by
    rw [← hr]
    split
    · exact ⟨s.copyLine_migs m line, rfl, rfl⟩
    · exact ⟨rfl, rfl, rfl⟩
  have hmigrate : s.migrateLine j m line = ((r.1.chargeBursts s j.ctx j.cluster).forward r.2 line).closeFrame j
      { r.2 with switched := line :: r.2.switched } := by
    rw [State.migrateLine, if_neg (Nat.not_lt.2 hpass), if_neg (not_or.2 ⟨Nat.not_le.2 hline, hnew⟩), hr]
  refine ⟨_, execRegran_of_open hrun hop hrel hopen, fun a ha hin => ?_⟩
  rw [hmigrate, State.home_closeFrame (m := { r.2 with switched := line :: r.2.switched }) j ⟨m, ?_, hsrc.symm⟩
    (ha.trans hsrc.symm)
    (hin ▸ List.mem_cons_self)]
  · rw [hdst]
  · change m ∈ (r.1.chargeBursts s j.ctx j.cluster).migs
    rw [(r.1.chargeBursts_leaves s j.ctx j.cluster).2, hmigs]
    exact hmem

/-- Settles O55: each step by the lemma on what it does. -/
theorem engineAndCopySteps : Obligations.EngineAndCopySteps := by
  unfold Obligations.EngineAndCopySteps
  intro cluster k job elem e0 e1 i ctx wg line backs refused far eng s
  refine ⟨fun j hhead hturn => commandTake_copy hhead hturn, fun j hhead hturn => commandTake_matrix hhead hturn,
    fun n hturn => State.nextTurn_mayTake hturn,
    fun j hrun => ⟨readElement_reads hrun elem backs refused, perform_performs hrun elem⟩,
    fun p hp hfirst hfree htables hpresent hwf => apply_puts hp hfirst hfree htables hpresent hwf,
    fun j hjob hengine hcluster hst hsteps hrelease hmigrated htiles =>
      postCompletion_completes hjob hengine hcluster hst hsteps hrelease hmigrated htiles,
    fun w hw => ⟨nanWindowClose_waits hw, fun hidle => ⟨_, nanWindowClose_closes hw hidle, ?_⟩⟩,
    fun op ins hins j hjob => ?_,
    fun j a hjob hnew hloc hpoison hfree hwf => ringsweep_sweeps hjob hnew hloc hpoison hfree hwf,
    fun j hrun hop hrel => ⟨regran_opens hrun hop hrel, fun m hopen => ⟨?_, regran_switches hrun hop hrel hopen⟩⟩,
    fun j hrun hop hrel hdone => regranRelease_frees hrun hop hrel hdone⟩
  · obtain ⟨hwindows, hzero, hsends⟩ := s.closeWindow_outcome cluster w
    exact ⟨hwindows, hzero, fun hcount hnames => hsends hcount (by rwa [Cluster.windowOf_ctx hw])⟩
  · have hexec := exec_copyOp (s := s) hins
    refine ⟨fun hindexed => ?_, fun hindex hop hgot => ?_, fun hindex hread => ?_, fun hindex hgot hdone hquant hblock => ?_⟩
    · rw [State.copyElement_index hjob hindexed.1 hindexed.2] at hexec
      exact readsElement_of_exec hexec
    · rw [State.copyElement_source hjob hindex hop hgot] at hexec
      exact readsElement_of_exec hexec
    · exact performsElement_of_exec fun hnew => by rwa [State.copyElement_target hjob hindex hread hnew] at hexec
    · rw [State.copyElement_scale hjob hindex (.inr hgot) hdone hquant hblock] at hexec
      exact performsElement_of_exec fun _ => hexec
  · exact fun hpass hline htodo hmarked hwf hpresent hheld =>
      regran_copies hrun hop hrel hopen hpass hline htodo hmarked hwf hpresent hheld

end Sys2Proof.Machine
end
